-- ==== Sys2Proof/Word.lean ====
section
/-! DEFINITION. The word types of the module and their plainest arithmetic. Hardware words are bit vectors;
counts, indexes and addresses under computation are natural numbers. -/

namespace Sys2Proof

/-- One byte. -/
abbrev Byte := BitVec 8

/-- A string of bytes in ascending address order (R10: little-endian fields). -/
abbrev Bytes := List Byte

/-- A port, A to D as 0 to 3 (R17). -/
abbrev Port := Fin 4

/-- A partition, P0 to P7 (R17). -/
abbrev Part := Fin 8

/-- A context of a partition (R61). -/
abbrev Ctx := Fin 16

/-- A task register set of a port (R370). -/
abbrev SetId := Fin 64

/-- A namespace (R209). -/
abbrev NsId := Fin 64

/-- A sequencer queue, Q0 to Q31 (R80). -/
abbrev Queue := Fin 32

/-- A lane die by its plain number LDnn (R15). -/
abbrev Die := Fin 48

/-- Lane-die number of the square in rank `rank` (1 to 8) and file index `file` (0 to 5) (R15). -/
def squareNumber (rank file : Nat) : Nat := (rank - 1) * 6 + file

end Sys2Proof
end

