-- ==== Sys2Proof/Syntax.lean ====
section
/-! DEFINITION. The commands of the module: one constructor for each row of spec/opcode_table.json, with the
operands that the rule named in the row gives it. No row carries bits, so a command has no encoding. -/

namespace Sys2Proof

/-- The virtual channel on which a frame arrived (R325). -/
inductive Chan where
  | ctrl
  | data
  | fwd
  deriving DecidableEq, Repr

/-- What the header of a request says, and the port it arrived on (R328). `crc`: the trailer CRC passes;
`whole`: LENGTH agrees with the cells received (R332). `seg` and `segLast` are SEG_INDEX and SEG_LAST. `args` is ARGS; a field that is
an operand of the row is read there, so only what the row's operands leave out is read in `args` (15 R376). -/
structure Req where
  port : Port
  chan : Chan
  src : BitVec 12
  dst : BitVec 12
  tag : BitVec 32
  seg : BitVec 16
  segLast : Bool
  crc : Bool
  whole : Bool
  args : BitVec 256
  deriving DecidableEq, Repr

/-- A request whose trailer and length are good (R332). -/
def Req.good (r : Req) : Bool := r.crc && r.whole

/-- A frame in transit: the fields of its header, its payload, by how much its trailer differs from the CRC that belongs to
it (0: it passes, R324), and the channel on which it arrived (R328, R339). -/
structure Transit where
  type : Byte
  dataClass : Bool
  reply : Bool
  src : BitVec 12
  dst : BitVec 12
  hops : BitVec 8
  tag : BitVec 32
  seg : BitVec 16
  segLast : Bool
  rx : BitVec 2
  result : BitVec 16
  word : BitVec 16
  epoch : BitVec 64
  args : BitVec 256
  payload : Bytes
  fault : BitVec 32
  chan : Chan
  deriving DecidableEq, Repr

/-- A frame whose header CRC fails: the port it came in by, its channel and the cells it took, which came good (R324, R325). -/
structure BadFrame where
  port : Port
  chan : Chan
  cells : Nat
  deriving DecidableEq, Repr

/-- The last byte of a sideband POINTER write, and whether the packet error code that follows it is good (14 R366). -/
structure SmOffset where
  value : Byte
  pecGood : Bool
  deriving DecidableEq, Repr

/-- The payload of a hello cell (R343). -/
structure Hello where
  version : Byte
  role : BitVec 2
  node : BitVec 12
  ctrl : BitVec 12
  data : BitVec 12
  fwd : BitVec 12
  seq : BitVec 12
  ack : BitVec 12
  deriving DecidableEq, Repr

/-- A memory tier (R169). -/
inductive Tier where
  | near
  | far
  | scratch
  deriving DecidableEq, Repr

/-- A checker that a self-test found failing: a stack's pseudo-channel, or a scratch bank (R195, R196). -/
inductive Checker where
  | near (stack pc : Nat)
  | far (stack pc : Nat)
  | scratch (bank : Nat)
  deriving DecidableEq, Repr

/-- What a detecting unit reports to the management die (R403, R404): a condition and where it was met. -/
structure Report where
  cause : BitVec 16
  sourceKind : BitVec 4
  sourceId : Byte
  subId : Byte
  severity : BitVec 3
  status : BitVec 16
  partValid : Bool
  part : Part
  ctx : Ctx
  portValid : Bool
  port : Port
  step : BitVec 12
  address : BitVec 64
  detail : BitVec 128
  deriving DecidableEq, Repr

/-- A debug path of the package test port (R449). -/
inductive DebugPath where
  | boundaryScan
  | scanChains
  | coreTrace
  | coreMem
  | cfRead
  | nandRaw
  | testImages
  deriving DecidableEq, Repr

/-- What a sampling of the temperature sensors read, in units of 0.01 degrees, in the order of 0x7010:01 to :0A
(R424, R441): hottest lane die, base die, near stack, far stack, media die, NAND package, optical engine;
management die; coolant inlet; coolant outlet. -/
structure Temps where
  lane : Int
  base : Int
  near : Int
  far : Int
  media : Int
  nand : Int
  optic : Int
  mgmt : Int
  inlet : Int
  outlet : Int
  deriving DecidableEq, Repr

/-- The commands. `r` is the request that carries a frame; `x` a port; `s` one of its task register sets; `p` a
partition; `n` a context; `t` the time of the event in 10 ns units after the last boundary. -/
inductive Instr where
  -- the clock and the partitions' sequencers
  | tickBoundary
  | partitionResetDone (p : Part)
  | movePeriodStart (p : Part)
  | partitionUnitsIdle (p : Part) (t : Nat)
  | tickOverrun (p : Part)
  | flagFall (p : Part) (step : BitVec 12)
  | stepStop (p : Part) (q : Queue)
  | hangWatchdog (p : Part)
  | stepComplete (p : Part) (q : Queue)
  -- the steps of a move table, issued by the partition's sequencer
  | loadw (p : Part)
  | stream (p : Part)
  | drain (p : Part)
  | sfn (p : Part)
  | normStats (p : Part)
  | normApply (p : Part)
  | chainRecur (p : Part)
  | chainPrefix (p : Part)
  | chainOrtho (p : Part)
  | pqtab (p : Part)
  | selectLargest (p : Part)
  | selectSmallest (p : Part)
  | selectSample (p : Part)
  | fetch (p : Part)
  | scan (p : Part)
  | check (p : Part)
  | walk (p : Part)
  | walkRerank (p : Part)
  | reduceP (p : Part)
  | reduceQ (p : Part)
  | wait (p : Part)
  | mark (p : Part)
  | loop (p : Part)
  | endStep (p : Part) (t : Nat)
  -- task registers, doorbells, pushes and pulls
  | trWrite (r : Req) (set : SetId) (go : Bool) (first count : Fin 16) (payload : Bytes)
  | commandStart (x : Port) (s : SetId)
  | trRead (r : Req) (set : SetId) (first count : Fin 16)
  | dbRead (r : Req) (clear : BitVec 32)
  | dataPushInput (r : Req) (set : SetId) (offset : BitVec 48) (payload : Bytes)
  | dataPushMemory (r : Req) (set : SetId) (addr : BitVec 48) (payload : Bytes)
  | dataPullOutput (r : Req) (set : SetId) (offset : BitVec 48) (length : BitVec 14)
  | dataPullMemory (r : Req) (set : SetId) (addr : BitVec 48) (length : BitVec 14)
  -- the link's own frames and the dictionary
  | claim (r : Req) (inst : BitVec 64)
  | release (r : Req)
  | status (r : Req)
  | echo (r : Req) (payload : Bytes)
  | dictRead (r : Req) (idx : BitVec 16) (sub : Byte) (describe : Bool) (token : BitVec 16)
  | dictWrite (r : Req) (idx : BitVec 16) (sub : Byte) (total : BitVec 32) (token : BitVec 16) (payload : Bytes)
  | persistWriteDone (idx : BitVec 16) (sub : Byte)
  | segmentTimeout (x : Port) (token : BitVec 16)
  -- the link below the frames
  | frameForward (x : Port) (f : Transit)
  | codewordFail (x : Port)
  | nakReceived (x : Port) (ackSeq : BitVec 12)
  | ackTimer (x : Port)
  | helloTimer (x : Port)
  | helloReceive (x : Port) (h : Hello)
  | portAlign (x : Port)
  | trainTimeout (x : Port)
  | alignmentLost (x : Port)
  | retrainTimeout (x : Port)
  | ownerLapse (x : Port)
  | portRetrain (r : Req) (x : Port)
  | portDisable (r : Req) (x : Port)
  | portEnable (r : Req) (x : Port)
  | loopbackWrite (r : Req) (x : Port) (v : Byte)
  | loopRun (r : Req) (x : Port) (ms : BitVec 16)
  | loopRunEnd (x : Port) (good failed : Nat)
  -- admin commands
  | identify (x : Port) (s : SetId)
  | logRead (x : Port) (s : SetId)
  | features (x : Port) (s : SetId)
  | fwDownload (x : Port) (s : SetId)
  | fwCommitVerify (x : Port) (s : SetId)
  | fwCommitInstall (x : Port) (s : SetId)
  | sanitizeBlockErase (x : Port) (s : SetId)
  | sanitizeCryptoErase (x : Port) (s : SetId)
  -- I/O commands
  | read (x : Port) (s : SetId)
  | write (x : Port) (s : SetId)
  | writePieceAccept (x : Port) (s : SetId)
  | dataTimeout (x : Port) (s : SetId)
  | pieceProgramDone (group : Nat)
  | discard (x : Port) (s : SetId)
  | secureDiscard (x : Port) (s : SetId)
  | flush (x : Port) (s : SetId)
  | mapSegments (x : Port) (s : SetId)
  | checkCommand (x : Port) (s : SetId)
  -- contexts and staging
  | contextCreate (x : Port) (s : SetId)
  | contextRelease (x : Port) (s : SetId)
  | contextTeardown (x : Port) (s : SetId)
  | stageModelTable (x : Port) (s : SetId)
  | stageModelScales (x : Port) (s : SetId)
  | stageModelSfTables (x : Port) (s : SetId)
  | stageModelFar (x : Port) (s : SetId)
  | stageModelDistance (x : Port) (s : SetId)
  | loadCheck (x : Port) (s : SetId) (t : Nat)
  | stagingComplete (x : Port) (s : SetId)
  -- table-run commands and search
  | scanCommand (x : Port) (s : SetId)
  | embed (x : Port) (s : SetId)
  | inferStep (x : Port) (s : SetId)
  | refitStep (x : Port) (s : SetId)
  | searchAttach (x : Port) (s : SetId)
  | searchDetach (x : Port) (s : SetId)
  | searchQuery (x : Port) (s : SetId)
  | searchUpdate (x : Port) (s : SetId)
  | updateAccept (x : Port) (s : SetId)
  | tombstoneReplay (p : Part) (n : Ctx)
  -- controls written through the dictionary
  | partitionCommit (r : Req) (p : Part)
  | partitionStart (r : Req) (p : Part)
  | partitionStop (r : Req) (p : Part)
  | partitionRelease (r : Req) (p : Part)
  | bankArm (r : Req) (p : Part) (n : Ctx) (kinds : BitVec 5)
  | bankDisarm (r : Req) (p : Part) (n : Ctx) (kinds : BitVec 5)
  | bankDiscard (r : Req) (p : Part) (n : Ctx) (kinds : BitVec 5)
  | nsCreate (r : Req) (ns : NsId)
  | nsDelete (r : Req) (ns : NsId)
  | tickBaseWrite (r : Req) (v : BitVec 16)
  | freeFloorWrite (r : Req) (v : BitVec 32)
  | lockIndex (r : Req) (idx : BitVec 16)
  | attnAck (r : Req) (x : Port) (bits : Byte)
  | unfreeze (r : Req) (x : Port) (bits : BitVec 16)
  | stateRequest (r : Req) (v : Byte)
  | powerTransitionDone
  | p4EntryComplete
  | moduleReset (r : Req) (v : BitVec 32)
  | lcRequest (r : Req) (v : Byte)
  | lcToken (r : Req) (token : Bytes)
  | lcArmLapse
  | attestNonce (r : Req) (x : Port) (nonce : Bytes)
  | readList (r : Req) (ids : Bytes)
  | readerPassDone
  | freezeCounters (r : Req)
  | releaseCounters (r : Req)
  | armFreeze (r : Req)
  | freezeLimitExpiry
  | dumpRequest (r : Req) (t : Nat)
  | testHoldEnter (r : Req)
  | testHoldLeave (r : Req)
  | testStart (r : Req) (v : BitVec 32)
  | testRunEnd (errors : BitVec 32) (firstPin : Byte) (die : Byte)
  -- the sideband bus
  | smbusPointer (idx : BitVec 16) (sub : Byte) (off : SmOffset)
  | smbusRead
  | smbusWrite (idx : BitVec 16) (sub : Byte) (value : Bytes) (pecGood : Bool)
  | smbusLastStatus
  | alertResponse
  | smbusTimeout
  -- supplies, pins, power and temperature
  | auxPowerOn (slotId : BitVec 3)
  | resetAssert
  | pwrfailAssert
  | presentRemoved
  | inputOutOfRange
  | flushComplete (micros : Nat)
  | powerResume
  | bankExhausted
  | powerSample (milliwatts millivolts : Nat)
  | thermalSample (temps : Temps)
  | bankMeasure (microfarads millijoules millivolts : Nat)
  | mgmtWatchdog
  | startupBegin
  | laneKatDone (failed : BitVec 48)
  | memoryCheckersDone (failed : List Checker)
  | tierZeroed (tier : Tier)
  | mapRebuildDone
  | ready (micros : Nat)
  | returnErasureDone
  -- memory integrity
  | innerCodePoll (counts : List (Nat × Nat))
  | leakInterval
  | rowRemap (tier : Tier) (stack pc row : Nat)
  | patrolScrub (block : BitVec 48) (symbols : Nat)
  | eccSelftest (checker : Checker) (good : Bool)
  -- media maintenance
  | programFailure (block : Nat)
  | eraseIssue (block : Nat)
  | eraseComplete (block : Nat) (good : Bool)
  | eraseHold (block : Nat)
  | bandVerify (band : Nat) (weak : List Nat)
  | garbageCollection
  | segmentWriteback (ns : NsId) (region : Nat)
  | mapCheckpoint
  | dieFailure (channel die : Nat)
  | readDisturbRelocation (block : Nat)
  | retentionRefresh (band : Nat) (furtherSets : Nat)
  | wearLevelling
  | graphRepairPass (p : Part) (n : Ctx)
  | secureErase (block : Nat)
  | snapshotExpiry
  | holdLimitExpiry (x : Port) (s : SetId)
  -- errors
  | errorRecordRaise (rep : Report)
  | recordClassify
  -- further events of the link, the start-up and the checks
  | signal (x : Port)
  | creditReturn (x : Port) (vc : Chan) (cells : BitVec 12) (ackSeq : BitVec 12)
  | headerCrcError (x : BadFrame)
  | unknownFrameType (r : Req) (type : Byte)
  | frameLoopback (x : Port) (f : Transit)
  | aux3v3Loss
  | bankFull (millijoules : Nat)
  | railsInRegulation
  | stackTrainingDone
  | testHoldHeld
  | attestReportSigned (x : Port)
  | recordPersisted (seq : BitVec 32)
  | readComplete (x : Port) (s : SetId)
  | waitUntil (p : Part)
  | debugPathAccess (path : DebugPath)
  deriving DecidableEq, Repr

end Sys2Proof
end

