-- ==== Sys2Proof/Decode.lean ====
section
/-! DEFINITION. Reading a command from a word of the table. No row of the table carries bits (log 1). -/

namespace Sys2Proof

/-- The command that a word spells by the table's bits: none, since the table gives no row any bits (log 1). -/
def decodeTableWord (_nbits _w : Nat) : Option Instr := none

end Sys2Proof
end

