-- ==== Sys2Proof/Machine/Tab.lean ====
section
/-! DEFINITION. Sparse tables and sparse byte memories as sorted lists, the plain data of State. A table entry that
is not listed reads as the default its reader names; a byte that is not listed reads 0, the content the spec gives
every tier after start-up (R174) and an unmapped or never-written block (R202). -/

namespace Sys2Proof.Machine

/-- A sparse table: entries under rising keys. -/
abbrev Tab (α : Type) := List (Nat × α)

/-- The entry of key `k`, or the default `d`. -/
def Tab.get {α : Type} : Tab α → α → Nat → α
  | [], d, _ => d
  | (j, v) :: t, d, k => if j = k then v else Tab.get t d k

/-- Is key `k` listed? -/
def Tab.has {α : Type} : Tab α → Nat → Bool
  | [], _ => false
  | (j, _) :: t, k => if j = k then true else Tab.has t k

/-- Set the entry of key `k`, keeping the keys in rising order. -/
def Tab.set {α : Type} : Tab α → Nat → α → Tab α
  | [], k, v => [(k, v)]
  | (j, w) :: t, k, v =>
    if j = k then (k, v) :: t else if k < j then (k, v) :: (j, w) :: t else (j, w) :: Tab.set t k v

/-- Drop the entry of key `k`. -/
def Tab.erase {α : Type} (t : Tab α) (k : Nat) : Tab α := t.filter (fun e => decide (e.1 ≠ k))

/-- Drop every entry whose key satisfies `f`. -/
def Tab.dropIf {α : Type} (t : Tab α) (f : Nat → Bool) : Tab α := t.filter (fun e => !f e.1)

/-- Change the entry of key `k`, read with default `d`. -/
def Tab.upd {α : Type} (t : Tab α) (d : α) (k : Nat) (f : α → α) : Tab α := t.set k (f (t.get d k))

/-- Change every listed entry. -/
def Tab.mapVals {α : Type} (t : Tab α) (f : Nat → α → α) : Tab α := t.map (fun e => (e.1, f e.1 e.2))

/-- The listed entries whose key lies in `lo` to `hi - 1`. -/
def Tab.range {α : Type} (t : Tab α) (lo hi : Nat) : Tab α := t.filter (fun e => decide (lo ≤ e.1 ∧ e.1 < hi))

/-- A sparse byte memory in canonical form: addresses strictly rising, no entry 0. -/
abbrev Mem := List Host.Cell

/-- One byte of a memory. -/
def Mem.read : Mem → Nat → Byte
  | [], _ => 0
  | (j, b) :: m, a => if j = a then b else Mem.read m a

/-- List the byte `b` under address `a`, keeping the addresses in rising order. -/
def Mem.put : Mem → Nat → Byte → Mem
  | [], a, b => [(a, b)]
  | (j, c) :: m, a, b =>
    if j = a then (a, b) :: m else if a < j then (a, b) :: (j, c) :: m else (j, c) :: Mem.put m a b

/-- Store one byte, keeping the canonical form: a byte 0 is not listed. -/
def Mem.write (m : Mem) (a : Nat) (b : Byte) : Mem :=
  if b = 0 then m.filter (fun c => decide (c.1 ≠ a)) else Mem.put m a b

/-- Are the addresses above `lo` (all, for `none`) strictly rising and no byte 0? -/
def Mem.wfFrom : Option Nat → Mem → Bool
  | _, [] => true
  | lo, (a, b) :: m => (match lo with | none => true | some l => decide (l < a)) && decide (b ≠ 0) && Mem.wfFrom (some a) m

/-- The canonical form: addresses strictly rising, no entry equal to what an unlisted address reads as. -/
def Mem.wf (m : Mem) : Bool := Mem.wfFrom none m

/-- `n` bytes from address `a`. -/
def Mem.readBytes (m : Mem) : Nat → Nat → Bytes
  | _, 0 => []
  | a, n + 1 => m.read a :: Mem.readBytes m (a + 1) n

/-- Store bytes from address `a` upward. -/
def Mem.writeBytes (m : Mem) : Nat → Bytes → Mem
  | _, [] => m
  | a, b :: bs => Mem.writeBytes (m.write a b) (a + 1) bs

/-- Zero every byte from `a` to `a + n - 1`. -/
def Mem.clear (m : Mem) (a n : Nat) : Mem := m.filter (fun c => !(decide (a ≤ c.1) && decide (c.1 < a + n)))

/-- The bytes from `a` to `a + n - 1` as a memory that starts at address 0. -/
def Mem.slice (m : Mem) (a n : Nat) : Mem :=
  (m.filter (fun c => decide (a ≤ c.1) && decide (c.1 < a + n))).map (fun c => (c.1 - a, c.2))

/-- Store the first `n` bytes of memory `src` from address `a` upward, zeros included. -/
def Mem.blit (m : Mem) (a n : Nat) (src : Mem) : Mem :=
  (src.filter (fun c => decide (c.1 < n))).foldr (fun c acc => acc.write (a + c.1) c.2) (m.clear a n)

/-- The little-endian number in the `n` bytes from address `a` (R10). -/
def Mem.num (m : Mem) (a : Nat) : Nat → Nat
  | 0 => 0
  | n + 1 => (m.read a).toNat + 256 * Mem.num m (a + 1) n

/-- The little-endian number that a string of bytes spells (R10). -/
def numOf : Bytes → Nat
  | [] => 0
  | b :: bs => b.toNat + 256 * numOf bs

/-- The `n` low bytes of a number, little-endian (R10). -/
def bytesOf : Nat → Nat → Bytes
  | 0, _ => []
  | n + 1, v => BitVec.ofNat 8 v :: bytesOf n (v / 256)

/-- Bits `hi` to `lo` of a number (R10). -/
def bits (v hi lo : Nat) : Nat := (v / 2 ^ lo) % 2 ^ (hi + 1 - lo)

/-- Bit `n` of a number, as a Bool. -/
def bitOf (v n : Nat) : Bool := decide ((v / 2 ^ n) % 2 = 1)

/-- Place a value in a field whose lowest bit is `lo` and width `w`. -/
def field (w lo v : Nat) : Nat := (v % 2 ^ w) * 2 ^ lo

/-- Set or clear bit `n` of a number. -/
def setBit (v n : Nat) (b : Bool) : Nat :=
  if bitOf v n then (if b then v else v - 2 ^ n) else (if b then v + 2 ^ n else v)

/-- Quotient rounded up. -/
def ceilDiv (a b : Nat) : Nat := (a + b - 1) / b

/-- A string's characters as bytes. -/
def ascii (s : List Char) : Bytes := s.map (fun c => BitVec.ofNat 8 c.toNat)

/-- A number of bits set below bit `n`. -/
def popBelow (v : Nat) : Nat → Nat
  | 0 => 0
  | n + 1 => popBelow v n + (if bitOf v n then 1 else 0)

/-- The positions of the set bits below bit `n`, rising. -/
def bitsSet (v : Nat) : Nat → List Nat
  | 0 => []
  | n + 1 => bitsSet v n ++ (if bitOf v n then [n] else [])

/-- Pad a string of bytes with zeros to length `n`, or cut it there. -/
def padTo (n : Nat) (bs : Bytes) : Bytes := (bs ++ List.replicate (n - bs.length) 0).take n

end Sys2Proof.Machine
end

