-- ==== Sys2Proof/Machine/Crc.lean ====
section
/-! DEFINITION. Check values: the fixed configurations of R266 and the computation of R267. -/

namespace Sys2Proof.Machine

/-- A check-value configuration (R266, R268). -/
structure CkCfg where
  width : Nat
  poly : Nat
  init : Nat
  refIn : Bool
  refOut : Bool
  xorOut : Nat
  deriving DecidableEq, Repr

/-- The reverse of the `n` low bits of a number. -/
def revBits (v : Nat) : Nat → Nat
  | 0 => 0
  | n + 1 => (if v % 2 = 1 then 2 ^ n else 0) + revBits (v / 2) n

/-- One of the eight shifts of R267. -/
def ckShift (c : CkCfg) (reg : Nat) : Nat :=
  if bitOf reg (c.width - 1) then Nat.xor ((reg * 2) % 2 ^ c.width) c.poly else (reg * 2) % 2 ^ c.width

/-- One byte fed into the register (R267). -/
def ckByte (c : CkCfg) (reg : Nat) (b : Byte) : Nat :=
  let v := if c.refIn then revBits b.toNat 8 else b.toNat
  Nat.repeat (ckShift c) 8 (Nat.xor reg (v * 2 ^ (c.width - 8)))

/-- The register after a string of bytes (R267). -/
def ckFeed (c : CkCfg) (reg : Nat) : Bytes → Nat
  | [] => reg
  | b :: bs => ckFeed c (ckByte c reg b) bs

/-- The value that a register stands for (R267). -/
def ckFinal (c : CkCfg) (reg : Nat) : Nat := Nat.xor (if c.refOut then revBits reg c.width else reg) c.xorOut

/-- The check value of a string of bytes (R267). -/
def ckValue (c : CkCfg) (bs : Bytes) : Nat := ckFinal c (ckFeed c c.init bs)

/-- The fixed slots 0 to 5 (R266). -/
def ckFixed : Nat → Option CkCfg
  | 0 => some ⟨32, 0x1EDC6F41, 0xFFFFFFFF, true, true, 0xFFFFFFFF⟩
  | 1 => some ⟨32, 0x04C11DB7, 0xFFFFFFFF, true, true, 0xFFFFFFFF⟩
  | 2 => some ⟨64, 0x42F0E1EBA9EA3693, 0xFFFFFFFFFFFFFFFF, true, true, 0xFFFFFFFFFFFFFFFF⟩
  | 3 => some ⟨64, 0x42F0E1EBA9EA3693, 0, false, false, 0⟩
  | 4 => some ⟨16, 0x8BB7, 0, false, false, 0⟩
  | 5 => some ⟨16, 0x1021, 0xFFFF, false, false, 0⟩
  | _ => none

/-- CRC-32C of a string of bytes: slot 0 of R266. -/
def crc32c (bs : Bytes) : Nat := ckValue ⟨32, 0x1EDC6F41, 0xFFFFFFFF, true, true, 0xFFFFFFFF⟩ bs

/-- The nine bytes of the check column of R266. -/
def ckSample : Bytes := ascii ['1', '2', '3', '4', '5', '6', '7', '8', '9']

/-- Does a written configuration keep the rules of R268? -/
def CkCfg.ok (c : CkCfg) : Bool :=
  decide (8 ≤ c.width) && decide (c.width ≤ 64) && decide (c.poly < 2 ^ c.width) && decide (c.poly % 2 = 1)

/-- The tag fed before unit `i` (R269). -/
def ckTag (mode tag addr i : Nat) : Bytes :=
  if mode = 1 then bytesOf 8 addr else if mode = 2 then bytesOf 4 ((tag + i) % 2 ^ 32) else []

end Sys2Proof.Machine
end

