-- ==== Sys2Proof/Machine/Fp.lean ====
section
/-! DEFINITION. Floating point by exact values: decode to an exact value, compute exactly, round once (R101, R112,
R124, R133). An FP32 word is a BitVec 32; every NaN the module writes is the canonical one (R124). -/

namespace Sys2Proof.Machine

/-- The exact value of a floating-point datum: a NaN, an infinity, or `(-1)^neg * m * 2^e`; a zero keeps its sign. -/
inductive FVal where
  | nan
  | inf (neg : Bool)
  | fin (neg : Bool) (m : Nat) (e : Int)
  deriving DecidableEq, Repr

/-- A float format of R124: exponent and fraction widths, bias, whether the all-ones exponent is reserved for
infinities and NaNs (it is not in FP8 E4M3), and the canonical NaN. -/
structure FFmt where
  eb : Nat
  mb : Nat
  bias : Nat
  ieee : Bool
  canon : Nat
  deriving DecidableEq, Repr

def fp32 : FFmt := ⟨8, 23, 127, true, 0x7FC00000⟩
def bf16 : FFmt := ⟨8, 7, 127, true, 0x7FC0⟩
def fp16 : FFmt := ⟨5, 10, 15, true, 0x7E00⟩
def e4m3 : FFmt := ⟨4, 3, 7, false, 0x7F⟩
def e5m2 : FFmt := ⟨5, 2, 15, true, 0x7E⟩

/-- The exact value of a word of format `f` (R124). -/
def FFmt.decode (f : FFmt) (w : Nat) : FVal :=
  let frac := w % 2 ^ f.mb
  let ex := (w / 2 ^ f.mb) % 2 ^ f.eb
  let neg := bitOf w (f.eb + f.mb)
  let top := 2 ^ f.eb - 1
  if f.ieee && decide (ex = top) then (if frac = 0 then .inf neg else .nan)
  else if !f.ieee && decide (ex = top) && decide (frac = 2 ^ f.mb - 1) then .nan
  else if ex = 0 then .fin neg frac (1 - (f.bias : Int) - (f.mb : Int))
  else .fin neg (frac + 2 ^ f.mb) ((ex : Int) - (f.bias : Int) - (f.mb : Int))

/-- Round `m / 2^k` (plus a tiny amount if `sticky`) to an integer: ties to even, or away from zero. -/
def roundShift (even : Bool) (m k : Nat) (sticky : Bool) : Nat :=
  if k = 0 then m
  else
    let q := m / 2 ^ k
    let r := m % 2 ^ k
    let half := 2 ^ (k - 1)
    if half < r then q + 1
    else if r = half then
      (if sticky then q + 1 else if even then (if q % 2 = 0 then q else q + 1) else q + 1)
    else q

/-- The magnitude word of format `f` nearest to `m * 2^e` (plus a tiny amount if `sticky`), with no regard to
overflow: a value past the largest finite one gives a word at or above the all-ones exponent. -/
def FFmt.roundMag (f : FFmt) (even : Bool) (m : Nat) (e : Int) (sticky : Bool) : Nat :=
  if m = 0 then 0
  else
    let emin : Int := 1 - (f.bias : Int)
    let ex : Int := max ((Nat.log2 m : Int) + e) emin
    let q : Int := ex - (f.mb : Int)
    let mant := if q ≤ e then m * 2 ^ (e - q).toNat else roundShift even m (q - e).toNat sticky
    (ex - emin).toNat * 2 ^ f.mb + mant

/-- The word of an FP32 infinity. -/
def infWord (neg : Bool) : BitVec 32 := if neg then 0xFF800000 else 0x7F800000

/-- The canonical quiet NaN (R101). -/
def nanWord : BitVec 32 := 0x7FC00000

/-- An FP32 word from sign and magnitude word, infinities beyond the range (R101). -/
def packF32 (neg : Bool) (mag : Nat) : BitVec 32 :=
  BitVec.ofNat 32 ((if neg then 2 ^ 31 else 0) + min mag 0x7F800000)

/-- Round an exact value to FP32, to nearest with ties to even (R101, R112), or away from zero (R133). -/
def roundF32 (even : Bool) : FVal → BitVec 32
  | .nan => nanWord
  | .inf n => infWord n
  | .fin n m e => packF32 n (fp32.roundMag even m e false)

/-- The exact value of an FP32 word. -/
def valF32 (w : BitVec 32) : FVal := fp32.decode w.toNat

/-- A signed exact number `m * 2^e`. -/
structure Dy where
  m : Int
  e : Int
  deriving DecidableEq, Repr

def Dy.zero : Dy := ⟨0, 0⟩

/-- Exact sum. -/
def Dy.add (a b : Dy) : Dy :=
  if a.e ≤ b.e then ⟨a.m + b.m * 2 ^ (b.e - a.e).toNat, a.e⟩ else ⟨a.m * 2 ^ (a.e - b.e).toNat + b.m, b.e⟩

/-- Exact product. -/
def Dy.mul (a b : Dy) : Dy := ⟨a.m * b.m, a.e + b.e⟩

/-- Is `a` less than `b`? -/
def Dy.lt (a b : Dy) : Bool := decide ((Dy.add a ⟨-b.m, b.e⟩).m < 0)

/-- The signed number of a finite value. -/
def dyOf (n : Bool) (m : Nat) (e : Int) : Dy := ⟨if n then -(m : Int) else (m : Int), e⟩

/-- A finite value from a signed number; an exact zero is +0. -/
def Dy.toF (a : Dy) : FVal := .fin (decide (a.m < 0)) a.m.natAbs a.e

/-- Change the sign. -/
def FVal.neg : FVal → FVal
  | .nan => .nan
  | .inf n => .inf (!n)
  | .fin n m e => .fin (!n) m e

/-- Exact sum with the NaN and infinity rules of R101; a sum of two zeros of one sign keeps the sign. -/
def FVal.add : FVal → FVal → FVal
  | .nan, _ => .nan
  | _, .nan => .nan
  | .inf a, .inf b => if a = b then .inf a else .nan
  | .inf a, _ => .inf a
  | _, .inf b => .inf b
  | .fin a m e, .fin b k f =>
    if m = 0 ∧ k = 0 then .fin (a && b) 0 0 else (Dy.add (dyOf a m e) (dyOf b k f)).toF

/-- Exact product with the NaN and infinity rules of R101. -/
def FVal.mul : FVal → FVal → FVal
  | .nan, _ => .nan
  | _, .nan => .nan
  | .inf a, .inf b => .inf (a != b)
  | .inf a, .fin b m _ => if m = 0 then .nan else .inf (a != b)
  | .fin a m _, .inf b => if m = 0 then .nan else .inf (a != b)
  | .fin a m e, .fin b k f => .fin (a != b) (m * k) (e + f)

/-- One FP32 addition, to nearest with ties to even (R101). -/
def fadd (a b : BitVec 32) : BitVec 32 := roundF32 true ((valF32 a).add (valF32 b))
/-- One FP32 subtraction. -/
def fsub (a b : BitVec 32) : BitVec 32 := roundF32 true ((valF32 a).add (valF32 b).neg)
/-- One FP32 multiplication. -/
def fmul (a b : BitVec 32) : BitVec 32 := roundF32 true ((valF32 a).mul (valF32 b))
/-- One fused multiply-add `a * b + c` (R112). -/
def ffma (a b c : BitVec 32) : BitVec 32 := roundF32 true (((valF32 a).mul (valF32 b)).add (valF32 c))
/-- Change of sign of an FP32 word. -/
def fneg (a : BitVec 32) : BitVec 32 := a ^^^ 0x80000000

/-- One FP32 division, to nearest with ties to even (R112). -/
def fdiv (a b : BitVec 32) : BitVec 32 :=
  match valF32 a, valF32 b with
  | .nan, _ => nanWord
  | _, .nan => nanWord
  | .inf _, .inf _ => nanWord
  | .inf x, .fin y _ _ => infWord (x != y)
  | .fin x _ _, .inf y => packF32 (x != y) 0
  | .fin x m e, .fin y k f =>
    if k = 0 then (if m = 0 then nanWord else infWord (x != y))
    else
      let num := m * 2 ^ 64
      packF32 (x != y) (fp32.roundMag true (num / k) (e - f - 64) (decide (num % k ≠ 0)))

/-- Integer square root of `n` by `k` binary digits, from the digit below `b`. -/
def isqrtAux (n : Nat) : Nat → Nat → Nat
  | 0, r => r
  | k + 1, r => let c := r + 2 ^ k; if c * c ≤ n then isqrtAux n k c else isqrtAux n k r

/-- Integer square root, rounded down. -/
def isqrt (n : Nat) : Nat := isqrtAux n (Nat.log2 n / 2 + 1) 0

/-- One FP32 square root, to nearest with ties to even (R112). -/
def fsqrt (a : BitVec 32) : BitVec 32 :=
  match valF32 a with
  | .nan => nanWord
  | .inf n => if n then nanWord else infWord false
  | .fin n m e =>
    if m = 0 then packF32 n 0
    else if n then nanWord
    else
      let odd := decide (e % 2 ≠ 0)
      let x := (if odd then 2 * m else m) * 2 ^ 64
      let e' : Int := (if odd then e - 1 else e) - 64
      let r := isqrt x
      packF32 false (fp32.roundMag true r (e' / 2) (decide (r * r ≠ x)))

/-- Is an FP32 word a NaN? -/
def fIsNan (a : BitVec 32) : Bool := decide (valF32 a = .nan)

/-- Is an FP32 word a finite number? -/
def fIsFinite (a : BitVec 32) : Bool :=
  match valF32 a with
  | .fin _ _ _ => true
  | _ => false

/-- Is FP32 `a` less than `b` as numbers (+0 equals -0; false with a NaN)? -/
def flt (a b : BitVec 32) : Bool :=
  match valF32 a, valF32 b with
  | .nan, _ => false
  | _, .nan => false
  | .inf x, .inf y => x && !y
  | .inf x, .fin _ _ _ => x
  | .fin _ _ _, .inf y => !y
  | .fin x m e, .fin y k f => Dy.lt (dyOf x m e) (dyOf y k f)

/-- Are FP32 `a` and `b` equal as numbers (+0 equals -0; false with a NaN)? -/
def feq (a b : BitVec 32) : Bool := !fIsNan a && !fIsNan b && !flt a b && !flt b a

/-- The sum of exact values by the rules of R101: a NaN or infinities of both signs give a NaN, an exact zero +0. -/
def sumExact (vs : List FVal) : FVal :=
  if vs.any (fun v => decide (v = .nan)) then .nan
  else
    let pos := vs.any (fun v => decide (v = .inf false))
    let ng := vs.any (fun v => decide (v = .inf true))
    if pos && ng then .nan
    else if pos then .inf false
    else if ng then .inf true
    else (vs.foldl (fun acc v => match v with | .fin n m e => Dy.add acc (dyOf n m e) | _ => acc) Dy.zero).toF

/-- A dot product of a lane: every product exact, the sum exact, one rounding to FP32 (R101). -/
def dotExact (a b : List FVal) : BitVec 32 := roundF32 true (sumExact (List.zipWith FVal.mul a b))

/-- Sum over a fixed binary tree: 2k with 2k + 1, an odd last one carried up (R115, R158, R312), `fuel` levels. -/
def pairUp {α : Type} (add : α → α → α) : List α → List α
  | a :: b :: t => add a b :: pairUp add t
  | t => t

/-- The tree sum of R312; `d` for the empty list. -/
def treeSum {α : Type} (add : α → α → α) (d : α) : Nat → List α → α
  | _, [] => d
  | _, [a] => a
  | 0, a :: _ => a
  | n + 1, l => treeSum add d n (pairUp add l)

/-- The FP32 tree sum of a list (R115, R158). -/
def ftree (l : List (BitVec 32)) : BitVec 32 := treeSum fadd 0 64 l

/-- Element e of `xs` is added by `f` to partial `e mod n`, in ascending e; `n` partials from +0 (R115, R158). -/
def partials (n : Nat) (f : BitVec 32 → α → BitVec 32) (xs : List α) : List (BitVec 32) :=
  (List.range n).map (fun k =>
    (xs.zipIdx.filter (fun p => decide (p.2 % n = k))).foldl (fun acc p => f acc p.1) (0 : BitVec 32))

end Sys2Proof.Machine
end

