-- ==== Sys2Proof/Machine/Formats.lean ====
section
/-! DEFINITION. The number formats: reading elements (R124 to R130, R132), narrowing results (R133 to R135) and
quantising to GS4 (R131). -/

namespace Sys2Proof.Machine

/-- The float format of a code of R122. -/
def fltFmt : Nat → Option FFmt
  | 0 => some fp32
  | 1 => some bf16
  | 2 => some fp16
  | 3 => some e4m3
  | 4 => some e5m2
  | _ => none

/-- Bits of one element of a format code (R122). -/
def fmtBits (c : Nat) : Nat :=
  if c = 0 ∨ c = 8 then 32 else if c = 1 ∨ c = 2 then 16 else if c = 3 ∨ c = 4 ∨ c = 5 then 8 else 4

/-- Is a format code of the integer class (R97, R122)? -/
def fmtIsInt (c : Nat) : Bool := decide (c = 5 ∨ c = 6 ∨ c = 8)

/-- Is a format code GS4 (R122)? -/
def fmtIsGs4 (c : Nat) : Bool := decide (c = 7 ∨ c = 9)

/-- The columns Tile, Operand, Output and Select of R122. DRAIN with SRC 0 alone may carry INT32. -/
def fmtTileOk (c : Nat) : Bool := decide (c ≤ 7)
def fmtOperandOk (c : Nat) : Bool := decide (c ≤ 7 ∨ c = 9)
def fmtOutputOk (c : Nat) (drain : Bool) : Bool := decide (c ≤ 7 ∨ c = 9) || (drain && decide (c = 8))
def fmtSelectOk (c : Nat) : Bool := decide (c ≤ 2)

/-- Two's complement value of the `w` low bits of a number. -/
def signed (w v : Nat) : Int := if bitOf (v % 2 ^ w) (w - 1) then (v % 2 ^ w : Nat) - (2 ^ w : Nat) else (v % 2 ^ w : Nat)

/-- The magnitudes of R126 in halves, by code. -/
def e2m1Halves : Nat → Nat
  | 0 => 0
  | 1 => 1
  | 2 => 2
  | 3 => 3
  | 4 => 4
  | 5 => 6
  | 6 => 8
  | _ => 12

/-- A GS4 element under scale byte `s`: a NaN where the group is a NaN group (R126 to R128). -/
def gs4Val (code s : Nat) : FVal :=
  if s = 255 then .nan else .fin (decide (8 ≤ code % 16)) (e2m1Halves (code % 8)) ((s : Int) - 128)

/-- The value of an element of a format that needs no scale: `raw` is its bits (R124, R132). -/
def elemVal (c raw : Nat) : FVal :=
  match fltFmt c with
  | some f => f.decode (raw % 2 ^ fmtBits c)
  | none => let i := signed (fmtBits c) raw; .fin (decide (i < 0)) i.natAbs 0

/-- The raw bits of element `j` of a packed array whose bytes `rd` reads (R125, R10). -/
def rawElem (rd : Nat → Byte) (c j : Nat) : Nat :=
  let b := fmtBits c
  if b = 4 then (let v := (rd (j / 2)).toNat; if j % 2 = 0 then v % 16 else v / 16)
  else numOf ((List.range (b / 8)).map (fun i => rd (j * (b / 8) + i)))

/-- Bytes of a tile in one lane's weight store (R100, R129): where tile `t` starts after WS_OFFSET. -/
def tileStart (c group t : Nat) : Nat :=
  if c = 7 then (if group = 1 then 34 * t else if group = 2 then 33 * t else 32 * t + (t + 1) / 2)
  else fmtBits c * 8 * t

/-- Bytes that `n` tiles take in one lane (R100). -/
def tilesSize (c group n : Nat) : Nat := tileStart c group n

/-- Bytes of one operand chunk (R100). -/
def chunkSize (c : Nat) : Nat := if c = 6 then 32 else if fmtIsGs4 c then 64 else fmtBits c * 8

/-- Element `j` of a lane's tile: `rd` reads the lane's store, `base` is WS_OFFSET, `t` the tile's number in its
LOADW (R129, R130: an odd tile of group 128 takes the scale byte of the even tile before it). -/
def tileElem (rd : Nat → Byte) (c group base t j : Nat) : FVal :=
  let o := base + tileStart c group t
  if c = 7 then
    let s :=
      if group = 1 then rd (o + 32 + j / 32)
      else if group = 2 then rd (o + 32)
      else rd (base + tileStart c group (t - t % 2) + 32)
    gs4Val (rawElem (fun i => rd (o + i)) c j) s.toNat
  else elemVal c (rawElem (fun i => rd (o + i)) c j)

/-- Element `j` of an operand chunk that `rd` reads (R100, R129). -/
def chunkElem (rd : Nat → Byte) (c j : Nat) : FVal :=
  if c = 7 then gs4Val (rawElem rd c j) (rd 32).toNat
  else if c = 9 then gs4Val (rawElem rd c j) (rd (32 + j / 32)).toNat
  else elemVal c (rawElem rd c j)

/-- What narrowing one value gave: its bits, and whether it saturated or turned a NaN into 0 (R134, R135). -/
structure Narrowed where
  raw : Nat
  sat : Bool
  nanInt : Bool
  deriving DecidableEq, Repr

/-- The magnitude word of the largest finite value of a format (R124). -/
def FFmt.maxMag (f : FFmt) : Nat := if f.ieee then (2 ^ f.eb - 1) * 2 ^ f.mb - 1 else 2 ^ (f.eb + f.mb) - 2

/-- Narrow an exact value to a float format (R133, R134). -/
def narrowFloat (f : FFmt) : FVal → Narrowed
  | .nan => ⟨f.canon, false, false⟩
  | .inf n =>
    if f.ieee then ⟨field 1 (f.eb + f.mb) (if n then 1 else 0) + (2 ^ f.eb - 1) * 2 ^ f.mb, false, false⟩
    else ⟨f.canon, false, false⟩
  | .fin n m e =>
    let s := field 1 (f.eb + f.mb) (if n then 1 else 0)
    let big := match f.decode f.maxMag with
      | .fin _ k g => Dy.lt ⟨k, g⟩ ⟨m, e⟩
      | _ => false
    if big then ⟨s + f.maxMag, true, false⟩ else ⟨s + f.roundMag false m e false, false, false⟩

/-- Narrow an exact value to a `w`-bit integer (R133, R134). -/
def narrowInt (w : Nat) : FVal → Narrowed
  | .nan => ⟨0, false, true⟩
  | .inf n => ⟨if n then 2 ^ (w - 1) else 2 ^ (w - 1) - 1, true, false⟩
  | .fin n m e =>
    let i := roundAway' m e
    if n then
      (if Dy.lt ⟨(2 ^ (w - 1) : Nat), 0⟩ ⟨m, e⟩ then ⟨2 ^ (w - 1), true, false⟩ else ⟨(2 ^ w - i) % 2 ^ w, false, false⟩)
    else
      (if Dy.lt ⟨(2 ^ (w - 1) - 1 : Nat), 0⟩ ⟨m, e⟩ then ⟨2 ^ (w - 1) - 1, true, false⟩ else ⟨i, false, false⟩)
where
  /-- The magnitude's nearest integer, ties away from zero. -/
  roundAway' (m : Nat) (e : Int) : Nat := if 0 ≤ e then m * 2 ^ e.toNat else (m * 2 + 2 ^ (-e).toNat) / 2 ^ ((-e).toNat + 1)

/-- Narrow an exact value to a format code other than GS4 (R133, R134). -/
def narrow (c : Nat) (v : FVal) : Narrowed :=
  match fltFmt c with
  | some f => narrowFloat f v
  | none => narrowInt (fmtBits c) v

/-- The scale byte of a GS4 group: `none` for a NaN group (R131). -/
def gs4Scale (vs : List FVal) : Option Nat :=
  if vs.all (fun v => match v with | .fin _ _ _ => true | _ => false) then
    (List.range 255).find? (fun (s : Nat) =>
      vs.all (fun v => match v with | .fin _ m e => !Dy.lt ⟨6, (s : Int) - 127⟩ ⟨m, e⟩ | _ => false))
  else none

/-- The code nearest to `m * 2^e` in R126, ties away from zero, from the midpoints of R131 in quarters. -/
def e2m1Code (m : Nat) (e : Int) : Nat :=
  ([1, 3, 5, 7, 10, 14, 20].filter (fun q => !Dy.lt ⟨m, e⟩ ⟨(q : Nat), -2⟩)).length

/-- The 4-bit codes of a group under its scale byte (R131). -/
def gs4Codes (s : Option Nat) (vs : List FVal) : List Nat :=
  vs.map (fun v => match s, v with
    | some k, .fin n m e => (if n then 8 else 0) + e2m1Code m (e + 127 - k)
    | _, _ => 0)

/-- Pack 4-bit codes two to a byte (R125). -/
def packNibbles : List Nat → Bytes
  | a :: b :: t => BitVec.ofNat 8 (a % 16 + 16 * (b % 16)) :: packNibbles t
  | [a] => [BitVec.ofNat 8 (a % 16)]
  | [] => []

/-- What writing a row did to the die's counts (R135). -/
structure NarrowCounts where
  sat : Nat
  nanInt : Nat
  nanGroup : Nat
  deriving DecidableEq, Repr

/-- A row of 64 values in output format `c`, as the bytes it is written as, and the counts (R125, R129, R131). Byte 33 of a
row in code 7, which R129 uses for no scale, is written 0 like the bytes after it (DESIGN CHOICE, log 71). -/
def packRow (c : Nat) (vs : List FVal) : Bytes × NarrowCounts :=
  if fmtIsGs4 c then
    let g1 := if c = 7 then vs else vs.take 32
    let g2 := if c = 7 then [] else vs.drop 32
    let s1 := gs4Scale g1
    let s2 := gs4Scale g2
    let sb := fun (s : Option Nat) => BitVec.ofNat 8 (s.getD 255)
    (packNibbles (gs4Codes s1 g1 ++ gs4Codes s2 g2) ++ [sb s1] ++ (if c = 7 then [0] else [sb s2])
        ++ List.replicate 30 0,
      ⟨0, 0, (if s1 = none then 1 else 0) + (if s2 = none then 1 else 0)⟩)
  else
    let ns := vs.map (narrow c)
    let bs := if fmtBits c = 4 then packNibbles (ns.map Narrowed.raw)
      else ns.flatMap (fun n => bytesOf (fmtBits c / 8) n.raw)
    (bs, ⟨(ns.filter Narrowed.sat).length, (ns.filter Narrowed.nanInt).length, 0⟩)

/-- Bytes of a row of 64 elements in format `c` (R145). -/
def rowBytes (c : Nat) : Nat := if fmtIsGs4 c then 64 else fmtBits c * 8

/-- Granules of a row of 64 elements in format `c` (R145). -/
def rowGranules (c : Nat) : Nat := rowBytes c / 32

end Sys2Proof.Machine
end

