-- ==== Sys2Proof/Machine/SfTables.lean ====
section
/-! DEFINITION. The built-in function tables of R151: the coefficients that R152 and R153 construct, segment by
segment, and the functions of R148 to R150 over them. -/

namespace Sys2Proof.Machine

/-- Built-in EXP2 coefficients (R152, R153), segments 0 to 7. -/
def exp2Table0 : List Int :=
  [1073741824, 744259295, 517281511, 1079572136, 748300550, 520090298, 1085434106, 752363748, 522914337,
   1091327906, 756448953, 525753710, 1097253708, 760556452, 528608501, 1103211687, 764686198, 531478793,
   1109202018, 768838357, 534364670, 1115224875, 773013085, 537266218]

/-- Built-in EXP2 coefficients (R152, R153), segments 8 to 15. -/
def exp2Table1 : List Int :=
  [1121280436, 777210470, 540183520, 1127368878, 781430601, 543116663, 1133490379, 785673737, 546065733,
   1139645120, 789939852, 549030816, 1145833280, 794229163, 552011999, 1152055042, 798541749, 555009369,
   1158310587, 802877751, 558023015, 1164600099, 807237274, 561053025]

/-- Built-in EXP2 coefficients (R152, R153), segments 16 to 23. -/
def exp2Table2 : List Int :=
  [1170923762, 811620510, 564099488, 1177281762, 816027536, 567162492, 1183674286, 820458468, 570242128,
   1190101520, 824913493, 573338487, 1196563654, 829392676, 576451658, 1203060876, 833896212, 579581733,
   1209593378, 838424156, 582728805, 1216161350, 842976747, 585892965]

/-- Built-in EXP2 coefficients (R152, R153), segments 24 to 31. -/
def exp2Table3 : List Int :=
  [1222764986, 847554027, 589074306, 1229404479, 852156162, 592272921, 1236080024, 856783273, 595488904,
   1242791816, 861435474, 598722350, 1249540052, 866113044, 601973353, 1256324931, 870815952, 605242009,
   1263146652, 875544370, 608528413, 1270005413, 880298516, 611832662]

/-- Built-in EXP2 coefficients (R152, R153), segments 32 to 39. -/
def exp2Table4 : List Int :=
  [1276901417, 885078421, 615154853, 1283834865, 889884338, 618495083, 1290805962, 894716255, 621853450,
   1297814910, 899574543, 625230053, 1304861917, 904459144, 628624990, 1311947188, 909370268, 632038362,
   1319070932, 914307993, 635470268, 1326233356, 919272661, 638920809]

/-- Built-in EXP2 coefficients (R152, R153), segments 40 to 47. -/
def exp2Table5 : List Int :=
  [1333434672, 924264220, 642390085, 1340675091, 929282884, 645878200, 1347954824, 934328774, 649385255,
   1355274085, 939402111, 652911352, 1362633090, 944502880, 656456597, 1370032052, 949631529, 660021091,
   1377471191, 954787917, 663604940, 1384950723, 959972338, 667208249]

/-- Built-in EXP2 coefficients (R152, R153), segments 48 to 55. -/
def exp2Table6 : List Int :=
  [1392470869, 965184893, 670831124, 1400031848, 970425718, 674473671, 1407633882, 975695068, 678135996,
   1415277195, 980992995, 681818208, 1422962010, 986319690, 685520413, 1430688553, 991675309, 689242721,
   1438457051, 997059968, 692985241, 1446267730, 1002473945, 696748082]

/-- Built-in EXP2 coefficients (R152, R153), segments 56 to 63. -/
def exp2Table7 : List Int :=
  [1454120821, 1007917275, 700531355, 1462016553, 1013390170, 704335171, 1469955159, 1018892779, 708159642,
   1477936870, 1024425266, 712004879, 1485961921, 1029987787, 715870995, 1494030547, 1035580526, 719758103,
   1502142985, 1041203625, 723666319, 1510299473, 1046857258, 727595755]

/-- Built-in EXP2 coefficients (R152, R153), segments 64 to 71. -/
def exp2Table8 : List Int :=
  [1518500250, 1052541590, 731546528, 1526745556, 1058256786, 735518754, 1535035634, 1064002958, 739512548,
   1543370725, 1069780447, 743528028, 1551751076, 1075589249, 747565311, 1560176931, 1081429567, 751624517,
   1568648537, 1087301624, 755705764, 1577166143, 1093205589, 759809171]

/-- Built-in EXP2 coefficients (R152, R153), segments 72 to 79. -/
def exp2Table9 : List Int :=
  [1585730000, 1099141587, 763934860, 1594340357, 1105109789, 768082951, 1602997467, 1111110454, 772253565,
   1611701585, 1117143674, 776446826, 1620452965, 1123209654, 780662855, 1629251865, 1129308539, 784901777,
   1638098541, 1135440605, 789163716, 1646993254, 1141605935, 793448797]

/-- Built-in EXP2 coefficients (R152, R153), segments 80 to 87. -/
def exp2Table10 : List Int :=
  [1655936265, 1147804742, 797757146, 1664927835, 1154037178, 802088888, 1673968228, 1160303517, 806444152,
   1683057710, 1166603850, 810823064, 1692196547, 1172938393, 815225753, 1701385007, 1179307324, 819652348,
   1710623359, 1185710855, 824102979, 1719911875, 1192149148, 828577777]

/-- Built-in EXP2 coefficients (R152, R153), segments 88 to 95. -/
def exp2Table11 : List Int :=
  [1729250827, 1198622400, 833076872, 1738640488, 1205130719, 837600397, 1748081133, 1211674542, 842148485,
   1757573041, 1218253815, 846721268, 1767116489, 1224868813, 851318880, 1776711757, 1231519729, 855941458,
   1786359126, 1238206744, 860589135, 1796058879, 1244930100, 865262049]

/-- Built-in EXP2 coefficients (R152, R153), segments 96 to 103. -/
def exp2Table12 : List Int :=
  [1805811301, 1251689947, 869960336, 1815616678, 1258486500, 874684135, 1825475297, 1265319957, 879433583,
   1835387448, 1272190513, 884208821, 1845353420, 1279098388, 889009987, 1855373507, 1286043718, 893837223,
   1865448001, 1293026856, 898690671, 1875577199, 1300047864, 903570473]

/-- Built-in EXP2 coefficients (R152, R153), segments 104 to 111. -/
def exp2Table13 : List Int :=
  [1885761398, 1307106996, 908476771, 1896000896, 1314204448, 913409710, 1906295993, 1321340458, 918369434,
   1916646992, 1328515206, 923356090, 1927054196, 1335728859, 928369822, 1937517909, 1342981788, 933410778,
   1948038440, 1350274046, 938479106, 1958616096, 1357605901, 943574955]

/-- Built-in EXP2 coefficients (R152, R153), segments 112 to 119. -/
def exp2Table14 : List Int :=
  [1969251188, 1364977566, 948698474, 1979944027, 1372389260, 953849813, 1990694927, 1379841198, 959029123,
   2001504204, 1387333599, 964236556, 2012372174, 1394866683, 969472265, 2023299156, 1402440669, 974736404,
   2034285470, 1410055785, 980029126, 2045331439, 1417712249, 985350587]

/-- Built-in EXP2 coefficients (R152, R153), segments 120 to 127. -/
def exp2Table15 : List Int :=
  [2056437387, 1425410245, 990700944, 2067603638, 1433150123, 996080352, 2078830522, 1440931986, 1001488970,
   2090118366, 1448756105, 1006926956, 2101467502, 1456622657, 1012394470, 2112878262, 1464532024, 1017891671,
   2124350982, 1472484288, 1023418723, 2135885998, 1480479732, 1028975785]

/-- Built-in EXP2 coefficients (R152, R153), packed in the order of R151. -/
def exp2Table : List Int :=
  exp2Table0 ++ exp2Table1 ++ exp2Table2 ++ exp2Table3 ++ exp2Table4 ++ exp2Table5 ++ exp2Table6 ++ exp2Table7
    ++ exp2Table8 ++ exp2Table9 ++ exp2Table10 ++ exp2Table11 ++ exp2Table12 ++ exp2Table13 ++ exp2Table14 ++
    exp2Table15

/-- Built-in LOG2 coefficients (R152, R153), segments 0 to 7. -/
def log2Table0 : List Int :=
  [0, 1549066384, -1537061981, 24110347, 1537058356, -1513415050, 48034513, 1525235061, -1490309646, 71775349,
   1513592270, -1467729360, 95335645, 1502125879, -1445658399, 118718126, 1490831910, -1424081560, 141925456,
   1479706504, -1402984201, 164960239, 1468745914, -1382352221]

/-- Built-in LOG2 coefficients (R152, R153), segments 8 to 15. -/
def log2Table1 : List Int :=
  [187825021, 1457946504, -1362172032, 210522295, 1447304746, -1342430539, 233054496, 1436817213, -1323115117,
   255424009, 1426480575, -1304213594, 277633165, 1416291600, -1285714227, 299684247, 1406247146, -1267605689,
   321579490, 1396344159, -1249877048, 343321082, 1386579672, -1232517750]

/-- Built-in LOG2 coefficients (R152, R153), segments 16 to 23. -/
def log2Table2 : List Int :=
  [364911162, 1376950800, -1215517607, 386351829, 1367454737, -1198866779, 407645136, 1358088754, -1182555761,
   428793095, 1348850197, -1166575370, 449797678, 1339736482, -1150916729, 470660814, 1330745095, -1135571258,
   491384396, 1321873592, -1120530662, 511970279, 1313119589, -1105786918]

/-- Built-in LOG2 coefficients (R152, R153), segments 24 to 31. -/
def log2Table3 : List Int :=
  [532420281, 1304480768, -1091332265, 552736183, 1295954871, -1077159194, 572919734, 1287539697, -1063260438,
   592972645, 1279233103, -1049628964, 612896598, 1271033002, -1036257963, 632693241, 1262937360, -1023140840,
   652364189, 1254944191, -1010271208, 671911030, 1247051564, -997642880]

/-- Built-in LOG2 coefficients (R152, R153), segments 32 to 39. -/
def log2Table4 : List Int :=
  [691335320, 1239257592, -985249861, 710638585, 1231560438, -973086340, 729822324, 1223958309, -961146687,
   748888009, 1216449456, -949425441, 767837083, 1209032172, -937917307, 786670965, 1201704794, -926617150,
   805391046, 1194465695, -915519989, 823998694, 1187313291, -904620990]

/-- Built-in LOG2 coefficients (R152, R153), segments 40 to 47. -/
def log2Table5 : List Int :=
  [842495250, 1180246033, -893915463, 860882034, 1173262409, -883398856, 879160341, 1166360945, -873066750,
   897331443, 1159540198, -862914854, 915396590, 1152798761, -852939002, 933357012, 1146135258, -843135146,
   951213914, 1139548345, -833499356, 968968484, 1133036711, -824027810]

/-- Built-in LOG2 coefficients (R152, R153), segments 48 to 55. -/
def log2Table6 : List Int :=
  [986621888, 1126599071, -814716799, 1004175273, 1120234172, -805562714, 1021629764, 1113940787, -796562049,
   1038986470, 1107717719, -787711394, 1056246482, 1101563794, -779007434, 1073410869, 1095477868, -770446945,
   1090480686, 1089458819, -762026791, 1107456970, 1083505551, -753743922]

/-- Built-in LOG2 coefficients (R152, R153), segments 56 to 63. -/
def log2Table7 : List Int :=
  [1124340739, 1077616991, -745595369, 1141132997, 1071792091, -737578244, 1157834731, 1066029823, -729689735,
   1174446910, 1060329183, -721927106, 1190970490, 1054689187, -714287692, 1207406412, 1049108873, -706768901,
   1223755601, 1043587298, -699368205, 1240018966, 1038123539, -692083144]

/-- Built-in LOG2 coefficients (R152, R153), segments 64 to 71. -/
def log2Table8 : List Int :=
  [1256197405, 1032716695, -684911322, 1272291800, 1027365879, -677850404, 1288303019, 1022070225, -670898115,
   1304231918, 1016828885, -664052239, 1320079339, 1011641027, -657310613, 1335846110, 1006505837, -650671133,
   1351533050, 1001422517, -644131746, 1367140963, 996390285, -637690449]

/-- Built-in LOG2 coefficients (R152, R153), segments 72 to 79. -/
def log2Table9 : List Int :=
  [1382670639, 991408375, -631345290, 1398122861, 986476036, -625094365, 1413498396, 981592531, -618935819,
   1428798003, 976757138, -612867839, 1444022426, 971969151, -606888659, 1459172403, 967227876, -600996553,
   1474248656, 962532631, -595189840, 1489251901, 957882751, -589466878]

/-- Built-in LOG2 coefficients (R152, R153), segments 80 to 87. -/
def log2Table10 : List Int :=
  [1504182841, 953277581, -583826062, 1519042169, 948716479, -578265830, 1533830570, 944198815, -572784653,
   1548548716, 939723973, -567381039, 1563197273, 935291345, -562053532, 1577776895, 930900338, -556800710,
   1592288229, 926550368, -551621183, 1606731910, 922240862, -546513593]

/-- Built-in LOG2 coefficients (R152, R153), segments 88 to 95. -/
def log2Table11 : List Int :=
  [1621108567, 917971259, -541476615, 1635418819, 913741007, -536508952, 1649663276, 909549563, -531609340,
   1663842541, 905396398, -526776540, 1677957208, 901280988, -522009344, 1692007863, 897202821, -517306569,
   1705995083, 893161394, -512667060, 1719919439, 889156213, -508089687]

/-- Built-in LOG2 coefficients (R152, R153), segments 96 to 103. -/
def log2Table12 : List Int :=
  [1733781493, 885186791, -503573346, 1747581801, 881252654, -499116955, 1761320910, 877353331, -494719460,
   1774999361, 873488363, -490379826, 1788617686, 869657298, -486097043, 1802176412, 865859692, -481870122,
   1815676059, 862095108, -477698096, 1829117139, 858363118, -473580019]

/-- Built-in LOG2 coefficients (R152, R153), segments 104 to 111. -/
def log2Table13 : List Int :=
  [1842500157, 854663300, -469514964, 1855825614, 850995239, -465502024, 1869094003, 847358530, -461540314,
   1882305810, 843752770, -457628964, 1895461516, 840177568, -453767125, 1908561594, 836632536, -449953964,
   1921606515, 833117294, -446188668, 1934596739, 829631468, -442470437]

/-- Built-in LOG2 coefficients (R152, R153), segments 112 to 119. -/
def log2Table14 : List Int :=
  [1947532725, 826174690, -438798491, 1960414922, 822746599, -435172065, 1973243777, 819346839, -431590409,
   1986019729, 815975060, -428052791, 1998743213, 812630918, -424558489, 2011414658, 809314076, -421106801,
   2024034488, 806024199, -417697037, 2036603122, 802760961, -414328519]

/-- Built-in LOG2 coefficients (R152, R153), segments 120 to 127. -/
def log2Table15 : List Int :=
  [2049120974, 799524039, -411000586, 2061588451, 796313116, -407712588, 2074005959, 793127881, -404463889,
   2086373895, 789968025, -401253864, 2098692655, 786833248, -398081903, 2110962628, 783723251, -394947406,
   2123184198, 780637743, -391849785, 2135357746, 777576434, -388788465]

/-- Built-in LOG2 coefficients (R152, R153), packed in the order of R151. -/
def log2Table : List Int :=
  log2Table0 ++ log2Table1 ++ log2Table2 ++ log2Table3 ++ log2Table4 ++ log2Table5 ++ log2Table6 ++ log2Table7
    ++ log2Table8 ++ log2Table9 ++ log2Table10 ++ log2Table11 ++ log2Table12 ++ log2Table13 ++ log2Table14 ++
    log2Table15

/-- Built-in GELU_ERF coefficients (R152, R153), segments 0 to 7 (log 90: R154). -/
def geluTable0 : List Int :=
  [-2, 6, -220, -1899, -2, -50, -287, -2447, -3, -65, -372, -3145, -4, -72, -482, -4032, -5, -69, -623, -5157,
   -6, -145, -804, -6580, -8, -188, -1034, -8375, -11, -221, -1327, -10632]

/-- Built-in GELU_ERF coefficients (R152, R153), segments 8 to 15. -/
def geluTable1 : List Int :=
  [-14, -297, -1699, -13466, -18, -405, -2170, -17012, -24, -521, -2766, -21439, -31, -592, -3517, -26951,
   -39, -856, -4460, -33795, -51, -1050, -5644, -42272, -65, -1393, -7124, -52743, -84, -1734, -8971, -65641]

/-- Built-in GELU_ERF coefficients (R152, R153), segments 16 to 23. -/
def geluTable2 : List Int :=
  [-107, -2246, -11271, -81489, -137, -2798, -14125, -100907, -174, -3588, -17660, -124635, -222, -4476,
   -22027, -153551, -281, -5679, -27408, -188693, -356, -7075, -34021, -231283, -449, -8908, -42126, -282756,
   -566, -11117, -52037, -344793]

/-- Built-in GELU_ERF coefficients (R152, R153), segments 24 to 31. -/
def geluTable3 : List Int :=
  [-712, -13827, -64123, -419351, -893, -17197, -78824, -508703, -1118, -21288, -96659, -615478, -1396,
   -26356, -118240, -742709, -1740, -32515, -144283, -893875, -2164, -39962, -175630, -1072952, -2684, -49144,
   -213260, -1284470, -3323, -60169, -258312, -1533562]

/-- Built-in GELU_ERF coefficients (R152, R153), segments 32 to 39. -/
def geluTable4 : List Int :=
  [-4104, -73587, -312106, -1826019, -5058, -89732, -376163, -2168349, -6220, -109164, -452235, -2567825,
   -7632, -132461, -542329, -3032538, -9343, -160429, -648736, -3571440, -11413, -193783, -774062, -4194384,
   -13910, -233563, -921259, -4912147, -16916, -280819, -1093658, -5736450]

/-- Built-in GELU_ERF coefficients (R152, R153), segments 40 to 47. -/
def geluTable5 : List Int :=
  [-20526, -336795, -1295002, -6679952, -24850, -403080, -1529480, -7756233, -30019, -481203, -1801758,
   -8979743, -36182, -573102, -2117008, -10365735, -43513, -680890, -2480942, -11930158, -52212, -807103,
   -2899833, -13689511, -62511, -954373, -3380531, -15660661, -74674, -1125800, -3930483, -17860615]

/-- Built-in GELU_ERF coefficients (R152, R153), segments 48 to 55. -/
def geluTable6 : List Int :=
  [-89004, -1324784, -4557734, -20306231, -105846, -1555298, -5270922, -23013885, -125594, -1821426, -6079262,
   -25999076, -148693, -2127890, -6992515, -29275963, -175644, -2479891, -8020942, -32856845, -207014,
   -2883094, -9175238, -36751574, -243439, -3343568, -10466445, -40966901, -285628, -3868103, -11905844,
   -45505761]

/-- Built-in GELU_ERF coefficients (R152, R153), segments 56 to 63. -/
def geluTable7 : List Int :=
  [-334374, -4463833, -13504825, -50366503, -390556, -5138509, -15274716, -55542058, -455147, -5900465,
   -17226605, -61019073, -529221, -6758368, -19371108, -66777007, -613956, -7721643, -21718125, -72787205,
   -710644, -8799823, -24276548, -79011977, -820689, -10003074, -27053949, -85403685, -945618, -11341824,
   -30056225, -91903872]

/-- Built-in GELU_ERF coefficients (R152, R153), segments 64 to 71. -/
def geluTable8 : List Int :=
  [-1087081, -12826641, -33287222, -98442456, -1246853, -14468268, -36748322, -104937011, -1426834, -16277528,
   -40438012, -111292175, -1629052, -18264887, -44351426, -117399202, -1855653, -20440830, -48479878,
   -123135703, -2108906, -22814945, -52810375, -128365608, -2391187, -25396334, -57325142, -132939373,
   -2704973, -28193101, -62001146, -136694473]

/-- Built-in GELU_ERF coefficients (R152, R153), segments 72 to 79. -/
def geluTable9 : List Int :=
  [-3052830, -31212130, -66809635, -139456210, -3437396, -34458772, -71715713, -141038862, -3861361,
   -37936652, -76677950, -141247190, -4327446, -41647302, -81648048, -139878330, -4838376, -45589714,
   -86570569, -136724080, -5396848, -49760209, -91382749, -131573576, -6005498, -54151940, -96014401,
   -124216360, -6666862, -58754668, -100387930, -114445829]

/-- Built-in GELU_ERF coefficients (R152, R153), segments 80 to 87. -/
def geluTable10 : List Int :=
  [-7383334, -63554298, -104418470, -102063026, -8157119, -68532513, -108014145, -86880750, -8990181,
   -73666744, -111076489, -68727928, -9884193, -78929431, -113501009, -47454200, -10840474, -84288138,
   -115177912, -22934629, -11859934, -89705160, -115993003, 4925521, -12943009, -95137293, -115828742,
   36186063, -14089596, -100535917, -114565475, 70867284]

/-- Built-in GELU_ERF coefficients (R152, R153), segments 88 to 95. -/
def geluTable11 : List Int :=
  [-15298990, -105846618, -112082825, 108945604, -16569814, -111009458, -108261232, 150349585, -17899957,
   -115958969, -102983641, 194956419, -19286509, -120624205, -96137308, 242589002, -20725698, -124929245,
   -87615708, 293013723, -22212834, -128793151, -77320529, 345939052, -23742252, -132130855, -65163706,
   401015050, -25307268, -134853201, -51069482, 457833875]

/-- Built-in GELU_ERF coefficients (R152, R153), segments 96 to 103. -/
def geluTable12 : List Int :=
  [-26900132, -136868099, -34976440, 515931353, -28512001, -138080721, -16839494, 574789685, -30132910,
   -138394643, 3368230, 633841301, -31751757, -137712709, 25653635, 692473887, -33356303, -135937842,
   50002081, 750036559, -34933177, -132974304, 76376026, 805847152, -36467899, -128728552, 104713920,
   859200540, -37944911, -123110597, 134929402, 909377903]

/-- Built-in GELU_ERF coefficients (R152, R153), segments 104 to 111. -/
def geluTable13 : List Int :=
  [-39347627, -116035016, 166910808, 955656807, -40658493, -107422414, 200521052, 997321950, -41859065,
   -97200113, 235597868, 1033676400, -42930093, -85303751, 271954458, 1064053133, -43851627, -71678471,
   309380545, 1087826644, -44603134, -56279410, 347643833, 1104424434, -45163621, -39073246, 386491868,
   1113338114, -45511774, -20039207, 425654300, 1114133902]

/-- Built-in GELU_ERF coefficients (R152, R153), segments 112 to 119. -/
def geluTable14 : List Int :=
  [-45626113, 831205, 464845501, 1106462282, -45485137, 23532034, 503767538, 1090066597, -45067498, 48043512,
   542113437, 1064790363, -44352165, 74331437, 579570707, 1030583126, -43318592, 102346594, 615825077,
   987504682, -41946898, 132025573, 650564374, 935727537, -40218028, 163289930, 683482489, 875537499,
   -38113932, 196047504, 714283369, 807332349]

/-- Built-in GELU_ERF coefficients (R152, R153), segments 120 to 127. -/
def geluTable15 : List Int :=
  [-35617718, 230192484, 742684955, 731618554, -32713810, 265606156, 768423009, 649006054, -29388095,
   302158020, 791254761, 560201184, -25628053, 339706824, 810962293, 465997817, -21422876, 378101579,
   827355628, 367266897, -16763576, 417183432, 840275443, 264944524, -11643066, 456786450, 849595357,
   160018805, -6056236, 496739799, 855223768, 53515722]

/-- Built-in GELU_ERF coefficients (R152, R153), segments 128 to 135. -/
def geluTable16 : List Int :=
  [0, 536869279, 857105180, -53515722, 6526676, 576998705, 855221018, -160018805, 13522758, 616952143,
   849589899, -264944524, 20985160, 656555270, 840267355, -367266897, 28908772, 695637144, 827345028,
   -465997817, 37286507, 734032126, 810949334, -560201184, 46109377, 771581053, 791239629, -649006054,
   55366574, 808133105, 768405919, -731618554]

/-- Built-in GELU_ERF coefficients (R152, R153), segments 136 to 143. -/
def geluTable17 : List Int :=
  [65045578, 843547031, 742666147, -807332349, 75132276, 877692204, 714263104, -875537499, 85611092,
   910449971, 683461045, -935727537, 96465134, 941714671, 650542038, -987504682, 107676352, 971393790,
   615802145, -1030583126, 119225691, 999409343, 579547473, -1064790363, 131093270, 1025697452, 542090192,
   -1090066597, 143258543, 1050209257, 503744566, -1106462282]

/-- Built-in GELU_ERF coefficients (R152, R153), segments 144 to 151. -/
def geluTable18 : List Int :=
  [155700479, 1072910384, 464823070, -1114133902, 168397730, 1093780901, 425632662, -1113338114, 181328795,
   1112815412, 386471255, -1104424434, 194472194, 1130021740, 347624451, -1087826644, 207806613, 1145420957,
   309362576, -1064053133, 221311059, 1159046564, 271938054, -1033676400, 234964999, 1170943046, 235583152,
   -997321950, 248748483, 1181165459, 200508118, -955656807]

/-- Built-in GELU_ERF coefficients (R152, R153), segments 152 to 159. -/
def geluTable19 : List Int :=
  [262642261, 1189778301, 166899719, -909377903, 276627889, 1196853952, 134920189, -859200540, 290687813,
   1202472004, 104706590, -805847152, 304805447, 1206717807, 76370554, -750036559, 318965233, 1209681438,
   49998420, -692473887, 333152691, 1211456312, 25651713, -633841301, 347354450, 1212138284, 3367956,
   -574789685, 361558271, 1211824329, -16838229, -515931353]

/-- Built-in GELU_ERF coefficients (R152, R153), segments 160 to 167. -/
def geluTable20 : List Int :=
  [375753052, 1210611663, -34973760, -457833875, 389928828, 1208596802, -51065521, -401015050, 404076756,
   1205874329, -65158609, -345939052, 418189086, 1202536620, -77314444, -293013723, 432259134, 1198672578,
   -87608788, -242589002, 446281235, 1194367512, -96129705, -194956419, 460250699, 1189702143, -102975504,
   -150349585, 474163754, 1184752556, -108252706, -108945604]

/-- Built-in GELU_ERF coefficients (R152, R153), segments 168 to 175. -/
def geluTable21 : List Int :=
  [488017490, 1179589604, -112074047, -70867284, 501809796, 1174278773, -114556576, -36186063, 515539295,
   1168880097, -115819840, -4925521, 529205282, 1163447824, -115984208, 22934629, 542807654, 1158030716,
   -115169320, 47454200, 556346847, 1152671909, -113492705, 68727928, 569823771, 1147409087, -111068546,
   86880750, 583239745, 1142274835, -108006623, 102063026]

/-- Built-in GELU_ERF coefficients (R152, R153), segments 176 to 183. -/
def geluTable22 : List Int :=
  [596596442, 1137296477, -104411417, 114445829, 609895826, 1132496790, -100381382, 124216360, 623140102,
   1127894012, -96008382, 131573576, 636331664, 1123502190, -91377275, 136724080, 649473048, 1119331634,
   -86565646, 139878330, 662566890, 1115389139, -81643672, 141247190, 675615887, 1111678482, -76674110,
   141038862, 688622764, 1108200564, -71712392, 139456210]

/-- Built-in GELU_ERF coefficients (R152, R153), segments 184 to 191. -/
def geluTable23 : List Int :=
  [701590242, 1104953861, -66806811, 136694473, 714521011, 1101934813, -61998792, 132939373, 727417709,
   1099138025, -57323228, 128365608, 740282902, 1096556609, -52808867, 123135703, 753119067, 1094182418,
   -48478742, 117399202, 765928580, 1092006586, -44350627, 111292175, 778713710, 1090019135, -40437514,
   104937011, 791476603, 1088209917, -36748090, 98442456]

/-- Built-in GELU_ERF coefficients (R152, R153), segments 192 to 199. -/
def geluTable24 : List Int :=
  [804219287, 1086568260, -33287221, 91903872, 816943662, 1085083422, -30056422, 85403685, 829651503,
   1083744714, -27054313, 79011977, 842344460, 1082541479, -24277050, 72787205, 855024060, 1081463236,
   -21718737, 66777007, 867691707, 1080500064, -19371807, 61019073, 880348693, 1079642100, -17227367,
   55542058, 892996196, 1078880197, -15275522, 50366503]

/-- Built-in GELU_ERF coefficients (R152, R153), segments 200 to 207. -/
def geluTable25 : List Int :=
  [905635290, 1078205509, -13505656, 45505761, 918266948, 1077609763, -11906687, 40966901, 930892049,
   1077085289, -10467285, 36751574, 943511386, 1076624770, -9176066, 32856845, 956125668, 1076221611,
   -8021748, 29275963, 968735531, 1075869638, -6993292, 25999076, 981341542, 1075563159, -6080004, 23013885,
   993944202, 1075296984, -5271625, 20306231]

/-- Built-in GELU_ERF coefficients (R152, R153), segments 208 to 215. -/
def geluTable26 : List Int :=
  [1006543956, 1075066582, -4558395, 17860615, 1019141198, 1074867563, -3931101, 15660661, 1031736273,
   1074696137, -3381104, 13689511, 1044329484, 1074548839, -2900362, 11930158, 1056921095, 1074422702,
   -2481428, 10365735, 1069511338, 1074314883, -2117452, 8979743, 1082100413, 1074222990, -1802160, 7756233,
   1094688494, 1074144826, -1529845, 6679952]

/-- Built-in GELU_ERF coefficients (R152, R153), segments 216 to 223. -/
def geluTable27 : List Int :=
  [1107275730, 1074078635, -1295330, 5736450, 1119862252, 1074022618, -1093952, 4912147, 1132448170,
   1073975347, -921521, 4194384, 1145033579, 1073935606, -774294, 3571440, 1157618561, 1073902205, -648941,
   3032538, 1170203184, 1073874302, -542510, 2567825, 1182787508, 1073850976, -452394, 2168349, 1195371582,
   1073831546, -376302, 1826019]

/-- Built-in GELU_ERF coefficients (R152, R153), segments 224 to 231. -/
def geluTable28 : List Int :=
  [1207955448, 1073815365, -312227, 1533562, 1220539141, 1073802023, -258418, 1284470, 1233122692, 1073790903,
   -213351, 1072952, 1245706124, 1073781839, -175709, 893875, 1258289460, 1073774335, -144351, 742709,
   1270872716, 1073768150, -118297, 615478, 1283455906, 1073763135, -96708, 508703, 1296039043, 1073759002,
   -78866, 419351]

/-- Built-in GELU_ERF coefficients (R152, R153), segments 232 to 239. -/
def geluTable29 : List Int :=
  [1308622136, 1073755665, -64159, 344793, 1321205194, 1073752940, -52067, 282756, 1333788223, 1073750684,
   -42152, 231283, 1346371228, 1073748944, -34042, 188693, 1358954215, 1073747459, -27426, 153551, 1371537186,
   1073746342, -22042, 124635, 1384120146, 1073745367, -17673, 100907, 1396703095, 1073744665, -14135, 81489]

/-- Built-in GELU_ERF coefficients (R152, R153), segments 240 to 247. -/
def geluTable30 : List Int :=
  [1409286037, 1073744032, -11279, 65641, 1421868972, 1073743594, -8978, 52743, 1434451903, 1073743174, -7130,
   42272, 1447034829, 1073742917, -5648, 33795, 1459617753, 1073742603, -4464, 26951, 1472200673, 1073742493,
   -3520, 21439, 1484783592, 1073742345, -2769, 17012, 1497366510, 1073742212, -2173, 13466]

/-- Built-in GELU_ERF coefficients (R152, R153), segments 248 to 255. -/
def geluTable31 : List Int :=
  [1509949426, 1073742116, -1701, 10632, 1522532341, 1073742068, -1328, 8375, 1535115256, 1073742012, -1035,
   6580, 1547698170, 1073741926, -805, 5157, 1560281083, 1073741922, -624, 4032, 1572863996, 1073741909, -483,
   3145, 1585446909, 1073741889, -373, 2447, 1598029822, 1073741874, -287, 1899]

/-- Built-in GELU_ERF coefficients (R152, R153), packed in the order of R151. -/
def geluTable : List Int :=
  geluTable0 ++ geluTable1 ++ geluTable2 ++ geluTable3 ++ geluTable4 ++ geluTable5 ++ geluTable6 ++ geluTable7
    ++ geluTable8 ++ geluTable9 ++ geluTable10 ++ geluTable11 ++ geluTable12 ++ geluTable13 ++ geluTable14 ++
    geluTable15 ++ geluTable16 ++ geluTable17 ++ geluTable18 ++ geluTable19 ++ geluTable20 ++ geluTable21 ++
    geluTable22 ++ geluTable23 ++ geluTable24 ++ geluTable25 ++ geluTable26 ++ geluTable27 ++ geluTable28 ++
    geluTable29 ++ geluTable30 ++ geluTable31

/-- The function tables a step evaluates with (R156). -/
structure SfTables where
  exp2 : List Int
  log2 : List Int
  gelu : List Int
  deriving DecidableEq, Repr

/-- The built-in tables. -/
def sfBuiltIn : SfTables := ⟨exp2Table, log2Table, geluTable⟩

/-- The exact polynomial of R149: coefficients over scales, at `t`. -/
def polyExact : List Int → List Nat → Dy → Dy → Dy
  | c :: cs, s :: ss, t, pw => Dy.add (Dy.mul ⟨c, -(s : Int)⟩ pw) (polyExact cs ss t (Dy.mul pw t))
  | _, _, _, _ => Dy.zero

/-- The coefficients of segment `j` of order `o` (R151). -/
def segment (tab : List Int) (o j : Nat) : List Int := (tab.drop ((o + 1) * j)).take (o + 1)

/-- Nearest integer to `m * 2^e`, ties away from zero (R148). -/
def roundAway (m : Int) (e : Int) : Int :=
  if 0 ≤ e then m * 2 ^ e.toNat
  else
    let k := (-e).toNat
    let q := (m.natAbs * 2 + 2 ^ k) / 2 ^ (k + 1)
    if m < 0 then -(q : Int) else q

/-- Floor of `m * 2^e`. -/
def floorDy (m : Int) (e : Int) : Int := if 0 ≤ e then m * 2 ^ e.toNat else m / 2 ^ (-e).toNat

/-- EXP2 of a finite input (R148, R149). An input past 2^12 in magnitude lies beyond the range on either side (R150). -/
def exp2Finite (tab : List Int) (n : Bool) (m : Nat) (e : Int) : BitVec 32 :=
  if m = 0 then 0x3F800000
  else if 12 < (Nat.log2 m : Int) + e then (if n then 0 else infWord false)
  else
    let v := (dyOf n m e).m
    let fl := floorDy v e
    let frac := roundAway ((Dy.add ⟨v, e⟩ ⟨-fl, 0⟩).m) ((Dy.add ⟨v, e⟩ ⟨-fl, 0⟩).e + 32)
    let fl' := if frac = 2 ^ 32 then fl + 1 else fl
    let x := if frac = 2 ^ 32 then 0 else frac.toNat
    let p := polyExact (segment tab 2 (x / 2 ^ 25)) [30, 30, 31] ⟨(x % 2 ^ 25 : Nat), -32⟩ ⟨1, 0⟩
    roundF32 true (Dy.toF ⟨p.m, p.e + fl'⟩)

/-- LOG2 of a finite positive input (R148, R149). -/
def log2Finite (tab : List Int) (m : Nat) (e : Int) : BitVec 32 :=
  let lg := Nat.log2 m
  let f := (m * 2 ^ 23 / 2 ^ lg) % 2 ^ 23
  let p := polyExact (segment tab 2 (f / 2 ^ 16)) [31, 30, 31] ⟨(f % 2 ^ 16 : Nat), -23⟩ ⟨1, 0⟩
  roundF32 true (Dy.add ⟨(lg : Int) + e, 0⟩ p).toF

/-- GELU_ERF of a finite input in [-6, 6) (R148, R149). -/
def geluFinite (tab : List Int) (v : Dy) : BitVec 32 :=
  let y := Dy.add v ⟨6, 0⟩
  let j := (floorDy (y.m * 64) y.e / 3).toNat
  let d := Dy.add y (Dy.mul ⟨-(3 * (j : Int)), 0⟩ ⟨1, -6⟩)
  let t := roundAway d.m (d.e + 40)
  let p := polyExact (segment tab 3 j) [28, 30, 31, 33] ⟨t, -40⟩ ⟨1, 0⟩
  roundF32 true p.toF

/-- EXP2 with the inputs of R150. -/
def sfExp2 (tab : List Int) (b : BitVec 32) : BitVec 32 :=
  match valF32 b with
  | .nan => nanWord
  | .inf n => if n then 0 else infWord false
  | .fin n m e => exp2Finite tab n m e

/-- LOG2 with the inputs of R150. -/
def sfLog2 (tab : List Int) (b : BitVec 32) : BitVec 32 :=
  match valF32 b with
  | .nan => nanWord
  | .inf n => if n then nanWord else infWord false
  | .fin n m e => if m = 0 then infWord true else if n then nanWord else log2Finite tab m e

/-- GELU_ERF with the inputs of R150. -/
def sfGelu (tab : List Int) (b : BitVec 32) : BitVec 32 :=
  match valF32 b with
  | .nan => nanWord
  | .inf n => if n then 0 else infWord false
  | .fin n m e =>
    let v := dyOf n m e
    if Dy.lt v ⟨-6, 0⟩ then 0 else if Dy.lt v ⟨6, 0⟩ then geluFinite tab v else b

/-- The function an SFN names in FUNC (R143): 0 IDENTITY, 1 EXP2, 2 LOG2, 3 GELU_ERF. -/
def sfApply (tabs : SfTables) (func : Nat) (b : BitVec 32) : BitVec 32 :=
  if func = 1 then sfExp2 tabs.exp2 b
  else if func = 2 then sfLog2 tabs.log2 b
  else if func = 3 then sfGelu tabs.gelu b
  else b

/-- Signed 32-bit coefficients packed little-endian (R151). -/
def coefficients : Nat → Bytes → List Int
  | 0, _ => []
  | n + 1, bs => (BitVec.ofNat 32 (numOf (bs.take 4))).toInt :: coefficients n (bs.drop 4)

end Sys2Proof.Machine
end

