-- ==== Sys2Proof/Config.lean ====
section
/-! DEFINITION. What the spec leaves open, as constants without a body: nothing can be proved of the value of
one. Each is applied to the number of a draw (State.free) or to the operands it depends on. -/

namespace Sys2Proof.Config

/-- FREE VALUE (log 10). Draw `k`: does byte `a` of the destination of a cut step keep its new value, or its old
one (R88, R314: a mixture of old and new bytes)? -/
opaque keepsNew (k a : Nat) : Bool

/-- FREE VALUE (log 11). The physical unit, in the layout of the lower map entry's [36:0] (R202), that draw `k`
places a written unit in, on a die of its lane's open band (R201). -/
opaque place (k : Nat) : BitVec 37

/-- FREE VALUE (log 12). Draw `k`: does a write piece that was accepted but not completed read back new after a
reset or a loss of power, or old (R39)? -/
opaque survives (k : Nat) : Bool

/-- FREE VALUE (log 13). The signature that the module's own key gives a message (R457). -/
opaque sign (key : Nat) (message : Bytes) : Bytes

/-- FREE VALUE (log 13). The 32 bytes of word `n` of the OTP row (R444, 17 R436) that was programmed with these values; with none,
as it is unprogrammed or as manufacture left it. -/
opaque otpWord (n : Nat) (vals : List Nat) : Bytes

/-- FREE VALUE (log 13). The digest of the modulus of a firmware key slot, which manufacture programs in the OTP row
(R444). -/
opaque rootDigest (slot : Nat) : Bytes

/-- FREE VALUE (log 7). The firmware image that a slot holds as shipped: slot 0 A, 1 B. -/
opaque shippedImage (slot : Nat) : Bytes

/-- FREE VALUE (log 14). The 32-byte nonce of draw `k` (R447). -/
opaque nonce (k : Nat) : BitVec 256

/-- FREE VALUE (log 14). The modulus of the identity key pair generated at draw `k`, and the certificate that the maker gives it
(R456). -/
opaque identityModulus (k : Nat) : Bytes
opaque deviceCert (k : Nat) : Bytes

/-- FREE VALUE (log 118). What an access through a debug path names and finds at draw `k` (R449): the address, and a byte of what
the model does not hold. -/
opaque probeAddr (k : Nat) : Nat
opaque probeByte (k a : Nat) : Byte

/-- FREE VALUE (log 120). What the pins ID0 to ID2 read as the management die boots at draw `k` (20 R484). -/
opaque slotPins (k : Nat) : BitVec 3

/-- FREE VALUE (log 121). The sector of the data region that a write of persistent data erases first, 32 and above for none (17 R439). -/
opaque dataErase (k : Nat) : Nat

/-- FREE VALUE (log 15). The ordering of bytes that two unordered accesses leave (R93, R108, R377): draw `k`, byte `a`. -/
opaque raceByte (k a : Nat) : Byte

/-- FREE VALUE (log 22). What a WALK takes for a beam, as scores, nodes and expanded flags, and for a visited table where the bytes of its
state record were written by another step (R286): draw `k`, record `a`. -/
opaque walkBeam (k a : Nat) : List (BitVec 32 × Nat × Bool)
opaque walkVisited (k a : Nat) : List Nat

/-- FREE VALUE (log 16). The names and units of the counters that the spec does not list (R461, R465): counter `id`. -/
opaque counterName (id : Nat) : Bytes
opaque counterUnit (id : Nat) : Nat

/-- FREE VALUE (log 17). A number that the spec leaves open, by draw `k` and place `id`. -/
opaque counterValue (k id : Nat) : BitVec 64

/-- FREE VALUE (log 17). By how much counter `id` advances at draw `k`, of those whose meaning the spec does not list or that
follow from timing (R461). -/
opaque counterStep (k id : Nat) : Nat

/-- FREE VALUE (log 17). Of the slots that a step in progress takes on a lane die: those of draw `k`, in cycles of the die's 64
lanes, and how many of them are gated (R110, R111). -/
opaque slotStep (k die : Nat) : Nat
opaque gatedStep (k die : Nat) : Nat

/-- FREE VALUE (log 11). Does the segment cached under key `c` lose its slot to the segment that lookup `k` loads
(R204: slots are found by hashing, and the hash is not given)? -/
opaque displaces (k c : Nat) : Bool

/-- FREE VALUE (log 47). The temperature, in units of 0.01 °C, of a die as a band is opened (R218). -/
opaque openTemp (band die : Nat) : Int

/-- FREE VALUE (log 47). The temperature, in units of 0.01 °C, of a die at a read of draw `k` (R218). -/
opaque readTemp (k die : Nat) : Int

/-- FREE VALUE (log 13). AES-256-XTS of a data unit under the key of draw `key` with tweak `lba` (R211). -/
opaque xts (key lba : Nat) (plain : Bytes) : Bytes

/-- FREE VALUE (log 107). Of a read noted under draw `k`: how many of its words or blocks are corrected (`i` = 0), and which the
`i`th of them is (07 R184, R185). -/
opaque corrections (k i : Nat) : Nat

/-- FREE VALUE (log 11). The slot of the segment cache that a segment takes (08 R204: found by hashing, and the hash is not
given). -/
opaque segSlot (key : Nat) : Nat

/-- FREE VALUE (log 17). The read-threshold set at which the unit read at draw `k` decodes (R219). -/
opaque decodeSet (k : Nat) : Fin 16

/-- FREE VALUE (log 17). Cycles that a unit waited, by draw `k` and place `a` (R105, R107). -/
opaque waitCycles (k a : Nat) : Nat

/-- FREE VALUE (log 17). Of `n` things that a step in progress or cut had in hand at draw `k`, how many were done; never more
than `n` where it is used (R66, R111, R180). -/
opaque doneOf (k n : Nat) : Nat

/-- FREE VALUE (log 70). What a PQTAB leaves in accumulator entry `key` (entry * 64 + lane) by draw `k`: none if it
leaves the entry alone (R95 has PQTAB write the accumulator file and does not say where). -/
opaque pqtabAcc (k key : Nat) : Option (BitVec 32)

/-- FREE VALUE (log 18). Taken branches and exceptions of a control core at draw `k`, and the `i`th one of the reset at draw
`born`: its TIME, source and target offset and kind (R472). -/
opaque coreStep (core k : Nat) : Nat
opaque coreTrace (core born i : Nat) : BitVec 64 × BitVec 24 × BitVec 24 × Fin 3

/-- FREE VALUE (log 20). The bytes of a position dump's sections whose content the model does not hold (R474):
draw `k`, byte `i`. -/
opaque dumpByte (k i : Nat) : Byte

/-- FREE VALUE (log 23). The 10 ns units of the timebase that pass at draw `k` (R403, R463, R466). -/
opaque timeStep (k : Nat) : Nat

/-- FREE VALUE (log 114). The 10 ns units from the reset of draw `k` to the start of the timestamp counter of trace source
`src` (R469). -/
opaque dieDelay (k src : Nat) : Nat

/-- FREE VALUE (log 115). Does the trace record of draw `k` find its source's buffer full (R471)? -/
opaque traceFull (k : Nat) : Bool

/-- FREE VALUE (log 115). The messages between trace sources that are recorded at draw `k`: sender, receiver, sequence (R470). -/
opaque messages (k : Nat) : List (Nat × Nat × BitVec 32)

/-- FREE VALUE (log 24). Nanoseconds that the traffic of a request takes on an engine, at draw `k` (R66, R318). -/
opaque engineTime (k : Nat) : Nat

/-- FREE VALUE (log 25). What a read of a byte that two sensors or a peer's optics decide gives: draw `k` (R347). -/
opaque sensed (k : Nat) : BitVec 32

/-- FREE VALUE (log 26). DETAIL of a record whose cause the spec gives no content for: draw `k` (R403). -/
opaque recordDetail (k : Nat) : BitVec 128

end Sys2Proof.Config
end

