-- ==== Sys2Proof/Machine/State.lean ====
section
/-! DEFINITION. The state of the module as plain data, the reasons a command can stop, and the state after reset.
Sparse tables (Tab) stand for the register files: an entry that is not listed has its default. -/

namespace Sys2Proof.Machine

/-! ## Lane dies (04, 05) -/

/-- An accumulator entry of one lane: its 32 bits and the type of the pass that last wrote it (R95, R136). -/
structure AccEntry where
  bits : BitVec 32
  isInt : Bool
  deriving DecidableEq, Repr

/-- A tile that a LOADW put in a die's tile queue: format, GS4 group, WS_OFFSET, its number in the LOADW (R106, R129),
the issue number of that LOADW, and its FRONT field (R105). -/
structure Tile where
  fmt : Nat
  group : Nat
  base : Nat
  t : Nat
  issue : Nat
  front : Bool
  deriving DecidableEq, Repr

/-- A tile in the lanes' staging or stationary registers (R94, R104): the tile, and the bytes of its span of the lane
weight store as the front read them (R108). -/
structure Held where
  tile : Tile
  bytes : Mem
  deriving DecidableEq, Repr

/-- One lane die: lane weight store by die offset (R85, R96), operand buffer, granule tags (R144; an unlisted granule
is FP16, as zeroing leaves it), accumulator file by entry * 64 + lane (an unlisted entry is empty, R91), tile queue,
staging and stationary registers (R94), and the uncorrectable 64-bit words of the two stores and accumulator entries in
parity fault (R118). `badScale` lists the uncorrectable words of the scale registers (R137), by
(context * 2 + bank) * 16384 + byte. -/
structure Die where
  lws : Mem
  ob : Mem
  tags : Tab Nat
  acc : Tab AccEntry
  tiles : List Tile
  staging : Option Held
  stationary : Option Held
  badLws : List Nat
  badOb : List Nat
  badAcc : List Nat
  badScale : List Nat
  deriving DecidableEq, Repr

def Die.empty : Die := ⟨[], [], [], [], [], none, none, [], [], [], []⟩

/-- A span of the tiers whose bytes the spec gives no value: first byte, length, and the draw of its free values. -/
structure Fog where
  lo : Nat
  len : Nat
  draw : Nat
  deriving DecidableEq, Repr

/-- An entry of a beam: score, node, and whether it is expanded (R287). -/
structure BeamEntry where
  score : BitVec 32
  node : Nat
  expanded : Bool
  deriving DecidableEq, Repr

/-- The beam and the visited table of a query's state record (R286), whose layout in scratch the spec does not give
(log 22); kept by the address that the record was written at, and good where a record's bytes are those left open there at draw
`mark`. `reranked` says that a re-rank wrote over the visited table, so that the query makes no further hops (R298). -/
structure WalkState where
  beam : List BeamEntry
  visited : List Nat
  reranked : Bool
  mark : Nat
  deriving DecidableEq, Repr

/-- A state record in which no walk has run. -/
def WalkState.empty : WalkState := ⟨[], [], false, 0⟩

/-! ## Contexts and their banks (03, 02) -/

/-- The five kinds of double-banked state of a context, numbered as LAST_KIND (R74). -/
inductive Kind where
  | table
  | scales
  | sft
  | dist
  | tomb
  deriving DecidableEq, Repr

/-- State of a shadow (R74). -/
inductive Shadow where
  | empty
  | loading
  | ready
  | armed
  | failed
  | retiring
  deriving DecidableEq, Repr

/-- One bank: its content (image without header for scales and function tables, whole image for a move table) or, for
distance tables and tombstones, its address and size. For function tables `addr` holds the three PRESENT bits. -/
structure Bank where
  full : Bool
  data : Mem
  len : Nat
  addr : Nat
  deriving DecidableEq, Repr

def Bank.none : Bank := ⟨false, [], 0, 0⟩

/-- The two banks of one kind: which is active, the banks, the shadow's state, the arming write that armed it
(R77: kinds armed together never swap apart), and whether a DISCARD waits on the retiring bank (R503). -/
structure Banks where
  side : Bool
  active : Bank
  shadow : Bank
  st : Shadow
  armGroup : Nat
  dropWhenRetired : Bool
  deriving DecidableEq, Repr

def Banks.none : Banks := ⟨false, Bank.none, Bank.none, .empty, 0, false⟩

/-- A search index attached to a context (R276, R281): the descriptor's near address and bytes; its generations, newest
first, with the boundary each came at, and whether the running tick changes the index (R297); the boundary of the last
swap of the tombstone images and the slots changed since the old image was brought up to date (R295). -/
structure Index where
  addr : Nat
  desc : Bytes
  gens : List (Nat × Nat)
  touched : Bool
  swapped : Nat
  log : List Nat
  deriving DecidableEq, Repr

/-- Life of a context slot (R61; ACTIVE is LOADED with a batch step pending or running). -/
inductive CtxLife where
  | empty
  | loaded
  | faulted
  deriving DecidableEq, Repr

/-- One context of a partition (R61, R74). `queue` holds the task register sets (port * 64 + set) of its table-run
commands, oldest first. -/
structure Context where
  life : CtxLife
  owner : Port
  table : Banks
  scales : Banks
  sft : Banks
  dist : Banks
  tomb : Banks
  activeEpoch : BitVec 64
  swaps : BitVec 8
  loadResult : BitVec 8
  failStep : BitVec 12
  lastKind : BitVec 3
  lastMark : BitVec 32
  queue : List Nat
  index : Option Index
  refitStep : BitVec 64
  deriving DecidableEq, Repr

def Context.none : Context :=
  ⟨.empty, 0, Banks.none, Banks.none, Banks.none, Banks.none, Banks.none, 0, 0, 0, 0, 0, 0, [], Option.none, 0⟩

/-- An EMPTY slot whose last context was `c`: REFIT_STEP keeps its value until a context is created there (12 R319). -/
def Context.gone (c : Context) : Context := { Context.none with refitStep := c.refitStep }

/-! ## Partitions and sequencers (02, 03) -/

/-- State of a partition (R58). -/
inductive PartLife where
  | free
  | stopped
  | running
  | stopping
  | resetting
  deriving DecidableEq, Repr

/-- A partition's definition (R55). -/
structure PDef where
  squares : Nat
  nearBase : Nat
  nearSize : Nat
  farBase : Nat
  farSize : Nat
  scratchBase : Nat
  scratchSize : Nat
  ports : Nat
  divider : Nat
  phase : Nat
  share : Nat
  streams : List Nat
  deriving DecidableEq, Repr

def PDef.none : PDef := ⟨0, 0, 0, 0, 0, 0, 0, 0, 1, 0, 100, [100, 100, 100, 100]⟩

/-- A partition: its state, the definition in force, whether a partition reset waits for the next boundary, and whether
its known-answer test has ended (R400). -/
structure Partition where
  life : PartLife
  defn : PDef
  resetDue : Bool
  katDone : Bool
  deriving DecidableEq, Repr

def Partition.none : Partition := ⟨.free, PDef.none, false, false⟩

/-- A place where a step writes: a tier address, a die's lane weight store or operand buffer (byte offsets), its
accumulators (entry * 64 + lane), or the beam and visited table of the state record at an address (R286). -/
inductive Store where
  | mem
  | lws (die : Nat)
  | ob (die : Nat)
  | acc (die : Nat)
  | walk
  deriving DecidableEq, Repr

/-- A span that a step wrote and what it held before (R88: a cut step leaves a mixture of old and new), with the 64-byte
blocks of it that were uncorrectable (07 R187). -/
structure Saved where
  store : Store
  lo : Nat
  len : Nat
  bytes : Mem
  tags : Tab Nat
  accs : Tab AccEntry
  walk : Option WalkState
  bad : List Nat
  deriving DecidableEq, Repr

/-- Slots of passes that a step takes on a die: the rate's counter of R461, the slots, the gated ones among them (R110,
R111), and the draw from which on they pass. -/
structure Slots where
  die : Nat
  rate : Nat
  taken : Nat
  gated : Nat
  since : Nat
  deriving DecidableEq, Repr

/-- A step in a queue (R80): its index in the table, its operand fields with advances and shifts applied (as the
32-byte word), its issue number and time, whether its unit has carried it out, whether it was cut (R88), whether a LOADW has put
its tiles in the tile queues (R106), the passes of a STREAM and the rows of a DRAIN or SFN done by each virtual die, the
spans it wrote, the slots its passes took (R111), the time it used of each shared resource in ns (R66), the spans of the
lane weight stores whose tiles its passes took (R108: die, first byte, bytes), the virtual dies on which it has run
out of tiles with no LOADW issued behind them (R105, R106), and the report of data that its unit met and may not deliver,
held until the step completes (07 R181). -/
structure QStep where
  index : Nat
  word : Nat
  issue : Nat
  at' : Nat
  ran : Bool
  cut : Bool
  queued : Bool
  rows : Tab Nat
  saved : List Saved
  slots : List Slots
  used : List (Nat × Nat)
  tiles : List (Nat × Nat × Nat)
  starved : List Nat
  found : Option Report
  tally : List (Nat × Nat)
  deriving DecidableEq, Repr

/-- A step as it enters its queue. -/
def QStep.issued (index word issue at' : Nat) : QStep :=
  ⟨index, word, issue, at', false, false, false, [], [], [], [], [], [], none, []⟩

/-- A scan program as a media die's engine copied it, with the bytes of its sets (10 R255), its PROGRAM field, and whether the
SCAN that copied it was refused, so that no set was copied. -/
structure ScanCopy where
  program : Nat
  prog : Mem
  sets : Mem
  refused : Bool
  deriving DecidableEq, Repr

/-- A batch step in progress (R46): its context and command, the banks it runs on (R77), the next step to issue, the
loop indices (R87), the wait in force (R86), and its flag falls (R48). `stamp` is the snapshot, `number` the batch
step's number in its command, `start` its time in 10 ns units, `odd` whether REFIT_STEP was odd at its start (R304),
`side` the side of its scale registers' bank, and `program` the scan program that each media die holds, as its SCAN
read it (R255). -/
structure Run where
  ctx : Ctx
  key : Nat
  stamp : Nat
  number : Nat
  start : Nat
  table : Bank
  scales : Bank
  sft : Bank
  dist : Bank
  tomb : Bank
  next : Nat
  loops : List Nat
  waiting : Bool
  untilPassed : Bool
  missed : Option Nat
  fallbacks : Nat
  odd : Bool
  side : Bool
  program : Tab ScanCopy
  deriving DecidableEq, Repr

/-- A sequencer: the batch step in progress, the 32 queues (R80), the issue counter, the owner of the last batch
step (R91), the pass values of the four streams and the last context served in each (R62), the time at which the move
period ends and the boundary it began at (R45), and the move periods that have ended without a completed step (R52).
`idleFrom` is the time up to which idle time has been counted (R53); `busy`, `stepped` and `below` say of the running
move period that it has had a batch step pending or in progress, that a step has completed in it (R52), and that it has
been counted as below a fit clock (R44). -/
structure Seq where
  run : Option Run
  queues : Tab (List QStep)
  issued : Nat
  lastOwner : Option Port
  pass : List Nat
  served : List Nat
  wasPending : List Bool
  periodEnd : Nat
  periodEpoch : Nat
  stuck : Nat
  idleFrom : Nat
  busy : Bool
  stepped : Bool
  below : Bool
  deriving DecidableEq, Repr

def Seq.none : Seq :=
  ⟨Option.none, [], 0, Option.none, [0, 0, 0, 0], [15, 15, 15, 15], [false, false, false, false], 0, 0, 0, 0,
    false, false, false⟩

/-! ## Task register sets (15) -/

/-- State of a task register set (R370). -/
inductive SetLife where
  | idle
  | written
  | taken
  | done
  deriving DecidableEq, Repr

/-- One task register set: TR00 to TR12, the completion record TR13 to TR15, its state, the stamp, the input area, the
output, the output space taken and the bytes of output (R375), and the progress of the command it holds: its place in
the taking order, whether it has started (R372), its COUNT so far, the bytes of a WRITE that have arrived (in 64-byte
units), the atomic groups accepted before it, the batch steps published and begun, the flag falls, the output of the
last batch step to reach END and its length (R389), a status that waits for the completion window, the status that
READ_COMPLETE will post, the batch steps that have ended and wait for publication, and the time in ns of each shared
resource that its reads in progress take, which is charged when they finish (02 R66). -/
structure TaskSet where
  regs : Tab (BitVec 64)
  tr13 : BitVec 64
  tr14 : BitVec 64
  tr15 : BitVec 64
  life : SetLife
  stamp : BitVec 64
  input : Mem
  output : Mem
  outSpace : Nat
  outLen : Nat
  order : Nat
  started : Bool
  count : Nat
  arrived : List Nat
  wdata : Mem
  accepted : Nat
  published : Nat
  begun : Nat
  fallbacks : Nat
  missed : Option Nat
  held : Nat
  span : Mem
  spanLen : Nat
  due : Option Nat
  dueStep : Nat
  verdict : Nat
  used : List (Nat × Nat)
  deriving DecidableEq, Repr

def TaskSet.none : TaskSet :=
  ⟨[], 0, 0, 0, .idle, 0, [], [], 0, 0, 0, false, 0, [], [], 0, 0, 0, 0, Option.none, 0, [], 0, Option.none, 0, 0, []⟩

/-! ## Media and flash translation (08, 09) -/

/-- State of a logical block's published entry (R202). -/
inductive EntrySt where
  | unmapped
  | mapped
  | unreadable
  deriving DecidableEq, Repr

/-- One published version of a logical block: the boundary that published it, its state, its 4 KiB, its check value
(R274), the physical unit in the layout of the lower entry's [36:0] (R202), the number of its band (R200), the epoch at
which the unit was accepted and the atomic group of its write, as its trailer has them (R205), the unit it was copied
from while that is still readable (09 R238), and for an UNREADABLE one whether both buffer copies were lost (07 R186). -/
structure Ver where
  epoch : Nat
  st : EntrySt
  data : Mem
  value : BitVec 64
  unit : BitVec 37
  band : Nat
  born : Nat
  group : Nat
  source : Option (BitVec 37)
  bufLost : Bool
  deriving DecidableEq, Repr

/-- Life of a namespace (R228; DELETING is ACTIVE with a delete that waits for the boundary). -/
inductive NsLife where
  | absent
  | active
  deriving DecidableEq, Repr

/-- A namespace: its life, its size in blocks, the versions of each block, newest first, and the generations of each
region, newest first with the boundary each took effect at (R203). A block or region not listed was never written.
`touched` lists the regions whose generation has advanced at the last boundary. -/
structure Namespace where
  life : NsLife
  blocks : Tab (List Ver)
  gens : Tab (List (Nat × Nat))
  touched : List Nat
  deriving DecidableEq, Repr

def Namespace.none : Namespace := ⟨.absent, [], [], []⟩

/-- What a pending map change does (R31, R222, R223): of the last kind, both buffer copies of the blocks were lost, and they
become UNREADABLE (07 R186, 08 R202). -/
inductive ChangeKind where
  | write
  | discard
  | secure
  | lose
  deriving DecidableEq, Repr

/-- A map change accepted in the running tick (R31, R32): its blocks, the data from its first block on, the check
values of a protected namespace (8 bytes each), its atomic group (R212), the band and the unit that each block of a write is
placed in (R201) and the epoch of its acceptance (R205). -/
structure Change where
  kind : ChangeKind
  ns : Nat
  start : Nat
  len : Nat
  data : Mem
  values : Mem
  group : Nat
  units : List (Nat × BitVec 37)
  born : Nat
  deriving DecidableEq, Repr

/-- A unit copied to a new place, named by the map from the next boundary on (R226, R238): `source` is the unit the copy was
read from, none for one rebuilt from parity. `lost` marks an entry that becomes UNREADABLE there instead (R235). -/
structure Move where
  ns : Nat
  lba : Nat
  src : BitVec 37
  dst : BitVec 37
  band : Nat
  source : Option (BitVec 37)
  lost : Bool
  deriving DecidableEq, Repr

/-- A piece in the protected write buffer (R212): its atomic group, its namespace and blocks, the bands it is placed in,
whether it is published, the blocks of it that a secure discard has overwritten with zeros (R223), the 256 KiB of each
buffer copy that it takes (07 R172), whose account the channel time of its programs goes to (02 R65): partition 0 to 7,
8 + port, or none, and the dies that program it (17 R419). -/
structure Piece where
  group : Nat
  ns : Nat
  start : Nat
  blocks : Nat
  bands : List Nat
  published : Bool
  wiped : List Nat
  slot : Nat
  payer : Option Nat
  dies : List Nat
  deriving DecidableEq, Repr

/-- State of a band (R230). -/
inductive BandLife where
  | opened
  | closed
  | verified
  | victim
  deriving DecidableEq, Repr

/-- A band (R200, R218): number, lane, the block it uses on each of its 32 dies, the place of its parity die among them,
state, opening time in 10 ns units, the age that earlier start-ups have added and the allowance of the last one, if it was
there (R221), program temperature, learned offset, units placed, the blocks that failed to program (R237), the pages of its
rows that have lost a page before verification (R235), its age at the last sample read of a refresh (R246), and for a block
that replaced one after a program failure the row from which it is in use (R237). -/
structure Band where
  number : Nat
  lane : Nat
  blks : List Nat
  parity : Nat
  life : BandLife
  opened : Nat
  aged : Nat
  allow : Option Nat
  temp : Int
  offset : Int
  used : Nat
  failed : List Nat
  lost : List Nat
  sampled : Nat
  fromRow : Tab Nat
  deriving DecidableEq, Repr

/-- A block that is being emptied, in state VICTIM (R230): it leaves its band once every unit of it is reclaimable, to be
erased (R226) or retired (R235, R236). `by'` is the activity that empties it, by its bit in MAINT_ACTIVE (R249). -/
structure Evac where
  block : Nat
  retire : Bool
  by' : Nat
  deriving DecidableEq, Repr

/-- A block waiting for or under erasure (R230, R232, R233): whether the erase is issued, whether it has been suspended and
held (R233), whether it must be issued again after a reset (R234), and the activity it is for, by its bit in MAINT_ACTIVE
(R249). -/
structure Erasing where
  block : Nat
  issued : Bool
  held : Bool
  again : Bool
  suspended : Bool
  by' : Nat
  deriving DecidableEq, Repr

/-- A secure discard whose copies are not all erased (R223): the boundary before which it was accepted, its namespace,
the units that hold copies, and the parity blocks of the unverified bands among theirs. `group` numbers it together with
its change. -/
structure SecureJob where
  group : Nat
  epoch : Nat
  ns : Nat
  units : List (BitVec 37)
  blocks : List Nat
  deriving DecidableEq, Repr

/-- A sanitize in progress (R384): block erase or crypto erase, the command that asked for it (none after a reset),
whether its boundary has passed, and the blocks erased since. -/
structure Sanitize where
  crypto : Bool
  key : Option Nat
  begun : Bool
  erased : List Nat
  deriving DecidableEq, Repr

/-- Flash translation and the array. Block numbers are (channel * 16 + die) * 4096 + block. `pe` and `reads` are the
counts of R230, `peBase` the erases that every block has had besides (R448); `retired` the RETIRED blocks; `pending`
and `moves` wait for the boundary; `pieces` are in the write buffer; `groups` counts the atomic groups, `lane` is the
next lane to place in; `cache` and `dirty` hold regions as namespace * 2^29 + region (R204, R205), the least recently
loaded first, and `upper` the upper entries (R202), an unlisted one 0; `doomed` are the blocks that a read found
without margin (R236); `carried` says that a secure erasure of before the last reset is unfinished (R224); `sanitized`
is the state that SANITIZE_STATE reports; `claims` are the claimed bands with the activity that claims each (R245; 15
for the relocation before a retirement), `active` the bits of MAINT_ACTIVE, `pressure` that the actions of R243 are in
force, `lastExpiry` the boundary of the last expiry (R244), `timed` that a host has written HOST_TIME since the
last start-up (R221), `spilled` the superseded segment versions that lie in metadata bands (R227), `badSegs` the map
segments that no threshold set decodes (16 R409), `badCopies` the 64-byte blocks of the write buffer that are uncorrectable
in one of its copies (07 R172, R186), `badData` the blocks of one of its copies whose data a miscorrection has changed, with the draw
of what they hold (07 R185; 10 R274), and `segUnit` the unit that the last map segment was written to, with the places taken in it
(R202). `pe` of a RETIRED
block is its whole count. -/
structure Media where
  spaces : Tab Namespace
  pending : List Change
  moves : List Move
  pieces : List Piece
  groups : Nat
  cache : List Nat
  dirty : List Nat
  upper : Tab (BitVec 64)
  doomed : List Nat
  bands : List Band
  bandNo : Nat
  lane : Nat
  pe : Tab Nat
  peBase : Nat
  reads : Tab Nat
  retired : List Nat
  evac : List Evac
  erasing : List Erasing
  secure : List SecureJob
  carried : Bool
  sanitize : Option Sanitize
  sanitized : Nat
  readOnly : Bool
  pressure : Bool
  lastExpiry : Option Nat
  ckptEpoch : Nat
  claims : List (Nat × Nat)
  active : Nat
  deadDies : List Nat
  timed : Bool
  spilled : Nat
  badSegs : List Nat
  badCopies : List Nat
  badData : Tab Nat
  segUnit : Option (BitVec 37 × Nat)
  seen : List (Nat × Nat)
  deriving DecidableEq, Repr

/-- The 64 open bands of a module as shipped (log 6): band b on lane b, block 0 of each of its dies. -/
def firstBands : List Band :=
  (List.range 64).map (fun b => ⟨b, b, List.replicate 32 0, b % 32, .opened, 0, 0, none, 0, 0, 0, [], [], 0, []⟩)

def Media.shipped : Media :=
  ⟨[], [], [], [], 0, [], [], [], [], firstBands, 64, 0, [], 0, [], [], [], [], [], false, none, 0, false, false, none, 0, [], 0, [], true, 0, [], [], [], none, []⟩

/-! ## The link (13) and the ports' front ends (15) -/

/-- LINK_STATE of a port, numbered 0 to 7 as the object (R343). -/
inductive LinkLife where
  | disabled
  | down
  | signal
  | aligned
  | up
  | retraining
  | loopback
  | trainFailed
  deriving DecidableEq, Repr

/-- A frame that the module sends (R328, R330): a reply, or a frame forwarded or looped back. -/
structure Frame where
  type : Nat
  reply : Bool
  data : Bool
  dst : Nat
  src : Nat
  tag : Nat
  hops : Nat
  rx : Port
  seg : Nat
  segLast : Bool
  status : Nat
  word : Nat
  epoch : Nat
  args : Nat
  payload : Bytes
  deriving DecidableEq, Repr

/-- What leaves a port: a frame, a frame passed on (R339), or a cell that is no part of a frame (R323, R343). `hello` has the
bytes of a hello cell; an acknowledgement returns the credits of the three channels that it lists (R322, R325); `run` stands
for the ECHO frames of a generator run (R346). -/
inductive Sent where
  | frame (f : Frame)
  | forward (ingress : Port) (f : Transit) (bad : Bool)
  | hello (payload : Bytes)
  | run (frames : Nat)
  | ack (seq : Nat) (credits : List Nat)
  | nak (seq : Nat)
  | resend (first count : Nat)
  deriving DecidableEq, Repr

/-- A generator run (R346): its milliseconds, the frames that it has begun to send, and those that returned good and failed. -/
structure LoopRun where
  ms : Nat
  next : Nat
  good : Nat
  failed : Nat
  deriving DecidableEq, Repr

/-- One port: link state (R343), owner (R333), peer as its hello announced it, credits to the peer for control, data
and forward, the cells of each channel whose buffer space is free and whose credits are not returned yet (R325), SEQ
of the next cell and last good ACK_SEQ, unacknowledged cells (R323), frames that still have cells to send (channel,
cells left, frame; oldest first) and what has left the port (newest first), FREEZE, the boundary at which each of its
bits was set, and the bits to set at the next boundary (R392, R393), doorbell (R378), status word (R335), whether a
set was taken and an unmasked doorbell bit raised in the running tick, the generator run (R346), the attestation
nonce in progress (R457), the cells that have left the port with header and bytes, newest first (R322), the cells sent since the last
one of the control channel, up to three, and whether the last cell of the other two was of the forward channel (R326), and the
times of its retrains (R344). -/
structure PortSt where
  life : LinkLife
  node : BitVec 12
  host : BitVec 64
  peerModule : Bool
  peerNode : BitVec 12
  credits : List Nat
  owed : List Nat
  txSeq : BitVec 12
  rxSeq : BitVec 12
  replay : Nat
  waiting : List (Chan × Nat × Sent)
  sent : List Sent
  freeze : BitVec 10
  freezeAt : Tab Nat
  freezeDue : BitVec 10
  db : BitVec 32
  word : BitVec 16
  evTaken : Bool
  evDb : Bool
  loopRun : Option LoopRun
  nonce : Option Bytes
  cells : List (Nat × Bytes)
  sinceCtrl : Nat
  lastFwd : Bool
  retrains : List Nat
  deriving DecidableEq, Repr

/-- A port as start-up leaves it: DOWN, unowned, ATTN and LOG set (R335, R435). -/
def PortSt.start : PortSt :=
  ⟨.down, 0, 0, false, 0, [0, 0, 0], [0, 0, 0], 0, 0, 0, [], [], 0, [], 0, 0, 0x8800, false, false, none, none, [], 3, false, []⟩

/-! ## The object dictionary (14) -/

/-- A write to a WO control, in the acceptance order of the tick (R356); `port` is none for the sideband. -/
structure Ctl where
  port : Option Port
  idx : Nat
  sub : Nat
  value : Nat
  deriving DecidableEq, Repr

/-- An open segmented read: the copy and the segment that frees it (R358). -/
structure OpenRead where
  port : Port
  token : BitVec 16
  data : Bytes
  deriving DecidableEq, Repr

/-- An open segmented write (R359). -/
structure OpenWrite where
  port : Port
  token : BitVec 16
  idx : Nat
  sub : Nat
  total : Nat
  next : Nat
  data : Bytes
  deriving DecidableEq, Repr

/-- Persistent values being programmed as one record (R353): the objects and values, and the request or the command
that waits (R354; FEATURES). -/
structure PersistJob where
  vals : List (Nat × Nat × Bytes)
  req : Option Req
  cmd : Option Nat
  deriving DecidableEq, Repr

/-- The dictionary: values last accepted and values that govern, for the numeric objects (key index * 256 + sub-index;
an unlisted one has its default) and for strings and domains; locked indices (R362); controls of the tick; persistent
writes in flight; open transfers; the last token; the sideband's pointer and last status (R367), and the bytes of its last
answer. -/
structure Dict where
  objs : Tab (BitVec 64)
  gov : Tab (BitVec 64)
  doms : Tab Bytes
  govDoms : Tab Bytes
  locked : List Nat
  ctl : List Ctl
  jobs : List PersistJob
  reads : List OpenRead
  writes : List OpenWrite
  token : BitVec 16
  smIdx : BitVec 16
  smSub : Byte
  smOff : Byte
  smStatus : Byte
  smOut : Bytes
  deriving DecidableEq, Repr

def Dict.start : Dict := ⟨[], [], [], [], [], [], [], [], [], 0, 0x1000, 1, 0, 0, []⟩

/-! ## Errors (16) -/

/-- STATE of a record, numbered 0 to 3 (R403). -/
inductive RecState where
  | queued
  | handling
  | done
  | absorbed
  deriving DecidableEq, Repr

/-- An error record (R403) and whether it has been read (R406). -/
structure Rec where
  seq : BitVec 32
  epoch : BitVec 64
  time : BitVec 64
  st : RecState
  escalated : Bool
  persisted : Bool
  wasRead : Bool
  related : BitVec 32
  rep : Report
  deriving DecidableEq, Repr

/-- The ring by slot (R405), the next SEQ, DEVICE_STATE (R402), the persistent pages 1, 2 and 5 and the dumps of page
4 (R413), DEVICE_EPOCH before the last reset, the records that wait to be copied and the times of recent copies
(R415), the events of the running tick (R335), the rows of the stacks in which an uncorrectable read has occurred
since their last remap (07 R188), and what the last start-up wrote to page 6 (R413): SELFTEST_RESULT, SQUARES_FAULTED and the
two words of SCRATCH_FAULTED. -/
structure Errors where
  ring : Tab Rec
  next : BitVec 32
  device : Nat
  history : List Rec
  events : List Rec
  dumps : List Mem
  resets : List (BitVec 32 × BitVec 64 × Byte)
  lastEpoch : BitVec 64
  toCopy : List (BitVec 32)
  copied : List Nat
  evLog : Bool
  evTherm : Bool
  evMedia : Bool
  evLife : Bool
  badRows : List Nat
  boot : List (BitVec 64)
  deriving DecidableEq, Repr

def Errors.start : Errors := ⟨[], 0, 0, [], [], [], [], 0, [], [], true, false, false, false, [], [0, 0, 0, 0]⟩

/-! ## Memory integrity and staging (07) -/

/-- Tiers whose checkers failed (R197), the rows replaced by spare rows of each pseudo-channel (R188), the boundary after
which its last remap was made, the leaky buckets' levels of the lane dies (R190), the row trackers (R188), and the reads of the
tick, whose corrections are counted at its boundary: lane die or none for a tier, first byte, bytes (R184; log 107).
Stacks are numbered near 0 to 15, far 16 to 23; a pseudo-channel's key is stack * 16 + pc, a row's key is that times 2^32
plus the row. -/
structure Guard where
  nearOff : Bool
  farOff : Bool
  banksOff : Nat
  remaps : Tab (List Nat)
  remapTick : Tab Nat
  levels : Tab Nat
  rows : Tab Nat
  seen : List (Option Nat × Nat × Nat)
  deriving DecidableEq, Repr

def Guard.start : Guard := ⟨false, false, 0, [], [], [], [], []⟩

/-- A staging or image load in progress (R75, R178, R388): the command's set, partition, context, kind, and for a far
staging the ledger entry, the bytes it moves and the flash channel slots it takes; `stop` is the completion
code of the error that its source met, with the bad block's address (R178, R186). -/
structure Staging where
  key : Nat
  part : Nat
  ctx : Nat
  kind : Nat
  entry : Nat
  moved : Nat
  slots : Nat
  stop : Option (Nat × Nat)
  deriving DecidableEq, Repr

/-! ## Power, reset and start-up (17) -/

/-- AUX3V3 and the inputs that hold start-up (R433), power state and the transition in progress (R420), whether entry
to P4 waits (R423), squares whose ungating has not ended, the power-fail warning and its flush (R428), sensors that were at
their trip temperature (R426), THERMTRIP#, the throttles and their episodes (R425), the samples of the last 1 ms and of a
rise of the clock (R421), START_STAGE, RESET_SOURCE and the events of the start-up (R434), the time of a reset that is due
(R402, R446), whether both firmware slots failed (R455), ALERT# (14 R369), and the source of a reset that waits for THERMTRIP# (R426). -/
structure Power where
  aux : Bool
  resetLow : Bool
  failLow : Bool
  absent : Bool
  badInput : Bool
  ids : BitVec 3
  state : Nat
  target : Option Nat
  waitP4 : Bool
  ungating : Nat
  warned : Bool
  flushed : Bool
  hot : List Nat
  tripped : Bool
  falling : Bool
  thermal : Bool
  nandHot : Bool
  coolant : Bool
  thermAt : Option Nat
  samples : List Nat
  rise : Nat
  stage : Nat
  source : Nat
  railsUp : Bool
  trained : Bool
  katDone : Bool
  checked : Bool
  nearZero : Bool
  farZero : Bool
  mapUp : Bool
  resetAt : Option Nat
  bootHeld : Bool
  alert : Bool
  heldReset : Option Nat
  deriving DecidableEq, Repr

/-- After a module reset: AUX3V3 present, the 48 V domains off, Yilry restarted (R432). -/
def Power.start : Power :=
  { aux := true, resetLow := false, failLow := false, absent := false, badInput := false, ids := 0, state := 0
    target := none, waitP4 := false, ungating := 0, warned := false, flushed := false, hot := [], tripped := false
    falling := false, thermal := false, nandHot := false, coolant := false, thermAt := none, samples := [], rise := 0
    stage := 0, source := 3, railsUp := false, trained := false, katDone := false, checked := false, nearZero := false
    farZero := false, mapUp := false, resetAt := none, bootHeld := false, alert := false, heldReset := none }

/-! ## Security and life cycle (18) -/

/-- A firmware slot: its bytes and the length downloaded (R386, R436). -/
structure Slot where
  image : Mem
  len : Nat
  deriving DecidableEq, Repr

/-- The OTP row's programmed words (transition words, word 47 apart, each with target, epoch and SEQ; SVN floor words;
revocations; the draw of the identity pair whose modulus words 112 and 113 digest), the
state (R443), the arms in force with their targets, ports and times (R445, R446), the transition accepted for the next boundary
(R446), the draw of LC_NONCE (R447), unlocked debug paths (R450), the draws of the keys by slot, an unlisted slot being zeroised,
and the slots whose key register on the media dies is cleared (R458, R459), whether the
identity pair was drawn, the firmware slots, an installed image that has not reached READY (R454), start-ups of
BOOT_SLOT that ended without READY (R455), what the last access through a debug path has read (R449), the erases of each sector of
the code flash (17 R439, R440: slot * 256 + sector, and 512 + data region * 256 + sector), and whether the data region is still to be
copied for an installed image (17 R439). -/
structure Security where
  state : Nat
  words : List (Nat × BitVec 64 × BitVec 32)
  scrapWord : Option (Nat × BitVec 64 × BitVec 32)
  floors : List Nat
  revoked : Nat
  idWord : Option Nat
  arms : List (Nat × Port × Nat)
  due : Option Nat
  nonceDraw : Nat
  unlocked : BitVec 16
  keys : Tab Nat
  cleared : List Nat
  identity : Option Nat
  slotA : Slot
  slotB : Slot
  fresh : Bool
  fails : Nat
  probe : Bytes
  erases : Tab Nat
  uncopied : Bool
  deriving DecidableEq, Repr

/-- As shipped: PROVISIONED after one transition (R497); the two slots' images are not held (log 7), no namespace has a key, and the
metadata key has been drawn (log 118). -/
def Security.shipped : Security :=
  { state := 1, words := [(1, 0, 0)], scrapWord := none, floors := [], revoked := 0, idWord := some 0, arms := [], due := none
    nonceDraw := 0, unlocked := 0, keys := [(64, 1)], cleared := [], identity := some 0, slotA := ⟨[], 0⟩, slotB := ⟨[], 0⟩
    fresh := false, fails := 0, probe := [], erases := [], uncopied := false }

/-! ## Counters, trace, dumps and field test (19, 20) -/

/-- Performance counters by id (R461); the spans of draws over which they have counted and that of the counting in progress, and
the draw at which those of a lane die restarted (R462, R466); the pass in progress with its start, its counters as they last
were found, and its entries so far (R463); the freeze (R466, R467); the time of the last capture and the number of the next
dump (R474); the draw at which each control core's trace was last enabled, and the records of the spans before (R472); the
loopback run in progress (R495); the time and the draw of the last reset, the draw of the last start-up, and the times at which the timestamp counters of dies
that were ungated or reset since began (R469). -/
structure Observe where
  perf : Tab (BitVec 64)
  spans : List (Nat × Nat)
  since : Nat
  restarts : Tab Nat
  pass : Option (List Nat)
  passAt : Nat
  passFrom : List Nat
  passed : List Nat
  frozen : Bool
  frozenAt : Nat
  armed : BitVec 4
  lastDump : Option Nat
  dumpNo : Nat
  coreDraw : Tab Nat
  coreCount : Tab Nat
  run : Option Nat
  bornAt : Nat
  born : Nat
  begun : Nat
  origins : Tab Nat
  deriving DecidableEq, Repr

def Observe.start : Observe :=
  { perf := [], spans := [], since := 0, restarts := [], pass := none, passAt := 0, passFrom := [], passed := [], frozen := false
    frozenAt := 0, armed := 0, lastDump := none, dumpNo := 0, coreDraw := [], coreCount := [], run := none, bornAt := 0, born := 0, begun := 0
    origins := [] }

/-- The data side: the bytes of the tiers by device address, uncorrectable blocks and words, spans whose bytes the
spec leaves open, the search engine's beams, and the lane dies (R169, R184). -/
structure Fabric where
  mem : Mem
  bad : List Nat
  fog : List Fog
  walks : Tab (List WalkState)
  dies : Tab Die
  deriving DecidableEq, Repr

def Fabric.zeroed : Fabric := ⟨[], [], [], [], []⟩

/-- The timebase in 10 ns units, the time of the last boundary, DEVICE_EPOCH, and whether boundaries run (R29, R435). -/
structure Clock where
  now : Nat
  boundaryAt : Nat
  epoch : BitVec 64
  running : Bool
  deriving DecidableEq, Repr

/-! ## The state of the module -/

/-- The module. `parts` by partition, `ctxs` by partition * 16 + context, `seqs` by partition, `sets` by port * 64 +
set, `ports` by port, `vtimes` the virtual times of R64 by resource * 20 + requester and, from key 1000 on, the ns
charged so far that do not make a whole engine-microsecond (R66), `orders` the next place in the taking order,
`stagings` the loads in progress, `arms` the number of the next arming write, `hold` the state of the test hold
(R491), `free` numbers the free values drawn so far (the model's own field, log 4), `pending` is the queue of waiting
commands, first in, first out. -/
structure State where
  clock : Clock
  fabric : Fabric
  dict : Dict
  parts : Tab Partition
  ctxs : Tab Context
  seqs : Tab Seq
  vtimes : Tab Nat
  sets : Tab TaskSet
  ports : Tab PortSt
  orders : Nat
  stagings : List Staging
  arms : Nat
  media : Media
  errors : Errors
  guard : Guard
  power : Power
  security : Security
  observe : Observe
  hold : Nat
  free : Nat
  pending : List Instr
  deriving DecidableEq, Repr

/-- Why the model stops as a fault. No command of the module stops it: every error is a record, a reply or a
completion (16 R398), so this type has no constructor. -/
inductive Fault where
  deriving DecidableEq, Repr

/-- Why the model does not carry out a command. -/
inductive Refusal where
  /-- Raised by the dispatch for a command that has no meaning in this model yet. Safe: the run stops. -/
  | notModelled (mnemonic : String)
  deriving DecidableEq, Repr

/-- The module right after a module reset (R397, R432, R434): every tier and store zero, epoch 0, the ports DOWN, the
sets IDLE, the 48 V domains off; the media as shipped. -/
def State.reset : State :=
  { clock := ⟨0, 0, 0, false⟩
    fabric := Fabric.zeroed
    dict := Dict.start
    parts := []
    ctxs := []
    seqs := []
    vtimes := []
    sets := []
    ports := []
    orders := 0
    stagings := []
    arms := 0
    media := Media.shipped
    errors := Errors.start
    guard := Guard.start
    power := Power.start
    security := Security.shipped
    observe := Observe.start
    hold := 0
    free := 0
    pending := [] }

end Sys2Proof.Machine
end

