-- ==== Sys2Proof/Machine/Bench.lean ====
section
/-! DEFINITION. What a unit works on while it carries out a step: the tiers, the lane dies, the counters, and the
reads and writes of them with the rules of R93, R108, R118, R184 to R187. A Bench is built from the state for one step
and put back after it; it is no part of State. -/

namespace Sys2Proof.Machine

/-- What a flash read of one block gives (R202, R209, R261). -/
inductive BlockRead where
  | data (bytes : Mem)
  | unreadable
  | denied
  deriving DecidableEq, Repr

/-- Why a unit stopped a step: it counts as a missed deadline (R90, R99, R144, R256, R315, R502), it met
uncorrectable data (R186) or an uncorrectable block, or a namespace that no longer lists the owner (R209). -/
inductive Halt where
  | missed
  | uncorrectable (lane : Option Nat) (addr : Nat)
  | flash (ns lba : Nat)
  | denied (ns lba : Nat)
  deriving DecidableEq, Repr

/-- The bench of one step. `dirty` are the spans that unfinished steps of other queues write; `draw` numbers the free
values of the step; `vdies` are the partition's squares by virtual die (R73); `perf` and `tally` are the performance
counters and objects that the step advances, with the amounts; `slots` and `used` are what the step adds to its own
entry in the queue; `copies` are the scan programs that the media dies hold (10 R255); `mhz` is the arithmetic clock;
`reading` lists the accumulator entries that uncompleted DRAIN and SFN steps read, by virtual die, first and number,
and `pends` says whether a STREAM has still to write an entry of a virtual die (04 R107); `rows` is how far each
virtual die is; `more` says that a LOADW is issued whose tiles have not joined the tile queues (R106), `starved` are the
virtual dies that have run out of tiles without one, and `tiles` the spans of the lane weight stores that the step's
passes took (R108); `hopNow` are the hops that a WALK has made for the query
at hand, and `hops` the most that it has made for one; `ctx` and `side` name the bank of the scale registers; `block` reads a logical block in the snapshot,
and `flash` lists what was read of it (namespace, first block, blocks); `lookups` are the table entries and
`codeBytes` the bytes of far code records that a WALK has read (11 R291); `ck` the check-value configurations the
partition may use; `window` and `apart` the base of refit window A and the distance to window B (R304). -/
structure Bench where
  mem : Mem
  bad : List Nat
  fog : List Fog
  walks : Tab (List WalkState)
  dies : Tab Die
  perf : List (Nat × Nat)
  tally : List (Nat × Nat)
  saved : List Saved
  slots : List Slots
  used : List (Nat × Nat)
  copies : Tab ScanCopy
  mhz : Nat
  reading : List (Nat × Nat × Nat)
  pends : Nat → Nat → Bool
  rows : Tab Nat
  more : Bool
  starved : List Nat
  tiles : List (Nat × Nat × Nat)
  hopNow : Nat
  hops : Nat
  dirty : List (Store × Nat × Nat)
  draw : Nat
  vdies : List Nat
  defn : PDef
  part : Nat
  scales : Mem
  ctx : Nat
  side : Bool
  sf : SfTables
  distBase : Nat
  tombBase : Nat
  farOff : Bool
  banksOff : Nat
  block : Nat → Nat → BlockRead
  flash : List (Nat × Nat × Nat)
  lookups : Nat
  codeBytes : Nat
  ck : Nat → Option CkCfg
  window : Nat
  apart : Nat

/-- Outcome of a unit's work. -/
abbrev Work (α : Type) := Except (Halt × Bench) α

def Bench.die (b : Bench) (n : Nat) : Die := b.dies.get Die.empty n
def Bench.setDie (b : Bench) (n : Nat) (d : Die) : Bench := { b with dies := b.dies.set n d }

/-- Advance performance counter `i` of lane die `n` (R461). -/
def Bench.count (b : Bench) (n i k : Nat) : Bench := if k = 0 then b else { b with perf := (128 * n + i, k) :: b.perf }

/-- Note a read of logical blocks. -/
def Bench.noteFlash (b : Bench) (ns lba n : Nat) : Bench := { b with flash := (ns, lba, n) :: b.flash }

/-- Advance object `key` by `k`. -/
def Bench.bump (b : Bench) (key k : Nat) : Bench := { b with tally := (key, k) :: b.tally }

/-- The physical die of virtual die `v` (R73). -/
def Bench.phys (b : Bench) (v : Nat) : Nat := b.vdies.getD v 0

/-- Do the spans `[a, a + n)` and `[c, c + m)` share a byte? -/
def overlaps (a n c m : Nat) : Bool := decide (a < c + m) && decide (c < a + n)

/-- Does `[a, a + n)` lie in `[c, c + m)`? -/
def within (a n c m : Nat) : Bool := decide (c ≤ a) && decide (a + n ≤ c + m)

/-- First byte of the far tier, of scratch, and of the lane-local windows (R169). -/
def farFirst : Nat := 0x10000000000
def scratchFirst : Nat := 0x80000000000
def windowFirst : Nat := 0xA0000000000
/-- Bytes of the allocatable near tier, of the far tier, of scratch (R169), of a lane weight store and of an operand
buffer (R95). -/
def nearBytes : Nat := 0x7800000000
def farBytes : Nat := 0x10000000000
def scratchBytes : Nat := 0x18000000
def lwsBytes : Nat := 0x1000000
def obBytes : Nat := 0x200000

/-- The unit that integrity works on at an address: 64-byte blocks of the stacks (R183), 8-byte words of scratch
(R185). -/
def guardUnit (a : Nat) : Nat := if scratchFirst ≤ a then 8 else 64

/-- The least of some numbers. -/
def least : List Nat → Option Nat
  | [] => none
  | a :: l => some (match least l with
    | none => a
    | some m => min a m)

/-- The lowest block or word of a span that no read may deliver: uncorrectable (R184, R185), in the far tier or in a
scratch bank whose checker failed (R197). -/
def Bench.barred (b : Bench) (lo n : Nat) : Option Nat :=
  if b.farOff && decide (farFirst ≤ lo) && decide (lo < scratchFirst) then some lo
  else
    least ((b.bad.filter (fun a => overlaps lo n a (guardUnit a)))
      ++ (if scratchFirst ≤ lo ∧ lo < windowFirst then
        ((bitsSet b.banksOff 96).filter (fun k => overlaps lo n (scratchFirst + k * 0x400000) 0x400000)).map
          (fun k => max lo (scratchFirst + k * 0x400000))
      else []))

/-- A store as a number, to tell free bytes of different stores apart. -/
def storeCode : Store → Nat
  | .mem => 0
  | .lws d => 1 + 3 * d
  | .ob d => 2 + 3 * d
  | .acc d => 3 + 3 * d
  | .walk => 1000

/-- Replace the bytes of a slice that an unfinished step of another queue writes by free values (R93, R108: values
read undefined, or some new bytes and some old ones). -/
def Bench.race (b : Bench) (st : Store) (lo n : Nat) (m : Mem) : Mem :=
  b.dirty.foldl (fun m (d : Store × Nat × Nat) =>
    if d.1 = st ∧ overlaps lo n d.2.1 d.2.2 then
      let f := max lo d.2.1
      let l := min (lo + n) (d.2.1 + d.2.2)
      (List.range (l - f)).foldl (fun m i =>
        m.write (f + i - lo) (Config.raceByte b.draw (storeCode st * 2 ^ 48 + f + i))) m
    else m) m

/-- Replace the bytes of a slice whose value the spec leaves open by free values. -/
def Bench.foggy (b : Bench) (lo n : Nat) (m : Mem) : Mem :=
  b.fog.foldl (fun m f =>
    if overlaps lo n f.lo f.len then
      let a := max lo f.lo
      (List.range (min (lo + n) (f.lo + f.len) - a)).foldl (fun m i =>
        m.write (a + i - lo) (Config.raceByte f.draw (a + i))) m
    else m) m

/-- Take a span that is written out of the open spans. -/
def clearFog (fog : List Fog) (lo n : Nat) : List Fog :=
  fog.flatMap (fun f =>
    if overlaps lo n f.lo f.len then
      (if f.lo < lo then [⟨f.lo, lo - f.lo, f.draw⟩] else [])
        ++ (if lo + n < f.lo + f.len then [⟨lo + n, f.lo + f.len - (lo + n), f.draw⟩] else [])
    else [f])

/-- Leave a span open: the spec states no value for its bytes. -/
def Bench.leaveOpen (b : Bench) (lo n : Nat) : Bench := { b with fog := ⟨lo, n, b.draw⟩ :: clearFog b.fog lo n }

/-- Read a span of the tiers as a slice that starts at 0 (R186: uncorrectable data is never delivered). -/
def Bench.readMem (b : Bench) (lo n : Nat) : Work Mem :=
  match b.barred lo n with
  | some a => .error (.uncorrectable none a, b)
  | none => .ok (b.race .mem lo n (b.foggy lo n (b.mem.slice lo n)))

/-- Read a span of a die's lane weight store, by die offset (R118). -/
def Bench.readLws (b : Bench) (d lo n : Nat) : Work Mem :=
  match least ((b.die d).badLws.filter (fun a => overlaps lo n a 8)) with
  | some a => .error (.uncorrectable (some d) (windowFirst + d * lwsBytes + a), b)
  | none => .ok (b.race (.lws d) lo n ((b.die d).lws.slice lo n))

/-- Read a span of a die's operand buffer (R118). -/
def Bench.readOb (b : Bench) (d lo n : Nat) : Work Mem :=
  match least ((b.die d).badOb.filter (fun a => overlaps lo n a 8)) with
  | some a => .error (.uncorrectable (some d) a, b)
  | none => .ok (b.race (.ob d) lo n ((b.die d).ob.slice lo n))

/-- Record what a span held before it is written (R88). -/
def Bench.keep (b : Bench) (st : Store) (lo n : Nat) : Bench :=
  let sv : Saved := match st with
    | .mem => ⟨st, lo, n, b.mem.slice lo n, [], [], none, b.bad.filter (fun a => within a (guardUnit a) lo n)⟩
    | .lws d => ⟨st, lo, n, (b.die d).lws.slice lo n, [], [], none, (b.die d).badLws.filter (fun a => within a 8 lo n)⟩
    | .ob d => ⟨st, lo, n, (b.die d).ob.slice lo n, (b.die d).tags.range (lo / 32) ((lo + n + 31) / 32), [], none,
      (b.die d).badOb.filter (fun a => within a 8 lo n)⟩
    | .acc d => ⟨st, lo, n, [], [], (b.die d).acc.range lo (lo + n), none,
      (b.die d).badAcc.filter (fun a => within a 1 lo n)⟩
    | .walk => ⟨st, lo, n, [], [], [], some ((b.walks.get [] lo).headD WalkState.empty), []⟩
  { b with saved := sv :: b.saved }

/-- The lowest of the 64-byte blocks that a write covers in part and that a read may not deliver: such a write reads the
block first (R187), and reads in a scratch bank whose checker failed are uncorrectable (R197). -/
def Bench.partBad (b : Bench) (lo n : Nat) : Option Nat :=
  least (([lo, lo + n - 1].map (fun a => a / 64 * 64)).filterMap (fun a => if within a 64 lo n then none else b.barred a 64))

/-- Write a span of the tiers. A write that covers part of an uncorrectable block is refused; one that covers it whole
makes it sound (R187). -/
def Bench.writeMem (b : Bench) (lo n : Nat) (m : Mem) : Work Bench :=
  if n = 0 then .ok b
  else match b.partBad lo n with
  | some a => .error (.uncorrectable none a, b)
  | none =>
    let b := b.keep .mem lo n
    .ok { b with mem := b.mem.blit lo n m, fog := clearFog b.fog lo n, bad := b.bad.filter (fun a => !within a (guardUnit a) lo n) }

/-- Write a span of a die's lane weight store (R118: a word is sound once it is written). -/
def Bench.writeLws (b : Bench) (d lo n : Nat) (m : Mem) : Bench :=
  let b := b.keep (.lws d) lo n
  let x := b.die d
  b.setDie d { x with lws := x.lws.blit lo n m, badLws := x.badLws.filter (fun a => !within a 8 lo n) }

/-- Write a span of a die's operand buffer, its granules tagged by `tag` (R144). -/
def Bench.writeOb (b : Bench) (d lo n : Nat) (m : Mem) (tag : Nat → Nat) : Bench :=
  let b := b.keep (.ob d) lo n
  let x := b.die d
  b.setDie d { x with
    ob := x.ob.blit lo n m
    badOb := x.badOb.filter (fun a => !within a 8 lo n)
    tags := (List.range (n / 32)).foldl (fun t i => t.set (lo / 32 + i) (tag i)) x.tags }

/-- The tag of a granule (R144). -/
def Die.tag (x : Die) (g : Nat) : Nat := x.tags.get 2 g

/-- A string of bytes as a memory that starts at address 0. -/
def memOf (bs : Bytes) : Mem := Mem.writeBytes [] 0 bs

/-- Does a span lie in the partition's near range, far range, scratch range (R54)? -/
def PDef.inNear (p : PDef) (a n : Nat) : Bool := within a n p.nearBase p.nearSize
def PDef.inFar (p : PDef) (a n : Nat) : Bool := decide (p.farSize ≠ 0) && within a n p.farBase p.farSize
def PDef.inScratch (p : PDef) (a n : Nat) : Bool :=
  decide (p.scratchSize ≠ 0) && within a n p.scratchBase p.scratchSize
def PDef.inNearScratch (p : PDef) (a n : Nat) : Bool := p.inNear a n || p.inScratch a n
def PDef.inAny (p : PDef) (a n : Nat) : Bool := p.inNear a n || p.inScratch a n || p.inFar a n

/-- The exchange of the two windows of a refit step (R304): window A at `a`, each `n` bytes. -/
def swapWindows (a n addr : Nat) : Nat :=
  if within addr 1 a n then addr + n else if within addr 1 (a + n) n then addr - n else addr

/-- Stop a step as a missed deadline (R90). -/
def Bench.miss {α : Type} (b : Bench) : Work α := .error (.missed, b)

/-- Stop a step as a missed deadline, the format-clash count of die `d` advanced (R99, R144). -/
def Bench.clash {α : Type} (b : Bench) (d : Nat) : Work α := .error (.missed, b.count d 12 1)

/-- The step took `n` ns of shared resource `r` (R63, numbered from 0): 4,000 bytes of the far tier count as 1 ns. -/
def Bench.use (b : Bench) (r n : Nat) : Bench := if n = 0 then b else { b with used := (r, n) :: b.used }

/-- `n` cycles of the arithmetic clock in ns, rounded up (DESIGN CHOICE, log 67). -/
def Bench.cycles (b : Bench) (n : Nat) : Nat := ceilDiv (n * 1000) (max 1 b.mhz)

/-- `n` cycles of the media-die clock, 800 MHz (R263), in ns, rounded up (log 67). -/
def mediaCycles (n : Nat) : Nat := ceilDiv (n * 5) 4

/-- A transfer of `n` bytes from or to the far tier, 4 MB an engine-microsecond (R63). -/
def Bench.useFar (b : Bench) (n : Nat) : Bench := b.use 3 (ceilDiv n 4000)

/-- Virtual die `v` has done its passes or rows below `n`. -/
def Bench.reach (b : Bench) (v n : Nat) : Bench := { b with rows := b.rows.set v n }

/-- Do the virtual dies `v1` to `v2` have done `n` passes or rows? -/
def Bench.reached (b : Bench) (v1 v2 n : Nat) : Bool :=
  (List.range (v2 + 1 - v1)).all (fun i => decide (n ≤ b.rows.get 0 (v1 + i)))

/-- Run `f` for each die of a step. A die that does not run it (R99, R144) keeps no other die from running it; the step
has then missed its deadline. Any other stop ends the work at once. -/
def Bench.eachDie {α : Type} (l : List α) (b : Bench) (f : Bench → α → Work Bench) : Work Bench :=
  l.foldl (fun (r : Work Bench) x => match r with
    | .ok b => f b x
    | .error (.missed, b) => match f b x with
      | .ok b => .error (.missed, b)
      | .error e => .error e
    | .error e => .error e) (.ok b)

/-- Run `f` for each element of a list, one after another. -/
def Bench.each {α : Type} (l : List α) (b : Bench) (f : Bench → α → Work Bench) : Work Bench := l.foldlM f b

/-- Virtual dies `v1` to `v2` with their physical dies. -/
def Bench.span (b : Bench) (v1 v2 : Nat) : List (Nat × Nat) :=
  (List.range (v2 + 1 - v1)).map (fun i => (v1 + i, b.phys (v1 + i)))

end Sys2Proof.Machine
end

