-- ==== Sys2Proof/Machine/Dict.lean ====
section
/-! DEFINITION. The object table of the dictionary (14), and the values that objects hold. -/

namespace Sys2Proof.Machine

/-- A row of the object table: first index, number of indices, sub-indices `s1` to `s2`, name, type code (R350),
access class (0 CONST, 1 RO, 2 RW, 3 WO, 4 RWL), whether it persists (R352), sideband access (0 none, 1 read, 2 read
and write, 3 write; R368) and whether it is served in P5, size in bytes (the maximum for strings and domains), whether
a domain is fixed, default, least and greatest value (R361), and the bits a write can change (R13). -/
structure ObjDef where
  idx : Nat
  n : Nat
  s1 : Nat
  s2 : Nat
  name : String
  type : Nat
  access : Nat
  persist : Bool
  side : Nat
  sideP5 : Bool
  size : Nat
  fixed : Bool
  dflt : Nat
  min : Nat
  max : Nat
  mask : Nat
  deriving DecidableEq, Repr

/-- Every bit of a value can be written. -/
def allBits : Nat := 0xFFFFFFFFFFFFFFFF

/-- Objects of identity (14 R365, R362; 04 R120). -/
def identityObjs : List ObjDef := [
  ⟨0x1000, 1, 1, 1, "VENDOR", 9, 0, false, 1, true, 7, false, 0, 0, 0, allBits⟩,
  ⟨0x1000, 1, 2, 2, "PRODUCT", 9, 0, false, 1, true, 5, false, 0, 0, 0, allBits⟩,
  ⟨0x1000, 1, 3, 3, "ORDER_CODE", 9, 0, false, 1, true, 12, false, 0, 0, 0, allBits⟩,
  ⟨0x1000, 1, 4, 4, "SERIAL", 9, 0, false, 1, true, 16, false, 0, 0, 0, allBits⟩,
  ⟨0x1000, 1, 5, 5, "SILICON_STEP", 2, 0, false, 1, true, 1, false, 1, 0, 0, allBits⟩,
  ⟨0x1000, 1, 6, 6, "FW_VERSION", 4, 1, false, 1, true, 4, false, 16777216, 0, 0, allBits⟩,
  ⟨0x1000, 1, 7, 7, "DICT_VERSION", 3, 0, false, 1, true, 2, false, 1, 0, 0, allBits⟩,
  ⟨0x1000, 1, 8, 8, "MADE_ON", 4, 0, false, 1, true, 4, false, 0, 0, 0, allBits⟩,
  ⟨0x1000, 1, 9, 9, "SLOT_ID", 2, 1, false, 1, true, 1, false, 0, 0, 0, allBits⟩,
  ⟨0x1000, 1, 10, 10, "ASSET_TAG", 9, 4, true, 1, true, 32, false, 0, 0, 0, allBits⟩,
  ⟨0x1002, 1, 1, 1, "LOCK_INDEX", 3, 3, false, 0, false, 2, false, 0, 0, 0, allBits⟩,
  ⟨0x1010, 1, 1, 1, "SQUARES_PRESENT", 5, 0, false, 1, true, 8, false, 281474976710655, 0, 0, allBits⟩,
  ⟨0x1010, 1, 2, 2, "GRADE", 2, 0, false, 1, true, 1, false, 0, 0, 0, allBits⟩,
  ⟨0x1010, 1, 3, 3, "SQUARES_PASSED", 5, 0, false, 1, true, 8, false, 281474976710655, 0, 0, allBits⟩]

/-- Objects of the link (13 R347). -/
def linkObjs : List ObjDef := [
  ⟨0x1100, 1, 1, 1, "NODE_ID", 3, 2, false, 2, false, 2, false, 4088, 1, 4095, allBits⟩,
  ⟨0x1100, 1, 2, 2, "FWD_TABLE", 10, 2, false, 0, false, 2048, true, 0, 0, 0, allBits⟩,
  ⟨0x1100, 1, 3, 3, "REPLY_HOPS", 2, 2, false, 0, false, 1, false, 16, 0, 0, allBits⟩,
  ⟨0x1100, 1, 4, 4, "FWD_DROPPED", 5, 1, false, 0, false, 8, false, 0, 0, 0, allBits⟩,
  ⟨0x1100, 1, 5, 5, "FWD_EXPIRED", 5, 1, false, 0, false, 8, false, 0, 0, 0, allBits⟩,
  ⟨0x1110, 4, 1, 1, "LINK_STATE", 2, 1, false, 1, false, 1, false, 1, 0, 0, allBits⟩,
  ⟨0x1110, 4, 2, 2, "OWNER_NODE", 3, 1, false, 1, false, 2, false, 0, 0, 0, allBits⟩,
  ⟨0x1110, 4, 3, 3, "OWNER_INSTANCE", 5, 1, false, 0, false, 8, false, 0, 0, 0, allBits⟩,
  ⟨0x1110, 4, 4, 4, "OWNER_LAPSE", 3, 2, false, 0, false, 2, false, 1000, 100, 60000, allBits⟩,
  ⟨0x1110, 4, 5, 5, "CONTROL", 2, 3, false, 0, false, 1, false, 0, 1, 3, allBits⟩,
  ⟨0x1110, 4, 6, 6, "LOOPBACK", 2, 2, false, 2, false, 1, false, 0, 0, 5, allBits⟩,
  ⟨0x1110, 4, 7, 7, "LOOP_RUN", 3, 3, false, 3, false, 2, false, 0, 1, 60000, allBits⟩,
  ⟨0x1110, 4, 8, 8, "LOOP_RESULT", 5, 1, false, 1, false, 8, false, 0, 0, 0, allBits⟩,
  ⟨0x1110, 4, 9, 9, "ATTN_ACK", 2, 3, false, 0, false, 1, false, 0, 0, 0, allBits⟩,
  ⟨0x1110, 4, 10, 10, "FEC_CORRECTED", 5, 1, false, 0, false, 8, false, 0, 0, 0, allBits⟩,
  ⟨0x1110, 4, 11, 11, "FEC_FAILED", 5, 1, false, 0, false, 8, false, 0, 0, 0, allBits⟩,
  ⟨0x1110, 4, 12, 12, "REPLAYS", 5, 1, false, 0, false, 8, false, 0, 0, 0, allBits⟩,
  ⟨0x1110, 4, 13, 13, "REPLAY_STALLS", 5, 1, false, 0, false, 8, false, 0, 0, 0, allBits⟩,
  ⟨0x1110, 4, 14, 14, "HDR_ERRORS", 5, 1, false, 0, false, 8, false, 0, 0, 0, allBits⟩,
  ⟨0x1110, 4, 15, 15, "CRC_ERRORS", 5, 1, false, 0, false, 8, false, 0, 0, 0, allBits⟩,
  ⟨0x1110, 4, 16, 16, "RETRAINS", 4, 1, false, 0, false, 4, false, 0, 0, 0, allBits⟩,
  ⟨0x1110, 4, 17, 17, "RX_POWER", 4, 1, false, 1, false, 4, false, 0, 0, 0, allBits⟩]

/-- Objects of task registers (15 R378). -/
def setObjs : List ObjDef := [
  ⟨0x1400, 4, 1, 64, "SET_STATE", 2, 1, false, 0, false, 1, false, 0, 0, 0, allBits⟩,
  ⟨0x1410, 4, 1, 1, "DB_PENDING", 4, 1, false, 0, false, 4, false, 0, 0, 0, allBits⟩,
  ⟨0x1410, 4, 2, 2, "DB_MASK", 4, 2, false, 0, false, 4, false, 0, 0, 0, allBits⟩,
  ⟨0x1420, 4, 1, 1, "FREEZE", 3, 1, false, 0, false, 2, false, 0, 0, 0, allBits⟩,
  ⟨0x1420, 4, 2, 2, "FREEZE_EPOCH", 5, 1, false, 0, false, 8, false, 0, 0, 0, allBits⟩,
  ⟨0x1420, 4, 3, 3, "UNFREEZE", 3, 3, false, 0, false, 2, false, 0, 0, 0, allBits⟩,
  ⟨0x1430, 4, 1, 1, "PORT_BUF_FREE", 4, 1, false, 0, false, 4, false, 32768, 0, 0, allBits⟩]

/-- Objects of the clock, partitions, contexts and banks (02 R42, R53, R55, R61, R65, R66; 03 R74). -/
def partObjs : List ObjDef := [
  ⟨0x2000, 1, 1, 1, "TICK_BASE", 3, 2, false, 0, false, 2, false, 100, 5, 2000, allBits⟩,
  ⟨0x2001, 1, 1, 1, "DEVICE_EPOCH", 5, 1, false, 0, false, 8, false, 0, 0, 0, allBits⟩,
  ⟨0x2002, 1, 1, 1, "IO_SHARE_A", 3, 2, false, 0, false, 2, false, 100, 1, 1000, allBits⟩,
  ⟨0x2002, 1, 2, 2, "IO_SHARE_B", 3, 2, false, 0, false, 2, false, 100, 1, 1000, allBits⟩,
  ⟨0x2002, 1, 3, 3, "IO_SHARE_C", 3, 2, false, 0, false, 2, false, 100, 1, 1000, allBits⟩,
  ⟨0x2002, 1, 4, 4, "IO_SHARE_D", 3, 2, false, 0, false, 2, false, 100, 1, 1000, allBits⟩,
  ⟨0x2003, 1, 1, 8, "IO_CHARGE", 5, 1, false, 0, false, 8, false, 0, 0, 0, allBits⟩,
  ⟨0x2010, 8, 1, 1, "SQUARES", 5, 2, false, 0, false, 8, false, 0, 0, 0, 0xffffffffffff⟩,
  ⟨0x2010, 8, 2, 2, "NEAR_BASE", 5, 2, false, 0, false, 8, false, 0, 0, 0, allBits⟩,
  ⟨0x2010, 8, 3, 3, "NEAR_SIZE", 5, 2, false, 0, false, 8, false, 0, 0, 0, allBits⟩,
  ⟨0x2010, 8, 4, 4, "FAR_BASE", 5, 2, false, 0, false, 8, false, 0, 0, 0, allBits⟩,
  ⟨0x2010, 8, 5, 5, "FAR_SIZE", 5, 2, false, 0, false, 8, false, 0, 0, 0, allBits⟩,
  ⟨0x2010, 8, 6, 6, "SCRATCH_BASE", 5, 2, false, 0, false, 8, false, 0, 0, 0, allBits⟩,
  ⟨0x2010, 8, 7, 7, "SCRATCH_SIZE", 5, 2, false, 0, false, 8, false, 0, 0, 0, allBits⟩,
  ⟨0x2010, 8, 8, 8, "PORTS", 2, 2, false, 0, false, 1, false, 0, 0, 0, 0xf⟩,
  ⟨0x2010, 8, 9, 9, "DIVIDER", 2, 2, false, 0, false, 1, false, 1, 1, 64, allBits⟩,
  ⟨0x2010, 8, 10, 10, "PHASE", 2, 2, false, 0, false, 1, false, 0, 0, 63, allBits⟩,
  ⟨0x2010, 8, 11, 11, "SHARE", 3, 2, false, 0, false, 2, false, 100, 1, 1000, allBits⟩,
  ⟨0x2010, 8, 12, 12, "STREAM_SHARE_A", 3, 2, false, 0, false, 2, false, 100, 1, 1000, allBits⟩,
  ⟨0x2010, 8, 13, 13, "STREAM_SHARE_B", 3, 2, false, 0, false, 2, false, 100, 1, 1000, allBits⟩,
  ⟨0x2010, 8, 14, 14, "STREAM_SHARE_C", 3, 2, false, 0, false, 2, false, 100, 1, 1000, allBits⟩,
  ⟨0x2010, 8, 15, 15, "STREAM_SHARE_D", 3, 2, false, 0, false, 2, false, 100, 1, 1000, allBits⟩,
  ⟨0x2010, 8, 16, 16, "CONTROL", 2, 3, false, 0, false, 1, false, 0, 1, 4, allBits⟩,
  ⟨0x2010, 8, 17, 17, "STATE", 2, 1, false, 0, false, 1, false, 0, 0, 0, allBits⟩,
  ⟨0x2010, 8, 18, 18, "COMMIT_EPOCH", 5, 1, false, 0, false, 8, false, 0, 0, 0, allBits⟩,
  ⟨0x2010, 8, 19, 19, "COMMIT_RESULT", 3, 1, false, 0, false, 2, false, 0, 0, 0, allBits⟩,
  ⟨0x2020, 8, 1, 6, "CHARGE", 5, 1, false, 0, false, 8, false, 0, 0, 0, allBits⟩,
  ⟨0x2020, 8, 7, 7, "FLAG_FALLS", 5, 1, false, 0, false, 8, false, 0, 0, 0, allBits⟩,
  ⟨0x2020, 8, 8, 8, "OVERRUNS", 5, 1, false, 0, false, 8, false, 0, 0, 0, allBits⟩,
  ⟨0x2020, 8, 9, 9, "MOVE_PERIODS", 5, 1, false, 0, false, 8, false, 0, 0, 0, allBits⟩,
  ⟨0x2020, 8, 10, 10, "IDLE_TIME", 5, 1, false, 0, false, 8, false, 0, 0, 0, allBits⟩,
  ⟨0x2020, 8, 11, 11, "BELOW_FIT_PERIODS", 5, 1, false, 0, false, 8, false, 0, 0, 0, allBits⟩,
  ⟨0x2020, 8, 12, 12, "LAST_OVERRUN", 5, 1, false, 0, false, 8, false, 0, 0, 0, allBits⟩,
  ⟨0x2030, 8, 1, 16, "CONTEXT_STATUS", 4, 1, false, 0, false, 4, false, 0, 0, 0, allBits⟩,
  ⟨0x2040, 8, 1, 16, "BANK_STATUS", 4, 1, false, 0, false, 4, false, 0, 0, 0, allBits⟩,
  ⟨0x2048, 8, 1, 16, "ACTIVE_EPOCH", 5, 1, false, 0, false, 8, false, 0, 0, 0, allBits⟩,
  ⟨0x2050, 8, 1, 16, "BANK_CONTROL", 3, 3, false, 0, false, 2, false, 0, 0, 0, allBits⟩,
  ⟨0x2058, 8, 1, 16, "LAST_MARK", 4, 1, false, 0, false, 4, false, 0, 0, 0, allBits⟩,
  ⟨0x2060, 8, 1, 16, "KIND_STATUS", 4, 1, false, 0, false, 4, false, 0, 0, 0, allBits⟩,
  ⟨0x2068, 8, 1, 16, "DIST_BANKS", 10, 1, false, 0, false, 16, true, 0, 0, 0, allBits⟩]

/-- Objects of the memory tiers (07 R172, R176, R190 to R192, R196). -/
def tierObjs : List ObjDef := [
  ⟨0x3000, 1, 1, 1, "NEAR_RESERVED_BASE", 5, 0, false, 0, false, 8, false, 515396075520, 0, 0, allBits⟩,
  ⟨0x3000, 1, 2, 2, "SELFTEST_RESULT", 4, 1, false, 0, false, 4, false, 0, 0, 0, allBits⟩,
  ⟨0x3010, 16, 1, 1, "CORR_OUTER", 5, 1, false, 0, false, 8, false, 0, 0, 0, allBits⟩,
  ⟨0x3010, 16, 2, 2, "CORR_INNER", 5, 1, false, 0, false, 8, false, 0, 0, 0, allBits⟩,
  ⟨0x3010, 16, 3, 3, "UNCORR", 5, 1, false, 0, false, 8, false, 0, 0, 0, allBits⟩,
  ⟨0x3010, 16, 4, 4, "BUCKET_LEVEL", 3, 1, false, 0, false, 2, false, 0, 0, 0, allBits⟩,
  ⟨0x3010, 16, 5, 5, "BUCKET_RECORDS", 4, 1, false, 0, false, 4, false, 0, 0, 0, allBits⟩,
  ⟨0x3010, 16, 6, 6, "REMAP_USED", 2, 1, false, 0, false, 1, false, 0, 0, 0, allBits⟩,
  ⟨0x3010, 16, 7, 7, "REMAP_EXHAUSTED", 3, 1, false, 0, false, 2, false, 0, 0, 0, allBits⟩,
  ⟨0x3010, 16, 8, 8, "SCRUB_PASSES", 4, 1, false, 0, false, 4, false, 0, 0, 0, allBits⟩,
  ⟨0x3020, 8, 1, 1, "CORR_OUTER", 5, 1, false, 0, false, 8, false, 0, 0, 0, allBits⟩,
  ⟨0x3020, 8, 2, 2, "CORR_INNER", 5, 1, false, 0, false, 8, false, 0, 0, 0, allBits⟩,
  ⟨0x3020, 8, 3, 3, "UNCORR", 5, 1, false, 0, false, 8, false, 0, 0, 0, allBits⟩,
  ⟨0x3020, 8, 4, 4, "BUCKET_LEVEL", 3, 1, false, 0, false, 2, false, 0, 0, 0, allBits⟩,
  ⟨0x3020, 8, 5, 5, "BUCKET_RECORDS", 4, 1, false, 0, false, 4, false, 0, 0, 0, allBits⟩,
  ⟨0x3020, 8, 6, 6, "REMAP_USED", 2, 1, false, 0, false, 1, false, 0, 0, 0, allBits⟩,
  ⟨0x3020, 8, 7, 7, "REMAP_EXHAUSTED", 3, 1, false, 0, false, 2, false, 0, 0, 0, allBits⟩,
  ⟨0x3020, 8, 8, 8, "SCRUB_PASSES", 4, 1, false, 0, false, 4, false, 0, 0, 0, allBits⟩,
  ⟨0x3030, 1, 1, 1, "CORR_OUTER", 5, 1, false, 0, false, 8, false, 0, 0, 0, allBits⟩,
  ⟨0x3030, 1, 2, 2, "CORR_INNER", 5, 1, false, 0, false, 8, false, 0, 0, 0, allBits⟩,
  ⟨0x3030, 1, 3, 3, "UNCORR", 5, 1, false, 0, false, 8, false, 0, 0, 0, allBits⟩,
  ⟨0x3030, 1, 4, 4, "BUCKET_LEVEL", 3, 1, false, 0, false, 2, false, 0, 0, 0, allBits⟩,
  ⟨0x3030, 1, 5, 5, "BUCKET_RECORDS", 4, 1, false, 0, false, 4, false, 0, 0, 0, allBits⟩,
  ⟨0x3030, 1, 6, 6, "SCRATCH_FAULTED_LO", 5, 1, false, 0, false, 8, false, 0, 0, 0, allBits⟩,
  ⟨0x3030, 1, 7, 7, "SCRATCH_FAULTED_HI", 5, 1, false, 0, false, 8, false, 0, 0, 0, allBits⟩,
  ⟨0x3040, 1, 1, 1, "LEAK_INTERVAL", 4, 2, false, 0, false, 4, false, 1000, 10, 3600000, allBits⟩,
  ⟨0x3040, 1, 2, 2, "BUCKET_LIMIT", 3, 2, false, 0, false, 2, false, 16, 2, 65535, allBits⟩,
  ⟨0x3040, 1, 3, 3, "ROW_TRIGGER", 2, 2, false, 0, false, 1, false, 3, 1, 15, allBits⟩,
  ⟨0x3050, 1, 1, 1, "NEAR_SCRUB_PERIOD", 3, 2, false, 0, false, 2, false, 24, 1, 168, allBits⟩,
  ⟨0x3050, 1, 2, 2, "FAR_SCRUB_PERIOD", 3, 2, false, 0, false, 2, false, 24, 1, 168, allBits⟩,
  ⟨0x3050, 1, 3, 3, "SELFTEST_INTERVAL", 3, 2, false, 0, false, 2, false, 24, 1, 168, allBits⟩,
  ⟨0x3060, 1, 1, 64, "STAGE_LEDGER", 5, 1, false, 0, false, 8, false, 0, 0, 0, allBits⟩]

/-- Objects of media and namespaces (08 R228; 09 R249; 15 R384). -/
def mediaObjs : List ObjDef := [
  ⟨0x4000, 1, 1, 1, "USER_BLOCKS", 5, 0, false, 0, false, 8, false, 118111600640, 0, 0, allBits⟩,
  ⟨0x4000, 1, 2, 2, "UNALLOCATED", 5, 1, false, 0, false, 8, false, 118111600640, 0, 0, allBits⟩,
  ⟨0x4000, 1, 3, 3, "NS_COUNT", 2, 1, false, 0, false, 1, false, 0, 0, 0, allBits⟩,
  ⟨0x4010, 1, 1, 1, "SEG_CACHE_SLOTS", 4, 0, false, 0, false, 4, false, 11534336, 0, 0, allBits⟩,
  ⟨0x4010, 1, 2, 2, "SEG_HITS", 5, 1, false, 0, false, 8, false, 0, 0, 0, allBits⟩,
  ⟨0x4010, 1, 3, 3, "SEG_MISSES", 5, 1, false, 0, false, 8, false, 0, 0, 0, allBits⟩,
  ⟨0x4010, 1, 4, 4, "HINTS_USED", 5, 1, false, 0, false, 8, false, 0, 0, 0, allBits⟩,
  ⟨0x4010, 1, 5, 5, "HINTS_STALE", 5, 1, false, 0, false, 8, false, 0, 0, 0, allBits⟩,
  ⟨0x4020, 1, 1, 1, "SNAP_HOLD_LIMIT", 4, 2, false, 0, false, 4, false, 2000, 100, 1000000, allBits⟩,
  ⟨0x4020, 1, 2, 2, "HOLDERS", 3, 1, false, 0, false, 2, false, 0, 0, 0, allBits⟩,
  ⟨0x4020, 1, 3, 3, "OLDEST_STAMP", 5, 1, false, 0, false, 8, false, 0, 0, 0, allBits⟩,
  ⟨0x4020, 1, 4, 4, "PINNED_UNITS", 5, 1, false, 0, false, 8, false, 0, 0, 0, allBits⟩,
  ⟨0x4020, 1, 5, 5, "EXPIRED", 4, 1, false, 0, false, 4, false, 0, 0, 0, allBits⟩,
  ⟨0x4030, 1, 1, 1, "SECURE_PENDING", 5, 1, false, 0, false, 8, false, 0, 0, 0, allBits⟩,
  ⟨0x4030, 1, 2, 2, "SECURE_DONE_EPOCH", 5, 1, false, 0, false, 8, false, 0, 0, 0, allBits⟩,
  ⟨0x4040, 1, 1, 1, "HOST_TIME", 5, 2, true, 0, false, 8, false, 0, 0, 0, allBits⟩,
  ⟨0x4040, 1, 2, 2, "POWEROFF_DAYS", 3, 2, true, 0, false, 2, false, 30, 0, 3650, allBits⟩,
  ⟨0x4040, 1, 3, 3, "RETRY_READS", 5, 1, false, 0, false, 8, false, 0, 0, 0, allBits⟩,
  ⟨0x4040, 1, 4, 4, "PARITY_REBUILDS", 5, 1, false, 0, false, 8, false, 0, 0, 0, allBits⟩,
  ⟨0x4050, 1, 1, 1, "OPEN_BANDS", 2, 1, false, 0, false, 1, false, 64, 0, 0, allBits⟩,
  ⟨0x4050, 1, 2, 2, "UNVERIFIED", 2, 1, false, 0, false, 1, false, 0, 0, 0, allBits⟩,
  ⟨0x4050, 1, 3, 3, "VERIFY_REWRITES", 4, 1, false, 0, false, 4, false, 0, 0, 0, allBits⟩,
  ⟨0x4060, 1, 1, 1, "PCT_USED", 2, 1, false, 1, true, 1, false, 0, 0, 0, allBits⟩,
  ⟨0x4060, 1, 2, 2, "MEDIA_STATE", 3, 1, false, 1, true, 2, false, 0, 0, 0, allBits⟩,
  ⟨0x4060, 1, 3, 3, "SPARE_INITIAL", 4, 0, false, 0, false, 4, false, 262144, 0, 0, allBits⟩,
  ⟨0x4060, 1, 4, 4, "SPARE_BLOCKS", 4, 1, false, 0, false, 4, false, 262144, 0, 0, allBits⟩,
  ⟨0x4060, 1, 5, 5, "RETIRED_PROGRAM", 4, 1, false, 0, false, 4, false, 0, 0, 0, allBits⟩,
  ⟨0x4060, 1, 6, 6, "RETIRED_ERASE", 4, 1, false, 0, false, 4, false, 0, 0, 0, allBits⟩,
  ⟨0x4060, 1, 7, 7, "RETIRED_READ", 4, 1, false, 0, false, 4, false, 0, 0, 0, allBits⟩,
  ⟨0x4060, 1, 8, 8, "PE_MEAN", 3, 1, false, 0, false, 2, false, 0, 0, 0, allBits⟩,
  ⟨0x4060, 1, 9, 9, "PE_MAX", 3, 1, false, 0, false, 2, false, 0, 0, 0, allBits⟩,
  ⟨0x4060, 1, 10, 10, "FREE_BLOCKS", 4, 1, false, 0, false, 4, false, 8386560, 0, 0, allBits⟩,
  ⟨0x4060, 1, 11, 11, "FREE_FLOOR", 4, 2, true, 0, false, 4, false, 8192, 4096, 131072, allBits⟩,
  ⟨0x4060, 1, 12, 12, "EXPIRY_SPACING", 3, 2, true, 0, false, 2, false, 20, 1, 1000, allBits⟩,
  ⟨0x4060, 1, 13, 13, "READ_ONLY_EPOCH", 5, 1, false, 0, false, 8, false, 0, 0, 0, allBits⟩,
  ⟨0x4060, 1, 14, 14, "ERASE_HOLDS", 4, 1, false, 0, false, 4, false, 0, 0, 0, allBits⟩,
  ⟨0x4070, 1, 1, 16, "READS_AT_DEPTH", 5, 1, false, 0, false, 8, false, 0, 0, 0, allBits⟩,
  ⟨0x4080, 1, 1, 1, "MAINT_CEILING", 2, 2, true, 0, false, 1, false, 25, 5, 60, allBits⟩,
  ⟨0x4080, 1, 2, 2, "PRESSURE_CEILING", 2, 2, true, 0, false, 1, false, 60, 5, 90, allBits⟩,
  ⟨0x4080, 1, 3, 3, "RD_LIMIT", 4, 2, true, 0, false, 4, false, 200000, 10000, 2000000, allBits⟩,
  ⟨0x4080, 1, 4, 4, "WL_SPREAD", 3, 2, true, 0, false, 2, false, 150, 50, 1000, allBits⟩,
  ⟨0x4080, 1, 5, 5, "MAINT_ACTIVE", 3, 1, false, 0, false, 2, false, 0, 0, 0, allBits⟩,
  ⟨0x4090, 1, 1, 1, "SANITIZE_STATE", 4, 1, false, 0, false, 4, false, 0, 0, 0, allBits⟩,
  ⟨0x4100, 64, 1, 1, "NS_SIZE", 5, 2, true, 0, false, 8, false, 0, 0, 0, allBits⟩,
  ⟨0x4100, 64, 2, 2, "NS_PORTS", 2, 2, true, 0, false, 1, false, 0, 0, 0, 0xf⟩,
  ⟨0x4100, 64, 3, 3, "NS_CONTROL", 2, 3, false, 0, false, 1, false, 0, 1, 2, allBits⟩,
  ⟨0x4100, 64, 4, 4, "NS_STATE", 2, 1, false, 0, false, 1, false, 0, 0, 0, allBits⟩,
  ⟨0x4100, 64, 5, 5, "NS_CREATE_EPOCH", 5, 1, false, 0, false, 8, false, 0, 0, 0, allBits⟩,
  ⟨0x4100, 64, 6, 6, "NS_MAPPED", 5, 1, false, 0, false, 8, false, 0, 0, 0, allBits⟩,
  ⟨0x4100, 64, 7, 7, "NS_CREATE_RESULT", 2, 1, false, 0, false, 1, false, 0, 0, 0, allBits⟩]

/-- Objects of lanes and tables (04 R120; 06 R151). -/
def laneObjs : List ObjDef := [
  ⟨0x5000, 1, 1, 1, "SQUARES_FAULTED", 5, 1, false, 1, true, 8, false, 0, 0, 0, allBits⟩,
  ⟨0x5040, 1, 1, 1, "SFT_CRC_EXP2", 4, 0, false, 0, false, 4, false, 980272402, 0, 0, allBits⟩,
  ⟨0x5040, 1, 2, 2, "SFT_CRC_LOG2", 4, 0, false, 0, false, 4, false, 2651093821, 0, 0, allBits⟩,
  ⟨0x5040, 1, 3, 3, "SFT_CRC_GELU", 4, 0, false, 0, false, 4, false, 1375218857, 0, 0, allBits⟩]

/-- Objects of scan, check values, search and reduction (10 R268, R272, R275; 11 R297; 12 R319). -/
def scanObjs : List ObjDef := [
  ⟨0x6010, 8, 1, 1, "SCANS", 5, 1, false, 0, false, 8, false, 0, 0, 0, allBits⟩,
  ⟨0x6010, 8, 2, 2, "BLOCKS_SCANNED", 5, 1, false, 0, false, 8, false, 0, 0, 0, allBits⟩,
  ⟨0x6010, 8, 3, 3, "ROWS_SELECTED", 5, 1, false, 0, false, 8, false, 0, 0, 0, allBits⟩,
  ⟨0x6010, 8, 4, 4, "OVERFLOWS", 4, 1, false, 0, false, 4, false, 0, 0, 0, allBits⟩,
  ⟨0x6010, 8, 5, 5, "PROGRAM_FAULTS", 4, 1, false, 0, false, 4, false, 0, 0, 0, allBits⟩,
  ⟨0x6020, 8, 1, 1, "CK_POLY", 5, 2, false, 0, false, 8, false, 517762881, 0, 0, allBits⟩,
  ⟨0x6020, 8, 2, 2, "CK_INIT", 5, 2, false, 0, false, 8, false, 4294967295, 0, 0, allBits⟩,
  ⟨0x6020, 8, 3, 3, "CK_XOROUT", 5, 2, false, 0, false, 8, false, 4294967295, 0, 0, allBits⟩,
  ⟨0x6020, 8, 4, 4, "CK_SHAPE", 3, 2, false, 0, false, 2, false, 416, 0, 0, 0x1ff⟩,
  ⟨0x6020, 8, 5, 5, "CK_CHECK", 5, 1, false, 0, false, 8, false, 3808858755, 0, 0, allBits⟩,
  ⟨0x6020, 8, 6, 6, "CK_EPOCH", 5, 1, false, 0, false, 8, false, 0, 0, 0, allBits⟩,
  ⟨0x6030, 1, 1, 1, "WRITE_MISMATCH", 5, 1, false, 0, false, 8, false, 0, 0, 0, allBits⟩,
  ⟨0x6030, 1, 2, 2, "DRAIN_MISMATCH", 5, 1, false, 0, false, 8, false, 0, 0, 0, allBits⟩,
  ⟨0x6040, 64, 1, 1, "NS_PROTECT", 2, 2, true, 0, false, 1, false, 0, 0, 0, 0xc7⟩,
  ⟨0x6080, 8, 1, 16, "INDEX_GEN", 5, 1, false, 0, false, 8, false, 0, 0, 0, allBits⟩,
  ⟨0x6088, 8, 1, 16, "REPAIR_PASSES", 4, 1, false, 0, false, 4, false, 0, 0, 0, allBits⟩,
  ⟨0x6090, 8, 1, 16, "FREE_SLOTS", 4, 1, false, 0, false, 4, false, 0, 0, 0, allBits⟩,
  ⟨0x6098, 1, 1, 1, "WALK_HOPS", 5, 1, false, 0, false, 8, false, 0, 0, 0, allBits⟩,
  ⟨0x6098, 1, 2, 2, "EDGES_STALE", 5, 1, false, 0, false, 8, false, 0, 0, 0, allBits⟩,
  ⟨0x6098, 1, 3, 3, "CODE_MISMATCH", 5, 1, false, 0, false, 8, false, 0, 0, 0, allBits⟩,
  ⟨0x6098, 1, 4, 4, "SHORT_RESULTS", 5, 1, false, 0, false, 8, false, 0, 0, 0, allBits⟩,
  ⟨0x6098, 1, 5, 5, "WALK_FAULTS", 5, 1, false, 0, false, 8, false, 0, 0, 0, allBits⟩,
  ⟨0x6800, 1, 1, 1, "REDUCE_REQUESTS", 5, 1, false, 0, false, 8, false, 0, 0, 0, allBits⟩,
  ⟨0x6800, 1, 2, 2, "REDUCE_NONFINITE", 5, 1, false, 0, false, 8, false, 0, 0, 0, allBits⟩,
  ⟨0x6800, 1, 3, 3, "REDUCE_BYTES", 5, 1, false, 0, false, 8, false, 0, 0, 0, allBits⟩,
  ⟨0x6810, 8, 1, 16, "REFIT_STEP", 5, 1, false, 0, false, 8, false, 0, 0, 0, allBits⟩]

/-- Objects of power (17 R441). -/
def powerObjs : List ObjDef := [
  ⟨0x7000, 1, 1, 1, "POWER_STATE", 2, 1, false, 1, true, 1, false, 0, 0, 0, allBits⟩,
  ⟨0x7000, 1, 2, 2, "STATE_REQUEST", 2, 3, false, 0, false, 1, false, 0, 0, 0, allBits⟩,
  ⟨0x7000, 1, 3, 3, "REQUEST_RESULT", 2, 1, false, 0, false, 1, false, 0, 0, 0, allBits⟩,
  ⟨0x7000, 1, 4, 4, "CLOCK_SETTING", 3, 1, false, 0, false, 2, false, 1000, 0, 0, allBits⟩,
  ⟨0x7000, 1, 5, 5, "CLOCK_GUARANTEED", 3, 1, false, 0, false, 2, false, 1000, 0, 0, allBits⟩,
  ⟨0x7000, 1, 6, 6, "INPUT_POWER", 4, 1, false, 1, true, 4, false, 0, 0, 0, allBits⟩,
  ⟨0x7000, 1, 7, 7, "INPUT_VOLTAGE", 4, 1, false, 1, true, 4, false, 0, 0, 0, allBits⟩,
  ⟨0x7000, 1, 8, 8, "THROTTLE_STEPS", 5, 1, false, 0, false, 8, false, 0, 0, 0, allBits⟩,
  ⟨0x7010, 1, 1, 10, "TEMP", 6, 1, false, 1, true, 4, false, 0, 0, 0, allBits⟩,
  ⟨0x7010, 1, 11, 11, "THERMTRIP", 1, 1, false, 1, true, 1, false, 0, 0, 0, allBits⟩,
  ⟨0x7020, 1, 1, 1, "BANK_VOLTAGE", 4, 1, false, 0, false, 4, false, 0, 0, 0, allBits⟩,
  ⟨0x7020, 1, 2, 2, "BANK_ENERGY", 4, 1, false, 0, false, 4, false, 0, 0, 0, allBits⟩,
  ⟨0x7020, 1, 3, 3, "BANK_CAPACITANCE", 4, 1, false, 0, false, 4, false, 0, 0, 0, allBits⟩,
  ⟨0x7020, 1, 4, 4, "BUFFER_LIMIT", 4, 1, false, 0, false, 4, false, 0, 0, 0, allBits⟩,
  ⟨0x7020, 1, 5, 5, "WARNINGS", 4, 1, false, 0, false, 4, false, 0, 0, 0, allBits⟩,
  ⟨0x7020, 1, 6, 6, "LAST_FLUSH", 4, 1, false, 0, false, 4, false, 0, 0, 0, allBits⟩,
  ⟨0x7030, 1, 1, 1, "START_STAGE", 2, 1, false, 1, true, 1, false, 0, 0, 0, allBits⟩,
  ⟨0x7030, 1, 2, 2, "RESET_SOURCE", 2, 1, false, 1, true, 1, false, 0, 0, 0, allBits⟩,
  ⟨0x7030, 1, 3, 3, "START_TIME", 4, 1, false, 0, false, 4, false, 0, 0, 0, allBits⟩,
  ⟨0x7040, 1, 1, 1, "RUNNING_SLOT", 2, 1, false, 0, false, 1, false, 0, 0, 0, allBits⟩,
  ⟨0x7040, 1, 2, 2, "BOOT_SLOT", 2, 1, false, 0, false, 1, false, 0, 0, 0, allBits⟩,
  ⟨0x7040, 1, 3, 3, "XO_VIOLATIONS", 4, 1, false, 0, false, 4, false, 0, 0, 0, allBits⟩,
  ⟨0x7040, 1, 4, 4, "CF_CORRECTED", 4, 1, false, 0, false, 4, false, 0, 0, 0, allBits⟩,
  ⟨0x7040, 1, 5, 5, "CF_MAX_ERASES", 4, 1, false, 0, false, 4, false, 0, 0, 0, allBits⟩]

/-- Objects of errors (16 R405). -/
def errorObjs : List ObjDef := [
  ⟨0x8000, 1, 1, 1, "NEXT_SEQ", 4, 1, false, 0, false, 4, false, 0, 0, 0, allBits⟩,
  ⟨0x8000, 1, 2, 2, "LOST_RECORDS", 4, 1, false, 0, false, 4, false, 0, 0, 0, allBits⟩,
  ⟨0x8000, 1, 3, 3, "PERSIST_DROPPED", 4, 1, false, 0, false, 4, false, 0, 0, 0, allBits⟩,
  ⟨0x8000, 1, 4, 4, "DEVICE_STATE", 2, 1, false, 0, false, 1, false, 0, 0, 0, allBits⟩,
  ⟨0x8000, 1, 5, 5, "MODULE_RESET", 4, 3, false, 0, false, 4, false, 0, 0xA5A55A5A, 0xA5A55A5A, allBits⟩,
  ⟨0x8010, 1, 1, 64, "ERROR_RECORD", 10, 1, false, 0, false, 64, true, 0, 0, 0, allBits⟩]

/-- Objects of counters, trace, dumps and test (19 R476; 20 R491). -/
def debugObjs : List ObjDef := [
  ⟨0x9000, 1, 1, 1, "READ_LIST", 10, 2, false, 0, false, 17920, false, 0, 0, 0, allBits⟩,
  ⟨0x9000, 1, 2, 2, "READ_RESULT", 10, 1, false, 0, false, 143360, false, 0, 0, 0, allBits⟩,
  ⟨0x9000, 1, 3, 3, "READER_STATE", 2, 1, false, 0, false, 1, false, 0, 0, 0, allBits⟩,
  ⟨0x9000, 1, 4, 4, "PASS_START", 5, 1, false, 0, false, 8, false, 0, 0, 0, allBits⟩,
  ⟨0x9000, 1, 5, 5, "SINGLE_ID", 3, 2, false, 0, false, 2, false, 0, 0, 8959, allBits⟩,
  ⟨0x9000, 1, 6, 6, "SINGLE_VALUE", 5, 1, false, 0, false, 8, false, 0, 0, 0, allBits⟩,
  ⟨0x9000, 1, 7, 7, "SINGLE_INFO", 10, 1, false, 0, false, 64, true, 0, 0, 0, allBits⟩,
  ⟨0x9001, 1, 1, 1, "FREEZE_CONTROL", 2, 3, false, 0, false, 1, false, 0, 1, 3, allBits⟩,
  ⟨0x9001, 1, 2, 2, "FREEZE_SOURCES", 2, 2, false, 0, false, 1, false, 0, 0, 0, 0xf⟩,
  ⟨0x9001, 1, 3, 3, "FREEZE_AT", 5, 2, false, 0, false, 8, false, 0, 0, 0, allBits⟩,
  ⟨0x9001, 1, 4, 4, "FREEZE_MARK", 3, 2, false, 0, false, 2, false, 0, 0, 0, allBits⟩,
  ⟨0x9001, 1, 5, 5, "FREEZE_STATE", 2, 1, false, 0, false, 1, false, 0, 0, 0, allBits⟩,
  ⟨0x9001, 1, 6, 6, "FREEZE_TIME", 5, 1, false, 0, false, 8, false, 0, 0, 0, allBits⟩,
  ⟨0x9001, 1, 7, 7, "FREEZE_LENGTH", 5, 1, false, 0, false, 8, false, 0, 0, 0, allBits⟩,
  ⟨0x9001, 1, 8, 8, "FREEZE_LIMIT", 3, 2, false, 0, false, 2, false, 10, 1, 1000, allBits⟩,
  ⟨0x9001, 1, 9, 9, "FREEZES_IGNORED", 4, 1, false, 0, false, 4, false, 0, 0, 0, allBits⟩,
  ⟨0x9020, 8, 1, 1, "TRACE_BASE", 5, 2, false, 0, false, 8, false, 0, 0, 0, allBits⟩,
  ⟨0x9020, 8, 2, 2, "TRACE_SIZE", 5, 2, false, 0, false, 8, false, 0, 0, 0, allBits⟩,
  ⟨0x9020, 8, 3, 3, "TRACE_CONTROL", 2, 2, false, 0, false, 1, false, 0, 0, 0, 0x7⟩,
  ⟨0x9020, 8, 4, 4, "TRACE_WRITTEN", 5, 1, false, 0, false, 8, false, 0, 0, 0, allBits⟩,
  ⟨0x9020, 8, 5, 5, "TRACE_LOST", 5, 1, false, 0, false, 8, false, 0, 0, 0, allBits⟩,
  ⟨0x9030, 1, 1, 1, "DUMP_REQUEST", 2, 3, false, 0, false, 1, false, 0, 1, 1, allBits⟩,
  ⟨0x9030, 1, 2, 2, "DUMPS_TAKEN", 4, 1, false, 0, false, 4, false, 0, 0, 0, allBits⟩,
  ⟨0x9030, 1, 3, 3, "DUMPS_REFUSED", 4, 1, false, 0, false, 4, false, 0, 0, 0, allBits⟩,
  ⟨0x9040, 8, 1, 1, "CC_TRACE_CONTROL", 2, 2, false, 0, false, 1, false, 0, 0, 0, 0x1⟩,
  ⟨0x9040, 8, 2, 2, "CC_TRACE", 10, 1, false, 0, false, 1048576, false, 0, 0, 0, allBits⟩,
  ⟨0x9040, 8, 3, 3, "CC_TRACE_LOST", 5, 1, false, 0, false, 8, false, 0, 0, 0, allBits⟩,
  ⟨0x9050, 1, 1, 1, "TEST_HOLD", 2, 3, false, 0, false, 1, false, 0, 0, 1, allBits⟩,
  ⟨0x9050, 1, 2, 2, "TEST_STATE", 2, 1, false, 0, false, 1, false, 0, 0, 0, allBits⟩,
  ⟨0x9050, 1, 3, 3, "TEST_START", 4, 3, false, 0, false, 4, false, 0, 0, 0, allBits⟩,
  ⟨0x9050, 1, 4, 4, "TEST_RESULT", 5, 1, false, 0, false, 8, false, 0xFF000000, 0, 0, allBits⟩,
  ⟨0x9050, 1, 5, 5, "TEST_RUNS", 4, 1, false, 0, false, 4, false, 0, 0, 0, allBits⟩]

/-- Objects of security (18 R460). -/
def secureObjs : List ObjDef := [
  ⟨0xA000, 1, 1, 1, "LC_STATE", 2, 1, false, 1, true, 1, false, 1, 0, 0, allBits⟩,
  ⟨0xA000, 1, 2, 2, "LC_NONCE", 10, 1, false, 0, false, 32, true, 0, 0, 0, allBits⟩,
  ⟨0xA000, 1, 3, 3, "LC_REQUEST", 2, 3, false, 0, false, 1, false, 0, 0, 0, allBits⟩,
  ⟨0xA000, 1, 4, 4, "LC_TOKEN", 10, 3, false, 0, false, 576, true, 0, 0, 0, allBits⟩,
  ⟨0xA000, 1, 5, 5, "LC_RESULT", 2, 1, false, 0, false, 1, false, 0, 0, 0, allBits⟩,
  ⟨0xA000, 1, 6, 6, "RETURN_ERASED", 1, 1, false, 1, true, 1, false, 0, 0, 0, allBits⟩,
  ⟨0xA000, 1, 7, 7, "LC_WORDS_LEFT", 2, 1, false, 0, false, 1, false, 31, 0, 0, allBits⟩,
  ⟨0xA010, 1, 1, 1, "DEVICE_CERT", 10, 0, false, 0, false, 4096, false, 0, 0, 0, allBits⟩,
  ⟨0xA010, 1, 2, 2, "DEVICE_PUBKEY", 10, 0, false, 0, false, 512, true, 0, 0, 0, allBits⟩,
  ⟨0xA018, 4, 1, 1, "ATTEST_NONCE", 10, 3, false, 0, false, 32, true, 0, 0, 0, allBits⟩,
  ⟨0xA018, 4, 2, 2, "ATTEST_REPORT", 10, 1, false, 0, false, 832, true, 0, 0, 0, allBits⟩,
  ⟨0xA020, 1, 1, 1, "DEBUG_STATE", 3, 1, false, 1, true, 2, false, 5, 0, 0, allBits⟩,
  ⟨0xA030, 1, 1, 1, "SVN_FLOOR", 2, 1, false, 0, false, 1, false, 0, 0, 0, allBits⟩,
  ⟨0xA030, 1, 2, 2, "RUNNING_SVN", 2, 1, false, 0, false, 1, false, 0, 0, 0, allBits⟩,
  ⟨0xA030, 1, 3, 3, "KEYS_REVOKED", 2, 1, false, 0, false, 1, false, 0, 0, 0, allBits⟩,
  ⟨0xA030, 1, 4, 4, "FLOOR_WORDS_LEFT", 2, 1, false, 0, false, 1, false, 64, 0, 0, allBits⟩,
  ⟨0xA030, 1, 5, 5, "BOOT_FAIL", 3, 1, false, 1, true, 2, false, 0, 0, 0, allBits⟩,
  ⟨0xA040, 1, 1, 1, "KEY_SLOTS_FAULTED", 5, 1, false, 0, false, 8, false, 0, 0, 0, allBits⟩]

/-- The object table (14 R348 to R352). -/
def objTable : List ObjDef :=
  identityObjs ++ linkObjs ++ setObjs ++ partObjs ++ tierObjs ++ mediaObjs
    ++ laneObjs ++ scanObjs ++ powerObjs ++ errorObjs ++ debugObjs ++ secureObjs


/-- Does a row hold the object? -/
def ObjDef.covers (d : ObjDef) (idx sub : Nat) : Bool :=
  decide (d.idx ≤ idx) && decide (idx < d.idx + d.n) && decide (d.s1 ≤ sub) && decide (sub ≤ d.s2)

/-- The row of an object. -/
def findObj (idx sub : Nat) : Option ObjDef := objTable.find? (fun d => d.covers idx sub)

/-- Does an index exist (R348, R349)? -/
def idxExists (idx : Nat) : Bool := objTable.any (fun d => decide (d.idx ≤ idx) && decide (idx < d.idx + d.n))

/-- The highest sub-index of an index, which its sub-index 00 holds (R348). -/
def highSub (idx : Nat) : Nat :=
  (objTable.filter (fun d => decide (d.idx ≤ idx) && decide (idx < d.idx + d.n))).foldl (fun m d => max m d.s2) 0

/-- The row of sub-index 00: a U8 CONST (R348). -/
def subZero (idx : Nat) : ObjDef := ⟨idx, 1, 0, 0, "", 2, 0, false, 0, false, 1, false, highSub idx, 0, 0, 0⟩

/-- Strings and domains (R350). -/
def ObjDef.isBytes (d : ObjDef) : Bool := decide (d.type = 9 ∨ d.type = 10)

/-- Key of an object's value. -/
def objKey (idx sub : Nat) : Nat := idx * 256 + sub

/-- The default of a numeric object (R351); NODE_ID follows the slot identity (R337). -/
def objDefault (s : State) (idx sub : Nat) : Nat :=
  if idx = 0x1100 ∧ sub = 1 then 4088 + s.power.ids.toNat
  else match findObj idx sub with
    | some d => d.dflt
    | none => 0

/-- The last accepted value of a numeric object (R356). -/
def State.obj (s : State) (idx sub : Nat) : Nat :=
  (s.dict.objs.get (BitVec.ofNat 64 (objDefault s idx sub)) (objKey idx sub)).toNat

/-- The value that governs (R356). -/
def State.gov (s : State) (idx sub : Nat) : Nat :=
  (s.dict.gov.get (BitVec.ofNat 64 (objDefault s idx sub)) (objKey idx sub)).toNat

/-- Width in bits of a numeric object's value. -/
def objBits (idx sub : Nat) : Nat := match findObj idx sub with
  | some d => 8 * d.size
  | none => 64

/-- Store a value under an object's key, cut to the object's width. -/
def State.put (s : State) (idx sub v : Nat) : State :=
  { s with dict := { s.dict with objs := s.dict.objs.set (objKey idx sub) (BitVec.ofNat 64 (v % 2 ^ objBits idx sub)) } }

/-- Make a value govern. -/
def State.putGov (s : State) (idx sub v : Nat) : State :=
  { s with dict := { s.dict with gov := s.dict.gov.set (objKey idx sub) (BitVec.ofNat 64 (v % 2 ^ objBits idx sub)) } }

/-- Advance a counter, wrapping at its width (R347, R461). -/
def State.bump (s : State) (idx sub n : Nat) : State := s.put idx sub (s.obj idx sub + n)

/-- Advance a counter that saturates (R275, R405, R441). -/
def State.bumpSat (s : State) (idx sub n : Nat) : State :=
  s.put idx sub (min (s.obj idx sub + n) (2 ^ objBits idx sub - 1))

/-- The bytes of a string or domain, last accepted and governing. -/
def State.dom (s : State) (idx sub : Nat) : Bytes := s.dict.doms.get [] (objKey idx sub)
def State.govDom (s : State) (idx sub : Nat) : Bytes := s.dict.govDoms.get [] (objKey idx sub)
def State.putDom (s : State) (idx sub : Nat) (v : Bytes) : State :=
  { s with dict := { s.dict with doms := s.dict.doms.set (objKey idx sub) v } }

end Sys2Proof.Machine
end

