-- ==== Sys2Proof/Machine/Lanes.lean ====
section
/-! DEFINITION. The lane steps: LOADW, STREAM and DRAIN (03 R83, R84; 04 R97 to R110; 05). The word of a step is a
number of 256 bits, laid out as R78 and R83 say; its advanced fields are already advanced. -/

namespace Sys2Proof.Machine

/-- Fields common to the steps addressed to virtual dies (R83). -/
def vFirst (w : Nat) : Nat := bits w 191 186
def vLast (w : Nat) : Nat := bits w 185 180

/-- Die offset of byte `u` of lane `l` in the lane weight store (R85). -/
def laneByte (l u : Nat) : Nat := u / 64 * 4096 + l * 64 + u % 64

/-- The value of an accumulator entry as an exact number; an empty entry is zero (R91, R107, R136). -/
def accVal : Option AccEntry → FVal
  | none => .fin false 0 0
  | some e => if e.isInt then elemVal 8 e.bits.toNat else valF32 e.bits

/-- An entry's value converted to the type of a pass (R136), with the counts of the conversion. -/
def accAs (toInt : Bool) : Option AccEntry → Narrowed
  | none => ⟨0, false, false⟩
  | some e => if e.isInt = toInt then ⟨e.bits.toNat, false, false⟩ else narrow (if toInt then 8 else 0) (accVal (some e))

/-- The sum of a lane's 64 integer products (R102). -/
def dotInt (a c : List FVal) : Int :=
  (List.zipWith (fun x y => match x, y with
    | .fin n m _, .fin k q _ => (dyOf n m 0).m * (dyOf k q 0).m
    | _, _ => 0) a c).foldl (· + ·) 0

/-- Saturating addition to an INT32 entry, and whether it saturated (R102). -/
def addInt (a : BitVec 32) (v : Int) : BitVec 32 × Bool :=
  let s := a.toInt + v
  if s < -2147483648 then (0x80000000, true) else if 2147483647 < s then (0x7FFFFFFF, true) else (BitVec.ofInt 32 s, false)

/-- One lane's sum for one vector written or added to its entry (R84, R101, R102, R136). The pair says how many
saturating additions or conversions and how many NaN-to-integer conversions there were. -/
def accumulate (toInt add : Bool) (old : Option AccEntry) (wt op : List FVal) : AccEntry × Nat × Nat :=
  let c := if add then accAs toInt old else ⟨0, false, false⟩
  let n := fun (b : Bool) => if b then 1 else 0
  if toInt then
    let r := addInt (BitVec.ofNat 32 c.raw) (dotInt wt op)
    (⟨r.1, true⟩, n c.sat + n r.2, n c.nanInt)
  else
    let s := dotExact wt op
    (⟨if add then fadd (BitVec.ofNat 32 c.raw) s else s, false⟩, n c.sat, n c.nanInt)

/-- Is every element zero, is every element finite (R109)? -/
def allZero (l : List FVal) : Bool := l.all (fun v => match v with | .fin _ m _ => decide (m = 0) | _ => false)
def allFinite (l : List FVal) : Bool := l.all (fun v => match v with | .fin _ _ _ => true | _ => false)
def gates (wt op : List FVal) : Bool := (allZero op && allFinite wt) || (allZero wt && allFinite op)

/-- The wider of two formats' widths, which sets the rate of a pass (R97). -/
def pairBits (f g : Nat) : Nat := max (fmtBits f) (fmtBits g)

/-- Cycles per vector at the rates of R97 above 4 bits. -/
def pieces (bw : Nat) : Nat := if bw = 32 then 16 else if bw = 16 then 2 else 1

/-- Zero-gated slots of one lane in a pass, over the elements it takes in each cycle (R109, R110). Which elements of a
16-bit or FP32 vector a lane takes in each of its cycles is not stated: consecutive blocks, ascending (DESIGN CHOICE,
log 69). -/
def gatedSlots (bw : Nat) (wt : List FVal) (ops : List (List FVal)) : Nat :=
  if bw = 4 then
    (List.range ((ops.length + 1) / 2)).countP (fun i => ((ops.drop (2 * i)).take 2).all (gates wt))
  else
    let n := 64 / pieces bw
    (ops.map (fun op => (List.range (pieces bw)).countP (fun i =>
      gates ((wt.drop (i * n)).take n) ((op.drop (i * n)).take n)))).foldl (· + ·) 0

/-- The counter of retired slots of a rate (R461). -/
def rateOf (bw : Nat) : Nat := if bw = 4 then 2 else if bw = 8 then 3 else if bw = 16 then 4 else 5

/-- The slots of a pass of `nv` vectors over the 64 lanes (R97, R103). -/
def passSlots (bw nv : Nat) : Nat := 64 * (if bw = 4 then (nv + 1) / 2 else pieces bw * nv)

/-- A pass took slots on die `d`: they count as retired once the step completes, as wasted if it is cut (R111). -/
def took (b : Bench) (d bw slots gated : Nat) : Bench := { b with slots := ⟨d, rateOf bw, slots, gated, b.draw⟩ :: b.slots }

/-- Slots of class `k` of die `d`, `n` in each lane group (R111): 2 starved-front, 3 starved-back. -/
def starve (b : Bench) (d k n : Nat) : Bench :=
  { b with perf := (128 * d + 5 + k, 8 * n) :: (List.range 8).map (fun g => (128 * d + 24 + 4 * g + k, n)) ++ b.perf }

/-- The bytes of a die's lane weight store that one tile occupies, over all lanes, as a span of die offsets: whole rows of
64 bytes of every lane, as the read port delivers them, so that a bad word beside a tile in its row stops the step too
(R118 does not say which words the reading of a tile checks; DESIGN CHOICE, log 68). -/
def tileSpan (t : Tile) : Nat × Nat :=
  let lo := if t.fmt = 7 ∧ t.group = 3 then t.base + tileStart 7 3 (t.t - t.t % 2) else t.base + tileStart t.fmt t.group t.t
  let hi := t.base + tileStart t.fmt t.group (t.t + 1)
  (lo / 64 * 4096, ((hi + 63) / 64 - lo / 64) * 4096)

/-- The next tile of the queue is read into a free staging register (R104, R106, R108). -/
def stage (b : Bench) (d : Nat) : Work Bench :=
  match (b.die d).staging, (b.die d).tiles with
  | none, t :: ts => do
    let m ← b.readLws d (tileSpan t).1 (tileSpan t).2
    .ok (b.setDie d { b.die d with tiles := ts, staging := some ⟨t, m⟩ })
  | _, _ => .ok b

/-- Has a die a tile for the next pass? -/
def Die.hasTile (x : Die) : Bool := x.staging.isSome || !x.tiles.isEmpty

/-- Tiles that a die holds for later passes, the staged one included. -/
def Die.held (x : Die) : Nat := (if x.staging.isSome then 1 else 0) + x.tiles.length

/-- Is a tile loaded into idle lanes behind the tile before it (R105)? -/
def loadsIdle (before : Option Held) (t : Tile) : Bool :=
  match before with
  | none => false
  | some u => (decide (t.t = 0) && !t.front) || decide (t.fmt ≠ u.tile.fmt) || decide (t.group ≠ u.tile.group)

/-- The staged tile becomes stationary, and the next one is read into staging (R104). A tile loaded into idle lanes within a
STREAM costs 512 starved-front slots (R105). -/
def takeTile (b : Bench) (d : Nat) (first : Bool) : Work (Option (Held × Bench)) := do
  let b ← stage b d
  match (b.die d).staging with
  | none => .ok none
  | some h =>
    let b := if !first && loadsIdle (b.die d).stationary h.tile then starve b d 2 64 else b
    let b := { b with tiles := (d, tileSpan h.tile) :: b.tiles }
    let b ← stage (b.setDie d { b.die d with staging := none, stationary := some h }) d
    .ok (some (h, b))

/-- LOADW: the tiles join the tile queue of every die of the range, in order, and the first is read into a free staging
register (R106). -/
def loadwWork (b : Bench) (w issue : Nat) : Work Bench :=
  let fmt := bits w 149 146
  let group := bits w 145 144
  let base := bits w 179 162
  Bench.eachDie (b.span (vFirst w) (vLast w)) b (fun b p =>
    let x := b.die p.2
    stage (b.setDie p.2 { x with
      tiles := x.tiles ++ (List.range (bits w 161 150 + 1)).map (fun t => ⟨fmt, group, base, t, issue, bitOf w 143⟩) }) p.2)

/-- Does a die still hold a tile of the LOADW of an issue number that is not stationary? -/
def Die.waitsFor (x : Die) (issue : Nat) : Bool :=
  x.tiles.any (fun t => decide (t.issue = issue)) || (match x.staging with
    | none => false
    | some h => decide (h.tile.issue = issue))

/-- Is the last tile of a LOADW stationary on every die of its range (R106)? -/
def loadwDone (b : Bench) (w issue : Nat) : Bool :=
  (b.span (vFirst w) (vLast w)).all (fun p => !(b.die p.2).waitsFor issue)

/-- The weight of element `e` of lane `l` in a held tile (R85, R100, R129). -/
def Held.lane (h : Held) (l : Nat) : List FVal :=
  (List.range 64).map (fun e =>
    tileElem (fun u => h.bytes.read (laneByte l u - (tileSpan h.tile).1)) h.tile.fmt h.tile.group h.tile.base h.tile.t e)

/-- The addition of a pass reads the entries that it adds to: one in parity fault stops the step (R118). -/
def addReads (b : Bench) (d e n : Nat) (add : Bool) : Work Unit :=
  match (b.die d).badAcc.find? (fun a => add && within a 1 (e * 64) (n * 64)) with
  | some a => .error (.uncorrectable (some d) a, b)
  | none => .ok ()

/-- Passes of a STREAM (R84). -/
def streamPasses (w : Nat) : Nat := bits w 163 152 + 1

/-- The entries that pass `j` of a STREAM writes: the first, and how many (R84). -/
def passEntries (w j : Nat) : Nat × Nat :=
  (bits w 133 128 + j / (bits w 151 140 + 1) * (bits w 139 134 + 1), bits w 139 134 + 1)

/-- Virtual die `v` goes on from pass `j` of `n`: where it had run out of tiles, it counts the starved-front slots of its
wait (R105), which is a free value (log 17). Tiles of a LOADW that was issued before it ran out leave no gap (R106). -/
def Bench.resume (b : Bench) (v d j n : Nat) : Bench :=
  if decide (0 < j) && decide (j < n) && (b.die d).hasTile && decide (v ∈ b.starved)
  then { starve b d 2 (8 * Config.waitCycles b.draw (d * 4096 + j)) with starved := b.starved.filter (fun x => decide (x ≠ v)) }
  else b

/-- Virtual die `v` has done its passes below `j`, and has no tile for the next. -/
def Bench.runOut (b : Bench) (v j : Nat) : Bench :=
  { b.reach v j with starved := if b.more || decide (v ∈ b.starved) then b.starved else v :: b.starved }

/-- One pass of a STREAM on one die (R84, R99, R101, R102). A pass whose entry an uncompleted DRAIN or SFN reads has
waited for it (R107), how long is a free value (log 17). -/
def streamPass (w j : Nat) (b : Bench) (v d : Nat) : Work Bench := do
  let ifmt := bits w 125 122
  let nv := bits w 139 134 + 1
  let nk := bits w 151 140 + 1
  match ← takeTile b d (decide (j = 0)) with
  | none => .ok b
  | some (h, b) =>
    if fmtIsInt h.tile.fmt != fmtIsInt ifmt then b.clash d
    else
      let k := j % nk
      let cs := chunkSize ifmt
      let ob ← b.readOb d (bits w 179 164 * 32 + k * nv * cs) (nv * cs)
      let ops := (List.range nv).map (fun v => (List.range 64).map (fun e =>
        chunkElem (fun i => ob.read (v * cs + i)) ifmt e))
      let isInt := decide (bits w 126 126 = 1)
      let add := decide (bits w 127 127 = 1) || decide (k ≠ 0)
      let first := (passEntries w j).1
      let _ ← addReads b d first nv add
      let b := if b.reading.any (fun r => decide (r.1 = v) && overlaps first nv r.2.1 r.2.2)
        then starve b d 3 (8 * Config.waitCycles b.draw (d * 4096 + j)) else b
      let b := b.keep (.acc d) (first * 64) (nv * 64)
      let bw := pairBits h.tile.fmt ifmt
      let go := fun (r : Tab AccEntry × Nat × Nat × Nat) (l : Nat) =>
        let wt := h.lane l
        let r' := ops.zipIdx.foldl (fun (r : Tab AccEntry × Nat × Nat) (p : List FVal × Nat) =>
          let key := (first + p.2) * 64 + l
          let old := if r.1.has key then some (r.1.get ⟨0, false⟩ key) else none
          let a := accumulate isInt add old wt p.1
          (r.1.set key a.1, r.2.1 + a.2.1, r.2.2 + a.2.2)) (r.1, r.2.1, r.2.2.1)
        (r'.1, r'.2.1, r'.2.2, r.2.2.2 + gatedSlots bw wt ops)
      let r := (List.range 64).foldl go ((b.die d).acc, 0, 0, 0)
      let b := b.setDie d { b.die d with
        acc := r.1
        badAcc := (b.die d).badAcc.filter (fun a => !within a 1 (first * 64) (nv * 64)) }
      .ok (took ((b.count d 10 r.2.1).count d 11 r.2.2.1) d bw (passSlots bw nv) r.2.2.2)

/-- The passes of a STREAM on virtual die `v` from pass `j` on, as long as the die has a tile (R93: a pass without a tile
waits). `fuel` counts the passes left. -/
def streamDie (w v d : Nat) : Nat → Nat → Bench → Work Bench
  | 0, j, b => .ok (b.reach v j)
  | fuel + 1, j, b =>
    if !(b.die d).hasTile then .ok (b.runOut v j)
    else
      match streamPass w j b v d with
      | .ok b => streamDie w v d fuel (j + 1) b
      | .error e => .error e

/-- A STREAM: every die of the range goes on from the pass that it has reached. -/
def streamWork (b : Bench) (w : Nat) : Work Bench :=
  Bench.eachDie (b.span (vFirst w) (vLast w)) b (fun b p =>
    let j := b.rows.get 0 p.1
    streamDie w p.1 p.2 (streamPasses w - j) j (b.resume p.1 p.2 j (streamPasses w)))

/-- The entries from `e` on, `n` of them, read as rows of 64 values (R83, R107), or the entry in parity fault. -/
def readAcc (b : Bench) (d e n : Nat) : Work (List (List FVal)) :=
  match (b.die d).badAcc.find? (fun a => within a 1 (e * 64) (n * 64)) with
  | some a => .error (.uncorrectable (some d) a, b)
  | none => .ok ((List.range n).map (fun i => (List.range 64).map (fun l =>
      let k := (e + i) * 64 + l
      accVal (if (b.die d).acc.has k then some ((b.die d).acc.get ⟨0, false⟩ k) else none))))

/-- Rows packed one after another in format `c`, the counts of die `d` advanced (R135). -/
def packRows (b : Bench) (d c : Nat) (rows : List (List FVal)) : Bytes × Bench :=
  let ps := rows.map (packRow c)
  let sum := fun (f : NarrowCounts → Nat) => (ps.map (fun p => f p.2)).foldl (· + ·) 0
  (ps.flatMap Prod.fst,
    ((b.count d 10 (sum NarrowCounts.sat)).count d 11 (sum NarrowCounts.nanInt)).count d 13 (sum NarrowCounts.nanGroup))

/-- FP32 words as exact values. -/
def fvals (l : List (BitVec 32)) : List FVal := l.map valF32

/-- Where a DRAIN's data of one die goes (R83, DST_KIND), `off` bytes on: `tag` gives the tag of each granule. -/
def drainPut (w : Nat) (b : Bench) (v d off : Nat) (data : Mem) (n : Nat) (tag : Nat → Nat) : Work Bench :=
  let at' := bits w 139 92 + (v - vFirst w) * bits w 91 68 * 64 + off
  match bits w 142 140 with
  | 2 => .ok (b.writeOb d at' n data tag)
  | 3 => .ok ((b.span (vFirst w) (vLast w)).foldl (fun b p => b.writeOb p.2 at' n data tag) b)
  | 4 => .ok (b.writeLws d at' n data)
  | _ => b.writeMem at' n data

/-- GS4 quantises FP32 results (R131): an INT32 value is converted to FP32 first (R136). -/
def gs4Source (c : Nat) (v : FVal) : FVal := if fmtIsGs4 c then valF32 (BitVec.ofNat 32 (narrow 0 v).raw) else v

/-- The rows of a step from `i` up to `n` whose accumulator entries, from `e` on, no STREAM has still to write on virtual
die `v`: a row whose entry is pending holds itself and the rows after it (R107, R147). -/
def readyRows (b : Bench) (v e i n : Nat) : List Nat :=
  ((List.range (n - i)).map (fun k => i + k)).takeWhile (fun r => !b.pends v (e + r))

/-- DRAIN of one die (R83, R84, R107, R131, R133 to R136, R144): the rows that are ready, each in turn. -/
def drainDie (w : Nat) (b : Bench) (v d : Nat) : Work Bench := do
  let n := bits w 162 147 + 1
  let ofmt := bits w 146 143
  let i := b.rows.get 0 v
  if bits w 179 179 = 1 then
    if n ≤ i then .ok b
    else do
      let off := bits w 178 163
      let src ← b.readOb d (off * 32) (n * 32)
      let x := b.die d
      let b ← drainPut w b v d 0 src (n * 32) (fun i => x.tag (off + i))
      .ok (b.reach v n)
  else
    Bench.each (readyRows b v (bits w 168 163) i n) b (fun b r => do
      let rows ← readAcc b d (bits w 168 163 + r) 1
      let o := packRows b d ofmt (rows.map (fun r => r.map (gs4Source ofmt)))
      let b ← drainPut w o.2 v d (r * rowBytes ofmt) (memOf o.1) o.1.length (fun _ => ofmt)
      .ok (b.reach v (r + 1)))

/-- DRAIN: reads every die of the range, each in turn (R83). -/
def drainWork (b : Bench) (w : Nat) : Work Bench :=
  Bench.eachDie (b.span (vFirst w) (vLast w)) b (fun b p => drainDie w b p.1 p.2)

end Sys2Proof.Machine
end

