-- ==== Sys2Proof/Machine/SfUnits.lean ====
section
/-! DEFINITION. The special-function steps: SFN (R142 to R150, R156) and NORM (R157 to R160, R504), and the chain
units: RECUR, PREFIX and ORTHO (R112 to R115). -/

namespace Sys2Proof.Machine

/-- Granules of 64 elements of a source format (R145, R504). -/
def srcGranules (c : Nat) : Nat := if c = 0 ∨ c = 8 then 8 else if c = 6 then 1 else fmtBits c / 4

/-- The one format in which a step reads `n` granules from granule `g`, or a format clash (R144). -/
def sourceFormat (b : Bench) (d g : Nat) (count : Nat → Nat) : Work Nat :=
  let x := b.die d
  let c := x.tag g
  let n := count (srcGranules c)
  if fmtIsGs4 c || decide (9 < c) || decide (obBytes < (g + n) * 32) then b.clash d
  else if (List.range n).all (fun i => x.tag (g + i) = c) then .ok c else b.clash d

/-- An element widened to FP32 (R132, R136, R143). An INT32 element that FP32 does not hold rounds with ties away from zero, as R136
and R133 have it of every conversion from INT32; R143 lists two such roundings in the path of an SFN and leaves this one
out (DESIGN CHOICE, log 111). -/
def widen (c raw : Nat) : BitVec 32 :=
  if c = 0 then (if fIsNan (BitVec.ofNat 32 raw) then nanWord else BitVec.ofNat 32 raw)
  else BitVec.ofNat 32 (narrow 0 (elemVal c raw)).raw

/-- `n` elements of format `c` from byte `lo` of a die's operand buffer, widened. -/
def readRow (b : Bench) (d lo c n : Nat) : Work (List (BitVec 32)) := do
  let m ← b.readOb d lo (n * fmtBits c / 8)
  .ok ((List.range n).map (fun j => widen c (rawElem (fun i => m.read i) c j)))

/-- A scale register that a step reads in an uncorrectable word stops it (R118, R137). `rs` are the registers. -/
def scaleReads (b : Bench) (d : Nat) (rs : List Nat) : Work Unit :=
  let base := (b.ctx * 2 + (if b.side then 1 else 0)) * 16384
  match least ((b.die d).badScale.filter (fun a => rs.any (fun r => decide (a / 8 = (base + r % 4096 * 4) / 8)))) with
  | some a => .error (.uncorrectable (some d) a, b)
  | none => .ok ()

/-- Register `r` of a virtual die's scale bank (R137 to R139). -/
def scaleReg (b : Bench) (v r : Nat) : BitVec 32 := BitVec.ofNat 32 (b.scales.num (v * 16384 + r % 4096 * 4) 4)

/-- One row of an SFN: operations 2 to 4 of R143. -/
def sfnRow (b : Bench) (w v i : Nat) (bias : Option (List (BitVec 32))) (row : List (BitVec 32)) : List (BitVec 32) :=
  let row := match bias with
    | some bs => List.zipWith fadd row bs
    | none => row
  row.zipIdx.map (fun p =>
    let c := sfApply b.sf (bits w 179 176) p.1
    if bits w 114 114 = 1 then fmul c (scaleReg b v (bits w 126 115 + 64 * i + p.2)) else c)

/-- SFN on one die: the rows that are ready, each in turn (R143 to R145, R147). -/
def sfnDie (w : Nat) (b : Bench) (v d : Nat) : Work Bench := do
  let n := bits w 158 143 + 1
  let off := bits w 174 159
  let ofmt := bits w 113 110
  let from' := b.rows.get 0 v
  let rows := if bits w 175 175 = 1 then (List.range (n - from')).map (fun k => from' + k)
    else readyRows b v (off % 64) from' n
  let fmt ← if bits w 175 175 = 1 ∧ from' < n then sourceFormat b d off (fun g => n * g) else .ok 0
  let outBytes := rowGranules ofmt * 32
  Bench.each rows b (fun b i => do
    let row ← if bits w 175 175 = 1 then readRow b d ((off + i * srcGranules fmt) * 32) fmt 64
      else (readAcc b d (off % 64 + i) 1).map (fun a => (a.headD []).map (fun x => BitVec.ofNat 32 (narrow 0 x).raw))
    let bias ← if bits w 142 127 = 0xFFFF then .ok none
      else (readRow b d ((bits w 142 127 + 8 * i) * 32) 0 64).map some
    let _ ← if bitOf w 114 then scaleReads b d ((List.range 64).map (fun e => bits w 126 115 + 64 * i + e)) else .ok ()
    let r := packRows b d ofmt [fvals (sfnRow b w v i bias row)]
    .ok ((r.2.writeOb d (bits w 109 94 * 32 + i * outBytes) outBytes (memOf r.1) (fun _ => ofmt)).reach v (i + 1)))

/-- SFN (R143). -/
def sfnWork (b : Bench) (w : Nat) : Work Bench :=
  Bench.eachDie (b.span (vFirst w) (vLast w)) b (fun b p => sfnDie w b p.1 p.2)

/-- The greater and the smaller of two numbers, +0 above -0 (R158). -/
def fmaxZ (a c : BitVec 32) : BitVec 32 :=
  if flt a c then c else if flt c a then a else if a = 0x80000000 then c else a
def fminZ (a c : BitVec 32) : BitVec 32 :=
  if flt c a then c else if flt a c then a else if c = 0x80000000 then c else a

/-- Arithmetic of R157 on one row: kind 0 RMS, 1 CENTRED, 2 SUM, 3 MAX; the record of R159 as a number. A NaN that
infinities of both signs leave in the variance stays one (R101, R158; DEDUCED, log 21). -/
def rowRecord (kind : Nat) (eps : BitVec 32) (pivot : Bool) (xs : List (BitVec 32)) : Nat :=
  let n := xs.length
  let nf := BitVec.ofNat 32 (narrow 0 (.fin false n 0)).raw
  let p := if kind = 1 ∧ pivot then xs.headD 0 else 0
  let ds := if kind = 1 then xs.map (fun x => fsub x p) else xs
  let s1 := ftree (partials 64 (fun a d => fadd a d) ds)
  let s2 := ftree (partials 64 (fun a d => ffma d d a) ds)
  let mx := xs.foldl fmaxZ (xs.headD 0)
  let mn := xs.foldl fminZ (xs.headD 0)
  let m1 := fdiv s1 nf
  let var := ffma (fneg m1) m1 (fdiv s2 nf)
  let one : BitVec 32 := 0x3F800000
  let factor :=
    if kind = 0 then fdiv one (fsqrt (fadd (fdiv s2 nf) eps))
    else if kind = 1 then fdiv one (fsqrt (fadd (if fIsNan var then nanWord else fmaxZ 0 var) eps))
    else if kind = 2 then fdiv one (fadd s1 eps)
    else one
  let centre := if kind = 1 then fadd p m1 else if kind = 3 then mx else 0
  let nan := xs.any fIsNan
  let w := fun (v : BitVec 32) => (if nan then nanWord else v).toNat
  field 32 224 n + field 32 192 (w factor) + field 32 160 (w centre) + field 32 128 (w mn) + field 32 96 (w mx)
    + field 32 64 p.toNat + field 32 32 (w s2) + field 32 0 (w s1)

/-- The kind that register GAMMA_BASE + 1 holds: 0.0, 1.0, 2.0 or 3.0 (R157). The rule does not say which zero 0.0 is:
-0.0 is taken as 0.0 (DESIGN CHOICE, log 72). -/
def normKind (r : BitVec 32) : Option Nat :=
  if r = 0 ∨ r = 0x80000000 then some 0 else if r = 0x3F800000 then some 1 else if r = 0x40000000 then some 2
  else if r = 0x40400000 then some 3 else none

/-- The source row of a NORM (R144, R504). -/
def normRow (w : Nat) (b : Bench) (d i fmt : Nat) : Work (List (BitVec 32)) :=
  let len := bits w 161 146 + 1
  readRow b d ((bits w 177 162 + i * len * srcGranules fmt) * 32) fmt (len * 64)

/-- NORM STATS on one die (R157 to R159). -/
def normStatsDie (w : Nat) (b : Bench) (v d : Nat) : Work Bench := do
  let fmt ← sourceFormat b d (bits w 177 162) (fun g => (bits w 145 134 + 1) * (bits w 161 146 + 1) * g)
  let _ ← scaleReads b d [bits w 117 106, bits w 117 106 + 1]
  match normKind (scaleReg b v (bits w 117 106 + 1)) with
  | none => b.clash d
  | some kind => Bench.each (List.range (bits w 145 134 + 1)) b (fun b i => do
      let xs ← normRow w b d i fmt
      let r := rowRecord kind (scaleReg b v (bits w 117 106)) (decide (bits w 178 178 = 1)) xs
      .ok (b.writeOb d ((bits w 133 118 + i) * 32) 32 (memOf (bytesOf 32 r)) (fun _ => 0)))

/-- NORM STATS (R157). -/
def normStatsWork (b : Bench) (w : Nat) : Work Bench :=
  Bench.eachDie (b.span (vFirst w) (vLast w)) b (fun b p => normStatsDie w b p.1 p.2)

/-- One row of APPLY (R160). -/
def applyRow (w : Nat) (b : Bench) (v : Nat) (centre factor : BitVec 32) (xs : List (BitVec 32)) : List (BitVec 32) :=
  xs.zipIdx.map (fun p =>
    let x := fmul (fmul (fsub p.1 centre) factor) (scaleReg b v (bits w 117 106 + p.2))
    if bits w 105 94 = 0xFFF then x else fadd x (scaleReg b v (bits w 105 94 + p.2)))

/-- Consecutive rows of 64 elements. -/
def rowsOf64 : Nat → List (BitVec 32) → List (List FVal)
  | 0, _ => []
  | n + 1, l => fvals (l.take 64) :: rowsOf64 n (l.drop 64)

/-- NORM APPLY on one die (R160, R504). -/
def normApplyDie (w : Nat) (b : Bench) (v d : Nat) : Work Bench := do
  let len := bits w 161 146 + 1
  let ofmt := bits w 77 74
  let fmt ← sourceFormat b d (bits w 177 162) (fun g => (bits w 145 134 + 1) * len * g)
  let out := len * rowGranules ofmt * 32
  if obBytes < bits w 93 78 * 32 + (bits w 145 134 + 1) * out then b.clash d
  else Bench.each (List.range (bits w 145 134 + 1)) b (fun b i => do
    let xs ← normRow w b d i fmt
    let rec' ← b.readOb d ((bits w 133 118 + i) * 32) 32
    let _ ← scaleReads b d ((List.range (len * 64)).flatMap (fun e =>
      [bits w 117 106 + e] ++ (if bits w 105 94 = 0xFFF then [] else [bits w 105 94 + e])))
    let zs := applyRow w b v (BitVec.ofNat 32 (rec'.num 20 4)) (BitVec.ofNat 32 (rec'.num 24 4)) xs
    let r := packRows b d ofmt (rowsOf64 len zs)
    .ok (r.2.writeOb d (bits w 93 78 * 32 + i * out) out (memOf r.1) (fun _ => ofmt)))

/-- NORM APPLY (R160). -/
def normApplyWork (b : Bench) (w : Nat) : Work Bench :=
  Bench.eachDie (b.span (vFirst w) (vLast w)) b (fun b p => normApplyDie w b p.1 p.2)

/-- `n` FP32 words of a slice, from byte `lo`. -/
def words (m : Mem) (lo n : Nat) : List (BitVec 32) := (List.range n).map (fun i => BitVec.ofNat 32 (m.num (lo + 4 * i) 4))

/-- FP32 words as a memory that starts at address 0. -/
def memOfWords (l : List (BitVec 32)) : Mem := memOf (l.flatMap (fun v => bytesOf 4 v.toNat))

/-- Write FP32 words into an operand buffer; the granules they touch are tagged FP32 (R144). Bytes of the last granule
behind the words stay as they are, bad words among them too (04 R118). -/
def writeWords (b : Bench) (d lo : Nat) (l : List (BitVec 32)) : Bench :=
  let n := ceilDiv (l.length * 4) 32 * 32
  let tail := ((b.die d).ob.slice (lo + l.length * 4) (n - l.length * 4))
  let stay := (b.die d).badOb.filter (fun a => within a 8 lo n && !within a 8 lo (l.length * 4))
  let b := b.writeOb d lo n ((memOfWords l).blit (l.length * 4) (n - l.length * 4) tail) (fun _ => 0)
  let x := b.die d
  b.setDie d { x with badOb := stay ++ x.badOb }

/-- The recurrence of R113: a fused multiply-add per pair. -/
def recur : BitVec 32 → List (BitVec 32 × BitVec 32) → List (BitVec 32)
  | _, [] => []
  | y, (a, c) :: t => let z := ffma a y c; z :: recur z t

/-- CHAIN RECUR on one die (R113). -/
def chainRecurDie (w : Nat) (b : Bench) (d : Nat) : Work Bench := do
  let n := bits w 160 137 + 1
  let src := bits w 176 161 * 32
  let head ← b.readOb d src 4
  let prs ← b.readOb d (src + 32) (n * 8)
  let ys := recur (BitVec.ofNat 32 (head.num 0 4)) ((List.range n).map (fun i =>
    (BitVec.ofNat 32 (prs.num (8 * i) 4), BitVec.ofNat 32 (prs.num (8 * i + 4) 4))))
  .ok (writeWords b d (bits w 131 116 * 32) ys)

/-- CHAIN RECUR (R113). -/
def chainRecurWork (b : Bench) (w : Nat) : Work Bench :=
  Bench.each (b.span (vFirst w) (vLast w)) b (fun b p => chainRecurDie w b p.2)

/-- Running sums from `s` (R114). -/
def runSum : BitVec 32 → List (BitVec 32) → List (BitVec 32)
  | _, [] => []
  | s, x :: t => let z := fadd s x; z :: runSum z t

/-- CHAIN PREFIX on one die (R114). -/
def chainPrefixDie (w : Nat) (b : Bench) (d : Nat) : Work Bench := do
  let n := bits w 160 137 + 1
  let m ← b.readOb d (bits w 176 161 * 32) (n * 4)
  .ok (writeWords b d (bits w 131 116 * 32) (runSum 0 (words m 0 n)))

/-- CHAIN PREFIX (R114). -/
def chainPrefixWork (b : Bench) (w : Nat) : Work Bench :=
  Bench.each (b.span (vFirst w) (vLast w)) b (fun b p => chainPrefixDie w b p.2)

/-- The dot product of R115: 128 partial sums and a fixed tree. -/
def chainDot (x y : List (BitVec 32)) : BitVec 32 :=
  ftree (partials 128 (fun a (p : BitVec 32 × BitVec 32) => ffma p.1 p.2 a) (x.zip y))

/-- Take the components along the columns already made out of a column (R115). -/
def project : List (List (BitVec 32)) → List (BitVec 32) → List (BitVec 32)
  | [], v => v
  | q :: qs, v => let r := fneg (chainDot q v); project qs (List.zipWith (fun e x => ffma r e x) q v)

/-- Orthonormalise columns in ascending order; the count is of zero columns (R115). -/
def ortho (done : List (List (BitVec 32))) (zeros : Nat) : List (List (BitVec 32)) → List (List (BitVec 32)) × Nat
  | [] => (done, zeros)
  | c :: cs =>
    let v := project done c
    let s := fsqrt (chainDot v v)
    if feq s 0 then ortho (done ++ [v.map (fun _ => 0)]) (zeros + 1) cs
    else ortho (done ++ [v.map (fun e => fdiv e s)]) zeros cs

/-- CHAIN ORTHO on one die (R115). -/
def chainOrthoDie (w : Nat) (b : Bench) (d : Nat) : Work Bench := do
  let n := bits w 160 137 + 1
  let c := bits w 136 132 + 1
  let m ← b.readOb d (bits w 176 161 * 32) (c * n * 4)
  let r := ortho [] 0 ((List.range c).map (fun j => words m (j * n * 4) n))
  .ok (writeWords (b.count d 14 r.2) d (bits w 131 116 * 32) r.1.flatten)

/-- CHAIN ORTHO (R115). -/
def chainOrthoWork (b : Bench) (w : Nat) : Work Bench :=
  Bench.each (b.span (vFirst w) (vLast w)) b (fun b p => chainOrthoDie w b p.2)

end Sys2Proof.Machine
end

