-- ==== Sys2Proof/Machine/Selector.lean ====
section
/-! DEFINITION. The selector (06 R164 to R168) and the board movers (03 R85, FETCH). -/

namespace Sys2Proof.Machine

/-- A candidate: its key, its position and the widened value (R164). -/
structure Candidate where
  key : BitVec 32
  index : Nat
  value : BitVec 32
  deriving DecidableEq, Repr

/-- Does `a` rank before `c`? Numbers before NaNs, the larger or the smaller key first, equal keys by index (R164). -/
def ranksBefore (largest : Bool) (a c : Candidate) : Bool :=
  if fIsNan a.key || fIsNan c.key then
    (if fIsNan a.key && fIsNan c.key then decide (a.index < c.index) else fIsNan c.key)
  else if (if largest then flt c.key a.key else flt a.key c.key) then true
  else if (if largest then flt a.key c.key else flt c.key a.key) then false
  else decide (a.index < c.index)

/-- Insert into a list kept in order. -/
def insertBy {α : Type} (lt : α → α → Bool) (x : α) : List α → List α
  | [] => [x]
  | y :: t => if lt x y then x :: y :: t else y :: insertBy lt x t

/-- The `k` first of a list in the order `lt`. -/
def kFirst {α : Type} (lt : α → α → Bool) (k : Nat) (l : List α) : List α :=
  l.foldl (fun acc x => (insertBy lt x acc).take k) []

/-- The generator of R167: the FP32 value u of (seed, step, index). -/
def drawU (seed : BitVec 64) (step index : Nat) : BitVec 32 :=
  let c : BitVec 64 := BitVec.ofNat 64 (step * 2 ^ 32 + index)
  let z := seed + (c + 1) * 0x9E3779B97F4A7C15
  let z := (z ^^^ (z >>> 30)) * 0xBF58476D1CE4E5B9
  let z := (z ^^^ (z >>> 27)) * 0x94D049BB133111EB
  let z := z ^^^ (z >>> 31)
  roundF32 true (.fin false ((z >>> 41).toNat * 2 + 1) (-24))

/-- The sampling key of a candidate (R167). -/
def sampleKey (x temp : BitVec 32) (seed : BitVec 64) (step index : Nat) : BitVec 32 :=
  let l := sfLog2 log2Table (fneg (sfLog2 log2Table (drawU seed step index)))
  fsub (fdiv x temp) (fmul 0x3F317218 l)

/-- Is a TEMP a positive finite number (R166)? -/
def tempOk (t : BitVec 32) : Bool := fIsFinite t && flt 0 t

/-- A result of a selection, VALUE over INDEX; a missing one is INDEX all ones with the canonical NaN (R165). -/
def resultWord : Option Candidate → Nat
  | some c => c.value.toNat * 2 ^ 32 + c.index
  | none => nanWord.toNat * 2 ^ 32 + 0xFFFFFFFF

/-- Bytes of a row of candidates (R165). -/
def rowSpan (w : Nat) : Nat := ceilDiv ((bits w 142 119 + 1) * (fmtBits (bits w 106 103) / 8)) 64 * 64

/-- One row of a SELECT (R164 to R167). `mode`: 0 largest, 1 smallest, 2 sample. -/
def selectRow (w mode : Nat) (b : Bench) (r : Nat) : Work Bench := do
  let fmt := bits w 106 103
  let n := bits w 142 119 + 1
  let k := bits w 118 109 + 1
  let m ← b.readMem (bits w 190 143 + r * rowSpan w) (n * (fmtBits fmt / 8))
  let par ← if mode = 2 then b.readMem (scratchFirst + bits w 41 18 * 64 + 16 * r) 16 else .ok []
  let temp := BitVec.ofNat 32 (par.num 0 4)
  let sample := decide (mode = 2) && tempOk temp
  let cs := (List.range n).map (fun i =>
    let x := widen fmt (rawElem (fun a => m.read a) fmt i)
    (⟨if sample then sampleKey x temp (BitVec.ofNat 64 (par.num 8 8)) (par.num 4 4) i else x, i, x⟩ : Candidate))
  let best := kFirst (ranksBefore (decide (mode ≠ 1))) k cs
  let out := (List.range k).flatMap (fun i => bytesOf 8 (resultWord best[i]?))
  b.writeMem (bits w 89 42 + r * (ceilDiv (8 * k) 64 * 64)) (8 * k) (memOf out)

/-- Cycles of the selector for one row (R168). -/
def selectCycles (w mode : Nat) : Nat :=
  ceilDiv (bits w 142 119 + 1) (if mode = 2 then 80 else 128) + ceilDiv (bits w 118 109 + 1) 16 + 19

/-- SELECT in the mode given: every row in turn, each charged its busy time (R164, R165, R168). -/
def selectWork (mode : Nat) (b : Bench) (w : Nat) : Work Bench :=
  Bench.each (List.range (bits w 102 91 + 1)) b (fun b r =>
    selectRow w mode (b.use 0 (b.cycles (selectCycles w mode))) r)

/-- Bytes of logical blocks from `lba` on, as one slice (R30, R261: an uncorrectable block stops the step; R209). -/
def readBlocks (b : Bench) (ns : Nat) : Nat → Nat → Nat → Mem → Work Mem
  | 0, _, _, m => .ok m
  | n + 1, i, lba, m =>
    match b.block ns lba with
    | .data d => readBlocks b ns n (i + 1) (lba + 1) (m.blit (i * 4096) 4096 d)
    | .unreadable => .error (.flash ns lba, b)
    | .denied => .error (.denied ns lba, b)

/-- The source of a FETCH, `n` bytes from byte `off` (R85; flash addresses name a namespace and a logical block). -/
def fetchSource (w : Nat) (b : Bench) (off n : Nat) : Work Mem :=
  let a := bits w 186 139
  if bits w 191 190 = 0 then readBlocks b (bits a 47 42) (n / 4096) 0 (bits a 36 0 + off / 4096) []
  else b.readMem (a + off) n

/-- Spans of its length that a FETCH reads: one, or one for each die that it does not broadcast to (R85). -/
def fetchCopies (w : Nat) : Nat :=
  if (bits w 189 187 = 2 ∨ bits w 189 187 = 3) ∧ bits w 54 54 = 0 then bits w 60 55 + 1 - bits w 66 61 else 1

/-- Move `n` bytes of a FETCH's source from byte `off` on to where `put` writes them. A source with a block that it may not deliver
(07 R180, R181) leaves that block's bytes as `old` has them, moves the others, and gives the block. -/
def fetchTo (w : Nat) (b : Bench) (off n : Nat) (old : Mem) (put : Bench → Mem → Work Bench) : Work Bench :=
  match fetchSource w b off n with
  | .ok m => put b m
  | .error (.denied ns lba, b) => .error (.denied ns lba, b)
  | .error (h, b) =>
    let u := if bits w 191 190 = 0 then 4096 else 64
    let m := (List.range (n / u)).foldl (fun (m : Mem) i => match fetchSource w b (off + u * i) u with
      | .ok x => m.blit (u * i) u x
      | .error _ => m) old
    match put b m with
    | .ok b => .error (h, b)
    | .error e => .error (h, e.2)

/-- Run a FETCH's move for each die. A block that it may not deliver to one keeps it from none of the others; the first such block
is given. -/
def Bench.eachOn {α : Type} (l : List α) (b : Bench) (f : Bench → α → Work Bench) : Work Bench :=
  l.foldl (fun (r : Work Bench) x => match r with
    | .ok b => f b x
    | .error (h, b) => match f b x with
      | .ok b => .error (h, b)
      | .error e => .error (h, e.2)) (.ok b)

/-- FETCH (R85, R100, R144: data fetched into an operand buffer is tagged FP16). -/
def fetchWork (b : Bench) (w : Nat) : Work Bench :=
  let n := (bits w 90 67 + 1) * 64
  let dst := bits w 138 91
  let b := if bits w 191 190 = 0 then b.noteFlash (bits w 186 181) (bits w 175 139) (n / 4096 * fetchCopies w)
    else if bits w 191 190 = 1 then b.useFar (n * fetchCopies w) else b
  let from' := fun (v : Nat) => if bits w 54 54 = 1 then 0 else (v - bits w 66 61) * n
  match bits w 189 187 with
  | 2 => Bench.eachOn (b.span (bits w 66 61) (bits w 60 55)) b (fun b p =>
      fetchTo w b (from' p.1) n ((b.die p.2).lws.slice dst n) (fun b m => .ok (b.writeLws p.2 dst n m)))
  | 3 => Bench.eachOn (b.span (bits w 66 61) (bits w 60 55)) b (fun b p =>
      fetchTo w b (from' p.1) n ((b.die p.2).ob.slice dst n) (fun b m => .ok (b.writeOb p.2 dst n m (fun _ => 2))))
  | _ => fetchTo w b 0 n (b.foggy dst n (b.mem.slice dst n)) (fun b m => b.writeMem dst n m)

end Sys2Proof.Machine
end

