-- ==== Sys2Proof/Machine/Operands.lean ====
section
/-! DEFINITION. The operand forms of a step word (03 R78, R82, R83, R500), the fields that a loop index advances, and
the shifts that a command makes to a step's addresses (10 R262, 12 R304, 15 R390). A step word is a number. -/

namespace Sys2Proof.Machine

/-- Control part (R78). -/
def wOpcode (w : Nat) : Nat := bits w 255 250
def wHasDeadline (w : Nat) : Bool := bitOf w 249
def wRelative (w : Nat) : Bool := bitOf w 248
def wDeadline (w : Nat) : Nat := bits w 247 224
def wHasFallback (w : Nat) : Bool := bitOf w 223
def wFallback (w : Nat) : Nat := bits w 222 211
def wQueue (w : Nat) : Nat := bits w 210 206
def wAdvances (w : Nat) : Bool := bitOf w 205
def wAdvLevel (w : Nat) : Nat := bits w 204 203
def wTraceTag (w : Nat) : Nat := bits w 195 192

/-- WAIT (R86), LOOP (R87) and MARK (R74). -/
def wMask (w : Nat) : Nat := bits w 191 160
def wUntil (w : Nat) : Nat := bits w 159 136
def wTarget (w : Nat) : Nat := bits w 191 180
def wLevel (w : Nat) : Nat := bits w 179 178
def wLoopCount (w : Nat) : Nat := bits w 177 162
def wMarkValue (w : Nat) : Nat := bits w 191 176

/-- Opcodes of R82. -/
def opLoadw : Nat := 0x01
def opStream : Nat := 0x02
def opDrain : Nat := 0x03
def opSfn : Nat := 0x04
def opNorm : Nat := 0x05
def opChain : Nat := 0x06
def opPqtab : Nat := 0x07
def opSelect : Nat := 0x08
def opFetch : Nat := 0x10
def opScan : Nat := 0x11
def opCheck : Nat := 0x12
def opWalk : Nat := 0x13
def opReduce : Nat := 0x14
def opWait : Nat := 0x20
def opMark : Nat := 0x21
def opLoop : Nat := 0x22
def opEnd : Nat := 0x3F

/-- Put `v` in bits `hi` to `lo` of a word. -/
def setField (w hi lo v : Nat) : Nat := w - bits w hi lo * 2 ^ lo + field (hi + 1 - lo) lo v

/-- Add `v` to the field in bits `hi` to `lo`. -/
def addField (w hi lo v : Nat) : Nat := setField w hi lo (bits w hi lo + v)

/-- The fields of a step that a loop index `i` advances, and what each receives (R83, R85): highest bit, lowest bit, amount.
The logical block of a flash address is the low 37 bits of its field. -/
def advances (w i : Nat) : List (Nat × Nat × Nat) :=
  let o := wOpcode w
  if o = opLoadw then [(179, 162, i * bits w 142 125)]
  else if o = opStream then [(179, 164, i * bits w 121 106)]
  else if o = opDrain then [(139, 92, i * bits w 67 44 * 64)]
  else if o = opSelect then [(190, 143, i * (bits w 102 91 + 1) * rowSpan w)]
  else if o = opFetch then
    (if bits w 191 190 = 0 then [(175, 139, i * bits w 53 22)] else [(186, 139, i * bits w 53 22 * 64)])
  else if o = opScan then [(182, 146, i * bits w 49 26), (97, 50, i * bits w 25 2 * 64)]
  else if o = opCheck then
    (if bitOf w 182 then [(181, 134, i * (bits w 133 110 + 1) * 64)] else [(170, 134, i * (bits w 133 110 + 1))])
  else if o = opReduce then [(191, 144, i * bits w 61 38 * 64)]
  else []

/-- The word with its advanced fields grown by `i` strides (R83). -/
def advanceWord (w i : Nat) : Nat := (advances w i).foldl (fun w f => addField w f.1 f.2.1 f.2.2) w

/-- Does every advanced field hold its sum at iteration `i`? A sum beyond its field names no byte of any store or range, and
the load check refuses it (R92, R98). -/
def advanceFits (w i : Nat) : Bool :=
  (advances w i).all (fun f => decide (bits w f.1 f.2.1 + f.2.2 < 2 ^ (f.1 + 1 - f.2.1)))

/-- An address field of a step: its bits, and whether it counts 64-byte units of scratch (R500). -/
structure AddrField where
  hi : Nat
  lo : Nat
  units : Bool
  deriving DecidableEq, Repr

/-- The fields of a step that hold device addresses of the tiers (R83, R500). -/
def addrFields (w : Nat) : List AddrField :=
  let o := wOpcode w
  if o = opDrain then (if bits w 142 140 ≤ 1 then [⟨139, 92, false⟩] else [])
  else if o = opPqtab then [⟨179, 132, false⟩, ⟨131, 84, false⟩, ⟨75, 52, true⟩]
  else if o = opSelect then
    [⟨190, 143, false⟩, ⟨89, 42, false⟩] ++ (if bits w 108 107 = 2 then [⟨41, 18, true⟩] else [])
  else if o = opFetch then
    (if bits w 191 190 = 0 then [] else [⟨186, 139, false⟩]) ++ (if bits w 189 187 ≤ 1 then [⟨138, 91, false⟩] else [])
  else if o = opScan then [⟨121, 98, true⟩, ⟨97, 50, false⟩]
  else if o = opCheck then (if bitOf w 182 then [⟨181, 134, false⟩] else []) ++ [⟨75, 28, false⟩]
  else if o = opWalk then
    [⟨191, 144, false⟩, ⟨143, 120, true⟩] ++ (if bitOf w 44 then [] else [⟨119, 96, true⟩]) ++ [⟨68, 45, true⟩]
  else if o = opReduce then [⟨191, 144, false⟩, ⟨133, 86, false⟩]
  else []

/-- The device address that a field names (R500). -/
def AddrField.addr (f : AddrField) (w : Nat) : Nat :=
  if f.units then scratchFirst + bits w f.hi f.lo * 64 else bits w f.hi f.lo

/-- The word with each address replaced by `g` of it. -/
def mapAddrs (w : Nat) (g : Nat → Nat) : Nat :=
  (addrFields w).foldl (fun w f =>
    setField w f.hi f.lo (if f.units then (g (f.addr w) - scratchFirst) / 64 else g (f.addr w))) w

/-- What R390 adds to an address: `di` inside the input window at `ib` of `is'` bytes, `dr` inside the result span at `rb` of `rs`
bytes, both inside both. -/
def shiftSpans (ib is' di rb rs dr addr : Nat) : Nat :=
  (if ib ≠ 0 ∧ within addr 1 ib is' then di else 0) + (if rb ≠ 0 ∧ within addr 1 rb rs then dr else 0)

/-- The word `a` with `g x` bytes added to each address, where `x` is that address in the word as compiled, `w` (R390). -/
def growAddrs (w a : Nat) (g : Nat → Nat) : Nat :=
  (addrFields w).foldl (fun a f => addField a f.hi f.lo (if f.units then g (f.addr w) / 64 else g (f.addr w))) a

/-- The additions of the scan command (R262) to a SCAN or a flash CHECK: the scan base to the block, the output base to
the output address. -/
def scanShift (w base out : Nat) : Nat :=
  if wOpcode w = opScan then addField (addField w 182 146 base) 97 50 out
  else if wOpcode w = opCheck ∧ !bitOf w 182 then addField (addField w 181 134 base) 75 28 out
  else w

end Sys2Proof.Machine
end

