-- ==== Sys2Proof/Machine/Engines.lean ====
section
/-! DEFINITION. The scan engines and check-value units (10), and the reduction engine (12), as the work of one step. -/

namespace Sys2Proof.Machine

/-! ## Scan programs (R252 to R259) -/

/-- A scan program's header and bytes (R252). `p` is the program as a slice from 0. -/
structure ScanProg where
  units : Nat
  columns : Nat
  rowsLog : Nat
  terms : Nat
  proj : Nat
  bitmap : Bool
  check : Bool
  config : Nat
  fold : Nat
  limit : Nat
  firstRow : Nat
  rowCount : Nat
  baseLba : Nat
  mem : Mem
  deriving DecidableEq, Repr

/-- Read the header (R252). -/
def scanProg (m : Mem) : ScanProg :=
  let h := m.num 0 64
  ⟨bits h 463 452 + 1, bits h 451 447 + 1, bits h 446 443, bits h 442 437 + 1, bits h 436 432, decide (bits h 431 431 = 1),
    decide (bits h 430 430 = 1), bits h 429 426, bits h 425 424, bits h 423 400, bits h 399 352, bits h 351 304,
    bits h 303 267, m⟩

/-- Column descriptor `c`: type, width in bytes, offset (R252). -/
def ScanProg.column (p : ScanProg) (c : Nat) : Nat × Nat × Nat :=
  let v := p.mem.num (128 + 8 * c) 8
  (bits v 63 62, 2 ^ bits v 61 60, bits v 59 48)

/-- Where the terms start (R252). -/
def ScanProg.termBase (p : ScanProg) : Nat := 128 + ceilDiv p.columns 8 * 64

/-- Term `t` as a number (R252). -/
def ScanProg.term (p : ScanProg) (t : Nat) : Nat := p.mem.num (p.termBase + 32 * t) 32

/-- The column index of projection `i` (R252). -/
def ScanProg.projCol (p : ScanProg) (i : Nat) : Nat := (p.mem.read (64 + i)).toNat

/-- Terms of the program as numbers. -/
def ScanProg.termList (p : ScanProg) : List Nat := (List.range p.terms).map p.term

/-- The sets that a program names: address and bits (R254). -/
def ScanProg.sets (p : ScanProg) : List (Nat × Nat) :=
  (p.termList.filter (fun t => decide (bits t 255 252 = 9))).map (fun t => (bits t 127 64, bits t 63 0))

/-- Bytes of a column of a block, and whether its descriptor is one that R256 refuses. -/
def ScanProg.badColumn (p : ScanProg) (c : Nat) : Bool :=
  let d := p.column c
  (decide (d.1 = 3) && decide (d.2.1 ≠ 2)) || (decide (d.1 = 2) && decide (d.2.1 = 1 ∨ d.2.1 = 8))
    || decide (4096 < d.2.2 + 2 ^ p.rowsLog * d.2.1)

/-- Is a term one that R256 refuses? COLUMN is not read by ACC and TRUE (R254), but its range is tested all the same. -/
def ScanProg.badTerm (p : ScanProg) (t : Nat) : Bool :=
  let op := bits t 255 252
  decide (11 < op) || decide (4 < bits t 246 244) || decide (p.columns ≤ bits t 251 247)
    || (decide (op = 9) && (decide (2 ≤ (p.column (bits t 251 247)).1) || decide (bits t 63 0 = 0)))

/-- Bytes of the bitmap of a slice of `blocks` blocks (R258). -/
def ScanProg.bitmapBytes (p : ScanProg) (blocks : Nat) : Nat :=
  if p.bitmap then ceilDiv (blocks * 2 ^ p.rowsLog) 512 * 64 else 0

/-- The checks of R256 on a program's own content: `len` is the length the copy holds. -/
def ScanProg.faulty (p : ScanProg) (b : Bench) (out blocks : Nat) : Bool :=
  let h := p.mem.num 0 64
  let inb := fun (a n : Nat) => b.defn.inScratch a n
  decide (bits h 479 464 ≠ 4)
    || decide (p.units ≠ 2 + ceilDiv p.columns 8 + ceilDiv p.terms 2)
    || decide (bits h 511 480 ≠ crc32c (p.mem.readBytes 64 (p.units * 64 - 64)))
    || decide (10 < p.rowsLog) || decide (16 < p.proj) || decide (1 < p.fold)
    || (List.range p.columns).any p.badColumn
    || p.termList.any p.badTerm
    || (List.range p.proj).any (fun i => decide (p.columns ≤ p.projCol i))
    || decide (1048576 < (p.sets.map Prod.snd).foldl (· + ·) 0)
    || p.sets.any (fun s => !inb s.1 (ceilDiv s.2 8))
    || !b.defn.inNearScratch out (64 + p.bitmapBytes blocks + p.limit * 64)
    || decide (b.ck p.config = none)

/-- The raw bits of row `i` of column `c` in a block (R251). -/
def ScanProg.cell (p : ScanProg) (blk : Mem) (c i : Nat) : Nat :=
  let d := p.column c
  blk.num (d.2.2 + i * d.2.1) d.2.1

/-- Comparison of two numbers by OP (R254): `lt` and `eq` are the order, `num` says both are numbers. -/
def cmpOp (op : Nat) (num lt eq gt : Bool) : Bool :=
  match op with
  | 0 => num && eq
  | 1 => !(num && eq)
  | 2 => num && lt
  | 3 => num && (lt || eq)
  | 4 => num && gt
  | 5 => num && (gt || eq)
  | _ => false

/-- One comparison of a column's element with a constant (R254). -/
def ScanProg.compare (ty wd raw k op : Nat) : Bool :=
  if ty = 0 then cmpOp op true (decide (raw < k)) (decide (raw = k)) (decide (k < raw))
  else if ty = 1 then
    let x := signed (8 * wd) raw
    let a := signed 64 k
    cmpOp op true (decide (x < a)) (decide (x = a)) (decide (a < x))
  else
    let x := widen (if ty = 3 then 1 else if wd = 2 then 2 else 0) raw
    let a := BitVec.ofNat 32 (k % 2 ^ 32)
    cmpOp op (!fIsNan x && !fIsNan a) (flt x a) (feq x a) (flt a x)

/-- A term's test (R254). `set` reads a byte of the sets as they were copied. -/
def ScanProg.test (p : ScanProg) (set : Nat → Byte) (blk : Mem) (i t : Nat) (acc : List Bool) : Bool :=
  let op := bits t 255 252
  let c := bits t 251 247
  let d := p.column c
  let raw := p.cell blk c i
  let a := bits t 127 64
  let k := bits t 63 0
  if op ≤ 5 then ScanProg.compare d.1 d.2.1 raw a op
  else if op = 6 then ScanProg.compare d.1 d.2.1 raw a 5 && ScanProg.compare d.1 d.2.1 raw k 3
  else if op = 7 then decide (Nat.land raw a = a)
  else if op = 8 then decide (Nat.land raw a ≠ 0)
  else if op = 9 then
    !(decide (d.1 = 1) && bitOf raw (8 * d.2.1 - 1)) && decide (raw < k) && bitOf (set (a + raw / 8)).toNat (raw % 8)
  else if op = 10 then acc.getD (bits t 241 240) false
  else true

/-- The four accumulators after all the terms (R253). -/
def ScanProg.accs (p : ScanProg) (set : Nat → Byte) (blk : Mem) (i : Nat) : List Bool :=
  p.termList.foldl (fun acc t =>
    let v := p.test set blk i t acc
    let o := acc.getD (bits t 243 242) false
    acc.set (bits t 243 242) (match bits t 246 244 with
      | 0 => v
      | 1 => o && v
      | 2 => o || v
      | 3 => o && !v
      | _ => o || !v)) [false, false, false, false]

/-- Is row `r` of the table in the row range (R253)? -/
def ScanProg.inRange (p : ScanProg) (r : Int) : Bool :=
  decide ((p.firstRow : Int) ≤ r) && decide (r < (p.firstRow : Int) + p.rowCount)

/-- First row of a block of the table (R251). -/
def ScanProg.blockRow (p : ScanProg) (lba : Nat) : Int := ((lba : Int) - p.baseLba) * (2 ^ p.rowsLog : Nat)

/-- Has a block a row in the row range (R257)? -/
def ScanProg.blockRead (p : ScanProg) (lba : Nat) : Bool :=
  let r := p.blockRow lba
  decide (0 < p.rowCount) && decide (r < (p.firstRow : Int) + p.rowCount)
    && decide ((p.firstRow : Int) < r + (2 ^ p.rowsLog : Nat))

/-- The selected rows of a block, by position (R253). -/
def ScanProg.selected (p : ScanProg) (set : Nat → Byte) (lba : Nat) (blk : Mem) : List Nat :=
  (List.range (2 ^ p.rowsLog)).filter (fun i =>
    p.inRange (p.blockRow lba + i) && (p.accs set blk i).getD 0 false)

/-- Pad to a multiple of 64 bytes (R258). -/
def pad64 (bs : Bytes) : Bytes := padTo (ceilDiv bs.length 64 * 64) bs

/-- Bits packed into bytes, bit i in byte i div 8 (R258). -/
def packBits : Nat → List Bool → Bytes
  | 0, _ => []
  | n + 1, l => BitVec.ofNat 8 (((l.take 8).zipIdx.map (fun p => if p.1 then 2 ^ p.2 else 0)).foldl (· + ·) 0)
      :: packBits n (l.drop 8)

/-- Counters of media die `m` (R275). -/
def scanKey (m sub : Nat) : Nat := (0x6010 + m) * 256 + sub

/-- The rows in the row range of blocks from `lba` on (R258, ROWS_SEEN). -/
def ScanProg.seen (p : ScanProg) (lba blocks : Nat) : Nat :=
  let lo := max (p.blockRow lba) p.firstRow
  let hi := min (p.blockRow (lba + blocks)) ((p.firstRow : Int) + p.rowCount)
  (hi - lo).toNat

/-- A SCAN that R256 refuses: the engine keeps what it copied of the program, without its sets (R255). -/
def scanFault (b : Bench) (w : Nat) (prog : Mem) : Work (ScanCopy × Bench) :=
  .error (.missed, ({ b with copies := b.copies.set (bits w 191 189) ⟨bits w 121 98, prog, [], true⟩ } : Bench).bump
    (scanKey (bits w 191 189) 5) 1)

/-- The engine of media die `md` copies a program of `len` bytes and the sets it names (R255). -/
def scanCopy (b : Bench) (w len : Nat) : Work (ScanCopy × Bench) := do
  let whole ← b.readMem (scratchFirst + bits w 121 98 * 64) len
  let p := scanProg whole
  if p.faulty b (bits w 97 50) (bits w 145 122 + 1) then scanFault b w whole
  else do
    let sets ← p.sets.foldlM (fun (m : Mem) s => do
      let x ← b.readMem s.1 (ceilDiv s.2 8)
      .ok (m.blit s.1 (ceilDiv s.2 8) x)) []
    let c : ScanCopy := ⟨bits w 121 98, whole, sets, false⟩
    .ok (c, { b with copies := b.copies.set (bits w 191 189) c })

/-- The program of a SCAN: the copy that the engine has of the same PROGRAM in this batch step, or a new copy (R255). The
checks of R256 are made in either case. The copy of a refused SCAN has no sets: one that passes the checks after it copies the
program anew. Each batch step has a copy of its own on each die: a SCAN of another partition in between ends no reuse (DESIGN
CHOICE, log 73: the rule's words allow both). -/
def scanProgram (b : Bench) (w : Nat) : Work (ScanCopy × Bench) := do
  let c := b.copies.get ⟨0, [], [], true⟩ (bits w 191 189)
  let same := b.copies.has (bits w 191 189) && decide (c.program = bits w 121 98)
  let faulty := (scanProg c.prog).faulty b (bits w 97 50) (bits w 145 122 + 1)
  if same && faulty then scanFault b w c.prog
  else if same && !c.refused then .ok (c, b)
  else do
    let head ← b.readMem (scratchFirst + bits w 121 98 * 64) 64
    let len := (scanProg head).units * 64
    if b.defn.inScratch (scratchFirst + bits w 121 98 * 64) len then scanCopy b w len else scanFault b w head

/-- Cycles of a check-value unit for `n` bytes in units of 4,096, with or without a tag before each unit (R269, R270). -/
def ckCycles (n : Nat) (tagged : Bool) : Nat := ceilDiv n 64 + (if tagged then ceilDiv n 4096 else 0)

/-- SCAN on media die MD (R251 to R262). Its counters advance when the step completes or is cut (R275). SLICE_ROW of a slice whose first block lies
before BASE_LBA, which has no row of the table, is the negative row number modulo 2^48 (R258 does not say; DESIGN CHOICE, log
98). -/
def scanWork (b : Bench) (w : Nat) : Work Bench := do
  let md := bits w 191 189
  let ns := bits w 188 183
  let lba := bits w 182 146
  let n := bits w 145 122 + 1
  let out := bits w 97 50
  let c ← scanProgram b w
  let b := c.2
  let p := scanProg c.1.prog
  let lbas := (List.range n).map (fun i => lba + i)
  let readL := lbas.filter p.blockRead
  let b := readL.foldl (fun (b : Bench) l => b.noteFlash ns l 1) b
  let b := if p.check then b.use 5 (mediaCycles (ckCycles (readL.length * 4096) (decide (p.fold = 1)))) else b
  let b := b.bump (scanKey md 2) readL.length
  let blks ← readL.mapM (fun l => do
    let d ← readBlocks b ns 1 0 l []
    .ok (l, d))
  let sel := blks.map (fun e => (e.1, e.2, p.selected (fun a => c.1.sets.read a) e.1 e.2))
  let rows := (sel.map (fun e => e.2.2.length)).foldl (· + ·) 0
  let cols := (List.range p.proj).map (fun i =>
    let c := p.projCol i
    pad64 (sel.flatMap (fun e => e.2.2.flatMap (fun r => bytesOf (p.column c).2.1 (p.cell e.2.1 c r)))))
  let projBytes := (cols.map List.length).foldl (· + ·) 0
  let ovf := decide (p.limit * 64 < projBytes)
  let bm := if p.bitmap then
      packBits (p.bitmapBytes n) (lbas.flatMap (fun l =>
        let s := ((sel.filter (fun e => decide (e.1 = l))).flatMap (fun e => e.2.2))
        (List.range (2 ^ p.rowsLog)).map (fun i => decide (i ∈ s))))
    else []
  let ckv := match b.ck p.config with
    | some c => if p.check then
        ckFinal c (blks.foldl (fun reg e => ckFeed c (ckFeed c reg (ckTag p.fold 0 (ns * 2 ^ 42 + e.1) 0))
          (e.2.readBytes 0 4096)) c.init) else 0
    | none => 0
  let hdr := field 64 448 ckv + field 48 400 (p.blockRow lba % 2 ^ 48).toNat + field 32 368 (p.seen lba n)
    + field 32 336 rows + field 32 304 (if ovf then 0 else projBytes / 64)
    + (if ovf then 2 ^ 303 else 0) + (if readL.isEmpty then 2 ^ 302 else 0)
  let bytes := bytesOf 64 hdr ++ bm ++ (if ovf then [] else cols.flatten)
  let b ← b.writeMem out bytes.length (memOf bytes)
  .ok ((b.bump (scanKey md 3) rows).bump (scanKey md 4) (if ovf then 1 else 0))

/-! ## Check values (R265 to R271) -/

/-- Feed memory from `a`, `n` bytes, in units of 4,096 bytes counted from the start (R269). -/
def feedMem (b : Bench) (c : CkCfg) (mode tag : Nat) : Nat → Nat → Nat → Nat → Nat → Work (Nat × Nat)
  | 0, _, _, i, reg => .ok (reg, i)
  | fuel + 1, a, n, i, reg =>
    if n = 0 then .ok (reg, i)
    else do
      let k := min n 4096
      let m ← b.readMem a k
      feedMem b c mode tag fuel (a + k) (n - k) (i + 1) (ckFeed c (ckFeed c reg (ckTag mode tag a i)) (m.readBytes 0 k))

/-- Feed logical blocks (R269). -/
def feedFlash (b : Bench) (c : CkCfg) (mode tag ns : Nat) : Nat → Nat → Nat → Nat → Work (Nat × Nat)
  | 0, _, i, reg => .ok (reg, i)
  | n + 1, lba, i, reg => do
    let m ← readBlocks b ns 1 0 lba []
    feedFlash b c mode tag ns n (lba + 1) (i + 1)
      (ckFeed c (ckFeed c reg (ckTag mode tag (ns * 2 ^ 42 + lba) i)) (m.readBytes 0 4096))

/-- The record of R271. -/
def checkRecord (value units config : Nat) : Nat := field 64 64 value + field 32 32 units + field 4 28 config

/-- CHECK (R265, R267, R269 to R271). -/
def checkWork (b : Bench) (w : Nat) : Work Bench := do
  let cfg := bits w 186 183
  let start := bits w 181 134
  let n := bits w 133 110 + 1
  let mode := bits w 109 108
  let tag := bits w 107 76
  match b.ck cfg with
  | none => b.miss
  | some c => do
    let cycles := ckCycles (n * (if bitOf w 182 then 64 else 4096)) (decide (mode ≠ 0))
    let b := b.use 5 (if bitOf w 182 then b.cycles cycles else mediaCycles cycles)
    let b := if bitOf w 182 then (if farFirst ≤ start ∧ start < scratchFirst then b.useFar (n * 64) else b)
      else b.noteFlash (bits start 47 42) (bits start 36 0) n
    let r ← if bits w 182 182 = 1 then feedMem b c mode tag n start (n * 64) 0 c.init
      else feedFlash b c mode tag (bits start 47 42) n (bits start 36 0) 0 c.init
    b.writeMem (bits w 75 28) 16 (memOf (bytesOf 16 (checkRecord (ckFinal c r.1) r.2 cfg)))

/-! ## The reduction engine (R303 to R316) -/

/-- Chunks of 64 terms, each summed exactly and rounded once, the chunk sums added in ascending order (R312). -/
def chunkDot : Nat → Option (BitVec 32) → List (BitVec 32 × BitVec 32) → BitVec 32
  | 0, acc, _ => acc.getD 0
  | fuel + 1, acc, l =>
    if l.isEmpty then acc.getD 0
    else
      let s := dotExact ((l.take 64).map (fun p => valF32 p.1)) ((l.take 64).map (fun p => valF32 p.2))
      chunkDot fuel (some (match acc with | some a => fadd a s | none => s)) (l.drop 64)

/-- Sizes of a REDUCE: bytes of a slot, columns, factors, members (R306). -/
def redS (w : Nat) : Nat := (bits w 143 140 + 1) * 1048576
def redC (w : Nat) : Nat := redS w / 4 / 512
def redR (w : Nat) : Nat := bits w 138 134 + 1

/-- M_v, row-major, 512 rows (R309). -/
def redM (w : Nat) (b : Bench) (v : Nat) : Work (List (BitVec 32)) := do
  let g ← b.readMem (bits w 191 144 + v * redS w) (redS w)
  let e ← b.readMem (bits w 133 86 + v * redS w) (redS w)
  .ok (List.zipWith fadd (words g 0 (redS w / 4)) (words e 0 (redS w / 4)))

/-- A product of an `n` by `k` matrix with a `k` by `r` one, both given by element, column-major (R309, R311). -/
def matMul (n k r : Nat) (x : Nat → Nat → BitVec 32) (y : Nat → Nat → BitVec 32) : List (BitVec 32) :=
  (List.range r).flatMap (fun j => (List.range n).map (fun i =>
    chunkDot (k / 64 + 1) none ((List.range k).map (fun t => (x i t, y t j)))))

/-- Sum over the members' tree, element by element (R312). -/
def treeLists (l : List (List (BitVec 32))) : List (BitVec 32) := treeSum (List.zipWith fadd) [] 64 l

/-- A non-finite P or Q' stops the step, REDUCE_NONFINITE advanced (R315). -/
def redFinite (b : Bench) (l : List (BitVec 32)) : Work Unit :=
  if l.all fIsFinite then .ok () else .error (.missed, b.bump 0x680002 1)

/-- Bytes that a phase moves (R318, R319). -/
def redBytes (w n : Nat) : Nat := if bits w 139 139 = 0 then 2 * n * redS w else (3 * n + 1) * redS w

/-- Operations of a phase (R318). -/
def redOps (w n : Nat) : Nat :=
  let e := redS w / 4
  if bits w 139 139 = 0 then n * e * (redR w + 1) + (n - 1) * 512 * redR w
  else n * e * (redR w + 2) + e * redR w + (n - 1) * redC w * redR w + redC w * redR w

/-- The busy time of a phase (R318): the time of its traffic at the near bandwidth it receives is free (log 24). -/
def redBusy (b : Bench) (w n : Nat) : Bench :=
  b.use 2 (max (Config.engineTime b.draw) (b.cycles (ceilDiv (redOps w n) 16384)) + 1000)

/-- A phase that is stopped leaves the areas that it writes, `spans`, as R314 says: their bytes are open (R315, R316;
log 74). The step has been served, and the bytes that it had moved count (R319): it is cut, and how many those are is free (log 24). -/
def redStop {α : Type} (w n : Nat) (spans : List (Nat × Nat)) (r : Work α) : Work α :=
  match r with
  | .ok x => .ok x
  | .error (h, b) =>
    let b := spans.foldl (fun (b : Bench) s => (b.keep .mem s.1 s.2).leaveOpen s.1 s.2) b
    .error (h, (b.bump 0x680001 1).bump 0x680003 (redBytes w n))

/-- REDUCE phase 0 (R309). -/
def reducePWork (b : Bench) (w : Nat) : Work Bench := do
  let n := b.vdies.length
  let b := redBusy b w n
  redStop w n [(bits w 191 144 + (n + 1) * redS w, 512 * redR w * 4)] do
    let c := redC w
    let r := redR w
    let q ← b.readMem (bits w 133 86 + n * redS w) (c * r * 4)
    let qs := words q 0 (c * r)
    let ps ← (List.range n).mapM (fun v => do
      let m ← redM w b v
      .ok (matMul 512 c r (fun i t => m.getD (i * c + t) 0) (fun t j => qs.getD (j * c + t) 0)))
    let p := treeLists ps
    redFinite b p
    let b ← b.writeMem (bits w 191 144 + (n + 1) * redS w) (512 * r * 4) (memOfWords p)
    .ok ((b.bump 0x680001 1).bump 0x680003 (redBytes w n))

/-- REDUCE phase 1 (R311). One that is cut after it has begun counts as served, with a free part of its bytes (R319; DESIGN CHOICE,
log 74). The next bank lies at the partner address of the current one in the other window (R304, R306). -/
def reduceQWork (b : Bench) (w : Nat) : Work Bench := do
  let n := b.vdies.length
  let b := redBusy b w n
  let c := redC w
  let r := redR w
  let ef := bits w 133 86
  let nxt := swapWindows b.window b.apart ef
  redStop w n [(bits w 191 144 + n * redS w, redS w), (nxt, n * redS w), (nxt + n * redS w, c * r * 4)] do
    let ph ← b.readMem (bits w 191 144 + (n + 1) * redS w + 65536) (512 * r * 4)
    let p := words ph 0 (512 * r)
    let ms ← (List.range n).mapM (fun v => redM w b v)
    let q' := treeLists (ms.map (fun m =>
      matMul c 512 r (fun i t => m.getD (t * c + i) 0) (fun t j => p.getD (j * 512 + t) 0)))
    redFinite b q'
    let inv := fdiv 0x3F800000 (BitVec.ofNat 32 (narrow 0 (.fin false n 0)).raw)
    let qb := q'.map (fun x => fmul x inv)
    let d := (List.range 512).flatMap (fun i => (List.range c).map (fun k =>
      chunkDot 1 none ((List.range r).map (fun j => (p.getD (j * 512 + i) 0, qb.getD (j * c + k) 0)))))
    let b ← b.writeMem (bits w 191 144 + n * redS w) (redS w) (memOfWords d)
    let b ← Bench.each ms.zipIdx b (fun b m =>
      b.writeMem (nxt + m.2 * redS w) (redS w) (memOfWords (List.zipWith fsub m.1 d)))
    let b ← b.writeMem (nxt + n * redS w) (c * r * 4) (memOfWords qb)
    .ok ((b.bump 0x680001 1).bump 0x680003 (redBytes w n))

end Sys2Proof.Machine
end

