-- ==== Sys2Proof/Machine/Search.lean ====
section
/-! DEFINITION. Vector search as the work of one step (11): PQTAB (R283, R284), WALK (R286 to R291) and its re-ranking
(R298), with the index descriptor (R276 to R281). -/

namespace Sys2Proof.Machine

/-- The index descriptor (R276). -/
structure Descriptor where
  ns : Nat
  inner : Bool
  m : Nat
  degree : Nat
  entries : Nat
  depth : Nat
  dim : Nat
  vecFmt : Nat
  nodes : Nat
  farNodes : Nat
  graphLba : Nat
  vectorLba : Nat
  codeFar : Nat
  codeNear : Nat
  tombA : Nat
  tombB : Nat
  entryAddr : Nat
  codeLba : Nat
  deriving DecidableEq, Repr

/-- Read a descriptor's fields (R276). -/
def descriptor (v : Nat) : Descriptor :=
  ⟨bits v 975 970, decide (bits v 969 969 = 1), bits v 968 961 + 1, bits v 960 955 + 1, bits v 954 949 + 1,
    bits v 948 941 + 1, bits v 940 929 + 1, bits v 928 925, bits v 924 893, bits v 892 861, bits v 860 824,
    bits v 823 787, bits v 786 739, bits v 738 691, bits v 690 643, bits v 642 595, bits v 594 547, bits v 546 510⟩

/-- Bytes of a code record (R278). -/
def Descriptor.stride (d : Descriptor) : Nat := 64 * ceilDiv (d.m + 1) 64
/-- Bytes of a graph record and records per block (R279). -/
def Descriptor.recBytes (d : Descriptor) : Nat := 16 * ceilDiv (8 + 5 * d.degree) 16
def Descriptor.perBlock (d : Descriptor) : Nat := 4096 / d.recBytes
/-- Bytes of a vector (R280). -/
def Descriptor.vecBytes (d : Descriptor) : Nat := d.dim * 2
/-- Bytes of a tombstone image's bitmap and of the whole image (R281). -/
def Descriptor.bitmapBytes (d : Descriptor) : Nat := 64 * ceilDiv d.nodes 512
def Descriptor.tombBytes (d : Descriptor) : Nat := d.bitmapBytes + d.nodes
/-- The address of a slot's code record of a generation (R278). -/
def Descriptor.codeAddr (d : Descriptor) (n g : Nat) : Nat :=
  if n < d.farNodes then d.codeFar + n * d.stride else d.codeNear + (2 * (n - d.farNodes) + g % 2) * d.stride

/-- Does every near and far part of an index lie in the partition's ranges (R276)? -/
def Descriptor.inRanges (d : Descriptor) (p : PDef) : Bool :=
  (decide (d.farNodes = 0) || p.inFar d.codeFar (d.farNodes * d.stride))
    && (decide (d.nodes = d.farNodes) || p.inNear d.codeNear (2 * (d.nodes - d.farNodes) * d.stride))
    && p.inNear d.tombA d.tombBytes && p.inNear d.tombB d.tombBytes && p.inNear d.entryAddr (8 * d.entries)

/-- Blocks of the graph, of the vectors and of the code log (R278 to R280). -/
def Descriptor.graphBlocks (d : Descriptor) : Nat := ceilDiv d.nodes d.perBlock
def Descriptor.vectorBlocks (d : Descriptor) : Nat := ceilDiv (d.nodes * d.vecBytes) 4096
def Descriptor.logBlocks (d : Descriptor) : Nat := ceilDiv ((d.nodes - d.farNodes) * d.stride) 4096

/-- Bytes of an update record whose header is `h` (R293). -/
def Descriptor.updBytes (d : Descriptor) (h : Nat) : Nat :=
  if bits h 127 124 = 1 then ceilDiv (16 + d.stride + ceilDiv d.vecBytes 16 * 16 + 8 * bits h 123 117) 64 * 64 else 64

/-- Smallest power of two at least `n` (R286). -/
def pow2Above (n : Nat) : Nat := if n ≤ 1 then 1 else 2 ^ (Nat.log2 (n - 1) + 1)

/-- V, and the bytes of a state record (R286): `w` beam entries, `e` expansions per hop. -/
def Descriptor.visitedSlots (d : Descriptor) (e : Nat) : Nat := pow2Above (2 * (d.entries + 64 * e * d.degree))
def Descriptor.beamEnd (w : Nat) : Nat := 64 + ceilDiv (8 * w) 64 * 64
def Descriptor.stateBytes (d : Descriptor) (w e : Nat) : Nat := Descriptor.beamEnd w + 4 * d.visitedSlots e

/-- Best first: the smaller score, numbers before NaNs, equal scores by node (R288). -/
def beamBefore (x y : BeamEntry) : Bool :=
  ranksBefore false ⟨x.score, x.node, 0⟩ ⟨y.score, y.node, 0⟩

/-- The score of a node's code against a query's table, `m` entries (R287). -/
def codeScore (table code : Mem) (m : Nat) : BitVec 32 :=
  (List.range m).foldl (fun s j => fadd s (widen 2 (table.num (512 * j + 2 * (code.read j).toNat) 2))) 0

/-- Object keys of the search counters (R297). -/
def walkKey (sub : Nat) : Nat := 0x6098 * 256 + sub

/-- Is an edge valid (R287)? With the code record when it is. -/
def validEdge (d : Descriptor) (b : Bench) (n g : Nat) : Work (Option Mem × Bench) :=
  if d.nodes ≤ n then .ok (none, b.bump (walkKey 2) 1)
  else do
    let gen ← b.readMem (b.tombBase + d.bitmapBytes + n) 1
    if (gen.read 0).toNat ≠ g then .ok (none, b.bump (walkKey 2) 1)
    else do
      let code ← b.readMem (d.codeAddr n g) (d.m + 1)
      let b := if n < d.farNodes then { b with codeBytes := b.codeBytes + d.stride } else b
      if (code.read d.m).toNat ≠ g then .ok (none, b.bump (walkKey 3) 1)
      else .ok (some code, b)

/-- Put an edge's target in the beam if it is valid and not visited (R287). -/
def tryEdge (d : Descriptor) (table : Mem) (s : WalkState × Bench) (e : Nat × Nat) : Work (WalkState × Bench) := do
  let r ← validEdge d s.2 e.1 e.2
  match r.1 with
  | none => .ok (s.1, r.2)
  | some code =>
    if e.1 ∈ s.1.visited then .ok (s.1, r.2)
    else .ok ({ s.1 with beam := s.1.beam ++ [⟨codeScore table code d.m, e.1, false⟩], visited := e.1 :: s.1.visited },
      { r.2 with lookups := r.2.lookups + d.m })

/-- Keep the `w` best of the beam (R287). -/
def trim (w : Nat) (s : WalkState) : WalkState := { s with beam := kFirst beamBefore w s.beam }

/-- The edges of a graph record that `rd` holds from byte `o` (R279). -/
def recordEdges (rd : Mem) (o : Nat) : List (Nat × Nat) :=
  (List.range (bits (rd.num o 8) 63 57)).map (fun i =>
    let v := rd.num (o + 8 + 5 * i) 5
    (bits v 39 8, bits v 7 0))

/-- One hop (R287): the state, HOPS_DONE and CONVERGED. `e` expansions, `w` beam entries. -/
def hop (d : Descriptor) (table : Mem) (w e : Nat) (s : WalkState × Nat × Bool × Bench) :
    Work (WalkState × Nat × Bool × Bench) :=
  let (st, done, conv, b) := s
  if decide (done = 64) || conv then .ok s
  else
    let pick := ((st.beam.filter (fun x => !x.expanded)).take e).map BeamEntry.node
    if pick.isEmpty then .ok (st, done, true, b)
    else do
      let r ← pick.foldlM (fun (s : WalkState × Bench) c => do
        let st := { s.1 with beam := s.1.beam.map (fun x => if x.node = c then { x with expanded := true } else x) }
        let lba := d.graphLba + c / d.perBlock
        let blk ← readBlocks s.2 d.ns 1 0 lba []
        (recordEdges blk (c % d.perBlock * d.recBytes)).foldlM (tryEdge d table) (st, s.2.noteFlash d.ns lba 1)) (st, b)
      let b := { r.2 with hopNow := r.2.hopNow + 1, hops := max r.2.hops (r.2.hopNow + 1) }
      .ok (trim w r.1, done + 1, conv, b.bump (walkKey 1) 1)

/-- `h` hops (R287). -/
def hops (d : Descriptor) (table : Mem) (w e : Nat) : Nat → WalkState × Nat × Bool × Bench →
    Work (WalkState × Nat × Bool × Bench)
  | 0, s => .ok s
  | h + 1, s => do
    let s ← hop d table w e s
    hops d table w e h s

/-- The survivors of a beam, best first (R289, R290). -/
def survivors (d : Descriptor) (b : Bench) (filter : Nat) (beam : List BeamEntry) : Work (List BeamEntry) :=
  beam.foldlM (fun acc x => do
    let t ← b.readMem (b.tombBase + x.node / 8) 1
    let f ← if filter = 0 then .ok ([] : Mem) else b.readMem (filter + x.node / 8) 1
    let out := bitOf (Mem.read t 0).toNat (x.node % 8) || (decide (filter ≠ 0) && !bitOf (Mem.read f 0).toNat (x.node % 8))
    .ok (if out || decide (d.nodes ≤ x.node) then acc else acc ++ [x])) []

/-- Write a survivor list at `at'` (R290): the entries beyond COUNT have NODE all ones and a score the spec does not
state; the bias values are those given, and open beyond them. -/
def writeList (b : Bench) (at' total : Nat) (reranked : Bool) (es : List BeamEntry) (bias : List (BitVec 32)) :
    Work Bench := do
  let es := es.take 256
  let hdr := field 32 480 es.length + field 32 448 total + (if reranked then 2 ^ 447 else 0)
  let ents := es.flatMap (fun x => bytesOf 8 (x.score.toNat * 2 ^ 32 + x.node))
  let rest := (List.replicate (256 - es.length) (bytesOf 8 0xFFFFFFFF)).flatten
  let b ← b.writeMem at' 2112 (memOf (bytesOf 64 hdr ++ ents ++ rest))
  let b := (List.range (256 - es.length)).foldl (fun b i => b.leaveOpen (at' + 64 + 8 * (es.length + i) + 4) 4) b
  let b ← b.writeMem (at' + 2112) (4 * bias.length) (memOfWords bias)
  .ok (if bias.length < 256 then b.leaveOpen (at' + 2112 + 4 * bias.length) (4 * (256 - bias.length)) else b)

/-- Where query `q`'s distance table starts (R500, R285). -/
def tableAddr (w : Nat) (b : Bench) (d : Descriptor) (q : Nat) : Nat :=
  (if bits w 44 44 = 1 then b.distBase else scratchFirst) + bits w 119 96 * 64 + q * d.m * 512

/-- A span found outside the ranges stops a WALK, WALK_FAULTS advanced (R502). -/
def walkFault {α : Type} (b : Bench) : Work α := .error (.missed, b.bump (walkKey 5) 1)

/-- What a WALK reads before it runs: the descriptor, with the run-time span tests of R502, also of the tombstone image that
the command uses. -/
def walkIndex (b : Bench) (w : Nat) : Work Descriptor := do
  let m ← b.readMem (bits w 191 144) 128
  let d := descriptor (m.num 0 128)
  let nq := bits w 78 71 + 1
  if d.inRanges b.defn && b.defn.inScratch (scratchFirst + bits w 143 120 * 64)
      (nq * d.stateBytes (bits w 95 88 + 1) (bits w 87 85 + 1))
      && b.defn.inScratch (tableAddr w b d 0) (nq * d.m * 512) && b.defn.inNear b.tombBase d.tombBytes then .ok d
  else walkFault b

/-- Query `q`'s state record and its header (R286). -/
def stateAddr (w : Nat) (d : Descriptor) (q : Nat) : Nat :=
  scratchFirst + bits w 143 120 * 64 + q * d.stateBytes (bits w 95 88 + 1) (bits w 87 85 + 1)

/-- The filter of a query must lie in the near range (R286, R502). -/
def filterOk (b : Bench) (d : Descriptor) (hdr : Nat) : Bool :=
  decide (bits hdr 511 464 = 0) || b.defn.inNear (bits hdr 511 464) (ceilDiv d.nodes 8)

/-- The requests of a WALK to the search engine (R291): `n` of 0.5 us, one for each hop that a query of it has made, or one gather, the lookup cycles at 16,384 lookups a cycle
(R301), rounded up once for the step (log 67), and the transfer of the far code records. -/
def walkUse (b : Bench) (n : Nat) : Bench :=
  { ((b.use 1 (b.cycles (ceilDiv b.lookups 16384) + 500 * n)).useFar b.codeBytes) with lookups := 0, codeBytes := 0 }

/-- Charge a WALK that ends or is stopped: its hops, or a re-rank's one gather. -/
def walkCharged (gather : Bool) (r : Work Bench) : Work Bench :=
  let n := fun (b : Bench) => if gather then 1 else b.hops
  match r with
  | .ok b => .ok (walkUse b (n b))
  | .error (h, b) => .error (h, walkUse b (n b))

/-- Are the bytes of a span still those that were left open at draw `mark`? -/
def Bench.keepsOpen (b : Bench) (lo n mark : Nat) : Bool := b.fog.any (fun f => decide (f.draw = mark) && within lo n f.lo f.len)

/-- A walk's latest state at the address that its record was written at. -/
def Bench.walkHere (b : Bench) (a : Nat) : WalkState := (b.walks.get [] a).headD WalkState.empty

/-- A walk leaves its state in the record at `a`. -/
def Bench.setWalk (b : Bench) (a : Nat) (s : WalkState) : Bench := { b with walks := b.walks.set a (s :: b.walks.get [] a) }

/-- The walk whose record's bytes `lo` to `lo + n - 1` were those that the record at `a` holds now: one that was moved, or copied out
and back (R286). -/
def Bench.recall (b : Bench) (a lo n : Nat) : Option WalkState :=
  let m := b.foggy (a + lo) n (b.mem.slice (a + lo) n)
  ((b.walks.flatMap (fun e => e.2.map (fun s => (e.1, s)))).find? (fun e =>
    (List.range n).all (fun i => decide (m.read i = Config.raceByte e.2.mark (e.1 + lo + i))))).map Prod.snd

/-- The walk of the state record at `a`, `nb` beam entries, `ne` expansions a hop (R286): the record holds it wherever it stands. A
part of the record whose bytes another step has written, or that no walk has written, gives a free beam or a free visited table
(log 22). -/
def Bench.walkAt (b : Bench) (d : Descriptor) (nb ne a : Nat) : WalkState :=
  let s := b.walkHere a
  let e := Descriptor.beamEnd nb
  let v := 4 * d.visitedSlots ne
  let here := b.keepsOpen (a + 64) (e - 64) s.mark
  let beam := if here then some s else b.recall a 64 (e - 64)
  let seen := if b.keepsOpen (a + e) v s.mark then some s else b.recall a e v
  let spent := match beam with
    | some x => x.reranked && (here || decide (seen.map WalkState.mark ≠ some x.mark))
    | none => false
  { beam := match beam with
      | some x => x.beam
      | none => (Config.walkBeam b.draw a).map (fun x => ⟨x.1, x.2.1, x.2.2⟩)
    visited := if spent then s.visited else match seen with
      | some x => x.visited
      | none => Config.walkVisited b.draw a
    reranked := spent
    mark := match beam with
      | some x => x.mark
      | none => s.mark }

/-- One query of a WALK that makes `h` hops (R287, R290); a query that was re-ranked makes none (R298). -/
def walkQuery (w h : Nat) (d : Descriptor) (b : Bench) (q : Nat) : Work Bench := do
  let b := { b with hopNow := 0 }
  let nb := bits w 95 88 + 1
  let ne := bits w 87 85 + 1
  let a := stateAddr w d q
  let hm ← b.readMem a 64
  let hdr := hm.num 0 64
  if !filterOk b d hdr then walkFault b
  else do
    let table ← b.readMem (tableAddr w b d q) (d.m * 512)
    let st0 ← if bits w 70 70 = 1 then do
        let em ← b.readMem d.entryAddr (8 * d.entries)
        let r ← ((List.range d.entries).map (fun i =>
            let v := em.num (8 * i) 5
            (bits v 39 8, bits v 7 0))).foldlM (tryEdge d table) (WalkState.empty, b)
        .ok (trim nb r.1, 0, false, r.2)
      else .ok (b.walkAt d nb ne a, bits hdr 415 409, decide (bits hdr 408 408 = 1), b)
    let r ← hops d table nb ne (if st0.1.reranked then 0 else h) st0
    let b := r.2.2.2
    let hdr' := hdr / 2 ^ 416 * 2 ^ 416 + field 7 409 r.2.1 + (if r.2.2.1 then 2 ^ 408 else 0) + hdr % 2 ^ 408
    let b ← b.writeMem a 64 (memOf (bytesOf 64 hdr'))
    let b := (b.keep .mem (a + 64) (d.stateBytes nb ne - 64)).leaveOpen (a + 64) (d.stateBytes nb ne - 64)
    let b := b.keep .walk a 1
    let b := b.setWalk a { r.1 with mark := b.draw }
    let sv ← survivors d b (bits hdr 511 464) r.1.beam
    writeList b (scratchFirst + bits w 68 45 * 64 + q * 3136) sv.length false sv []

/-- WALK that hops (R287). -/
def walkWork (b : Bench) (w : Nat) : Work Bench := do
  let d ← walkIndex b w
  walkCharged false (Bench.each (List.range (bits w 78 71 + 1)) b (walkQuery w (bits w 84 79 + 1) d))

/-- The bytes of slot `n`'s vector (R280). -/
def vectorBytes (b : Bench) (d : Descriptor) (n : Nat) : Work Mem := do
  let o := n * d.vecBytes
  let k := (o + d.vecBytes - 1) / 4096 - o / 4096 + 1
  let m ← readBlocks b d.ns k 0 (d.vectorLba + o / 4096) []
  .ok (m.slice (o % 4096) d.vecBytes)

/-- Where byte `u` of candidate `i`'s vector lies in the tile image (R298, R85). -/
def imageByte (d : Descriptor) (i u : Nat) : Nat :=
  laneByte (i % 64) ((i / 64 * ceilDiv d.dim 64 + u / 128) * 128 + u % 128)

/-- One query of a re-rank (R298). With INIT the beam starts from the entry points (DEDUCED, log 76). -/
def rerankQuery (w : Nat) (d : Descriptor) (b : Bench) (q : Nat) : Work Bench := do
  let b ← if bitOf w 70 then walkQuery w 0 d b q else .ok b
  let a := stateAddr w d q
  let hm ← b.readMem a 64
  let hdr := hm.num 0 64
  if !filterOk b d hdr then walkFault b
  else do
    let st := b.walkAt d (bits w 95 88 + 1) (bits w 87 85 + 1) a
    let sv ← survivors d b (bits hdr 511 464) st.beam
    let cs := (sv.take d.depth).foldl (fun acc x =>
      insertBy (fun (x y : BeamEntry) => decide (x.node < y.node)) x acc) []
    let size := ceilDiv cs.length 64 * ceilDiv d.dim 64 * 8192
    if 4 * d.visitedSlots (bits w 87 85 + 1) < size then b.miss
    else do
      let vs ← cs.mapM (fun c => vectorBytes b d c.node)
      let img := vs.zipIdx.foldl (fun (m : Mem) (p : Mem × Nat) =>
        p.1.foldl (fun m c => m.write (imageByte d p.2 c.1) c.2) m) []
      let bias := vs.map (fun v => if d.inner then (0 : BitVec 32) else
        ftree (partials 64 (fun s (x : BitVec 32) => ffma x x s)
          ((List.range d.dim).map (fun i => widen d.vecFmt (v.num (2 * i) 2)))))
      let b := cs.foldl (fun (b : Bench) c => b.noteFlash d.ns (d.vectorLba + c.node * d.vecBytes / 4096)
        ((c.node * d.vecBytes + d.vecBytes - 1) / 4096 - c.node * d.vecBytes / 4096 + 1)) b
      let b ← b.writeMem (a + Descriptor.beamEnd (bits w 95 88 + 1)) size img
      let b := b.keep .walk a 1
      let b := b.setWalk a { st with reranked := true }
      writeList b (scratchFirst + bits w 68 45 * 64 + q * 3136) sv.length true cs bias

/-- WALK that re-ranks (R298). -/
def rerankWork (b : Bench) (w : Nat) : Work Bench := do
  let d ← walkIndex b w
  walkCharged true (Bench.each (List.range (bits w 78 71 + 1)) b (rerankQuery w d))

/-! ## Distance tables (R283, R284) -/

/-- Tiles that a PQTAB takes on virtual die `v` (R283). -/
def pqtabTiles (w v : Nat) : Nat :=
  4 * ((List.range (bits w 83 76 + 1)).countP (fun j => decide (j % (vLast w + 1 - vFirst w) = v - vFirst w)))

/-- The subspace and the quarter of it that tile `n` of virtual die `v` carries (R283). -/
def pqtabPlace (w v n : Nat) : Nat × Nat := (v - vFirst w + n / 4 * (vLast w + 1 - vFirst w), n % 4)

/-- A PQTAB writes the accumulator file (R95), which entries and what is not stated: free (log 70). A parity fault of an
entry that it may have written is cleared (R118). -/
def pqtabAccs (b : Bench) (d n : Nat) : Bench :=
  let b := b.keep (.acc d) 0 4096
  let go := fun (t : Tab AccEntry) key => match Config.pqtabAcc (b.draw * 2048 + n) key with
    | some v => t.set key ⟨v, false⟩
    | none => t
  b.setDie d { b.die d with
    acc := (List.range 4096).foldl go (b.die d).acc
    badAcc := (b.die d).badAcc.filter (fun key => (Config.pqtabAcc (b.draw * 2048 + n) key).isNone) }

/-- Tile `n` of a PQTAB on virtual die `v`: centroids `64 k` to `64 k + 63` of subspace `j` against every query
(R284). `head` is the codebook header, `norms` and `qs` the norms and the queries. Elements beyond the end of a query
are zeros, so that no query changes the table of another (R292; DEDUCED, log 75). -/
def pqtabTile (w head : Nat) (norms qs : Mem) (n : Nat) (b : Bench) (v d : Nat) : Work Bench := do
  let qfmt := bits head 447 444
  let m := bits w 83 76 + 1
  let s := bits head 454 448
  let nq := bits w 51 44 + 1
  let j := (pqtabPlace w v n).1
  let k := (pqtabPlace w v n).2
  match ← takeTile b d (decide (n = 0)) with
  | none => .ok b
  | some (h, b) =>
    if fmtIsInt h.tile.fmt != fmtIsInt qfmt then b.clash d
    else do
      let stride := 64 * ceilDiv (m * s * 2) 64
      let wts := (List.range 64).map h.lane
      let ops := (List.range nq).map (fun q => (List.range 64).map (fun e =>
        let u := j * s / 64 * 128 + 2 * e
        elemVal qfmt (if u < m * s * 2 then qs.num (q * stride + u) 2 else 0)))
      let bw := pairBits h.tile.fmt qfmt
      let gated := (wts.map (fun wt => gatedSlots bw wt ops)).foldl (· + ·) 0
      let b := if b.reading.any (fun r => decide (r.1 = v)) then starve b d 3 (8 * Config.waitCycles b.draw (d * 4096 + n)) else b
      let b := took (pqtabAccs b d n) d bw (passSlots bw nq) gated
      Bench.each ops.zipIdx b (fun b op => do
        let ents := wts.zipIdx.map (fun wt =>
          let dot := dotExact wt.1 op.1
          narrow 2 (valF32 (if bitOf head 463 then fneg dot
            else roundF32 true ((valF32 (BitVec.ofNat 32 (norms.num (4 * (256 * j + 64 * k + wt.2)) 4))).add
              ((valF32 dot).mul (.fin true 2 0))))))
        let b := b.count d 10 (ents.countP Narrowed.sat)
        b.writeMem (scratchFirst + bits w 75 52 * 64 + op.2 * m * 512 + 512 * j + 128 * k) 128
          (memOf (ents.flatMap (fun e => bytesOf 2 e.raw))))

/-- The tiles of a PQTAB on virtual die `v` from tile `n` on, as long as the die has one (R93). -/
def pqtabDie (w head : Nat) (norms qs : Mem) (v d : Nat) : Nat → Nat → Bench → Work Bench
  | 0, n, b => .ok (b.reach v n)
  | fuel + 1, n, b =>
    if !(b.die d).hasTile then .ok (b.runOut v n)
    else
      match pqtabTile w head norms qs n b v d with
      | .ok b => pqtabDie w head norms qs v d fuel (n + 1) b
      | .error e => .error e

/-- Has a PQTAB taken all its tiles? -/
def pqtabDone (b : Bench) (w : Nat) : Bool :=
  (b.span (vFirst w) (vLast w)).all (fun p => decide (pqtabTiles w p.1 ≤ b.rows.get 0 p.1))

/-- PQTAB (R283, R284): every die goes on from the tile that it has reached. A codebook or a query out of the ranges, a wrong CB_CRC
or FORMAT is a format clash of the die of V_FIRST, whichever dies the step runs on, and the codebook's own M is not held against
PQTAB's (03 R502, R283 say only the die's; DESIGN CHOICE, log 110). -/
def pqtabWork (b : Bench) (w : Nat) : Work Bench := do
  let m := bits w 83 76 + 1
  let nq := bits w 51 44 + 1
  let d0 := b.phys (vFirst w)
  let cb := bits w 131 84
  let hm ← b.readMem cb 64
  let head := hm.num 0 64
  let stride := 64 * ceilDiv (m * bits head 454 448 * 2) 64
  if !b.defn.inNear cb (64 + m * 1024) || !b.defn.inNearScratch (bits w 179 132) (nq * stride) then b.clash d0
  else do
    let norms ← b.readMem (cb + 64) (m * 1024)
    if bits head 479 464 ≠ 6 ∨ bits head 511 480 ≠ crc32c (norms.readBytes 0 (m * 1024)) then b.clash d0
    else do
      let qs ← b.readMem (bits w 179 132) (nq * stride)
      Bench.eachDie (b.span (vFirst w) (vLast w)) b (fun b p =>
        let n := b.rows.get 0 p.1
        pqtabDie w head norms qs p.1 p.2 (pqtabTiles w p.1 - n) n (b.resume p.1 p.2 n (pqtabTiles w p.1)))

end Sys2Proof.Machine
end

