-- ==== Sys2Proof/Machine/Wire.lean ====
section
/-! DEFINITION. The cells of the link: a frame with its header and check values (13 R328), the cells that carry it with
their headers (R322), the payload of a hello cell (R343), the frames of the generator (R346), and what a port sends first
when several channels have cells waiting (R326). -/

namespace Sys2Proof.Machine

/-! ## Frames (R328) -/

/-- A frame's header but for HDR_CRC (R328). -/
def Frame.headWord (f : Frame) : Nat :=
  field 8 472 f.type + field 4 468 1 + field 1 467 f.data.toNat + field 1 466 f.reply.toNat + field 12 452 f.dst
    + field 12 440 f.src + field 8 432 f.hops + field 14 418 f.payload.length + field 32 384 f.tag + field 16 368 f.word
    + field 16 352 f.status + field 16 336 f.seg + field 1 335 f.segLast.toNat + field 2 333 f.rx.val + field 64 256 f.epoch
    + field 256 0 f.args

/-- The 64 bytes of a frame's header, HDR_CRC last (R328). -/
def Frame.headBytes (f : Frame) : Bytes :=
  let h := bytesOf 60 f.headWord
  h ++ bytesOf 4 (crc32c h)

/-- The bytes of a frame: header, payload, and the check over both (R328). -/
def Frame.bytes (f : Frame) : Bytes :=
  let b := f.headBytes ++ f.payload
  b ++ bytesOf 4 (crc32c b)

/-- The frame that passes in transit. -/
def transitFrame (t : Transit) : Frame :=
  { type := t.type.toNat, reply := t.reply, data := t.dataClass, dst := t.dst.toNat, src := t.src.toNat, tag := t.tag.toNat
    hops := t.hops.toNat, rx := ⟨t.rx.toNat, t.rx.isLt⟩, seg := t.seg.toNat, segLast := t.segLast, status := t.result.toNat
    word := t.word.toNat, epoch := t.epoch.toNat, args := t.args.toNat, payload := t.payload }

/-- The bytes of a frame in transit: a trailer that failed still fails by as much (R324; log 101). -/
def transitBytes (t : Transit) : Bytes :=
  let b := (transitFrame t).headBytes ++ t.payload
  b ++ bytesOf 4 (Nat.xor (crc32c b) t.fault.toNat)

/-- The cell that ends a frame whose ingress link left UP: an inverted trailer alone (R342; log 12). -/
def cutTrailer (t : Transit) : Bytes := bytesOf 4 (Nat.xor (crc32c ((transitFrame t).headBytes ++ t.payload)) 0xFFFFFFFF)

/-! ## Cells (R322) -/

/-- Cells of a frame with `n` bytes of payload (R322, R328). -/
def frameCells (n : Nat) : Nat := ceilDiv (64 + n + 4) 120

/-- Number of a virtual channel. -/
def chanNo : Chan → Nat
  | .ctrl => 0
  | .data => 1
  | .fwd => 2

/-- The header of a cell (R322). -/
def cellHeader (vc : Nat) (sof eof : Bool) (seq ack : Nat) (nak : Bool) (creditVc credits fill : Nat) : Nat :=
  field 2 62 vc + field 1 61 sof.toNat + field 1 60 eof.toNat + field 12 48 seq + field 12 36 ack + field 1 35 nak.toNat
    + field 2 33 creditVc + field 12 21 credits + field 7 14 fill

/-- The headers of the idle cells that acknowledge up to `ack` and return credits, one channel in each (R322, R325). -/
def idleHeaders (seq ack : Nat) (credits : List Nat) : List Nat :=
  match credits.zipIdx.filter (fun c => decide (c.1 ≠ 0)) with
  | [] => [cellHeader 3 false false seq ack false 3 0 0]
  | l => l.map (fun c => cellHeader 3 false false seq ack false c.2 c.1 0)

/-- What a frame is to a port: the cells that it takes when whole, and its bytes. -/
def Sent.cells : Sent → Nat
  | .frame f => frameCells f.payload.length
  | .forward _ t _ => frameCells t.payload.length
  | _ => 1
def Sent.bytes : Sent → Bytes
  | .frame f => f.bytes
  | .forward _ t _ => transitBytes t
  | _ => []

/-- The bytes that the next cell of a frame carries of which `left` cells are to go: 120 of them, or what remains (R322); the
cell that ends a frame cut short carries the inverted trailer (R342). -/
def Sent.part (f : Sent) (left : Nat) : Bytes :=
  match f, left with
  | .forward _ t true, 1 => if frameCells t.payload.length = 1 then (transitFrame t).headBytes ++ t.payload ++ cutTrailer t else cutTrailer t
  | .forward _ t true, _ => (transitBytes t).take 120
  | f, left => (f.bytes.drop (120 * (f.cells - left))).take 120

/-- Is the next cell of a frame its first? A frame cut short before its first cell went has two cells to go (R342). -/
def Sent.starts (f : Sent) (left : Nat) : Bool := match f with
  | .forward _ t true => decide (left = min 2 (frameCells t.payload.length))
  | f => decide (left = f.cells)

/-! ## Egress (R323, R325, R326) -/

/-- Has a channel cells waiting, and credits for one? -/
def PortSt.ready (v : PortSt) (c : Chan) : Bool :=
  v.waiting.any (fun w => decide (w.1 = c)) && decide (0 < v.credits.getD (chanNo c) 0)

/-- The channel that sends the next cell (R326): the control channel one cell in four when another has cells waiting, and
otherwise the forward and the data channel in turn; a channel without credits keeps its turn. That the limit holds whichever
other channel waits, and that the control channel takes all that the limit leaves it, are the model's choice (log 102). -/
def PortSt.nextChan (v : PortSt) : Option Chan :=
  let d := v.ready .data
  let f := v.ready .fwd
  if v.ready .ctrl && (decide (3 ≤ v.sinceCtrl) || !(d || f)) then some .ctrl
  else if f && (!v.lastFwd || !d) then some .fwd
  else if d then some .data
  else none

/-- Is it the turn of the other of the forward and data channels, once `c` has sent a cell? One that sends because the other
has no credits does not take the turn from it. -/
def PortSt.turn (v : PortSt) (c : Chan) : Bool := match c with
  | .ctrl => v.lastFwd
  | .fwd => true
  | .data => false

/-- Channel `c` sends a cell of its oldest frame: against a credit, kept for a replay, with the next SEQ and the last good SEQ
of the other direction (R322, R323, R325). A frame whose last cell goes has left the port. -/
def PortSt.sendCell (v : PortSt) (c : Chan) : PortSt :=
  match v.waiting.find? (fun w => decide (w.1 = c)) with
  | none => v
  | some w =>
    let rest := v.waiting.eraseP (fun w => decide (w.1 = c))
    let i := v.waiting.findIdx (fun w => decide (w.1 = c))
    let data := w.2.2.part w.2.1
    { v with
      credits := v.credits.set (chanNo c) (v.credits.getD (chanNo c) 0 - 1)
      replay := v.replay + 1
      txSeq := v.txSeq + 1
      cells := (cellHeader (chanNo c) (w.2.2.starts w.2.1) (decide (w.2.1 = 1)) v.txSeq.toNat v.rxSeq.toNat false 3 0
        (if w.2.1 = 1 then data.length else 0), data) :: v.cells
      sinceCtrl := if c = .ctrl then 0 else min 3 (v.sinceCtrl + 1)
      lastFwd := v.turn c
      waiting := if w.2.1 ≤ 1 then rest else v.waiting.set i (w.1, w.2.1 - 1, w.2.2)
      sent := if w.2.1 ≤ 1 then w.2.2 :: v.sent else v.sent }

/-- Send up to `n` cells, while a channel may send one and the replay buffer has room. -/
def PortSt.sendCells (v : PortSt) : Nat → PortSt
  | 0 => v
  | n + 1 =>
    if 512 ≤ v.replay then v
    else match v.nextChan with
      | none => v
      | some c => (v.sendCell c).sendCells n

/-- Cells that wait at a port. -/
def PortSt.toGo (v : PortSt) : Nat := (v.waiting.map (fun w => w.2.1)).foldl (· + ·) 0

/-- Send what credits and the replay buffer allow, each channel's frames in order (R323, R325). -/
def PortSt.egress (v : PortSt) : PortSt := v.sendCells v.toGo

/-- Idle cells with these headers leave a port (R322). -/
def PortSt.idle (v : PortSt) (headers : List Nat) : PortSt :=
  { v with cells := (headers.map (fun h => (h, ([] : Bytes)))).reverse ++ v.cells }

/-- The cells of the replay buffer, newest first: the last of those that are no idle cells (R323). -/
def PortSt.kept (v : PortSt) : List (Nat × Bytes) := (v.cells.filter (fun c => decide (bits c.1 63 62 ≠ 3))).take v.replay

/-- `n` cells of channel `c` have been received good, and their buffer space is free again (R322, R323, R325). -/
def PortSt.gets (v : PortSt) (c n : Nat) : PortSt :=
  { v with owed := v.owed.set c (v.owed.getD c 0 + n), rxSeq := v.rxSeq + BitVec.ofNat 12 n }

/-! ## The hello (R343) -/

/-- A hello's payload, and its cell's header as its sender sent it (R322, R343). -/
def helloPayload (h : Hello) : Bytes :=
  bytesOf 120 (field 8 952 h.version.toNat + field 2 950 h.role.toNat + field 12 938 h.node.toNat + field 12 926 h.ctrl.toNat
    + field 12 914 h.data.toNat + field 12 902 h.fwd.toNat)
def helloHeader (h : Hello) : Nat := cellHeader 3 true false h.seq.toNat h.ack.toNat false 3 0 0

/-- The hello that the module sends: VERSION 1, ROLE module, its node id, and credits for its receive buffers
(R325, R343). -/
def helloBytes (node : Nat) : Bytes :=
  bytesOf 120 (field 8 952 1 + field 2 950 1 + field 12 938 node + field 12 926 256 + field 12 914 2048 + field 12 902 1024)

/-! ## The generator (R346) -/

/-- `n` bits of PRBS31 from a register: x^31 + x^28 + 1 (PRESUMED: the family's sequence; the spec gives no polynomial, log 103). -/
def prbsBits (reg : Nat) : Nat → List Bool
  | 0 => []
  | n + 1 =>
    let b := (bitOf reg 30 != bitOf reg 27)
    b :: prbsBits ((reg * 2 + b.toNat) % 2 ^ 31) n

/-- The first `n` bytes of a sequence of bits, its first bit the lowest. -/
def bytesOfBits (l : List Bool) (n : Nat) : Bytes :=
  (List.range n).map (fun i => BitVec.ofNat 8 (((l.drop (8 * i)).take 8).zipIdx.foldl (fun v b => v + b.1.toNat * 2 ^ b.2) 0))

/-- Frame `i` of a generator run: an ECHO of 8,192 bytes of PRBS31, the control and the data channel in turn (R346). Its node
ids and its TAG are the model's choice (log 103). -/
def loopFrame (seed node x i : Nat) : Frame :=
  { type := 0x04, reply := false, data := decide (i % 2 = 1), dst := node, src := node, tag := i, hops := 0
    rx := ⟨x % 4, Nat.mod_lt _ (by decide)⟩, seg := 0, segLast := true, status := 0, word := 0, epoch := 0, args := 0
    payload := bytesOfBits (prbsBits seed 65536) 8192 }

/-- The register from which the payload of each generated frame starts (log 103). -/
def loopSeed : Nat := 2 ^ 31 - 1

/-- The generator of a run keeps two frames waiting, and the port sends what credits and the replay buffer allow (R346). -/
def PortSt.feed (node x : Nat) : Nat → PortSt → PortSt
  | 0, v => v
  | fuel + 1, v => match v.loopRun with
    | none => v
    | some g =>
      if 2 ≤ v.waiting.length then v
      else
        let f := Sent.frame (loopFrame loopSeed node x g.next)
        PortSt.feed node x fuel ({ v with
          loopRun := some { g with next := g.next + 1 }
          waiting := v.waiting ++ [(if g.next % 2 = 0 then .ctrl else .data, f.cells, f)] } : PortSt).egress

/-- Rounds of the generator that suffice: the replay buffer holds fewer frames. -/
def feedFuel : Nat := 16

end Sys2Proof.Machine
end

