-- ==== Sys2Proof/Machine/Ops.lean ====
section
/-! DEFINITION. The named operations of the module over State: its parts by number, free values, frames and cells
(13), error records (16), freezes, completion records and doorbells (15), and the performance-counter freeze (19). -/

namespace Sys2Proof.Machine

/-! ## Parts of the state by number -/

def State.part (s : State) (p : Nat) : Partition := s.parts.get Partition.none p
def State.setPart (s : State) (p : Nat) (x : Partition) : State := { s with parts := s.parts.set p x }
def State.ctx (s : State) (p n : Nat) : Context := s.ctxs.get Context.none (p * 16 + n)
def State.setCtx (s : State) (p n : Nat) (x : Context) : State := { s with ctxs := s.ctxs.set (p * 16 + n) x }
def State.seq (s : State) (p : Nat) : Seq := s.seqs.get Seq.none p
def State.setSeq (s : State) (p : Nat) (x : Seq) : State := { s with seqs := s.seqs.set p x }
def State.port (s : State) (x : Nat) : PortSt := s.ports.get PortSt.start x
def State.setPort (s : State) (x : Nat) (v : PortSt) : State := { s with ports := s.ports.set x v }
/-- A task register set by its key, port * 64 + set. -/
def State.tset (s : State) (k : Nat) : TaskSet := s.sets.get TaskSet.none k
def State.setTset (s : State) (k : Nat) (v : TaskSet) : State := { s with sets := s.sets.set k v }
def State.space (s : State) (n : Nat) : Namespace := s.media.spaces.get Namespace.none n
def State.setSpace (s : State) (n : Nat) (v : Namespace) : State :=
  { s with media := { s.media with spaces := s.media.spaces.set n v } }
def State.setMedia (s : State) (m : Media) : State := { s with media := m }
def State.die (s : State) (n : Nat) : Die := s.fabric.dies.get Die.empty n
def State.setDie (s : State) (n : Nat) (d : Die) : State :=
  { s with fabric := { s.fabric with dies := s.fabric.dies.set n d } }

/-! ## One field of the state -/

def State.setClock (s : State) (v : Clock) : State := { s with clock := v }
def State.setFabric (s : State) (v : Fabric) : State := { s with fabric := v }
def State.setDict (s : State) (v : Dict) : State := { s with dict := v }
def State.setVtimes (s : State) (v : Tab Nat) : State := { s with vtimes := v }
def State.setOrders (s : State) (v : Nat) : State := { s with orders := v }
def State.setStagings (s : State) (v : List Staging) : State := { s with stagings := v }
def State.setArms (s : State) (v : Nat) : State := { s with arms := v }
def State.setErrors (s : State) (v : Errors) : State := { s with errors := v }
def State.setGuard (s : State) (v : Guard) : State := { s with guard := v }
def State.setPower (s : State) (v : Power) : State := { s with power := v }
def State.setSecurity (s : State) (v : Security) : State := { s with security := v }
def State.setObserve (s : State) (v : Observe) : State := { s with observe := v }
def State.setHold (s : State) (v : Nat) : State := { s with hold := v }
def State.setFree (s : State) (v : Nat) : State := { s with free := v }

/-- Change the power part of the state. -/
def State.updPower (s : State) (f : Power → Power) : State := { s with power := f s.power }
/-- Change the dictionary's part of the state. -/
def State.updDict (s : State) (f : Dict → Dict) : State := { s with dict := f s.dict }

/-- Key of a task register set (R370). -/
def setKey (x : Port) (t : SetId) : Nat := x.val * 64 + t.val
/-- Port of a set's key. -/
def keyPort (k : Nat) : Nat := k / 64

/-- The number of the next free value, which is then used up (log 4). -/
def State.draw (s : State) : State := { s with free := s.free + 1 }

/-- Run `f` for each element of a list. -/
def State.each {α : Type} (s : State) (l : List α) (f : State → α → State) : State := l.foldl f s

/-- The running tick's epoch as a number. -/
def State.tick (s : State) : Nat := s.clock.epoch.toNat

/-- The base tick in 10 ns units (R42). -/
def State.tickUnits (s : State) : Nat := s.gov 0x2000 1 * 1000

/-- The sum of `f` over the `n` draws from `a` on, and over those from `a` up to `b`. -/
def sumOver (f : Nat → Nat) (a : Nat) : Nat → Nat
  | 0 => 0
  | n + 1 => sumOver f a n + f (a + n)
def sumFrom (f : Nat → Nat) (a b : Nat) : Nat := sumOver f a (b - a)

/-- The timebase now, for a command that names no time: it never goes back, it is not before the time that the module keeps,
and not behind the next boundary while boundaries run; where in between is a free value (log 23). -/
def State.timeNow (s : State) : Nat :=
  let t := sumFrom Config.timeStep 0 s.free
  max s.clock.now (if s.clock.running then min t (s.clock.boundaryAt + s.tickUnits) else t)

/-! ## Timestamps (19 R469) -/

/-- The board and the management die among the trace sources. -/
def boardClock : Nat := 64
def mgmtClock : Nat := 96

/-- The timestamp counter of a trace source: the sequencers' is the board's. -/
def clockOf (src : Nat) : Nat := if 64 ≤ src ∧ src < 72 then boardClock else src

/-- The time at which the timestamp counter of a source began: the management die's at the last reset, the others' a constant
time after it, or when the die was last ungated or reset (log 114). -/
def State.origin (s : State) (src : Nat) : Nat :=
  let o := s.observe
  o.origins.get (o.bornAt + (if src = mgmtClock then 0 else Config.dieDelay o.born (clockOf src))) (clockOf src)

/-- The timestamp of a source at a time of the timebase. -/
def State.stampOf (s : State) (src t : Nat) : BitVec 64 := BitVec.ofNat 64 (t - s.origin src)

/-- The timestamp counters of dies start from zero now. -/
def State.restartClocks (s : State) (mask : Nat) : State :=
  let t := s.timeNow
  (s.setObserve { s.observe with origins := (bitsSet mask 48).foldl (fun o d => o.set d t) s.observe.origins }).draw

/-! ## Status codes (16 R410) -/

def stOk : Nat := 0x0000
def stShort : Nat := 0x0001
def stStale : Nat := 0x0002
def stBadCommand : Nat := 0x0101
def stFrozen : Nat := 0x0102
def stBusy : Nat := 0x0103
def stTimeout : Nat := 0x0104
def stSanitize : Nat := 0x0105
def stLoadFailed : Nat := 0x0106
def stRejected : Nat := 0x0107
def stReadOnly : Nat := 0x0201
def stUncorr : Nat := 0x0202
def stTooLarge : Nat := 0x0203
def stMismatch : Nat := 0x0204
def stFallback : Nat := 0x0301
def stExpired : Nat := 0x0302
def stOverrun : Nat := 0x0303
def stTornDown : Nat := 0x0401
def stDenied : Nat := 0x0501
def stBadFrame : Nat := 0x0601
def stDeferred : Nat := 0x0602
def stBadLength : Nat := 0x0603
def stNoObject : Nat := 0x0604
def stNoSub : Nat := 0x0605
def stNotReadable : Nat := 0x0606
def stNotWritable : Nat := 0x0607
def stRefused : Nat := 0x0608
def stLocked : Nat := 0x0609
def stSegment : Nat := 0x060A

/-! ## Cells and frames (13) -/

/-- Hand a frame of `cells` cells to a port: the forward channel towards a module, otherwise the channel of its
class (R339). A port that is UP sends what it can; one that retrains keeps the frame until it is UP again (R334, R344); any
other carries no frame and loses it (R342). -/
def State.send (s : State) (x : Nat) (data : Bool) (cells : Nat) (f : Sent) : State :=
  let v := s.port x
  let c : Chan := if v.peerModule then .fwd else if data then .data else .ctrl
  let w := { v with waiting := v.waiting ++ [(c, cells, f)] }
  if v.life = .up then s.setPort x w.egress
  else if v.life = .retraining then s.setPort x w
  else s

/-- NODE_ID in force (R337). -/
def State.nodeId (s : State) : Nat := s.gov 0x1100 1

/-- The reply to a request (R330, R331): its type and tag, REPLY set, the port's status word, DEVICE_EPOCH. -/
def State.replyFrame (s : State) (r : Req) (type status args : Nat) (payload : Bytes) (data : Bool) : Frame :=
  { type := type, reply := true, data := data, dst := r.src.toNat, src := s.nodeId, tag := r.tag.toNat
    hops := s.gov 0x1100 3, rx := r.port, seg := r.seg.toNat, segLast := r.segLast, status := status
    word := (s.port r.port.val).word.toNat, epoch := s.clock.epoch.toNat, args := args, payload := payload }

/-- Is the reply to a request of the data class: of DATA_PULL always, of ECHO as the request was (R329)? -/
def dataReply (r : Req) (type : Nat) : Bool := decide (type = 0x31) || (decide (type = 0x04) && decide (r.chan = .data))

/-- Send the reply to a request. -/
def State.reply (s : State) (r : Req) (type status args : Nat) (payload : Bytes) : State :=
  s.send r.port.val (dataReply r type) (frameCells payload.length)
    (.frame (s.replyFrame r type status args payload (dataReply r type)))

/-- Control requests of a port that have been accepted and whose replies have not left: those that wait for a persistent write, and
those whose reply waits for credits (R327). -/
def State.requestsHeld (s : State) (x : Nat) : Nat :=
  s.dict.jobs.countP (fun j => match j.req with
    | some r => decide (r.port.val = x)
    | none => false)
  + (s.port x).waiting.countP (fun w => match w.2.2 with
    | .frame f => decide (f.type ≠ 0x30)
    | _ => false)

/-- Cells of a port's receive buffer of a channel that frames in transit hold, which wait to be sent on (R325). -/
def State.heldCells (s : State) (x c : Nat) : Nat :=
  (((List.range 4).flatMap (fun y => (s.port y).waiting)).map (fun w => match w.2.2 with
    | .forward i f bad => if i.val = x ∧ chanNo f.chan = c ∧ !bad then w.2.1 else 0
    | _ => 0)).foldl (· + ·) 0

/-- Does a request reach the front end: the port is UP, and the frame is for this module (R338, R345)? -/
def State.reaches (s : State) (r : Req) : Bool :=
  decide ((s.port r.port.val).life = .up) && decide (r.dst.toNat = 0 ∨ r.dst.toNat = s.nodeId)
    && (decide (r.chan = .data) || decide (s.requestsHeld r.port.val < 64))

/-- Does the request come from the node that owns the port (R332, R333)? -/
def State.owned (s : State) (r : Req) : Bool :=
  decide ((s.port r.port.val).node ≠ 0) && decide ((s.port r.port.val).node = r.src)

/-- The cells of a frame with `n` bytes of payload have been received good on channel `c` of a port (R322, R323). -/
def State.heard (s : State) (x n c : Nat) : State := s.setPort x ((s.port x).gets c (frameCells n))

/-- Serve a request with `n` bytes of payload: a frame that does not reach the module changes nothing, a bad trailer
(which is counted, R347) or length is BAD_FRAME, and a frame of a type marked "owner" from another node is ACCESS_DENIED
(R332). `echo` is what the ARGS of such a reply return of the request (R355, R376). -/
def State.serve (s : State) (r : Req) (type : Nat) (owner : Bool) (k : State → State) (n : Nat := 0) (echo : Nat := 0) : State :=
  if !s.reaches r then s
  else
    let s := s.heard r.port.val n (chanNo r.chan)
    if !r.good then (if r.crc then s else s.bump (0x1110 + r.port.val) 0x0F 1).reply r type stBadFrame echo []
    else if owner && !s.owned r then s.reply r type stDenied echo []
    else k s

/-! ## Freezes (15 R392, R393) -/

/-- Bits to set in a port's FREEZE at the next boundary. -/
def State.freezeDue (s : State) (x : Nat) (bits : BitVec 10) : State :=
  let v := s.port x
  s.setPort x { v with freezeDue := v.freezeDue ||| bits }

def freezeStream : BitVec 10 := 0x200
def freezeIo : BitVec 10 := 0x100
def freezePart (p : Nat) : BitVec 10 := BitVec.ofNat 10 (2 ^ p)

/-- STREAM on every port (R393). -/
def State.freezeAll (s : State) : State := s.each (List.range 4) (fun s x => s.freezeDue x freezeStream)

/-! ## Performance counters (19 R461 to R464) -/

/-- Squares that a power state gates (R419). -/
def gatedBy (state : Nat) : Nat :=
  if state ≤ 1 then 0 else if state = 2 then 0xFFFFFF000000 else 0xFFFFFFFFFFFF

/-- Squares gated now, those still being ungated included (R420). -/
def State.gated (s : State) : Nat := Nat.lor (gatedBy s.power.state) s.power.ungating

/-- What `h`, of the draws so far, has grown by while the counters counted: over the spans before the last release, and over the
counting in progress up to `now` (R466). -/
def State.unfrozen (s : State) (h : Nat → Nat) (now : Nat) : Nat :=
  (s.observe.spans.map (fun v => h v.2 - h v.1)).foldl (· + ·) 0 + (if s.observe.frozen then 0 else now - h s.observe.since)

/-- Advance a performance counter, frozen or not. -/
def State.tally (s : State) (id n : Nat) : State :=
  s.setObserve { s.observe with perf := s.observe.perf.upd 0 id (fun v => v + BitVec.ofNat 64 n) }

/-- Advance a performance counter, unless the counters are frozen (R466). -/
def State.count (s : State) (id n : Nat) : State := if s.observe.frozen then s else s.tally id n

/-- Slots of one pass after another on a die are those of one run of slots. -/
def mergeSlots : List Slots → List Slots
  | [] => []
  | u :: l =>
    let m := mergeSlots l
    let same := fun (v : Slots) => decide (v.die = u.die ∧ v.rate = u.rate ∧ v.since = u.since)
    if m.any same then m.map (fun v => if same v then { v with taken := v.taken + u.taken, gated := v.gated + u.gated } else v)
    else u :: m

/-- Slots that have passed before draw `k`, and the gated ones among them. -/
def Slots.passed (u : Slots) (k : Nat) : Nat := min u.taken (64 * sumFrom (fun i => Config.slotStep i u.die) u.since k)
def Slots.gatedBy (u : Slots) (k : Nat) : Nat :=
  if u.passed k = u.taken then u.gated
  else min u.gated (min (u.passed k) (sumFrom (fun i => Config.gatedStep i u.die) u.since k))

/-- Slots that have counted so far, and the gated ones among them: all but those that passed while the counters were frozen.
`whole` says that their step completes now. -/
def State.slotsNow (s : State) (u : Slots) (whole : Bool) : Nat :=
  s.unfrozen u.passed (if whole then u.taken else u.passed s.free)
def State.gatedNow (s : State) (u : Slots) (whole : Bool) : Nat :=
  s.unfrozen u.gatedBy (if whole then u.gated else u.gatedBy s.free)

/-- Square whose die holds the counter, if a lane die holds it. -/
def counterDie (id : Nat) : Option Nat := if id < 6144 then some (id / 128) else none

/-- Indices of a lane die's counters that the model's rules advance; the others follow from its timing (log 17). -/
def counterFixed (i : Nat) : Bool := decide (2 ≤ i ∧ i ≤ 15) || decide (24 ≤ i ∧ i ≤ 55)

/-- What the slots of steps in progress have added to counter `i` of a die (R111). -/
def State.slotsInHand (s : State) (d i : Nat) : Nat :=
  (s.seqs.flatMap (fun q => q.2.queues.flatMap (fun l => l.2.flatMap QStep.slots))).foldl (fun a u =>
    if u.die ≠ d then a
    else if i = u.rate then a + s.slotsNow u false
    else if i = 9 then a + s.gatedNow u false
    else if 24 ≤ i ∧ i % 4 = 0 then a + s.slotsNow u false / 8
    else a) 0

/-- Is the counter's die absent or gated (R462)? -/
def State.counterOff (s : State) (id : Nat) : Bool :=
  match counterDie id with
  | some d => decide (48 ≤ d) || bitOf s.gated d || !bitOf (s.obj 0x1010 1) d
  | none => false

/-- A counter that advances by free steps, from the draw at which it last started on (log 17). -/
def State.stepped (s : State) (id : Nat) : Nat :=
  let base := match counterDie id with
    | some d => s.observe.restarts.get 0 d
    | none => 0
  let h := fun k => sumFrom (fun i => Config.counterStep i id) base k
  s.unfrozen h (h s.free)

/-- The value of a performance counter now. -/
def State.counterNow (s : State) (id : Nat) : Nat :=
  if 8960 ≤ id ∨ s.counterOff id then 0
  else if id < 6144 ∧ 56 ≤ id % 128 then 0
  else if id < 6144 ∧ counterFixed (id % 128) then
    ((s.observe.perf.get 0 id).toNat + s.slotsInHand (id / 128) (id % 128)) % 2 ^ 64
  else s.stepped id % 2 ^ 64

/-- An entry of READ_RESULT, as a number (R463). -/
def State.entryWord (s : State) (i id value : Nat) : Nat :=
  field 64 64 value + field 40 24 (20 * i) + field 16 8 id
    + field 1 1 (if s.observe.frozen then 1 else 0) + field 1 0 (if id < 8960 && !s.counterOff id then 1 else 0)

/-- What a pass in progress reads in entry `i`, which it has come to since its counters were last found: a value that the counter
held since then (log 28). -/
def State.passValue (s : State) (i id : Nat) : Nat :=
  let old := s.observe.passFrom.getD i 0
  let d := (s.counterNow id + 2 ^ 64 - old) % 2 ^ 64
  (old + (Config.counterValue s.free (0x30000 + i)).toNat % (d + 1)) % 2 ^ 64

/-- The pass reads its next entry. A later entry of the same counter cannot read less. -/
def State.passRead (s : State) (ids : List Nat) : State :=
  let o := s.observe
  let i := o.passed.length
  let id := ids.getD i 0
  let v := if s.counterOff id then 0 else s.passValue i id
  s.setObserve { o with
    passed := o.passed ++ [s.entryWord i id v]
    passFrom := (ids.zip o.passFrom).map (fun e => if e.1 = id then v else e.2) }

/-- The pass in progress goes on up to now, or to its end: it reads an entry every 200 ns (R463). -/
def State.passOn (s : State) (whole : Bool) : State :=
  match s.observe.pass with
  | none => s
  | some ids =>
    let n := if whole then ids.length else min ids.length ((s.timeNow - s.observe.passAt) / 20 + 1)
    let s := s.each (List.range (n - s.observe.passed.length)) (fun s _ => s.passRead ids)
    (s.setObserve { s.observe with passFrom := ids.map s.counterNow }).draw

/-- The counters of gated lane dies: they read zero while the die is gated and restart from zero after it (R462). -/
def State.restartCounters (s : State) (mask : Nat) : State :=
  let s := s.passOn false
  s.setObserve { s.observe with
    perf := s.observe.perf.filter (fun e => decide (6144 ≤ e.1) || !bitOf mask (e.1 / 128))
    restarts := (bitsSet mask 48).foldl (fun o d => o.set d s.free) s.observe.restarts }

/-- Every counter starts at zero with a start-up (R461). -/
def State.startCounters (s : State) : State :=
  s.setObserve { s.observe with perf := [], spans := [], since := s.free, restarts := [], begun := s.free }

/-! ## The freeze of the performance counters (19 R466, R467) -/

/-- The global freeze trigger at a time of the timebase: while frozen it is counted and ignored. -/
def State.freezeCounters (s : State) (at' : Nat) : State :=
  if s.observe.frozen then s.bumpSat 0x9001 9 1
  else
    let s := s.passOn false
    let o := s.observe
    let s := s.setObserve { o with frozen := true, frozenAt := at', armed := 0, spans := o.spans ++ [(o.since, s.free)] }
    s.put 0x9001 6 (s.stampOf mgmtClock at').toNat

/-- A source occurs: it freezes the counters if it is armed (R467). Bits: 3 ON_MARK, 2 ON_ERROR, 1 ON_DUMP,
0 ON_BOUNDARY. -/
def State.freezeSource (s : State) (bit : Nat) (at' : Nat) : State :=
  if bitOf s.observe.armed.toNat bit then s.freezeCounters at' else s

/-! ## Blocks and the write buffer (08 R198, R212, R214; 09 R243) -/

/-- Blocks of the array (R198). -/
def arrayBlocks : Nat := 8388608

/-- The block numbers that a band holds: one on each die that gave one (4,096 stands for none), and the failed ones. -/
def Band.blockOf (b : Band) (i : Nat) : Option Nat :=
  let k := b.blks.getD i 4096
  if k < 4096 then some (((b.lane / 16 + 4 * i) * 16 + b.lane % 16) * 4096 + k) else none
def Band.blocks (b : Band) : List Nat := (List.range 32).filterMap b.blockOf ++ b.failed

/-- FREE_BLOCKS (R243, R249): every block that is neither RETIRED nor in a band nor waiting for or under erasure; in a
sanitize by block erase, the blocks erased so far. -/
def Media.freeBlocks (m : Media) : Nat :=
  let used := arrayBlocks - m.retired.length - (m.bands.map (fun b => b.blocks.length)).foldl (· + ·) 0 - m.erasing.length
  match m.sanitize with
  | some z => if z.begun && !z.crypto then z.erased.length else used
  | Option.none => used

/-- Bytes in the protected write buffer (R212). -/
def Media.buffered (m : Media) : Nat := (m.pieces.map (fun p => p.blocks * 4096)).foldl (· + ·) 0

/-- Bytes that the write buffer takes: 2 GiB, or the limit of R430 in MiB. -/
def State.bufferRoom (s : State) : Nat :=
  min 2048 (s.obj 0x7020 4) * 1048576

/-- Block of a unit, which its layout puts in the bits above the page (R202). -/
def unitBlock (u : BitVec 37) : Nat := u.toNat / 16384

/-- Dies that a power state lets program or erase at once (17 R419); half as many while NAND packages are too hot (17 R425). -/
def State.dieLimit (s : State) : Nat :=
  let n := if s.power.state = 2 then 1024 else if s.power.state = 3 then 512 else 2048
  if s.power.nandHot then n / 2 else n

/-- The dies that erase or program: a piece in the write buffer programs on the dies of its units (17 R419). -/
def Media.diesBusy (m : Media) : List Nat :=
  ((m.erasing.filter Erasing.issued).map (fun (e : Erasing) => e.block / 4096) ++ m.pieces.flatMap Piece.dies).eraseDups

/-- Does no write go on: the blocks of the reserve are all that is FREE (09 R243), or the input is gone (17 R428)? -/
def State.noWrites (s : State) : Bool := decide (s.media.freeBlocks < 2048) || s.power.warned

/-- Are data-channel credits for write payloads withheld (R214, R243, R428, R430), also because as many dies are at work as may
be at once (17 R419, R425)? -/
def State.withheld (s : State) : Bool :=
  decide (s.bufferRoom < s.media.buffered + 262144) || s.noWrites || decide (s.dieLimit ≤ s.media.diesBusy.length)

/-- Does what the write buffer holds keep within its limit (17 R430), and the dies at work within theirs (17 R419, R425)? A
piece after which it would not is not accepted. -/
def State.withinLimits (s : State) : Bool :=
  decide (s.media.buffered ≤ s.bufferRoom) && decide (s.media.diesBusy.length ≤ s.dieLimit)

/-! ## Requesters of the shared resources (02 R64, R65) -/

/-- Every set key. -/
def allKeys : List Nat := List.range 256

/-- Sets that are TAKEN. -/
def State.taken (s : State) : List Nat := allKeys.filter (fun k => decide ((s.tset k).life = .taken))

/-- Steps of a queue that have not completed (R80). -/
def Seq.queue (q : Seq) (n : Nat) : List QStep := q.queues.get [] n

/-- Has a step of the sequencer a request to resource `r` that has not finished? -/
def Seq.uses (q : Seq) (r : Nat) : Bool :=
  (List.range 32).any (fun n => (q.queue n).any (fun e => e.used.any (fun u => decide (u.1 = r))))

/-- Has requester `q` a request in hand to resource `r` (R64, R65)? The requesters are the partitions 0 to 7, by their steps
and far stagings, and the I/O accounts 8 + x, by the commands of port x in progress; a piece of a write is in hand for its
account until its programs have finished. -/
def State.asks (s : State) (r q : Nat) : Bool :=
  (decide (r = 4) && s.media.pieces.any (fun p => decide (p.payer = some q)))
  || (if q < 8 then (s.seq q).uses r || s.stagings.any (fun g => decide (g.kind = 5 ∧ g.part = q)
        && ((decide (r = 3) && decide (g.moved ≠ 0)) || (decide (r = 4) && decide (g.slots ≠ 0))))
      else s.taken.any (fun k => decide (keyPort k + 8 = q) && (s.tset k).used.any (fun u => decide (u.1 = r))))

/-- Is a REDUCE held behind one of the other reduction queue that was issued before it (12 R317)? -/
def Seq.reduceWaits (q : Seq) (n : Nat) (e : QStep) : Bool :=
  (decide (n = 29) || decide (n = 30))
    && (q.queue (59 - n)).any (fun o => !o.cut && decide (o.issue < e.issue))

/-- Every present square of a partition that is in use, by rising number (R73). -/
def State.squaresOf (s : State) (p : Nat) : List Nat := bitsSet (s.part p).defn.squares 48

/-! ## Position dumps (19 R474) -/

/-- Step word `i` of a table image (R71, R72), as a number. -/
def stepWord (b : Bank) (i : Nat) : Nat := b.data.num (64 + 32 * i) 32

/-- Steps of a table image (R72). -/
def tableSteps (b : Bank) : Nat := bits (b.data.num 0 64) 463 452 + 1

/-- The completion bits (R80). -/
def Seq.completion (q : Seq) : Nat :=
  ((List.range 32).map (fun n => if (q.queue n).isEmpty then 2 ^ n else 0)).foldl (· + ·) 0

/-- Number of a partition's state (R58). -/
def lifeNo : PartLife → Nat
  | .free => 0
  | .stopped => 1
  | .running => 2
  | .stopping => 3
  | .resetting => 4

/-- A free value of `n` bytes in a dump (log 20). -/
def dumpFree (k i n : Nat) : Nat := numOf ((List.range n).map (fun j => Config.dumpByte k (i + j)))

/-- Sequencer section header of a capture at `at'` (R474). -/
def State.dumpSeq (s : State) (p at' : Nat) : Nat :=
  let q := s.seq p
  let base := field 3 509 (lifeNo (s.part p).life) + field 32 428 q.completion + field 4 232 (if q.stepped then 0 else min q.stuck 8)
    + field 64 236 (s.stampOf boardClock at').toNat
  match q.run with
  | none => base
  | some r => base + field 4 505 r.ctx.val + 2 ^ 504 + field 12 492 r.next
      + field 32 460 (if r.waiting then bits (stepWord r.table r.next) 191 160 else 0)
      + field 64 364 ((r.loops.zipIdx.map (fun l => field 16 (16 * l.2) l.1)).foldl (· + ·) 0)
      + field 64 300 (s.stampOf boardClock r.start).toNat
      + (if (s.ctx p r.ctx.val).table.side then 2 ^ 231 else 0) + field 8 223 r.fallbacks

/-- Does a step run on the virtual dies of its range? -/
def wOnDies (w : Nat) : Bool := decide (1 ≤ wOpcode w ∧ wOpcode w ≤ 7)

/-- Has virtual die `v` yet to do a pass, a row or a tile of a step that its unit has not carried out? -/
def State.dieLate (s : State) (p : Nat) (e : QStep) (v : Nat) : Bool :=
  let w := e.word
  let o := wOpcode w
  if o = opLoadw then (s.die ((s.squaresOf p).getD v 0)).waitsFor e.issue || !e.queued
  else decide (e.rows.get 0 v < (if o = opStream then streamPasses w else if o = opDrain then bits w 162 147 + 1
    else if o = opSfn then bits w 158 143 + 1 else pqtabTiles w v))

/-- DIES_PENDING of a head step (R474): the dies that are late, and a free part of the others of its range, which may be at work
on what they have. -/
def State.diesPending (s : State) (p : Nat) (e : QStep) (free : Nat) : Nat :=
  if !wOnDies e.word then 0
  else ((List.range 48).map (fun v =>
    if vFirst e.word ≤ v ∧ v ≤ vLast e.word ∧ ((!e.ran && s.dieLate p e v) || bitOf free v) then 2 ^ v else 0)).foldl (· + ·) 0

/-- What the unit of a head step does (R474): a cut one drains, one that could not be carried out waits for data, a REDUCE
behind another one waits for its engine; of any other, whether it is executed, or waits for an engine that it has asked for or
for its data, is free (log 20). -/
def QStep.unitState (q : Seq) (n free : Nat) (e : QStep) : Nat :=
  if e.cut then 4
  else if q.reduceWaits n e then 2
  else if !e.ran then 3
  else if e.used.isEmpty then 1
  else 1 + free % 3

/-- BYTES_LEFT of a head step (R474): how much of a FETCH, SCAN or REDUCE has been delivered is free (log 20). -/
def QStep.bytesLeft (e : QStep) (free : Nat) : Nat :=
  let o := wOpcode e.word
  if o = opFetch then min ((bits e.word 90 67 + 1) * 64) free else if o = opScan ∨ o = opReduce then free else 0

/-- DEADLINE of a head step, from the start of its batch step (R79, R474). -/
def QStep.deadlineAt (e : QStep) (start : Nat) : Nat :=
  if wHasDeadline e.word then wDeadline e.word + (if wRelative e.word then e.at' - start else 0) else 0

/-- Queue head (R474). -/
def State.dumpQueue (s : State) (p n : Nat) : Nat :=
  let q := s.seq p
  let at' := 128 + 2048 * p + 32 * n
  match q.queue n with
  | [] => 0
  | h :: t => field 12 244 h.index + field 6 238 (bits h.word 255 250)
      + field 3 235 (h.unitState q n (dumpFree s.free at' 1)) + field 5 230 (t.length + 1)
      + field 48 176 (s.diesPending p h (dumpFree s.free (at' + 22) 6)) + field 64 112 (s.stampOf boardClock h.at').toNat
      + field 24 88 (h.deadlineAt (match q.run with
        | some r => r.start
        | none => h.at')) + field 64 0 (h.bytesLeft (dumpFree s.free at' 8))

/-- LINK_STATE as its object numbers it (R347). -/
def linkNo : LinkLife → Nat
  | .disabled => 0
  | .down => 1
  | .signal => 2
  | .aligned => 3
  | .up => 4
  | .retraining => 5
  | .loopback => 6
  | .trainFailed => 7

/-- Port entry (R474). Receive buffers are freed as a frame is served, and those of frames in transit as their cells leave (R325). -/
def State.dumpPort (s : State) (x : Nat) : Nat :=
  let v := s.port x
  field 12 116 (v.credits.getD 0 0) + field 12 104 (v.credits.getD 1 0) + field 12 92 (v.credits.getD 2 0)
    + field 12 80 (256 - s.heldCells x 0) + field 12 68 (2048 - s.heldCells x 1) + field 12 56 (1024 - s.heldCells x 2)
    + field 10 46 v.replay + field 7 39 (s.requestsHeld x)
    + field 3 36 (linkNo v.life) + (if v.node ≠ 0 then 2 ^ 35 else 0) + (if s.withheld then 2 ^ 34 else 0)

/-- The bits of byte `i` of a message set in a dump that are no RSVD: TR00[42:32], TR13[47:40] and TR15[19:16] read zero (R370,
R374; 00 R13). -/
def setByteMask (i : Nat) : Byte := if i = 4 ∨ i = 109 then 0 else if i = 5 then 0xF8 else if i = 122 then 0xF0 else 0xFF

/-- The bytes of a dump at `at'` but for its header. -/
def State.dumpBody (s : State) (at' : Nat) : Mem :=
  let m : Mem := (List.range 8).foldl (fun m p =>
    let m := Mem.writeBytes m (64 + 2048 * p) (bytesOf 64 (s.dumpSeq p at'))
    (List.range 32).foldl (fun m n => Mem.writeBytes m (128 + 2048 * p + 32 * n) (bytesOf 32 (s.dumpQueue p n))) m) []
  let m := (List.range 4).foldl (fun m x => Mem.writeBytes m (16448 + 256 * x) (bytesOf 16 (s.dumpPort x))) m
  let m := (List.range 120).foldl (fun m i =>
    Mem.writeBytes m (17472 + 8 * i) (bytesOf 8 (field 63 1 (s.vtimes.get 0 i)
      + (if i % 20 < 12 ∧ s.asks (i / 20) (i % 20) then 1 else 0)))) m
  (List.range 8192).foldl (fun m i => m.write (18496 + i) (Config.dumpByte s.free (18496 + i) &&& setByteMask (i % 128))) m

/-- A whole dump (R474). -/
def State.dumpImage (s : State) (trigger p seq at' : Nat) : Mem :=
  let m := s.dumpBody at'
  Mem.writeBytes m 0 (bytesOf 64 (field 32 480 (crc32c (m.readBytes 64 32704)) + field 16 464 11 + field 8 456 trigger
    + field 3 453 p + field 32 421 seq + field 64 357 s.clock.epoch.toNat + field 64 293 (s.stampOf mgmtClock at').toNat))

/-- The least time between captures, in 10 ns units. -/
def dumpSpacing : Nat := 1000000

/-- Capture a dump at a time of the timebase, or count the trigger as refused within 10 ms of the last capture. The
second part says whether it was captured. -/
def State.capture (s : State) (trigger p seq at' : Nat) : State × Bool :=
  let near := match s.observe.lastDump with
    | none => false
    | some t => decide (at' < t + dumpSpacing)
  if near then (s.bumpSat 0x9030 3 1, false)
  else
    let d := s.dumpImage trigger p seq at'
    let s := s.draw
    let s := (s.setErrors { s.errors with dumps := (s.errors.dumps ++ [d]).drop (s.errors.dumps.length - 3) }).setObserve { s.observe with lastDump := some at', dumpNo := s.observe.dumpNo + 1 }
    ((s.bumpSat 0x9030 2 1).freezeSource 1 at', true)

/-! ## Error records (16 R399, R405, R406, R415) -/

def causeReset : Nat := 0x0001
def causeLane : Nat := 0x0010
def causeLaneTest : Nat := 0x0011
def causeMem : Nat := 0x0020
def causeScrub : Nat := 0x0021
def causeRate : Nat := 0x0022
def causeRemap : Nat := 0x0023
def causeSelftest : Nat := 0x0024
def causeBuffer : Nat := 0x0025
def causeFlash : Nat := 0x0030
def causeDie : Nat := 0x0031
def causeStage : Nat := 0x0032
def causeHang : Nat := 0x0040
def causeNs : Nat := 0x0041
def causeCheck : Nat := 0x0042
def causeFabric : Nat := 0x0050
def causeLink : Nat := 0x0051
def causeSequencer : Nat := 0x0052
def causeMgmt : Nat := 0x0053
def causeThermal : Nat := 0x0060
def causeLinkDown : Nat := 0x0070
def causeEscalation : Nat := 0x0080
def causeLost : Nat := 0x0081
def causeLife : Nat := 0x00A0

/-- A report with a cause, source kind and number, severity and status, and no other field. -/
def report (cause kind id severity status : Nat) : Report :=
  ⟨BitVec.ofNat 16 cause, BitVec.ofNat 4 kind, BitVec.ofNat 8 id, 0, BitVec.ofNat 3 severity, BitVec.ofNat 16 status,
    false, 0, 0, false, 0, 0, 0, 0⟩

/-- A report about a context. -/
def repAbout (r : Report) (p : Part) (n : Ctx) : Report := { r with partValid := true, part := p, ctx := n }
/-- A report about a partition alone. -/
def repInPart (r : Report) (p : Part) : Report := { r with partValid := true, part := p }
/-- A report about a port's command. -/
def repOnPort (r : Report) (x : Port) : Report := { r with portValid := true, port := x }
/-- A report about a logical block: namespace in [47:42], block in [36:0]. -/
def repBlock (r : Report) (ns lba : Nat) : Report := { r with address := BitVec.ofNat 64 (ns * 2 ^ 42 + lba) }

/-- Source kind of a tier address (16 R403). -/
def tierKind (a : Nat) : Nat := if a < farFirst then 1 else if a < scratchFirst then 2 else 3

/-- Stack that holds a device address (07 R170, R171); 0 for scratch. -/
def stackOf (a : Nat) : Nat := if a < farFirst then a / 256 % 16 else if a < scratchFirst then a / 256 % 8 else 0

/-- Pseudo-channel of its stack that holds it. -/
def channelOf (a : Nat) : Nat := if a < farFirst then a / 4096 % 16 else if a < scratchFirst then a / 2048 % 16 else 0

/-- A report about a device address: its stack and pseudo-channel are the source. -/
def tierReport (cause a severity status : Nat) : Report :=
  { report cause (tierKind a) (stackOf a) severity status with
    subId := BitVec.ofNat 8 (channelOf a), address := BitVec.ofNat 64 a }

/-- A report about a physical unit of flash and its logical block: its channel and die are the source. -/
def flashReport (u : BitVec 37) (ns lba severity status : Nat) : Report :=
  let d := u.toNat / 16384 / 4096
  { repBlock (report causeFlash 4 (d / 16) severity status) ns lba with subId := BitVec.ofNat 8 (d % 16) }

/-- The bucket of a tier address: near stack, 16 + far stack, 24 for scratch. The bucket of lane die d is 25 + d. -/
def bucketOf (a : Nat) : Nat := if a < farFirst then stackOf a else if a < scratchFirst then 16 + stackOf a else 24

/-- Row of its pseudo-channel that holds an address of a stack (R170, R171): rows of 1 KiB. -/
def rowOf (a : Nat) : Nat := if a < farFirst then bits a 38 18 else bits a 39 17

/-- Key of a pseudo-channel: stack (far from 16) and number. -/
def pcKey (stack pc : Nat) : Nat := stack * 16 + pc

/-- Key of a row. -/
def rowKey (stack pc row : Nat) : Nat := pcKey stack pc * 2 ^ 32 + row

/-- Key of the row of a stack address. -/
def rowKeyOf (a : Nat) : Nat := rowKey (bucketOf a) (channelOf a) (rowOf a)

/-- An uncorrectable read occurred in the row of an address, which is to be remapped (07 R188). -/
def State.badRow (s : State) (a : Nat) : State :=
  s.setErrors { s.errors with badRows := if rowKeyOf a ∈ s.errors.badRows then s.errors.badRows else s.errors.badRows ++ [rowKeyOf a] }

/-- An uncorrectable read counts in its stack's UNCORR, or in scratch's (07 R191). -/
def State.countUncorr (s : State) (rep : Report) : State :=
  let a := rep.address.toNat
  if rep.cause.toNat ≠ causeMem ∧ rep.cause.toNat ≠ causeScrub then s
  else if a < farFirst then (s.bump (0x3010 + stackOf a) 3 1).badRow a
  else if a < scratchFirst then (s.bump (0x3020 + stackOf a) 3 1).badRow a
  else if a < windowFirst then s.bump 0x3030 3 1
  else s

/-- Note reads of the tiers and of lane dies; spans without a byte are none (07 R184, R185; log 107). -/
def State.sees (s : State) (l : List (Option Nat × Nat × Nat)) : State :=
  s.setGuard { s.guard with seen := (l.filter (fun r => decide (0 < r.2.2))) ++ s.guard.seen }

/-! ## The reserved near region (07 R172; 08 R204) -/

/-- First byte of the write buffer and of the segment cache, and the byte behind the latter. -/
def bufferFirst : Nat := 0x7900000000
def cacheFirst : Nat := 0x7A80000000
def nearEnd : Nat := 0x8000000000

/-- Does an address lie in the write buffer: 4 GiB, for its 2 GiB twice? -/
def inBuffer (a : Nat) : Bool := within a 1 bufferFirst 0x100000000

/-- Where byte `n` of the write buffer lies, in copy A or B: copy B of each 256-byte unit lies 2,048 bytes above copy A (07 R172). -/
def bufferAddr (n : Nat) (copyB : Bool) : Nat := bufferFirst + n / 2048 * 4096 + n % 2048 + (if copyB then 2048 else 0)

/-- Flash translation reads a block of a piece from copy A of the write buffer, or a segment from its slot in the cache (07 R184;
log 107). -/
def Media.readBuffer (m : Media) (p : Piece) (lba : Nat) : Media :=
  let n := p.slot * 262144 + 4096 * (lba - p.start)
  { m with seen := (bufferAddr n false, 2048) :: (bufferAddr (n + 2048) false, 2048) :: m.seen }
def Media.readSlot (m : Media) (slot : Nat) : Media := { m with seen := (cacheFirst + slot * 2048, 1284) :: m.seen }

/-- The byte of the write buffer that an address holds, and the same byte's address in the other copy. -/
def bufferByte (a : Nat) : Nat := (a - bufferFirst) / 4096 * 2048 + a % 2048
def otherCopy (a : Nat) : Nat := if 2048 ≤ a % 4096 then a - 2048 else a + 2048

/-- The logical block, by namespace and number, whose data byte `n` of the write buffer is. -/
def Media.bufferBlock (m : Media) (n : Nat) : Option (Nat × Nat) :=
  (m.pieces.find? (fun p => decide (p.slot = n / 262144) && decide (n % 262144 < 4096 * p.blocks))).map
    (fun p => (p.ns, p.start + n % 262144 / 4096))

/-- Is a record still QUEUED or HANDLING? -/
def Rec.open (r : Rec) : Bool := decide (r.st = .queued ∨ r.st = .handling)

/-- Has a DEVICE error stopped every sequencer (R401): one is in force, or waits to be classified? -/
def State.deviceStop (s : State) : Bool :=
  decide (s.errors.device ≠ 0) || s.errors.ring.any (fun e => decide (e.2.st = .queued) && decide (e.2.rep.severity.toNat = 4))

/-- Does a record go to page 1 (R415)? -/
def Rec.isHistory (r : Rec) : Bool :=
  decide (r.rep.severity.toNat ≠ 0) || decide (r.rep.cause.toNat ∈ [causeDie, causeStage, causeSelftest, causeLife])
    || (decide (r.rep.cause.toNat = causeRemap) && bitOf r.rep.detail.toNat 0)

/-- Put a new record in its slot and ask for its copy, unless the rate of R415 or R440 is reached. A record that gives up its slot
before its copy was made is not copied, which counts as those beyond the rate do (DEDUCED, log 121). -/
def State.placeRecord (s : State) (r : Rec) : State :=
  let e := s.errors
  let old := e.ring.get ⟨0, 0, 0, .done, false, false, true, 0, r.rep⟩ (r.seq.toNat % 64)
  let s := if old.wasRead then s else s.bumpSat 0x8000 2 1
  let recent := e.copied.filter (fun t => decide (s.clock.now < t + 360000000000))
  let room := decide ((recent.filter (fun t => decide (s.clock.now < t + 100000000))).length < 100)
    && decide (recent.length < 18000)
  let copy := room || decide (r.rep.severity.toNat = 4)
  let late := decide (old.seq ∈ e.toCopy) && e.ring.has (r.seq.toNat % 64)
  let s := if copy then s else s.bumpSat 0x8000 3 1
  let s := if late then s.bumpSat 0x8000 3 1 else s
  s.setErrors { s.errors with
      ring := e.ring.set (r.seq.toNat % 64) r
      next := r.seq + 1
      toCopy := (if late then e.toCopy.filter (fun q => decide (q ≠ old.seq)) else e.toCopy) ++ (if copy then [r.seq] else [])
      copied := if copy then s.clock.now :: recent else recent
      evLog := true
      evTherm := e.evTherm || decide (r.rep.cause.toNat = causeThermal)
      evLife := e.evLife || decide (r.rep.cause.toNat = causeLife) }

/-- Every QUEUED or HANDLING record becomes ABSORBED by the record `by'` (R406, R407). -/
def State.absorbAll (s : State) (by' : BitVec 32) : State :=
  s.setErrors { s.errors with ring := s.errors.ring.mapVals (fun _ r =>
      if r.open then { r with st := .absorbed, related := by' } else r) }

/-- Raise a QUEUED record (R399, R406). -/
def State.raiseAs (s : State) (rep : Report) (escalated : Bool) (related : BitVec 32) : State :=
  let e := s.errors
  let slot := e.ring.get ⟨0, 0, 0, .done, false, false, true, 0, rep⟩ (e.next.toNat % 64)
  let time := s.timeNow
  let stamp := s.stampOf mgmtClock time
  let s := s.draw.countUncorr rep
  let s := if slot.open ∨ 2 ≤ rep.severity.toNat then s.freezeSource 2 time else s
  if slot.open then
    let s := s.bumpSat 0x8000 2 1
    let lost : Rec := ⟨e.next + 1, s.clock.epoch, stamp, .queued, false, false, false, 0,
      report causeLost 7 0 4 stTornDown⟩
    (((s.absorbAll (e.next + 1)).placeRecord lost).capture 3 0 (e.next + 1).toNat s.clock.now).1
  else
    let s := s.placeRecord ⟨e.next, s.clock.epoch, stamp, .queued, escalated, false, false, related, rep⟩
    if rep.severity.toNat = 4 then (s.capture 3 0 e.next.toNat s.clock.now).1 else s

/-- Causes whose DETAIL the spec states (R404, R442, R474). -/
def detailStated (cause : Nat) : Bool := decide (cause ∈ [causeReset, causeRemap, causeThermal, causeHang])

/-- Raise a record of the module's own; a DETAIL that the spec does not state is a free value (log 26). -/
def State.raise (s : State) (rep : Report) : State :=
  s.raiseAs (if detailStated rep.cause.toNat then rep else { rep with detail := Config.recordDetail s.free }) false 0

/-- A NOTICE of cause THERMAL with an event code (R442). -/
def State.thermal (s : State) (event severity : Nat) : State :=
  s.raise { report causeThermal 14 0 severity (if severity = 4 then stTornDown else 0) with
    detail := BitVec.ofNat 128 event }

/-- A NOTICE of cause LIFE_CYCLE that reports a slot and why it failed, in its DETAIL as BOOT_FAIL has them (R455; DESIGN CHOICE,
log 117). -/
def State.slotRecord (s : State) (slot reason : Nat) : State :=
  s.raiseAs { report causeLife 7 0 0 0 with detail := BitVec.ofNat 128 (field 8 8 slot + reason) } false 0

/-- A NOTICE of cause LIFE_CYCLE (R446, R450, R454). -/
def State.lifeRecord (s : State) : State := s.raise (report causeLife 7 0 0 0)

/-! ## Commands in task register sets (15) -/

def TaskSet.reg (t : TaskSet) (n : Nat) : Nat := (t.regs.get 0 n).toNat
def TaskSet.opcode (t : TaskSet) : Nat := bits (t.reg 0) 63 56
def TaskSet.partNo (t : TaskSet) : Nat := bits (t.reg 0) 55 53
def TaskSet.ctxNo (t : TaskSet) : Nat := bits (t.reg 0) 52 49
def TaskSet.nsNo (t : TaskSet) : Nat := bits (t.reg 0) 48 43

/-- Is the set TAKEN with this opcode? -/
def State.holdsCmd (s : State) (k opcode : Nat) : Bool :=
  decide ((s.tset k).life = .taken) && decide ((s.tset k).opcode = opcode)

/-- Is the set TAKEN with this opcode and started (R372)? -/
def State.runsCmd (s : State) (k opcode : Nat) : Bool := s.holdsCmd k opcode && (s.tset k).started && decide ((s.tset k).due = none)

/-- Opcodes of R379. -/
def opWrite (o : Nat) : Bool := decide (o = 0x11 ∨ o = 0x12 ∨ o = 0x13)
def opBoundary (o : Nat) : Bool :=
  decide (o = 0x06 ∨ o = 0x11 ∨ o = 0x12 ∨ o = 0x13 ∨ o = 0x14 ∨ o = 0x20 ∨ (0x30 ≤ o ∧ o ≤ 0x34))
def opTableRun (o : Nat) : Bool := decide (0x30 ≤ o ∧ o ≤ 0x33)
def opPartition (o : Nat) : Bool := decide (o = 0x20 ∨ o = 0x21 ∨ (0x30 ≤ o ∧ o ≤ 0x34))
def opKnown (o : Nat) : Bool :=
  decide ((0x01 ≤ o ∧ o ≤ 0x06) ∨ (0x10 ≤ o ∧ o ≤ 0x16) ∨ o = 0x20 ∨ o = 0x21 ∨ (0x30 ≤ o ∧ o ≤ 0x34))

/-- Does the command run batch steps (R379, R391): a table-run command, or a search query? -/
def TaskSet.runsSteps (t : TaskSet) : Bool :=
  opTableRun t.opcode || (decide (t.opcode = 0x34) && decide (bits (t.reg 1) 63 61 = 3))

/-- Number of batch steps that a command runs: STEPS + 1, or one for a search query (R391). -/
def TaskSet.steps (t : TaskSet) : Nat := if t.opcode = 0x34 then 1 else bits (t.reg 1) 63 32 + 1

/-- Raise a doorbell bit (R378). -/
def State.ringDoorbell (s : State) (k : Nat) : State :=
  let x := keyPort k
  let v := s.port x
  let b := k % 64 / 2
  s.setPort x { v with
    db := v.db ||| BitVec.ofNat 32 (2 ^ b)
    evDb := v.evDb || !bitOf (s.gov (0x1410 + x) 2) b }

/-- Post a completion record (R374): the set becomes DONE and a doorbell bit is raised; a WRITE, DISCARD or
SECURE_DISCARD that ends with any other status than OK freezes IO at the next boundary (R393). -/
def State.post (s : State) (k status count step : Nat) : State :=
  let t := s.tset k
  let s := s.setTset k { t with
    life := .done, due := none, started := false, held := 0
    tr15 := BitVec.ofNat 64 (field 32 32 count + field 12 20 step + field 16 0 status)
    tr14 := s.clock.epoch
    tr13 := BitVec.ofNat 64 (field 16 48 (min t.fallbacks 65535) + field 40 0 t.outLen) }
  let s := if opWrite t.opcode && decide (status ≠ stOk) then s.freezeDue (keyPort k) freezeIo else s
  let s := if opPartition t.opcode then
      let c := s.ctx t.partNo t.ctxNo
      s.setCtx t.partNo t.ctxNo { c with queue := c.queue.filter (fun q => decide (q ≠ k)) }
    else s
  s.ringDoorbell k

/-- Have a command posted in the completion window of the next boundary (R36). -/
def State.postLater (s : State) (k status count step : Nat) : State :=
  let t := s.tset k
  s.setTset k { t with due := some status, count := count, dueStep := step }

/-- The held outputs of a command are discarded (01 R34). -/
def State.dropHeld (s : State) (k : Nat) : State := s.setTset k { s.tset k with held := 0 }

/-- End a command: at the boundary if its record is posted there, otherwise now (R374, R379). -/
def State.finish (s : State) (k status count step : Nat) : State :=
  if opBoundary (s.tset k).opcode then s.postLater k status count step else s.post k status count step

/-- Give a command its output: the bytes and their number (OUT_BYTES, R374, R375). -/
def State.output (s : State) (k : Nat) (m : Mem) (n : Nat) : State :=
  let t := s.tset k
  s.setTset k { t with output := m, outLen := n }

/-- Does a TAKEN command hold a snapshot (R30, R372)? Those that read flash do. -/
def TaskSet.holds (t : TaskSet) : Bool :=
  decide (t.life = .taken) && (decide (t.opcode = 0x10 ∨ t.opcode = 0x15) || opTableRun t.opcode
    || (decide (t.opcode = 0x16) && !bitOf (t.reg 1) 59)
    || (decide (t.opcode = 0x21) && decide (bits (t.reg 1) 61 59 = 3) && decide (bits (t.reg 1) 58 57 = 0))
    || (decide (t.opcode = 0x34) && decide (bits (t.reg 1) 63 61 ≠ 2)))

/-- Does a TAKEN command name a namespace (R384, R446)? A SEARCH names that of its index (08 R225). -/
def TaskSet.namesNs (t : TaskSet) : Bool :=
  decide (t.life = .taken) && ((decide (0x10 ≤ t.opcode ∧ t.opcode ≤ 0x16 ∧ t.opcode ≠ 0x14)
      && !(decide (t.opcode = 0x16) && bitOf (t.reg 1) 59))
    || (opTableRun t.opcode && decide (t.reg 7 ≠ 0)) || decide (t.opcode = 0x30) || decide (t.opcode = 0x34)
    || (decide (t.opcode = 0x21) && decide (bits (t.reg 1) 61 59 = 3) && decide (bits (t.reg 1) 58 57 = 0)))

/-- Free output space of a port in bytes (R375). -/
def State.outFree (s : State) (x : Nat) : Nat :=
  32768 * 1024 - ((List.range 64).map (fun i => (s.tset (x * 64 + i)).outSpace)).foldl (· + ·) 0

/-- Does a mask of squares meet another? -/
def meets (a b : Nat) : Bool := decide (Nat.land a b ≠ 0)

/-- A partition that is RUNNING or STOPPING. -/
def Partition.active (p : Partition) : Bool := decide (p.life = .running ∨ p.life = .stopping)

/-- A partition with a definition in force. -/
def Partition.committed (p : Partition) : Bool := decide (p.life ≠ .free)

/-- Is any partition RUNNING or STOPPING? -/
def State.anyActive (s : State) : Bool := (List.range 8).any (fun p => (s.part p).active)

/-- The move period of a partition in 10 ns units (R45). -/
def State.movePeriod (s : State) (p : Nat) : Nat := s.tickUnits * (s.part p).defn.divider

end Sys2Proof.Machine
end

