-- ==== Sys2Proof/Machine/Flags.lean ====
section
/-! DEFINITION. Status and flag values that follow from the state: context and bank status (02 R61, 03 R74), the device
status word (13 R335), media figures (08 R228, 09 R231, R239), debug paths (18 R449), the pins ALERT# and the
indicators (20 R485), and the value of every object as a read finds it. -/

namespace Sys2Proof.Machine

/-! ## Contexts and banks -/

/-- Is a batch step of the context pending or running (R61)? One that an error stopped runs until the teardown ends its
command (R68). -/
def State.ctxBusy (s : State) (p n : Nat) : Bool :=
  (match (s.seq p).run with
    | some r => decide (r.ctx.val = n)
    | none => false)
  || s.taken.any (fun k =>
    let t := s.tset k
    t.runsSteps && decide (t.partNo = p) && decide (t.ctxNo = n)
      && (decide (t.due = none ∧ t.begun < t.steps) || decide (t.due = some stTornDown)))

/-- CONTEXT_STATUS (R61). -/
def State.contextStatus (s : State) (p n : Nat) : Nat :=
  let c := s.ctx p n
  let h := c.table.active.data.num 0 64
  let st := match c.life with
    | .empty => 0
    | .loaded => if s.ctxBusy p n then 2 else 1
    | .faulted => 3
  if c.life = .empty then 0
  else field 2 30 st + field 2 28 c.owner.val
    + (if c.table.active.full then field 8 20 (bits h 425 418) + field 20 0 (bits h 445 426) else 0)

/-- Number of a shadow's state (R74). -/
def shadowNo : Shadow → Nat
  | .empty => 0
  | .loading => 1
  | .ready => 2
  | .armed => 3
  | .failed => 4
  | .retiring => 5

def sideNo (b : Bool) : Nat := if b then 1 else 0

/-- BANK_STATUS (R74). -/
def Context.bankStatus (c : Context) : Nat :=
  field 1 31 (sideNo c.table.side) + field 3 28 (shadowNo c.table.st) + field 8 20 c.loadResult.toNat
    + field 12 8 c.failStep.toNat + field 8 0 c.swaps.toNat

/-- KIND_STATUS (R74). -/
def Context.kindStatus (c : Context) : Nat :=
  field 3 16 c.lastKind.toNat
    + field 1 15 (sideNo c.tomb.side) + field 3 12 (shadowNo c.tomb.st)
    + field 1 11 (sideNo c.dist.side) + field 3 8 (shadowNo c.dist.st)
    + field 1 7 (sideNo c.sft.side) + field 3 4 (shadowNo c.sft.st)
    + field 1 3 (sideNo c.scales.side) + field 3 0 (shadowNo c.scales.st)

/-- DIST_BANKS (R74). -/
def Context.distBanks (c : Context) : Bytes :=
  bytesOf 8 (if c.dist.active.full then c.dist.active.addr else 0)
    ++ bytesOf 8 (if c.dist.shadow.full then c.dist.shadow.addr else 0)

/-! ## Media figures -/

/-- Sum and largest of the program/erase counts of the blocks that are not RETIRED. -/
def Media.peBlocks (m : Media) : Nat := max 1 (arrayBlocks - m.retired.length)
def Media.peSum (m : Media) : Nat :=
  ((m.pe.filter (fun e => decide (e.1 ∉ m.retired))).map Prod.snd).foldl (· + ·) (m.peBase * m.peBlocks)
def Media.peMax (m : Media) : Nat :=
  ((m.pe.filter (fun e => decide (e.1 ∈ m.retired))).map Prod.snd).foldl max
    (m.peBase + ((m.pe.filter (fun e => decide (e.1 ∉ m.retired))).map Prod.snd).foldl max 0)

/-- PCT_USED (R231). -/
def Media.pctUsed (m : Media) : Nat := min 255 (100 * m.peSum / (m.peBlocks * 1500))

/-- Namespace size in blocks. -/
def State.nsSize (s : State) (n : Nat) : Nat := s.gov (0x4100 + n) 1

/-- Blocks in no namespace (R228). -/
def State.unallocated (s : State) : Nat :=
  118111600640 - ((List.range 64).map (fun n => if (s.space n).life = .absent then 0 else s.nsSize n)).foldl (· + ·) 0

/-- The namespaces that the WALK steps of a move table read, as the descriptors that they name have them (11 R276, R287). -/
def State.walkSpaces (s : State) (b : Bank) : List Nat :=
  if !b.full then []
  else (List.range (tableSteps b)).filterMap (fun i =>
    let w := stepWord b i
    if bits w 255 250 = 0x13 then some (bits (s.fabric.mem.num (bits w 191 144) 128) 975 970) else none)

/-- The namespaces of the flash steps of a move table. -/
def Bank.flashSpaces (b : Bank) : List Nat :=
  if !b.full then []
  else (List.range (tableSteps b)).flatMap (fun i =>
    let w := stepWord b i
    let o := bits w 255 250
    if o = 0x10 ∧ bits w 191 190 = 0 then [bits w 186 181]
    else if o = 0x11 then [bits w 188 183]
    else if o = 0x12 ∧ !bitOf w 182 then [bits w 181 176]
    else [])

/-- The namespaces that the batch steps of a context can read (R225): those of its active table, of one that retires, and of
the table of its batch step in progress (03 R77). -/
def State.flashSpaces (s : State) (p n : Nat) : List Nat :=
  let t := (s.ctx p n).table
  let of := fun (b : Bank) => b.flashSpaces ++ s.walkSpaces b
  of t.active ++ (if t.st = .retiring then of t.shadow else [])
    ++ (match (s.seq p).run with
      | some r => if r.ctx.val = n then of r.table else []
      | none => [])

/-- The namespace that a context's index names (11 R276). -/
def State.indexSpaces (s : State) (p n : Nat) : List Nat :=
  match (s.ctx p n).index with
  | none => []
  | some i => [bits (numOf i.desc) 975 970]

/-- Does the command of a set hold a snapshot of namespace `ns` (R225)? An attach reads the namespace of the descriptor in its
input area. -/
def State.holdsSpace (s : State) (k ns : Nat) : Bool :=
  let t := s.tset k
  t.holds && (if opTableRun t.opcode then decide (ns ∈ s.flashSpaces t.partNo t.ctxNo)
    else if t.opcode = 0x34 ∧ bits (t.reg 1) 63 61 = 1 then decide (ns = bits (numOf (t.input.readBytes 0 128)) 975 970)
    else if t.opcode = 0x34 then decide (ns ∈ s.flashSpaces t.partNo t.ctxNo ++ s.indexSpaces t.partNo t.ctxNo)
    else decide (t.nsNo = ns))

/-- Stamps of the commands that hold namespace `ns`. -/
def State.holdersOf (s : State) (ns : Nat) : List Nat :=
  (s.taken.filter (fun k => s.holdsSpace k ns)).map (fun k => (s.tset k).stamp.toNat)

/-- Superseded versions of a block that a holder still sees (R37, R228): `newer` is the epoch of the next version. -/
def pinnedVers (stamps : List Nat) (newer : Nat) : List Ver → Nat
  | [] => 0
  | v :: vs => (if v.st = .mapped ∧ stamps.any (fun t => decide (v.epoch ≤ t ∧ t < newer)) then 1 else 0)
      + pinnedVers stamps v.epoch vs

/-- PINNED_UNITS (R228). -/
def State.pinnedUnits (s : State) : Nat :=
  ((s.media.spaces.map (fun e =>
    let st := s.holdersOf e.1
    (e.2.blocks.map (fun b => match b.2 with
      | [] => 0
      | v :: vs => pinnedVers st v.epoch vs)).foldl (· + ·) 0))).foldl (· + ·) 0

/-- NS_MAPPED (R228). -/
def Namespace.mapped (n : Namespace) : Nat :=
  n.blocks.countP (fun b => match b.2 with
    | [] => false
    | v :: _ => decide (v.st ≠ .unmapped))

/-- SECURE_DONE_EPOCH (R224): the latest boundary before which no accepted secure discard has a copy left to erase
(log 81). -/
def State.secureDone (s : State) : Nat :=
  if s.media.carried then 0
  else s.media.secure.foldl (fun m j => min m (j.epoch - 1)) s.tick

/-- Blocks that a sanitize has yet to erase: all but those erased since it began and the RETIRED ones. -/
def Media.eraseLeft (m : Media) (z : Sanitize) : Nat := arrayBlocks - m.retired.length - z.erased.length

/-- SANITIZE_STATE (R384). A crypto erase erases no block. -/
def Media.sanitizeState (m : Media) : Nat :=
  field 2 30 m.sanitized + (match m.sanitize with
    | some z => if z.crypto then 0 else field 16 0 (ceilDiv (m.eraseLeft z) 256)
    | none => 0)

/-- Is every condition of 17 R423 met: no I/O command is in progress, and the media are at rest? -/
def State.p4Ready (s : State) : Bool :=
  s.media.pieces.isEmpty && s.media.pending.isEmpty && !s.media.erasing.any (fun e => e.issued)
    && s.taken.all (fun k => !decide (0x10 ≤ (s.tset k).opcode ∧ (s.tset k).opcode ≤ 0x16))

/-! ## Spare rows (07 R188, R191) -/

/-- REMAP_USED of a stack, far stacks from 16. -/
def State.sparesUsed (s : State) (k : Nat) : Nat :=
  ((List.range 16).map (fun pc => (s.guard.remaps.get [] (k * 16 + pc)).length)).foldl (· + ·) 0

/-- REMAP_EXHAUSTED of a stack. -/
def State.sparesGone (s : State) (k : Nat) : Nat :=
  ((List.range 16).map (fun pc => if (s.guard.remaps.get [] (k * 16 + pc)).length = 8 then 2 ^ pc else 0)).foldl (· + ·) 0

/-! ## Debug paths (18 R449) -/

/-- Paths open in a life-cycle state without a token. -/
def openPaths : Nat → Nat
  | 0 => 0x7F
  | 1 => 0x05
  | 2 => 0x05
  | 3 => 0x7F
  | _ => 0x01

/-- Paths that a debug-unlock token can open in a state. -/
def tokenPaths : Nat → Nat
  | 1 => 0x1A
  | _ => 0

/-- DEBUG_STATE (R450). -/
def State.debugState (s : State) : Nat := Nat.lor (openPaths s.security.state) s.security.unlocked.toNat

/-- DEBUG_STATE as it reads: in P5 as it was last held before entry (14 R368). -/
def State.shownDebug (s : State) : Nat := if s.power.state = 5 then s.obj 0xA020 1 else s.debugState

/-! ## The running firmware image (17 R438, 18 R451) -/

/-- A firmware slot. -/
def Security.slot (x : Security) (n : Nat) : Slot := if n = 0 then x.slotA else x.slotB

/-- The bytes of a slot's image; a slot that nothing was downloaded into holds its image as shipped (log 7). -/
def Security.imageOf (x : Security) (n : Nat) : Bytes :=
  let z := x.slot n
  if z.len = 0 then Config.shippedImage n else z.image.readBytes 0 (min z.len (max 1152 (bits (z.image.num 0 1152) 1007 976)))

/-- The header of a slot's image, as a number (R451). -/
def Security.header (x : Security) (n : Nat) : Nat := (x.slot n).image.num 0 1152

/-- Does a byte of an image lie in an execute-only region that its header names (17 R438)? -/
def execOnly (header a : Nat) : Bool :=
  (List.range 16).any (fun i =>
    let first := bits header (632 + 16 * i + 15) (632 + 16 * i + 8)
    decide (first * 65536 ≤ a) && decide (a < (first + bits header (632 + 16 * i + 7) (632 + 16 * i)) * 65536))

/-- What a control core's data load of a byte of the running image returns (17 R438): zero in an execute-only region. -/
def State.coreLoad (s : State) (a : Nat) : Byte :=
  let x := s.security.imageOf (s.obj 0x7040 1)
  if execOnly (numOf (x.take 1152)) a then 0 else x.getD a 0

/-- A saturating count, from 0 at each start-up on, of what no command shows (log 17). -/
def State.sinceStart (s : State) (id : Nat) : Nat :=
  min (sumFrom (fun k => Config.counterStep k id) s.observe.begun s.free) (2 ^ 32 - 1)

/-- XO_VIOLATIONS (17 R438): how often the control cores' own programs have loaded from an execute-only region since the
start-up is free (log 88); an image that names none has no violation. -/
def State.xoViolations (s : State) : Nat :=
  if bits (numOf ((s.security.imageOf (s.obj 0x7040 1)).take 1152)) 887 632 = 0 then 0
  else s.sinceStart 0x10800

/-! ## Control-core trace (19 R472) -/

/-- Records that a control core has made since the last reset (19 R472). -/
def State.coreRecords (s : State) (c : Nat) : Nat :=
  let o := s.observe
  o.coreCount.get 0 c + (if o.coreDraw.has c then sumFrom (Config.coreStep c) (o.coreDraw.get 0 c) s.free else 0)

/-- Records that the ring of a control core holds. -/
def coreRing : Nat := 65536

/-! ## The value of a numeric object, as a read finds it -/

/-- POWER_STATE (R441): 5 while RESET# holds the module in reset (R432). -/
def State.powerState (s : State) : Nat := if s.power.resetLow then 5 else s.power.state

/-- FREEZE_STATE (R476). -/
def Observe.freezeState (o : Observe) : Nat := if o.frozen then 2 else if o.armed ≠ 0 then 1 else 0

/-- FREEZE_EPOCH (15 R378): the boundary at which the oldest bit in force was set; 0 while none is. -/
def PortSt.freezeEpoch (v : PortSt) : Nat :=
  match (bitsSet v.freeze.toNat 10).map (fun n => v.freezeAt.get 0 n) with
  | [] => 0
  | e :: es => es.foldl min e

/-- Objects of the ports. -/
def State.portObj (s : State) (x sub idx : Nat) : Option Nat :=
  let v := s.port x
  if idx = 0x1110 then
    (if sub = 1 then some (linkNo v.life)
     else if sub = 2 then some v.node.toNat
     else if sub = 3 then some v.host.toNat
     else if sub = 0x11 then some (Config.sensed s.free).toNat
     else none)
  else if idx = 0x1400 then (if 1 ≤ sub ∧ sub ≤ 64 then some (match (s.tset (x * 64 + (sub - 1))).life with
      | .idle => 0
      | .written => 1
      | .taken => 2
      | .done => 3) else none)
  else if idx = 0x1410 then (if sub = 1 then some v.db.toNat else none)
  else if idx = 0x1420 then (if sub = 1 then some v.freeze.toNat else if sub = 2 then some v.freezeEpoch else none)
  else if idx = 0x1430 then some (s.outFree x / 1024)
  else none

/-- Objects of partitions and contexts. -/
def State.partObj (s : State) (p sub idx : Nat) : Option Nat :=
  let c := s.ctx p (sub - 1)
  if idx = 0x2010 then (if sub = 0x11 then some (lifeNo (s.part p).life) else none)
  else if idx = 0x2030 then some (s.contextStatus p (sub - 1))
  else if idx = 0x2040 then some c.bankStatus
  else if idx = 0x2048 then some c.activeEpoch.toNat
  else if idx = 0x2058 then some c.lastMark.toNat
  else if idx = 0x2060 then some c.kindStatus
  else if idx = 0x6810 then some c.refitStep.toNat
  else none

/-- Objects of media. -/
def State.mediaObj (s : State) (idx sub : Nat) : Option Nat :=
  let m := s.media
  if idx = 0x4000 then (if sub = 2 then some s.unallocated
    else if sub = 3 then some ((List.range 64).countP (fun n => decide ((s.space n).life = .active))) else none)
  else if idx = 0x4020 then
    (if sub = 2 then some (s.taken.countP (fun k => (s.tset k).holds))
     else if sub = 3 then some ((s.taken.filter (fun k => (s.tset k).holds)).foldl (fun o k => match o with
       | none => some (s.tset k).stamp.toNat
       | some v => some (min v (s.tset k).stamp.toNat)) (none : Option Nat) |>.getD 0)
     else if sub = 4 then some s.pinnedUnits else none)
  else if idx = 0x4030 then (if sub = 1 then some (m.secure.flatMap SecureJob.units).eraseDups.length
    else if sub = 2 then some s.secureDone else none)
  else if idx = 0x4050 then (if sub = 1 then some (m.bands.countP (fun b => decide (b.life = .opened)))
    else if sub = 2 then some (m.bands.countP (fun b => decide (b.life = .closed))) else none)
  else if idx = 0x4060 then (if sub = 1 then some m.pctUsed else if sub = 8 then some (m.peSum / m.peBlocks)
    else if sub = 9 then some m.peMax else if sub = 0x0A then some m.freeBlocks else none)
  else if idx = 0x4080 then (if sub = 5 then some m.active else none)
  else if idx = 0x4090 then some m.sanitizeState
  else if 0x4100 ≤ idx ∧ idx < 0x4140 then
    (if sub = 4 then some (match (s.space (idx - 0x4100)).life with
      | .absent => 0
      | .active => if s.dict.ctl.any (fun c => decide (c.idx = idx ∧ c.sub = 3 ∧ c.value = 2)) then 2 else 1)
     else if sub = 6 then some (s.space (idx - 0x4100)).mapped else none)
  else none

/-- Remaining objects; CF_CORRECTED counts corrected lines in reads of the firmware bank that no row shows (log 17). -/
def State.moduleObj (s : State) (idx sub : Nat) : Option Nat :=
  if idx = 0x1000 ∧ sub = 9 then some s.power.ids.toNat
  else if 0x3010 ≤ idx ∧ idx < 0x3028 ∧ sub = 6 then some (s.sparesUsed (idx - 0x3010))
  else if 0x3010 ≤ idx ∧ idx < 0x3028 ∧ sub = 7 then some (s.sparesGone (idx - 0x3010))
  else if idx = 0x2001 then some s.clock.epoch.toNat
  else if idx = 0x7000 ∧ sub = 1 then some s.powerState
  else if idx = 0x7010 ∧ sub = 0x0B then some (if s.power.tripped then 1 else 0)
  else if idx = 0x7030 ∧ sub = 1 then some s.power.stage
  else if idx = 0x7030 ∧ sub = 2 then some s.power.source
  else if idx = 0x7040 ∧ sub = 3 then some s.xoViolations
  else if idx = 0x7040 ∧ sub = 4 then some (s.sinceStart 0x10900)
  else if idx = 0x8000 ∧ sub = 1 then some s.errors.next.toNat
  else if idx = 0x8000 ∧ sub = 4 then some s.errors.device
  else if idx = 0x9000 ∧ sub = 6 then some (s.counterNow (s.obj 0x9000 5))
  else if idx = 0x9001 ∧ sub = 5 then some s.observe.freezeState
  else if 0x9040 ≤ idx ∧ idx < 0x9048 ∧ sub = 3 then some (s.coreRecords (idx - 0x9040) - coreRing)
  else if idx = 0x9050 ∧ sub = 2 then some s.hold
  else if idx = 0xA000 ∧ sub = 1 then some s.security.state
  else if idx = 0xA000 ∧ sub = 7 then some (31 - s.security.words.length)
  else if idx = 0xA020 then some s.shownDebug
  else if idx = 0xA030 ∧ sub = 1 then some (s.security.floors.getLastD 0)
  else if idx = 0xA030 ∧ sub = 3 then some s.security.revoked
  else if idx = 0xA030 ∧ sub = 4 then some (64 - s.security.floors.length)
  else none

/-- The value of a numeric object now: computed where it follows from the state, stored otherwise. -/
def State.valueOf (s : State) (idx sub : Nat) : Nat :=
  let o :=
    if 0x1110 ≤ idx ∧ idx < 0x1114 then s.portObj (idx - 0x1110) sub 0x1110
    else if 0x1400 ≤ idx ∧ idx < 0x1404 then s.portObj (idx - 0x1400) sub 0x1400
    else if 0x1410 ≤ idx ∧ idx < 0x1414 then s.portObj (idx - 0x1410) sub 0x1410
    else if 0x1420 ≤ idx ∧ idx < 0x1424 then s.portObj (idx - 0x1420) sub 0x1420
    else if 0x1430 ≤ idx ∧ idx < 0x1434 then s.portObj (idx - 0x1430) sub 0x1430
    else if 0x2010 ≤ idx ∧ idx < 0x2018 then s.partObj (idx - 0x2010) sub 0x2010
    else if 0x2030 ≤ idx ∧ idx < 0x2038 then s.partObj (idx - 0x2030) sub 0x2030
    else if 0x2040 ≤ idx ∧ idx < 0x2048 then s.partObj (idx - 0x2040) sub 0x2040
    else if 0x2048 ≤ idx ∧ idx < 0x2050 then s.partObj (idx - 0x2048) sub 0x2048
    else if 0x2058 ≤ idx ∧ idx < 0x2060 then s.partObj (idx - 0x2058) sub 0x2058
    else if 0x2060 ≤ idx ∧ idx < 0x2068 then s.partObj (idx - 0x2060) sub 0x2060
    else if 0x6810 ≤ idx ∧ idx < 0x6818 then s.partObj (idx - 0x6810) sub 0x6810
    else if 0x4000 ≤ idx ∧ idx < 0x4140 then s.mediaObj idx sub
    else s.moduleObj idx sub
  match o with
  | some v => v
  | none => s.obj idx sub

/-! ## Error records as bytes (16 R403) -/

def recStateNo : RecState → Nat
  | .queued => 0
  | .handling => 1
  | .done => 2
  | .absorbed => 3

/-- The 64 bytes of a record (R403). -/
def Rec.image (r : Rec) : Bytes :=
  let p := r.rep
  bytesOf 64 (field 32 480 r.seq.toNat + field 64 416 r.epoch.toNat + field 64 352 r.time.toNat
    + field 3 349 p.severity.toNat + field 2 347 (recStateNo r.st) + field 1 346 (if r.escalated then 1 else 0)
    + field 1 345 (if r.persisted then 1 else 0) + field 4 336 p.sourceKind.toNat + field 8 328 p.sourceId.toNat
    + field 8 320 p.subId.toNat + field 16 304 p.cause.toNat + field 16 288 p.status.toNat
    + field 3 285 p.part.val + field 4 281 p.ctx.val + field 1 280 (if p.partValid then 1 else 0)
    + field 2 278 p.port.val + field 1 277 (if p.portValid then 1 else 0) + field 12 265 p.step.toNat
    + field 32 233 r.related.toNat + field 64 128 p.address.toNat + field 128 0 p.detail.toNat)

/-! ## Strings and domains as a read finds them -/

/-- VENDOR, PRODUCT, ORDER_CODE and SERIAL (R1, R365; a Saffron module, whose SERIAL is log 3's). -/
def vendorText : Bytes := ascii ['K', 'o', 'l', 'n', 'i', 'a', 'x']
def productText : Bytes := ascii ['V', 'i', 'u', 'n', 'e']
def orderText : Bytes := ascii ['K', 'X', '-', 'V', '4', '8', 'S', '-', '4', '4', '0', 'L']
def serialText : Bytes := List.replicate 16 48

/-- Names of a lane die's first counters with their unit codes: 0 events, 1 cycles, 2 slots, 3 bytes (19 R461, R465; log 16). -/
def laneCounters : List (String × Nat) :=
  [("CYCLES", 1), ("IDLE_CYCLES", 1), ("RETIRED_4", 2), ("RETIRED_8", 2), ("RETIRED_16", 2), ("RETIRED_32", 2), ("WASTED", 2),
    ("STARVED_FRONT", 2), ("STARVED_BACK", 2), ("ZERO_GATED", 2), ("SATURATIONS", 0), ("NAN_TO_INT", 0), ("FORMAT_CLASHES", 0)]
  ++ [("GS4_NAN_GROUPS", 0), ("ZERO_COLUMNS", 0), ("CORRECTED", 0), ("SF0_BUSY", 1), ("SF1_BUSY", 1), ("SF2_BUSY", 1),
    ("SF3_BUSY", 1), ("CU0_BUSY", 1), ("CU1_BUSY", 1), ("LINK_IN_BYTES", 3), ("LINK_OUT_BYTES", 3)]

/-- SINGLE_INFO of a counter (19 R465): its name in ASCII, zero-padded, its unit code, and zeros. A name that R461 does not list
is free, and so is the unit of such a counter, but for the slots of a lane group (log 16). -/
def counterInfo (id : Nat) : Bytes :=
  let free := (Config.counterName id).map (fun b => BitVec.ofNat 8 (0x20 + b.toNat % 0x5F))
  let d : Bytes × Nat := if 6144 ≤ id then (free, Config.counterUnit id % 4)
    else match laneCounters[id % 128]? with
    | some e => (ascii e.1.toList, e.2)
    | none => (free, if id % 128 < 56 then 2 else Config.counterUnit id % 4)
  padTo 64 (padTo 32 d.1 ++ bytesOf 1 d.2)

/-- Record `i` of a control core: TIME, source and target offset, kind 0 to 2. -/
def State.coreRecord (s : State) (c i : Nat) : Bytes :=
  let r := Config.coreTrace c s.observe.born i
  bytesOf 16 (field 64 64 r.1.toNat + field 24 40 r.2.1.toNat + field 24 16 r.2.2.1.toNat + field 8 8 r.2.2.2.val)

/-- CC_TRACE: the newest records, the oldest of them first (19 R472). -/
def State.coreTraceBytes (s : State) (c : Nat) : Bytes :=
  let n := s.coreRecords c
  (List.range (min n coreRing)).flatMap (fun i => s.coreRecord c (n - min n coreRing + i))

/-- The value of a string or domain now. -/
def State.bytesNow (s : State) (idx sub : Nat) : Bytes :=
  if idx = 0x1000 ∧ sub = 1 then vendorText
  else if idx = 0x1000 ∧ sub = 2 then productText
  else if idx = 0x1000 ∧ sub = 3 then orderText
  else if idx = 0x1000 ∧ sub = 4 then serialText
  else if 0x2068 ≤ idx ∧ idx < 0x2070 then (s.ctx (idx - 0x2068) (sub - 1)).distBanks
  else if idx = 0x8010 then (match s.errors.ring.find? (fun e => decide (e.1 = sub - 1)) with
    | some e => e.2.image
    | none => List.replicate 64 0)
  else if idx = 0x9000 ∧ sub = 2 then (match s.observe.pass with
    | some _ => s.observe.passed.flatMap (bytesOf 16)
    | none => s.dom idx sub)
  else if idx = 0x9000 ∧ sub = 7 then counterInfo (s.obj 0x9000 5)
  else if 0x9040 ≤ idx ∧ idx < 0x9048 ∧ sub = 2 then s.coreTraceBytes (idx - 0x9040)
  else if idx = 0xA000 ∧ sub = 2 then bytesOf 32 (Config.nonce s.security.nonceDraw).toNat
  else if idx = 0xA010 ∧ sub = 1 then (match s.security.idWord with
    | some k => (Config.deviceCert k).take 4096
    | none => [])
  else if idx = 0xA010 ∧ sub = 2 then (match s.security.identity with
    | some k => padTo 512 (Config.identityModulus k)
    | none => List.replicate 512 0)
  else match findObj idx sub with
    | some d => if d.fixed then padTo d.size (s.dom idx sub) else s.dom idx sub
    | none => []

/-- The bytes of an object's value, and its type and access, if it exists. -/
def State.image (s : State) (d : ObjDef) (idx sub : Nat) : Bytes :=
  if sub = 0 then bytesOf 1 (highSub idx)
  else if d.isBytes then s.bytesNow idx sub
  else bytesOf d.size (s.valueOf idx sub)

/-! ## The status word (13 R335) -/

/-- Status-word bits cleared by an ATTN_ACK value. -/
def ackMask (v : Nat) : Nat :=
  (if bitOf v 5 then 2 ^ 13 else 0) + (if bitOf v 3 then 2 ^ 11 else 0) + (if bitOf v 2 then 2 ^ 10 else 0)
    + (if bitOf v 1 then 2 ^ 9 else 0) + (if bitOf v 0 then 2 ^ 8 else 0)

/-- Clear acknowledged bits; ATTN follows the bits that remain (R335). -/
def clearWord (w v : Nat) : Nat :=
  let w := Nat.land w (0xFFFF - ackMask v)
  setBit w 15 (decide (bits w 14 8 ≠ 0))

/-- The word of a port from the tick's events: `frozen` says that a freeze cause set a bit at this boundary. -/
def State.wordNow (s : State) (x : Nat) (froze : Bool) : Nat :=
  let v := s.port x
  let e := s.errors
  let old := v.word.toNat
  let pend := Nat.land v.db.toNat (0xFFFFFFFF - s.gov (0x1410 + x) 2)
  let w := old
  let w := setBit w 14 (decide (v.freeze ≠ 0))
  let w := if v.evTaken then setBit w 13 true else w
  let w := setBit w 12 (decide (pend ≠ 0))
  let w := if e.evLog then setBit w 11 true else w
  let w := if e.evTherm then setBit w 10 true else w
  let w := if e.evMedia then setBit w 9 true else w
  let w := if e.evLife then setBit w 8 true else w
  let w := setBit w 15 (decide (bits w 14 8 ≠ 0))
  let event := froze || v.evTaken || v.evDb || e.evLog || e.evTherm || e.evMedia || e.evLife
  let seq := (bits old 3 0 + (if event then 1 else 0)) % 16
  bits w 15 8 * 256 + field 4 4 s.powerState + seq

/-- ALERT# rises with the THERM and LIFE conditions, and when the power state changes (14 R369). -/
def State.alertNow (s : State) (before : Nat) : State :=
  if s.errors.evTherm || s.errors.evLife || decide (before ≠ s.powerState) then
    s.setPower { s.power with alert := true } else s

/-! ## Indicators (20 R485) -/

/-- An indicator. -/
inductive Led where
  | off
  | lit
  | blink1Hz
  | blink2Hz
  deriving DecidableEq, Repr

def State.ledFault (s : State) : Led :=
  if s.power.tripped || decide (s.errors.device ≠ 0) || s.power.bootHeld then .lit
  else if s.media.readOnly || decide (3 ≤ s.security.state) then .blink1Hz
  else .off

def State.ledAct (s : State) : Led :=
  if !s.clock.running || decide (s.hold ≠ 0) then .blink2Hz
  else if !s.taken.isEmpty || (List.range 8).any (fun p => decide ((s.part p).life = .running)) then .lit
  else .off

end Sys2Proof.Machine
end

