-- ==== Sys2Proof/Machine/Bands.lean ====
section
/-! DEFINITION. Units, blocks and bands (08 R198 to R201), the places that writes take in them, and the segment cache
with the upper map entries (08 R202, R204, R205, R208). -/

namespace Sys2Proof.Machine

/-! ## Units, blocks and bands -/

/-- Page of a unit in its block (R202). -/
def unitPage (u : BitVec 37) : Nat := bits u.toNat 13 4

def Media.band (m : Media) (number : Nat) : Option Band := m.bands.find? (fun b => decide (b.number = number))

/-- Change the band of a number. -/
def Media.updBand (m : Media) (number : Nat) (f : Band → Band) : Media :=
  { m with bands := m.bands.map (fun b => if b.number = number then f b else b) }

/-- Key of the map segment of a logical block (R202): its region of 256 blocks. -/
def regionKey (ns lba : Nat) : Nat := ns * 2 ^ 29 + lba / 256

/-- The regions of a range of blocks, with the blocks taken from each: region, first block, number. -/
def regionsOf (lo n : Nat) : List (Nat × Nat × Nat) :=
  if n = 0 then [] else
  (List.range ((lo + n - 1) / 256 - lo / 256 + 1)).map (fun i =>
    let r := lo / 256 + i
    let a := max lo (256 * r)
    (r, a, min (lo + n) (256 * r + 256) - a))

/-- Number of the die that lane `lane` has on its channel `i`, as channel * 16 + die (R200). -/
def laneDie (lane i : Nat) : Nat := (lane / 16 + 4 * i) * 16 + lane % 16

/-- The dies of a band that hold data (R200). -/
def Band.dataDies (b : Band) : List Nat := (List.range 32).filter (fun i => decide (i ≠ b.parity) && (b.blockOf i).isSome)

/-- Units that a band can hold (R200). -/
def Band.capacity (b : Band) : Nat := b.dataDies.length * 16384

/-- A band with its last row padded (R217, R223, R240): its places in that row are taken. -/
def Band.pad (b : Band) : Band :=
  { b with used := ceilDiv b.used (16 * max 1 b.dataDies.length) * (16 * max 1 b.dataDies.length) }

/-- Rows of a band that its units have reached. -/
def Band.rowsUsed (b : Band) : Nat := ceilDiv b.used (16 * max 1 b.dataDies.length)

/-- The write buffer flushed (R217): its pieces are on flash with the open bands' parity, and the last rows are padded. -/
def Media.flushed (m : Media) : Media :=
  { m with pieces := [], segUnit := none, badCopies := [], badData := [], bands := m.bands.map (fun b => if b.life = .opened then b.pad else b) }

/-- The unit of draw `k` at place `i` of a band: rows fill in turn (R201), and its die and its place in the page are free
values (log 11). -/
def Band.unit (b : Band) (i k : Nat) : BitVec 37 :=
  let raw := (Config.place k).toNat
  let ds := b.dataDies
  match b.blockOf (ds.getD (raw / 16384 % max 1 ds.length) 0) with
  | some n => BitVec.ofNat 37 (n * 16384 + i / (16 * max 1 ds.length) % 1024 * 16 + raw % 16)
  | none => Config.place k

/-- Is a block in a band, in erasure or RETIRED, that is not FREE (R230)? -/
def Media.inUse (m : Media) (block : Nat) : Bool :=
  m.bands.any (fun b => decide (block ∈ b.blocks)) || m.erasing.any (fun e => decide (e.block = block))
    || decide (block ∈ m.retired)

/-- The FREE block that a die gives: the lowest program/erase count, ties to the lower number; 4,096 for none (R230). -/
def Media.freeOn (m : Media) (die : Nat) : Nat :=
  if die ∈ m.deadDies then 4096
  else ((List.range 4096).foldl (fun (best : Nat × Nat) k =>
    let n := m.pe.get 0 (die * 4096 + k)
    if m.inUse (die * 4096 + k) || (decide (best.1 ≠ 4096) && decide (best.2 ≤ n)) then best else (k, n)) (4096, 0)).1

/-- Mean of the temperatures of a lane's 32 dies as band `number` is opened (R218), rounded down (log 47). -/
def laneTemp (number lane : Nat) : Int :=
  ((List.range 32).map (fun i => Config.openTemp number (laneDie lane i))).foldl (· + ·) 0 / 32

/-- The parity die of a new band: that of R200, or the next one of the lane that gives a block, where that die is gone
(09 R235; DESIGN CHOICE, log 40). -/
def parityOf (number : Nat) (blks : List Nat) : Nat :=
  (((List.range 32).map (fun j => (number + j) % 32)).find? (fun i => decide (blks.getD i 4096 < 4096))).getD (number % 32)

/-- Open a band in a lane (R200, R218). -/
def Media.openBand (m : Media) (lane now : Nat) : Media :=
  let blks := (List.range 32).map (fun i => m.freeOn (laneDie lane i))
  { m with
    bands := m.bands ++ [⟨m.bandNo, lane, blks, parityOf m.bandNo blks, .opened, now, 0, none, laneTemp m.bandNo lane, 0, 0, [], [], 0, []⟩]
    bandNo := m.bandNo + 1 }

/-- Close a band and open the lane's next one, unless the module is read-only or the lane has an open band (R201, R216, R240). -/
def Media.closeBand (m : Media) (b : Band) (now : Nat) : Media :=
  let m := m.updBand b.number (fun x => { x with life := .closed })
  if m.readOnly || m.bands.any (fun x => decide (x.life = .opened ∧ x.lane = b.lane)) then m else m.openBand b.lane now

/-- Does a piece in the write buffer have units of a band that may not be programmed yet (R212)? -/
def Media.drains (m : Media) (number : Nat) : Bool := m.pieces.any (fun p => decide (number ∈ p.bands))

/-- Do 64 closed bands wait for verification, which then runs ahead of garbage collection (R216)? -/
def Media.verifyFirst (m : Media) : Bool := decide (64 ≤ m.bands.countP (fun b => decide (b.life = .closed)))

/-- Close every open band whose last row has been programmed (R216, R230): it is full, and none of its pieces waits in the
write buffer. At most 64 closed bands wait at once. -/
def Media.closeFull (m : Media) (now : Nat) : Media :=
  (m.bands.filter (fun b => decide (b.life = .opened) && decide (b.capacity ≤ b.used) && !m.drains b.number)).foldl
    (fun m b => if m.verifyFirst then m else m.closeBand b now) m

/-- The open band that the next piece goes to: the lanes take turns, and one whose open band is full is passed over
(R201). -/
def Media.nextBand (m : Media) : Option Band :=
  ((List.range 64).map (fun i => (m.lane + i) % 64)).findSome? (fun l =>
    m.bands.find? (fun b => decide (b.life = .opened) && decide (b.lane = l) && decide (b.used < b.capacity)))

/-- Units that the open bands can take. -/
def Media.room (m : Media) : Nat :=
  ((m.bands.filter (fun b => decide (b.life = .opened))).map (fun b => b.capacity - b.used)).foldl (· + ·) 0

/-- Have the open bands room for a write of `n` units (R216)? While 64 closed bands wait and the open bands are full, they have
none: the write then waits for a verification (DESIGN CHOICE, log 95). -/
def Media.hasRoom (m : Media) (now n : Nat) : Bool := decide (n ≤ (m.closeFull now).room)

/-- The open band that the next units go to. Where none has room, one is opened: in read-only for metadata and for pages that are
rebuilt (R240), and for the module's own copies, rebuilt pages and map segments while 64 closed bands wait (DESIGN CHOICE, log 95). -/
def Media.ready (m : Media) (now : Nat) : Media := if m.nextBand.isNone then m.openBand m.lane now else m

/-- Place `n` units, of draws from `k` on, in the open band whose turn it is, and what it cannot hold in the next one (R200,
R201). The second part is the band and the unit of each. Only where no die of the lane has a FREE block left is a unit's place
free (log 95). -/
def Media.placeUnits (now : Nat) : Nat → Media → Nat → Nat → Media × List (Nat × BitVec 37)
  | 0, m, k, n => (m, (List.range n).map (fun j => (m.bandNo, Config.place (k + j))))
  | fuel + 1, m, k, n =>
    if n = 0 then (m, [])
    else
      let m := m.ready now
      match m.nextBand with
      | none => (m, (List.range n).map (fun j => (m.bandNo, Config.place (k + j))))
      | some b =>
        let g := min n (b.capacity - b.used)
        let us := (List.range g).map (fun j => (b.number, b.unit (b.used + j) (k + j)))
        let m := { m.updBand b.number (fun x => { x with used := x.used + g }) with lane := (b.lane + 1) % 64 }
        let r := Media.placeUnits now fuel m (k + g) (n - g)
        (r.1, us ++ r.2)

/-- Place a piece of `n` units (R201): draws are numbered by the atomic group. -/
def Media.place (m : Media) (now n : Nat) : Media × List (Nat × BitVec 37) :=
  let r := (m.closeFull now).placeUnits now 65 (m.groups * 64) n
  ({ r.1 with groups := r.1.groups + 1 }, r.2)

/-- Place `n` units (R201). The second part is the band and the unit of each. -/
def State.placePiece (s : State) (n : Nat) : State × List (Nat × BitVec 37) :=
  let r := s.media.place s.clock.now n
  (s.setMedia r.1, r.2)

/-- Units of 4 KiB in a piece. -/
def pieceBlocks : Nat := 64

/-- Place `n` units in pieces of up to 64 (R201). -/
def State.placeMany (s : State) : Nat → Nat → State × List (Nat × BitVec 37)
  | 0, _ => (s, [])
  | fuel + 1, n =>
    if n = 0 then (s, [])
    else
      let a := s.placePiece (min n pieceBlocks)
      let b := State.placeMany a.1 fuel (n - min n pieceBlocks)
      (b.1, a.2 ++ b.2)

/-- An operation on a die suspends the erase that is running there, but for its hold (09 R233). -/
def Media.suspend (m : Media) (die : Nat) : Media :=
  { m with erasing := m.erasing.map (fun e => if e.issued ∧ e.block / 4096 = die then { e with suspended := true } else e) }

/-! ## Reads of units (R218, R219, R221; 09 R230, R233, R236) -/

/-- A day in units of 10 ns. -/
def dayUnits : Nat := 8640000000000

/-- Age of a band in units of 10 ns (R218, R221). -/
def Band.age (b : Band) (now : Nat) : Nat := now - b.opened + b.aged + b.allow.getD 0

/-- Age of a band in days. -/
def Band.days (b : Band) (now : Nat) : Nat := b.age now / dayUnits

/-- The threshold set that age, wear and temperature ask for, without the learned offset (R218): 3a + p + c. -/
def State.readBias (s : State) (b : Band) (block : Nat) : Int :=
  let d := b.days s.clock.now
  let a : Int := if d < 1 then 0 else if d < 7 then 1 else if d < 30 then 2 else 3
  let n := s.media.peBase + s.media.pe.get 0 block
  let p : Int := if n < 500 then 0 else if n < 1000 then 1 else 2
  let c : Int := if 3000 < (Config.readTemp s.free (block / 4096) - b.temp).natAbs then 1 else 0
  3 * a + p + c

/-- The primary set of a read. -/
def primarySet (bias offset : Int) : Nat := (min 15 (max 0 (bias + offset))).toNat

/-- How many sets are tried before set `v` decodes: from the primary set up, then down from below it (R219). -/
def depthOf (primary v : Nat) : Nat := if primary ≤ v then v - primary + 1 else 16 - v

/-- The set that is tried as the `n`-th from a primary set. -/
def setAt (primary n : Nat) : Nat := if primary + n ≤ 16 then primary + n - 1 else 16 - n

/-- Does the unit that decoded at set `good`, tried first at set `first`, leave its block no margin (09 R236)? It
needed set 15, or set 0 after every other set had failed (DEDUCED, log 83). -/
def noMargin (first good : Nat) : Bool := decide (good = 15) || (decide (good = 0) && decide (first ≠ 0))

/-- A block is read `n` times: its reads since its erase count (09 R230), and an erase of its die is suspended (09 R233). -/
def State.touchBlock (s : State) (k n : Nat) : State :=
  s.setMedia (({ s.media with reads := s.media.reads.upd 0 k (· + n) } : Media).suspend (k / 4096))

/-- A unit of a block of a band is read with set `good` the one that decodes, where the primary set and the set are given by
`f`: each set tried is a read of the block (09 R230), an erase of its die is suspended (09 R233), the sets tried are counted and
the offset learned (R219), and a block of a verified band that is left without margin is to be retired (09 R236). The second
part is the number of channel slots: one for each set tried. -/
def State.readBlockAt (s : State) (b : Option Band) (k : Nat) (f : Nat → Nat) : State × Nat :=
  match b with
  | none => (s.touchBlock k 1, 1)
  | some b =>
    let bias := s.readBias b k
    let first := primarySet bias b.offset
    let good := f first
    let n := depthOf first good
    let s := s.touchBlock k n
    let s := (s.draw.bump 0x4070 n 1).bump 0x4040 3 (n - 1)
    let m := s.media
    let m := if (b.life = .verified ∨ b.life = .victim) ∧ noMargin first good ∧ k ∉ m.doomed then { m with doomed := m.doomed ++ [k] } else m
    (s.setMedia (if good = first then m else m.updBand b.number (fun x => { x with offset := (good : Int) - bias })), n)

/-- The set that decodes is the array's, a free value (log 17). -/
def State.decodes (s : State) (_first : Nat) : Nat := (Config.decodeSet s.free).val

/-- The unit of a version is read. -/
def State.readUnit (s : State) (v : Ver) : State × Nat :=
  s.readBlockAt (s.media.band v.band) (unitBlock v.unit) s.decodes

/-- A unit of a block is read, whichever band the block is in. -/
def State.readIn (s : State) (k : Nat) : State × Nat :=
  s.readBlockAt (s.media.bands.find? (fun b => decide (k ∈ b.blocks))) k s.decodes

/-- The time in ns of `n` transfers of a unit over a channel, 1.3 us each (08; 11 R301's example). -/
def channelTime (n : Nat) : Nat := 1300 * n

/-! ## Upper entries and the segment cache (R202, R204, R205, R208) -/

/-- The upper entry of a segment in flash. -/
def upperEntry (slot : Nat) (u : BitVec 37) : BitVec 64 := BitVec.ofNat 64 (field 2 62 1 + field 2 60 slot + field 37 23 u.toNat)

/-- Its unit. -/
def upperUnit (e : BitVec 64) : BitVec 37 := BitVec.ofNat 37 (bits e.toNat 59 23)

/-- The place of the next map segment that is written: three share a unit (R202). The unit of the last one has places left while
it lies in an open band; else a new unit is placed (R201). -/
def Media.segPlace (m : Media) (now : Nat) : Media × BitVec 37 × Nat :=
  match m.segUnit with
  | some (u, n) =>
    if n < 3 ∧ m.bands.any (fun b => decide (b.life = .opened ∧ unitBlock u ∈ b.blocks)) then ({ m with segUnit := some (u, n + 1) }, u, n)
    else let r := m.place now 1; ({ r.1 with segUnit := some ((r.2.headD (0, 0)).2, 1) }, (r.2.headD (0, 0)).2, 0)
  | none => let r := m.place now 1; ({ r.1 with segUnit := some ((r.2.headD (0, 0)).2, 1) }, (r.2.headD (0, 0)).2, 0)

/-- Write a changed segment back: it is placed in an open band, and its upper entry names the place (R201, R202, R205). -/
def Media.writeBack (m : Media) (now key : Nat) : Media :=
  let r := m.segPlace now
  { r.1 with
    upper := r.1.upper.set key (upperEntry r.2.2 r.2.1)
    badSegs := r.1.badSegs.filter (fun k => decide (k ≠ key))
    dirty := r.1.dirty.filter (fun k => decide (k ≠ key)) }

/-- Write the whole map back, with a checkpoint (R205; 17 R423). -/
def Media.writeAll (m : Media) (now tick : Nat) : Media :=
  { m.dirty.foldl (fun m k => m.writeBack now k) m with dirty := [], ckptEpoch := tick }

/-- Slots of the segment cache (R204). -/
def segSlots : Nat := 11534336

/-- Load a segment into the cache. The slot's segment before it is written back if it has changed (R205). -/
def Media.load (m : Media) (now draw key : Nat) : Media :=
  let out := match (m.cache.filter (Config.displaces draw)).take 1 with
    | [] => if m.cache.length < segSlots then [] else m.cache.take 1
    | l => l
  let m := (out.filter (fun k => decide (k ∈ m.dirty))).foldl (fun m k => m.writeBack now k) m
  { m with cache := m.cache.filter (fun k => decide (k ∉ out)) ++ [key] }

/-- A segment is read from flash into the cache (R204, R208): a miss, and the read of its unit, with the channel slots of the
sets that it tries (R219). -/
def State.missed (s : State) (key : Nat) : State × Nat :=
  let r := s.readIn (unitBlock (upperUnit (s.media.upper.get 0 key)))
  (((r.1.setMedia (r.1.media.load r.1.clock.now r.1.free key)).draw).bump 0x4010 3 1, r.2)

/-- A segment that changes is in the cache, to be written back (R205). -/
def State.soil (s : State) (key : Nat) : State :=
  let s := if key ∈ s.media.cache then s
    else if s.media.upper.has key then (s.missed key).1
    else (s.setMedia (s.media.load s.clock.now s.free key)).draw
  s.setMedia { s.media with dirty := if key ∈ s.media.dirty then s.media.dirty else s.media.dirty ++ [key] }

/-- Look a segment up (R204, R208): a miss reads it from flash, one unit and one channel slot for each set tried. A region
never written has no segment to read (R202). The second part is the number of channel slots. -/
def State.lookup (s : State) (key : Nat) : State × Nat :=
  if key ∈ s.media.cache then ((s.setMedia (s.media.readSlot (Config.segSlot key % segSlots))).bump 0x4010 2 1, 0)
  else if s.media.upper.has key then s.missed key
  else (s, 0)

/-- Look the segments of a range of blocks up. -/
def State.lookups (s : State) (ns lo n : Nat) : State × Nat :=
  (regionsOf lo n).foldl (fun a r =>
    let b := a.1.lookup (ns * 2 ^ 29 + r.1)
    (b.1, a.2 + b.2)) (s, 0)

end Sys2Proof.Machine
end

