-- ==== Sys2Proof/Machine/Sequencer.lean ====
section
/-! DEFINITION. The sequencers (02, 03): the bench of a step, the queues and the units' work, cuts and flag falls, the
selection and the start of batch steps, and the step trace (19 R471). -/

namespace Sys2Proof.Machine

/-! ## Snapshots of flash (01 R30) -/

/-- The version of a block that a snapshot sees. -/
def Namespace.verAt (v : Namespace) (lba stamp : Nat) : Option Ver :=
  (v.blocks.get [] lba).find? (fun e => decide (e.epoch ≤ stamp))

/-- The physical unit of the version that a snapshot sees. -/
def State.unitAt (s : State) (ns lba stamp : Nat) : BitVec 37 := match (s.space ns).verAt lba stamp with
  | some v => v.unit
  | none => 0

/-- The piece of the write buffer that a version of a block is in still, from which a read is served (R212). -/
def Media.pieceOf (m : Media) (ns lba : Nat) (v : Ver) : Option Piece :=
  m.pieces.find? (fun p => decide (p.group = v.group) && decide (p.ns = ns) && decide (p.start ≤ lba) && decide (lba < p.start + p.blocks)
    && decide (lba ∉ p.wiped))

/-- Is a version of a block in the write buffer? -/
def Media.inBuffer (m : Media) (ns lba : Nat) (v : Ver) : Bool := (m.pieceOf ns lba v).isSome

/-- A version is read: its unit, or the buffer. The second part is the number of channel slots. -/
def State.readVer (s : State) (ns lba : Nat) (v : Ver) : State × Nat :=
  match s.media.pieceOf ns lba v with
  | some p => (s.setMedia (s.media.readBuffer p lba), 0)
  | none => s.readUnit v

/-- A snapshot's blocks are read; the number of channel slots that this takes. -/
def State.countSlots (s : State) (ns lo n stamp : Nat) : State × Nat :=
  ((s.space ns).blocks.filter (fun b => decide (lo ≤ b.1) && decide (b.1 < lo + n))).foldl (fun a b =>
    match b.2.find? (fun v => decide (v.epoch ≤ stamp)) with
    | some v => if v.st = .mapped then ((a.1.readVer ns b.1 v).1, a.2 + (a.1.readVer ns b.1 v).2) else a
    | none => a) (s, 0)

/-- Blocks of a snapshot are read: their segments are looked up, and their units read. The number of channel slots. -/
def State.flashSlots (s : State) (ns lo n stamp : Nat) : State × Nat :=
  let a := s.lookups ns lo n
  let b := a.1.countSlots ns lo n stamp
  (b.1, a.2 + b.2)

/-! ## Blocks of a snapshot -/

/-- Does the namespace list the port (R209)? -/
def State.nsLists (s : State) (ns : Nat) (x : Nat) : Bool :=
  decide ((s.space ns).life ≠ .absent) && bitOf (s.gov (0x4100 + ns) 2) x

/-- Were both buffer copies of a version lost (07 R186)? -/
def Media.bufferLost (m : Media) (ns lba : Nat) (v : Ver) : Bool :=
  m.inBuffer ns lba v && m.pending.any (fun c =>
    decide (c.kind = .lose) && decide (c.ns = ns) && decide (c.start ≤ lba) && decide (lba < c.start + c.len))

/-- The check value of a block of a protected namespace (10 R272). -/
def State.blockValue (s : State) (ns lba : Nat) (m : Mem) : Nat :=
  let v := s.gov (0x6040 + ns) 1
  match ckFixed (bits v 2 0) with
  | some c => ckFinal c (ckFeed c (ckFeed c c.init (ckTag (if bitOf v 6 then 1 else 0) 0 (ns * 2 ^ 42 + lba) 0)) (m.readBytes 0 4096))
  | none => 0

/-- Is a namespace protected (R272)? -/
def State.isProtected (s : State) (ns : Nat) : Bool := bitOf (s.gov (0x6040 + ns) 1) 7

/-- Does a unit's data fail the check of its trailer's value (10 R274)? -/
def State.checkFails (s : State) (ns lba : Nat) (v : BitVec 64) (m : Mem) : Bool :=
  s.isProtected ns && decide (v.toNat ≠ s.blockValue ns lba m)

/-- Is the map segment of a block one that cannot be read, and not in the cache (16 R409)? -/
def Media.segmentLost (m : Media) (ns lba : Nat) : Bool :=
  decide (regionKey ns lba ∈ m.badSegs) && decide (regionKey ns lba ∉ m.cache)

/-- Were both buffer copies of the data lost that a snapshot sees (07 R186), before the map has it or after? -/
def State.lostInBuffer (s : State) (ns lba stamp : Nat) : Bool :=
  match (s.space ns).verAt lba stamp with
  | some v => v.bufLost || (decide (v.st = .mapped) && s.media.bufferLost ns lba v)
  | none => false

/-- Data of a block of a piece as a copy of the write buffer holds it: a miscorrection has changed the 64 bytes that it met, to bytes
the spec leaves open (07 R185; log 12). -/
def Media.copyData (m : Media) (copyB : Bool) (p : Piece) (lba : Nat) (d : Mem) : Mem :=
  let lo := p.slot * 262144 + 4096 * (lba - p.start)
  (m.badData.filter (fun e => decide ((2048 ≤ e.1 % 4096) = (copyB = true)) && decide (lo ≤ bufferByte e.1 ∧ bufferByte e.1 < lo + 4096))).foldl
    (fun d e => d.writeBytes (bufferByte e.1 - lo) ((List.range 64).map (fun i => Config.raceByte e.2 (e.1 + i)))) d

/-- Data of a version, read from copy A of the write buffer while it is there (R212). -/
def Media.heldData (m : Media) (ns lba : Nat) (v : Ver) : Mem :=
  match m.pieces.find? (fun p => decide (p.group = v.group ∧ p.ns = ns ∧ p.start ≤ lba ∧ lba < p.start + p.blocks)) with
  | some p => m.copyData false p lba v.data
  | none => v.data

/-- The data of a version as the media dies decrypt it: under a key register that is cleared it is undefined (18 R459; log 118). -/
def State.clearData (s : State) (ns lba : Nat) (v : Ver) : Mem :=
  if ns ∈ s.security.cleared then
    Mem.writeBytes [] 0 ((List.range 4096).map (fun i => Config.raceByte s.free ((ns * 2 ^ 37 + lba) * 4096 + i)))
  else s.media.heldData ns lba v

/-- A block of a snapshot, read for a port (R202, R209, R261; 10 R274). Of a region whose segment cannot be read nothing is known, not even
which blocks are unmapped (16 R409). -/
def State.readBlock (s : State) (stamp x ns lba : Nat) : BlockRead :=
  if !s.nsLists ns x then .denied
  else if s.media.segmentLost ns lba then .unreadable
  else match (s.space ns).verAt lba stamp with
    | none => .data []
    | some v => match v.st with
      | .unmapped => .data []
      | .unreadable => .unreadable
      | .mapped => if s.media.moves.any (fun m => m.lost && decide (m.src = v.unit)) || s.media.bufferLost ns lba v || s.checkFails ns lba v.value (s.clearData ns lba v) then .unreadable
        else .data (s.clearData ns lba v)

/-! ## The step trace (19 R471) -/

/-- Write a trace record of partition `p`: source, kind, tag, step, context, ARG, ARG2. The time is the source die's. A record
that finds its source's buffer full is dropped and counted; which do is free (log 115). -/
def State.trace (s : State) (p source kind tag step ctx arg arg2 : Nat) : State :=
  let c := s.gov (0x9020 + p) 3
  let n := s.gov (0x9020 + p) 2 / 32
  let done := s.obj (0x9020 + p) 4
  if !bitOf c 0 || (decide (kind ≤ 1) && !bitOf c 1) || decide (n = 0) || (bitOf c 2 && decide (n ≤ done)) then s
  else if Config.traceFull s.free then s.draw.bump (0x9020 + p) 5 1
  else
    let rec' := field 64 192 (s.stampOf source s.timeNow).toNat + field 8 184 source + field 4 180 kind + field 4 176 tag
      + field 12 164 step + field 4 160 ctx + field 32 128 arg + field 64 64 arg2
    let a := s.gov (0x9020 + p) 1 + done % n * 32
    let s := s.draw
    let s := s.setFabric { s.fabric with
      mem := s.fabric.mem.writeBytes a (bytesOf 32 rec'), fog := clearFog s.fabric.fog a 32 }
    s.bump (0x9020 + p) 4 1

/-! ## Charges (02 R63 to R66) -/

/-- A requester that becomes pending has its virtual time raised to the smallest among the pending requesters of resource `r`
(R64, R65). Whose request is served first is timing, and left out (log 78). -/
def State.raiseVtime (s : State) (r requester : Nat) : State :=
  match least (((List.range 12).filter (fun o => decide (o ≠ requester) && s.asks r o)).map (fun o => s.vtimes.get 0 (r * 20 + o))) with
  | none => s
  | some v => s.setVtimes (s.vtimes.upd 0 (r * 20 + requester) (max v))

/-- A requester puts a request to resource `r`: idle until then, it becomes pending. -/
def State.request (s : State) (r requester : Nat) : State :=
  if s.asks r requester then s else s.raiseVtime r requester

/-- A requester puts requests to the resources that a use of them lists. -/
def State.becomePending (s : State) (requester : Nat) (used : List (Nat × Nat)) : State :=
  s.each ((List.range 6).filter (fun r => used.any (fun u => decide (u.1 = r)))) (fun s r => s.request r requester)

/-- Add `ns` of resource `r` to a requester's account: the counter of whole engine-microseconds at `idx` and `sub`,
what is left over, and the virtual time, which grows by ns / weight, rounded down at each charge (DESIGN CHOICE, log
67). -/
def State.account (s : State) (idx sub r requester weight ns : Nat) : State :=
  let k := r * 20 + requester
  let f := s.vtimes.get 0 (1000 + k) + ns
  let s := s.bump idx sub (f / 1000)
  s.setVtimes ((s.vtimes.set (1000 + k) (f % 1000)).upd 0 k (fun v => v + ns / max 1 weight))

/-- Charge a request of partition `p` to resource `r` (R63, numbered from 0) the `ns` that it used. -/
def State.charge (s : State) (p r ns : Nat) : State := s.account (0x2020 + p) (r + 1) r p (s.part p).defn.share ns

/-- Charge an I/O account: flash channel time (resource 4) or check-value units (5) (R65, R66). -/
def State.chargeIo (s : State) (x r ns : Nat) : State :=
  s.account 0x2003 ((if r = 4 then 1 else 5) + x) r (8 + x) (s.gov 0x2002 (x + 1)) ns

/-- Requests that are served as they are put: the requester becomes pending, and is charged. -/
def State.bill (s : State) (p r ns : Nat) : State := (s.request r p).charge p r ns
def State.billIo (s : State) (x r ns : Nat) : State := (s.request r (8 + x)).chargeIo x r ns

/-- The reads in progress of the command of a set finish, and its port is charged (R66). -/
def State.chargeReads (s : State) (k : Nat) : State :=
  let u := (s.tset k).used
  (s.setTset k { s.tset k with used := [] }).each u (fun s e => s.chargeIo (keyPort k) e.1 e.2)

/-- Reads in progress of the command of a set are given up: the port is charged the part of them that was done, a free value
(log 24). -/
def State.dropReads (s : State) (k : Nat) : State :=
  let u := (s.tset k).used
  (s.setTset k { s.tset k with used := [] }).each u (fun s e =>
    (s.chargeIo (keyPort k) e.1 (min e.2 (Config.doneOf s.free e.2))).draw)

/-- `n` cycles of a board unit's clock, the arithmetic clock (10 R270), in ns, rounded up (log 67). -/
def State.boardCycles (s : State) (n : Nat) : Nat := ceilDiv (n * 1000) (max 1 (s.obj 0x7000 4))

/-- The charges of a step, made when it finishes (R66): a step that was cut or stopped is charged a free part of what
its whole work would use, which is the time it used (log 24). -/
def State.chargeStep (s : State) (p : Nat) (e : QStep) : State :=
  s.each e.used (fun s u =>
    if e.cut then (s.charge p u.1 (min u.2 (Config.doneOf s.free u.2))).draw else s.charge p u.1 u.2)

/-! ## The slots of a step's passes (04 R111) -/

/-- The slots that a step's passes took on the eight groups of a die, once it has completed or was cut. Of a step that was cut,
those that have passed are retired, and a free part of the others is wasted, in whole cycles of the die (log 17). What passed
while the counters were frozen never counts (19 R466). -/
def State.classSlots (s : State) (e : QStep) : State :=
  s.each e.slots (fun s u =>
    let n := 128 * u.die
    let kept := s.slotsNow u (!e.cut)
    let s := (s.tally (n + u.rate) kept).tally (n + 9) (s.gatedNow u (!e.cut))
    let s := s.each (List.range 8) (fun s g => s.tally (n + 24 + 4 * g) (kept / 8))
    if !e.cut then s
    else
      let left := (u.taken - u.passed s.free) / 64
      let lost := 64 * min left (Config.doneOf s.free left)
      (s.each (List.range 8) (fun s g => s.count (n + 25 + 4 * g) (lost / 8))).count (n + 6) lost |>.draw)

/-- Does a counter advance as a step goes along: blocks, rows and slices of a SCAN (10 R275), hops and edges of a WALK (11 R297), bytes
of a REDUCE (12 R319)? -/
def alongKey (key : Nat) : Bool :=
  (decide (0x6010 ≤ key / 256 ∧ key / 256 < 0x6018) && decide (key % 256 ∈ [2, 3, 4]))
    || decide (key ∈ [walkKey 1, walkKey 2, walkKey 3, 0x680003])

/-- What a step counted in the objects of chapters 10 to 12, once it has completed or was cut. A step that was cut has done a free part of its work
(log 24); a REDUCE that had begun counts as one that was served (12 R319: DESIGN CHOICE, log 74). -/
def State.countStep (s : State) (e : QStep) : State :=
  s.each (e.tally.filter (fun t => decide (0x6000 ≤ t.1 / 256 ∧ t.1 / 256 < 0x7000))) (fun s t =>
    let n := if e.cut && alongKey t.1 then min t.2 (Config.doneOf s.free t.2) else t.2
    let s := if objBits (t.1 / 256) (t.1 % 256) = 32 then s.bumpSat (t.1 / 256) (t.1 % 256) n else s.bump (t.1 / 256) (t.1 % 256) n
    if e.cut then s.draw else s)

/-- Slots that a cut step waited on a die, `n` cycles in each of the groups that `l` lists with theirs: of class 2 starved-front
or 3 starved-back. -/
def State.waited (s : State) (d k : Nat) (l : List (Nat × Nat)) : State :=
  s.each l (fun s g => (s.count (128 * d + 24 + 4 * g.1 + k) (8 * g.2)).count (128 * d + 5 + k) (8 * g.2))

/-- How long the passes of a step were waiting when it was cut, on the dies that it had begun on (R105 to R107, R111): for tiles
on a die that had run out of them, every group alike, and for accumulator entries where passes were left to do. The cycles are
free (log 17). -/
def State.cutWaits (s : State) (p : Nat) (e : QStep) : State :=
  if e.ran ∨ (wOpcode e.word ≠ opStream ∧ wOpcode e.word ≠ opPqtab) then s
  else
    s.each ((List.range (vLast e.word + 1 - vFirst e.word)).map (· + vFirst e.word)) (fun s v =>
      let d := (s.squaresOf p).getD v 0
      if !e.slots.any (fun u => decide (u.die = d)) || !s.dieLate p e v then s
      else if v ∈ e.starved then
        (s.waited d 2 ((List.range 8).map (fun g => (g, Config.waitCycles s.free d)))).draw
      else (s.waited d 3 ((List.range 8).map (fun g => (g, Config.waitCycles s.free (d * 8 + g))))).draw)

/-! ## The bench of a step -/

/-- The function tables of a batch step (R156): the sections its active bank holds, the built-in tables otherwise. -/
def sfOf (b : Bank) (use : Bool) : SfTables :=
  if !use || !b.full then sfBuiltIn
  else
    let e := bitOf b.addr 0
    let l := bitOf b.addr 1
    let o1 := if e then 1536 else 0
    let o2 := o1 + (if l then 1536 else 0)
    ⟨if e then coefficients 384 (b.data.readBytes 0 1536) else exp2Table,
     if l then coefficients 384 (b.data.readBytes o1 1536) else log2Table,
     if bitOf b.addr 2 then coefficients 1024 (b.data.readBytes o2 4096) else geluTable⟩

/-- The configuration in force of a partition's check-value slot (R268). -/
def State.ckSlot (s : State) (p : Nat) : CkCfg :=
  let sh := s.gov (0x6020 + p) 4
  ⟨bits sh 6 0, s.gov (0x6020 + p) 1, s.gov (0x6020 + p) 2, bitOf sh 7, bitOf sh 8, s.gov (0x6020 + p) 3⟩

/-- The configurations that partition `p` may name (R265, R266). -/
def State.ckFor (s : State) (p c : Nat) : Option CkCfg := if c = 8 + p then some (s.ckSlot p) else ckFixed c

/-- Spans that a step which has not begun is to write on the partition's dies `vd`, the tiers and the dies' stores; of
a SCAN, as far as its program could reach (R93). -/
def stepWrites (vd : List Nat) (window apart w : Nat) : List (Store × Nat × Nat) :=
  let o := wOpcode w
  let each := fun (v1 v2 : Nat) (f : Nat → Nat → Store × Nat × Nat) =>
    (List.range (v2 + 1 - v1)).map (fun i => f i (vd.getD (v1 + i) 0))
  if o = opDrain then
    let n := if bitOf w 179 then (bits w 162 147 + 1) * 32 else (bits w 162 147 + 1) * rowBytes (bits w 146 143)
    let at' := fun i => bits w 139 92 + i * bits w 91 68 * 64
    (match bits w 142 140 with
    | 2 => each (vFirst w) (vLast w) (fun i d => (.ob d, at' i, n))
    | 3 => (List.range (vLast w + 1 - vFirst w)).flatMap (fun i => each (vFirst w) (vLast w) (fun _ d => (.ob d, at' i, n)))
    | 4 => each (vFirst w) (vLast w) (fun i d => (.lws d, at' i, n))
    | _ => each (vFirst w) (vLast w) (fun i _ => (.mem, at' i, n)))
  else if o = opSfn then
    each (vFirst w) (vLast w) (fun _ d => (.ob d, bits w 109 94 * 32, (bits w 158 143 + 1) * rowGranules (bits w 113 110) * 32))
  else if o = opNorm then
    each (vFirst w) (vLast w) (fun _ d => if bitOf w 179
      then (.ob d, bits w 93 78 * 32, (bits w 145 134 + 1) * (bits w 161 146 + 1) * rowBytes (bits w 77 74))
      else (.ob d, bits w 133 118 * 32, (bits w 145 134 + 1) * 32))
  else if o = opChain then
    each (vFirst w) (vLast w) (fun _ d => (.ob d, bits w 131 116 * 32,
      4 * (bits w 160 137 + 1) * (if bits w 178 177 = 1 then bits w 136 132 + 1 else 1)))
  else if o = opPqtab then
    [(.mem, scratchFirst + bits w 75 52 * 64, (bits w 51 44 + 1) * (bits w 83 76 + 1) * 512)]
  else if o = opSelect then
    let k := 8 * (bits w 118 109 + 1)
    [(.mem, bits w 89 42, bits w 102 91 * (ceilDiv k 64 * 64) + k)]
  else if o = opFetch then
    let n := (bits w 90 67 + 1) * 64
    (match bits w 189 187 with
    | 2 => each (bits w 66 61) (bits w 60 55) (fun _ d => (.lws d, bits w 138 91, n))
    | 3 => each (bits w 66 61) (bits w 60 55) (fun _ d => (.ob d, bits w 138 91, n))
    | _ => [(.mem, bits w 138 91, n)])
  else if o = opScan then [(.mem, bits w 97 50, 64 + ceilDiv ((bits w 145 122 + 1) * 1024) 512 * 64 + 2 ^ 30)]
  else if o = opCheck then [(.mem, bits w 75 28, 16)]
  else if o = opWalk then
    [(.mem, scratchFirst + bits w 143 120 * 64, (bits w 78 71 + 1) * (2 ^ 24)),
     (.mem, scratchFirst + bits w 68 45 * 64, (bits w 78 71 + 1) * 3136)]
  else if o = opReduce then
    let base := bits w 191 144
    let n := vd.length
    if bitOf w 139 then
      [(.mem, base + n * redS w, redS w), (.mem, swapWindows window apart (bits w 133 86), n * redS w + redC w * redR w * 4)]
    else [(.mem, base + (n + 1) * redS w, 512 * redR w * 4)]
  else []

/-- Spans that the uncompleted steps of the other queues write: those of a step that has begun, and those that one
which waits in its queue is to write (R93; 12 R317). -/
def Seq.dirty (q : Seq) (vd : List Nat) (window apart n : Nat) : List (Store × Nat × Nat) :=
  (List.range 32).flatMap (fun i =>
    if i = n then [] else (q.queue i).flatMap (fun e =>
      if e.ran || !e.saved.isEmpty || e.cut then e.saved.map (fun v => (v.store, v.lo, v.len))
      else stepWrites vd window apart e.word))

/-- Does a STREAM or PQTAB of a queue still have to write an entry on virtual die `v` (04 R107)? Which entries the passes of
a PQTAB write is not stated: each counts as pending until they are done (DESIGN CHOICE, log 70). -/
def pendsIn (es : List QStep) (v entry : Nat) : Bool :=
  es.any (fun q =>
    let w := q.word
    let nv := bits w 139 134 + 1
    let j := q.rows.get 0 v
    !q.ran && !q.cut && decide (vFirst w ≤ v ∧ v ≤ vLast w)
      && (if wOpcode w = opStream then decide (j < streamPasses w)
          && decide (bits w 133 128 + j / (bits w 151 140 + 1) * nv ≤ entry)
          && decide (entry < bits w 133 128 + streamPasses w / (bits w 151 140 + 1) * nv)
        else decide (wOpcode w = opPqtab) && decide (j < pqtabTiles w v)))

/-- The accumulator entries a DRAIN or SFN reads: first and number. -/
def accRead (w : Nat) : Option (Nat × Nat) :=
  if wOpcode w = opDrain ∧ !bitOf w 179 then some (bits w 168 163, bits w 162 147 + 1)
  else if wOpcode w = opSfn ∧ !bitOf w 175 then some (bits w 174 159, bits w 158 143 + 1)
  else none

/-- The entries that the DRAIN and SFN steps in progress read, by virtual die (R107). One that waits for a pass has taken the
entries before it and does not read those after it yet; one that waits for none may not have read any. -/
def Seq.reading (q : Seq) : List (Nat × Nat × Nat) :=
  [12, 13].flatMap (fun n => ((q.queue n).take 1).flatMap (fun e =>
    match accRead e.word with
    | some (a, k) => if e.cut || !e.ran then [] else
        (List.range (vLast e.word + 1 - vFirst e.word)).map (fun i => (vFirst e.word + i, a, k))
    | none => []))

/-- The spans that the steps of partition `p` in other queues than `n` write. -/
def State.dirty (s : State) (p n : Nat) : List (Store × Nat × Nat) :=
  let t := match (s.seq p).run with
    | some r => s.tset r.key
    | none => TaskSet.none
  (s.seq p).dirty (s.squaresOf p) (t.reg 2) (t.reg 3) n

/-- The bench of a step of partition `p`, queue `n`, in the batch step `r`. A context with no index attached has no tombstone
image; a WALK in it reads one from address 0, if that lies in the partition's near range (11 R287 does not say what it
reads; DESIGN CHOICE, log 93). TR02 and TR03 are taken as the base and the distance of the refit windows whatever command runs
the batch step; a bank in neither window is its own next bank (12 R306 speaks of REFIT_STEP; DESIGN CHOICE, log 74). -/
def State.bench (s : State) (p n : Nat) (r : Run) : Bench :=
  let uses := bits (r.table.data.num 0 64) 417 414
  let own := (s.ctx p r.ctx.val).owner.val
  let t := s.tset r.key
  { mem := s.fabric.mem, bad := s.fabric.bad, fog := s.fabric.fog, walks := s.fabric.walks, dies := s.fabric.dies
    perf := [], tally := [], saved := [], slots := [], used := [], copies := r.program, mhz := s.obj 0x7000 4
    reading := (s.seq p).reading, pends := pendsIn ((s.seq p).queue 11), rows := []
    more := ((s.seq p).queue 10).any (fun e => !e.ran && !e.cut && !e.queued), starved := [], tiles := [], hopNow := 0, hops := 0
    dirty := s.dirty p n, draw := s.free
    vdies := s.squaresOf p, defn := (s.part p).defn, part := p, scales := r.scales.data, ctx := r.ctx.val, side := r.side
    sf := sfOf r.sft (bitOf uses 1), distBase := r.dist.addr, tombBase := r.tomb.addr
    farOff := s.guard.farOff, banksOff := s.guard.banksOff, block := s.readBlock r.stamp own, flash := []
    lookups := 0, codeBytes := 0, ck := s.ckFor p, window := t.reg 2, apart := t.reg 3 }

/-- Carry out a step as far as it can go: the bench, and whether the step is done. -/
def stepWork (b : Bench) (e : QStep) : Work (Bench × Bool) := do
  let w := e.word
  let o := wOpcode w
  let b := { b with rows := e.rows, starved := e.starved }
  let whole : Work Bench → Work (Bench × Bool) := fun r => match r with
    | .ok b => .ok (b, true)
    | .error x => .error x
  let dies := fun (n : Nat) (r : Work Bench) => match r with
    | .ok b => (.ok (b, b.reached (vFirst w) (vLast w) n) : Work (Bench × Bool))
    | .error x => .error x
  if o = opLoadw then do
    let b ← if e.queued then .ok b else loadwWork b w e.issue
    .ok (b, loadwDone b w e.issue)
  else if o = opStream then dies (streamPasses w) (streamWork b w)
  else if o = opDrain then dies (bits w 162 147 + 1) (drainWork b w)
  else if o = opSfn then dies (bits w 158 143 + 1) (sfnWork b w)
  else if o = opNorm then whole (if bitOf w 179 then normApplyWork b w else normStatsWork b w)
  else if o = opChain then whole (if bits w 178 177 = 0 then chainRecurWork b w
    else if bits w 178 177 = 1 then chainOrthoWork b w else chainPrefixWork b w)
  else if o = opPqtab then do
    let b ← pqtabWork b w
    .ok (b, pqtabDone b w)
  else if o = opSelect then whole (selectWork (bits w 108 107) b w)
  else if o = opFetch then whole (fetchWork b w)
  else if o = opScan then whole (scanWork b w)
  else if o = opCheck then whole (checkWork b w)
  else if o = opWalk then whole (if bitOf w 69 then rerankWork b w else walkWork b w)
  else if o = opReduce then whole (if bitOf w 139 then reduceQWork b w else reducePWork b w)
  else .ok (b, true)

/-- The progress of a step on all its dies. -/
def progress (rows : Tab Nat) : Nat := (rows.map Prod.snd).foldl (· + ·) 0

/-- Put a bench back: memory, dies and counters (R461); and the channel time of the units that it read (R66). -/
def State.putBench (s : State) (b : Bench) (stamp : Nat) : State × Nat :=
  let s := s.setFabric ⟨b.mem, b.bad, b.fog, b.walks, b.dies⟩
  let s := b.perf.foldl (fun s c => s.count c.1 c.2) s
  let r := b.flash.foldl (fun (a : State × Nat) f =>
    let c := a.1.flashSlots f.1 f.2.1 f.2.2 stamp
    (c.1, a.2 + c.2)) (s, 0)
  (r.1.draw, channelTime r.2)

/-! ## Cuts (03 R88) -/

/-- Every address that either of two sparse memories lists below `n`. -/
def eitherKeys (a b : Mem) (n : Nat) : List Nat := ((a ++ b).map Prod.fst).filter (fun k => decide (k < n))

/-- A slice of new bytes mixed with the old ones, freely (R88). -/
def mixBytes (k code lo n : Nat) (new old : Mem) : Mem :=
  (eitherKeys new old n).foldl (fun (m : Mem) i =>
    m.write i (if Config.keepsNew k (code * 2 ^ 48 + lo + i) then new.read i else old.read i)) []

/-- An accumulator entry's bytes mixed with the old ones. -/
def mixEntry (k key : Nat) (new old : AccEntry) : AccEntry :=
  ⟨BitVec.ofNat 32 (numOf ((List.range 4).map (fun i =>
      if Config.keepsNew k (key * 8 + i) then (bytesOf 4 new.bits.toNat).getD i 0 else (bytesOf 4 old.bits.toNat).getD i 0))),
    if Config.keepsNew k (key * 8 + 4) then new.isInt else old.isInt⟩

/-- A beam and a visited table mixed with the old ones, entry by entry (log 22). -/
def mixWalk (k : Nat) (new old : WalkState) : WalkState :=
  { beam := (List.range (max new.beam.length old.beam.length)).filterMap (fun i =>
      if Config.keepsNew k (2 * i) then new.beam[i]? else old.beam[i]?)
    visited := (new.visited ++ old.visited).filter (fun n => Config.keepsNew k (2 * n + 1))
    reranked := if Config.keepsNew k (2 ^ 40) then new.reranked else old.reranked
    mark := new.mark }

/-- The uncorrectable blocks or words of a span that a cut step may not have written: whether each is still bad is free (07
R187; log 22). -/
def stillBad (k code : Nat) (old now : List Nat) : List Nat :=
  old.filter (fun a => !Config.keepsNew k (code * 2 ^ 48 + 2 ^ 46 + a) && !now.contains a) ++ now

/-- Leave a span that a cut step wrote as a free mixture of new and old bytes. -/
def State.mixSaved (s : State) (v : Saved) : State :=
  let k := s.free
  let code := storeCode v.store
  let s := s.draw
  match v.store with
  | .mem =>
    let m := mixBytes k code v.lo v.len (s.fabric.mem.slice v.lo v.len) v.bytes
    s.setFabric { s.fabric with mem := s.fabric.mem.blit v.lo v.len m, bad := stillBad k code v.bad s.fabric.bad }
  | .lws d =>
    let x := s.die d
    s.setDie d { x with
      lws := x.lws.blit v.lo v.len (mixBytes k code v.lo v.len (x.lws.slice v.lo v.len) v.bytes)
      badLws := stillBad k code v.bad x.badLws }
  | .ob d =>
    let x := s.die d
    s.setDie d { x with
      ob := x.ob.blit v.lo v.len (mixBytes k code v.lo v.len (x.ob.slice v.lo v.len) v.bytes)
      badOb := stillBad k code v.bad x.badOb
      tags := (List.range (v.len / 32)).foldl (fun t i =>
        let g := v.lo / 32 + i
        if Config.keepsNew k (code * 2 ^ 48 + 2 ^ 47 + g) then t else t.set g (v.tags.get 2 g)) x.tags }
  | .acc d =>
    let x := s.die d
    s.setDie d { x with
      acc := (x.acc.range v.lo (v.lo + v.len)).foldl (fun t e =>
        t.set e.1 (mixEntry k (code * 2 ^ 48 + e.1) e.2 (v.accs.get ⟨0, e.2.isInt⟩ e.1))) x.acc
      badAcc := stillBad k code v.bad x.badAcc }
  | .walk =>
    let l := s.fabric.walks.get [] v.lo
    let w := mixWalk k (l.headD WalkState.empty) (v.walk.getD WalkState.empty)
    s.setFabric { s.fabric with walks := s.fabric.walks.set v.lo (w :: l) }

/-- Data that a cut step drops is not consumed: its error is recorded against the place where it lies, as a NOTICE (07 R181; 16
R408). -/
def State.noteDropped (s : State) (rep : Report) : State := s.raise { rep with severity := 0, status := 0, partValid := false }

/-- Cut every uncompleted step that satisfies `f`: what it wrote becomes a mixture, latest first, the slots of its passes are
classed (R111), what it counted is put in the objects, a CUT record of each is traced, the tiles of a cut LOADW leave the tile queues and the staging registers, and uncorrectable data that a FETCH
drops is recorded alone (07 R181). The entries stay until they drain. -/
def State.cutSteps (s : State) (p : Nat) (f : QStep → Bool) : State :=
  let q := s.seq p
  let all := ((List.range 32).flatMap q.queue).filter (fun e => f e && !e.cut)
  let hit := kFirst (fun (a b : QStep) => decide (b.issue < a.issue)) all.length all
  let s := hit.foldl (fun s e => s.each e.saved State.mixSaved) s
  let s := s.each (hit.filterMap QStep.found) State.noteDropped
  let s := s.each (s.squaresOf p) (fun s d =>
    let x := s.die d
    let gone := fun (t : Tile) => hit.any (fun e => decide (e.issue = t.issue))
    s.setDie d { x with
      tiles := x.tiles.filter (fun t => !gone t)
      staging := x.staging.filter (fun h => !gone h.tile) })
  let s := s.each hit (fun s e => ((s.cutWaits p e).classSlots { e with cut := true }).countStep { e with cut := true })
  let s := match q.run with
    | none => s
    | some r => s.each hit (fun s e => s.trace p (64 + p) 3 (wTraceTag e.word) e.index r.ctx.val 0 0)
  let q := s.seq p
  s.setSeq p { q with queues := q.queues.mapVals (fun _ l =>
    l.map (fun e => if f e then { e with cut := true, ran := true, saved := [], slots := [], found := none, tally := [] } else e)) }

/-! ## The end of a batch step, and flag fall (02 R48 to R50, 03 R88, R89) -/

/-- The tombstone image that a command of a stamp uses (11 R295). -/
def Context.tombFor (c : Context) (stamp : Nat) : Bank :=
  match c.index with
  | some i => if c.tomb.st = .retiring ∧ stamp < i.swapped then c.tomb.shadow else c.tomb.active
  | Option.none => c.tomb.active

/-- A RETIRING bank becomes the READY shadow, or EMPTY after a DISCARD, once no batch step uses it (R77, R503). -/
def Banks.retire (b : Banks) : Banks :=
  if b.st = .retiring then
    (if b.dropWhenRetired then { b with st := .empty, shadow := Bank.none, dropWhenRetired := false }
     else { b with st := .ready })
  else b

/-- What the end of a batch step does to its context's old banks; the tombstone image waits for its replay (11 R295). -/
def Context.retire (c : Context) : Context :=
  { c with table := c.table.retire, scales := c.scales.retire, sft := c.sft.retire, dist := c.dist.retire }

/-- Drop the batch step in progress, its context's old banks retired. -/
def State.dropRun (s : State) (p : Nat) : State :=
  match (s.seq p).run with
  | none => s
  | some r => (s.setCtx p r.ctx.val (s.ctx p r.ctx.val).retire).setSeq p { s.seq p with run := none }

/-- End the batch step with TICK_OVERRUN at boundary `b`: its outputs are discarded, its command ends (R49 to R51), and
`step` is the first missed step of this batch step, whatever an earlier batch step of the command missed (R48 and 15 R374 leave
which step STEP names there; DESIGN CHOICE, log 79). An overrun within a tick names the boundary before it in LAST_OVERRUN (R53 says only the
boundary; DESIGN CHOICE, log 79). -/
def State.overrun (s : State) (p b step : Nat) : State :=
  match (s.seq p).run with
  | none => s
  | some r =>
    let first := match r.missed with
      | some m => m
      | none => step
    let s := (s.bump (0x2020 + p) 8 1).put (0x2020 + p) 0x0C (field 32 32 b + field 12 0 first)
    let s := s.cutSteps p (fun _ => true)
    let t := s.tset r.key
    let s := if t.due = none then s.postLater r.key stOverrun t.published first else s
    s.dropRun p

/-- An error ends the batch step in progress (01 R34): its steps are cut and its outputs discarded, and its command is to
end with CONTEXT_TORN_DOWN at the boundary that tears the context down (R68). Other contexts are selected meanwhile, as in
the worked example of 16 R408 (DEDUCED, log 62). -/
def State.failBatch (s : State) (p : Nat) : State :=
  match (s.seq p).run with
  | none => s
  | some r =>
    let s := s.cutSteps p (fun _ => true)
    let t := s.tset r.key
    let s := if t.due = none then s.postLater r.key stTornDown t.published 0 else s
    s.dropRun p

/-- Does a loop body of level `l` in the table hold step `f` (R87)? -/
def bodyHolds (b : Bank) (l f : Nat) : Bool :=
  (List.range (tableSteps b)).any (fun j =>
    let w := stepWord b j
    decide (wOpcode w = opLoop) && decide (wLevel w = l) && decide (wTarget w ≤ f) && decide (f ≤ j))

/-- Step `i` of the table in force missed its deadline; `issue` is its issue number if it was issued (R88). -/
def State.miss (s : State) (p i : Nat) (issue : Option Nat) : State :=
  match (s.seq p).run with
  | none => s
  | some r =>
    let w := stepWord r.table i
    let s := s.trace p (64 + p) 2 (wTraceTag w) i r.ctx.val 0 0
    if !wHasFallback w then s.overrun p s.tick i
    else
      let s := match issue with
        | none => s
        | some n => s.cutSteps p (fun e => decide (n ≤ e.issue))
      let t := s.tset r.key
      let s := s.setTset r.key { t with
        fallbacks := t.fallbacks + 1
        missed := match t.missed with
          | some m => some m
          | none => some i }
      let s := s.bump (0x2020 + p) 7 1
      s.setSeq p { s.seq p with run := some { r with
        next := wFallback w, waiting := false
        loops := r.loops.zipIdx.map (fun l => if bodyHolds r.table l.2 (wFallback w) then l.1 else 0)
        missed := match r.missed with
          | some m => some m
          | none => some i
        fallbacks := r.fallbacks + 1 } }

/-- The place in queue `n` of the step that its unit is at: its head, but in Q10, where a LOADW whose last tile is
stationary lets the one behind it go on (04 R106). -/
def Seq.at (q : Seq) (n : Nat) : Nat :=
  if n = 10 then ((q.queue n).takeWhile (fun e => e.ran && !e.cut)).length else 0

/-- Change the step that the unit of a queue is at. -/
def Seq.setHead (q : Seq) (n : Nat) (e : QStep) : Seq :=
  { q with queues := q.queues.set n ((q.queue n).set (q.at n) e) }

/-- A unit met data it may not use: the step is stopped, its batch step ends, and a context-severity record is raised (R186,
R118, R209, R261). -/
def State.stopStep (s : State) (p : Nat) (r : Run) (e : QStep) (rep : Report) : State :=
  (s.failBatch p).raise { rep with
    partValid := true, part := Fin.ofNat 8 p, ctx := r.ctx, portValid := true, port := (s.ctx p r.ctx.val).owner
    step := BitVec.ofNat 12 e.index }

/-- A unit met data that it may not deliver. A FETCH reads its source block by block: whether it has come to the block that it may
not deliver is known when the step completes, or is cut before (07 R181); the steps of the other units are stopped at once. -/
def State.meetBad (s : State) (p n : Nat) (r : Run) (e : QStep) (rep : Report) : State :=
  if wOpcode e.word = opFetch then s.setSeq p ((s.seq p).setHead n { e with found := some rep }) else s.stopStep p r e rep

/-- Free values where a step that has not completed wrote: what its results are is undefined (04 R108). -/
def State.undefine (s : State) (v : Saved) : State :=
  let free := fun (m : Mem) => (List.range v.len).foldl (fun (m : Mem) i =>
    m.write (v.lo + i) (Config.raceByte s.free (storeCode v.store * 2 ^ 48 + v.lo + i))) m
  (match v.store with
  | .mem => s.setFabric { s.fabric with fog := ⟨v.lo, v.len, s.free⟩ :: clearFog s.fabric.fog v.lo v.len }
  | .lws d => s.setDie d { s.die d with lws := free (s.die d).lws }
  | .ob d => s.setDie d { s.die d with ob := free (s.die d).ob }
  | .acc d => s.setDie d { s.die d with acc := (s.die d).acc.mapVals (fun key e =>
      if within key 1 v.lo v.len then { e with bits := BitVec.ofNat 32 (numOf ((List.range 4).map (fun i =>
        Config.raceByte s.free (storeCode v.store * 2 ^ 48 + 4 * key + i)))) } else e) }
  | .walk => s).draw

/-- Step `e` wrote the spans `saved`: where these hold bytes of a lane weight store that a tile of a STREAM or PQTAB still in
progress came from, the tile may hold some new bytes and some old ones, and the results of its step are undefined, with
those of the DRAIN and SFN steps in progress that take them (04 R108). -/
def State.tornTiles (s : State) (p : Nat) (e : QStep) (saved : List Saved) : State :=
  let spans := saved.filterMap (fun v => match v.store with
    | .lws d => some (d, v.lo, v.len)
    | _ => none)
  if spans.isEmpty then s
  else
    let open' := ((List.range 32).flatMap (s.seq p).queue).filter (fun o => !o.cut && decide (o.issue ≠ e.issue))
    let torn := open'.filter (fun o => o.tiles.any (fun t => spans.any (fun v => decide (v.1 = t.1) && overlaps v.2.1 v.2.2 t.2.1 t.2.2)))
    if torn.isEmpty then s
    else s.each ((torn ++ open'.filter (fun o => (accRead o.word).isSome)).flatMap QStep.saved) State.undefine

/-- What a step reads of the tiers and of lane dies: a FETCH the span of its source, any other step words of its partition's
ranges, and a step of the lane dies words of their stores (07 R184, R185; log 107). -/
def State.stepReads (s : State) (p w : Nat) : List (Option Nat × Nat × Nat) :=
  let o := wOpcode w
  let d := (s.part p).defn
  let near := [(none, d.nearBase, d.nearSize), (none, d.scratchBase, d.scratchSize)]
  let lane := ((List.range (vLast w + 1 - vFirst w)).filterMap (fun i => (s.squaresOf p)[vFirst w + i]?)).map
    (fun x => (some x, 0, lwsBytes))
  if o = opFetch then (if bits w 191 190 = 0 then [] else [(none, bits w 186 139, (bits w 90 67 + 1) * 64 * fetchCopies w)])
  else if o = opSelect ∨ o = opScan ∨ o = opReduce then near
  else if o = opWalk ∨ o = opCheck then (none, d.farBase, d.farSize) :: near
  else if o = opPqtab then near ++ lane
  else if o = opLoadw ∨ o = opStream ∨ o = opDrain ∨ o = opSfn ∨ o = opNorm ∨ o = opChain then lane
  else []

/-- Carry out the step that the unit of queue `n` is at, if it can (R80, R93, R106, R107). The flag says whether anything changed. A MARK
completes as it is carried out (R82). -/
def State.runHead (s : State) (p n : Nat) (r : Run) : State × Bool :=
  let q := s.seq p
  match (q.queue n)[q.at n]? with
  | none => (s, false)
  | some e =>
    if e.ran || e.cut || q.reduceWaits n e then (s, false)
    else if wOpcode e.word = opMark then
      let c := s.ctx p r.ctx.val
      let v := wMarkValue e.word
      let s := s.setCtx p r.ctx.val { c with lastMark := BitVec.ofNat 32 (v * 65536 + e.index) }
      let s := s.trace p (64 + p) 4 (wTraceTag e.word) e.index r.ctx.val v 0
      let s := if s.gov 0x9001 4 = v then (s.freezeSource 3 s.timeNow).draw else s
      let s := s.setSeq p { s.seq p with queues := (s.seq p).queues.set n (((s.seq p).queue n).eraseIdx ((s.seq p).at n)), stuck := 0, stepped := true }
      (s.trace p (64 + p) 1 (wTraceTag e.word) e.index r.ctx.val 0 0, true)
    else
      match stepWork (s.bench p n r) e with
      | .ok (b, done) =>
        if !done && decide (progress b.rows = progress e.rows) && decide (b.starved = e.starved) && (e.queued || decide (wOpcode e.word ≠ opLoadw)) then (s, false)
        else
          let h := (s.sees (s.stepReads p e.word)).putBench b r.stamp
          let used := if h.2 = 0 then b.used else (4, h.2) :: b.used
          let s := h.1.becomePending p used
          let s := s.setSeq p ((s.seq p).setHead n { e with
            ran := done, queued := decide (wOpcode e.word = opLoadw), rows := b.rows, saved := b.saved ++ e.saved
            slots := mergeSlots b.slots ++ e.slots, used := used ++ e.used, tiles := b.tiles ++ e.tiles, starved := b.starved
            tally := b.tally ++ e.tally })
          let s := s.tornTiles p e b.saved
          (s.setSeq p { s.seq p with run := some { r with program := b.copies } }, true)
      | .error (h, b) =>
        let x := (s.sees (s.stepReads p e.word)).putBench b r.stamp
        let used := if x.2 = 0 then b.used else (4, x.2) :: b.used
        let s := x.1.becomePending p used
        let e' := { e with
          ran := true, rows := b.rows, saved := b.saved ++ e.saved, slots := mergeSlots b.slots ++ e.slots
          used := used ++ e.used, tiles := b.tiles ++ e.tiles, tally := b.tally ++ e.tally }
        let s := s.setSeq p { (s.seq p).setHead n e' with run := some { r with program := b.copies } }
        let s := s.tornTiles p e b.saved
        match h with
        | .missed =>
          let s := if wOpcode e.word = opReduce then
            s.trace p (64 + p) 9 (wTraceTag e.word) e.index r.ctx.val (bits e.word 85 62) 0 else s
          (s.miss p e.index (some e.issue), true)
        | .uncorrectable (some d) a =>
          (s.stopStep p r e' { report causeLane 0 d 2 stTornDown with
            address := BitVec.ofNat 64 (if a < windowFirst then 0 else a) }, true)
        | .uncorrectable none a => (s.meetBad p n r e' (tierReport causeMem a 2 stTornDown), true)
        | .flash ns lba => (s.meetBad p n r e' (flashReport (s.unitAt ns lba r.stamp) ns lba 2 stTornDown), true)
        | .denied ns lba => (s.stopStep p r e' (repBlock (report causeNs 13 0 2 stTornDown) ns lba), true)

/-- One round over the queues. -/
def State.round (s : State) (p : Nat) : State × Bool :=
  (List.range 32).foldl (fun (a : State × Bool) n =>
    match (a.1.seq p).run with
    | none => a
    | some r =>
      let b := a.1.runHead p n r
      (b.1, a.2 || b.2)) (s, false)

/-- Rounds until nothing more can be carried out. -/
def State.pump (s : State) (p : Nat) : Nat → State
  | 0 => s
  | fuel + 1 =>
    let r := s.round p
    if r.2 then State.pump r.1 p fuel else r.1

/-- Rounds that suffice: every queue can hold 16 steps. -/
def pumpFuel : Nat := 1024

/-! ## Waits (03 R86) -/

/-- Does the WAIT's condition hold? -/
def Seq.waitDone (q : Seq) (r : Run) : Bool :=
  let w := stepWord r.table r.next
  r.untilPassed && decide (Nat.land (wMask w) q.completion = wMask w)

/-- The sequencer has a step of its own to trace, WAIT, LOOP or END: ISSUE is record kind 0, COMPLETE 1 (19 R471). -/
def State.traceStep (s : State) (p kind : Nat) (r : Run) : State :=
  s.trace p (64 + p) kind (wTraceTag (stepWord r.table r.next)) r.next r.ctx.val 0 0

/-- End a WAIT whose condition holds: it completes (R82, 02 R52). -/
def State.endWait (s : State) (p : Nat) : State :=
  let q := s.seq p
  match q.run with
  | none => s
  | some r =>
    if r.waiting && q.waitDone r then
      (s.traceStep p 1 r).setSeq p
        { q with run := some { r with waiting := false, untilPassed := false, next := r.next + 1 }, stuck := 0, stepped := true }
    else s

/-! ## Issue (03 R80, R83) -/

/-- The word of a step as it is issued: advanced fields grown, then the shifts of the command (R83, R262, R304); those of R390
test the address as compiled, `c`. -/
def State.issueWord (s : State) (p : Nat) (r : Run) (c : Nat) : Nat :=
  let w := if wAdvances c then advanceWord c (r.loops.getD (wAdvLevel c) 0) else c
  let t := s.tset r.key
  let b := r.number
  if t.opcode = 0x30 then scanShift w (t.reg 2 + b * t.reg 3) (b % 2 * t.reg 4)
  else if t.opcode = 0x31 ∨ t.opcode = 0x32 then
    growAddrs c w (shiftSpans (t.reg 10) (t.reg 11) (b * bits (t.reg 12) 31 0 * 64) (t.reg 5) (bits (t.reg 6) 22 0)
      (b * bits (t.reg 6) 63 40 * 64))
  else if t.opcode = 0x33 ∧ r.odd then mapAddrs w (swapWindows (t.reg 2) (t.reg 3))
  else w

/-- Issue the next step of partition `p` if it satisfies `f` and its queue has room (R80), and let the units work.
ARG2 of the ISSUE record of a step that addresses a lane weight store is the first byte of its first die's window (R96
gives the windows; which byte of one it is, is DESIGN CHOICE, log 77). -/
def State.issue (s : State) (p : Nat) (f : Nat → Bool) : State :=
  let q := s.seq p
  match q.run with
  | none => s
  | some r =>
    let w := stepWord r.table r.next
    if r.waiting || s.deviceStop || !f w || decide (tableSteps r.table ≤ r.next) || decide (16 ≤ (q.queue (wQueue w)).length) then s
    else
      let w' := s.issueWord p r w
      let e := QStep.issued r.next w' q.issued s.timeNow
      let s := s.draw.setSeq p { q with
        issued := q.issued + 1
        queues := q.queues.set (wQueue w) (q.queue (wQueue w) ++ [e])
        run := some { r with next := r.next + 1 } }
      let s := s.trace p (64 + p) 0 (wTraceTag w) r.next r.ctx.val 0
        (if wOpcode w = opLoadw ∨ (wOpcode w = opFetch ∧ bits w 189 187 = 2) ∨ (wOpcode w = opDrain ∧ bits w 142 140 = 4)
          then windowFirst + (s.squaresOf p).getD (if wOpcode w = opFetch then bits w 66 61 else vFirst w) 0 * lwsBytes else 0)
      s.pump p pumpFuel

/-! ## Selection and the start of a batch step (02 R46, R47, R62, 03 R91) -/

/-- Has the context a batch step pending, released in the running move period (R47)? Its command and number. -/
def State.headOf (s : State) (p n : Nat) : Option Nat :=
  match (s.ctx p n).queue with
  | [] => none
  | k :: _ =>
    let t := s.tset k
    if decide (t.life = .taken) && t.runsSteps && t.started && decide (t.due = none) && decide (t.begun < t.steps)
        && decide (t.stamp.toNat < (s.seq p).periodEpoch) && (s.ctx p n).table.active.full then some k else none

/-- Cost of zeroing the stores in 10 ns units: 4,096 cycles of the arithmetic clock (R91). The rule gives 4.1 us at 995 MHz
and says nothing of other settings: the cycles are those of the setting in force, without its spread (DESIGN CHOICE, log
94). -/
def State.zeroCost (s : State) : Nat := ceilDiv 409600 (max 1 (s.obj 0x7000 4))

/-- Does a batch step of owner `o` differ in owner from the one before it (R91)? Before a partition's first batch step
there is no earlier owner, so nothing differs (DEDUCED, log 58). -/
def Seq.ownerDiffers (q : Seq) (o : Port) : Bool :=
  match q.lastOwner with
  | .none => false
  | .some b => decide (b ≠ o)

/-- Does a batch step of the context fit in the time left (R46, R91)? -/
def State.fits (s : State) (p n now : Nat) : Bool :=
  let c := s.ctx p n
  let cost := if (s.seq p).ownerDiffers c.owner then s.zeroCost else 0
  decide (now + bits (c.table.active.data.num 0 64) 445 426 * 1000 + cost ≤ (s.seq p).periodEnd)

/-- The context whose turn it is in a stream: ascending numbers after the last one served (R62). -/
def State.headCtx (s : State) (p x : Nat) : Option Nat :=
  let last := (s.seq p).served.getD x 15
  ((List.range 16).map (fun i => (last + 1 + i) % 16)).find? (fun n =>
    decide ((s.ctx p n).owner.val = x) && decide ((s.ctx p n).life = .loaded) && (s.headOf p n).isSome)

/-- A stream that becomes pending has its pass value raised to the smallest among pending streams (R62). -/
def State.raisePasses (s : State) (p : Nat) : State :=
  let q := s.seq p
  let pend := (List.range 4).map (fun x => (s.headCtx p x).isSome)
  let old := (List.range 4).filter (fun x => pend.getD x false && q.wasPending.getD x false)
  let low := (old.map (fun x => q.pass.getD x 0)).foldl (fun m v => match m with
    | none => some v
    | some u => some (min u v)) (none : Option Nat)
  s.setSeq p { q with
    wasPending := pend
    pass := (List.range 4).map (fun x =>
      let v := q.pass.getD x 0
      if pend.getD x false && !q.wasPending.getD x false then (match low with
        | some u => max v u
        | none => v) else v) }

/-- The stream selected: the smallest pass value among those whose head fits, ties to the lower port (R62). -/
def State.pick (s : State) (p now : Nat) : Option (Nat × Nat) :=
  (List.range 4).foldl (fun best x =>
    match s.headCtx p x with
    | none => best
    | some n =>
      if !s.fits p n now then best
      else match best with
        | none => some (x, n)
        | some b => if (s.seq p).pass.getD x 0 < (s.seq p).pass.getD b.1 0 then some (x, n) else best) none

/-- Empty what R91 empties on a die; `all` zeroes its stores as well. -/
def Die.batchStart (d : Die) (all : Bool) : Die :=
  let d := { d with tiles := [], staging := none, stationary := none, acc := [], badAcc := [] }
  if all then { d with lws := [], ob := [], tags := [], badLws := [], badOb := [] } else d

/-- Start a batch step of context `n` for stream `x` at `now` (R46, R62, R91). -/
def State.startBatch (s : State) (p x n now key : Nat) : State :=
  let c := s.ctx p n
  let q := s.seq p
  let differs := q.ownerDiffers c.owner
  let s := s.bump (0x2020 + p) 0x0A ((now - q.idleFrom) + (if differs then s.zeroCost else 0))
  let s := s.each (s.squaresOf p) (fun s d => s.setDie d ((s.die d).batchStart differs))
  let t := s.tset key
  let run : Run := {
    ctx := Fin.ofNat 16 n, key := key, stamp := t.stamp.toNat, number := t.begun, start := now
    table := c.table.active, scales := c.scales.active, sft := c.sft.active, dist := c.dist.active, tomb := c.tombFor t.stamp.toNat
    next := 0, loops := [0, 0, 0, 0], waiting := false, untilPassed := false, missed := none, fallbacks := 0
    odd := decide (c.refitStep.toNat % 2 = 1), side := c.scales.side, program := [] }
  let s := s.setTset key { t with begun := t.begun + 1 }
  s.setSeq p { s.seq p with
    run := some run, issued := 0, lastOwner := some c.owner, queues := [], idleFrom := q.periodEnd, busy := true
    pass := q.pass.set x (q.pass.getD x 0 + 1000000 / max 1 ((s.part p).defn.streams.getD x 100))
    served := q.served.set x n }

/-- Are the partition's units idle: no step is left in any queue (R50)? -/
def Seq.unitsIdle (q : Seq) : Bool := (List.range 32).all (fun n => (q.queue n).isEmpty)

/-- Select and start the next batch step, if one fits (R46). A device error has stopped every sequencer (R401). -/
def State.select (s : State) (p now : Nat) : State :=
  let q := s.seq p
  if decide ((s.part p).life ≠ .running) || q.run.isSome || !q.unitsIdle || s.deviceStop || s.power.warned
      || decide (q.periodEnd ≤ now) then s
  else
    let s := s.raisePasses p
    match s.pick p now with
    | none => s
    | some (x, n) => match s.headOf p n with
      | none => s
      | some k => s.startBatch p x n now k

/-! ## The arithmetic clock below a fit clock (02 R44) -/

/-- Does a loaded table need a higher arithmetic clock than the setting in force (R44)? -/
def State.belowFit (s : State) (p : Nat) : Bool :=
  (List.range 16).any (fun n =>
    let c := s.ctx p n
    decide (c.life = .loaded) && c.table.active.full
      && decide (s.obj 0x7000 4 < 5 * bits (c.table.active.data.num 0 64) 425 418))

/-- Count the running move periods that the arithmetic clock now leaves below a fit clock, each once (R44). -/
def State.belowNow (s : State) : State :=
  s.each (List.range 8) (fun s p =>
    let q := s.seq p
    if (s.part p).active && decide (s.clock.boundaryAt < q.periodEnd) && !q.below && s.belowFit p then
      (s.setSeq p { q with below := true }).bump (0x2020 + p) 0x0B 1
    else s)

end Sys2Proof.Machine
end

