-- ==== Sys2Proof/Machine/LoadCheck.lean ====
section
/-! DEFINITION. The load checks: move tables (03 R92, R98, R500 to R502; 05 R123; 08 R209; 10 R265; 11 R285; 12 R306),
scale images (05 R140), special-function tables (06 R156) and distance tables (11 R285), and the check at ARM (R76). -/

namespace Sys2Proof.Machine

/-- Load results (R92, R140). -/
def ldBadCheck : Nat := 16
def ldBadOpcode : Nat := 17
def ldBadField : Nat := 18
def ldBadTarget : Nat := 19
def ldBadLoop : Nat := 20
def ldBadDeadline : Nat := 21
def ldOutOfRange : Nat := 22
def ldShape : Nat := 23
def ldBadEnd : Nat := 24
def ldNotLoaded : Nat := 25
def ldBadScale : Nat := 26
def ldStagingBusy : Nat := 27
def ldUncorr : Nat := 28
def ldDiscarded : Nat := 29
def ldGated : Nat := 30
def ldPeriod : Nat := 9

/-- A loop of a table: first step of the body, the LOOP's index, level and count (R87). -/
structure LoopDef where
  target : Nat
  last : Nat
  level : Nat
  count : Nat
  deriving DecidableEq, Repr

/-- The loops of a table in index order. -/
def loopsOf (b : Bank) : List LoopDef :=
  (List.range (tableSteps b)).filterMap (fun j =>
    let w := stepWord b j
    if wOpcode w = opLoop then some ⟨wTarget w, j, wLevel w, wLoopCount w⟩ else none)

/-- Does a loop body hold step `i`? -/
def LoopDef.holds (l : LoopDef) (i : Nat) : Bool := decide (l.target ≤ i) && decide (i ≤ l.last)

/-- Does a loop share steps with the later loop `k` and break the nesting or level rule with it (R87)? -/
def LoopDef.clashes (l k : LoopDef) : Bool :=
  decide (l.last < k.last) && decide (k.target ≤ l.last) && (decide (l.target < k.target) || decide (l.level ≤ k.level))

/-- What a load check knows besides the table: the partition's definition and number, its virtual dies minus 1, USES,
and which block ranges of a namespace the owner may read (R209). -/
structure LoadView where
  defn : PDef
  part : Nat
  dies : Nat
  uses : Nat
  flash : Nat → Nat → Nat → Bool

/-- Opcode listed in R82? -/
def opListed (o : Nat) : Bool :=
  decide ((0x01 ≤ o ∧ o ≤ 0x08) ∨ (0x10 ≤ o ∧ o ≤ 0x14) ∨ (0x20 ≤ o ∧ o ≤ 0x22) ∨ o = 0x3F)

/-- Is the step's queue one of its opcode's (R82, R265)? -/
def queueOk (w : Nat) : Bool :=
  let o := wOpcode w
  let q := wQueue w
  if o = opLoadw then decide (q = 10)
  else if o = opStream ∨ o = opPqtab then decide (q = 11)
  else if o = opDrain then decide (q = 12)
  else if o = opSfn then decide (q = 13)
  else if o = opNorm then decide (q = 14)
  else if o = opChain then decide (q = 15 + bits w 179 179)
  else if o = opSelect then decide (q = 17)
  else if o = opFetch then decide (q ≤ 9)
  else if o = opScan then decide (q = 19 + bits w 191 189)
  else if o = opCheck then decide (if bits w 191 187 ≤ 15 then q = 18 else q = 19 + (bits w 191 187 - 16) / 2)
  else if o = opWalk then decide (q = 27 ∨ q = 28)
  else if o = opReduce then decide (q = 29 ∨ q = 30)
  else if o = opMark then decide (q = 31)
  else true

/-- Does the step name a range of virtual dies, and is it legal (R92)? -/
def rangeOk (w dies : Nat) : Bool :=
  let o := wOpcode w
  if (opLoadw ≤ o ∧ o ≤ opPqtab) then decide (vFirst w ≤ vLast w) && decide (vLast w ≤ dies)
  else if o = opFetch ∧ 2 ≤ bits w 189 187 then decide (bits w 66 61 ≤ bits w 60 55) && decide (bits w 60 55 ≤ dies)
  else true

/-- The source and destination of a FETCH are a pair of R85. -/
def fetchPair (src dst : Nat) : Bool :=
  decide (dst ≤ 3) && (if src ≤ 1 then decide (dst ≤ 1) else if src = 2 then true else decide (dst ≠ 1))

/-- Field checks of a step at one loop iteration (R92 BAD_FIELD, R98, R122, R123, R265, R271, R285, R306, R501). -/
def fieldsOk (v : LoadView) (w : Nat) : Bool :=
  let o := wOpcode w
  queueOk w && rangeOk w v.dies &&
  (if o = opLoadw then
    fmtTileOk (bits w 149 146) && (fmtIsGs4 (bits w 149 146) == decide (bits w 145 144 ≠ 0))
      && !(decide (bits w 145 144 = 3) && decide ((bits w 161 150 + 1) % 2 = 1))
   else if o = opStream then
    fmtOperandOk (bits w 125 122) && (bitOf w 126 == fmtIsInt (bits w 125 122))
      && decide ((bits w 163 152 + 1) % (bits w 151 140 + 1) = 0)
      && decide (bits w 133 128 + (bits w 163 152 + 1) / (bits w 151 140 + 1) * (bits w 139 134 + 1) ≤ 64)
   else if o = opDrain then
    decide (bits w 142 140 ≤ 4) && (bitOf w 179 || (fmtOutputOk (bits w 146 143) true
        && decide (bits w 168 163 + bits w 162 147 + 1 ≤ 64)))
      && (if bits w 142 140 = 2 ∨ bits w 142 140 = 3 then decide (bits w 139 92 % 32 = 0)
          else if bits w 142 140 = 4 then decide (bits w 139 92 % 64 = 0) else true)
   else if o = opSfn then
    decide (bits w 179 176 ≤ 3) && fmtOutputOk (bits w 113 110) false
      && (bitOf w 175 || decide (bits w 174 159 + bits w 158 143 + 1 ≤ 64))
      && !(bitOf w 114 && !bitOf v.uses 0)
   else if o = opNorm then fmtOutputOk (bits w 77 74) false && bitOf v.uses 0
   else if o = opChain then
    decide (bits w 178 177 ≤ 2) && !(decide (bits w 178 177 = 1) && decide ((bits w 160 137 + 1) % 8 ≠ 0))
   else if o = opSelect then decide (bits w 108 107 ≤ 2) && fmtSelectOk (bits w 106 103)
   else if o = opFetch then
    fetchPair (bits w 191 190) (bits w 189 187)
      && (if bits w 191 190 = 0 then decide ((bits w 90 67 + 1) % 64 = 0) else true)
      && (if bits w 189 187 = 2 then decide (bits w 138 91 % 64 = 0)
          else if bits w 189 187 = 3 then decide (bits w 138 91 % 32 = 0) else true)
   else if o = opCheck then
    (bitOf w 182 == decide (bits w 191 187 ≤ 15)) && decide (bits w 109 108 ≠ 3)
      && decide (bits w 186 183 ≤ 5 ∨ bits w 186 183 = 8 + v.part)
      && (!bitOf w 182 || decide (bits w 181 134 % 64 = 0)) && decide (bits w 75 28 % 16 = 0)
   else if o = opWalk then !(bitOf w 44 && !bitOf v.uses 2)
   else if o = opReduce then decide (bits w 191 144 % 1048576 = 0) && decide (bits w 133 86 % 1048576 = 0)
   else true)

/-- Every byte that the step can address at one loop iteration, as far as R502 assigns it to the load check, lies in
the partition's ranges or the addressed store (R92 OUT_OF_RANGE). -/
def spansOk (v : LoadView) (w : Nat) : Bool :=
  let o := wOpcode w
  let d := v.defn
  let ob := fun (g n : Nat) => decide (g * 32 + n ≤ obBytes)
  if o = opLoadw then
    decide (bits w 179 162 + tilesSize (bits w 149 146) (bits w 145 144) (bits w 161 150 + 1) ≤ 262144)
  else if o = opStream then
    ob (bits w 179 164) ((bits w 151 140 + 1) * (bits w 139 134 + 1) * chunkSize (bits w 125 122))
  else if o = opDrain then
    let n := if bitOf w 179 then (bits w 162 147 + 1) * 32 else (bits w 162 147 + 1) * rowBytes (bits w 146 143)
    (!bitOf w 179 || ob (bits w 178 163) n)
      && (List.range (vLast w + 1 - vFirst w)).all (fun i =>
        let a := bits w 139 92 + i * bits w 91 68 * 64
        if bits w 142 140 = 0 then d.inNear a n
        else if bits w 142 140 = 1 then d.inScratch a n
        else if bits w 142 140 = 4 then decide (a + n ≤ lwsBytes)
        else decide (a + n ≤ obBytes))
  else if o = opSfn then
    ob (bits w 109 94) ((bits w 158 143 + 1) * rowBytes (bits w 113 110))
      && (decide (bits w 142 127 = 0xFFFF) || ob (bits w 142 127) ((bits w 158 143 + 1) * 256))
  else if o = opNorm then
    ob (bits w 133 118) ((bits w 145 134 + 1) * 32)
      && (!bitOf w 179 || ob (bits w 93 78) ((bits w 145 134 + 1) * (bits w 161 146 + 1) * rowBytes (bits w 77 74)))
  else if o = opChain then
    let n := bits w 160 137 + 1
    if bits w 178 177 = 0 then ob (bits w 176 161) (32 + 8 * n) && ob (bits w 131 116) (4 * n)
    else if bits w 178 177 = 1 then
      ob (bits w 176 161) (4 * n * (bits w 136 132 + 1)) && ob (bits w 131 116) (4 * n * (bits w 136 132 + 1))
    else ob (bits w 176 161) (4 * n) && ob (bits w 131 116) (4 * n)
  else if o = opPqtab then
    d.inNear (bits w 131 84) 64 && d.inNearScratch (bits w 179 132) 64
      && d.inScratch (scratchFirst + bits w 75 52 * 64) ((bits w 51 44 + 1) * (bits w 83 76 + 1) * 512)
  else if o = opSelect then
    let n := bits w 102 91 * rowSpan w + (bits w 142 119 + 1) * (fmtBits (bits w 106 103) / 8)
    let k := 8 * (bits w 118 109 + 1)
    (if bitOf w 191 then d.inScratch (bits w 190 143) n else d.inNear (bits w 190 143) n)
      && (let m := bits w 102 91 * (ceilDiv k 64 * 64) + k
          if bitOf w 90 then d.inScratch (bits w 89 42) m else d.inNear (bits w 89 42) m)
      && (decide (bits w 108 107 ≠ 2) || d.inScratch (scratchFirst + bits w 41 18 * 64) (16 * (bits w 102 91 + 1)))
  else if o = opFetch then
    let n := (bits w 90 67 + 1) * 64
    let src := bits w 186 139
    let lanes := decide (2 ≤ bits w 189 187)
    let total := if lanes && !bitOf w 54 then (bits w 60 55 + 1 - bits w 66 61) * n else n
    (if bits w 191 190 = 0 then v.flash (bits src 47 42) (bits src 36 0) (n / 4096)
     else if bits w 191 190 = 1 then d.inFar src total
     else if bits w 191 190 = 2 then d.inNear src total
     else d.inScratch src total)
      && (let a := bits w 138 91
          if bits w 189 187 = 0 then d.inNear a n
          else if bits w 189 187 = 1 then d.inScratch a n
          else if bits w 189 187 = 2 then decide (a + n ≤ lwsBytes)
          else decide (a + n ≤ obBytes))
  else if o = opScan then
    d.inScratch (scratchFirst + bits w 121 98 * 64) 64 && d.inNearScratch (bits w 97 50) 64
      && v.flash (bits w 188 183) (bits w 182 146) (bits w 145 122 + 1)
  else if o = opCheck then
    d.inNearScratch (bits w 75 28) 16
      && (if bitOf w 182 then d.inAny (bits w 181 134) ((bits w 133 110 + 1) * 64)
          else v.flash (bits w 181 176) (bits w 170 134) (bits w 133 110 + 1))
  else if o = opWalk then
    d.inNear (bits w 191 144) 128 && d.inScratch (scratchFirst + bits w 143 120 * 64) 64
      && (bitOf w 44 || d.inScratch (scratchFirst + bits w 119 96 * 64) 64)
      && d.inScratch (scratchFirst + bits w 68 45 * 64) ((bits w 78 71 + 1) * 3136)
  else if o = opReduce then
    let n := v.dies + 1
    d.inNear (bits w 191 144) ((n + 1) * redS w + 131072) && d.inNear (bits w 133 86) (n * redS w + 1048576)
  else true

/-- The values of the loop index that advances step `i`: ADV_LEVEL's index runs over its body's iterations (R83, R87). -/
def indicesOf (ls : List LoopDef) (i w : Nat) : List Nat :=
  if wAdvances w then
    match ls.find? (fun l => l.holds i && decide (l.level = wAdvLevel w)) with
    | some l => List.range (l.count + 1)
    | none => [0]
  else [0]

/-- The word of step `i` at every loop iteration. -/
def wordsOf (ls : List LoopDef) (i w : Nat) : List Nat := (indicesOf ls i w).map (advanceWord w)

/-- The steps of a table at every loop iteration. -/
def Bank.allWords (b : Bank) : List Nat :=
  if !b.full then [] else (List.range (tableSteps b)).flatMap (fun i => wordsOf (loopsOf b) i (stepWord b i))

/-- Checks 17 to 22 of one step; none if it passes. Of two loops that clash, FAIL_STEP names the later LOOP (DESIGN CHOICE,
log 35). -/
def stepFault (v : LoadView) (b : Bank) (ls : List LoopDef) (budget i : Nat) : Option Nat :=
  let w := stepWord b i
  let o := wOpcode w
  let last := tableSteps b - 1
  if !opListed o then some ldBadOpcode
  else if !(wordsOf ls i w).all (fieldsOk v) then some ldBadField
  else if wHasFallback w && (decide (wFallback w ≤ i) || decide (last < wFallback w)
      || ls.any (fun l => l.holds (wFallback w) && !l.holds i)) then some ldBadTarget
  else if decide (o = opLoop) && decide (i < wTarget w) then some ldBadTarget
  else if ls.any (fun l => decide (l.last = i) && ls.any (fun k => k.clashes l)) then some ldBadLoop
  else if wAdvances w && !ls.any (fun l => l.holds i && decide (l.level = wAdvLevel w)) then some ldBadLoop
  else if wHasDeadline w && (decide (o = opLoop ∨ o = opEnd) || decide (wDeadline w = 0)
      || (!wRelative w && (ls.any (fun l => l.holds i) || decide (budget * 1000 < wDeadline w)))) then some ldBadDeadline
  else if !(indicesOf ls i w).all (fun k => advanceFits w k && spansOk v (advanceWord w k)) then some ldOutOfRange
  else none

/-- A load check's verdict: result code, and the failing step or virtual die. -/
abbrev Verdict := Option (Nat × Nat)

/-- The first failing step. -/
def stepsFault (v : LoadView) (b : Bank) (ls : List LoopDef) (budget : Nat) : Nat → Nat → Verdict
  | 0, _ => none
  | k + 1, i => match stepFault v b ls budget i with
    | some c => some (c, i)
    | none => stepsFault v b ls budget k (i + 1)

/-- What partition `p` offers a table of an owner at port `x` (R73, R209). -/
def State.loadView (s : State) (p x uses : Nat) : LoadView :=
  { defn := (s.part p).defn, part := p, dies := (s.squaresOf p).length - 1, uses := uses
    flash := fun ns lba n => s.nsLists ns x && decide (lba + n ≤ s.nsSize ns) }

/-- The load check of a move table (R92). -/
def State.checkTable (s : State) (p x : Nat) (b : Bank) : Verdict :=
  let h := b.data.num 0 64
  let n := bits h 463 452 + 1
  if decide (bits h 479 464 ≠ 1) || decide (b.len ≠ n * 32 + 64)
      || decide (crc32c (b.data.readBytes 64 (n * 32)) ≠ bits h 511 480) then some (ldBadCheck, 0)
  else if bits h 451 446 + 1 ≠ (s.squaresOf p).length then some (ldShape, 0)
  else if s.movePeriod p < bits h 445 426 * 1000 then some (ldPeriod, 0)
  else if wOpcode (stepWord b (n - 1)) ≠ opEnd then some (ldBadEnd, n - 1)
  else stepsFault (s.loadView p x (bits h 417 414)) b (loopsOf b) (bits h 445 426) n 0

/-- The first virtual die of a scale image with a register that is NaN or infinite. -/
def badScale (m : Mem) (dies : Nat) : Option Nat :=
  (List.range dies).find? (fun v => (List.range 4096).any (fun r => bits (m.num (64 + v * 16384 + r * 4) 4) 30 23 = 255))

/-- The load check of a scale image (R140). -/
def State.checkScales (s : State) (p : Nat) (m : Mem) (len : Nat) : Verdict :=
  let h := m.num 0 64
  let n := bits h 463 458 + 1
  if decide (bits h 479 464 ≠ 2) || decide (len ≠ 64 + n * 16384)
      || decide (crc32c (m.readBytes 64 (len - 64)) ≠ bits h 511 480) then some (ldBadCheck, 0)
  else if n ≠ (s.squaresOf p).length then some (ldShape, 0)
  else (badScale m n).map (fun v => (ldBadScale, v))

/-- The load check of special-function tables (R156). -/
def checkSft (m : Mem) (len : Nat) : Verdict :=
  let h := m.num 0 64
  let size := (if bitOf h 461 then 1536 else 0) + (if bitOf h 462 then 1536 else 0) + (if bitOf h 463 then 4096 else 0)
  if decide (bits h 479 464 ≠ 3) || decide (size = 0) || decide (len ≠ 64 + size)
      || decide (crc32c (m.readBytes 64 (len - 64)) ≠ bits h 511 480) then some (ldBadCheck, 0) else none

/-- The load check of a distance-table image for the span at `dst` (R285). -/
def State.checkDist (s : State) (p n : Nat) (m : Mem) (len dst : Nat) : Verdict :=
  let h := m.num 0 64
  let size := (bits h 455 440 + 1) * (bits h 463 456 + 1) * 512
  let act := (s.ctx p n).dist.active
  if decide (bits h 479 464 ≠ 7) || decide (len ≠ 64 + size)
      || decide (crc32c (m.readBytes 64 (len - 64)) ≠ bits h 511 480) then some (ldBadCheck, 0)
  else if !(s.part p).defn.inScratch dst size || (act.full && overlaps dst size act.addr act.len) then some (ldOutOfRange, 0)
  else none

/-! ## Banks by kind, and the checks at ARM (R76, R77, R177) -/

/-- Number of a kind (R74). -/
def kindNo : Kind → Nat
  | .table => 0
  | .scales => 1
  | .sft => 2
  | .dist => 3
  | .tomb => 4

def allKinds : List Kind := [.table, .scales, .sft, .dist, .tomb]

def Context.banks (c : Context) : Kind → Banks
  | .table => c.table
  | .scales => c.scales
  | .sft => c.sft
  | .dist => c.dist
  | .tomb => c.tomb

def Context.setBanks (c : Context) (k : Kind) (b : Banks) : Context :=
  match k with
  | .table => { c with table := b }
  | .scales => { c with scales := b }
  | .sft => { c with sft := b }
  | .dist => { c with dist := b }
  | .tomb => { c with tomb := b }

/-- Kinds selected by bits [4:0] of BANK_CONTROL (R74). -/
def kindsOf (v : Nat) : List Kind := allKinds.filter (fun k => bitOf v (kindNo k))

/-- The far bytes that a FETCH of a table can read (R177): spans. A far range that only CHECK steps read is no part of it, nor is it
named by the table for the ledger (R176 says named, R177's footprint is of FETCH; DESIGN CHOICE, log 100). -/
def farSpans (b : Bank) : List (Nat × Nat) :=
  let ls := loopsOf b
  (List.range (tableSteps b)).flatMap (fun i =>
    let w := stepWord b i
    if wOpcode w = opFetch ∧ bits w 191 190 = 1 then
      (wordsOf ls i w).map (fun w => (bits w 186 139, (bits w 90 67 + 1) * 64))
    else [])

/-- Fields of a ledger entry (07 R176): state, first far byte and bytes. -/
def ledgerState (e : Nat) : Nat := bits e 63 62
def ledgerBase (e : Nat) : Nat := farFirst + bits e 35 16 * 1048576
def ledgerBytes (e : Nat) : Nat := (bits e 55 36 + 1) * 1048576

/-- Does a footprint overlap a WRITING or INCOMPLETE entry (R177)? -/
def State.stagingBusy (s : State) (b : Bank) : Bool :=
  (List.range 64).any (fun i =>
    let e := s.obj 0x3060 (i + 1)
    decide (ledgerState e = 1 ∨ ledgerState e = 3)
      && (farSpans b).any (fun f => overlaps f.1 f.2 (ledgerBase e) (ledgerBytes e)))

/-- Does the table that will be active name a kind with neither an armed shadow nor active content (R76, check 25)? -/
def Context.notLoaded (c : Context) (sel : List Kind) : Bool :=
  let t := if Kind.table ∈ sel then c.table.shadow else c.table.active
  let uses := if t.full then bits (t.data.num 0 64) 417 414 else 0
  [Kind.scales, .sft, .dist, .tomb].any (fun k =>
    bitOf uses (kindNo k - 1) && !(c.banks k).active.full
      && !(decide (k ∈ sel) || decide ((c.banks k).st = .armed)))

end Sys2Proof.Machine
end

