-- ==== Sys2Proof/Machine/Ftl.lean ====
section
/-! DEFINITION. Flash translation: accepting writes and discards and publishing map changes (08 R203, R212, R222,
R223), blocks that are emptied, retired and erased (09 R230 to R240), and the order in which holders are ended (01
R38). -/

namespace Sys2Proof.Machine

/-- Close a band before it is full: its last row is padded (R223). While 64 closed bands wait (R216), it takes no more units
and closes when one of them has been verified (DESIGN CHOICE, log 95). -/
def State.closeBand (s : State) (b : Band) : State :=
  if s.media.verifyFirst then s.setMedia (s.media.updBand b.number (fun x => { x.pad with used := x.capacity }))
  else s.setMedia ((s.media.updBand b.number Band.pad).closeBand b s.clock.now)

/-! ## Acceptance (R31, R212, R222, R223) -/

/-- The erases that run on the dies of some units are suspended (09 R233). -/
def Media.suspendFor (m : Media) (us : List (Nat × BitVec 37)) : Media :=
  us.foldl (fun (m : Media) u => m.suspend (unitBlock u.2 / 4096)) m

/-- The dies of some units. -/
def unitDies (us : List (Nat × BitVec 37)) : List Nat := (us.map (fun u => unitBlock u.2 / 4096)).eraseDups

/-- Accept a piece of a write: it enters the write buffer, is placed, and changes the map at the next boundary. Its programs
suspend the erases of their dies (09 R233), and both its copies in the buffer are written whole (07 R172, R187). The 256 KiB of
the buffer that it takes is the lowest that is free (DESIGN CHOICE, log 119: R204 does not say which). -/
def State.acceptPiece (s : State) (ns start n : Nat) (data values : Mem) (payer : Option Nat) : State :=
  let group := s.media.groups
  let r := s.media.place s.clock.now n
  let m := r.1.suspendFor r.2
  let slot := ((List.range (m.pieces.length + 1)).find? (fun i => !m.pieces.any (fun p => decide (p.slot = i)))).getD 0
  s.setMedia { m with
    badCopies := m.badCopies.filter (fun a => decide (bufferByte a / 262144 ≠ slot))
    badData := m.badData.dropIf (fun a => decide (bufferByte a / 262144 = slot))
    pending := m.pending ++ [⟨.write, ns, start, n, data, values, group, r.2, s.tick⟩]
    pieces := m.pieces ++ [⟨group, ns, start, n, (r.2.map Prod.fst).eraseDups, false, [], slot, payer, unitDies r.2⟩] }

/-- Accept a discard of a range. -/
def State.acceptDiscard (s : State) (kind : ChangeKind) (ns start n : Nat) : State :=
  s.setMedia { s.media with pending := s.media.pending ++ [⟨kind, ns, start, n, [], [], 0, [], s.tick⟩] }

/-- Both buffer copies of a block were lost (07 R186): it is UNREADABLE from the next boundary on. -/
def State.loseBuffer (s : State) (ns lba : Nat) : State :=
  s.setMedia { s.media with pending := s.media.pending ++ [⟨.lose, ns, lba, 1, [], [], 0, [], s.tick⟩] }

/-- Physical copies of a range of logical blocks: every unit that a version or an accepted piece or a pending copy of
it has (R223). -/
def State.copiesOf (s : State) (ns lo n : Nat) : List (BitVec 37) :=
  let here := fun (l : Nat) => decide (lo ≤ l) && decide (l < lo + n)
  ((s.space ns).blocks.filter (fun e => here e.1)).flatMap (fun e => (e.2.filter (fun v => decide (v.st ≠ .unmapped))).map Ver.unit)
    ++ (s.media.pending.filter (fun c => decide (c.kind = .write) && decide (c.ns = ns))).flatMap (fun c =>
        ((List.range c.len).filter (fun j => here (c.start + j))).map (fun j => (c.units.getD j (0, 0)).2))
    ++ (s.media.moves.filter (fun v => decide (v.ns = ns) && here v.lba && !v.lost)).map Move.dst

/-- Overwrite the buffer entries of a range with zeros (R223). One that is published is kept while the namespace has a
holder. -/
def State.wipeBuffer (s : State) (ns lo n : Nat) : State :=
  let free := s.holdersOf ns = []
  s.setMedia { s.media with pieces := s.media.pieces.map (fun p =>
    if p.ns = ns ∧ (!p.published ∨ free) then
      { p with wiped := p.wiped ++ ((List.range p.blocks).map (p.start + ·)).filter (fun l => decide (lo ≤ l) && decide (l < lo + n)) }
    else p) }

/-- Accept a secure discard: its copies wait for erasure, with the parity blocks of the unverified bands that hold
one, and such an open band is padded and closed at once (R223). -/
def State.acceptSecure (s : State) (ns lo n : Nat) : State :=
  let us := (s.copiesOf ns lo n).eraseDups
  let bs := s.media.bands.filter (fun b => decide (b.life = .opened ∨ b.life = .closed)
    && us.any (fun u => decide (unitBlock u ∈ b.blocks)))
  let g := s.media.groups
  let s := (s.setMedia { s.media with
    pending := s.media.pending ++ [⟨.secure, ns, lo, n, [], [], g, [], s.tick⟩], groups := g + 1 }).wipeBuffer ns lo n
  let s := if us = [] then s else
    s.setMedia { s.media with secure := s.media.secure ++ [⟨g, s.tick + 1, ns, us, bs.filterMap (fun b => b.blockOf b.parity)⟩] }
  s.each (bs.filter (fun b => decide (b.life = .opened))) State.closeBand

/-! ## The drain of the buffer (R212; 10 R274) -/

/-- The value that the trailer of a unit keeps (R274): the one the write carried, or the module's own. -/
def Mem.valueAt (m : Mem) (j : Nat) : BitVec 64 := BitVec.ofNat 64 (m.num (8 * j) 8)

/-- The data of a block of a piece as the buffer accepted it, with its value and its unit. -/
def State.pieceData (s : State) (p : Piece) (l : Nat) : Option (Mem × BitVec 64 × BitVec 37) :=
  if p.published then
    (((s.space p.ns).blocks.get [] l).find? (fun v => decide (v.group = p.group ∧ v.st = .mapped))).map (fun v => (v.data, v.value, v.unit))
  else (s.media.pending.find? (fun c => decide (c.kind = .write ∧ c.group = p.group))).map (fun c =>
    (c.data.slice (4096 * (l - c.start)) 4096, c.values.valueAt (l - c.start), (c.units.getD (l - c.start) (0, 0)).2))

/-- What the media die drains of a block: copy A, or copy B where A fails the drain check; none where both fail (10 R274). -/
def State.drainOf (s : State) (p : Piece) (l : Nat) (d : Mem) (value : BitVec 64) : Option Mem :=
  let a := s.media.copyData false p l d
  let b := s.media.copyData true p l d
  if !s.checkFails p.ns l value a then some a
  else if !s.checkFails p.ns l value b then some b
  else none

/-- Copies of a block of a group go to flash as they are drained. -/
def State.setDrained (s : State) (p : Piece) (l : Nat) (d : Mem) : State :=
  if p.published then
    s.setSpace p.ns { s.space p.ns with blocks := (s.space p.ns).blocks.upd [] l (fun vs => vs.map (fun v =>
      if v.group = p.group ∧ v.st = .mapped then { v with data := d } else v)) }
  else s.setMedia { s.media with pending := s.media.pending.map (fun c =>
    if c.kind = .write ∧ c.group = p.group then { c with data := c.data.blit (4096 * (l - c.start)) 4096 d } else c) }

/-- A block of a piece is drained (10 R274): where both copies fail the drain check it becomes UNREADABLE (07 R186), with a record (16
R404). -/
def State.drainBlock (s : State) (p : Piece) (l : Nat) : State :=
  match s.pieceData p l with
  | none => s
  | some (d, value, u) => match s.drainOf p l d value with
    | some x => if x = d then s else s.setDrained p l x
    | none => ((s.loseBuffer p.ns l).bump 0x6030 2 1).raise { flashReport u p.ns l 1 stMismatch with cause := BitVec.ofNat 16 causeCheck }

/-- The pieces of a group have been drained. -/
def State.drained (s : State) (group : Nat) : State :=
  s.each (s.media.pieces.filter (fun p => decide (p.group = group))) (fun s p =>
    s.each ((List.range p.blocks).map (p.start + ·)) (fun s l => (s.setMedia (s.media.readBuffer p l)).drainBlock p l))

/-! ## Publication (01 R36, 08 R203) -/

/-- The next generation (R203). -/
def nextGen (g : Nat) : Nat := if g = 0xFFFFFFFF then 1 else g + 1

/-- The generation of a region that a snapshot sees. -/
def Namespace.genAt (v : Namespace) (region stamp : Nat) : Nat :=
  match (v.gens.get [] region).find? (fun g => decide (g.2 ≤ stamp)) with
  | some g => g.1
  | Option.none => 0

/-- Advance a region's generation. -/
def Namespace.touch (v : Namespace) (region epoch : Nat) : Namespace :=
  { v with
    touched := v.touched ++ [region]
    gens := v.gens.upd [] region (fun g => match g with
      | [] => [(1, epoch)]
      | h :: t => (nextGen h.1, epoch) :: h :: t) }

/-- A lower map entry of a version (R202). -/
def entryOf : Option Ver → Nat
  | none => 0
  | some v => match v.st with
    | .unmapped => 0
    | .mapped => 2 ^ 37 + v.unit.toNat
    | .unreadable => 2 * 2 ^ 37 + v.unit.toNat

/-- Does boundary `epoch` change the entry of a block with these versions: is it another than the one that the boundaries
before it left (R203)? A block that was written and discarded in one tick keeps its entry (R32); one whose buffered data was lost
changes from MAPPED to UNREADABLE. -/
def entryChanges (epoch : Nat) (vs : List Ver) : Bool :=
  match vs with
  | [] => false
  | v :: _ => decide (v.epoch = epoch) && (v.bufLost || decide (entryOf (some v) ≠ entryOf (vs.find? (fun x => decide (x.epoch < epoch)))))

/-- The regions of which boundary `epoch` changes an entry. -/
def Namespace.changedAt (v : Namespace) (epoch : Nat) : List Nat :=
  ((v.blocks.filter (fun b => entryChanges epoch b.2)).map (fun b => b.1 / 256)).eraseDups

/-- Give a block a new version. -/
def Namespace.pushVer (v : Namespace) (lba : Nat) (x : Ver) : Namespace :=
  { v with blocks := v.blocks.upd [] lba (fun l => x :: l) }

/-- The version of a block in the current map. -/
def Namespace.head (v : Namespace) (lba : Nat) : Option Ver := (v.blocks.get [] lba).head?

/-- Give a block a new version in the map. -/
def State.pushVer (s : State) (ns lba : Nat) (x : Ver) : State := s.setSpace ns ((s.space ns).pushVer lba x)

/-- Every segment of which boundary `epoch` changes an entry has its generation advanced by one, however many entries change
(R203), and is to be written back (R205). -/
def State.touchNow (s : State) (epoch : Nat) : State :=
  s.each (s.media.spaces.flatMap (fun e => (e.2.changedAt epoch).map (fun r => (e.1, r)))) (fun s r =>
    (s.setSpace r.1 ((s.space r.1).touch r.2 epoch)).soil (r.1 * 2 ^ 29 + r.2))

/-- The buffered data of a block is lost for every snapshot that read it from the buffer (07 R186). -/
def State.loseVers (s : State) (ns lba : Nat) : State :=
  let lost := fun (v : Ver) => s.media.pieces.any (fun p => decide (p.group = v.group ∧ p.ns = ns ∧ p.start ≤ lba ∧ lba < p.start + p.blocks))
  s.setSpace ns { s.space ns with blocks := (s.space ns).blocks.upd [] lba (fun vs => vs.map (fun v =>
    if v.st = .mapped ∧ lost v then { v with st := .unreadable, data := [], source := none, bufLost := true } else v)) }

/-- Publish one accepted change at boundary `e`. -/
def State.publishChange (s : State) (e : Nat) (c : Change) : State :=
  if (s.space c.ns).life = .absent then s
  else match c.kind with
    | .write => s.each (List.range c.len) (fun s j =>
        s.pushVer c.ns (c.start + j) ⟨e, .mapped, c.data.slice (4096 * j) 4096, c.values.valueAt j,
          (c.units.getD j (0, 0)).2, (c.units.getD j (0, 0)).1, c.born, c.group, none, false⟩)
    | .lose => s.each (List.range c.len) (fun s j =>
        let t := s.loseVers c.ns (c.start + j)
        match (s.space c.ns).head (c.start + j) with
        | none => t
        | some v => if v.st = .mapped then
            t.pushVer c.ns (c.start + j) { v with epoch := e, st := .unreadable, data := [], source := none, bufLost := true }
          else t)
    | _ => s.each ((s.space c.ns).blocks.filter (fun b => decide (c.start ≤ b.1) && decide (b.1 < c.start + c.len)
          && (match b.2 with
            | v :: _ => decide (v.st ≠ .unmapped)
            | [] => false)))
        (fun s b => s.pushVer c.ns b.1 ⟨e, .unmapped, [], 0, 0, 0, c.born, 0, none, false⟩)

/-- Publish one copy, if its source is still the current unit (R203, R226). -/
def State.publishMove (s : State) (e : Nat) (m : Move) : State :=
  match (s.space m.ns).head m.lba with
  | none => s
  | some v =>
    if v.st ≠ .mapped ∨ v.unit ≠ m.src then s
    else if m.lost then s.pushVer m.ns m.lba { v with epoch := e, st := .unreadable, data := [], source := none }
    else s.pushVer m.ns m.lba { v with epoch := e, unit := m.dst, band := m.band, source := m.source }

/-- No region's generation has advanced at this boundary yet. -/
def Media.untouched (m : Media) : Media := { m with spaces := m.spaces.mapVals (fun _ n => { n with touched := [] }) }

/-- The map of epoch `e` takes effect (R36). -/
def State.publishMap (s : State) (e : Nat) : State :=
  let m := s.media.untouched
  let s := s.setMedia { m with pending := [], moves := [], pieces := m.pieces.map (fun p => { p with published := true }) }
  ((s.each m.pending (fun s c => s.publishChange e c)).each m.moves (fun s v => s.publishMove e v)).touchNow e

/-- The blocks of a namespace without the versions of a piece (R213). -/
def Media.revert (_m : Media) (p : Piece) (t : Tab (List Ver)) : Tab (List Ver) :=
  (t.mapVals (fun lba vs => vs.filter (fun v => !decide (v.group = p.group ∧ p.start ≤ lba ∧ lba < p.start + p.blocks)))).filter
    (fun b => !b.2.isEmpty)

/-! ## Age without power (R221) -/

/-- A start-up adds POWEROFF_DAYS to the age of every band. -/
def State.ageBands (s : State) : State :=
  s.setMedia { s.media with
    timed := false
    bands := s.media.bands.map (fun b => { b with aged := b.aged + b.allow.getD 0, allow := some (s.obj 0x4040 2 * dayUnits) }) }

/-- HOST_TIME is written, in ms: the first time after a start-up, the time since the one recorded before replaces the
allowance. A time that lies before the recorded one, 0 included, leaves an allowance of 0 (the rule does not say what it
does; DESIGN CHOICE, log 96). -/
def State.hostTime (s : State) (v : Nat) : State :=
  let old := s.obj 0x4040 1
  if s.media.timed || decide (old = 0) then s.setMedia { s.media with timed := true }
  else s.setMedia { s.media with
    timed := true
    bands := s.media.bands.map (fun b => { b with allow := b.allow.map (fun _ => (v - old) * 100000) }) }

/-! ## Emptying blocks (R226, R230, R232) -/

/-- The current units in a set of blocks: namespace, logical block, version. -/
def State.currentIn (s : State) (f : Nat → Bool) : List (Nat × Nat × Ver) :=
  s.media.spaces.flatMap (fun e => e.2.blocks.filterMap (fun b => match b.2 with
    | v :: _ => if v.st = .mapped ∧ f (unitBlock v.unit) then some (e.1, b.1, v) else none
    | [] => none))

/-- Does a holder with one of the stamps see a superseded version in a block? `newer` is the epoch of the next version. -/
def seesIn (stamps : List Nat) (f : Nat → Bool) (newer : Nat) : List Ver → Bool
  | [] => false
  | v :: vs => (decide (v.st = .mapped) && f (unitBlock v.unit) && stamps.any (fun t => decide (v.epoch ≤ t ∧ t < newer)))
      || seesIn stamps f v.epoch vs

/-- Is a superseded unit of some blocks still seen by a holder (R225, R37)? -/
def State.seen (s : State) (f : Nat → Bool) : Bool :=
  s.media.spaces.any (fun e =>
    let st := s.holdersOf e.1
    e.2.blocks.any (fun b => match b.2 with
      | v :: vs => seesIn st f v.epoch vs
      | [] => false))

/-- Is every unit of a block reclaimable, those that hold map segments included? -/
def State.reclaimable (s : State) (block : Nat) : Bool :=
  let f := fun b => decide (b = block)
  (s.currentIn f).isEmpty && !s.seen f && !s.media.pending.any (fun c => decide (c.kind = .write)
    && c.units.any (fun u => f (unitBlock u.2))) && !s.media.moves.any (fun v => f (unitBlock v.dst) && !v.lost)
    && !s.media.upper.any (fun e => f (unitBlock (upperUnit e.2)))

/-- The unit that a copy is read from: the unit itself in a relocation, the source of a lost copy that is copied again
(R238), none for a unit that is rebuilt from parity (R215). -/
inductive CopyFrom where
  | unit
  | source
  | parity
  deriving DecidableEq, Repr

def CopyFrom.of : CopyFrom → Ver → Option (BitVec 37)
  | .unit, v => some v.unit
  | .source, v => v.source
  | .parity, _ => none

/-- The block that holds a row of a band on its place `i`: the one in use, from the row on from which it is, or the last failed one
of its die before it (R237). -/
def Band.blockAt (b : Band) (i row : Nat) : Option Nat :=
  match b.blockOf i with
  | some k => (k :: (b.failed.filter (fun f => decide (f / 4096 = k / 4096))).reverse).find? (fun f => decide (b.fromRow.get 0 f ≤ row))
  | none => none

/-- A unit of a band is rebuilt from parity: the other 31 blocks of its row are read (R215). -/
def State.rebuildReads (s : State) (b : Band) (u : BitVec 37) : State :=
  s.each (((List.range 32).filterMap (fun i => b.blockAt i (unitPage u))).filter (fun k => decide (k / 4096 ≠ unitBlock u / 4096)))
    (fun s k => (s.readBlockAt (s.media.band b.number) k s.decodes).1)

/-- The unit of a version is rebuilt from parity. -/
def State.readRow (s : State) (v : Ver) : State :=
  match s.media.band v.band with
  | none => s
  | some b => s.rebuildReads b v.unit

/-- What a copy is made from is read. -/
def State.readFrom (s : State) (how : CopyFrom) (v : Ver) : State :=
  match how.of v with
  | some u => (s.readUnit { v with unit := u }).1
  | none => s.readRow v

/-- Copies of units that secure discards named are named with them (R223): a unit and its copy. -/
def SecureJob.follow (j : SecureJob) (new : List (BitVec 37 × BitVec 37)) : SecureJob :=
  { j with units := j.units ++ (new.filter (fun v => decide (v.1 ∈ j.units))).map Prod.snd }

/-- The secure discards of the media follow some copies. -/
def Media.follow (m : Media) (new : List (BitVec 37 × BitVec 37)) : Media :=
  { m with secure := m.secure.map (fun j => j.follow new) }

/-- Have entries become UNREADABLE at the next boundary; their data is lost at once, for holders too (R235). -/
def State.loseUnits (s : State) (l : List (Nat × Nat × Ver)) : State :=
  s.setMedia { s.media with
    moves := s.media.moves.filter (fun m => !l.any (fun u => decide (u.2.2.unit = m.src)))
      ++ l.map (fun u => ⟨u.1, u.2.1, u.2.2.unit, 0, 0, none, true⟩) }

/-- Have units copied into open bands, in turn by lane in pieces of 64; the map names the copies from the next boundary
on (R226). A unit that already moves is left to that move; one whose data fails the check of its trailer is uncorrectable, and
its entry becomes UNREADABLE (10 R274). With the near tier off flash translation copies nothing (07
R197). -/
def State.moveUnits (s : State) (how : CopyFrom) : Nat → List (Nat × Nat × Ver) → State
  | 0, _ => s
  | fuel + 1, l =>
    if l = [] ∨ s.guard.nearOff then s
    else
      let due := (l.take pieceBlocks).filter (fun u => !s.media.moves.any (fun m => decide (m.src = u.2.2.unit)))
      let s := s.each due (fun s u => s.readFrom how u.2.2)
      let bad := fun (u : Nat × Nat × Ver) => s.checkFails u.1 u.2.1 u.2.2.value (s.media.heldData u.1 u.2.1 u.2.2)
      let now := due.filter (fun u => !bad u)
      let (s, us) := s.placePiece now.length
      let m := s.media
      let new := (now.zip us).map (fun u =>
        (⟨u.1.1, u.1.2.1, u.1.2.2.unit, u.2.2, u.2.1, how.of u.1.2.2, false⟩ : Move))
      let s := s.setMedia (({ m with moves := m.moves ++ new } : Media).follow (new.map (fun v => (v.src, v.dst))))
      State.moveUnits (s.loseUnits (due.filter bad)) how fuel (l.drop pieceBlocks)

def State.moveAll (s : State) (how : CopyFrom) (l : List (Nat × Nat × Ver)) : State := s.moveUnits how l.length l

/-- Superseded versions that satisfy `f` become UNREADABLE for the holders that see them. -/
def State.loseOld (s : State) (f : Ver → Bool) : State :=
  s.setMedia { s.media with spaces := s.media.spaces.mapVals (fun _ n => { n with
    blocks := n.blocks.mapVals (fun _ vs => match vs with
      | [] => []
      | v :: vs => v :: vs.map (fun x => if x.st = .mapped ∧ f x then { x with st := .unreadable, data := [], source := none } else x)) }) }

/-- Has the row of a unit lost a page before its band is verified (R235)? -/
def Media.rowLost (m : Media) (v : Ver) : Bool :=
  match m.band v.band with
  | some b => decide (unitPage v.unit ∈ b.lost)
  | none => false

/-- The rows of lost units have lost a page. -/
def Media.loseRows (m : Media) (l : List (Nat × Nat × Ver)) : Media :=
  l.foldl (fun (m : Media) u => m.updBand u.2.2.band (fun b =>
    if unitPage u.2.2.unit ∈ b.lost then b else { b with lost := b.lost ++ [unitPage u.2.2.unit] })) m

/-- Every row of a band that its units have reached has lost a page (R235, R237). -/
def Media.loseBlock (m : Media) (number : Nat) : Media :=
  m.updBand number (fun b => { b with lost := (b.lost ++ List.range b.rowsUsed).eraseDups })

/-- Change the units of an accepted write that satisfy `f`: new places take their turn. -/
def Change.rewrite (f : BitVec 37 → Bool) (c : Change) (new : List (Nat × BitVec 37)) : Change :=
  { c with units := (c.units.foldl (fun (a : List (Nat × BitVec 37) × List (Nat × BitVec 37)) u =>
      if f u.2 then (a.1 ++ [a.2.headD u], a.2.tail) else (a.1 ++ [u], a.2)) ([], new)).1 }

/-- Units of accepted writes that the map does not name yet and that satisfy `f` are lost, if `gone` says so, or weak: lost ones of a row that has lost
another page are gone with it, and the others are placed again, rebuilt from parity where the piece has left the write buffer
(R215, R237). Secure discards name the new places too (R223), and the programs suspend erases (09 R233). -/
def State.rewritePending (s : State) (gone : Bool) (f : BitVec 37 → Bool) : State :=
  s.each (s.media.pending.filter (fun c => decide (c.kind = .write) && c.units.any (fun u => f u.2))) (fun s c =>
    let hit := c.units.filter (fun u => f u.2)
    let r := s.placePiece hit.length
    let drained := !s.media.pieces.any (fun p => decide (p.group = c.group))
    let dead := fun (u : Nat × BitVec 37) => gone && drained && f u.2 && (match s.media.band u.1 with
      | some b => decide (unitPage u.2 ∈ b.lost)
      | none => false)
    let m := (r.1.media.follow ((hit.map Prod.snd).zip (r.2.map Prod.snd))).suspendFor r.2
    let s := r.1.setMedia { m with
      pending := m.pending.map (fun x => if x.kind = .write ∧ x.group = c.group then x.rewrite f r.2 else x)
      pieces := m.pieces.map (fun p => if p.group = c.group then
        { p with bands := (p.bands ++ r.2.map Prod.fst).eraseDups, dies := (p.dies ++ unitDies r.2).eraseDups } else p) }
    let s := if drained then s.bump 0x4040 4 (hit.countP (fun u => !dead u)) else s
    s.each (((List.range c.len).filter (fun j => dead (c.units.getD j (0, 0)))).map (c.start + ·)) (fun s l => s.loseBuffer c.ns l))

/-- Lost units of unverified bands: one with a readable source is copied again; any other is rebuilt from the 31 other
pages of its row, or is UNREADABLE where a second page of the row is lost (R215, R235, R238). Their rows have lost a page
from now on. -/
def State.recover (s : State) (l : List (Nat × Nat × Ver)) : State :=
  let again := l.filter (fun u => u.2.2.source.isSome)
  let rest := l.filter (fun u => u.2.2.source.isNone)
  let good := rest.filter (fun u => !s.media.rowLost u.2.2)
  let s' := ((s.moveAll .source again).moveAll .parity good).bump 0x4040 4 good.length
  let s' := s'.loseUnits (rest.filter (fun u => s.media.rowLost u.2.2))
  s'.setMedia (s'.media.loseRows l)

/-- Copies that the map does not name yet and whose target satisfies `f` are placed again (R238). Each is read again from its source,
or rebuilt from parity where it has none. -/
def State.replace (s : State) (f : BitVec 37 → Bool) : State :=
  let hit := fun (m : Move) => !m.lost && f m.dst
  let again := s.media.moves.filter hit
  let s := s.each again (fun s m => match (s.space m.ns).head m.lba with
    | some v => match m.source with
      | some u => (s.readUnit { v with unit := u }).1
      | none => s.readRow { v with unit := m.dst, band := m.band }
    | none => s)
  let (s, us) := s.placeMany again.length again.length
  let m := s.media.follow ((again.map Move.dst).zip (us.map Prod.snd))
  s.setMedia { m with moves := m.moves.filter (fun m => !hit m) ++ (again.zip us).map (fun v => { v.1 with dst := v.2.2, band := v.2.1 }) }

/-- The superseded versions that holders with one of the stamps see: `newer` is the epoch of the next version. -/
def heldVers (stamps : List Nat) (newer : Nat) : List Ver → List Ver
  | [] => []
  | v :: vs => (if v.st = .mapped ∧ stamps.any (fun t => decide (v.epoch ≤ t ∧ t < newer)) then [v] else []) ++ heldVers stamps v.epoch vs

/-- The superseded units that holders see and that satisfy `f`, each with its namespace and block. -/
def State.heldIn (s : State) (f : Ver → Bool) : List (Nat × Nat × Ver) :=
  s.media.spaces.flatMap (fun e => e.2.blocks.flatMap (fun b => match b.2 with
    | [] => []
    | v :: vs => ((heldVers (s.holdersOf e.1) v.epoch vs).filter f).map (fun x => (e.1, b.1, x))))

/-- Superseded units that holders see and that satisfy `f` are rebuilt from parity and written elsewhere; those that see them go on
reading them (R215, R237). -/
def State.replaceHeld (s : State) (f : Ver → Bool) : State :=
  let l := s.heldIn f
  let s := s.each l (fun s u => s.readRow u.2.2)
  let (s, us) := s.placeMany l.length l.length
  let new := l.zip us
  let m := s.media.follow (new.map (fun x => (x.1.2.2.unit, x.2.2)))
  (s.setMedia { m with spaces := m.spaces.mapVals (fun n sp => { sp with blocks := sp.blocks.mapVals (fun lba vs => vs.take 1 ++ (vs.drop 1).map (fun v =>
    match new.find? (fun x => decide (x.1.1 = n ∧ x.1.2.1 = lba ∧ x.1.2.2 = v)) with
    | some x => { v with unit := x.2.2, band := x.2.1 }
    | none => v)) }) }).bump 0x4040 4 l.length

/-- Regions whose segments lie in some blocks. -/
def Media.segmentsIn (m : Media) (f : Nat → Bool) : List Nat := (m.upper.filter (fun e => f (unitBlock (upperUnit e.2)))).map Prod.fst

/-- The units that must leave some blocks are copied: current units, and map segments, which are written back elsewhere
(log 11). -/
def State.copyOut (s : State) (f : Nat → Bool) : State :=
  let s := s.moveAll .unit (s.currentIn f)
  s.each (s.media.segmentsIn f) State.soil

/-- Claim a band for an activity, unless one holds it (R245). -/
def Media.claim (m : Media) (number by' : Nat) : Media :=
  if m.claims.any (fun c => decide (c.1 = number)) then m else { m with claims := m.claims ++ [(number, by')] }

/-- Empty a block for an activity: its band is claimed, its units are copied, then it is erased, or retired. -/
def State.evacuate (s : State) (block : Nat) (retire : Bool) (by' : Nat) : State :=
  let s := s.copyOut (fun b => decide (b = block))
  let m := (s.media.bands.filter (fun b => decide (block ∈ b.blocks))).foldl (fun (m : Media) b => m.claim b.number by') s.media
  s.setMedia { m with evac := m.evac.filter (fun e => decide (e.block ≠ block)) ++ [⟨block, retire ||
    m.evac.any (fun e => decide (e.block = block) && e.retire), by'⟩] }

/-- A relocation claims a band, copies its current units and has its blocks erased (R226, R230, R245). -/
def State.relocateBand (s : State) (b : Band) (by' : Nat) : State :=
  let s := s.copyOut (fun k => decide (k ∈ b.blocks))
  let m := (s.media.updBand b.number (fun x => { x with life := .victim })).claim b.number by'
  s.setMedia { m with
    evac := m.evac ++ (b.blocks.filter (fun k => !m.evac.any (fun e => decide (e.block = k)))).map (fun k => ⟨k, false, by'⟩) }

/-! ## Wear (R231, R235, R239) -/

/-- Set a bit of MEDIA_STATE: each setting raises a record and, but for WEAR_WARN, the MEDIA bit. -/
def State.setStage (s : State) (bit : Nat) (c : Bool) : State :=
  let v := s.obj 0x4060 2
  if !c || bitOf v bit then s
  else
    let s := (s.put 0x4060 2 (setBit v bit true)).raise (report causeStage 13 0 0 0)
    if bit = 0 then s else s.setErrors { s.errors with evMedia := true }

/-- The stages that wear and spares have reached (R239); read-only is set at the boundary (R240). -/
def State.stages (s : State) : State :=
  let s := s.setStage 0 (decide (90 ≤ s.media.pctUsed))
  let s := s.setStage 1 (decide (100 ≤ s.media.pctUsed))
  s.setStage 2 (decide (s.obj 0x4060 4 * 10 < s.obj 0x4060 3))

/-- Use up one spare (R235). -/
def State.spend (s : State) : State := (s.put 0x4060 4 (s.obj 0x4060 4 - 1)).stages

/-- Take a block out of the band that holds it. -/
def Media.takeOut (m : Media) (block : Nat) : Media :=
  { m with
    bands := (m.bands.map (fun b => { b with
      blks := (List.range 32).map (fun i => if b.blockOf i = some block then 4096 else b.blks.getD i 4096)
      failed := b.failed.filter (fun k => decide (k ≠ block)) })).filter (fun b => !(b.blocks.isEmpty && decide (b.life ≠ .opened)))
    evac := m.evac.filter (fun e => decide (e.block ≠ block)) }

/-- The program/erase counts with that of a block whole, as a RETIRED block keeps it (R231, R249). -/
def Media.keepCount (m : Media) (block : Nat) : Tab Nat :=
  if m.peBase + m.pe.get 0 block = 0 then m.pe else m.pe.set block (m.peBase + m.pe.get 0 block)

/-- Erasures left from before a reset are unfinished as long as a discard of then has copies left, or an erase of then has not ended
(R224). -/
def Media.stillCarried (m : Media) : Bool :=
  m.carried && (m.secure.any (fun j => decide (j.epoch = 0)) || m.erasing.any (fun e => e.again))

/-- A block becomes RETIRED; `sub` is the counter of the reason. A block retired for a program failure took its spare
when it failed (R237). -/
def State.retire (s : State) (block sub : Nat) : State :=
  if block ∈ s.media.retired then s
  else
    let m := s.media.takeOut block
    let s := s.setMedia { m with
      erasing := m.erasing.filter (fun e => decide (e.block ≠ block))
      pe := m.keepCount block
      retired := m.retired ++ [block] }
    let s := (s.setMedia { s.media with doomed := s.media.doomed.filter (fun k => decide (k ≠ block)), carried := s.media.stillCarried }).bump 0x4060 sub 1
    if sub = 5 then s.stages else s.spend

/-- A block enters ERASE_PENDING for an activity (R230). -/
def State.pendErase (s : State) (block by' : Nat) : State :=
  let m := s.media.takeOut block
  s.setMedia { m with erasing := m.erasing ++ [⟨block, false, false, false, false, by'⟩] }

/-- The older versions of a generation that a holder needs: `newer` is the epoch of the next version. -/
def seenGens (stamps : List Nat) (newer : Nat) : List (Nat × Nat) → List (Nat × Nat)
  | [] => []
  | g :: gs => if stamps.any (fun t => decide (g.2 ≤ t ∧ t < newer)) then g :: seenGens stamps g.2 gs else seenGens stamps g.2 gs

/-- The older versions of a block that name a unit or that a holder needs: `newer` is the epoch of the next version. -/
def seenVers (stamps : List Nat) (newer : Nat) : List Ver → List Ver
  | [] => []
  | v :: vs => if v.st = .mapped ∨ stamps.any (fun t => decide (v.epoch ≤ t ∧ t < newer)) then v :: seenVers stamps v.epoch vs
      else seenVers stamps v.epoch vs

/-- Drop the segment versions that no holder needs, with the entries of them that name no unit (R227). -/
def Namespace.trim (n : Namespace) (stamps : List Nat) : Namespace :=
  { n with
    gens := n.gens.mapVals (fun _ g => match g with
      | [] => []
      | h :: t => h :: seenGens stamps h.2 t)
    blocks := n.blocks.mapVals (fun _ vs => match vs with
      | [] => []
      | v :: vs => v :: seenVers stamps v.epoch vs) }

/-- Superseded segment versions that are kept (R227). -/
def Media.oldSegments (m : Media) : Nat :=
  (m.spaces.map (fun e => (e.2.gens.map (fun g => g.2.length - 1)).foldl (· + ·) 0)).foldl (· + ·) 0

/-- Superseded segment versions that the reserved region keeps (R204, R227): 2 KiB each, in the 2 GiB that they share with
the open bands' parity and the band records, whose part is not stated (DESIGN CHOICE, log 95). -/
def segmentRoom : Nat := 1048576

/-- Superseded segment versions that the area does not hold spill to metadata bands, a unit each (R227). -/
def State.spill (s : State) : State :=
  let n := s.media.oldSegments - segmentRoom
  let r := s.placeMany n (n - s.media.spilled)
  if n ≤ s.media.spilled then s.setMedia { s.media with spilled := n } else r.1.setMedia { r.1.media with spilled := n }

/-- Does an activity that claims a band still have a block of it to empty? -/
def Media.claimed (m : Media) (number : Nat) : Bool :=
  match m.band number with
  | some b => m.evac.any (fun e => decide (e.block ∈ b.blocks))
  | none => false

/-- Buffer entries that a secure discard named and that were kept for a holder are overwritten with zeros when the last holder from
before it has ended (R223). -/
def State.wipeHeld (s : State) : State :=
  s.setMedia { s.media with pieces := s.media.pieces.map (fun p =>
    let named := fun (l : Nat) => ((s.space p.ns).blocks.get [] l).any (fun v => decide (v.group = p.group)
      && s.media.secure.any (fun j => decide (j.ns = p.ns ∧ v.unit ∈ j.units) && !(s.holdersOf p.ns).any (fun t => decide (t < j.epoch))))
    { p with wiped := p.wiped ++ ((List.range p.blocks).map (p.start + ·)).filter (fun l => decide (l ∉ p.wiped) && named l) }) }

/-- Blocks whose units have all become reclaimable leave their bands (R226, R235, R236), those to be RETIRED for good even where
another activity empties them, bands with no block left to
empty are released (R245), and segment versions that no holder needs are dropped (R227). With the near tier off flash
translation does not act (07 R197). -/
def State.sweep (s : State) : State :=
  if s.guard.nearOff then s else
  let s := s.wipeHeld
  let s := s.each (s.media.evac.filter (fun e => s.reclaimable e.block)) (fun s e =>
    if e.retire || decide (e.block ∈ s.media.doomed) then s.retire e.block 7 else s.pendErase e.block e.by')
  (s.setMedia { s.media with
    claims := s.media.claims.filter (fun c => s.media.claimed c.1)
    spaces := s.media.spaces.mapVals (fun n v => v.trim (s.holdersOf n)) }).spill

/-- May maintenance start (R247, R248, 20 R491): power states P0 to P3 and no entry to P4, no sanitize, no test hold,
READY, and the near tier, which holds the map, in service (07 R197)? -/
def State.maintains (s : State) : Bool :=
  s.clock.running && decide (s.power.state ≤ 3) && !s.power.waitP4 && decide (s.power.target ≠ some 4) && s.media.sanitize.isNone
    && decide (s.hold = 0) && !s.power.warned && !s.guard.nearOff

/-- Does another activity than the relocation before a retirement claim the band of a block (R245)? -/
def Media.taken (m : Media) (block : Nat) : Bool :=
  m.bands.any (fun b => decide (block ∈ b.blocks) && m.claims.any (fun c => decide (c.1 = b.number ∧ c.2 ≠ 15)))

/-- Blocks of verified bands that a read found without margin, or with a unit that no set decodes, are emptied and RETIRED
(R235, R236), where maintenance may start (R248). A block whose band another activity claims waits for its release (R245). -/
def State.retireDoomed (s : State) : State :=
  if !s.maintains then s else
  let here := s.media.doomed.filter (fun k => s.media.bands.any (fun b =>
    decide (b.life = .verified ∨ b.life = .victim) && decide (k ∈ b.blocks)))
  let l := here.filter (fun k => !s.media.taken k)
  (s.setMedia { s.media with doomed := here.filter s.media.taken }).each l (fun s k => s.evacuate k true 15)

/-- Regions whose segments name or named a unit of a block. -/
def State.namers (s : State) (block : Nat) : List Nat :=
  s.media.spaces.flatMap (fun e => (e.2.blocks.filter (fun b => b.2.any (fun v =>
    decide (v.st ≠ .unmapped) && decide (unitBlock v.unit = block)))).map (fun b => regionKey e.1 b.1))

/-- The erase condition (R232): every segment that named a unit of the block has been written back. -/
def State.mayErase (s : State) (block : Nat) : Bool := (s.namers block).all (fun k => decide (k ∉ s.media.dirty))

/-- A version whose source lies in blocks that are gone or being erased has none any more (R238). -/
def Ver.unsource (v : Ver) (f : Nat → Bool) : Ver := { v with source := v.source.filter (fun u => !f (unitBlock u)) }

/-- No copy is made from blocks that satisfy `f` any more (R238). -/
def Media.unsource (m : Media) (f : Nat → Bool) : Media :=
  { m with
    spaces := m.spaces.mapVals (fun _ n => { n with blocks := n.blocks.mapVals (fun _ vs => vs.map (fun v => v.unsource f)) })
    moves := m.moves.map (fun v => { v with source := v.source.filter (fun u => !f (unitBlock u)) }) }

/-- The copies in a block are gone. -/
def State.dropCopies (s : State) (block : Nat) : State :=
  let m := s.media
  let gone := fun (k : Nat) => decide (k = block)
  s.setMedia { m with
    spaces := m.spaces.mapVals (fun _ n => { n with blocks := (n.blocks.mapVals (fun _ vs => (vs.filter (fun v =>
      decide (v.st ≠ .mapped) || !gone (unitBlock v.unit))).map (fun v => v.unsource gone))).filter (fun b => !b.2.isEmpty) })
    secure := (m.secure.map (fun j => { j with
      units := j.units.filter (fun u => !gone (unitBlock u)), blocks := j.blocks.filter (fun k => !gone k) })).filter
      (fun j => !(j.units.isEmpty && j.blocks.isEmpty))
    doomed := m.doomed.filter (fun k => !gone k)
    reads := m.reads.erase block }

/-- An erase of a block ended good: the block is FREE (R230, R233). -/
def State.erased (s : State) (block : Nat) : State :=
  let s := s.dropCopies block
  let m := s.media
  let s := s.setMedia { m with
    erasing := m.erasing.filter (fun e => decide (e.block ≠ block))
    sanitize := m.sanitize.map (fun z => { z with erased := if block ∈ z.erased then z.erased else z.erased ++ [block] }) }
  s.setMedia { s.media with carried := s.media.stillCarried }

/-- May an activity that programs start (R242)? -/
def State.relocates (s : State) : Bool := s.maintains && !s.media.readOnly

/-- Set a bit of MAINT_ACTIVE. -/
def State.busyBit (s : State) (n : Nat) : State := s.setMedia { s.media with active := setBit s.media.active n true }

/-! ## Free space and holders (R38, R243, R244) -/

/-- FREE_FLOOR in force. -/
def State.freeFloor (s : State) : Nat := s.gov 0x4060 0x0B

/-- Are the pressure actions of R243 in force under a floor? Between the floor and the recovery level those that have
begun go on: R38 says there both that expiry stops only at the recovery level, and that no other holder is ended at or
above the floor (DESIGN CHOICE, log 82). -/
def Media.presses (m : Media) (floor : Nat) : Bool :=
  decide (m.freeBlocks < floor) || (m.pressure && decide (m.freeBlocks < floor + 1024))

/-- Begin or end the pressure actions. -/
def State.pressureNow (s : State) : State := s.setMedia { s.media with pressure := s.media.presses s.freeFloor }

/-- The holder that R38 ends first: beyond the hold limit, oldest first, then the others, oldest first. The oldest
stamp is beyond the limit whenever any is. Ties go to the set taken first (DEDUCED, log 27). -/
def State.firstHolder (s : State) : Option Nat :=
  (s.taken.filter (fun k => (s.tset k).holds && decide ((s.tset k).due = none))).foldl (fun best k => match best with
    | none => some k
    | some b =>
      let x := s.tset k
      let y := s.tset b
      if x.stamp.toNat < y.stamp.toNat ∨ (x.stamp = y.stamp ∧ x.order < y.order) then some k else best) none

/-! ## Far stagings that stop (07 R176, R178) -/

/-- Ledger entries in MiB units: state, partition, first MiB, MiB. -/
def ledgerFields (e : Nat) : Nat × Nat × Nat × Nat := (bits e 63 62, bits e 61 59, bits e 35 16, bits e 55 36 + 1)

/-- A ledger entry (R176). SIZE has no place for 0 MiB: a staging of no bytes enters one of 1 MiB and writes nothing (R176 does not
shut LENGTH 0 out; DESIGN CHOICE, log 122). -/
def ledgerEntry (st part base size : Nat) : Nat := field 2 62 st + field 3 59 part + field 20 36 (size - 1) + field 20 16 base

/-- Set the state of a ledger entry. -/
def State.setEntry (s : State) (i st : Nat) : State :=
  let f := ledgerFields (s.obj 0x3060 (i + 1))
  s.put 0x3060 (i + 1) (ledgerEntry st f.2.1 f.2.2.1 f.2.2.2)

/-- Far stagings that satisfy `f` stop: what they were to write is open, their entries become INCOMPLETE, and they are
charged the part of their work that they did (02 R66), a free value (log 24). -/
def State.stopStagings (s : State) (f : Staging → Bool) : State :=
  let mine := s.stagings.filter f
  let s := s.setStagings (s.stagings.filter (fun g => !f g))
  s.each (mine.filter (fun g => decide (g.kind = 5))) (fun s g =>
    let t := s.tset g.key
    let s := s.setFabric { s.fabric with fog := ⟨t.reg 4, t.reg 3, s.free⟩ :: clearFog s.fabric.fog (t.reg 4) (t.reg 3) }
    let s := s.charge g.part 3 (min (ceilDiv g.moved 4000) (Config.doneOf s.free (ceilDiv g.moved 4000)))
    let s := s.charge g.part 4 (channelTime (min g.slots (Config.doneOf (s.free + 1) g.slots)))
    s.draw.draw.setEntry g.entry 3)

/-- The partial results of a command that is ended are discarded (01 R34, R38): outputs that are held, and the output
of an I/O command that has not been posted; a far staging stops. -/
def State.dropOutputs (s : State) (k : Nat) : State :=
  let t := s.tset k
  let s := s.setTset k { t with
    held := 0, output := if t.runsSteps then t.output else [], outLen := if t.runsSteps then t.outLen else 0 }
  (s.dropReads k).stopStagings (fun g => decide (g.key = k ∧ g.kind = 5))

end Sys2Proof.Machine
end

