-- ==== Sys2Proof/Machine/Desk.lean ====
section
/-! DEFINITION. Reads and writes of the tiers outside steps: by staging, checks, commit and result copies, pushes and
pulls (07 R186, R187; 15 R377). -/

namespace Sys2Proof.Machine

/-- A bench for partition `p` outside its steps. What unfinished steps of any partition write is open (R93, R377). -/
def State.deskBench (s : State) (p : Nat) : Bench :=
  { mem := s.fabric.mem, bad := s.fabric.bad, fog := s.fabric.fog, walks := s.fabric.walks, dies := s.fabric.dies
    perf := [], tally := [], saved := [], slots := [], used := [], copies := [], mhz := 0, reading := [], pends := fun _ _ => false
    more := false, starved := [], tiles := [], hopNow := 0, hops := 0
    rows := [], dirty := (List.range 8).flatMap (fun q => s.dirty q 32), draw := s.free
    vdies := [], defn := (s.part p).defn, part := p, scales := [], ctx := 0, side := false, sf := sfBuiltIn, distBase := 0, tombBase := 0
    farOff := s.guard.farOff, banksOff := s.guard.banksOff, block := fun _ _ => .denied, flash := []
    lookups := 0, codeBytes := 0, ck := s.ckFor p, window := 0, apart := 0 }

/-- A span of the tiers as a slice that starts at 0, or the first byte that no read may deliver (R186). -/
def State.readTier (s : State) (lo n : Nat) : Except Nat Mem :=
  match (s.deskBench 0).readMem lo n with
  | .ok m => .ok m
  | .error (.uncorrectable _ a, _) => .error a
  | .error _ => .error lo

/-- Write a span of the tiers, or give the address of the block that refuses the write (R187). -/
def State.writeTier (s : State) (lo n : Nat) (m : Mem) : Except Nat State :=
  match (s.deskBench 0).writeMem lo n m with
  | .ok b => .ok (s.setFabric { s.fabric with mem := b.mem, bad := b.bad, fog := b.fog })
  | .error (.uncorrectable _ a, _) => .error a
  | .error _ => .error lo

/-- Uncorrectable data met by the command of a set: a COMMAND record (16 R404). -/
def State.memRecord (s : State) (k a : Nat) : State :=
  s.raise (repOnPort (tierReport causeMem a 1 stUncorr) (Fin.ofNat 4 (keyPort k)))

/-- FOLD of a protected namespace: is a tag fed with each block (10 R272)? -/
def State.folds (s : State) (ns : Nat) : Bool := bitOf (s.gov (0x6040 + ns) 1) 6

/-- The values of `n` blocks, 8 bytes each, computed by the module (R273). -/
def State.valuesOf (s : State) (ns lba n : Nat) (m : Mem) : Mem :=
  if s.isProtected ns then
    (List.range n).foldl (fun v j =>
      Mem.writeBytes v (8 * j) (bytesOf 8 (s.blockValue ns (lba + j) (m.slice (4096 * j) 4096)))) []
  else []

/-- Accept a write of `n` blocks in pieces of 256 KiB (R33, R212), the values computed by the module. -/
def State.acceptWrite (s : State) (payer : Option Nat) (ns lba : Nat) (m : Mem) : Nat → Nat → State
  | 0, _ => s
  | fuel + 1, n =>
    if n = 0 then s
    else
      let k := min n pieceBlocks
      let d := m.slice 0 (4096 * k)
      State.acceptWrite (s.acceptPiece ns lba k d (s.valuesOf ns lba k d) payer) payer ns (lba + k) (m.slice (4096 * k) (4096 * (n - k))) fuel (n - k)

/-- Must a write of `n` blocks wait that no credits hold back, where `t` is the state with it accepted? No piece is accepted after a
power-fail warning (17 R428), while the open bands have no room for one (log 95), or beyond the limits of the write buffer and of the
dies at work (17 R419, R425, R430); the reserve of FREE blocks withholds credits alone (09 R243; DESIGN CHOICE, log 119). -/
def State.mustWait (s t : State) (n : Nat) : Bool :=
  decide (n ≠ 0) && (s.power.warned || !s.media.hasRoom s.clock.now (min n pieceBlocks) || !t.withinLimits)

/-- Charge partition `p` what the commit of `n` blocks takes (02 R63) besides the programs of its pieces: their segments on the
flash channels, and the check values of a protected namespace. -/
def State.chargeCommit (s : State) (p ns lo n : Nat) : State :=
  let a := s.lookups ns lo n
  let s := if a.2 = 0 then a.1 else a.1.bill p 4 (channelTime a.2)
  if s.isProtected ns then s.bill p 5 (s.boardCycles (ckCycles (4096 * n) (s.folds ns))) else s

end Sys2Proof.Machine
end

