-- ==== Sys2Proof/Machine/Logs.lean ====
section
/-! DEFINITION. The log pages (16 R413, R414) and the bytes of IDENTIFY (15 R386). -/

namespace Sys2Proof.Machine

/-- A run of objects as a page holds them: each value in its own size. -/
def State.objBytes (s : State) (idx : Nat) (subs : List Nat) : Bytes :=
  subs.flatMap (fun n => match findObj idx n with
    | some d => s.image d idx n
    | none => [])

/-- Bytes of an entry of the RESET_HISTORY page. -/
def resetEntry (r : BitVec 32 × BitVec 64 × Byte) : Bytes :=
  bytesOf 16 (field 32 96 r.1.toNat + field 64 32 r.2.1.toNat + r.2.2.toNat)

/-- RECORD_SEQ of a position dump (19 R474). -/
def dumpSeqNo (m : Mem) : Nat := bits (m.num 0 64) 452 421

/-- A page: entry size, entries, SEQ of the first and the last. -/
structure Page where
  size : Nat
  entries : List Bytes
  first : Nat
  last : Nat

/-- SEQ of the first and the last of a list. -/
def endSeqs (l : List Nat) : Nat × Nat := (l.headD 0, l.getLastD 0)

/-- The entries of a page (R413). -/
def State.page (s : State) (id : Nat) : Option Page :=
  let e := s.errors
  let recs := fun (l : List Rec) =>
    let q := endSeqs (l.map (fun r => r.seq.toNat))
    some (Page.mk 64 (l.map Rec.image) q.1 q.2)
  if id = 1 then recs e.history
  else if id = 2 then recs e.events
  else if id = 3 then some ⟨256, [padTo 256 (s.objBytes 0x4060 ((List.range 14).map (· + 1))
    ++ s.objBytes 0x4070 ((List.range 16).map (· + 1)))], 0, 0⟩
  else if id = 4 then
    let q := endSeqs (e.dumps.map dumpSeqNo)
    some ⟨32768, e.dumps.map (fun m => m.readBytes 0 32768), q.1, q.2⟩
  else if id = 5 then
    let q := endSeqs (e.resets.map (fun r => r.1.toNat))
    some ⟨16, e.resets.map resetEntry, q.1, q.2⟩
  else if id = 6 then some ⟨28, [bytesOf 4 (e.boot.getD 0 0).toNat ++ (e.boot.drop 1).flatMap (fun w => bytesOf 8 w.toNat)], 0, 0⟩
  else none

/-- Length of a page in bytes, header included. -/
def Page.len (p : Page) : Nat := 64 + p.size * p.entries.length

/-- The bytes of a page (R414). -/
def State.pageBytes (s : State) (id : Nat) (p : Page) : Bytes :=
  bytesOf 64 (field 16 496 id + field 16 480 p.size + field 32 448 p.entries.length + field 32 416 p.first
    + field 32 384 p.last + field 64 320 s.tick) ++ p.entries.flatten

/-- Mark the records of a ring that a read of a page returned (R406, R415). -/
def State.markRead (s : State) (seqs : List (BitVec 32)) : State :=
  s.setErrors { s.errors with ring := s.errors.ring.mapVals (fun _ r =>
      if r.seq ∈ seqs then { r with wasRead := true } else r) }

/-- One entry of IDENTIFY: index, sub-index, length, value. -/
def State.identEntry (s : State) (idx sub : Nat) : Bytes :=
  match (if sub = 0 then some (subZero idx) else findObj idx sub) with
  | none => []
  | some d =>
    let v := s.image d idx sub
    bytesOf 2 idx ++ bytesOf 1 sub ++ bytesOf 1 v.length ++ v

/-- What IDENTIFY returns (15 R386). -/
def State.identBytes (s : State) : Bytes :=
  (List.range 11).flatMap (s.identEntry 0x1000) ++ (List.range 4).flatMap (s.identEntry 0x1010) ++ s.identEntry 0x5000 1

end Sys2Proof.Machine
end

