-- ==== Sys2Proof/Machine/Steps.lean ====
section
/-! DEFINITION. The commands of the sequencers: move periods, the issue of steps, flag fall, the end of a batch step, and
the watchdog (02 R45 to R53; 03 R80 to R91). -/

namespace Sys2Proof.Machine

/-! ## Issue of the steps that enter a queue -/

/-- LOADW (R106). -/
def execLoadw (p : Part) (s : State) : Host.Outcome State Fault Refusal := .next (s.issue p.val (fun w => decide (wOpcode w = opLoadw)))
/-- STREAM (R84). -/
def execStream (p : Part) (s : State) : Host.Outcome State Fault Refusal := .next (s.issue p.val (fun w => decide (wOpcode w = opStream)))
/-- DRAIN (R84, R111). -/
def execDrain (p : Part) (s : State) : Host.Outcome State Fault Refusal := .next (s.issue p.val (fun w => decide (wOpcode w = opDrain)))
/-- SFN (R143). -/
def execSfn (p : Part) (s : State) : Host.Outcome State Fault Refusal := .next (s.issue p.val (fun w => decide (wOpcode w = opSfn)))
/-- NORM in mode STATS (R157). -/
def execNormStats (p : Part) (s : State) : Host.Outcome State Fault Refusal :=
  .next (s.issue p.val (fun w => decide (wOpcode w = opNorm) && !bitOf w 179))
/-- NORM in mode APPLY (R160). -/
def execNormApply (p : Part) (s : State) : Host.Outcome State Fault Refusal :=
  .next (s.issue p.val (fun w => decide (wOpcode w = opNorm) && bitOf w 179))
/-- CHAIN of kind RECUR (R113). -/
def execChainRecur (p : Part) (s : State) : Host.Outcome State Fault Refusal :=
  .next (s.issue p.val (fun w => decide (wOpcode w = opChain) && decide (bits w 178 177 = 0)))
/-- CHAIN of kind PREFIX (R114). -/
def execChainPrefix (p : Part) (s : State) : Host.Outcome State Fault Refusal :=
  .next (s.issue p.val (fun w => decide (wOpcode w = opChain) && decide (bits w 178 177 = 2)))
/-- CHAIN of kind ORTHO (R115). -/
def execChainOrtho (p : Part) (s : State) : Host.Outcome State Fault Refusal :=
  .next (s.issue p.val (fun w => decide (wOpcode w = opChain) && decide (bits w 178 177 = 1)))
/-- PQTAB (R284). -/
def execPqtab (p : Part) (s : State) : Host.Outcome State Fault Refusal := .next (s.issue p.val (fun w => decide (wOpcode w = opPqtab)))
/-- SELECT in mode 0 (R164). -/
def execSelectLargest (p : Part) (s : State) : Host.Outcome State Fault Refusal :=
  .next (s.issue p.val (fun w => decide (wOpcode w = opSelect) && decide (bits w 108 107 = 0)))
/-- SELECT in mode 1 (R164). -/
def execSelectSmallest (p : Part) (s : State) : Host.Outcome State Fault Refusal :=
  .next (s.issue p.val (fun w => decide (wOpcode w = opSelect) && decide (bits w 108 107 = 1)))
/-- SELECT in mode 2 (R167). -/
def execSelectSample (p : Part) (s : State) : Host.Outcome State Fault Refusal :=
  .next (s.issue p.val (fun w => decide (wOpcode w = opSelect) && decide (bits w 108 107 = 2)))
/-- FETCH (R85). -/
def execFetch (p : Part) (s : State) : Host.Outcome State Fault Refusal := .next (s.issue p.val (fun w => decide (wOpcode w = opFetch)))
/-- SCAN (R253). -/
def execScan (p : Part) (s : State) : Host.Outcome State Fault Refusal := .next (s.issue p.val (fun w => decide (wOpcode w = opScan)))
/-- CHECK as a step (R265). -/
def execCheck (p : Part) (s : State) : Host.Outcome State Fault Refusal := .next (s.issue p.val (fun w => decide (wOpcode w = opCheck)))
/-- WALK without RERANK (R287). -/
def execWalk (p : Part) (s : State) : Host.Outcome State Fault Refusal :=
  .next (s.issue p.val (fun w => decide (wOpcode w = opWalk) && !bitOf w 69))
/-- WALK with RERANK (R298). -/
def execWalkRerank (p : Part) (s : State) : Host.Outcome State Fault Refusal :=
  .next (s.issue p.val (fun w => decide (wOpcode w = opWalk) && bitOf w 69))
/-- REDUCE of phase 0 (R309). -/
def execReduceP (p : Part) (s : State) : Host.Outcome State Fault Refusal :=
  .next (s.issue p.val (fun w => decide (wOpcode w = opReduce) && !bitOf w 139))
/-- REDUCE of phase 1 (R311). -/
def execReduceQ (p : Part) (s : State) : Host.Outcome State Fault Refusal :=
  .next (s.issue p.val (fun w => decide (wOpcode w = opReduce) && bitOf w 139))
/-- MARK (R74). -/
def execMark (p : Part) (s : State) : Host.Outcome State Fault Refusal := .next (s.issue p.val (fun w => decide (wOpcode w = opMark)))

/-! ## Steps that the sequencer carries out itself -/

/-- The batch step of a partition if the step that its sequencer is at has opcode `o` and is not held. -/
def State.atStep (s : State) (p o : Nat) : Option Run :=
  match (s.seq p).run with
  | none => none
  | some r =>
    if r.waiting ∨ s.deviceStop ∨ tableSteps r.table ≤ r.next ∨ wOpcode (stepWord r.table r.next) ≠ o then none else some r

/-- WAIT (R86). -/
def execWait (p : Part) (s : State) : Host.Outcome State Fault Refusal :=
  match s.atStep p.val opWait with
  | none => .next s
  | some r =>
    .next (((s.traceStep p.val 0 r).setSeq p.val { s.seq p.val with
      run := some { r with waiting := true, untilPassed := decide (wUntil (stepWord r.table r.next) = 0) } }).endWait p.val)

/-- WAIT_UNTIL (R86): UNTIL of the WAIT in force has passed. -/
def execWaitUntil (p : Part) (s : State) : Host.Outcome State Fault Refusal :=
  match (s.seq p.val).run with
  | none => .next s
  | some r =>
    if r.waiting then .next ((s.setSeq p.val { s.seq p.val with run := some { r with untilPassed := true } }).endWait p.val)
    else .next s

/-- LOOP (R87): it completes at once (R82, 02 R52). -/
def execLoop (p : Part) (s : State) : Host.Outcome State Fault Refusal :=
  match s.atStep p.val opLoop with
  | none => .next s
  | some r =>
    let w := stepWord r.table r.next
    let i := r.loops.getD (wLevel w) 0
    .next (((s.traceStep p.val 0 r).traceStep p.val 1 r).setSeq p.val { s.seq p.val with
      run := some (if i < wLoopCount w
        then { r with loops := r.loops.set (wLevel w) (i + 1), next := wTarget w }
        else { r with loops := r.loops.set (wLevel w) 0, next := r.next + 1 })
      stuck := 0, stepped := true })

/-! ## The end of a batch step (R34, R86, R389) -/

/-- The command's commit span for a batch step: address, namespace, first block, blocks. -/
def TaskSet.commit (t : TaskSet) (b : Nat) : Option (Nat × Nat × Nat × Nat) :=
  if !opTableRun t.opcode || decide (t.reg 7 = 0) then Option.none
  else some (t.reg 7, t.nsNo, bits (t.reg 8) 36 0 + b * bits (t.reg 9) 63 32, bits (t.reg 9) 13 0)

/-- The result span: address and bytes. -/
def TaskSet.result (t : TaskSet) : Option (Nat × Nat) :=
  if !opTableRun t.opcode || decide (t.reg 5 = 0) then Option.none else some (t.reg 5, bits (t.reg 6) 22 0)

/-- End the command of a batch step without its outputs. -/
def State.failRun (s : State) (p k status : Nat) : State := (s.postLater k status (s.tset k).published 0).dropRun p

/-- Hold the outputs of a batch step: `n` bytes of output as they stand, and one more batch step for the next boundary to
publish (R34). -/
def State.holdOutputs (s : State) (p k : Nat) (m : Mem) (n : Nat) : State :=
  (s.setTset k { s.tset k with held := (s.tset k).held + 1, span := m, spanLen := n }).dropRun p

/-- The result span as it stands: its bytes up to the first uncorrectable block, their number, and whether they are all
(R186, R389). -/
def State.resultSpan (s : State) (k : Nat) : Mem × Nat × Bool :=
  match (s.tset k).result with
  | none => ([], 0, true)
  | some (a, n) => match s.readTier a n with
    | .ok m => (m, n, true)
    | .error e =>
      let good := e / 64 * 64 - a
      (match s.readTier a good with
        | .ok m => m
        | .error _ => [], good, false)

/-! ### The results of a search query (11 R300, 15 R391) -/

/-- The generation of an index that a stamp sees. -/
def Index.genAt (i : Index) (stamp : Nat) : Nat :=
  match i.gens.find? (fun g => decide (g.2 ≤ stamp)) with
  | some g => g.1
  | Option.none => 0

/-- The entries of one query: selections with a valid index, each INDEX replaced by the node of the list. -/
def resultEntries (sel list : Mem) (k : Nat) : List Nat :=
  (List.range k).filterMap (fun i =>
    let v := sel.num (8 * i) 8
    let j := bits v 31 0
    if j < bits (list.num 0 64) 511 480 then some (bits v 63 32 * 2 ^ 32 + bits (list.num (64 + 8 * j) 8) 31 0) else none)

/-- The result of query `q`: its bytes, and whether it is short. K and QUERY_TAG are those of the command's header area as it stands
at END (R300 does not say whether the state record's header gives them; DESIGN CHOICE, log 93). -/
def State.queryResult (s : State) (t : TaskSet) (gen q : Nat) : Except Nat (Bytes × Bool) := do
  let hm ← s.readTier (t.reg 2 + 64 * q) 64
  let h := hm.num 0 64
  let k := bits h 463 454 + 1
  let rd ← s.readTier (t.reg 5 + 16 * q) 16
  let sel ← s.readTier (rd.num 0 8) (8 * k)
  let list ← s.readTier (rd.num 8 8) 2112
  let es := resultEntries sel list k
  .ok (bytesOf 16 (field 32 96 (bits h 447 416) + field 32 64 gen + field 32 32 es.length + field 32 0 k)
    ++ es.flatMap (bytesOf 8), decide (es.length < k))

/-- The results of queries `q` on, `n` of them. -/
def State.queryResults (s : State) (t : TaskSet) (gen : Nat) : Nat → Nat → Except Nat (Bytes × Bool)
  | 0, _ => .ok ([], false)
  | n + 1, q => do
    let a ← s.queryResult t gen q
    let b ← State.queryResults s t gen n (q + 1)
    .ok (a.1 ++ b.1, a.2 || b.2)

/-- A search query's batch step reaches END. -/
def State.queryEnd (s : State) (p : Nat) (r : Run) : State :=
  let t := s.tset r.key
  let gen := match (s.ctx p r.ctx.val).index with
    | some i => i.genAt r.stamp
    | none => 0
  match s.queryResults t gen (bits (t.reg 1) 60 53 + 1) 0 with
  | .error a => (s.memRecord r.key a).failRun p r.key stUncorr
  | .ok (b, short) =>
    (s.setTset r.key { t with verdict := if short then stShort else stOk }).draw.holdOutputs p r.key (memOf b) b.length

/-- The commit span of a batch step is accepted as a write (R389). -/
def State.acceptCommit (s : State) (p a ns lba n : Nat) (m : Mem) : State :=
  ((s.sees [(none, a, n * 4096)]).request 4 p).acceptWrite (some p) ns lba m n n

/-- Does a batch step wait at END because its commit span may not be accepted yet (08 R214)? -/
def State.commitWaits (s : State) (p : Nat) (r : Run) : Bool :=
  let t := s.tset r.key
  match t.commit r.number with
  | none => false
  | some (a, ns, lba, n) =>
    if t.due.isSome || decide (t.opcode = 0x34) || s.media.readOnly then false
    else match s.readTier a (n * 4096) with
      | .error _ => false
      | .ok m => s.mustWait (s.acceptCommit p a ns lba n m) n

/-- A batch step reaches END: its commit span is accepted as a write (R389), its outputs are held. -/
def State.reachEnd (s : State) (p : Nat) (r : Run) : State :=
  let t := s.tset r.key
  if t.due.isSome then s.dropRun p
  else if t.opcode = 0x34 then s.queryEnd p r
  else
    let hold := fun (s : State) => (s.sees ((s.tset r.key).result.toList.map (fun a => (none, a.1, a.2)))).holdOutputs p r.key
      (s.resultSpan r.key).1 (s.resultSpan r.key).2.1
    match t.commit r.number with
    | none => hold s
    | some (a, ns, lba, n) =>
      if s.media.readOnly then s.failRun p r.key stReadOnly
      else match s.readTier a (n * 4096) with
        | .error e => (s.memRecord r.key e).failRun p r.key stUncorr
        | .ok m => hold ((s.acceptCommit p a ns lba n m).chargeCommit p ns lba n)

/-- Does nothing but LOADW steps with tiles left stand in the way of END? No pass is left to take their tiles. A LOADW that
was cut or whose last tile is stationary holds END until it leaves its queue (R82, R86). -/
def Seq.surplus (q : Seq) : Bool :=
  !q.unitsIdle && (List.range 32).all (fun n => (q.queue n).all (fun e => decide (n = 10) && !e.ran && !e.cut))

/-- Surplus tiles are discarded at END (R93), and the LOADW steps that hold them complete there (DEDUCED, log 80). -/
def State.dropSurplus (s : State) (p : Nat) : State :=
  if (s.seq p).surplus then
    (s.each (s.squaresOf p) (fun s d => s.setDie d { s.die d with tiles := [], staging := none })).setSeq p
      { s.seq p with queues := [] }
  else s

/-- The blocks that a SCAN, or a CHECK of flash, reads: namespace, first block, number (10 R254, R265). -/
def scanBlocks (w : Nat) : Option (Nat × Nat × Nat) :=
  if wOpcode w = opScan then some (bits w 188 183, bits w 182 146, bits w 145 122 + 1)
  else if wOpcode w = opCheck ∧ !bitOf w 182 then some (bits w 181 176, bits w 170 134, bits w 133 110 + 1)
  else none

/-- Look up the segments of ranges of blocks, each moved on by `shift`; the number of channel slots. -/
def State.lookupAll (s : State) (shift : Nat) (l : List (Nat × Nat × Nat)) : State × Nat :=
  l.foldl (fun a x =>
    let b := a.1.lookups x.1 (x.2.1 + shift) x.2.2
    (b.1, a.2 + b.2)) (s, 0)

/-- The front end loads the map segments of batch step `b` of a scan command into the segment cache (10 R262). Their
reads are charged to the partition (DESIGN CHOICE, log 11). -/
def State.loadBatch (s : State) (p k b : Nat) (table : Bank) : State :=
  let t := s.tset k
  if t.opcode ≠ 0x30 ∨ t.steps ≤ b then s
  else
    let a := s.lookupAll (t.reg 2 + b * t.reg 3) (table.allWords.filterMap scanBlocks)
    if a.2 = 0 then a.1 else a.1.bill p 4 (channelTime a.2)

/-- The segments of the next batch step are loaded during each move period (10 R262): those of the one after the batch step in
progress, or, where none is in progress, of the first one that waits. -/
def State.loadAhead (s : State) (p : Nat) : State :=
  match (s.seq p).run with
  | some r => s.loadBatch p r.key (r.number + 1) r.table
  | none => s.each ((List.range 4).filterMap (s.headCtx p)) (fun s n => match s.headOf p n with
      | some k => s.loadBatch p k (s.tset k).begun (s.ctx p n).table.active
      | none => s)

/-- Select the next batch step, and load the segments of the one after it where one starts. -/
def State.selectNext (s : State) (p now : Nat) : State :=
  let t := s.select p now
  if (t.seq p).run.isSome && (s.seq p).run.isNone then t.loadAhead p else t

/-- END (R46, R86): once every queue is empty the batch step ends, `t` after the last boundary, and the next is selected. It is
issued and completes then, in the trace too (DESIGN CHOICE, log 115). A commit span that may not be accepted yet holds the batch step at
END (log 119). -/
def execEndStep (p : Part) (t : Nat) (s : State) : Host.Outcome State Fault Refusal :=
  match s.atStep p.val opEnd with
  | none => .next s
  | some r =>
    if (!(s.seq p.val).unitsIdle && !(s.seq p.val).surplus) || s.commitWaits p.val r then .next s
    else
      let now := s.clock.boundaryAt + t
      let s := (((s.traceStep p.val 0 r).dropSurplus p.val).traceStep p.val 1 r).reachEnd p.val r
      .next ((s.setSeq p.val { s.seq p.val with idleFrom := now, stuck := 0, stepped := true }).selectNext p.val now)

/-! ## Completion of steps (R80) -/

/-- STEP_COMPLETE: the step at the head of a queue that its unit has carried out, or that was cut, completes; what it
used of the shared resources is charged (02 R66), and what it counted is put in the counters and objects (04 R111, 10 R275). A FETCH
that met data it may not deliver is stopped instead, its destination a mixture of the old bytes and those it delivered (07 R181; 03
R88). -/
def execStepComplete (p : Part) (n : Queue) (s : State) : Host.Outcome State Fault Refusal :=
  let q := s.seq p.val
  match q.queue n.val with
  | [] => .next s
  | e :: rest =>
    if !e.ran then .next s
    else
      let s := s.setSeq p.val { q with
        queues := q.queues.set n.val rest, stuck := if e.cut || e.found.isSome then q.stuck else 0
        stepped := q.stepped || !(e.cut || e.found.isSome) }
      let s := ((s.chargeStep p.val e).classSlots e).countStep e
      match q.run, e.found with
      | some r, some rep => if e.cut then .next ((s.pump p.val pumpFuel).endWait p.val)
        else .next ((s.each e.saved State.mixSaved).stopStep p.val r e rep)
      | _, _ =>
        let s := if wOpcode e.word = opScan ∧ !e.cut then s.bump (0x6010 + bits e.word 191 189) 1 1 else s
        let s := match q.run with
          | some r => if e.cut then s else s.trace p.val (64 + p.val) 1 (wTraceTag e.word) e.index r.ctx.val 0 0
          | none => s
        .next ((s.pump p.val pumpFuel).endWait p.val)

/-! ## Deadlines (R48 to R50, R88 to R90) -/

/-- The uncompleted, uncut steps of a sequencer, in issue order. -/
def Seq.open (q : Seq) : List QStep :=
  let all := ((List.range 32).flatMap q.queue).filter (fun e => !e.cut)
  kFirst (fun (a b : QStep) => decide (a.issue < b.issue)) all.length all

/-- FLAG_FALL (R88, R89): a step with a deadline misses it: one that is issued, the WAIT in force, or one that has not
been issued yet and whose deadline counts from the start of the batch step. -/
def execFlagFall (p : Part) (i : BitVec 12) (s : State) : Host.Outcome State Fault Refusal :=
  let q := s.seq p.val
  match q.run with
  | none => .next s
  | some r =>
    let w := stepWord r.table i.toNat
    if !wHasDeadline w then .next s
    else match q.open.find? (fun e => decide (e.index = i.toNat)) with
      | some e => .next (s.miss p.val i.toNat (some e.issue))
      | none =>
        if (r.waiting && decide (r.next = i.toNat)) || (decide (r.next ≤ i.toNat) && decide (i.toNat < tableSteps r.table) && !wRelative w)
        then .next (s.miss p.val i.toNat none) else .next s

/-- STEP_STOP (R90): a unit stops the step at the head of a queue after 50 us, which counts as a missed deadline. -/
def execStepStop (p : Part) (n : Queue) (s : State) : Host.Outcome State Fault Refusal :=
  match (s.seq p.val).run, (s.seq p.val).queue n.val with
  | some _, e :: _ => if e.cut then .next s else .next (s.miss p.val e.index (some e.issue))
  | _, _ => .next s

/-- The step in progress: the first issued step that is not completed, otherwise the next one (R53). -/
def Seq.inProgress (q : Seq) (r : Run) : Nat :=
  match q.open with
  | e :: _ => e.index
  | [] => r.next

/-- TICK_OVERRUN (R50): the batch step has not reached END at the end of its move period, which is the next boundary. -/
def execTickOverrun (p : Part) (s : State) : Host.Outcome State Fault Refusal :=
  let q := s.seq p.val
  match q.run with
  | none => .next s
  | some r =>
    if q.periodEnd ≤ s.clock.boundaryAt + s.tickUnits then .next (s.overrun p.val (s.tick + 1) (q.inProgress r)) else .next s

/-- PARTITION_UNITS_IDLE (R50): the cut steps have drained, `t` after the last boundary, and are charged; the next
batch step is selected. The time of the drain is no idle time (R53): until it ends, the time up to the end of the period
stands as counted. -/
def execPartitionUnitsIdle (p : Part) (t : Nat) (s : State) : Host.Outcome State Fault Refusal :=
  let q := s.seq p.val
  if q.run.isSome then .next s
  else
    let now := s.clock.boundaryAt + t
    let s := s.each ((List.range 32).flatMap q.queue) (fun s e => s.chargeStep p.val e)
    .next ((s.setSeq p.val { q with queues := [], idleFrom := min q.idleFrom now }).selectNext p.val now)

/-! ## Move periods (R45, R52) -/

/-- Is a batch step of the partition in progress or pending? -/
def State.stepsDue (s : State) (p : Nat) : Bool :=
  (s.seq p).run.isSome || (List.range 4).any (fun x => (s.headCtx p x).isSome)

/-- A move period that begins is counted (R53), with the idle time of the one before it, and as one below a fit clock
(R44). -/
def State.countPeriod (s : State) (p : Nat) : State :=
  let q := s.seq p
  let s := if q.run.isNone && decide (q.periodEnd ≠ 0) then s.bump (0x2020 + p) 0x0A (s.clock.boundaryAt - q.idleFrom) else s
  let s := s.bump (0x2020 + p) 9 1
  if s.belowFit p then s.bump (0x2020 + p) 0x0B 1 else s

/-- The sequencer's record of a move period that begins: `stuck` is the number of periods that have ended without a completed
step (R52). -/
def State.beginPeriod (s : State) (p stuck : Nat) : State :=
  s.setSeq p { s.seq p with
    periodEnd := s.clock.boundaryAt + s.movePeriod p, periodEpoch := s.tick
    idleFrom := if (s.seq p).unitsIdle then s.clock.boundaryAt else s.clock.boundaryAt + s.movePeriod p
    stuck := stuck, busy := s.stepsDue p, stepped := false, below := s.belowFit p }

/-- MOVE_PERIOD_START (R45): at a boundary of the partition's phase a move period begins, and the one that ended is judged by
R52. -/
def execMovePeriodStart (p : Part) (s : State) : Host.Outcome State Fault Refusal :=
  let d := (s.part p.val).defn
  let q := s.seq p.val
  if !s.clock.running || decide ((s.part p.val).life ≠ .running) || decide (s.tick % d.divider ≠ d.phase)
      || (decide (q.periodEnd ≠ 0) && decide (s.tick ≤ q.periodEpoch)) then .next s
  else
    let stuck := if q.stepped || decide (q.periodEnd = 0) then 0 else if q.busy || s.stepsDue p.val then q.stuck + 1 else 0
    .next ((((s.countPeriod p.val).beginPeriod p.val stuck).select p.val s.clock.boundaryAt).loadAhead p.val)

/-- Has the move period of a sequencer ended, with no batch step in progress and no period begun since? -/
def State.periodOver (s : State) (p : Nat) : Bool :=
  (s.seq p).run.isNone && decide ((s.seq p).periodEnd ≠ 0) && decide ((s.seq p).periodEnd ≤ s.clock.boundaryAt)

/-- Did this boundary cut a batch step at the end of its move period (R50)? LAST_OVERRUN names the boundary (R53). -/
def State.cutHere (s : State) (p : Nat) : Bool :=
  s.periodOver p && decide (bits (s.obj (0x2020 + p) 0x0C) 63 32 = s.tick % 2 ^ 32) && decide (s.tick ≠ 0)

/-- Move periods without a completed step (R52): one that has ended counts before the next begins. -/
def State.stuckPeriods (s : State) (p : Nat) : Nat :=
  let q := s.seq p
  if q.stepped then 0 else q.stuck + (if s.cutHere p || (s.periodOver p && (q.busy || s.stepsDue p)) then 1 else 0)

/-- The context at the head of selection (R62). -/
def State.selectionHead (s : State) (p : Nat) : Option Nat :=
  ((List.range 4).filterMap (fun x => (s.headCtx p x).map (fun n => ((s.seq p).pass.getD x 0, n)))).foldl
    (fun (best : Option (Nat × Nat)) c => match best with
      | none => some c
      | some b => if c.1 < b.1 then some c else some b) none |>.map Prod.snd

/-- HANG_WATCHDOG (R52): no step completed during 8 consecutive move periods: a dump is captured and a context error is
raised against the context in progress, or at the head of selection. -/
def execHangWatchdog (p : Part) (s : State) : Host.Outcome State Fault Refusal :=
  let q := s.seq p.val
  let who : Option Nat := match q.run, s.cutHere p.val, q.lastOwner with
    | some r, _, _ => some r.ctx.val
    | none, true, some x => some (q.served.getD x.val 0)
    | none, _, _ => s.selectionHead p.val
  match who with
  | none => .next s
  | some n =>
    if s.stuckPeriods p.val < 8 then .next s
    else
      let d := s.observe.dumpNo
      let r := (s.setSeq p.val { q with stuck := 8, stepped := false }).capture 1 p.val s.errors.next.toNat s.clock.now
      let s := r.1
      let d := if r.2 then d else 0xFFFFFFFF
      let s := s.setSeq p.val { s.seq p.val with stuck := 0 }
      .next (s.raise { repAbout (report causeHang 8 p.val 2 stTornDown) p (Fin.ofNat 16 n) with
        portValid := true, port := (s.ctx p.val n).owner
        step := BitVec.ofNat 12 (match q.run with
          | some r => q.inProgress r
          | none => 0)
        detail := BitVec.ofNat 128 d })

/-- PARTITION_RESET_DONE (R400): the known-answer test of a partition reset has ended; the partition is STOPPED from the
next boundary. -/
def execPartitionResetDone (p : Part) (s : State) : Host.Outcome State Fault Refusal :=
  let x := s.part p.val
  if x.life = .resetting then .next (s.setPart p.val { x with katDone := true }) else .next s

end Sys2Proof.Machine
end

