-- ==== Sys2Proof/Machine/Front.lean ====
section
/-! DEFINITION. The front end: the checks at taking (15 R380), the taking and the start of commands (R371, R372, R375),
the frames of the task registers, pushes and pulls (R376, R377), and doorbells (R378). -/

namespace Sys2Proof.Machine

/-! ## Check 1: fields (R380) -/

/-- The first of some fields that is out of range: register and whether it is good. -/
def firstBad : List (Nat × Bool) → Option Nat
  | [] => none
  | (r, ok) :: t => if ok then firstBad t else some r

/-- Is `v` in `lo` to `hi`? -/
def inRange (v lo hi : Nat) : Bool := decide (lo ≤ v) && decide (v ≤ hi)

/-- One MiB. -/
def mib : Nat := 1048576

/-- Registers of the pairs of FEATURES whose value bytes are out of range, up to the pair that ends the list. -/
def featureFault (t : TaskSet) : Nat → Nat → Option Nat
  | 0, _ => none
  | n + 1, r =>
    if bits (t.reg r) 63 48 = 0 then none
    else if inRange (bits (t.reg r) 39 36) 1 8 then featureFault t n (r + 2) else some r

/-- The register of the first faulty field of a command (R380 check 1). -/
def State.fieldFault (s : State) (t : TaskSet) : Option Nat :=
  let o := t.opcode
  let r := t.reg
  if !opKnown o then some 0
  else if o = 0x02 then match s.page (bits (r 1) 63 48) with
    | none => some 1
    | some p => firstBad [(1, decide (bits (r 1) 47 0 ≤ p.len)), (2, inRange (bits (r 2) 31 0) 1 mib)]
  else if o = 0x03 then featureFault t 5 1
  else if o = 0x04 then firstBad [(1, decide (r 1 % 65536 = 0) && decide (r 1 < 14 * mib)), (2, inRange (bits (r 2) 16 0) 1 65536)]
  else if o = 0x05 ∨ o = 0x06 then firstBad [(1, inRange (bits (r 1) 63 62) 1 2)]
  else if o = 0x10 ∨ o = 0x15 then firstBad [(3, inRange (r 3) 1 1024)]
  else if o = 0x11 then firstBad [(3, inRange (r 3) 1 8192)]
  else if o = 0x12 ∨ o = 0x13 then firstBad [(3, inRange (r 3) 1 (2 ^ 40))]
  else if o = 0x16 then
    firstBad [(1, decide (bits (r 1) 58 57 ≠ 3) && decide (bits (r 1) 56 53 ≤ 5 ∨ bits (r 1) 56 53 = 8 + t.partNo)),
      (2, !bitOf (r 1) 59 || decide (r 2 % 64 = 0))]
  else if o = 0x20 then firstBad [(1, inRange (bits (r 1) 63 62) 1 3)]
  else if o = 0x21 then
    let k := bits (r 1) 61 59
    firstBad [(1, decide (k ≤ 4) && (decide (k ≠ 3) || decide (bits (r 1) 58 57 ≤ 1))),
      (3, decide (k ≠ 3) || decide (r 3 % mib = 0)),
      (4, if k = 3 then decide (r 4 % mib = 0) else if k = 4 then decide (r 4 % 64 = 0) else true)]
  else if opTableRun o then
    firstBad [(2, decide (o ≠ 0x33) || decide (r 2 % mib = 0)), (3, decide (o ≠ 0x33) || decide (r 3 % mib = 0)),
      (4, decide (o ≠ 0x30) || decide (r 4 % 64 = 0)), (6, decide (bits (r 6) 22 0 ≤ 4194304)),
      (9, decide (r 7 = 0) || inRange (bits (r 9) 13 0) 1 8192),
      (10, decide (o = 0x30 ∨ o = 0x33) || decide (r 10 % 64 = 0))]
  else if o = 0x34 then
    firstBad [(1, inRange (bits (r 1) 63 61) 1 4 && (decide (bits (r 1) 63 61 ≠ 4) || inRange (bits (r 1) 31 0) 1 65536))]
  else none

/-! ## Checks 2 to 6 -/

/-- Check 2: does the module's condition refuse the command (R380: before READY, P4, SAFE, a test hold, a near-tier
failure)? -/
def State.refuses (s : State) (o : Nat) : Bool :=
  !decide (o = 0x01 ∨ o = 0x02)
    && (!s.clock.running || decide (s.errors.device = 2) || decide (s.hold ≠ 0) || s.guard.nearOff
      || ((decide (4 ≤ s.power.state) || s.power.waitP4) && !opPartition o))

/-- Check 3: is the command's scope frozen (R394, R395)? -/
def State.isFrozen (s : State) (x : Nat) (t : TaskSet) : Bool :=
  let o := t.opcode
  let f := (s.port x).freeze.toNat
  let never := decide (o = 0x01 ∨ o = 0x02) || (decide (o = 0x20) && decide (2 ≤ bits (t.reg 1) 63 62))
  !never && (bitOf f 9 || (if opPartition o then bitOf f t.partNo else bitOf f 8))

/-- Check 4: does a sanitize in progress refuse the command (R384)? -/
def State.sanitizeRefuses (s : State) (o : Nat) : Bool :=
  s.media.sanitize.isSome && (decide (o = 0x06) || (decide (0x10 ≤ o ∧ o ≤ 0x16) && decide (o ≠ 0x14)) || opPartition o)

/-- Is a port listed in a partition's committed definition (R56)? -/
def State.partLists (s : State) (p x : Nat) : Bool := (s.part p).committed && bitOf (s.part p).defn.ports x

/-- A range of blocks of a namespace that the port may use (R209). -/
def State.blocksOk (s : State) (x ns lba n : Nat) : Bool := s.nsLists ns x && decide (lba + n ≤ s.nsSize ns)

/-- Numbers of batch steps at which a shift that grows with the number is extreme. -/
def extremes (t : TaskSet) : List Nat := [0, t.steps - 1]

/-- Do the addresses of a scan command stay in the partition's ranges and the namespace (R262)? -/
def State.scanOk (s : State) (p x : Nat) (t : TaskSet) (b : Bank) : Bool :=
  b.allWords.all (fun w =>
    let o := wOpcode w
    if o = opScan then
      (extremes t).all (fun i => s.blocksOk x (bits w 188 183) (bits w 182 146 + t.reg 2 + i * t.reg 3) (bits w 145 122 + 1))
        && [0, min 1 (t.steps - 1)].all (fun i => (s.part p).defn.inNearScratch (bits w 97 50 + i * t.reg 4) 64)
    else if o = opCheck ∧ !bitOf w 182 then
      (extremes t).all (fun i => s.blocksOk x (bits w 181 176) (bits w 170 134 + t.reg 2 + i * t.reg 3) (bits w 133 110 + 1))
        && [0, min 1 (t.steps - 1)].all (fun i => (s.part p).defn.inNearScratch (bits w 75 28 + i * t.reg 4) 16)
    else true)

/-- Do `n` bytes at an address that grows by `k` a batch step stay in the partition's near range, or in its scratch range, for every
batch step (R390)? No stride spans the gap between the two. -/
def PDef.shiftOk (d : PDef) (t : TaskSet) (a k n : Nat) : Bool :=
  (extremes t).all (fun i => d.inNear (a + i * k) n) || (extremes t).all (fun i => d.inScratch (a + i * k) n)

/-- The input window and the result span at every batch step (R390). -/
def State.windowsOk (s : State) (p : Nat) (t : TaskSet) : Bool :=
  let d := (s.part p).defn
  let r := t.reg
  decide (r 11 % 64 = 0)
    && (decide (r 10 = 0) || d.shiftOk t (r 10) (bits (r 12) 31 0 * 64) (r 11))
    && (decide (r 5 = 0) || d.shiftOk t (r 5) (bits (r 6) 63 40 * 64) (bits (r 6) 22 0))

/-- The windows of a refit command, and the current banks of its REDUCE steps in window A (R304, R306). -/
def State.refitOk (s : State) (p : Nat) (t : TaskSet) (b : Bank) : Bool :=
  let n := (s.squaresOf p).length
  (s.part p).defn.inNear (t.reg 2) (2 * t.reg 3)
    && b.allWords.all (fun w => decide (wOpcode w ≠ opReduce)
      || within (bits w 133 86) (n * redS w + mib) (t.reg 2) (t.reg 3))

/-- The commit span: near memory, and blocks of a namespace that lists the port, at every batch step (R389). -/
def State.commitOk (s : State) (p x : Nat) (t : TaskSet) : Bool :=
  let n := bits (t.reg 9) 13 0
  decide (t.reg 7 = 0) || ((s.part p).defn.inNear (t.reg 7) (n * 4096)
    && (extremes t).all (fun i => s.blocksOk x t.nsNo (bits (t.reg 8) 36 0 + i * bits (t.reg 9) 63 32) n))

/-- Is the command a SEARCH with an operation: 1 attach, 2 detach, 3 query, 4 update (R391)? -/
def TaskSet.searches (t : TaskSet) (op : Nat) : Bool := decide (t.opcode = 0x34) && decide (bits (t.reg 1) 63 61 = op)

/-- Bytes of a list of `n` update records from address `a`, by their headers (11 R293). -/
def State.listBytes (s : State) (d : Descriptor) : Nat → Nat → Nat
  | 0, _ => 0
  | n + 1, a =>
    let len := d.updBytes (match s.readTier a 16 with
      | .ok m => m.num 0 16
      | .error _ => 0)
    len + State.listBytes s d n (a + len)

/-- Bytes of the record list of a SEARCH update: its records are as long as the attached index makes them (11 R293). -/
def State.updateBytes (s : State) (t : TaskSet) : Nat :=
  match (s.ctx t.partNo t.ctxNo).index with
  | none => 64 * bits (t.reg 1) 31 0
  | some i => s.listBytes (descriptor (numOf i.desc)) (bits (t.reg 1) 31 0) (t.reg 2)

/-- Check 5 for a partition command past the port's listing: its context and its addresses. The state that CONTEXT create
and release need of their slot (R387) is judged here, and again at the boundary (DEDUCED, log 60). -/
def State.contextFault (s : State) (x : Nat) (t : TaskSet) : Option Nat :=
  let p := t.partNo
  let n := t.ctxNo
  let c := s.ctx p n
  let d := (s.part p).defn
  let r := t.reg
  let o := t.opcode
  if o = 0x20 ∧ bits (r 1) 63 62 = 1 then (if c.life = .empty then none else some stDenied)
  else if c.life = .empty ∨ c.owner.val ≠ x then some stDenied
  else if o = 0x20 ∧ bits (r 1) 63 62 = 2 then (if c.life = .loaded ∧ s.ctxBusy p n then some stDenied else none)
  else if c.life = .faulted then some stTornDown
  else if o = 0x20 then none
  else
    let ok :=
      if o = 0x21 then
        (if bits (r 1) 61 59 = 3 then
          (if bits (r 1) 58 57 = 0 then s.blocksOk x t.nsNo (r 2) (r 3 / 4096) else d.inNear (r 2) (r 3)) && d.inFar (r 4) (r 3)
        else d.inNear (r 2) (r 3))
          && (decide (bits (r 1) 61 59 ≠ 4) || d.inScratch (r 4) 64)
      else if opTableRun o then
        s.commitOk p x t && (decide (r 5 = 0) || d.inNearScratch (r 5) (bits (r 6) 22 0))
          && (if o = 0x30 then s.scanOk p x t c.table.active
              else if o = 0x33 then s.refitOk p t c.table.active
              else s.windowsOk p t)
      else if t.searches 3 then
        let q := bits (r 1) 60 53
        d.inNearScratch (r 2) (64 * (q + 1)) && d.inScratch (r 3) (r 4 * q + max 64 (r 4)) && d.inNearScratch (r 5) (16 * (q + 1))
      else if t.searches 1 then d.inNear (r 2) 128
      else if t.searches 4 then d.inNearScratch (r 2) (s.updateBytes t)
      else true
    if ok then none else some stDenied

/-- Check 5: rights and ranges. -/
def State.rightsFault (s : State) (x : Nat) (t : TaskSet) : Option Nat :=
  let o := t.opcode
  let r := t.reg
  let deny := fun (b : Bool) => if b then none else some stDenied
  if o = 0x10 ∨ o = 0x11 ∨ o = 0x12 ∨ o = 0x13 then deny (s.blocksOk x t.nsNo (r 2) (r 3))
  else if o = 0x15 then deny (s.blocksOk x t.nsNo (r 2 * 256) (r 3 * 256))
  else if o = 0x16 then
    (if bitOf (r 1) 59 then deny (s.partLists t.partNo x && (s.part t.partNo).defn.inAny (r 2) (r 3 * 64))
     else deny (s.blocksOk x t.nsNo (r 2) (r 3)))
  else if opPartition o then (if s.partLists t.partNo x then s.contextFault x t else some stDenied)
  else none

/-- The checks at taking, in order (R380): status and STEP of the first failure. -/
def State.takeFault (s : State) (x : Nat) (t : TaskSet) : Option (Nat × Nat) :=
  match s.fieldFault t with
  | some r => some (stBadCommand, r)
  | none =>
    if s.refuses t.opcode then some (stDenied, 0)
    else if s.isFrozen x t then some (stFrozen, 0)
    else if s.sanitizeRefuses t.opcode then some (stSanitize, 0)
    else match s.rightsFault x t with
      | some c => some (c, 0)
      | none => if s.media.readOnly && opWrite t.opcode then some (stReadOnly, 0) else none

/-! ## Start (R372, R375) -/

/-- The largest output that a command's registers allow (R375, R379): a READ returns values with the blocks of a
protected namespace alone (10 R274). -/
def State.maxOut (s : State) (t : TaskSet) : Nat :=
  let o := t.opcode
  if o = 0x01 then 4096
  else if o = 0x02 then bits (t.reg 2) 31 0
  else if o = 0x10 then t.reg 3 * (if s.isProtected t.nsNo then 4104 else 4096)
  else if o = 0x15 then t.reg 3 * 1296
  else if o = 0x16 then 16
  else if opTableRun o then (match t.result with
    | some (_, n) => n
    | Option.none => 0)
  else if o = 0x34 then (if bits (t.reg 1) 63 61 = 3 then (bits (t.reg 1) 60 53 + 1) * 8208
    else if bits (t.reg 1) 63 61 = 4 then bits (t.reg 1) 31 0 * 16 else 0)
  else 0

/-- Does a command of a context wait for an earlier one of the same context (R372)? Commands that run batch steps wait
for each other, and an attach and the commands that use its index wait for each other; an update runs beside a search
(11 R295; DEDUCED, log 29). -/
def TaskSet.waitsFor (t u : TaskSet) : Bool :=
  (t.runsSteps && (u.runsSteps || u.searches 1)) || (t.searches 1 && (u.runsSteps || u.searches 1 || u.searches 4))
    || (t.searches 4 && u.searches 1)

/-- An earlier TAKEN command for the same context that satisfies `f`. -/
def State.earlier (s : State) (t : TaskSet) (f : TaskSet → Bool) : Bool :=
  s.taken.any (fun k =>
    let u := s.tset k
    decide (u.order < t.order) && decide (u.partNo = t.partNo) && decide (u.ctxNo = t.ctxNo) && f u)

/-- Does nothing but output space keep a taken command from starting (R372, R388)? -/
def State.mayRun (s : State) (k : Nat) : Bool :=
  let t := s.tset k
  (decide (s.errors.device ≠ 2) || decide (t.opcode = 0x01 ∨ t.opcode = 0x02)) && (!t.runsSteps || decide ((s.part t.partNo).life = .running))
    && !(decide (t.opcode = 0x11) && s.withheld)
    && !s.earlier t t.waitsFor
    && !(decide (t.opcode = 0x21) && (s.earlier t (fun u => decide (u.opcode = 0x21))
        || (match bits (t.reg 1) 61 59 with
            | 0 => decide ((s.ctx t.partNo t.ctxNo).table.st = .retiring)
            | 1 => decide ((s.ctx t.partNo t.ctxNo).scales.st = .retiring)
            | 2 => decide ((s.ctx t.partNo t.ctxNo).sft.st = .retiring)
            | 4 => decide ((s.ctx t.partNo t.ctxNo).dist.st = .retiring)
            | _ => false)))

/-- May a taken command start (R372, R375)? Commands of a port that wait for output space alone start in taking order. -/
def State.canStart (s : State) (k : Nat) : Bool :=
  let t := s.tset k
  s.mayRun k && decide (s.maxOut t ≤ s.outFree (keyPort k))
    && (decide (s.maxOut t = 0) || !s.taken.any (fun j =>
        let u := s.tset j
        decide (keyPort j = keyPort k) && decide (u.order < t.order) && !u.started && decide (u.due = none) && decide (s.maxOut u ≠ 0)
          && s.mayRun j))

/-- Start a command: its output space is given to it. -/
def State.startCmd (s : State) (k : Nat) : State :=
  let t := s.tset k
  s.setTset k { t with started := true, outSpace := s.maxOut t }

/-- Take a set (R371): the command is stamped, checked, and started if it can start. -/
def State.take (s : State) (k : Nat) : State :=
  let x := keyPort k
  let t : TaskSet := { s.tset k with
    life := .taken, stamp := s.clock.epoch, order := s.orders, started := false, count := 0, arrived := [], wdata := []
    accepted := s.media.groups, published := 0, begun := 0, fallbacks := 0, missed := none, held := 0, span := [], spanLen := 0
    due := none, dueStep := 0, verdict := 0, output := [], outSpace := 0, outLen := 0, tr13 := 0, tr14 := 0, tr15 := 0 }
  let s := (s.setOrders (s.orders + 1)).setTset k t
  let s := s.setPort x { s.port x with evTaken := true }
  match s.takeFault x t with
  | some (st, step) => s.post k st 0 step
  | none => if s.canStart k then s.startCmd k else s

/-! ## Frames of the task registers (R376, R377) -/

/-- Number of a set's state. -/
def setLifeNo : SetLife → Nat
  | .idle => 0
  | .written => 1
  | .taken => 2
  | .done => 3

/-- ARGS of a reply: the request's fields and the set's state (R376). -/
def setArgs (set : Nat) (go : Bool) (first count : Nat) (space : Bool) (offset clear len stamp doorbell life : Nat) (taken : Bool) : Nat :=
  field 6 250 set + field 1 249 (if go then 1 else 0) + field 4 245 first + field 4 241 count
    + field 1 240 (if space then 1 else 0) + field 48 188 offset + field 32 156 clear + field 14 142 len
    + field 64 64 stamp + field 32 32 doorbell + field 3 29 life + field 1 28 (if taken then 1 else 0)

/-- Fields of the ARGS of a request that its type does not use and its reply echoes (R376): SET; GO; FIRST and COUNT; SPACE;
OFFSET; CLEAR; LENGTH. -/
def setNoField : List (Nat × Nat) := [(255, 250)]
def goField : List (Nat × Nat) := [(249, 249)]
def regFields : List (Nat × Nat) := [(248, 245), (244, 241)]
def spaceField : List (Nat × Nat) := [(240, 240)]
def offsetField : List (Nat × Nat) := [(235, 188)]
def clearField : List (Nat × Nat) := [(187, 156)]
def lengthField : List (Nat × Nat) := [(155, 142)]

/-- Some fields of the ARGS of a request, in their places. -/
def requestEcho (r : Req) (fs : List (Nat × Nat)) : Nat := (fs.map (fun f => bits r.args.toNat f.1 f.2 * 2 ^ f.2)).sum

/-- In requests, [127:0] of ARGS must be zero (R376). -/
def argsLowZero (r : Req) : Bool := decide (r.args.toNat % 2 ^ 128 = 0)

/-- Serve a frame of the task registers: ARGS that break R376 are BAD_FRAME before anything else (R377). Every reply
returns the fields of the request, `echo`. -/
def State.serveSet (s : State) (r : Req) (type : Nat) (argsOk : Bool) (k : State → State) (n echo : Nat) : State :=
  if s.reaches r && r.good && !(argsOk && argsLowZero r) then (s.heard r.port.val n (chanNo r.chan)).reply r type stBadFrame echo []
  else s.serve r type true k n echo

/-- Number of the state of a set, as a reply returns it (R376). -/
def State.lifeOf (s : State) (k : Nat) : Nat := setLifeNo (s.tset k).life

/-- The stamp that a reply carries. -/
def TaskSet.stampNow (t : TaskSet) : Nat := if t.life = .taken ∨ t.life = .done then t.stamp.toNat else 0

/-- Progress of a running command (R374). -/
def TaskSet.progress (t : TaskSet) : Nat := if t.runsSteps then t.published else t.count

/-- The field named RSVD of register `n` under the command that TR00 names, if there is one (00 R13, 15 R379 to R391). What a
register holds there is read as zero and used by no command (DEDUCED, log 84). -/
def TaskSet.reserved (t : TaskSet) (n : Nat) : Option (Nat × Nat) :=
  let o := t.opcode
  if n = 0 then some (42, 32)
  else if o = 0x03 ∧ n ≤ 10 ∧ n % 2 = 1 then some (35, 0)
  else if n ≠ 1 then Option.none
  else if (0x10 ≤ o ∧ o ≤ 0x16) ∨ o = 0x34 then some (52, 32)
  else if opTableRun o then some (30, 0)
  else Option.none

/-- Register `n` as TR_READ returns it (R374). -/
def TaskSet.shown (t : TaskSet) (n : Nat) : Nat :=
  if n ≤ 12 then (match t.reserved n with
    | some (hi, lo) => t.reg n - bits (t.reg n) hi lo * 2 ^ lo
    | none => t.reg n)
  else if t.life = .taken then (if n = 15 then field 32 32 t.progress else 0)
  else if n = 13 then t.tr13.toNat else if n = 14 then t.tr14.toNat else t.tr15.toNat

/-- Store the registers of a TR_WRITE; TR13 to TR15 are ignored. The set's record and output are discarded (R370). -/
def TaskSet.write (t : TaskSet) (first count : Nat) (payload : Bytes) : TaskSet :=
  { t with
    regs := (List.range (count + 1)).foldl (fun (m : Tab (BitVec 64)) i =>
      if first + i ≤ 12 then m.set (first + i) (BitVec.ofNat 64 (numOf ((payload.drop (8 * i)).take 8))) else m) t.regs
    life := .written, tr13 := 0, tr14 := 0, tr15 := 0, output := [], outSpace := 0, outLen := 0, stamp := 0 }

/-- TR_WRITE (R377): registers are written; with GO the set is taken. -/
def execTrWrite (r : Req) (set : SetId) (go : Bool) (first count : Fin 16) (payload : Bytes) (s : State) :
    Host.Outcome State Fault Refusal :=
  let k := setKey r.port set
  let args := fun (stamp doorbell life : Nat) (taken : Bool) =>
    requestEcho r (spaceField ++ offsetField ++ clearField ++ lengthField) + setArgs set.val go first.val count.val false 0 0 0 stamp doorbell life taken
  .next (s.serveSet r 0x20 (decide (first.val + count.val ≤ 15)) (fun s =>
    let t := s.tset k
    if t.life = .taken then s.reply r 0x20 stBusy (args 0 0 2 false) []
    else if payload.length ≠ 8 * (count.val + 1) then s.reply r 0x20 stBadLength (args 0 0 (setLifeNo t.life) false) []
    else
      let s := s.setTset k (t.write first.val count.val payload)
      if go then (s.reply r 0x20 stOk (args s.tick 0 2 true) []).take k
      else s.reply r 0x20 stOk (args 0 0 1 false) []) payload.length (args 0 0 (s.lifeOf k) false))

/-- COMMAND_START (R372): a taken command that waited starts. -/
def execCommandStart (x : Port) (set : SetId) (s : State) : Host.Outcome State Fault Refusal :=
  let k := setKey x set
  let t := s.tset k
  if t.life = .taken ∧ !t.started ∧ t.due = none ∧ s.canStart k then .next (s.startCmd k) else .next s

/-- TR_READ (R374, R377). -/
def execTrRead (r : Req) (set : SetId) (first count : Fin 16) (s : State) : Host.Outcome State Fault Refusal :=
  let args := fun (stamp life : Nat) =>
    requestEcho r (goField ++ spaceField ++ offsetField ++ clearField ++ lengthField) + setArgs set.val false first.val count.val false 0 0 0 stamp 0 life false
  .next (s.serveSet r 0x21 (decide (first.val + count.val ≤ 15)) (fun s =>
    let t := s.tset (setKey r.port set)
    s.reply r 0x21 stOk (args t.stampNow (setLifeNo t.life))
      ((List.range (count.val + 1)).flatMap (fun i => bytesOf 8 (t.shown (first.val + i))))) 0
    (args 0 (s.lifeOf (setKey r.port set))))

/-- DB_READ (R377, R378): SET is ignored, so STATE is 0 (R376 does not say of which set; DESIGN CHOICE, log 113). -/
def execDbRead (r : Req) (clear : BitVec 32) (s : State) : Host.Outcome State Fault Refusal :=
  let args := fun (doorbell : Nat) =>
    requestEcho r (setNoField ++ goField ++ regFields ++ spaceField ++ offsetField ++ lengthField) + setArgs 0 false 0 0 false 0 clear.toNat 0 0 doorbell 0 false
  .next (s.serveSet r 0x22 true (fun s =>
    let v := s.port r.port.val
    let s := s.reply r 0x22 stOk (args v.db.toNat) []
    let v := s.port r.port.val
    s.setPort r.port.val { v with db := v.db &&& ~~~ clear }) 0 (args 0))

/-- The bytes of a push that fall outside accepted pieces, and the 64-byte units they fill (R382). -/
def TaskSet.arrive (t : TaskSet) (blocks off : Nat) (payload : Bytes) : TaskSet :=
  (List.range (payload.length / 64)).foldl (fun (t : TaskSet) i =>
    let a := off + 64 * i
    if a < blocks * 4096 then t
    else { t with
      wdata := t.wdata.writeBytes a ((payload.drop (64 * i)).take 64)
      arrived := if a / 64 ∈ t.arrived then t.arrived else t.arrived ++ [a / 64] }) t

/-- Is a payload a push (R377)? -/
def pushOk (payload : Bytes) : Bool := inRange payload.length 64 8192 && decide (payload.length % 64 = 0)

/-- May a push be taken now (R332)? On the forward channel it is not while the write buffer lacks room for a piece. -/
def State.defers (s : State) (r : Req) : Bool :=
  decide (r.chan = .fwd) && decide (s.bufferRoom < s.media.buffered + 262144)

/-- DATA_PUSH with SPACE 0 (R377, R382): the set's input area, or the data of a taken WRITE. -/
def execDataPushInput (r : Req) (set : SetId) (offset : BitVec 48) (payload : Bytes) (s : State) :
    Host.Outcome State Fault Refusal :=
  let k := setKey r.port set
  let off := offset.toNat
  let args := requestEcho r (goField ++ regFields ++ clearField ++ lengthField) + setArgs set.val false 0 0 false off 0 0 0 0 (s.lifeOf k) false
  .next (s.serveSet r 0x30 (decide (off % 64 = 0)) (fun s =>
    let t := s.tset k
    if s.defers r then s.reply r 0x30 stDeferred args []
    else if t.life = .taken ∧ t.opcode ≠ 0x11 then s.reply r 0x30 stBusy args []
    else if t.life = .taken then
      if !pushOk payload || decide (t.reg 3 * 4096 < off + payload.length) then s.reply r 0x30 stBadLength args []
      else (s.setTset k (t.arrive t.count off payload)).reply r 0x30 stOk args []
    else if !pushOk payload || decide (65536 < off + payload.length) then s.reply r 0x30 stBadLength args []
    else (s.setTset k { t with input := t.input.writeBytes off payload }).reply r 0x30 stOk args []) payload.length args)

/-- Does a span lie in the near or the scratch range of a partition that lists the port (R377)? -/
def State.portMay (s : State) (x a n : Nat) : Bool :=
  (List.range 8).any (fun p => s.partLists p x && (s.part p).defn.inNearScratch a n)

/-- A COMMAND record for a push or a pull that met uncorrectable data (16 R404). -/
def State.pushRecord (s : State) (x : Port) (a : Nat) : State :=
  s.raise (repOnPort (tierReport causeMem a 1 stUncorr) x)

/-- The spans of the tiers that a step of a running batch step reads at one loop iteration (R377; 03 R502). -/
def State.readSpans (s : State) (p : Nat) (r : Run) (w : Nat) : List (Nat × Nat) :=
  let o := wOpcode w
  let dies := (s.squaresOf p).length
  let unit := fun (v : Nat) => scratchFirst + v * 64
  if o = opFetch then
    (if bits w 191 190 = 0 then []
     else [(bits w 186 139, (bits w 90 67 + 1) * 64 * (if 2 ≤ bits w 189 187 ∧ !bitOf w 54 then bits w 60 55 + 1 - bits w 66 61 else 1))])
  else if o = opSelect then
    (bits w 190 143, bits w 102 91 * rowSpan w + (bits w 142 119 + 1) * (fmtBits (bits w 106 103) / 8))
      :: (if bits w 108 107 = 2 then [(unit (bits w 41 18), 16 * (bits w 102 91 + 1))] else [])
  else if o = opPqtab then
    [(bits w 131 84, 64 + (bits w 83 76 + 1) * 1024), (bits w 179 132, (bits w 51 44 + 1) * (bits w 83 76 + 1) * 256)]
  else if o = opScan then
    (unit (bits w 121 98), 4096) :: (scanProg (s.fabric.mem.slice (unit (bits w 121 98)) 4096)).sets.map (fun v => (v.1, ceilDiv v.2 8))
  else if o = opCheck then (if bitOf w 182 then [(bits w 181 134, (bits w 133 110 + 1) * 64)] else [])
  else if o = opReduce then
    [(bits w 191 144, (dies + 1) * redS w + 131072), (bits w 133 86, dies * redS w + 1048576)]
  else if o = opWalk then
    let d := descriptor (s.fabric.mem.num (bits w 191 144) 128)
    let q := bits w 78 71 + 1
    [(bits w 191 144, 128), (stateAddr w d 0, q * d.stateBytes (bits w 95 88 + 1) (bits w 87 85 + 1)),
      (tableAddr w (s.bench p 0 r) d 0, q * d.m * 512), (d.entryAddr, 8 * d.entries), (r.tomb.addr, d.tombBytes),
      (d.codeNear, 2 * (d.nodes - d.farNodes) * d.stride)]
      ++ (List.range q).map (fun i => (bits (s.fabric.mem.num (stateAddr w d i) 64) 511 464, ceilDiv d.nodes 8))
  else []

/-- The words of the steps of a running batch step, at every loop iteration, as they are issued (R87, R390). -/
def State.runWords (s : State) (p : Nat) (r : Run) : List Nat :=
  (List.range (tableSteps r.table)).flatMap (fun i =>
    let c := stepWord r.table i
    (indicesOf (loopsOf r.table) i c).map (fun k => s.issueWord p { r with loops := List.replicate 8 k } c))

/-- A push into a span that the running batch step of partition `p` reads: the values there are undefined, and so are the results of a
step in progress that reads it (R377; 03 R93). -/
def State.pushOver (s : State) (p a n : Nat) : State :=
  match (s.seq p).run with
  | none => s
  | some r =>
    let reads := fun (w : Nat) => (s.readSpans p r w).any (fun v => overlaps v.1 v.2 a n)
    if (s.runWords p r).any reads then
      let busy := ((List.range 32).flatMap (s.seq p).queue).filter (fun e => !e.cut && reads e.word)
      ((s.setFabric { s.fabric with fog := ⟨a, n, s.free⟩ :: clearFog s.fabric.fog a n }).draw).each (busy.flatMap QStep.saved) State.undefine
    else s

/-- DATA_PUSH with SPACE 1 (R377): a store at a device address. In SAFE it is not served (16 R402). -/
def execDataPushMemory (r : Req) (set : SetId) (addr : BitVec 48) (payload : Bytes) (s : State) :
    Host.Outcome State Fault Refusal :=
  let a := addr.toNat
  let args := requestEcho r (goField ++ regFields ++ clearField ++ lengthField)
    + setArgs set.val false 0 0 true a 0 0 0 0 (s.lifeOf (setKey r.port set)) false
  .next (s.serveSet r 0x30 (decide (a % 64 = 0)) (fun s =>
    if s.defers r then s.reply r 0x30 stDeferred args []
    else if !pushOk payload then s.reply r 0x30 stBadLength args []
    else if !s.portMay r.port.val a payload.length || decide (s.errors.device = 2) then s.reply r 0x30 stDenied args []
    else match s.writeTier a payload.length (memOf payload) with
      | .ok s => (s.each (List.range 8) (fun s p => s.pushOver p a payload.length)).reply r 0x30 stOk args []
      | .error e => (s.pushRecord r.port e).reply r 0x30 stUncorr args []) payload.length args)

/-- Do the ARGS of a DATA_PULL keep the rules of R376? -/
def pullArgsOk (off len : Nat) : Bool := decide (off % 64 = 0) && inRange len 63 8191 && decide ((len + 1) % 64 = 0)

/-- DATA_PULL with SPACE 0 (R377): output of a DONE set. -/
def execDataPullOutput (r : Req) (set : SetId) (offset : BitVec 48) (length : BitVec 14) (s : State) :
    Host.Outcome State Fault Refusal :=
  let off := offset.toNat
  let args := requestEcho r (goField ++ regFields ++ clearField)
    + setArgs set.val false 0 0 false off 0 length.toNat 0 0 (s.lifeOf (setKey r.port set)) false
  .next (s.serveSet r 0x31 (pullArgsOk off length.toNat) (fun s =>
    let t := s.tset (setKey r.port set)
    if t.life ≠ .done then s.reply r 0x31 stBusy args []
    else s.reply r 0x31 stOk args (t.output.readBytes off (min (length.toNat + 1) (t.outLen - off)))) 0 args)

/-- DATA_PULL with SPACE 1 (R377): memory from a device address. In SAFE it is not served (16 R402). -/
def execDataPullMemory (r : Req) (set : SetId) (addr : BitVec 48) (length : BitVec 14) (s : State) :
    Host.Outcome State Fault Refusal :=
  let a := addr.toNat
  let n := length.toNat + 1
  let args := requestEcho r (goField ++ regFields ++ clearField)
    + setArgs set.val false 0 0 true a 0 length.toNat 0 0 (s.lifeOf (setKey r.port set)) false
  .next (s.serveSet r 0x31 (pullArgsOk a length.toNat) (fun s =>
    if !s.portMay r.port.val a n || decide (s.errors.device = 2) then s.reply r 0x31 stDenied args []
    else match s.readTier a n with
      | .ok m => (s.sees [(none, a, n)]).draw.reply r 0x31 stOk args (m.readBytes 0 n)
      | .error e =>
        let good := e / 64 * 64 - a
        let m := match s.readTier a good with
          | .ok m => m
          | .error _ => []
        (s.pushRecord r.port e).reply r 0x31 stUncorr args (m.readBytes 0 good)) 0 args)

end Sys2Proof.Machine
end

