-- ==== Sys2Proof/Machine/Io.lean ====
section
/-! DEFINITION. The I/O commands (15 R381 to R385; 08 R206, R207, R212, R213, R222, R223; 10 R273) and SANITIZE. -/

namespace Sys2Proof.Machine

/-- Is the command of a set ready for its own event: started, of this opcode, and not begun yet? -/
def State.ready (s : State) (k o : Nat) : Bool := s.runsCmd k o && decide ((s.tset k).begun = 0)

/-- The command of a set has begun. -/
def State.begin (s : State) (k : Nat) : State := s.setTset k { s.tset k with begun := 1 }

/-- Does the data of a block in a snapshot fail the check of its value (10 R274)? -/
def State.failsCheck (s : State) (ns lba stamp : Nat) : Bool :=
  match (s.space ns).verAt lba stamp with
  | some v => decide (v.st = .mapped) && s.checkFails ns lba v.value (s.clearData ns lba v)
  | none => false

/-- An undecodable block met by a host command, one whose data fails its check (10 R274), or one of which both buffer copies were lost
(16 R404, R409). -/
def State.flashRecord (s : State) (k ns lba : Nat) : State :=
  let stamp := (s.tset k).stamp.toNat
  s.raise (repOnPort (if s.lostInBuffer ns lba stamp then repBlock (report causeBuffer 13 0 1 stUncorr) ns lba
    else if s.failsCheck ns lba stamp then
      { flashReport (s.unitAt ns lba stamp) ns lba 1 stUncorr with cause := BitVec.ofNat 16 causeCheck }
    else flashReport (s.unitAt ns lba stamp) ns lba 1 stUncorr) (Fin.ofNat 4 (keyPort k)))

/-! ## Map segments (08 R202, R206, R207) -/

/-- The bytes of a segment record but for its CRC. -/
def State.segmentBody (s : State) (ns region stamp : Nat) : Bytes :=
  let v := s.space ns
  bytesOf 12 (field 32 64 (v.genAt region stamp) + field 6 58 ns + field 29 29 region)
    ++ (List.range 256).flatMap (fun i => bytesOf 5 (entryOf (v.verAt (region * 256 + i) stamp)))

/-- A map segment record (R206). -/
def State.segmentRecord (s : State) (ns region stamp : Nat) : Bytes :=
  let b := s.segmentBody ns region stamp
  b ++ bytesOf 4 (crc32c b)

/-- What a read makes of the hint in place `i` of its input area: none is there for the region, it is valid, or it is
stale (R207). `lo` to `lo + n - 1` are the blocks the read takes from the region. -/
def State.hint (s : State) (input : Mem) (i ns region stamp lo n : Nat) : Option Bool :=
  let b := input.readBytes (1296 * i) 1296
  let h := numOf (b.take 12)
  if crc32c (b.take 1292) ≠ numOf (b.drop 1292) ∨ bits h 63 58 ≠ ns ∨ bits h 57 29 ≠ region then none
  else
    some (decide (bits h 95 64 = (s.space ns).genAt region stamp)
      && (List.range n).all (fun j =>
        let e := numOf ((b.drop (12 + 5 * ((lo + j) % 256))).take 5)
        decide (bits e 39 37 ≠ 1) || decide (e = entryOf ((s.space ns).verAt (lo + j) stamp))))

/-! ## READ (R381, R409) -/

/-- The value that a read returns with a block of a protected namespace (10 R274). -/
def State.valueRead (s : State) (ns lba stamp : Nat) : Nat :=
  match (s.space ns).verAt lba stamp with
  | some v => if v.st = .mapped then v.value.toNat else s.blockValue ns lba []
  | none => s.blockValue ns lba []

/-- Why a run of blocks ends: where it ended, and a failure. -/
def State.readRun (s : State) (stamp x ns lo : Nat) : Nat → Nat → Mem → Mem × Nat × Option BlockRead
  | 0, i, m => (m, i, none)
  | n + 1, i, m => match s.readBlock stamp x ns (lo + i) with
    | .data d => State.readRun s stamp x ns lo n (i + 1) (m.blit (4096 * i) 4096 d)
    | e => (m, i, some e)

/-- Account for the hints of a read: those used, those stale, and the regions looked up in the module's map. The second
part says whether one was stale (R207, R208), the third how many channel slots the lookups took. -/
def State.useHints (s : State) (t : TaskSet) (hints : Bool) (ns lo n stamp : Nat) : State × Bool × Nat :=
  (regionsOf lo n).zipIdx.foldl (fun (a : State × Bool × Nat) r =>
    let h := if hints then a.1.hint t.input r.2 ns r.1.1 stamp r.1.2.1 r.1.2.2 else none
    match h with
    | some true => (a.1.bump 0x4010 4 1, a.2)
    | some false =>
      let b := (a.1.bump 0x4010 5 1).lookup (ns * 2 ^ 29 + r.1.1)
      (b.1, true, a.2.2 + b.2)
    | none =>
      let b := a.1.lookup (ns * 2 ^ 29 + r.1.1)
      (b.1, a.2.1, a.2.2 + b.2)) (s, false, 0)

/-- READ: the blocks of the command's snapshot become its output, which READ_COMPLETE posts. -/
def execRead (x : Port) (set : SetId) (s : State) : Host.Outcome State Fault Refusal :=
  let k := setKey x set
  if !s.ready k 0x10 then .next s
  else
    let t := s.tset k
    let ns := t.nsNo
    let st := t.stamp.toNat
    let r := s.readRun st x.val ns (t.reg 2) (t.reg 3) 0 []
    let vals := if s.isProtected ns then (List.range r.2.1).flatMap (fun i => bytesOf 8 (s.valueRead ns (t.reg 2 + i) st)) else []
    let h := s.useHints t (bitOf (t.reg 1) 61) ns (t.reg 2) (t.reg 3) st
    let c := h.1.countSlots ns (t.reg 2) r.2.1 st
    let used := if h.2.2 + c.2 = 0 then [] else [(4, channelTime (h.2.2 + c.2))]
    let s := c.1.becomePending (8 + x.val) used
    let s := match r.2.2 with
      | some .unreadable => s.flashRecord k ns (t.reg 2 + r.2.1)
      | _ => s
    let verdict := match r.2.2 with
      | some .unreadable => stUncorr
      | some _ => stDenied
      | none => if h.2.1 then stStale else stOk
    let s := s.output k (r.1.writeBytes (4096 * r.2.1) vals) (4096 * r.2.1 + vals.length)
    .next (s.setTset k { s.tset k with begun := 1, count := r.2.1, verdict := verdict, used := used })

/-- READ_COMPLETE (R374): the flash reads of a READ, a MAP_SEGMENTS or a flash CHECK have finished, and are charged (02 R66). -/
def execReadComplete (x : Port) (set : SetId) (s : State) : Host.Outcome State Fault Refusal :=
  let k := setKey x set
  let t := s.tset k
  let flash := s.runsCmd k 0x10 || s.runsCmd k 0x15 || (s.runsCmd k 0x16 && !bitOf (t.reg 1) 59)
  if flash && decide (t.begun = 1) then .next ((s.chargeReads k).post k t.verdict t.count 0) else .next s

/-- MAP_SEGMENTS (R385): one record for each region at the command's snapshot, up to the first whose segment cannot be read (16
R409). -/
def execMapSegments (x : Port) (set : SetId) (s : State) : Host.Outcome State Fault Refusal :=
  let k := setKey x set
  if !s.ready k 0x15 then .next s
  else
    let t := s.tset k
    let bad := fun (i : Nat) => s.media.segmentLost t.nsNo (256 * (t.reg 2 + i))
    let n := ((List.range (t.reg 3)).find? bad).getD (t.reg 3)
    let m := memOf ((List.range n).flatMap (fun i => s.segmentRecord t.nsNo (t.reg 2 + i) t.stamp.toNat))
    let c := s.lookups t.nsNo (256 * t.reg 2) (256 * n)
    let used := if c.2 = 0 then [] else [(4, channelTime c.2)]
    let s := (c.1.output k m (1296 * n)).becomePending (8 + x.val) used
    let s := if n = t.reg 3 then s else s.flashRecord k t.nsNo (256 * (t.reg 2 + n))
    .next (s.setTset k { s.tset k with begun := 1, count := n, verdict := if n = t.reg 3 then stOk else stUncorr, used := used })

/-! ## CHECK as a command (R385; 10 R267 to R271) -/

/-- Feed units until one fails: the register, the units fed, and the failure. -/
def feedUnits (c : CkCfg) (mode tag : Nat) (addr : Nat → Nat) (rd : Nat → Except BlockRead Bytes) :
    Nat → Nat → Nat → Nat × Nat × Option BlockRead
  | 0, i, reg => (reg, i, none)
  | n + 1, i, reg => match rd i with
    | .ok b => feedUnits c mode tag addr rd n (i + 1) (ckFeed c (ckFeed c reg (ckTag mode tag (addr i) i)) b)
    | .error e => (reg, i, some e)

/-- Unit `i` of a CHECK of memory. -/
def State.memUnit (s : State) (lo n i : Nat) : Except BlockRead Bytes :=
  let k := min 4096 (n - 4096 * i)
  match s.readTier (lo + 4096 * i) k with
  | .ok m => .ok (m.readBytes 0 k)
  | .error _ => .error .unreadable

/-- Unit `i` of a CHECK of flash. -/
def State.flashUnit (s : State) (stamp x ns lo i : Nat) : Except BlockRead Bytes :=
  match s.readBlock stamp x ns (lo + i) with
  | .data d => .ok (d.readBytes 0 4096)
  | e => .error e

/-- The run of a command's CHECK: the register, the units fed, and the failure that ended it. -/
def State.checkRun (s : State) (t : TaskSet) (x : Nat) (c : CkCfg) : Nat × Nat × Option BlockRead :=
  let w := t.reg 1
  let lo := t.reg 2
  if bitOf w 59 then
    feedUnits c (bits w 58 57) (bits w 31 0) (fun i => lo + 4096 * i) (s.memUnit lo (t.reg 3 * 64)) (ceilDiv (t.reg 3 * 64) 4096) 0 c.init
  else
    feedUnits c (bits w 58 57) (bits w 31 0) (fun i => t.nsNo * 2 ^ 42 + lo + i) (s.flashUnit t.stamp.toNat x t.nsNo lo) (t.reg 3) 0 c.init

/-- What a CHECK of `fed` units takes of the shared resources: the check-value units and, of flash, the channels (02 R65). One of
memory is charged as it ends; the transfers of far memory go to the partition whose ranges it names, since the I/O accounts
have no far-tier bandwidth (01 R25; DESIGN CHOICE, log 67). The second part is what READ_COMPLETE charges. -/
def State.chargeCheck (s : State) (t : TaskSet) (x fed : Nat) : State × List (Nat × Nat) :=
  let w := t.reg 1
  let n := if bitOf w 59 then min (t.reg 3 * 64) (4096 * fed) else 4096 * fed
  let cycles := ckCycles n (decide (bits w 58 57 ≠ 0))
  if bitOf w 59 then
    let s := (s.sees [(none, t.reg 2, n)]).billIo x 5 (s.boardCycles cycles)
    ((if farFirst ≤ t.reg 2 ∧ t.reg 2 < scratchFirst then s.bill t.partNo 3 (ceilDiv n 4000) else s).draw, [])
  else
    let a := s.flashSlots t.nsNo (t.reg 2) fed t.stamp.toNat
    let used := (5, mediaCycles cycles) :: (if a.2 = 0 then [] else [(4, channelTime a.2)])
    (a.1.becomePending (8 + x) used, used)

/-- What the end of a CHECK's run leaves: its record as the output, or the record of the error that ended it. -/
def State.checkEnd (s : State) (k : Nat) (c : CkCfg) (r : Nat × Nat × Option BlockRead) : State :=
  let t := s.tset k
  let w := t.reg 1
  match r.2.2 with
  | none => s.output k (memOf (bytesOf 16 (checkRecord (ckFinal c r.1) r.2.1 (bits w 56 53)))) 16
  | some .unreadable =>
    if bitOf w 59 then
      match s.readTier (t.reg 2 + 4096 * r.2.1) (min 4096 (t.reg 3 * 64 - 4096 * r.2.1)) with
      | .error a => s.memRecord k a
      | .ok _ => s
    else s.flashRecord k t.nsNo (t.reg 2 + r.2.1)
  | some _ => s

/-- The status of a CHECK whose run ended so. -/
def checkVerdict : Option BlockRead → Nat
  | none => stOk
  | some .unreadable => stUncorr
  | some _ => stDenied

/-- CHECK as a command: its record is its output. One of memory is posted at once, one of flash by READ_COMPLETE. -/
def execCheckCommand (x : Port) (set : SetId) (s : State) : Host.Outcome State Fault Refusal :=
  let k := setKey x set
  if !s.ready k 0x16 then .next s
  else
    let t := s.tset k
    match s.ckFor t.partNo (bits (t.reg 1) 56 53) with
    | none => .next (s.post k stBadCommand 0 1)
    | some c =>
      let r := s.checkRun t x.val c
      let a := s.chargeCheck t x.val r.2.1
      let s := a.1.checkEnd k c r
      if bitOf (t.reg 1) 59 then .next (s.post k (checkVerdict r.2.2) r.2.1 0)
      else .next (s.setTset k { s.tset k with begun := 1, count := r.2.1, verdict := checkVerdict r.2.2, used := a.2 })

/-! ## WRITE (R382; 08 R212, R213; 10 R273) -/

/-- WRITE opens for its pieces, unless it is an atomic write that is too large or lacks the values of a protected
namespace. -/
def execWrite (x : Port) (set : SetId) (s : State) : Host.Outcome State Fault Refusal :=
  let k := setKey x set
  if !s.ready k 0x11 then .next s
  else
    let t := s.tset k
    if bitOf (t.reg 1) 63 && decide (pieceBlocks < t.reg 3) then .next (s.finish k stTooLarge 0 0)
    else if s.isProtected t.nsNo && !bitOf (t.reg 1) 62 then .next (s.finish k stDenied 0 0)
    else .next (s.begin k)

/-- Have all bytes of a run of blocks of a WRITE arrived? -/
def TaskSet.hasBlocks (t : TaskSet) (lo n : Nat) : Bool := (List.range (n * 64)).all (fun u => decide (lo * 64 + u ∈ t.arrived))

/-- Charge a port's I/O account what a change of `n` blocks takes of the flash channels for their segments, which are looked
up to be changed (02 R65). -/
def State.chargeSegments (s : State) (x ns lo n : Nat) : State :=
  let a := s.lookups ns lo n
  if a.2 = 0 then a.1 else a.1.billIo x 4 (channelTime a.2)

/-- A piece of a WRITE without its accepted data. -/
def TaskSet.afterPiece (t : TaskSet) (n : Nat) : TaskSet :=
  { t with
    count := t.count + n
    wdata := t.wdata.clear (t.count * 4096) (n * 4096)
    arrived := t.arrived.filter (fun u => !(decide (t.count * 64 ≤ u) && decide (u < (t.count + n) * 64))) }

/-- WRITE_PIECE_ACCEPT (R212, R273, R382): the next piece, once all its bytes have arrived, enters the write buffer and
passes its protection check. One that would take the buffer or the dies at work beyond their limits waits (17 R419, R430). The last one
completes the write at the next boundary. -/
def execWritePieceAccept (x : Port) (set : SetId) (s : State) : Host.Outcome State Fault Refusal :=
  let k := setKey x set
  let t := s.tset k
  let ns := t.nsNo
  let lba := t.reg 2 + t.count
  let n := min pieceBlocks (t.reg 3 - t.count)
  if !s.runsCmd k 0x11 || decide (t.begun = 0) || decide (n = 0) || !t.hasBlocks t.count n then .next s
  else if s.media.readOnly then .next (s.postLater k stReadOnly t.count 0)
  else if s.noWrites || !s.media.hasRoom s.clock.now n then .next s
  else
    let d := t.wdata.slice (t.count * 4096) (n * 4096)
    let v := if s.isProtected ns then t.input.slice (t.count * 8) (n * 8) else []
    let paid := fun (s : State) => if s.isProtected ns then s.billIo x.val 5 (s.boardCycles (ckCycles (4096 * n) (s.folds ns))) else s
    let s' := (s.request 4 (8 + x.val)).acceptPiece ns lba n d v (some (8 + x.val))
    if !s'.withinLimits then .next s
    else if s.isProtected ns && (List.range n).any (fun j =>
        decide (v.num (8 * j) 8 ≠ s.blockValue ns (lba + j) (d.slice (4096 * j) 4096))) then
      let s := ((paid s).bump 0x6030 1 1).raise (repOnPort (repBlock (report causeCheck 13 0 1 stMismatch) ns lba) x)
      .next (s.postLater k stMismatch t.count 0)
    else
      let s := (paid s').chargeSegments x.val ns lba n
      let s := s.setTset k ((s.tset k).afterPiece n)
      .next (if (s.tset k).count = t.reg 3 then s.postLater k stOk (t.reg 3) 0 else s)

/-- DATA_TIMEOUT (R382): 100 ms without a push while credits are offered. -/
def execDataTimeout (x : Port) (set : SetId) (s : State) : Host.Outcome State Fault Refusal :=
  let k := setKey x set
  let t := s.tset k
  if s.runsCmd k 0x11 && !s.withheld && !t.hasBlocks t.count (t.reg 3 - t.count) then
    .next (s.postLater k stTimeout t.count 0)
  else .next s

/-! ## DISCARD, SECURE_DISCARD, FLUSH -/

/-- DISCARD (R222). -/
def execDiscard (x : Port) (set : SetId) (s : State) : Host.Outcome State Fault Refusal :=
  let k := setKey x set
  if !s.ready k 0x12 then .next s
  else
    let t := s.tset k
    .next ((((s.acceptDiscard .discard t.nsNo (t.reg 2) (t.reg 3)).chargeSegments x.val t.nsNo (t.reg 2) (t.reg 3)).begin k).postLater k stOk (t.reg 3) 0)

/-- SECURE_DISCARD (R223). -/
def execSecureDiscard (x : Port) (set : SetId) (s : State) : Host.Outcome State Fault Refusal :=
  let k := setKey x set
  if !s.ready k 0x13 then .next s
  else
    let t := s.tset k
    .next ((((s.acceptSecure t.nsNo (t.reg 2) (t.reg 3)).chargeSegments x.val t.nsNo (t.reg 2) (t.reg 3)).begin k).postLater k stOk (t.reg 3) 0)

/-- FLUSH (R383) begins to wait; a boundary completes it. -/
def execFlush (x : Port) (set : SetId) (s : State) : Host.Outcome State Fault Refusal :=
  let k := setKey x set
  if s.ready k 0x14 then .next (s.begin k) else .next s

/-- Is a FLUSH that waits complete (R383): every earlier piece has programmed good, and with SECURE erasure has passed
its stamp? Every earlier change is published by now. -/
def State.flushDone (s : State) (k : Nat) : Bool :=
  let t := s.tset k
  s.media.pieces.all (fun p => decide (t.accepted ≤ p.group))
    && (!bitOf (t.reg 1) 60 || decide (t.stamp.toNat < s.secureDone))

/-! ## SANITIZE (R384) -/

/-- Take up a sanitize, unless a partition is active or a command that names a namespace is TAKEN. -/
def State.sanitize (s : State) (k : Nat) (crypto : Bool) : State :=
  if s.media.sanitize.isSome then s.finish k stSanitize 0 0
  else if s.anyActive || allKeys.any (fun j => (s.tset j).namesNs) then s.finish k stDenied 0 0
  else (s.begin k).setMedia { s.media with sanitize := some ⟨crypto, some k, false, []⟩, sanitized := 1 }

/-- SANITIZE with ACTION 1. -/
def execSanitizeBlockErase (x : Port) (set : SetId) (s : State) : Host.Outcome State Fault Refusal :=
  let k := setKey x set
  if s.ready k 0x06 && decide (bits ((s.tset k).reg 1) 63 62 = 1) then .next (s.sanitize k false) else .next s

/-- SANITIZE with ACTION 2. -/
def execSanitizeCryptoErase (x : Port) (set : SetId) (s : State) : Host.Outcome State Fault Refusal :=
  let k := setKey x set
  if s.ready k 0x06 && decide (bits ((s.tset k).reg 1) 63 62 = 2) then .next (s.sanitize k true) else .next s

end Sys2Proof.Machine
end

