-- ==== Sys2Proof/Machine/Sha.lean ====
section
/-! DEFINITION. The hash and the signature scheme of the module (18 R452): SHA-512 as FIPS 180-4 defines it, and the verification of
RSASSA-PSS as RFC 8017 defines it, with the parameters of R452. -/

namespace Sys2Proof.Machine

/-! ## SHA-512 (FIPS 180-4) -/

/-- The 80 constants of the rounds. -/
def shaK : List (BitVec 64) :=
  [0x428a2f98d728ae22, 0x7137449123ef65cd, 0xb5c0fbcfec4d3b2f, 0xe9b5dba58189dbbc,
    0x3956c25bf348b538, 0x59f111f1b605d019, 0x923f82a4af194f9b, 0xab1c5ed5da6d8118,
    0xd807aa98a3030242, 0x12835b0145706fbe, 0x243185be4ee4b28c, 0x550c7dc3d5ffb4e2,
    0x72be5d74f27b896f, 0x80deb1fe3b1696b1, 0x9bdc06a725c71235, 0xc19bf174cf692694,
    0xe49b69c19ef14ad2, 0xefbe4786384f25e3, 0x0fc19dc68b8cd5b5, 0x240ca1cc77ac9c65]
  ++ [0x2de92c6f592b0275, 0x4a7484aa6ea6e483, 0x5cb0a9dcbd41fbd4, 0x76f988da831153b5,
    0x983e5152ee66dfab, 0xa831c66d2db43210, 0xb00327c898fb213f, 0xbf597fc7beef0ee4,
    0xc6e00bf33da88fc2, 0xd5a79147930aa725, 0x06ca6351e003826f, 0x142929670a0e6e70,
    0x27b70a8546d22ffc, 0x2e1b21385c26c926, 0x4d2c6dfc5ac42aed, 0x53380d139d95b3df,
    0x650a73548baf63de, 0x766a0abb3c77b2a8, 0x81c2c92e47edaee6, 0x92722c851482353b]
  ++ [0xa2bfe8a14cf10364, 0xa81a664bbc423001, 0xc24b8b70d0f89791, 0xc76c51a30654be30,
    0xd192e819d6ef5218, 0xd69906245565a910, 0xf40e35855771202a, 0x106aa07032bbd1b8,
    0x19a4c116b8d2d0c8, 0x1e376c085141ab53, 0x2748774cdf8eeb99, 0x34b0bcb5e19b48a8,
    0x391c0cb3c5c95a63, 0x4ed8aa4ae3418acb, 0x5b9cca4f7763e373, 0x682e6ff3d6b2b8a3,
    0x748f82ee5defb2fc, 0x78a5636f43172f60, 0x84c87814a1f0ab72, 0x8cc702081a6439ec]
  ++ [0x90befffa23631e28, 0xa4506cebde82bde9, 0xbef9a3f7b2c67915, 0xc67178f2e372532b,
    0xca273eceea26619c, 0xd186b8c721c0c207, 0xeada7dd6cde0eb1e, 0xf57d4f7fee6ed178,
    0x06f067aa72176fba, 0x0a637dc5a2c898a6, 0x113f9804bef90dae, 0x1b710b35131c471b,
    0x28db77f523047d84, 0x32caab7b40c72493, 0x3c9ebe0a15c9bebc, 0x431d67c49c100d4c,
    0x4cc5d4becb3e42b6, 0x597f299cfc657e2a, 0x5fcb6fab3ad6faec, 0x6c44198c4a475817]

/-- The initial hash value. -/
def shaH : List (BitVec 64) :=
  [0x6a09e667f3bcc908, 0xbb67ae8584caa73b, 0x3c6ef372fe94f82b, 0xa54ff53a5f1d36f1,
    0x510e527fade682d1, 0x9b05688c2b3e6c1f, 0x1f83d9abfb41bd6b, 0x5be0cd19137e2179]

/-- A number as `n` bytes, the most significant first, and back. -/
def bytesBE (n v : Nat) : Bytes := (bytesOf n v).reverse
def numBE (l : Bytes) : Nat := numOf l.reverse

/-- The message with its padding: a one bit, zeros, and its length in bits as 16 bytes. -/
def shaPad (m : Bytes) : Bytes :=
  m ++ [0x80] ++ List.replicate ((111 + 128 - m.length % 128) % 128) 0 ++ bytesBE 16 (8 * m.length)

/-- The 16 words of a block, the last one first. -/
def shaWords (b : Bytes) : List (BitVec 64) :=
  ((List.range 16).map (fun i => BitVec.ofNat 64 (numBE ((b.drop (8 * i)).take 8)))).reverse

def shaSmall0 (x : BitVec 64) : BitVec 64 := x.rotateRight 1 ^^^ x.rotateRight 8 ^^^ (x >>> 7)
def shaSmall1 (x : BitVec 64) : BitVec 64 := x.rotateRight 19 ^^^ x.rotateRight 61 ^^^ (x >>> 6)
def shaBig0 (x : BitVec 64) : BitVec 64 := x.rotateRight 28 ^^^ x.rotateRight 34 ^^^ x.rotateRight 39
def shaBig1 (x : BitVec 64) : BitVec 64 := x.rotateRight 14 ^^^ x.rotateRight 18 ^^^ x.rotateRight 41

/-- The message schedule, `n` words more, the last one first. -/
def shaSchedule : Nat → List (BitVec 64) → List (BitVec 64)
  | 0, w => w
  | n + 1, w => shaSchedule n ((shaSmall1 (w.getD 1 0) + w.getD 6 0 + shaSmall0 (w.getD 14 0) + w.getD 15 0) :: w)

/-- One round over the working variables a to h. -/
def shaRound (v : List (BitVec 64)) (k : BitVec 64 × BitVec 64) : List (BitVec 64) :=
  match v with
  | [a, b, c, d, e, f, g, h] =>
    let t1 := h + shaBig1 e + ((e &&& f) ^^^ (~~~ e &&& g)) + k.1 + k.2
    let t2 := shaBig0 a + ((a &&& b) ^^^ (a &&& c) ^^^ (b &&& c))
    [t1 + t2, a, b, c, d + t1, e, f, g]
  | v => v

/-- One block. -/
def shaBlock (h : List (BitVec 64)) (b : Bytes) : List (BitVec 64) :=
  let w := (shaSchedule 64 (shaWords b)).reverse
  (h.zip ((shaK.zip w).foldl shaRound h)).map (fun x => x.1 + x.2)

/-- SHA-512 of a message, 64 bytes. -/
def sha512 (m : Bytes) : Bytes :=
  let p := shaPad m
  ((List.range (p.length / 128)).foldl (fun h i => shaBlock h ((p.drop (128 * i)).take 128)) shaH).flatMap
    (fun x => bytesBE 8 x.toNat)

/-! ## RSASSA-PSS (RFC 8017) -/

/-- `b` to the power 65,537 modulo `n`: 16 squarings and a product. -/
def rsaPublic (n b : Nat) : Nat := (List.range 16).foldl (fun x _ => x * x % n) (b % n) * b % n

/-- The mask generation function MGF1 with SHA-512, `n` bytes. -/
def mgf1 (seed : Bytes) (n : Nat) : Bytes :=
  ((List.range (ceilDiv n 64)).flatMap (fun i => sha512 (seed ++ bytesBE 4 i))).take n

/-- Does an encoded message of 512 bytes, of 4,095 bits, encode a message (EMSA-PSS-VERIFY): trailer 0xBC, 382 zero bytes and a one
before a salt of 64 bytes, under MGF1? -/
def pssEncodes (message em : Bytes) : Bool :=
  let masked := em.take 447
  let h := (em.drop 447).take 64
  let db := (masked.zip (mgf1 h 447)).map (fun x => x.1 ^^^ x.2)
  let db := (db.getD 0 0 &&& 0x7F) :: db.drop 1
  decide (em.getD 511 0 = 0xBC) && decide ((masked.getD 0 0).toNat < 0x80) && (db.take 382).all (fun b => decide (b = 0))
    && decide (db.getD 382 0 = 1) && decide (sha512 (List.replicate 8 0 ++ sha512 message ++ db.drop 383) = h)

/-- Does a signature verify (RSASSA-PSS-VERIFY)? Modulus and signature are big-endian octet strings (R447, R451); a modulus that is
not of 4,096 bits is refused (R452). -/
def pssGood (modulus message signature : Bytes) : Bool :=
  let n := numBE modulus
  let c := numBE signature
  decide (modulus.length = 512) && decide (2 ^ 4095 ≤ n) && decide (signature.length = 512) && decide (c < n)
    && pssEncodes message (bytesBE 512 (rsaPublic n c))

end Sys2Proof.Machine
end

