-- ==== Sys2Proof/Machine/Secure.lean ====
section
/-! DEFINITION. Security and life cycle (18): arms and tokens, transitions, keys, attestation, debug paths, and the
crypto erase that a transition and SANITIZE share (15 R384). -/

namespace Sys2Proof.Machine

/-! ## Firmware images (R451, R453) -/

/-- The slot that runs: 0 A, 1 B (17 R441). -/
def State.runningSlot (s : State) : Nat := s.obj 0x7040 1

/-- Key slot of a slot's image: slot 0 for an image as shipped (log 7). -/
def Security.keySlot (x : Security) (n : Nat) : Nat := if (x.slot n).len = 0 then 0 else bits (x.header n) 927 926

/-- The modulus that signed a slot's image (R451). -/
def Security.modulus (x : Security) (n : Nat) : Bytes := ((x.imageOf n).drop 128).take 512

/-- The reason that an image fails its check (R453), or 0. -/
def State.imageFault (s : State) (n : Nat) : Nat :=
  let x := s.security
  let z := x.slot n
  let h := x.header n
  let len := bits h 1007 976
  let key := bits h 927 926
  let step := if s.obj 0x1000 5 = 0x01 then 0 else 1
  let img := x.imageOf n
  if bits h 1023 1008 ≠ 9 ∨ 14 * mib < len ∨ z.len < len then 1
  else if !bitOf h (928 + step) then 2
  else if sha512 (x.modulus n) ≠ Config.rootDigest key ∨ (key ≤ 2 ∧ bitOf x.revoked key)
      ∨ (key = 3 ∧ x.state ≠ 0 ∧ x.state ≠ 3) then 3
  else if !pssGood (x.modulus n) (img.take 640) ((img.drop 640).take 512) then 4
  else if numOf (sha512 (img.drop 1152)) ≠ bits h 631 120 then 5
  else if x.state ≠ 0 ∧ bits h 943 936 < x.floors.getLastD 0 then 6
  else if x.state = 4 ∨ x.due.isSome then 7
  else 0

/-! ## Erasing every namespace (15 R384, 18 R459) -/

/-- Every region of every namespace returns to the never-written state; what waits to be published goes too. -/
def State.unmapAll (s : State) : State :=
  s.setMedia { s.media with
    spaces := s.media.spaces.mapVals (fun _ n => { n with blocks := [], gens := [], touched := [] })
    pending := [], moves := [], pieces := [], dirty := [], cache := [], upper := [] }

/-- Draw the key of a slot, which reaches the media dies' key register (R458). Draws 0 and 1 stand for a zeroised slot and for
the metadata key as shipped. -/
def State.drawKey (s : State) (n : Nat) : State :=
  (s.setSecurity { s.security with
    keys := s.security.keys.set n (s.free + 2), cleared := s.security.cleared.filter (fun k => decide (k ≠ n)) }).draw

/-- The key array is zeroised, and the media dies' key registers are cleared (R445, R459). -/
def State.zeroise (s : State) : State := s.setSecurity { s.security with keys := [], cleared := List.range 65 }

/-- What the array holds of a block's version: its 4 KiB as one data unit under the namespace's key, the block number
as tweak (08 R211). Reads decrypt it, so that every other definition works on the plain bytes. -/
def State.cipherUnit (s : State) (ns lba : Nat) (v : Ver) : Bytes :=
  Config.xts (s.security.keys.get 0 ns) lba (v.data.readBytes 0 4096)

/-- What the array holds of metadata `v` that lie at a place: `v` under the device metadata key of slot 64 (08 R211; R458). R211 gives
map segments and trailers neither a data unit nor a tweak: the whole of `v`, and its place (DESIGN CHOICE, log 112). -/
def State.cipherMeta (s : State) (place : Nat) (v : Bytes) : Bytes := Config.xts (s.security.keys.get 0 64) place v

/-- What the array holds of a map segment, as a stamp sees it: its 256 entries, then its generation (08 R202, R211). -/
def State.cipherSegment (s : State) (ns region stamp : Nat) : Bytes :=
  s.cipherMeta (ns * 2 ^ 29 + region) ((s.segmentBody ns region stamp).drop 12 ++ bytesOf 4 ((s.space ns).genAt region stamp))

/-- What the array holds of a unit's trailer: namespace and block, the epoch at which it was accepted, atomic group and value (08 R205, R211; 10 R271). Their
order is DESIGN CHOICE (log 112). -/
def State.cipherTrailer (s : State) (ns lba : Nat) (v : Ver) : Bytes :=
  s.cipherMeta v.unit.toNat (bytesOf 8 (ns * 2 ^ 42 + lba) ++ bytesOf 8 v.born ++ bytesOf 8 v.group ++ bytesOf 8 v.value.toNat)

/-- Replace the keys of slots 0 to 63 (R459). -/
def State.replaceKeys (s : State) : State := s.each (List.range 64) State.drawKey

/-- End every command that names a namespace or holds a snapshot with ACCESS_DENIED at this boundary (R210, R384, R446). -/
def State.endHolders (s : State) : State :=
  s.each (allKeys.filter (fun k => ((s.tset k).namesNs || (s.tset k).holds) && decide ((s.tset k).due = none))) (fun s k =>
    (s.dropOutputs k).postLater k stDenied (s.tset k).progress 0)

/-- The erase that SANITIZE action 2 makes at its boundary: no copy that a secure discard named can be read (R247). -/
def State.cryptoErase (s : State) : State :=
  let s := s.endHolders.unmapAll.replaceKeys
  s.setMedia { s.media with secure := [], carried := false }

/-! ## Arms and tokens (R445 to R447, R450) -/

/-- Put a verdict in LC_RESULT (R460). -/
def State.lcResult (s : State) (v : Nat) : State := s.put 0xA000 5 v

/-- Why an arm or a token is turned away although it is allowed (R446, 20 R493): BUSY or OTP_EXHAUSTED. -/
def State.lcBlocked (s : State) (scrap : Bool) : Option Nat :=
  if s.anyActive || s.taken.any (fun k => (s.tset k).namesNs) || s.media.sanitize.isSome || s.security.due.isSome
      || decide (4 ≤ s.power.state) || s.power.waitP4 || decide (s.power.target = some 4) || decide (s.hold ≠ 0) then some 5
  else if decide (31 ≤ s.security.words.length) && !scrap then some 7
  else none

/-- Accept a transition for the next boundary. -/
def State.lcAccept (s : State) (target : Nat) : State :=
  (s.setSecurity { s.security with arms := [], due := some target }).lcResult 1

/-- The arm of a port with a target. -/
def Security.armOf (x : Security) (v : Nat) (p : Port) : Option Nat :=
  (x.arms.find? (fun a => decide (a.1 = v ∧ a.2.1 = p))).map (fun a => a.2.2)

/-- An arm (R445): LC_REQUEST written with a target by the owner of a port. Each port has its own arms, of RETURN and of SCRAP; a
second one of the same target takes the place of the first. -/
def State.lcRequest (s : State) (x : Port) (v : Nat) : State :=
  let st := s.security.state
  let ok := decide (st = 1 ∧ v = 2) || decide (st = 2 ∧ v = 3) || (decide (st = 2 ∨ st = 3) && decide (v = 4))
  if !ok then s.lcResult 4
  else match s.lcBlocked (decide (v = 4)) with
    | some c => s.lcResult c
    | none =>
      let again := match s.security.armOf 4 x with
        | some t => decide (s.clock.now ≤ t + 6000000000)
        | none => false
      if decide (v = 2) || (decide (v = 4) && again) then s.lcAccept v
      else (s.setSecurity { s.security with
        arms := s.security.arms.filter (fun a => !decide (a.1 = v ∧ a.2.1 = x)) ++ [(v, x, s.clock.now)] }).lcResult 6

/-- An accepted token uses LC_NONCE up (R447). -/
def State.newNonce (s : State) : State :=
  (s.setSecurity { s.security with nonceDraw := s.free }).draw

/-- Does a transition token name a transition of R445 that needs a token? -/
def State.tokenAllows (s : State) (target : Nat) : Bool :=
  let st := s.security.state
  let armed := s.security.arms.any (fun a => decide (a.1 = 3) && decide (s.clock.now ≤ a.2.2 + 60000000000))
  (decide (st = 0) && decide (target = 1)) || (decide (st = 2) && decide (target = 3) && armed)
    || (decide (st = 3) && decide (target = 2)) || (decide (st ≠ 4) && decide (target = 4))

/-- Is a token good (R447): format, kind, nonce, serial, and signature under the running image's modulus? `h` is its
low 64 bytes as a number. -/
def State.tokenGood (s : State) (token : Bytes) (h : Nat) : Bool :=
  decide (bits h 511 496 = 8) && decide (1 ≤ bits h 495 488 ∧ bits h 495 488 ≤ 3)
    && decide (bits h 463 208 = (Config.nonce s.security.nonceDraw).toNat) && decide (bits h 207 80 = numOf serialText)
    && pssGood (s.security.modulus s.runningSlot) (token.take 64) (token.drop 64)

/-- A token (R447, R450). -/
def State.lcToken (s : State) (token : Bytes) : State :=
  let h := numOf (token.take 64)
  let kind := bits h 495 488
  let target := bits h 487 480
  let mask := bits h 479 464
  let x := s.security
  let testKey := decide (x.keySlot s.runningSlot = 3) && !decide (x.state = 0 ∨ x.state = 3)
  let allowed :=
    if kind = 1 then s.tokenAllows target
    else if kind = 2 then decide (Nat.land mask (0xFFFF - tokenPaths x.state) = 0)
    else decide (target ≤ 2) && decide (target ≠ x.keySlot s.runningSlot)
      && decide (Nat.land (Nat.lor x.revoked (2 ^ target)) 7 ≠ 7)
  if !s.tokenGood token h then s.lcResult 3
  else if testKey || !allowed then s.lcResult 4
  else match s.lcBlocked (decide (kind = 1) && decide (target = 4)) with
    | some c => s.lcResult c
    | none =>
      let s := s.newNonce
      if kind = 1 then s.lcAccept target
      else if kind = 2 then
        ((s.setSecurity { s.security with unlocked := s.security.unlocked ||| BitVec.ofNat 16 mask }).lcResult 2).lifeRecord
      else (s.setSecurity { s.security with revoked := Nat.lor s.security.revoked (2 ^ target) }).lcResult 2

/-- Arms without the first that satisfies `f`. -/
def dropFirst (f : Nat × Port × Nat → Bool) : List (Nat × Port × Nat) → List (Nat × Port × Nat)
  | [] => []
  | a :: l => if f a then l else a :: dropFirst f l

/-- LC_ARM_LAPSE (R446): the oldest arm of RETURN lapses, 600 s after its write. -/
def execLcArmLapse (s : State) : Host.Outcome State Fault Refusal :=
  .next (s.setSecurity { s.security with arms := dropFirst (fun a => decide (a.1 = 3)) s.security.arms })

/-- The arms of a port lapse when its ownership ends: one of RETURN (R446), and one of SCRAP, whose second write must come from the
same port owner (R445). -/
def State.dropArm (s : State) (x : Port) : State :=
  s.setSecurity { s.security with arms := s.security.arms.filter (fun a => decide (a.2.1 ≠ x)) }

/-! ## A transition at its boundary (R445, R446) -/

/-- 10 ms in units of 10 ns. -/
def tenMs : Nat := 1000000

/-- Program the transition word, change the state and run the listed actions; a module reset follows 10 ms later. A word that is
programmed stays as it is. -/
def State.transition (s : State) : State :=
  match s.security.due with
  | none => s
  | some v =>
    if v = s.security.state then s
    else
      let x := s.security
      let s := s.setSecurity { x with
        state := v, unlocked := 0, scrapWord := if v = 4 ∧ x.scrapWord.isNone then some (v, s.clock.epoch, s.errors.next) else x.scrapWord
        words := if v = 4 then x.words else x.words ++ [(v, s.clock.epoch, s.errors.next)] }
      let s := s.lifeRecord
      let s := s.lcResult 2
      let s := if x.state = 0 ∧ v = 1 then
          (s.setSecurity { s.security with identity := some s.free, idWord := some (x.idWord.getD s.free) }).draw
        else if x.state = 1 ∧ v = 2 then s.cryptoErase
        else if v = 3 then
          s.endHolders.zeroise.put 0xA000 6 0
        else if v = 4 then
          let s := s.endHolders.zeroise
          s.setSecurity { s.security with identity := none }
        else s
      s.updPower (fun p => { p with resetAt := some (s.clock.boundaryAt + tenMs) })

/-! ## Attestation (R457) -/

/-- A word of the OTP row, and the row (R444; 17 R436). -/
def Security.otpWord (x : Security) (n : Nat) : Bytes :=
  let half := fun (d : Bytes) (k : Nat) => (d.drop (32 * k)).take 32
  let word := fun (e : Option (Nat × BitVec 64 × BitVec 32)) => Config.otpWord n (match e with
    | some w => [w.1, w.2.1.toNat, w.2.2.toNat]
    | none => [])
  padTo 32 (if n < 8 then half (Config.rootDigest (n / 2)) (n % 2)
    else if n < 11 then Config.otpWord n (if bitOf x.revoked (n - 8) then [1] else [])
    else if n < 16 then Config.otpWord n []
    else if n < 47 then word x.words[n - 16]?
    else if n = 47 then word x.scrapWord
    else if n < 112 then Config.otpWord n (x.floors[n - 48]?).toList
    else if n < 114 then (match x.idWord with
      | some k => half (sha512 (padTo 512 (Config.identityModulus k))) (n - 112)
      | none => Config.otpWord n [])
    else Config.otpWord n [])
def Security.otpRow (x : Security) : Bytes := (List.range 128).flatMap x.otpWord

/-- Start a report: a second nonce replaces the first. -/
def State.attest (s : State) (x : Port) (nonce : Bytes) : State :=
  s.setPort x.val { s.port x.val with nonce := some nonce }

/-- The part of a report that is signed, its bytes 0 to 319. -/
def State.reportBody (s : State) (x : Port) (nonce : Bytes) : Nat :=
  let z := s.security
  field 16 2544 10 + field 8 2536 z.state + field 16 2520 s.debugState + field 8 2512 x.val + field 8 2504 (s.obj 0x1010 2)
    + field 8 2496 (z.floors.getLastD 0) + field 8 2488 (s.obj 0xA030 2) + field 32 2456 (s.obj 0x1000 6)
    + field 8 2448 (s.obj 0x1000 5) + field 64 2384 (s.obj 0x1010 1) + field 64 2320 (s.obj 0x5000 1)
    + field 64 2256 s.tick + field 128 2128 (numOf serialText) + field 256 1872 (numOf nonce)
    + field 512 1360 (numOf (sha512 (z.imageOf s.runningSlot)))
    + field 512 848 (numOf (sha512 (z.imageOf (s.obj 0x7040 2))))
    + field 512 336 (numOf (sha512 z.otpRow))

/-- ATTEST_REPORT_SIGNED: the report in progress is signed by the identity key and can be read. -/
def execAttestReportSigned (x : Port) (s : State) : Host.Outcome State Fault Refusal :=
  match (s.port x.val).nonce, s.security.identity with
  | some n, some key =>
    let b := bytesOf 320 (s.reportBody x n)
    .next ((s.setPort x.val { s.port x.val with nonce := none }).putDom (0xA018 + x.val) 2 (b ++ padTo 512 (Config.sign key b)))
  | _, _ => .next s

/-! ## Debug paths (R449, R450) -/

/-- Bit of DEBUG_STATE of a path. -/
def pathBit : DebugPath → Nat
  | .boundaryScan => 0
  | .scanChains => 1
  | .coreTrace => 2
  | .coreMem => 3
  | .cfRead => 4
  | .nandRaw => 5
  | .testImages => 6

/-- What an open path reads at an address (R449): the raw code flash, slot A and behind it slot B, with the execute-only regions;
the memory of the control cores, where a load of the running image finds zero in such a region outside FACTORY and RETURN; and a
raw page, undecrypted. What the model does not hold is free (log 118). No path reads a key. -/
def State.probeAt (s : State) (path : DebugPath) (a : Nat) : Byte :=
  let free := Config.probeByte s.free a
  match path with
  | .cfRead => (s.security.imageOf (a / 2 ^ 24 % 2)).getD (a % 2 ^ 24) free
  | .coreMem => if s.security.state = 0 ∨ s.security.state = 3 then (s.security.imageOf s.runningSlot).getD a free
      else if a < (s.security.imageOf s.runningSlot).length then s.coreLoad a else free
  | .nandRaw => match (s.media.spaces.flatMap (fun n => n.2.blocks.flatMap (fun b => b.2.map (fun v => (n.1, b.1, v))))).find?
        (fun v => decide (v.2.2.st = .mapped ∧ v.2.2.unit.toNat = a / 4096)) with
    | some v => (s.cipherUnit v.1 v.2.1 v.2.2).getD (a % 4096) free
    | none => free
  | _ => free

/-- DEBUG_PATH_ACCESS: a scan-chain or core-memory access through a closed path is refused, and recorded (R450). Through an open
path of memory 64 bytes from the address that the access names are read; the command names none, so which they are is free. -/
def execDebugPathAccess (path : DebugPath) (s : State) : Host.Outcome State Fault Refusal :=
  if !bitOf s.debugState (pathBit path) then
    .next (if path = .scanChains ∨ path = .coreMem then s.lifeRecord else s)
  else if path = .scanChains ∨ path = .coreMem ∨ path = .cfRead ∨ path = .nandRaw then
    let a := Config.probeAddr s.free
    .next (s.setSecurity { s.security with probe := (List.range 64).map (fun i => s.probeAt path (a + i)) }).draw
  else .next s

end Sys2Proof.Machine
end

