-- ==== Sys2Proof/Machine/Observe.lean ====
section
/-! DEFINITION. Counters, freezes, dumps and control-core trace (19), and the field test (20 R491 to R496): what writes
to their objects do, and their events. -/

namespace Sys2Proof.Machine

/-! ## The central reader (R463) -/

/-- The counter ids that a READ_LIST spells, two bytes each. -/
def idsOf : Bytes → List Nat
  | a :: b :: t => (a.toNat + 256 * b.toNat) :: idsOf t
  | _ => []

/-- Begin a pass: its first entry is read at its start (log 28). -/
def State.startPass (s : State) (list : Bytes) : State :=
  let ids := idsOf list
  let at' := s.timeNow
  let s := s.setObserve { s.observe with pass := some ids, passAt := at', passFrom := ids.map s.counterNow, passed := [] }
  let s := if ids.isEmpty then s else s.passRead ids
  ((((s.putDom 0x9000 1 list).putDom 0x9000 2 []).put 0x9000 3 1).put 0x9000 4 (s.stampOf mgmtClock at').toNat).draw

/-- READER_PASS_DONE (R463): the pass has read its last entry. -/
def execReaderPassDone (s : State) : Host.Outcome State Fault Refusal :=
  match s.observe.pass with
  | none => .next s
  | some _ =>
    let s := s.passOn true
    let s := s.putDom 0x9000 2 (s.observe.passed.flatMap (bytesOf 16))
    .next ((s.setObserve { s.observe with pass := none, passFrom := [], passed := [] }).put 0x9000 3 2)

/-! ## Freezes of the counters (R466, R467) -/

/-- Release a freeze after `length`, the time lost; the pass in progress reads its later entries unfrozen. -/
def State.releaseFreeze (s : State) (length : Nat) : State :=
  if s.observe.frozen then
    let s := s.passOn false
    (s.setObserve { s.observe with frozen := false, since := s.free }).put 0x9001 7 length
  else s

/-- A FREEZE_CONTROL write of 2. -/
def State.releaseNow (s : State) : State := s.draw.releaseFreeze (s.timeNow - s.observe.frozenAt)

/-- Arm the sources that FREEZE_SOURCES sets. While the counters are frozen, they stay armed for the time after the release
(DESIGN CHOICE, log 116). -/
def State.armFreeze (s : State) : State := s.setObserve { s.observe with armed := BitVec.ofNat 4 (s.gov 0x9001 2) }

/-- FREEZE_LIMIT_EXPIRY (R466): FREEZE_LIMIT ms after FREEZE_TIME. -/
def execFreezeLimitExpiry (s : State) : Host.Outcome State Fault Refusal := .next (s.releaseFreeze (s.gov 0x9001 8 * 100000))

/-! ## Control-core trace (R472) -/

/-- CC_TRACE_CONTROL as a boundary finds it: a core's record begins, or ends and is kept. -/
def State.coreTraceNow (s : State) : State :=
  s.each (List.range 8) (fun s c =>
    let on := bitOf (s.gov (0x9040 + c) 1) 0 && bitOf s.debugState 2
    let has := s.observe.coreDraw.has c
    if on && !has then
      (s.setObserve { s.observe with coreDraw := s.observe.coreDraw.set c s.free }).draw
    else if !on && has then
      s.setObserve { s.observe with
        coreDraw := s.observe.coreDraw.erase c, coreCount := s.observe.coreCount.set c (s.coreRecords c) }
    else s)

/-! ## The field test (20 R491 to R496) -/

/-- Is a TEST_HOLD write of 1 allowed (R492)? -/
def State.holdAllowed (s : State) : Bool :=
  !s.anyActive && s.taken.all (fun k => decide ((s.tset k).opcode = 0x01 ∨ (s.tset k).opcode = 0x02))
    && s.media.sanitize.isNone && s.security.due.isNone && s.power.target.isNone && decide (s.power.state ≤ 3)

/-- A run that is ended early (R496): how many bits failed by then is a free value, and so is the die of the first error where a run
of KIND 3 at DEPTH 3 has met one. -/
def State.abandonRun (s : State) : State :=
  match s.observe.run with
  | none => s
  | some v =>
    let errors := (Config.counterValue s.free 0x10400).toNat % 2 ^ 32
    let die := if errors ≠ 0 ∧ bits v 31 29 = 3 ∧ bits v 28 27 = 3 then (Config.counterValue s.free 0x10401).toNat % 2 ^ 8 else 0
    let r := field 32 32 errors + field 8 24 0xFE + field 8 16 die + field 2 14 3
      + field 3 11 (bits v 31 29) + field 2 9 (bits v 28 27) + field 7 2 (bits v 26 20)
    ((s.setObserve { s.observe with run := none }).put 0x9050 4 r).draw

/-- TEST_HOLD at the boundary: 1 enters, 0 leaves (R492, R493). -/
def State.testHold (s : State) (v : Nat) : State :=
  if v = 1 then (if s.hold = 0 then s.setHold (if s.errors.device = 2 then 2 else 1) else s)
  else if s.hold = 1 ∨ s.hold = 2 then s.abandonRun.setHold 3
  else s

/-- TEST_HOLD_HELD (R492, 17 R423): everything taken before has completed, the map is written back and checkpointed as
P4 entry does it, and the hold is entered. -/
def execTestHoldHeld (s : State) : Host.Outcome State Fault Refusal :=
  if s.hold = 1 ∧ s.p4Ready then
    .next ((s.setHold 2).setMedia (s.media.writeAll s.clock.now s.tick))
  else .next s

/-- May TEST_START write `v` (R495)? `x` is the port that carries it. -/
def State.testAllowed (s : State) (x : Option Port) (v : Nat) : Bool :=
  let kind := bits v 31 29
  let depth := bits v 28 27
  let n := bits v 26 20
  decide (s.hold = 2) && s.observe.run.isNone && inRange kind 1 4 && inRange depth 1 (if kind = 4 then 2 else 3)
    && inRange (bits v 15 0) 1 60000
    && decide (n < (if kind = 1 then 16 else if kind = 2 then 8 else if kind = 3 then 128 else 60))
    && (decide (kind ≠ 4) || decide (48 ≤ n) || (bitOf (s.obj 0x1010 1) n && !bitOf s.gated n))
    && (decide (kind ≠ 4) || decide (n < 56) || (decide (x.map Fin.val ≠ some (n - 56)) && decide ((s.port (n - 56)).node = 0)))

/-- A run starts (R496). -/
def State.startTest (s : State) (v : Nat) : State :=
  (s.setObserve { s.observe with run := some v }).put 0x9050 4 (field 8 24 0xFF + field 2 14 1
    + field 3 11 (bits v 31 29) + field 2 9 (bits v 28 27) + field 7 2 (bits v 26 20))

/-- TEST_RUN_END (R496): the run has lasted its whole LENGTH. -/
def execTestRunEnd (errors : BitVec 32) (firstPin : Byte) (die : Byte) (s : State) : Host.Outcome State Fault Refusal :=
  match s.observe.run with
  | none => .next s
  | some v =>
    let good := decide (errors = 0)
    let r := field 32 32 errors.toNat + field 8 24 (if good then 0xFF else firstPin.toNat)
      + field 8 16 (if !good && decide (bits v 31 29 = 3) && decide (bits v 28 27 = 3) then die.toNat else 0)
      + field 2 14 (if good then 2 else 3) + field 3 11 (bits v 31 29) + field 2 9 (bits v 28 27) + field 7 2 (bits v 26 20)
    .next (((s.setObserve { s.observe with run := none }).put 0x9050 4 r).bumpSat 0x9050 5 1)

end Sys2Proof.Machine
end

