-- ==== Sys2Proof/Machine/Link.lean ====
section
/-! DEFINITION. The link: ownership (13 R333, R334), the link's own frames (R329, R336), the cell layer (R323 to R325),
forwarding (R339, R340, R342), bring-up, retraining and loopbacks (R343 to R346). -/

namespace Sys2Proof.Machine

/-! ## Ownership -/

/-- Open transfers of a port end (14 R360). A persistent write that is being programmed is not withdrawn (R353). -/
def State.endTransfers (s : State) (x : Port) : State :=
  s.setDict { s.dict with
      reads := s.dict.reads.filter (fun o => decide (o.port ≠ x))
      writes := s.dict.writes.filter (fun o => decide (o.port ≠ x)) }

/-- Ownership of a port ends other than by a reset: its stream is frozen at the next boundary (R334, 15 R393). -/
def State.endOwnership (s : State) (x : Port) : State :=
  let s := s.setPort x.val { s.port x.val with node := 0, host := 0 }
  ((s.freezeDue x.val freezeStream).endTransfers x).dropArm x

/-- CLAIM (R333). -/
def execClaim (r : Req) (inst : BitVec 64) (s : State) : Host.Outcome State Fault Refusal :=
  .next (s.serve r 0x01 false (fun s =>
    let v := s.port r.port.val
    if v.node = 0 then
      (s.setPort r.port.val { v with node := r.src, host := inst }).reply r 0x01 stOk (field 12 244 r.src.toNat) []
    else if v.node = r.src ∧ v.host = inst then s.reply r 0x01 stOk (field 12 244 v.node.toNat) []
    else s.reply r 0x01 stDenied (field 12 244 v.node.toNat) []))

/-- RELEASE (R333). -/
def execRelease (r : Req) (s : State) : Host.Outcome State Fault Refusal :=
  .next (s.serve r 0x02 true (fun s => (s.endOwnership r.port).reply r 0x02 stOk 0 []))

/-- OWNER_LAPSE (R333): a link has stayed out of UP for longer than OWNER_LAPSE. -/
def execOwnerLapse (x : Port) (s : State) : Host.Outcome State Fault Refusal :=
  let v := s.port x.val
  if v.life ≠ .up ∧ v.node ≠ 0 then .next (s.endOwnership x) else .next s

/-! ## STATUS, ECHO and unknown types -/

/-- STATUS (R336). -/
def execStatus (r : Req) (s : State) : Host.Outcome State Fault Refusal :=
  .next (s.serve r 0x03 false (fun s => s.reply r 0x03 stOk 0 []))

/-- ECHO (R345): the payload returns unchanged. -/
def execEcho (r : Req) (payload : Bytes) (s : State) : Host.Outcome State Fault Refusal :=
  .next (s.serve r 0x04 false (fun s => s.reply r 0x04 stOk 0 payload) payload.length)

/-- Types of R329. -/
def typeKnown (t : Nat) : Bool :=
  decide (t ∈ [0x01, 0x02, 0x03, 0x04, 0x10, 0x11, 0x20, 0x21, 0x22, 0x30, 0x31])

/-- UNKNOWN_FRAME_TYPE (R329). -/
def execUnknownFrameType (r : Req) (type : Byte) (s : State) : Host.Outcome State Fault Refusal :=
  if typeKnown type.toNat then .next s
  else .next (s.serve r type.toNat false (fun s => s.reply r type.toNat stBadFrame 0 []))

/-- HEADER_CRC_ERROR (R324): the frame is discarded whole; its cells came good, and their space is free again (R323,
R325). -/
def execHeaderCrcError (x : BadFrame) (s : State) : Host.Outcome State Fault Refusal :=
  let v := s.port x.port.val
  if v.life = .up ∨ v.life = .loopback then
    .next ((s.setPort x.port.val (v.gets (chanNo x.chan) x.cells)).bump (0x1110 + x.port.val) 0x0E 1)
  else .next s

/-! ## The cell layer (R323, R325) -/

/-- Something that is not a frame leaves a port, in cells of its own. -/
def State.emit (s : State) (x : Nat) (f : Sent) (cells : List (Nat × Bytes)) : State :=
  s.setPort x { s.port x with sent := f :: (s.port x).sent, cells := cells ++ (s.port x).cells }

/-- The header of an idle cell of a port with NAK as given (R322, R323), and of a hello cell, VC 3 with SOF (R343). -/
def PortSt.idleHead (v : PortSt) (nak : Bool) : Nat := cellHeader 3 false false v.txSeq.toNat v.rxSeq.toNat nak 3 0 0
def PortSt.helloHead (v : PortSt) : Nat := cellHeader 3 true false v.txSeq.toNat v.rxSeq.toNat false 3 0 0

/-- What the replay buffer holds is sent again, from the oldest cell on (R323, R344). -/
def State.resend (s : State) (x : Nat) : State :=
  let v := s.port x
  s.emit x (.resend (v.txSeq - BitVec.ofNat 12 v.replay).toNat v.replay) v.kept

/-- The cell times that a port has spent with a full replay buffer, counted when that ends or at the acknowledgement timer; how
many they are is a free value (R323, R347; log 17). -/
def State.stalls (s : State) (x : Nat) : State :=
  if 512 ≤ (s.port x).replay then (s.bump (0x1110 + x) 0x0D (Config.counterValue s.free (0x10000 + x)).toNat).draw else s

/-- Does a port exchange cells? -/
def PortSt.runs (v : PortSt) : Bool := decide (v.life = .up ∨ v.life = .loopback)

/-- Acknowledge every cell up to a SEQ: those after it stay in the replay buffer. An acknowledgement of cells that are
not in the buffer changes nothing. -/
def PortSt.acked (v : PortSt) (ackSeq : BitVec 12) : PortSt :=
  let left := (v.txSeq - ackSeq - 1).toNat
  if left ≤ v.replay then { v with replay := left } else v

/-- Does a port send back the codewords that it decodes, and no cell of its own (R345, mode 2)? -/
def State.fecLoop (s : State) (x : Port) : Bool := decide (s.gov (0x1110 + x.val) 6 = 2)
def State.echoes (s : State) (x : Port) : Bool := decide ((s.port x.val).life = .loopback) && s.fecLoop x

/-- An idle cell goes back as it came (R345, mode 2); its SEQ, which no operand gives, is a free value (log 104). -/
def State.echoIdle (s : State) (x : Port) (ack : BitVec 12) (nak : Bool) (vc credits : Nat) (f : Sent) : State :=
  (s.emit x.val f [(cellHeader 3 false false ((Config.counterValue s.free (0x10020 + x.val)).toNat % 4096) ack.toNat nak vc credits 0, [])]).draw

/-- The generator of a run goes on as cells may leave (R346). -/
def State.feed (s : State) (x : Port) : State := s.setPort x.val ((s.port x.val).feed s.nodeId x.val feedFuel)

/-- CODEWORD_FAIL (R323): what came from the failed codeword on is discarded, and a NAK asks for it again. -/
def execCodewordFail (x : Port) (s : State) : Host.Outcome State Fault Refusal :=
  let v := s.port x.val
  if v.runs || decide (v.life = .aligned ∨ v.life = .trainFailed ∨ v.life = .retraining) then
    let s := s.bump (0x1110 + x.val) 0x0B 1
    .next (if v.runs && !s.echoes x then s.emit x.val (.nak v.rxSeq.toNat) [(v.idleHead true, [])] else s)
  else .next s

/-- NAK_RECEIVED (R323): cells from the one after ACK_SEQ on are sent again. While the port retrains they wait for the hello (R344). -/
def execNakReceived (x : Port) (ackSeq : BitVec 12) (s : State) : Host.Outcome State Fault Refusal :=
  let v := s.port x.val
  if s.echoes x then .next (s.echoIdle x ackSeq true 3 0 (.nak ackSeq.toNat))
  else if v.runs then
    let s := s.stalls x.val
    let s := (s.setPort x.val (v.acked ackSeq)).bump (0x1110 + x.val) 0x0C 1
    let s := s.resend x.val
    .next ((s.setPort x.val (s.port x.val).egress).feed x)
  else if v.life = .retraining then .next (s.setPort x.val (v.acked ackSeq))
  else .next s

/-- Credits that a port may return now: not those of cells that wait here in transit (R325), nor those of the data channel while the
write buffer is short (08 R214). -/
def State.returnable (s : State) (x : Nat) : List Nat :=
  let l := (s.port x).owed.zipIdx.map (fun c => c.1 - s.heldCells x c.2)
  if s.withheld then l.set 1 0 else l

/-- ACK_TIMER (R322, R323, R325): idle cells acknowledge what has come good and return credits. The codewords that were
corrected since the last one are a free number (R347; log 17). -/
def execAckTimer (x : Port) (s : State) : Host.Outcome State Fault Refusal :=
  let v := s.port x.val
  if v.runs then
    let c := s.returnable x.val
    let s := (s.bump (0x1110 + x.val) 0x0A (Config.counterValue s.free (0x10010 + x.val)).toNat).draw.stalls x.val
    .next (if s.echoes x then s else s.setPort x.val ({ v with
      owed := List.zipWith (· - ·) v.owed c, sent := .ack v.rxSeq.toNat c :: v.sent }.idle
        (idleHeaders v.txSeq.toNat v.rxSeq.toNat c)))
  else .next s

/-- CREDIT_RETURN (R325): credits of a channel return, and cells are acknowledged; while the port retrains nothing is sent yet
(R344). -/
def execCreditReturn (x : Port) (vc : Chan) (cells : BitVec 12) (ackSeq : BitVec 12) (s : State) :
    Host.Outcome State Fault Refusal :=
  let v := s.port x.val
  let v' := { v.acked ackSeq with credits := v.credits.set (chanNo vc) (v.credits.getD (chanNo vc) 0 + cells.toNat) }
  if s.echoes x then .next (s.echoIdle x ackSeq false (chanNo vc) cells.toNat (.ack ackSeq.toNat ([0, 0, 0].set (chanNo vc) cells.toNat)))
  else if v.runs then .next (((s.stalls x.val).setPort x.val v'.egress).feed x)
  else if v.life = .retraining then .next (s.setPort x.val v')
  else .next s

/-! ## Forwarding (R339, R340, R342) -/

/-- The forwarding-table entry of a node (R347). -/
def State.fwdEntry (s : State) (node : Nat) : Nat :=
  let b := ((s.govDom 0x1100 2).getD (node / 2) 0).toNat
  if node % 2 = 0 then b % 16 else b / 16

/-- Cells of a frame in transit. -/
def transitCells (f : Transit) : Nat := frameCells f.payload.length

/-- FRAME_FORWARD: its cells came on the channel that it names (R325), and whatever its trailer it goes on (R324). -/
def execFrameForward (x : Port) (f : Transit) (s : State) : Host.Outcome State Fault Refusal :=
  if (s.port x.val).life ≠ .up ∨ f.dst.toNat = 0 ∨ f.dst.toNat = s.nodeId then .next s
  else
    let s := s.setPort x.val ((s.port x.val).gets (chanNo f.chan) (transitCells f))
    let e := s.fwdEntry f.dst.toNat
    if f.hops = 0 then .next (s.bump 0x1100 5 1)
    else if e = 0 ∨ 4 < e ∨ e - 1 = x.val ∨ (s.port (e - 1)).life ≠ .up then .next (s.bump 0x1100 4 1)
    else .next (s.send (e - 1) f.dataClass (transitCells f) (Sent.forward x { f with hops := f.hops - 1 } false))

/-- A frame that came back to a generator is the one that it sent: any other, or one that it has not sent, is failed (R346). -/
def LoopRun.check (g : LoopRun) (node x : Nat) (f : Transit) : LoopRun :=
  if f.tag.toNat < g.next ∧ transitBytes f = (loopFrame loopSeed node x f.tag.toNat).bytes then { g with good := g.good + 1 }
  else { g with failed := g.failed + 1 }

/-- FRAME_LOOPBACK (R345, R346): mode 3 returns each frame, its nodes swapped and REPLY set; mode 2 sends the codewords of a frame
back as they came, below the cells (DEDUCED, log 104); in modes 1 and 5 it is a frame of the generator that has come back. -/
def execFrameLoopback (x : Port) (f : Transit) (s : State) : Host.Outcome State Fault Refusal :=
  let v := s.port x.val
  if v.life = .loopback ∧ s.gov (0x1110 + x.val) 6 = 3 then
    let c : Chan := if v.peerModule then .fwd else if f.dataClass then .data else .ctrl
    .next (s.setPort x.val ({ v.gets (chanNo f.chan) (transitCells f) with
      waiting := v.waiting ++ [(c, transitCells f, Sent.forward x { f with src := f.dst, dst := f.src, reply := true } false)] }).egress)
  else if s.echoes x then .next (s.emit x.val (.forward x f false) [])
  else if v.life = .loopback then
    .next ((s.setPort x.val { v.gets (chanNo f.chan) (transitCells f) with
      loopRun := v.loopRun.map (fun g => g.check s.nodeId x.val f) }).feed x)
  else .next s

/-- A frame in transit that has cells to send. -/
def isForward : Sent → Bool
  | .forward _ _ _ => true
  | _ => false

/-- End a frame that arrives on a port that leaves UP, at once: one more cell, with an inverted CRC, after the first if that
has not gone yet (R342; log 12). A frame that has been ended stays so. -/
def cutForward (x : Port) : Chan × Nat × Sent → Chan × Nat × Sent
  | (c, n, .forward y f bad) =>
    if y = x ∧ !bad then (c, if n = transitCells f then min 2 n else 1, .forward y f true) else (c, n, .forward y f bad)
  | w => w

/-- FORWARD_LINK_DOWN (R342), and the end of the port's transfers (14 R360), as the port leaves UP. -/
def State.leaveUp (s : State) (x : Port) : State :=
  let s := s.each (List.range 4) (fun s y =>
    let v := s.port y
    s.setPort y { v with waiting :=
      if y = x.val then v.waiting.filter (fun w => !isForward w.2.2) else v.waiting.map (cutForward x) })
  s.endTransfers x

/-! ## Bring-up and retraining (R343, R344) -/

/-- What a port holds for its peer is lost. -/
def PortSt.flush (v : PortSt) (life : LinkLife) : PortSt :=
  { v with life := life, credits := [0, 0, 0], owed := [0, 0, 0], replay := 0, waiting := [], loopRun := none }

/-- A port goes DOWN: what was not acknowledged is lost, and a record says so (16 R404). -/
def State.linkDown (s : State) (x : Port) : State :=
  let s := s.setPort x.val ((s.port x.val).flush .down)
  s.raise (report causeLinkDown 5 x.val 0 0)

/-- One second of the timebase (R344). -/
def oneSecond : Nat := 100000000

/-- The retrains of a port that lie less than a second back, in the time that the module keeps (R344; log 12). -/
def State.lateRetrains (s : State) (v : PortSt) : List Nat :=
  v.retrains.filter (fun t => decide (s.clock.now < t + oneSecond))

/-- A port retrains; a third retrain within a second sends it DOWN (R344). -/
def State.retrain (s : State) (x : Port) : State :=
  let v := s.port x.val
  if v.runs then
    let before := s.lateRetrains v
    let s := ((s.setPort x.val { v with life := .retraining, retrains := s.clock.now :: before }).bumpSat
      (0x1110 + x.val) 0x10 1).leaveUp x
    if 2 ≤ before.length then s.linkDown x else s
  else if v.life = .trainFailed then s.setPort x.val { v with life := .down }
  else if v.life = .aligned then s.setPort x.val { v with life := .signal }
  else s

/-- SIGNAL (R343). -/
def execSignal (x : Port) (s : State) : Host.Outcome State Fault Refusal :=
  let v := s.port x.val
  if v.life = .down ∧ s.power.railsUp then .next (s.setPort x.val { v with life := .signal }) else .next s

/-- PORT_ALIGN (R343). -/
def execPortAlign (x : Port) (s : State) : Host.Outcome State Fault Refusal :=
  let v := s.port x.val
  if v.life = .signal then .next (s.setPort x.val { v with life := .aligned }) else .next s

/-- HELLO_TIMER (R343); in mode 2 the peer's hellos go back instead (R345; log 104). -/
def execHelloTimer (x : Port) (s : State) : Host.Outcome State Fault Refusal :=
  let v := s.port x.val
  if (v.life = .aligned ∨ v.life = .trainFailed ∨ v.life = .retraining) ∧ !s.fecLoop x then
    .next (s.emit x.val (.hello (helloBytes s.nodeId)) [(v.helloHead, helloBytes s.nodeId)])
  else .next s

/-- Does a hello make a port UP (R325, R343)? -/
def helloGood (h : Hello) : Bool :=
  decide (h.version = 1) && decide (16 ≤ h.ctrl.toNat) && decide (69 ≤ h.data.toNat) && decide (69 ≤ h.fwd.toNat)

/-- HELLO_RECEIVE (R343, R344): the port is UP, or loops; after a retrain it goes on with what it held, from the hello's ACK_SEQ
on. In mode 2 the hello goes back (R345). -/
def execHelloReceive (x : Port) (h : Hello) (s : State) : Host.Outcome State Fault Refusal :=
  let life := if s.gov (0x1110 + x.val) 6 = 0 then LinkLife.up else .loopback
  let live := (s.port x.val).runs || decide ((s.port x.val).life = .aligned ∨ (s.port x.val).life = .trainFailed ∨ (s.port x.val).life = .retraining)
  let s := if live && s.fecLoop x then s.emit x.val (.hello (helloPayload h)) [(helloHeader h, helloPayload h)] else s
  let v := s.port x.val
  if v.life ≠ .aligned ∧ v.life ≠ .trainFailed ∧ v.life ≠ .retraining then .next s
  else if !helloGood h then .next (s.setPort x.val { v with life := .trainFailed })
  else if v.life = .retraining then
    let v := v.acked h.ack
    let s := s.setPort x.val { v with life := life, peerModule := decide (h.role = 1), peerNode := h.node }
    let s := if v.replay = 0 || s.fecLoop x then s else s.resend x.val
    .next (if s.fecLoop x then s else s.setPort x.val (s.port x.val).egress)
  else .next (s.setPort x.val { v with
    life := life, peerModule := decide (h.role = 1), peerNode := h.node
    credits := [h.ctrl.toNat, h.data.toNat, h.fwd.toNat], owed := [0, 0, 0], txSeq := 0, rxSeq := 0xFFF, replay := 0, waiting := [] })

/-- TRAIN_TIMEOUT (R343). -/
def execTrainTimeout (x : Port) (s : State) : Host.Outcome State Fault Refusal :=
  let v := s.port x.val
  if v.life = .signal ∨ v.life = .aligned then .next (s.setPort x.val { v with life := .down }) else .next s

/-- ALIGNMENT_LOST (R344). -/
def execAlignmentLost (x : Port) (s : State) : Host.Outcome State Fault Refusal := .next (s.retrain x)

/-- RETRAIN_TIMEOUT (R344). -/
def execRetrainTimeout (x : Port) (s : State) : Host.Outcome State Fault Refusal :=
  if (s.port x.val).life = .retraining then .next (s.linkDown x) else .next s

/-- CONTROL of a port at the boundary (R347): 1 retrain, 2 disable, 3 enable. Disabled in TRAIN_FAILED it goes to DOWN
(R343). -/
def State.portControl (s : State) (x : Port) (v : Nat) : State :=
  let p := s.port x.val
  if v = 1 then s.retrain x
  else if v = 2 then (if p.node ≠ 0 ∨ p.life = .disabled then s
    else (s.setPort x.val (p.flush (if p.life = .trainFailed then .down else .disabled))).leaveUp x)
  else if p.life = .disabled then s.setPort x.val { p with life := .down }
  else s

/-- LOOP_RUN (R346): the generator starts in modes 1 and 5, and sends its first frames. -/
def State.startLoop (s : State) (x : Port) (ms : Nat) : State :=
  let v := s.port x.val
  if v.life = .loopback ∧ (s.gov (0x1110 + x.val) 6 = 1 ∨ s.gov (0x1110 + x.val) 6 = 5) then
    (s.setPort x.val { v with loopRun := some ⟨ms, 0, 0, 0⟩ }).feed x
  else s

/-- LOOP_RUN_END (R346, R347): the generator stops, and LOOP_RESULT holds the counts of the frames that came back and were checked, with
`good` and `failed` for those of the run that no FRAME_LOOPBACK has shown, missing ones among the failed (log 103). A frame that has not
begun to leave is not sent. -/
def execLoopRunEnd (x : Port) (good failed : Nat) (s : State) : Host.Outcome State Fault Refusal :=
  let v := s.port x.val
  match v.loopRun with
  | none => .next s
  | some g => .next ((s.setPort x.val { v with
      loopRun := none, waiting := v.waiting.filter (fun w => decide (w.2.1 < w.2.2.cells)), sent := .run (good + failed) :: v.sent }).put
        (0x1110 + x.val) 8 (field 32 32 (g.good + good) + field 31 1 (g.failed + failed) + 1))

end Sys2Proof.Machine
end

