-- ==== Sys2Proof/Machine/Loads.lean ====
section
/-! DEFINITION. Banks and loads: BANK_CONTROL and the swaps (03 R74 to R77, R503), STAGE_MODEL (15 R388, 07 R175 to R178,
11 R285), and contexts (02 R61, R68, R70, 15 R387). -/

namespace Sys2Proof.Machine

/-! ## BANK_CONTROL (R74, R76, R77, R503) -/

/-- Report the result of a load check (R75). -/
def State.loadReport (s : State) (p n kind result step : Nat) : State :=
  (s.setCtx p n { s.ctx p n with
    loadResult := BitVec.ofNat 8 result, failStep := BitVec.ofNat 12 step, lastKind := BitVec.ofNat 3 kind }).put
      (0x2010 + p) 0x13 result

/-- Change the banks of some kinds of a context. -/
def Context.updBanks (c : Context) (ks : List Kind) (f : Banks → Banks) : Context :=
  ks.foldl (fun c k => c.setBanks k (f (c.banks k))) c

/-- Withdraw an arm: from every shadow that the same write armed (R77). -/
def Context.withdraw (c : Context) (k : Kind) : Context :=
  let g := (c.banks k).armGroup
  if (c.banks k).st = .armed then
    c.updBanks allKinds (fun b => if b.st = .armed ∧ b.armGroup = g then { b with st := .ready } else b)
  else c

/-- ARM (R76, R177). A refused ARM has no effect; the write that asked for it is a legal control, and its reply is OK
(14 R357; DEDUCED, log 86). -/
def State.armBanks (s : State) (p n : Nat) (sel : List Kind) : State :=
  let c := s.ctx p n
  if sel.isEmpty || sel.any (fun k => decide ((c.banks k).st ≠ .ready)) then s
  else if c.notLoaded sel then s.loadReport p n 0 ldNotLoaded 0
  else if decide (Kind.table ∈ sel) && s.stagingBusy c.table.shadow then s.loadReport p n 0 ldStagingBusy 0
  else (s.setCtx p n (c.updBanks sel (fun b => { b with st := .armed, armGroup := s.arms }))).setArms (s.arms + 1)

/-- DISARM (R77): the selected kinds alone, also where one write armed them with others (DESIGN CHOICE, log 87). -/
def Context.disarm (c : Context) (sel : List Kind) : Context :=
  c.updBanks sel (fun b => if b.st = .armed then { b with st := .ready } else b)

/-- An empty shadow. -/
def Banks.dropShadow (b : Banks) : Banks := { b with shadow := Bank.none, st := .empty, dropWhenRetired := false }

/-- End a load in progress: its command completes with a status, the shadow takes a state. -/
def State.endLoad (s : State) (p n : Nat) (k : Kind) (status count step : Nat) : State :=
  match s.stagings.find? (fun g => decide (g.part = p ∧ g.ctx = n ∧ g.kind = kindNo k)) with
  | none => s
  | some g => (s.setStagings (s.stagings.filter (fun h => decide (h.key ≠ g.key)))).finish g.key status count step

/-- DISCARD of one kind (R503). -/
def State.discardBank (s : State) (p n : Nat) (k : Kind) : State :=
  let c := s.ctx p n
  match (c.banks k).st with
  | .empty => s
  | .ready => s.setCtx p n (c.updBanks [k] Banks.dropShadow)
  | .failed => s.setCtx p n (c.updBanks [k] Banks.dropShadow)
  | .armed => s.setCtx p n ((c.withdraw k).updBanks [k] Banks.dropShadow)
  | .loading =>
    ((s.setCtx p n (c.updBanks [k] Banks.dropShadow)).loadReport p n (kindNo k) ldDiscarded 0).endLoad p n k stLoadFailed ldDiscarded 0
  | .retiring => s.setCtx p n (c.updBanks [k] (fun b => { b with dropWhenRetired := true }))

/-- A write to BANK_CONTROL. -/
def State.bankControl (s : State) (p n v : Nat) : State :=
  let sel := kindsOf v
  let a := bits v 15 14
  if a = 1 then s.armBanks p n sel
  else if a = 2 then s.setCtx p n ((s.ctx p n).disarm sel)
  else if a = 3 then s.each sel (fun s k => s.discardBank p n k)
  else s

/-! ## Swaps (R76, R77) -/

/-- Swap one kind; `busy` says that a batch step of the context runs on the old bank. -/
def Banks.swap (b : Banks) (busy : Bool) : Banks :=
  { b with
    side := !b.side, active := b.shadow, shadow := b.active
    st := if !b.active.full then .empty else if busy then .retiring else .ready }

/-- The armed kinds of a context. -/
def Context.armedKinds (c : Context) : List Kind := allKinds.filter (fun k => decide ((c.banks k).st = .armed))

/-- Make the swaps of a context, as one act (R76). -/
def State.swapContext (s : State) (p n : Nat) : State :=
  let c := s.ctx p n
  let s := if c.life = .loaded ∧ !c.table.active.full ∧ c.table.st = .ready then s.armBanks p n [.table] else s
  let c := s.ctx p n
  let ks := c.armedKinds
  if ks = [] then s
  else
    let busy := match (s.seq p).run with
      | some r => decide (r.ctx.val = n)
      | none => false
    let d := c.updBanks ks (fun b => b.swap busy)
    s.setCtx p n { d with
      swaps := c.swaps + BitVec.ofNat 8 ks.length
      tomb := if Kind.tomb ∈ ks then { d.tomb with st := .retiring } else d.tomb
      index := if Kind.tomb ∈ ks then d.index.map (fun i => { i with swapped := s.tick }) else d.index
      activeEpoch := if Kind.table ∈ ks then s.clock.epoch else c.activeEpoch }

/-- Every swap of a boundary. -/
def State.swapAll (s : State) : State :=
  s.each (s.ctxs.map Prod.fst) (fun s i => s.swapContext (i / 16) (i % 16))

/-! ## Image loads (R388, R75) -/

/-- Is a set ready for the STAGE_MODEL of a kind? -/
def State.readyStage (s : State) (k kind : Nat) : Bool :=
  s.ready k 0x21 && decide (bits ((s.tset k).reg 1) 61 59 = kind)

/-- May the STAGE_MODEL of a kind load its shadow? A RETIRING shadow is waited for (R77). -/
def State.readyLoad (s : State) (k kind : Nat) (b : Kind) : Bool :=
  s.readyStage k kind && decide (((s.ctx (s.tset k).partNo (s.tset k).ctxNo).banks b).st ≠ .retiring)

/-- Load an image into the shadow of a kind: an arm is withdrawn, the shadow is LOADING, and the image is read. -/
def State.loadImage (s : State) (k : Nat) (kind : Kind) : State :=
  let t := s.tset k
  let p := t.partNo
  let n := t.ctxNo
  let s := s.begin k
  let s := s.setCtx p n ((s.ctx p n).withdraw kind)
  let stop := fun (s : State) (st : Shadow) => s.setCtx p n ((s.ctx p n).updBanks [kind] (fun b => { b with shadow := Bank.none, st := st }))
  if decide (kind = .scales ∨ kind = .sft) && meets (s.part p).defn.squares s.gated then
    ((stop s .empty).loadReport p n (kindNo kind) ldGated 0).finish k stLoadFailed ldGated 0
  else match s.readTier (t.reg 2) (t.reg 3) with
    | .error a => (((stop s .failed).loadReport p n (kindNo kind) ldUncorr 0).memRecord k a).finish k stUncorr 0 0
    | .ok m =>
      let s := (s.sees [(none, t.reg 2, t.reg 3)]).draw.setCtx p n ((s.ctx p n).updBanks [kind] (fun b => { b with
        shadow := ⟨true, m, t.reg 3, t.reg 4⟩, st := .loading }))
      s.setStagings (s.stagings ++ [⟨k, p, n, kindNo kind, 0, 0, 0, none⟩])

/-- STAGE_MODEL of kind 0. -/
def execStageModelTable (x : Port) (set : SetId) (s : State) : Host.Outcome State Fault Refusal :=
  let k := setKey x set
  if s.readyLoad k 0 .table then .next (s.loadImage k .table) else .next s

/-- STAGE_MODEL of kind 1. -/
def execStageModelScales (x : Port) (set : SetId) (s : State) : Host.Outcome State Fault Refusal :=
  let k := setKey x set
  if s.readyLoad k 1 .scales then .next (s.loadImage k .scales) else .next s

/-- STAGE_MODEL of kind 2. -/
def execStageModelSfTables (x : Port) (set : SetId) (s : State) : Host.Outcome State Fault Refusal :=
  let k := setKey x set
  if s.readyLoad k 2 .sft then .next (s.loadImage k .sft) else .next s

/-- STAGE_MODEL of kind 4 (R285). -/
def execStageModelDistance (x : Port) (set : SetId) (s : State) : Host.Outcome State Fault Refusal :=
  let k := setKey x set
  if s.readyLoad k 4 .dist then .next (s.loadImage k .dist) else .next s

/-- What a shadow holds after a passed check: a scale image or function tables without their header, a distance-table
span, a move table whole. -/
def checkedBank (k : Kind) (b : Bank) : Bank :=
  let h := b.data.num 0 64
  match k with
  | .scales => { b with data := b.data.slice 64 (b.len - 64), len := b.len - 64 }
  | .sft => { b with data := b.data.slice 64 (b.len - 64), len := b.len - 64, addr := bits h 463 461 }
  | .dist => { b with data := [], len := b.len - 64 }
  | _ => b

/-- The load check of a kind on the image in its shadow. -/
def State.checkLoad (s : State) (p n : Nat) (k : Kind) (b : Bank) : Verdict :=
  match k with
  | .table => s.checkTable p (s.ctx p n).owner.val b
  | .scales => s.checkScales p b.data b.len
  | .sft => checkSft b.data b.len
  | .dist => s.checkDist p n b.data b.len b.addr
  | .tomb => none

/-- Kind of a number. -/
def kindOfNo (n : Nat) : Kind := allKinds.getD n .table

/-- A scale image has been written whole into the shadow bank of the first `n'` dies of a partition: the words of that
bank are sound again (05 R137, R139; 04 R118). -/
def State.scalesWritten (s : State) (p n n' : Nat) : State :=
  let lo := (n * 2 + (if (s.ctx p n).scales.side then 0 else 1)) * 16384
  s.setFabric { s.fabric with dies := ((s.squaresOf p).take n').foldl (fun (m : Tab Die) d =>
    let x := m.get Die.empty d
    m.set d { x with badScale := x.badScale.filter (fun a => !within a 1 lo 16384) }) s.fabric.dies }

/-- End a load with its check's verdict (R75, R388). -/
def State.loadDone (s : State) (k : Nat) (g : Staging) : State :=
  let kind := kindOfNo g.kind
  let p := g.part
  let n := g.ctx
  let b := ((s.ctx p n).banks kind).shadow
  let s := s.setStagings (s.stagings.filter (fun h => decide (h.key ≠ k)))
  match s.checkLoad p n kind b with
  | some (c, i) =>
    let s := s.setCtx p n ((s.ctx p n).updBanks [kind] (fun x => { x with shadow := Bank.none, st := .failed }))
    (s.loadReport p n g.kind c i).finish k stLoadFailed c i
  | none =>
    let ready := fun (s : State) =>
      ((s.setCtx p n ((s.ctx p n).updBanks [kind] (fun x => { x with shadow := checkedBank kind b, st := .ready }))).loadReport
        p n g.kind 0 0).finish k stOk 0 0
    if kind = .dist then
      match s.writeTier b.addr (b.len - 64) (b.data.slice 64 (b.len - 64)) with
      | .ok s => ready s
      | .error a =>
        let s := s.setCtx p n ((s.ctx p n).updBanks [kind] (fun x => { x with shadow := Bank.none, st := .failed }))
        ((s.loadReport p n g.kind ldUncorr 0).memRecord k a).finish k stUncorr 0 0
    else if kind = .scales then ready (s.scalesWritten p n ((b.len - 64) / 16384))
    else ready s

/-- LOAD_CHECK (R75), `t` after the last boundary: the shadow is READY or FAILED and the command completes; the sequencer
then selects its next batch step (R46). -/
def execLoadCheck (x : Port) (set : SetId) (t : Nat) (s : State) : Host.Outcome State Fault Refusal :=
  let k := setKey x set
  match s.stagings.find? (fun g => decide (g.key = k ∧ g.kind ≠ 5)) with
  | none => .next s
  | some g => .next ((s.loadDone k g).selectNext g.part (s.clock.boundaryAt + t))

/-! ## Far staging (07 R175 to R178) -/

/-- The ledger as a list. -/
def State.ledger (s : State) : List Nat := (List.range 64).map (fun i => s.obj 0x3060 (i + 1))

/-- Put a ledger back. -/
def State.putLedger (s : State) (l : List Nat) : State := s.each l.zipIdx (fun s e => s.put 0x3060 (e.2 + 1) e.1)

/-- Two adjacent VALID entries of a partition: their indices. -/
def mergePair (l : List Nat) : Option (Nat × Nat) :=
  ((List.range 64).flatMap (fun i => (List.range 64).map (fun j => (i, j)))).find? (fun c =>
    let a := ledgerFields (l.getD c.1 0)
    let b := ledgerFields (l.getD c.2 0)
    decide (c.1 ≠ c.2) && decide (a.1 = 2) && decide (b.1 = 2) && decide (a.2.1 = b.2.1) && decide (a.2.2.1 + a.2.2.2 = b.2.2.1))

/-- Merge until no two adjacent entries are left (R176). -/
def mergeAll : Nat → List Nat → List Nat
  | 0, l => l
  | fuel + 1, l => match mergePair l with
    | none => l
    | some (i, j) =>
      let a := ledgerFields (l.getD i 0)
      let b := ledgerFields (l.getD j 0)
      mergeAll fuel ((l.set i (ledgerEntry 2 a.2.1 a.2.2.1 (a.2.2.2 + b.2.2.2))).set j 0)

/-- The parts of an entry that a destination leaves. -/
def cutEntry (lo n e : Nat) : List Nat :=
  let f := ledgerFields e
  if f.1 = 0 ∨ !overlaps lo n f.2.2.1 f.2.2.2 then [e]
  else
    (if f.2.2.1 < lo then [ledgerEntry f.1 f.2.1 f.2.2.1 (lo - f.2.2.1)] else [])
      ++ (if lo + n < f.2.2.1 + f.2.2.2 then [ledgerEntry f.1 f.2.1 (lo + n) (f.2.2.1 + f.2.2.2 - (lo + n))] else [])

/-- Put entries into unused places, lowest first. -/
def fillLedger (l : List Nat) (new : List Nat) : Option (List Nat) :=
  new.foldl (fun acc e => match acc with
    | none => none
    | some l => match (List.range 64).find? (fun i => decide (l.getD i 0 = 0)) with
      | none => none
      | some i => some (l.set i e)) (some l)

/-- The ledger with a new WRITING entry, and its place; none where there is no room: where it is full, or has too few places for the
parts that the destination leaves of an entry and the new one (R176 names the first alone; DESIGN CHOICE, log 122). -/
def tryLedger (l : List Nat) (part lo n : Nat) : Option (List Nat × Nat) :=
  if l.all (fun e => decide (e ≠ 0)) then none
  else
    let kept := l.map (fun e => (cutEntry lo n e).headD 0)
    match fillLedger kept (l.flatMap (fun e => (cutEntry lo n e).drop 1)) with
    | none => none
    | some l => match (List.range 64).find? (fun i => decide (l.getD i 0 = 0)) with
      | none => none
      | some i => some (l.set i (ledgerEntry 1 part lo n), i)

/-- The same; adjacent VALID entries are merged where there is no room otherwise (R176). -/
def openLedger (l : List Nat) (part lo n : Nat) : Option (List Nat × Nat) :=
  match tryLedger l part lo n with
  | some r => some r
  | none => tryLedger (mergeAll 64 l) part lo n

/-- Is a far range named by the active bank or an ARMED shadow of a loaded table of any partition (R176)? -/
def State.farNamed (s : State) (lo n : Nat) : Bool :=
  s.ctxs.any (fun e =>
    let c := e.2
    decide (c.life = .loaded)
      && ((c.table.active.full && (farSpans c.table.active).any (fun f => overlaps lo n f.1 f.2))
        || (decide (c.table.st = .armed) && (farSpans c.table.shadow).any (fun f => overlaps lo n f.1 f.2))))

/-- Does a far range hold codes of an attached index (11 R282)? -/
def State.codesNamed (s : State) (lo n : Nat) : Bool :=
  s.ctxs.any (fun e => match e.2.index with
    | some i =>
      let d := descriptor (numOf i.desc)
      decide (d.farNodes ≠ 0) && overlaps lo n d.codeFar (d.farNodes * d.stride)
    | none => false)

/-- What a staging reads: the bytes, how many are good, and a failure. -/
def State.stageSource (s : State) (k : Nat) : Mem × Nat × Option BlockRead :=
  let t := s.tset k
  if bits (t.reg 1) 58 57 = 0 then
    let r := s.readRun t.stamp.toNat (keyPort k) t.nsNo (t.reg 2) (t.reg 3 / 4096) 0 []
    (r.1, r.2.1 * 4096, r.2.2)
  else match s.readTier (t.reg 2) (t.reg 3) with
    | .ok m => (m, t.reg 3, none)
    | .error a =>
      let n := (a - t.reg 2) / 64 * 64
      (match s.readTier (t.reg 2) n with
        | .ok m => m
        | .error _ => [], n, some .unreadable)

/-- The first block or word of the source of a staging from a tier that it may not deliver. -/
def State.sourceBad (s : State) (t : TaskSet) : Nat := match s.readTier (t.reg 2) (t.reg 3) with
  | .ok _ => t.reg 2
  | .error a => a

/-- The channel slots that reading the source of a staging takes: none where it is no flash (R175). -/
def State.slotsOfSource (s : State) (t : TaskSet) (blocks : Nat) : State × Nat :=
  if bits (t.reg 1) 58 57 = 0 then s.flashSlots t.nsNo (t.reg 2) blocks t.stamp.toNat
  else ((s.sees [(none, t.reg 2, t.reg 3)]).draw, 0)

/-- Write what a staging has read; the entry's checks have left no address out. -/
def State.writeSource (s : State) (lo n : Nat) (m : Mem) : State :=
  match s.writeTier lo n m with
  | .ok s => s
  | .error _ => s

/-- STAGE_MODEL of kind 3: the staging is entered in the ledger and copies; it ends with STAGING_COMPLETE. -/
def execStageModelFar (x : Port) (set : SetId) (s : State) : Host.Outcome State Fault Refusal :=
  let k := setKey x set
  if !s.readyStage k 3 then .next s
  else
    let t := s.tset k
    let p := t.partNo
    let lo := t.reg 4
    let n := t.reg 3
    let l := s.ledger
    let writing := l.any (fun e => decide ((ledgerFields e).1 = 1) && overlaps lo n (ledgerBase e) (ledgerBytes e))
    if s.guard.farOff || s.farNamed lo n || s.codesNamed lo n || writing then .next (s.finish k stDenied 0 0)
    else match openLedger l p ((lo - farFirst) / mib) (n / mib) with
      | none => .next (s.finish k stDenied 0 0)
      | some (l, i) =>
        let r := s.stageSource k
        let s := (s.begin k).putLedger l
        let a := s.slotsOfSource t (r.2.1 / 4096)
        let s := a.1.writeSource lo r.2.1 (r.1.slice 0 r.2.1)
        let stop := match r.2.2 with
          | none => none
          | some .unreadable => some (stUncorr, s.sourceBad t)
          | some _ => some (stDenied, 0)
        let s := s.becomePending p ((if r.2.1 = 0 then [] else [(3, r.2.1)]) ++ (if a.2 = 0 then [] else [(4, a.2)]))
        .next (s.setStagings (s.stagings ++ [⟨k, p, t.ctxNo, 5, i, r.2.1, a.2, stop⟩]))

/-- STAGING_COMPLETE (R176, R178): the staging has ended, and is charged (R175; 02 R66). -/
def execStagingComplete (x : Port) (set : SetId) (s : State) : Host.Outcome State Fault Refusal :=
  let k := setKey x set
  match s.stagings.find? (fun g => decide (g.key = k ∧ g.kind = 5)) with
  | none => .next s
  | some g =>
    let t := s.tset k
    let s := s.setStagings (s.stagings.filter (fun h => decide (h.key ≠ k)))
    let s := (s.charge g.part 3 (ceilDiv g.moved 4000)).charge g.part 4 (channelTime g.slots)
    match g.stop with
    | none => .next ((s.setEntry g.entry 2).finish k stOk (g.moved / mib) 0)
    | some (c, a) =>
      let s := s.setEntry g.entry 3
      let s := if c ≠ stUncorr then s
        else if bits (t.reg 1) 58 57 = 0 then s.flashRecord k t.nsNo (t.reg 2 + g.moved / 4096)
        else s.memRecord k a
      .next (s.finish k c (g.moved / mib) 0)

/-! ## Contexts (02 R61, R68, R70; 15 R387) -/

/-- CONTEXT create waits for its boundary. -/
def execContextCreate (x : Port) (set : SetId) (s : State) : Host.Outcome State Fault Refusal :=
  let k := setKey x set
  if s.ready k 0x20 && decide (bits ((s.tset k).reg 1) 63 62 = 1) then .next (s.begin k) else .next s

/-- CONTEXT release waits for its boundary. -/
def execContextRelease (x : Port) (set : SetId) (s : State) : Host.Outcome State Fault Refusal :=
  let k := setKey x set
  if s.ready k 0x20 && decide (bits ((s.tset k).reg 1) 63 62 = 2) then .next (s.begin k) else .next s

/-- CONTEXT teardown: R68 runs at the next boundary. -/
def execContextTeardown (x : Port) (set : SetId) (s : State) : Host.Outcome State Fault Refusal :=
  let k := setKey x set
  if s.ready k 0x20 && decide (bits ((s.tset k).reg 1) 63 62 = 3) then .next (s.begin k) else .next s

/-- Commands of a context that its teardown or release ends (R68): all but CONTEXT itself, and but those whose last batch
step has reached its END, which this boundary publishes (01 R34, R36; DEDUCED, log 63). -/
def State.ctxCommands (s : State) (p n : Nat) : List Nat :=
  s.taken.filter (fun k =>
    let t := s.tset k
    opPartition t.opcode && decide (t.opcode ≠ 0x20) && decide (t.partNo = p) && decide (t.ctxNo = n)
      && decide (t.due = none) && !(t.runsSteps && decide (t.steps ≤ t.published + t.held)))

/-- End a context's batch step in progress, commands and stagings (R68 steps 1 to 3). Batch steps that have reached their END
are published at this boundary (01 R34; DEDUCED, log 63). -/
def State.emptyContext (s : State) (p n : Nat) : State :=
  let s := match (s.seq p).run with
    | some r => if r.ctx.val = n then (s.cutSteps p (fun _ => true)).dropRun p else s
    | none => s
  let s := s.stopStagings (fun g => decide (g.part = p ∧ g.ctx = n))
  s.each (s.ctxCommands p n) (fun s k => s.postLater k stTornDown (s.tset k).progress 0)

/-- Tear a context down (R68): it is FAULTED, and its owner's stream into the partition is frozen. -/
def State.teardown (s : State) (p n : Nat) : State :=
  let c := s.ctx p n
  if c.life ≠ .loaded then s
  else
    let s := (s.emptyContext p n).setCtx p n { c.gone with life := .faulted, owner := c.owner }
    s.freezeDue c.owner.val (freezePart p)

/-- Carry out one CONTEXT command at its boundary: its status. -/
def State.contextCommand (s : State) (k : Nat) : State :=
  let t := s.tset k
  let p := t.partNo
  let n := t.ctxNo
  let c := s.ctx p n
  let op := bits (t.reg 1) 63 62
  if !s.partLists p (keyPort k) then s.postLater k stDenied 0 0
  else if op = 1 then
    if c.life = .empty then
      (s.setCtx p n { Context.none with life := .loaded, owner := Fin.ofNat 4 (keyPort k) }).postLater k stOk 0 0
    else s.postLater k stDenied 0 0
  else if op = 2 then
    if c.life = .faulted ∨ (c.life = .loaded ∧ !s.ctxBusy p n) then
      ((s.emptyContext p n).setCtx p n c.gone).postLater k stOk 0 0
    else s.postLater k stDenied 0 0
  else (s.teardown p n).postLater k stOk 0 0

/-- The CONTEXT commands of the tick, in taking order. -/
def State.contextCommands (s : State) : List Nat :=
  let l := s.taken.filter (fun k => s.runsCmd k 0x20 && decide ((s.tset k).begun = 1))
  kFirst (fun (a b : Nat) => decide ((s.tset a).order < (s.tset b).order)) l.length l

end Sys2Proof.Machine
end

