-- ==== Sys2Proof/Machine/Reset.lean ====
section
/-! DEFINITION. What stops compute (16 R401), the power-fail warning (17 R427, R428), the copies to the persistent pages
(16 R415), the choice of a firmware slot (18 R455), and a module reset (17 R432): what it keeps and what it takes away. -/

namespace Sys2Proof.Machine

/-! ## Persistent pages (R413, R415) -/

/-- Put a record back under its number. -/
def State.putRec (s : State) (r : Rec) : State :=
  s.setErrors { s.errors with ring := s.errors.ring.mapVals (fun _ x => if x.seq = r.seq then r else x) }

/-- The newest `n` of a page with one record more. -/
def pageAdd {α : Type} (n : Nat) (l : List α) (x : α) : List α := (l ++ [x]).drop (l.length + 1 - n)

/-- The newest `n` records of a page with one more, oldest first by their numbers; `next` is the next number. -/
def pagePut (n : Nat) (next : BitVec 32) (l : List Rec) (r : Rec) : List Rec :=
  let older := fun (x : Rec) => decide ((next - r.seq).toNat < (next - x.seq).toNat)
  (l.filter older ++ [r] ++ l.filter (fun x => !older x)).drop (l.length + 1 - n)

/-- A sector of the code flash is erased; CF_MAX_ERASES reports the most-erased one (17 R440). -/
def State.eraseSector (s : State) (sector : Nat) : State :=
  let n := s.security.erases.get 0 sector + 1
  (s.setSecurity { s.security with erases := s.security.erases.set sector n }).put 0x7040 5 (max (s.obj 0x7040 5) n)

/-- Persistent data is written to the data region of the bank that does not run (17 R439). Whether that erases a sector of it, and
which, is free (log 121). -/
def State.dataWrite (s : State) : State :=
  let n := Config.dataErase s.free
  let s := s.draw
  if n < 32 then s.eraseSector (512 + 256 * (1 - s.obj 0x7040 1) + n) else s

/-- Copy a record that waits to page 1 or 2. -/
def State.persist (s : State) (seq : BitVec 32) : State :=
  let e := s.errors
  let s := s.setErrors { e with toCopy := e.toCopy.filter (fun q => decide (q ≠ seq)) }
  match e.ring.find? (fun x => decide (x.2.seq = seq)) with
  | none => s
  | some x =>
    let r := { x.2 with persisted := true }
    let s := s.putRec r
    (s.setErrors (if r.isHistory then { s.errors with history := pagePut 4096 s.errors.next s.errors.history r }
      else { s.errors with events := pagePut 16384 s.errors.next s.errors.events r })).dataWrite

/-- DEVICE records are always copied. -/
def State.persistDevice (s : State) : State :=
  s.each (s.errors.toCopy.filter (fun q => s.errors.ring.any (fun e => decide (e.2.seq = q) && decide (e.2.rep.severity.toNat = 4))))
    State.persist

/-- Every record that waits is copied. -/
def State.persistAll (s : State) : State := s.each s.errors.toCopy State.persist

/-! ## Compute stops (R401) -/

/-- Every sequencer stops, what is issued is cut, every held output is discarded, and every partition but the FREE ones is
to be reset (R401). -/
def State.stopCompute (s : State) : State :=
  let s := s.each s.taken State.dropHeld
  s.each (List.range 8) (fun s p =>
    let s := if (s.seq p).run.isSome then (s.cutSteps p (fun _ => true)).dropRun p else s
    let x := s.part p
    if x.committed && decide (x.life ≠ .resetting) then s.setPart p { x with resetDue := true } else s)

/-! ## The power-fail warning (17 R427, R428) -/

/-- A port goes DOWN with the optical engines; its ownership is kept. The record of a port that goes DOWN (R404) is
raised for one that had been UP. -/
def State.portOff (s : State) (x : Port) : State :=
  let v := s.port x.val
  if v.life = .disabled ∨ v.life = .down then s
  else
    let s := (s.setPort x.val (v.flush .down)).leaveUp x
    if v.life = .up ∨ v.life = .retraining then s.raise (report causeLinkDown 5 x.val 0 0) else s

/-- Every port goes DOWN. -/
def State.portsOff (s : State) : State := s.each [0, 1, 2, 3] State.portOff

/-- A start-up that a warning met stops; it begins again when R433 holds (R432). The records that wait are copied before the ring
starts afresh (16 R415). -/
def State.fallBack (s : State) : State :=
  let s := s.persistAll
  ((s.startCounters.setFabric Fabric.zeroed).setErrors { s.errors with ring := [], badRows := [] }).setPower { s.power with
      stage := 1, warned := false, railsUp := false, trained := false, katDone := false, checked := false
      nearZero := false, farZero := false, mapUp := false }

/-- The board runs at 400 MHz (R428), where no state has stopped its clock (R419). -/
def State.boardSlow (s : State) : State := if s.power.state ≤ 3 then s.put 0x7000 4 400 else s

/-- The lane dies are gated, their counters restart (19 R462), the ports go DOWN, and the board runs at 400 MHz (R428). -/
def State.losePower (s : State) : State :=
  ((s.setFabric { s.fabric with dies := [] }).restartCounters 0xFFFFFFFFFFFF).portsOff.boardSlow

/-- A power-fail warning, from any source: compute and the ports stop, the lane dies are gated,
and a test run is abandoned (20 R496). Before the input
stage closes, at START_STAGE 2 (R417), and in P5 it has no effect. -/
def State.warn (s : State) : State :=
  if (!s.power.railsUp && decide (s.power.stage ≠ 2)) || s.power.warned || decide (4 < s.power.state) then s
  else
    let s := (s.bumpSat 0x7020 5 1).updPower (fun p => { p with warned := true, flushed := false })
    let s := (s.thermal 4 4).abandonRun.stopCompute.losePower
    if s.power.stage = 6 then s else s.fallBack

/-- The buffer is flushed (08 R217): its pieces are drained, checked as always (10 R274), the last rows of the open bands are padded,
and superseded pieces are gone. -/
def State.flushBuffer (s : State) : State :=
  let s := s.each (s.media.pieces.map Piece.group).eraseDups State.drained
  s.setMedia s.media.flushed

/-- The flush ends: the buffer's pieces and the open bands' parity are on flash, their last rows padded (R428; 08 R217). -/
def State.flushed (s : State) : State :=
  s.flushBuffer.updPower (fun p => { p with flushed := true })

/-! ## The firmware slot (18 R455) -/

/-- Why the boot ROM turns a slot away, or 0; an image as shipped is good but for its key, its SVN and the state. -/
def State.bootFault (s : State) (n : Nat) : Nat :=
  let x := s.security
  if (x.slot n).len ≠ 0 then s.imageFault n
  else if bitOf x.revoked 0 then 3
  else if x.state ≠ 0 ∧ 0 < x.floors.getLastD 0 then 6
  else if x.state = 4 then 7
  else 0

/-- Run the image of a slot. -/
def State.runSlot (s : State) (n : Nat) : State :=
  let h := s.security.header n
  let shipped := decide ((s.security.slot n).len = 0)
  let s := (s.put 0x7040 1 n).put 0xA030 2 (if shipped then 0 else bits h 943 936)
  if shipped then s else s.put 0x1000 6 (bits h 975 944)

/-- The choice of a slot at boot: BOOT_SLOT, or the other one. A BOOT_SLOT whose last three start-ups ended without READY has failed
like one that its check turns away, with reason 0 (DEDUCED, log 117). -/
def State.boot (s : State) : State :=
  let b := s.obj 0x7040 2
  let f := s.bootFault b
  let o := 1 - b
  if f = 0 ∧ s.security.fails < 3 then s.runSlot b
  else
    let t := (s.put 0xA030 5 (field 8 8 b + f))
    if s.bootFault o = 0 then
      let t := (t.put 0x7040 2 o).slotRecord b f
      (t.setSecurity { t.security with fails := 0, fresh := false }).runSlot o
    else (t.slotRecord b f).updPower (fun p => { p with bootHeld := true, stage := 0 })

/-! ## A module reset (17 R432; 01 R39; 14 R352; 15 R397) -/

/-- Is an object kept across a module reset: persistent (14 R352), with the block records (09 R249), or under a rule of its
own (17 R441, 18 R448, R459)? -/
def keptObj (idx sub : Nat) : Bool :=
  (match findObj idx sub with
    | some d => d.persist
    | none => false)
  || decide (idx = 0x4060 ∧ sub ∈ [2, 4, 5, 6, 7, 0x0E]) || decide (idx = 0x7020 ∧ sub = 5) || decide (idx = 0x4070)
  || decide (idx = 0x7040 ∧ (sub = 2 ∨ sub = 5)) || decide (idx = 0xA000 ∧ sub = 6) || decide (idx = 0xA040)

/-- The table of the kept objects. -/
def keptTab {α : Type} (t : Tab α) : Tab α := t.filter (fun e => keptObj (e.1 / 256) (e.1 % 256))

/-- A namespace after a reset: the newest version of each block and the newest generation of each region, at epoch 0, and behind
it the superseded units that are not erased yet (08 R223, 09 R232). -/
def Namespace.atRest (v : Namespace) : Namespace :=
  { v with
    blocks := (v.blocks.mapVals (fun _ l => (l.take 1 ++ (l.drop 1).filter (fun x => decide (x.st = .mapped))).map
      (fun x => { x with epoch := 0 }))).filter (fun b => !b.2.isEmpty)
    gens := v.gens.mapVals (fun _ g => (g.take 1).map (fun x => (x.1, 0))), touched := [] }

/-- A unit that holds data of a block and that the map does not name joins the superseded ones (08 R223). -/
def Namespace.tuck (v : Namespace) (lba : Nat) (x : Ver) : Namespace :=
  { v with blocks := v.blocks.upd [] lba (fun l => match l with
      | [] => [{ x with st := .unmapped, data := [], unit := 0, band := 0 }, x]
      | h :: t => h :: x :: t) }

/-- The units of a write or a copy that a reset drops stay until their blocks are erased. -/
def State.tuckChange (s : State) (c : Change) : State :=
  if c.kind ≠ .write ∨ (s.space c.ns).life = .absent then s
  else s.each c.units.zipIdx (fun s u => s.setSpace c.ns ((s.space c.ns).tuck (c.start + u.2)
    ⟨0, .mapped, c.data.slice (4096 * u.2) 4096, c.values.valueAt u.2, u.1.2, u.1.1, c.born, c.group, none, false⟩))
def State.tuckMove (s : State) (m : Move) : State :=
  match (s.space m.ns).head m.lba with
  | none => s
  | some v => if v.st = .mapped ∧ v.unit = m.src then
      s.setSpace m.ns ((s.space m.ns).tuck m.lba { v with unit := m.dst, band := m.band, source := none }) else s

/-- Has the command of a set, whose record is not posted yet, written a block of a namespace in a group? -/
def TaskSet.wrote (t : TaskSet) (group ns lba : Nat) : Bool :=
  decide (t.life = .taken ∧ t.accepted ≤ group) && (if t.opcode = 0x11 then decide (t.nsNo = ns ∧ t.reg 2 ≤ lba ∧ lba < t.reg 2 + t.count)
    else (List.range t.begun).any (fun b => match t.commit b with
      | some (_, n, lo, len) => decide (n = ns ∧ lo ≤ lba ∧ lba < lo + len)
      | none => false))

/-- Groups of writes that are not completed, and whose units are not all on flash, read wholly old after a power loss: their published
versions go (08 R213; 01 R39). -/
def State.loseUnposted (s : State) : State :=
  let l := s.media.pieces.filter (fun p => p.published && s.taken.any (fun k => (s.tset k).wrote p.group p.ns p.start))
  s.each l (fun s p => s.setSpace p.ns { s.space p.ns with
    blocks := s.media.revert p (s.space p.ns).blocks })

/-- Each change that waits for publication is found new or old after the reset (R39), a free choice (log 12); a group whose units
are not all on flash is found wholly old (08 R213). A secure discard that is found old has no copy left to erase (08 R224). -/
def State.settlePending (s : State) : State :=
  let m := s.media
  let new := fun (c : Change × Nat) => decide (c.1.kind = .lose) || (Config.survives (s.free + c.2)
    && !m.pieces.any (fun p => decide (c.1.kind = .write ∧ p.group = c.1.group)))
  let keep := (m.pending.zipIdx.filter new).map Prod.fst
  let drop := (m.pending.zipIdx.filter (fun c => !new c)).map Prod.fst
  let s := s.loseUnposted
  let s := s.setMedia { s.media.untouched with
    pending := [], moves := [], pieces := []
    secure := m.secure.filter (fun j => !drop.any (fun c => decide (c.kind = .secure ∧ c.group = j.group))) }
  let s := (s.each keep (fun s c => s.publishChange (s.tick + 1) c)).each (m.moves.filter Move.lost) (fun s v => s.publishMove (s.tick + 1) v)
  let s := s.touchNow (s.tick + 1)
  let s := (s.each drop State.tuckChange).each (m.moves.filter (fun v => !v.lost)) State.tuckMove
  s.setFree (s.free + m.pending.length)

/-- The media after a reset: the map is rebuilt, with the segments that had not been written back (08 R205), holders
are gone, an unfinished erasure is begun again (09 R234, 08 R224, 15 R384), a band that a relocation had claimed is
judged again (09 R248), and a block that was to be RETIRED still is (09 R235, R236). -/
def Media.atRest (m : Media) : Media :=
  let z := m.sanitize.filter (fun z => z.begun && !z.crypto)
  { m with
    spaces := m.spaces.mapVals (fun _ n => n.atRest)
    cache := m.dirty, badCopies := [], badData := [], segUnit := none, claims := [], active := 0, pressure := false, lastExpiry := none, ckptEpoch := 0
    bands := m.bands.map (fun b => if b.life = .victim then { b with life := .verified } else b)
    evac := []
    doomed := (m.doomed ++ (m.evac.filter Evac.retire).map Evac.block).eraseDups
    carried := m.carried || !m.secure.isEmpty || m.erasing.any (fun e => e.issued)
    secure := m.secure.map (fun j => { j with epoch := 0 })
    erasing := m.erasing.map (fun e => if e.issued then { e with issued := false, held := false, suspended := false, again := true } else e)
    sanitize := z.map (fun z => { z with key := none })
    sanitized := if m.sanitized = 1 ∧ z.isNone then 0 else m.sanitized }

/-- The largest SEQ of the persistent pages, and whether they hold a record at all. -/
def Errors.lastSeq (e : Errors) : Option Nat :=
  let l := (e.history ++ e.events).map (fun r => r.seq.toNat)
  match l with
  | [] => none
  | a :: t => some (t.foldl max a)

/-- A module reset with a source (R433): the flush if the 48 V domains are up, then everything but what is kept starts
afresh, ALERT# is released, and Yilry boots and reads the slot's pins, which wire it as they then stand (20 R484; log 120). -/
def State.moduleReset (s : State) (source : Nat) : State :=
  let s := (if s.power.railsUp then s.warn.persistAll else s.persistDevice)
  let s := (if s.power.railsUp then s.flushBuffer else s).settlePending
  let d := s.draw
  let e := s.errors
  let fresh : State := { State.reset with
    clock := ⟨s.timeNow, s.timeNow, 0, false⟩
    observe := { Observe.start with since := d.free, bornAt := s.timeNow, born := s.free, begun := d.free }
    dict := { Dict.start with
      objs := keptTab s.dict.objs, gov := keptTab s.dict.objs, doms := keptTab s.dict.doms, govDoms := keptTab s.dict.doms
      token := s.dict.token }
    arms := s.arms
    media := s.media.atRest
    errors := { Errors.start with
      history := e.history, events := e.events, resets := e.resets, lastEpoch := s.clock.epoch
      copied := e.copied, boot := e.boot
      next := match e.lastSeq with
        | some n => BitVec.ofNat 32 (n + 1)
        | none => 0 }
    guard := { Guard.start with remaps := s.guard.remaps }
    power := { Power.start with
      aux := s.power.aux, resetLow := s.power.resetLow, failLow := s.power.failLow, absent := s.power.absent
      badInput := s.power.badInput, ids := Config.slotPins s.free, tripped := s.power.tripped, source := source
      stage := if s.power.resetLow then 0 else 1 }
    security := { s.security with arms := [], due := none, unlocked := 0, nonceDraw := s.free, probe := [] }
    free := d.free
    pending := s.pending }
  fresh.boot

/-- A reset that is due at the time `t` follows now. -/
def State.resetIfDue (s : State) (t : Nat) : State :=
  match s.power.resetAt with
  | some a => if a ≤ t then s.moduleReset 3 else s
  | none => s

end Sys2Proof.Machine
end

