-- ==== Sys2Proof/Machine/Dictionary.lean ====
section
/-! DEFINITION. The dictionary service (14): the checks of a write, acceptance, transfers, descriptions, and the frames
DICT_READ and DICT_WRITE. -/

namespace Sys2Proof.Machine

/-! ## Rights (R355; 02 R56, 03 R74, 08 R209, 10 R268, 13 R345, 18 R443, R459, 19 R476) -/

/-- Does an index lie in a run of `n` indices from `base`? -/
def inRun (idx base n : Nat) : Bool := decide (base ≤ idx) && decide (idx < base + n)

/-- May a port write the objects of a partition (R56)? -/
def State.mayPart (s : State) (x : Port) (p : Nat) : Bool := !(s.part p).committed || bitOf (s.part p).defn.ports x.val

/-- May a port write the objects of a namespace (R209)? -/
def State.mayNs (s : State) (x : Port) (n : Nat) : Bool :=
  decide ((s.space n).life = .absent) || bitOf (s.gov (0x4100 + n) 2) x.val

/-- May BANK_CONTROL be written by a port (R74; 11 R281)? -/
def State.mayBank (s : State) (x : Port) (p n v : Nat) : Bool :=
  let c := s.ctx p n
  decide (c.life = .loaded) && decide (c.owner = x) && !(bitOf v 4 && c.index.isSome)

/-- The rights of a port over an object and a value. -/
def State.portRights (s : State) (x : Port) (idx sub v : Nat) : Bool :=
  if inRun idx 0x2010 8 then s.mayPart x (idx - 0x2010)
  else if inRun idx 0x6020 8 then s.mayPart x (idx - 0x6020)
  else if inRun idx 0x9020 8 then s.mayPart x (idx - 0x9020)
  else if inRun idx 0x2050 8 then s.mayBank x (idx - 0x2050) (sub - 1) v
  else if inRun idx 0x4100 64 then s.mayNs x (idx - 0x4100)
  else if inRun idx 0x6040 64 then s.mayNs x (idx - 0x6040)
  else true

/-- What the life cycle and the state of a port allow, whoever writes. -/
def State.stateRights (s : State) (idx sub v : Nat) : Bool :=
  if inRun idx 0x9040 8 then decide (s.security.state ≠ 4) && bitOf s.debugState 2
  else if inRun idx 0x4100 64 && decide (sub = 3) && decide (v = 1) then
    !decide (s.security.state = 0 ∨ s.security.state = 3 ∨ s.security.state = 4) && !bitOf (s.obj 0xA040 1) (idx - 0x4100)
  else if inRun idx 0x1110 4 && decide (sub = 6) then decide ((s.port (idx - 0x1110)).node = 0)
  else true

/-! ## Locks (R353, R359, R362) -/

/-- Does an open write or a persistent write hold an object? -/
def State.isHeld (s : State) (idx sub : Nat) : Bool :=
  s.dict.writes.any (fun w => decide (w.idx = idx ∧ w.sub = sub))
    || s.dict.jobs.any (fun j => j.vals.any (fun v => decide (v.1 = idx ∧ v.2.1 = sub)))

/-- Does a write hold any object of an index? -/
def State.heldIndex (s : State) (idx : Nat) : Bool :=
  s.dict.writes.any (fun w => decide (w.idx = idx)) || s.dict.jobs.any (fun j => j.vals.any (fun v => decide (v.1 = idx)))

/-- Is a write to an object refused with LOCKED? `v` is its value. -/
def State.isLocked (s : State) (d : ObjDef) (idx sub v : Nat) : Bool :=
  s.isHeld idx sub || (decide (d.access = 4) && decide (idx ∈ s.dict.locked))
    || (decide (idx = 0x1002) && s.heldIndex v)
    || (decide (d.access = 4) && s.dict.jobs.any (fun j => j.vals.any (fun w => decide (w.1 = 0x1002 ∧ numOf w.2.2 = idx))))
    || (inRun idx 0x4100 64 && decide (sub = 3) && s.dict.jobs.any (fun j => j.vals.any (fun w =>
      decide (w.1 = idx ∧ w.2.1 ≤ 2) || decide (w.1 = 0x6040 + (idx - 0x4100)))))
    || (decide (idx = 0x9000 ∧ sub = 1) && s.observe.pass.isSome)

/-! ## Values (R350, R361 and the owning chapters) -/

/-- Images of a context's move tables that a commit or a new tick judges (R43, R59). -/
def Context.images (c : Context) : List Bank :=
  (if c.table.active.full then [c.table.active] else [])
    ++ (if c.table.st = .ready ∨ c.table.st = .armed ∨ c.table.st = .retiring then [c.table.shadow] else [])

/-- BUDGET of a table, in 10 us units. -/
def Bank.budget (b : Bank) : Nat := bits (b.data.num 0 64) 445 426

/-- Is TICK_BASE `v` good (R43)? -/
def State.tickOk (s : State) (v : Nat) : Bool :=
  !s.anyActive && s.ctxs.all (fun e => !(s.part (e.1 / 16)).committed
    || e.2.images.all (fun b => decide (b.budget ≤ v * (s.part (e.1 / 16)).defn.divider)))

/-- May bits of a port's FREEZE be cleared (R396; 16 R402)? -/
def State.unfreezeOk (s : State) (x v : Nat) : Bool :=
  decide (s.errors.device ≠ 2)
    && !(s.taken.any (fun k =>
      let t := s.tset k
      decide (keyPort k = x) && (bitOf v 9 || (if opPartition t.opcode then bitOf v t.partNo else bitOf v 8))))
    && (List.range 8).all (fun p => !bitOf v p
      || (List.range 16).all (fun n => !(decide ((s.ctx p n).life = .faulted) && decide ((s.ctx p n).owner.val = x))))

/-- Are TRACE_BASE and TRACE_SIZE good (19 R471)? -/
def State.traceOk (s : State) (p base size : Nat) : Bool :=
  decide (base % 65536 = 0) && decide (size % 65536 = 0) && (decide (size = 0) || (s.part p).defn.inScratch base size)

/-- The rules of the owning chapters on a value. -/
def State.valueOk (s : State) (who : Option Port) (idx sub v : Nat) : Bool :=
  if idx = 0x2000 then s.tickOk v
  else if idx = 0x1002 then objTable.any (fun d => decide (d.idx = v) && decide (d.access = 4))
  else if inRun idx 0x1110 4 ∧ sub = 5 then !(decide (v = 2) && decide ((s.port (idx - 0x1110)).node ≠ 0))
  else if inRun idx 0x1110 4 ∧ sub = 6 then decide (v ≠ 4)
  else if inRun idx 0x1420 4 ∧ sub = 3 then s.unfreezeOk (idx - 0x1420) v
  else if inRun idx 0x4100 64 ∧ sub = 1 then decide ((s.space (idx - 0x4100)).life = .absent)
  else if inRun idx 0x6040 64 then decide ((s.space (idx - 0x6040)).life = .absent) && decide (v % 8 ≤ 5)
  else if idx = 0x4080 ∧ sub = 2 then decide (s.obj 0x4080 1 ≤ v)
  else if idx = 0x8000 ∧ sub = 5 then decide (v = 0xA5A55A5A)
  else if inRun idx 0x9020 8 ∧ sub = 1 then
    decide (v % 65536 = 0) && (s.part (idx - 0x9020)).defn.inScratch v 0 && s.traceOk (idx - 0x9020) v (s.obj idx 2)
  else if inRun idx 0x9020 8 ∧ sub = 2 then s.traceOk (idx - 0x9020) (s.obj idx 1) v
  else if idx = 0x9050 ∧ sub = 1 then decide (v = 0) || s.holdAllowed
  else if idx = 0x9050 ∧ sub = 3 then s.testAllowed who v
  else true

/-- Is a value inside its type and range (R350, R361)? -/
def ObjDef.inType (d : ObjDef) (v : Bytes) : Bool :=
  if d.type = 9 then v.all (fun b => decide (0x20 ≤ b.toNat ∧ b.toNat ≤ 0x7E))
  else if d.type = 10 then true
  else (decide (d.type ≠ 1) || decide (numOf v ≤ 1)) && (decide (d.min = 0 ∧ d.max = 0) || inRange (numOf v) d.min d.max)

/-- Is a value's length right (R350)? -/
def ObjDef.lengthOk (d : ObjDef) (n : Nat) : Bool :=
  if d.isBytes && !d.fixed then decide (n ≤ d.size) else decide (n = d.size)

/-- The object of an index and sub-index, or why there is none (R348, R349). -/
def findAny (idx sub : Nat) : Except Nat ObjDef :=
  if !idxExists idx then .error stNoObject
  else if sub = 0 then .ok (subZero idx)
  else match findObj idx sub with
    | some d => .ok d
    | none => .error stNoSub

/-- Numeric value of a write, its reserved bits dropped (R13). -/
def ObjDef.valueIn (d : ObjDef) (v : Bytes) : Nat := if d.isBytes then 0 else Nat.land (numOf v) d.mask

/-- The first refusal of a write of `v`, before its value is looked at: access, rights, locks. -/
def State.accessFault (s : State) (who : Option Port) (d : ObjDef) (idx sub : Nat) (v : Bytes) : Option Nat :=
  let n := d.valueIn v
  if d.access ≤ 1 then some stNotWritable
  else if !(match who with
      | some x => s.portRights x idx sub n
      | none => true) || !s.stateRights idx sub n then some stDenied
  else if s.isLocked d idx sub n then some stLocked
  else none

/-- What a write meets (R355): OK, or the first refusal. -/
def State.checkWrite (s : State) (who : Option Port) (idx sub : Nat) (v : Bytes) : Nat :=
  match findAny idx sub with
  | .error e => e
  | .ok d => match s.accessFault who d idx sub v with
    | some e => e
    | none =>
      if !d.lengthOk v.length then stBadLength
      else if !d.inType v || !s.valueOk who idx sub (d.valueIn v) then stRefused
      else stOk

/-! ## Acceptance (R356) -/

/-- What a control does on acceptance, at time `at'` of the timebase; every other control waits for the boundary. -/
def State.actNow (s : State) (who : Option Port) (idx sub v : Nat) (data : Bytes) (at' : Nat) : Option State :=
  if idx = 0x1002 then some (s.setDict { s.dict with locked := v :: s.dict.locked })
  else if idx = 0x9001 ∧ sub = 1 ∧ v = 1 then some (s.freezeCounters s.timeNow).draw
  else if idx = 0x9001 ∧ sub = 1 ∧ v = 2 then some s.releaseNow
  else if idx = 0x9030 then some (s.capture 2 0 0 at').1
  else if inRun idx 0x1110 4 ∧ sub = 7 then some (s.startLoop (Fin.ofNat 4 (idx - 0x1110)) v)
  else if inRun idx 0x2050 8 then some (s.bankControl (idx - 0x2050) (sub - 1) v)
  else if idx = 0x8000 then some (s.updPower (fun p => { p with resetAt := some (at' + 100000) }))
  else match who with
    | none => none
    | some x =>
      if idx = 0xA000 ∧ sub = 3 then some (s.lcRequest x v)
      else if idx = 0xA000 ∧ sub = 4 then some (s.lcToken data)
      else if inRun idx 0xA018 4 then some (s.attest (Fin.ofNat 4 (idx - 0xA018)) data)
      else none

/-- Accept a checked write. -/
def State.accept (s : State) (who : Option Port) (idx sub : Nat) (data : Bytes) (at' : Nat) : State :=
  match findObj idx sub with
  | none => s
  | some d =>
    let v := d.valueIn data
    if d.access = 3 then
      match s.actNow who idx sub v data at' with
      | some s => s
      | none => s.setDict { s.dict with ctl := s.dict.ctl ++ [⟨who, idx, sub, v⟩] }
    else if idx = 0x9000 ∧ sub = 1 then s.startPass data
    else if d.isBytes then s.putDom idx sub data
    else (if idx = 0x4040 ∧ sub = 1 then s.hostTime v else s).put idx sub v

/-- Is a write programmed before it is accepted (R353)? A LOCK_INDEX of an index that holds a persistent object is. -/
def isPersistent (idx sub : Nat) (data : Bytes) : Bool :=
  match findObj idx sub with
  | none => false
  | some d => d.persist || (decide (idx = 0x1002) && objTable.any (fun o => decide (o.idx = numOf data) && o.persist && decide (o.access = 4)))

/-- The persistent write of a value that waits to be programmed. -/
def persistJob (idx sub : Nat) (data : Bytes) (req : Option Req) : PersistJob :=
  ⟨[(idx, sub, data)], req, none⟩

/-! ## Replies (R355) -/

/-- Type code of an object, 0 where there is none. -/
def typeCode (idx sub : Nat) : Nat := match findAny idx sub with
  | .ok d => d.type
  | .error _ => 0

/-- ARGS of the reply to a dictionary frame that R332 refuses: what R355 echoes, and the type code. -/
def refusedArgs (idx sub total : Nat) : Nat :=
  field 16 240 idx + field 8 232 sub + field 32 192 total + field 8 168 (typeCode idx sub)

/-- Reply to a dictionary frame. -/
def State.dictReply (s : State) (r : Req) (type status idx sub total token : Nat) (last : Bool) (payload : Bytes) : State :=
  s.reply { r with segLast := last } type status
    (field 16 240 idx + field 8 232 sub + field 32 192 total + field 16 176 token + field 8 168 (typeCode idx sub)) payload

/-! ## DICT_READ (R358, R361) -/

/-- A name's characters as bytes. -/
def nameBytes (n : String) : Bytes := ascii n.toList

/-- The 64 bytes of a description (R361). -/
def State.describe (s : State) (d : ObjDef) (idx sub : Nat) : Bytes :=
  bytesOf 64 (field 8 504 d.type + field 3 501 d.access + field 1 500 (if d.persist then 1 else 0)
    + field 1 499 (if s.isHeld idx sub || (decide (d.access = 4) && decide (idx ∈ s.dict.locked)) then 1 else 0)
    + field 1 498 (if d.side = 0 then 0 else 1) + field 1 497 (if d.fixed then 1 else 0) + field 32 448 d.size
    + field 64 384 (if d.isBytes then 0 else if sub = 0 then d.dflt else objDefault s idx sub)
    + field 64 320 d.min + field 64 256 d.max + numOf ((nameBytes d.name).take 32))

/-- Why a value cannot be read (R351, R457; 19 R472). -/
def State.readFault (s : State) (d : ObjDef) (idx sub : Nat) : Option Nat :=
  if d.access = 3 then some stNotReadable
  else if inRun idx 0x9040 8 && decide (s.security.state = 4) then some stDenied
  else if inRun idx 0xA018 4 && decide (sub = 2) && (s.port (idx - 0xA018)).nonce.isSome then some stLocked
  else none

/-- A read of READ_RESULT finds the pass in progress as far as it has come (19 R463). -/
def State.beforeRead (s : State) (idx sub : Nat) : State := if idx = 0x9000 ∧ sub = 2 then s.passOn false else s

/-- Reading an error record marks it read (16 R406); free values read are used up. -/
def State.noteRead (s : State) (idx sub : Nat) : State :=
  let s := if idx = 0x8010 then
      match s.errors.ring.find? (fun e => decide (e.1 = sub - 1)) with
      | some e => s.markRead [e.2.seq]
      | none => s
    else s
  s.draw

/-- Bytes of a segment (R358). -/
def segBytes : Nat := 8192

/-- The next token, never 0. -/
def nextToken (t : BitVec 16) : BitVec 16 := if t = 0xFFFF then 1 else t + 1

/-- Serve a segment of a copy; the last one releases it. -/
def State.serveCopy (s : State) (r : Req) (idx sub : Nat) (o : OpenRead) : State :=
  let i := r.seg.toNat
  if o.data.length ≤ i * segBytes then s.dictReply r 0x10 stSegment idx sub 0 o.token.toNat false []
  else
    let last := decide (o.data.length ≤ (i + 1) * segBytes)
    let s := if last then s.setDict { s.dict with
        reads := s.dict.reads.filter (fun q => !decide (q.port = o.port ∧ q.token = o.token)) } else s
    s.dictReply r 0x10 stOk idx sub 0 o.token.toNat last ((o.data.drop (i * segBytes)).take segBytes)

/-- Open a read of a value: one reply, or the first segment of a copy. -/
def State.openRead (s : State) (r : Req) (idx sub : Nat) (v : Bytes) : State :=
  if v.length ≤ segBytes then s.dictReply r 0x10 stOk idx sub 0 0 true v
  else if 4 ≤ s.dict.reads.countP (fun o => decide (o.port = r.port)) then s.dictReply r 0x10 stLocked idx sub 0 0 false []
  else
    let t := nextToken s.dict.token
    let o : OpenRead := ⟨r.port, t, v⟩
    (s.setDict { s.dict with token := t, reads := s.dict.reads ++ [o] }).serveCopy r idx sub o

/-- DICT_READ. -/
def execDictRead (r : Req) (idx : BitVec 16) (sub : Byte) (describe : Bool) (token : BitVec 16) (s : State) :
    Host.Outcome State Fault Refusal :=
  let i := idx.toNat
  let b := sub.toNat
  .next (s.serve r 0x10 true (fun s =>
    match findAny i b with
    | .error e => s.dictReply r 0x10 e i b 0 0 false []
    | .ok d =>
      if describe then s.dictReply r 0x10 stOk i b 0 0 true (s.describe d i b)
      else match s.readFault d i b with
        | some e => s.dictReply r 0x10 e i b 0 0 false []
        | none =>
          if token = 0 then
            (if r.seg = 0 then
              let s := s.beforeRead i b
              (s.openRead r i b (s.image d i b)).noteRead i b
             else s.dictReply r 0x10 stSegment i b 0 0 false [])
          else match s.dict.reads.find? (fun o => decide (o.port = r.port ∧ o.token = token)) with
            | some o => s.serveCopy r i b o
            | none => s.dictReply r 0x10 stSegment i b 0 token.toNat false []) 0 (refusedArgs i b 0))

/-! ## DICT_WRITE (R353, R356, R359, R360) -/

/-- A whole value has arrived: it is checked, and accepted, programmed first, or refused. -/
def State.wholeWrite (s : State) (r : Req) (idx sub total token : Nat) (v : Bytes) (at' : Nat) : State :=
  let c := s.checkWrite (some r.port) idx sub v
  if c ≠ stOk then s.dictReply r 0x11 c idx sub total token true []
  else if isPersistent idx sub v then
    s.setDict { s.dict with jobs := s.dict.jobs ++ [persistJob idx sub v (some r)] }
  else (s.accept (some r.port) idx sub v at').dictReply r 0x11 stOk idx sub total token true []

/-- A port's open write ends. -/
def State.closeWrite (s : State) (x : Port) : State :=
  s.setDict { s.dict with writes := s.dict.writes.filter (fun w => decide (w.port ≠ x)) }

/-- Segment 0 of a write (R359). -/
def State.firstSegment (s : State) (r : Req) (idx sub total : Nat) (v : Bytes) (at' : Nat) : State :=
  let refuse := fun (c : Nat) => s.dictReply r 0x11 c idx sub total 0 r.segLast []
  match findAny idx sub with
  | .error e => refuse e
  | .ok d => match s.accessFault (some r.port) d idx sub v with
    | some e => refuse e
    | none =>
      if r.segLast then
        (if total ≠ v.length then refuse stSegment else s.wholeWrite r idx sub total 0 v at')
      else if !d.lengthOk total then refuse stBadLength
      else if v.length ≠ segBytes then refuse stSegment
      else if s.dict.writes.any (fun w => decide (w.port = r.port)) then refuse stLocked
      else
        let t := nextToken s.dict.token
        (s.setDict { s.dict with token := t, writes := s.dict.writes ++ [(⟨r.port, t, idx, sub, total, 1, v⟩ : OpenWrite)] }).dictReply
          r 0x11 stOk idx sub total t.toNat false []

/-- A later segment of a write, or a segment 0 with a TOKEN: that of the open one, out of order, or one that is not open (R359, R360). The length is
held to TOTAL_LENGTH at SEG_LAST. -/
def State.laterSegment (s : State) (r : Req) (idx sub total : Nat) (token : BitVec 16) (v : Bytes) (at' : Nat) : State :=
  let refuse := fun (s : State) => s.dictReply r 0x11 stSegment idx sub total token.toNat r.segLast []
  match s.dict.writes.find? (fun w => decide (w.port = r.port ∧ w.token = token ∧ token ≠ 0)) with
  | none => refuse s
  | some w =>
    let data := w.data ++ v
    let s := s.closeWrite r.port
    if w.next ≠ r.seg.toNat ∨ w.idx ≠ idx ∨ w.sub ≠ sub ∨ w.total ≠ total then refuse s
    else if r.segLast then
      (if data.length ≠ total then refuse s else s.wholeWrite r idx sub total token.toNat data at')
    else if v.length ≠ segBytes then refuse s
    else
      (s.setDict { s.dict with writes := s.dict.writes ++ [{ w with next := w.next + 1, data := data }] }).dictReply
        r 0x11 stOk idx sub total token.toNat false []

/-- Before READY no boundary carries out a reset that MODULE_RESET asked for: it follows its reply (16 R402). -/
def State.resetEarly (s : State) : State := if s.clock.running || s.power.resetAt.isNone then s else s.moduleReset 3

/-- Serve a DICT_WRITE at a time of the timebase. -/
def State.dictWrite (s : State) (r : Req) (idx sub total : Nat) (token : BitVec 16) (v : Bytes) (at' : Nat) : State :=
  (s.serve r 0x11 true (fun s =>
    if r.seg = 0 ∧ token = 0 then s.firstSegment r idx sub total v at' else s.laterSegment r idx sub total token v at') v.length
    (refusedArgs idx sub total)).resetEarly

/-- DICT_WRITE. -/
def execDictWrite (r : Req) (idx : BitVec 16) (sub : Byte) (total : BitVec 32) (token : BitVec 16) (payload : Bytes)
    (s : State) : Host.Outcome State Fault Refusal :=
  .next (s.dictWrite r idx.toNat sub.toNat total.toNat token payload s.clock.now)

/-- A control written whole in one segment, as its own row of the table has it. -/
def State.controlWrite (s : State) (r : Req) (idx sub : Nat) (v : Bytes) (at' : Nat) : State :=
  (s.serve r 0x11 true (fun s => s.firstSegment { r with seg := 0, segLast := true } idx sub v.length v at') v.length
    (refusedArgs idx sub v.length)).resetEarly

/-- Does a job program an object? -/
def PersistJob.names (j : PersistJob) (idx sub : Nat) : Bool :=
  j.vals.any (fun v => decide (v.1 = idx ∧ v.2.1 = sub))

/-- Accept what a job programmed, and answer the request or the command that waits (R353, R354). -/
def State.jobDone (s : State) (j : PersistJob) : State :=
  let who := match j.req with
    | some r => some r.port
    | none => j.cmd.map (fun k => Fin.ofNat 4 (keyPort k))
  let s := s.each j.vals (fun s v => s.accept who v.1 v.2.1 v.2.2 s.clock.now)
  let s := match j.req, j.vals with
    | some r, v :: _ => s.dictReply r 0x11 stOk v.1 v.2.1 v.2.2.length 0 true []
    | _, _ => s
  match j.cmd with
  | some k => s.post k stOk j.vals.length 0
  | none => s

/-- PERSIST_WRITE_DONE (R353). -/
def execPersistWriteDone (idx : BitVec 16) (sub : Byte) (s : State) : Host.Outcome State Fault Refusal :=
  match s.dict.jobs.find? (fun j => j.names idx.toNat sub.toNat) with
  | none => .next s
  | some j =>
    .next ((s.setDict { s.dict with jobs := s.dict.jobs.filter (fun i => !i.names idx.toNat sub.toNat) }).dataWrite.jobDone j)

/-- SEGMENT_TIMEOUT (R358, R360): a transfer that was idle for 100 ms ends. -/
def execSegmentTimeout (x : Port) (token : BitVec 16) (s : State) : Host.Outcome State Fault Refusal :=
  .next (s.setDict { s.dict with
    reads := s.dict.reads.filter (fun o => !decide (o.port = x ∧ o.token = token))
    writes := s.dict.writes.filter (fun w => !decide (w.port = x ∧ w.token = token)) })

end Sys2Proof.Machine
end

