-- ==== Sys2Proof/Machine/Controls.lean ====
section
/-! DEFINITION. The controls: each is the DICT_WRITE of one object with a given value (14 R356), under its own name in the
table of commands. What the control does is in the chapter that owns the object. -/

namespace Sys2Proof.Machine

/-- A control of a numeric object, written at the module's time. -/
def State.control (s : State) (r : Req) (idx sub size v : Nat) : Host.Outcome State Fault Refusal :=
  .next (s.controlWrite r idx sub (bytesOf size v) s.clock.now)

/-! ## Partitions and banks (02 R57, R58; 03 R74) -/

/-- CONTROL 1 of a partition: COMMIT (R57). -/
def execPartitionCommit (r : Req) (p : Part) (s : State) : Host.Outcome State Fault Refusal := s.control r (0x2010 + p.val) 0x10 1 1
/-- CONTROL 2: START (R58). -/
def execPartitionStart (r : Req) (p : Part) (s : State) : Host.Outcome State Fault Refusal := s.control r (0x2010 + p.val) 0x10 1 2
/-- CONTROL 3: STOP (R58). -/
def execPartitionStop (r : Req) (p : Part) (s : State) : Host.Outcome State Fault Refusal := s.control r (0x2010 + p.val) 0x10 1 3
/-- CONTROL 4: RELEASE (R58). -/
def execPartitionRelease (r : Req) (p : Part) (s : State) : Host.Outcome State Fault Refusal := s.control r (0x2010 + p.val) 0x10 1 4

/-- BANK_CONTROL of an action and a selection of kinds (R74). -/
def State.bankWrite (s : State) (r : Req) (p : Part) (n : Ctx) (action : Nat) (kinds : BitVec 5) : Host.Outcome State Fault Refusal :=
  s.control r (0x2050 + p.val) (n.val + 1) 2 (field 2 14 action + kinds.toNat)

/-- BANK_CONTROL with ARM (R76). -/
def execBankArm (r : Req) (p : Part) (n : Ctx) (kinds : BitVec 5) (s : State) : Host.Outcome State Fault Refusal := s.bankWrite r p n 1 kinds
/-- BANK_CONTROL with DISARM (R77). -/
def execBankDisarm (r : Req) (p : Part) (n : Ctx) (kinds : BitVec 5) (s : State) : Host.Outcome State Fault Refusal := s.bankWrite r p n 2 kinds
/-- BANK_CONTROL with DISCARD (R503). -/
def execBankDiscard (r : Req) (p : Part) (n : Ctx) (kinds : BitVec 5) (s : State) : Host.Outcome State Fault Refusal := s.bankWrite r p n 3 kinds

/-! ## Namespaces and values that govern (08 R228; 02 R43; 09 R249; 14 R362) -/

/-- NS_CONTROL 1 (R228). -/
def execNsCreate (r : Req) (ns : NsId) (s : State) : Host.Outcome State Fault Refusal := s.control r (0x4100 + ns.val) 3 1 1
/-- NS_CONTROL 2 (R228). -/
def execNsDelete (r : Req) (ns : NsId) (s : State) : Host.Outcome State Fault Refusal := s.control r (0x4100 + ns.val) 3 1 2
/-- TICK_BASE (R43). -/
def execTickBaseWrite (r : Req) (v : BitVec 16) (s : State) : Host.Outcome State Fault Refusal := s.control r 0x2000 1 2 v.toNat
/-- FREE_FLOOR (R249). -/
def execFreeFloorWrite (r : Req) (v : BitVec 32) (s : State) : Host.Outcome State Fault Refusal := s.control r 0x4060 0x0B 4 v.toNat
/-- LOCK_INDEX (R362). -/
def execLockIndex (r : Req) (idx : BitVec 16) (s : State) : Host.Outcome State Fault Refusal := s.control r 0x1002 1 2 idx.toNat

/-! ## Ports (13 R335, R343, R345, R346; 15 R396) -/

/-- ATTN_ACK (R335). -/
def execAttnAck (r : Req) (x : Port) (bits : Byte) (s : State) : Host.Outcome State Fault Refusal := s.control r (0x1110 + x.val) 9 1 bits.toNat
/-- UNFREEZE (R396). -/
def execUnfreeze (r : Req) (x : Port) (bits : BitVec 16) (s : State) : Host.Outcome State Fault Refusal := s.control r (0x1420 + x.val) 3 2 bits.toNat
/-- CONTROL 1 of a port: retrain (R344). -/
def execPortRetrain (r : Req) (x : Port) (s : State) : Host.Outcome State Fault Refusal := s.control r (0x1110 + x.val) 5 1 1
/-- CONTROL 2 of a port: disable (R343). -/
def execPortDisable (r : Req) (x : Port) (s : State) : Host.Outcome State Fault Refusal := s.control r (0x1110 + x.val) 5 1 2
/-- CONTROL 3 of a port: enable (R343). -/
def execPortEnable (r : Req) (x : Port) (s : State) : Host.Outcome State Fault Refusal := s.control r (0x1110 + x.val) 5 1 3
/-- LOOPBACK (R345). -/
def execLoopbackWrite (r : Req) (x : Port) (v : Byte) (s : State) : Host.Outcome State Fault Refusal := s.control r (0x1110 + x.val) 6 1 v.toNat
/-- LOOP_RUN (R346). -/
def execLoopRun (r : Req) (x : Port) (ms : BitVec 16) (s : State) : Host.Outcome State Fault Refusal := s.control r (0x1110 + x.val) 7 2 ms.toNat

/-! ## Power, reset and security (17 R420; 16 R402; 18 R445, R447, R457) -/

/-- STATE_REQUEST (R420). -/
def execStateRequest (r : Req) (v : Byte) (s : State) : Host.Outcome State Fault Refusal := s.control r 0x7000 2 1 v.toNat
/-- MODULE_RESET (16 R402). -/
def execModuleReset (r : Req) (v : BitVec 32) (s : State) : Host.Outcome State Fault Refusal := s.control r 0x8000 5 4 v.toNat
/-- LC_REQUEST (R445). -/
def execLcRequest (r : Req) (v : Byte) (s : State) : Host.Outcome State Fault Refusal := s.control r 0xA000 3 1 v.toNat
/-- LC_TOKEN (R447). -/
def execLcToken (r : Req) (token : Bytes) (s : State) : Host.Outcome State Fault Refusal :=
  .next (s.controlWrite r 0xA000 4 token s.clock.now)
/-- ATTEST_NONCE of a port (R457). -/
def execAttestNonce (r : Req) (x : Port) (nonce : Bytes) (s : State) : Host.Outcome State Fault Refusal :=
  .next (s.controlWrite r (0xA018 + x.val) 1 nonce s.clock.now)

/-! ## Counters, dumps and the field test (19 R463, R466, R467, R474; 20 R492, R495) -/

/-- READ_LIST (R463). -/
def execReadList (r : Req) (ids : Bytes) (s : State) : Host.Outcome State Fault Refusal :=
  .next (s.controlWrite r 0x9000 1 ids s.clock.now)
/-- FREEZE_CONTROL 1 (R466). -/
def execFreezeCounters (r : Req) (s : State) : Host.Outcome State Fault Refusal := s.control r 0x9001 1 1 1
/-- FREEZE_CONTROL 2 (R466). -/
def execReleaseCounters (r : Req) (s : State) : Host.Outcome State Fault Refusal := s.control r 0x9001 1 1 2
/-- FREEZE_CONTROL 3 (R467). -/
def execArmFreeze (r : Req) (s : State) : Host.Outcome State Fault Refusal := s.control r 0x9001 1 1 3
/-- DUMP_REQUEST (R474), `t` after the last boundary. -/
def execDumpRequest (r : Req) (t : Nat) (s : State) : Host.Outcome State Fault Refusal :=
  .next (s.controlWrite r 0x9030 1 (bytesOf 1 1) (s.clock.boundaryAt + t))
/-- TEST_HOLD 1 (R492). -/
def execTestHoldEnter (r : Req) (s : State) : Host.Outcome State Fault Refusal := s.control r 0x9050 1 1 1
/-- TEST_HOLD 0 (R492). -/
def execTestHoldLeave (r : Req) (s : State) : Host.Outcome State Fault Refusal := s.control r 0x9050 1 1 0
/-- TEST_START (R495). -/
def execTestStart (r : Req) (v : BitVec 32) (s : State) : Host.Outcome State Fault Refusal := s.control r 0x9050 3 4 v.toNat

end Sys2Proof.Machine
end

