-- ==== Sys2Proof/Machine/Parts.lean ====
section
/-! DEFINITION. Partitions at a boundary (02 R54 to R60, 16 R400, 17 R422): commit, start, stop and release, partition
resets, and what gating a square takes away. -/

namespace Sys2Proof.Machine

/-! ## Commit (R57, R59; 07 R197) -/

/-- The written definition of a partition (R55). -/
def State.writtenDef (s : State) (p : Nat) : PDef :=
  let o := s.obj (0x2010 + p)
  { squares := o 1, nearBase := o 2, nearSize := o 3
    farBase := if o 5 = 0 then 0 else o 4, farSize := o 5
    scratchBase := if o 7 = 0 then 0 else o 6, scratchSize := o 7
    ports := o 8, divider := o 9, phase := o 10, share := o 11, streams := [o 12, o 13, o 14, o 15] }

/-- Squares that the partition checks take as present (R4, R121). -/
def State.goodSquares (s : State) : Nat := Nat.land (s.obj 0x1010 1) (0xFFFFFFFFFFFF - s.obj 0x5000 1)

/-- Is every bit of `a` set in `b`? -/
def subsetOf (a b : Nat) : Bool := decide (Nat.land a b = a)

/-- Is a range aligned to `unit` and within `[lo, lo + n)`? -/
def rangeGood (base size unit lo n : Nat) : Bool :=
  decide (base % unit = 0) && decide (size % unit = 0) && within base size lo n

/-- One GiB. -/
def gib : Nat := 1073741824

/-- The ranges' alignment and spans (R57). -/
def PDef.aligned (d : PDef) : Bool :=
  rangeGood d.nearBase d.nearSize gib 0 nearBytes
    && (decide (d.farSize = 0) || rangeGood d.farBase d.farSize gib farFirst (1024 * gib))
    && (decide (d.scratchSize = 0) || rangeGood d.scratchBase d.scratchSize (4 * mib) scratchFirst (384 * mib))

/-- The other committed partitions. -/
def State.others (s : State) (p : Nat) : List PDef :=
  ((List.range 8).filter (fun q => decide (q ≠ p) && (s.part q).committed)).map (fun q => (s.part q).defn)

/-- Contexts of a partition that are not EMPTY. -/
def State.liveCtxs (s : State) (p : Nat) : List Context :=
  ((List.range 16).map (s.ctx p)).filter (fun c => decide (c.life ≠ .empty))

/-- Does every address of a table image lie in a definition's ranges (R59)? -/
def State.imageFits (s : State) (p : Nat) (d : PDef) (b : Bank) : Bool :=
  let v : LoadView := { s.loadView p 0 (bits (b.data.num 0 64) 417 414) with defn := d, flash := fun _ _ _ => true }
  b.allWords.all (spansOk v)

/-- Does a change of definition collide with contexts that are not EMPTY (R59)? -/
def State.inUse (s : State) (p : Nat) (d : PDef) : Bool :=
  let old := (s.part p).defn
  let live := s.liveCtxs p
  !live.isEmpty
    && (decide (d.squares ≠ old.squares) || decide (d.nearBase ≠ old.nearBase) || decide (d.nearSize ≠ old.nearSize)
      || decide (d.scratchBase ≠ old.scratchBase) || decide (d.scratchSize ≠ old.scratchSize)
      || live.any (fun c => !bitOf d.ports c.owner.val)
      || live.any (fun c => c.images.any (fun b => !s.imageFits p d b)))

/-- Does a loaded or loading table need more than the definition's move period? -/
def State.tooShort (s : State) (p : Nat) (d : PDef) : Bool :=
  (s.liveCtxs p).any (fun c =>
    (c.images ++ (if c.table.st = .loading then [c.table.shadow] else [])).any (fun b =>
      decide (s.tickUnits * d.divider < b.budget * 1000)))

/-- Scratch banks of a definition as a mask. -/
def PDef.banks (d : PDef) : Nat :=
  ((List.range 96).filter (fun k => decide (d.scratchSize ≠ 0)
    && overlaps d.scratchBase d.scratchSize (scratchFirst + k * (4 * mib)) (4 * mib))).foldl (fun m k => m + 2 ^ k) 0

/-- Does a definition use memory whose checkers failed (07 R197)? -/
def State.memFaulted (s : State) (d : PDef) : Bool :=
  (s.guard.farOff && decide (d.farSize ≠ 0)) || meets d.banks s.guard.banksOff

/-- The first failing check of a commit, or 0. -/
def State.commitFault (s : State) (p : Nat) (d : PDef) : Nat :=
  let x := s.part p
  if x.life = .resetting then 2
  else if d.squares = 0 ∨ d.ports = 0 ∨ d.nearSize = 0 ∨ d.divider ≤ d.phase then 1
  else if x.life ≠ .free ∧ x.life ≠ .stopped then 2
  else if !subsetOf d.squares s.goodSquares then 3
  else if (s.others p).any (fun e => meets d.squares e.squares) then 5
  else if !d.aligned then 6
  else if (s.others p).any (fun e => overlaps d.nearBase d.nearSize e.nearBase e.nearSize
      || (decide (d.scratchSize ≠ 0 ∧ e.scratchSize ≠ 0) && overlaps d.scratchBase d.scratchSize e.scratchBase e.scratchSize)) then 7
  else if s.inUse p d then 8
  else if s.tooShort p d then 9
  else if s.memFaulted d then 10
  else 0

/-- Report a control's result. -/
def State.partResult (s : State) (p v : Nat) : State := s.put (0x2010 + p) 0x13 v

/-- Set an object so that it governs at once. -/
def State.putBoth (s : State) (idx sub v : Nat) : State := (s.put idx sub v).putGov idx sub v

/-- A commit takes effect (R53, R55; 19 R471). -/
def State.commitPart (s : State) (p : Nat) : State :=
  let d := s.writtenDef p
  let f := s.commitFault p d
  if f ≠ 0 then s.partResult p f
  else
    let x := s.part p
    let s := if x.life = .free then s.each ((List.range 12).map (· + 1)) (fun s i => s.put (0x2020 + p) i 0) else s
    let s := s.setPart p { x with life := .stopped, defn := d }
    let s := if s.traceOk p (s.obj (0x9020 + p) 1) (s.obj (0x9020 + p) 2) then s else s.putBoth (0x9020 + p) 3 0
    (s.put (0x2010 + p) 0x12 s.tick).partResult p 0

/-! ## Start, stop and release (R58, R60; 07 R197, 17 R422, 20 R493) -/

/-- Does the active table of a context name a kind that gating emptied (17 R422)? -/
def Context.stateLost (c : Context) : Bool :=
  let u := bits (c.table.active.data.num 0 64) 417 414
  decide (c.life = .loaded) && c.table.active.full && ((bitOf u 0 && !c.scales.active.full) || (bitOf u 1 && !c.sft.active.full))

/-- The first failing check of a start, or 0. -/
def State.startFault (s : State) (p : Nat) : Nat :=
  let x := s.part p
  if x.life ≠ .stopped then 2
  else if !subsetOf x.defn.squares s.goodSquares then 3
  else if meets x.defn.squares s.gated ∨ 3 ≤ s.power.state then 4
  else if s.memFaulted x.defn then 10
  else if (s.liveCtxs p).any Context.stateLost then 11
  else if s.hold ≠ 0 then 12
  else 0

/-- Start: batch steps run from the first move-period start at or after this boundary. -/
def State.startPart (s : State) (p : Nat) : State :=
  let f := s.startFault p
  if f ≠ 0 then s.partResult p f
  else
    let s := s.setPart p { s.part p with life := .running }
    (s.setSeq p { s.seq p with periodEnd := 0, stuck := 0 }).partResult p 0

/-- A partition stops: the idle time of its move period ends here (R53). -/
def State.halt (s : State) (p : Nat) : State :=
  let q := s.seq p
  let s := if q.periodEnd ≠ 0 then s.bump (0x2020 + p) 0x0A (min s.clock.boundaryAt q.periodEnd - q.idleFrom) else s
  (s.setSeq p { s.seq p with periodEnd := 0 }).setPart p { s.part p with life := .stopped }

/-- Stop. -/
def State.stopPart (s : State) (p : Nat) : State :=
  if (s.part p).life ≠ .running then s.partResult p 2
  else
    let s := if (s.seq p).run.isSome then s.setPart p { s.part p with life := .stopping } else s.halt p
    s.partResult p 0

/-- Release: every loaded context is torn down, every slot is EMPTY, the partition is FREE. -/
def State.releasePart (s : State) (p : Nat) : State :=
  if (s.part p).life ≠ .stopped then s.partResult p 2
  else
    let s := s.each (List.range 16) (fun s n => (s.teardown p n).setCtx p n (s.ctx p n).gone)
    ((s.setPart p Partition.none).setSeq p Seq.none).partResult p 0

/-- CONTROL of a partition at the boundary. -/
def State.partControl (s : State) (p v : Nat) : State :=
  if v = 1 then s.commitPart p
  else if v = 2 then s.startPart p
  else if v = 3 then s.stopPart p
  else s.releasePart p

/-! ## Partition reset (16 R400) -/

/-- A partition reset begins: contexts torn down, sequencer cleared, the squares' stores zeroed. -/
def State.resetPart (s : State) (p : Nat) : State :=
  let x := s.part p
  if x.life = .free then s.setPart p { x with resetDue := false }
  else
    let s := s.each (List.range 16) (fun s n => s.teardown p n)
    let s := s.each (bitsSet x.defn.squares 48) (fun s d => s.setDie d Die.empty)
    (s.setPart p { x with life := .resetting, resetDue := false, katDone := false }).setSeq p Seq.none

/-- What a boundary does to the partitions by themselves: resets that are due begin, a reset whose test has ended leaves
the partition STOPPED, and a stop completes; one whose batch step this boundary ended as an overrun is STOPPED at this boundary, not
the next (R58 says the first boundary after it ends; DESIGN CHOICE, log 109). -/
def State.partsNow (s : State) : State :=
  s.each (List.range 8) (fun s p =>
    let x := s.part p
    if x.resetDue then s.resetPart p
    else if x.life = .resetting ∧ x.katDone then s.setPart p { x with life := .stopped, katDone := false }
    else if x.life = .stopping ∧ (s.seq p).run = none then s.halt p
    else s)

/-! ## Gating (17 R422) -/

/-- Both banks of a kind become EMPTY; a load of the kind in progress is abandoned with GATED (15 R388). -/
def State.emptyKind (s : State) (p n : Nat) (k : Kind) : State :=
  let loading := decide (((s.ctx p n).banks k).st = .loading)
  let s := s.setCtx p n ((s.ctx p n).updBanks [k] (fun b =>
    { b with active := Bank.none, shadow := Bank.none, st := .empty, dropWhenRetired := false }))
  if loading then (s.loadReport p n (kindNo k) ldGated 0).endLoad p n k stLoadFailed ldGated 0 else s

/-- Squares are gated: their stores, and the scale and function-table banks of every context of their partitions, are
lost, and their counters restart (19 R462). -/
def State.gate (s : State) (mask : Nat) : State :=
  let s := (s.each (bitsSet mask 48) (fun s d => s.setDie d Die.empty)).restartCounters mask
  s.each ((List.range 8).filter (fun p => meets (s.part p).defn.squares mask)) (fun s p =>
    s.each (List.range 16) (fun s n =>
      if (s.ctx p n).life = .loaded then (s.emptyKind p n .scales).emptyKind p n .sft else s))

end Sys2Proof.Machine
end

