-- ==== Sys2Proof/Machine/Admin.lean ====
section
/-! DEFINITION. The admin commands (15 R386; 16 R413; 18 R451 to R453): IDENTIFY, LOG_READ, FEATURES, FW_DOWNLOAD and
FW_COMMIT. -/

namespace Sys2Proof.Machine

/-! ## IDENTIFY and LOG_READ -/

/-- IDENTIFY. -/
def execIdentify (x : Port) (set : SetId) (s : State) : Host.Outcome State Fault Refusal :=
  let k := setKey x set
  if !s.ready k 0x01 then .next s
  else
    let b := s.identBytes
    .next ((s.output k (memOf b) b.length).post k stOk b.length 0)

/-- Records of a log page of which a read of `n` bytes from `off` returns the whole. -/
def recordsIn (l : List Rec) (off n : Nat) : List (BitVec 32) :=
  (l.zipIdx.filter (fun e => decide (off ≤ 64 + 64 * e.2) && decide (64 + 64 * e.2 + 64 ≤ off + n))).map (fun e => e.1.seq)

/-- LOG_READ (R413): part of a page as it stands when the command starts. -/
def execLogRead (x : Port) (set : SetId) (s : State) : Host.Outcome State Fault Refusal :=
  let k := setKey x set
  if !s.ready k 0x02 then .next s
  else
    let t := s.tset k
    let id := bits (t.reg 1) 63 48
    let off := bits (t.reg 1) 47 0
    let n := bits (t.reg 2) 31 0
    match s.page id with
    | none => .next (s.post k stBadCommand 0 1)
    | some p =>
      let b := ((s.pageBytes id p).drop off).take n
      let s := if id = 1 then s.markRead (recordsIn s.errors.history off n)
        else if id = 2 then s.markRead (recordsIn s.errors.events off n) else s
      .next (((s.output k (memOf b) b.length).post k stOk b.length 0).draw)

/-! ## FEATURES -/

/-- The pairs of a FEATURES command: index, sub-index, value bytes. -/
def TaskSet.pairs (t : TaskSet) : Nat → Nat → List (Nat × Nat × Bytes)
  | 0, _ => []
  | n + 1, r =>
    let w := t.reg r
    if bits w 63 48 = 0 then [] else (bits w 63 48, bits w 47 40, bytesOf (bits w 39 36) (t.reg (r + 1))) :: TaskSet.pairs t n (r + 2)

/-- FEATURES: every pair is judged, then all are accepted as one, or programmed first if one of them is persistent. -/
def execFeatures (x : Port) (set : SetId) (s : State) : Host.Outcome State Fault Refusal :=
  let k := setKey x set
  if !s.ready k 0x03 then .next s
  else
    let ps := (s.tset k).pairs 5 1
    match ps.zipIdx.find? (fun e => decide (s.checkWrite (some x) e.1.1 e.1.2.1 e.1.2.2 ≠ stOk)) with
    | some e => .next (s.post k (s.checkWrite (some x) e.1.1 e.1.2.1 e.1.2.2) 0 e.2)
    | none =>
      if ps.any (fun p => isPersistent p.1 p.2.1 p.2.2) then
        .next ((s.begin k).setDict { s.dict with jobs := s.dict.jobs ++ [(⟨ps, none, some k⟩ : PersistJob)] })
      else
        .next ((s.each ps (fun s p => s.accept (some x) p.1 p.2.1 p.2.2 s.clock.now)).post k stOk ps.length 0)

/-! ## Firmware (R386, R439, R451 to R454) -/

/-- The slot that is not running, into which downloads go. -/
def State.downloadSlot (s : State) : Nat := 1 - s.runningSlot

/-- Put a slot. -/
def Security.setSlot (x : Security) (n : Nat) (z : Slot) : Security :=
  if n = 0 then { x with slotA := z } else { x with slotB := z }

/-- FW_DOWNLOAD: the sector of the chunk is erased, and the chunk of the input area is placed there (17 R439). What the rest of the
sector then reads is free (log 41). -/
def execFwDownload (x : Port) (set : SetId) (s : State) : Host.Outcome State Fault Refusal :=
  let k := setKey x set
  if !s.ready k 0x04 then .next s
  else
    let t := s.tset k
    let off := t.reg 1
    let n := bits (t.reg 2) 16 0
    let z := s.security.slot s.downloadSlot
    let rest := (List.range (65536 - n)).map (fun i => Config.raceByte s.free i)
    let z : Slot := ⟨(z.image.writeBytes (off + n) rest).blit off n (t.input.slice 0 n), max z.len (off + n)⟩
    let s := (s.setSecurity (s.security.setSlot s.downloadSlot z)).eraseSector (256 * s.downloadSlot + off / 65536)
    .next (s.draw.post k stOk n 0)

/-- Is the FW_COMMIT of a set with an action ready? -/
def State.readyCommit (s : State) (k action : Nat) : Bool :=
  s.ready k 0x05 && decide (bits ((s.tset k).reg 1) 63 62 = action)

/-- FW_COMMIT with ACTION 1: verify the downloaded image. -/
def execFwCommitVerify (x : Port) (set : SetId) (s : State) : Host.Outcome State Fault Refusal :=
  let k := setKey x set
  if !s.readyCommit k 1 then .next s
  else
    let f := s.imageFault s.downloadSlot
    .next (s.post k (if f = 0 then stOk else stRejected) f 0)

/-- FW_COMMIT with ACTION 2: a verified image boots at the next reset. -/
def execFwCommitInstall (x : Port) (set : SetId) (s : State) : Host.Outcome State Fault Refusal :=
  let k := setKey x set
  if !s.readyCommit k 2 then .next s
  else
    let n := s.downloadSlot
    let f := s.imageFault n
    if f ≠ 0 then .next (s.post k stRejected f 0)
    else .next (((s.setSecurity { s.security with fresh := true, fails := 0, uncopied := true }).put 0x7040 2 n).post k stOk 0 0)

end Sys2Proof.Machine
end

