-- ==== Sys2Proof/Machine/Outer.lean ====
section
/-! DEFINITION. The outer code of the near and far stacks (07 R183): Reed-Solomon (72,64) over GF(2^8) with the block's
address folded into its check symbols, and the beats and pins that carry a block. -/

namespace Sys2Proof.Machine

/-! ## GF(2^8) with x^8 + x^4 + x^3 + x^2 + 1 -/

/-- Multiply by alpha. -/
def gfAlpha (a : Byte) : Byte := (a <<< 1) ^^^ (if a.msb then 0x1D else 0)

/-- Product: the bits of `b` from bit 0 on, `a` multiplied by alpha at each. -/
def gfMulFrom : Nat → Byte → Byte → Byte
  | 0, _, _ => 0
  | n + 1, a, b => (if b.getLsbD 0 then a else 0) ^^^ gfMulFrom n (gfAlpha a) (b >>> 1)

def gfMul (a b : Byte) : Byte := gfMulFrom 8 a b

/-- Power `i` of alpha. -/
def gfPow : Nat → Byte
  | 0 => 1
  | i + 1 => gfAlpha (gfPow i)

/-! ## Check symbols -/

/-- The generator polynomial with roots alpha^0 to alpha^7, its leading 1 left out, highest power first. -/
def outerGenerator : List Byte :=
  ((List.range 8).foldl (fun (g : List Byte) i =>
    List.zipWith (· ^^^ ·) (g ++ [0]) (0 :: g.map (gfMul (gfPow i)))) [1]).drop 1

/-- One symbol enters the division by the generator polynomial. -/
def outerShift (r : List Byte) (x : Byte) : List Byte :=
  let f := x ^^^ r.headD 0
  List.zipWith (· ^^^ ·) (r.drop 1 ++ [0]) (outerGenerator.map (gfMul f))

/-- The eight check symbols of 64 data symbols, the first symbol the highest power (DESIGN CHOICE, log 89). -/
def outerCheck (data : Bytes) : Bytes := data.foldl outerShift (List.replicate 8 0)

/-- The address that is folded in: of a near block its bits [38:6], of a far block those of its distance from the far
base. -/
def outerAddr (far : Bool) (a : Nat) : Nat := if far then a / 64 % 2 ^ 34 else a / 64 % 2 ^ 33

/-- The address as the five symbols that are added to check symbols 0 to 4, and zeros for the rest. -/
def outerFold (far : Bool) (a : Nat) : Bytes := bytesOf 5 (outerAddr far a) ++ [0, 0, 0]

/-- The 72 symbols of the block at an address. -/
def outerWord (far : Bool) (a : Nat) (data : Bytes) : Bytes :=
  data ++ List.zipWith (· ^^^ ·) (outerCheck data) (outerFold far a)

/-- Does a word of 72 symbols pass the check of the block at an address (R184: syndrome zero)? -/
def outerClean (far : Bool) (a : Nat) (word : Bytes) : Bool :=
  decide (word = outerWord far a (word.take 64))

/-! ## Beats and pins -/

/-- The bit on a pin in a beat: each of the 36 pins carries two symbols, in beats 0 to 7 and 8 to 15, bit 0 first; symbols 2p
and 2p + 1 are on pin p (DESIGN CHOICE, log 89). -/
def outerPin (word : Bytes) (pin beat : Nat) : Bool := (word.getD (2 * pin + beat / 8) 0).getLsbD (beat % 8)

end Sys2Proof.Machine
end

