-- ==== Sys2Proof/Machine/Sideband.lean ====
section
/-! DEFINITION. The sideband bus (14 R366 to R369). The bytes that a transaction returns are left in `dict.smOut`. -/

namespace Sys2Proof.Machine

/-- Objects that the sideband serves in SCRAP (18 R443), or when both slots failed in another state (18 R455): the identity
objects and a few. -/
def State.sideLimited (s : State) (idx sub : Nat) : Bool :=
  let ident := decide (idx = 0x1000 ∨ idx = 0x1010)
  if s.security.state = 4 then ident || decide (idx = 0xA000 ∧ (sub = 1 ∨ sub = 6))
  else !s.power.bootHeld || ident || decide (idx = 0xA000 ∧ sub = 1) || decide (idx = 0xA030 ∧ sub = 5)

/-- Why the sideband does not reach an object (R367, R368), or the object. `write` is the direction. -/
def State.sideObj (s : State) (idx sub : Nat) (write : Bool) : Except Byte ObjDef :=
  match findAny idx sub with
  | .error _ => .error 0x01
  | .ok d =>
    if d.side = 0 ∨ !s.sideLimited idx sub then .error 0x02
    else if s.powerState = 5 ∧ !d.sideP5 then .error 0x05
    else if (write && decide (d.side < 2)) || (!write && decide (d.access = 3)) then .error 0x03
    else .ok d

/-- The module's address on the bus (R366). -/
def State.smAddr (s : State) : Nat := 0x60 + s.power.ids.toNat

/-- Packet error code: the CRC-8 of the System Management Bus, x^8 + x^2 + x + 1 from 0 (PRESUMED, log 105; R366). -/
def smPec (bs : Bytes) : Byte := BitVec.ofNat 8 (ckValue ⟨8, 0x07, 0, false, false, 0⟩ bs)

/-- What a read of a command code returns, with the PEC byte over the whole transaction: both addresses, the code, the byte count
of a block, the bytes (R366). -/
def State.smReads (s : State) (code : Byte) (block : Bool) (bs : Bytes) : Bytes :=
  bs ++ [smPec ([BitVec.ofNat 8 (2 * s.smAddr), code, BitVec.ofNat 8 (2 * s.smAddr + 1)]
    ++ (if block then [BitVec.ofNat 8 bs.length] else []) ++ bs)]

/-- SMBUS_POINTER; one whose PEC fails is discarded (R366). -/
def execSmbusPointer (idx : BitVec 16) (sub : Byte) (off : SmOffset) (s : State) : Host.Outcome State Fault Refusal :=
  if s.power.aux && off.pecGood then .next (s.updDict (fun d => { d with smIdx := idx, smSub := sub, smOff := off.value }))
  else .next s

/-- SMBUS_READ: a status byte and up to 31 bytes of the value from the pointer's offset, which advances. -/
def execSmbusRead (s : State) : Host.Outcome State Fault Refusal :=
  if !s.power.aux then .next s
  else
    let idx := s.dict.smIdx.toNat
    let sub := s.dict.smSub.toNat
    match s.sideObj idx sub false with
    | .error e => .next (s.updDict (fun d => { d with smOut := s.smReads 0x11 true [e] }))
    | .ok o =>
      let b := ((s.image o idx sub).drop s.dict.smOff.toNat).take 31
      .next ((s.updDict (fun d => { d with smOut := s.smReads 0x11 true (0 :: b), smOff := d.smOff + BitVec.ofNat 8 b.length })).draw)

/-- Status of a sideband WRITE whose dictionary check ends with a code (R367). -/
def sideStatus (c : Nat) : Byte :=
  if c = stOk then 0x00 else if c = stNoObject ∨ c = stNoSub then 0x01
  else if c = stNotWritable ∨ c = stDenied then 0x03 else 0x04

/-- SMBUS_WRITE: a whole value joins the acceptance order; one whose PEC fails, or without a value of 1 to 29 bytes, is
discarded. -/
def execSmbusWrite (idx : BitVec 16) (sub : Byte) (value : Bytes) (pecGood : Bool) (s : State) :
    Host.Outcome State Fault Refusal :=
  if !s.power.aux || !pecGood || !inRange value.length 1 29 then .next s
  else match s.sideObj idx.toNat sub.toNat true with
    | .error e => .next (s.updDict (fun d => { d with smStatus := e }))
    | .ok _ =>
      let c := s.checkWrite none idx.toNat sub.toNat value
      let s := if c = stOk then s.accept none idx.toNat sub.toNat value s.clock.now else s
      .next (s.updDict (fun d => { d with smStatus := sideStatus c }))

/-- SMBUS_LAST_STATUS. -/
def execSmbusLastStatus (s : State) : Host.Outcome State Fault Refusal :=
  if s.power.aux then .next (s.updDict (fun d => { d with smOut := s.smReads 0x13 false [d.smStatus] })) else .next s

/-- ALERT_RESPONSE: while ALERT# is asserted the module answers with its address, 0x60 + SLOT_ID, in bits 7 to 1 (PRESUMED, log 105),
and releases it. The PEC byte covers the alert response address and the answer. -/
def execAlertResponse (s : State) : Host.Outcome State Fault Refusal :=
  if s.power.aux && s.power.alert then
    .next ((s.updDict (fun d => { d with
      smOut := [BitVec.ofNat 8 (2 * s.smAddr), smPec [0x19, BitVec.ofNat 8 (2 * s.smAddr)]] })).updPower (fun p => { p with alert := false }))
  else .next s

/-- SMBUS_TIMEOUT: the bus interface resets, the pointer with it, and ALERT# is released. -/
def execSmbusTimeout (s : State) : Host.Outcome State Fault Refusal :=
  if s.power.aux then
    .next ((s.updDict (fun d => { d with smIdx := 0x1000, smSub := 1, smOff := 0 })).updPower (fun p => { p with alert := false }))
  else .next s

end Sys2Proof.Machine
end

