-- ==== Sys2Proof/Machine/Tables.lean ====
section
/-! DEFINITION. The commands that run batch steps of a context's active table (15 R389, R390; 10 R262; 12 R304), and the
operations of SEARCH on a context's index (11 R276 to R297; 15 R391). -/

namespace Sys2Proof.Machine

/-! ## Table-run commands -/

/-- Give a command its batch steps: its place in its context's queue, and the result span as it stands before the first
of them. The sequencer starts them at its move periods. -/
def State.enqueue (s : State) (k : Nat) : State :=
  let t := s.tset k
  let c := s.ctx t.partNo t.ctxNo
  let s := s.setCtx t.partNo t.ctxNo { c with queue := c.queue ++ [k] }
  let r := s.resultSpan k
  s.output k r.1 r.2.1

/-- Is a started command of an opcode not yet in its context's queue? -/
def State.fresh (s : State) (k o : Nat) : Bool :=
  let t := s.tset k
  s.ready k o && decide (k ∉ (s.ctx t.partNo t.ctxNo).queue)

/-- SCAN as a command (R262): the segments of its first batch step are loaded as it joins its context's queue. -/
def execScanCommand (x : Port) (set : SetId) (s : State) : Host.Outcome State Fault Refusal :=
  let k := setKey x set
  let t := s.tset k
  .next (if s.fresh k 0x30 then (s.enqueue k).loadBatch t.partNo k 0 (s.ctx t.partNo t.ctxNo).table.active else s)

/-- EMBED (R390). -/
def execEmbed (x : Port) (set : SetId) (s : State) : Host.Outcome State Fault Refusal :=
  .next (if s.fresh (setKey x set) 0x31 then s.enqueue (setKey x set) else s)

/-- INFER_STEP (R390). -/
def execInferStep (x : Port) (set : SetId) (s : State) : Host.Outcome State Fault Refusal :=
  .next (if s.fresh (setKey x set) 0x32 then s.enqueue (setKey x set) else s)

/-- REFIT_STEP (R304). -/
def execRefitStep (x : Port) (set : SetId) (s : State) : Host.Outcome State Fault Refusal :=
  .next (if s.fresh (setKey x set) 0x33 then s.enqueue (setKey x set) else s)

/-! ## Query (R286, R391) -/

/-- Is the SEARCH of a set with an operation ready? -/
def State.readySearch (s : State) (k op : Nat) : Bool := s.ready k 0x34 && (s.tset k).searches op

/-- Copy `n` query headers, from query `q` on, into their state records. -/
def State.copyHeaders (s : State) (t : TaskSet) : Nat → Nat → Except Nat State
  | 0, _ => .ok s
  | n + 1, q => do
    let h ← s.readTier (t.reg 2 + 64 * q) 64
    let s' ← s.writeTier (t.reg 3 + t.reg 4 * q) 64 h
    State.copyHeaders s'.draw t n (q + 1)

/-- SEARCH_QUERY: the headers are copied, then one batch step runs. -/
def execSearchQuery (x : Port) (set : SetId) (s : State) : Host.Outcome State Fault Refusal :=
  let k := setKey x set
  let t := s.tset k
  if !s.readySearch k 3 || decide (k ∈ (s.ctx t.partNo t.ctxNo).queue) then .next s
  else match s.copyHeaders t (bits (t.reg 1) 60 53 + 1) 0 with
    | .error a => .next ((s.memRecord k a).finish k stUncorr 0 0)
    | .ok s => .next (s.enqueue k)

/-! ## Reading and changing an index -/

/-- Why work on an index ends: flash (the block) or a tier (the address) has no data to give. -/
inductive IndexFault where
  | block (lba : Nat)
  | tier (addr : Nat)
  deriving DecidableEq, Repr

/-- The newest content of a block: the changes accepted in the running tick over the current map. -/
def State.latestBlock (s : State) (ns lba : Nat) : Option Mem :=
  match s.media.pending.reverse.find? (fun c => decide (c.ns = ns) && decide (c.start ≤ lba) && decide (lba < c.start + c.len)) with
  | some c => (match c.kind with
    | .write => some (c.data.slice (4096 * (lba - c.start)) 4096)
    | .lose => none
    | _ => some [])
  | none => match (s.space ns).head lba with
    | some v => if v.st = .unreadable ∨ s.media.moves.any (fun m => m.lost && decide (m.src = v.unit)) ∨ s.media.segmentLost ns lba
        ∨ (v.st = .mapped ∧ s.checkFails ns lba v.value (s.clearData ns lba v)) then none else some (s.clearData ns lba v)
    | none => if s.media.segmentLost ns lba then none else some []

/-- Work on an index: the module, the descriptor, how a block is read, the blocks changed so far, the tombstone image that
is read and changed, and the slots changed. -/
structure IndexWork where
  s : State
  d : Descriptor
  rd : Nat → Option Mem
  blocks : Tab Mem
  tomb : Nat
  slots : List Nat

/-- What a part of that work gives, with the blocks of flash that it has read so far. -/
abbrev IndexDo (α : Type) := ExceptT IndexFault (StateM (List Nat)) α

/-- Do a part of the work on its own: what it gives, and the blocks that it read, each once. -/
def IndexDo.from0 {α : Type} (x : IndexDo α) : Except IndexFault α × List Nat :=
  let r := x.run.run []
  (r.1, r.2.eraseDups)

/-- A block as changed so far. -/
def IndexWork.block (w : IndexWork) (lba : Nat) : IndexDo Mem :=
  if w.blocks.has lba then pure (w.blocks.get [] lba)
  else do
    modify (fun l => l ++ [lba])
    match w.rd lba with
    | some m => pure m
    | none => throw (.block lba)

/-- The 4 KiB blocks from `lba` on, `n` of them, as one memory. -/
def IndexWork.blocksAt (w : IndexWork) (lba : Nat) : Nat → IndexDo Mem
  | 0 => pure []
  | n + 1 => do
    let m ← IndexWork.blocksAt w lba n
    let b ← w.block (lba + n)
    pure (m.blit (4096 * n) 4096 b)

/-- Bytes `off` to `off + n - 1` from the start of block `base`. -/
def IndexWork.readFlash (w : IndexWork) (base off n : Nat) : IndexDo Mem := do
  let m ← w.blocksAt (base + off / 4096) ((off + n - 1) / 4096 - off / 4096 + 1)
  pure (m.slice (off % 4096) n)

/-- Change bytes of the blocks from `base` on. -/
def IndexWork.writeFlash (w : IndexWork) (base off : Nat) (v : Bytes) : IndexDo IndexWork := do
  let n := (off + v.length - 1) / 4096 - off / 4096 + 1
  let m ← w.blocksAt (base + off / 4096) n
  let m := m.writeBytes (off % 4096) v
  pure { w with blocks := (List.range n).foldl (fun b i => b.set (base + off / 4096 + i) (m.slice (4096 * i) 4096)) w.blocks }

/-- Read bytes of a tier. -/
def IndexWork.readMem (w : IndexWork) (a n : Nat) : IndexDo Mem := match w.s.readTier a n with
  | .ok m => pure m
  | .error e => throw (.tier e)

/-- Write bytes of a tier. -/
def IndexWork.writeMem (w : IndexWork) (a : Nat) (v : Bytes) : IndexDo IndexWork := match w.s.writeTier a v.length (memOf v) with
  | .ok s => pure { w with s := s }
  | .error e => throw (.tier e)

/-- A graph record (R279). -/
structure GraphRec where
  state : Nat
  gen : Nat
  edges : List (Nat × Nat)
  deriving DecidableEq, Repr

/-- Byte of a slot's record from the start of the graph (R279). -/
def Descriptor.recAt (d : Descriptor) (n : Nat) : Nat := n / d.perBlock * 4096 + n % d.perBlock * d.recBytes

/-- The graph record of a slot. -/
def IndexWork.graph (w : IndexWork) (n : Nat) : IndexDo GraphRec := do
  let m ← w.readFlash w.d.graphLba (w.d.recAt n) w.d.recBytes
  pure ⟨bits (m.num 0 8) 56 55, bits (m.num 0 8) 54 47, recordEdges m 0⟩

/-- The bytes of a graph record; what is not listed in R279 is zero. -/
def GraphRec.image (r : GraphRec) (size : Nat) : Bytes :=
  padTo size (bytesOf 8 (field 7 57 r.edges.length + field 2 55 r.state + field 8 47 r.gen)
    ++ r.edges.flatMap (fun e => bytesOf 5 (field 32 8 e.1 + field 8 0 e.2)))

/-- Write a slot's graph record. -/
def IndexWork.setGraph (w : IndexWork) (n : Nat) (r : GraphRec) : IndexDo IndexWork :=
  w.writeFlash w.d.graphLba (w.d.recAt n) (r.image w.d.recBytes)

/-- The generation of a slot in the tombstone image. -/
def IndexWork.gen (w : IndexWork) (n : Nat) : IndexDo Nat := do
  let m ← w.readMem (w.tomb + w.d.bitmapBytes + n) 1
  pure (m.num 0 1)

/-- Set a slot's tombstone bit, and its generation where one is given. -/
def IndexWork.mark (w : IndexWork) (n : Nat) (dead : Bool) (gen : Option Nat) : IndexDo IndexWork := do
  let m ← w.readMem (w.tomb + n / 8) 1
  let w ← w.writeMem (w.tomb + n / 8) (bytesOf 1 (setBit (m.num 0 1) (n % 8) dead))
  let w ← match gen with
    | some g => w.writeMem (w.tomb + w.d.bitmapBytes + n) (bytesOf 1 g)
    | none => pure w
  pure { w with slots := if n ∈ w.slots then w.slots else w.slots ++ [n] }

/-- The lowest FREE slot among `k` slots from `n` on. -/
def IndexWork.freeSlot (w : IndexWork) : Nat → Nat → IndexDo (Option Nat)
  | 0, _ => pure none
  | k + 1, n => do
    let r ← w.graph n
    if r.state = 2 then pure (some n) else IndexWork.freeSlot w k (n + 1)

/-! ## Attach (R276, R277, R281) -/

/-- Is an index refused at its attach (R277)? Its DESC_CRC and its FORMAT are not checked: R276 gives no consequence of a wrong one
(DESIGN CHOICE, log 99). -/
def State.attachDenied (s : State) (x p : Nat) (d : Descriptor) : Bool :=
  let q := d.dim / d.m
  !(decide (d.dim % d.m = 0) && decide (q ∈ [1, 2, 4, 8, 16, 32, 64])) || decide (d.nodes < d.farNodes)
    || !d.inRanges (s.part p).defn
    || !(s.blocksOk x d.ns d.graphLba d.graphBlocks && s.blocksOk x d.ns d.vectorLba d.vectorBlocks
      && s.blocksOk x d.ns d.codeLba d.logBlocks)

/-- The tombstone image from `k` graph records from slot `n` on, and how many insert-area slots are FREE. A record whose STATE is
the reserved 3 is no LIVE one: its bit is set (R281 does not say; DESIGN CHOICE, log 93). -/
def IndexWork.tombImage (w : IndexWork) : Nat → Nat → Mem × Nat → IndexDo (Mem × Nat)
  | 0, _, a => pure a
  | k + 1, n, (m, free) => do
    let r ← w.graph n
    let m := m.write (w.d.bitmapBytes + n) (BitVec.ofNat 8 r.gen)
    let m := if r.state = 0 then m else m.write (n / 8) (m.read (n / 8) ||| BitVec.ofNat 8 (2 ^ (n % 8)))
    IndexWork.tombImage w k (n + 1) (m, if r.state = 2 ∧ w.d.farNodes ≤ n then free + 1 else free)

/-- Load the codes of `k` insert-area slots, from slot `n` on, from the code log: each record to the copy that its
generation byte selects (R278). -/
def IndexWork.loadCodes (w : IndexWork) : Nat → Nat → IndexDo IndexWork
  | 0, _ => pure w
  | k + 1, n => do
    let c ← w.readFlash w.d.codeLba ((n - w.d.farNodes) * w.d.stride) w.d.stride
    let w ← w.writeMem (w.d.codeAddr n (c.num w.d.m 1)) (c.readBytes 0 w.d.stride)
    IndexWork.loadCodes w k (n + 1)

/-- Everything an attach writes: the descriptor, the entry list, the two images and the insert-area codes. -/
def IndexWork.attach (w : IndexWork) (addr : Nat) (input : Mem) : IndexDo (IndexWork × Nat) := do
  let d := w.d
  let w ← w.writeMem addr (input.readBytes 0 128)
  let w ← w.writeMem d.entryAddr (input.readBytes 128 (8 * d.entries))
  let im ← w.tombImage d.nodes 0 ([], 0)
  let w ← w.writeMem d.tombA (im.1.readBytes 0 d.tombBytes)
  let w ← w.writeMem d.tombB (im.1.readBytes 0 d.tombBytes)
  let w ← w.loadCodes (d.nodes - d.farNodes) d.farNodes
  pure (w, im.2)

/-- Blocks in runs: the first of each, and their number. -/
def runsOf (l : List Nat) : List (Nat × Nat) :=
  l.foldl (fun a b => match a.getLast? with
    | some r => if r.1 + r.2 = b then a.dropLast ++ [(r.1, r.2 + 1)] else a ++ [(b, 1)]
    | none => [(b, 1)]) []

/-- Work on an index has read blocks of a snapshot: their segments are looked up and their units read, but for those that a write of
the running tick holds in the buffer. The number of channel slots. -/
def State.indexReads (s : State) (ns stamp : Nat) (l : List Nat) : State × Nat :=
  (runsOf (l.filter (fun lba => !s.media.pending.any (fun c => decide (c.kind = .write ∧ c.ns = ns ∧ c.start ≤ lba ∧ lba < c.start + c.len))))).foldl
    (fun a r =>
      let b := a.1.flashSlots ns r.1 r.2 stamp
      (b.1, a.2 + b.2)) (s, 0)

/-- Partition `p` is charged what its work on an index has read, whether the work ended well or on a fault (02 R66; 01 R25). -/
def State.chargeIndex (s : State) (p ns stamp : Nat) (l : List Nat) : State :=
  let a := (if l.isEmpty then s else s.request 4 p).indexReads ns stamp l
  if a.2 = 0 then a.1 else a.1.charge p 4 (channelTime a.2)

/-- The record and the end of a command whose index could not be read (16 R404). -/
def State.indexFault (s : State) (k ns : Nat) (f : IndexFault) : State :=
  (match f with
    | .block lba => s.flashRecord k ns lba
    | .tier a => s.memRecord k a).finish k stUncorr 0 0

/-- SEARCH_ATTACH: the index is attached, and the command completes at the next boundary. -/
def execSearchAttach (x : Port) (set : SetId) (s : State) : Host.Outcome State Fault Refusal :=
  let k := setKey x set
  let t := s.tset k
  let p := t.partNo
  let n := t.ctxNo
  if !s.readySearch k 1 then .next s
  else
    let desc := t.input.readBytes 0 128
    let d := descriptor (numOf desc)
    let c := s.ctx p n
    if c.index.isSome || s.attachDenied x.val p d then .next (s.finish k stDenied 0 0)
    else
      let rd := fun lba => match s.readBlock t.stamp.toNat x.val d.ns lba with
        | .data m => some m
        | _ => none
      match ((IndexWork.mk s d rd [] d.tombA []).attach (t.reg 2) t.input).from0 with
      | (.error f, l) => .next ((s.chargeIndex p d.ns t.stamp.toNat l).indexFault k d.ns f)
      | (.ok (w, free), l) =>
        let s := (w.s.draw.begin k).chargeIndex p d.ns t.stamp.toNat l
        let s := s.setCtx p n { s.ctx p n with
          tomb := ⟨false, ⟨true, [], d.tombBytes, d.tombA⟩, ⟨true, [], d.tombBytes, d.tombB⟩, .ready, 0, false⟩
          index := some ⟨t.reg 2, desc, [], false, 0, []⟩ }
        let s := ((s.put (0x6080 + p) (n + 1) 0).put (0x6088 + p) (n + 1) 0).put (0x6090 + p) (n + 1) free
        .next ((s.loadReport p n 4 0 0).postLater k stOk 0 0)

/-- SEARCH_DETACH (R391): refused while the context is ACTIVE; otherwise the next boundary drops the index. -/
def execSearchDetach (x : Port) (set : SetId) (s : State) : Host.Outcome State Fault Refusal :=
  let k := setKey x set
  let t := s.tset k
  if !s.readySearch k 2 then .next s
  else if s.ctxBusy t.partNo t.ctxNo then .next (s.finish k stDenied 0 0)
  else .next (s.begin k)

/-- The boundary drops the indices of the detaches that wait. -/
def State.detachNow (s : State) : State :=
  s.each (s.taken.filter (fun k => s.runsCmd k 0x34 && (s.tset k).searches 2 && decide ((s.tset k).begun = 1))) (fun s k =>
    let t := s.tset k
    (s.setCtx t.partNo t.ctxNo { s.ctx t.partNo t.ctxNo with index := none, tomb := Banks.none }).postLater k stOk 0 0)

/-! ## Update (R293 to R295) -/

/-- SEARCH_UPDATE: the records are there; they are applied when the shadow image is READY. In read-only the command ends
without applying any (R297). -/
def execSearchUpdate (x : Port) (set : SetId) (s : State) : Host.Outcome State Fault Refusal :=
  let k := setKey x set
  let t := s.tset k
  if !s.readySearch k 4 then .next s
  else if s.media.readOnly then .next (s.finish k stReadOnly 0 0)
  else if (s.ctx t.partNo t.ctxNo).index.isNone then .next (s.finish k stDenied 0 0)
  else .next (s.begin k)

/-- OUTCOME codes of R293. -/
def updApplied : Nat := 0
def updFull : Nat := 1
def updStale : Nat := 2
def updBad : Nat := 3

/-- The outcome of a record (R293). -/
def outcomeBytes (tag node gen code dropped : Nat) : Bytes :=
  bytesOf 16 (field 32 96 tag + field 32 32 node + field 8 24 gen + field 8 16 code + field 8 8 dropped)

/-- DELETE (R294). The outcome of one that is STALE echoes NODE and GEN of the request, and EDGES_DROPPED is 0 (R293 does not
say what they are there; DESIGN CHOICE, log 17). -/
def IndexWork.delete (w : IndexWork) (tag n g : Nat) : IndexDo (IndexWork × Bytes) :=
  if w.d.nodes ≤ n then pure (w, outcomeBytes tag n g updStale 0)
  else do
    let r ← w.graph n
    if r.state ≠ 0 ∨ r.gen ≠ g then pure (w, outcomeBytes tag n g updStale 0)
    else do
      let w ← w.setGraph n { r with state := 1 }
      let w ← w.mark n true none
      pure (w, outcomeBytes tag n g updApplied 0)

/-- A forward edge of an INSERT: target, generation, BACK_POS. -/
structure Forward where
  node : Nat
  gen : Nat
  back : Nat
  deriving DecidableEq, Repr

/-- The forward edges that an INSERT keeps (R294 step 3); `seen` are the targets so far. -/
def IndexWork.keepEdges (w : IndexWork) : List Nat → List Forward → IndexDo (List Forward)
  | _, [] => pure []
  | seen, e :: es => do
    let rest ← IndexWork.keepEdges w (e.node :: seen) es
    if e.node ∈ seen ∨ w.d.nodes ≤ e.node then pure rest
    else do
      let r ← w.graph e.node
      let g ← w.gen e.node
      pure (if r.state = 0 ∧ g = e.gen then e :: rest else rest)

/-- Change the records of the kept edges' targets (R294 step 5): the new slot and its generation. A full record whose BACK_POS is at
or beyond COUNT does not change. -/
def IndexWork.backEdges (w : IndexWork) (slot g : Nat) : List Forward → IndexDo IndexWork
  | [] => pure w
  | e :: es =>
    if e.back = 0xFF then IndexWork.backEdges w slot g es
    else do
      let r ← w.graph e.node
      let w ← if e.back < r.edges.length then w.setGraph e.node { r with edges := r.edges.set e.back (slot, g) }
        else if r.edges.length < w.d.degree then w.setGraph e.node { r with edges := r.edges ++ [(slot, g)] }
        else pure w
      IndexWork.backEdges w slot g es

/-- INSERT (R294): `body` is the record from its code record on. -/
def IndexWork.insert (w : IndexWork) (tag edges : Nat) (body : Bytes) : IndexDo (IndexWork × Bytes) :=
  let d := w.d
  let k := w.s.free
  let blank := (Config.counterValue k 0x10500).toNat
  if d.degree < edges then pure (w, outcomeBytes tag blank (blank / 2 ^ 32) updBad 0)
  else do
    let o ← w.freeSlot (d.nodes - d.farNodes) d.farNodes
    match o with
    | none => pure (w, outcomeBytes tag blank (blank / 2 ^ 32) updFull 0)
    | some n => do
      let g0 ← w.gen n
      let g := (g0 + 1) % 256
      let vpad := ceilDiv d.vecBytes 16 * 16
      let fwd := (List.range edges).map (fun i =>
        let v := numOf ((body.drop (d.stride + vpad + 8 * i)).take 8)
        (⟨bits v 63 32, bits v 31 24, bits v 23 16⟩ : Forward))
      let kept ← w.keepEdges [] fwd
      let code := padTo d.stride (body.take d.m ++ bytesOf 1 g)
      let w ← w.setGraph n ⟨0, g, kept.map (fun e => (e.node, e.gen))⟩
      let w ← w.writeFlash d.vectorLba (n * d.vecBytes) ((body.drop d.stride).take d.vecBytes)
      let w ← w.writeMem (d.codeAddr n g) code
      let w ← w.writeFlash d.codeLba ((n - d.farNodes) * d.stride) code
      let w ← w.backEdges n g kept
      let w ← w.mark n false (some g)
      pure (w, outcomeBytes tag n g updApplied (edges - kept.length))

/-- Apply `n` records from address `a` on (R294): the outcomes, and how many INSERTs were applied. -/
def IndexWork.apply (w : IndexWork) : Nat → Nat → IndexDo (IndexWork × Bytes)
  | 0, _ => pure (w, [])
  | n + 1, a => do
    let hm ← w.readMem a 16
    let h := hm.num 0 16
    let len := w.d.updBytes h
    let m ← w.readMem a len
    let tag := bits h 31 0
    let r ← if bits h 127 124 = 1 then w.insert tag (bits h 123 117) (m.readBytes 16 (len - 16))
      else if bits h 127 124 = 2 then w.delete tag (bits h 71 40) (bits h 39 32)
      else pure (w, outcomeBytes tag (Config.counterValue w.s.free 0x10500).toNat (Config.counterValue w.s.free 0x10501).toNat updBad 0)
    let rest ← IndexWork.apply { r.1 with s := r.1.s.draw } n (a + len)
    pure (rest.1, r.2 ++ rest.2)

/-- FREE insert-area slots among `k` from `n` on. -/
def IndexWork.countFree (w : IndexWork) : Nat → Nat → Nat
  | 0, _ => 0
  | k + 1, n => IndexWork.countFree w k (n + 1) + (match (w.graph n).from0.1 with
    | .ok r => if r.state = 2 then 1 else 0
    | .error _ => 0)

/-- The blocks that work on an index changed are accepted as writes. -/
def State.acceptBlocks (s : State) (payer : Option Nat) (ns : Nat) (l : Tab Mem) : State :=
  s.each l (fun s b => s.acceptPiece ns b.1 1 b.2 (s.valuesOf ns b.1 1 b.2) payer)

/-- Work on the index of a context that reads the newest content. -/
def State.indexWork (s : State) (d : Descriptor) (tomb : Nat) : IndexWork := ⟨s, d, s.latestBlock d.ns, [], tomb, []⟩

/-- An earlier update of the same context that is still to be accepted. -/
def State.updateAhead (s : State) (t : TaskSet) : Bool := s.earlier t (fun u => u.searches 4 && decide (u.due = none))

/-- UPDATE_ACCEPT (R295): with the shadow image READY, or ARMED by an update of the same tick, the records are applied to
it; their writes and the swap take effect together at the next boundary. An update whose writes may not be accepted yet waits
(08 R214; log 119). FREE_SLOTS counts its INSERTs from now on (R297 does not say whether from their boundary on; DESIGN CHOICE, log
93). -/
def execUpdateAccept (x : Port) (set : SetId) (s : State) : Host.Outcome State Fault Refusal :=
  let k := setKey x set
  let t := s.tset k
  let p := t.partNo
  let n := t.ctxNo
  let c := s.ctx p n
  match c.index with
  | none => .next s
  | some ix =>
    if !(s.runsCmd k 0x34 && t.searches 4 && decide (t.begun = 1)) || decide (c.tomb.st ≠ .ready ∧ c.tomb.st ≠ .armed)
        || s.updateAhead t then .next s
    else if s.media.readOnly then .next (s.finish k stReadOnly 0 0)
    else
      let d := descriptor (numOf ix.desc)
      match ((s.indexWork d c.tomb.shadow.addr).apply (bits (t.reg 1) 31 0) (t.reg 2)).from0 with
      | (.error f, l) => .next ((s.chargeIndex p d.ns s.tick l).indexFault k d.ns f)
      | (.ok (w, out), l) =>
        let s' := ((w.s.chargeIndex p d.ns s.tick l).request 4 p).acceptBlocks (some p) d.ns w.blocks
        if s.mustWait s' w.blocks.length then .next s
        else
          let s' := s'.setCtx p n { s'.ctx p n with
            tomb := { c.tomb with st := .armed, armGroup := s'.arms }
            index := some { ix with touched := true, log := ix.log ++ w.slots.filter (fun i => decide (i ∉ ix.log)) } }
          let s' := ((s'.setArms (s'.arms + 1)).put (0x6090 + p) (n + 1) (w.countFree (d.nodes - d.farNodes) d.farNodes)).loadReport p n 4 0 0
          .next ((s'.output k (memOf out) out.length).postLater k stOk (bits (t.reg 1) 31 0) 0)

/-- May a search that still runs use the old image? -/
def State.oldImageUsed (s : State) (p n swapped : Nat) : Bool :=
  s.taken.any (fun k =>
    let t := s.tset k
    t.runsSteps && decide (t.partNo = p) && decide (t.ctxNo = n) && decide (t.due = none) && decide (t.stamp.toNat < swapped))
  || (match (s.seq p).run with
    | some r => decide (r.ctx.val = n) && decide (r.stamp < swapped)
    | none => false)

/-- Copy the bits and generations of slots from one image to another. -/
def IndexWork.replay (w : IndexWork) (src : Nat) : List Nat → IndexDo IndexWork
  | [] => pure w
  | n :: ns => do
    let m ← w.readMem (src + n / 8) 1
    let g ← w.readMem (src + w.d.bitmapBytes + n) 1
    let w ← w.mark n (bitOf (m.num 0 1) (n % 8)) (some (g.num 0 1))
    IndexWork.replay w src ns

/-- TOMBSTONE_REPLAY (R295). -/
def execTombstoneReplay (p : Part) (n : Ctx) (s : State) : Host.Outcome State Fault Refusal :=
  let c := s.ctx p.val n.val
  match c.index with
  | none => .next s
  | some ix =>
    if c.tomb.st ≠ .retiring ∨ s.oldImageUsed p.val n.val ix.swapped then .next s
    else
      match ((s.indexWork (descriptor (numOf ix.desc)) c.tomb.shadow.addr).replay c.tomb.active.addr ix.log).from0.1 with
      | .error _ => .next s
      | .ok w => .next (w.s.setCtx p.val n.val { c with tomb := { c.tomb with st := .ready }, index := some { ix with log := [] } })

/-! ## Graph repair (R296) -/

/-- Is an edge invalid: its target DELETED or FREE, or its generation another? -/
def IndexWork.invalid (w : IndexWork) (e : Nat × Nat) : IndexDo Bool :=
  if w.d.nodes ≤ e.1 then pure true
  else do
    let r ← w.graph e.1
    pure (decide (r.state ≠ 0) || decide (r.gen ≠ e.2))

/-- Split edges into the valid and the dropped ones, in order. -/
def IndexWork.splitEdges (w : IndexWork) : List (Nat × Nat) → IndexDo (List (Nat × Nat) × List (Nat × Nat))
  | [] => pure ([], [])
  | e :: es => do
    let bad ← w.invalid e
    let rest ← IndexWork.splitEdges w es
    pure (if bad then (rest.1, e :: rest.2) else (e :: rest.1, rest.2))

/-- Append edges that are valid, not the slot itself and not present, until there are `d`. -/
def IndexWork.appendEdges (w : IndexWork) (n : Nat) (kept : List (Nat × Nat)) : List (Nat × Nat) → IndexDo (List (Nat × Nat))
  | [] => pure kept
  | e :: es => do
    let bad ← w.invalid e
    IndexWork.appendEdges w n (if bad || decide (e.1 = n) || kept.any (fun x => decide (x.1 = e.1)) || decide (w.d.degree ≤ kept.length)
      then kept else kept ++ [e]) es

/-- Take over the edges of the dropped DELETED targets, in the order of their edges. -/
def IndexWork.inherit (w : IndexWork) (n : Nat) (kept : List (Nat × Nat)) : List (Nat × Nat) → IndexDo (List (Nat × Nat))
  | [] => pure kept
  | e :: es =>
    if w.d.nodes ≤ e.1 then IndexWork.inherit w n kept es
    else do
      let r ← w.graph e.1
      let kept ← if r.state = 1 then w.appendEdges n kept r.edges else pure kept
      IndexWork.inherit w n kept es

/-- Visit `k` slots from `n` on. -/
def IndexWork.repair (w : IndexWork) : Nat → Nat → IndexDo IndexWork
  | 0, _ => pure w
  | k + 1, n => do
    let r ← w.graph n
    let sp ← w.splitEdges r.edges
    let w ← if sp.2.isEmpty then pure w
      else do
        let es ← w.inherit n sp.1 sp.2
        w.setGraph n { r with edges := es }
    IndexWork.repair w k (n + 1)

/-- DELETED slots become FREE: `k` insert-area slots from `n` on. -/
def IndexWork.freeDeleted (w : IndexWork) : Nat → Nat → IndexDo IndexWork
  | 0, _ => pure w
  | k + 1, n => do
    let r ← w.graph n
    let w ← if r.state = 1 then w.setGraph n { r with state := 2 } else pure w
    IndexWork.freeDeleted w k (n + 1)

/-- A repair pass over an index (R296): the slots in turn, then those that were DELETED. -/
def IndexWork.pass (w : IndexWork) : IndexDo IndexWork := do
  let v ← w.repair w.d.nodes 0
  v.freeDeleted (w.d.nodes - w.d.farNodes) w.d.farNodes

/-- GRAPH_REPAIR_PASS: a whole pass, whose writes are published at the next boundary, and whose reads are reads of its units
(09 R230, R233, R249). A graph block without data ends it; a pass whose writes may not be accepted yet waits (log 119). FREE_SLOTS
follows at once (DESIGN CHOICE, log 93). -/
def execGraphRepairPass (p : Part) (n : Ctx) (s : State) : Host.Outcome State Fault Refusal :=
  match (s.ctx p.val n.val).index with
  | none => .next s
  | some ix =>
    if !s.relocates then .next s
    else
      let d := descriptor (numOf ix.desc)
      match (s.indexWork d 0).pass.from0 with
      | (.error _, l) => .next (s.indexReads d.ns s.tick l).1
      | (.ok w, l) =>
        let s' := (s.indexReads d.ns s.tick l).1.acceptBlocks none d.ns w.blocks
        if s.mustWait s' w.blocks.length then .next s
        else
          let s' := s'.setCtx p.val n.val { s'.ctx p.val n.val with index := some { ix with touched := ix.touched || !w.blocks.isEmpty } }
          .next (((s'.put (0x6090 + p.val) (n.val + 1) (w.countFree (d.nodes - d.farNodes) d.farNodes)).bump (0x6088 + p.val) (n.val + 1) 1).busyBit 7)

/-- The index generation advances where the boundary publishes an update or a repair of the index (R297). -/
def State.indicesNow (s : State) : State :=
  s.each s.ctxs (fun s e => match e.2.index with
    | none => s
    | some ix =>
      if ix.touched then
        let c := s.ctx (e.1 / 16) (e.1 % 16)
        let g := (ix.gens.headD (0, 0)).1 + 1
        (s.setCtx (e.1 / 16) (e.1 % 16) { c with index := c.index.map (fun i => { i with touched := false, gens := (g, s.tick) :: i.gens }) }).put
          (0x6080 + e.1 / 16) (e.1 % 16 + 1) g
      else s)

end Sys2Proof.Machine
end

