-- ==== Sys2Proof/Machine/Guard.lean ====
section
/-! DEFINITION. Memory integrity (07 R182 to R197): the leaky buckets and the row trackers, patrol scrub, row remaps, the
runtime self-test, and what a failed checker limits. -/

namespace Sys2Proof.Machine

/-! ## Leaky buckets (R190, R191) -/

/-- Index of the objects of a bucket (R191); the lane dies have none. -/
def bucketIdx (k : Nat) : Nat := if k < 16 then 0x3010 + k else if k < 24 then 0x3020 + (k - 16) else 0x3030

/-- Level of a bucket. -/
def State.level (s : State) (k : Nat) : Nat := if k < 25 then s.obj (bucketIdx k) 4 else s.guard.levels.get 0 k

/-- Set it. -/
def State.setLevel (s : State) (k v : Nat) : State :=
  if k < 25 then s.put (bucketIdx k) 4 v
  else s.setGuard { s.guard with levels := s.guard.levels.set k v }

/-- Source of the record of a bucket (16 R403): kind and number. -/
def bucketSource (k : Nat) : Nat × Nat :=
  if k < 16 then (1, k) else if k < 24 then (2, k - 16) else if k = 24 then (3, 0) else (0, k - 25)

/-- One event enters a bucket. -/
def State.bucketEvent (s : State) (k : Nat) : State :=
  let n := s.level k + 1
  if n = s.gov 0x3040 2 then
    let s := s.setLevel k 0
    let s := if k < 25 then s.bump (bucketIdx k) 5 1 else s
    s.raise (report causeRate (bucketSource k).1 (bucketSource k).2 0 0)
  else s.setLevel k n

/-- Corrected events of a bucket; `sub` is the counter they advance: 1 outer code or SECDED, 2 inner code. -/
def State.corrected (s : State) (k sub n : Nat) : State :=
  let s := if k < 25 then s.bump (bucketIdx k) sub n else s
  s.each (List.range n) (fun s _ => s.bucketEvent k)

/-- INNER_CODE_POLL (R182): counts by stack, near 0 to 15 and far 16 to 23. -/
def execInnerCodePoll (counts : List (Nat × Nat)) (s : State) : Host.Outcome State Fault Refusal :=
  if s.power.trained then .next (s.each (counts.filter (fun c => decide (c.1 < 24))) (fun s c => s.corrected c.1 2 c.2))
  else .next s

/-- Buckets of the module. -/
def bucketCount : Nat := 73

/-- LEAK_INTERVAL (R190). -/
def execLeakInterval (s : State) : Host.Outcome State Fault Refusal :=
  .next (s.each ((List.range bucketCount).filter (fun k => decide (0 < s.level k))) (fun s k => s.setLevel k (s.level k - 1)))

/-! ## Rows (R188, R189) -/

/-- First address of a row. -/
def rowFirst (stack pc row : Nat) : Nat :=
  if stack < 16 then row * 2 ^ 18 + pc * 4096 + stack * 256 else farFirst + row * 2 ^ 17 + pc * 2048 + (stack - 16) * 256

/-- Entries of a row tracker. -/
def trackerSize : Nat := 32

/-- A corrected read of a row: its stack's tracker counts it. Which entry a full tracker gives up, if any, the spec does
not say: a free choice (log 17). -/
def State.track (s : State) (a : Nat) : State :=
  let k := rowKeyOf a
  let mine := s.guard.rows.filter (fun e => decide (e.1 / 2 ^ 36 = bucketOf a))
  let put := fun (s : State) => s.setGuard { s.guard with rows := s.guard.rows.upd 0 k (· + 1) }
  if s.guard.rows.has k || decide (mine.length < trackerSize) then put s
  else
    let i := (Config.counterValue s.free 0x10700).toNat % (trackerSize + 1)
    let s := s.draw
    match mine[i]? with
    | none => s
    | some e => put (s.setGuard { s.guard with rows := s.guard.rows.erase e.1 })

/-- Is a row replaced by a spare? -/
def State.remapped (s : State) (stack pc row : Nat) : Bool := decide (row ∈ s.guard.remaps.get [] (pcKey stack pc))

/-- Is a remap of a row due (R188): an uncorrectable read has occurred in it, or its tracker has reached ROW_TRIGGER? -/
def State.remapDue (s : State) (stack pc row : Nat) : Bool :=
  !s.remapped stack pc row
    && (decide (s.gov 0x3040 3 ≤ s.guard.rows.get 0 (rowKey stack pc row))
      || decide (rowKey stack pc row ∈ s.errors.badRows) || s.fabric.bad.any (fun a => decide (a < scratchFirst) && decide (rowKeyOf a = rowKey stack pc row)))

/-- Spare rows of a pseudo-channel. -/
def spareRows : Nat := 8

/-- A row is copied to a spare row; a pseudo-channel whose last spare goes is exhausted. -/
def State.remapRow (s : State) (stack pc row : Nat) : State :=
  let k := pcKey stack pc
  let used := s.guard.remaps.get [] k ++ [row]
  let s := s.setGuard { s.guard with
    remaps := s.guard.remaps.set k used
    remapTick := s.guard.remapTick.set k (s.tick + 1)
    rows := s.guard.rows.erase (rowKey stack pc row) }
  let s := s.setErrors { s.errors with badRows := s.errors.badRows.filter (fun k => decide (k ≠ rowKey stack pc row)) }
  let rep := tierReport causeRemap (rowFirst stack pc row) 0 0
  let s := s.raise rep
  if used.length = spareRows then s.raise { rep with detail := 1 } else s

/-- ROW_REMAP (R188): at most one in a pseudo-channel and a tick, while a spare row is left. -/
def execRowRemap (tier : Tier) (stack pc row : Nat) (s : State) : Host.Outcome State Fault Refusal :=
  let g := match tier with
    | .near => if stack < 16 then some stack else none
    | .far => if stack < 8 then some (16 + stack) else none
    | .scratch => none
  match g with
  | none => .next s
  | some k =>
    if decide (pc < 16) && s.remapDue k pc row && decide ((s.guard.remaps.get [] (pcKey k pc)).length < spareRows)
        && decide (s.guard.remapTick.get 0 (pcKey k pc) ≠ s.tick + 1) then
      .next (s.remapRow k pc row)
    else .next s

/-! ## Patrol scrub (R192, R193) -/

/-- May scrub and the self-test run (09 R247, R248; 20 R491)? Sanitize does not stop them. -/
def State.patrols (s : State) : Bool := s.clock.running && decide (s.power.state ≤ 3) && !s.power.waitP4 && decide (s.hold = 0)
    && !s.power.warned

/-- First address under which the model names the rows that no tier address names: the spare rows of each pseudo-channel, 0 to 7,
and its test row, 8, of 1 KiB each (DESIGN CHOICE, log 108; R188, R192, R194). -/
def spareFirst : Nat := 0xC0000000000

/-- The stack of such an address, if it names a row: stack * 16 + pseudo-channel, in 16 KiB each. -/
def spareStack (a : Nat) : Option Nat :=
  if spareFirst ≤ a ∧ a < spareFirst + 24 * 262144 ∧ (a - spareFirst) % 16384 < 9216 then some ((a - spareFirst) / 262144) else none

/-- Does an address lie in a tier (R169)? -/
def inTiers (a : Nat) : Bool := decide (a < 0x8000000000) || within a 1 farFirst farBytes || within a 1 scratchFirst scratchBytes

/-- The last block that a scrub pass of a stack visits. -/
def lastBlock (stack : Nat) : Nat :=
  if stack < 16 then 0x7FFFFFF000 + stack * 256 + 192 else farFirst + 0xFFFFFFF800 + (stack - 16) * 256 + 192

/-- The word of 72 symbols that a stack holds for the sound block at an address (R183). -/
def State.outerWordAt (s : State) (a : Nat) : Bytes :=
  outerWord (decide (farFirst ≤ a)) (if farFirst ≤ a then a - farFirst else a) (s.fabric.mem.readBytes a 64)

/-- How a block reads (R184, R185): 0 clean, 1 corrected, 2 uncorrectable, 3 miscorrected, which more wrong symbols than
the code is sure to see may be (a free choice, log 12). -/
def State.scrubOutcome (s : State) (a symbols : Nat) : Nat :=
  let scratch := decide (scratchFirst ≤ a)
  if a ∈ s.fabric.bad ∨ a ∈ s.media.badCopies then 2
  else if symbols = 0 then 0
  else if symbols ≤ (if scratch then 1 else 2) then 1
  else if (if scratch then 3 else 7) ≤ symbols ∧ Config.survives s.free then 3
  else 2

/-- A pass over a stack has ended: the next scrub period begins (R188). -/
def State.passEnd (s : State) (a : Nat) : State :=
  if decide (a < scratchFirst) && decide (a = lastBlock (bucketOf a)) then
    (s.setGuard { s.guard with rows := s.guard.rows.filter (fun e => !decide (e.1 / 2 ^ 36 = bucketOf a)) }).bump (bucketIdx (bucketOf a)) 8 1
  else s

/-- A corrected event at an address. -/
def State.correctedAt (s : State) (a : Nat) : State :=
  let s := s.corrected (bucketOf a) 1 1
  if a < scratchFirst then s.track a else s

/-- A block of a tier is uncorrectable from now on. -/
def State.markBad (s : State) (a : Nat) : State :=
  if inBuffer a then s.setMedia { s.media with badCopies := if a ∈ s.media.badCopies then s.media.badCopies else a :: s.media.badCopies }
  else s.setFabric { s.fabric with bad := if a ∈ s.fabric.bad then s.fabric.bad else a :: s.fabric.bad }

/-- An uncorrectable block of the write buffer, 64 bytes at `a`; `read` says whether a consumer met it (07 R186). With the other
copy bad too, its logical block is lost; a copy met alone is rewritten from the other one; one that scrub met stays bad until a
consumer meets it. -/
def State.badBuffer (s : State) (a : Nat) (read : Bool) : State :=
  if otherCopy a ∈ s.media.badCopies then
    let s := s.setMedia { s.media with badCopies := s.media.badCopies.filter (fun b => decide (b ≠ otherCopy a)) }
    match s.media.bufferBlock (bufferByte a) with
    | some (ns, lba) => s.loseBuffer ns lba
    | none => s
  else if read then s.setMedia { s.media with badCopies := s.media.badCopies.filter (fun b => decide (b ≠ a)) }
  else s.markBad a

/-- Patrol scrub reads the block at `a`, which shows `symbols` wrong symbols. -/
def State.scrub (s : State) (a symbols : Nat) : State :=
  let o := s.scrubOutcome a symbols
  let s := if a < farFirst then s.busyBit 9 else if a < scratchFirst then s.busyBit 10 else s
  let s := if o = 1 then s.correctedAt a
    else if o = 3 then
      let n := guardUnit a
      if inBuffer a then (s.setMedia { s.media with badData := s.media.badData.set a s.free }).correctedAt a else
      (s.setFabric { s.fabric with fog := ⟨a, n, s.free⟩ :: clearFog s.fabric.fog a n }).correctedAt a
    else if o = 2 then
      (if inBuffer a then s.badBuffer a false else s.markBad a).raise (tierReport causeScrub a 0 0)
    else s
  (s.passEnd a).draw

/-- Patrol scrub reads a block of a spare row or a test row of a stack: its corrections count there; no tier address is that
row's, so that no consumer meets its block and no remap follows (R192). -/
def State.scrubSpare (s : State) (stack a symbols : Nat) : State :=
  let o := if symbols ≤ 2 then min symbols 1 else if 7 ≤ symbols ∧ Config.survives s.free then 1 else 2
  let s := s.busyBit (if stack < 16 then 9 else 10)
  (if o = 1 then s.corrected stack 1 1
    else if o = 2 then
      (s.bump (bucketIdx stack) 3 1).raise { report causeScrub (bucketSource stack).1 (bucketSource stack).2 0 0 with
        subId := BitVec.ofNat 8 ((a - spareFirst) / 16384 % 16), address := BitVec.ofNat 64 a }
    else s).draw

/-- The corrections of a read: how many there were, and where, is free; each counts, enters its bucket, and its row's tracker
(R184, R185, R190). -/
def State.correctionsOf (s : State) (r : Option Nat × Nat × Nat) : State :=
  let k := s.free
  let unit := match r.1 with
    | some _ => 8
    | none => guardUnit r.2.1
  let units := max 1 (ceilDiv r.2.2 unit)
  s.draw.each (List.range (Config.corrections k 0 % (units + 1))) (fun s j => match r.1 with
    | some d => (s.count (128 * d + 15) 1).corrected (25 + d) 1 1
    | none => s.correctedAt (r.2.1 / unit * unit + Config.corrections k (j + 1) % units * unit))

/-- The corrections of the tick that ends (log 107). -/
def State.correctionsNow (s : State) : State :=
  let l := s.guard.seen.reverse ++ s.media.seen.reverse.map (fun r => (none, r.1, r.2))
  ((s.setGuard { s.guard with seen := [] }).setMedia { s.media with seen := [] }).each l State.correctionsOf

/-- PATROL_SCRUB (R192, R193). -/
def execPatrolScrub (block : BitVec 48) (symbols : Nat) (s : State) : Host.Outcome State Fault Refusal :=
  let a := block.toNat / guardUnit block.toNat * guardUnit block.toNat
  if !s.patrols then .next s
  else if inTiers a then .next (s.scrub a symbols)
  else match spareStack a with
    | some k => .next (s.scrubSpare k a symbols)
    | none => .next s

/-! ## Checkers (R194 to R197) -/

/-- A checker failed: its bit of SELFTEST_RESULT, the bank's bit, and its record. The first failing stack is kept. -/
def State.checkerFail (s : State) (c : Checker) : State :=
  let v := s.obj 0x3000 2
  match c with
  | .near k pc =>
    let s := s.put 0x3000 2 (if bitOf v 31 then v else v + 2 ^ 31 + field 4 20 k + field 4 16 pc)
    s.raise { report causeSelftest 1 k 4 stTornDown with subId := BitVec.ofNat 8 pc }
  | .far k pc =>
    let s := s.put 0x3000 2 (if bitOf v 30 then v else v + 2 ^ 30 + field 3 13 k + field 4 9 pc)
    s.raise { report causeSelftest 2 k 0 0 with subId := BitVec.ofNat 8 pc }
  | .scratch b =>
    let s := s.put 0x3000 2 (setBit v 29 true)
    let s := if b < 64 then s.put 0x3030 6 (setBit (s.obj 0x3030 6) b true) else s.put 0x3030 7 (setBit (s.obj 0x3030 7) (b - 64) true)
    s.raise (report causeSelftest 3 0 0 0)

/-- The conditions of R197 as the objects of R196 have them. -/
def State.guardNow (s : State) : State :=
  s.setGuard { s.guard with
    nearOff := bitOf (s.obj 0x3000 2) 31
    farOff := bitOf (s.obj 0x3000 2) 30
    banksOff := s.obj 0x3030 6 + s.obj 0x3030 7 * 2 ^ 64 }

/-- ECC_SELFTEST (R194): a failure takes effect at the next boundary. -/
def execEccSelftest (checker : Checker) (good : Bool) (s : State) : Host.Outcome State Fault Refusal :=
  if s.patrols then
    let s := s.busyBit 11
    .next (if good then s else s.checkerFail checker)
  else .next s

end Sys2Proof.Machine
end

