-- ==== Sys2Proof/Machine/Faults.lean ====
section
/-! DEFINITION. Errors (16): the severity of a reported condition, classification and escalation, what a DEVICE error
stops, and the copies that go to the persistent pages. -/

namespace Sys2Proof.Machine

/-! ## Severity (R404) -/

/-- Is the square of a lane-die link in a committed partition? Its number. -/
def State.partOfSquare (s : State) (d : Nat) : Option Nat :=
  (List.range 8).find? (fun p => (s.part p).committed && bitOf (s.part p).defn.squares d)

/-- Severity of an error by its consumer (R404): a step of the partition and context that the report names, a command of the port
that it names, or none; what a cut step dropped is not consumed (R408, 07 R181). -/
def State.consumed (s : State) (rep : Report) : Nat :=
  let here := ((List.range 32).flatMap (s.seq rep.part.val).queue).filter (fun e => decide (e.index = rep.step.toNat))
  if rep.partValid then (if !here.isEmpty && here.all QStep.cut then 0 else 2)
  else if rep.portValid then 1
  else 0

/-- Severity of a report by its cause, and where the table leaves it to the consumer by that. LIFE_CYCLE is DEVICE
where a key slot failed its verification (18 R459, log 92). None for a code that is no cause. -/
def State.severityOf (s : State) (rep : Report) : Option Nat :=
  let c := rep.cause.toNat
  let v := rep.severity.toNat
  if c ∈ [causeReset, causeLaneTest, causeScrub, causeRate, causeRemap, causeDie, causeStage, causeLinkDown] then some 0
  else if c = causeMem ∨ c = causeFlash then some (s.consumed rep)
  else if c = causeBuffer ∨ c = causeCheck then some 1
  else if c = causeLane then some (if rep.partValid then s.consumed rep else 2)
  else if c = causeHang ∨ c = causeNs then some 2
  else if c = causeSequencer ∨ c = causeEscalation then some 3
  else if c = causeFabric ∨ c = causeMgmt ∨ c = causeLost then some 4
  else if c = causeThermal ∨ c = causeLife then some (if v = 4 then 4 else 0)
  else if c = causeSelftest then some (if rep.sourceKind.toNat = 1 then 4 else 0)
  else if c = causeLink then
    some (if rep.sourceId.toNat < 48 then (if (s.partOfSquare rep.sourceId.toNat).isSome then 3 else 0) else 4)
  else none

/-- A report with the severity of its cause. The board's fabric and a die link are their own source (01 R22, R403),
the link under its instance number of 20 R494 (DEDUCED, log 61); the link of a lane die names the partition of its
square (R404). -/
def State.settle (s : State) (rep : Report) (v : Nat) : Report :=
  let rep := { rep with severity := BitVec.ofNat 3 v, status := if v = 0 then 0 else rep.status }
  if rep.cause.toNat = causeLink then
    match (if rep.sourceId.toNat < 48 then s.partOfSquare rep.sourceId.toNat else none) with
    | some p => { rep with sourceKind := 6, partValid := true, part := Fin.ofNat 8 p }
    | none => { rep with sourceKind := 6, partValid := false }
  else if rep.cause.toNat = causeFabric then { rep with sourceKind := 6, sourceId := 0, subId := 0 }
  else rep

/-! ## What a reported condition changes besides its record -/

/-- A square is faulted (04 R121). -/
def State.faultSquare (s : State) (d : Nat) : State :=
  if d < 48 then s.put 0x5000 1 (setBit (s.obj 0x5000 1) d true) else s

/-- The step that met an error is stopped, and its batch step ends (07 R186; 01 R34). -/
def State.stopReported (s : State) (rep : Report) : State :=
  let p := rep.part.val
  match (s.seq p).run with
  | none => s
  | some r =>
    if rep.partValid && decide (r.ctx = rep.ctx) && decide (rep.severity.toNat = 2)
        && ((List.range 32).flatMap (s.seq p).queue).any (fun e => decide (e.index = rep.step.toNat) && !e.cut) then s.failBatch p
    else s

/-- An undecodable unit: in a verified band its entry becomes UNREADABLE, and its block is to be emptied and RETIRED (09
R235); in an open or unverified one it is rebuilt from parity, or copied again (08 R219, 09 R238). -/
def State.unreadable (s : State) (ns lba : Nat) : State :=
  match (s.space ns).head lba with
  | none => s
  | some v =>
    let here := fun (b : Band) => decide (unitBlock v.unit ∈ b.blocks)
    if v.st ≠ .mapped then s
    else if s.media.bands.any (fun b => decide (b.life = .verified ∨ b.life = .victim) && here b) then
      let s := s.loseUnits [(ns, lba, v)]
      s.setMedia { s.media with doomed := if unitBlock v.unit ∈ s.media.doomed then s.media.doomed else s.media.doomed ++ [unitBlock v.unit] }
    else if s.media.bands.any here then s.recover [(ns, lba, v)]
    else s

/-- The band that is not verified yet in which a block is. -/
def Media.unverified (m : Media) (block : Nat) : Option Band :=
  m.bands.find? (fun b => decide (b.life = .opened ∨ b.life = .closed) && decide (block ∈ b.blocks ∨ block ∈ b.failed))

/-- Is an undecodable unit that a report names one that is rebuilt, from parity or its source, so that nothing is uncorrectable (08
R219)? -/
def State.rebuilds (s : State) (rep : Report) : Bool :=
  let a := rep.address.toNat
  let ns := bits a 47 42
  let lba := bits a 36 0
  decide (rep.cause.toNat = causeFlash) && (if bitOf rep.detail.toNat 0 then
      s.media.upper.has (regionKey ns lba) && (s.media.unverified (unitBlock (upperUnit (s.media.upper.get 0 (regionKey ns lba))))).isSome
    else match (s.space ns).head lba with
      | some v => decide (v.st = .mapped) && (s.media.unverified (unitBlock v.unit)).isSome && (v.source.isSome || !s.media.rowLost v)
      | none => false)

/-- The map segment of a region cannot be read (16 R409): in a band that is not verified it is rebuilt from parity and written back
elsewhere (08 R219); otherwise it stays so until it is written again. -/
def State.loseSegment (s : State) (key : Nat) : State :=
  let u := upperUnit (s.media.upper.get 0 key)
  if !s.media.upper.has key then s
  else match s.media.unverified (unitBlock u) with
  | some b => ((s.rebuildReads b u).soil key).bump 0x4040 4 1
  | none => s.setMedia { s.media with badSegs := if key ∈ s.media.badSegs then s.media.badSegs else s.media.badSegs ++ [key] }

/-- The block of the unit that a report of an undecodable unit names, if the map has one. -/
def State.blockOf (s : State) (rep : Report) : Option Nat :=
  let a := rep.address.toNat
  let key := regionKey (bits a 47 42) (bits a 36 0)
  if bitOf rep.detail.toNat 0 then (if s.media.upper.has key then some (unitBlock (upperUnit (s.media.upper.get 0 key))) else none)
  else match (s.space (bits a 47 42)).head (bits a 36 0) with
    | some v => if v.st = .mapped then some (unitBlock v.unit) else none
    | none => none

/-- The 16 reads of a unit that no set decodes (08 R219): each is a read of its block (09 R230, R233) and a slot of its channel,
charged to the partition or the port that the report names. -/
def State.readFails (s : State) (rep : Report) : State :=
  let s := (match s.blockOf rep with
    | some k => s.touchBlock k 16
    | none => s).bump 0x4040 3 15
  if rep.partValid then s.charge rep.part.val 4 (channelTime 16)
  else if rep.portValid then s.chargeIo rep.port.val 4 (channelTime 16)
  else s

/-- An uncorrectable word of a lane die (04 R118; 05 R137): a word of the lane weight store under its window address,
or, by SUB_ID, 1 of the operand buffer under its byte offset, 2 an accumulator entry under entry * 64 + lane, 3 a word
of the scale registers under (context * 2 + bank) * 16384 + byte. The spec does not number the units (DESIGN CHOICE,
log 85). -/
def Die.spoil (d : Die) (unit a : Nat) : Die :=
  let add := fun (l : List Nat) (x : Nat) => if x ∈ l then l else x :: l
  if unit = 1 then { d with badOb := add d.badOb (a % obBytes / 8 * 8) }
  else if unit = 2 then { d with badAcc := add d.badAcc (a % 4096) }
  else if unit = 3 then { d with badScale := add d.badScale (a % 524288 / 8 * 8) }
  else if windowFirst ≤ a then { d with badLws := add d.badLws (a % lwsBytes / 8 * 8) }
  else d

/-- An uncorrectable block of the reserved region outside the write buffer that flash translation met: nothing stops, the segment in
its slot is read again from flash, which counts as every segment read does, and the block is sound (07 R186; 08 R204, R208). The upper
entries are read again from their checkpoint; parity, superseded versions and records are formed again (log 119). -/
def State.badCache (s : State) (a : Nat) : State :=
  let slot := (a - cacheFirst) / 2048
  let s := s.setFabric { s.fabric with bad := s.fabric.bad.filter (fun b => decide (b ≠ a)) }
  match s.media.cache.find? (fun k => decide (cacheFirst ≤ a) && decide (Config.segSlot k % segSlots = slot)) with
  | some k => if s.media.upper.has k then ((s.readIn (unitBlock (upperUnit (s.media.upper.get 0 k)))).1).bump 0x4010 3 1 else s
  | none => s

/-- Does an address lie in the upper entries, in the parity, segment versions and band records that are kept in the reserved region, or
in the segment cache (08 R204)? -/
def inMapCache (a : Nat) : Bool :=
  within a 1 0x7800000000 0x100000000 || within a 1 0x7A00000000 0x80000000 || within a 1 cacheFirst (nearEnd - cacheFirst)

/-- An uncorrectable block of a tier. -/
def State.badBlock (s : State) (a : Nat) (read : Bool) : State :=
  if inBuffer a then s.badBuffer a read
  else if inMapCache a && read then s.badCache a
  else if inTiers a then s.markBad a
  else s

/-- The condition behind a report. -/
def State.condition (s : State) (rep : Report) : State :=
  let c := rep.cause.toNat
  let a := rep.address.toNat
  if c = causeMem ∨ c = causeScrub then
    s.badBlock (a / guardUnit a * guardUnit a) (decide (c = causeMem))
  else if c = causeLane then
    (if rep.sourceId.toNat < 48 then s.setDie rep.sourceId.toNat ((s.die rep.sourceId.toNat).spoil rep.subId.toNat a) else s)
  else if c = causeBuffer then s.loseBuffer (bits a 47 42) (bits a 36 0)
  else if c = causeFlash then
    (if bitOf rep.detail.toNat 0 then (s.readFails rep).loseSegment (regionKey (bits a 47 42) (bits a 36 0))
      else (s.readFails rep).unreadable (bits a 47 42) (bits a 36 0))
  else if c = causeLaneTest ∨ (c = causeLink ∧ rep.sourceId.toNat < 48) then s.faultSquare rep.sourceId.toNat
  else if c = causeSelftest then
    let v := s.obj 0x3000 2
    let k := rep.sourceId.toNat
    let pc := rep.subId.toNat
    s.put 0x3000 2 (
      if rep.sourceKind.toNat = 1 then (if bitOf v 31 then v else v + 2 ^ 31 + field 4 20 k + field 4 16 pc)
      else if rep.sourceKind.toNat = 2 then (if bitOf v 30 then v else v + 2 ^ 30 + field 3 13 k + field 4 9 pc)
      else setBit v 29 true)
  else if c = causeLife ∧ rep.severity.toNat = 4 ∧ rep.subId.toNat < 64 then
    s.put 0xA040 1 (setBit (s.obj 0xA040 1) rep.subId.toNat true)
  else s

/-- ERROR_RECORD_RAISE (R399). A unit that is rebuilt is no error: nothing is recorded and nothing stops (08 R219). -/
def execErrorRecordRaise (rep : Report) (s : State) : Host.Outcome State Fault Refusal :=
  match s.severityOf rep with
  | none => .next s
  | some v =>
    let rep := s.settle rep v
    if s.rebuilds rep then .next (s.condition rep)
    else .next (((s.condition rep).stopReported rep).raiseAs rep false 0)

/-! ## Classification (R407, R408) -/

/-- The QUEUED record that is classified next: the highest severity, and the lowest SEQ in it. -/
def State.nextQueued (s : State) : Option Rec :=
  let age := fun (r : Rec) => (s.errors.next - r.seq).toNat
  (s.errors.ring.filter (fun e => decide (e.2.st = .queued))).foldl (fun best e => match best with
    | none => some e.2
    | some b =>
      if b.rep.severity.toNat < e.2.rep.severity.toNat ∨ (b.rep.severity = e.2.rep.severity ∧ age b < age e.2) then some e.2
      else best) none

/-- A HANDLING record that satisfies `f`. -/
def State.handlingRec (s : State) (f : Rec → Bool) : Option Rec :=
  (s.errors.ring.find? (fun e => decide (e.2.st = .handling) && f e.2)).map Prod.snd

/-- A record becomes ABSORBED by another. -/
def State.absorb (s : State) (r : Rec) (by' : BitVec 32) : State := s.putRec { r with st := .absorbed, related := by' }

/-- Does a DEVICE error lead to SAFE (R402, R404)? -/
def toSafe (rep : Report) : Bool :=
  decide (rep.cause.toNat = causeFabric) || decide (rep.cause.toNat = causeSelftest)
    || (decide (rep.cause.toNat = causeLink) && inRange rep.sourceId.toNat 48 55)

/-- SAFE is entered (R402): the DEVICE record is copied first (R415), then the buffer is flushed as on power loss (R217); writes
that have accepted something get no record; every other command that is not served ends with ACCESS_DENIED. -/
def State.enterSafe (s : State) : State :=
  let s := s.each (s.taken.filter (fun k => !decide ((s.tset k).opcode = 0x01 ∨ (s.tset k).opcode = 0x02))) (fun s k =>
    let t := s.tset k
    if opWrite t.opcode ∧ (t.due = some stOk ∨ t.count ≠ 0) then s.setTset k { t with due := none, started := false }
    else if t.due = none ∧ (!opPartition t.opcode ∨ t.opcode = 0x20) then s.postLater k stDenied t.progress 0
    else s)
  (s.setErrors { s.errors with device := 2 }).persistDevice.flushBuffer

/-- A DEVICE record is handled at once (R401, R407 case 1). -/
def State.deviceError (s : State) (r : Rec) : State :=
  let s := (s.absorbAll r.seq).putRec { r with st := .handling }
  let s := s.stopCompute.freezeAll
  if toSafe r.rep then s.enterSafe
  else if s.errors.device = 0 then s.setErrors { s.errors with device := 1 } else s

/-- Is a reset of a partition to come or under way: the record that handles it, if one does. -/
def State.resetRec (s : State) (p : Nat) : Option Rec :=
  s.handlingRec (fun r => decide (r.rep.severity.toNat = 4)
    || (decide (r.rep.severity.toNat = 3) && r.rep.partValid && decide (r.rep.part.val = p)))

/-- A second CONTEXT record in a partition, about another context (R407 case 2). -/
def State.escalate (s : State) (r first : Rec) : State :=
  let n := s.errors.next
  let rep : Report := repInPart (report causeEscalation r.rep.sourceKind.toNat r.rep.sourceId.toNat 3 stTornDown) r.rep.part
  let s := (s.absorb r n).absorb first n
  let s := s.raiseAs { rep with detail := Config.recordDetail s.free } true r.seq
  match s.errors.ring.find? (fun e => decide (e.2.seq = n)) with
  | none => s
  | some e => (s.putRec { e.2 with st := .handling }).setPart r.rep.part.val { s.part r.rep.part.val with resetDue := true }

/-- Classify a record against those that are HANDLING (R407). -/
def State.classify (s : State) (r : Rec) : State :=
  let v := r.rep.severity.toNat
  let p := r.rep.part.val
  if v = 4 then s.deviceError r
  else if v ≤ 1 then s.putRec { r with st := .done }
  else if !r.rep.partValid then s.putRec { r with st := .handling }
  else match s.resetRec p with
    | some x => s.absorb r x.seq
    | none =>
      if v = 3 then (s.putRec { r with st := .handling }).setPart p { s.part p with resetDue := true }
      else match s.handlingRec (fun x => decide (x.rep.severity.toNat = 2) && x.rep.partValid && decide (x.rep.part.val = p)) with
        | none => s.putRec { r with st := .handling }
        | some x => if x.rep.ctx = r.rep.ctx then s.absorb r x.seq else s.escalate r x

/-- RECORD_CLASSIFY (R407): the first of the QUEUED records. -/
def execRecordClassify (s : State) : Host.Outcome State Fault Refusal :=
  match s.nextQueued with
  | none => .next s
  | some r => .next (s.classify r)

/-- The teardowns that CONTEXT records have scheduled for a boundary (R398, R68). -/
def State.errorTeardowns (s : State) : State :=
  s.each (s.errors.ring.filter (fun e => decide (e.2.st = .handling) && decide (e.2.rep.severity.toNat = 2) && e.2.rep.partValid))
    (fun s e => s.teardown e.2.rep.part.val e.2.rep.ctx.val)

/-- At the end of a boundary's completion window every action is complete (R399). -/
def State.recordsDone (s : State) : State :=
  s.setErrors { s.errors with ring := s.errors.ring.mapVals (fun _ r => if r.st = .handling then { r with st := .done } else r) }

/-! ## Persistent pages (R413, R415) -/

/-- RECORD_PERSISTED (R415): a record that waits to be copied goes to page 1 or 2. -/
def execRecordPersisted (seq : BitVec 32) (s : State) : Host.Outcome State Fault Refusal :=
  let e := s.errors
  if seq ∉ e.toCopy then .next s
  else .next (s.persist seq)

end Sys2Proof.Machine
end

