-- ==== Sys2Proof/Machine/Power.lean ====
section
/-! DEFINITION. Power states and their transitions (17 R419 to R423), the throttles (R421, R425), temperatures and the
trip (R424, R426), the hold-up bank (R430), and the inputs that raise a warning or a reset (R427 to R433). -/

namespace Sys2Proof.Machine

/-! ## Power states (R419, R420) -/

/-- Guaranteed arithmetic clock of a state in MHz; 0 with compute off. -/
def guaranteed (state : Nat) : Nat := if state = 0 then 1000 else if state ≤ 2 then 730 else 0

/-- Cap on input power in mW. -/
def capOf (state : Nat) : Nat :=
  if state = 0 then 1600000 else if state = 1 then 1200000 else if state = 2 then 800000 else 300000

/-- Report the outcome of a request. -/
def State.requestResult (s : State) (v : Nat) : State := s.put 0x7000 3 v

/-- A state governs from a boundary: squares that it gates are gated, those it no longer gates begin to be ungated. -/
def State.enterState (s : State) (v : Nat) : State :=
  let old := s.power.state
  let s := s.gate (Nat.land (gatedBy v) (0xFFFFFFFFFFFF - gatedBy old))
  (s.updPower (fun p => { p with
    ungating := Nat.land (Nat.lor p.ungating (gatedBy old)) (0xFFFFFFFFFFFF - gatedBy v)
    state := v })).put 0x7000 5 (guaranteed v)

/-- Does R60 forbid a change to a state? -/
def State.stateBlocked (s : State) (v : Nat) : Bool :=
  (List.range 8).any (fun p => (s.part p).active && (meets (s.part p).defn.squares (gatedBy v) || decide (3 ≤ v)))

/-- The steps down of the clock that a request to P3 or below makes on its way through P1 or P2, from the setting in force to
their guaranteed clock (R420, R421), counted as the request takes effect (log 106). -/
def State.passSteps (s : State) : State :=
  if s.power.state ≤ 1 then s.bump 0x7000 8 ((s.obj 0x7000 4 - guaranteed 1) / 5) else s

/-- STATE_REQUEST at its boundary (R420). -/
def State.stateRequest (s : State) (v : Nat) : State :=
  if 5 < v then s.requestResult 1
  else if s.stateBlocked v then s.requestResult 2
  else if s.power.target.isSome || s.media.sanitize.isSome || decide (s.hold ≠ 0) then s.requestResult 3
  else if v = s.power.state then s.requestResult 0
  else
    let s := (s.updPower (fun p => { p with target := some v })).requestResult 4
    if 4 ≤ s.power.state then s
    else if v ≤ 2 then s.enterState v
    else if v = 3 then s.passSteps.enterState 3
    else (if s.power.state = 3 then s else s.passSteps.enterState 3).updPower (fun p => { p with waitP4 := true })

/-- The clock has moved to a state's setting, unless a thermal throttle holds it lower, by no more than its floor (R425); each
step down counts. The board's clock of P3 is fixed (R419). -/
def State.settleClock (s : State) (v : Nat) : State :=
  let old := s.obj 0x7000 4
  let goal := if v ≤ 2 then guaranteed v else if v = 3 then 400 else 0
  let new := if s.power.thermal && decide (v ≤ 2) then min (max old 200) goal else goal
  let s := s.put 0x7000 4 new
  if v ≤ 2 then s.bump 0x7000 8 ((old - new) / 5) else s

/-- P5: the 48 V domains are off, the ports DOWN, the tiers' contents are lost (R419), and ALERT# is asserted, for the power state
has changed (14 R369). -/
def State.enterP5 (s : State) : State :=
  let s := s.portsOff.put 0xA020 1 s.shownDebug
  ((s.setFabric Fabric.zeroed).updPower (fun p => { p with
    state := 5, railsUp := false, alert := true })).put 0x7000 5 0

/-- POWER_TRANSITION_DONE (R420). -/
def execPowerTransitionDone (s : State) : Host.Outcome State Fault Refusal :=
  match s.power.target with
  | none => .next s
  | some v =>
    if s.power.waitP4 then .next s
    else
      let s := if s.power.state = 4 then (if v = 5 then s.enterP5 else s.enterState v) else s
      .next ((((s.settleClock v).updPower (fun p => { p with target := none })).requestResult 0).belowNow)

/-- P4_ENTRY_COMPLETE (R423): the map is written back and checkpointed, and P4 is entered. -/
def execP4EntryComplete (s : State) : Host.Outcome State Fault Refusal :=
  if s.power.waitP4 && s.p4Ready then
    let s := s.setMedia (s.media.writeAll s.clock.now s.tick)
    let s := ((s.updPower (fun p => { p with state := 4, waitP4 := false })).put 0x7000 4 0).put 0x7000 5 0
    .next (if s.power.target = some 4 then (s.updPower (fun p => { p with target := none })).requestResult 0 else s)
  else .next s

/-! ## The throttle on input power (R421, R425) -/

/-- One step down, to a floor. -/
def State.clockDown (s : State) (floor : Nat) : State :=
  let c := s.obj 0x7000 4
  if c ≤ floor then s else (s.put 0x7000 4 (max floor (c - 5))).bump 0x7000 8 1

/-- One step up after ten samples. -/
def State.clockUp (s : State) : State :=
  let n := s.power.rise + 1
  if n < 10 then s.updPower (fun p => { p with rise := n })
  else (s.updPower (fun p => { p with rise := 0 })).put 0x7000 4 (min 1000 (s.obj 0x7000 4 + 5))

/-- What a sample of input power does to the clock: `avg` is its mean over 1 ms. -/
def State.throttle (s : State) (avg : Nat) : State :=
  let cap := capOf s.power.state
  if !s.power.railsUp || decide (2 < s.power.state) || s.power.target.isSome || s.power.warned then s
  else if cap < avg then s.clockDown 0
  else if s.power.falling then s.clockDown 200
  else if !s.power.thermal && decide (avg * 100 < cap * 97) then s.clockUp
  else s.updPower (fun p => { p with rise := 0 })

/-- POWER_SAMPLE (R421): one sample in 10 us; the mean is over the last hundred. In P5 the objects stay as last held (14 R368). -/
def execPowerSample (milliwatts millivolts : Nat) (s : State) : Host.Outcome State Fault Refusal :=
  if !s.power.aux then .next s
  else
    let l := (milliwatts :: s.power.samples).take 100
    let avg := l.foldl (· + ·) 0 / l.length
    let s := s.updPower (fun p => { p with samples := l })
    let s := if s.power.state = 5 then s else (s.put 0x7000 6 avg).put 0x7000 7 millivolts
    .next (s.throttle avg).belowNow

/-! ## Temperatures (R424 to R426, R442) -/

/-- A sensor's reading in units of 0.01 degrees: its row in R424, value, throttle and trip temperature (no trip for the
coolant, whose reading at its throttle temperature is a record only), and whether it is powered. -/
structure Sensor where
  row : Nat
  value : Int
  hot : Int
  trip : Option Int
  powered : Bool

/-- The sensors of R424, the two kinds of stack apart. -/
def State.sensors (s : State) (t : Temps) : List Sensor :=
  let on := s.power.railsUp
  [⟨0, t.lane, 10000, some 11000, on && decide (s.power.state ≤ 2)⟩, ⟨1, t.base, 10000, some 11000, on⟩,
    ⟨2, t.near, 9000, some 10000, on⟩, ⟨2, t.far, 9000, some 10000, on⟩, ⟨3, t.media, 10000, some 11000, on⟩,
    ⟨4, t.nand, 7000, some 8500, on⟩, ⟨5, t.optic, 7500, some 8500, on⟩, ⟨6, t.mgmt, 11500, some 11500, true⟩]

/-- Does a sensor throttle the clock: a die or a stack (R425)? -/
def Sensor.clocks (x : Sensor) : Bool := decide (x.row ≤ 3 ∨ x.row = 5)

/-- Is a sensor at its trip temperature? -/
def Sensor.trips (x : Sensor) : Bool := x.powered && (match x.trip with
  | some t => decide (t ≤ x.value)
  | none => false)

/-- Is a sensor 15 K below it (R426), powered or not? -/
def Sensor.safe (x : Sensor) : Bool := match x.trip with
  | some t => decide (x.value + 1500 ≤ t)
  | none => true

/-- A throttle episode starts on a row: a record, at most one a second. -/
def State.throttleRecord (s : State) (row : Nat) : State :=
  let near := match s.power.thermAt with
    | none => false
    | some t => decide (s.clock.now < t + oneSecond)
  if near then s else (s.thermal (1 + 256 * row) 0).updPower (fun p => { p with thermAt := some s.clock.now })

/-- The readings of the sensors in TEMP, as 32-bit numbers; in P5 it stays as last held (14 R368). -/
def State.putTemps (s : State) (t : Temps) : State :=
  if s.power.state = 5 then s else s.each [t.lane, t.base, t.near, t.far, t.media, t.nand, t.optic, t.mgmt, t.inlet, t.outlet].zipIdx (fun s e =>
    s.put 0x7010 (e.2 + 1) (e.1 % 4294967296).toNat)

/-- Throttles begin, go on and end; the management die has no throttle temperature (R424). -/
def State.thermalNow (s : State) (l : List Sensor) (inlet : Int) : State :=
  let hot := l.filter (fun x => x.powered && x.clocks && decide (x.hot ≤ x.value))
  let cool := l.all (fun x => !x.powered || decide (x.row = 6) || decide (x.value + 300 ≤ x.hot))
  let nand := l.any (fun x => x.powered && decide (x.row = 4) && decide (x.hot ≤ x.value))
  let old := s.power
  let s := match hot with
    | x :: _ => if old.thermal then s else s.throttleRecord x.row
    | [] => s
  let s := if nand && !old.nandHot then s.throttleRecord 4 else s
  let s := if decide (4500 ≤ inlet) && !old.coolant then s.thermal 3 0 else s
  s.updPower (fun p => { p with
    falling := !hot.isEmpty, thermal := !hot.isEmpty || (old.thermal && !cool)
    nandHot := nand, coolant := decide (4500 ≤ inlet) })

/-- Objects of the sideband's subset that a reset would clear and that P5 goes on showing as last held (14 R368). -/
def heldObjs : List (Nat × Nat) := (0x5000, 1) :: (0xA030, 5) :: (0x7000, 6) :: (0x7000, 7) :: (List.range 10).map (fun i => (0x7010, i + 1))

/-- The 48 V domains go off and P5 is entered, with a reset source (R426, R429); the power state has changed, and ALERT# says so
(14 R369). -/
def State.powerOff (s : State) (source : Nat) : State :=
  let t := (s.moduleReset source).updPower (fun p => { p with state := 5, alert := true })
  (t.each heldObjs (fun t o => t.put o.1 o.2 (s.obj o.1 o.2))).put 0xA020 1 s.shownDebug

/-- A trip (R426). -/
def State.trip (s : State) : State :=
  ((s.thermal 2 4).updPower (fun p => { p with tripped := true })).powerOff 5

/-- A reset is asked for: it is held while THERMTRIP# is asserted (R426). -/
def State.askReset (s : State) (source : Nat) : State :=
  if s.power.tripped then s.updPower (fun p => { p with heldReset := some source }) else s.moduleReset source

/-- The reset that waited for THERMTRIP# to be released (R426). -/
def State.freeReset (s : State) : State := match s.power.heldReset with
  | some n => if s.power.tripped then s else s.moduleReset n
  | none => s

/-- THERMAL_SAMPLE (R424): one reading in 1 ms; two readings at a trip temperature in a row are a trip. THERMTRIP# is released once
every sensor reads 15 K below its trip temperature, and a reset that waited for it follows (R426).
In P5 a limit that is crossed asserts ALERT# (14 R369). -/
def execThermalSample (temps : Temps) (s : State) : Host.Outcome State Fault Refusal :=
  if !s.power.aux then .next s
  else
    let l := s.sensors temps
    let hot := (l.zipIdx.filter (fun e => e.1.trips)).map Prod.snd
    let trip := hot.any (fun i => decide (i ∈ s.power.hot)) && !s.power.tripped
    let old := s.power
    let s := (s.putTemps temps).thermalNow l temps.inlet
    let cross := decide (s.powerState = 5) && (decide (hot ≠ old.hot) || decide (s.power.coolant ≠ old.coolant))
    let s := s.updPower (fun p => { p with
      hot := hot, tripped := p.tripped && !l.all Sensor.safe, alert := p.alert || cross })
    .next (if trip then s.trip else s.freeReset)

/-! ## The hold-up bank (R430) -/

/-- BUFFER_LIMIT in MiB of a usable energy in mJ. -/
def limitOf (millijoules : Nat) : Nat :=
  if 9000 ≤ millijoules then 2048 else if 4000 ≤ millijoules then 512 else if 1000 ≤ millijoules then 64 else 0

/-- The limit changes; lowering it is recorded. A full bank of the measured capacitance, from 48 V to 36 V, must give
9.0 J for more than 512 MiB. -/
def State.setLimit (s : State) (millijoules : Nat) : State :=
  let c := s.obj 0x7020 3
  let n := if c ≠ 0 ∧ c * 504 < 9000000 then min 512 (limitOf millijoules) else limitOf millijoules
  let old := s.obj 0x7020 4
  let s := s.put 0x7020 4 n
  if n < old then s.thermal 6 0 else s

/-- BANK_MEASURE (R430). -/
def execBankMeasure (microfarads millijoules millivolts : Nat) (s : State) : Host.Outcome State Fault Refusal :=
  if s.power.railsUp then
    .next ((((s.put 0x7020 1 millivolts).put 0x7020 2 millijoules).put 0x7020 3 microfarads).setLimit millijoules)
  else .next s

/-- BANK_FULL (R434). -/
def execBankFull (millijoules : Nat) (s : State) : Host.Outcome State Fault Refusal :=
  if s.power.railsUp then .next ((s.put 0x7020 2 millijoules).setLimit millijoules) else .next s

/-! ## Warnings (R427 to R429) -/

/-- PWRFAIL_ASSERT. -/
def execPwrfailAssert (s : State) : Host.Outcome State Fault Refusal :=
  .next (s.updPower (fun p => { p with failLow := true })).warn

/-- PRESENT_REMOVED (R417). -/
def execPresentRemoved (s : State) : Host.Outcome State Fault Refusal :=
  .next (s.updPower (fun p => { p with absent := true })).warn

/-- INPUT_OUT_OF_RANGE (R417). -/
def execInputOutOfRange (s : State) : Host.Outcome State Fault Refusal :=
  .next (s.updPower (fun p => { p with badInput := true })).warn

/-- FLUSH_COMPLETE (R428): the flush has ended `micros` after the warning. -/
def execFlushComplete (micros : Nat) (s : State) : Host.Outcome State Fault Refusal :=
  if s.power.warned && !s.power.flushed then .next (s.flushed.put 0x7020 6 micros) else .next s

/-- POWER_RESUME (R429): the input is back in time; partitions are reset, and the module is HALTED. -/
def execPowerResume (s : State) : Host.Outcome State Fault Refusal :=
  if s.power.warned && s.power.flushed then
    let s := s.updPower (fun p => { p with warned := false, flushed := false, failLow := false, absent := false, badInput := false })
    let s := if s.errors.device = 0 then s.setErrors { s.errors with device := 1 } else s
    .next (s.thermal 5 0)
  else .next s

/-- BANK_EXHAUSTED (R429, R433). -/
def execBankExhausted (s : State) : Host.Outcome State Fault Refusal :=
  if s.power.warned then .next (s.powerOff (if s.power.absent then 7 else 4)) else .next s

/-! ## Resets (R432, R433) -/

/-- RESET_ASSERT: RESET# is low (R432); while THERMTRIP# is asserted the reset is held (R426). -/
def execResetAssert (s : State) : Host.Outcome State Fault Refusal :=
  if s.power.aux then .next ((s.updPower (fun p => { p with resetLow := true })).askReset 2) else .next s

/-- MGMT_WATCHDOG: Yilry is restarted by a module reset. -/
def execMgmtWatchdog (s : State) : Host.Outcome State Fault Refusal :=
  if s.power.aux then .next (s.askReset 6) else .next s

/-- AUX_POWER_ON: AUX3V3 is applied, and the slot's identification is read (20 R479, R484). -/
def execAuxPowerOn (slotId : BitVec 3) (s : State) : Host.Outcome State Fault Refusal :=
  if s.power.aux then .next s
  else .next (((s.updPower (fun p => { p with aux := true })).moduleReset 1).updPower (fun p => { p with ids := slotId }))

/-- AUX3V3_LOSS: nothing on the module runs (R417); what waits to be copied to the persistent pages is lost with it,
and the bus interface that ALERT# belongs to is off. -/
def execAux3v3Loss (s : State) : Host.Outcome State Fault Refusal :=
  if s.power.aux then
    let s := (s.setErrors { s.errors with toCopy := [] }).updPower (fun p => { p with railsUp := false })
    .next ((s.moduleReset 1).updPower (fun p => { p with aux := false, stage := 0, alert := false }))
  else .next s

end Sys2Proof.Machine
end

