-- ==== Sys2Proof/Machine/Boundary.lean ====
section
/-! DEFINITION. The boundary of a tick (01 R29 to R36), in its order: what governs changes, the map is published, the
controls are carried out, banks are swapped, outputs are published, records are posted, freezes are set, and the status
words are written. -/

namespace Sys2Proof.Machine

/-! ## Time and values that govern (R29; 14 R356; 10 R268; 13 R345) -/

/-- The tick pulse: the epoch advances, one base tick after the last boundary. -/
def State.advance (s : State) : State :=
  let at' := s.clock.boundaryAt + s.tickUnits
  s.setClock { s.clock with now := max s.clock.now at', boundaryAt := at', epoch := s.clock.epoch + 1 }

/-- The ON_BOUNDARY source of the counters' freeze (19 R467). -/
def State.boundarySource (s : State) : State :=
  if s.tick = s.gov 0x9001 3 then s.freezeSource 0 s.clock.boundaryAt else s

/-- Does this boundary tear a context down (02 R68)? By a reset of its partition, a record, or a CONTEXT command. -/
def State.tornNow (s : State) (p n : Nat) : Bool :=
  (s.part p).resetDue
    || s.errors.ring.any (fun e => decide (e.2.st = .handling) && decide (e.2.rep.severity.toNat = 2) && e.2.rep.partValid
      && decide (e.2.rep.part.val = p) && decide (e.2.rep.ctx.val = n))
    || s.contextCommands.any (fun k => decide (bits ((s.tset k).reg 1) 63 62 = 3) && decide ((s.tset k).partNo = p)
      && decide ((s.tset k).ctxNo = n) && s.partLists p (keyPort k))

/-- Batch steps that have not reached END at the end of their move period (02 R50). One of a context that the boundary
tears down is cut by the teardown, and its command ends with CONTEXT_TORN_DOWN (R68; DEDUCED, log 59). -/
def State.overrunsNow (s : State) : State :=
  s.each (List.range 8) (fun s p => match (s.seq p).run with
    | none => s
    | some r => if (s.seq p).periodEnd ≤ s.clock.boundaryAt ∧ !s.tornNow p r.ctx.val then
        s.overrun p s.tick ((s.seq p).inProgress r) else s)

/-- The four objects of a partition's check-value slot. -/
def ckSubs : List Nat := [1, 2, 3, 4]

/-- Writes to a partition's check-value slot take effect together, or none does. -/
def State.ckNow (s : State) (p : Nat) : State :=
  let idx := 0x6020 + p
  let new : CkCfg := ⟨bits (s.obj idx 4) 6 0, s.obj idx 1, s.obj idx 2, bitOf (s.obj idx 4) 7, bitOf (s.obj idx 4) 8, s.obj idx 3⟩
  if ckSubs.all (fun n => decide (s.obj idx n = s.gov idx n)) then s
  else if new.ok then (s.put idx 5 (ckValue new ckSample)).put idx 6 s.tick
  else s.each ckSubs (fun s n => s.put idx n (s.gov idx n))

/-- Every accepted value governs; a port whose LOOPBACK changed retrains. -/
def State.govern (s : State) : State :=
  let s := s.each (List.range 8) State.ckNow
  let changed := ([0, 1, 2, 3] : List Port).filter (fun x => decide (s.obj (0x1110 + x.val) 6 ≠ s.gov (0x1110 + x.val) 6))
  let s := s.updDict (fun d => { d with gov := d.objs, govDoms := d.doms })
  s.each changed State.retrain

/-! ## Read-only (09 R240) -/

/-- Commands that wait and would write flash end: writes that have not started, and those that wait for credits (R241). -/
def State.endWaitingWrites (s : State) : State :=
  s.each (s.taken.filter (fun k => decide ((s.tset k).opcode = 0x11) && (!(s.tset k).started || s.withheld) && decide ((s.tset k).due = none)))
    (fun s k => s.postLater k stReadOnly (s.tset k).count 0)

/-- Fewer than 64 spares are left: read-only begins, and every open band is padded and closed, all at once, although R216 lets
only 64 closed bands wait (DESIGN CHOICE, log 119). -/
def State.readOnlyNow (s : State) : State :=
  if s.media.readOnly || decide (64 ≤ s.obj 0x4060 4) then s
  else
    let s := (s.setStage 3 true).put 0x4060 0x0D s.tick
    let m := s.media
    (s.setMedia { m with
      readOnly := true
      bands := m.bands.map (fun b => if b.life = .opened then { b.pad with life := .closed } else b) }).endWaitingWrites

/-! ## Namespaces (08 R209, R210, R229) -/

/-- Does the command of a set name namespace `n`, or hold a snapshot of it? -/
def State.usesSpace (s : State) (k n : Nat) : Bool :=
  let t := s.tset k
  s.holdsSpace k n || (t.namesNs && (decide ((t.opcode < 0x30 ∨ t.reg 7 ≠ 0) ∧ t.nsNo = n)
    || (decide (t.opcode = 0x30) && decide (n ∈ s.flashSpaces t.partNo t.ctxNo))))

/-- Report the result of a create. -/
def State.createResult (s : State) (n v : Nat) : State := s.put (0x4100 + n) 7 v

/-- The first failing check of a create, or 0. -/
def State.createFault (s : State) (n : Nat) : Nat :=
  if (s.space n).life ≠ .absent then 6
  else if s.nsSize n = 0 ∨ s.nsSize n % 262144 ≠ 0 then 2
  else if s.unallocated < s.nsSize n then 3
  else if bits (s.gov (0x4100 + n) 2) 3 0 = 0 then 4
  else if s.media.readOnly then 5
  else 0

/-- A create (R229): every block reads zero, under a new key (18 R458). -/
def State.createSpace (s : State) (n : Nat) : State :=
  let f := s.createFault n
  if f ≠ 0 then s.createResult n f
  else (((s.setSpace n { Namespace.none with life := .active }).drawKey n).put (0x4100 + n) 5 s.tick).createResult n 1

/-- What the media keep of a namespace goes. -/
def Media.forget (m : Media) (n : Nat) : Media :=
  { m with
    spaces := m.spaces.erase n
    pending := m.pending.filter (fun c => decide (c.ns ≠ n))
    moves := m.moves.filter (fun v => decide (v.ns ≠ n))
    pieces := m.pieces.filter (fun p => decide (p.ns ≠ n))
    cache := m.cache.filter (fun k => decide (k / 2 ^ 29 ≠ n))
    dirty := m.dirty.filter (fun k => decide (k / 2 ^ 29 ≠ n))
    upper := m.upper.dropIf (fun k => decide (k / 2 ^ 29 = n))
    badSegs := m.badSegs.filter (fun k => decide (k / 2 ^ 29 ≠ n)) }

/-- A delete (R210): its commands and holders end, those that were to end otherwise at this boundary included; its key is
destroyed, its entries are unmapped. -/
def State.deleteSpace (s : State) (n : Nat) : State :=
  if (s.space n).life = .absent then s
  else
    let s := s.each (s.taken.filter (fun k => s.usesSpace k n)) (fun s k =>
      (s.dropOutputs k).postLater k stDenied (s.tset k).progress 0)
    (s.setMedia (s.media.forget n)).setSecurity
      { s.security with keys := s.security.keys.erase n, cleared := n :: s.security.cleared }

/-! ## The controls of the tick (14 R356) -/

/-- Clear bits of a port's FREEZE (15 R396). -/
def State.unfreeze (s : State) (x v : Nat) : State :=
  let p := s.port x
  s.setPort x { p with
    freeze := p.freeze &&& ~~~ (BitVec.ofNat 10 v)
    freezeAt := p.freezeAt.dropIf (fun n => bitOf v n) }

/-- ATTN_ACK (13 R335). -/
def State.ackWord (s : State) (x v : Nat) : State :=
  s.setPort x { s.port x with word := BitVec.ofNat 16 (clearWord (s.port x).word.toNat v) }

/-- Carry out one control. A TEST_START that the controls before it have made impossible starts nothing (R357; 20 R495). -/
def State.runControl (s : State) (c : Ctl) : State :=
  let v := c.value
  if inRun c.idx 0x2010 8 then s.partControl (c.idx - 0x2010) v
  else if inRun c.idx 0x1110 4 then
    (if c.sub = 5 then s.portControl (Fin.ofNat 4 (c.idx - 0x1110)) v
     else if c.sub = 9 then s.ackWord (c.idx - 0x1110) v else s)
  else if inRun c.idx 0x1420 4 then s.unfreeze (c.idx - 0x1420) v
  else if inRun c.idx 0x4100 64 then (if v = 1 then s.createSpace (c.idx - 0x4100) else s.deleteSpace (c.idx - 0x4100))
  else if c.idx = 0x7000 then s.stateRequest v
  else if c.idx = 0x9001 then s.armFreeze
  else if c.idx = 0x9050 then (if c.sub = 1 then s.testHold v else if s.testAllowed c.port v then s.startTest v else s)
  else s

/-- The controls of the tick, in acceptance order. -/
def State.controlsNow (s : State) : State :=
  (s.updDict (fun d => { d with ctl := [] })).each s.dict.ctl State.runControl

/-! ## Sanitize (15 R384) -/

/-- Blocks that had failed and blocks that were being emptied for retirement are RETIRED before every other block is
erased (09 R235, R237). -/
def State.retireBad (s : State) : State :=
  let s := s.each (s.media.bands.flatMap Band.failed) (fun s k => s.retire k 5)
  s.each (s.media.evac.filter Evac.retire) (fun s e => s.retire e.block 7)

/-- A sanitize begins; a crypto erase ends here too. -/
def State.sanitizeNow (s : State) : State :=
  match s.media.sanitize with
  | none => s
  | some z =>
    if z.begun then s
    else if z.crypto then
      let s := s.cryptoErase
      let s := s.setMedia { s.media with sanitize := none, sanitized := 2 }
      match z.key with
      | some k => s.postLater k stOk 0 0
      | none => s
    else
      let s := s.endHolders.unmapAll.retireBad
      s.setMedia { s.media with
        sanitize := some { z with begun := true }
        bands := [], evac := [], claims := []
        erasing := s.media.erasing.filter (fun e => e.issued) }

/-! ## Publication of batch steps (01 R34; 15 R389, R391) -/

/-- Batch steps whose command ends at this boundary are cut. -/
def State.dropEnded (s : State) : State :=
  s.each (List.range 8) (fun s p => match (s.seq p).run with
    | none => s
    | some r => if (s.tset r.key).due.isSome then (s.cutSteps p (fun _ => true)).dropRun p else s)

/-- Results of a query that are short, counted by their headers (11 R300). -/
def shortQueries (m : Mem) : Nat → Nat → Nat
  | 0, _ => 0
  | n + 1, a =>
    let h := m.num a 16
    let count := bits h 63 32
    (if count < bits h 31 0 then 1 else 0) + shortQueries m n (a + 16 + 8 * count)

/-- The status of a command that has published its last batch step, unless it met uncorrectable data. -/
def TaskSet.endStatus (t : TaskSet) : Nat :=
  if 0 < t.fallbacks then stFallback else if t.opcode = 0x34 then t.verdict else stOk

/-- The last batch step of a command is published: the result span is read, and the command ends. -/
def State.lastPublished (s : State) (k : Nat) : State :=
  let t := s.tset k
  let step := t.missed.getD 0
  if t.opcode = 0x34 then
    let n := bits (t.reg 1) 60 53 + 1
    (s.bump 0x6098 4 (shortQueries t.output n 0)).postLater k t.endStatus n step
  else
    let o := s.resultSpan k
    let s := s.output k o.1 o.2.1
    if o.2.2 then s.postLater k t.endStatus t.published step
    else (s.memRecord k (t.reg 5 + o.2.1)).postLater k stUncorr t.published 0

/-- Publish the batch steps of a command that have ended. REFIT_STEP advances by one at the boundary (12 R305). -/
def State.publishRun (s : State) (k : Nat) : State :=
  let t := s.tset k
  if t.held = 0 then s
  else
    let s := s.setTset k { t with published := t.published + t.held, held := 0, output := t.span, outLen := t.spanLen }
    let s := if t.opcode = 0x33 then
        let c := s.ctx t.partNo t.ctxNo
        s.setCtx t.partNo t.ctxNo { c with refitStep := c.refitStep + 1 }
      else s
    let s := if opTableRun t.opcode && bitOf (t.reg 1) 31 then s.ringDoorbell k else s
    if t.due = none ∧ t.steps ≤ t.published + t.held then s.lastPublished k else s

/-! ## The completion window (15 R374) -/

/-- TAKEN sets that satisfy `f`, in taking order. -/
def State.takenOrder (s : State) (f : Nat → Bool) : List Nat :=
  let l := s.taken.filter f
  kFirst (fun (a b : Nat) => decide ((s.tset a).order < (s.tset b).order)) l.length l

/-- Flushes that are complete end. -/
def State.flushesNow (s : State) : State :=
  s.each (s.taken.filter (fun k => s.runsCmd k 0x14 && decide ((s.tset k).begun = 1) && s.flushDone k))
    (fun s k => s.postLater k stOk 0 0)

/-- Post the records that are due. -/
def State.postAll (s : State) : State :=
  s.each (s.takenOrder (fun k => (s.tset k).due.isSome)) (fun s k =>
    let t := s.tset k
    match t.due with
    | none => s
    | some v => s.post k v (if opTableRun t.opcode then t.published else t.count) t.dueStep)

/-! ## Freezes and the device state (15 R393; 16 R402) -/

/-- Set the bits whose causes came since the last boundary. -/
def State.freezesNow (s : State) : State :=
  s.each (List.range 4) (fun s x =>
    let v := s.port x
    s.setPort x { v with
      freeze := v.freeze ||| v.freezeDue
      freezeAt := (bitsSet (v.freezeDue &&& ~~~ v.freeze).toNat 10).foldl (fun t n => t.set n s.tick) v.freezeAt
      freezeDue := 0 })

/-- A HALTED module returns to NORMAL once no STREAM bit is set and no DEVICE record waits. -/
def State.normalNow (s : State) : State :=
  if s.errors.device = 1 ∧ (List.range 4).all (fun x => !bitOf (s.port x).freeze.toNat 9)
      ∧ !s.errors.ring.any (fun e => e.2.open && decide (e.2.rep.severity.toNat = 4)) then
    s.setErrors { s.errors with device := 0 }
  else s

/-! ## The status words (13 R335; 14 R369) -/

/-- Write the status words: `froze` lists the ports on which a freeze cause set a bit at this boundary. -/
def State.wordsNow (s : State) (froze : List Nat) : State :=
  let before := bits (s.port 0).word.toNat 7 4
  let s := s.each (List.range 4) (fun s x =>
    s.setPort x { s.port x with
      word := BitVec.ofNat 16 (s.wordNow x (decide (x ∈ froze))), evTaken := false, evDb := false })
  let s := s.alertNow before
  s.setErrors { s.errors with evLog := false, evTherm := false, evMedia := false, evLife := false }

/-! ## What ends the boundary -/

/-- The media dies that execute a SCAN or CHECK of a partition: MDm has those of Q(19 + m) (03 R82). -/
def State.mediaSources (s : State) (p : Nat) : List Nat :=
  ((List.range 8).filter (fun m => !((s.seq p).queue (19 + m)).isEmpty)).map (80 + ·)

/-- The messages that a partition's trace sources exchange, recorded by both (19 R470): sender and receiver give the same
sequence. Which there are is free (log 115). -/
def State.traceMessages (s : State) (p : Nat) (l : List Nat) : State :=
  let both := (Config.messages s.free).filter (fun m => decide (m.1 ≠ m.2.1 ∧ m.1 ∈ l ∧ m.2.1 ∈ l))
  s.draw.each both (fun s m =>
    (s.trace p m.1 7 0 0 0 m.2.2.toNat m.2.1).trace p m.2.1 8 0 0 0 m.2.2.toNat m.1)

/-- BOUNDARY trace records of a partition's sources (19 R471), and those of messages. -/
def State.traceBoundary (s : State) (p : Nat) : State :=
  if (s.part p).committed then
    let l := (64 + p) :: s.squaresOf p ++ s.mediaSources p
    (s.each l (fun s src => s.trace p src 5 0 0 0 0 s.tick)).traceMessages p l
  else s

/-- MAINT_ACTIVE of the new tick: a sanitize goes on, and so do the erases that are issued, each for its activity (R249). -/
def Media.activeNow (m : Media) : Nat :=
  (m.erasing.filter Erasing.issued).foldl (fun v e => setBit v e.by' true) (match m.sanitize with
    | some z => if z.begun then 64 else 0
    | none => 0)

/-- ORIGIN trace records of lane dies that are ungated: their timestamps start anew (19 R469, R470). -/
def State.traceOrigins (s : State) (mask : Nat) : State :=
  (s.restartClocks mask).each (List.range 8) (fun s p =>
    if (s.part p).committed then
      s.each ((s.squaresOf p).filter (bitOf mask)) (fun s d => s.trace p d 6 0 0 0 0 0)
    else s)

/-- What is in force from a boundary on by its time alone: a field test that has left is OFF, squares whose transition
has ended are ungated (20 R493, 17 R420). -/
def State.lapses (s : State) : State :=
  let s := if s.hold = 3 then s.setHold 0 else s
  if s.power.target.isNone then (s.traceOrigins s.power.ungating).updPower (fun p => { p with ungating := 0 }) else s

/-- The map of the boundary, unless the module is SAFE (16 R401, R402). -/
def State.mapNow (s : State) : State := if s.errors.device = 2 then s else s.publishMap s.tick

/-- The window of flash translation, management and sequencers: 40 ns to 800 ns. -/
def State.publication (s : State) : State :=
  let s := s.lapses.govern.guardNow.errorTeardowns.partsNow.mapNow.readOnlyNow.controlsNow.transition.sanitizeNow
  let s := (s.each s.contextCommands State.contextCommand).swapAll.detachNow.indicesNow.dropEnded
  s.each (s.takenOrder (fun _ => true)) State.publishRun

/-- The window of the front end: 800 ns to 1,000 ns. -/
def State.completion (s : State) : State :=
  let s := s.flushesNow.postAll
  let froze := (List.range 4).filter (fun x => decide ((s.port x).freezeDue ≠ 0))
  s.freezesNow.normalNow.recordsDone.wordsNow froze

/-- What follows the window. -/
def State.aftermath (s : State) : State :=
  let s := s.coreTraceNow.pressureNow.sweep.retireDoomed
  let s := s.setMedia { s.media with active := s.media.activeNow }
  (s.each (List.range 8) State.traceBoundary).resetIfDue s.clock.boundaryAt

/-- Everything that a boundary does once its epoch stands. -/
def State.boundary (s : State) : State := s.boundarySource.publication.completion.aftermath

/-- TICK_BOUNDARY (R36). Before READY there are no boundaries (17 R435), nor in P5. -/
def execTickBoundary (s : State) : Host.Outcome State Fault Refusal :=
  if s.clock.running && decide (s.power.state ≤ 4) then .next s.correctionsNow.advance.overrunsNow.boundary else .next s

end Sys2Proof.Machine
end

