-- ==== Sys2Proof/Machine/Media.lean ====
section
/-! DEFINITION. The commands of the media: pieces that programmed, failures, erases, verification, relocations, the map,
secure erasure and the expiry of holders (08 R205, R212, R216, R223, R226; 09 R230 to R246). -/

namespace Sys2Proof.Machine

/-- The channel time of a piece's programs goes to the account that it was written for, as they have finished (02 R65, R66). -/
def State.chargePiece (s : State) (p : Piece) : State :=
  match p.payer with
  | none => s
  | some q => if q < 8 then s.charge q 4 (channelTime p.blocks) else s.chargeIo (q - 8) 4 (channelTime p.blocks)

/-- What the buffer held of some pieces, sound or not, is gone with them. -/
def Media.dropSlots (m : Media) (l : List Piece) : Media :=
  let gone := fun (a : Nat) => l.any (fun p => decide (bufferByte a / 262144 = p.slot))
  { m with badCopies := m.badCopies.filter (fun a => !gone a), badData := m.badData.dropIf gone }

/-- PIECE_PROGRAM_DONE (R212): the piece's buffer space is freed, its programs are charged, and a band whose last row has been
programmed is closed (R216, R230). -/
def execPieceProgramDone (group : Nat) (s : State) : Host.Outcome State Fault Refusal :=
  let s := s.drained group
  let done := s.media.pieces.filter (fun p => decide (p.group = group))
  let m : Media := { s.media with pieces := s.media.pieces.filter (fun p => decide (p.group ≠ group)) }
  let s := s.setMedia ((m.dropSlots done).closeFull s.clock.now)
  .next (s.each done State.chargePiece)

/-- Can a block of the band still fail to program: the band is open, or closed with pieces that have not been
programmed (R237, R240)? -/
def Media.programming (m : Media) (b : Band) : Bool :=
  decide (b.life = .opened) || (decide (b.life = .closed) && m.drains b.number)

/-- The die of a band that gave a block. -/
def Band.dieOf (b : Band) (block : Nat) : Option Nat := (List.range 32).find? (fun i => decide (b.blockOf i = some block))

/-- The row at which a block of a band failed to program (R237): the first one that holds a unit of a piece still in the write
buffer, or else the last one that the band's units have reached. -/
def Media.failingRow (m : Media) (b : Band) (block : Nat) : Nat :=
  let open' := fun (g : Nat) => m.pieces.any (fun p => decide (p.group = g))
  let waiting := (m.pending.filter (fun c => decide (c.kind = .write) && open' c.group)).flatMap (fun c => c.units.map Prod.snd)
  let named := m.spaces.flatMap (fun e => e.2.blocks.flatMap (fun x => (x.2.filter (fun v => decide (v.st = .mapped) && open' v.group)).map Ver.unit))
  let rows := ((waiting ++ named).filter (fun u => decide (unitBlock u = block))).map unitPage
  rows.foldl min (b.rowsUsed - 1)

/-- PROGRAM_FAILURE (R237, R238): the pages of the block in a band that is still programmed are rebuilt or copied
again, map segments and superseded units that holders see among them, and the band goes on with the die's next FREE block from the
failing row on. Where the die has
no FREE block left, the band goes on without it, and a spare is taken all the same (the rule does not say; DESIGN CHOICE, log
97). -/
def execProgramFailure (block : Nat) (s : State) : Host.Outcome State Fault Refusal :=
  match s.media.bands.find? (fun b => s.media.programming b && (b.dieOf block).isSome) with
  | none => .next s
  | some b => match b.dieOf block with
    | none => .next s
    | some i =>
      let k := s.media.freeOn (block / 4096)
      let row := s.media.failingRow b block
      let s := s.setMedia (s.media.updBand b.number (fun x => { x with
        blks := x.blks.set i k, failed := x.failed ++ [block], fromRow := x.fromRow.set k row }))
      let on := fun (n : Nat) => decide (n = block)
      let s := (s.loseOld (fun v => on (unitBlock v.unit) && s.media.rowLost v)).rewritePending true (fun u => on (unitBlock u))
      let s := (s.recover (s.currentIn on)).replaceHeld (fun v => on (unitBlock v.unit))
      let s := (s.setMedia (s.media.loseBlock b.number)).replace (fun u => on (unitBlock u))
      .next (s.each (s.media.segmentsIn on) State.soil).spend

/-- May the die of a block begin an erase: it is at work already, or the limit of dies that program or erase leaves room? -/
def State.dieFree (s : State) (block : Nat) : Bool :=
  decide (block / 4096 ∈ s.media.diesBusy) || decide (s.media.diesBusy.length < s.dieLimit)

/-- The program/erase count of a block advances (R231). -/
def State.countErase (s : State) (block : Nat) : State :=
  (s.setMedia { s.media with pe := s.media.pe.upd 0 block (· + 1) }).stages

/-- Does a sanitize by block erase still have to erase a block (15 R384)? -/
def Media.sanitizes (m : Media) (block : Nat) : Bool := match m.sanitize with
  | some z => z.begun && !z.crypto && decide (block ∉ z.erased)
  | none => false

/-- ERASE_ISSUE (R231, R232, R234, R384): the erase of an ERASE_PENDING block is journalled and issued, its count
advances, and no copy is made from it any more (R238); in a sanitize by block erase every block that is not RETIRED is
erased. Neither happens before READY (17 R435) nor while the near tier is off (07 R197), nor beyond the dies that the power state lets program or erase
(17 R419). -/
def execEraseIssue (block : Nat) (s : State) : Host.Outcome State Fault Refusal :=
  let m := s.media
  if m.sanitizes block then
    if s.clock.running ∧ !s.guard.nearOff ∧ s.dieFree block ∧ block < arrayBlocks ∧ block ∉ m.retired ∧ !m.erasing.any (fun e => decide (e.block = block) && e.issued) then
      .next ((s.setMedia { m with
        erasing := m.erasing.filter (fun e => decide (e.block ≠ block)) ++ [⟨block, true, false, false, false, 6⟩] }).countErase block)
    else .next s
  else match m.erasing.find? (fun e => decide (e.block = block) && !e.issued) with
    | none => .next s
    | some e => if s.maintains && s.dieFree block && s.mayErase block then
        let m := m.unsource (fun k => decide (k = block))
        .next (((s.setMedia { m with
          erasing := m.erasing.map (fun e => if e.block = block then { e with issued := true } else e) }).busyBit e.by').countErase block)
      else .next s

/-- A sanitize by block erase has erased every block (R384): bands are opened again, no secure discard has a copy left
(R247), and the command completes at the next boundary. -/
def State.endSanitize (s : State) : State :=
  match s.media.sanitize with
  | none => s
  | some z =>
    if z.begun && !z.crypto && decide (s.media.eraseLeft z = 0) then
      let m := { s.media with sanitize := none, sanitized := 2, secure := [], carried := false }
      let m := if m.readOnly then m
        else (List.range 64).foldl (fun (m : Media) l => m.openBand l s.clock.now) m
      let s := s.setMedia m
      match z.key with
      | some k => s.postLater k stOk 0 0
      | none => s
    else s

/-- ERASE_COMPLETE (R233, R235): the block is FREE, or RETIRED where the erase failed. -/
def execEraseComplete (block : Nat) (good : Bool) (s : State) : Host.Outcome State Fault Refusal :=
  if s.media.erasing.any (fun e => decide (e.block = block) && e.issued) then
    .next (if good then s.erased block else s.retire block 6).endSanitize
  else .next s

/-- ERASE_HOLD (R233): an erase that was suspended, for 50 ms in all, holds its die's operations, once. -/
def execEraseHold (block : Nat) (s : State) : Host.Outcome State Fault Refusal :=
  if s.media.erasing.any (fun e => decide (e.block = block) && e.issued && e.suspended && !e.held) then
    .next ((s.setMedia { s.media with erasing := s.media.erasing.map (fun e =>
      if e.block = block then { e with held := true } else e) }).bump 0x4060 0x0E 1)
  else .next s

/-- Every unit of some blocks is read (R216): those that map versions name, those of accepted writes and copies that the map does not
name yet, and those of map segments. -/
def State.readAll (s : State) (f : Nat → Bool) : State :=
  let vers := s.media.spaces.flatMap (fun e => e.2.blocks.flatMap (fun b =>
    (b.2.filter (fun v => decide (v.st = .mapped))).map Ver.unit))
  let waiting := (s.media.pending.filter (fun c => decide (c.kind = .write))).flatMap (fun c => c.units.map Prod.snd)
  let copies := (s.media.moves.filter (fun m => !m.lost)).map Move.dst
  let segs := s.media.upper.map (fun e => upperUnit e.2)
  s.each ((vers ++ waiting ++ copies ++ segs).eraseDups.filter (fun u => f (unitBlock u))) (fun s u => (s.readIn (unitBlock u)).1)

/-- Weak units of some blocks are rebuilt from parity and rewritten into an open band (R216), whatever names them: current units,
those of accepted writes and of copies, superseded ones that holders see, and those of map segments. -/
def State.rewriteWeak (s : State) (f : BitVec 37 → Bool) : State :=
  let us := (s.currentIn (fun _ => true)).filter (fun u => f u.2.2.unit)
  let segs := s.media.upper.filter (fun e => f (upperUnit e.2))
  let waiting := ((s.media.pending.filter (fun c => decide (c.kind = .write))).flatMap (fun c => c.units.map Prod.snd)).countP f
  let copies := s.media.moves.countP (fun m => !m.lost && f m.dst)
  let n := us.length + waiting + copies + (s.heldIn (fun v => f v.unit)).length + (segs.map (fun e => upperUnit e.2)).eraseDups.length
  let s := ((s.moveAll .parity us).bump 0x4040 4 us.length).rewritePending false f
  (((s.replace f).replaceHeld (fun v => f v.unit)).each (segs.map Prod.fst) State.soil).bump 0x4050 3 n

/-- BAND_VERIFY (R216, R230, R237): every unit of the band is read, weak units are rebuilt from parity and rewritten,
the parity block is released and failed blocks are retired. -/
def execBandVerify (band : Nat) (weak : List Nat) (s : State) : Host.Outcome State Fault Refusal :=
  match s.media.band band with
  | none => .next s
  | some b =>
    if b.life ≠ .closed ∨ !s.maintains ∨ s.media.drains b.number then .next s
    else
      let here := fun (k : Nat) => decide (k ∈ b.blocks)
      let s := s.rewriteWeak (fun u => decide (u.toNat ∈ weak) && here (unitBlock u))
      let s := (s.setMedia (s.media.updBand band (fun x => { x with life := .verified }))).readAll here
      let s := s.loseUnits ((s.currentIn here).filter (fun u => s.checkFails u.1 u.2.1 u.2.2.value u.2.2.data))
      let s := match b.blockOf b.parity with
        | some k => s.pendErase k 4
        | none => s
      let s := s.each b.failed (fun s k => s.retire k 5)
      .next ((s.setMedia (s.media.closeFull s.clock.now)).busyBit 4)

/-- Bands that a relocation may take: VERIFIED, and no other activity's (R245). -/
def Media.takable (m : Media) : List Band :=
  m.bands.filter (fun b => decide (b.life = .verified) && !m.claims.any (fun c => decide (c.1 = b.number)))

/-- Bands that garbage collection may take: a secure-discard erase, which one relocation serves as well, does not bar
it (R247). -/
def Media.collectable (m : Media) : List Band :=
  m.bands.filter (fun b => decide (b.life = .verified) && !m.claims.any (fun c => decide (c.1 = b.number ∧ c.2 ≠ 5)))

/-- The band that is least in a measure, ties to the lower number. -/
def leastBand (f : Band → Nat × Nat) (l : List Band) : Option Band :=
  l.foldl (fun best b => match best with
    | none => some b
    | some c =>
      let x := f b
      let y := f c
      if x.1 * y.2 < y.1 * x.2 ∨ (x.1 * y.2 = y.1 * x.2 ∧ b.number < c.number) then some b else best) none

/-- GARBAGE_COLLECTION (R226, R246): the band with the fewest current units among those whose superseded units are all
reclaimable. -/
def execGarbageCollection (s : State) : Host.Outcome State Fault Refusal :=
  if !s.relocates || s.media.verifyFirst || decide (4 * s.freeFloor ≤ s.media.freeBlocks) then .next s
  else match leastBand (fun b => ((s.currentIn (fun k => decide (k ∈ b.blocks))).length, 1))
      (s.media.collectable.filter (fun b => !s.seen (fun k => decide (k ∈ b.blocks)))) with
    | none => .next s
    | some b => .next ((s.relocateBand b 0).busyBit 0)

/-- SEGMENT_WRITEBACK (R205): a changed segment is written to an open band. -/
def execSegmentWriteback (ns : NsId) (region : Nat) (s : State) : Host.Outcome State Fault Refusal :=
  let key := ns.val * 2 ^ 29 + region
  if s.maintains && decide (key ∈ s.media.dirty) then .next ((s.setMedia (s.media.writeBack s.clock.now key)).busyBit 8)
  else .next s

/-- Place `n` units of the module's own records in pieces of up to 64 (R201). -/
def Media.placeAll (m : Media) (now : Nat) : Nat → Nat → Media
  | 0, _ => m
  | fuel + 1, n => if n = 0 then m else Media.placeAll (m.place now (min n pieceBlocks)).1 now fuel (n - min n pieceBlocks)

/-- MAP_CHECKPOINT (R205): the upper level, 512 entries to a unit, is written to open bands. -/
def execMapCheckpoint (s : State) : Host.Outcome State Fault Refusal :=
  if s.maintains then
    let n := ceilDiv s.media.upper.length 512
    .next ((s.setMedia { s.media.placeAll s.clock.now n n with ckptEpoch := s.tick }).busyBit 8)
  else .next s

/-- Blocks that satisfy `f` have left their bands: the bands go on without their dies. -/
def Media.dropDie (m : Media) (f : Nat → Bool) : Media :=
  { m with bands := m.bands.map (fun b => { b with
      failed := b.failed.filter (fun k => !f k)
      blks := (List.range 32).map (fun i => match b.blockOf i with
        | some k => if f k then 4096 else b.blks.getD i 4096
        | none => 4096) }) }

/-- DIE_FAILURE (R235): units in unverified bands are rebuilt from parity, or copied again, where their rows allow it;
those in verified bands become UNREADABLE, and every block of the die is RETIRED. -/
def execDieFailure (channel die : Nat) (s : State) : Host.Outcome State Fault Refusal :=
  let d := channel * 16 + die
  if d ∈ s.media.deadDies ∨ 2048 ≤ d then .next s
  else
    let on := fun (k : Nat) => decide (k / 4096 = d)
    let safe := fun (k : Nat) => s.media.bands.any (fun b => decide (b.life = .opened ∨ b.life = .closed) && decide (k ∈ b.blocks))
    let us := s.currentIn on
    let kept := us.filter (fun u => safe (unitBlock u.2.2.unit))
    let spent := s.media.bands.flatMap Band.failed
    let fresh := ((List.range 4096).map (fun k => d * 4096 + k)).filter (fun k => decide (k ∉ s.media.retired))
    let gone := s.media.bands.filter (fun b => decide (b.life = .opened ∨ b.life = .closed) && b.blocks.any on)
    let s := s.setMedia (({ s.media.unsource on with deadDies := s.media.deadDies ++ [d] } : Media).dropDie on)
    let s := s.loseOld (fun v => on (unitBlock v.unit) && (!safe (unitBlock v.unit) || s.media.rowLost v))
    let s := s.rewritePending true (fun u => on (unitBlock u))
    let s := (s.recover (kept.map (fun u => (u.1, u.2.1, u.2.2.unsource on)))).replaceHeld (fun v => on (unitBlock v.unit))
    let s := (s.replace (fun u => on (unitBlock u))).loseUnits (us.filter (fun u => !safe (unitBlock u.2.2.unit)))
    let s := s.each (s.media.segmentsIn on) State.soil
    let m := gone.foldl (fun (m : Media) b => m.loseBlock b.number) s.media
    let s := s.setMedia { m with
      pe := fresh.foldl (fun t k => if m.peBase + t.get 0 k = 0 then t else t.set k (m.peBase + t.get 0 k)) m.pe
      retired := m.retired ++ fresh
      erasing := m.erasing.filter (fun e => !on e.block)
      evac := m.evac.filter (fun e => !on e.block)
      doomed := m.doomed.filter (fun k => !on k) }
    let s := s.bump 0x4060 7 fresh.length
    let s := (s.put 0x4060 4 (s.obj 0x4060 4 - (fresh.filter (fun k => decide (k ∉ spent))).length)).stages
    .next (s.raise { report causeDie 4 channel 0 0 with subId := BitVec.ofNat 8 die })

/-- READ_DISTURB_RELOCATION (R246): the band of a block whose reads since its erase have reached RD_LIMIT is relocated. -/
def execReadDisturbRelocation (block : Nat) (s : State) : Host.Outcome State Fault Refusal :=
  match s.media.takable.find? (fun b => decide (block ∈ b.blocks)) with
  | none => .next s
  | some b => if s.relocates && decide (s.gov 0x4080 3 ≤ s.media.reads.get 0 block) then .next ((s.relocateBand b 2).busyBit 2) else .next s

/-- Is the sample read of a band due (R246): it is older than 30 days, and its last sample is 7 days old? -/
def Band.sampleDue (b : Band) (now : Nat) : Bool :=
  decide (30 * dayUnits < b.age now) && (decide (b.sampled = 0) || decide (b.sampled + 7 * dayUnits ≤ b.age now))

/-- One unit of each block of a band is read for its refresh; `further` is the largest number of further sets that one of them
needed. Which one did is free, and the others need no more than it (log 17). -/
def State.sampleBand (s : State) (b : Band) (further : Nat) : State :=
  let s := s.setMedia (s.media.updBand b.number (fun x => { x with sampled := x.age s.clock.now }))
  let worst := Config.doneOf s.free b.blocks.length
  s.draw.each b.blocks.zipIdx (fun s k => (s.readBlockAt (s.media.band b.number) k.1 (fun first =>
    if k.2 = min worst (b.blocks.length - 1) then setAt first (min 16 (further + 1))
    else setAt first (min (depthOf first (s.decodes first)) (further + 1)))).1)

/-- RETENTION_REFRESH (R246): the sample read of a band that has aged, and its relocation where the sample needed
three or more further sets. -/
def execRetentionRefresh (band furtherSets : Nat) (s : State) : Host.Outcome State Fault Refusal :=
  match s.media.takable.find? (fun b => decide (b.number = band)) with
  | none => .next s
  | some b =>
    if s.relocates && b.sampleDue s.clock.now then
      let s := (s.sampleBand b furtherSets).busyBit 3
      .next (if 3 ≤ furtherSets then s.relocateBand b 3 else s)
    else .next s

/-- WEAR_LEVELLING (R246): the band with the lowest mean count is relocated. -/
def execWearLevelling (s : State) : Host.Outcome State Fault Refusal :=
  let m := s.media
  if !s.relocates || decide (m.peMax * m.peBlocks ≤ m.peSum + s.gov 0x4080 4 * m.peBlocks) then .next s
  else match leastBand (fun b => ((b.blocks.map (fun k => m.pe.get 0 k)).foldl (· + ·) 0, max 1 b.blocks.length)) m.takable with
    | none => .next s
    | some b => .next ((s.relocateBand b 1).busyBit 1)

/-- Has wear levelling, a read-disturb relocation, a refresh or a relocation before retirement claimed the band of a
block, so that the secure-discard erase skips it (R245, R247)? A garbage collection serves both. -/
def Media.skips (m : Media) (block : Nat) : Bool :=
  m.bands.any (fun b => decide (block ∈ b.blocks) && m.claims.any (fun c => decide (c.1 = b.number ∧ c.2 ≠ 0 ∧ c.2 ≠ 5)))

/-- SECURE_ERASE (R223): a block of a verified band that holds a copy named by a secure discard, and that no holder
sees, is emptied and erased. In read-only one that would have to relocate current units does not run, though R242 does not list
it (DESIGN CHOICE, log 119). -/
def execSecureErase (block : Nat) (s : State) : Host.Outcome State Fault Refusal :=
  let named := s.media.secure.any (fun j => j.units.any (fun u => decide (unitBlock u = block)))
  let held := s.media.bands.any (fun b => decide (b.life = .verified ∨ b.life = .victim) && decide (block ∈ b.blocks))
  if s.maintains && named && held && !s.media.skips block && !s.seen (fun k => decide (k = block))
      && (!s.media.readOnly || (s.currentIn (fun k => decide (k = block))).isEmpty) then
    .next ((s.evacuate block false 5).busyBit 5)
  else .next s

/-- End a holder with SNAPSHOT_EXPIRED at the next boundary (R38). -/
def State.expire (s : State) (k : Nat) : State :=
  let t := s.tset k
  ((s.dropOutputs k).postLater k stExpired (if t.runsSteps then t.published else t.count) 0).bump 0x4020 5 1

/-- SNAPSHOT_EXPIRY (R38, R244): judged on free space as it stands, against the floor that governs from the next
boundary (R250). -/
def execSnapshotExpiry (s : State) : Host.Outcome State Fault Refusal :=
  let spaced := match s.media.lastExpiry with
    | none => true
    | some e => decide (e + s.gov 0x4060 0x0C ≤ s.tick + 1)
  if !s.media.presses (s.obj 0x4060 0x0B) || !spaced then .next s
  else match s.firstHolder with
    | none => .next s
    | some k => .next ((s.setMedia { s.media with lastExpiry := some (s.tick + 1) }).expire k)

/-- HOLD_LIMIT_EXPIRY (R223): a holder beyond the hold limit on which a secure discard waits is ended. -/
def execHoldLimitExpiry (x : Port) (set : SetId) (s : State) : Host.Outcome State Fault Refusal :=
  let k := setKey x set
  let t := s.tset k
  let waits := s.media.secure.any (fun j => decide (t.stamp.toNat < j.epoch) && s.holdsSpace k j.ns
    && s.media.spaces.any (fun e => decide (e.1 = j.ns) && e.2.blocks.any (fun b => b.2.any (fun v =>
      decide (v.unit ∈ j.units) && decide (v.epoch ≤ t.stamp.toNat)))))
  if t.holds && decide (t.due = none) && decide (t.stamp.toNat + s.gov 0x4020 1 ≤ s.tick) && waits then .next (s.expire k)
  else .next s

end Sys2Proof.Machine
end

