-- ==== Sys2Proof/Machine/Startup.lean ====
section
/-! DEFINITION. Start-up (17 R433 to R435): its stages, the tests of the lane dies (04 R121) and of the memory checkers
(07 R195, R196), the zeroing of the tiers, the map's rebuild (08 R205), the RETURN erasure (18 R448), and READY. -/

namespace Sys2Proof.Machine

/-- Set START_STAGE. -/
def State.startStage (s : State) (n : Nat) : State := s.updPower (fun p => { p with stage := n })

/-- May start-up begin, with the inputs settled (R433): Yilry runs, THERMTRIP# is released, no slot check holds it, and
the module is not scrapped (18 R443)? -/
def State.mayStart (s : State) : Bool :=
  s.power.aux && decide (s.power.stage ≤ 1) && !s.power.tripped && !s.power.bootHeld && decide (s.security.state ≠ 4)

/-- The record of a start-up (R433) and its entry of RESET_HISTORY (16 R413). -/
def State.resetRecord (s : State) : State :=
  let entry := (s.errors.next, s.errors.lastEpoch, BitVec.ofNat 8 s.power.source)
  let s := (s.setErrors { s.errors with resets := pageAdd 256 s.errors.resets entry }).dataWrite
  s.raise { report causeReset 7 0 0 0 with detail := BitVec.ofNat 128 s.power.source }

/-- The integrity counters, which reset at each start-up (07 R191): index and sub-index. -/
def guardCounters : List (Nat × Nat) :=
  ((List.range 24).map (0x3010 + ·) ++ [0x3030]).flatMap (fun i => [1, 2, 3, 4, 5, 8].map (fun n => (i, n)))

/-- The results of the last start-up's tests are withdrawn, and the integrity counters are zero. -/
def State.clearTests (s : State) : State :=
  let s := s.each ([(0x3000, 2), (0x5000, 1), (0x3030, 6), (0x3030, 7)] ++ guardCounters) (fun s o => s.put o.1 o.2 0)
  (s.setGuard { s.guard with levels := [], rows := [] }).guardNow

/-- STARTUP_BEGIN (R433): the inputs that held start-up have settled. -/
def execStartupBegin (s : State) : Host.Outcome State Fault Refusal :=
  if s.mayStart then
    let s := s.updPower (fun p => { p with
      resetLow := false, failLow := false, absent := false, badInput := false, warned := false, flushed := false
      state := 0, stage := 2 })
    let s := s.clearTests.ageBands
    let s := (s.setSecurity { s.security with fails := s.security.fails + 1 }).newNonce
    .next s.resetRecord
  else .next s

/-- RAILS_IN_REGULATION (R434). -/
def execRailsInRegulation (s : State) : Host.Outcome State Fault Refusal :=
  if s.power.stage = 2 then .next ((s.updPower (fun p => { p with railsUp := true })).startStage 3) else .next s

/-- The erases of the RETURN erasure are issued, one of every block that is not RETIRED, and counted (18 R448; 09
R231). They are counted together as the first ones are issued (DEDUCED, log 40). -/
def State.returnErases (s : State) : State :=
  if s.security.state = 3 ∧ s.obj 0xA000 6 = 0 then (s.setMedia { s.media with peBase := s.media.peBase + 1 }).stages else s

/-- STACK_TRAINING_DONE (R434; 07 R195): the memory self-test is at its time 0, and the flash channels are trained. -/
def execStackTrainingDone (s : State) : Host.Outcome State Fault Refusal :=
  if s.power.stage = 3 then .next (((s.updPower (fun p => { p with trained := true })).startStage 4).returnErases) else .next s

/-- LANE_KAT_DONE (04 R121): a present square that failed is faulted, and recorded. -/
def execLaneKatDone (failed : BitVec 48) (s : State) : Host.Outcome State Fault Refusal :=
  if s.power.railsUp then
    let bad := (bitsSet failed.toNat 48).filter (fun d => bitOf (s.obj 0x1010 1) d && !bitOf (s.obj 0x5000 1) d)
    let s := s.each bad (fun s d => (s.faultSquare d).raise (report causeLaneTest 0 d 0 0))
    .next (s.updPower (fun p => { p with katDone := true }))
  else .next s

/-- MEMORY_CHECKERS_DONE (07 R195, R196). -/
def execMemoryCheckersDone (failed : List Checker) (s : State) : Host.Outcome State Fault Refusal :=
  if s.power.stage = 4 ∧ !s.power.checked then
    let s := (s.each failed State.checkerFail).guardNow
    .next (s.updPower (fun p => { p with checked := true }))
  else .next s

/-- TIER_ZEROED (07 R195): the near tier's zeroing begins the rebuild of the map, the far tier's ends the sequence. -/
def execTierZeroed (tier : Tier) (s : State) : Host.Outcome State Fault Refusal :=
  if !s.power.checked || s.clock.running then .next s
  else match tier with
    | .near => .next ((s.updPower (fun p => { p with nearZero := true })).startStage 5)
    | .far => .next ((s.updPower (fun p => { p with farZero := true })).put 0x3000 2 (setBit (s.obj 0x3000 2) 0 true))
    | .scratch => .next s

/-- MAP_REBUILD_DONE (08 R205): not over a failed near tier, which holds the map's working copy. -/
def execMapRebuildDone (s : State) : Host.Outcome State Fault Refusal :=
  if s.power.nearZero && !s.guard.nearOff then .next (s.updPower (fun p => { p with mapUp := true })) else .next s

/-! ## The RETURN erasure (18 R448) -/

/-- A table without its persistent objects. -/
def plainTab {α : Type} (t : Tab α) : Tab α := t.filter (fun e => match findObj (e.1 / 256) (e.1 % 256) with
  | some d => !d.persist
  | none => true)

/-- The media after every block that is not RETIRED was erased. -/
def Media.blank (m : Media) (now : Nat) : Media :=
  let m : Media := { Media.shipped with
    bands := [], bandNo := m.bandNo, pe := m.pe, peBase := m.peBase, retired := m.retired
    readOnly := m.readOnly, deadDies := m.deadDies
    sanitized := if m.sanitize.isSome then 2 else m.sanitized }
  if m.readOnly then m else (List.range 64).foldl (fun (m : Media) l => m.openBand l now) m

/-- RETURN_ERASURE_DONE. -/
def execReturnErasureDone (s : State) : Host.Outcome State Fault Refusal :=
  if s.security.state = 3 ∧ s.obj 0xA000 6 = 0 ∧ !s.clock.running ∧ s.power.railsUp then
    let s := s.retireBad
    let s := s.setMedia (s.media.blank s.clock.now)
    let s := s.each (List.range 65) State.drawKey
    let s := s.updDict (fun d => { d with
      objs := plainTab d.objs, gov := plainTab d.gov, doms := plainTab d.doms, govDoms := plainTab d.govDoms })
    let s := (s.setErrors { s.errors with history := [], events := [], resets := [] }).setGuard { s.guard with remaps := [] }
    .next (s.put 0xA000 6 1)
  else .next s

/-! ## READY (R434) -/

/-- The rollback floor rises with the first READY of an installed image that comes in PROVISIONED or FIELD (18 R454); an earlier one in
another state leaves it to that (DEDUCED, log 117). -/
def State.raiseFloor (s : State) : State :=
  let x := s.security
  let svn := s.obj 0xA030 2
  let served := decide (x.state = 1 ∨ x.state = 2)
  let s := s.setSecurity { x with fresh := x.fresh && !served, fails := 0 }
  if x.fresh && served && decide (x.floors.getLastD 0 < svn) then
    (if x.floors.length < 64 then s.setSecurity { s.security with floors := x.floors ++ [svn] } else s.lifeRecord)
  else s

/-- Is everything there that READY waits for? -/
def State.mayReady (s : State) : Bool :=
  s.power.farZero && s.power.railsUp && (s.power.mapUp || s.guard.nearOff) && !s.clock.running
    && (decide (s.security.state ≠ 3) || decide (s.obj 0xA000 6 = 1))

/-- The start-up writes its results to log page 6: SELFTEST_RESULT, SQUARES_FAULTED and the two words of the faulted scratch
banks (16 R413). -/
def State.keepTests (s : State) : State :=
  (s.setErrors { s.errors with boot := [s.obj 0x3000 2, s.obj 0x5000 1, s.obj 0x3030 6, s.obj 0x3030 7].map (BitVec.ofNat 64) }).dataWrite

/-- At the first boot of a newly installed slot the data region is copied to the other bank's after READY: each of its 32 sectors is
erased for it (17 R439). The copy is whole at once (log 121). -/
def State.copyRegion (s : State) : State :=
  if s.security.uncopied then
    (s.setSecurity { s.security with uncopied := false }).each (List.range 32) (fun s n => s.eraseSector (512 + 256 * (1 - s.obj 0x7040 1) + n))
  else s

/-- READY: boundary 0, `micros` after start-up began. -/
def execReady (micros : Nat) (s : State) : Host.Outcome State Fault Refusal :=
  if s.mayReady then
    let s := s.draw.setClock ⟨s.timeNow, s.timeNow, 0, true⟩
    let s := (s.startStage 6).put 0x7030 3 micros
    .next s.keepTests.raiseFloor.copyRegion.boundary
  else .next s

end Sys2Proof.Machine
end

