-- ==== Sys2Proof/Machine/Dispatch.lean ====
section
/-! DEFINITION. The effect of each command, one arm per constructor of Instr, each a direct call of its meaning. -/

namespace Sys2Proof.Machine

/-- The effect of a command on everything but the queue. -/
def exec (i : Instr) (s : State) : Host.Outcome State Fault Refusal :=
  match i with
  | .tickBoundary => Sys2Proof.Machine.execTickBoundary s
  | .partitionResetDone p => Sys2Proof.Machine.execPartitionResetDone p s
  | .movePeriodStart p => Sys2Proof.Machine.execMovePeriodStart p s
  | .partitionUnitsIdle p t => Sys2Proof.Machine.execPartitionUnitsIdle p t s
  | .tickOverrun p => Sys2Proof.Machine.execTickOverrun p s
  | .flagFall p step => Sys2Proof.Machine.execFlagFall p step s
  | .stepStop p q => Sys2Proof.Machine.execStepStop p q s
  | .hangWatchdog p => Sys2Proof.Machine.execHangWatchdog p s
  | .stepComplete p q => Sys2Proof.Machine.execStepComplete p q s
  | .loadw p => Sys2Proof.Machine.execLoadw p s
  | .stream p => Sys2Proof.Machine.execStream p s
  | .drain p => Sys2Proof.Machine.execDrain p s
  | .sfn p => Sys2Proof.Machine.execSfn p s
  | .normStats p => Sys2Proof.Machine.execNormStats p s
  | .normApply p => Sys2Proof.Machine.execNormApply p s
  | .chainRecur p => Sys2Proof.Machine.execChainRecur p s
  | .chainPrefix p => Sys2Proof.Machine.execChainPrefix p s
  | .chainOrtho p => Sys2Proof.Machine.execChainOrtho p s
  | .pqtab p => Sys2Proof.Machine.execPqtab p s
  | .selectLargest p => Sys2Proof.Machine.execSelectLargest p s
  | .selectSmallest p => Sys2Proof.Machine.execSelectSmallest p s
  | .selectSample p => Sys2Proof.Machine.execSelectSample p s
  | .fetch p => Sys2Proof.Machine.execFetch p s
  | .scan p => Sys2Proof.Machine.execScan p s
  | .check p => Sys2Proof.Machine.execCheck p s
  | .walk p => Sys2Proof.Machine.execWalk p s
  | .walkRerank p => Sys2Proof.Machine.execWalkRerank p s
  | .reduceP p => Sys2Proof.Machine.execReduceP p s
  | .reduceQ p => Sys2Proof.Machine.execReduceQ p s
  | .wait p => Sys2Proof.Machine.execWait p s
  | .mark p => Sys2Proof.Machine.execMark p s
  | .loop p => Sys2Proof.Machine.execLoop p s
  | .endStep p t => Sys2Proof.Machine.execEndStep p t s
  | .trWrite r set go first count payload => Sys2Proof.Machine.execTrWrite r set go first count payload s
  | .commandStart x set => Sys2Proof.Machine.execCommandStart x set s
  | .trRead r set first count => Sys2Proof.Machine.execTrRead r set first count s
  | .dbRead r clear => Sys2Proof.Machine.execDbRead r clear s
  | .dataPushInput r set offset payload => Sys2Proof.Machine.execDataPushInput r set offset payload s
  | .dataPushMemory r set addr payload => Sys2Proof.Machine.execDataPushMemory r set addr payload s
  | .dataPullOutput r set offset length => Sys2Proof.Machine.execDataPullOutput r set offset length s
  | .dataPullMemory r set addr length => Sys2Proof.Machine.execDataPullMemory r set addr length s
  | .claim r inst => Sys2Proof.Machine.execClaim r inst s
  | .release r => Sys2Proof.Machine.execRelease r s
  | .status r => Sys2Proof.Machine.execStatus r s
  | .echo r payload => Sys2Proof.Machine.execEcho r payload s
  | .dictRead r idx sub describe token => Sys2Proof.Machine.execDictRead r idx sub describe token s
  | .dictWrite r idx sub total token payload => Sys2Proof.Machine.execDictWrite r idx sub total token payload s
  | .persistWriteDone idx sub => Sys2Proof.Machine.execPersistWriteDone idx sub s
  | .segmentTimeout x token => Sys2Proof.Machine.execSegmentTimeout x token s
  | .frameForward x f => Sys2Proof.Machine.execFrameForward x f s
  | .codewordFail x => Sys2Proof.Machine.execCodewordFail x s
  | .nakReceived x ackSeq => Sys2Proof.Machine.execNakReceived x ackSeq s
  | .ackTimer x => Sys2Proof.Machine.execAckTimer x s
  | .helloTimer x => Sys2Proof.Machine.execHelloTimer x s
  | .helloReceive x h => Sys2Proof.Machine.execHelloReceive x h s
  | .portAlign x => Sys2Proof.Machine.execPortAlign x s
  | .trainTimeout x => Sys2Proof.Machine.execTrainTimeout x s
  | .alignmentLost x => Sys2Proof.Machine.execAlignmentLost x s
  | .retrainTimeout x => Sys2Proof.Machine.execRetrainTimeout x s
  | .ownerLapse x => Sys2Proof.Machine.execOwnerLapse x s
  | .portRetrain r x => Sys2Proof.Machine.execPortRetrain r x s
  | .portDisable r x => Sys2Proof.Machine.execPortDisable r x s
  | .portEnable r x => Sys2Proof.Machine.execPortEnable r x s
  | .loopbackWrite r x v => Sys2Proof.Machine.execLoopbackWrite r x v s
  | .loopRun r x ms => Sys2Proof.Machine.execLoopRun r x ms s
  | .loopRunEnd x good failed => Sys2Proof.Machine.execLoopRunEnd x good failed s
  | .identify x set => Sys2Proof.Machine.execIdentify x set s
  | .logRead x set => Sys2Proof.Machine.execLogRead x set s
  | .features x set => Sys2Proof.Machine.execFeatures x set s
  | .fwDownload x set => Sys2Proof.Machine.execFwDownload x set s
  | .fwCommitVerify x set => Sys2Proof.Machine.execFwCommitVerify x set s
  | .fwCommitInstall x set => Sys2Proof.Machine.execFwCommitInstall x set s
  | .sanitizeBlockErase x set => Sys2Proof.Machine.execSanitizeBlockErase x set s
  | .sanitizeCryptoErase x set => Sys2Proof.Machine.execSanitizeCryptoErase x set s
  | .read x set => Sys2Proof.Machine.execRead x set s
  | .write x set => Sys2Proof.Machine.execWrite x set s
  | .writePieceAccept x set => Sys2Proof.Machine.execWritePieceAccept x set s
  | .dataTimeout x set => Sys2Proof.Machine.execDataTimeout x set s
  | .pieceProgramDone group => Sys2Proof.Machine.execPieceProgramDone group s
  | .discard x set => Sys2Proof.Machine.execDiscard x set s
  | .secureDiscard x set => Sys2Proof.Machine.execSecureDiscard x set s
  | .flush x set => Sys2Proof.Machine.execFlush x set s
  | .mapSegments x set => Sys2Proof.Machine.execMapSegments x set s
  | .checkCommand x set => Sys2Proof.Machine.execCheckCommand x set s
  | .contextCreate x set => Sys2Proof.Machine.execContextCreate x set s
  | .contextRelease x set => Sys2Proof.Machine.execContextRelease x set s
  | .contextTeardown x set => Sys2Proof.Machine.execContextTeardown x set s
  | .stageModelTable x set => Sys2Proof.Machine.execStageModelTable x set s
  | .stageModelScales x set => Sys2Proof.Machine.execStageModelScales x set s
  | .stageModelSfTables x set => Sys2Proof.Machine.execStageModelSfTables x set s
  | .stageModelFar x set => Sys2Proof.Machine.execStageModelFar x set s
  | .stageModelDistance x set => Sys2Proof.Machine.execStageModelDistance x set s
  | .loadCheck x set t => Sys2Proof.Machine.execLoadCheck x set t s
  | .stagingComplete x set => Sys2Proof.Machine.execStagingComplete x set s
  | .scanCommand x set => Sys2Proof.Machine.execScanCommand x set s
  | .embed x set => Sys2Proof.Machine.execEmbed x set s
  | .inferStep x set => Sys2Proof.Machine.execInferStep x set s
  | .refitStep x set => Sys2Proof.Machine.execRefitStep x set s
  | .searchAttach x set => Sys2Proof.Machine.execSearchAttach x set s
  | .searchDetach x set => Sys2Proof.Machine.execSearchDetach x set s
  | .searchQuery x set => Sys2Proof.Machine.execSearchQuery x set s
  | .searchUpdate x set => Sys2Proof.Machine.execSearchUpdate x set s
  | .updateAccept x set => Sys2Proof.Machine.execUpdateAccept x set s
  | .tombstoneReplay p n => Sys2Proof.Machine.execTombstoneReplay p n s
  | .partitionCommit r p => Sys2Proof.Machine.execPartitionCommit r p s
  | .partitionStart r p => Sys2Proof.Machine.execPartitionStart r p s
  | .partitionStop r p => Sys2Proof.Machine.execPartitionStop r p s
  | .partitionRelease r p => Sys2Proof.Machine.execPartitionRelease r p s
  | .bankArm r p n kinds => Sys2Proof.Machine.execBankArm r p n kinds s
  | .bankDisarm r p n kinds => Sys2Proof.Machine.execBankDisarm r p n kinds s
  | .bankDiscard r p n kinds => Sys2Proof.Machine.execBankDiscard r p n kinds s
  | .nsCreate r ns => Sys2Proof.Machine.execNsCreate r ns s
  | .nsDelete r ns => Sys2Proof.Machine.execNsDelete r ns s
  | .tickBaseWrite r v => Sys2Proof.Machine.execTickBaseWrite r v s
  | .freeFloorWrite r v => Sys2Proof.Machine.execFreeFloorWrite r v s
  | .lockIndex r idx => Sys2Proof.Machine.execLockIndex r idx s
  | .attnAck r x bits => Sys2Proof.Machine.execAttnAck r x bits s
  | .unfreeze r x bits => Sys2Proof.Machine.execUnfreeze r x bits s
  | .stateRequest r v => Sys2Proof.Machine.execStateRequest r v s
  | .powerTransitionDone => Sys2Proof.Machine.execPowerTransitionDone s
  | .p4EntryComplete => Sys2Proof.Machine.execP4EntryComplete s
  | .moduleReset r v => Sys2Proof.Machine.execModuleReset r v s
  | .lcRequest r v => Sys2Proof.Machine.execLcRequest r v s
  | .lcToken r token => Sys2Proof.Machine.execLcToken r token s
  | .lcArmLapse => Sys2Proof.Machine.execLcArmLapse s
  | .attestNonce r x nonce => Sys2Proof.Machine.execAttestNonce r x nonce s
  | .readList r ids => Sys2Proof.Machine.execReadList r ids s
  | .readerPassDone => Sys2Proof.Machine.execReaderPassDone s
  | .freezeCounters r => Sys2Proof.Machine.execFreezeCounters r s
  | .releaseCounters r => Sys2Proof.Machine.execReleaseCounters r s
  | .armFreeze r => Sys2Proof.Machine.execArmFreeze r s
  | .freezeLimitExpiry => Sys2Proof.Machine.execFreezeLimitExpiry s
  | .dumpRequest r t => Sys2Proof.Machine.execDumpRequest r t s
  | .testHoldEnter r => Sys2Proof.Machine.execTestHoldEnter r s
  | .testHoldLeave r => Sys2Proof.Machine.execTestHoldLeave r s
  | .testStart r v => Sys2Proof.Machine.execTestStart r v s
  | .testRunEnd errors firstPin die => Sys2Proof.Machine.execTestRunEnd errors firstPin die s
  | .smbusPointer idx sub off => Sys2Proof.Machine.execSmbusPointer idx sub off s
  | .smbusRead => Sys2Proof.Machine.execSmbusRead s
  | .smbusWrite idx sub value pecGood => Sys2Proof.Machine.execSmbusWrite idx sub value pecGood s
  | .smbusLastStatus => Sys2Proof.Machine.execSmbusLastStatus s
  | .alertResponse => Sys2Proof.Machine.execAlertResponse s
  | .smbusTimeout => Sys2Proof.Machine.execSmbusTimeout s
  | .auxPowerOn slotId => Sys2Proof.Machine.execAuxPowerOn slotId s
  | .resetAssert => Sys2Proof.Machine.execResetAssert s
  | .pwrfailAssert => Sys2Proof.Machine.execPwrfailAssert s
  | .presentRemoved => Sys2Proof.Machine.execPresentRemoved s
  | .inputOutOfRange => Sys2Proof.Machine.execInputOutOfRange s
  | .flushComplete micros => Sys2Proof.Machine.execFlushComplete micros s
  | .powerResume => Sys2Proof.Machine.execPowerResume s
  | .bankExhausted => Sys2Proof.Machine.execBankExhausted s
  | .powerSample milliwatts millivolts => Sys2Proof.Machine.execPowerSample milliwatts millivolts s
  | .thermalSample temps => Sys2Proof.Machine.execThermalSample temps s
  | .bankMeasure microfarads millijoules millivolts => Sys2Proof.Machine.execBankMeasure microfarads millijoules millivolts s
  | .mgmtWatchdog => Sys2Proof.Machine.execMgmtWatchdog s
  | .startupBegin => Sys2Proof.Machine.execStartupBegin s
  | .laneKatDone failed => Sys2Proof.Machine.execLaneKatDone failed s
  | .memoryCheckersDone failed => Sys2Proof.Machine.execMemoryCheckersDone failed s
  | .tierZeroed tier => Sys2Proof.Machine.execTierZeroed tier s
  | .mapRebuildDone => Sys2Proof.Machine.execMapRebuildDone s
  | .ready micros => Sys2Proof.Machine.execReady micros s
  | .returnErasureDone => Sys2Proof.Machine.execReturnErasureDone s
  | .innerCodePoll counts => Sys2Proof.Machine.execInnerCodePoll counts s
  | .leakInterval => Sys2Proof.Machine.execLeakInterval s
  | .rowRemap tier stack pc row => Sys2Proof.Machine.execRowRemap tier stack pc row s
  | .patrolScrub block symbols => Sys2Proof.Machine.execPatrolScrub block symbols s
  | .eccSelftest checker good => Sys2Proof.Machine.execEccSelftest checker good s
  | .programFailure block => Sys2Proof.Machine.execProgramFailure block s
  | .eraseIssue block => Sys2Proof.Machine.execEraseIssue block s
  | .eraseComplete block good => Sys2Proof.Machine.execEraseComplete block good s
  | .eraseHold block => Sys2Proof.Machine.execEraseHold block s
  | .bandVerify band weak => Sys2Proof.Machine.execBandVerify band weak s
  | .garbageCollection => Sys2Proof.Machine.execGarbageCollection s
  | .segmentWriteback ns region => Sys2Proof.Machine.execSegmentWriteback ns region s
  | .mapCheckpoint => Sys2Proof.Machine.execMapCheckpoint s
  | .dieFailure channel die => Sys2Proof.Machine.execDieFailure channel die s
  | .readDisturbRelocation block => Sys2Proof.Machine.execReadDisturbRelocation block s
  | .retentionRefresh band furtherSets => Sys2Proof.Machine.execRetentionRefresh band furtherSets s
  | .wearLevelling => Sys2Proof.Machine.execWearLevelling s
  | .graphRepairPass p n => Sys2Proof.Machine.execGraphRepairPass p n s
  | .secureErase block => Sys2Proof.Machine.execSecureErase block s
  | .snapshotExpiry => Sys2Proof.Machine.execSnapshotExpiry s
  | .holdLimitExpiry x set => Sys2Proof.Machine.execHoldLimitExpiry x set s
  | .errorRecordRaise rep => Sys2Proof.Machine.execErrorRecordRaise rep s
  | .recordClassify => Sys2Proof.Machine.execRecordClassify s
  | .signal x => Sys2Proof.Machine.execSignal x s
  | .creditReturn x vc cells ackSeq => Sys2Proof.Machine.execCreditReturn x vc cells ackSeq s
  | .headerCrcError x => Sys2Proof.Machine.execHeaderCrcError x s
  | .unknownFrameType r type => Sys2Proof.Machine.execUnknownFrameType r type s
  | .frameLoopback x f => Sys2Proof.Machine.execFrameLoopback x f s
  | .aux3v3Loss => Sys2Proof.Machine.execAux3v3Loss s
  | .bankFull millijoules => Sys2Proof.Machine.execBankFull millijoules s
  | .railsInRegulation => Sys2Proof.Machine.execRailsInRegulation s
  | .stackTrainingDone => Sys2Proof.Machine.execStackTrainingDone s
  | .testHoldHeld => Sys2Proof.Machine.execTestHoldHeld s
  | .attestReportSigned x => Sys2Proof.Machine.execAttestReportSigned x s
  | .recordPersisted seq => Sys2Proof.Machine.execRecordPersisted seq s
  | .readComplete x set => Sys2Proof.Machine.execReadComplete x set s
  | .waitUntil p => Sys2Proof.Machine.execWaitUntil p s
  | .debugPathAccess path => Sys2Proof.Machine.execDebugPathAccess path s

end Sys2Proof.Machine
end

