-- ==== Sys2Proof/Safety.lean ====
section
/-! DEFINITION. What counts as a good state, in the terms the statements use: the module's modes have legal values, and
one command at a time leaves the queue. -/

namespace Sys2Proof.Machine

/-- The part of the state that says which mode the module is in: LC_STATE, DEVICE_STATE, TEST_STATE, the power state and
START_STAGE. -/
structure Modes where
  life : Nat
  device : Nat
  test : Nat
  power : Nat
  stage : Nat
  deriving DecidableEq, Repr

/-- The modes of a state. -/
def State.modes (s : State) : Modes := ⟨s.security.state, s.errors.device, s.hold, s.power.state, s.power.stage⟩

/-- Every mode has one of the values that the spec lists for it (18 R443, 16 R402, 20 R491, 17 R419, R441). -/
def Modes.legal (m : Modes) : Prop := m.life ≤ 4 ∧ m.device ≤ 2 ∧ m.test ≤ 3 ∧ m.power ≤ 5 ∧ m.stage ≤ 6

/-- A state in a legal mode. -/
abbrev State.Legal (s : State) : Prop := s.modes.legal

/-- Does a life-cycle transition that waits for its boundary lead to a listed state? -/
def State.DueLegal (s : State) : Prop := ∀ v, s.security.due = some v → v ≤ 4

/-- The invariant of the module's modes: they are legal, and so is the life-cycle state that a boundary is to enter and the
power state that a transition leads to. -/
structure State.Sound (s : State) : Prop where
  modes : s.Legal
  due : s.DueLegal
  target : ∀ v, s.power.target = some v → v ≤ 5

/-- A safe step: it answers a next state, and takes exactly the command at the front of the queue. -/
def Safe (s : State) : Prop := ∃ t, step s = .next t ∧ t.pending = s.pending.tail

/-! ## Frames -/

/-- A place of the state: a whole field, one element of a table (a partition, a context by its number in the module, a
sequencer, a task register set, a port), or one of the parts of a field that have a name of their own (the tiers' bytes,
the lane dies, the modes). -/
inductive Place where
  | clock
  | fabric
  | tiers
  | dies
  | dict
  | parts
  | part (p : Nat)
  | ctxs
  | ctx (k : Nat)
  | seqs
  | seq (p : Nat)
  | vtimes
  | sets
  | tset (k : Nat)
  | ports
  | port (x : Nat)
  | orders
  | stagings
  | arms
  | media
  | errors
  | device
  | guard
  | power
  | powerState
  | powerTarget
  | stage
  | security
  | life
  | lifeDue
  | observe
  | hold
  | free
  | pending
  deriving DecidableEq, Repr

/-- The table that a place is an element of, or the place itself. -/
def Place.table : Place → Place
  | .part _ => .parts
  | .ctx _ => .ctxs
  | .seq _ => .seqs
  | .tset _ => .sets
  | .port _ => .ports
  | q => q

/-- Do two states agree at a place? A table's own name stands for its elements and asks for nothing besides. -/
def Place.same : Place → State → State → Prop
  | .clock, s, t => t.clock = s.clock
  | .fabric, s, t => t.fabric = s.fabric
  | .tiers, s, t => t.fabric.mem = s.fabric.mem
  | .dies, s, t => t.fabric.dies = s.fabric.dies
  | .dict, s, t => t.dict = s.dict
  | .part p, s, t => t.part p = s.part p
  | .ctx k, s, t => t.ctxs.get Context.none k = s.ctxs.get Context.none k
  | .seq p, s, t => t.seq p = s.seq p
  | .vtimes, s, t => t.vtimes = s.vtimes
  | .tset k, s, t => t.tset k = s.tset k
  | .port x, s, t => t.port x = s.port x
  | .orders, s, t => t.orders = s.orders
  | .stagings, s, t => t.stagings = s.stagings
  | .arms, s, t => t.arms = s.arms
  | .media, s, t => t.media = s.media
  | .errors, s, t => t.errors = s.errors
  | .device, s, t => t.errors.device = s.errors.device
  | .guard, s, t => t.guard = s.guard
  | .power, s, t => t.power = s.power
  | .powerState, s, t => t.power.state = s.power.state
  | .powerTarget, s, t => t.power.target = s.power.target
  | .stage, s, t => t.power.stage = s.power.stage
  | .security, s, t => t.security = s.security
  | .life, s, t => t.security.state = s.security.state
  | .lifeDue, s, t => t.security.due = s.security.due
  | .observe, s, t => t.observe = s.observe
  | .hold, s, t => t.hold = s.hold
  | .free, s, t => t.free = s.free
  | .pending, s, t => t.pending = s.pending
  | .parts, _, _ => True
  | .ctxs, _, _ => True
  | .seqs, _, _ => True
  | .sets, _, _ => True
  | .ports, _, _ => True

/-- From `s` to `t` nothing changed but the places of the list, where a table's name lets all its elements change. -/
def Changes (l : List Place) (s t : State) : Prop := ∀ q, q ∉ l → q.table ∉ l → q.same s t

/-- Every place but the queue. -/
def Place.everything : List Place :=
  [.clock, .fabric, .tiers, .dies, .dict, .parts, .ctxs, .seqs, .vtimes, .sets, .ports, .orders, .stagings, .arms,
    .media, .errors, .device, .guard, .power, .powerState, .powerTarget, .stage, .security, .life, .lifeDue,
    .observe, .hold, .free]

/-- The places that a command can change, whatever its operands and the state. -/
def instrPlaces : Instr → List Place
  | .tickBoundary | .dictWrite .. | .portRetrain .. | .portDisable .. | .portEnable .. | .loopbackWrite ..
  | .loopRun .. | .partitionCommit .. | .partitionStart .. | .partitionStop .. | .partitionRelease ..
  | .bankArm .. | .bankDisarm .. | .bankDiscard .. | .nsCreate .. | .nsDelete .. | .tickBaseWrite ..
  | .freeFloorWrite .. | .lockIndex .. | .attnAck .. | .unfreeze .. | .stateRequest .. | .moduleReset ..
  | .lcRequest .. | .lcToken .. | .attestNonce .. | .readList .. | .freezeCounters .. | .releaseCounters ..
  | .armFreeze .. | .dumpRequest .. | .testHoldEnter .. | .testHoldLeave .. | .testStart .. | .auxPowerOn ..
  | .resetAssert | .bankExhausted | .thermalSample .. | .mgmtWatchdog | .ready .. | .aux3v3Loss => Place.everything
  | .partitionResetDone p => [.part p.val]
  | .movePeriodStart p => [.fabric, .dies, .dict, .seq p.val, .vtimes, .sets, .media, .free]
  | .partitionUnitsIdle p _ => [.fabric, .dies, .dict, .seq p.val, .vtimes, .sets, .media, .free]
  | .tickOverrun p | .flagFall p _ | .stepStop p _ =>
    [.fabric, .tiers, .dies, .dict, .ctxs, .seq p.val, .sets, .errors, .observe, .free]
  | .hangWatchdog p => [.dict, .seq p.val, .errors, .observe, .free]
  | .stepComplete p _ | .loadw p | .stream p | .drain p | .sfn p | .normStats p | .normApply p | .chainRecur p
  | .chainPrefix p | .chainOrtho p | .pqtab p | .selectLargest p | .selectSmallest p | .selectSample p
  | .fetch p | .scan p | .check p | .walk p | .walkRerank p | .reduceP p | .reduceQ p | .mark p =>
    [.fabric, .tiers, .dies, .dict, .ctxs, .seq p.val, .vtimes, .sets, .media, .errors, .guard, .observe, .free]
  | .wait p | .loop p | .waitUntil p => [.fabric, .tiers, .dict, .seq p.val, .free]
  | .endStep p _ => [.fabric, .tiers, .dies, .dict, .ctxs, .seq p.val, .vtimes, .sets, .media, .errors, .guard, .observe, .free]
  | .trWrite .. => [.dict, .ctxs, .sets, .ports, .orders]
  | .commandStart x set | .dataTimeout x set | .flush x set | .contextCreate x set | .contextRelease x set
  | .contextTeardown x set => [.tset (setKey x set)]
  | .trRead r _ _ _ | .dbRead r _ | .dataPullOutput r _ _ _ | .claim r _ | .status r | .echo r _
  | .unknownFrameType r _ => [.dict, .port r.port.val]
  | .dataPushInput r set _ _ => [.dict, .tset (setKey r.port set), .port r.port.val]
  | .dataPushMemory r _ _ _ => [.fabric, .tiers, .dies, .dict, .port r.port.val, .errors, .observe, .free]
  | .dataPullMemory r _ _ _ => [.dict, .port r.port.val, .errors, .guard, .observe, .free]
  | .release r => [.dict, .port r.port.val, .security]
  | .dictRead r _ _ _ _ => [.dict, .port r.port.val, .errors, .observe, .free]
  | .persistWriteDone .. | .features .. | .smbusWrite .. =>
    [.dict, .ctxs, .sets, .ports, .stagings, .arms, .media, .errors, .power, .security, .lifeDue, .observe, .free]
  | .segmentTimeout .. | .smbusPointer .. | .smbusLastStatus => [.dict]
  | .frameForward .. => [.dict, .ports]
  | .codewordFail x | .loopRunEnd x _ _ | .attestReportSigned x => [.dict, .port x.val]
  | .headerCrcError x => [.dict, .port x.port.val]
  | .ackTimer x | .creditReturn x _ _ _ | .nakReceived x _ => [.dict, .port x.val, .free]
  | .helloTimer x | .helloReceive x _ | .portAlign x | .trainTimeout x | .signal x
  | .frameLoopback x _ => [.port x.val]
  | .alignmentLost .. => [.dict, .ports, .errors, .observe, .free]
  | .retrainTimeout x => [.dict, .port x.val, .errors, .observe, .free]
  | .ownerLapse x => [.dict, .port x.val, .security]
  | .identify .. | .fwCommitVerify .. | .write .. | .searchDetach .. | .searchUpdate .. =>
    [.ctxs, .sets, .ports]
  | .readComplete .. => [.dict, .ctxs, .vtimes, .sets, .ports]
  | .logRead .. => [.ctxs, .sets, .ports, .errors, .free]
  | .fwDownload .. => [.dict, .ctxs, .sets, .ports, .security, .free]
  | .fwCommitInstall .. => [.dict, .ctxs, .sets, .ports, .security]
  | .sanitizeBlockErase .. | .sanitizeCryptoErase .. => [.ctxs, .sets, .ports, .media]
  | .read x set | .writePieceAccept x set => [.dict, .vtimes, .tset (setKey x set), .media, .errors, .observe, .free]
  | .segmentWriteback .. | .mapCheckpoint => [.media]
  | .pieceProgramDone .. => [.dict, .vtimes, .media, .errors, .observe, .free]
  | .garbageCollection | .readDisturbRelocation .. | .retentionRefresh .. | .wearLevelling | .secureErase .. =>
    [.dict, .media, .free]
  | .discard x set | .secureDiscard x set => [.dict, .vtimes, .tset (setKey x set), .media, .free]
  | .mapSegments x set => [.dict, .vtimes, .tset (setKey x set), .media, .errors, .observe, .free]
  | .checkCommand .. => [.dict, .ctxs, .vtimes, .sets, .ports, .media, .errors, .guard, .observe, .free]
  | .stagingComplete .. => [.dict, .ctxs, .vtimes, .sets, .ports, .stagings, .errors, .observe, .free]
  | .stageModelTable .. | .stageModelScales .. | .stageModelSfTables .. | .stageModelDistance .. =>
    [.dict, .ctxs, .sets, .ports, .stagings, .errors, .guard, .observe, .free]
  | .stageModelFar .. => [.fabric, .tiers, .dict, .ctxs, .vtimes, .sets, .ports, .stagings, .media, .guard, .free]
  | .loadCheck .. =>
    [.fabric, .tiers, .dies, .dict, .ctxs, .seqs, .vtimes, .sets, .ports, .stagings, .media, .errors, .observe, .free]
  | .scanCommand x set => [.dict, .ctxs, .vtimes, .tset (setKey x set), .media, .free]
  | .embed x set | .inferStep x set | .refitStep x set => [.ctxs, .tset (setKey x set)]
  | .searchAttach .. => [.fabric, .tiers, .dict, .ctxs, .vtimes, .sets, .ports, .media, .errors, .observe, .free]
  | .searchQuery .. => [.fabric, .tiers, .dict, .ctxs, .sets, .ports, .errors, .observe, .free]
  | .updateAccept .. =>
    [.fabric, .tiers, .dict, .ctxs, .vtimes, .sets, .ports, .arms, .media, .errors, .observe, .free]
  | .tombstoneReplay p n => [.fabric, .tiers, .ctx (p.val * 16 + n.val)]
  | .powerTransitionDone =>
    [.fabric, .tiers, .dies, .dict, .ctxs, .seqs, .sets, .ports, .stagings, .errors, .power, .powerState, .powerTarget,
      .observe, .free]
  | .p4EntryComplete => [.dict, .media, .power, .powerState, .powerTarget]
  | .lcArmLapse => [.security]
  | .readerPassDone | .freezeLimitExpiry => [.dict, .observe, .free]
  | .testRunEnd .. => [.dict, .observe]
  | .smbusRead => [.dict, .free]
  | .alertResponse | .smbusTimeout => [.dict, .power]
  | .powerSample .. => [.dict, .seqs, .power]
  | .pwrfailAssert | .presentRemoved | .inputOutOfRange =>
    [.fabric, .tiers, .dies, .dict, .parts, .ctxs, .seqs, .sets, .ports, .errors, .power, .stage, .security, .observe, .free]
  | .flushComplete .. => [.dict, .media, .errors, .power, .observe, .free]
  | .powerResume => [.dict, .errors, .device, .power, .observe, .free]
  | .bankMeasure .. | .bankFull .. => [.dict, .errors, .observe, .free]
  | .debugPathAccess .. => [.dict, .errors, .security, .observe, .free]
  | .startupBegin => [.dict, .media, .errors, .guard, .power, .powerState, .stage, .security, .observe, .free]
  | .laneKatDone .. => [.dict, .errors, .power, .observe, .free]
  | .memoryCheckersDone .. => [.dict, .errors, .guard, .power, .observe, .free]
  | .tierZeroed .. => [.dict, .power, .stage]
  | .mapRebuildDone => [.power]
  | .returnErasureDone => [.dict, .media, .errors, .guard, .security, .observe, .free]
  | .innerCodePoll .. | .rowRemap .. => [.dict, .errors, .guard, .observe, .free]
  | .leakInterval => [.dict, .guard]
  | .patrolScrub .. => [.fabric, .dict, .media, .errors, .guard, .observe, .free]
  | .eccSelftest .. | .programFailure .. | .eraseIssue .. | .bandVerify .. | .dieFailure .. =>
    [.dict, .media, .errors, .observe, .free]
  | .eraseComplete .. => [.dict, .sets, .media, .errors, .observe, .free]
  | .eraseHold .. => [.dict, .media]
  | .graphRepairPass .. => [.dict, .ctxs, .media, .free]
  | .snapshotExpiry => [.fabric, .dict, .vtimes, .sets, .stagings, .media, .free]
  | .holdLimitExpiry x set => [.fabric, .dict, .vtimes, .tset (setKey x set), .stagings, .free]
  | .errorRecordRaise .. => [.fabric, .tiers, .dies, .dict, .ctxs, .seqs, .vtimes, .sets, .media, .errors, .observe, .free]
  | .recordClassify =>
    [.fabric, .tiers, .dies, .dict, .parts, .ctxs, .seqs, .sets, .ports, .media, .errors, .device, .security, .observe, .free]
  | .railsInRegulation => [.power, .stage]
  | .stackTrainingDone => [.dict, .media, .errors, .power, .stage, .observe, .free]
  | .testHoldHeld => [.media, .hold]
  | .recordPersisted .. => [.dict, .errors, .security, .free]

/-- From `s` to `t` the dictionary changed only in the numeric objects of the list (index, sub-index). -/
def OnlyObjs (l : List (Nat × Nat)) (s t : State) : Prop :=
  t.dict = { s.dict with objs := t.dict.objs } ∧ ∀ i j, (∀ q ∈ l, objKey i j ≠ objKey q.1 q.2) → t.obj i j = s.obj i j

/-! ## Requests and replies -/

/-- A port has room for any frame: it is UP, nothing waits to be sent, and credits and replay buffer suffice for the 69
cells of the longest frame (13 R323, R325, R328). -/
structure PortSt.Roomy (v : PortSt) : Prop where
  up : v.life = .up
  idle : v.waiting = []
  credits : ∀ c, c < 3 → 69 ≤ v.credits.getD c 0
  replay : v.replay + 69 ≤ 512

/-- A port differs only in what the sending and receiving of cells changes: credits, sequence numbers, the replay buffer,
whose turn it is, and what has left the port. -/
def PortSt.OnlyCells (v w : PortSt) : Prop :=
  w = { v with
    credits := w.credits, owed := w.owed, txSeq := w.txSeq, rxSeq := w.rxSeq, replay := w.replay, sent := w.sent
    cells := w.cells, sinceCtrl := w.sinceCtrl, lastFwd := w.lastFwd }

/-- A request reaches the front end, is good, and comes from the owner of its port where its type is an owner's (13 R332,
R333, R338). -/
structure State.Admits (s : State) (r : Req) (owner : Bool) : Prop where
  reaches : s.reaches r = true
  good : r.good = true
  owned : owner = true → s.owned r = true

/-- The reply to a request was the last thing that its port sent: type, tag and nodes of the request, REPLY set, the status,
ARGS and payload, the port's status word and DEVICE_EPOCH (13 R330, R331). -/
def Replied (s t : State) (r : Req) (type status args : Nat) (payload : Bytes) : Prop :=
  ∃ f, (t.port r.port.val).sent = .frame f :: (s.port r.port.val).sent ∧ f.type = type ∧ f.reply = true
    ∧ f.dst = r.src.toNat ∧ f.src = s.nodeId ∧ f.tag = r.tag.toNat ∧ f.status = status ∧ f.args = args
    ∧ f.payload = payload ∧ f.word = (s.port r.port.val).word.toNat ∧ f.epoch = s.clock.epoch.toNat

/-- ARGS of the reply to a dictionary frame: index, sub-index, total length, token, type code (14 R354, R355). -/
def dictArgs (idx sub total token type : Nat) : Nat :=
  idx * 2 ^ 240 + sub * 2 ^ 232 + total * 2 ^ 192 + token * 2 ^ 176 + type * 2 ^ 168

/-- A write of `size` bytes to an object was answered with OK (14 R355). -/
def Accepted (s t : State) (r : Req) (idx sub size type : Nat) : Prop :=
  Replied s t r 0x11 0x0000 (dictArgs idx sub size 0 type) []

/-- A control was accepted: OK was answered, and it waits for the boundary behind the controls accepted before it
(14 R356). -/
def Waits (s t : State) (r : Req) (idx sub size type v : Nat) : Prop :=
  t.dict = { s.dict with ctl := s.dict.ctl ++ [⟨some r.port, idx, sub, v⟩] }
    ∧ Accepted s t r idx sub size type
    ∧ (s.port r.port.val).OnlyCells (t.port r.port.val) ∧ Changes [.port r.port.val, .dict] s t

/-- A request of the owner of a port that is served, with room for its reply. -/
structure State.Serves (s : State) (r : Req) : Prop where
  admits : s.Admits r true
  roomy : (s.port r.port.val).Roomy
  noReset : s.clock.running = true ∨ s.power.resetAt = none

/-! ## Completion records -/

/-- The command of a set was posted: the set is DONE, its record holds COUNT, step, status and the epoch, and its doorbell
bit is raised (15 R374, R378). -/
def Posted (s t : State) (x : Port) (set : SetId) (status count step : Nat) : Prop :=
  (t.tset (setKey x set)).life = .done ∧ (t.tset (setKey x set)).due = none ∧ (t.tset (setKey x set)).tr14 = s.clock.epoch
    ∧ (t.tset (setKey x set)).tr15 = BitVec.ofNat 64 (field 32 32 count + field 12 20 step + field 16 0 status)
    ∧ (t.port x.val).db = (s.port x.val).db ||| BitVec.ofNat 32 (2 ^ (set.val / 2))

/-- The command of a set is to be posted in the completion window of the next boundary (01 R36). -/
def Due (t : State) (x : Port) (set : SetId) (status count step : Nat) : Prop :=
  (t.tset (setKey x set)).due = some status ∧ (t.tset (setKey x set)).count = count
    ∧ (t.tset (setKey x set)).dueStep = step

/-- What a block's read delivers, if it delivers anything. -/
def BlockRead.content : BlockRead → Option Mem
  | .data m => some m
  | _ => none

/-! ## Step trace -/

/-- The step trace of a partition is off (19 R471). -/
def State.untraced (s : State) (p : Nat) : Prop := bitOf (s.gov (0x9020 + p) 3) 0 = false

/-! ## The write buffer -/

/-- Copy A of every block of a piece passes the drain check as the block was written (10 R274). -/
def State.drainsWell (s : State) (p : Piece) : Bool :=
  (List.range p.blocks).all (fun j => match s.pieceData p (p.start + j) with
    | some x => decide (s.drainOf p (p.start + j) x.1 x.2.1 = some x.1)
    | none => true)

/-! ## Error records -/

/-- The record in the slot of the ring that a SEQ has (16 R405). -/
def Errors.slot (e : Errors) (seq : BitVec 32) : Option Rec :=
  (e.ring.find? (fun x => decide (x.1 = seq.toNat % 64))).map Prod.snd

/-- Every record of the ring lies in the slot of its SEQ, and every slot holds one record at most (16 R405). -/
def Errors.InPlace (e : Errors) : Prop :=
  (e.ring.map Prod.fst).Nodup ∧ ∀ x, x ∈ e.ring → x.1 = x.2.seq.toNat % 64

/-- The slot of the next SEQ holds no record that is QUEUED or HANDLING. -/
def State.SlotFree (s : State) : Prop := ∀ r, s.errors.slot s.errors.next = some r → r.open = false

/-- One record was raised: it has the next SEQ, is QUEUED, and its report is as `ok` says (16 R399, R405, R406). -/
def Raised (s t : State) (ok : Report → Prop) : Prop :=
  ∃ r, t.errors.slot s.errors.next = some r ∧ r.seq = s.errors.next ∧ r.epoch = s.clock.epoch ∧ r.st = .queued
    ∧ r.escalated = false ∧ r.related = 0 ∧ t.errors.next = s.errors.next + 1 ∧ ok r.rep

end Sys2Proof.Machine
end

