-- ==== Sys2Proof/WellFormed.lean ====
section
/-! DEFINITION. Well-formed commands: operands that can occur on the module's ports, pins and arrays. The meanings do not
depend on it; it says which commands an environment sends. -/

namespace Sys2Proof

/-- A request: a frame never comes from node 0 (R337). -/
def Req.wf (r : Req) : Bool := decide (r.src ≠ 0)

/-- A payload fits a frame (R328). -/
def fitsFrame (b : Bytes) : Bool := decide (b.length ≤ 8192)

/-- A frame in transit has a payload that fits it (R328), and a destination (R338). -/
def Transit.wf (f : Transit) : Bool := fitsFrame f.payload && decide (f.dst ≠ 0)

/-- A time after the last boundary lies within the longest base tick, 20 ms (R42). -/
def withinTick (t : Nat) : Bool := decide (t ≤ 2000000)

/-- A block of the array (R198). -/
def inArray (block : Nat) : Bool := decide (block < 8388608)

/-- A checker that exists (R195). -/
def Checker.wf : Checker → Bool
  | .near k pc => decide (k < 16 ∧ pc < 16)
  | .far k pc => decide (k < 8 ∧ pc < 16)
  | .scratch b => decide (b < 96)

/-- No element twice. -/
def distinct {α : Type} [DecidableEq α] : List α → Bool
  | [] => true
  | a :: l => decide (a ∉ l) && distinct l

/-- Types of R329: a frame of one of these is not an unknown one. -/
def frameTypes : List Nat := [0x01, 0x02, 0x03, 0x04, 0x10, 0x11, 0x20, 0x21, 0x22, 0x30, 0x31]

/-- A report's severity is one of the five of R398. -/
def Report.wf (r : Report) : Bool := decide (r.severity.toNat ≤ 4)

/-- A row of a stack's pseudo-channel (R170, R171, R188). -/
def rowWf (tier : Tier) (stack pc row : Nat) : Bool :=
  match tier with
  | .near => decide (stack < 16 ∧ pc < 16 ∧ row < 2 ^ 21)
  | .far => decide (stack < 8 ∧ pc < 16 ∧ row < 2 ^ 23)
  | .scratch => false

/-- The requirement on a command's operands, where there is one. -/
def Instr.wf : Instr → Bool
  | .partitionUnitsIdle _ t => withinTick t
  | .endStep _ t => withinTick t
  | .loadCheck _ _ t => withinTick t
  | .trWrite r _ _ first count payload => r.wf && fitsFrame payload && decide (first.val + count.val ≤ 15)
  | .trRead r _ first count => r.wf && decide (first.val + count.val ≤ 15)
  | .dbRead r _ => r.wf
  | .dataPushInput r _ _ payload => r.wf && fitsFrame payload
  | .dataPushMemory r _ _ payload => r.wf && fitsFrame payload
  | .dataPullOutput r _ _ _ => r.wf
  | .dataPullMemory r _ _ _ => r.wf
  | .claim r _ => r.wf
  | .release r => r.wf
  | .status r => r.wf
  | .echo r payload => r.wf && fitsFrame payload
  | .dictRead r _ _ _ _ => r.wf
  | .dictWrite r _ _ _ _ payload => r.wf && fitsFrame payload
  | .unknownFrameType r type => r.wf && decide (type.toNat ∉ frameTypes)
  | .headerCrcError x => decide (1 ≤ x.cells ∧ x.cells ≤ 69)
  | .frameForward _ f => f.wf
  | .frameLoopback _ f => f.wf
  | .dumpRequest r t => r.wf && withinTick t
  | .lcToken r token => r.wf && decide (token.length = 576)
  | .attestNonce r _ nonce => r.wf && decide (nonce.length = 32)
  | .readList r ids => r.wf && decide (ids.length % 2 = 0 ∧ ids.length ≤ 17920) && fitsFrame ids
  | .portRetrain r _ => r.wf
  | .portDisable r _ => r.wf
  | .portEnable r _ => r.wf
  | .loopbackWrite r _ _ => r.wf
  | .loopRun r _ _ => r.wf
  | .partitionCommit r _ => r.wf
  | .partitionStart r _ => r.wf
  | .partitionStop r _ => r.wf
  | .partitionRelease r _ => r.wf
  | .bankArm r _ _ _ => r.wf
  | .bankDisarm r _ _ _ => r.wf
  | .bankDiscard r _ _ _ => r.wf
  | .nsCreate r _ => r.wf
  | .nsDelete r _ => r.wf
  | .tickBaseWrite r _ => r.wf
  | .freeFloorWrite r _ => r.wf
  | .lockIndex r _ => r.wf
  | .attnAck r _ _ => r.wf
  | .unfreeze r _ _ => r.wf
  | .stateRequest r _ => r.wf
  | .moduleReset r _ => r.wf
  | .lcRequest r _ => r.wf
  | .freezeCounters r => r.wf
  | .releaseCounters r => r.wf
  | .armFreeze r => r.wf
  | .testHoldEnter r => r.wf
  | .testHoldLeave r => r.wf
  | .testStart r _ => r.wf
  | .smbusWrite _ _ value _ => decide (1 ≤ value.length ∧ value.length ≤ 29)
  | .memoryCheckersDone l => l.all Checker.wf && distinct l
  | .eccSelftest c _ => c.wf
  | .innerCodePoll l => distinct (l.map Prod.fst) && l.all (fun c => decide (c.1 < 24))
  | .rowRemap tier stack pc row => rowWf tier stack pc row
  | .programFailure b => inArray b
  | .eraseIssue b => inArray b
  | .eraseComplete b _ => inArray b
  | .eraseHold b => inArray b
  | .secureErase b => inArray b
  | .readDisturbRelocation b => inArray b
  | .bandVerify _ weak => distinct weak && weak.all (fun u => decide (u < 2 ^ 37))
  | .segmentWriteback _ region => decide (region < 2 ^ 29)
  | .dieFailure channel die => decide (channel < 128 ∧ die < 16)
  | .errorRecordRaise rep => rep.wf
  | _ => true

end Sys2Proof
end

