-- ==== Sys2Proof/Certificates/Slice0/Obligations.lean ====
section
/-! DEFINITION. The statements for the provers, by chapter of the spec. -/

open Sys2Proof Sys2Proof.Machine

/-! ## The block as a whole (01, 16) -/

/-- A step takes the command at the front of the queue and runs it with the queue's rest; on an empty queue the module
idles (the model's choice, log 1). -/
def Obligations.StepRunsTheFrontCommand : Prop :=
  ∀ (c : Instr) (rest : List Instr) (s : State),
    step { s with pending := c :: rest } = exec c { s with pending := rest } ∧
    step { s with pending := [] } = .next { s with pending := [] }

/-- Every command is carried out to the end: no command stops the module, whatever its operands and the state, every
error being a record, a reply or a completion (16 R398), and no command touches the commands that wait behind it. -/
def Obligations.EveryStepIsSafe : Prop :=
  (∀ (c : Instr) (s : State), ∃ t, exec c s = .next t ∧ t.pending = s.pending) ∧ (∀ s : State, Safe s)

/-- Every command changes only the places that are its own, whatever its operands and the state; the queue is none of
them. -/
def Obligations.CommandsKeepToTheirPlaces : Prop :=
  ∀ (c : Instr) (s t : State), exec c s = .next t → Place.pending ∉ instrPlaces c ∧ Changes (instrPlaces c) s t

/-- The modes stay legal: LC_STATE, DEVICE_STATE, TEST_STATE, the power state, START_STAGE, and what a boundary or a
transition is to put there, whatever the command (16 R402; 17 R419, R441; 18 R443; 20 R491). -/
def Obligations.ModesStayLegal : Prop :=
  ∀ (s t : State), s.Sound → step s = .next t → t.Sound

/-- Only a boundary changes the life-cycle state: the tick's, or READY, which is boundary 0 (18 R446). What
one-time-programmable memory holds only grows, whatever the command: transition words, rollback floors, revoked key
slots, the word of SCRAP, the digest of the identity; and a RETIRED block stays RETIRED (09 R235; 18 R443, R448). -/
def Obligations.OneTimeStateOnlyGrows : Prop :=
  ∀ (c : Instr) (s t : State), exec c s = .next t →
    (t.security.state ≠ s.security.state → c = .tickBoundary ∨ ∃ m, c = .ready m) ∧
    s.security.words <+: t.security.words ∧ s.security.floors <+: t.security.floors ∧
    (∀ k, bitOf s.security.revoked k = true → bitOf t.security.revoked k = true) ∧
    (∀ w, s.security.scrapWord = some w → t.security.scrapWord = some w) ∧
    (∀ k, s.security.idWord = some k → t.security.idWord = some k) ∧
    (∀ b, b ∈ s.media.retired → b ∈ t.media.retired)

/-- What reset leaves: a module PROVISIONED, NORMAL, in P0 and at stage 0, with no boundary yet, nothing in its tiers,
its partitions FREE, its sets IDLE, its ports DOWN and unowned, no record, no transfer and no command; its modes are
legal (the reset values that the spec does not give are the model's choice, logs 2 and 3). -/
def Obligations.ResetIsSound : Prop :=
  State.reset.Sound ∧ State.reset.modes = ⟨1, 0, 0, 0, 0⟩ ∧ State.reset.clock.running = false ∧ State.reset.clock.epoch = 0 ∧
  State.reset.fabric.mem = [] ∧ (∀ a, State.reset.fabric.mem.read a = 0) ∧
  (∀ p, (State.reset.part p).life = .free ∧ (State.reset.seq p).run = none) ∧
  (∀ k, (State.reset.tset k).life = .idle) ∧
  (∀ x, (State.reset.port x).life = .down ∧ (State.reset.port x).node = 0) ∧
  State.reset.errors.ring = [] ∧ State.reset.errors.next = 0 ∧ State.reset.dict.ctl = [] ∧ State.reset.media.pending = [] ∧
  State.reset.obj 0x1100 1 = 0x0FF8 ∧ State.reset.pending = []

/-! ## The link and its ports (13) -/

/-- R338 (13): a frame with DST_NODE 0 is taken by the first module that receives it, whatever its NODE_ID: it reaches
the front end of a port that is UP and holds fewer than 64 control requests (R327), a STATUS among them is answered; and it is never forwarded. -/
def Obligations.NodeZeroIsTaken : Prop :=
  ∀ (s : State) (r : Req) (x : Port) (f : Transit),
    (r.dst = 0 → (s.port r.port.val).life = .up → r.chan = .data ∨ s.requestsHeld r.port.val < 64 → s.reaches r = true) ∧
    (r.dst = 0 → r.chan = .data ∨ s.requestsHeld r.port.val < 64 → r.good = true → (s.port r.port.val).Roomy →
      ∃ t, exec (.status r) s = .next t ∧ Replied s t r 0x03 0x0000 0 [] ∧ Changes [.port r.port.val] s t) ∧
    (f.dst = 0 → exec (.frameForward x f) s = .next s)

/-- STATUS, ECHO and a frame of an unknown type are answered at once, and change nothing but the sending state of their
port (R329, R336, R345). A frame for another node is forwarded by the forwarding table, its hop count lowered by one,
to a port that is UP and not the one it came on; a frame with no hops left, and a frame that the table or the ports
drop, is counted and not answered (R339, R340). -/
def Obligations.LinkFramesAreHandled : Prop :=
  (∀ (s : State) (r : Req) (payload : Bytes) (type : Byte), s.Admits r false → (s.port r.port.val).Roomy →
     payload.length ≤ 8192 →
     (∃ t, exec (.status r) s = .next t ∧ Replied s t r 0x03 0x0000 0 [] ∧ Changes [.port r.port.val] s t
       ∧ (s.port r.port.val).OnlyCells (t.port r.port.val)) ∧
     (∃ t, exec (.echo r payload) s = .next t ∧ Replied s t r 0x04 0x0000 0 payload ∧ Changes [.port r.port.val] s t
       ∧ (s.port r.port.val).OnlyCells (t.port r.port.val)) ∧
     (type.toNat ∉ frameTypes → ∃ t, exec (.unknownFrameType r type) s = .next t ∧ Replied s t r type.toNat 0x0601 0 []
       ∧ Changes [.port r.port.val] s t ∧ (s.port r.port.val).OnlyCells (t.port r.port.val))) ∧
  (∀ (s : State) (x : Port) (f : Transit), (s.port x.val).life = .up → f.dst ≠ 0 → f.dst.toNat ≠ s.nodeId →
     let b := ((s.govDom 0x1100 2).getD (f.dst.toNat / 2) 0).toNat
     let e := if f.dst.toNat % 2 = 0 then b % 16 else b / 16
     ∃ t, exec (.frameForward x f) s = .next t ∧
       (f.hops = 0 → t.obj 0x1100 5 = (s.obj 0x1100 5 + 1) % 2 ^ 64 ∧ OnlyObjs [(0x1100, 5)] s t
         ∧ Changes [.port x.val, .dict] s t) ∧
       (f.hops ≠ 0 → 1 ≤ e → e ≤ 4 → e - 1 ≠ x.val → (s.port (e - 1)).Roomy → transitCells f ≤ 69 →
         (t.port (e - 1)).sent = .forward x { f with hops := f.hops - 1 } false :: (s.port (e - 1)).sent
         ∧ (s.port (e - 1)).OnlyCells (t.port (e - 1)) ∧ Changes [.port x.val, .port (e - 1)] s t) ∧
       (f.hops ≠ 0 → (e = 0 ∨ 4 < e ∨ e - 1 = x.val ∨ (s.port (e - 1)).life ≠ .up) →
         t.obj 0x1100 4 = (s.obj 0x1100 4 + 1) % 2 ^ 64 ∧ OnlyObjs [(0x1100, 4)] s t ∧ Changes [.port x.val, .dict] s t)
       ∧ (t.port x.val).rxSeq = (s.port x.val).rxSeq + BitVec.ofNat 12 (transitCells f)
       ∧ (t.port x.val).owed = (s.port x.val).owed.set (chanNo f.chan)
           ((s.port x.val).owed.getD (chanNo f.chan) 0 + transitCells f))

/-- CLAIM gives an unowned port to its sender, is confirmed to the owner with the owner's instance, and is refused to
everyone else with the owner's node (R333). RELEASE by the owner, and a link that has stayed out of UP too long, end
the ownership of the port: it has no owner, its stream is to be frozen at the next boundary, its open transfers end,
and the arms that were made on it, of RETURN and of SCRAP, lapse, those of other ports staying (R333, R334; 14 R360; 18 R445, R446). -/
def Obligations.OwnershipIsDecided : Prop :=
  (∀ (s : State) (r : Req) (inst : BitVec 64), s.Admits r false → (s.port r.port.val).Roomy →
     ∃ t, exec (.claim r inst) s = .next t ∧ Changes [.port r.port.val] s t ∧
       ((s.port r.port.val).node = 0 → Replied s t r 0x01 0x0000 (r.src.toNat * 2 ^ 244) [] ∧
         ({ s.port r.port.val with node := r.src, host := inst } : PortSt).OnlyCells (t.port r.port.val)) ∧
       ((s.port r.port.val).node ≠ 0 → (s.port r.port.val).OnlyCells (t.port r.port.val) ∧
         Replied s t r 0x01
           (if (s.port r.port.val).node = r.src ∧ (s.port r.port.val).host = inst then 0x0000 else 0x0501)
           ((s.port r.port.val).node.toNat * 2 ^ 244) [])) ∧
  (∀ (s : State) (r : Req) (x : Port),
     let ended := fun (y : Port) (t : State) => (t.port y.val).node = 0 ∧ (t.port y.val).host = 0
       ∧ (t.port y.val).freezeDue = (s.port y.val).freezeDue ||| 0x200
       ∧ t.dict.reads = s.dict.reads.filter (fun o => decide (o.port ≠ y))
       ∧ t.dict.writes = s.dict.writes.filter (fun o => decide (o.port ≠ y))
       ∧ t.dict.objs = s.dict.objs ∧ t.dict.gov = s.dict.gov ∧ t.dict.jobs = s.dict.jobs ∧ t.security.state = s.security.state
       ∧ t.security = { s.security with arms := s.security.arms.filter (fun a => decide (a.2.1 ≠ y)) }
       ∧ Changes [.port y.val, .dict, .security] s t
     (s.Admits r true → (s.port r.port.val).Roomy →
       ∃ t, exec (.release r) s = .next t ∧ Replied s t r 0x02 0x0000 0 [] ∧ ended r.port t) ∧
     ((s.port x.val).life ≠ .up → (s.port x.val).node ≠ 0 →
       ∃ t, exec (.ownerLapse x) s = .next t ∧ ended x t))

/-- The events of the cell layer on a port that exchanges cells: a failed codeword is counted and answered with a NAK
for the cells after the last good one; a NAK is counted, frees what it acknowledges and has the rest sent again; the
acknowledgement timer sends an ACK with the credits that the port owes, in idle cells of their own, those of the data channel
not while the write buffer is short and those of cells in transit not while they wait (R322, R323, R325; 08 R214; log 53); a
header CRC error is counted, and the cells of its
frame came good (R323, R324, R325). Credits that return are added to their channel, the acknowledged cells leave the replay
buffer, and the frames that waited are sent as far as the credits then allow (R323, R325); a generator goes on (R346). Only where
the replay buffer was full may stalls have been counted; the corrected codewords that the timer counts are a free number (R347;
log 17). A failed codeword is counted in every state in which the port decodes (R347). A port that retrains takes acknowledgements
and credits, and sends nothing for them (R344). In loopback mode 2 an idle cell goes back as it came (R345; its SEQ is free, log
104). -/
def Obligations.CellLayerEvents : Prop :=
  (∀ (s : State) (x : Port) (ack : BitVec 12), (s.port x.val).life = .up ∨ (s.port x.val).life = .loopback →
     s.echoes x = false →
     let v := s.port x.val
     let idx := 0x1110 + x.val
     let stalled := fun (t : State) => v.replay < 512 → t.obj idx 0x0D = s.obj idx 0x0D
     (∃ t, exec (.codewordFail x) s = .next t
       ∧ t.port x.val = { v with sent := .nak v.rxSeq.toNat :: v.sent, cells := (v.idleHead true, []) :: v.cells }
       ∧ t.obj idx 0x0B = (s.obj idx 0x0B + 1) % 2 ^ 64 ∧ OnlyObjs [(idx, 0x0B)] s t ∧ Changes [.port x.val, .dict] s t) ∧
     ((v.txSeq - ack - 1).toNat ≤ v.replay → v.waiting = [] →
       ∃ t, exec (.nakReceived x ack) s = .next t
         ∧ t.port x.val = PortSt.feed s.nodeId x.val feedFuel { v with
             replay := (v.txSeq - ack - 1).toNat
             sent := .resend (ack + 1).toNat (v.txSeq - ack - 1).toNat :: v.sent
             cells := ({ v with replay := (v.txSeq - ack - 1).toNat } : PortSt).kept ++ v.cells }
         ∧ t.obj idx 0x0C = (s.obj idx 0x0C + 1) % 2 ^ 64 ∧ OnlyObjs [(idx, 0x0C), (idx, 0x0D)] s t ∧ stalled t
         ∧ Changes [.port x.val, .dict, .free] s t) ∧
     (let held := v.owed.zipIdx.map (fun c => c.1 - s.heldCells x.val c.2)
      let back := if s.withheld then held.set 1 0 else held
      ∃ t, exec (.ackTimer x) s = .next t
       ∧ t.port x.val = { v with
           owed := List.zipWith (· - ·) v.owed back
           sent := .ack v.rxSeq.toNat back :: v.sent
           cells := ((idleHeaders v.txSeq.toNat v.rxSeq.toNat back).map (fun h => (h, []))).reverse ++ v.cells }
       ∧ OnlyObjs [(idx, 0x0A), (idx, 0x0D)] s t ∧ stalled t ∧ Changes [.port x.val, .dict, .free] s t) ∧
     (∀ (c : Chan) (n : Nat), ∃ t, exec (.headerCrcError ⟨x, c, n⟩) s = .next t ∧ t.port x.val = { v with
           owed := v.owed.set (chanNo c) (v.owed.getD (chanNo c) 0 + n), rxSeq := v.rxSeq + BitVec.ofNat 12 n }
       ∧ t.obj idx 0x0E = (s.obj idx 0x0E + 1) % 2 ^ 64
       ∧ OnlyObjs [(idx, 0x0E)] s t ∧ Changes [.port x.val, .dict] s t)) ∧
  (∀ (s : State) (x : Port) (vc : Chan) (cells ack : BitVec 12),
     (s.port x.val).life = .up ∨ (s.port x.val).life = .loopback → s.echoes x = false →
     let v := s.port x.val
     ∃ t, exec (.creditReturn x vc cells ack) s = .next t ∧ Changes [.port x.val, .dict, .free] s t ∧
       OnlyObjs [(0x1110 + x.val, 0x0D)] s t ∧ (v.replay < 512 → Changes [.port x.val] s t) ∧
       (v.waiting = [] → (v.txSeq - ack - 1).toNat ≤ v.replay → chanNo vc < v.credits.length →
         t.port x.val = PortSt.feed s.nodeId x.val feedFuel { v with
           replay := (v.txSeq - ack - 1).toNat
           credits := v.credits.set (chanNo vc) (v.credits.getD (chanNo vc) 0 + cells.toNat) }) ∧
       (∀ c n f, v.waiting = [(c, n, f)] → v.loopRun = none → c = vc → chanNo vc < v.credits.length → 1 ≤ n → n ≤ cells.toNat → v.replay + n ≤ 512 →
         (t.port x.val).sent = f :: v.sent ∧ (t.port x.val).waiting = [])) ∧
  (∀ (s : State) (x : Port) (vc : Chan) (cells ack : BitVec 12),
     let v := s.port x.val
     (s.echoes x = true ∨ v.life = .aligned ∨ v.life = .trainFailed ∨ v.life = .retraining →
       ∃ t, exec (.codewordFail x) s = .next t ∧ t.obj (0x1110 + x.val) 0x0B = (s.obj (0x1110 + x.val) 0x0B + 1) % 2 ^ 64
         ∧ OnlyObjs [(0x1110 + x.val, 0x0B)] s t ∧ Changes [.dict] s t) ∧
     (v.life = .retraining →
       (∃ t, exec (.nakReceived x ack) s = .next t ∧ t.port x.val = v.acked ack ∧ Changes [.port x.val] s t) ∧
       (∃ t, exec (.creditReturn x vc cells ack) s = .next t ∧ Changes [.port x.val] s t ∧ t.port x.val = { v.acked ack with
           credits := v.credits.set (chanNo vc) (v.credits.getD (chanNo vc) 0 + cells.toNat) })) ∧
     (s.echoes x = true →
       (∃ t seq, exec (.nakReceived x ack) s = .next t ∧ Changes [.port x.val, .free] s t ∧ t.port x.val = { v with
           sent := .nak ack.toNat :: v.sent, cells := (cellHeader 3 false false seq ack.toNat true 3 0 0, []) :: v.cells }) ∧
       (∃ t, exec (.ackTimer x) s = .next t ∧ t.port x.val = v)))

/-- The steps that bring a port up: power on its fibre makes it SIGNAL, locked markers ALIGNED; until it is UP it sends
hellos; a hello of VERSION 1 with credits for a frame makes it UP with the peer's credits, SEQ and ACK_SEQ from 0, and
any other TRAIN_FAILED; a port that stays in SIGNAL or ALIGNED too long returns to DOWN (R325, R343). Where LOOPBACK governs, the port
loops in place of being UP, and in mode 2 it sends the peer's hellos back and none of its own (R345; log 104). After a retrain the
cells go again that the hello does not acknowledge (R344). -/
def Obligations.PortsAreBroughtUp : Prop :=
  ∀ (s : State) (x : Port) (h : Hello),
    let v := s.port x.val
    (v.life = .down → s.power.railsUp = true → ∃ t, exec (.signal x) s = .next t
      ∧ t.port x.val = { v with life := .signal } ∧ Changes [.port x.val] s t) ∧
    (v.life = .signal → ∃ t, exec (.portAlign x) s = .next t
      ∧ t.port x.val = { v with life := .aligned } ∧ Changes [.port x.val] s t) ∧
    (v.life = .aligned ∨ v.life = .trainFailed ∨ v.life = .retraining → s.gov (0x1110 + x.val) 6 ≠ 2 → ∃ t, exec (.helloTimer x) s = .next t
      ∧ t.port x.val = { v with
          sent := .hello (helloBytes s.nodeId) :: v.sent, cells := (v.helloHead, helloBytes s.nodeId) :: v.cells }
      ∧ Changes [.port x.val] s t) ∧
    (v.life = .signal ∨ v.life = .aligned → ∃ t, exec (.trainTimeout x) s = .next t
      ∧ t.port x.val = { v with life := .down } ∧ Changes [.port x.val] s t) ∧
    (v.life = .aligned ∨ v.life = .trainFailed →
      (h.version = 1 → 16 ≤ h.ctrl.toNat → 69 ≤ h.data.toNat → 69 ≤ h.fwd.toNat → s.gov (0x1110 + x.val) 6 = 0 →
        ∃ t, exec (.helloReceive x h) s = .next t ∧ (t.port x.val).life = .up
          ∧ (t.port x.val).credits = [h.ctrl.toNat, h.data.toNat, h.fwd.toNat]
          ∧ (t.port x.val).txSeq = 0 ∧ (t.port x.val).rxSeq + 1 = 0 ∧ (t.port x.val).replay = 0
          ∧ (t.port x.val).peerNode = h.node ∧ (t.port x.val).peerModule = decide (h.role = 1)
          ∧ (t.port x.val).node = v.node ∧ (t.port x.val).host = v.host ∧ Changes [.port x.val] s t) ∧
      ((h.version ≠ 1 ∨ h.ctrl.toNat < 16 ∨ h.data.toNat < 69 ∨ h.fwd.toNat < 69) →
        s.gov (0x1110 + x.val) 6 ≠ 2 → ∃ t, exec (.helloReceive x h) s = .next t ∧ t.port x.val = { v with life := .trainFailed }
          ∧ Changes [.port x.val] s t) ∧
      (helloGood h = true → s.gov (0x1110 + x.val) 6 ≠ 0 →
        ∃ t, exec (.helloReceive x h) s = .next t ∧ (t.port x.val).life = .loopback
          ∧ (t.port x.val).credits = [h.ctrl.toNat, h.data.toNat, h.fwd.toNat]
          ∧ (t.port x.val).txSeq = 0 ∧ (t.port x.val).rxSeq + 1 = 0 ∧ (t.port x.val).replay = 0
          ∧ (s.gov (0x1110 + x.val) 6 = 2 → (t.port x.val).sent = .hello (helloPayload h) :: v.sent
              ∧ (t.port x.val).cells = (helloHeader h, helloPayload h) :: v.cells)
          ∧ (s.gov (0x1110 + x.val) 6 ≠ 2 → (t.port x.val).sent = v.sent ∧ (t.port x.val).cells = v.cells)
          ∧ Changes [.port x.val] s t)) ∧
    (v.life = .retraining → helloGood h = true → v.waiting = [] → s.gov (0x1110 + x.val) 6 = 0 →
      let w := v.acked h.ack
      ∃ t, exec (.helloReceive x h) s = .next t ∧ (t.port x.val).life = .up ∧ (t.port x.val).credits = v.credits
        ∧ (t.port x.val).replay = w.replay ∧ (t.port x.val).txSeq = v.txSeq ∧ (t.port x.val).rxSeq = v.rxSeq
        ∧ (w.replay ≠ 0 → (t.port x.val).sent =
            .resend (v.txSeq - BitVec.ofNat 12 w.replay).toNat w.replay :: v.sent)
        ∧ Changes [.port x.val] s t)

/-- A port that loses alignment retrains: it keeps its replay buffer, credits and numbers, is counted, and its
transfers end; the frames that came in on it are ended (R342, R344; 14 R360). A third retrain within a second sends it DOWN with
its record (R344; the time is the module's, log 12). A retrain that lasts too long sends the
port DOWN: what it held for its peer is lost, its owner stays, and a record of cause LINK_DOWN tells its number (R344;
16 R404). In loopback mode 3 a port returns each frame with its nodes swapped and REPLY set, on the channel that
forwarding would use; in mode 2 as it came; in modes 1 and 5 the generator checks it and goes on (R345, R346). The end of a
loopback run: LOOP_RESULT holds the counts of what was checked, with those of the frames that no command has shown (log 103), and is
valid; no frame that has not begun to leave is sent (R346, R347). -/
def Obligations.LinksRetrainAndLoop : Prop :=
  (∀ (s : State) (x : Port), (s.port x.val).life = .up ∨ (s.port x.val).life = .loopback →
     let before := s.lateRetrains (s.port x.val)
     ∃ t, exec (.alignmentLost x) s = .next t
       ∧ (before.length < 2 → t.port x.val = { s.port x.val with
           life := .retraining, retrains := s.clock.now :: before
           waiting := (s.port x.val).waiting.filter (fun w => !isForward w.2.2) } ∧ Changes [.ports, .dict] s t)
       ∧ (2 ≤ before.length → t.port x.val = { s.port x.val with
           life := .down, retrains := s.clock.now :: before
           credits := [0, 0, 0], owed := [0, 0, 0], replay := 0, waiting := [], loopRun := none }
         ∧ (s.SlotFree → Raised s t (fun r => r.cause = 0x0070 ∧ r.sourceKind = 5 ∧ r.sourceId.toNat = x.val
             ∧ r.portValid = false ∧ r.severity = 0)))
       ∧ (∀ y, y < 4 → y ≠ x.val → t.port y = { s.port y with
           waiting := (s.port y).waiting.map (cutForward x) })
       ∧ t.obj (0x1110 + x.val) 0x10 = min (s.obj (0x1110 + x.val) 0x10 + 1) (2 ^ 32 - 1)
       ∧ t.dict.reads = s.dict.reads.filter (fun o => decide (o.port ≠ x))
       ∧ t.dict.writes = s.dict.writes.filter (fun o => decide (o.port ≠ x))
       ∧ t.dict.gov = s.dict.gov ∧ Changes [.ports, .dict, .errors, .observe, .free] s t) ∧
  (∀ (s : State) (x : Port), (s.port x.val).life = .retraining → s.SlotFree →
     ∃ t, exec (.retrainTimeout x) s = .next t
       ∧ t.port x.val = { s.port x.val with
           life := .down, credits := [0, 0, 0], owed := [0, 0, 0], replay := 0, waiting := [], loopRun := none }
       ∧ Raised s t (fun r => r.cause = 0x0070 ∧ r.sourceKind = 5 ∧ r.sourceId.toNat = x.val
           ∧ r.portValid = false ∧ r.severity = 0)
       ∧ Changes [.port x.val, .dict, .errors, .free, .observe] s t) ∧
  (∀ (s : State) (x : Port) (f : Transit), (s.port x.val).life = .loopback → s.gov (0x1110 + x.val) 6 = 3 →
     (s.port x.val).waiting = [] → (∀ c, c < 3 → transitCells f ≤ (s.port x.val).credits.getD c 0) →
     (s.port x.val).replay + transitCells f ≤ 512 →
     ∃ t, exec (.frameLoopback x f) s = .next t
       ∧ (t.port x.val).sent = .forward x { f with src := f.dst, dst := f.src, reply := true } false :: (s.port x.val).sent
       ∧ (s.port x.val).OnlyCells (t.port x.val) ∧ Changes [.port x.val] s t) ∧
  (∀ (s : State) (x : Port) (f : Transit), (s.port x.val).life = .loopback →
     let v := s.port x.val
     (s.gov (0x1110 + x.val) 6 = 2 → ∃ t, exec (.frameLoopback x f) s = .next t
       ∧ t.port x.val = { v with sent := .forward x f false :: v.sent } ∧ Changes [.port x.val] s t) ∧
     (∀ g, (s.gov (0x1110 + x.val) 6 = 1 ∨ s.gov (0x1110 + x.val) 6 = 5) → v.loopRun = some g →
       ∃ t, exec (.frameLoopback x f) s = .next t ∧ Changes [.port x.val] s t
         ∧ t.port x.val = PortSt.feed s.nodeId x.val feedFuel { v.gets (chanNo f.chan) (transitCells f) with
             loopRun := some (if f.tag.toNat < g.next ∧ transitBytes f = (loopFrame loopSeed s.nodeId x.val f.tag.toNat).bytes
               then { g with good := g.good + 1 } else { g with failed := g.failed + 1 }) })) ∧
  (∀ (s : State) (x : Port) (good failed : Nat) (g : LoopRun), (s.port x.val).loopRun = some g →
     g.good + good < 2 ^ 32 → g.failed + failed < 2 ^ 31 →
     ∃ t, exec (.loopRunEnd x good failed) s = .next t
       ∧ t.port x.val = { s.port x.val with
           loopRun := none, waiting := (s.port x.val).waiting.filter (fun w => decide (w.2.1 < w.2.2.cells))
           sent := .run (good + failed) :: (s.port x.val).sent }
       ∧ t.obj (0x1110 + x.val) 8 = (g.good + good) * 2 ^ 32 + (g.failed + failed) * 2 + 1
       ∧ OnlyObjs [(0x1110 + x.val, 8)] s t ∧ Changes [.port x.val, .dict] s t)

/-! ## The object dictionary and its controls (14) -/

/-- A DICT_READ of a value that fits one reply returns the value's bytes, with the object's type code; of an object
that does not exist, or cannot be read, it returns why; a DESCRIBE returns the 64 bytes of the description (14 R348,
R349, R351, R355, R358, R361). A DICT_WRITE of one segment: the first refusal is answered and nothing changes; an
accepted number is stored, its reserved bits dropped, and does not govern yet; the first segment of a longer write
opens it under a new token; a segment under a token that the port has no open write of, the first one too, is SEGMENT_ERROR
(14 R13 of 01, R355, R356, R359, R360). -/
def Obligations.DictionaryIsServed : Prop :=
  (∀ (s : State) (r : Req) (idx : BitVec 16) (sub : Byte), s.Admits r true → (s.port r.port.val).Roomy → r.seg = 0 →
     let u := (s.heard r.port.val 0 (chanNo r.chan)).beforeRead idx.toNat sub.toNat
     (∀ d, findAny idx.toNat sub.toNat = .ok d →
       (s.readFault d idx.toNat sub.toNat = none → (u.image d idx.toNat sub.toNat).length ≤ 8192 →
         ∃ t, exec (.dictRead r idx sub false 0) s = .next t
           ∧ Replied s t r 0x10 0x0000 (dictArgs idx.toNat sub.toNat 0 0 d.type) (u.image d idx.toNat sub.toNat)
           ∧ t.dict = s.dict ∧ Changes [.port r.port.val, .errors, .observe, .free] s t
           ∧ (idx ≠ 0x9000 → t.observe = s.observe)) ∧
       (∀ e, s.readFault d idx.toNat sub.toNat = some e →
         ∃ t, exec (.dictRead r idx sub false 0) s = .next t
           ∧ Replied s t r 0x10 e (dictArgs idx.toNat sub.toNat 0 0 d.type) [] ∧ Changes [.port r.port.val] s t) ∧
       (∃ t, exec (.dictRead r idx sub true 0) s = .next t
           ∧ Replied s t r 0x10 0x0000 (dictArgs idx.toNat sub.toNat 0 0 d.type) (u.describe d idx.toNat sub.toNat)
           ∧ (u.describe d idx.toNat sub.toNat).length = 64 ∧ Changes [.port r.port.val] s t)) ∧
     (∀ e, findAny idx.toNat sub.toNat = .error e →
       ∃ t, exec (.dictRead r idx sub false 0) s = .next t
         ∧ Replied s t r 0x10 e (dictArgs idx.toNat sub.toNat 0 0 0) [] ∧ Changes [.port r.port.val] s t)) ∧
  (∀ (s : State) (r : Req) (idx : BitVec 16) (sub : Byte) (v : Bytes), s.Serves r → v.length ≤ 8192 → r.seg = 0 →
     let i := idx.toNat
     let j := sub.toNat
     let total := BitVec.ofNat 32 v.length
     (r.segLast = true → s.checkWrite (some r.port) i j v ≠ 0x0000 →
       ∃ t, exec (.dictWrite r idx sub total 0 v) s = .next t
         ∧ Replied s t r 0x11 (s.checkWrite (some r.port) i j v) (dictArgs i j v.length 0 (typeCode i j)) []
         ∧ (s.port r.port.val).OnlyCells (t.port r.port.val) ∧ Changes [.port r.port.val] s t) ∧
     (r.segLast = true → s.checkWrite (some r.port) i j v = 0x0000 → ∀ d, findObj i j = some d →
       (d.access = 2 ∨ d.access = 4) → d.isBytes = false → d.persist = false → i ≠ 0x4040 →
       ∃ t, exec (.dictWrite r idx sub total 0 v) s = .next t ∧ Accepted s t r i j v.length d.type
         ∧ t.obj i j = Nat.land (numOf v) d.mask ∧ t.gov i j = s.gov i j ∧ OnlyObjs [(i, j)] s t
         ∧ Changes [.port r.port.val, .dict] s t) ∧
     (∀ whole : BitVec 32, r.segLast = false → v.length = 8192 → ∀ d, findAny i j = .ok d →
       s.accessFault (some r.port) d i j v = none → d.lengthOk whole.toNat = true →
       s.dict.writes.all (fun w => decide (w.port ≠ r.port)) = true →
       ∃ t, exec (.dictWrite r idx sub whole 0 v) s = .next t
         ∧ t.dict = { s.dict with
             token := nextToken s.dict.token
             writes := s.dict.writes ++ [⟨r.port, nextToken s.dict.token, i, j, whole.toNat, 1, v⟩] }
         ∧ Replied s t r 0x11 0x0000 (dictArgs i j whole.toNat (nextToken s.dict.token).toNat d.type) []
         ∧ Changes [.port r.port.val, .dict] s t)) ∧
  (∀ (s : State) (r : Req) (idx : BitVec 16) (sub : Byte) (total : BitVec 32) (token : BitVec 16) (v : Bytes), s.Serves r →
     v.length ≤ 8192 → token ≠ 0 → s.dict.writes.all (fun w => !decide (w.port = r.port ∧ w.token = token)) = true →
     ∃ t, exec (.dictWrite r idx sub total token v) s = .next t
       ∧ Replied s t r 0x11 0x060A (dictArgs idx.toNat sub.toNat total.toNat token.toNat (typeCode idx.toNat sub.toNat)) []
       ∧ (s.port r.port.val).OnlyCells (t.port r.port.val) ∧ Changes [.port r.port.val] s t)

/-- A control that its chapter carries out at the boundary is answered with OK, and waits in the order of acceptance:
the controls of partitions, namespaces and ports, the acknowledgement of ATTN, UNFREEZE, STATE_REQUEST, the arming of
the counter freeze, TEST_HOLD and TEST_START (R356; 02 R57, R58; 08 R228; 13 R335, R343; 15 R396; 17 R420; 19 R467; 20 R492,
R495). -/
def Obligations.ControlsWaitForTheBoundary : Prop :=
  ∀ (s : State) (r : Req) (p : Part) (ns : NsId) (x : Port) (b : Byte) (w : BitVec 16) (v : BitVec 32), s.Serves r →
    let Ok := fun (idx sub size v : Nat) => s.checkWrite (some r.port) idx sub (bytesOf size v) = 0x0000
    (Ok (0x2010 + p.val) 0x10 1 1 →
      ∃ t, exec (.partitionCommit r p) s = .next t ∧ Waits s t r (0x2010 + p.val) 0x10 1 2 1) ∧
    (Ok (0x2010 + p.val) 0x10 1 2 →
      ∃ t, exec (.partitionStart r p) s = .next t ∧ Waits s t r (0x2010 + p.val) 0x10 1 2 2) ∧
    (Ok (0x2010 + p.val) 0x10 1 3 →
      ∃ t, exec (.partitionStop r p) s = .next t ∧ Waits s t r (0x2010 + p.val) 0x10 1 2 3) ∧
    (Ok (0x2010 + p.val) 0x10 1 4 →
      ∃ t, exec (.partitionRelease r p) s = .next t ∧ Waits s t r (0x2010 + p.val) 0x10 1 2 4) ∧
    (Ok (0x4100 + ns.val) 3 1 1 → ∃ t, exec (.nsCreate r ns) s = .next t ∧ Waits s t r (0x4100 + ns.val) 3 1 2 1) ∧
    (Ok (0x4100 + ns.val) 3 1 2 → ∃ t, exec (.nsDelete r ns) s = .next t ∧ Waits s t r (0x4100 + ns.val) 3 1 2 2) ∧
    (Ok (0x1110 + x.val) 9 1 b.toNat →
      ∃ t, exec (.attnAck r x b) s = .next t ∧ Waits s t r (0x1110 + x.val) 9 1 2 b.toNat) ∧
    (Ok (0x1420 + x.val) 3 2 w.toNat →
      ∃ t, exec (.unfreeze r x w) s = .next t ∧ Waits s t r (0x1420 + x.val) 3 2 3 w.toNat) ∧
    (Ok (0x1110 + x.val) 5 1 1 → ∃ t, exec (.portRetrain r x) s = .next t ∧ Waits s t r (0x1110 + x.val) 5 1 2 1) ∧
    (Ok (0x1110 + x.val) 5 1 2 → ∃ t, exec (.portDisable r x) s = .next t ∧ Waits s t r (0x1110 + x.val) 5 1 2 2) ∧
    (Ok (0x1110 + x.val) 5 1 3 → ∃ t, exec (.portEnable r x) s = .next t ∧ Waits s t r (0x1110 + x.val) 5 1 2 3) ∧
    (Ok 0x7000 2 1 b.toNat → ∃ t, exec (.stateRequest r b) s = .next t ∧ Waits s t r 0x7000 2 1 2 b.toNat) ∧
    (Ok 0x9001 1 1 3 → ∃ t, exec (.armFreeze r) s = .next t ∧ Waits s t r 0x9001 1 1 2 3) ∧
    (Ok 0x9050 1 1 1 → ∃ t, exec (.testHoldEnter r) s = .next t ∧ Waits s t r 0x9050 1 1 2 1) ∧
    (Ok 0x9050 1 1 0 → ∃ t, exec (.testHoldLeave r) s = .next t ∧ Waits s t r 0x9050 1 1 2 0) ∧
    (Ok 0x9050 3 4 v.toNat → ∃ t, exec (.testStart r v) s = .next t ∧ Waits s t r 0x9050 3 4 4 v.toNat)

/-- A control that acts on acceptance does so at once, and is answered with OK: FREEZE_CONTROL 1 and 2, DUMP_REQUEST,
LOOP_RUN, MODULE_RESET, ATTEST_NONCE and READ_LIST (R356; 13 R346; 16 R402; 18 R457; 19 R463, R466, R474). A freeze shows its time
from the management die's counter (R469), which lies not before the time that the module keeps (log 23), and a release the time lost;
a pass in progress has read its entries up to then (log 28), and a pass that begins reads its first entry at its start. -/
def Obligations.ImmediateControlsAct : Prop :=
  ∀ (s : State) (r : Req) (x : Port) (ms : BitVec 16) (v : BitVec 32) (k : Nat) (bs : Bytes), s.Serves r →
    let Ok := fun (i j : Nat) (b : Bytes) => s.checkWrite (some r.port) i j b = 0x0000
    (Ok 0x9001 1 (bytesOf 1 1) → s.observe.frozen = false →
      ∃ t, exec (.freezeCounters r) s = .next t ∧ Accepted s t r 0x9001 1 1 2
        ∧ (let u := (s.heard r.port.val 1 (chanNo r.chan)).passOn false
           t.observe = { u.observe with
             frozen := true, frozenAt := s.timeNow, armed := 0, spans := u.observe.spans ++ [(u.observe.since, u.free)] })
        ∧ (s.observe.pass = none → t.observe = { s.observe with
            frozen := true, frozenAt := s.timeNow, armed := 0, spans := s.observe.spans ++ [(s.observe.since, s.free)] })
        ∧ t.obj 0x9001 6 = (s.stampOf mgmtClock s.timeNow).toNat ∧ OnlyObjs [(0x9001, 6)] s t
        ∧ Changes [.port r.port.val, .dict, .observe, .free] s t) ∧
    (Ok 0x9001 1 (bytesOf 1 2) → s.observe.frozen = true →
      ∃ t, exec (.releaseCounters r) s = .next t ∧ Accepted s t r 0x9001 1 1 2
        ∧ (let u := (s.heard r.port.val 1 (chanNo r.chan)).draw.passOn false
           t.observe = { u.observe with frozen := false, since := u.free })
        ∧ (s.observe.pass = none → t.observe = { s.observe with frozen := false, since := s.free + 1 })
        ∧ t.obj 0x9001 7 = s.timeNow - s.observe.frozenAt
        ∧ OnlyObjs [(0x9001, 7)] s t ∧ Changes [.port r.port.val, .dict, .observe, .free] s t) ∧
    (Ok 0x9030 1 (bytesOf 1 1) →
      ∃ t, exec (.dumpRequest r k) s = .next t ∧ Accepted s t r 0x9030 1 1 2
        ∧ Changes [.port r.port.val, .dict, .errors, .observe, .free] s t
        ∧ ((∀ a, s.observe.lastDump = some a → a + 1000000 ≤ s.clock.boundaryAt + k) →
            t.observe.lastDump = some (s.clock.boundaryAt + k) ∧ t.observe.dumpNo = s.observe.dumpNo + 1
            ∧ t.obj 0x9030 2 = min (s.obj 0x9030 2 + 1) (2 ^ 32 - 1)
            ∧ ∃ image, t.errors.dumps = (s.errors.dumps ++ [image]).drop (s.errors.dumps.length - 3))
        ∧ ((∃ a, s.observe.lastDump = some a ∧ s.clock.boundaryAt + k < a + 1000000) →
            t.errors.dumps = s.errors.dumps ∧ t.observe = s.observe
            ∧ t.obj 0x9030 3 = min (s.obj 0x9030 3 + 1) (2 ^ 32 - 1))) ∧
    (Ok (0x1110 + x.val) 7 (bytesOf 2 ms.toNat) → (s.port x.val).life = .loopback →
        (s.gov (0x1110 + x.val) 6 = 1 ∨ s.gov (0x1110 + x.val) 6 = 5) →
      ∃ t, exec (.loopRun r x ms) s = .next t ∧ Accepted s t r (0x1110 + x.val) 7 2 3
        ∧ t.port x.val = PortSt.feed s.nodeId x.val feedFuel { s.port x.val with loopRun := some ⟨ms.toNat, 0, 0, 0⟩ } ∧ Changes [.port r.port.val, .port x.val] s t) ∧
    (Ok 0x8000 5 (bytesOf 4 v.toNat) → s.clock.running = true →
      ∃ t, exec (.moduleReset r v) s = .next t ∧ Accepted s t r 0x8000 5 4 4
        ∧ t.power = { s.power with resetAt := some (s.clock.now + 100000) } ∧ Changes [.port r.port.val, .power] s t) ∧
    (Ok (0xA018 + x.val) 1 bs → bs.length = 32 →
      ∃ t, exec (.attestNonce r x bs) s = .next t ∧ Accepted s t r (0xA018 + x.val) 1 32 10
        ∧ (t.port x.val).nonce = some bs ∧ Changes [.port r.port.val, .port x.val] s t) ∧
    (Ok 0x9000 1 bs → bs.length ≤ 17920 →
      ∃ t, exec (.readList r bs) s = .next t ∧ Accepted s t r 0x9000 1 bs.length 10
        ∧ t.observe = { s.observe with
            pass := some (idsOf bs), passAt := s.timeNow, passFrom := t.observe.passFrom
            passed := ((idsOf bs).take 1).map (fun id => s.entryWord 0 id (s.counterNow id)) }
        ∧ t.dom 0x9000 1 = bs ∧ t.dom 0x9000 2 = []
        ∧ t.obj 0x9000 3 = 1 ∧ t.obj 0x9000 4 = (s.stampOf mgmtClock s.timeNow).toNat
        ∧ Changes [.port r.port.val, .dict, .observe, .free] s t)

/-- BANK_CONTROL acts on acceptance: ARM arms READY shadows together, under one number; DISARM withdraws arms; DISCARD
empties shadows that are READY, FAILED or ARMED, the arm of the latter being withdrawn from every shadow that the same write armed; an EMPTY one
stays so, a RETIRING one is EMPTY once its batch step has ended, and the load of a LOADING one ends with LOAD_FAILED (03 R74, R76, R77,
R503; 15 R388). -/
def Obligations.BankControlActs : Prop :=
  ∀ (s : State) (r : Req) (p : Part) (n : Ctx) (kinds : BitVec 5), s.Serves r →
    let sel := fun (k : Kind) => kinds.getLsbD (kindNo k)
    let Ok := fun (a : Nat) =>
      s.checkWrite (some r.port) (0x2050 + p.val) (n.val + 1) (bytesOf 2 (a * 2 ^ 14 + kinds.toNat)) = 0x0000
    let c := s.ctx p.val n.val
    (Ok 1 → kinds ≠ 0 → (∀ k, sel k → (c.banks k).st = .ready) → c.notLoaded (kindsOf kinds.toNat) = false →
        s.stagingBusy c.table.shadow = false →
      ∃ t, exec (.bankArm r p n kinds) s = .next t ∧ Accepted s t r (0x2050 + p.val) (n.val + 1) 2 3
        ∧ (∀ k, (t.ctx p.val n.val).banks k =
            if sel k then { c.banks k with st := .armed, armGroup := s.arms } else c.banks k)
        ∧ t.arms = s.arms + 1 ∧ Changes [.port r.port.val, .ctx (p.val * 16 + n.val), .arms] s t) ∧
    (Ok 2 →
      ∃ t, exec (.bankDisarm r p n kinds) s = .next t ∧ Accepted s t r (0x2050 + p.val) (n.val + 1) 2 3
        ∧ (∀ k, (t.ctx p.val n.val).banks k =
            if sel k ∧ (c.banks k).st = .armed then { c.banks k with st := .ready } else c.banks k)
        ∧ Changes [.port r.port.val, .ctx (p.val * 16 + n.val)] s t) ∧
    (Ok 3 → (∀ k, sel k → (c.banks k).st ≠ .loading) →
      ∃ t, exec (.bankDiscard r p n kinds) s = .next t ∧ Accepted s t r (0x2050 + p.val) (n.val + 1) 2 3
        ∧ (∀ k, sel k → (c.banks k).st = .ready ∨ (c.banks k).st = .failed ∨ (c.banks k).st = .armed →
            (t.ctx p.val n.val).banks k = { c.banks k with shadow := Bank.none, st := .empty, dropWhenRetired := false })
        ∧ (∀ k, sel k → (c.banks k).st = .empty → (t.ctx p.val n.val).banks k = c.banks k)
        ∧ (∀ k, sel k → (c.banks k).st = .retiring → (t.ctx p.val n.val).banks k = { c.banks k with dropWhenRetired := true })
        ∧ (∀ k, sel k = false → (∃ j, sel j ∧ (c.banks j).st = .armed ∧ (c.banks j).armGroup = (c.banks k).armGroup) →
            (c.banks k).st = .armed → (t.ctx p.val n.val).banks k = { c.banks k with st := .ready })
        ∧ (∀ k, sel k = false → (c.banks k).st ≠ .armed ∨
              (∀ j, sel j → (c.banks j).st = .armed → (c.banks j).armGroup ≠ (c.banks k).armGroup) →
            (t.ctx p.val n.val).banks k = c.banks k)
        ∧ Changes [.port r.port.val, .ctx (p.val * 16 + n.val)] s t) ∧
    (∀ k g, Ok 3 → (∀ j, sel j = decide (j = k)) → (c.banks k).st = .loading →
      s.stagings.find? (fun g => decide (g.part = p.val ∧ g.ctx = n.val ∧ g.kind = kindNo k)) = some g → (s.tset g.key).opcode = 0x21 →
      (s.tset g.key).partNo = p.val → (s.tset g.key).ctxNo = n.val →
      ∃ t, exec (.bankDiscard r p n kinds) s = .next t ∧ Accepted s t r (0x2050 + p.val) (n.val + 1) 2 3
        ∧ (t.ctx p.val n.val).banks k = { c.banks k with shadow := Bank.none, st := .empty, dropWhenRetired := false }
        ∧ (t.ctx p.val n.val).loadResult = BitVec.ofNat 8 ldDiscarded
        ∧ (t.tset g.key).life = .done ∧ (t.tset g.key).tr15 = BitVec.ofNat 64 (field 32 32 ldDiscarded + field 16 0 0x0106)
        ∧ t.stagings = s.stagings.filter (fun h => decide (h.key ≠ g.key))
        ∧ Changes [.ports, .tset g.key, .stagings, .ctx (p.val * 16 + n.val), .dict] s t)

/-- LC_REQUEST arms or accepts: a target that no arm leads to is NOT_ALLOWED; while the module works, or another
transition waits, it is BUSY; FIELD is accepted at once, RETURN is armed, SCRAP is armed and accepted when the same
owner arms it again within 60 s; the arms of other ports, and a port's arm of the other target, stay (18 R445, R446). LC_TOKEN: a token that is not good is BAD_TOKEN and changes nothing
else; a good transition token whose target the state allows is accepted for the next boundary and uses LC_NONCE up; a
good debug token opens its paths; a good token of kind 3 revokes its key slot (18 R445, R447, R450). -/
def Obligations.LifeCycleIsRequested : Prop :=
  (∀ (s : State) (r : Req) (v : Byte), s.Serves r →
     s.checkWrite (some r.port) 0xA000 3 (bytesOf 1 v.toNat) = 0x0000 →
     let st := s.security.state
     let armed := fun (v : Nat) => s.security.arms.filter (fun a => !decide (a.1 = v ∧ a.2.1 = r.port)) ++ [(v, r.port, s.clock.now)]
     let allowed := (st = 1 ∧ v = 2) ∨ (st = 2 ∧ v = 3) ∨ ((st = 2 ∨ st = 3) ∧ v = 4)
     ∃ t, exec (.lcRequest r v) s = .next t ∧ Accepted s t r 0xA000 3 1 2
       ∧ Changes [.port r.port.val, .dict, .security, .lifeDue] s t ∧ OnlyObjs [(0xA000, 5)] s t
       ∧ t.security.state = s.security.state ∧ t.security.words = s.security.words
       ∧ (¬ allowed → t.obj 0xA000 5 = 4 ∧ t.security = s.security)
       ∧ (allowed → s.lcBlocked (decide (v = 4)) = some 5 → t.obj 0xA000 5 = 5 ∧ t.security = s.security)
       ∧ (allowed → s.lcBlocked (decide (v = 4)) = some 7 → t.obj 0xA000 5 = 7 ∧ t.security = s.security)
       ∧ (allowed → s.lcBlocked (decide (v = 4)) = none →
           (v = 2 → t.obj 0xA000 5 = 1 ∧ t.security = { s.security with arms := [], due := some 2 })
           ∧ (v = 3 → t.obj 0xA000 5 = 6 ∧ t.security = { s.security with arms := armed 3 })
           ∧ (v = 4 → (∃ a, s.security.armOf 4 r.port = some a ∧ s.clock.now ≤ a + 6000000000) →
               t.obj 0xA000 5 = 1 ∧ t.security = { s.security with arms := [], due := some 4 })
           ∧ (v = 4 → (∀ a, s.security.armOf 4 r.port = some a → a + 6000000000 < s.clock.now) →
               t.obj 0xA000 5 = 6 ∧ t.security = { s.security with arms := armed 4 }))) ∧
  (∀ (s : State) (r : Req) (token : Bytes), s.Serves r → token.length = 576 →
     s.checkWrite (some r.port) 0xA000 4 token = 0x0000 →
     let h := numOf (token.take 64)
     let target := bits h 487 480
     let mask := bits h 479 464
     let owner := ¬ (s.security.keySlot s.runningSlot = 3 ∧ s.security.state ≠ 0 ∧ s.security.state ≠ 3)
     ∃ t, exec (.lcToken r token) s = .next t ∧ Accepted s t r 0xA000 4 576 10
       ∧ Changes [.port r.port.val, .dict, .security, .lifeDue, .errors, .free, .observe] s t
       ∧ t.security.state = s.security.state
       ∧ (s.tokenGood token h = false → t.obj 0xA000 5 = 3 ∧ t.security = s.security ∧ OnlyObjs [(0xA000, 5)] s t)
       ∧ (s.tokenGood token h = true → owner → bits h 495 488 = 1 → s.tokenAllows target = true →
           s.lcBlocked (decide (target = 4)) = none →
           t.obj 0xA000 5 = 1 ∧ t.security = { s.security with arms := [], due := some target, nonceDraw := s.free })
       ∧ (s.tokenGood token h = true → owner → bits h 495 488 = 2 →
           Nat.land mask (0xFFFF - tokenPaths s.security.state) = 0 → s.lcBlocked false = none →
           t.security = { s.security with
             unlocked := s.security.unlocked ||| BitVec.ofNat 16 mask, nonceDraw := s.free })
       ∧ (s.tokenGood token h = true → owner → bits h 495 488 = 3 → target ≤ 2 →
           target ≠ s.security.keySlot s.runningSlot →
           Nat.land (Nat.lor s.security.revoked (2 ^ target)) 7 ≠ 7 → s.lcBlocked false = none →
           t.obj 0xA000 5 = 2 ∧ t.security = { s.security with
             revoked := Nat.lor s.security.revoked (2 ^ target), nonceDraw := s.free })
       ∧ (s.tokenGood token h = true → owner → bits h 495 488 = 1 → s.tokenAllows target = false →
           t.obj 0xA000 5 = 4 ∧ t.security = s.security))

/-- A value that is stored on acceptance governs only from the next boundary on: TICK_BASE and LOOPBACK keep their old
value in force (01 R43; 13 R345; 14 R356). A persistent value, such as FREE_FLOOR, and what LOCK_INDEX locks of such an index are
programmed first, and accepted and answered when that is done (09 R249; 14 R353, R362). The end of a persistent write
accepts it and answers the request that waits; the end of the one that a LOCK_INDEX asked for locks the
index (14 R353, R354, R362); only the count of sector erases may change besides (17 R440). A transfer that was idle too long ends; every other stays (14 R358, R360). -/
def Obligations.ValuesAreStored : Prop :=
  (∀ (s : State) (r : Req) (x : Port) (v : BitVec 16) (w : BitVec 32) (b : Byte), s.Serves r →
     let Ok := fun (i j n v : Nat) => s.checkWrite (some r.port) i j (bytesOf n v) = 0x0000
     (Ok 0x2000 1 2 v.toNat →
       ∃ t, exec (.tickBaseWrite r v) s = .next t ∧ Accepted s t r 0x2000 1 2 3 ∧ t.obj 0x2000 1 = v.toNat
         ∧ t.gov 0x2000 1 = s.gov 0x2000 1 ∧ OnlyObjs [(0x2000, 1)] s t ∧ Changes [.port r.port.val, .dict] s t) ∧
     (Ok (0x1110 + x.val) 6 1 b.toNat →
       ∃ t, exec (.loopbackWrite r x b) s = .next t ∧ Accepted s t r (0x1110 + x.val) 6 1 2
         ∧ t.obj (0x1110 + x.val) 6 = b.toNat ∧ t.gov (0x1110 + x.val) 6 = s.gov (0x1110 + x.val) 6
         ∧ OnlyObjs [(0x1110 + x.val, 6)] s t ∧ Changes [.port r.port.val, .dict] s t) ∧
     (Ok 0x4060 0x0B 4 w.toNat →
       ∃ t, exec (.freeFloorWrite r w) s = .next t
         ∧ t.dict = { s.dict with jobs := s.dict.jobs ++
             [⟨[(0x4060, 0x0B, bytesOf 4 w.toNat)], some { r with seg := 0, segLast := true }, none⟩] }
         ∧ (t.port r.port.val).sent = (s.port r.port.val).sent ∧ Changes [.port r.port.val, .dict] s t) ∧
     (Ok 0x1002 1 2 v.toNat →
       ∃ t, exec (.lockIndex r v) s = .next t
         ∧ t.dict = { s.dict with jobs := s.dict.jobs ++
             [⟨[(0x1002, 1, bytesOf 2 v.toNat)], some { r with seg := 0, segLast := true }, none⟩] }
         ∧ (t.port r.port.val).sent = (s.port r.port.val).sent ∧ Changes [.port r.port.val, .dict] s t)) ∧
  (∀ (s : State) (r : Req) (idx : BitVec 16) (sub : Byte) (v : Bytes), s.Serves r → v.length ≤ 8192 → r.seg = 0 →
     r.segLast = true → s.checkWrite (some r.port) idx.toNat sub.toNat v = 0x0000 → isPersistent idx.toNat sub.toNat v = true →
     ∃ t, exec (.dictWrite r idx sub (BitVec.ofNat 32 v.length) 0 v) s = .next t
       ∧ t.dict = { s.dict with jobs := s.dict.jobs ++ [⟨[(idx.toNat, sub.toNat, v)], some r, none⟩] }
       ∧ (t.port r.port.val).sent = (s.port r.port.val).sent ∧ Changes [.port r.port.val, .dict] s t) ∧
  (∀ (s : State) (r : Req) (idx : BitVec 16) (sub : Byte) (v : Bytes), (s.port r.port.val).Roomy → v.length ≤ 8192 →
     s.dict.jobs.find? (fun j => j.names idx.toNat sub.toNat) = some ⟨[(idx.toNat, sub.toNat, v)], some r, none⟩ →
     let i := idx.toNat
     let j := sub.toNat
     let left := s.dict.jobs.filter (fun k => !k.names i j)
     (∀ d, findObj i j = some d → d.persist = true → d.access = 2 ∨ d.access = 4 →
       ∃ t, exec (.persistWriteDone idx sub) s = .next t ∧ Accepted s t r i j v.length d.type
         ∧ (d.isBytes = false → t.obj i j = Nat.land (numOf v) d.mask) ∧ (d.isBytes = true → t.dom i j = v)
         ∧ t.dict = { s.dict with jobs := left, objs := t.dict.objs, doms := t.dict.doms }
         ∧ (∀ a b, objKey a b ≠ objKey i j → t.dom a b = s.dom a b ∧ (objKey a b ≠ objKey 0x7040 5 → t.obj a b = s.obj a b))
         ∧ Changes [.port r.port.val, .dict, .security, .free] s t) ∧
     (i = 0x1002 → j = 1 → v.length = 2 →
       ∃ t, exec (.persistWriteDone idx sub) s = .next t ∧ Accepted s t r 0x1002 1 2 3
         ∧ t.dict = { s.dict with jobs := left, locked := numOf v :: s.dict.locked, objs := t.dict.objs }
         ∧ (∀ a b, objKey a b ≠ objKey 0x7040 5 → t.obj a b = s.obj a b)
         ∧ Changes [.port r.port.val, .dict, .security, .free] s t)) ∧
  (∀ (s : State) (x : Port) (token : BitVec 16),
     ∃ t, exec (.segmentTimeout x token) s = .next t ∧ Changes [.dict] s t
       ∧ (∀ o, o ∈ t.dict.reads ↔ o ∈ s.dict.reads ∧ ¬ (o.port = x ∧ o.token = token))
       ∧ (∀ o, o ∈ t.dict.writes ↔ o ∈ s.dict.writes ∧ ¬ (o.port = x ∧ o.token = token))
       ∧ t.dict = { s.dict with reads := t.dict.reads, writes := t.dict.writes })

/-! ## The front end (15) -/

/-- TR_READ returns the registers of a set, reserved fields as zero (00 R13; the opcode in TR00 says which they are, log 84),
the completion record of a set that is TAKEN reading as progress; DB_READ
returns the doorbell and then clears the named bits (R374, R376 to R378). A reply returns every field of the request, those
that its type does not use as they came; a request whose ARGS hold a one in [127:0] is BAD_FRAME (R376). TR_WRITE without GO writes the registers of a
set that is not TAKEN, and makes it WRITTEN with no record and no output; a set that is TAKEN answers SET_BUSY, a
payload of another length BAD_LENGTH, and registers beyond TR15 BAD_FRAME, and nothing changes (R370, R376, R377). -/
def Obligations.TaskRegistersAreServed : Prop :=
  (∀ (s : State) (r : Req) (set : SetId) (first count : Fin 16) (clear : BitVec 32), s.Admits r true →
     (s.port r.port.val).Roomy →
     let u := s.tset (setKey r.port set)
     let rest := requestEcho r (goField ++ spaceField ++ offsetField ++ clearField ++ lengthField)
     let other := requestEcho r (setNoField ++ goField ++ regFields ++ spaceField ++ offsetField ++ lengthField)
     (first.val + count.val ≤ 15 → argsLowZero r = true →
       ∃ t, exec (.trRead r set first count) s = .next t ∧ Changes [.port r.port.val] s t
         ∧ (s.port r.port.val).OnlyCells (t.port r.port.val)
         ∧ ∃ payload, Replied s t r 0x21 0x0000
             (rest + setArgs set.val false first.val count.val false 0 0 0 u.stampNow 0 (setLifeNo u.life) false) payload
           ∧ payload.length = 8 * (count.val + 1)
           ∧ ∀ i, i ≤ count.val → numOf ((payload.drop (8 * i)).take 8) % 2 ^ 64 =
               (if first.val + i ≤ 12 then (match u.reserved (first.val + i) with
                  | some (hi, lo) => u.reg (first.val + i) - bits (u.reg (first.val + i)) hi lo * 2 ^ lo
                  | none => u.reg (first.val + i))
                else if u.life = .taken then (if first.val + i = 15 then u.progress % 2 ^ 32 * 2 ^ 32 else 0)
                else if first.val + i = 13 then u.tr13.toNat else if first.val + i = 14 then u.tr14.toNat else u.tr15.toNat)) ∧
     (¬ first.val + count.val ≤ 15 ∨ argsLowZero r = false →
       ∃ t, exec (.trRead r set first count) s = .next t ∧ Replied s t r 0x21 0x0601
           (rest + setArgs set.val false first.val count.val false 0 0 0 0 0 (setLifeNo u.life) false) []
         ∧ Changes [.port r.port.val] s t ∧ (s.port r.port.val).OnlyCells (t.port r.port.val)) ∧
     (argsLowZero r = true → ∃ t, exec (.dbRead r clear) s = .next t
       ∧ Replied s t r 0x22 0x0000 (other + clear.toNat * 2 ^ 156 + (s.port r.port.val).db.toNat * 2 ^ 32) []
       ∧ ({ s.port r.port.val with db := (s.port r.port.val).db &&& ~~~ clear } : PortSt).OnlyCells (t.port r.port.val)
       ∧ Changes [.port r.port.val] s t) ∧
     (argsLowZero r = false → ∃ t, exec (.dbRead r clear) s = .next t
       ∧ Replied s t r 0x22 0x0601 (other + clear.toNat * 2 ^ 156) []
       ∧ (s.port r.port.val).OnlyCells (t.port r.port.val) ∧ Changes [.port r.port.val] s t)) ∧
  (∀ (s : State) (r : Req) (set : SetId) (first count : Fin 16) (payload : Bytes), s.Admits r true →
     (s.port r.port.val).Roomy →
     let k := setKey r.port set
     let args := fun (life : Nat) (taken : Bool) =>
       requestEcho r (spaceField ++ offsetField ++ clearField ++ lengthField)
         + setArgs set.val false first.val count.val false 0 0 0 0 0 life taken
     let Refused := fun (status a : Nat) =>
       ∃ t, exec (.trWrite r set false first count payload) s = .next t ∧ Replied s t r 0x20 status a []
         ∧ Changes [.port r.port.val] s t ∧ (s.port r.port.val).OnlyCells (t.port r.port.val)
     (¬ first.val + count.val ≤ 15 ∨ argsLowZero r = false → Refused 0x0601 (args (setLifeNo (s.tset k).life) false)) ∧
     (first.val + count.val ≤ 15 → argsLowZero r = true → (s.tset k).life = .taken → Refused 0x0103 (args 2 false)) ∧
     (first.val + count.val ≤ 15 → argsLowZero r = true → (s.tset k).life ≠ .taken → payload.length ≠ 8 * (count.val + 1) →
       Refused 0x0603 (args (setLifeNo (s.tset k).life) false)) ∧
     (first.val + count.val ≤ 15 → argsLowZero r = true → (s.tset k).life ≠ .taken → payload.length = 8 * (count.val + 1) →
       ∃ t, exec (.trWrite r set false first count payload) s = .next t ∧ Replied s t r 0x20 0x0000 (args 1 false) []
         ∧ (t.tset k).life = .written ∧ (t.tset k).output = [] ∧ (t.tset k).outLen = 0 ∧ (t.tset k).tr13 = 0
         ∧ (t.tset k).tr14 = 0 ∧ (t.tset k).tr15 = 0 ∧ (t.tset k).input = (s.tset k).input
         ∧ (∀ n, (t.tset k).regs.get 0 n =
             if first.val ≤ n ∧ n ≤ first.val + count.val ∧ n ≤ 12 then
               BitVec.ofNat 64 (numOf ((payload.drop (8 * (n - first.val))).take 8))
             else (s.tset k).regs.get 0 n)
         ∧ Changes [.port r.port.val, .tset k] s t ∧ (s.port r.port.val).OnlyCells (t.port r.port.val)))

/-- TR_WRITE with GO: the set is taken, whatever it holds, in the common order of taking, and stamped with the running
tick; it then holds the command, or has been completed at once with COUNT 0 because a check failed: an opcode that R379
does not list is BAD_COMMAND with STEP 0, and IDENTIFY is never turned away (R371, R374, R377, R379, R380). A command
that waited starts once it can: its output space is given to it (R372, R375). -/
def Obligations.CommandsAreTaken : Prop :=
  (∀ (s : State) (r : Req) (set : SetId) (first count : Fin 16) (payload : Bytes), s.Admits r true →
     (s.port r.port.val).Roomy → first.val + count.val ≤ 15 → argsLowZero r = true →
     (s.tset (setKey r.port set)).life ≠ .taken → payload.length = 8 * (count.val + 1) →
     let k := setKey r.port set
     let v := (s.tset k).write first.val count.val payload
     ∃ t, exec (.trWrite r set true first count payload) s = .next t
       ∧ Replied s t r 0x20 0x0000 (requestEcho r (spaceField ++ offsetField ++ clearField ++ lengthField)
           + setArgs set.val true first.val count.val false 0 0 0 s.clock.epoch.toNat 0 2 true) []
       ∧ t.orders = s.orders + 1 ∧ (t.tset k).order = s.orders ∧ (t.tset k).stamp = s.clock.epoch
       ∧ (t.tset k).regs = v.regs ∧ (t.tset k).input = v.input ∧ (t.port r.port.val).evTaken = true
       ∧ ((t.tset k).life = .taken
           ∨ ((t.tset k).life = .done ∧ (t.tset k).tr14 = s.clock.epoch ∧ (t.tset k).tr15.toNat / 2 ^ 32 = 0
               ∧ bitOf (t.port r.port.val).db.toNat (set.val / 2) = true))
       ∧ (opKnown v.opcode = false → (t.tset k).life = .done ∧ (t.tset k).tr15 = 0x0101)
       ∧ (v.opcode = 0x01 → (t.tset k).life = .taken)
       ∧ Changes [.port r.port.val, .tset k, .orders, .ctxs] s t) ∧
  (∀ (s : State) (x : Port) (set : SetId),
     let k := setKey x set
     (s.tset k).life = .taken → (s.tset k).started = false → (s.tset k).due = none → s.canStart k = true →
     ∃ t, exec (.commandStart x set) s = .next t
       ∧ t.tset k = { s.tset k with started := true, outSpace := s.maxOut (s.tset k) } ∧ Changes [.tset k] s t)

/-- DATA_PUSH: input goes to a set that is not TAKEN, or as data to a WRITE; bytes go to partition memory that the port
may write, and nowhere else in memory; where a running batch step reads them, their values are open; the refusals change
nothing (R332, R376, R377, R382; 07 R187). -/
def Obligations.DataIsPushed : Prop :=
  ∀ (s : State) (r : Req) (set : SetId) (off addr : BitVec 48) (payload : Bytes), s.Admits r true →
    (s.port r.port.val).Roomy → s.defers r = false → payload.length ≤ 8192 →
    let k := setKey r.port set
    let n := payload.length
    let rest := requestEcho r (goField ++ regFields ++ clearField ++ lengthField)
    let args := rest + setArgs set.val false 0 0 false off.toNat 0 0 0 0 (setLifeNo (s.tset k).life) false
    let margs := rest + setArgs set.val false 0 0 true addr.toNat 0 0 0 0 (setLifeNo (s.tset k).life) false
    let low := argsLowZero r
    let Refused := fun (status a : Nat) (c : Instr) =>
      ∃ t, exec c s = .next t ∧ Replied s t r 0x30 status a []
        ∧ Changes [.port r.port.val] s t ∧ (s.port r.port.val).OnlyCells (t.port r.port.val)
    (off.toNat % 64 ≠ 0 ∨ low = false → Refused 0x0601 args (.dataPushInput r set off payload)) ∧
    (off.toNat % 64 = 0 → low = true → (s.tset k).life = .taken → (s.tset k).opcode ≠ 0x11 →
      Refused 0x0103 args (.dataPushInput r set off payload)) ∧
    (off.toNat % 64 = 0 → low = true → 64 ≤ n → n % 64 = 0 → (s.tset k).life ≠ .taken → off.toNat + n ≤ 65536 →
      ∃ t, exec (.dataPushInput r set off payload) s = .next t ∧ Replied s t r 0x30 0x0000 args []
        ∧ t.tset k = { s.tset k with input := (t.tset k).input }
        ∧ (∀ a, (t.tset k).input.read a = if off.toNat ≤ a ∧ a < off.toNat + n then payload.getD (a - off.toNat) 0
            else (s.tset k).input.read a)
        ∧ Changes [.port r.port.val, .tset k] s t) ∧
    (off.toNat % 64 = 0 → low = true → 64 ≤ n → n % 64 = 0 → (s.tset k).life = .taken → (s.tset k).opcode = 0x11 →
      off.toNat + n ≤ (s.tset k).reg 3 * 4096 → (s.tset k).count * 4096 ≤ off.toNat →
      ∃ t, exec (.dataPushInput r set off payload) s = .next t ∧ Replied s t r 0x30 0x0000 args []
        ∧ (∀ i, i < n / 64 → off.toNat / 64 + i ∈ (t.tset k).arrived)
        ∧ (∀ i, i ∈ (s.tset k).arrived → i ∈ (t.tset k).arrived)
        ∧ (∀ a, (t.tset k).wdata.read a = if off.toNat ≤ a ∧ a < off.toNat + n then payload.getD (a - off.toNat) 0
            else (s.tset k).wdata.read a)
        ∧ Changes [.port r.port.val, .tset k] s t) ∧
    (addr.toNat % 64 ≠ 0 ∨ low = false → Refused 0x0601 margs (.dataPushMemory r set addr payload)) ∧
    (addr.toNat % 64 = 0 → low = true → 64 ≤ n → n % 64 = 0 → s.portMay r.port.val addr.toNat n = false ∨ s.errors.device = 2 →
      Refused 0x0501 margs (.dataPushMemory r set addr payload)) ∧
    (addr.toNat % 64 = 0 → low = true → 64 ≤ n → n % 64 = 0 → s.portMay r.port.val addr.toNat n = true → s.errors.device ≠ 2 →
      (∀ b, b ∈ s.fabric.bad → overlaps addr.toNat n b (guardUnit b) = true →
        within b (guardUnit b) addr.toNat n = true) → s.guard.farOff = false → s.guard.banksOff = 0 →
      ∃ t, exec (.dataPushMemory r set addr payload) s = .next t ∧ Replied s t r 0x30 0x0000 margs []
        ∧ (∀ a, t.fabric.mem.read a = if addr.toNat ≤ a ∧ a < addr.toNat + n then payload.getD (a - addr.toNat) 0
            else s.fabric.mem.read a)
        ∧ (∀ b, b ∈ t.fabric.bad → b ∈ s.fabric.bad)
        ∧ Changes [.port r.port.val, .fabric, .tiers, .dies, .free] s t
        ∧ ((∀ p, p < 8 → (s.seq p).run = none) →
            t.fabric.dies = s.fabric.dies ∧ Changes [.port r.port.val, .fabric, .tiers] s t)
        ∧ (∀ p run w, p < 8 → (s.seq p).run = some run → w ∈ s.runWords p run →
            (∀ f, ((s.setFabric f).readSpans p run w).any (fun v => overlaps v.1 v.2 addr.toNat n) = true) →
            ∀ a, addr.toNat ≤ a → a < addr.toNat + n → ∃ g, g ∈ t.fabric.fog ∧ g.lo ≤ a ∧ a < g.lo + g.len))

/-- DATA_PULL: the output of a set that is DONE, ending where its output ends; the bytes of partition memory that the
port may read; the refusals change nothing (R375 to R377; 07 R186). -/
def Obligations.DataIsPulled : Prop :=
  ∀ (s : State) (r : Req) (set : SetId) (off addr : BitVec 48) (len : BitVec 14), s.Admits r true →
    (s.port r.port.val).Roomy →
    let k := setKey r.port set
    let n := len.toNat + 1
    let rest := requestEcho r (goField ++ regFields ++ clearField)
    let args := rest + setArgs set.val false 0 0 false off.toNat 0 len.toNat 0 0 (setLifeNo (s.tset k).life) false
    let margs := rest + setArgs set.val false 0 0 true addr.toNat 0 len.toNat 0 0 (setLifeNo (s.tset k).life) false
    let Answers := fun (status a : Nat) (bytes : Bytes) (c : Instr) (l : List Place) =>
      ∃ t, exec c s = .next t ∧ Replied s t r 0x31 status a bytes
        ∧ Changes (.port r.port.val :: l) s t ∧ (s.port r.port.val).OnlyCells (t.port r.port.val)
    (off.toNat % 64 ≠ 0 ∨ n < 64 ∨ 8192 < n ∨ n % 64 ≠ 0 ∨ argsLowZero r = false → Answers 0x0601 args [] (.dataPullOutput r set off len) []) ∧
    (off.toNat % 64 = 0 → 64 ≤ n → n ≤ 8192 → n % 64 = 0 → argsLowZero r = true →
      ((s.tset k).life ≠ .done → Answers 0x0103 args [] (.dataPullOutput r set off len) []) ∧
      ((s.tset k).life = .done → Answers 0x0000 args
        ((s.tset k).output.readBytes off.toNat (min n ((s.tset k).outLen - off.toNat))) (.dataPullOutput r set off len) [])) ∧
    (addr.toNat % 64 ≠ 0 ∨ n < 64 ∨ 8192 < n ∨ n % 64 ≠ 0 ∨ argsLowZero r = false → Answers 0x0601 margs [] (.dataPullMemory r set addr len) []) ∧
    (addr.toNat % 64 = 0 → 64 ≤ n → n ≤ 8192 → n % 64 = 0 → argsLowZero r = true →
      (s.portMay r.port.val addr.toNat n = false ∨ s.errors.device = 2 → Answers 0x0501 margs [] (.dataPullMemory r set addr len) []) ∧
      (s.portMay r.port.val addr.toNat n = true → s.errors.device ≠ 2 → s.fabric.bad = [] → s.fabric.fog = [] → s.guard.farOff = false →
        s.guard.banksOff = 0 → (∀ q, q < 8 → s.dirty q 32 = []) →
        Answers 0x0000 margs (s.fabric.mem.readBytes addr.toNat n) (.dataPullMemory r set addr len) [.guard, .free]))

/-! ## The sequencers (02, 03) -/

/-- A step that the sequencer is at and whose unit is free is issued and carried out: the tiers, the lane dies and the
search engine's records become those of its unit's work on the partition's bench, and the step waits in its queue for
its completion; a LOADW has put its tiles into the tile queues and waits for the last of them to be taken (04 R106); a
step that cannot begin yet waits in its queue; a step of another kind, a sequencer that waits and a full queue issue
nothing (03 R80, R82, R83, R93). -/
def Obligations.StepsAreIssued : Prop :=
  ∀ (s : State) (p : Part) (r : Run) (c : Instr) (f : Nat → Bool),
    let op := fun (o w : Nat) => decide (wOpcode w = o)
    (c, f) ∈ [(Instr.loadw p, op opLoadw), (.stream p, op opStream), (.drain p, op opDrain), (.sfn p, op opSfn),
      (.normStats p, fun w => op opNorm w && !bitOf w 179), (.normApply p, fun w => op opNorm w && bitOf w 179),
      (.chainRecur p, fun w => op opChain w && decide (bits w 178 177 = 0)),
      (.chainOrtho p, fun w => op opChain w && decide (bits w 178 177 = 1)),
      (.chainPrefix p, fun w => op opChain w && decide (bits w 178 177 = 2)),
      (.pqtab p, op opPqtab),
      (.selectLargest p, fun w => op opSelect w && decide (bits w 108 107 = 0)),
      (.selectSmallest p, fun w => op opSelect w && decide (bits w 108 107 = 1)),
      (.selectSample p, fun w => op opSelect w && decide (bits w 108 107 = 2)),
      (.fetch p, op opFetch), (.scan p, op opScan), (.check p, op opCheck),
      (.walk p, fun w => op opWalk w && !bitOf w 69), (.walkRerank p, fun w => op opWalk w && bitOf w 69),
      (.reduceP p, fun w => op opReduce w && !bitOf w 139), (.reduceQ p, fun w => op opReduce w && bitOf w 139)] →
    (s.seq p.val).run = some r →
    let w := stepWord r.table r.next
    let e := QStep.issued r.next (s.issueWord p.val r w) (s.seq p.val).issued s.timeNow
    let r' := { r with next := r.next + 1 }
    let u := s.draw.setSeq p.val { s.seq p.val with
      issued := (s.seq p.val).issued + 1, queues := (s.seq p.val).queues.set (wQueue w) [e], run := some r' }
    let work := stepWork (u.bench p.val (wQueue w) r') e
    (r.waiting = false → s.deviceStop = false → r.next < tableSteps r.table → f w = true → (s.seq p.val).unitsIdle = true →
      s.untraced p.val → wOpcode e.word = wOpcode w →
      (∀ b, work = .ok (b, true) →
        ∃ t used, exec c s = .next t ∧ t.fabric = ⟨b.mem, b.bad, b.fog, b.walks, b.dies⟩
          ∧ (t.seq p.val).run = some { r' with program := b.copies } ∧ (t.seq p.val).issued = (s.seq p.val).issued + 1
          ∧ (t.seq p.val).queue (wQueue w) = [{ e with
              ran := true, queued := decide (wOpcode w = opLoadw), rows := b.rows, saved := b.saved, slots := mergeSlots b.slots
              used := used ++ b.used, tiles := b.tiles, starved := b.starved, tally := b.tally }]
          ∧ (∀ n, n ≠ wQueue w → (t.seq p.val).queue n = (s.seq p.val).queue n)
          ∧ Changes [.seq p.val, .fabric, .tiers, .dies, .media, .dict, .guard, .observe, .free, .vtimes] s t) ∧
      (∀ b, work = .ok (b, false) → wOpcode w = opLoadw →
        ∃ t, exec c s = .next t ∧ t.fabric = ⟨b.mem, b.bad, b.fog, b.walks, b.dies⟩
          ∧ (t.seq p.val).run = some { r' with program := b.copies } ∧ (t.seq p.val).issued = (s.seq p.val).issued + 1
          ∧ (∃ e', (t.seq p.val).queue (wQueue w) = [e'] ∧ e'.index = r.next ∧ e'.word = e.word ∧ e'.ran = false ∧ e'.queued = true)
          ∧ (∀ n, n ≠ wQueue w → (t.seq p.val).queue n = (s.seq p.val).queue n)
          ∧ Changes [.seq p.val, .fabric, .tiers, .dies, .media, .dict, .guard, .observe, .free, .vtimes] s t) ∧
      (∀ b, work = .ok (b, false) → progress b.rows = 0 → b.starved = [] → wOpcode w ≠ opLoadw → exec c s = .next u)) ∧
    (r.waiting = true ∨ s.deviceStop = true ∨ f w = false ∨ 16 ≤ ((s.seq p.val).queue (wQueue w)).length →
      exec c s = .next s)

/-- MARK writes LAST_MARK of its context when its queue reaches it, and freezes the counters where ON_MARK is armed and
its value is that of FREEZE_MARK; a source that finds them frozen is counted (03 R74; 19 R466, R467; the time is the model's, log 23). WAIT holds the sequencer until UNTIL has passed and every queue of its mask
is empty; LOOP goes back to its target until its index has reached COUNT, and then on, the index zeroed (03 R86, R87).
Each of them completes there: the watchdog's count starts again (02 R52; 03 R82). Nothing else changes, but for the step
trace where it is on (19 R471). -/
def Obligations.SequencerStepsAct : Prop :=
  (∀ (s : State) (p : Part) (r : Run), (s.seq p.val).run = some r →
     let w := stepWord r.table r.next
     let v := wMarkValue w
     r.waiting = false → s.deviceStop = false → r.next < tableSteps r.table → wOpcode w = opMark →
     (s.seq p.val).unitsIdle = true →
     let hit := s.gov 0x9001 4 = v ∧ bitOf s.observe.armed.toNat 3 = true
     ∃ t, exec (.mark p) s = .next t
       ∧ t.ctx p.val r.ctx.val = { s.ctx p.val r.ctx.val with lastMark := BitVec.ofNat 32 (v * 65536 + r.next) }
       ∧ (t.seq p.val).run = some { r with next := r.next + 1 }
       ∧ (t.seq p.val).unitsIdle = true ∧ (t.seq p.val).stuck = 0 ∧ (t.seq p.val).stepped = true
       ∧ Changes [.seq p.val, .ctx (p.val * 16 + r.ctx.val), .fabric, .tiers, .dict, .observe, .free] s t
       ∧ (¬ hit → t.observe = s.observe)
       ∧ (hit → s.observe.frozen = true → t.observe = s.observe)
       ∧ (hit → s.observe.frozen = false → t.observe.frozen = true ∧ t.observe.armed = 0)
       ∧ (s.untraced p.val →
           (¬ hit → Changes [.seq p.val, .ctx (p.val * 16 + r.ctx.val), .free] s t) ∧
           (hit → s.observe.frozen = true → t.obj 0x9001 9 = min (s.obj 0x9001 9 + 1) (2 ^ 32 - 1) ∧ OnlyObjs [(0x9001, 9)] s t) ∧
           (hit → s.observe.frozen = false → t.observe.frozenAt = s.draw.timeNow
             ∧ t.obj 0x9001 6 = (s.stampOf mgmtClock s.draw.timeNow).toNat ∧ OnlyObjs [(0x9001, 6)] s t))) ∧
  (∀ (s : State) (p : Part) (r : Run),
     let q := s.seq p.val
     let Only := fun (t : State) => Changes [.seq p.val, .fabric, .tiers, .dict, .free] s t ∧ (s.untraced p.val → Changes [.seq p.val] s t)
     let w := stepWord r.table r.next
     let clear := Nat.land (wMask w) q.completion = wMask w
     (s.atStep p.val opWait = some r → wUntil w = 0 → clear →
       ∃ t, exec (.wait p) s = .next t ∧ Only t
         ∧ t.seq p.val = { q with
             run := some { r with waiting := false, untilPassed := false, next := r.next + 1 }, stuck := 0, stepped := true }) ∧
     (s.atStep p.val opWait = some r → ¬ (wUntil w = 0 ∧ clear) →
       ∃ t, exec (.wait p) s = .next t ∧ Only t
         ∧ t.seq p.val = { q with run := some { r with waiting := true, untilPassed := decide (wUntil w = 0) } }) ∧
     (q.run = some r → r.waiting = true → clear →
       ∃ t, exec (.waitUntil p) s = .next t ∧ Only t
         ∧ t.seq p.val = { q with
             run := some { r with waiting := false, untilPassed := false, next := r.next + 1 }, stuck := 0, stepped := true }) ∧
     (q.run = some r → r.waiting = true → ¬ clear →
       ∃ t, exec (.waitUntil p) s = .next t ∧ Only t
         ∧ t.seq p.val = { q with run := some { r with untilPassed := true } }) ∧
     (s.atStep p.val opLoop = some r → r.loops.getD (wLevel w) 0 < wLoopCount w →
       ∃ t, exec (.loop p) s = .next t ∧ Only t
         ∧ t.seq p.val = { q with run := some { r with
             loops := r.loops.set (wLevel w) (r.loops.getD (wLevel w) 0 + 1), next := wTarget w }, stuck := 0, stepped := true }) ∧
     (s.atStep p.val opLoop = some r → wLoopCount w ≤ r.loops.getD (wLevel w) 0 →
       ∃ t, exec (.loop p) s = .next t ∧ Only t
         ∧ t.seq p.val = { q with
             run := some { r with loops := r.loops.set (wLevel w) 0, next := r.next + 1 }, stuck := 0, stepped := true }))

/-- END of a batch step of a table-run command without a commit span: its outputs are held, and its command has one
more batch step for the next boundary to publish. Nothing is held while a step is in a queue, but for LOADW steps whose
tiles no pass is left to take, nor while a commit span waits for room (01 R34; 03 R86; 08 R214; 15 R389; logs 80, 119); END is issued and
completes in the trace (19 R471; log 115). STEP_COMPLETE: the step at the head of a queue that its
unit has carried out leaves it, the watchdog's count starts again unless the step was cut, and nothing changes besides but
its charges, the counts of its slots and of its work and, for a SCAN, SCANS; a step that has not been carried out stays (03 R80; 02 R52,
R66; 04 R111; 10 R275). A FETCH that met data it may not deliver ends its batch step instead (07 R181, R186). -/
def Obligations.BatchStepsEnd : Prop :=
  (∀ (s : State) (p : Part) (r : Run) (k : Nat), s.atStep p.val opEnd = some r →
     let w := s.tset r.key
     let u := (s.traceStep p.val 0 r).traceStep p.val 1 r
     (s.untraced p.val → u = s) ∧
     ((s.seq p.val).unitsIdle = false → (s.seq p.val).surplus = false → exec (.endStep p k) s = .next s) ∧
     (s.commitWaits p.val r = true → exec (.endStep p k) s = .next s) ∧
     ((s.seq p.val).unitsIdle = true → w.due = none → w.opcode ≠ 0x34 → w.commit r.number = none →
       (s.part p.val).life ≠ .running ∨ (s.seq p.val).periodEnd ≤ s.clock.boundaryAt + k →
       ∃ t, exec (.endStep p k) s = .next t
         ∧ t.tset r.key = { w with held := w.held + 1, span := (u.resultSpan r.key).1, spanLen := (u.resultSpan r.key).2.1 }
         ∧ t.seq p.val = { s.seq p.val with run := none, idleFrom := s.clock.boundaryAt + k, stuck := 0, stepped := true }
         ∧ t.ctx p.val r.ctx.val = (s.ctx p.val r.ctx.val).retire
         ∧ Changes [.seq p.val, .tset r.key, .ctx (p.val * 16 + r.ctx.val), .guard] u t) ∧
     ((s.seq p.val).unitsIdle = true → w.due.isSome = true →
       (s.part p.val).life ≠ .running ∨ (s.seq p.val).periodEnd ≤ s.clock.boundaryAt + k →
       ∃ t, exec (.endStep p k) s = .next t
         ∧ t.seq p.val = { s.seq p.val with run := none, idleFrom := s.clock.boundaryAt + k, stuck := 0, stepped := true }
         ∧ Changes [.seq p.val, .ctx (p.val * 16 + r.ctx.val)] u t)) ∧
  (∀ (s : State) (p : Part) (n : Queue) (e : QStep),
     let q := s.seq p.val
     (q.queue n.val = [e] → (∀ m, m ≠ n.val → q.queue m = []) → e.ran = true → e.found = none → s.untraced p.val →
       (∀ r, q.run = some r → r.waiting = false) →
       let scans := 0x6010 + bits e.word 191 189
       ∃ t, exec (.stepComplete p n) s = .next t
         ∧ t.seq p.val = { q with
             queues := q.queues.set n.val [], stuck := if e.cut then q.stuck else 0, stepped := q.stepped || !e.cut }
         ∧ Changes [.seq p.val, .dict, .vtimes, .observe, .free] s t
         ∧ (e.used = [] → e.slots = [] → e.tally = [] → (wOpcode e.word ≠ opScan ∨ e.cut = true) → Changes [.seq p.val] s t)
         ∧ (e.used = [] → e.slots = [] → e.tally = [] → wOpcode e.word = opScan → e.cut = false →
             t.obj scans 1 = (s.obj scans 1 + 1) % 2 ^ 64 ∧ OnlyObjs [(scans, 1)] s t)) ∧
     (∀ r rep, q.queue n.val = [e] → (∀ m, m ≠ n.val → q.queue m = []) → e.ran = true → e.cut = false →
       e.found = some rep → q.run = some r → s.SlotFree → (s.tset r.key).due = none →
       ∃ t, exec (.stepComplete p n) s = .next t ∧ (t.seq p.val).run = none
         ∧ (t.tset r.key).due = some 0x0401
         ∧ Raised s t (fun x => x.cause = rep.cause ∧ x.part = p ∧ x.ctx = r.ctx ∧ x.step.toNat = e.index % 4096)) ∧
     (∀ rest, q.queue n.val = e :: rest → e.ran = false → exec (.stepComplete p n) s = .next s))

/-- When a partition's units are idle and one stream is pending, the batch step at its head starts if it fits: it runs
on the context's active banks, the stream is charged its pass, and what a batch step may not inherit is emptied, the
stores too where the owner changes (02 R46, R50, R62; 03 R91). At a boundary of its phase a running partition begins a
move period, which is counted; at any other boundary nothing happens. A partition reset's known-answer test ends (02
R45, R52; 16 R400). The selection of the next batch step takes, among the pending streams whose head fits into the time
left, one of smallest pass value, and of those the lowest port (02 R46, R62). -/
def Obligations.BatchStepsStart : Prop :=
  (∀ (s : State) (p : Part) (x n k d : Nat), (s.part p.val).life = .running → (s.seq p.val).run = none →
     s.deviceStop = false → s.power.warned = false → s.clock.boundaryAt + d < (s.seq p.val).periodEnd →
     s.headCtx p.val x = some n → x < 4 → (∀ y, y < 4 → y ≠ x → s.headCtx p.val y = none) →
     s.headOf p.val n = some k → s.fits p.val n (s.clock.boundaryAt + d) = true → (s.seq p.val).pass.length = 4 →
     (s.seq p.val).served.length = 4 →
     let c := s.ctx p.val n
     let differs := (s.seq p.val).ownerDiffers c.owner
     ∃ t, exec (.partitionUnitsIdle p d) s = .next t
       ∧ (∃ r, (t.seq p.val).run = some r ∧ r.ctx.val = n % 16 ∧ r.key = k ∧ r.stamp = (s.tset k).stamp.toNat
           ∧ r.number = (s.tset k).begun ∧ r.table = c.table.active ∧ r.scales = c.scales.active ∧ r.sft = c.sft.active
           ∧ r.dist = c.dist.active ∧ r.next = 0 ∧ r.loops = [0, 0, 0, 0] ∧ r.waiting = false ∧ r.missed = none
           ∧ r.odd = decide (c.refitStep.toNat % 2 = 1) ∧ r.side = c.scales.side ∧ r.program = [])
       ∧ (t.seq p.val).lastOwner = some c.owner ∧ (t.seq p.val).queues = []
       ∧ (t.seq p.val).pass.getD x 0
           = (s.seq p.val).pass.getD x 0 + 1000000 / max 1 ((s.part p.val).defn.streams.getD x 100)
       ∧ (t.seq p.val).served.getD x 16 = n
       ∧ t.tset k = { s.tset k with begun := (s.tset k).begun + 1 }
       ∧ (∀ e, e ∈ s.squaresOf p.val → t.die e = (s.die e).batchStart differs)
       ∧ (∀ e, e ∉ s.squaresOf p.val → t.die e = s.die e)
       ∧ Changes [.seq p.val, .tset k, .fabric, .dies, .dict, .vtimes, .media, .free] s t) ∧
  (∀ (s : State) (p : Part),
     let d := (s.part p.val).defn
     (s.clock.running = true → (s.part p.val).life = .running → s.tick % d.divider = d.phase →
       ((s.seq p.val).periodEnd = 0 ∨ (s.seq p.val).periodEpoch < s.tick) →
       ∃ t, exec (.movePeriodStart p) s = .next t
         ∧ (t.seq p.val).periodEnd = s.clock.boundaryAt + s.movePeriod p.val ∧ (t.seq p.val).periodEpoch = s.tick
         ∧ (t.seq p.val).stuck = (if (s.seq p.val).stepped ∨ (s.seq p.val).periodEnd = 0 then 0
             else if (s.seq p.val).busy ∨ s.stepsDue p.val = true then (s.seq p.val).stuck + 1 else 0)
         ∧ t.obj (0x2020 + p.val) 9 = (s.obj (0x2020 + p.val) 9 + 1) % 2 ^ 64
         ∧ Changes [.seq p.val, .sets, .fabric, .dies, .dict, .vtimes, .media, .free] s t) ∧
     ((s.part p.val).life ≠ .running ∨ s.tick % d.divider ≠ d.phase → exec (.movePeriodStart p) s = .next s) ∧
     ((s.part p.val).life = .resetting →
       ∃ t, exec (.partitionResetDone p) s = .next t ∧ t.part p.val = { s.part p.val with katDone := true }
         ∧ Changes [.part p.val] s t)) ∧
  (∀ (s : State) (p now x n : Nat), s.pick p now = some (x, n) →
     s.headCtx p x = some n ∧ s.fits p n now = true ∧
     ∀ y m, y < 4 → s.headCtx p y = some m → s.fits p m now = true →
       (s.seq p).pass.getD x 0 ≤ (s.seq p).pass.getD y 0
         ∧ ((s.seq p).pass.getD x 0 = (s.seq p).pass.getD y 0 → x ≤ y))

/-- A missed deadline. With a fallback step, the batch step goes on at it and the fallback is counted; without one, the
batch step ends, and its command with TICK_OVERRUN. A step that was issued is cut, with every step issued after it, and without a fallback every step of the batch step; of uncorrectable
data that a FETCH then drops a record is raised, and nothing more (02 R48, R50; 03 R88 to R90; 07 R181). A deadline that counts from
a step's issue is missed by an issued step only, or by the WAIT in force. -/
def Obligations.DeadlinesAreMissed : Prop :=
  ∀ (s : State) (p : Part) (i : BitVec 12) (r : Run) (n : Queue) (e : QStep) (rest : List QStep),
    (s.seq p.val).run = some r →
    let q := s.seq p.val
    let w := s.tset r.key
    let Cut := fun (f : QStep → Bool) (t : State) => ∀ m, (t.seq p.val).queue m = (q.queue m).map (fun x =>
      if f x then { x with cut := true, ran := true, saved := [], slots := [], found := none, tally := [] } else x)
    let Falls := fun (c : Instr) (j : Nat) (issue : Option Nat) =>
      let word := stepWord r.table j
      (wHasFallback word = true → ∃ t, exec c s = .next t ∧ Cut (fun x => issue.any (fun n => decide (n ≤ x.issue))) t
        ∧ (t.seq p.val).run = some { r with
            next := wFallback word, waiting := false
            loops := r.loops.zipIdx.map (fun l => if bodyHolds r.table l.2 (wFallback word) then l.1 else 0)
            missed := some (r.missed.getD j), fallbacks := r.fallbacks + 1 }
        ∧ t.tset r.key = { w with fallbacks := w.fallbacks + 1, missed := some (w.missed.getD j) }
        ∧ t.obj (0x2020 + p.val) 7 = (s.obj (0x2020 + p.val) 7 + 1) % 2 ^ 64
        ∧ Changes [.seq p.val, .tset r.key, .dict, .fabric, .tiers, .dies, .errors, .observe, .free] s t) ∧
      (wHasFallback word = false → ∃ t, exec c s = .next t ∧ (t.seq p.val).run = none ∧ Cut (fun _ => true) t
        ∧ (w.due = none → t.tset r.key = { w with
            due := some stOverrun, count := w.published, dueStep := r.missed.getD j })
        ∧ t.obj (0x2020 + p.val) 8 = (s.obj (0x2020 + p.val) 8 + 1) % 2 ^ 64
        ∧ Changes [.seq p.val, .tset r.key, .ctx (p.val * 16 + r.ctx.val), .dict, .fabric, .tiers, .dies, .errors, .observe,
            .free] s t)
    (∀ x, wHasDeadline (stepWord r.table i.toNat) = true → q.open.find? (fun x => decide (x.index = i.toNat)) = some x →
      Falls (.flagFall p i) i.toNat (some x.issue)) ∧
    (wHasDeadline (stepWord r.table i.toNat) = true → q.open.find? (fun x => decide (x.index = i.toNat)) = none →
      ((r.waiting = true ∧ r.next = i.toNat) ∨
          (wRelative (stepWord r.table i.toNat) = false ∧ r.next ≤ i.toNat ∧ i.toNat < tableSteps r.table) →
        Falls (.flagFall p i) i.toNat none) ∧
      (¬ (r.waiting = true ∧ r.next = i.toNat) → wRelative (stepWord r.table i.toNat) = true ∨ i.toNat < r.next →
        exec (.flagFall p i) s = .next s)) ∧
    (wHasDeadline (stepWord r.table i.toNat) = false → exec (.flagFall p i) s = .next s) ∧
    (q.queue n.val = e :: rest → e.cut = false → Falls (.stepStop p n) e.index (some e.issue)) ∧
    (q.queue n.val = e :: rest → e.cut = true → exec (.stepStop p n) s = .next s)

/-- TICK_OVERRUN: a batch step that has not reached END when its move period is over ends, its outputs discarded; its
command ends with the status TICK_OVERRUN and the step in progress. The partition's next batch step waits for idle
units (02 R50, R51, R53). The hang watchdog: when no step has completed during eight move periods, a dump is taken, unless one was within 10 ms, and
an error is raised of the context in progress, of the one whose batch step the end of its period has just cut, or of the one at the head of
selection; its detail numbers the dump (02 R52; 19 R474; log 20). -/
def Obligations.LateWorkEnds : Prop :=
  (∀ (s : State) (p : Part) (r : Run), (s.seq p.val).run = some r →
     let q := s.seq p.val
     let first := r.missed.getD (q.inProgress r)
     (q.periodEnd ≤ s.clock.boundaryAt + s.tickUnits →
       ∃ t, exec (.tickOverrun p) s = .next t ∧ (t.seq p.val).run = none
         ∧ (∀ m, m < 32 → ∀ x, x ∈ (t.seq p.val).queue m → x.cut = true)
         ∧ ((s.tset r.key).due = none → t.tset r.key = { s.tset r.key with
             due := some stOverrun, count := (s.tset r.key).published, dueStep := first })
         ∧ ((s.tset r.key).due ≠ none → t.tset r.key = s.tset r.key)
         ∧ t.ctx p.val r.ctx.val = (s.ctx p.val r.ctx.val).retire
         ∧ t.obj (0x2020 + p.val) 8 = (s.obj (0x2020 + p.val) 8 + 1) % 2 ^ 64
         ∧ t.obj (0x2020 + p.val) 0x0C = field 32 32 (s.tick + 1) + field 12 0 first
         ∧ Changes [.seq p.val, .tset r.key, .ctx (p.val * 16 + r.ctx.val), .dict, .fabric, .tiers, .dies, .errors, .observe,
             .free] s t) ∧
     (s.clock.boundaryAt + s.tickUnits < q.periodEnd → exec (.tickOverrun p) s = .next s)) ∧
  (∀ (s : State) (p : Part),
     let q := s.seq p.val
     let Hangs := fun (n step : Nat) => 8 ≤ s.stuckPeriods p.val → s.SlotFree →
       let near := ∃ a, s.observe.lastDump = some a ∧ s.clock.now < a + 1000000
       ∃ t, exec (.hangWatchdog p) s = .next t ∧ (t.seq p.val).stuck = 0
         ∧ (¬ near → t.observe.lastDump = some s.clock.now ∧ t.observe.dumpNo = s.observe.dumpNo + 1
             ∧ ∃ image, t.errors.dumps = (s.errors.dumps ++ [image]).drop (s.errors.dumps.length - 3))
         ∧ (near → t.errors.dumps = s.errors.dumps ∧ t.observe.lastDump = s.observe.lastDump)
         ∧ Raised s t (fun rep => rep.cause = 0x0040 ∧ rep.severity = 2 ∧ rep.partValid = true ∧ rep.part = p
             ∧ rep.ctx = Fin.ofNat 16 n ∧ rep.portValid = true ∧ rep.port = (s.ctx p.val n).owner
             ∧ rep.step = BitVec.ofNat 12 step
             ∧ (¬ near → rep.detail = BitVec.ofNat 128 s.observe.dumpNo) ∧ (near → rep.detail = 0xFFFFFFFF))
         ∧ Changes [.seq p.val, .errors, .dict, .observe, .free] s t
     (∀ r, q.run = some r → Hangs r.ctx.val (q.inProgress r)) ∧
     (∀ x, q.run = none → s.cutHere p.val = true → q.lastOwner = some x → Hangs (q.served.getD x.val 0) 0) ∧
     (∀ n, q.run = none → s.cutHere p.val = false ∨ q.lastOwner = none → s.selectionHead p.val = some n → Hangs n 0) ∧
     (s.stuckPeriods p.val < 8 → exec (.hangWatchdog p) s = .next s))

/-! ## The boundary (01) -/

/-- TICK_BOUNDARY: DEVICE_EPOCH advances by one, one base tick after the last boundary; the controls of the tick have
been carried out; a life-cycle transition that was accepted is made; FREEZE keeps its bits and takes the bits whose
causes came; no record is left HANDLING. Before READY, and in P5, there are no boundaries (01 R29, R36; 15 R393; 16
R399; 17 R435; 18 R446). In the order of R36 a boundary of a module that is not SAFE publishes the map, carries out the controls in the order of
their acceptance, then the context commands, the batch steps and the records; afterwards no change waits, every command that was due is
DONE, and a holder sees in every block what its snapshot saw before (01 R30, R31, R36; 14 R356; 15 R374). Publication of the map: every change that waits is published with the boundary as its epoch,
nothing waits afterwards, a snapshot of an earlier stamp sees what it saw, but for data that both buffer copies have lost,
which no snapshot reads any more, and a block that no change names keeps its versions (01 R30, R31, R36; 07 R186; 08
R203). -/
def Obligations.BoundariesAdvance : Prop :=
  (∀ (s : State),
     (s.clock.running = true → s.power.state ≤ 4 →
       (∀ a, s.power.resetAt = some a → s.clock.boundaryAt + s.tickUnits < a) →
       ∃ t, exec .tickBoundary s = .next t
         ∧ t.clock = ⟨max s.clock.now (s.clock.boundaryAt + s.tickUnits), s.clock.boundaryAt + s.tickUnits,
             s.clock.epoch + 1, true⟩
         ∧ t.dict.ctl = []
         ∧ (∀ v, s.security.due = some v → t.security.state = v)
         ∧ (s.security.due = none → t.security.state = s.security.state)
         ∧ (s.dict.ctl = [] → ∀ x, x < 4 → ∀ n, n < 10 →
             bitOf ((s.port x).freeze ||| (s.port x).freezeDue).toNat n = true → bitOf (t.port x).freeze.toNat n = true)
         ∧ (∀ e, e ∈ t.errors.ring → e.2.st ≠ .handling)) ∧
     (s.clock.running = true → s.power.state ≤ 4 → s.errors.device ≠ 2 →
       ∃ t, ∃ a : State, exec .tickBoundary s = .next t ∧ t.media.pending = []
         ∧ a.clock.epoch = s.clock.epoch + 1 ∧ a.media = { s.media with seen := [] } ∧ a.dict.ctl = s.dict.ctl
         ∧ a.security = s.security
         ∧ (let b := ((a.publishMap a.tick).readOnlyNow.updDict (fun d => { d with ctl := [] })).each s.dict.ctl State.runControl
            let c := b.transition.sanitizeNow
            let d := (c.each c.contextCommands State.contextCommand).swapAll.detachNow.indicesNow.dropEnded
            t = (d.each (d.takenOrder (fun _ => true)) State.publishRun).completion.aftermath)
         ∧ (s.dict.ctl = [] → s.security.due = none → s.media.sanitize = none → s.power.resetAt = none →
             (∀ k v, k < 256 → (s.tset k).life = .taken → (s.tset k).due = some v → (t.tset k).life = .done) ∧
             ((∀ c, c ∈ s.media.pending → c.kind ≠ .lose) → ∀ ns lba stamp, stamp ∈ t.holdersOf ns → stamp < t.tick →
               ((t.space ns).verAt lba stamp).map (fun v => (v.st, v.data, v.value))
                 = ((s.space ns).verAt lba stamp).map (fun v => (v.st, v.data, v.value))))) ∧
     (s.clock.running = false ∨ s.power.state = 5 → exec .tickBoundary s = .next s)) ∧
  (∀ (s : State) (e : Nat),
     (s.publishMap e).media.pending = [] ∧ (s.publishMap e).media.moves = [] ∧
     (∀ ns lba stamp, stamp < e →
       (∀ c, c ∈ s.media.pending → c.kind = .lose → c.ns = ns → c.start + c.len ≤ lba ∨ lba < c.start) →
       ((s.publishMap e).space ns).verAt lba stamp = (s.space ns).verAt lba stamp) ∧
     (∀ c lba stamp v q, c ∈ s.media.pending → c.kind = .lose → (s.space c.ns).life ≠ .absent → stamp < e →
       c.start ≤ lba → lba < c.start + c.len → (s.space c.ns).verAt lba stamp = some v → v.st = .mapped →
       q ∈ s.media.pieces → q.group = v.group → q.ns = c.ns → q.start ≤ lba → lba < q.start + q.blocks →
       ∃ u, ((s.publishMap e).space c.ns).verAt lba stamp = some u ∧ u.st = .unreadable ∧ u.data = []) ∧
     (∀ c j, c ∈ s.media.pending → c.kind = .write → (s.space c.ns).life ≠ .absent → s.media.moves = [] → j < c.len →
       (∀ c', c' ∈ s.media.pending → c' ≠ c → c'.ns = c.ns → c'.start + c'.len ≤ c.start + j ∨ c.start + j < c'.start) →
       ∃ v, ((s.publishMap e).space c.ns).head (c.start + j) = some v ∧ v.epoch = e ∧ v.st = .mapped
         ∧ v.data = c.data.slice (4096 * j) 4096 ∧ v.value = c.values.valueAt j) ∧
     (∀ c lba, c ∈ s.media.pending → c.kind ≠ .write → c.kind ≠ .lose → (s.space c.ns).life ≠ .absent → s.media.moves = [] →
       c.start ≤ lba → lba < c.start + c.len →
       (∀ c', c' ∈ s.media.pending → c' ≠ c → c'.ns = c.ns → c'.start + c'.len ≤ lba ∨ lba < c'.start) →
       ∀ v, ((s.publishMap e).space c.ns).head lba = some v → v.st = .unmapped) ∧
     (∀ c lba, c ∈ s.media.pending → c.kind = .lose → (s.space c.ns).life ≠ .absent → s.media.moves = [] →
       c.start ≤ lba → lba < c.start + c.len →
       (∀ c', c' ∈ s.media.pending → c' ≠ c → c'.ns = c.ns → c'.start + c'.len ≤ lba ∨ lba < c'.start) →
       ∃ v, ((s.publishMap e).space c.ns).head lba = some v ∧ v.epoch = e ∧ v.st = .unreadable ∧ v.data = []) ∧
     (∀ ns lba, (∀ c, c ∈ s.media.pending → c.ns = ns → c.start + c.len ≤ lba ∨ lba < c.start) →
       (∀ m, m ∈ s.media.moves → m.ns = ns → m.lba ≠ lba) →
       ((s.publishMap e).space ns).blocks.get [] lba = (s.space ns).blocks.get [] lba))

/-- The completion window: every command that is due is posted with its status, COUNT, step, epoch and OUT_BYTES, and
its doorbell bit is raised; a write that did not end with OK freezes IO; the freezes that are due come into force; a
HALTED module without STREAM bits and DEVICE records returns to NORMAL (01 R36; 15 R374, R378, R379, R393; 16 R402).
Publication of a command's batch steps: what they held is the output, and is counted; refit batch steps advance
REFIT_STEP by one; a command that asks for it rings its doorbell; with its last batch step the command ends (01 R34; 12 R304;
15 R378, R389). -/
def Obligations.RecordsArePosted : Prop :=
  (∀ (s : State) (k v x : Nat), k < 256 → x < 4 →
     let w := s.tset k
     let t := s.completion
     (w.life = .taken → w.due = some v →
       (t.tset k).life = .done ∧ (t.tset k).due = none ∧ (t.tset k).tr14 = s.clock.epoch
         ∧ (t.tset k).tr15 = BitVec.ofNat 64
             (field 32 32 (if opTableRun w.opcode then w.published else w.count) + field 12 20 w.dueStep + field 16 0 v)
         ∧ (t.tset k).tr13 = BitVec.ofNat 64 (field 16 48 (min w.fallbacks 65535) + field 40 0 w.outLen)
         ∧ bitOf (t.port (k / 64)).db.toNat (k % 64 / 2) = true
         ∧ (opWrite w.opcode = true → v ≠ 0 → bitOf (t.port (k / 64)).freeze.toNat 8 = true)) ∧
     (w.life ≠ .taken → t.tset k = w) ∧
     ((t.port x).freezeDue = 0 ∧ (t.port x).evTaken = false ∧ (t.port x).evDb = false) ∧
     (∀ n, n < 10 → bitOf ((s.port x).freeze ||| (s.port x).freezeDue).toNat n = true →
       bitOf (t.port x).freeze.toNat n = true) ∧
     (s.errors.device = 1 → (∀ y, y < 4 → bitOf (t.port y).freeze.toNat 9 = false) →
       (∀ e, e ∈ s.errors.ring → e.2.open = true → e.2.rep.severity ≠ 4) → t.errors.device = 0) ∧
     (bitOf (t.port x).freeze.toNat 9 = true → t.errors.device = s.errors.device) ∧
     (∀ e, e ∈ t.errors.ring → e.2.st ≠ .handling)) ∧
  (∀ (s : State) (k : Nat),
     let w := s.tset k
     let t := s.publishRun k
     (w.held = 0 → t = s) ∧
     (0 < w.held →
       (t.tset k).published = w.published + w.held ∧ (t.tset k).held = 0
       ∧ (w.published + w.held < w.steps ∨ w.due ≠ none →
           t.tset k = { w with published := w.published + w.held, held := 0, output := w.span, outLen := w.spanLen })
       ∧ (w.due = none → w.steps ≤ w.published + w.held → opTableRun w.opcode = true → w.reg 5 = 0 →
           (t.tset k).due = some w.endStatus ∧ (t.tset k).count = w.published + w.held
           ∧ (t.tset k).dueStep = w.missed.getD 0)
       ∧ (w.opcode = 0x33 → (t.ctx w.partNo w.ctxNo).refitStep
           = (s.ctx w.partNo w.ctxNo).refitStep + 1)
       ∧ (w.opcode ≠ 0x33 → t.ctx w.partNo w.ctxNo = s.ctx w.partNo w.ctxNo)
       ∧ (opTableRun w.opcode = true → bitOf (w.reg 1) 31 = true → k < 256 →
           bitOf (t.port (k / 64)).db.toNat (k % 64 / 2) = true)))

/-- The controls of a partition at their boundary: a commit, a start, a stop and a release that fail leave the
partition and report the first failing check; one that succeeds has its effect and reports 0 (02 R57, R58). -/
def Obligations.PartitionControlsAct : Prop :=
  ∀ (s : State) (p : Part) (port : Option Port),
    let x := s.part p.val
    let run := fun v => s.runControl ⟨port, 0x2010 + p.val, 0x10, v⟩
    let Fails := fun (v f : Nat) => (run v).obj (0x2010 + p.val) 0x13 = f ∧ OnlyObjs [(0x2010 + p.val, 0x13)] s (run v)
      ∧ Changes [.dict] s (run v)
    let f := s.commitFault p.val (s.writtenDef p.val)
    let g := s.startFault p.val
    (f ≠ 0 → Fails 1 f) ∧
    (f = 0 → (run 1).part p.val = { x with life := .stopped, defn := s.writtenDef p.val }
      ∧ (run 1).obj (0x2010 + p.val) 0x13 = 0 ∧ (run 1).obj (0x2010 + p.val) 0x12 = s.tick
      ∧ Changes [.part p.val, .dict] s (run 1)) ∧
    (g ≠ 0 → Fails 2 g) ∧
    (g = 0 → (run 2).part p.val = { x with life := .running } ∧ (run 2).obj (0x2010 + p.val) 0x13 = 0
      ∧ (run 2).seq p.val = { s.seq p.val with periodEnd := 0, stuck := 0 }
      ∧ Changes [.part p.val, .seq p.val, .dict] s (run 2)) ∧
    (x.life ≠ .running → Fails 3 2) ∧
    (x.life = .running → (run 3).part p.val = { x with life := if (s.seq p.val).run.isSome then .stopping else .stopped }
      ∧ (run 3).obj (0x2010 + p.val) 0x13 = 0 ∧ Changes [.part p.val, .seq p.val, .dict] s (run 3)) ∧
    (x.life ≠ .stopped → Fails 4 2) ∧
    (x.life = .stopped → (run 4).part p.val = Partition.none ∧ (run 4).seq p.val = Seq.none
      ∧ (∀ n, n < 16 → (run 4).ctx p.val n = (s.ctx p.val n).gone) ∧ (run 4).obj (0x2010 + p.val) 0x13 = 0)

/-- The other controls at their boundary: ATTN_ACK, UNFREEZE, the controls of a port, NS_CONTROL, STATE_REQUEST, the
arming of the counters' freeze, TEST_HOLD and TEST_START (08 R229; 13 R335, R343, R344, R347; 15 R396; 17 R420; 19 R467;
20 R492, R495). -/
def Obligations.BoundaryControlsAct : Prop :=
  ∀ (s : State) (x : Port) (n : NsId) (port : Option Port) (v : Nat),
    let q := s.port x.val
    let run := fun (idx sub v : Nat) => s.runControl ⟨port, idx, sub, v⟩
    ((run (0x1110 + x.val) 9 v).port x.val = { q with word := BitVec.ofNat 16 (clearWord q.word.toNat v) }
      ∧ Changes [.port x.val] s (run (0x1110 + x.val) 9 v)) ∧
    ((run (0x1420 + x.val) 3 v).port x.val = { q with
      freeze := q.freeze &&& ~~~ (BitVec.ofNat 10 v), freezeAt := q.freezeAt.dropIf (fun i => bitOf v i) }
      ∧ Changes [.port x.val] s (run (0x1420 + x.val) 3 v)) ∧
    (q.node = 0 → q.life ≠ .disabled →
      ((run (0x1110 + x.val) 5 2).port x.val).life = if q.life = .trainFailed then .down else .disabled) ∧
    (q.node ≠ 0 ∨ q.life = .disabled → run (0x1110 + x.val) 5 2 = s) ∧
    (q.life = .disabled → (run (0x1110 + x.val) 5 3).port x.val = { q with life := .down }) ∧
    (q.life = .up → ((run (0x1110 + x.val) 5 1).port x.val).life =
      if (q.retrains.filter (fun t => decide (s.clock.now < t + 100000000))).length < 2 then .retraining else .down) ∧
    (s.createFault n.val ≠ 0 → (run (0x4100 + n.val) 3 1).obj (0x4100 + n.val) 7 = s.createFault n.val
      ∧ Changes [.dict] s (run (0x4100 + n.val) 3 1)) ∧
    (s.createFault n.val = 0 →
      (run (0x4100 + n.val) 3 1).space n.val = { Namespace.none with life := .active }
      ∧ (run (0x4100 + n.val) 3 1).obj (0x4100 + n.val) 7 = 1 ∧ (run (0x4100 + n.val) 3 1).obj (0x4100 + n.val) 5 = s.tick
      ∧ Changes [.dict, .media, .security, .free] s (run (0x4100 + n.val) 3 1)) ∧
    ((s.space n.val).life = .active →
      ((run (0x4100 + n.val) 3 2).space n.val).life = .absent
      ∧ (∀ c, c ∈ (run (0x4100 + n.val) 3 2).media.pending → c.ns ≠ n.val)
      ∧ (run (0x4100 + n.val) 3 2).security.keys.has n.val = false
      ∧ Changes [.fabric, .dict, .vtimes, .sets, .stagings, .media, .security, .free] s (run (0x4100 + n.val) 3 2)) ∧
    ((s.space n.val).life = .absent → run (0x4100 + n.val) 3 2 = s) ∧
    (5 < v → (run 0x7000 2 v).obj 0x7000 3 = 1 ∧ Changes [.dict] s (run 0x7000 2 v)) ∧
    (v ≤ 5 → s.stateBlocked v = true → (run 0x7000 2 v).obj 0x7000 3 = 2 ∧ Changes [.dict] s (run 0x7000 2 v)) ∧
    (v ≤ 3 → s.stateBlocked v = false → s.power.target = none → s.media.sanitize = none → s.hold = 0 → v ≠ s.power.state →
      s.power.state ≤ 3 → (run 0x7000 2 v).power.state = v ∧ (run 0x7000 2 v).power.target = some v
        ∧ (run 0x7000 2 v).obj 0x7000 3 = 4 ∧ (run 0x7000 2 v).obj 0x7000 5 = guaranteed v
        ∧ ∀ d, d < 48 → bitOf (gatedBy v) d = true → bitOf (gatedBy s.power.state) d = false →
            (run 0x7000 2 v).die d = Die.empty) ∧
    ((run 0x9001 1 3).observe = { s.observe with armed := BitVec.ofNat 4 (s.gov 0x9001 2) }
      ∧ Changes [.observe] s (run 0x9001 1 3)) ∧
    (s.hold = 0 → run 0x9050 1 1 = s.setHold (if s.errors.device = 2 then 2 else 1)) ∧
    (s.hold = 1 ∨ s.hold = 2 → (run 0x9050 1 0).hold = 3 ∧ (run 0x9050 1 0).observe.run = none
      ∧ Changes [.hold, .dict, .observe, .free] s (run 0x9050 1 0)) ∧
    (s.testAllowed port v = true → (run 0x9050 3 v).observe = { s.observe with run := some v }
      ∧ bits ((run 0x9050 3 v).obj 0x9050 4) 15 14 = 1 ∧ OnlyObjs [(0x9050, 4)] s (run 0x9050 3 v)
      ∧ Changes [.dict, .observe] s (run 0x9050 3 v)) ∧
    (s.testAllowed port v = false → run 0x9050 3 v = s)

/-! ## Admin and I/O commands (08, 09, 10, 15, 16, 18) -/

/-- The event of a command does nothing unless the set holds that command, started and not yet ended (R372). -/
def Obligations.EventsNeedTheirCommand : Prop :=
  ∀ (s : State) (x : Port) (set : SetId) (c : Instr) (o : Nat),
    (c, o) ∈ [(Instr.identify x set, 0x01), (.logRead x set, 0x02), (.features x set, 0x03), (.fwDownload x set, 0x04),
      (.fwCommitVerify x set, 0x05), (.fwCommitInstall x set, 0x05), (.sanitizeBlockErase x set, 0x06),
      (.sanitizeCryptoErase x set, 0x06), (.read x set, 0x10), (.write x set, 0x11), (.writePieceAccept x set, 0x11),
      (.dataTimeout x set, 0x11), (.discard x set, 0x12), (.secureDiscard x set, 0x13), (.flush x set, 0x14),
      (.mapSegments x set, 0x15), (.checkCommand x set, 0x16), (.contextCreate x set, 0x20), (.contextRelease x set, 0x20),
      (.contextTeardown x set, 0x20), (.stageModelTable x set, 0x21), (.stageModelScales x set, 0x21),
      (.stageModelSfTables x set, 0x21), (.stageModelDistance x set, 0x21), (.stageModelFar x set, 0x21),
      (.scanCommand x set, 0x30), (.embed x set, 0x31), (.inferStep x set, 0x32), (.refitStep x set, 0x33),
      (.searchAttach x set, 0x34), (.searchDetach x set, 0x34), (.searchQuery x set, 0x34), (.searchUpdate x set, 0x34),
      (.updateAccept x set, 0x34)] →
    s.runsCmd (setKey x set) o = false → exec c s = .next s

/-- IDENTIFY returns the identity objects; LOG_READ returns the part of the page that was asked for; FW_DOWNLOAD erases a sector
of the slot that is not running, which is counted, and places its chunk there (17 R439, R440; what the sector's rest reads is free, log
41); FW_COMMIT verifies the image there, or installs it. Each is posted at once (R374, R386; 16 R413; 18 R452 to R454). FEATURES: the first pair that its write check turns away ends the command with
that check's code, and nothing is written; pairs that are good are accepted in order, or, with a persistent object
among them, are programmed first (15 R386; 14 R353, R361). -/
def Obligations.AdminCommandsComplete : Prop :=
  (∀ (s : State) (x : Port) (set : SetId),
     let k := setKey x set
     let w := s.tset k
     let z := s.security.slot s.downloadSlot
     let n := bits (w.reg 2) 16 0
     (s.ready k 0x01 = true →
       ∃ t, exec (.identify x set) s = .next t ∧ Posted s t x set 0x0000 s.identBytes.length 0
         ∧ (t.tset k).output = memOf s.identBytes ∧ (t.tset k).outLen = s.identBytes.length
         ∧ Changes [.tset k, .port x.val] s t) ∧
     (s.ready k 0x02 = true → ∀ p, s.page (bits (w.reg 1) 63 48) = some p →
       let b := ((s.pageBytes (bits (w.reg 1) 63 48) p).drop (bits (w.reg 1) 47 0)).take (bits (w.reg 2) 31 0)
       ∃ t, exec (.logRead x set) s = .next t ∧ Posted s t x set 0x0000 b.length 0
         ∧ (t.tset k).output = memOf b ∧ (t.tset k).outLen = b.length
         ∧ Changes [.tset k, .port x.val, .errors, .free] s t) ∧
     (s.ready k 0x04 = true →
       ∃ t, exec (.fwDownload x set) s = .next t ∧ Posted s t x set 0x0000 n 0
         ∧ (t.security.slot s.downloadSlot).len = max z.len (w.reg 1 + n)
         ∧ (∀ a, w.reg 1 ≤ a → a < w.reg 1 + n → (t.security.slot s.downloadSlot).image.read a = w.input.read (a - w.reg 1))
         ∧ (∀ a, a < w.reg 1 ∨ w.reg 1 + max n 65536 ≤ a → (t.security.slot s.downloadSlot).image.read a = z.image.read a)
         ∧ (let sector := 256 * s.downloadSlot + w.reg 1 / 65536
            t.security.erases.get 0 sector = s.security.erases.get 0 sector + 1
              ∧ t.obj 0x7040 5 = max (s.obj 0x7040 5) (s.security.erases.get 0 sector + 1) % 2 ^ objBits 0x7040 5)
         ∧ (s.runningSlot ≤ 1 → t.security.slot s.runningSlot = s.security.slot s.runningSlot)
         ∧ OnlyObjs [(0x7040, 5)] s t ∧ Changes [.tset k, .port x.val, .security, .dict, .free] s t) ∧
     (s.readyCommit k 1 = true →
       ∃ t, exec (.fwCommitVerify x set) s = .next t
         ∧ Posted s t x set (if s.imageFault s.downloadSlot = 0 then 0x0000 else 0x0107) (s.imageFault s.downloadSlot) 0
         ∧ Changes [.tset k, .port x.val] s t) ∧
     (s.readyCommit k 2 = true → s.imageFault s.downloadSlot = 0 →
       ∃ t, exec (.fwCommitInstall x set) s = .next t ∧ Posted s t x set 0x0000 0 0 ∧ t.obj 0x7040 2 = s.downloadSlot
         ∧ t.security = { s.security with fresh := true, fails := 0, uncopied := true } ∧ OnlyObjs [(0x7040, 2)] s t
         ∧ Changes [.tset k, .port x.val, .security, .dict] s t) ∧
     (s.readyCommit k 2 = true → s.imageFault s.downloadSlot ≠ 0 →
       ∃ t, exec (.fwCommitInstall x set) s = .next t ∧ Posted s t x set 0x0107 (s.imageFault s.downloadSlot) 0
         ∧ Changes [.tset k, .port x.val] s t)) ∧
  (∀ (s : State) (x : Port) (set : SetId) (v : BitVec 16), s.ready (setKey x set) 0x03 = true →
     let k := setKey x set
     let ps := (s.tset k).pairs 5 1
     let code := fun (p : Nat × Nat × Bytes) => s.checkWrite (some x) p.1 p.2.1 p.2.2
     (∀ i p, ps[i]? = some p → code p ≠ 0x0000 → (∀ j q, j < i → ps[j]? = some q → code q = 0x0000) →
       ∃ t, exec (.features x set) s = .next t ∧ Posted s t x set (code p) 0 i ∧ Changes [.tset k, .port x.val] s t) ∧
     ((∀ p, p ∈ ps → code p = 0x0000) → (∃ p, p ∈ ps ∧ isPersistent p.1 p.2.1 p.2.2 = true) →
       ∃ t, exec (.features x set) s = .next t ∧ t.tset k = { s.tset k with begun := 1 }
         ∧ t.dict = { s.dict with jobs := s.dict.jobs ++ [⟨ps, none, some k⟩] } ∧ Changes [.tset k, .dict] s t) ∧
     (ps = [(0x2000, 1, bytesOf 2 v.toNat)] → s.checkWrite (some x) 0x2000 1 (bytesOf 2 v.toNat) = 0x0000 →
       ∃ t, exec (.features x set) s = .next t ∧ Posted s t x set 0x0000 1 0 ∧ t.obj 0x2000 1 = v.toNat
         ∧ OnlyObjs [(0x2000, 1)] s t ∧ Changes [.tset k, .port x.val, .dict] s t))

/-- READ: the blocks of the command's snapshot become its output, up to the first that cannot be read, and behind them, of a
protected namespace, their check values; READ_COMPLETE
charges its reads and posts its status and COUNT (R381, R409; 01 R30; 02 R66; 08 R207; 10 R274). MAP_SEGMENTS returns the segment
records of its regions at its snapshot, up to the first segment that cannot be read, those that lie in the segment cache
being counted as hits (08 R204, R208), and CHECK its check record, or the status of the first unit that could not be read, with
the record of its error (R385; 08 R206; 10 R267, R271; 16 R409). -/
def Obligations.ReadsReturnTheSnapshot : Prop :=
  (∀ (s : State) (x : Port) (set : SetId) (d : Nat → Mem) (j : Nat),
     let k := setKey x set
     let w := s.tset k
     let lo := w.reg 2
     let n := w.reg 3
     let blk := fun i => s.readBlock w.stamp.toNat x.val w.nsNo (lo + i)
     let Ends := fun (count verdict : Nat) => ∃ t, exec (.read x set) s = .next t
       ∧ (t.tset k).begun = 1 ∧ (t.tset k).count = count ∧ (t.tset k).verdict = verdict ∧ (t.tset k).outLen = 4096 * count
       ∧ (∀ i a, i < count → a < 4096 → (t.tset k).output.read (4096 * i + a) = (d i).read a)
       ∧ t.tset k = { w with
           begun := 1, count := count, verdict := verdict, output := (t.tset k).output, outLen := 4096 * count
           used := (t.tset k).used }
       ∧ Changes [.tset k, .dict, .media, .vtimes, .free, .errors, .observe] s t
     (s.ready k 0x10 = true → s.isProtected w.nsNo = false → (∀ i, i < n → blk i = .data (d i)) →
       Ends n (if (s.useHints w (bitOf (w.reg 1) 61) w.nsNo lo n w.stamp.toNat).2.1 then 0x0002 else 0x0000)) ∧
     (s.ready k 0x10 = true → s.isProtected w.nsNo = false → (∀ i, i < j → blk i = .data (d i)) → j < n →
       (blk j = .unreadable → Ends j 0x0202) ∧ (blk j = .denied → Ends j 0x0501)) ∧
     (s.ready k 0x10 = true → s.isProtected w.nsNo = true → (∀ i, i < n → blk i = .data (d i)) →
       ∃ t, exec (.read x set) s = .next t ∧ (t.tset k).begun = 1 ∧ (t.tset k).count = n
         ∧ (t.tset k).verdict = (if (s.useHints w (bitOf (w.reg 1) 61) w.nsNo lo n w.stamp.toNat).2.1 then 0x0002 else 0x0000)
         ∧ (t.tset k).outLen = 4104 * n
         ∧ (∀ i a, i < n → a < 4096 → (t.tset k).output.read (4096 * i + a) = (d i).read a)
         ∧ (∀ i, i < n → (t.tset k).output.readBytes (4096 * n + 8 * i) 8 = bytesOf 8 (s.valueRead w.nsNo (lo + i) w.stamp.toNat))
         ∧ Changes [.tset k, .dict, .media, .vtimes, .free, .errors, .observe] s t) ∧
     (s.runsCmd k 0x10 = true ∨ s.runsCmd k 0x15 = true ∨ (s.runsCmd k 0x16 = true ∧ bitOf (w.reg 1) 59 = false) → w.begun = 1 →
       ∃ t, exec (.readComplete x set) s = .next t ∧ Posted s t x set w.verdict w.count 0
         ∧ (t.tset k).output = w.output ∧ (t.tset k).used = [] ∧ Changes [.tset k, .port x.val, .dict, .vtimes] s t
         ∧ (w.used = [] → Changes [.tset k, .port x.val] s t)) ∧
     (w.begun = 0 → exec (.readComplete x set) s = .next s)) ∧
  (∀ (s : State) (x : Port) (set : SetId) (c : CkCfg) (reg j : Nat),
     let k := setKey x set
     let w := s.tset k
     let lo := w.reg 2
     let m := bytesOf 16 (checkRecord (ckFinal c reg) (ceilDiv (w.reg 3 * 64) 4096) (bits (w.reg 1) 56 53))
     let f := bytesOf 16 (checkRecord (ckFinal c reg) (w.reg 3) (bits (w.reg 1) 56 53))
     let lost := fun (i : Nat) => s.media.segmentLost w.nsNo (256 * (lo + i))
     (s.ready k 0x15 = true → (∀ i, i < w.reg 3 → lost i = false) →
       ∃ t, exec (.mapSegments x set) s = .next t
         ∧ t.tset k = { w with
             begun := 1, count := w.reg 3, verdict := 0x0000, outLen := 1296 * w.reg 3, used := (t.tset k).used
             output := memOf ((List.range (w.reg 3)).flatMap (fun i => s.segmentRecord w.nsNo (lo + i) w.stamp.toNat)) }
         ∧ ((∀ i, i < w.reg 3 → (w.nsNo * 2 ^ 29 + lo + i) ∈ s.media.cache) →
             t.media = { s.media with seen := t.media.seen } ∧ t.obj 0x4010 2 = (s.obj 0x4010 2 + w.reg 3) % 2 ^ 64)
         ∧ Changes [.tset k, .dict, .media, .vtimes, .free] s t) ∧
     (s.ready k 0x15 = true → (∀ i, i < j → lost i = false) → j < w.reg 3 → lost j = true →
       ∃ t, exec (.mapSegments x set) s = .next t ∧ (t.tset k).begun = 1 ∧ (t.tset k).count = j ∧ (t.tset k).verdict = 0x0202
         ∧ (t.tset k).outLen = 1296 * j
         ∧ (t.tset k).output = memOf ((List.range j).flatMap (fun i => s.segmentRecord w.nsNo (lo + i) w.stamp.toNat))
         ∧ Changes [.tset k, .dict, .media, .vtimes, .errors, .observe, .free] s t) ∧
     (s.ready k 0x16 = true → s.ckFor w.partNo (bits (w.reg 1) 56 53) = some c → bitOf (w.reg 1) 59 = true →
       feedUnits c (bits (w.reg 1) 58 57) (bits (w.reg 1) 31 0) (fun i => lo + 4096 * i) (s.memUnit lo (w.reg 3 * 64))
         (ceilDiv (w.reg 3 * 64) 4096) 0 c.init = (reg, ceilDiv (w.reg 3 * 64) 4096, none) →
       ∃ t, exec (.checkCommand x set) s = .next t
         ∧ Posted s t x set 0x0000 (ceilDiv (w.reg 3 * 64) 4096) 0 ∧ (t.tset k).output = memOf m ∧ (t.tset k).outLen = 16
         ∧ Changes [.tset k, .port x.val, .dict, .vtimes, .guard, .free] s t) ∧
     (s.ready k 0x16 = true → s.ckFor w.partNo (bits (w.reg 1) 56 53) = some c → bitOf (w.reg 1) 59 = false →
       feedUnits c (bits (w.reg 1) 58 57) (bits (w.reg 1) 31 0) (fun i => w.nsNo * 2 ^ 42 + lo + i)
         (s.flashUnit w.stamp.toNat x.val w.nsNo lo) (w.reg 3) 0 c.init = (reg, w.reg 3, none) →
       ∃ t, exec (.checkCommand x set) s = .next t
         ∧ t.tset k = { w with
             begun := 1, count := w.reg 3, verdict := 0x0000, output := memOf f, outLen := 16, used := (t.tset k).used }
         ∧ Changes [.tset k, .dict, .media, .vtimes, .free] s t) ∧
     (s.ready k 0x16 = true → s.ckFor w.partNo (bits (w.reg 1) 56 53) = some c → bitOf (w.reg 1) 59 = true → s.SlotFree →
       feedUnits c (bits (w.reg 1) 58 57) (bits (w.reg 1) 31 0) (fun i => lo + 4096 * i) (s.memUnit lo (w.reg 3 * 64))
         (ceilDiv (w.reg 3 * 64) 4096) 0 c.init = (reg, j, some .unreadable) →
       ∃ t, exec (.checkCommand x set) s = .next t ∧ Posted s t x set 0x0202 j 0 ∧ (t.tset k).outLen = w.outLen
         ∧ Raised s t (fun r => r.cause = 0x0020 ∧ r.severity = 1 ∧ r.portValid = true ∧ r.port = x
             ∧ ∀ a, s.readTier (lo + 4096 * j) (min 4096 (w.reg 3 * 64 - 4096 * j)) = .error a → r.address = BitVec.ofNat 64 a)
         ∧ Changes [.tset k, .port x.val, .dict, .vtimes, .guard, .free, .errors, .observe] s t) ∧
     (∀ e, s.ready k 0x16 = true → s.ckFor w.partNo (bits (w.reg 1) 56 53) = some c → bitOf (w.reg 1) 59 = false →
       feedUnits c (bits (w.reg 1) 58 57) (bits (w.reg 1) 31 0) (fun i => w.nsNo * 2 ^ 42 + lo + i)
         (s.flashUnit w.stamp.toNat x.val w.nsNo lo) (w.reg 3) 0 c.init = (reg, j, some e) →
       ∃ t, exec (.checkCommand x set) s = .next t
         ∧ t.tset k = { w with
             begun := 1, count := j, verdict := if e = .unreadable then 0x0202 else 0x0501, used := (t.tset k).used }
         ∧ (e = .unreadable → s.SlotFree → Raised s t (fun r => r.severity = 1 ∧ r.portValid = true ∧ r.port = x
             ∧ (r.cause = 0x0025 ∨ r.cause = 0x0030 ∨ r.cause = 0x0042)))
         ∧ (e = .denied → Changes [.tset k, .dict, .media, .vtimes, .free] s t)
         ∧ Changes [.tset k, .dict, .media, .vtimes, .free, .errors, .observe] s t))

/-- WRITE opens, or ends at the next boundary where it is too large for an atomic write or lacks the values of a
protected namespace; each piece whose data has arrived enters the write buffer and waits for publication, and the last
completes the write at the next boundary. A piece of a protected namespace passes the check of its values first, or ends the write with
CHECK_MISMATCH and a record of cause CHECK_FAIL. While no open band has room, after a power-fail warning, with too few FREE blocks, or where the piece would take the
buffer or the dies at work beyond their limits, it waits (09 R243; 17 R419, R428, R430; the waits of a piece that has
arrived are the model's choice, logs 95, 119); in
read-only, and when no data comes, the write ends with that status (R382; 08
R212; 09 R240; 10 R272, R273). -/
def Obligations.WritesAreAccepted : Prop :=
  ∀ (s : State) (x : Port) (set : SetId),
    let k := setKey x set
    let w := s.tset k
    let n := min 64 (w.reg 3 - w.count)
    let lba := w.reg 2 + w.count
    let d := w.wdata.slice (w.count * 4096) (n * 4096)
    let vals := if s.isProtected w.nsNo then w.input.slice (w.count * 8) (n * 8) else []
    let good := s.isProtected w.nsNo = false ∨
      ∀ j, j < n → vals.num (8 * j) 8 = s.blockValue w.nsNo (lba + j) (d.slice (4096 * j) 4096)
    let within := ((s.request 4 (8 + x.val)).acceptPiece w.nsNo lba n d vals (some (8 + x.val))).withinLimits
    let Ends := fun (c : Instr) (status : Nat) =>
      ∃ t, exec c s = .next t ∧ t.tset k = { w with due := some status, count := w.count, dueStep := 0 }
        ∧ Changes [.tset k] s t
    (s.ready k 0x11 = true →
      (bitOf (w.reg 1) 63 = true → 64 < w.reg 3 → w.count = 0 → Ends (.write x set) 0x0203) ∧
      (¬ (bitOf (w.reg 1) 63 = true ∧ 64 < w.reg 3) →
        (s.isProtected w.nsNo = true → bitOf (w.reg 1) 62 = false → w.count = 0 → Ends (.write x set) 0x0501) ∧
        (s.isProtected w.nsNo = false ∨ bitOf (w.reg 1) 62 = true →
          ∃ t, exec (.write x set) s = .next t ∧ t.tset k = { w with begun := 1 } ∧ Changes [.tset k] s t))) ∧
    (s.runsCmd k 0x11 = true → w.begun = 1 → 0 < n → w.hasBlocks w.count n = true →
      (s.media.readOnly = true → Ends (.writePieceAccept x set) 0x0201) ∧
      (s.media.readOnly = false → s.noWrites = true ∨ s.media.hasRoom s.clock.now n = false ∨ within = false →
        exec (.writePieceAccept x set) s = .next s) ∧
      (s.media.readOnly = false → s.noWrites = false → s.media.hasRoom s.clock.now n = true → within = true → ¬ good → s.SlotFree →
        ∃ t, exec (.writePieceAccept x set) s = .next t
          ∧ t.tset k = { w with due := some stMismatch, count := w.count, dueStep := 0 }
          ∧ t.obj 0x6030 1 = (s.obj 0x6030 1 + 1) % 2 ^ 64
          ∧ Raised s t (fun r => r.cause = 0x0042 ∧ r.severity = 1 ∧ r.portValid = true ∧ r.port = x
              ∧ r.address = BitVec.ofNat 64 (w.nsNo * 2 ^ 42 + lba))
          ∧ Changes [.tset k, .dict, .vtimes, .errors, .observe, .free] s t) ∧
      (s.media.readOnly = false → s.noWrites = false → s.media.hasRoom s.clock.now n = true → within = true → good →
        ∃ t, exec (.writePieceAccept x set) s = .next t
          ∧ t.media.pending = s.media.pending ++ [⟨.write, w.nsNo, lba, n, d, vals, s.media.groups, (s.placePiece n).2, s.tick⟩]
          ∧ (∃ slot, (∀ q, q ∈ s.media.pieces → q.slot ≠ slot) ∧ t.media.pieces = s.media.pieces ++
              [⟨s.media.groups, w.nsNo, lba, n, ((s.placePiece n).2.map Prod.fst).eraseDups, false, [], slot,
                some (8 + x.val), unitDies (s.placePiece n).2⟩])
          ∧ s.media.groups < t.media.groups ∧ t.media.spaces = s.media.spaces
          ∧ (t.tset k).count = w.count + n
          ∧ (w.count + n = w.reg 3 → (t.tset k).due = some 0x0000 ∧ (t.tset k).dueStep = 0)
          ∧ (w.count + n ≠ w.reg 3 → (t.tset k).due = w.due)
          ∧ Changes [.tset k, .media, .dict, .vtimes, .free] s t)) ∧
    (s.runsCmd k 0x11 = true → s.withheld = false → w.hasBlocks w.count (w.reg 3 - w.count) = false →
      Ends (.dataTimeout x set) 0x0104) ∧
    (s.withheld = true → exec (.dataTimeout x set) s = .next s)

/-- DISCARD and SECURE_DISCARD are accepted for the next boundary and end there; a secure discard notes every copy of
its range, and overwrites with zeros what the write buffer holds of it unpublished; FLUSH waits; SANITIZE begins its
wait for the boundary, or is turned away while a partition is active, while a command names a namespace, or while
another runs (R383, R384; 08 R222, R223). -/
def Obligations.DiscardsFlushesSanitize : Prop :=
  ∀ (s : State) (x : Port) (set : SetId) (crypto : Bool),
    let k := setKey x set
    let w := s.tset k
    let c : Instr := if crypto then .sanitizeCryptoErase x set else .sanitizeBlockErase x set
    let ready := s.ready k 0x06 = true ∧ bits (w.reg 1) 63 62 = if crypto then 2 else 1
    let Ends := fun (status : Nat) =>
      ∃ t, exec c s = .next t ∧ t.tset k = { w with due := some status, count := 0, dueStep := 0 } ∧ Changes [.tset k] s t
    (s.ready k 0x12 = true →
      ∃ t, exec (.discard x set) s = .next t
        ∧ t.media.pending = s.media.pending ++ [⟨.discard, w.nsNo, w.reg 2, w.reg 3, [], [], 0, [], s.tick⟩]
        ∧ t.media.spaces = s.media.spaces ∧ t.media.pieces = s.media.pieces
        ∧ t.tset k = { w with begun := 1, due := some 0x0000, count := w.reg 3, dueStep := 0 }
        ∧ Changes [.tset k, .media, .dict, .vtimes, .free] s t) ∧
    (s.ready k 0x13 = true →
      ∃ t, exec (.secureDiscard x set) s = .next t
        ∧ t.media.pending = s.media.pending ++ [⟨.secure, w.nsNo, w.reg 2, w.reg 3, [], [], s.media.groups, [], s.tick⟩]
        ∧ (∀ u, u ∈ s.copiesOf w.nsNo (w.reg 2) (w.reg 3) →
            ∃ j, j ∈ t.media.secure ∧ j.ns = w.nsNo ∧ j.epoch = s.tick + 1 ∧ u ∈ j.units)
        ∧ t.media.spaces = s.media.spaces
        ∧ (∀ q, q ∈ s.media.pieces → q.ns = w.nsNo → q.published = false → ∃ q', q' ∈ t.media.pieces ∧ q'.group = q.group
            ∧ ∀ l, q.start ≤ l → l < q.start + q.blocks → w.reg 2 ≤ l → l < w.reg 2 + w.reg 3 → l ∈ q'.wiped)
        ∧ t.tset k = { w with begun := 1, due := some 0x0000, count := w.reg 3, dueStep := 0 }
        ∧ Changes [.tset k, .media, .dict, .vtimes, .free] s t) ∧
    (s.ready k 0x14 = true →
      ∃ t, exec (.flush x set) s = .next t ∧ t.tset k = { w with begun := 1 } ∧ Changes [.tset k] s t) ∧
    (ready → s.media.sanitize.isSome = true → Ends 0x0105) ∧
    (ready → s.media.sanitize = none → s.anyActive = true ∨ (∃ j, j < 256 ∧ (s.tset j).namesNs = true) → Ends 0x0501) ∧
    (ready → s.media.sanitize = none → s.anyActive = false → (∀ j, j < 256 → (s.tset j).namesNs = false) →
      ∃ t, exec c s = .next t ∧ t.tset k = { w with begun := 1 }
        ∧ t.media = { s.media with sanitize := some ⟨crypto, some k, false, []⟩, sanitized := 1 }
        ∧ Changes [.tset k, .media] s t)

/-! ## Contexts, loads, batch-step commands and searches (02, 03, 07, 11, 12, 15) -/

/-- CONTEXT commands wait for their boundary, which creates, releases or tears the context down; a create of a slot
that is not EMPTY, a release of a context that works, and a port outside the definition are ACCESS_DENIED (02 R61, R68,
R70; 15 R387). A teardown ends the context's commands, but for those whose batch steps have all reached their END,
which this boundary publishes (the model's reading, log 63). -/
def Obligations.ContextsComeAndGo : Prop :=
  ∀ (s : State) (x : Port) (set : SetId),
    let k := setKey x set
    let w := s.tset k
    let c := s.ctx w.partNo w.ctxNo
    let t := s.contextCommand k
    let Op := fun (i : Instr) (op : Nat) => s.ready k 0x20 = true → bits (w.reg 1) 63 62 = op →
      ∃ u, exec i s = .next u ∧ u.tset k = { w with begun := 1 } ∧ Changes [.tset k] s u
    Op (.contextCreate x set) 1 ∧ Op (.contextRelease x set) 2 ∧ Op (.contextTeardown x set) 3 ∧
    (s.partLists w.partNo x.val = false → Due t x set 0x0501 0 0 ∧ Changes [.tset k] s t) ∧
    (w.opcode = 0x20 → s.partLists w.partNo x.val = true →
      (bits (w.reg 1) 63 62 = 1 → c.life = .empty →
        t.ctx w.partNo w.ctxNo = { Context.none with life := .loaded, owner := x } ∧ Due t x set 0x0000 0 0
          ∧ Changes [.ctx (w.partNo * 16 + w.ctxNo), .tset k] s t) ∧
      (bits (w.reg 1) 63 62 = 1 → c.life ≠ .empty → Due t x set 0x0501 0 0 ∧ Changes [.tset k] s t) ∧
      (bits (w.reg 1) 63 62 = 2 → c.life = .faulted ∨ (c.life = .loaded ∧ s.ctxBusy w.partNo w.ctxNo = false) →
        t.ctx w.partNo w.ctxNo = c.gone ∧ Due t x set 0x0000 0 0) ∧
      (bits (w.reg 1) 63 62 = 2 → c.life = .empty ∨ (c.life = .loaded ∧ s.ctxBusy w.partNo w.ctxNo = true) →
        Due t x set 0x0501 0 0 ∧ Changes [.tset k] s t) ∧
      (bits (w.reg 1) 63 62 = 3 → c.life = .loaded →
        t.ctx w.partNo w.ctxNo = { c.gone with life := .faulted, owner := c.owner } ∧ Due t x set 0x0000 0 0
          ∧ bitOf (t.port c.owner.val).freezeDue.toNat w.partNo = true
          ∧ (∀ j, j < 256 → (s.tset j).life = .taken → opPartition (s.tset j).opcode = true → (s.tset j).opcode ≠ 0x20 →
              (s.tset j).partNo = w.partNo → (s.tset j).ctxNo = w.ctxNo → (s.tset j).due = none →
              ((s.tset j).runsSteps = true → (s.tset j).published + (s.tset j).held < (s.tset j).steps) →
              (t.tset j).due = some 0x0401)))

/-- STAGE_MODEL of an image reads it into the shadow, which is LOADING until its check; one whose shadow is RETIRING waits,
one that finds its shadow ARMED withdraws the arm from every shadow that the same write armed (03 R77); one that is gated away, or
whose image cannot be read, ends at once with its result in BANK_STATUS (03 R75; 15 R388; 17 R422). LOAD_CHECK ends a
load: a good image makes the shadow READY, a bad one makes it FAILED with the number of the check and of the step, and
its command ends with LOAD_FAILED; a distance table is written to its span, which may meet a block that refuses the write (03 R75; 07 R187;
11 R285; 15 R388). In a RUNNING partition the next batch step is then selected (02 R46). -/
def Obligations.LoadsRun : Prop :=
  (∀ (s : State) (x : Port) (set : SetId) (kind : Kind) (i : Instr) (n : Nat),
     (i, kind, n) ∈ [(Instr.stageModelTable x set, Kind.table, 0), (.stageModelScales x set, .scales, 1),
       (.stageModelSfTables x set, .sft, 2), (.stageModelDistance x set, .dist, 4)] →
     let k := setKey x set
     let w := s.tset k
     let p := w.partNo
     s.readyStage k n = true →
     let c := s.ctx p w.ctxNo
     let withdrawn := fun (q : Kind) => (c.banks kind).st = .armed ∧ (c.banks q).st = .armed ∧ (c.banks q).armGroup = (c.banks kind).armGroup
     let gated := (kind = .scales ∨ kind = .sft) ∧ meets (s.part p).defn.squares s.gated = true
     (((s.ctx p w.ctxNo).banks kind).st = .retiring → exec i s = .next s) ∧
     (((s.ctx p w.ctxNo).banks kind).st ≠ .retiring → ¬ gated → ∀ m, s.readTier (w.reg 2) (w.reg 3) = .ok m →
       ∃ t, exec i s = .next t ∧ t.tset k = { w with begun := 1 }
         ∧ t.stagings = s.stagings ++ [⟨k, p, w.ctxNo, kindNo kind, 0, 0, 0, none⟩]
         ∧ (t.ctx p w.ctxNo).banks kind = { (s.ctx p w.ctxNo).banks kind with
             shadow := ⟨true, m, w.reg 3, w.reg 4⟩, st := .loading }
         ∧ (∀ q, q ≠ kind → withdrawn q → (t.ctx p w.ctxNo).banks q = { c.banks q with st := .ready })
         ∧ (∀ q, q ≠ kind → ¬ withdrawn q → (t.ctx p w.ctxNo).banks q = c.banks q)
         ∧ Changes [.tset k, .stagings, .ctx (p * 16 + w.ctxNo), .guard, .free] s t) ∧
     (((s.ctx p w.ctxNo).banks kind).st ≠ .retiring → gated →
       ∃ t, exec i s = .next t ∧ Posted s t x set 0x0106 ldGated 0
         ∧ (t.ctx p w.ctxNo).loadResult = BitVec.ofNat 8 ldGated ∧ ((t.ctx p w.ctxNo).banks kind).st = .empty
         ∧ t.stagings = s.stagings ∧ Changes [.tset k, .port x.val, .ctx (p * 16 + w.ctxNo), .dict] s t) ∧
     (((s.ctx p w.ctxNo).banks kind).st ≠ .retiring → ¬ gated → ∀ a, s.readTier (w.reg 2) (w.reg 3) = .error a → s.SlotFree →
       ∃ t, exec i s = .next t ∧ Posted s t x set 0x0202 0 0
         ∧ (t.ctx p w.ctxNo).loadResult = BitVec.ofNat 8 ldUncorr ∧ ((t.ctx p w.ctxNo).banks kind).st = .failed
         ∧ Raised s t (fun r => r.cause = 0x0020 ∧ r.severity = 1 ∧ r.address = BitVec.ofNat 64 a)
         ∧ t.stagings = s.stagings
         ∧ Changes [.tset k, .port x.val, .ctx (p * 16 + w.ctxNo), .dict, .errors, .observe, .free] s t)) ∧
  (∀ (s : State) (x : Port) (set : SetId) (d : Nat) (g : Staging),
     let k := setKey x set
     (∀ h, h ∈ s.stagings → h.key = k → h = g) → g ∈ s.stagings → g.key = k → g.kind = 0 ∨ g.kind = 1 ∨ g.kind = 2 ∨ g.kind = 3 →
     (s.tset k).opcode = 0x21 → (s.tset k).partNo = g.part → (s.tset k).ctxNo = g.ctx →
     let kind := kindOfNo g.kind
     let b := ((s.ctx g.part g.ctx).banks kind).shadow
     let wrote := s.writeTier b.addr (b.len - 64) (b.data.slice 64 (b.len - 64))
     let Then := fun (t : State) => exec (.loadCheck x set d) s = .next (t.selectNext g.part (s.clock.boundaryAt + d))
       ∧ ((s.part g.part).life ≠ .running → t.selectNext g.part (s.clock.boundaryAt + d) = t)
     (s.checkLoad g.part g.ctx kind b = none → (g.kind = 3 → ∃ v, wrote = .ok v) →
       ∃ t, Then t ∧ Posted s t x set 0x0000 0 0
         ∧ (t.ctx g.part g.ctx).banks kind = { (s.ctx g.part g.ctx).banks kind with shadow := checkedBank kind b, st := .ready }
         ∧ (t.ctx g.part g.ctx).loadResult = 0 ∧ g ∉ t.stagings
         ∧ (g.kind ≠ 3 → t.fabric.mem = s.fabric.mem) ∧ (g.kind = 0 ∨ g.kind = 2 → t.fabric = s.fabric)
         ∧ (g.kind = 3 → ∀ v, wrote = .ok v → t.fabric = v.fabric)
         ∧ Changes [.tset k, .port x.val, .ctx (g.part * 16 + g.ctx), .stagings, .dict, .fabric, .tiers, .dies] s t) ∧
     (s.checkLoad g.part g.ctx kind b = none → g.kind = 3 → s.SlotFree → ∀ a, wrote = .error a →
       ∃ t, Then t ∧ Posted s t x set 0x0202 0 0
         ∧ (t.ctx g.part g.ctx).banks kind = { (s.ctx g.part g.ctx).banks kind with shadow := Bank.none, st := .failed }
         ∧ (t.ctx g.part g.ctx).loadResult = BitVec.ofNat 8 ldUncorr ∧ g ∉ t.stagings
         ∧ Raised s t (fun r => r.cause = 0x0020 ∧ r.severity = 1 ∧ r.address = BitVec.ofNat 64 a)
         ∧ Changes [.tset k, .port x.val, .ctx (g.part * 16 + g.ctx), .stagings, .dict, .errors, .observe, .free] s t) ∧
     (∀ c i, s.checkLoad g.part g.ctx kind b = some (c, i) →
       ∃ t, Then t ∧ Posted s t x set 0x0106 c i
         ∧ (t.ctx g.part g.ctx).banks kind = { (s.ctx g.part g.ctx).banks kind with shadow := Bank.none, st := .failed }
         ∧ (t.ctx g.part g.ctx).loadResult = BitVec.ofNat 8 c ∧ (t.ctx g.part g.ctx).failStep = BitVec.ofNat 12 i
         ∧ g ∉ t.stagings ∧ Changes [.tset k, .port x.val, .ctx (g.part * 16 + g.ctx), .stagings, .dict] s t))

/-- A far staging is entered in the ledger as WRITING and copies its bytes, unless its destination is in use; its end
makes the entry VALID, or INCOMPLETE with the status of what stopped it (07 R175, R176, R178; 15 R388). Both commands
complete: with a destination that no table, no index and no other staging uses, room in the ledger and a source that can
be read, STAGE_MODEL copies every byte of it and leaves every other byte of the tiers, and STAGING_COMPLETE of a staging
that nothing stopped posts OK. -/
def Obligations.FarStagingsRun : Prop :=
  (∀ (s : State) (x : Port) (set : SetId) (m : Mem),
    let k := setKey x set
    let w := s.tset k
    let lo := w.reg 4
    let n := w.reg 3
    (s.readyStage k 3 = true → s.guard.farOff = false → s.farNamed lo n = false → s.codesNamed lo n = false →
      (∀ e, e ∈ s.ledger → bits e 63 62 ≠ 1) → (openLedger s.ledger w.partNo ((lo - farFirst) / mib) (n / mib)).isSome = true →
      s.stageSource k = (m, n, none) → lo % 64 = 0 → n % 64 = 0 → farFirst ≤ lo → lo + n ≤ scratchFirst →
      ∃ t, exec (.stageModelFar x set) s = .next t ∧ t.tset k = { w with begun := 1 }
        ∧ (∀ a, t.fabric.mem.read a = if lo ≤ a ∧ a < lo + n then m.read (a - lo) else s.fabric.mem.read a)
        ∧ (∃ i slots, bits (t.obj 0x3060 (i + 1)) 63 62 = 1
            ∧ t.stagings = s.stagings ++ [⟨k, w.partNo, w.ctxNo, 5, i, n, slots, none⟩])
        ∧ Changes [.tset k, .stagings, .fabric, .tiers, .dict, .vtimes, .media, .guard, .free] s t) ∧
    ((∃ g, g ∈ s.stagings ∧ g.key = k) → w.opcode = 0x21 →
      (∀ g, g ∈ s.stagings → g.key = k → g.kind = 5 ∧ g.stop = none ∧ g.entry < 64) →
      ∃ t g, exec (.stagingComplete x set) s = .next t ∧ g ∈ s.stagings ∧ g.key = k
        ∧ Posted s t x set 0x0000 (g.moved / mib) 0 ∧ bits (t.obj 0x3060 (g.entry + 1)) 63 62 = 2
        ∧ t.stagings = s.stagings.filter (fun h => decide (h.key ≠ k)))) ∧
  ∀ (s : State) (x : Port) (set : SetId) (g : Staging),
    let k := setKey x set
    let w := s.tset k
    let lo := w.reg 4
    let n := w.reg 3
    let busy := s.guard.farOff = true ∨ s.farNamed lo n = true ∨ s.codesNamed lo n = true
      ∨ (∃ e, e ∈ s.ledger ∧ (ledgerFields e).1 = 1 ∧ overlaps lo n (ledgerBase e) (ledgerBytes e) = true)
    (s.readyStage k 3 = true → busy →
      ∃ t, exec (.stageModelFar x set) s = .next t ∧ Posted s t x set 0x0501 0 0
        ∧ Changes [.tset k, .port x.val, .ctx (w.partNo * 16 + w.ctxNo)] s t) ∧
    (s.readyStage k 3 = true → ¬ busy → ∀ l i, openLedger s.ledger w.partNo ((lo - farFirst) / mib) (n / mib) = some (l, i) →
      ∃ t, exec (.stageModelFar x set) s = .next t ∧ (t.tset k).begun = 1
        ∧ bits (t.obj 0x3060 (i + 1)) 63 62 = 1 ∧ (∃ moved slots st, t.stagings = s.stagings ++ [⟨k, w.partNo, w.ctxNo, 5, i, moved, slots, st⟩])
        ∧ Changes [.tset k, .stagings, .fabric, .tiers, .dict, .vtimes, .media, .guard, .free] s t) ∧
    ((∀ h, h ∈ s.stagings → h.key = k → h = g) → g ∈ s.stagings → g.key = k → g.kind = 5 → g.entry < 64 → w.opcode = 0x21 →
      (g.stop = none →
        ∃ t, exec (.stagingComplete x set) s = .next t ∧ Posted s t x set 0x0000 (g.moved / mib) 0
          ∧ bits (t.obj 0x3060 (g.entry + 1)) 63 62 = 2 ∧ g ∉ t.stagings
          ∧ Changes [.tset k, .port x.val, .stagings, .dict, .vtimes, .ctx (w.partNo * 16 + w.ctxNo)] s t) ∧
      (∀ c a, g.stop = some (c, a) →
        ∃ t, exec (.stagingComplete x set) s = .next t ∧ Posted s t x set c (g.moved / mib) 0
          ∧ bits (t.obj 0x3060 (g.entry + 1)) 63 62 = 3 ∧ g ∉ t.stagings
          ∧ (c ≠ 0x0202 → Changes [.tset k, .port x.val, .stagings, .dict, .vtimes, .ctx (w.partNo * 16 + w.ctxNo)] s t)
          ∧ Changes [.tset k, .port x.val, .stagings, .dict, .vtimes, .ctx (w.partNo * 16 + w.ctxNo), .errors, .observe, .free] s t))

/-- SCAN, EMBED, INFER_STEP and REFIT_STEP enter their context's queue, and their output is the result span as it
stands; the sequencer does the rest (15 R389, R390; 10 R262; 12 R304). SEARCH: a query's headers are copied into the
state records and it enters its context's queue; an index is attached unless there is one or it is not good, is dropped
at the boundary after a detach, and takes updates (11 R276, R277, R281, R286, R295; 15 R391). -/
def Obligations.SearchCommandsAct : Prop :=
  (∀ (s : State) (x : Port) (set : SetId) (i : Instr) (o : Nat),
     (i, o) ∈ [(Instr.scanCommand x set, 0x30), (.embed x set, 0x31), (.inferStep x set, 0x32), (.refitStep x set, 0x33)] →
     let k := setKey x set
     let w := s.tset k
     let c := s.ctx w.partNo w.ctxNo
     s.ready k o = true → k ∉ c.queue →
     ∃ t, exec i s = .next t
       ∧ t.ctx w.partNo w.ctxNo = { c with queue := c.queue ++ [k] }
       ∧ t.tset k = { w with output := (s.resultSpan k).1, outLen := (s.resultSpan k).2.1 }
       ∧ (o ≠ 0x30 → Changes [.ctx (w.partNo * 16 + w.ctxNo), .tset k] s t)
       ∧ (o = 0x30 → t.media.spaces = s.media.spaces ∧ Changes [.ctx (w.partNo * 16 + w.ctxNo), .tset k, .dict, .vtimes, .media, .free] s t)) ∧
  (∀ (s : State) (x : Port) (set : SetId),
     let k := setKey x set
     let w := s.tset k
     let p := w.partNo
     let n := w.ctxNo
     let c := s.ctx p n
     let desc := w.input.readBytes 0 128
     let d := descriptor (numOf desc)
     let rd := fun lba => (s.readBlock w.stamp.toNat x.val d.ns lba).content
     let Ends := fun (i : Instr) (status : Nat) =>
       ∃ t, exec i s = .next t ∧ t.tset k = { w with due := some status, count := 0, dueStep := 0 } ∧ Changes [.tset k] s t
     (s.readySearch k 3 = true → k ∉ c.queue → ∀ u, s.copyHeaders w (bits (w.reg 1) 60 53 + 1) 0 = .ok u →
       ∃ t, exec (.searchQuery x set) s = .next t ∧ t.fabric = u.fabric
         ∧ t.ctx p n = { c with queue := c.queue ++ [k] }
         ∧ Changes [.ctx (p * 16 + n), .tset k, .fabric, .tiers, .free] s t) ∧
     (s.readySearch k 1 = true → c.index.isSome = true ∨ s.attachDenied x.val p d = true → Ends (.searchAttach x set) 0x0501) ∧
     (s.readySearch k 1 = true → c.index = none → s.attachDenied x.val p d = false →
       ∀ v free l, ((IndexWork.mk s d rd [] d.tombA []).attach (w.reg 2) w.input).from0 = (.ok (v, free), l) →
       ∃ t, exec (.searchAttach x set) s = .next t ∧ Due t x set 0x0000 0 0 ∧ t.fabric = v.s.fabric
         ∧ (t.ctx p n).index = some ⟨w.reg 2, desc, [], false, 0, []⟩
         ∧ (t.ctx p n).tomb.active.addr = d.tombA ∧ (t.ctx p n).tomb.shadow.addr = d.tombB ∧ (t.ctx p n).tomb.st = .ready
         ∧ Changes [.ctx (p * 16 + n), .tset k, .fabric, .tiers, .dict, .media, .vtimes, .free] s t) ∧
     (s.readySearch k 2 = true →
       (s.ctxBusy p n = true → Ends (.searchDetach x set) 0x0501) ∧
       (s.ctxBusy p n = false →
         ∃ t, exec (.searchDetach x set) s = .next t ∧ t.tset k = { w with begun := 1 } ∧ Changes [.tset k] s t)) ∧
     (s.readySearch k 4 = true →
       (s.media.readOnly = true → Ends (.searchUpdate x set) 0x0201) ∧
       (s.media.readOnly = false → c.index = none → Ends (.searchUpdate x set) 0x0501) ∧
       (s.media.readOnly = false → c.index.isSome = true →
         ∃ t, exec (.searchUpdate x set) s = .next t ∧ t.tset k = { w with begun := 1 } ∧ Changes [.tset k] s t)))

/-- UPDATE_ACCEPT applies the records of an update to the shadow image once that is READY, and arms it, while its writes may
be accepted, and waits otherwise; at the entry to read-only a waiting update ends with READ_ONLY and applies nothing;
TOMBSTONE_REPLAY brings the old image up to date once no search uses it; a repair pass publishes its blocks (11 R293 to
R297). -/
def Obligations.IndexUpdatesApply : Prop :=
  ∀ (s : State) (x : Port) (set : SetId) (p : Part) (n : Ctx) (ix : Index),
    let k := setKey x set
    let w := s.tset k
    let c := s.ctx p.val n.val
    let d := descriptor (numOf ix.desc)
    c.index = some ix →
    (w.partNo = p.val → w.ctxNo = n.val → s.runsCmd k 0x34 = true → w.searches 4 = true → w.begun = 1 →
      c.tomb.st = .ready ∨ c.tomb.st = .armed → s.updateAhead w = false →
      (s.media.readOnly = true →
        ∃ t, exec (.updateAccept x set) s = .next t ∧ t.tset k = { w with due := some 0x0201, count := 0, dueStep := 0 }
          ∧ Changes [.tset k] s t) ∧
      (s.media.readOnly = false →
       ∀ v out l, ((s.indexWork d c.tomb.shadow.addr).apply (bits (w.reg 1) 31 0) (w.reg 2)).from0 = (.ok (v, out), l) →
       let waits := s.mustWait (((v.s.chargeIndex p.val d.ns s.tick l).request 4 p.val).acceptBlocks (some p.val) d.ns v.blocks) v.blocks.length
       (waits = true → exec (.updateAccept x set) s = .next s) ∧
       (waits = false →
        ∃ t, exec (.updateAccept x set) s = .next t ∧ Due t x set 0x0000 (bits (w.reg 1) 31 0) 0
          ∧ (t.tset k).output = memOf out ∧ (t.tset k).outLen = out.length ∧ t.fabric = v.s.fabric
          ∧ (t.ctx p.val n.val).tomb.st = .armed
          ∧ (∃ j, (t.ctx p.val n.val).index = some j ∧ j.touched = true ∧ ∀ i, i ∈ v.slots → i ∈ j.log)
          ∧ (∀ b, v.blocks.has b = true → ∃ e, e ∈ t.media.pending ∧ e.kind = .write ∧ e.ns = d.ns ∧ e.start = b ∧ e.len = 1
              ∧ e.data = v.blocks.get [] b)
          ∧ Changes [.ctx (p.val * 16 + n.val), .tset k, .fabric, .tiers, .dict, .media, .vtimes, .arms, .free] s t))) ∧
    (c.tomb.st ≠ .ready → c.tomb.st ≠ .armed → w.partNo = p.val → w.ctxNo = n.val →
      exec (.updateAccept x set) s = .next s) ∧
    (c.tomb.st = .retiring → s.oldImageUsed p.val n.val ix.swapped = false →
      ∀ v, ((s.indexWork d c.tomb.shadow.addr).replay c.tomb.active.addr ix.log).from0.1 = .ok v →
      ∃ t, exec (.tombstoneReplay p n) s = .next t ∧ t.fabric = v.s.fabric
        ∧ t.ctx p.val n.val = { c with tomb := { c.tomb with st := .ready }, index := some { ix with log := [] } }
        ∧ Changes [.ctx (p.val * 16 + n.val), .fabric, .tiers] s t) ∧
    (c.tomb.st ≠ .retiring ∨ s.oldImageUsed p.val n.val ix.swapped = true →
      exec (.tombstoneReplay p n) s = .next s) ∧
    (s.relocates = true → ∀ v2 l, (s.indexWork d 0).pass.from0 = (.ok v2, l) →
      s.mustWait ((s.indexReads d.ns s.tick l).1.acceptBlocks none d.ns v2.blocks) v2.blocks.length = false →
      ∃ t, exec (.graphRepairPass p n) s = .next t
        ∧ t.obj (0x6088 + p.val) (n.val + 1) = (s.obj (0x6088 + p.val) (n.val + 1) + 1) % 2 ^ objBits (0x6088 + p.val) (n.val + 1)
        ∧ (∀ b, v2.blocks.has b = true → ∃ e, e ∈ t.media.pending ∧ e.kind = .write ∧ e.ns = d.ns ∧ e.start = b ∧ e.len = 1
            ∧ e.data = v2.blocks.get [] b)
        ∧ Changes [.ctx (p.val * 16 + n.val), .dict, .media, .free] s t) ∧
    (s.relocates = false → exec (.graphRepairPass p n) s = .next s)

/-! ## The media (01, 08, 09) -/

/-- A piece that has programmed leaves the write buffer and its programs are charged. Each of its blocks is drained: copy A goes
to flash where it passes the drain check, else copy B where that does, and a block of which both fail becomes
UNREADABLE at the next boundary, is counted in DRAIN_MISMATCH and recorded (08 R212; 10 R274; 16 R404). A block that fails to program leaves its place in its band to the
die's next FREE block, one spare is spent, and its units are copied again or rebuilt, but for one whose row has lost two
pages, which becomes UNREADABLE. A failed die's blocks are RETIRED;
what only they held is lost (08 R212; 09 R235, R237, R238). The map's write-back and checkpoint; a holder is ended with
SNAPSHOT_EXPIRED, its outputs dropped, when free space needs it or a secure discard waits on it beyond the hold limit
(01 R38; 08 R205, R223; 09 R244). -/
def Obligations.MediaIsKept : Prop :=
  (∀ (s : State) (group block channel die : Nat) (b : Band) (i : Nat),
     let d := channel * 16 + die
     (∃ t, exec (.pieceProgramDone group) s = .next t
       ∧ t.media.pieces = s.media.pieces.filter (fun p => decide (p.group ≠ group))
       ∧ t.media.spaces = (s.drained group).media.spaces ∧ t.media.pending = (s.drained group).media.pending
       ∧ ((∀ p, p ∈ s.media.pieces → p.group = group → s.drainsWell p = true) → t.media.spaces = s.media.spaces
           ∧ t.media.pending = s.media.pending ∧ Changes [.media, .dict, .vtimes] s t
           ∧ ((∀ p, p ∈ s.media.pieces → p.group = group → p.payer = none) → t.dict = s.dict ∧ t.vtimes = s.vtimes))
       ∧ Changes [.media, .dict, .vtimes, .errors, .observe, .free] s t) ∧
     (∀ p l d value u, s.pieceData p l = some (d, value, u) →
       let a := s.media.copyData false p l d
       let b := s.media.copyData true p l d
       let Drains := fun (x : Mem) => (x = d → s.drainBlock p l = s) ∧
         (x ≠ d → s.drainBlock p l = s.setDrained p l x
           ∧ (p.published = true → ∀ v, v ∈ ((s.drainBlock p l).space p.ns).blocks.get [] l → v.group = p.group → v.st = .mapped → v.data = x))
       (s.checkFails p.ns l value a = false → Drains a) ∧
       (s.checkFails p.ns l value a = true → s.checkFails p.ns l value b = false → Drains b) ∧
       (s.checkFails p.ns l value a = true → s.checkFails p.ns l value b = true →
         ∃ c, (s.drainBlock p l).media.pending = s.media.pending ++ [c] ∧ c.kind = .lose ∧ c.ns = p.ns ∧ c.start = l ∧ c.len = 1
           ∧ (s.drainBlock p l).obj 0x6030 2 = (s.obj 0x6030 2 + 1) % 2 ^ objBits 0x6030 2
           ∧ (s.drainBlock p l).media.spaces = s.media.spaces
           ∧ (s.SlotFree → Raised s (s.drainBlock p l) (fun r => r.cause = 0x0042 ∧ r.severity = 1 ∧ r.status = 0x0204)))) ∧
     (s.media.bands.find? (fun b => s.media.programming b && (b.dieOf block).isSome) = some b → b.dieOf block = some i →
       ∃ t, exec (.programFailure block) s = .next t ∧ t.obj 0x4060 4 = (s.obj 0x4060 4 - 1) % 2 ^ objBits 0x4060 4
         ∧ (∃ x, x ∈ t.media.bands ∧ x.number = b.number ∧ block ∈ x.failed
             ∧ x.blks = b.blks.set i (s.media.freeOn (block / 4096)))
         ∧ (∀ u, u ∈ s.currentIn (fun n => decide (n = block)) → u.2.2.source = none → s.media.rowLost u.2.2 = true →
             ∃ m, m ∈ t.media.moves ∧ m.src = u.2.2.unit ∧ m.lost = true)
         ∧ (s.media.moves = [] → s.guard.nearOff = false → (∀ u, u ∈ s.currentIn (fun n => decide (n = block)) →
               s.checkFails u.1 u.2.1 u.2.2.value (s.media.heldData u.1 u.2.1 u.2.2) = false ∧ (u.2.2.source ≠ none ∨ s.media.rowLost u.2.2 = false)) →
             ∀ u, u ∈ s.currentIn (fun n => decide (n = block)) → ∃ m, m ∈ t.media.moves ∧ m.src = u.2.2.unit ∧ m.lost = false)
         ∧ (∀ k lba, (t.space k).head lba = (s.space k).head lba) ∧ Changes [.media, .dict, .errors, .observe, .free] s t) ∧
     (d < 2048 → d ∉ s.media.deadDies →
       ∃ t, exec (.dieFailure channel die) s = .next t ∧ t.media.deadDies = s.media.deadDies ++ [d]
         ∧ (∀ k, k < 4096 → d * 4096 + k ∈ t.media.retired)
         ∧ (∀ u, u ∈ s.currentIn (fun k => decide (k / 4096 = d)) →
             (∀ x, x ∈ s.media.bands → x.life = .opened ∨ x.life = .closed → unitBlock u.2.2.unit ∉ x.blocks) →
             ∃ m, m ∈ t.media.moves ∧ m.src = u.2.2.unit ∧ m.lost = true)
         ∧ Changes [.media, .dict, .errors, .observe, .free] s t) ∧
     (2048 ≤ d ∨ d ∈ s.media.deadDies → exec (.dieFailure channel die) s = .next s)) ∧
  (∀ (s : State) (ns : NsId) (region k : Nat) (x : Port) (set : SetId),
     let key := setKey x set
     let w := s.tset key
     let Expires := fun (c : Instr) (k : Nat) (l : List Place) =>
       ∃ t, exec c s = .next t
         ∧ t.tset k = { s.tset k with
             held := 0, used := [], due := some 0x0302, dueStep := 0
             count := if (s.tset k).runsSteps then (s.tset k).published else (s.tset k).count
             output := if (s.tset k).runsSteps then (s.tset k).output else []
             outLen := if (s.tset k).runsSteps then (s.tset k).outLen else 0 }
         ∧ t.obj 0x4020 5 = (s.obj 0x4020 5 + 1) % 2 ^ objBits 0x4020 5
         ∧ (∀ g, g ∈ t.stagings → ¬ (g.key = k ∧ g.kind = 5))
         ∧ ((∀ g, g ∈ s.stagings → ¬ (g.key = k ∧ g.kind = 5)) → (s.tset k).used = [] → OnlyObjs [(0x4020, 5)] s t ∧ Changes (.tset k :: .dict :: l) s t)
         ∧ Changes (.tset k :: .dict :: .fabric :: .stagings :: .vtimes :: .free :: l) s t
     (s.maintains = true →
       (∃ t, exec (.segmentWriteback ns region) s = .next t
         ∧ (∀ r, r ∈ t.media.dirty ↔ r ∈ s.media.dirty ∧ r ≠ ns.val * 2 ^ 29 + region) ∧ t.media.spaces = s.media.spaces
         ∧ (ns.val * 2 ^ 29 + region ∈ s.media.dirty → t.media.upper.has (ns.val * 2 ^ 29 + region) = true)
         ∧ Changes [.media] s t) ∧
       (∃ t, exec .mapCheckpoint s = .next t ∧ t.media.ckptEpoch = s.tick ∧ t.media.spaces = s.media.spaces
         ∧ t.media.upper = s.media.upper ∧ t.media.dirty = s.media.dirty ∧ Changes [.media] s t)) ∧
     (s.maintains = false → exec (.segmentWriteback ns region) s = .next s ∧ exec .mapCheckpoint s = .next s) ∧
     (s.media.presses (s.obj 0x4060 0x0B) = true → (∀ e, s.media.lastExpiry = some e → e + s.gov 0x4060 0x0C ≤ s.tick + 1) →
       s.firstHolder = some k → Expires .snapshotExpiry k [.media]) ∧
     (s.media.presses (s.obj 0x4060 0x0B) = false → exec .snapshotExpiry s = .next s) ∧
     (w.holds = true → w.due = none → w.stamp.toNat + s.gov 0x4020 1 ≤ s.tick →
       (∃ j n lba v, j ∈ s.media.secure ∧ w.stamp.toNat < j.epoch ∧ s.holdsSpace key j.ns = true
         ∧ (j.ns, n) ∈ s.media.spaces ∧ lba ∈ n.blocks ∧ v ∈ lba.2 ∧ v.unit ∈ j.units ∧ v.epoch ≤ w.stamp.toNat) →
       Expires (.holdLimitExpiry x set) key []) ∧
     (s.tick < w.stamp.toNat + s.gov 0x4020 1 → exec (.holdLimitExpiry x set) s = .next s))

/-- The erase of a pending block is issued once the segments that named it are written back, and is counted; a good
erase makes the block FREE, with no copy left in it, a failed one makes it RETIRED; no copy is made from a block whose erase is
issued (R238), and no more dies erase than the power state lets (17 R419); a hold of an erase that was suspended
is counted once. Maintenance
does not start before READY, in P4, during a sanitize or a test hold (09 R230 to R235, R248). -/
def Obligations.ErasesRun : Prop :=
  ∀ (s : State) (block : Nat),
    let at' := fun (e : Erasing) => e.block = block
    let bare := fun (v : Ver) => { v with source := none }
    (s.media.sanitize = none → s.maintains = true → (∃ e, e ∈ s.media.erasing ∧ at' e ∧ e.issued = false) →
      s.mayErase block = true → s.dieFree block = true →
      ∃ t, exec (.eraseIssue block) s = .next t
        ∧ (∀ e, e ∈ t.media.erasing → at' e → e.issued = true)
        ∧ t.media.pe.get 0 block = s.media.pe.get 0 block + 1
        ∧ (∀ k lba, ((t.space k).blocks.get [] lba).map bare = ((s.space k).blocks.get [] lba).map bare)
        ∧ (∀ k lba v u, v ∈ (t.space k).blocks.get [] lba → v.source = some u → unitBlock u ≠ block)
        ∧ Changes [.media, .dict, .errors, .observe, .free] s t) ∧
    (s.media.sanitize = none → s.maintains = false ∨ s.mayErase block = false ∨ s.dieFree block = false →
      exec (.eraseIssue block) s = .next s) ∧
    (s.media.sanitize = none → (∃ e, e ∈ s.media.erasing ∧ at' e ∧ e.issued = true) →
      (∃ t, exec (.eraseComplete block true) s = .next t ∧ (∀ e, e ∈ t.media.erasing → ¬ at' e)
        ∧ t.media.reads.get 0 block = 0
        ∧ (∀ j u, j ∈ t.media.secure → u ∈ j.units → unitBlock u ≠ block)
        ∧ Changes [.media] s t) ∧
      (block ∉ s.media.retired →
        ∃ t, exec (.eraseComplete block false) s = .next t ∧ (∀ e, e ∈ t.media.erasing → ¬ at' e)
          ∧ block ∈ t.media.retired ∧ t.obj 0x4060 4 = (s.obj 0x4060 4 - 1) % 2 ^ objBits 0x4060 4
          ∧ Changes [.media, .dict, .errors, .observe, .free] s t)) ∧
    ((∀ e, e ∈ s.media.erasing → at' e → e.issued = false) → ∀ g, exec (.eraseComplete block g) s = .next s) ∧
    ((∃ e, e ∈ s.media.erasing ∧ at' e ∧ e.issued = true ∧ e.suspended = true ∧ e.held = false) →
      ∃ t, exec (.eraseHold block) s = .next t ∧ (∀ e, e ∈ t.media.erasing → at' e → e.held = true)
        ∧ t.obj 0x4060 0x0E = (s.obj 0x4060 0x0E + 1) % 2 ^ objBits 0x4060 0x0E ∧ OnlyObjs [(0x4060, 0x0E)] s t
        ∧ Changes [.media, .dict] s t) ∧
    ((∀ e, e ∈ s.media.erasing → at' e → e.held = true ∨ e.suspended = false) → exec (.eraseHold block) s = .next s)

/-- R231 (09): the program/erase count of a block advances by one when an erase of it is issued, whether or not that
erase completes; an erase that a reset cuts is pending again afterwards with its count kept, so that it counts twice;
PCT_USED is 100 times the sum of the counts over N times 1,500, rounded down, over the N blocks that are not RETIRED,
and saturates at 255. -/
def Obligations.EraseCountsAdvance : Prop :=
  ∀ (s : State) (block : Nat) (good : Bool) (source : Nat),
    let issued := fun (t : State) => ∃ e, e ∈ t.media.erasing ∧ e.block = block ∧ e.issued = true
    let pending := fun (t : State) => ∃ e, e ∈ t.media.erasing ∧ e.block = block ∧ e.issued = false
    (s.media.sanitize = none → s.maintains = true → pending s → s.mayErase block = true → s.dieFree block = true →
      ∃ t, exec (.eraseIssue block) s = .next t ∧ issued t
        ∧ ∀ k, t.media.pe.get 0 k = s.media.pe.get 0 k + if k = block then 1 else 0) ∧
    (∃ t, exec (.eraseIssue block) s = .next t ∧ (t = s ∨ (issued t
        ∧ ∀ k, t.media.pe.get 0 k = s.media.pe.get 0 k + if k = block then 1 else 0))) ∧
    (∃ t, exec (.eraseComplete block good) s = .next t ∧ t.media.pe = s.media.pe ∧ t.media.peBase = s.media.peBase) ∧
    (issued s → (s.moduleReset source).media.pe = s.media.pe ∧ (s.moduleReset source).media.peBase = s.media.peBase
      ∧ pending (s.moduleReset source)) ∧
    s.valueOf 0x4060 1 = min 255 (100 * s.media.peSum / (s.media.peBlocks * 1500)) ∧
    s.media.peSum = ((s.media.pe.filter (fun e => decide (e.1 ∉ s.media.retired))).map Prod.snd).foldl (· + ·)
      (s.media.peBase * s.media.peBlocks)

/-- A relocation, whatever asks for it, claims its band, has every current unit of it copied whose data passes the check of its
trailer (10 R274), and has its blocks
emptied for erasure; garbage collection gives way to verification while 64 bands wait for it, a block is relocated for
its reads from RD_LIMIT on, and an aged band whose sample needed three further sets is refreshed; a verification makes
a CLOSED band VERIFIED, copies its weak units and gives up its parity block; a secure erase empties its block (08
R216, R223, R226; 09 R230, R245, R246). -/
def Obligations.BandsAreMaintained : Prop :=
  ∀ (s : State) (b : Band) (block band sets : Nat) (weak : List Nat), s.media.moves = [] →
    let good := fun (u : Nat × Nat × Ver) => s.checkFails u.1 u.2.1 u.2.2.value u.2.2.data = false
      ∧ s.checkFails u.1 u.2.1 u.2.2.value (s.media.heldData u.1 u.2.1 u.2.2) = false
    let Relocates := fun (c : Instr) => ∃ t, exec c s = .next t ∧ (∃ a, (b.number, a) ∈ t.media.claims)
      ∧ (∀ x, x ∈ t.media.bands → x.number = b.number → x.life = .victim)
      ∧ (∀ k, k ∈ b.blocks → ∃ e, e ∈ t.media.evac ∧ e.block = k)
      ∧ ((∀ u, u ∈ s.currentIn (fun k => decide (k ∈ b.blocks)) → good u) →
          ∀ u, u ∈ s.currentIn (fun k => decide (k ∈ b.blocks)) → ∃ m, m ∈ t.media.moves ∧ m.src = u.2.2.unit ∧ m.lost = false)
      ∧ t.media.spaces = s.media.spaces ∧ Changes [.media, .dict, .free] s t
    (s.relocates = true → s.media.verifyFirst = false → s.media.freeBlocks < 4 * s.freeFloor →
      leastBand (fun b => ((s.currentIn (fun k => decide (k ∈ b.blocks))).length, 1))
        (s.media.collectable.filter (fun b => !s.seen (fun k => decide (k ∈ b.blocks)))) = some b →
      Relocates .garbageCollection) ∧
    (s.relocates = true → s.gov 0x4080 3 ≤ s.media.reads.get 0 block →
      s.media.takable.find? (fun b => decide (block ∈ b.blocks)) = some b → Relocates (.readDisturbRelocation block)) ∧
    (s.media.reads.get 0 block < s.gov 0x4080 3 → exec (.readDisturbRelocation block) s = .next s) ∧
    (s.relocates = true → 3 ≤ sets → b.sampleDue s.clock.now = true → s.media.takable.find? (fun x => decide (x.number = band)) = some b →
      Relocates (.retentionRefresh band sets)) ∧
    (s.relocates = true → s.media.peSum + s.gov 0x4080 4 * s.media.peBlocks < s.media.peMax * s.media.peBlocks →
      leastBand (fun b => ((b.blocks.map (fun k => s.media.pe.get 0 k)).foldl (· + ·) 0, max 1 b.blocks.length))
        s.media.takable = some b →
      Relocates .wearLevelling) ∧
    (s.relocates = false → exec .garbageCollection s = .next s ∧ exec (.readDisturbRelocation block) s = .next s
      ∧ exec (.retentionRefresh band sets) s = .next s ∧ exec .wearLevelling s = .next s) ∧
    (s.media.band band = some b → b.life = .closed → s.maintains = true → s.media.drains b.number = false →
      ∃ t, exec (.bandVerify band weak) s = .next t
        ∧ (∀ x, x ∈ t.media.bands → x.number = band → band < s.media.bandNo → x.life = .verified)
        ∧ ((∀ u, u ∈ s.currentIn (fun k => decide (k ∈ b.blocks)) → good u) →
            ∀ u, u ∈ s.currentIn (fun k => decide (k ∈ b.blocks)) → u.2.2.unit.toNat ∈ weak →
              ∃ m, m ∈ t.media.moves ∧ m.src = u.2.2.unit ∧ m.lost = false)
        ∧ (∀ k, b.blockOf b.parity = some k → k ∉ b.failed → ∃ e, e ∈ t.media.erasing ∧ e.block = k)
        ∧ (∀ k, k ∈ b.failed → k ∈ t.media.retired)
        ∧ Changes [.media, .dict, .errors, .observe, .free] s t) ∧
    (s.maintains = true → s.media.readOnly = false →
      (∃ j u, j ∈ s.media.secure ∧ u ∈ j.units ∧ unitBlock u = block) →
      (∃ x, x ∈ s.media.bands ∧ (x.life = .verified ∨ x.life = .victim) ∧ block ∈ x.blocks) →
      s.seen (fun k => decide (k = block)) = false → s.media.skips block = false →
      ∃ t, exec (.secureErase block) s = .next t ∧ (∃ e, e ∈ t.media.evac ∧ e.block = block)
        ∧ ((∀ u, u ∈ s.currentIn (fun k => decide (k = block)) → good u) →
            ∀ u, u ∈ s.currentIn (fun k => decide (k = block)) → ∃ m, m ∈ t.media.moves ∧ m.src = u.2.2.unit ∧ m.lost = false)
        ∧ t.media.spaces = s.media.spaces ∧ Changes [.media, .dict, .free] s t)

/-! ## Memory integrity and errors (07, 16) -/

/-- Corrected events fill a bucket: the events of the inner code are counted per stack and enter the stack's bucket,
which raises CE_RATE and empties at BUCKET events; every LEAK_INTERVAL takes one event out of every bucket (07 R182,
R190, R191). A row that is due is copied to a spare row, at most one in a pseudo-channel and a tick and eight in all:
its count is dropped and a record is raised (07 R188). -/
def Obligations.EventsFillBuckets : Prop :=
  (∀ (s : State) (k : Nat) (counts : List (Nat × Nat)),
     let n := s.level k + 1
     (∃ t, exec .leakInterval s = .next t
       ∧ (∀ b, b < 25 → t.level b = (s.level b - 1) % 2 ^ objBits (bucketIdx b) 4)
       ∧ (∀ b, 25 ≤ b → b < 73 → t.level b = s.level b - 1)
       ∧ OnlyObjs ((List.range 25).map (fun b => (bucketIdx b, 4))) s t ∧ Changes [.dict, .guard] s t) ∧
     (s.power.trained = true → ∃ t, exec (.innerCodePoll counts) s = .next t
       ∧ t.guard = s.guard ∧ Changes [.dict, .errors, .observe, .free] s t) ∧
     (s.power.trained = true → k < 24 → ∃ t, exec (.innerCodePoll [(k, 1)]) s = .next t
       ∧ t.obj (bucketIdx k) 2 = (s.obj (bucketIdx k) 2 + 1) % 2 ^ 64
       ∧ (n ≠ s.gov 0x3040 2 → t.level k = n % 2 ^ objBits (bucketIdx k) 4
           ∧ OnlyObjs [(bucketIdx k, 2), (bucketIdx k, 4)] s t ∧ Changes [.dict] s t)
       ∧ (n = s.gov 0x3040 2 → s.SlotFree → t.level k = 0
           ∧ t.obj (bucketIdx k) 5 = (s.obj (bucketIdx k) 5 + 1) % 2 ^ objBits (bucketIdx k) 5
           ∧ Raised s t (fun r => r.cause.toNat = 0x0022 ∧ r.severity = 0
               ∧ r.sourceKind.toNat = (if k < 16 then 1 else 2) ∧ r.sourceId.toNat = k % 16))) ∧
     (s.power.trained = false → exec (.innerCodePoll counts) s = .next s)) ∧
  (∀ (s : State) (tier : Tier) (stack pc row k : Nat),
     (tier = .near ∧ stack < 16 ∧ k = stack) ∨ (tier = .far ∧ stack < 8 ∧ k = 16 + stack) → pc < 16 →
     let key := pcKey k pc
     let used := s.guard.remaps.get [] key
     (s.remapDue k pc row = true → used.length < 8 → s.guard.remapTick.get 0 key ≠ s.tick + 1 →
       ∃ t, exec (.rowRemap tier stack pc row) s = .next t
         ∧ t.guard = { s.guard with
             remaps := s.guard.remaps.set key (used ++ [row])
             remapTick := s.guard.remapTick.set key (s.tick + 1)
             rows := s.guard.rows.erase (rowKey k pc row) }
         ∧ t.remapped k pc row = true ∧ t.fabric = s.fabric
         ∧ (s.SlotFree → used.length ≠ 7 →
             Raised s t (fun r => r = tierReport causeRemap (rowFirst k pc row) 0 0))
         ∧ Changes [.guard, .dict, .errors, .observe, .free] s t) ∧
     (s.remapDue k pc row = false ∨ 8 ≤ used.length ∨ s.guard.remapTick.get 0 key = s.tick + 1 →
       exec (.rowRemap tier stack pc row) s = .next s))

/-- Patrol scrub of a block: a clean one changes no byte, a correctable one is counted in its stack, an uncorrectable
one is marked, in its copy of the write buffer or in its tier, and recorded with severity 0; a block of a spare row or a test row
is counted in its stack alone, at the address that the model gives it (log 108); scrub runs only while the module is READY, in P0
to P3 and not on the way to P4, outside a test hold (07 R184, R192, R193; 09 R248). The runtime self-test of a checker: a good one changes no object; a failed one keeps
the first failing stack and pseudo-channel of its tier, or marks the scratch bank, and is recorded (07 R194, R196). -/
def Obligations.MemoryIsTested : Prop :=
  (∀ (s : State) (block : BitVec 48) (symbols : Nat),
     let n := guardUnit block.toNat
     let a := block.toNat / n * n
     let good := if scratchFirst ≤ a then 1 else 2
     let bad := a ∈ s.fabric.bad ∨ a ∈ s.media.badCopies
     (s.patrols = true → inTiers a = true →
       ∃ t, exec (.patrolScrub block symbols) s = .next t ∧ t.fabric.mem = s.fabric.mem
         ∧ (¬ bad → symbols ≤ good → t.fabric = s.fabric ∧ t.media.badCopies = s.media.badCopies)
         ∧ (¬ bad → symbols = 0 → t.errors = s.errors ∧ t.guard.levels = s.guard.levels
             ∧ OnlyObjs [(bucketIdx (bucketOf a), 8)] s t)
         ∧ (¬ bad → 1 ≤ symbols → symbols ≤ good →
             t.obj (bucketIdx (bucketOf a)) 1 = (s.obj (bucketIdx (bucketOf a)) 1 + 1) % 2 ^ 64)
         ∧ (bad → s.SlotFree → Raised s t (fun r => { r with detail := 0 } = tierReport causeScrub a 0 0))
         ∧ (bad ∨ (good < symbols ∧ symbols ≤ 2 * good) →
             if inBuffer a then t.fabric = s.fabric ∧ (otherCopy a ∉ s.media.badCopies → a ∈ t.media.badCopies)
               ∧ (otherCopy a ∈ s.media.badCopies → ∀ k l, s.media.bufferBlock (bufferByte a) = some (k, l) →
                   ∃ x, x ∈ t.media.pending ∧ x.kind = .lose ∧ x.ns = k ∧ x.start = l ∧ x.len = 1)
             else a ∈ t.fabric.bad)
         ∧ Changes [.fabric, .media, .guard, .dict, .errors, .observe, .free] s t) ∧
     (s.patrols = true → inTiers a = false → ∀ k, spareStack a = some k →
       ∃ t, exec (.patrolScrub block symbols) s = .next t
         ∧ (1 ≤ symbols → symbols ≤ 2 → t.obj (bucketIdx k) 1 = (s.obj (bucketIdx k) 1 + 1) % 2 ^ 64)
         ∧ (symbols ≤ 2 ∨ 7 ≤ symbols ∨ t.obj (bucketIdx k) 3 = (s.obj (bucketIdx k) 3 + 1) % 2 ^ objBits (bucketIdx k) 3)
         ∧ (symbols = 0 → Changes [.media, .free] s t)
         ∧ Changes [.media, .dict, .errors, .observe, .free] s t) ∧
     (s.patrols = false ∨ (inTiers a = false ∧ spareStack a = none) → exec (.patrolScrub block symbols) s = .next s)) ∧
  (∀ (s : State) (c : Checker) (k pc b : Nat), s.patrols = true →
     let v := s.obj 0x3000 2
     let Fails := fun (c : Checker) (w : Nat) (ok : Report → Prop) =>
       ∃ t, exec (.eccSelftest c false) s = .next t ∧ t.obj 0x3000 2 = w % 2 ^ 32 ∧ (s.SlotFree → Raised s t ok)
         ∧ t.guard = s.guard ∧ t.fabric = s.fabric ∧ Changes [.media, .dict, .errors, .observe, .free] s t
     (∃ t, exec (.eccSelftest c true) s = .next t ∧ t.media = { s.media with active := t.media.active } ∧ Changes [.media] s t) ∧
     Fails (.near k pc) (if bitOf v 31 then v else v + 2 ^ 31 + field 4 20 k + field 4 16 pc)
       (fun r => r.cause.toNat = 0x0024 ∧ r.sourceKind = 1 ∧ r.sourceId = BitVec.ofNat 8 k ∧ r.severity = 4) ∧
     Fails (.far k pc) (if bitOf v 30 then v else v + 2 ^ 30 + field 3 13 k + field 4 9 pc)
       (fun r => r.cause.toNat = 0x0024 ∧ r.sourceKind = 2 ∧ r.sourceId = BitVec.ofNat 8 k ∧ r.severity = 0) ∧
     Fails (.scratch b) (setBit v 29 true)
       (fun r => r.cause.toNat = 0x0024 ∧ r.sourceKind = 3 ∧ r.severity = 0) ∧
     (b < 64 → ∃ t, exec (.eccSelftest (.scratch b) false) s = .next t
       ∧ t.obj 0x3030 6 = setBit (s.obj 0x3030 6) b true % 2 ^ 64))

/-- A reported condition raises one record, QUEUED, with the severity of its cause, for uncorrectable data that of its
consumer, none where the step that it names was cut (16 R404, R408): an uncorrectable block is marked, in the write buffer in its
copy, whose block is lost once both copies are (07 R186),
a word of a lane die is spoiled, a link of a lane die faults its square, a fault of the fabric is its own source, and
the batch step whose issued step met a CONTEXT error ends, its steps cut and its command to end with
CONTEXT_TORN_DOWN; the link of a lane die is PARTITION in a committed partition, any other die link DEVICE; an undecodable unit
that parity or its source gives again is no error (08 R219); a key slot that failed is marked (18 R459, log 92); a code that is no cause is ignored (16 R399,
R403, R404, R406; 07 R186; 01 R22, R34; 04 R118, R121). A record that waits to be copied goes to its persistent page, which keeps the newest 4,096 or 16,384 records
(16 R413, R415). -/
def Obligations.ConditionsAreRecorded : Prop :=
  (∀ (s : State) (rep : Report),
     let c := rep.cause.toNat
     let p := rep.part.val
     let b := rep.address.toNat / guardUnit rep.address.toNat * guardUnit rep.address.toNat
     let Met := fun (r : Run) => (s.seq p).run = some r ∧ rep.partValid = true ∧ r.ctx = rep.ctx
       ∧ ∃ n e, n < 32 ∧ e ∈ (s.seq p).queue n ∧ e.index = rep.step.toNat ∧ e.cut = false
     let named := ((List.range 32).flatMap (s.seq p).queue).filter (fun e => decide (e.index = rep.step.toNat))
     let Dropped := named ≠ [] ∧ ∀ e, e ∈ named → e.cut = true
     (∀ v, s.severityOf rep = some v → s.rebuilds (s.settle rep v) = true →
       ∃ t, exec (.errorRecordRaise rep) s = .next t ∧ Changes [.media, .dict, .vtimes, .free] s t) ∧
     (∀ v, s.severityOf rep = some v → s.rebuilds (s.settle rep v) = false →
       ∃ t, exec (.errorRecordRaise rep) s = .next t
         ∧ (s.SlotFree → (∀ m x, m < 32 → x ∈ (s.seq p).queue m → x.found = none) →
             Raised s t (fun r => r = s.settle rep v ∧ r.severity = BitVec.ofNat 3 v))
         ∧ (c = 0x0020 ∨ c = 0x0021 → inTiers b = true → inBuffer b = false → (c = 0x0021 ∨ inMapCache b = false) →
             b ∈ t.fabric.bad)
         ∧ (c = 0x0020 → v ≠ 2 → inMapCache b = true → inBuffer b = false → b ∉ t.fabric.bad)
         ∧ (c = 0x0021 → inBuffer b = true → otherCopy b ∉ s.media.badCopies → b ∈ t.media.badCopies)
         ∧ (c = 0x0020 ∨ c = 0x0021 → inBuffer b = true → otherCopy b ∈ s.media.badCopies →
             ∀ k l, s.media.bufferBlock (bufferByte b) = some (k, l) →
               ∃ x, x ∈ t.media.pending ∧ x.kind = .lose ∧ x.ns = k ∧ x.start = l ∧ x.len = 1)
         ∧ (c = 0x0011 ∨ c = 0x0051 → rep.sourceId.toNat < 48 → bitOf (t.obj 0x5000 1) rep.sourceId.toNat = true)
         ∧ (c = 0x0050 ∨ c = 0x0051 → (s.settle rep v).sourceKind = 6)
         ∧ (c = 0x0051 → (s.settle rep v).sourceId = rep.sourceId
             ∧ (∀ q, rep.sourceId.toNat < 48 → s.partOfSquare rep.sourceId.toNat = some q →
                 (s.settle rep v).partValid = true ∧ (s.settle rep v).part.val = q % 8)
             ∧ (48 ≤ rep.sourceId.toNat ∨ s.partOfSquare rep.sourceId.toNat = none → (s.settle rep v).partValid = false))
         ∧ (c = 0x00A0 → v = 4 → rep.subId.toNat < 64 → bitOf (t.obj 0xA040 1) rep.subId.toNat = true)
         ∧ (∀ r, Met r → v = 2 → (t.seq p).run = none
             ∧ (∀ m x, m < 32 → x ∈ (t.seq p).queue m → x.cut = true)
             ∧ ((s.tset r.key).due = none → t.tset r.key = { s.tset r.key with
                 due := some stTornDown, count := (s.tset r.key).published, dueStep := 0 })
             ∧ Changes [.fabric, .tiers, .dies, .media, .ctx (p * 16 + r.ctx.val), .seq p, .tset r.key, .vtimes, .dict,
                 .errors, .observe, .free] s t)
         ∧ (v ≠ 2 ∨ (∀ r, ¬ Met r) → t.fabric.mem = s.fabric.mem
             ∧ (c ≠ 0x0010 → c ≠ 0x0020 → c ≠ 0x0021 → t.fabric = s.fabric)
             ∧ (c ≠ 0x0010 → t.fabric.dies = s.fabric.dies)
             ∧ (c = 0x0010 → ∀ d, t.die d =
                 if d = rep.sourceId.toNat ∧ d < 48 then (s.die d).spoil rep.subId.toNat rep.address.toNat else s.die d)
             ∧ Changes [.fabric, .dies, .media, .vtimes, .dict, .errors, .observe, .free] s t)) ∧
     (s.severityOf rep = none → exec (.errorRecordRaise rep) s = .next s) ∧
     (c = 0x0020 ∨ c = 0x0030 → s.severityOf rep = some (if rep.partValid = true then (if Dropped then 0 else 2)
       else if rep.portValid = true then 1 else 0)) ∧
     (c ∈ [0x0001, 0x0011, 0x0021, 0x0022, 0x0023, 0x0031, 0x0032, 0x0070] → s.severityOf rep = some 0) ∧
     (c = 0x0051 → s.severityOf rep = some (if 48 ≤ rep.sourceId.toNat then 4
       else if s.partOfSquare rep.sourceId.toNat = none then 0 else 3)) ∧
     (c = 0x00A0 → s.severityOf rep = some (if rep.severity.toNat = 4 then 4 else 0))) ∧
  (∀ (s : State) (k : Nat) (r : Rec), let e := s.errors
     (r.seq ∈ e.toCopy → e.ring.find? (fun x => decide (x.2.seq = r.seq)) = some (k, r) →
       ∃ t, exec (.recordPersisted r.seq) s = .next t
         ∧ t.errors = { e with
             toCopy := e.toCopy.filter (fun q => decide (q ≠ r.seq)), ring := t.errors.ring
             history := if r.isHistory then pagePut 4096 e.next e.history { r with persisted := true } else e.history
             events := if r.isHistory then e.events else pagePut 16384 e.next e.events { r with persisted := true } }
         ∧ (k, { r with persisted := true }) ∈ t.errors.ring ∧ t.errors.history.length ≤ max 4096 e.history.length
         ∧ (r.isHistory = true → (∀ x, x ∈ e.history → (e.next - r.seq).toNat < (e.next - x.seq).toNat) → e.history.length < 4096 →
             t.errors.history = e.history ++ [{ r with persisted := true }])
         ∧ t.security = { s.security with erases := t.security.erases } ∧ OnlyObjs [(0x7040, 5)] s t
         ∧ Changes [.errors, .dict, .security, .free] s t) ∧
     (∀ n, n ∉ e.toCopy → exec (.recordPersisted n) s = .next s))

/-- Classification takes the QUEUED record of the highest severity, the lowest SEQ first: a step's error is handled or
absorbed by what already ends its context, a partition's resets the partition, a device's stops all compute and, for
three causes, leads to SAFE, where the buffer is flushed and a CONTEXT command or a WRITE that has accepted nothing is to end with
ACCESS_DENIED. A second error of the same context is absorbed by the first; one of another context is escalated: both are absorbed by a
PARTITION record of cause ESCALATION with the ESCALATED bit, which names the later one in RELATED_SEQ. A DEVICE record absorbs every open
record (16 R401, R402, R406, R407, R408). -/
def Obligations.RecordsAreClassified : Prop :=
  ∀ (s : State) (r : Rec),
    let v := r.rep.severity.toNat
    let p := r.rep.part.val
    let Resets := fun (x : Rec) => x.rep.severity.toNat = 4
      ∨ (x.rep.severity.toNat = 3 ∧ x.rep.partValid = true ∧ x.rep.part.val = p)
    let Ends := fun (x : Rec) => x.rep.severity.toNat = 2 ∧ x.rep.partValid = true ∧ x.rep.part.val = p
    let none' := fun (f : Rec → Prop) => ∀ k x, (k, x) ∈ s.errors.ring → x.st = .handling → ¬ f x
    (s.nextQueued = none → exec .recordClassify s = .next s) ∧
    (s.nextQueued = some r →
      (v ≤ 1 → exec .recordClassify s = .next (s.putRec { r with st := .done })) ∧
      (v = 2 → r.rep.partValid = true → none' Resets → none' Ends →
        exec .recordClassify s = .next (s.putRec { r with st := .handling })) ∧
      (v = 2 ∨ v = 3 → r.rep.partValid = true → ∀ x, s.resetRec p = some x →
        exec .recordClassify s = .next (s.putRec { r with st := .absorbed, related := x.seq })) ∧
      (v = 3 → r.rep.partValid = true → none' Resets →
        ∃ t, exec .recordClassify s = .next t ∧ t.errors = (s.putRec { r with st := .handling }).errors
          ∧ t.part p = { s.part p with resetDue := true } ∧ Changes [.part p, .errors] s t) ∧
      (v = 2 → r.rep.partValid = true → none' Resets → ∀ x,
        s.handlingRec (fun x => decide (x.rep.severity.toNat = 2) && x.rep.partValid && decide (x.rep.part.val = p)) = some x →
        (x.rep.ctx = r.rep.ctx → exec .recordClassify s = .next (s.putRec { r with st := .absorbed, related := x.seq })) ∧
        (x.rep.ctx ≠ r.rep.ctx → s.SlotFree → s.errors.InPlace →
          ∃ t e, exec .recordClassify s = .next t ∧ (t.part p).resetDue = true
            ∧ t.errors.next = s.errors.next + 1
            ∧ t.errors.slot s.errors.next = some e ∧ e.seq = s.errors.next ∧ e.st = .handling ∧ e.escalated = true ∧ e.related = r.seq
            ∧ e.rep.cause = 0x0080 ∧ e.rep.severity = 3 ∧ e.rep.partValid = true ∧ e.rep.part = r.rep.part
            ∧ t.errors.slot r.seq = some { r with st := .absorbed, related := s.errors.next }
            ∧ t.errors.slot x.seq = some { x with st := .absorbed, related := s.errors.next }
            ∧ Changes [.part p, .dict, .errors, .observe, .free] s t)) ∧
      (v = 4 → ∃ t, exec .recordClassify s = .next t
        ∧ (s.errors.InPlace → (∀ q m e, q < 8 → m < 32 → e ∈ (s.seq q).queue m → e.found = none) →
            (∀ q, q ∈ s.media.pieces → s.drainsWell q = true) →
            (∃ y, t.errors.slot r.seq = some y ∧ y.st = .handling) ∧
            ∀ x, s.errors.slot x.seq = some x → x.open = true → x.seq ≠ r.seq →
              ∃ y, t.errors.slot x.seq = some y ∧ y.seq = x.seq ∧ y.st = .absorbed ∧ y.related = r.seq)
        ∧ t.errors.device = (if toSafe r.rep then 2 else max 1 s.errors.device)
        ∧ (∀ q, q < 8 → (t.seq q).run = none)
        ∧ (∀ q, q < 8 → (s.part q).committed = true → (s.part q).life ≠ .resetting → (t.part q).resetDue = true)
        ∧ (toSafe r.rep = true → (∀ q, q ∈ s.media.pieces → s.drainsWell q = true) → t.media = { s.media with
            pieces := [], segUnit := none, badCopies := [], badData := [], seen := t.media.seen
            bands := s.media.bands.map (fun b => if b.life = .opened then b.pad else b) })
        ∧ (toSafe r.rep = true → ∀ k, k ∈ s.taken → (s.tset k).due = none →
            (s.tset k).opcode = 0x20 ∨ (opWrite (s.tset k).opcode = true ∧ (s.tset k).count = 0) → (t.tset k).due = some 0x0501)
        ∧ (toSafe r.rep = false → t.media = s.media)
        ∧ Changes [.fabric, .tiers, .dies, .parts, .ctxs, .seqs, .sets, .ports, .media, .dict, .errors, .device, .security, .observe,
            .free] s t))

/-! ## Power and reset (17) -/

/-- A power transition ends: the new state's clock is set, and STATE_RESULT is 0; out of P4 the state is entered, and
P5 takes the 48 V domains, the tiers' contents and the ports, and asserts ALERT#. P4 is entered when its conditions hold, with the map
written back (17 R419, R420, R423). -/
def Obligations.PowerTransitionsEnd : Prop :=
  ∀ (s : State) (v : Nat),
    let c := s.obj 0x7000 4
    let goal := if v = 0 then 1000 else if v ≤ 2 then 730 else if v = 3 then 400 else 0
    let new := if s.power.thermal = true ∧ v ≤ 2 then min (max c 200) goal else goal
    let ready := s.media.pieces = [] ∧ s.media.pending = [] ∧ (∀ e, e ∈ s.media.erasing → e.issued = false)
      ∧ (∀ k, k ∈ s.taken → ¬ (0x10 ≤ (s.tset k).opcode ∧ (s.tset k).opcode ≤ 0x16))
    (s.power.target = none ∨ s.power.waitP4 = true → exec .powerTransitionDone s = .next s) ∧
    (s.power.target = some v → s.power.waitP4 = false →
      ∃ t, exec .powerTransitionDone s = .next t ∧ t.power.target = none ∧ t.obj 0x7000 3 = 0 ∧ t.obj 0x7000 4 = new % 2 ^ 16
        ∧ (s.power.state ≠ 4 → t.power = { s.power with target := none }
            ∧ (v ≤ 2 → t.obj 0x7000 8 = (s.obj 0x7000 8 + (c - new) / 5) % 2 ^ 64)
            ∧ OnlyObjs ([(0x7000, 3), (0x7000, 4), (0x7000, 8)] ++ (List.range 8).map (fun p => (0x2020 + p, 0x0B))) s t
            ∧ Changes [.power, .powerTarget, .dict, .seqs] s t)
        ∧ (s.power.state = 4 → v ≠ 5 → t.power.state = v ∧ t.media = s.media ∧ t.pending = s.pending)
        ∧ (s.power.state = 4 → v = 5 → t.power.state = 5 ∧ t.power.railsUp = false ∧ t.power.alert = true ∧ t.fabric = Fabric.zeroed
            ∧ (∀ x, x < 4 → (s.port x).life ≠ .disabled → (t.port x).life = .down)
            ∧ Changes [.fabric, .tiers, .dies, .ports, .dict, .errors, .observe, .power, .powerState, .powerTarget, .seqs,
                .free] s t)) ∧
    (s.power.waitP4 = true → ready →
      ∃ t, exec .p4EntryComplete s = .next t ∧ t.media = s.media.writeAll s.clock.now s.tick
        ∧ t.media.dirty = [] ∧ t.media.ckptEpoch = s.tick ∧ t.media.spaces = s.media.spaces
        ∧ (∀ k, k ∈ s.media.dirty → t.media.upper.has k = true)
        ∧ t.power = { s.power with
            state := 4, waitP4 := false, target := if s.power.target = some 4 then none else s.power.target }
        ∧ t.obj 0x7000 4 = 0 ∧ t.obj 0x7000 5 = 0 ∧ (s.power.target = some 4 → t.obj 0x7000 3 = 0)
        ∧ OnlyObjs [(0x7000, 3), (0x7000, 4), (0x7000, 5)] s t
        ∧ Changes [.media, .power, .powerState, .powerTarget, .dict] s t) ∧
    (s.power.waitP4 = false ∨ ¬ ready → exec .p4EntryComplete s = .next s)

/-- Input power is sampled, and shown but in P5, where the objects stay as last held (14 R368), and its mean over 1 ms held under the state's
cap, but after a power-fail warning: 5 MHz down above it, 5 MHz down to no
less than 200 MHz while a sensor throttles, 5 MHz up after ten samples below 97 % of it; a running move period whose
table needs a higher clock than the new setting is counted, once (17 R421, R425; 02 R44). A measurement of the hold-up
bank gives the limit of the write buffer, and a lower limit is recorded (17 R430, R434). -/
def Obligations.PowerIsMeasured : Prop :=
  ∀ (s : State) (mw mv uF mj : Nat),
    let l := (mw :: s.power.samples).take 100
    let avg := l.foldl (· + ·) 0 / l.length
    let c := s.obj 0x7000 4
    let cap := if s.power.state = 0 then 1600000 else if s.power.state = 1 then 1200000 else 800000
    let governs := s.power.railsUp = true ∧ s.power.state ≤ 2 ∧ s.power.target = none ∧ s.power.warned = false
    let limit := fun (e : Nat) => if 9000 ≤ e then 2048 else if 4000 ≤ e then 512 else if 1000 ≤ e then 64 else 0
    let limited := fun (e f : Nat) => if f ≠ 0 ∧ f * 504 < 9000000 then min 512 (limit e) else limit e
    let Limits := fun (n : Nat) (t : State) => t.obj 0x7020 4 = n
      ∧ (n < s.obj 0x7020 4 → s.SlotFree → Raised s t (fun r => r.cause.toNat = 0x0060 ∧ r.severity = 0 ∧ r.detail = 6))
      ∧ Changes [.dict, .errors, .observe, .free] s t
    (s.power.aux = true →
      ∃ t, exec (.powerSample mw mv) s = .next t
        ∧ (s.power.state ≠ 5 → t.obj 0x7000 6 = avg % 2 ^ 32 ∧ t.obj 0x7000 7 = mv % 2 ^ 32)
        ∧ (s.power.state = 5 → t.obj 0x7000 6 = s.obj 0x7000 6 ∧ t.obj 0x7000 7 = s.obj 0x7000 7)
        ∧ t.power = { s.power with samples := l, rise := t.power.rise } ∧ Changes [.power, .dict, .seqs] s t
        ∧ (governs → cap < avg → t.obj 0x7000 4 = (c - 5) % 2 ^ 16)
        ∧ (governs → avg ≤ cap → s.power.falling = true → t.obj 0x7000 4 = if c ≤ 200 then c else max 200 (c - 5) % 2 ^ 16)
        ∧ (governs → s.power.falling = false → s.power.thermal = false → avg * 100 < cap * 97 →
            (s.power.rise + 1 < 10 → t.power.rise = s.power.rise + 1 ∧ t.obj 0x7000 4 = c)
            ∧ (10 ≤ s.power.rise + 1 → t.power.rise = 0 ∧ t.obj 0x7000 4 = min 1000 (c + 5)))
        ∧ (s.power.railsUp = false ∨ 2 < s.power.state ∨ s.power.target ≠ none ∨ s.power.warned = true →
            t.obj 0x7000 4 = c ∧ t.power.rise = s.power.rise)
        ∧ (∀ p, p < 8 → (s.part p).active = true → s.clock.boundaryAt < (s.seq p).periodEnd → (s.seq p).below = false →
            t.belowFit p = true → (t.seq p).below = true
              ∧ t.obj (0x2020 + p) 0x0B = (s.obj (0x2020 + p) 0x0B + 1) % 2 ^ objBits (0x2020 + p) 0x0B)) ∧
    (s.power.aux = false → exec (.powerSample mw mv) s = .next s) ∧
    (s.power.railsUp = true →
      (∃ t, exec (.bankMeasure uF mj mv) s = .next t ∧ t.obj 0x7020 1 = mv % 2 ^ 32 ∧ t.obj 0x7020 2 = mj % 2 ^ 32
        ∧ t.obj 0x7020 3 = uF % 2 ^ 32 ∧ Limits (limited mj (uF % 2 ^ 32)) t) ∧
      (∃ t, exec (.bankFull mj) s = .next t ∧ t.obj 0x7020 2 = mj % 2 ^ 32 ∧ t.obj 0x7020 3 = s.obj 0x7020 3
        ∧ Limits (limited mj (s.obj 0x7020 3)) t)) ∧
    (s.power.railsUp = false → exec (.bankMeasure uF mj mv) s = .next s ∧ exec (.bankFull mj) s = .next s)

/-- A power-fail warning, whatever its source, stops compute, gates the lane dies, takes the ports DOWN and has the board run at 400 MHz,
once, and is recorded, with a record for each port that was in use; before the input stage closes, and in P5, it only is seen. The flush ends with
the write buffer on flash; a supply that returns ends the warning, and the module is HALTED (17 R417, R427 to R429; 16
R404). -/
def Obligations.SupplyWarningsStopCompute : Prop :=
  ∀ (s : State) (micros : Nat),
    let free := ∀ i, i < 5 → ∀ r, s.errors.slot (s.errors.next + BitVec.ofNat 32 i) = some r → r.open = false
    let links := (List.range 4).countP (fun x => decide ((s.port x).life = .up ∨ (s.port x).life = .retraining))
    let warns := (s.power.railsUp = true ∨ s.power.stage = 2) ∧ s.power.warned = false ∧ s.power.state ≤ 4
    let clean := ∀ p m e, p < 8 → m < 32 → e ∈ (s.seq p).queue m → e.found = none
    let Warns := fun (c : Instr) (w : Power) =>
      (warns → s.power.stage = 6 → ∃ t, exec c s = .next t
        ∧ t.power = { w with warned := true, flushed := false }
        ∧ (∀ p, p < 8 → (t.seq p).run = none)
        ∧ (∀ p, p < 8 → (s.part p).committed = true → (s.part p).life ≠ .resetting → (t.part p).resetDue = true)
        ∧ (∀ x, x < 4 → (s.port x).life ≠ .disabled → (t.port x).life = .down)
        ∧ (s.power.state ≤ 3 → t.obj 0x7000 4 = 400)
        ∧ t.fabric.dies = [] ∧ t.obj 0x7020 5 = min (s.obj 0x7020 5 + 1) (2 ^ objBits 0x7020 5 - 1)
        ∧ (free → clean → t.errors.next = s.errors.next + 1 + BitVec.ofNat 32 links
            ∧ ∃ r, t.errors.slot s.errors.next = some r ∧ r.seq = s.errors.next ∧ r.epoch = s.clock.epoch ∧ r.st = .queued
              ∧ r.rep.cause.toNat = 0x0060 ∧ r.rep.severity = 4 ∧ r.rep.detail = 4)
        ∧ Changes [.fabric, .tiers, .dies, .parts, .ctxs, .seqs, .sets, .ports, .dict, .errors, .power, .observe, .free] s t) ∧
      (warns → s.power.stage ≠ 6 → ∃ t, exec c s = .next t ∧ t.power.stage = 1 ∧ t.power.railsUp = false
        ∧ t.power.warned = false ∧ t.fabric = Fabric.zeroed ∧ t.errors.ring = [] ∧ t.media = s.media) ∧
      (¬ warns → exec c s = .next { s with power := w })
    Warns .pwrfailAssert { s.power with failLow := true } ∧
    Warns .presentRemoved { s.power with absent := true } ∧
    Warns .inputOutOfRange { s.power with badInput := true } ∧
    (s.power.warned = true → s.power.flushed = false → (∀ q, q ∈ s.media.pieces → s.drainsWell q = true) →
      ∃ t, exec (.flushComplete micros) s = .next t
        ∧ t.media = { s.media with
            pieces := [], segUnit := none, badCopies := [], badData := [], seen := t.media.seen
            bands := s.media.bands.map (fun b => if b.life = .opened then b.pad else b) }
        ∧ t.power = { s.power with flushed := true } ∧ t.obj 0x7020 6 = micros % 2 ^ 32
        ∧ OnlyObjs [(0x7020, 6)] s t ∧ Changes [.media, .power, .dict] s t) ∧
    (s.power.warned = false ∨ s.power.flushed = true → exec (.flushComplete micros) s = .next s) ∧
    (s.power.warned = true → s.power.flushed = true →
      ∃ t, exec .powerResume s = .next t
        ∧ t.power = { s.power with warned := false, flushed := false, failLow := false, absent := false, badInput := false }
        ∧ t.errors.device = max 1 s.errors.device
        ∧ (s.SlotFree → Raised s t (fun r => r.cause.toNat = 0x0060 ∧ r.severity = 0 ∧ r.detail = 5))
        ∧ Changes [.power, .dict, .errors, .device, .observe, .free] s t) ∧
    (s.power.warned = false ∨ s.power.flushed = false → exec .powerResume s = .next s)

/-- A module reset, from an exhausted bank, RESET#, the management watchdog, or AUX3V3 that comes or goes, stops the
clock, empties the tiers, the partitions, the sequencers, the task register sets and the ports, drops what waits to be
published, releases ALERT# but in P5, and keeps the life cycle, the keys, the erase counts and the retired blocks; its source is noted; Yilry
reads the slot's pins again (20 R484; free at a reset, log 120); while THERMTRIP# is
asserted the reset is held (17 R417, R426, R429, R432, R433). -/
def Obligations.ResetsRestartTheModule : Prop :=
  ∀ (s : State) (slotId : BitVec 3),
    let Pins := fun (v : BitVec 3) => ∃ n, v = Config.slotPins n
    let Restarts := fun (c : Instr) (source state : Nat) (aux low : Bool) (ids : BitVec 3 → Prop) => ∃ t, exec c s = .next t
      ∧ s.clock.now ≤ t.clock.now ∧ t.clock = ⟨t.clock.now, t.clock.now, 0, false⟩ ∧ t.fabric = Fabric.zeroed ∧ t.parts = State.reset.parts
      ∧ t.ctxs = State.reset.ctxs ∧ t.seqs = State.reset.seqs ∧ t.vtimes = State.reset.vtimes ∧ t.sets = State.reset.sets
      ∧ t.ports = State.reset.ports ∧ t.stagings = [] ∧ t.hold = 0
      ∧ (∀ k, (t.tset k).life = .idle ∧ (t.tset k).due = none ∧ (t.tset k).input = [] ∧ (t.tset k).output = []
          ∧ (t.tset k).tr15 = 0)
      ∧ (∀ x, (t.port x).db = 0 ∧ (t.port x).freeze = 0 ∧ (t.port x).freezeDue = 0 ∧ (t.port x).waiting = [])
      ∧ t.dict.reads = [] ∧ t.dict.writes = []
      ∧ t.media.pending = [] ∧ t.media.moves = [] ∧ t.media.pieces = [] ∧ t.media.claims = []
      ∧ t.media.cache = t.media.dirty
      ∧ t.media.retired = s.media.retired ∧ t.media.pe = s.media.pe
      ∧ t.errors.device = 0 ∧ t.errors.lastEpoch = s.clock.epoch
      ∧ t.guard = { Guard.start with remaps := s.guard.remaps }
      ∧ t.security.state = s.security.state ∧ t.security.words = s.security.words ∧ t.security.keys = s.security.keys
      ∧ t.security.due = none ∧ t.security.arms = [] ∧ t.security.unlocked = 0
      ∧ t.power.source = source ∧ t.power.state = state ∧ t.power.target = none ∧ t.power.warned = false
      ∧ t.power.railsUp = false ∧ t.power.aux = aux ∧ t.power.resetLow = low ∧ ids t.power.ids
      ∧ t.power.alert = decide (state = 5)
      ∧ (t.power.bootHeld = false → aux = true → t.power.stage = if low then 0 else 1)
      ∧ t.arms = s.arms ∧ t.pending = s.pending
    (s.power.warned = true →
      Restarts .bankExhausted (if s.power.absent then 7 else 4) 5 s.power.aux s.power.resetLow Pins) ∧
    (s.power.warned = false → exec .bankExhausted s = .next s) ∧
    (s.power.aux = true → s.power.tripped = false →
      Restarts .resetAssert 2 0 true true Pins ∧ Restarts .mgmtWatchdog 6 0 true s.power.resetLow Pins) ∧
    (s.power.aux = true → s.power.tripped = true →
      exec .resetAssert s = .next { s with power := { s.power with resetLow := true, heldReset := some 2 } }
      ∧ exec .mgmtWatchdog s = .next { s with power := { s.power with heldReset := some 6 } }) ∧
    (s.power.aux = true → Restarts .aux3v3Loss 1 0 false s.power.resetLow Pins ∧ exec (.auxPowerOn slotId) s = .next s) ∧
    (s.power.aux = false → Restarts (.auxPowerOn slotId) 1 0 true s.power.resetLow (fun v => v = slotId)
      ∧ exec .resetAssert s = .next s ∧ exec .mgmtWatchdog s = .next s ∧ exec .aux3v3Loss s = .next s)

/-- Temperatures: a sample is stored in TEMP, but in P5; a die or a stack at its limit throttles the clock until all are 3 K below
theirs; a second reading in a row at a trip temperature takes the 48 V domains off, with TEMP and the input's readings kept as
last held, and the trip holds until all are 15 K below, powered or not, when a reset that waited for it follows; in P5 a limit that is crossed asserts ALERT# (17 R424 to R426, R442; 14 R369). -/
def Obligations.TemperaturesAreWatched : Prop :=
  ∀ (s : State) (x : Temps),
    let l := s.sensors x
    let hot := (l.zipIdx.filter (fun e => e.1.trips)).map Prod.snd
    let heats := ∃ y, y ∈ l ∧ y.powered = true ∧ y.clocks = true ∧ y.hot ≤ y.value
    let cools := ∀ y, y ∈ l → y.powered = true → y.row ≠ 6 → y.value + 300 ≤ y.hot
    let trips := s.power.tripped = false ∧ ∃ i, i ∈ hot ∧ i ∈ s.power.hot
    let holds := s.power.tripped = true ∧ ∃ y, y ∈ l ∧ ∃ a, y.trip = some a ∧ a < y.value + 1500
    (s.power.aux = false → exec (.thermalSample x) s = .next s) ∧
    (s.power.aux = true → ¬ trips → ¬ holds → ∀ n, s.power.heldReset = some n →
      ∃ t, exec (.thermalSample x) s = .next t ∧ t.power.source = n ∧ t.power.state = 0 ∧ t.power.tripped = false
        ∧ t.power.heldReset = none ∧ t.clock.running = false ∧ t.fabric = Fabric.zeroed ∧ t.sets = State.reset.sets
        ∧ t.pending = s.pending) ∧
    (s.power.aux = true → ¬ trips → s.power.heldReset = none ∨ holds →
      ∃ t, exec (.thermalSample x) s = .next t
        ∧ (s.power.state = 5 → ∀ j, t.obj 0x7010 j = s.obj 0x7010 j)
        ∧ (s.power.state ≠ 5 → t.obj 0x7010 1 = (x.lane % 4294967296).toNat ∧ t.obj 0x7010 2 = (x.base % 4294967296).toNat
        ∧ t.obj 0x7010 3 = (x.near % 4294967296).toNat ∧ t.obj 0x7010 4 = (x.far % 4294967296).toNat
        ∧ t.obj 0x7010 5 = (x.media % 4294967296).toNat ∧ t.obj 0x7010 6 = (x.nand % 4294967296).toNat
        ∧ t.obj 0x7010 7 = (x.optic % 4294967296).toNat ∧ t.obj 0x7010 8 = (x.mgmt % 4294967296).toNat
        ∧ t.obj 0x7010 9 = (x.inlet % 4294967296).toNat ∧ t.obj 0x7010 10 = (x.outlet % 4294967296).toNat)
        ∧ t.power.hot = hot ∧ (t.power.falling = true ↔ heats)
        ∧ (t.power.thermal = true ↔ heats ∨ (s.power.thermal = true ∧ ¬ cools))
        ∧ (t.power.tripped = true ↔ holds)
        ∧ (s.power.alert = true → t.power.alert = true)
        ∧ (s.power.state = 5 → hot ≠ s.power.hot → t.power.alert = true)
        ∧ t.power.state = s.power.state
        ∧ Changes [.power, .dict, .errors, .observe, .free] s t) ∧
    (s.power.aux = true → trips →
      ∃ t, exec (.thermalSample x) s = .next t ∧ t.power.state = 5 ∧ t.power.source = 5 ∧ t.power.tripped = true
        ∧ t.power.railsUp = false ∧ t.clock.running = false ∧ t.fabric = Fabric.zeroed ∧ t.sets = State.reset.sets
        ∧ t.media.pieces = [] ∧ t.media.retired = s.media.retired ∧ t.security.state = s.security.state
        ∧ t.power.alert = true
        ∧ (s.power.state ≠ 5 → t.obj 0x7010 1 = (x.lane % 4294967296).toNat) ∧ t.obj 0x7000 6 = s.obj 0x7000 6 % 2 ^ 32
        ∧ t.pending = s.pending)

/-! ## Start-up, security, observation and the sideband (14, 17, 18, 19, 20) -/

/-- Start-up goes through its stages: its inputs settled, the tests' results of before are withdrawn and the reset is
recorded, with a new LC_NONCE (18 R447); then the rails, the stacks' training, with which the erases of the RETURN erasure are issued and counted, the lane
dies' test, the checkers' test, the zeroing of the tiers and
the map's rebuild, each only in its stage (04 R121; 07 R195, R196; 08 R205; 16 R413; 17 R433, R434). -/
def Obligations.StartUpAdvances : Prop :=
  ∀ (s : State) (mask : BitVec 48) (failed : List Checker) (k pc b : Nat),
    let p := s.power
    (s.mayStart = true →
      ∃ t, exec .startupBegin s = .next t
        ∧ t.power = { p with
            resetLow := false, failLow := false, absent := false, badInput := false, warned := false, flushed := false
            state := 0, stage := 2 }
        ∧ t.obj 0x3000 2 = 0 ∧ t.obj 0x5000 1 = 0 ∧ t.obj 0x3030 6 = 0 ∧ t.obj 0x3030 7 = 0
        ∧ (∀ o, o ∈ guardCounters → t.obj o.1 o.2 = 0)
        ∧ t.guard = { s.guard with levels := [], rows := [], nearOff := false, farOff := false, banksOff := 0 }
        ∧ t.media = s.ageBands.media
        ∧ t.security = { s.security with
            fails := s.security.fails + 1, nonceDraw := t.security.nonceDraw, erases := t.security.erases }
        ∧ (∃ n, s.free ≤ n ∧ t.security.nonceDraw = n)
        ∧ (s.SlotFree → Raised s t (fun r => r.cause.toNat = 0x0001 ∧ r.severity = 0 ∧ r.detail = BitVec.ofNat 128 p.source))
        ∧ (s.errors.next, s.errors.lastEpoch, BitVec.ofNat 8 p.source) ∈ t.errors.resets
        ∧ Changes [.power, .powerState, .stage, .dict, .guard, .media, .security, .errors, .observe, .free] s t) ∧
    (s.mayStart = false → exec .startupBegin s = .next s) ∧
    (exec .railsInRegulation s = .next (if p.stage = 2 then { s with power := { p with railsUp := true, stage := 3 } } else s)) ∧
    (s.security.state ≠ 3 ∨ s.obj 0xA000 6 ≠ 0 →
      exec .stackTrainingDone s = .next (if p.stage = 3 then { s with power := { p with trained := true, stage := 4 } } else s)) ∧
    (p.stage ≠ 3 → exec .stackTrainingDone s = .next s) ∧
    (p.stage = 3 → s.security.state = 3 → s.obj 0xA000 6 = 0 →
      ∃ t, exec .stackTrainingDone s = .next t ∧ t.power = { p with trained := true, stage := 4 }
        ∧ t.media = { s.media with peBase := s.media.peBase + 1 }
        ∧ Changes [.power, .stage, .media, .dict, .errors, .observe, .free] s t) ∧
    (p.railsUp = true →
      ∃ t, exec (.laneKatDone mask) s = .next t ∧ t.power = { p with katDone := true }
        ∧ (∀ d, d < 48 → bitOf (t.obj 0x5000 1) d
            = (bitOf (s.obj 0x5000 1) d || (bitOf mask.toNat d && bitOf (s.obj 0x1010 1) d)))
        ∧ t.fabric = s.fabric ∧ Changes [.power, .dict, .errors, .observe, .free] s t) ∧
    (p.railsUp = false → exec (.laneKatDone mask) s = .next s) ∧
    (p.stage = 4 → p.checked = false →
      (∃ t, exec (.memoryCheckersDone failed) s = .next t ∧ t.power = { p with checked := true }
        ∧ t.guard = { s.guard with
            nearOff := bitOf (t.obj 0x3000 2) 31, farOff := bitOf (t.obj 0x3000 2) 30
            banksOff := t.obj 0x3030 6 + t.obj 0x3030 7 * 2 ^ 64 }
        ∧ (failed = [] → OnlyObjs [] s t ∧ Changes [.power, .guard] s t)
        ∧ Changes [.power, .dict, .guard, .errors, .observe, .free] s t) ∧
      (s.obj 0x3000 2 = 0 →
        (∃ t, exec (.memoryCheckersDone [.near k pc]) s = .next t ∧ t.guard.nearOff = true
          ∧ t.obj 0x3000 2 = 2 ^ 31 + field 4 20 k + field 4 16 pc) ∧
        (∃ t, exec (.memoryCheckersDone [.far k pc]) s = .next t ∧ t.guard.farOff = true
          ∧ t.obj 0x3000 2 = 2 ^ 30 + field 3 13 k + field 4 9 pc) ∧
        (b < 64 → ∃ t, exec (.memoryCheckersDone [.scratch b]) s = .next t ∧ t.obj 0x3000 2 = 2 ^ 29
          ∧ bitOf (t.obj 0x3030 6) b = true ∧ bitOf t.guard.banksOff b = true))) ∧
    (p.stage ≠ 4 ∨ p.checked = true → exec (.memoryCheckersDone failed) s = .next s) ∧
    (p.checked = true → s.clock.running = false →
      exec (.tierZeroed .near) s = .next { s with power := { p with nearZero := true, stage := 5 } } ∧
      (∃ t, exec (.tierZeroed .far) s = .next t ∧ t.power = { p with farZero := true }
        ∧ t.obj 0x3000 2 = setBit (s.obj 0x3000 2) 0 true % 2 ^ 32 ∧ OnlyObjs [(0x3000, 2)] s t ∧ Changes [.power, .dict] s t) ∧
      exec (.tierZeroed .scratch) s = .next s) ∧
    (p.checked = false ∨ s.clock.running = true → ∀ x, exec (.tierZeroed x) s = .next s) ∧
    (exec .mapRebuildDone s
      = .next (if p.nearZero = true ∧ s.guard.nearOff = false then { s with power := { p with mapUp := true } } else s))

/-- READY is boundary 0: boundaries run from now on at epoch 0, the start-up counts as good, and the first READY of an
installed image in PROVISIONED or FIELD raises the rollback floor to its SVN (17 R434, R435; 18 R454: an image that starts in FACTORY
or RETURN leaves it to that one, log 117). In RETURN it waits for the erasure,
which takes every namespace, the persistent pages and every remap, and replaces every key, but keeps the erase counts
(18 R448). -/
def Obligations.ReadyAndReturn : Prop :=
  ∀ (s : State) (micros : Nat),
    let svn := s.obj 0xA030 2
    let old := s.security.floors
    (s.mayReady = true → s.power.resetAt = none →
      ∃ t, exec (.ready micros) s = .next t ∧ t.clock = ⟨s.timeNow, s.timeNow, 0, true⟩ ∧ t.power.stage = 6
        ∧ t.obj 0x7030 3 = micros % 2 ^ 32
        ∧ t.security.fails = 0 ∧ t.security.uncopied = false
        ∧ (s.security.state = 1 ∨ s.security.state = 2 → t.security.fresh = false)
        ∧ (s.security.state ≠ 1 → s.security.state ≠ 2 → t.security.fresh = s.security.fresh ∧ t.security.floors = old)
        ∧ (s.security.fresh = true → s.security.state = 1 ∨ s.security.state = 2 → old.getLastD 0 < svn → old.length < 64 →
            t.security.floors = old ++ [svn])
        ∧ (s.security.fresh = false ∨ svn ≤ old.getLastD 0 ∨ 64 ≤ old.length → t.security.floors = old)
        ∧ t.pending = s.pending) ∧
    (s.mayReady = false → exec (.ready micros) s = .next s) ∧
    (s.security.state = 3 → s.obj 0xA000 6 = 0 → s.clock.running = false → s.power.railsUp = true →
      ∃ t, exec .returnErasureDone s = .next t ∧ t.obj 0xA000 6 = 1
        ∧ t.media.spaces = Media.shipped.spaces ∧ t.media.pending = [] ∧ t.media.secure = [] ∧ t.media.pe = s.media.pe
        ∧ t.media.peBase = s.media.peBase ∧ (∀ b, b ∈ s.media.retired → b ∈ t.media.retired)
        ∧ (∀ x, x ∈ s.media.bands → ∀ b, b ∈ x.failed → b ∈ t.media.retired)
        ∧ (∀ n, n < 65 → ∃ d, s.free ≤ d ∧ d < t.free ∧ t.security.keys.get 0 n = d)
        ∧ t.errors.history = [] ∧ t.errors.events = [] ∧ t.errors.resets = [] ∧ t.guard = { s.guard with remaps := [] }
        ∧ t.security.state = 3 ∧ t.power = s.power
        ∧ Changes [.media, .dict, .security, .errors, .guard, .observe, .free] s t) ∧
    (s.security.state ≠ 3 ∨ s.obj 0xA000 6 ≠ 0 ∨ s.clock.running = true ∨ s.power.railsUp = false →
      exec .returnErasureDone s = .next s)

/-- The oldest arm of RETURN lapses; a report that was asked for is signed over the nonce and can be read; an access through a
closed debug path is recorded, and one through an open path of memory reads it: the code flash raw, the core memory with zero in an
execute-only region outside FACTORY and RETURN (17 R438; 18 R446, R449, R450, R457). The reader's pass ends with one 16-byte entry for each
id of its list, those that it had read before as they were; a freeze at its limit is released, and FREEZE_LENGTH is the limit; a test hold
is entered once all that was taken has completed, as P4 is; a test run ends with its result, and is counted (17 R423; 19 R463, R466; 20
R492, R496). -/
def Obligations.EventsOfYilry : Prop :=
  (∀ (s : State) (x y : Port) (a key : Nat) (nonce : Bytes) (path : DebugPath),
     let v := s.port x.val
     let bit := match path with
       | .boundaryScan => 0
       | .scanChains => 1
       | .coreTrace => 2
       | .coreMem => 3
       | .cfRead => 4
       | .nandRaw => 5
       | .testImages => 6
     let closed := bitOf s.debugState bit = false
     let recorded := path = .scanChains ∨ path = .coreMem
     let reads := path = .scanChains ∨ path = .coreMem ∨ path = .cfRead ∨ path = .nandRaw
     (∀ l r, s.security.arms = l ++ (3, y, a) :: r → (∀ b, b ∈ l → b.1 ≠ 3) →
       exec .lcArmLapse s = .next { s with security := { s.security with arms := l ++ r } }) ∧
     ((∀ b, b ∈ s.security.arms → b.1 ≠ 3) → exec .lcArmLapse s = .next s) ∧
     (v.nonce = some nonce → s.security.identity = some key →
       ∃ t b, exec (.attestReportSigned x) s = .next t ∧ b = bytesOf 320 (s.reportBody x nonce)
         ∧ t.dom (0xA018 + x.val) 2 = b ++ padTo 512 (Config.sign key b)
         ∧ t.port x.val = { v with nonce := none } ∧ t.dict.objs = s.dict.objs ∧ Changes [.port x.val, .dict] s t) ∧
     (v.nonce = none ∨ s.security.identity = none → exec (.attestReportSigned x) s = .next s) ∧
     (closed → recorded → ∃ t, exec (.debugPathAccess path) s = .next t
       ∧ (s.SlotFree → Raised s t (fun r => r.cause.toNat = 0x00A0 ∧ r.severity = 0))
       ∧ Changes [.dict, .errors, .observe, .free] s t) ∧
     (closed → ¬ recorded → exec (.debugPathAccess path) s = .next s) ∧
     (¬ closed → reads → ∃ t b, exec (.debugPathAccess path) s = .next t
       ∧ t.security = { s.security with probe := t.security.probe } ∧ t.security.probe.length = 64
       ∧ (∀ i, i < 64 → t.security.probe.getD i 0 = s.probeAt path (b + i))
       ∧ Changes [.security, .free] s t) ∧
     (¬ closed → ¬ reads → exec (.debugPathAccess path) s = .next s) ∧
     (∀ b, let image := s.security.imageOf (s.obj 0x7040 1)
       (s.security.state ≠ 0 → s.security.state ≠ 3 → b < image.length → s.probeAt .coreMem b =
         if execOnly (numOf (image.take 1152)) b = true then 0 else image.getD b 0) ∧
       (b < (s.security.imageOf 0).length → b < 2 ^ 24 → s.probeAt .cfRead b = (s.security.imageOf 0).getD b 0))) ∧
  (∀ (s : State) (ids : List Nat) (v : Nat) (errors : BitVec 32) (firstPin die : Byte),
     let o := s.observe
     let shown := field 3 11 (bits v 31 29) + field 2 9 (bits v 28 27) + field 7 2 (bits v 26 20)
     let settled := s.media.pieces = [] ∧ s.media.pending = [] ∧ (∀ e, e ∈ s.media.erasing → e.issued = false)
       ∧ (∀ k, k ∈ s.taken → ¬ (0x10 ≤ (s.tset k).opcode ∧ (s.tset k).opcode ≤ 0x16))
     (o.pass = some ids →
       ∃ t, exec .readerPassDone s = .next t ∧ t.observe = { o with pass := none, passFrom := [], passed := [] } ∧ t.obj 0x9000 3 = 2
         ∧ (o.passed.length ≤ ids.length → (t.dom 0x9000 2).length = 16 * ids.length
             ∧ (∀ i w, o.passed[i]? = some w → ((t.dom 0x9000 2).drop (16 * i)).take 16 = bytesOf 16 w)
             ∧ (∀ i id, o.passed.length ≤ i → ids[i]? = some id → ∃ v, ((t.dom 0x9000 2).drop (16 * i)).take 16 = bytesOf 16 (s.entryWord i id v)
                 ∧ (s.counterOff id = true → v = 0)))
         ∧ Changes [.dict, .observe, .free] s t) ∧
     (o.pass = none → exec .readerPassDone s = .next s) ∧
     (o.frozen = true →
       ∃ t, exec .freezeLimitExpiry s = .next t
         ∧ t.observe = { o with frozen := false, since := t.observe.since, passed := t.observe.passed, passFrom := t.observe.passFrom }
         ∧ (o.pass = none → t.observe.passed = o.passed ∧ t.observe.passFrom = o.passFrom)
         ∧ o.passed <+: t.observe.passed
         ∧ t.obj 0x9001 7 = s.gov 0x9001 8 * 100000 % 2 ^ objBits 0x9001 7
         ∧ OnlyObjs [(0x9001, 7)] s t ∧ Changes [.dict, .observe, .free] s t) ∧
     (o.frozen = false → exec .freezeLimitExpiry s = .next s) ∧
     (s.hold = 1 → settled →
       ∃ t, exec .testHoldHeld s = .next t ∧ t.hold = 2 ∧ t.media = s.media.writeAll s.clock.now s.tick
         ∧ Changes [.hold, .media] s t) ∧
     (s.hold ≠ 1 ∨ ¬ settled → exec .testHoldHeld s = .next s) ∧
     (o.run = some v →
       ∃ t, exec (.testRunEnd errors firstPin die) s = .next t ∧ t.observe = { o with run := none }
         ∧ (errors = 0 → t.obj 0x9050 4 = field 8 24 0xFF + field 2 14 2 + shown)
         ∧ (errors ≠ 0 → bits v 31 29 ≠ 3 → t.obj 0x9050 4
             = errors.toNat * 2 ^ 32 + field 8 24 firstPin.toNat + field 2 14 3 + shown)
         ∧ (errors ≠ 0 → bits v 31 29 = 3 → bits v 28 27 = 3 → t.obj 0x9050 4
             = errors.toNat * 2 ^ 32 + field 8 24 firstPin.toNat + field 8 16 die.toNat + field 2 14 3 + shown)
         ∧ t.obj 0x9050 5 = min (s.obj 0x9050 5 + 1) (2 ^ 32 - 1)
         ∧ OnlyObjs [(0x9050, 4), (0x9050, 5)] s t ∧ Changes [.dict, .observe] s t) ∧
     (o.run = none → exec (.testRunEnd errors firstPin die) s = .next s))

/-- The sideband: the pointer is set and read through, up to 31 bytes at a time, every read with its PEC byte (the model's, log
105), and a write whose PEC fails is discarded; a WRITE joins the acceptance order and leaves its status; the alert response releases ALERT#; a timeout puts the pointer back to 0x1000:01. Without AUX3V3
nothing answers (14 R366 to R369). -/
def Obligations.SidebandAnswers : Prop :=
  ∀ (s : State) (idx : BitVec 16) (sub off b : Byte) (value : Bytes) (x : Port) (o : ObjDef) (e : Byte),
    let d := s.dict
    let at' := d.smIdx.toNat
    let image := (s.image o at' d.smSub.toNat).drop d.smOff.toNat
    let addr := 0x60 + s.power.ids.toNat
    let sealed := fun (code : Byte) (count bs : Bytes) =>
      bs ++ [smPec ([BitVec.ofNat 8 (2 * addr), code, BitVec.ofNat 8 (2 * addr + 1)] ++ count ++ bs)]
    let counted := fun (bs : Bytes) => sealed 0x11 [BitVec.ofNat 8 bs.length] bs
    (s.power.aux = true →
      exec (.smbusPointer idx sub ⟨off, false⟩) s = .next s ∧
      (exec (.smbusPointer idx sub ⟨off, true⟩) s = .next { s with dict := { d with smIdx := idx, smSub := sub, smOff := off } }) ∧
      (s.sideObj at' d.smSub.toNat false = .ok o →
        ∃ t, exec .smbusRead s = .next t ∧ t.dict.smOut = counted (0 :: image.take 31)
          ∧ t.dict.smOff = d.smOff + BitVec.ofNat 8 (min 31 image.length)
          ∧ t.dict = { d with smOut := t.dict.smOut, smOff := t.dict.smOff } ∧ Changes [.dict, .free] s t) ∧
      (s.sideObj at' d.smSub.toNat false = .error e →
        exec .smbusRead s = .next { s with dict := { d with smOut := counted [e] } }) ∧
      (exec .smbusLastStatus s = .next { s with dict := { d with smOut := sealed 0x13 [] [d.smStatus] } }) ∧
      (s.power.alert = true → exec .alertResponse s = .next { s with
        dict := { d with smOut := [BitVec.ofNat 8 (2 * addr), smPec [0x19, BitVec.ofNat 8 (2 * addr)]] }, power := { s.power with alert := false } }) ∧
      (exec .smbusTimeout s = .next { s with
        dict := { d with smIdx := 0x1000, smSub := 1, smOff := 0 }, power := { s.power with alert := false } }) ∧
      (1 ≤ value.length → value.length ≤ 29 →
        (s.sideObj idx.toNat sub.toNat true = .error e →
          exec (.smbusWrite idx sub value true) s = .next { s with dict := { d with smStatus := e } }) ∧
        (s.sideObj idx.toNat sub.toNat true = .ok o → s.checkWrite none idx.toNat sub.toNat value ≠ 0x0000 →
          ∃ t, exec (.smbusWrite idx sub value true) s = .next t ∧ t.dict = { d with smStatus := t.dict.smStatus }
            ∧ t.dict.smStatus ≠ 0 ∧ Changes [.dict] s t)) ∧
      (s.sideObj (0x1110 + x.val) 6 true = .ok o → s.checkWrite none (0x1110 + x.val) 6 [b] = 0x0000 →
        ∃ t, exec (.smbusWrite (BitVec.ofNat 16 (0x1110 + x.val)) 6 [b] true) s = .next t ∧ t.dict.smStatus = 0
          ∧ t.obj (0x1110 + x.val) 6 = b.toNat ∧ t.gov (0x1110 + x.val) 6 = s.gov (0x1110 + x.val) 6
          ∧ t.port x.val = s.port x.val ∧ Changes [.dict] s t) ∧
      (value.length = 0 ∨ 29 < value.length → exec (.smbusWrite idx sub value true) s = .next s) ∧
      exec (.smbusWrite idx sub value false) s = .next s) ∧
    (s.power.alert = false → exec .alertResponse s = .next s) ∧
    (s.power.aux = false → ∀ g, exec (.smbusPointer idx sub ⟨off, g⟩) s = .next s ∧ exec .smbusRead s = .next s
      ∧ exec .smbusLastStatus s = .next s ∧ exec .alertResponse s = .next s ∧ exec .smbusTimeout s = .next s
      ∧ exec (.smbusWrite idx sub value g) s = .next s)

/-! ## Completion -/

/-- Each of these commands completes with its own effect where the conditions named hold. Sequencing: a late batch
step ends, a missed deadline leads to the fallback or the end of the batch step, the watchdog fires, and WAIT, MARK
and LOOP act (02 R50, R52; 03 R74, R86 to R90). The host's side: a programmed value is stored, memory and output are
pulled, a sanitize and a context command start, an image is loaded into its shadow, a table-run command joins its
context's queue, and a write that lacks its data times out (14 R353; 15 R377, R382, R384, R387, R388, R389). The
media: a relocation takes its band, and a holder is ended (01 R38; 09 R246; 08 R223). Power and the sideband:
warnings, resets, start-up, the pointer and ALERT# (17 R417, R427 to R434; 14 R366 to R369; 18 R446). -/
def Obligations.CommandsComplete : Prop :=
  (∀ (s : State) (p : Part) (n : Queue) (i : BitVec 12) (r : Run) (e : QStep) (rest : List QStep),
     let q := s.seq p.val
     let word := stepWord r.table r.next
     let counts := fun (t : State) (sub : Nat) => t.obj (0x2020 + p.val) sub = (s.obj (0x2020 + p.val) sub + 1) % 2 ^ 64
     let clear := Nat.land (wMask word) q.completion = wMask word
     (q.run = some r → q.periodEnd ≤ s.clock.boundaryAt + s.tickUnits →
       ∃ t, exec (.tickOverrun p) s = .next t ∧ (t.seq p.val).run = none ∧ counts t 8) ∧
     (q.run = some r → r.waiting = true → r.next = i.toNat → wHasDeadline word = true → wHasFallback word = true →
       (∀ m, m < 32 → ∀ x, x ∈ q.queue m → x.index ≠ i.toNat) →
       ∃ t, exec (.flagFall p i) s = .next t ∧ counts t 7
         ∧ ∃ r', (t.seq p.val).run = some r' ∧ r'.next = wFallback word ∧ r'.waiting = false ∧ r'.fallbacks = r.fallbacks + 1) ∧
     (q.run = some r → q.queue n.val = e :: rest → e.cut = false → wHasFallback (stepWord r.table e.index) = true →
       ∃ t, exec (.stepStop p n) s = .next t ∧ counts t 7
         ∧ ∃ r', (t.seq p.val).run = some r' ∧ r'.next = wFallback (stepWord r.table e.index)) ∧
     (q.run = some r → q.queue n.val = e :: rest → e.cut = false → wHasFallback (stepWord r.table e.index) = false →
       ∃ t, exec (.stepStop p n) s = .next t ∧ counts t 8 ∧ (t.seq p.val).run = none) ∧
     (q.run = some r → 8 ≤ q.stuck → q.stepped = false →
       ∃ t, exec (.hangWatchdog p) s = .next t ∧ t.seq p.val = { q with stuck := 0 }) ∧
     (s.atStep p.val opWait = some r → wUntil word = 0 → clear →
       ∃ t, exec (.wait p) s = .next t
         ∧ t.seq p.val = { q with run := some { r with waiting := false, untilPassed := false, next := r.next + 1 }, stuck := 0, stepped := true }) ∧
     (q.run = some r → r.waiting = true → clear →
       ∃ t, exec (.waitUntil p) s = .next t
         ∧ t.seq p.val = { q with run := some { r with waiting := false, untilPassed := false, next := r.next + 1 }, stuck := 0, stepped := true }) ∧
     (s.atStep p.val opLoop = some r → r.loops.getD (wLevel word) 0 < wLoopCount word →
       ∃ t, exec (.loop p) s = .next t
         ∧ t.seq p.val = { q with run := some { r with
             loops := r.loops.set (wLevel word) (r.loops.getD (wLevel word) 0 + 1), next := wTarget word }, stuck := 0, stepped := true }) ∧
     (s.atStep p.val opMark = some r → q.unitsIdle = true → s.untraced p.val →
       (s.gov 0x9001 4 = wMarkValue word → s.observe.armed = 0) →
       ∃ t, exec (.mark p) s = .next t
         ∧ (t.ctx p.val r.ctx.val).lastMark = BitVec.ofNat 32 (wMarkValue word * 65536 + r.next))) ∧
  (∀ (s : State) (x : Port) (set : SetId) (idx : BitVec 16) (sub : Byte) (o : ObjDef) (v : Bytes) (req : Req)
      (off addr : BitVec 48) (len : BitVec 14) (m : Mem),
     let k := setKey x set
     let w := s.tset k
     let bank := fun (t : State) (kind : Kind) => (t.ctx w.partNo w.ctxNo).banks kind
     let n := len.toNat + 1
     let Loads := fun (t : State) (kind : Kind) =>
       (bank t kind).st = .loading ∧ (bank t kind).shadow = ⟨true, m, w.reg 3, w.reg 4⟩
     let gated := meets (s.part w.partNo).defn.squares s.gated = true
     (findObj idx.toNat sub.toNat = some o → o.access ≠ 3 → o.isBytes = false → idx ≠ 0x4040 → idx ≠ 0x9000 →
       s.dict.jobs = [⟨[(idx.toNat, sub.toNat, v)], none, none⟩] →
       ∃ t, exec (.persistWriteDone idx sub) s = .next t ∧ t.dict.jobs = []
         ∧ t.obj idx.toNat sub.toNat = o.valueIn v % 2 ^ objBits idx.toNat sub.toNat) ∧
     (s.Admits req true → (s.port req.port.val).Roomy → off.toNat % 64 = 0 → 64 ≤ n → n ≤ 8192 → n % 64 = 0 →
       argsLowZero req = true → (s.tset (setKey req.port set)).life = .done →
       ∃ t, exec (.dataPullOutput req set off len) s = .next t
         ∧ Replied s t req 0x31 0x0000 (requestEcho req (goField ++ regFields ++ clearField) + setArgs set.val false 0 0 false off.toNat 0 len.toNat 0 0 3 false)
             ((s.tset (setKey req.port set)).output.readBytes off.toNat
               (min n ((s.tset (setKey req.port set)).outLen - off.toNat)))) ∧
     (s.Admits req true → (s.port req.port.val).Roomy → addr.toNat % 64 = 0 → 64 ≤ n → n ≤ 8192 → n % 64 = 0 →
       argsLowZero req = true → s.portMay req.port.val addr.toNat n = true → s.errors.device ≠ 2 → s.fabric.bad = [] → s.fabric.fog = [] → s.guard.farOff = false →
       s.guard.banksOff = 0 → (∀ q, q < 8 → s.dirty q 32 = []) →
       ∃ t a, exec (.dataPullMemory req set addr len) s = .next t
         ∧ Replied s t req 0x31 0x0000 a (s.fabric.mem.readBytes addr.toNat n)) ∧
     (s.ready k 0x06 = true → s.media.sanitize = none → s.anyActive = false → (∀ j, j < 256 → (s.tset j).namesNs = false) →
       (bits (w.reg 1) 63 62 = 1 →
         ∃ t, exec (.sanitizeBlockErase x set) s = .next t ∧ t.media.sanitize = some ⟨false, some k, false, []⟩) ∧
       (bits (w.reg 1) 63 62 = 2 →
         ∃ t, exec (.sanitizeCryptoErase x set) s = .next t ∧ t.media.sanitize = some ⟨true, some k, false, []⟩)) ∧
     (s.runsCmd k 0x11 = true → s.withheld = false → w.hasBlocks w.count (w.reg 3 - w.count) = false →
       ∃ t, exec (.dataTimeout x set) s = .next t ∧ t.tset k = { w with due := some stTimeout, dueStep := 0 }) ∧
     (s.ready k 0x20 = true →
       (bits (w.reg 1) 63 62 = 1 → ∃ t, exec (.contextCreate x set) s = .next t ∧ t.tset k = { w with begun := 1 }) ∧
       (bits (w.reg 1) 63 62 = 2 → ∃ t, exec (.contextRelease x set) s = .next t ∧ t.tset k = { w with begun := 1 }) ∧
       (bits (w.reg 1) 63 62 = 3 → ∃ t, exec (.contextTeardown x set) s = .next t ∧ t.tset k = { w with begun := 1 })) ∧
     (s.readTier (w.reg 2) (w.reg 3) = .ok m →
       (s.readyLoad k 0 .table = true → ∃ t, exec (.stageModelTable x set) s = .next t ∧ Loads t .table) ∧
       (s.readyLoad k 1 .scales = true → ¬ gated → ∃ t, exec (.stageModelScales x set) s = .next t ∧ Loads t .scales) ∧
       (s.readyLoad k 2 .sft = true → ¬ gated → ∃ t, exec (.stageModelSfTables x set) s = .next t ∧ Loads t .sft) ∧
       (s.readyLoad k 4 .dist = true → ∃ t, exec (.stageModelDistance x set) s = .next t ∧ Loads t .dist)) ∧
     (s.fresh k 0x30 = true →
       ∃ t, exec (.scanCommand x set) s = .next t ∧ (t.ctx w.partNo w.ctxNo).queue = (s.ctx w.partNo w.ctxNo).queue ++ [k]) ∧
     (s.fresh k 0x31 = true →
       ∃ t, exec (.embed x set) s = .next t ∧ (t.ctx w.partNo w.ctxNo).queue = (s.ctx w.partNo w.ctxNo).queue ++ [k]) ∧
     (s.fresh k 0x32 = true →
       ∃ t, exec (.inferStep x set) s = .next t ∧ (t.ctx w.partNo w.ctxNo).queue = (s.ctx w.partNo w.ctxNo).queue ++ [k]) ∧
     (s.fresh k 0x33 = true →
       ∃ t, exec (.refitStep x set) s = .next t ∧ (t.ctx w.partNo w.ctxNo).queue = (s.ctx w.partNo w.ctxNo).queue ++ [k])) ∧
  (∀ (s : State) (b : Band) (block sets key : Nat) (x : Port) (set : SetId),
     let w := s.tset (setKey x set)
     let Takes := fun (t : State) => (∀ y, y ∈ t.media.bands → y.number = b.number → y.life = .victim)
       ∧ ∀ k, k ∈ b.blocks → ∃ e, e ∈ t.media.evac ∧ e.block = k
     (s.relocates = true → s.media.verifyFirst = false → s.media.freeBlocks < 4 * s.freeFloor →
       leastBand (fun b => ((s.currentIn (fun k => decide (k ∈ b.blocks))).length, 1))
         (s.media.collectable.filter (fun b => !s.seen (fun k => decide (k ∈ b.blocks)))) = some b →
       ∃ t, exec .garbageCollection s = .next t ∧ Takes t) ∧
     (s.relocates = true → s.gov 0x4080 3 ≤ s.media.reads.get 0 block →
       s.media.takable.find? (fun b => decide (block ∈ b.blocks)) = some b →
       ∃ t, exec (.readDisturbRelocation block) s = .next t ∧ Takes t) ∧
     (s.relocates = true → 3 ≤ sets → b.sampleDue s.clock.now = true →
       s.media.takable.find? (fun y => decide (y.number = b.number)) = some b →
       ∃ t, exec (.retentionRefresh b.number sets) s = .next t ∧ Takes t) ∧
     (s.relocates = true → s.media.peSum + s.gov 0x4080 4 * s.media.peBlocks < s.media.peMax * s.media.peBlocks →
       leastBand (fun b => ((b.blocks.map (fun k => s.media.pe.get 0 k)).foldl (· + ·) 0, max 1 b.blocks.length))
         s.media.takable = some b →
       ∃ t, exec .wearLevelling s = .next t ∧ Takes t) ∧
     (s.media.presses (s.obj 0x4060 0x0B) = true → (∀ e, s.media.lastExpiry = some e → e + s.gov 0x4060 0x0C ≤ s.tick + 1) →
       s.firstHolder = some key →
       ∃ t, exec .snapshotExpiry s = .next t ∧ (t.tset key).due = some 0x0302 ∧ t.media.lastExpiry = some (s.tick + 1)) ∧
     (w.holds = true → w.due = none → w.stamp.toNat + s.gov 0x4020 1 ≤ s.tick →
       (∃ j n lba v, j ∈ s.media.secure ∧ w.stamp.toNat < j.epoch ∧ s.holdsSpace (setKey x set) j.ns = true
         ∧ (j.ns, n) ∈ s.media.spaces ∧ lba ∈ n.blocks ∧ v ∈ lba.2 ∧ v.unit ∈ j.units ∧ v.epoch ≤ w.stamp.toNat) →
       ∃ t, exec (.holdLimitExpiry x set) s = .next t ∧ (t.tset (setKey x set)).due = some 0x0302)) ∧
  (∀ (s : State) (idx : BitVec 16) (sub off : Byte) (slotId : BitVec 3) (y : Port) (a : Nat),
     let v := s.power
     let d := s.dict
     let addr := 0x60 + v.ids.toNat
     let warns := v.railsUp = true ∧ v.warned = false ∧ v.state ≤ 4 ∧ v.stage = 6
     let Stops := fun (t : State) => t.power.warned = true ∧ t.power.flushed = false ∧ ∀ p, p < 8 → (t.seq p).run = none
     (∀ l r, s.security.arms = l ++ (3, y, a) :: r → (∀ b, b ∈ l → b.1 ≠ 3) →
       exec .lcArmLapse s = .next { s with security := { s.security with arms := l ++ r } }) ∧
     (v.aux = true →
       (exec (.smbusPointer idx sub ⟨off, true⟩) s = .next { s with dict := { d with smIdx := idx, smSub := sub, smOff := off } }) ∧
       (exec .smbusLastStatus s = .next { s with dict := { d with smOut := [d.smStatus, smPec [BitVec.ofNat 8 (2 * addr), 0x13,
         BitVec.ofNat 8 (2 * addr + 1), d.smStatus]] } }) ∧
       (v.alert = true → exec .alertResponse s = .next { s with
         dict := { d with smOut := [BitVec.ofNat 8 (2 * addr), smPec [0x19, BitVec.ofNat 8 (2 * addr)]] }, power := { v with alert := false } }) ∧
       (exec .smbusTimeout s = .next { s with
         dict := { d with smIdx := 0x1000, smSub := 1, smOff := 0 }, power := { v with alert := false } }) ∧
       (v.tripped = false → ∃ t, exec .resetAssert s = .next t ∧ t.power.resetLow = true ∧ t.power.source = 2 ∧ t.clock.running = false) ∧
       (v.tripped = false → ∃ t, exec .mgmtWatchdog s = .next t ∧ t.power.source = 6 ∧ t.clock.running = false) ∧
       (∃ t, exec .aux3v3Loss s = .next t ∧ t.power.aux = false ∧ t.power.stage = 0 ∧ t.clock.running = false)) ∧
     (v.aux = false →
       ∃ t, exec (.auxPowerOn slotId) s = .next t ∧ t.power.aux = true ∧ t.power.ids = slotId ∧ t.power.source = 1) ∧
     (v.warned = true →
       ∃ t, exec .bankExhausted s = .next t ∧ t.power.state = 5 ∧ t.power.source = (if v.absent then 7 else 4)) ∧
     (warns → ∃ t, exec .pwrfailAssert s = .next t ∧ t.power.failLow = true ∧ Stops t) ∧
     (warns → ∃ t, exec .presentRemoved s = .next t ∧ t.power.absent = true ∧ Stops t) ∧
     (warns → ∃ t, exec .inputOutOfRange s = .next t ∧ t.power.badInput = true ∧ Stops t) ∧
     (v.stage = 2 → exec .railsInRegulation s = .next { s with power := { v with railsUp := true, stage := 3 } }) ∧
     (v.stage = 3 → s.security.state ≠ 3 ∨ s.obj 0xA000 6 ≠ 0 →
       exec .stackTrainingDone s = .next { s with power := { v with trained := true, stage := 4 } }) ∧
     (v.nearZero = true → s.guard.nearOff = false →
       exec .mapRebuildDone s = .next { s with power := { v with mapUp := true } }))
end

