-- ==== Sys2Proof/Laws/Tab.lean ====
section
/-! SUPPORT. What the operations on sparse tables and sparse memories do: a read after a write, and that every memory
operation keeps the canonical form. -/

namespace Sys2Proof.Machine

variable {α : Type}

/-! ## Tables -/

@[simp] theorem Tab.get_nil (d : α) (k : Nat) : Tab.get ([] : Tab α) d k = d := rfl

theorem Tab.get_set (t : Tab α) (d v : α) (k j : Nat) :
    (t.set k v).get d j = if j = k then v else t.get d j := by
  induction t with
  | nil => 
    by_cases h : j = k
    · simp [Tab.set, Tab.get, h]
    · simp [Tab.set, Tab.get, h, Ne.symm h]
  | cons e t ih =>
    obtain ⟨i, w⟩ := e
    simp only [Tab.set]
    by_cases hik : i = k
    · subst hik
      by_cases h : j = i
      · simp [Tab.get, h]
      · simp [Tab.get, h, Ne.symm h]
    · rw [if_neg hik]
      by_cases h : j = k
      · subst h
        split
        · simp [Tab.get]
        · simp [Tab.get, ih, hik]
      · split
        · simp [Tab.get, h, Ne.symm h]
        · simp [Tab.get, ih, h]

@[simp] theorem Tab.get_set_same (t : Tab α) (d v : α) (k : Nat) : (t.set k v).get d k = v := by
  simp [Tab.get_set]

theorem Tab.get_set_other (t : Tab α) (d v : α) {k j : Nat} (h : j ≠ k) : (t.set k v).get d j = t.get d j := by
  simp [Tab.get_set, h]

theorem Tab.get_upd (t : Tab α) (d : α) (k j : Nat) (f : α → α) :
    (t.upd d k f).get d j = if j = k then f (t.get d k) else t.get d j := by
  simp [Tab.upd, Tab.get_set]

theorem Tab.has_set (t : Tab α) (k j : Nat) (v : α) : (t.set k v).has j = (decide (j = k) || t.has j) := by
  induction t with
  | nil =>
    by_cases h : j = k
    · simp [Tab.set, Tab.has, h]
    · simp [Tab.set, Tab.has, h, Ne.symm h]
  | cons e t ih =>
    obtain ⟨i, w⟩ := e
    simp only [Tab.set]
    by_cases hik : i = k
    · subst hik
      by_cases h : j = i
      · simp [Tab.has, h]
      · simp [Tab.has, h, Ne.symm h]
    · rw [if_neg hik]
      by_cases h : j = k
      · subst h
        split
        · simp [Tab.has]
        · simp [Tab.has, ih]
      · split
        · simp [Tab.has, h, Ne.symm h]
        · simp [Tab.has, ih, h]

theorem Tab.get_erase (t : Tab α) (d : α) (k j : Nat) :
    (t.erase k).get d j = if j = k then d else t.get d j := by
  induction t with
  | nil => simp [Tab.erase, Tab.get]
  | cons e t ih =>
    obtain ⟨i, w⟩ := e
    rw [Tab.erase] at ih ⊢
    by_cases hk : i = k
    · subst hk
      simp only [List.filter, ne_eq, not_true, decide_false, ih, Tab.get]
      by_cases h : j = i
      · simp [h]
      · simp [h, Ne.symm h]
    · simp only [List.filter, ne_eq, hk, not_false_eq_true, decide_true, Tab.get, ih]
      split <;> simp_all

theorem Tab.get_mapVals (t : Tab α) (d : α) (f : Nat → α → α) (k : Nat) :
    (t.mapVals f).get d k = if t.has k then f k (t.get d k) else d := by
  induction t with
  | nil => simp [Tab.mapVals, Tab.get, Tab.has]
  | cons e t ih =>
    obtain ⟨i, w⟩ := e
    simp only [Tab.mapVals, List.map, Tab.get, Tab.has] at ih ⊢
    by_cases hk : i = k
    · simp [hk]
    · simp [hk, ih]

/-! ## Memories -/

theorem Mem.wfFrom_filter (m : Mem) (f : Host.Cell → Bool) :
    ∀ lo, Mem.wfFrom lo m = true → Mem.wfFrom lo (m.filter f) = true := by
  have weaken : ∀ (m : Mem) (lo : Option Nat) (l : Nat), (∀ l', lo = some l' → l' ≤ l) →
      Mem.wfFrom (some l) m = true → Mem.wfFrom lo m = true := by
    intro m lo l hl hm
    cases m with
    | nil => rfl
    | cons e m =>
      obtain ⟨i, w⟩ := e
      simp only [Mem.wfFrom, Bool.and_eq_true, decide_eq_true_eq] at hm ⊢
      refine ⟨⟨?_, hm.1.2⟩, hm.2⟩
      cases lo with
      | none => rfl
      | some l' => have := hl l' rfl; simp; omega
  induction m with
  | nil => intros; rfl
  | cons e m ih =>
    obtain ⟨i, w⟩ := e
    intro lo hw
    simp only [Mem.wfFrom, Bool.and_eq_true] at hw
    rw [List.filter]
    split
    · simp only [Mem.wfFrom, Bool.and_eq_true]; exact ⟨hw.1, ih _ hw.2⟩
    · refine weaken _ lo i ?_ (ih _ hw.2)
      intro l' hl'
      subst hl'
      have := hw.1.1
      simp at this
      omega

theorem Mem.read_drop (m : Mem) (a b : Nat) :
    Mem.read (m.filter (fun c => decide (c.1 ≠ a))) b = if b = a then 0 else m.read b := by
  induction m with
  | nil => simp [Mem.read]
  | cons c m ih =>
    obtain ⟨j, v⟩ := c
    by_cases h : j = a
    · rw [List.filter_cons_of_neg (by simpa using h), ih]
      subst h
      by_cases hb : b = j
      · simp [hb]
      · simp [Mem.read, hb, Ne.symm hb]
    · rw [List.filter_cons_of_pos (by simpa using h)]
      simp only [Mem.read, ih]
      by_cases hb : b = a
      · subst hb; simp [h]
      · simp [hb]

theorem Mem.read_put (m : Mem) (a b : Nat) (v : Byte) :
    (m.put a v).read b = if b = a then v else m.read b := by
  induction m with
  | nil =>
    by_cases hb : b = a
    · simp [Mem.put, Mem.read, hb]
    · simp [Mem.put, Mem.read, hb, Ne.symm hb]
  | cons e m ih =>
    obtain ⟨i, w⟩ := e
    simp only [Mem.put]
    split
    · rename_i hia
      subst hia
      by_cases hb : b = i
      · simp [Mem.read, hb]
      · simp [Mem.read, hb, Ne.symm hb]
    · split
      · by_cases hb : b = a
        · simp [Mem.read, hb]
        · simp [Mem.read, hb, Ne.symm hb]
      · rename_i hia hlt
        simp only [Mem.read, ih]
        split
        · rename_i hib; subst hib; simp [hia]
        · rfl

/-- A read after a store of one byte. -/
theorem Mem.read_write (m : Mem) (a b : Nat) (v : Byte) :
    (m.write a v).read b = if b = a then v else m.read b := by
  unfold Mem.write
  split
  · rename_i hv
    rw [Mem.read_drop, hv]
  · exact Mem.read_put m a b v

theorem Mem.wfFrom_put (m : Mem) (a : Nat) (v : Byte) (hv : v ≠ 0) :
    ∀ lo, (∀ l, lo = some l → l < a) → Mem.wfFrom lo m = true → Mem.wfFrom lo (m.put a v) = true := by
  induction m with
  | nil =>
    intro lo hlo _
    cases lo with
    | none => simpa [Mem.put, Mem.wfFrom] using hv
    | some l => simpa [Mem.put, Mem.wfFrom, hlo l rfl] using hv
  | cons e m ih =>
    obtain ⟨i, w⟩ := e
    intro lo hlo hw
    simp only [Mem.wfFrom, Bool.and_eq_true] at hw
    simp only [Mem.put]
    split
    · rename_i hia
      subst hia
      simp only [Mem.wfFrom, Bool.and_eq_true]
      exact ⟨⟨hw.1.1, by simpa using hv⟩, hw.2⟩
    · split
      · rename_i hia hlt
        simp only [Mem.wfFrom, Bool.and_eq_true, decide_eq_true_eq]
        refine ⟨⟨?_, hv⟩, ⟨by simpa using hlt, by simpa using hw.1.2⟩, hw.2⟩
        cases lo with
        | none => rfl
        | some l => simpa using hlo l rfl
      · rename_i hia hlt
        simp only [Mem.wfFrom, Bool.and_eq_true]
        refine ⟨hw.1, ih (some i) ?_ hw.2⟩
        intro l hl
        cases hl
        omega

/-- Storing a byte keeps the canonical form. -/
theorem Mem.wf_write (m : Mem) (a : Nat) (v : Byte) (h : m.wf) : (m.write a v).wf := by
  unfold Mem.write
  split
  · exact Mem.wfFrom_filter m _ none h
  · rename_i hv
    exact Mem.wfFrom_put m a v hv none (by simp) h

/-- Storing bytes keeps the canonical form. -/
theorem Mem.wf_writeBytes (m : Mem) (a : Nat) (bs : Bytes) (h : m.wf) : (m.writeBytes a bs).wf := by
  induction bs generalizing m a with
  | nil => exact h
  | cons b bs ih => exact ih _ _ (m.wf_write a b h)

/-- A read after a store of bytes. -/
theorem Mem.read_writeBytes (m : Mem) (a b : Nat) (bs : Bytes) :
    (m.writeBytes a bs).read b = if a ≤ b then (bs[b - a]?).getD (m.read b) else m.read b := by
  induction bs generalizing m a with
  | nil => simp [Mem.writeBytes]
  | cons x xs ih =>
    simp only [Mem.writeBytes]
    rw [ih, Mem.read_write]
    by_cases hb : b = a
    · subst hb; simp
    · by_cases hab : a ≤ b
      · have h1 : a + 1 ≤ b := by omega
        have h2 : b - a = (b - (a + 1)) + 1 := by omega
        simp [h1, hab, hb, h2]
      · simp [hab, hb, show ¬ a + 1 ≤ b by omega]

theorem Mem.read_writeBytes_outside (m : Mem) (a b : Nat) (bs : Bytes) (hb : b < a ∨ a + bs.length ≤ b) :
    (m.writeBytes a bs).read b = m.read b := by
  rw [Mem.read_writeBytes]
  split
  · have : bs[b - a]? = none := by rw [List.getElem?_eq_none_iff]; omega
    simp [this]
  · rfl

/-- Zeroing a span keeps the canonical form. -/
theorem Mem.wf_clear (m : Mem) (a n : Nat) (h : m.wf) : (m.clear a n).wf := Mem.wfFrom_filter m _ none h

theorem Mem.read_clear (m : Mem) (a n b : Nat) :
    (m.clear a n).read b = if a ≤ b ∧ b < a + n then 0 else m.read b := by
  induction m with
  | nil => simp [Mem.clear, Mem.read]
  | cons e m ih =>
    obtain ⟨i, w⟩ := e
    rw [Mem.clear] at ih ⊢
    rw [List.filter]
    by_cases hi : a ≤ i ∧ i < a + n
    · have : (!(decide (a ≤ i) && decide (i < a + n))) = false := by simp [hi]
      rw [this]
      simp only [ih, Mem.read]
      by_cases hb : i = b
      · subst hb; simp [hi]
      · simp [hb]
    · have : (!(decide (a ≤ i) && decide (i < a + n))) = true := by simp; omega
      rw [this]
      simp only [Mem.read, ih]
      by_cases hb : i = b
      · subst hb; simp [hi]
      · simp [hb]

/-- Copying a memory into a span keeps the canonical form. -/
theorem Mem.wf_blit (m : Mem) (a n : Nat) (src : Mem) (h : m.wf) : (m.blit a n src).wf := by
  rw [Mem.blit]
  generalize src.filter _ = l
  induction l with
  | nil => exact m.wf_clear a n h
  | cons e l ih => exact Mem.wf_write _ _ _ ih

/-! ## Slices and copies -/

/-- Is an address listed? -/
def Mem.lists (m : Mem) (a : Nat) : Bool := m.any (fun c => decide (c.1 = a))

theorem Mem.read_unlisted {m : Mem} {a : Nat} (h : m.lists a = false) : m.read a = 0 := by
  induction m with
  | nil => rfl
  | cons c m ih =>
    obtain ⟨j, v⟩ := c
    simp only [Mem.lists, List.any_cons, Bool.or_eq_false_iff, decide_eq_false_iff_not] at h
    simp only [Mem.read, h.1, if_false]
    exact ih h.2

/-- Copying listed bytes, the first of an address last. -/
theorem Mem.read_copy (a b : Nat) (l acc : Mem) :
    (l.foldr (fun c acc => Mem.write acc (a + c.1) c.2) acc).read b =
      if a ≤ b ∧ l.lists (b - a) = true then l.read (b - a) else acc.read b := by
  induction l with
  | nil => simp [Mem.lists]
  | cons c l ih =>
    obtain ⟨j, v⟩ := c
    rw [List.foldr_cons, Mem.read_write, ih]
    by_cases hb : a ≤ b
    · by_cases hj : b - a = j
      · have hl : Mem.lists ((j, v) :: l) (b - a) = true := by simp [Mem.lists, hj]
        rw [if_pos (by simp only; omega), if_pos ⟨hb, hl⟩]
        simp [Mem.read, hj]
      · have hl : Mem.lists ((j, v) :: l) (b - a) = Mem.lists l (b - a) := by simp [Mem.lists, Ne.symm hj]
        have hr : Mem.read ((j, v) :: l) (b - a) = Mem.read l (b - a) := by simp [Mem.read, Ne.symm hj]
        rw [if_neg (by simp only; omega), hl, hr]
    · rw [if_neg (by simp only; omega), if_neg (by omega), if_neg (by omega)]

theorem Mem.lists_filter (m : Mem) (n a : Nat) :
    Mem.lists (m.filter (fun c => decide (c.1 < n))) a = (Mem.lists m a && decide (a < n)) := by
  induction m with
  | nil => rfl
  | cons c m ih =>
    obtain ⟨j, v⟩ := c
    by_cases h : j < n
    · rw [List.filter_cons_of_pos (by simpa using h)]
      simp only [Mem.lists, List.any_cons] at ih ⊢
      rw [ih]
      by_cases hj : j = a
      · subst hj; simp [h]
      · simp [hj]
    · rw [List.filter_cons_of_neg (by simpa using h), ih]
      simp only [Mem.lists, List.any_cons]
      by_cases hj : j = a
      · subst hj; simp [h]
      · simp [hj]

theorem Mem.read_filter (m : Mem) (n a : Nat) (h : a < n) :
    Mem.read (m.filter (fun c => decide (c.1 < n))) a = m.read a := by
  induction m with
  | nil => rfl
  | cons c m ih =>
    obtain ⟨j, v⟩ := c
    by_cases hj : j < n
    · rw [List.filter_cons_of_pos (by simpa using hj)]
      simp only [Mem.read, ih]
    · rw [List.filter_cons_of_neg (by simpa using hj), ih]
      have : j ≠ a := by omega
      simp [Mem.read, this]

/-- What a copy leaves: the first `n` bytes of the source from `a` on, everything else as it was. -/
theorem Mem.read_blit (m : Mem) (a n : Nat) (src : Mem) (b : Nat) :
    (m.blit a n src).read b = if a ≤ b ∧ b < a + n then src.read (b - a) else m.read b := by
  rw [Mem.blit, Mem.read_copy, Mem.lists_filter, Mem.read_clear]
  by_cases hb : a ≤ b
  · by_cases hn : b < a + n
    · have hn' : b - a < n := by omega
      by_cases hl : src.lists (b - a) = true
      · rw [if_pos (by simp [hb, hl, hn']), if_pos ⟨hb, hn⟩, Mem.read_filter _ _ _ hn']
      · rw [if_neg (by simp [hl]), if_pos ⟨hb, hn⟩, if_pos ⟨hb, hn⟩]
        exact (Mem.read_unlisted (by simpa using hl)).symm
    · have hn' : ¬ b - a < n := by omega
      rw [if_neg (by simp [hn']), if_neg (by omega), if_neg (by omega)]
  · rw [if_neg (by omega), if_neg (by omega), if_neg (by omega)]

/-- A slice read from 0 is the span it was cut from. -/
theorem Mem.read_slice (m : Mem) (a n b : Nat) : (m.slice a n).read b = if b < n then m.read (a + b) else 0 := by
  induction m with
  | nil => simp [Mem.slice, Mem.read]
  | cons c m ih =>
    obtain ⟨j, v⟩ := c
    unfold Mem.slice at ih ⊢
    by_cases h : a ≤ j ∧ j < a + n
    · rw [List.filter_cons_of_pos (by simpa using h), List.map_cons]
      simp only [Mem.read, ih]
      by_cases hj : j = a + b
      · rw [if_pos (by omega), if_pos (by omega), if_pos hj]
      · rw [if_neg (by omega), if_neg hj]
    · rw [List.filter_cons_of_neg (by simpa using h), ih]
      split
      · have : j ≠ a + b := by omega
        simp [Mem.read, this]
      · rfl

end Sys2Proof.Machine
end

