-- ==== Sys2Proof/Laws/State.lean ====
section
/-! SUPPORT. One lemma for each field after each update of the state, so that no proof unfolds a record update, and a
read after a write of each numbered part. -/

namespace Sys2Proof.Machine

variable (s : State)

/-! ### setPart -/

@[simp] theorem State.setPart_clock (p : Nat) (x : Partition) : (s.setPart p x).clock = s.clock := (rfl)
@[simp] theorem State.setPart_fabric (p : Nat) (x : Partition) : (s.setPart p x).fabric = s.fabric := (rfl)
@[simp] theorem State.setPart_dict (p : Nat) (x : Partition) : (s.setPart p x).dict = s.dict := (rfl)
@[simp] theorem State.setPart_parts (p : Nat) (x : Partition) : (s.setPart p x).parts = s.parts.set p x := (rfl)
@[simp] theorem State.setPart_ctxs (p : Nat) (x : Partition) : (s.setPart p x).ctxs = s.ctxs := (rfl)
@[simp] theorem State.setPart_seqs (p : Nat) (x : Partition) : (s.setPart p x).seqs = s.seqs := (rfl)
@[simp] theorem State.setPart_vtimes (p : Nat) (x : Partition) : (s.setPart p x).vtimes = s.vtimes := (rfl)
@[simp] theorem State.setPart_sets (p : Nat) (x : Partition) : (s.setPart p x).sets = s.sets := (rfl)
@[simp] theorem State.setPart_ports (p : Nat) (x : Partition) : (s.setPart p x).ports = s.ports := (rfl)
@[simp] theorem State.setPart_orders (p : Nat) (x : Partition) : (s.setPart p x).orders = s.orders := (rfl)
@[simp] theorem State.setPart_stagings (p : Nat) (x : Partition) : (s.setPart p x).stagings = s.stagings := (rfl)
@[simp] theorem State.setPart_arms (p : Nat) (x : Partition) : (s.setPart p x).arms = s.arms := (rfl)
@[simp] theorem State.setPart_media (p : Nat) (x : Partition) : (s.setPart p x).media = s.media := (rfl)
@[simp] theorem State.setPart_errors (p : Nat) (x : Partition) : (s.setPart p x).errors = s.errors := (rfl)
@[simp] theorem State.setPart_guard (p : Nat) (x : Partition) : (s.setPart p x).guard = s.guard := (rfl)
@[simp] theorem State.setPart_power (p : Nat) (x : Partition) : (s.setPart p x).power = s.power := (rfl)
@[simp] theorem State.setPart_security (p : Nat) (x : Partition) : (s.setPart p x).security = s.security := (rfl)
@[simp] theorem State.setPart_observe (p : Nat) (x : Partition) : (s.setPart p x).observe = s.observe := (rfl)
@[simp] theorem State.setPart_hold (p : Nat) (x : Partition) : (s.setPart p x).hold = s.hold := (rfl)
@[simp] theorem State.setPart_free (p : Nat) (x : Partition) : (s.setPart p x).free = s.free := (rfl)
@[simp] theorem State.setPart_pending (p : Nat) (x : Partition) : (s.setPart p x).pending = s.pending := (rfl)

/-! ### setCtx -/

@[simp] theorem State.setCtx_clock (p n : Nat) (x : Context) : (s.setCtx p n x).clock = s.clock := (rfl)
@[simp] theorem State.setCtx_fabric (p n : Nat) (x : Context) : (s.setCtx p n x).fabric = s.fabric := (rfl)
@[simp] theorem State.setCtx_dict (p n : Nat) (x : Context) : (s.setCtx p n x).dict = s.dict := (rfl)
@[simp] theorem State.setCtx_parts (p n : Nat) (x : Context) : (s.setCtx p n x).parts = s.parts := (rfl)
@[simp] theorem State.setCtx_ctxs (p n : Nat) (x : Context) : (s.setCtx p n x).ctxs = s.ctxs.set (p * 16 + n) x := (rfl)
@[simp] theorem State.setCtx_seqs (p n : Nat) (x : Context) : (s.setCtx p n x).seqs = s.seqs := (rfl)
@[simp] theorem State.setCtx_vtimes (p n : Nat) (x : Context) : (s.setCtx p n x).vtimes = s.vtimes := (rfl)
@[simp] theorem State.setCtx_sets (p n : Nat) (x : Context) : (s.setCtx p n x).sets = s.sets := (rfl)
@[simp] theorem State.setCtx_ports (p n : Nat) (x : Context) : (s.setCtx p n x).ports = s.ports := (rfl)
@[simp] theorem State.setCtx_orders (p n : Nat) (x : Context) : (s.setCtx p n x).orders = s.orders := (rfl)
@[simp] theorem State.setCtx_stagings (p n : Nat) (x : Context) : (s.setCtx p n x).stagings = s.stagings := (rfl)
@[simp] theorem State.setCtx_arms (p n : Nat) (x : Context) : (s.setCtx p n x).arms = s.arms := (rfl)
@[simp] theorem State.setCtx_media (p n : Nat) (x : Context) : (s.setCtx p n x).media = s.media := (rfl)
@[simp] theorem State.setCtx_errors (p n : Nat) (x : Context) : (s.setCtx p n x).errors = s.errors := (rfl)
@[simp] theorem State.setCtx_guard (p n : Nat) (x : Context) : (s.setCtx p n x).guard = s.guard := (rfl)
@[simp] theorem State.setCtx_power (p n : Nat) (x : Context) : (s.setCtx p n x).power = s.power := (rfl)
@[simp] theorem State.setCtx_security (p n : Nat) (x : Context) : (s.setCtx p n x).security = s.security := (rfl)
@[simp] theorem State.setCtx_observe (p n : Nat) (x : Context) : (s.setCtx p n x).observe = s.observe := (rfl)
@[simp] theorem State.setCtx_hold (p n : Nat) (x : Context) : (s.setCtx p n x).hold = s.hold := (rfl)
@[simp] theorem State.setCtx_free (p n : Nat) (x : Context) : (s.setCtx p n x).free = s.free := (rfl)
@[simp] theorem State.setCtx_pending (p n : Nat) (x : Context) : (s.setCtx p n x).pending = s.pending := (rfl)

/-! ### setSeq -/

@[simp] theorem State.setSeq_clock (p : Nat) (x : Seq) : (s.setSeq p x).clock = s.clock := (rfl)
@[simp] theorem State.setSeq_fabric (p : Nat) (x : Seq) : (s.setSeq p x).fabric = s.fabric := (rfl)
@[simp] theorem State.setSeq_dict (p : Nat) (x : Seq) : (s.setSeq p x).dict = s.dict := (rfl)
@[simp] theorem State.setSeq_parts (p : Nat) (x : Seq) : (s.setSeq p x).parts = s.parts := (rfl)
@[simp] theorem State.setSeq_ctxs (p : Nat) (x : Seq) : (s.setSeq p x).ctxs = s.ctxs := (rfl)
@[simp] theorem State.setSeq_seqs (p : Nat) (x : Seq) : (s.setSeq p x).seqs = s.seqs.set p x := (rfl)
@[simp] theorem State.setSeq_vtimes (p : Nat) (x : Seq) : (s.setSeq p x).vtimes = s.vtimes := (rfl)
@[simp] theorem State.setSeq_sets (p : Nat) (x : Seq) : (s.setSeq p x).sets = s.sets := (rfl)
@[simp] theorem State.setSeq_ports (p : Nat) (x : Seq) : (s.setSeq p x).ports = s.ports := (rfl)
@[simp] theorem State.setSeq_orders (p : Nat) (x : Seq) : (s.setSeq p x).orders = s.orders := (rfl)
@[simp] theorem State.setSeq_stagings (p : Nat) (x : Seq) : (s.setSeq p x).stagings = s.stagings := (rfl)
@[simp] theorem State.setSeq_arms (p : Nat) (x : Seq) : (s.setSeq p x).arms = s.arms := (rfl)
@[simp] theorem State.setSeq_media (p : Nat) (x : Seq) : (s.setSeq p x).media = s.media := (rfl)
@[simp] theorem State.setSeq_errors (p : Nat) (x : Seq) : (s.setSeq p x).errors = s.errors := (rfl)
@[simp] theorem State.setSeq_guard (p : Nat) (x : Seq) : (s.setSeq p x).guard = s.guard := (rfl)
@[simp] theorem State.setSeq_power (p : Nat) (x : Seq) : (s.setSeq p x).power = s.power := (rfl)
@[simp] theorem State.setSeq_security (p : Nat) (x : Seq) : (s.setSeq p x).security = s.security := (rfl)
@[simp] theorem State.setSeq_observe (p : Nat) (x : Seq) : (s.setSeq p x).observe = s.observe := (rfl)
@[simp] theorem State.setSeq_hold (p : Nat) (x : Seq) : (s.setSeq p x).hold = s.hold := (rfl)
@[simp] theorem State.setSeq_free (p : Nat) (x : Seq) : (s.setSeq p x).free = s.free := (rfl)
@[simp] theorem State.setSeq_pending (p : Nat) (x : Seq) : (s.setSeq p x).pending = s.pending := (rfl)

/-! ### setPort -/

@[simp] theorem State.setPort_clock (x : Nat) (v : PortSt) : (s.setPort x v).clock = s.clock := (rfl)
@[simp] theorem State.setPort_fabric (x : Nat) (v : PortSt) : (s.setPort x v).fabric = s.fabric := (rfl)
@[simp] theorem State.setPort_dict (x : Nat) (v : PortSt) : (s.setPort x v).dict = s.dict := (rfl)
@[simp] theorem State.setPort_parts (x : Nat) (v : PortSt) : (s.setPort x v).parts = s.parts := (rfl)
@[simp] theorem State.setPort_ctxs (x : Nat) (v : PortSt) : (s.setPort x v).ctxs = s.ctxs := (rfl)
@[simp] theorem State.setPort_seqs (x : Nat) (v : PortSt) : (s.setPort x v).seqs = s.seqs := (rfl)
@[simp] theorem State.setPort_vtimes (x : Nat) (v : PortSt) : (s.setPort x v).vtimes = s.vtimes := (rfl)
@[simp] theorem State.setPort_sets (x : Nat) (v : PortSt) : (s.setPort x v).sets = s.sets := (rfl)
@[simp] theorem State.setPort_ports (x : Nat) (v : PortSt) : (s.setPort x v).ports = s.ports.set x v := (rfl)
@[simp] theorem State.setPort_orders (x : Nat) (v : PortSt) : (s.setPort x v).orders = s.orders := (rfl)
@[simp] theorem State.setPort_stagings (x : Nat) (v : PortSt) : (s.setPort x v).stagings = s.stagings := (rfl)
@[simp] theorem State.setPort_arms (x : Nat) (v : PortSt) : (s.setPort x v).arms = s.arms := (rfl)
@[simp] theorem State.setPort_media (x : Nat) (v : PortSt) : (s.setPort x v).media = s.media := (rfl)
@[simp] theorem State.setPort_errors (x : Nat) (v : PortSt) : (s.setPort x v).errors = s.errors := (rfl)
@[simp] theorem State.setPort_guard (x : Nat) (v : PortSt) : (s.setPort x v).guard = s.guard := (rfl)
@[simp] theorem State.setPort_power (x : Nat) (v : PortSt) : (s.setPort x v).power = s.power := (rfl)
@[simp] theorem State.setPort_security (x : Nat) (v : PortSt) : (s.setPort x v).security = s.security := (rfl)
@[simp] theorem State.setPort_observe (x : Nat) (v : PortSt) : (s.setPort x v).observe = s.observe := (rfl)
@[simp] theorem State.setPort_hold (x : Nat) (v : PortSt) : (s.setPort x v).hold = s.hold := (rfl)
@[simp] theorem State.setPort_free (x : Nat) (v : PortSt) : (s.setPort x v).free = s.free := (rfl)
@[simp] theorem State.setPort_pending (x : Nat) (v : PortSt) : (s.setPort x v).pending = s.pending := (rfl)

/-! ### setTset -/

@[simp] theorem State.setTset_clock (k : Nat) (v : TaskSet) : (s.setTset k v).clock = s.clock := (rfl)
@[simp] theorem State.setTset_fabric (k : Nat) (v : TaskSet) : (s.setTset k v).fabric = s.fabric := (rfl)
@[simp] theorem State.setTset_dict (k : Nat) (v : TaskSet) : (s.setTset k v).dict = s.dict := (rfl)
@[simp] theorem State.setTset_parts (k : Nat) (v : TaskSet) : (s.setTset k v).parts = s.parts := (rfl)
@[simp] theorem State.setTset_ctxs (k : Nat) (v : TaskSet) : (s.setTset k v).ctxs = s.ctxs := (rfl)
@[simp] theorem State.setTset_seqs (k : Nat) (v : TaskSet) : (s.setTset k v).seqs = s.seqs := (rfl)
@[simp] theorem State.setTset_vtimes (k : Nat) (v : TaskSet) : (s.setTset k v).vtimes = s.vtimes := (rfl)
@[simp] theorem State.setTset_sets (k : Nat) (v : TaskSet) : (s.setTset k v).sets = s.sets.set k v := (rfl)
@[simp] theorem State.setTset_ports (k : Nat) (v : TaskSet) : (s.setTset k v).ports = s.ports := (rfl)
@[simp] theorem State.setTset_orders (k : Nat) (v : TaskSet) : (s.setTset k v).orders = s.orders := (rfl)
@[simp] theorem State.setTset_stagings (k : Nat) (v : TaskSet) : (s.setTset k v).stagings = s.stagings := (rfl)
@[simp] theorem State.setTset_arms (k : Nat) (v : TaskSet) : (s.setTset k v).arms = s.arms := (rfl)
@[simp] theorem State.setTset_media (k : Nat) (v : TaskSet) : (s.setTset k v).media = s.media := (rfl)
@[simp] theorem State.setTset_errors (k : Nat) (v : TaskSet) : (s.setTset k v).errors = s.errors := (rfl)
@[simp] theorem State.setTset_guard (k : Nat) (v : TaskSet) : (s.setTset k v).guard = s.guard := (rfl)
@[simp] theorem State.setTset_power (k : Nat) (v : TaskSet) : (s.setTset k v).power = s.power := (rfl)
@[simp] theorem State.setTset_security (k : Nat) (v : TaskSet) : (s.setTset k v).security = s.security := (rfl)
@[simp] theorem State.setTset_observe (k : Nat) (v : TaskSet) : (s.setTset k v).observe = s.observe := (rfl)
@[simp] theorem State.setTset_hold (k : Nat) (v : TaskSet) : (s.setTset k v).hold = s.hold := (rfl)
@[simp] theorem State.setTset_free (k : Nat) (v : TaskSet) : (s.setTset k v).free = s.free := (rfl)
@[simp] theorem State.setTset_pending (k : Nat) (v : TaskSet) : (s.setTset k v).pending = s.pending := (rfl)

/-! ### setSpace -/

@[simp] theorem State.setSpace_clock (n : Nat) (v : Namespace) : (s.setSpace n v).clock = s.clock := (rfl)
@[simp] theorem State.setSpace_fabric (n : Nat) (v : Namespace) : (s.setSpace n v).fabric = s.fabric := (rfl)
@[simp] theorem State.setSpace_dict (n : Nat) (v : Namespace) : (s.setSpace n v).dict = s.dict := (rfl)
@[simp] theorem State.setSpace_parts (n : Nat) (v : Namespace) : (s.setSpace n v).parts = s.parts := (rfl)
@[simp] theorem State.setSpace_ctxs (n : Nat) (v : Namespace) : (s.setSpace n v).ctxs = s.ctxs := (rfl)
@[simp] theorem State.setSpace_seqs (n : Nat) (v : Namespace) : (s.setSpace n v).seqs = s.seqs := (rfl)
@[simp] theorem State.setSpace_vtimes (n : Nat) (v : Namespace) : (s.setSpace n v).vtimes = s.vtimes := (rfl)
@[simp] theorem State.setSpace_sets (n : Nat) (v : Namespace) : (s.setSpace n v).sets = s.sets := (rfl)
@[simp] theorem State.setSpace_ports (n : Nat) (v : Namespace) : (s.setSpace n v).ports = s.ports := (rfl)
@[simp] theorem State.setSpace_orders (n : Nat) (v : Namespace) : (s.setSpace n v).orders = s.orders := (rfl)
@[simp] theorem State.setSpace_stagings (n : Nat) (v : Namespace) : (s.setSpace n v).stagings = s.stagings := (rfl)
@[simp] theorem State.setSpace_arms (n : Nat) (v : Namespace) : (s.setSpace n v).arms = s.arms := (rfl)
@[simp] theorem State.setSpace_media (n : Nat) (v : Namespace) : (s.setSpace n v).media = { s.media with spaces := s.media.spaces.set n v } := (rfl)
@[simp] theorem State.setSpace_errors (n : Nat) (v : Namespace) : (s.setSpace n v).errors = s.errors := (rfl)
@[simp] theorem State.setSpace_guard (n : Nat) (v : Namespace) : (s.setSpace n v).guard = s.guard := (rfl)
@[simp] theorem State.setSpace_power (n : Nat) (v : Namespace) : (s.setSpace n v).power = s.power := (rfl)
@[simp] theorem State.setSpace_security (n : Nat) (v : Namespace) : (s.setSpace n v).security = s.security := (rfl)
@[simp] theorem State.setSpace_observe (n : Nat) (v : Namespace) : (s.setSpace n v).observe = s.observe := (rfl)
@[simp] theorem State.setSpace_hold (n : Nat) (v : Namespace) : (s.setSpace n v).hold = s.hold := (rfl)
@[simp] theorem State.setSpace_free (n : Nat) (v : Namespace) : (s.setSpace n v).free = s.free := (rfl)
@[simp] theorem State.setSpace_pending (n : Nat) (v : Namespace) : (s.setSpace n v).pending = s.pending := (rfl)

/-! ### setMedia -/

@[simp] theorem State.setMedia_clock (m : Media) : (s.setMedia m).clock = s.clock := (rfl)
@[simp] theorem State.setMedia_fabric (m : Media) : (s.setMedia m).fabric = s.fabric := (rfl)
@[simp] theorem State.setMedia_dict (m : Media) : (s.setMedia m).dict = s.dict := (rfl)
@[simp] theorem State.setMedia_parts (m : Media) : (s.setMedia m).parts = s.parts := (rfl)
@[simp] theorem State.setMedia_ctxs (m : Media) : (s.setMedia m).ctxs = s.ctxs := (rfl)
@[simp] theorem State.setMedia_seqs (m : Media) : (s.setMedia m).seqs = s.seqs := (rfl)
@[simp] theorem State.setMedia_vtimes (m : Media) : (s.setMedia m).vtimes = s.vtimes := (rfl)
@[simp] theorem State.setMedia_sets (m : Media) : (s.setMedia m).sets = s.sets := (rfl)
@[simp] theorem State.setMedia_ports (m : Media) : (s.setMedia m).ports = s.ports := (rfl)
@[simp] theorem State.setMedia_orders (m : Media) : (s.setMedia m).orders = s.orders := (rfl)
@[simp] theorem State.setMedia_stagings (m : Media) : (s.setMedia m).stagings = s.stagings := (rfl)
@[simp] theorem State.setMedia_arms (m : Media) : (s.setMedia m).arms = s.arms := (rfl)
@[simp] theorem State.setMedia_media (m : Media) : (s.setMedia m).media = m := (rfl)
@[simp] theorem State.setMedia_errors (m : Media) : (s.setMedia m).errors = s.errors := (rfl)
@[simp] theorem State.setMedia_guard (m : Media) : (s.setMedia m).guard = s.guard := (rfl)
@[simp] theorem State.setMedia_power (m : Media) : (s.setMedia m).power = s.power := (rfl)
@[simp] theorem State.setMedia_security (m : Media) : (s.setMedia m).security = s.security := (rfl)
@[simp] theorem State.setMedia_observe (m : Media) : (s.setMedia m).observe = s.observe := (rfl)
@[simp] theorem State.setMedia_hold (m : Media) : (s.setMedia m).hold = s.hold := (rfl)
@[simp] theorem State.setMedia_free (m : Media) : (s.setMedia m).free = s.free := (rfl)
@[simp] theorem State.setMedia_pending (m : Media) : (s.setMedia m).pending = s.pending := (rfl)

/-! ### setDie -/

@[simp] theorem State.setDie_clock (n : Nat) (d : Die) : (s.setDie n d).clock = s.clock := (rfl)
@[simp] theorem State.setDie_fabric (n : Nat) (d : Die) : (s.setDie n d).fabric = { s.fabric with dies := s.fabric.dies.set n d } := (rfl)
@[simp] theorem State.setDie_dict (n : Nat) (d : Die) : (s.setDie n d).dict = s.dict := (rfl)
@[simp] theorem State.setDie_parts (n : Nat) (d : Die) : (s.setDie n d).parts = s.parts := (rfl)
@[simp] theorem State.setDie_ctxs (n : Nat) (d : Die) : (s.setDie n d).ctxs = s.ctxs := (rfl)
@[simp] theorem State.setDie_seqs (n : Nat) (d : Die) : (s.setDie n d).seqs = s.seqs := (rfl)
@[simp] theorem State.setDie_vtimes (n : Nat) (d : Die) : (s.setDie n d).vtimes = s.vtimes := (rfl)
@[simp] theorem State.setDie_sets (n : Nat) (d : Die) : (s.setDie n d).sets = s.sets := (rfl)
@[simp] theorem State.setDie_ports (n : Nat) (d : Die) : (s.setDie n d).ports = s.ports := (rfl)
@[simp] theorem State.setDie_orders (n : Nat) (d : Die) : (s.setDie n d).orders = s.orders := (rfl)
@[simp] theorem State.setDie_stagings (n : Nat) (d : Die) : (s.setDie n d).stagings = s.stagings := (rfl)
@[simp] theorem State.setDie_arms (n : Nat) (d : Die) : (s.setDie n d).arms = s.arms := (rfl)
@[simp] theorem State.setDie_media (n : Nat) (d : Die) : (s.setDie n d).media = s.media := (rfl)
@[simp] theorem State.setDie_errors (n : Nat) (d : Die) : (s.setDie n d).errors = s.errors := (rfl)
@[simp] theorem State.setDie_guard (n : Nat) (d : Die) : (s.setDie n d).guard = s.guard := (rfl)
@[simp] theorem State.setDie_power (n : Nat) (d : Die) : (s.setDie n d).power = s.power := (rfl)
@[simp] theorem State.setDie_security (n : Nat) (d : Die) : (s.setDie n d).security = s.security := (rfl)
@[simp] theorem State.setDie_observe (n : Nat) (d : Die) : (s.setDie n d).observe = s.observe := (rfl)
@[simp] theorem State.setDie_hold (n : Nat) (d : Die) : (s.setDie n d).hold = s.hold := (rfl)
@[simp] theorem State.setDie_free (n : Nat) (d : Die) : (s.setDie n d).free = s.free := (rfl)
@[simp] theorem State.setDie_pending (n : Nat) (d : Die) : (s.setDie n d).pending = s.pending := (rfl)

/-! ### setClock -/

@[simp] theorem State.setClock_clock (v : Clock) : (s.setClock v).clock = v := (rfl)
@[simp] theorem State.setClock_fabric (v : Clock) : (s.setClock v).fabric = s.fabric := (rfl)
@[simp] theorem State.setClock_dict (v : Clock) : (s.setClock v).dict = s.dict := (rfl)
@[simp] theorem State.setClock_parts (v : Clock) : (s.setClock v).parts = s.parts := (rfl)
@[simp] theorem State.setClock_ctxs (v : Clock) : (s.setClock v).ctxs = s.ctxs := (rfl)
@[simp] theorem State.setClock_seqs (v : Clock) : (s.setClock v).seqs = s.seqs := (rfl)
@[simp] theorem State.setClock_vtimes (v : Clock) : (s.setClock v).vtimes = s.vtimes := (rfl)
@[simp] theorem State.setClock_sets (v : Clock) : (s.setClock v).sets = s.sets := (rfl)
@[simp] theorem State.setClock_ports (v : Clock) : (s.setClock v).ports = s.ports := (rfl)
@[simp] theorem State.setClock_orders (v : Clock) : (s.setClock v).orders = s.orders := (rfl)
@[simp] theorem State.setClock_stagings (v : Clock) : (s.setClock v).stagings = s.stagings := (rfl)
@[simp] theorem State.setClock_arms (v : Clock) : (s.setClock v).arms = s.arms := (rfl)
@[simp] theorem State.setClock_media (v : Clock) : (s.setClock v).media = s.media := (rfl)
@[simp] theorem State.setClock_errors (v : Clock) : (s.setClock v).errors = s.errors := (rfl)
@[simp] theorem State.setClock_guard (v : Clock) : (s.setClock v).guard = s.guard := (rfl)
@[simp] theorem State.setClock_power (v : Clock) : (s.setClock v).power = s.power := (rfl)
@[simp] theorem State.setClock_security (v : Clock) : (s.setClock v).security = s.security := (rfl)
@[simp] theorem State.setClock_observe (v : Clock) : (s.setClock v).observe = s.observe := (rfl)
@[simp] theorem State.setClock_hold (v : Clock) : (s.setClock v).hold = s.hold := (rfl)
@[simp] theorem State.setClock_free (v : Clock) : (s.setClock v).free = s.free := (rfl)
@[simp] theorem State.setClock_pending (v : Clock) : (s.setClock v).pending = s.pending := (rfl)

/-! ### setFabric -/

@[simp] theorem State.setFabric_clock (v : Fabric) : (s.setFabric v).clock = s.clock := (rfl)
@[simp] theorem State.setFabric_fabric (v : Fabric) : (s.setFabric v).fabric = v := (rfl)
@[simp] theorem State.setFabric_dict (v : Fabric) : (s.setFabric v).dict = s.dict := (rfl)
@[simp] theorem State.setFabric_parts (v : Fabric) : (s.setFabric v).parts = s.parts := (rfl)
@[simp] theorem State.setFabric_ctxs (v : Fabric) : (s.setFabric v).ctxs = s.ctxs := (rfl)
@[simp] theorem State.setFabric_seqs (v : Fabric) : (s.setFabric v).seqs = s.seqs := (rfl)
@[simp] theorem State.setFabric_vtimes (v : Fabric) : (s.setFabric v).vtimes = s.vtimes := (rfl)
@[simp] theorem State.setFabric_sets (v : Fabric) : (s.setFabric v).sets = s.sets := (rfl)
@[simp] theorem State.setFabric_ports (v : Fabric) : (s.setFabric v).ports = s.ports := (rfl)
@[simp] theorem State.setFabric_orders (v : Fabric) : (s.setFabric v).orders = s.orders := (rfl)
@[simp] theorem State.setFabric_stagings (v : Fabric) : (s.setFabric v).stagings = s.stagings := (rfl)
@[simp] theorem State.setFabric_arms (v : Fabric) : (s.setFabric v).arms = s.arms := (rfl)
@[simp] theorem State.setFabric_media (v : Fabric) : (s.setFabric v).media = s.media := (rfl)
@[simp] theorem State.setFabric_errors (v : Fabric) : (s.setFabric v).errors = s.errors := (rfl)
@[simp] theorem State.setFabric_guard (v : Fabric) : (s.setFabric v).guard = s.guard := (rfl)
@[simp] theorem State.setFabric_power (v : Fabric) : (s.setFabric v).power = s.power := (rfl)
@[simp] theorem State.setFabric_security (v : Fabric) : (s.setFabric v).security = s.security := (rfl)
@[simp] theorem State.setFabric_observe (v : Fabric) : (s.setFabric v).observe = s.observe := (rfl)
@[simp] theorem State.setFabric_hold (v : Fabric) : (s.setFabric v).hold = s.hold := (rfl)
@[simp] theorem State.setFabric_free (v : Fabric) : (s.setFabric v).free = s.free := (rfl)
@[simp] theorem State.setFabric_pending (v : Fabric) : (s.setFabric v).pending = s.pending := (rfl)

/-! ### setDict -/

@[simp] theorem State.setDict_clock (v : Dict) : (s.setDict v).clock = s.clock := (rfl)
@[simp] theorem State.setDict_fabric (v : Dict) : (s.setDict v).fabric = s.fabric := (rfl)
@[simp] theorem State.setDict_dict (v : Dict) : (s.setDict v).dict = v := (rfl)
@[simp] theorem State.setDict_parts (v : Dict) : (s.setDict v).parts = s.parts := (rfl)
@[simp] theorem State.setDict_ctxs (v : Dict) : (s.setDict v).ctxs = s.ctxs := (rfl)
@[simp] theorem State.setDict_seqs (v : Dict) : (s.setDict v).seqs = s.seqs := (rfl)
@[simp] theorem State.setDict_vtimes (v : Dict) : (s.setDict v).vtimes = s.vtimes := (rfl)
@[simp] theorem State.setDict_sets (v : Dict) : (s.setDict v).sets = s.sets := (rfl)
@[simp] theorem State.setDict_ports (v : Dict) : (s.setDict v).ports = s.ports := (rfl)
@[simp] theorem State.setDict_orders (v : Dict) : (s.setDict v).orders = s.orders := (rfl)
@[simp] theorem State.setDict_stagings (v : Dict) : (s.setDict v).stagings = s.stagings := (rfl)
@[simp] theorem State.setDict_arms (v : Dict) : (s.setDict v).arms = s.arms := (rfl)
@[simp] theorem State.setDict_media (v : Dict) : (s.setDict v).media = s.media := (rfl)
@[simp] theorem State.setDict_errors (v : Dict) : (s.setDict v).errors = s.errors := (rfl)
@[simp] theorem State.setDict_guard (v : Dict) : (s.setDict v).guard = s.guard := (rfl)
@[simp] theorem State.setDict_power (v : Dict) : (s.setDict v).power = s.power := (rfl)
@[simp] theorem State.setDict_security (v : Dict) : (s.setDict v).security = s.security := (rfl)
@[simp] theorem State.setDict_observe (v : Dict) : (s.setDict v).observe = s.observe := (rfl)
@[simp] theorem State.setDict_hold (v : Dict) : (s.setDict v).hold = s.hold := (rfl)
@[simp] theorem State.setDict_free (v : Dict) : (s.setDict v).free = s.free := (rfl)
@[simp] theorem State.setDict_pending (v : Dict) : (s.setDict v).pending = s.pending := (rfl)

/-! ### setVtimes -/

@[simp] theorem State.setVtimes_clock (v : Tab Nat) : (s.setVtimes v).clock = s.clock := (rfl)
@[simp] theorem State.setVtimes_fabric (v : Tab Nat) : (s.setVtimes v).fabric = s.fabric := (rfl)
@[simp] theorem State.setVtimes_dict (v : Tab Nat) : (s.setVtimes v).dict = s.dict := (rfl)
@[simp] theorem State.setVtimes_parts (v : Tab Nat) : (s.setVtimes v).parts = s.parts := (rfl)
@[simp] theorem State.setVtimes_ctxs (v : Tab Nat) : (s.setVtimes v).ctxs = s.ctxs := (rfl)
@[simp] theorem State.setVtimes_seqs (v : Tab Nat) : (s.setVtimes v).seqs = s.seqs := (rfl)
@[simp] theorem State.setVtimes_vtimes (v : Tab Nat) : (s.setVtimes v).vtimes = v := (rfl)
@[simp] theorem State.setVtimes_sets (v : Tab Nat) : (s.setVtimes v).sets = s.sets := (rfl)
@[simp] theorem State.setVtimes_ports (v : Tab Nat) : (s.setVtimes v).ports = s.ports := (rfl)
@[simp] theorem State.setVtimes_orders (v : Tab Nat) : (s.setVtimes v).orders = s.orders := (rfl)
@[simp] theorem State.setVtimes_stagings (v : Tab Nat) : (s.setVtimes v).stagings = s.stagings := (rfl)
@[simp] theorem State.setVtimes_arms (v : Tab Nat) : (s.setVtimes v).arms = s.arms := (rfl)
@[simp] theorem State.setVtimes_media (v : Tab Nat) : (s.setVtimes v).media = s.media := (rfl)
@[simp] theorem State.setVtimes_errors (v : Tab Nat) : (s.setVtimes v).errors = s.errors := (rfl)
@[simp] theorem State.setVtimes_guard (v : Tab Nat) : (s.setVtimes v).guard = s.guard := (rfl)
@[simp] theorem State.setVtimes_power (v : Tab Nat) : (s.setVtimes v).power = s.power := (rfl)
@[simp] theorem State.setVtimes_security (v : Tab Nat) : (s.setVtimes v).security = s.security := (rfl)
@[simp] theorem State.setVtimes_observe (v : Tab Nat) : (s.setVtimes v).observe = s.observe := (rfl)
@[simp] theorem State.setVtimes_hold (v : Tab Nat) : (s.setVtimes v).hold = s.hold := (rfl)
@[simp] theorem State.setVtimes_free (v : Tab Nat) : (s.setVtimes v).free = s.free := (rfl)
@[simp] theorem State.setVtimes_pending (v : Tab Nat) : (s.setVtimes v).pending = s.pending := (rfl)

/-! ### setOrders -/

@[simp] theorem State.setOrders_clock (v : Nat) : (s.setOrders v).clock = s.clock := (rfl)
@[simp] theorem State.setOrders_fabric (v : Nat) : (s.setOrders v).fabric = s.fabric := (rfl)
@[simp] theorem State.setOrders_dict (v : Nat) : (s.setOrders v).dict = s.dict := (rfl)
@[simp] theorem State.setOrders_parts (v : Nat) : (s.setOrders v).parts = s.parts := (rfl)
@[simp] theorem State.setOrders_ctxs (v : Nat) : (s.setOrders v).ctxs = s.ctxs := (rfl)
@[simp] theorem State.setOrders_seqs (v : Nat) : (s.setOrders v).seqs = s.seqs := (rfl)
@[simp] theorem State.setOrders_vtimes (v : Nat) : (s.setOrders v).vtimes = s.vtimes := (rfl)
@[simp] theorem State.setOrders_sets (v : Nat) : (s.setOrders v).sets = s.sets := (rfl)
@[simp] theorem State.setOrders_ports (v : Nat) : (s.setOrders v).ports = s.ports := (rfl)
@[simp] theorem State.setOrders_orders (v : Nat) : (s.setOrders v).orders = v := (rfl)
@[simp] theorem State.setOrders_stagings (v : Nat) : (s.setOrders v).stagings = s.stagings := (rfl)
@[simp] theorem State.setOrders_arms (v : Nat) : (s.setOrders v).arms = s.arms := (rfl)
@[simp] theorem State.setOrders_media (v : Nat) : (s.setOrders v).media = s.media := (rfl)
@[simp] theorem State.setOrders_errors (v : Nat) : (s.setOrders v).errors = s.errors := (rfl)
@[simp] theorem State.setOrders_guard (v : Nat) : (s.setOrders v).guard = s.guard := (rfl)
@[simp] theorem State.setOrders_power (v : Nat) : (s.setOrders v).power = s.power := (rfl)
@[simp] theorem State.setOrders_security (v : Nat) : (s.setOrders v).security = s.security := (rfl)
@[simp] theorem State.setOrders_observe (v : Nat) : (s.setOrders v).observe = s.observe := (rfl)
@[simp] theorem State.setOrders_hold (v : Nat) : (s.setOrders v).hold = s.hold := (rfl)
@[simp] theorem State.setOrders_free (v : Nat) : (s.setOrders v).free = s.free := (rfl)
@[simp] theorem State.setOrders_pending (v : Nat) : (s.setOrders v).pending = s.pending := (rfl)

/-! ### setStagings -/

@[simp] theorem State.setStagings_clock (v : List Staging) : (s.setStagings v).clock = s.clock := (rfl)
@[simp] theorem State.setStagings_fabric (v : List Staging) : (s.setStagings v).fabric = s.fabric := (rfl)
@[simp] theorem State.setStagings_dict (v : List Staging) : (s.setStagings v).dict = s.dict := (rfl)
@[simp] theorem State.setStagings_parts (v : List Staging) : (s.setStagings v).parts = s.parts := (rfl)
@[simp] theorem State.setStagings_ctxs (v : List Staging) : (s.setStagings v).ctxs = s.ctxs := (rfl)
@[simp] theorem State.setStagings_seqs (v : List Staging) : (s.setStagings v).seqs = s.seqs := (rfl)
@[simp] theorem State.setStagings_vtimes (v : List Staging) : (s.setStagings v).vtimes = s.vtimes := (rfl)
@[simp] theorem State.setStagings_sets (v : List Staging) : (s.setStagings v).sets = s.sets := (rfl)
@[simp] theorem State.setStagings_ports (v : List Staging) : (s.setStagings v).ports = s.ports := (rfl)
@[simp] theorem State.setStagings_orders (v : List Staging) : (s.setStagings v).orders = s.orders := (rfl)
@[simp] theorem State.setStagings_stagings (v : List Staging) : (s.setStagings v).stagings = v := (rfl)
@[simp] theorem State.setStagings_arms (v : List Staging) : (s.setStagings v).arms = s.arms := (rfl)
@[simp] theorem State.setStagings_media (v : List Staging) : (s.setStagings v).media = s.media := (rfl)
@[simp] theorem State.setStagings_errors (v : List Staging) : (s.setStagings v).errors = s.errors := (rfl)
@[simp] theorem State.setStagings_guard (v : List Staging) : (s.setStagings v).guard = s.guard := (rfl)
@[simp] theorem State.setStagings_power (v : List Staging) : (s.setStagings v).power = s.power := (rfl)
@[simp] theorem State.setStagings_security (v : List Staging) : (s.setStagings v).security = s.security := (rfl)
@[simp] theorem State.setStagings_observe (v : List Staging) : (s.setStagings v).observe = s.observe := (rfl)
@[simp] theorem State.setStagings_hold (v : List Staging) : (s.setStagings v).hold = s.hold := (rfl)
@[simp] theorem State.setStagings_free (v : List Staging) : (s.setStagings v).free = s.free := (rfl)
@[simp] theorem State.setStagings_pending (v : List Staging) : (s.setStagings v).pending = s.pending := (rfl)

/-! ### setArms -/

@[simp] theorem State.setArms_clock (v : Nat) : (s.setArms v).clock = s.clock := (rfl)
@[simp] theorem State.setArms_fabric (v : Nat) : (s.setArms v).fabric = s.fabric := (rfl)
@[simp] theorem State.setArms_dict (v : Nat) : (s.setArms v).dict = s.dict := (rfl)
@[simp] theorem State.setArms_parts (v : Nat) : (s.setArms v).parts = s.parts := (rfl)
@[simp] theorem State.setArms_ctxs (v : Nat) : (s.setArms v).ctxs = s.ctxs := (rfl)
@[simp] theorem State.setArms_seqs (v : Nat) : (s.setArms v).seqs = s.seqs := (rfl)
@[simp] theorem State.setArms_vtimes (v : Nat) : (s.setArms v).vtimes = s.vtimes := (rfl)
@[simp] theorem State.setArms_sets (v : Nat) : (s.setArms v).sets = s.sets := (rfl)
@[simp] theorem State.setArms_ports (v : Nat) : (s.setArms v).ports = s.ports := (rfl)
@[simp] theorem State.setArms_orders (v : Nat) : (s.setArms v).orders = s.orders := (rfl)
@[simp] theorem State.setArms_stagings (v : Nat) : (s.setArms v).stagings = s.stagings := (rfl)
@[simp] theorem State.setArms_arms (v : Nat) : (s.setArms v).arms = v := (rfl)
@[simp] theorem State.setArms_media (v : Nat) : (s.setArms v).media = s.media := (rfl)
@[simp] theorem State.setArms_errors (v : Nat) : (s.setArms v).errors = s.errors := (rfl)
@[simp] theorem State.setArms_guard (v : Nat) : (s.setArms v).guard = s.guard := (rfl)
@[simp] theorem State.setArms_power (v : Nat) : (s.setArms v).power = s.power := (rfl)
@[simp] theorem State.setArms_security (v : Nat) : (s.setArms v).security = s.security := (rfl)
@[simp] theorem State.setArms_observe (v : Nat) : (s.setArms v).observe = s.observe := (rfl)
@[simp] theorem State.setArms_hold (v : Nat) : (s.setArms v).hold = s.hold := (rfl)
@[simp] theorem State.setArms_free (v : Nat) : (s.setArms v).free = s.free := (rfl)
@[simp] theorem State.setArms_pending (v : Nat) : (s.setArms v).pending = s.pending := (rfl)

/-! ### setErrors -/

@[simp] theorem State.setErrors_clock (v : Errors) : (s.setErrors v).clock = s.clock := (rfl)
@[simp] theorem State.setErrors_fabric (v : Errors) : (s.setErrors v).fabric = s.fabric := (rfl)
@[simp] theorem State.setErrors_dict (v : Errors) : (s.setErrors v).dict = s.dict := (rfl)
@[simp] theorem State.setErrors_parts (v : Errors) : (s.setErrors v).parts = s.parts := (rfl)
@[simp] theorem State.setErrors_ctxs (v : Errors) : (s.setErrors v).ctxs = s.ctxs := (rfl)
@[simp] theorem State.setErrors_seqs (v : Errors) : (s.setErrors v).seqs = s.seqs := (rfl)
@[simp] theorem State.setErrors_vtimes (v : Errors) : (s.setErrors v).vtimes = s.vtimes := (rfl)
@[simp] theorem State.setErrors_sets (v : Errors) : (s.setErrors v).sets = s.sets := (rfl)
@[simp] theorem State.setErrors_ports (v : Errors) : (s.setErrors v).ports = s.ports := (rfl)
@[simp] theorem State.setErrors_orders (v : Errors) : (s.setErrors v).orders = s.orders := (rfl)
@[simp] theorem State.setErrors_stagings (v : Errors) : (s.setErrors v).stagings = s.stagings := (rfl)
@[simp] theorem State.setErrors_arms (v : Errors) : (s.setErrors v).arms = s.arms := (rfl)
@[simp] theorem State.setErrors_media (v : Errors) : (s.setErrors v).media = s.media := (rfl)
@[simp] theorem State.setErrors_errors (v : Errors) : (s.setErrors v).errors = v := (rfl)
@[simp] theorem State.setErrors_guard (v : Errors) : (s.setErrors v).guard = s.guard := (rfl)
@[simp] theorem State.setErrors_power (v : Errors) : (s.setErrors v).power = s.power := (rfl)
@[simp] theorem State.setErrors_security (v : Errors) : (s.setErrors v).security = s.security := (rfl)
@[simp] theorem State.setErrors_observe (v : Errors) : (s.setErrors v).observe = s.observe := (rfl)
@[simp] theorem State.setErrors_hold (v : Errors) : (s.setErrors v).hold = s.hold := (rfl)
@[simp] theorem State.setErrors_free (v : Errors) : (s.setErrors v).free = s.free := (rfl)
@[simp] theorem State.setErrors_pending (v : Errors) : (s.setErrors v).pending = s.pending := (rfl)

/-! ### setGuard -/

@[simp] theorem State.setGuard_clock (v : Guard) : (s.setGuard v).clock = s.clock := (rfl)
@[simp] theorem State.setGuard_fabric (v : Guard) : (s.setGuard v).fabric = s.fabric := (rfl)
@[simp] theorem State.setGuard_dict (v : Guard) : (s.setGuard v).dict = s.dict := (rfl)
@[simp] theorem State.setGuard_parts (v : Guard) : (s.setGuard v).parts = s.parts := (rfl)
@[simp] theorem State.setGuard_ctxs (v : Guard) : (s.setGuard v).ctxs = s.ctxs := (rfl)
@[simp] theorem State.setGuard_seqs (v : Guard) : (s.setGuard v).seqs = s.seqs := (rfl)
@[simp] theorem State.setGuard_vtimes (v : Guard) : (s.setGuard v).vtimes = s.vtimes := (rfl)
@[simp] theorem State.setGuard_sets (v : Guard) : (s.setGuard v).sets = s.sets := (rfl)
@[simp] theorem State.setGuard_ports (v : Guard) : (s.setGuard v).ports = s.ports := (rfl)
@[simp] theorem State.setGuard_orders (v : Guard) : (s.setGuard v).orders = s.orders := (rfl)
@[simp] theorem State.setGuard_stagings (v : Guard) : (s.setGuard v).stagings = s.stagings := (rfl)
@[simp] theorem State.setGuard_arms (v : Guard) : (s.setGuard v).arms = s.arms := (rfl)
@[simp] theorem State.setGuard_media (v : Guard) : (s.setGuard v).media = s.media := (rfl)
@[simp] theorem State.setGuard_errors (v : Guard) : (s.setGuard v).errors = s.errors := (rfl)
@[simp] theorem State.setGuard_guard (v : Guard) : (s.setGuard v).guard = v := (rfl)
@[simp] theorem State.setGuard_power (v : Guard) : (s.setGuard v).power = s.power := (rfl)
@[simp] theorem State.setGuard_security (v : Guard) : (s.setGuard v).security = s.security := (rfl)
@[simp] theorem State.setGuard_observe (v : Guard) : (s.setGuard v).observe = s.observe := (rfl)
@[simp] theorem State.setGuard_hold (v : Guard) : (s.setGuard v).hold = s.hold := (rfl)
@[simp] theorem State.setGuard_free (v : Guard) : (s.setGuard v).free = s.free := (rfl)
@[simp] theorem State.setGuard_pending (v : Guard) : (s.setGuard v).pending = s.pending := (rfl)

/-! ### setPower -/

@[simp] theorem State.setPower_clock (v : Power) : (s.setPower v).clock = s.clock := (rfl)
@[simp] theorem State.setPower_fabric (v : Power) : (s.setPower v).fabric = s.fabric := (rfl)
@[simp] theorem State.setPower_dict (v : Power) : (s.setPower v).dict = s.dict := (rfl)
@[simp] theorem State.setPower_parts (v : Power) : (s.setPower v).parts = s.parts := (rfl)
@[simp] theorem State.setPower_ctxs (v : Power) : (s.setPower v).ctxs = s.ctxs := (rfl)
@[simp] theorem State.setPower_seqs (v : Power) : (s.setPower v).seqs = s.seqs := (rfl)
@[simp] theorem State.setPower_vtimes (v : Power) : (s.setPower v).vtimes = s.vtimes := (rfl)
@[simp] theorem State.setPower_sets (v : Power) : (s.setPower v).sets = s.sets := (rfl)
@[simp] theorem State.setPower_ports (v : Power) : (s.setPower v).ports = s.ports := (rfl)
@[simp] theorem State.setPower_orders (v : Power) : (s.setPower v).orders = s.orders := (rfl)
@[simp] theorem State.setPower_stagings (v : Power) : (s.setPower v).stagings = s.stagings := (rfl)
@[simp] theorem State.setPower_arms (v : Power) : (s.setPower v).arms = s.arms := (rfl)
@[simp] theorem State.setPower_media (v : Power) : (s.setPower v).media = s.media := (rfl)
@[simp] theorem State.setPower_errors (v : Power) : (s.setPower v).errors = s.errors := (rfl)
@[simp] theorem State.setPower_guard (v : Power) : (s.setPower v).guard = s.guard := (rfl)
@[simp] theorem State.setPower_power (v : Power) : (s.setPower v).power = v := (rfl)
@[simp] theorem State.setPower_security (v : Power) : (s.setPower v).security = s.security := (rfl)
@[simp] theorem State.setPower_observe (v : Power) : (s.setPower v).observe = s.observe := (rfl)
@[simp] theorem State.setPower_hold (v : Power) : (s.setPower v).hold = s.hold := (rfl)
@[simp] theorem State.setPower_free (v : Power) : (s.setPower v).free = s.free := (rfl)
@[simp] theorem State.setPower_pending (v : Power) : (s.setPower v).pending = s.pending := (rfl)

/-! ### setSecurity -/

@[simp] theorem State.setSecurity_clock (v : Security) : (s.setSecurity v).clock = s.clock := (rfl)
@[simp] theorem State.setSecurity_fabric (v : Security) : (s.setSecurity v).fabric = s.fabric := (rfl)
@[simp] theorem State.setSecurity_dict (v : Security) : (s.setSecurity v).dict = s.dict := (rfl)
@[simp] theorem State.setSecurity_parts (v : Security) : (s.setSecurity v).parts = s.parts := (rfl)
@[simp] theorem State.setSecurity_ctxs (v : Security) : (s.setSecurity v).ctxs = s.ctxs := (rfl)
@[simp] theorem State.setSecurity_seqs (v : Security) : (s.setSecurity v).seqs = s.seqs := (rfl)
@[simp] theorem State.setSecurity_vtimes (v : Security) : (s.setSecurity v).vtimes = s.vtimes := (rfl)
@[simp] theorem State.setSecurity_sets (v : Security) : (s.setSecurity v).sets = s.sets := (rfl)
@[simp] theorem State.setSecurity_ports (v : Security) : (s.setSecurity v).ports = s.ports := (rfl)
@[simp] theorem State.setSecurity_orders (v : Security) : (s.setSecurity v).orders = s.orders := (rfl)
@[simp] theorem State.setSecurity_stagings (v : Security) : (s.setSecurity v).stagings = s.stagings := (rfl)
@[simp] theorem State.setSecurity_arms (v : Security) : (s.setSecurity v).arms = s.arms := (rfl)
@[simp] theorem State.setSecurity_media (v : Security) : (s.setSecurity v).media = s.media := (rfl)
@[simp] theorem State.setSecurity_errors (v : Security) : (s.setSecurity v).errors = s.errors := (rfl)
@[simp] theorem State.setSecurity_guard (v : Security) : (s.setSecurity v).guard = s.guard := (rfl)
@[simp] theorem State.setSecurity_power (v : Security) : (s.setSecurity v).power = s.power := (rfl)
@[simp] theorem State.setSecurity_security (v : Security) : (s.setSecurity v).security = v := (rfl)
@[simp] theorem State.setSecurity_observe (v : Security) : (s.setSecurity v).observe = s.observe := (rfl)
@[simp] theorem State.setSecurity_hold (v : Security) : (s.setSecurity v).hold = s.hold := (rfl)
@[simp] theorem State.setSecurity_free (v : Security) : (s.setSecurity v).free = s.free := (rfl)
@[simp] theorem State.setSecurity_pending (v : Security) : (s.setSecurity v).pending = s.pending := (rfl)

/-! ### setObserve -/

@[simp] theorem State.setObserve_clock (v : Observe) : (s.setObserve v).clock = s.clock := (rfl)
@[simp] theorem State.setObserve_fabric (v : Observe) : (s.setObserve v).fabric = s.fabric := (rfl)
@[simp] theorem State.setObserve_dict (v : Observe) : (s.setObserve v).dict = s.dict := (rfl)
@[simp] theorem State.setObserve_parts (v : Observe) : (s.setObserve v).parts = s.parts := (rfl)
@[simp] theorem State.setObserve_ctxs (v : Observe) : (s.setObserve v).ctxs = s.ctxs := (rfl)
@[simp] theorem State.setObserve_seqs (v : Observe) : (s.setObserve v).seqs = s.seqs := (rfl)
@[simp] theorem State.setObserve_vtimes (v : Observe) : (s.setObserve v).vtimes = s.vtimes := (rfl)
@[simp] theorem State.setObserve_sets (v : Observe) : (s.setObserve v).sets = s.sets := (rfl)
@[simp] theorem State.setObserve_ports (v : Observe) : (s.setObserve v).ports = s.ports := (rfl)
@[simp] theorem State.setObserve_orders (v : Observe) : (s.setObserve v).orders = s.orders := (rfl)
@[simp] theorem State.setObserve_stagings (v : Observe) : (s.setObserve v).stagings = s.stagings := (rfl)
@[simp] theorem State.setObserve_arms (v : Observe) : (s.setObserve v).arms = s.arms := (rfl)
@[simp] theorem State.setObserve_media (v : Observe) : (s.setObserve v).media = s.media := (rfl)
@[simp] theorem State.setObserve_errors (v : Observe) : (s.setObserve v).errors = s.errors := (rfl)
@[simp] theorem State.setObserve_guard (v : Observe) : (s.setObserve v).guard = s.guard := (rfl)
@[simp] theorem State.setObserve_power (v : Observe) : (s.setObserve v).power = s.power := (rfl)
@[simp] theorem State.setObserve_security (v : Observe) : (s.setObserve v).security = s.security := (rfl)
@[simp] theorem State.setObserve_observe (v : Observe) : (s.setObserve v).observe = v := (rfl)
@[simp] theorem State.setObserve_hold (v : Observe) : (s.setObserve v).hold = s.hold := (rfl)
@[simp] theorem State.setObserve_free (v : Observe) : (s.setObserve v).free = s.free := (rfl)
@[simp] theorem State.setObserve_pending (v : Observe) : (s.setObserve v).pending = s.pending := (rfl)

/-! ### setHold -/

@[simp] theorem State.setHold_clock (v : Nat) : (s.setHold v).clock = s.clock := (rfl)
@[simp] theorem State.setHold_fabric (v : Nat) : (s.setHold v).fabric = s.fabric := (rfl)
@[simp] theorem State.setHold_dict (v : Nat) : (s.setHold v).dict = s.dict := (rfl)
@[simp] theorem State.setHold_parts (v : Nat) : (s.setHold v).parts = s.parts := (rfl)
@[simp] theorem State.setHold_ctxs (v : Nat) : (s.setHold v).ctxs = s.ctxs := (rfl)
@[simp] theorem State.setHold_seqs (v : Nat) : (s.setHold v).seqs = s.seqs := (rfl)
@[simp] theorem State.setHold_vtimes (v : Nat) : (s.setHold v).vtimes = s.vtimes := (rfl)
@[simp] theorem State.setHold_sets (v : Nat) : (s.setHold v).sets = s.sets := (rfl)
@[simp] theorem State.setHold_ports (v : Nat) : (s.setHold v).ports = s.ports := (rfl)
@[simp] theorem State.setHold_orders (v : Nat) : (s.setHold v).orders = s.orders := (rfl)
@[simp] theorem State.setHold_stagings (v : Nat) : (s.setHold v).stagings = s.stagings := (rfl)
@[simp] theorem State.setHold_arms (v : Nat) : (s.setHold v).arms = s.arms := (rfl)
@[simp] theorem State.setHold_media (v : Nat) : (s.setHold v).media = s.media := (rfl)
@[simp] theorem State.setHold_errors (v : Nat) : (s.setHold v).errors = s.errors := (rfl)
@[simp] theorem State.setHold_guard (v : Nat) : (s.setHold v).guard = s.guard := (rfl)
@[simp] theorem State.setHold_power (v : Nat) : (s.setHold v).power = s.power := (rfl)
@[simp] theorem State.setHold_security (v : Nat) : (s.setHold v).security = s.security := (rfl)
@[simp] theorem State.setHold_observe (v : Nat) : (s.setHold v).observe = s.observe := (rfl)
@[simp] theorem State.setHold_hold (v : Nat) : (s.setHold v).hold = v := (rfl)
@[simp] theorem State.setHold_free (v : Nat) : (s.setHold v).free = s.free := (rfl)
@[simp] theorem State.setHold_pending (v : Nat) : (s.setHold v).pending = s.pending := (rfl)

/-! ### setFree -/

@[simp] theorem State.setFree_clock (v : Nat) : (s.setFree v).clock = s.clock := (rfl)
@[simp] theorem State.setFree_fabric (v : Nat) : (s.setFree v).fabric = s.fabric := (rfl)
@[simp] theorem State.setFree_dict (v : Nat) : (s.setFree v).dict = s.dict := (rfl)
@[simp] theorem State.setFree_parts (v : Nat) : (s.setFree v).parts = s.parts := (rfl)
@[simp] theorem State.setFree_ctxs (v : Nat) : (s.setFree v).ctxs = s.ctxs := (rfl)
@[simp] theorem State.setFree_seqs (v : Nat) : (s.setFree v).seqs = s.seqs := (rfl)
@[simp] theorem State.setFree_vtimes (v : Nat) : (s.setFree v).vtimes = s.vtimes := (rfl)
@[simp] theorem State.setFree_sets (v : Nat) : (s.setFree v).sets = s.sets := (rfl)
@[simp] theorem State.setFree_ports (v : Nat) : (s.setFree v).ports = s.ports := (rfl)
@[simp] theorem State.setFree_orders (v : Nat) : (s.setFree v).orders = s.orders := (rfl)
@[simp] theorem State.setFree_stagings (v : Nat) : (s.setFree v).stagings = s.stagings := (rfl)
@[simp] theorem State.setFree_arms (v : Nat) : (s.setFree v).arms = s.arms := (rfl)
@[simp] theorem State.setFree_media (v : Nat) : (s.setFree v).media = s.media := (rfl)
@[simp] theorem State.setFree_errors (v : Nat) : (s.setFree v).errors = s.errors := (rfl)
@[simp] theorem State.setFree_guard (v : Nat) : (s.setFree v).guard = s.guard := (rfl)
@[simp] theorem State.setFree_power (v : Nat) : (s.setFree v).power = s.power := (rfl)
@[simp] theorem State.setFree_security (v : Nat) : (s.setFree v).security = s.security := (rfl)
@[simp] theorem State.setFree_observe (v : Nat) : (s.setFree v).observe = s.observe := (rfl)
@[simp] theorem State.setFree_hold (v : Nat) : (s.setFree v).hold = s.hold := (rfl)
@[simp] theorem State.setFree_free (v : Nat) : (s.setFree v).free = v := (rfl)
@[simp] theorem State.setFree_pending (v : Nat) : (s.setFree v).pending = s.pending := (rfl)

/-! ### updPower -/

@[simp] theorem State.updPower_clock (f : Power → Power) : (s.updPower f).clock = s.clock := (rfl)
@[simp] theorem State.updPower_fabric (f : Power → Power) : (s.updPower f).fabric = s.fabric := (rfl)
@[simp] theorem State.updPower_dict (f : Power → Power) : (s.updPower f).dict = s.dict := (rfl)
@[simp] theorem State.updPower_parts (f : Power → Power) : (s.updPower f).parts = s.parts := (rfl)
@[simp] theorem State.updPower_ctxs (f : Power → Power) : (s.updPower f).ctxs = s.ctxs := (rfl)
@[simp] theorem State.updPower_seqs (f : Power → Power) : (s.updPower f).seqs = s.seqs := (rfl)
@[simp] theorem State.updPower_vtimes (f : Power → Power) : (s.updPower f).vtimes = s.vtimes := (rfl)
@[simp] theorem State.updPower_sets (f : Power → Power) : (s.updPower f).sets = s.sets := (rfl)
@[simp] theorem State.updPower_ports (f : Power → Power) : (s.updPower f).ports = s.ports := (rfl)
@[simp] theorem State.updPower_orders (f : Power → Power) : (s.updPower f).orders = s.orders := (rfl)
@[simp] theorem State.updPower_stagings (f : Power → Power) : (s.updPower f).stagings = s.stagings := (rfl)
@[simp] theorem State.updPower_arms (f : Power → Power) : (s.updPower f).arms = s.arms := (rfl)
@[simp] theorem State.updPower_media (f : Power → Power) : (s.updPower f).media = s.media := (rfl)
@[simp] theorem State.updPower_errors (f : Power → Power) : (s.updPower f).errors = s.errors := (rfl)
@[simp] theorem State.updPower_guard (f : Power → Power) : (s.updPower f).guard = s.guard := (rfl)
@[simp] theorem State.updPower_power (f : Power → Power) : (s.updPower f).power = f s.power := (rfl)
@[simp] theorem State.updPower_security (f : Power → Power) : (s.updPower f).security = s.security := (rfl)
@[simp] theorem State.updPower_observe (f : Power → Power) : (s.updPower f).observe = s.observe := (rfl)
@[simp] theorem State.updPower_hold (f : Power → Power) : (s.updPower f).hold = s.hold := (rfl)
@[simp] theorem State.updPower_free (f : Power → Power) : (s.updPower f).free = s.free := (rfl)
@[simp] theorem State.updPower_pending (f : Power → Power) : (s.updPower f).pending = s.pending := (rfl)

/-! ### updDict -/

@[simp] theorem State.updDict_clock (f : Dict → Dict) : (s.updDict f).clock = s.clock := (rfl)
@[simp] theorem State.updDict_fabric (f : Dict → Dict) : (s.updDict f).fabric = s.fabric := (rfl)
@[simp] theorem State.updDict_dict (f : Dict → Dict) : (s.updDict f).dict = f s.dict := (rfl)
@[simp] theorem State.updDict_parts (f : Dict → Dict) : (s.updDict f).parts = s.parts := (rfl)
@[simp] theorem State.updDict_ctxs (f : Dict → Dict) : (s.updDict f).ctxs = s.ctxs := (rfl)
@[simp] theorem State.updDict_seqs (f : Dict → Dict) : (s.updDict f).seqs = s.seqs := (rfl)
@[simp] theorem State.updDict_vtimes (f : Dict → Dict) : (s.updDict f).vtimes = s.vtimes := (rfl)
@[simp] theorem State.updDict_sets (f : Dict → Dict) : (s.updDict f).sets = s.sets := (rfl)
@[simp] theorem State.updDict_ports (f : Dict → Dict) : (s.updDict f).ports = s.ports := (rfl)
@[simp] theorem State.updDict_orders (f : Dict → Dict) : (s.updDict f).orders = s.orders := (rfl)
@[simp] theorem State.updDict_stagings (f : Dict → Dict) : (s.updDict f).stagings = s.stagings := (rfl)
@[simp] theorem State.updDict_arms (f : Dict → Dict) : (s.updDict f).arms = s.arms := (rfl)
@[simp] theorem State.updDict_media (f : Dict → Dict) : (s.updDict f).media = s.media := (rfl)
@[simp] theorem State.updDict_errors (f : Dict → Dict) : (s.updDict f).errors = s.errors := (rfl)
@[simp] theorem State.updDict_guard (f : Dict → Dict) : (s.updDict f).guard = s.guard := (rfl)
@[simp] theorem State.updDict_power (f : Dict → Dict) : (s.updDict f).power = s.power := (rfl)
@[simp] theorem State.updDict_security (f : Dict → Dict) : (s.updDict f).security = s.security := (rfl)
@[simp] theorem State.updDict_observe (f : Dict → Dict) : (s.updDict f).observe = s.observe := (rfl)
@[simp] theorem State.updDict_hold (f : Dict → Dict) : (s.updDict f).hold = s.hold := (rfl)
@[simp] theorem State.updDict_free (f : Dict → Dict) : (s.updDict f).free = s.free := (rfl)
@[simp] theorem State.updDict_pending (f : Dict → Dict) : (s.updDict f).pending = s.pending := (rfl)

/-! ### draw -/

@[simp] theorem State.draw_clock : (s.draw).clock = s.clock := (rfl)
@[simp] theorem State.draw_fabric : (s.draw).fabric = s.fabric := (rfl)
@[simp] theorem State.draw_dict : (s.draw).dict = s.dict := (rfl)
@[simp] theorem State.draw_parts : (s.draw).parts = s.parts := (rfl)
@[simp] theorem State.draw_ctxs : (s.draw).ctxs = s.ctxs := (rfl)
@[simp] theorem State.draw_seqs : (s.draw).seqs = s.seqs := (rfl)
@[simp] theorem State.draw_vtimes : (s.draw).vtimes = s.vtimes := (rfl)
@[simp] theorem State.draw_sets : (s.draw).sets = s.sets := (rfl)
@[simp] theorem State.draw_ports : (s.draw).ports = s.ports := (rfl)
@[simp] theorem State.draw_orders : (s.draw).orders = s.orders := (rfl)
@[simp] theorem State.draw_stagings : (s.draw).stagings = s.stagings := (rfl)
@[simp] theorem State.draw_arms : (s.draw).arms = s.arms := (rfl)
@[simp] theorem State.draw_media : (s.draw).media = s.media := (rfl)
@[simp] theorem State.draw_errors : (s.draw).errors = s.errors := (rfl)
@[simp] theorem State.draw_guard : (s.draw).guard = s.guard := (rfl)
@[simp] theorem State.draw_power : (s.draw).power = s.power := (rfl)
@[simp] theorem State.draw_security : (s.draw).security = s.security := (rfl)
@[simp] theorem State.draw_observe : (s.draw).observe = s.observe := (rfl)
@[simp] theorem State.draw_hold : (s.draw).hold = s.hold := (rfl)
@[simp] theorem State.draw_free : (s.draw).free = s.free + 1 := (rfl)
@[simp] theorem State.draw_pending : (s.draw).pending = s.pending := (rfl)

/-! ### put -/

@[simp] theorem State.put_clock (i j v : Nat) : (s.put i j v).clock = s.clock := (rfl)
@[simp] theorem State.put_fabric (i j v : Nat) : (s.put i j v).fabric = s.fabric := (rfl)
@[simp] theorem State.put_dict (i j v : Nat) : (s.put i j v).dict = { s.dict with objs := s.dict.objs.set (objKey i j) (BitVec.ofNat 64 (v % 2 ^ objBits i j)) } := (rfl)
@[simp] theorem State.put_parts (i j v : Nat) : (s.put i j v).parts = s.parts := (rfl)
@[simp] theorem State.put_ctxs (i j v : Nat) : (s.put i j v).ctxs = s.ctxs := (rfl)
@[simp] theorem State.put_seqs (i j v : Nat) : (s.put i j v).seqs = s.seqs := (rfl)
@[simp] theorem State.put_vtimes (i j v : Nat) : (s.put i j v).vtimes = s.vtimes := (rfl)
@[simp] theorem State.put_sets (i j v : Nat) : (s.put i j v).sets = s.sets := (rfl)
@[simp] theorem State.put_ports (i j v : Nat) : (s.put i j v).ports = s.ports := (rfl)
@[simp] theorem State.put_orders (i j v : Nat) : (s.put i j v).orders = s.orders := (rfl)
@[simp] theorem State.put_stagings (i j v : Nat) : (s.put i j v).stagings = s.stagings := (rfl)
@[simp] theorem State.put_arms (i j v : Nat) : (s.put i j v).arms = s.arms := (rfl)
@[simp] theorem State.put_media (i j v : Nat) : (s.put i j v).media = s.media := (rfl)
@[simp] theorem State.put_errors (i j v : Nat) : (s.put i j v).errors = s.errors := (rfl)
@[simp] theorem State.put_guard (i j v : Nat) : (s.put i j v).guard = s.guard := (rfl)
@[simp] theorem State.put_power (i j v : Nat) : (s.put i j v).power = s.power := (rfl)
@[simp] theorem State.put_security (i j v : Nat) : (s.put i j v).security = s.security := (rfl)
@[simp] theorem State.put_observe (i j v : Nat) : (s.put i j v).observe = s.observe := (rfl)
@[simp] theorem State.put_hold (i j v : Nat) : (s.put i j v).hold = s.hold := (rfl)
@[simp] theorem State.put_free (i j v : Nat) : (s.put i j v).free = s.free := (rfl)
@[simp] theorem State.put_pending (i j v : Nat) : (s.put i j v).pending = s.pending := (rfl)

/-! ### bump -/

@[simp] theorem State.bump_clock (i j n : Nat) : (s.bump i j n).clock = s.clock := (rfl)
@[simp] theorem State.bump_fabric (i j n : Nat) : (s.bump i j n).fabric = s.fabric := (rfl)
@[simp] theorem State.bump_dict (i j n : Nat) : (s.bump i j n).dict = (s.put i j (s.obj i j + n)).dict := (rfl)
@[simp] theorem State.bump_parts (i j n : Nat) : (s.bump i j n).parts = s.parts := (rfl)
@[simp] theorem State.bump_ctxs (i j n : Nat) : (s.bump i j n).ctxs = s.ctxs := (rfl)
@[simp] theorem State.bump_seqs (i j n : Nat) : (s.bump i j n).seqs = s.seqs := (rfl)
@[simp] theorem State.bump_vtimes (i j n : Nat) : (s.bump i j n).vtimes = s.vtimes := (rfl)
@[simp] theorem State.bump_sets (i j n : Nat) : (s.bump i j n).sets = s.sets := (rfl)
@[simp] theorem State.bump_ports (i j n : Nat) : (s.bump i j n).ports = s.ports := (rfl)
@[simp] theorem State.bump_orders (i j n : Nat) : (s.bump i j n).orders = s.orders := (rfl)
@[simp] theorem State.bump_stagings (i j n : Nat) : (s.bump i j n).stagings = s.stagings := (rfl)
@[simp] theorem State.bump_arms (i j n : Nat) : (s.bump i j n).arms = s.arms := (rfl)
@[simp] theorem State.bump_media (i j n : Nat) : (s.bump i j n).media = s.media := (rfl)
@[simp] theorem State.bump_errors (i j n : Nat) : (s.bump i j n).errors = s.errors := (rfl)
@[simp] theorem State.bump_guard (i j n : Nat) : (s.bump i j n).guard = s.guard := (rfl)
@[simp] theorem State.bump_power (i j n : Nat) : (s.bump i j n).power = s.power := (rfl)
@[simp] theorem State.bump_security (i j n : Nat) : (s.bump i j n).security = s.security := (rfl)
@[simp] theorem State.bump_observe (i j n : Nat) : (s.bump i j n).observe = s.observe := (rfl)
@[simp] theorem State.bump_hold (i j n : Nat) : (s.bump i j n).hold = s.hold := (rfl)
@[simp] theorem State.bump_free (i j n : Nat) : (s.bump i j n).free = s.free := (rfl)
@[simp] theorem State.bump_pending (i j n : Nat) : (s.bump i j n).pending = s.pending := (rfl)

/-! ### bumpSat -/

@[simp] theorem State.bumpSat_clock (i j n : Nat) : (s.bumpSat i j n).clock = s.clock := (rfl)
@[simp] theorem State.bumpSat_fabric (i j n : Nat) : (s.bumpSat i j n).fabric = s.fabric := (rfl)
@[simp] theorem State.bumpSat_dict (i j n : Nat) : (s.bumpSat i j n).dict = (s.put i j (min (s.obj i j + n) (2 ^ objBits i j - 1))).dict := (rfl)
@[simp] theorem State.bumpSat_parts (i j n : Nat) : (s.bumpSat i j n).parts = s.parts := (rfl)
@[simp] theorem State.bumpSat_ctxs (i j n : Nat) : (s.bumpSat i j n).ctxs = s.ctxs := (rfl)
@[simp] theorem State.bumpSat_seqs (i j n : Nat) : (s.bumpSat i j n).seqs = s.seqs := (rfl)
@[simp] theorem State.bumpSat_vtimes (i j n : Nat) : (s.bumpSat i j n).vtimes = s.vtimes := (rfl)
@[simp] theorem State.bumpSat_sets (i j n : Nat) : (s.bumpSat i j n).sets = s.sets := (rfl)
@[simp] theorem State.bumpSat_ports (i j n : Nat) : (s.bumpSat i j n).ports = s.ports := (rfl)
@[simp] theorem State.bumpSat_orders (i j n : Nat) : (s.bumpSat i j n).orders = s.orders := (rfl)
@[simp] theorem State.bumpSat_stagings (i j n : Nat) : (s.bumpSat i j n).stagings = s.stagings := (rfl)
@[simp] theorem State.bumpSat_arms (i j n : Nat) : (s.bumpSat i j n).arms = s.arms := (rfl)
@[simp] theorem State.bumpSat_media (i j n : Nat) : (s.bumpSat i j n).media = s.media := (rfl)
@[simp] theorem State.bumpSat_errors (i j n : Nat) : (s.bumpSat i j n).errors = s.errors := (rfl)
@[simp] theorem State.bumpSat_guard (i j n : Nat) : (s.bumpSat i j n).guard = s.guard := (rfl)
@[simp] theorem State.bumpSat_power (i j n : Nat) : (s.bumpSat i j n).power = s.power := (rfl)
@[simp] theorem State.bumpSat_security (i j n : Nat) : (s.bumpSat i j n).security = s.security := (rfl)
@[simp] theorem State.bumpSat_observe (i j n : Nat) : (s.bumpSat i j n).observe = s.observe := (rfl)
@[simp] theorem State.bumpSat_hold (i j n : Nat) : (s.bumpSat i j n).hold = s.hold := (rfl)
@[simp] theorem State.bumpSat_free (i j n : Nat) : (s.bumpSat i j n).free = s.free := (rfl)
@[simp] theorem State.bumpSat_pending (i j n : Nat) : (s.bumpSat i j n).pending = s.pending := (rfl)

/-! ### putGov -/

@[simp] theorem State.putGov_clock (i j v : Nat) : (s.putGov i j v).clock = s.clock := (rfl)
@[simp] theorem State.putGov_fabric (i j v : Nat) : (s.putGov i j v).fabric = s.fabric := (rfl)
@[simp] theorem State.putGov_dict (i j v : Nat) : (s.putGov i j v).dict = { s.dict with gov := s.dict.gov.set (objKey i j) (BitVec.ofNat 64 (v % 2 ^ objBits i j)) } := (rfl)
@[simp] theorem State.putGov_parts (i j v : Nat) : (s.putGov i j v).parts = s.parts := (rfl)
@[simp] theorem State.putGov_ctxs (i j v : Nat) : (s.putGov i j v).ctxs = s.ctxs := (rfl)
@[simp] theorem State.putGov_seqs (i j v : Nat) : (s.putGov i j v).seqs = s.seqs := (rfl)
@[simp] theorem State.putGov_vtimes (i j v : Nat) : (s.putGov i j v).vtimes = s.vtimes := (rfl)
@[simp] theorem State.putGov_sets (i j v : Nat) : (s.putGov i j v).sets = s.sets := (rfl)
@[simp] theorem State.putGov_ports (i j v : Nat) : (s.putGov i j v).ports = s.ports := (rfl)
@[simp] theorem State.putGov_orders (i j v : Nat) : (s.putGov i j v).orders = s.orders := (rfl)
@[simp] theorem State.putGov_stagings (i j v : Nat) : (s.putGov i j v).stagings = s.stagings := (rfl)
@[simp] theorem State.putGov_arms (i j v : Nat) : (s.putGov i j v).arms = s.arms := (rfl)
@[simp] theorem State.putGov_media (i j v : Nat) : (s.putGov i j v).media = s.media := (rfl)
@[simp] theorem State.putGov_errors (i j v : Nat) : (s.putGov i j v).errors = s.errors := (rfl)
@[simp] theorem State.putGov_guard (i j v : Nat) : (s.putGov i j v).guard = s.guard := (rfl)
@[simp] theorem State.putGov_power (i j v : Nat) : (s.putGov i j v).power = s.power := (rfl)
@[simp] theorem State.putGov_security (i j v : Nat) : (s.putGov i j v).security = s.security := (rfl)
@[simp] theorem State.putGov_observe (i j v : Nat) : (s.putGov i j v).observe = s.observe := (rfl)
@[simp] theorem State.putGov_hold (i j v : Nat) : (s.putGov i j v).hold = s.hold := (rfl)
@[simp] theorem State.putGov_free (i j v : Nat) : (s.putGov i j v).free = s.free := (rfl)
@[simp] theorem State.putGov_pending (i j v : Nat) : (s.putGov i j v).pending = s.pending := (rfl)

/-! ### putDom -/

@[simp] theorem State.putDom_clock (i j : Nat) (v : Bytes) : (s.putDom i j v).clock = s.clock := (rfl)
@[simp] theorem State.putDom_fabric (i j : Nat) (v : Bytes) : (s.putDom i j v).fabric = s.fabric := (rfl)
@[simp] theorem State.putDom_dict (i j : Nat) (v : Bytes) : (s.putDom i j v).dict = { s.dict with doms := s.dict.doms.set (objKey i j) v } := (rfl)
@[simp] theorem State.putDom_parts (i j : Nat) (v : Bytes) : (s.putDom i j v).parts = s.parts := (rfl)
@[simp] theorem State.putDom_ctxs (i j : Nat) (v : Bytes) : (s.putDom i j v).ctxs = s.ctxs := (rfl)
@[simp] theorem State.putDom_seqs (i j : Nat) (v : Bytes) : (s.putDom i j v).seqs = s.seqs := (rfl)
@[simp] theorem State.putDom_vtimes (i j : Nat) (v : Bytes) : (s.putDom i j v).vtimes = s.vtimes := (rfl)
@[simp] theorem State.putDom_sets (i j : Nat) (v : Bytes) : (s.putDom i j v).sets = s.sets := (rfl)
@[simp] theorem State.putDom_ports (i j : Nat) (v : Bytes) : (s.putDom i j v).ports = s.ports := (rfl)
@[simp] theorem State.putDom_orders (i j : Nat) (v : Bytes) : (s.putDom i j v).orders = s.orders := (rfl)
@[simp] theorem State.putDom_stagings (i j : Nat) (v : Bytes) : (s.putDom i j v).stagings = s.stagings := (rfl)
@[simp] theorem State.putDom_arms (i j : Nat) (v : Bytes) : (s.putDom i j v).arms = s.arms := (rfl)
@[simp] theorem State.putDom_media (i j : Nat) (v : Bytes) : (s.putDom i j v).media = s.media := (rfl)
@[simp] theorem State.putDom_errors (i j : Nat) (v : Bytes) : (s.putDom i j v).errors = s.errors := (rfl)
@[simp] theorem State.putDom_guard (i j : Nat) (v : Bytes) : (s.putDom i j v).guard = s.guard := (rfl)
@[simp] theorem State.putDom_power (i j : Nat) (v : Bytes) : (s.putDom i j v).power = s.power := (rfl)
@[simp] theorem State.putDom_security (i j : Nat) (v : Bytes) : (s.putDom i j v).security = s.security := (rfl)
@[simp] theorem State.putDom_observe (i j : Nat) (v : Bytes) : (s.putDom i j v).observe = s.observe := (rfl)
@[simp] theorem State.putDom_hold (i j : Nat) (v : Bytes) : (s.putDom i j v).hold = s.hold := (rfl)
@[simp] theorem State.putDom_free (i j : Nat) (v : Bytes) : (s.putDom i j v).free = s.free := (rfl)
@[simp] theorem State.putDom_pending (i j : Nat) (v : Bytes) : (s.putDom i j v).pending = s.pending := (rfl)

/-! ### Reads after writes -/

theorem State.part_setPart (p q : Nat) (x : Partition) : (s.setPart p x).part q = if q = p then x else s.part q :=
  Tab.get_set ..
theorem State.seq_setSeq (p q : Nat) (x : Seq) : (s.setSeq p x).seq q = if q = p then x else s.seq q := Tab.get_set ..
theorem State.port_setPort (x y : Nat) (v : PortSt) : (s.setPort x v).port y = if y = x then v else s.port y :=
  Tab.get_set ..
theorem State.tset_setTset (k j : Nat) (v : TaskSet) : (s.setTset k v).tset j = if j = k then v else s.tset j :=
  Tab.get_set ..
theorem State.die_setDie (n m : Nat) (d : Die) : (s.setDie n d).die m = if m = n then d else s.die m := Tab.get_set ..
theorem State.space_setSpace (n m : Nat) (v : Namespace) :
    (s.setSpace n v).space m = if m = n then v else s.space m := Tab.get_set ..

@[simp] theorem State.part_setPart_same (p : Nat) (x : Partition) : (s.setPart p x).part p = x := by
  simp [part_setPart]
@[simp] theorem State.seq_setSeq_same (p : Nat) (x : Seq) : (s.setSeq p x).seq p = x := by simp [seq_setSeq]
@[simp] theorem State.port_setPort_same (x : Nat) (v : PortSt) : (s.setPort x v).port x = v := by simp [port_setPort]
@[simp] theorem State.tset_setTset_same (k : Nat) (v : TaskSet) : (s.setTset k v).tset k = v := by simp [tset_setTset]
@[simp] theorem State.space_setSpace_same (n : Nat) (v : Namespace) : (s.setSpace n v).space n = v := by
  simp [space_setSpace]
@[simp] theorem State.ctx_setCtx_same (p n : Nat) (x : Context) : (s.setCtx p n x).ctx p n = x := Tab.get_set_same ..

/-- Contexts of a partition are numbered 0 to 15, so that a context's key names it alone. -/
theorem State.ctx_setCtx (p n q m : Nat) (x : Context) (hn : n < 16) (hm : m < 16) :
    (s.setCtx p n x).ctx q m = if q = p ∧ m = n then x else s.ctx q m := by
  simp only [State.ctx, State.setCtx, Tab.get_set]
  refine if_congr ?_ rfl rfl
  omega

/-! ### Numbered reads after the writes that do not concern them -/

@[simp] theorem State.ctx_setPart (p' : Nat) (x' : Partition) (p n : Nat) : (s.setPart p' x').ctx p n = s.ctx p n := (rfl)
@[simp] theorem State.seq_setPart (p' : Nat) (x' : Partition) (p : Nat) : (s.setPart p' x').seq p = s.seq p := (rfl)
@[simp] theorem State.port_setPart (p' : Nat) (x' : Partition) (x : Nat) : (s.setPart p' x').port x = s.port x := (rfl)
@[simp] theorem State.tset_setPart (p' : Nat) (x' : Partition) (k : Nat) : (s.setPart p' x').tset k = s.tset k := (rfl)
@[simp] theorem State.space_setPart (p' : Nat) (x' : Partition) (n : Nat) : (s.setPart p' x').space n = s.space n := (rfl)
@[simp] theorem State.die_setPart (p' : Nat) (x' : Partition) (n : Nat) : (s.setPart p' x').die n = s.die n := (rfl)
@[simp] theorem State.obj_setPart (p' : Nat) (x' : Partition) (i j : Nat) : (s.setPart p' x').obj i j = s.obj i j := (rfl)
@[simp] theorem State.gov_setPart (p' : Nat) (x' : Partition) (i j : Nat) : (s.setPart p' x').gov i j = s.gov i j := (rfl)
@[simp] theorem State.dom_setPart (p' : Nat) (x' : Partition) (i j : Nat) : (s.setPart p' x').dom i j = s.dom i j := (rfl)
@[simp] theorem State.govDom_setPart (p' : Nat) (x' : Partition) (i j : Nat) : (s.setPart p' x').govDom i j = s.govDom i j := (rfl)

@[simp] theorem State.part_setCtx (p' n' : Nat) (x' : Context) (p : Nat) : (s.setCtx p' n' x').part p = s.part p := (rfl)
@[simp] theorem State.seq_setCtx (p' n' : Nat) (x' : Context) (p : Nat) : (s.setCtx p' n' x').seq p = s.seq p := (rfl)
@[simp] theorem State.port_setCtx (p' n' : Nat) (x' : Context) (x : Nat) : (s.setCtx p' n' x').port x = s.port x := (rfl)
@[simp] theorem State.tset_setCtx (p' n' : Nat) (x' : Context) (k : Nat) : (s.setCtx p' n' x').tset k = s.tset k := (rfl)
@[simp] theorem State.space_setCtx (p' n' : Nat) (x' : Context) (n : Nat) : (s.setCtx p' n' x').space n = s.space n := (rfl)
@[simp] theorem State.die_setCtx (p' n' : Nat) (x' : Context) (n : Nat) : (s.setCtx p' n' x').die n = s.die n := (rfl)
@[simp] theorem State.obj_setCtx (p' n' : Nat) (x' : Context) (i j : Nat) : (s.setCtx p' n' x').obj i j = s.obj i j := (rfl)
@[simp] theorem State.gov_setCtx (p' n' : Nat) (x' : Context) (i j : Nat) : (s.setCtx p' n' x').gov i j = s.gov i j := (rfl)
@[simp] theorem State.dom_setCtx (p' n' : Nat) (x' : Context) (i j : Nat) : (s.setCtx p' n' x').dom i j = s.dom i j := (rfl)
@[simp] theorem State.govDom_setCtx (p' n' : Nat) (x' : Context) (i j : Nat) : (s.setCtx p' n' x').govDom i j = s.govDom i j := (rfl)

@[simp] theorem State.part_setSeq (p' : Nat) (x' : Seq) (p : Nat) : (s.setSeq p' x').part p = s.part p := (rfl)
@[simp] theorem State.ctx_setSeq (p' : Nat) (x' : Seq) (p n : Nat) : (s.setSeq p' x').ctx p n = s.ctx p n := (rfl)
@[simp] theorem State.port_setSeq (p' : Nat) (x' : Seq) (x : Nat) : (s.setSeq p' x').port x = s.port x := (rfl)
@[simp] theorem State.tset_setSeq (p' : Nat) (x' : Seq) (k : Nat) : (s.setSeq p' x').tset k = s.tset k := (rfl)
@[simp] theorem State.space_setSeq (p' : Nat) (x' : Seq) (n : Nat) : (s.setSeq p' x').space n = s.space n := (rfl)
@[simp] theorem State.die_setSeq (p' : Nat) (x' : Seq) (n : Nat) : (s.setSeq p' x').die n = s.die n := (rfl)
@[simp] theorem State.obj_setSeq (p' : Nat) (x' : Seq) (i j : Nat) : (s.setSeq p' x').obj i j = s.obj i j := (rfl)
@[simp] theorem State.gov_setSeq (p' : Nat) (x' : Seq) (i j : Nat) : (s.setSeq p' x').gov i j = s.gov i j := (rfl)
@[simp] theorem State.dom_setSeq (p' : Nat) (x' : Seq) (i j : Nat) : (s.setSeq p' x').dom i j = s.dom i j := (rfl)
@[simp] theorem State.govDom_setSeq (p' : Nat) (x' : Seq) (i j : Nat) : (s.setSeq p' x').govDom i j = s.govDom i j := (rfl)

@[simp] theorem State.part_setPort (x' : Nat) (v' : PortSt) (p : Nat) : (s.setPort x' v').part p = s.part p := (rfl)
@[simp] theorem State.ctx_setPort (x' : Nat) (v' : PortSt) (p n : Nat) : (s.setPort x' v').ctx p n = s.ctx p n := (rfl)
@[simp] theorem State.seq_setPort (x' : Nat) (v' : PortSt) (p : Nat) : (s.setPort x' v').seq p = s.seq p := (rfl)
@[simp] theorem State.tset_setPort (x' : Nat) (v' : PortSt) (k : Nat) : (s.setPort x' v').tset k = s.tset k := (rfl)
@[simp] theorem State.space_setPort (x' : Nat) (v' : PortSt) (n : Nat) : (s.setPort x' v').space n = s.space n := (rfl)
@[simp] theorem State.die_setPort (x' : Nat) (v' : PortSt) (n : Nat) : (s.setPort x' v').die n = s.die n := (rfl)
@[simp] theorem State.obj_setPort (x' : Nat) (v' : PortSt) (i j : Nat) : (s.setPort x' v').obj i j = s.obj i j := (rfl)
@[simp] theorem State.gov_setPort (x' : Nat) (v' : PortSt) (i j : Nat) : (s.setPort x' v').gov i j = s.gov i j := (rfl)
@[simp] theorem State.dom_setPort (x' : Nat) (v' : PortSt) (i j : Nat) : (s.setPort x' v').dom i j = s.dom i j := (rfl)
@[simp] theorem State.govDom_setPort (x' : Nat) (v' : PortSt) (i j : Nat) : (s.setPort x' v').govDom i j = s.govDom i j := (rfl)

@[simp] theorem State.part_setTset (k' : Nat) (v' : TaskSet) (p : Nat) : (s.setTset k' v').part p = s.part p := (rfl)
@[simp] theorem State.ctx_setTset (k' : Nat) (v' : TaskSet) (p n : Nat) : (s.setTset k' v').ctx p n = s.ctx p n := (rfl)
@[simp] theorem State.seq_setTset (k' : Nat) (v' : TaskSet) (p : Nat) : (s.setTset k' v').seq p = s.seq p := (rfl)
@[simp] theorem State.port_setTset (k' : Nat) (v' : TaskSet) (x : Nat) : (s.setTset k' v').port x = s.port x := (rfl)
@[simp] theorem State.space_setTset (k' : Nat) (v' : TaskSet) (n : Nat) : (s.setTset k' v').space n = s.space n := (rfl)
@[simp] theorem State.die_setTset (k' : Nat) (v' : TaskSet) (n : Nat) : (s.setTset k' v').die n = s.die n := (rfl)
@[simp] theorem State.obj_setTset (k' : Nat) (v' : TaskSet) (i j : Nat) : (s.setTset k' v').obj i j = s.obj i j := (rfl)
@[simp] theorem State.gov_setTset (k' : Nat) (v' : TaskSet) (i j : Nat) : (s.setTset k' v').gov i j = s.gov i j := (rfl)
@[simp] theorem State.dom_setTset (k' : Nat) (v' : TaskSet) (i j : Nat) : (s.setTset k' v').dom i j = s.dom i j := (rfl)
@[simp] theorem State.govDom_setTset (k' : Nat) (v' : TaskSet) (i j : Nat) : (s.setTset k' v').govDom i j = s.govDom i j := (rfl)

@[simp] theorem State.part_setSpace (n' : Nat) (v' : Namespace) (p : Nat) : (s.setSpace n' v').part p = s.part p := (rfl)
@[simp] theorem State.ctx_setSpace (n' : Nat) (v' : Namespace) (p n : Nat) : (s.setSpace n' v').ctx p n = s.ctx p n := (rfl)
@[simp] theorem State.seq_setSpace (n' : Nat) (v' : Namespace) (p : Nat) : (s.setSpace n' v').seq p = s.seq p := (rfl)
@[simp] theorem State.port_setSpace (n' : Nat) (v' : Namespace) (x : Nat) : (s.setSpace n' v').port x = s.port x := (rfl)
@[simp] theorem State.tset_setSpace (n' : Nat) (v' : Namespace) (k : Nat) : (s.setSpace n' v').tset k = s.tset k := (rfl)
@[simp] theorem State.die_setSpace (n' : Nat) (v' : Namespace) (n : Nat) : (s.setSpace n' v').die n = s.die n := (rfl)
@[simp] theorem State.obj_setSpace (n' : Nat) (v' : Namespace) (i j : Nat) : (s.setSpace n' v').obj i j = s.obj i j := (rfl)
@[simp] theorem State.gov_setSpace (n' : Nat) (v' : Namespace) (i j : Nat) : (s.setSpace n' v').gov i j = s.gov i j := (rfl)
@[simp] theorem State.dom_setSpace (n' : Nat) (v' : Namespace) (i j : Nat) : (s.setSpace n' v').dom i j = s.dom i j := (rfl)
@[simp] theorem State.govDom_setSpace (n' : Nat) (v' : Namespace) (i j : Nat) : (s.setSpace n' v').govDom i j = s.govDom i j := (rfl)

@[simp] theorem State.part_setMedia (m' : Media) (p : Nat) : (s.setMedia m').part p = s.part p := (rfl)
@[simp] theorem State.ctx_setMedia (m' : Media) (p n : Nat) : (s.setMedia m').ctx p n = s.ctx p n := (rfl)
@[simp] theorem State.seq_setMedia (m' : Media) (p : Nat) : (s.setMedia m').seq p = s.seq p := (rfl)
@[simp] theorem State.port_setMedia (m' : Media) (x : Nat) : (s.setMedia m').port x = s.port x := (rfl)
@[simp] theorem State.tset_setMedia (m' : Media) (k : Nat) : (s.setMedia m').tset k = s.tset k := (rfl)
@[simp] theorem State.die_setMedia (m' : Media) (n : Nat) : (s.setMedia m').die n = s.die n := (rfl)
@[simp] theorem State.obj_setMedia (m' : Media) (i j : Nat) : (s.setMedia m').obj i j = s.obj i j := (rfl)
@[simp] theorem State.gov_setMedia (m' : Media) (i j : Nat) : (s.setMedia m').gov i j = s.gov i j := (rfl)
@[simp] theorem State.dom_setMedia (m' : Media) (i j : Nat) : (s.setMedia m').dom i j = s.dom i j := (rfl)
@[simp] theorem State.govDom_setMedia (m' : Media) (i j : Nat) : (s.setMedia m').govDom i j = s.govDom i j := (rfl)

@[simp] theorem State.part_setDie (n' : Nat) (d' : Die) (p : Nat) : (s.setDie n' d').part p = s.part p := (rfl)
@[simp] theorem State.ctx_setDie (n' : Nat) (d' : Die) (p n : Nat) : (s.setDie n' d').ctx p n = s.ctx p n := (rfl)
@[simp] theorem State.seq_setDie (n' : Nat) (d' : Die) (p : Nat) : (s.setDie n' d').seq p = s.seq p := (rfl)
@[simp] theorem State.port_setDie (n' : Nat) (d' : Die) (x : Nat) : (s.setDie n' d').port x = s.port x := (rfl)
@[simp] theorem State.tset_setDie (n' : Nat) (d' : Die) (k : Nat) : (s.setDie n' d').tset k = s.tset k := (rfl)
@[simp] theorem State.space_setDie (n' : Nat) (d' : Die) (n : Nat) : (s.setDie n' d').space n = s.space n := (rfl)
@[simp] theorem State.obj_setDie (n' : Nat) (d' : Die) (i j : Nat) : (s.setDie n' d').obj i j = s.obj i j := (rfl)
@[simp] theorem State.gov_setDie (n' : Nat) (d' : Die) (i j : Nat) : (s.setDie n' d').gov i j = s.gov i j := (rfl)
@[simp] theorem State.dom_setDie (n' : Nat) (d' : Die) (i j : Nat) : (s.setDie n' d').dom i j = s.dom i j := (rfl)
@[simp] theorem State.govDom_setDie (n' : Nat) (d' : Die) (i j : Nat) : (s.setDie n' d').govDom i j = s.govDom i j := (rfl)

@[simp] theorem State.part_setClock (v' : Clock) (p : Nat) : (s.setClock v').part p = s.part p := (rfl)
@[simp] theorem State.ctx_setClock (v' : Clock) (p n : Nat) : (s.setClock v').ctx p n = s.ctx p n := (rfl)
@[simp] theorem State.seq_setClock (v' : Clock) (p : Nat) : (s.setClock v').seq p = s.seq p := (rfl)
@[simp] theorem State.port_setClock (v' : Clock) (x : Nat) : (s.setClock v').port x = s.port x := (rfl)
@[simp] theorem State.tset_setClock (v' : Clock) (k : Nat) : (s.setClock v').tset k = s.tset k := (rfl)
@[simp] theorem State.space_setClock (v' : Clock) (n : Nat) : (s.setClock v').space n = s.space n := (rfl)
@[simp] theorem State.die_setClock (v' : Clock) (n : Nat) : (s.setClock v').die n = s.die n := (rfl)
@[simp] theorem State.obj_setClock (v' : Clock) (i j : Nat) : (s.setClock v').obj i j = s.obj i j := (rfl)
@[simp] theorem State.gov_setClock (v' : Clock) (i j : Nat) : (s.setClock v').gov i j = s.gov i j := (rfl)
@[simp] theorem State.dom_setClock (v' : Clock) (i j : Nat) : (s.setClock v').dom i j = s.dom i j := (rfl)
@[simp] theorem State.govDom_setClock (v' : Clock) (i j : Nat) : (s.setClock v').govDom i j = s.govDom i j := (rfl)

@[simp] theorem State.part_setFabric (v' : Fabric) (p : Nat) : (s.setFabric v').part p = s.part p := (rfl)
@[simp] theorem State.ctx_setFabric (v' : Fabric) (p n : Nat) : (s.setFabric v').ctx p n = s.ctx p n := (rfl)
@[simp] theorem State.seq_setFabric (v' : Fabric) (p : Nat) : (s.setFabric v').seq p = s.seq p := (rfl)
@[simp] theorem State.port_setFabric (v' : Fabric) (x : Nat) : (s.setFabric v').port x = s.port x := (rfl)
@[simp] theorem State.tset_setFabric (v' : Fabric) (k : Nat) : (s.setFabric v').tset k = s.tset k := (rfl)
@[simp] theorem State.space_setFabric (v' : Fabric) (n : Nat) : (s.setFabric v').space n = s.space n := (rfl)
@[simp] theorem State.obj_setFabric (v' : Fabric) (i j : Nat) : (s.setFabric v').obj i j = s.obj i j := (rfl)
@[simp] theorem State.gov_setFabric (v' : Fabric) (i j : Nat) : (s.setFabric v').gov i j = s.gov i j := (rfl)
@[simp] theorem State.dom_setFabric (v' : Fabric) (i j : Nat) : (s.setFabric v').dom i j = s.dom i j := (rfl)
@[simp] theorem State.govDom_setFabric (v' : Fabric) (i j : Nat) : (s.setFabric v').govDom i j = s.govDom i j := (rfl)

@[simp] theorem State.part_setDict (v' : Dict) (p : Nat) : (s.setDict v').part p = s.part p := (rfl)
@[simp] theorem State.ctx_setDict (v' : Dict) (p n : Nat) : (s.setDict v').ctx p n = s.ctx p n := (rfl)
@[simp] theorem State.seq_setDict (v' : Dict) (p : Nat) : (s.setDict v').seq p = s.seq p := (rfl)
@[simp] theorem State.port_setDict (v' : Dict) (x : Nat) : (s.setDict v').port x = s.port x := (rfl)
@[simp] theorem State.tset_setDict (v' : Dict) (k : Nat) : (s.setDict v').tset k = s.tset k := (rfl)
@[simp] theorem State.space_setDict (v' : Dict) (n : Nat) : (s.setDict v').space n = s.space n := (rfl)
@[simp] theorem State.die_setDict (v' : Dict) (n : Nat) : (s.setDict v').die n = s.die n := (rfl)

@[simp] theorem State.part_setVtimes (v' : Tab Nat) (p : Nat) : (s.setVtimes v').part p = s.part p := (rfl)
@[simp] theorem State.ctx_setVtimes (v' : Tab Nat) (p n : Nat) : (s.setVtimes v').ctx p n = s.ctx p n := (rfl)
@[simp] theorem State.seq_setVtimes (v' : Tab Nat) (p : Nat) : (s.setVtimes v').seq p = s.seq p := (rfl)
@[simp] theorem State.port_setVtimes (v' : Tab Nat) (x : Nat) : (s.setVtimes v').port x = s.port x := (rfl)
@[simp] theorem State.tset_setVtimes (v' : Tab Nat) (k : Nat) : (s.setVtimes v').tset k = s.tset k := (rfl)
@[simp] theorem State.space_setVtimes (v' : Tab Nat) (n : Nat) : (s.setVtimes v').space n = s.space n := (rfl)
@[simp] theorem State.die_setVtimes (v' : Tab Nat) (n : Nat) : (s.setVtimes v').die n = s.die n := (rfl)
@[simp] theorem State.obj_setVtimes (v' : Tab Nat) (i j : Nat) : (s.setVtimes v').obj i j = s.obj i j := (rfl)
@[simp] theorem State.gov_setVtimes (v' : Tab Nat) (i j : Nat) : (s.setVtimes v').gov i j = s.gov i j := (rfl)
@[simp] theorem State.dom_setVtimes (v' : Tab Nat) (i j : Nat) : (s.setVtimes v').dom i j = s.dom i j := (rfl)
@[simp] theorem State.govDom_setVtimes (v' : Tab Nat) (i j : Nat) : (s.setVtimes v').govDom i j = s.govDom i j := (rfl)

@[simp] theorem State.part_setOrders (v' : Nat) (p : Nat) : (s.setOrders v').part p = s.part p := (rfl)
@[simp] theorem State.ctx_setOrders (v' : Nat) (p n : Nat) : (s.setOrders v').ctx p n = s.ctx p n := (rfl)
@[simp] theorem State.seq_setOrders (v' : Nat) (p : Nat) : (s.setOrders v').seq p = s.seq p := (rfl)
@[simp] theorem State.port_setOrders (v' : Nat) (x : Nat) : (s.setOrders v').port x = s.port x := (rfl)
@[simp] theorem State.tset_setOrders (v' : Nat) (k : Nat) : (s.setOrders v').tset k = s.tset k := (rfl)
@[simp] theorem State.space_setOrders (v' : Nat) (n : Nat) : (s.setOrders v').space n = s.space n := (rfl)
@[simp] theorem State.die_setOrders (v' : Nat) (n : Nat) : (s.setOrders v').die n = s.die n := (rfl)
@[simp] theorem State.obj_setOrders (v' : Nat) (i j : Nat) : (s.setOrders v').obj i j = s.obj i j := (rfl)
@[simp] theorem State.gov_setOrders (v' : Nat) (i j : Nat) : (s.setOrders v').gov i j = s.gov i j := (rfl)
@[simp] theorem State.dom_setOrders (v' : Nat) (i j : Nat) : (s.setOrders v').dom i j = s.dom i j := (rfl)
@[simp] theorem State.govDom_setOrders (v' : Nat) (i j : Nat) : (s.setOrders v').govDom i j = s.govDom i j := (rfl)

@[simp] theorem State.part_setStagings (v' : List Staging) (p : Nat) : (s.setStagings v').part p = s.part p := (rfl)
@[simp] theorem State.ctx_setStagings (v' : List Staging) (p n : Nat) : (s.setStagings v').ctx p n = s.ctx p n := (rfl)
@[simp] theorem State.seq_setStagings (v' : List Staging) (p : Nat) : (s.setStagings v').seq p = s.seq p := (rfl)
@[simp] theorem State.port_setStagings (v' : List Staging) (x : Nat) : (s.setStagings v').port x = s.port x := (rfl)
@[simp] theorem State.tset_setStagings (v' : List Staging) (k : Nat) : (s.setStagings v').tset k = s.tset k := (rfl)
@[simp] theorem State.space_setStagings (v' : List Staging) (n : Nat) : (s.setStagings v').space n = s.space n := (rfl)
@[simp] theorem State.die_setStagings (v' : List Staging) (n : Nat) : (s.setStagings v').die n = s.die n := (rfl)
@[simp] theorem State.obj_setStagings (v' : List Staging) (i j : Nat) : (s.setStagings v').obj i j = s.obj i j := (rfl)
@[simp] theorem State.gov_setStagings (v' : List Staging) (i j : Nat) : (s.setStagings v').gov i j = s.gov i j := (rfl)
@[simp] theorem State.dom_setStagings (v' : List Staging) (i j : Nat) : (s.setStagings v').dom i j = s.dom i j := (rfl)
@[simp] theorem State.govDom_setStagings (v' : List Staging) (i j : Nat) : (s.setStagings v').govDom i j = s.govDom i j := (rfl)

@[simp] theorem State.part_setArms (v' : Nat) (p : Nat) : (s.setArms v').part p = s.part p := (rfl)
@[simp] theorem State.ctx_setArms (v' : Nat) (p n : Nat) : (s.setArms v').ctx p n = s.ctx p n := (rfl)
@[simp] theorem State.seq_setArms (v' : Nat) (p : Nat) : (s.setArms v').seq p = s.seq p := (rfl)
@[simp] theorem State.port_setArms (v' : Nat) (x : Nat) : (s.setArms v').port x = s.port x := (rfl)
@[simp] theorem State.tset_setArms (v' : Nat) (k : Nat) : (s.setArms v').tset k = s.tset k := (rfl)
@[simp] theorem State.space_setArms (v' : Nat) (n : Nat) : (s.setArms v').space n = s.space n := (rfl)
@[simp] theorem State.die_setArms (v' : Nat) (n : Nat) : (s.setArms v').die n = s.die n := (rfl)
@[simp] theorem State.obj_setArms (v' : Nat) (i j : Nat) : (s.setArms v').obj i j = s.obj i j := (rfl)
@[simp] theorem State.gov_setArms (v' : Nat) (i j : Nat) : (s.setArms v').gov i j = s.gov i j := (rfl)
@[simp] theorem State.dom_setArms (v' : Nat) (i j : Nat) : (s.setArms v').dom i j = s.dom i j := (rfl)
@[simp] theorem State.govDom_setArms (v' : Nat) (i j : Nat) : (s.setArms v').govDom i j = s.govDom i j := (rfl)

@[simp] theorem State.part_setErrors (v' : Errors) (p : Nat) : (s.setErrors v').part p = s.part p := (rfl)
@[simp] theorem State.ctx_setErrors (v' : Errors) (p n : Nat) : (s.setErrors v').ctx p n = s.ctx p n := (rfl)
@[simp] theorem State.seq_setErrors (v' : Errors) (p : Nat) : (s.setErrors v').seq p = s.seq p := (rfl)
@[simp] theorem State.port_setErrors (v' : Errors) (x : Nat) : (s.setErrors v').port x = s.port x := (rfl)
@[simp] theorem State.tset_setErrors (v' : Errors) (k : Nat) : (s.setErrors v').tset k = s.tset k := (rfl)
@[simp] theorem State.space_setErrors (v' : Errors) (n : Nat) : (s.setErrors v').space n = s.space n := (rfl)
@[simp] theorem State.die_setErrors (v' : Errors) (n : Nat) : (s.setErrors v').die n = s.die n := (rfl)
@[simp] theorem State.obj_setErrors (v' : Errors) (i j : Nat) : (s.setErrors v').obj i j = s.obj i j := (rfl)
@[simp] theorem State.gov_setErrors (v' : Errors) (i j : Nat) : (s.setErrors v').gov i j = s.gov i j := (rfl)
@[simp] theorem State.dom_setErrors (v' : Errors) (i j : Nat) : (s.setErrors v').dom i j = s.dom i j := (rfl)
@[simp] theorem State.govDom_setErrors (v' : Errors) (i j : Nat) : (s.setErrors v').govDom i j = s.govDom i j := (rfl)

@[simp] theorem State.part_setGuard (v' : Guard) (p : Nat) : (s.setGuard v').part p = s.part p := (rfl)
@[simp] theorem State.ctx_setGuard (v' : Guard) (p n : Nat) : (s.setGuard v').ctx p n = s.ctx p n := (rfl)
@[simp] theorem State.seq_setGuard (v' : Guard) (p : Nat) : (s.setGuard v').seq p = s.seq p := (rfl)
@[simp] theorem State.port_setGuard (v' : Guard) (x : Nat) : (s.setGuard v').port x = s.port x := (rfl)
@[simp] theorem State.tset_setGuard (v' : Guard) (k : Nat) : (s.setGuard v').tset k = s.tset k := (rfl)
@[simp] theorem State.space_setGuard (v' : Guard) (n : Nat) : (s.setGuard v').space n = s.space n := (rfl)
@[simp] theorem State.die_setGuard (v' : Guard) (n : Nat) : (s.setGuard v').die n = s.die n := (rfl)
@[simp] theorem State.obj_setGuard (v' : Guard) (i j : Nat) : (s.setGuard v').obj i j = s.obj i j := (rfl)
@[simp] theorem State.gov_setGuard (v' : Guard) (i j : Nat) : (s.setGuard v').gov i j = s.gov i j := (rfl)
@[simp] theorem State.dom_setGuard (v' : Guard) (i j : Nat) : (s.setGuard v').dom i j = s.dom i j := (rfl)
@[simp] theorem State.govDom_setGuard (v' : Guard) (i j : Nat) : (s.setGuard v').govDom i j = s.govDom i j := (rfl)

@[simp] theorem State.part_setPower (v' : Power) (p : Nat) : (s.setPower v').part p = s.part p := (rfl)
@[simp] theorem State.ctx_setPower (v' : Power) (p n : Nat) : (s.setPower v').ctx p n = s.ctx p n := (rfl)
@[simp] theorem State.seq_setPower (v' : Power) (p : Nat) : (s.setPower v').seq p = s.seq p := (rfl)
@[simp] theorem State.port_setPower (v' : Power) (x : Nat) : (s.setPower v').port x = s.port x := (rfl)
@[simp] theorem State.tset_setPower (v' : Power) (k : Nat) : (s.setPower v').tset k = s.tset k := (rfl)
@[simp] theorem State.space_setPower (v' : Power) (n : Nat) : (s.setPower v').space n = s.space n := (rfl)
@[simp] theorem State.die_setPower (v' : Power) (n : Nat) : (s.setPower v').die n = s.die n := (rfl)
@[simp] theorem State.dom_setPower (v' : Power) (i j : Nat) : (s.setPower v').dom i j = s.dom i j := (rfl)
@[simp] theorem State.govDom_setPower (v' : Power) (i j : Nat) : (s.setPower v').govDom i j = s.govDom i j := (rfl)

@[simp] theorem State.part_setSecurity (v' : Security) (p : Nat) : (s.setSecurity v').part p = s.part p := (rfl)
@[simp] theorem State.ctx_setSecurity (v' : Security) (p n : Nat) : (s.setSecurity v').ctx p n = s.ctx p n := (rfl)
@[simp] theorem State.seq_setSecurity (v' : Security) (p : Nat) : (s.setSecurity v').seq p = s.seq p := (rfl)
@[simp] theorem State.port_setSecurity (v' : Security) (x : Nat) : (s.setSecurity v').port x = s.port x := (rfl)
@[simp] theorem State.tset_setSecurity (v' : Security) (k : Nat) : (s.setSecurity v').tset k = s.tset k := (rfl)
@[simp] theorem State.space_setSecurity (v' : Security) (n : Nat) : (s.setSecurity v').space n = s.space n := (rfl)
@[simp] theorem State.die_setSecurity (v' : Security) (n : Nat) : (s.setSecurity v').die n = s.die n := (rfl)
@[simp] theorem State.obj_setSecurity (v' : Security) (i j : Nat) : (s.setSecurity v').obj i j = s.obj i j := (rfl)
@[simp] theorem State.gov_setSecurity (v' : Security) (i j : Nat) : (s.setSecurity v').gov i j = s.gov i j := (rfl)
@[simp] theorem State.dom_setSecurity (v' : Security) (i j : Nat) : (s.setSecurity v').dom i j = s.dom i j := (rfl)
@[simp] theorem State.govDom_setSecurity (v' : Security) (i j : Nat) : (s.setSecurity v').govDom i j = s.govDom i j := (rfl)

@[simp] theorem State.part_setObserve (v' : Observe) (p : Nat) : (s.setObserve v').part p = s.part p := (rfl)
@[simp] theorem State.ctx_setObserve (v' : Observe) (p n : Nat) : (s.setObserve v').ctx p n = s.ctx p n := (rfl)
@[simp] theorem State.seq_setObserve (v' : Observe) (p : Nat) : (s.setObserve v').seq p = s.seq p := (rfl)
@[simp] theorem State.port_setObserve (v' : Observe) (x : Nat) : (s.setObserve v').port x = s.port x := (rfl)
@[simp] theorem State.tset_setObserve (v' : Observe) (k : Nat) : (s.setObserve v').tset k = s.tset k := (rfl)
@[simp] theorem State.space_setObserve (v' : Observe) (n : Nat) : (s.setObserve v').space n = s.space n := (rfl)
@[simp] theorem State.die_setObserve (v' : Observe) (n : Nat) : (s.setObserve v').die n = s.die n := (rfl)
@[simp] theorem State.obj_setObserve (v' : Observe) (i j : Nat) : (s.setObserve v').obj i j = s.obj i j := (rfl)
@[simp] theorem State.gov_setObserve (v' : Observe) (i j : Nat) : (s.setObserve v').gov i j = s.gov i j := (rfl)
@[simp] theorem State.dom_setObserve (v' : Observe) (i j : Nat) : (s.setObserve v').dom i j = s.dom i j := (rfl)
@[simp] theorem State.govDom_setObserve (v' : Observe) (i j : Nat) : (s.setObserve v').govDom i j = s.govDom i j := (rfl)

@[simp] theorem State.part_setHold (v' : Nat) (p : Nat) : (s.setHold v').part p = s.part p := (rfl)
@[simp] theorem State.ctx_setHold (v' : Nat) (p n : Nat) : (s.setHold v').ctx p n = s.ctx p n := (rfl)
@[simp] theorem State.seq_setHold (v' : Nat) (p : Nat) : (s.setHold v').seq p = s.seq p := (rfl)
@[simp] theorem State.port_setHold (v' : Nat) (x : Nat) : (s.setHold v').port x = s.port x := (rfl)
@[simp] theorem State.tset_setHold (v' : Nat) (k : Nat) : (s.setHold v').tset k = s.tset k := (rfl)
@[simp] theorem State.space_setHold (v' : Nat) (n : Nat) : (s.setHold v').space n = s.space n := (rfl)
@[simp] theorem State.die_setHold (v' : Nat) (n : Nat) : (s.setHold v').die n = s.die n := (rfl)
@[simp] theorem State.obj_setHold (v' : Nat) (i j : Nat) : (s.setHold v').obj i j = s.obj i j := (rfl)
@[simp] theorem State.gov_setHold (v' : Nat) (i j : Nat) : (s.setHold v').gov i j = s.gov i j := (rfl)
@[simp] theorem State.dom_setHold (v' : Nat) (i j : Nat) : (s.setHold v').dom i j = s.dom i j := (rfl)
@[simp] theorem State.govDom_setHold (v' : Nat) (i j : Nat) : (s.setHold v').govDom i j = s.govDom i j := (rfl)

@[simp] theorem State.part_setFree (v' : Nat) (p : Nat) : (s.setFree v').part p = s.part p := (rfl)
@[simp] theorem State.ctx_setFree (v' : Nat) (p n : Nat) : (s.setFree v').ctx p n = s.ctx p n := (rfl)
@[simp] theorem State.seq_setFree (v' : Nat) (p : Nat) : (s.setFree v').seq p = s.seq p := (rfl)
@[simp] theorem State.port_setFree (v' : Nat) (x : Nat) : (s.setFree v').port x = s.port x := (rfl)
@[simp] theorem State.tset_setFree (v' : Nat) (k : Nat) : (s.setFree v').tset k = s.tset k := (rfl)
@[simp] theorem State.space_setFree (v' : Nat) (n : Nat) : (s.setFree v').space n = s.space n := (rfl)
@[simp] theorem State.die_setFree (v' : Nat) (n : Nat) : (s.setFree v').die n = s.die n := (rfl)
@[simp] theorem State.obj_setFree (v' : Nat) (i j : Nat) : (s.setFree v').obj i j = s.obj i j := (rfl)
@[simp] theorem State.gov_setFree (v' : Nat) (i j : Nat) : (s.setFree v').gov i j = s.gov i j := (rfl)
@[simp] theorem State.dom_setFree (v' : Nat) (i j : Nat) : (s.setFree v').dom i j = s.dom i j := (rfl)
@[simp] theorem State.govDom_setFree (v' : Nat) (i j : Nat) : (s.setFree v').govDom i j = s.govDom i j := (rfl)

@[simp] theorem State.part_updPower (f' : Power → Power) (p : Nat) : (s.updPower f').part p = s.part p := (rfl)
@[simp] theorem State.ctx_updPower (f' : Power → Power) (p n : Nat) : (s.updPower f').ctx p n = s.ctx p n := (rfl)
@[simp] theorem State.seq_updPower (f' : Power → Power) (p : Nat) : (s.updPower f').seq p = s.seq p := (rfl)
@[simp] theorem State.port_updPower (f' : Power → Power) (x : Nat) : (s.updPower f').port x = s.port x := (rfl)
@[simp] theorem State.tset_updPower (f' : Power → Power) (k : Nat) : (s.updPower f').tset k = s.tset k := (rfl)
@[simp] theorem State.space_updPower (f' : Power → Power) (n : Nat) : (s.updPower f').space n = s.space n := (rfl)
@[simp] theorem State.die_updPower (f' : Power → Power) (n : Nat) : (s.updPower f').die n = s.die n := (rfl)
@[simp] theorem State.dom_updPower (f' : Power → Power) (i j : Nat) : (s.updPower f').dom i j = s.dom i j := (rfl)
@[simp] theorem State.govDom_updPower (f' : Power → Power) (i j : Nat) : (s.updPower f').govDom i j = s.govDom i j := (rfl)

@[simp] theorem State.part_updDict (f' : Dict → Dict) (p : Nat) : (s.updDict f').part p = s.part p := (rfl)
@[simp] theorem State.ctx_updDict (f' : Dict → Dict) (p n : Nat) : (s.updDict f').ctx p n = s.ctx p n := (rfl)
@[simp] theorem State.seq_updDict (f' : Dict → Dict) (p : Nat) : (s.updDict f').seq p = s.seq p := (rfl)
@[simp] theorem State.port_updDict (f' : Dict → Dict) (x : Nat) : (s.updDict f').port x = s.port x := (rfl)
@[simp] theorem State.tset_updDict (f' : Dict → Dict) (k : Nat) : (s.updDict f').tset k = s.tset k := (rfl)
@[simp] theorem State.space_updDict (f' : Dict → Dict) (n : Nat) : (s.updDict f').space n = s.space n := (rfl)
@[simp] theorem State.die_updDict (f' : Dict → Dict) (n : Nat) : (s.updDict f').die n = s.die n := (rfl)

@[simp] theorem State.part_draw (p : Nat) : (s.draw).part p = s.part p := (rfl)
@[simp] theorem State.ctx_draw (p n : Nat) : (s.draw).ctx p n = s.ctx p n := (rfl)
@[simp] theorem State.seq_draw (p : Nat) : (s.draw).seq p = s.seq p := (rfl)
@[simp] theorem State.port_draw (x : Nat) : (s.draw).port x = s.port x := (rfl)
@[simp] theorem State.tset_draw (k : Nat) : (s.draw).tset k = s.tset k := (rfl)
@[simp] theorem State.space_draw (n : Nat) : (s.draw).space n = s.space n := (rfl)
@[simp] theorem State.die_draw (n : Nat) : (s.draw).die n = s.die n := (rfl)
@[simp] theorem State.obj_draw (i j : Nat) : (s.draw).obj i j = s.obj i j := (rfl)
@[simp] theorem State.gov_draw (i j : Nat) : (s.draw).gov i j = s.gov i j := (rfl)
@[simp] theorem State.dom_draw (i j : Nat) : (s.draw).dom i j = s.dom i j := (rfl)
@[simp] theorem State.govDom_draw (i j : Nat) : (s.draw).govDom i j = s.govDom i j := (rfl)

@[simp] theorem State.part_put (i' j' v' : Nat) (p : Nat) : (s.put i' j' v').part p = s.part p := (rfl)
@[simp] theorem State.ctx_put (i' j' v' : Nat) (p n : Nat) : (s.put i' j' v').ctx p n = s.ctx p n := (rfl)
@[simp] theorem State.seq_put (i' j' v' : Nat) (p : Nat) : (s.put i' j' v').seq p = s.seq p := (rfl)
@[simp] theorem State.port_put (i' j' v' : Nat) (x : Nat) : (s.put i' j' v').port x = s.port x := (rfl)
@[simp] theorem State.tset_put (i' j' v' : Nat) (k : Nat) : (s.put i' j' v').tset k = s.tset k := (rfl)
@[simp] theorem State.space_put (i' j' v' : Nat) (n : Nat) : (s.put i' j' v').space n = s.space n := (rfl)
@[simp] theorem State.die_put (i' j' v' : Nat) (n : Nat) : (s.put i' j' v').die n = s.die n := (rfl)

@[simp] theorem State.part_bump (i' j' n' : Nat) (p : Nat) : (s.bump i' j' n').part p = s.part p := (rfl)
@[simp] theorem State.ctx_bump (i' j' n' : Nat) (p n : Nat) : (s.bump i' j' n').ctx p n = s.ctx p n := (rfl)
@[simp] theorem State.seq_bump (i' j' n' : Nat) (p : Nat) : (s.bump i' j' n').seq p = s.seq p := (rfl)
@[simp] theorem State.port_bump (i' j' n' : Nat) (x : Nat) : (s.bump i' j' n').port x = s.port x := (rfl)
@[simp] theorem State.tset_bump (i' j' n' : Nat) (k : Nat) : (s.bump i' j' n').tset k = s.tset k := (rfl)
@[simp] theorem State.space_bump (i' j' n' : Nat) (n : Nat) : (s.bump i' j' n').space n = s.space n := (rfl)
@[simp] theorem State.die_bump (i' j' n' : Nat) (n : Nat) : (s.bump i' j' n').die n = s.die n := (rfl)

@[simp] theorem State.part_bumpSat (i' j' n' : Nat) (p : Nat) : (s.bumpSat i' j' n').part p = s.part p := (rfl)
@[simp] theorem State.ctx_bumpSat (i' j' n' : Nat) (p n : Nat) : (s.bumpSat i' j' n').ctx p n = s.ctx p n := (rfl)
@[simp] theorem State.seq_bumpSat (i' j' n' : Nat) (p : Nat) : (s.bumpSat i' j' n').seq p = s.seq p := (rfl)
@[simp] theorem State.port_bumpSat (i' j' n' : Nat) (x : Nat) : (s.bumpSat i' j' n').port x = s.port x := (rfl)
@[simp] theorem State.tset_bumpSat (i' j' n' : Nat) (k : Nat) : (s.bumpSat i' j' n').tset k = s.tset k := (rfl)
@[simp] theorem State.space_bumpSat (i' j' n' : Nat) (n : Nat) : (s.bumpSat i' j' n').space n = s.space n := (rfl)
@[simp] theorem State.die_bumpSat (i' j' n' : Nat) (n : Nat) : (s.bumpSat i' j' n').die n = s.die n := (rfl)

@[simp] theorem State.part_putGov (i' j' v' : Nat) (p : Nat) : (s.putGov i' j' v').part p = s.part p := (rfl)
@[simp] theorem State.ctx_putGov (i' j' v' : Nat) (p n : Nat) : (s.putGov i' j' v').ctx p n = s.ctx p n := (rfl)
@[simp] theorem State.seq_putGov (i' j' v' : Nat) (p : Nat) : (s.putGov i' j' v').seq p = s.seq p := (rfl)
@[simp] theorem State.port_putGov (i' j' v' : Nat) (x : Nat) : (s.putGov i' j' v').port x = s.port x := (rfl)
@[simp] theorem State.tset_putGov (i' j' v' : Nat) (k : Nat) : (s.putGov i' j' v').tset k = s.tset k := (rfl)
@[simp] theorem State.space_putGov (i' j' v' : Nat) (n : Nat) : (s.putGov i' j' v').space n = s.space n := (rfl)
@[simp] theorem State.die_putGov (i' j' v' : Nat) (n : Nat) : (s.putGov i' j' v').die n = s.die n := (rfl)

@[simp] theorem State.part_putDom (i' j' : Nat) (v' : Bytes) (p : Nat) : (s.putDom i' j' v').part p = s.part p := (rfl)
@[simp] theorem State.ctx_putDom (i' j' : Nat) (v' : Bytes) (p n : Nat) : (s.putDom i' j' v').ctx p n = s.ctx p n := (rfl)
@[simp] theorem State.seq_putDom (i' j' : Nat) (v' : Bytes) (p : Nat) : (s.putDom i' j' v').seq p = s.seq p := (rfl)
@[simp] theorem State.port_putDom (i' j' : Nat) (v' : Bytes) (x : Nat) : (s.putDom i' j' v').port x = s.port x := (rfl)
@[simp] theorem State.tset_putDom (i' j' : Nat) (v' : Bytes) (k : Nat) : (s.putDom i' j' v').tset k = s.tset k := (rfl)
@[simp] theorem State.space_putDom (i' j' : Nat) (v' : Bytes) (n : Nat) : (s.putDom i' j' v').space n = s.space n := (rfl)
@[simp] theorem State.die_putDom (i' j' : Nat) (v' : Bytes) (n : Nat) : (s.putDom i' j' v').die n = s.die n := (rfl)

/-! ### The numeric objects -/

theorem State.obj_put (i j v a b : Nat) :
    (s.put i j v).obj a b = if objKey a b = objKey i j then v % 2 ^ objBits i j % 2 ^ 64 else s.obj a b := by
  have h : objDefault (s.put i j v) a b = objDefault s a b := rfl
  rw [State.obj, h, State.obj]
  simp only [State.put, Tab.get_set]
  by_cases hk : objKey a b = objKey i j
  · simp only [hk, if_true, BitVec.toNat_ofNat]
  · simp only [hk, if_false]

theorem State.obj_putGov (i j v a b : Nat) : (s.putGov i j v).obj a b = s.obj a b := rfl

theorem State.gov_putGov (i j v a b : Nat) :
    (s.putGov i j v).gov a b = if objKey a b = objKey i j then v % 2 ^ objBits i j % 2 ^ 64 else s.gov a b := by
  have h : objDefault (s.putGov i j v) a b = objDefault s a b := rfl
  rw [State.gov, h, State.gov]
  simp only [State.putGov, Tab.get_set]
  by_cases hk : objKey a b = objKey i j
  · simp only [hk, if_true, BitVec.toNat_ofNat]
  · simp only [hk, if_false]

@[simp] theorem State.gov_put (i j v a b : Nat) : (s.put i j v).gov a b = s.gov a b := rfl
@[simp] theorem State.gov_bump (i j n a b : Nat) : (s.bump i j n).gov a b = s.gov a b := rfl
@[simp] theorem State.gov_bumpSat (i j n a b : Nat) : (s.bumpSat i j n).gov a b = s.gov a b := rfl

end Sys2Proof.Machine
end

