-- ==== Sys2Proof/Laws/Frame.lean ====
section
/-! SUPPORT. Frames: what is kept of a state when the places of a list may change. `keep W (f s) = keep W s` says that
`f` changes nothing but places of `W`; there is one such lemma for each operation, so that the frame of a command
follows by rewriting. -/

namespace Sys2Proof.Machine

/-- What a state holds outside a list of places. -/
structure Kept where
  clock : Option Clock
  fabric : Option Fabric
  dict : Option Dict
  vtimes : Option (Tab Nat)
  orders : Option Nat
  stagings : Option (List Staging)
  arms : Option Nat
  media : Option Media
  errors : Option Errors
  guard : Option Guard
  power : Option Power
  security : Option Security
  observe : Option Observe
  hold : Option Nat
  free : Option Nat
  pending : Option (List Instr)
  tiers : Option Mem
  dies : Option (Tab Die)
  device : Option Nat
  powerState : Option Nat
  powerTarget : Option (Option Nat)
  stage : Option Nat
  life : Option Nat
  lifeDue : Option (Option Nat)
  part : Nat → Option Partition
  ctx : Nat → Option Context
  seq : Nat → Option Seq
  tset : Nat → Option TaskSet
  port : Nat → Option PortSt

/-- A state with the places of a list left out. -/
def keep (W : List Place) (s : State) : Kept where
  clock := if .clock ∈ W then none else some s.clock
  fabric := if .fabric ∈ W then none else some s.fabric
  dict := if .dict ∈ W then none else some s.dict
  vtimes := if .vtimes ∈ W then none else some s.vtimes
  orders := if .orders ∈ W then none else some s.orders
  stagings := if .stagings ∈ W then none else some s.stagings
  arms := if .arms ∈ W then none else some s.arms
  media := if .media ∈ W then none else some s.media
  errors := if .errors ∈ W then none else some s.errors
  guard := if .guard ∈ W then none else some s.guard
  power := if .power ∈ W then none else some s.power
  security := if .security ∈ W then none else some s.security
  observe := if .observe ∈ W then none else some s.observe
  hold := if .hold ∈ W then none else some s.hold
  free := if .free ∈ W then none else some s.free
  pending := if .pending ∈ W then none else some s.pending
  tiers := if .tiers ∈ W then none else some s.fabric.mem
  dies := if .dies ∈ W then none else some s.fabric.dies
  device := if .device ∈ W then none else some s.errors.device
  powerState := if .powerState ∈ W then none else some s.power.state
  powerTarget := if .powerTarget ∈ W then none else some s.power.target
  stage := if .stage ∈ W then none else some s.power.stage
  life := if .life ∈ W then none else some s.security.state
  lifeDue := if .lifeDue ∈ W then none else some s.security.due
  part := fun k => if .part k ∈ W ∨ .parts ∈ W then none else some (s.part k)
  ctx := fun k => if .ctx k ∈ W ∨ .ctxs ∈ W then none else some (s.ctxs.get Context.none k)
  seq := fun k => if .seq k ∈ W ∨ .seqs ∈ W then none else some (s.seq k)
  tset := fun k => if .tset k ∈ W ∨ .sets ∈ W then none else some (s.tset k)
  port := fun k => if .port k ∈ W ∨ .ports ∈ W then none else some (s.port k)

/-- Every place but the queue of waiting commands. -/
def Place.most : List Place :=
  [.clock, .fabric, .tiers, .dies, .dict, .parts, .ctxs, .seqs, .vtimes, .sets, .ports, .orders, .stagings, .arms,
    .media, .errors, .device, .guard, .power, .powerState, .powerTarget, .stage, .security, .life, .lifeDue, .observe, .hold, .free]

@[simp] theorem Place.table_clock : Place.table .clock = .clock := (rfl)
@[simp] theorem Place.table_fabric : Place.table .fabric = .fabric := (rfl)
@[simp] theorem Place.table_tiers : Place.table .tiers = .tiers := (rfl)
@[simp] theorem Place.table_dies : Place.table .dies = .dies := (rfl)
@[simp] theorem Place.table_dict : Place.table .dict = .dict := (rfl)
@[simp] theorem Place.table_parts : Place.table .parts = .parts := (rfl)
@[simp] theorem Place.table_ctxs : Place.table .ctxs = .ctxs := (rfl)
@[simp] theorem Place.table_seqs : Place.table .seqs = .seqs := (rfl)
@[simp] theorem Place.table_vtimes : Place.table .vtimes = .vtimes := (rfl)
@[simp] theorem Place.table_sets : Place.table .sets = .sets := (rfl)
@[simp] theorem Place.table_ports : Place.table .ports = .ports := (rfl)
@[simp] theorem Place.table_orders : Place.table .orders = .orders := (rfl)
@[simp] theorem Place.table_stagings : Place.table .stagings = .stagings := (rfl)
@[simp] theorem Place.table_arms : Place.table .arms = .arms := (rfl)
@[simp] theorem Place.table_media : Place.table .media = .media := (rfl)
@[simp] theorem Place.table_errors : Place.table .errors = .errors := (rfl)
@[simp] theorem Place.table_device : Place.table .device = .device := (rfl)
@[simp] theorem Place.table_guard : Place.table .guard = .guard := (rfl)
@[simp] theorem Place.table_power : Place.table .power = .power := (rfl)
@[simp] theorem Place.table_powerState : Place.table .powerState = .powerState := (rfl)
@[simp] theorem Place.table_powerTarget : Place.table .powerTarget = .powerTarget := (rfl)
@[simp] theorem Place.table_stage : Place.table .stage = .stage := (rfl)
@[simp] theorem Place.table_security : Place.table .security = .security := (rfl)
@[simp] theorem Place.table_life : Place.table .life = .life := (rfl)
@[simp] theorem Place.table_lifeDue : Place.table .lifeDue = .lifeDue := (rfl)
@[simp] theorem Place.table_observe : Place.table .observe = .observe := (rfl)
@[simp] theorem Place.table_hold : Place.table .hold = .hold := (rfl)
@[simp] theorem Place.table_free : Place.table .free = .free := (rfl)

theorem Place.mem_most (q : Place) (h : q ≠ .pending) (ht : q.table = q) : q ∈ Place.most := by
  cases q <;> simp_all [Place.most, Place.table]

variable {W : List Place}

/-- A list that lets everything but the queue change. -/
def Place.All (W : List Place) : Prop := ∀ q : Place, q ≠ .pending → q.table = q → q ∈ W

theorem Place.all_most : Place.All Place.most := Place.mem_most

@[simp] theorem Place.All.clock (h : Place.All W) : .clock ∈ W := h _ (by simp) (by simp)
@[simp] theorem Place.All.fabric (h : Place.All W) : .fabric ∈ W := h _ (by simp) (by simp)
@[simp] theorem Place.All.tiers (h : Place.All W) : .tiers ∈ W := h _ (by simp) (by simp)
@[simp] theorem Place.All.dies (h : Place.All W) : .dies ∈ W := h _ (by simp) (by simp)
@[simp] theorem Place.All.dict (h : Place.All W) : .dict ∈ W := h _ (by simp) (by simp)
@[simp] theorem Place.All.parts (h : Place.All W) : .parts ∈ W := h _ (by simp) (by simp)
@[simp] theorem Place.All.ctxs (h : Place.All W) : .ctxs ∈ W := h _ (by simp) (by simp)
@[simp] theorem Place.All.seqs (h : Place.All W) : .seqs ∈ W := h _ (by simp) (by simp)
@[simp] theorem Place.All.vtimes (h : Place.All W) : .vtimes ∈ W := h _ (by simp) (by simp)
@[simp] theorem Place.All.sets (h : Place.All W) : .sets ∈ W := h _ (by simp) (by simp)
@[simp] theorem Place.All.ports (h : Place.All W) : .ports ∈ W := h _ (by simp) (by simp)
@[simp] theorem Place.All.orders (h : Place.All W) : .orders ∈ W := h _ (by simp) (by simp)
@[simp] theorem Place.All.stagings (h : Place.All W) : .stagings ∈ W := h _ (by simp) (by simp)
@[simp] theorem Place.All.arms (h : Place.All W) : .arms ∈ W := h _ (by simp) (by simp)
@[simp] theorem Place.All.media (h : Place.All W) : .media ∈ W := h _ (by simp) (by simp)
@[simp] theorem Place.All.errors (h : Place.All W) : .errors ∈ W := h _ (by simp) (by simp)
@[simp] theorem Place.All.device (h : Place.All W) : .device ∈ W := h _ (by simp) (by simp)
@[simp] theorem Place.All.guard (h : Place.All W) : .guard ∈ W := h _ (by simp) (by simp)
@[simp] theorem Place.All.power (h : Place.All W) : .power ∈ W := h _ (by simp) (by simp)
@[simp] theorem Place.All.powerState (h : Place.All W) : .powerState ∈ W := h _ (by simp) (by simp)
@[simp] theorem Place.All.powerTarget (h : Place.All W) : .powerTarget ∈ W := h _ (by simp) (by simp)
@[simp] theorem Place.All.stage (h : Place.All W) : .stage ∈ W := h _ (by simp) (by simp)
@[simp] theorem Place.All.security (h : Place.All W) : .security ∈ W := h _ (by simp) (by simp)
@[simp] theorem Place.All.life (h : Place.All W) : .life ∈ W := h _ (by simp) (by simp)
@[simp] theorem Place.All.lifeDue (h : Place.All W) : .lifeDue ∈ W := h _ (by simp) (by simp)
@[simp] theorem Place.All.observe (h : Place.All W) : .observe ∈ W := h _ (by simp) (by simp)
@[simp] theorem Place.All.hold (h : Place.All W) : .hold ∈ W := h _ (by simp) (by simp)
@[simp] theorem Place.All.free (h : Place.All W) : .free ∈ W := h _ (by simp) (by simp)


/-- States that agree outside `W` differ in the places of `W` alone. -/
theorem changes_of_keep {s t : State} (h : keep W t = keep W s) : Changes W s t := by
  intro q hq ht
  cases q
  case clock =>
    have := congrArg Kept.clock h
    simpa [keep, Place.same, if_neg hq] using this
  case fabric =>
    have := congrArg Kept.fabric h
    simpa [keep, Place.same, if_neg hq] using this
  case tiers =>
    have := congrArg Kept.tiers h
    simpa [keep, Place.same, if_neg hq] using this
  case dies =>
    have := congrArg Kept.dies h
    simpa [keep, Place.same, if_neg hq] using this
  case dict =>
    have := congrArg Kept.dict h
    simpa [keep, Place.same, if_neg hq] using this
  case parts => trivial
  case part k =>
    have := congrFun (congrArg Kept.part h) k
    simpa [keep, Place.same, if_neg hq, show Place.parts ∉ W from ht] using this
  case ctxs => trivial
  case ctx k =>
    have := congrFun (congrArg Kept.ctx h) k
    simpa [keep, Place.same, if_neg hq, show Place.ctxs ∉ W from ht] using this
  case seqs => trivial
  case seq k =>
    have := congrFun (congrArg Kept.seq h) k
    simpa [keep, Place.same, if_neg hq, show Place.seqs ∉ W from ht] using this
  case vtimes =>
    have := congrArg Kept.vtimes h
    simpa [keep, Place.same, if_neg hq] using this
  case sets => trivial
  case tset k =>
    have := congrFun (congrArg Kept.tset h) k
    simpa [keep, Place.same, if_neg hq, show Place.sets ∉ W from ht] using this
  case ports => trivial
  case port k =>
    have := congrFun (congrArg Kept.port h) k
    simpa [keep, Place.same, if_neg hq, show Place.ports ∉ W from ht] using this
  case orders =>
    have := congrArg Kept.orders h
    simpa [keep, Place.same, if_neg hq] using this
  case stagings =>
    have := congrArg Kept.stagings h
    simpa [keep, Place.same, if_neg hq] using this
  case arms =>
    have := congrArg Kept.arms h
    simpa [keep, Place.same, if_neg hq] using this
  case media =>
    have := congrArg Kept.media h
    simpa [keep, Place.same, if_neg hq] using this
  case errors =>
    have := congrArg Kept.errors h
    simpa [keep, Place.same, if_neg hq] using this
  case device =>
    have := congrArg Kept.device h
    simpa [keep, Place.same, if_neg hq] using this
  case guard =>
    have := congrArg Kept.guard h
    simpa [keep, Place.same, if_neg hq] using this
  case power =>
    have := congrArg Kept.power h
    simpa [keep, Place.same, if_neg hq] using this
  case powerState =>
    have := congrArg Kept.powerState h
    simpa [keep, Place.same, if_neg hq] using this
  case powerTarget =>
    have := congrArg Kept.powerTarget h
    simpa [keep, Place.same, if_neg hq] using this
  case stage =>
    have := congrArg Kept.stage h
    simpa [keep, Place.same, if_neg hq] using this
  case security =>
    have := congrArg Kept.security h
    simpa [keep, Place.same, if_neg hq] using this
  case life =>
    have := congrArg Kept.life h
    simpa [keep, Place.same, if_neg hq] using this
  case lifeDue =>
    have := congrArg Kept.lifeDue h
    simpa [keep, Place.same, if_neg hq] using this
  case observe =>
    have := congrArg Kept.observe h
    simpa [keep, Place.same, if_neg hq] using this
  case hold =>
    have := congrArg Kept.hold h
    simpa [keep, Place.same, if_neg hq] using this
  case free =>
    have := congrArg Kept.free h
    simpa [keep, Place.same, if_neg hq] using this
  case pending =>
    have := congrArg Kept.pending h
    simpa [keep, Place.same, if_neg hq] using this

/-- States that differ in the places of `W` alone agree outside it. -/
theorem keep_of_changes {s t : State} (h : Changes W s t) : keep W t = keep W s := by
  have c : ∀ q : Place, q.table = q → q ∉ W → q.same s t := fun q hq hl => h q hl (by rw [hq]; exact hl)
  have f : ∀ q : Place, ¬ (q ∈ W ∨ q.table ∈ W) → q.same s t := fun q hq => h q (fun a => hq (.inl a)) (fun a => hq (.inr a))
  simp only [keep, Kept.mk.injEq]
  refine ⟨?_, ?_, ?_, ?_, ?_, ?_, ?_, ?_, ?_, ?_, ?_, ?_, ?_, ?_, ?_, ?_, ?_, ?_, ?_, ?_, ?_, ?_, ?_, ?_, ?_, ?_, ?_, ?_, ?_⟩
  · split
    · rfl
    · exact congrArg some (c .clock rfl (by assumption))
  · split
    · rfl
    · exact congrArg some (c .fabric rfl (by assumption))
  · split
    · rfl
    · exact congrArg some (c .dict rfl (by assumption))
  · split
    · rfl
    · exact congrArg some (c .vtimes rfl (by assumption))
  · split
    · rfl
    · exact congrArg some (c .orders rfl (by assumption))
  · split
    · rfl
    · exact congrArg some (c .stagings rfl (by assumption))
  · split
    · rfl
    · exact congrArg some (c .arms rfl (by assumption))
  · split
    · rfl
    · exact congrArg some (c .media rfl (by assumption))
  · split
    · rfl
    · exact congrArg some (c .errors rfl (by assumption))
  · split
    · rfl
    · exact congrArg some (c .guard rfl (by assumption))
  · split
    · rfl
    · exact congrArg some (c .power rfl (by assumption))
  · split
    · rfl
    · exact congrArg some (c .security rfl (by assumption))
  · split
    · rfl
    · exact congrArg some (c .observe rfl (by assumption))
  · split
    · rfl
    · exact congrArg some (c .hold rfl (by assumption))
  · split
    · rfl
    · exact congrArg some (c .free rfl (by assumption))
  · split
    · rfl
    · exact congrArg some (c .pending rfl (by assumption))
  · split
    · rfl
    · exact congrArg some (c .tiers rfl (by assumption))
  · split
    · rfl
    · exact congrArg some (c .dies rfl (by assumption))
  · split
    · rfl
    · exact congrArg some (c .device rfl (by assumption))
  · split
    · rfl
    · exact congrArg some (c .powerState rfl (by assumption))
  · split
    · rfl
    · exact congrArg some (c .powerTarget rfl (by assumption))
  · split
    · rfl
    · exact congrArg some (c .stage rfl (by assumption))
  · split
    · rfl
    · exact congrArg some (c .life rfl (by assumption))
  · split
    · rfl
    · exact congrArg some (c .lifeDue rfl (by assumption))
  · funext k
    split
    · rfl
    · exact congrArg some (f (.part k) (by assumption))
  · funext k
    split
    · rfl
    · exact congrArg some (f (.ctx k) (by assumption))
  · funext k
    split
    · rfl
    · exact congrArg some (f (.seq k) (by assumption))
  · funext k
    split
    · rfl
    · exact congrArg some (f (.tset k) (by assumption))
  · funext k
    split
    · rfl
    · exact congrArg some (f (.port k) (by assumption))

theorem changes_iff_keep {s t : State} : Changes W s t ↔ keep W t = keep W s := ⟨keep_of_changes, changes_of_keep⟩

/-! ### Branches and loops -/

@[simp] theorem keep_ite (c : Prop) [Decidable c] (a b : State) :
    keep W (if c then a else b) = if c then keep W a else keep W b := apply_ite ..

@[simp] theorem keep_dite (c : Prop) [Decidable c] (a : c → State) (b : ¬c → State) :
    keep W (if h : c then a h else b h) = if h : c then keep W (a h) else keep W (b h) := apply_dite ..

@[simp] theorem keep_each {α : Type} (s : State) (xs : List α) (f : State → α → State)
    (hf : ∀ t a, keep W (f t a) = keep W t) : keep W (s.each xs f) = keep W s := by
  induction xs generalizing s with
  | nil => rfl
  | cons a xs ih => exact (ih (f s a)).trans (hf s a)

@[simp] theorem keep_foldl {α : Type} (s : State) (xs : List α) (f : State → α → State)
    (hf : ∀ t a, keep W (f t a) = keep W t) : keep W (xs.foldl f s) = keep W s := keep_each s xs f hf

/-- As keep_each, for elements of the list alone. -/
theorem keep_each_mem {α : Type} (s : State) (xs : List α) (f : State → α → State)
    (hf : ∀ t, ∀ a ∈ xs, keep W (f t a) = keep W t) : keep W (s.each xs f) = keep W s := by
  induction xs generalizing s with
  | nil => rfl
  | cons a xs ih => exact (ih (f s a) (fun t b hb => hf t b (by simp [hb]))).trans (hf s a (by simp))

/-! ### Outcomes -/

/-- The outcome is a next state that differs from `s` in the places of `W` alone. -/
def Answers (W : List Place) (s : State) (o : Host.Outcome State Fault Refusal) : Prop :=
  ∃ t, o = .next t ∧ keep W t = keep W s

@[simp] theorem answers_next (s t : State) : Answers W s (.next t) ↔ keep W t = keep W s :=
  ⟨fun ⟨u, hu, h⟩ => by cases hu; exact h, fun h => ⟨t, rfl, h⟩⟩

@[simp] theorem answers_ite (s : State) (c : Prop) [Decidable c] (a b : Host.Outcome State Fault Refusal) :
    Answers W s (if c then a else b) ↔ if c then Answers W s a else Answers W s b := by
  split <;> rfl

/-! ### The updates of a part -/

@[simp] theorem State.keep_setPart (s : State) (p : Nat) (x : Partition)
    (h : .part p ∈ W ∨ .parts ∈ W) :
    keep W (s.setPart p x) = keep W s := by
  simp only [keep, State.part, State.seq, State.port, State.tset, Kept.mk.injEq, true_and, and_true, State.setPart]
  funext j
  by_cases hj : j = p
  · subst hj; simp [h]
  · simp [Tab.get_set, hj]

@[simp] theorem State.keep_setSeq (s : State) (p : Nat) (x : Seq)
    (h : .seq p ∈ W ∨ .seqs ∈ W) :
    keep W (s.setSeq p x) = keep W s := by
  simp only [keep, State.part, State.seq, State.port, State.tset, Kept.mk.injEq, true_and, and_true, State.setSeq]
  funext j
  by_cases hj : j = p
  · subst hj; simp [h]
  · simp [Tab.get_set, hj]

@[simp] theorem State.keep_setPort (s : State) (x : Nat) (v : PortSt)
    (h : .port x ∈ W ∨ .ports ∈ W) :
    keep W (s.setPort x v) = keep W s := by
  simp only [keep, State.part, State.seq, State.port, State.tset, Kept.mk.injEq, true_and, State.setPort]
  funext j
  by_cases hj : j = x
  · subst hj; simp [h]
  · simp [Tab.get_set, hj]

@[simp] theorem State.keep_setTset (s : State) (k : Nat) (v : TaskSet)
    (h : .tset k ∈ W ∨ .sets ∈ W) :
    keep W (s.setTset k v) = keep W s := by
  simp only [keep, State.part, State.seq, State.port, State.tset, Kept.mk.injEq, true_and, and_true, State.setTset]
  funext j
  by_cases hj : j = k
  · subst hj; simp [h]
  · simp [Tab.get_set, hj]

@[simp] theorem State.keep_setCtx (s : State) (p n : Nat) (x : Context)
    (h : .ctx (p * 16 + n) ∈ W ∨ .ctxs ∈ W) :
    keep W (s.setCtx p n x) = keep W s := by
  simp only [keep, State.part, State.seq, State.port, State.tset, Kept.mk.injEq, true_and, and_true, State.setCtx]
  funext j
  by_cases hj : j = (p * 16 + n)
  · subst hj; simp [h]
  · simp [Tab.get_set, hj]

@[simp] theorem State.keep_setClock (s : State) (v : Clock)
    (h : .clock ∈ W) :
    keep W (s.setClock v) = keep W s := by
  simp [keep, State.setClock, State.part, State.seq, State.tset, State.port, h]

@[simp] theorem State.keep_setDict (s : State) (v : Dict)
    (h : .dict ∈ W) :
    keep W (s.setDict v) = keep W s := by
  simp [keep, State.setDict, State.part, State.seq, State.tset, State.port, h]

@[simp] theorem State.keep_setVtimes (s : State) (v : Tab Nat)
    (h : .vtimes ∈ W) :
    keep W (s.setVtimes v) = keep W s := by
  simp [keep, State.setVtimes, State.part, State.seq, State.tset, State.port, h]

@[simp] theorem State.keep_setOrders (s : State) (v : Nat)
    (h : .orders ∈ W) :
    keep W (s.setOrders v) = keep W s := by
  simp [keep, State.setOrders, State.part, State.seq, State.tset, State.port, h]

@[simp] theorem State.keep_setStagings (s : State) (v : List Staging)
    (h : .stagings ∈ W) :
    keep W (s.setStagings v) = keep W s := by
  simp [keep, State.setStagings, State.part, State.seq, State.tset, State.port, h]

@[simp] theorem State.keep_setArms (s : State) (v : Nat)
    (h : .arms ∈ W) :
    keep W (s.setArms v) = keep W s := by
  simp [keep, State.setArms, State.part, State.seq, State.tset, State.port, h]

@[simp] theorem State.keep_setMedia (s : State) (v : Media)
    (h : .media ∈ W) :
    keep W (s.setMedia v) = keep W s := by
  simp [keep, State.setMedia, State.part, State.seq, State.tset, State.port, h]

@[simp] theorem State.keep_setGuard (s : State) (v : Guard)
    (h : .guard ∈ W) :
    keep W (s.setGuard v) = keep W s := by
  simp [keep, State.setGuard, State.part, State.seq, State.tset, State.port, h]

@[simp] theorem State.keep_setObserve (s : State) (v : Observe)
    (h : .observe ∈ W) :
    keep W (s.setObserve v) = keep W s := by
  simp [keep, State.setObserve, State.part, State.seq, State.tset, State.port, h]

@[simp] theorem State.keep_setHold (s : State) (v : Nat)
    (h : .hold ∈ W) :
    keep W (s.setHold v) = keep W s := by
  simp [keep, State.setHold, State.part, State.seq, State.tset, State.port, h]

@[simp] theorem State.keep_setFree (s : State) (v : Nat)
    (h : .free ∈ W) :
    keep W (s.setFree v) = keep W s := by
  simp [keep, State.setFree, State.part, State.seq, State.tset, State.port, h]

@[simp] theorem State.keep_setSpace (s : State) (n : Nat) (v : Namespace)
    (h : .media ∈ W) :
    keep W (s.setSpace n v) = keep W s := by
  simp [keep, State.setSpace, State.part, State.seq, State.tset, State.port, h]

@[simp] theorem State.keep_updDict (s : State) (f : Dict → Dict)
    (h : .dict ∈ W) :
    keep W (s.updDict f) = keep W s := by
  simp [keep, State.updDict, State.part, State.seq, State.tset, State.port, h]

@[simp] theorem State.keep_draw (s : State)
    (h : .free ∈ W) :
    keep W (s.draw) = keep W s := by
  simp [keep, State.draw, State.part, State.seq, State.tset, State.port, h]

@[simp] theorem State.keep_put (s : State) (i j v : Nat)
    (h : .dict ∈ W) :
    keep W (s.put i j v) = keep W s := by
  simp [keep, State.put, State.part, State.seq, State.tset, State.port, h]

@[simp] theorem State.keep_putGov (s : State) (i j v : Nat)
    (h : .dict ∈ W) :
    keep W (s.putGov i j v) = keep W s := by
  simp [keep, State.putGov, State.part, State.seq, State.tset, State.port, h]

@[simp] theorem State.keep_bump (s : State) (i j v : Nat)
    (h : .dict ∈ W) :
    keep W (s.bump i j v) = keep W s := by
  simp [keep, State.put, State.bump, State.part, State.seq, State.tset, State.port, h]

@[simp] theorem State.keep_bumpSat (s : State) (i j v : Nat)
    (h : .dict ∈ W) :
    keep W (s.bumpSat i j v) = keep W s := by
  simp [keep, State.put, State.bumpSat, State.part, State.seq, State.tset, State.port, h]

@[simp] theorem State.keep_putDom (s : State) (i j : Nat) (v : Bytes)
    (h : .dict ∈ W) :
    keep W (s.putDom i j v) = keep W s := by
  simp [keep, State.putDom, State.part, State.seq, State.tset, State.port, h]

@[simp] theorem State.keep_setFabric (s : State) (v : Fabric)
    (h : .fabric ∈ W) (h0 : .tiers ∈ W ∨ v.mem = s.fabric.mem) (h1 : .dies ∈ W ∨ v.dies = s.fabric.dies) :
    keep W (s.setFabric v) = keep W s := by
  simp only [keep, State.setFabric, State.part, State.seq, State.tset, State.port, h, if_true, Kept.mk.injEq, true_and, and_true]
  refine ⟨?_, ?_⟩
  · rcases h0 with e | e <;> simp [e]
  · rcases h1 with e | e <;> simp [e]

@[simp] theorem State.keep_setErrors (s : State) (v : Errors)
    (h : .errors ∈ W) (h0 : .device ∈ W ∨ v.device = s.errors.device) :
    keep W (s.setErrors v) = keep W s := by
  simp only [keep, State.setErrors, State.part, State.seq, State.tset, State.port, h, if_true, Kept.mk.injEq, true_and, and_true]
  · rcases h0 with e | e <;> simp [e]

@[simp] theorem State.keep_setPower (s : State) (v : Power)
    (h : .power ∈ W) (h0 : .powerState ∈ W ∨ v.state = s.power.state) (h1 : .powerTarget ∈ W ∨ v.target = s.power.target) (h2 : .stage ∈ W ∨ v.stage = s.power.stage) :
    keep W (s.setPower v) = keep W s := by
  simp only [keep, State.setPower, State.part, State.seq, State.tset, State.port, h, if_true, Kept.mk.injEq, true_and, and_true]
  refine ⟨?_, ?_, ?_⟩
  · rcases h0 with e | e <;> simp [e]
  · rcases h1 with e | e <;> simp [e]
  · rcases h2 with e | e <;> simp [e]

@[simp] theorem State.keep_updPower (s : State) (f : Power → Power)
    (h : .power ∈ W) (h0 : .powerState ∈ W ∨ (f s.power).state = s.power.state) (h1 : .powerTarget ∈ W ∨ (f s.power).target = s.power.target) (h2 : .stage ∈ W ∨ (f s.power).stage = s.power.stage) :
    keep W (s.updPower f) = keep W s := by
  simp only [keep, State.updPower, State.part, State.seq, State.tset, State.port, h, if_true, Kept.mk.injEq, true_and, and_true]
  refine ⟨?_, ?_, ?_⟩
  · rcases h0 with e | e <;> simp [e]
  · rcases h1 with e | e <;> simp [e]
  · rcases h2 with e | e <;> simp [e]

@[simp] theorem State.keep_setSecurity (s : State) (v : Security)
    (h : .security ∈ W) (h0 : .life ∈ W ∨ v.state = s.security.state) (h1 : .lifeDue ∈ W ∨ v.due = s.security.due) :
    keep W (s.setSecurity v) = keep W s := by
  simp only [keep, State.setSecurity, State.part, State.seq, State.tset, State.port, h, if_true, Kept.mk.injEq, true_and, and_true]
  refine ⟨?_, ?_⟩
  · rcases h0 with e | e <;> simp [e]
  · rcases h1 with e | e <;> simp [e]

@[simp] theorem State.keep_setDie (s : State) (n : Nat) (d : Die)
    (h : .fabric ∈ W) (h0 : .dies ∈ W) :
    keep W (s.setDie n d) = keep W s := by
  simp [keep, State.setDie, State.part, State.seq, State.tset, State.port, h, h0]

end Sys2Proof.Machine
end

