-- ==== Sys2Proof/Laws/FrameOps.lean ====
section
/-! SUPPORT. The frames of the operations of Machine/Ops.lean. -/

namespace Sys2Proof.Machine

variable {W : List Place}

@[simp] theorem State.keep_send (s : State) (x : Nat) (data : Bool) (cells : Nat) (f : Sent)
    (h0 : .port x ∈ W ∨ .ports ∈ W) :
    keep W (s.send x data cells f) = keep W s := by
  unfold State.send
  simp [*]

@[simp] theorem State.keep_reply (s : State) (r : Req) (type status args : Nat) (payload : Bytes)
    (h0 : .port r.port.val ∈ W ∨ .ports ∈ W) :
    keep W (s.reply r type status args payload) = keep W s := by
  unfold State.reply
  simp [*]

@[simp] theorem State.keep_heard (s : State) (x n c : Nat)
    (h0 : .port x ∈ W ∨ .ports ∈ W) :
    keep W (s.heard x n c) = keep W s := by
  unfold State.heard
  simp [*]

@[simp] theorem State.keep_serve (s : State) (r : Req) (type : Nat) (owner : Bool) (k : State → State) (n echo : Nat)
    (h_dict : .dict ∈ W) (h1 : .port r.port.val ∈ W ∨ .ports ∈ W) (hk : ∀ t, keep W (k t) = keep W t) :
    keep W (s.serve r type owner k n echo) = keep W s := by
  unfold State.serve
  simp [*]

@[simp] theorem State.keep_sees (s : State) (l : List (Option Nat × Nat × Nat))
    (h_guard : .guard ∈ W) :
    keep W (s.sees l) = keep W s := by
  unfold State.sees
  simp [*]

@[simp] theorem State.keep_freezeDue (s : State) (x : Nat) (bits : BitVec 10)
    (h0 : .port x ∈ W ∨ .ports ∈ W) :
    keep W (s.freezeDue x bits) = keep W s := by
  unfold State.freezeDue
  simp [*]

@[simp] theorem State.keep_freezeAll (s : State)
    (h_ports : .ports ∈ W) :
    keep W (s.freezeAll) = keep W s := by
  unfold State.freezeAll
  simp [*]

@[simp] theorem State.keep_tally (s : State) (id n : Nat)
    (h_observe : .observe ∈ W) :
    keep W (s.tally id n) = keep W s := by
  unfold State.tally
  simp [*]

@[simp] theorem State.keep_passRead (s : State) (ids : List Nat)
    (h_observe : .observe ∈ W) :
    keep W (s.passRead ids) = keep W s := by
  unfold State.passRead
  simp [*]

@[simp] theorem State.keep_passOn (s : State) (whole : Bool)
    (h_observe : .observe ∈ W) (h_free : .free ∈ W) :
    keep W (s.passOn whole) = keep W s := by
  unfold State.passOn
  split <;> simp [*]

@[simp] theorem State.keep_restartClocks (s : State) (mask : Nat)
    (h_observe : .observe ∈ W) (h_free : .free ∈ W) :
    keep W (s.restartClocks mask) = keep W s := by
  unfold State.restartClocks
  simp [*]

@[simp] theorem State.keep_startCounters (s : State)
    (h_observe : .observe ∈ W) :
    keep W (s.startCounters) = keep W s := by
  unfold State.startCounters
  simp [*]

@[simp] theorem State.startCounters_power (s : State) : s.startCounters.power = s.power := rfl
@[simp] theorem State.startCounters_errors (s : State) : s.startCounters.errors = s.errors := rfl

@[simp] theorem State.keep_freezeCounters (s : State) (at' : Nat)
    (h_dict : .dict ∈ W) (h_observe : .observe ∈ W) (h_free : .free ∈ W) :
    keep W (s.freezeCounters at') = keep W s := by
  unfold State.freezeCounters
  simp [*]

@[simp] theorem State.keep_freezeSource (s : State) (bit : Nat) (at' : Nat)
    (h_dict : .dict ∈ W) (h_observe : .observe ∈ W) (h_free : .free ∈ W) :
    keep W (s.freezeSource bit at') = keep W s := by
  unfold State.freezeSource
  simp [*]

@[simp] theorem State.keep_capture (s : State) (trigger p seq at' : Nat)
    (h_dict : .dict ∈ W) (h_errors : .errors ∈ W) (h_free : .free ∈ W) (h_observe : .observe ∈ W) :
    keep W ((s.capture trigger p seq at').1) = keep W s := by
  unfold State.capture
  dsimp only
  (repeat' split) <;> simp [*]

@[simp] theorem State.keep_badRow (s : State) (a : Nat)
    (h_errors : .errors ∈ W) :
    keep W (s.badRow a) = keep W s := by
  unfold State.badRow
  simp [*]

@[simp] theorem State.keep_countUncorr (s : State) (rep : Report)
    (h_errors : .errors ∈ W) (h_dict : .dict ∈ W) :
    keep W (s.countUncorr rep) = keep W s := by
  unfold State.countUncorr
  simp [*]

@[simp] theorem State.keep_placeRecord (s : State) (r : Rec)
    (h_dict : .dict ∈ W) (h_errors : .errors ∈ W) :
    keep W (s.placeRecord r) = keep W s := by
  unfold State.placeRecord
  simp [*]

@[simp] theorem State.keep_absorbAll (s : State) (by' : BitVec 32)
    (h_errors : .errors ∈ W) :
    keep W (s.absorbAll by') = keep W s := by
  unfold State.absorbAll
  simp [*]

@[simp] theorem State.keep_raiseAs (s : State) (rep : Report) (escalated : Bool) (related : BitVec 32)
    (h_dict : .dict ∈ W) (h_errors : .errors ∈ W) (h_free : .free ∈ W) (h_observe : .observe ∈ W) :
    keep W (s.raiseAs rep escalated related) = keep W s := by
  unfold State.raiseAs
  simp [*]

@[simp] theorem State.keep_raise (s : State) (rep : Report)
    (h_dict : .dict ∈ W) (h_errors : .errors ∈ W) (h_free : .free ∈ W) (h_observe : .observe ∈ W) :
    keep W (s.raise rep) = keep W s := by
  unfold State.raise
  simp [*]

@[simp] theorem State.keep_thermal (s : State) (event severity : Nat)
    (h_dict : .dict ∈ W) (h_errors : .errors ∈ W) (h_free : .free ∈ W) (h_observe : .observe ∈ W) :
    keep W (s.thermal event severity) = keep W s := by
  unfold State.thermal
  simp [*]

@[simp] theorem State.keep_lifeRecord (s : State)
    (h_dict : .dict ∈ W) (h_errors : .errors ∈ W) (h_free : .free ∈ W) (h_observe : .observe ∈ W) :
    keep W (s.lifeRecord) = keep W s := by
  unfold State.lifeRecord
  simp [*]

@[simp] theorem State.keep_slotRecord (s : State) (slot reason : Nat)
    (h_dict : .dict ∈ W) (h_errors : .errors ∈ W) (h_free : .free ∈ W) (h_observe : .observe ∈ W) :
    keep W (s.slotRecord slot reason) = keep W s := by
  unfold State.slotRecord
  simp [*]

@[simp] theorem State.keep_ringDoorbell (s : State) (k : Nat)
    (h0 : .port (keyPort k) ∈ W ∨ .ports ∈ W) :
    keep W (s.ringDoorbell k) = keep W s := by
  unfold State.ringDoorbell
  simp [*]

@[simp] theorem State.keep_post (s : State) (k status count step : Nat)
    (h0 : .tset k ∈ W ∨ .sets ∈ W) (h1 : .port (keyPort k) ∈ W ∨ .ports ∈ W) (h_ctxs : .ctxs ∈ W) :
    keep W (s.post k status count step) = keep W s := by
  unfold State.post
  simp [*]

@[simp] theorem State.keep_postLater (s : State) (k status count step : Nat)
    (h0 : .tset k ∈ W ∨ .sets ∈ W) :
    keep W (s.postLater k status count step) = keep W s := by
  unfold State.postLater
  simp [*]

@[simp] theorem State.keep_dropHeld (s : State) (k : Nat)
    (h0 : .tset k ∈ W ∨ .sets ∈ W) :
    keep W (s.dropHeld k) = keep W s := by
  unfold State.dropHeld
  simp [*]

@[simp] theorem State.keep_finish (s : State) (k status count step : Nat)
    (h0 : .tset k ∈ W ∨ .sets ∈ W) (h1 : .port (keyPort k) ∈ W ∨ .ports ∈ W) (h_ctxs : .ctxs ∈ W) :
    keep W (s.finish k status count step) = keep W s := by
  unfold State.finish
  simp [*]

@[simp] theorem State.keep_output (s : State) (k : Nat) (m : Mem) (n : Nat)
    (h0 : .tset k ∈ W ∨ .sets ∈ W) :
    keep W (s.output k m n) = keep W s := by
  unfold State.output
  simp [*]

@[simp] theorem State.keep_restartCounters (s : State) (mask : Nat)
    (h_observe : .observe ∈ W) (h_free : .free ∈ W) :
    keep W (s.restartCounters mask) = keep W s := by
  unfold State.restartCounters
  simp [*]

@[simp] theorem State.keep_count (s : State) (id n : Nat)
    (h_observe : .observe ∈ W) :
    keep W (s.count id n) = keep W s := by
  unfold State.count
  simp [*]

end Sys2Proof.Machine
end

