-- ==== Sys2Proof/Laws/FrameBands.lean ====
section
/-! SUPPORT. The frames of the operations of Machine/Bands.lean. -/

namespace Sys2Proof.Machine

variable {W : List Place}

/-- A fold that carries a number beside the state keeps what each of its steps keeps. -/
theorem keep_fold_pair {α β : Type} (xs : List α) (f : State × β → α → State × β)
    (hf : ∀ a x, keep W (f a x).1 = keep W a.1) (a : State × β) : keep W (xs.foldl f a).1 = keep W a.1 := by
  induction xs generalizing a with
  | nil => rfl
  | cons x xs ih => exact (ih _).trans (hf a x)

@[simp] theorem State.keep_placePiece (s : State) (n : Nat)
    (h_media : .media ∈ W) :
    keep W ((s.placePiece n).1) = keep W s := by
  unfold State.placePiece
  simp [*]

@[simp] theorem State.keep_placeMany (s : State) (fuel n : Nat)
    (h_media : .media ∈ W) :
    keep W ((s.placeMany fuel n).1) = keep W s := by
  induction fuel generalizing s n with
  | zero => rfl
  | succ fuel ih => unfold State.placeMany; split <;> simp [*]

@[simp] theorem State.keep_touchBlock (s : State) (k n : Nat)
    (h_media : .media ∈ W) :
    keep W (s.touchBlock k n) = keep W s := by
  unfold State.touchBlock
  simp [*]

@[simp] theorem State.keep_readBlockAt (s : State) (b : Option Band) (k : Nat) (f : Nat → Nat)
    (h_dict : .dict ∈ W) (h_free : .free ∈ W) (h_media : .media ∈ W) :
    keep W (s.readBlockAt b k f).1 = keep W s := by
  unfold State.readBlockAt
  split <;> simp [*]

@[simp] theorem State.keep_readUnit (s : State) (v : Ver)
    (h_dict : .dict ∈ W) (h_free : .free ∈ W) (h_media : .media ∈ W) :
    keep W (s.readUnit v).1 = keep W s := State.keep_readBlockAt _ _ _ _ h_dict h_free h_media

@[simp] theorem State.keep_readIn (s : State) (k : Nat)
    (h_dict : .dict ∈ W) (h_free : .free ∈ W) (h_media : .media ∈ W) :
    keep W (s.readIn k).1 = keep W s := State.keep_readBlockAt _ _ _ _ h_dict h_free h_media

@[simp] theorem State.keep_missed (s : State) (key : Nat)
    (h_dict : .dict ∈ W) (h_free : .free ∈ W) (h_media : .media ∈ W) :
    keep W (s.missed key).1 = keep W s := by
  unfold State.missed
  simp [*]

@[simp] theorem State.keep_soil (s : State) (key : Nat)
    (h_dict : .dict ∈ W) (h_free : .free ∈ W) (h_media : .media ∈ W) :
    keep W (s.soil key) = keep W s := by
  unfold State.soil
  (repeat' split) <;> simp [*]

@[simp] theorem State.keep_lookup (s : State) (key : Nat)
    (h_dict : .dict ∈ W) (h_free : .free ∈ W) (h_media : .media ∈ W) :
    keep W (s.lookup key).1 = keep W s := by
  unfold State.lookup
  (repeat' split) <;> simp [*]

@[simp] theorem State.keep_lookups (s : State) (ns lo n : Nat)
    (h_dict : .dict ∈ W) (h_free : .free ∈ W) (h_media : .media ∈ W) :
    keep W (s.lookups ns lo n).1 = keep W s := by
  unfold State.lookups
  refine keep_fold_pair _ _ (fun a r => ?_) _
  exact State.keep_lookup _ _ h_dict h_free h_media

end Sys2Proof.Machine
end

