-- ==== Sys2Proof/Laws/FrameSeq.lean ====
section
/-! SUPPORT. The frames of the sequencer's operations. -/

namespace Sys2Proof.Machine

variable {W : List Place}

@[simp] theorem State.keep_readVer (s : State) (ns lba : Nat) (v : Ver)
    (h_dict : .dict ∈ W) (h_free : .free ∈ W) (h_media : .media ∈ W) :
    keep W (s.readVer ns lba v).1 = keep W s := by
  unfold State.readVer
  split <;> simp [*]

@[simp] theorem State.keep_countSlots (s : State) (ns lo n stamp : Nat)
    (h_dict : .dict ∈ W) (h_free : .free ∈ W) (h_media : .media ∈ W) :
    keep W (s.countSlots ns lo n stamp).1 = keep W s := by
  unfold State.countSlots
  refine keep_fold_pair _ _ (fun a b => ?_) _
  (repeat' split) <;> simp [*]

@[simp] theorem State.keep_flashSlots (s : State) (ns lo n stamp : Nat)
    (h_dict : .dict ∈ W) (h_free : .free ∈ W) (h_media : .media ∈ W) :
    keep W (s.flashSlots ns lo n stamp).1 = keep W s := by
  unfold State.flashSlots
  simp [*]

@[simp] theorem State.keep_trace (s : State) (p source kind tag step ctx arg arg2 : Nat)
    (h_dict : .dict ∈ W) (h_fabric : .fabric ∈ W) (h_free : .free ∈ W) (h_tiers : .tiers ∈ W) :
    keep W (s.trace p source kind tag step ctx arg arg2) = keep W s := by
  unfold State.trace
  simp [*]

@[simp] theorem State.keep_raiseVtime (s : State) (r requester : Nat)
    (h_vtimes : .vtimes ∈ W) :
    keep W (s.raiseVtime r requester) = keep W s := by
  unfold State.raiseVtime
  split <;> simp [*]

@[simp] theorem State.keep_request (s : State) (r requester : Nat)
    (h_vtimes : .vtimes ∈ W) :
    keep W (s.request r requester) = keep W s := by
  unfold State.request
  simp [*]

@[simp] theorem State.keep_becomePending (s : State) (p : Nat) (used : List (Nat × Nat))
    (h_vtimes : .vtimes ∈ W) :
    keep W (s.becomePending p used) = keep W s := by
  unfold State.becomePending
  simp [*]

@[simp] theorem State.keep_account (s : State) (idx sub r requester weight ns : Nat)
    (h_dict : .dict ∈ W) (h_vtimes : .vtimes ∈ W) :
    keep W (s.account idx sub r requester weight ns) = keep W s := by
  unfold State.account
  simp [*]

@[simp] theorem State.keep_charge (s : State) (p r ns : Nat)
    (h_dict : .dict ∈ W) (h_vtimes : .vtimes ∈ W) :
    keep W (s.charge p r ns) = keep W s := by
  unfold State.charge
  simp [*]

@[simp] theorem State.keep_chargeIo (s : State) (x r ns : Nat)
    (h_dict : .dict ∈ W) (h_vtimes : .vtimes ∈ W) :
    keep W (s.chargeIo x r ns) = keep W s := by
  unfold State.chargeIo
  simp [*]

@[simp] theorem State.keep_bill (s : State) (p r ns : Nat)
    (h_dict : .dict ∈ W) (h_vtimes : .vtimes ∈ W) :
    keep W (s.bill p r ns) = keep W s := by
  unfold State.bill
  simp [*]

@[simp] theorem State.keep_billIo (s : State) (x r ns : Nat)
    (h_dict : .dict ∈ W) (h_vtimes : .vtimes ∈ W) :
    keep W (s.billIo x r ns) = keep W s := by
  unfold State.billIo
  simp [*]

@[simp] theorem State.keep_chargeReads (s : State) (k : Nat)
    (h_dict : .dict ∈ W) (h_vtimes : .vtimes ∈ W) (h0 : .tset k ∈ W ∨ .sets ∈ W) :
    keep W (s.chargeReads k) = keep W s := by
  unfold State.chargeReads
  simp [*]

@[simp] theorem State.keep_dropReads (s : State) (k : Nat)
    (h_dict : .dict ∈ W) (h_free : .free ∈ W) (h_vtimes : .vtimes ∈ W) (h0 : .tset k ∈ W ∨ .sets ∈ W) :
    keep W (s.dropReads k) = keep W s := by
  unfold State.dropReads
  simp [*]

@[simp] theorem State.keep_chargeStep (s : State) (p : Nat) (e : QStep)
    (h_dict : .dict ∈ W) (h_free : .free ∈ W) (h_vtimes : .vtimes ∈ W) :
    keep W (s.chargeStep p e) = keep W s := by
  unfold State.chargeStep
  simp [*]

@[simp] theorem State.keep_classSlots (s : State) (e : QStep)
    (h_free : .free ∈ W) (h_observe : .observe ∈ W) :
    keep W (s.classSlots e) = keep W s := by
  unfold State.classSlots
  refine keep_each _ _ _ fun t u => ?_
  dsimp only
  split <;> simp [*]

@[simp] theorem State.keep_waited (s : State) (d k : Nat) (l : List (Nat × Nat))
    (h_observe : .observe ∈ W) :
    keep W (s.waited d k l) = keep W s := by
  unfold State.waited
  simp [*]

@[simp] theorem State.keep_cutWaits (s : State) (p : Nat) (e : QStep)
    (h_free : .free ∈ W) (h_observe : .observe ∈ W) :
    keep W (s.cutWaits p e) = keep W s := by
  unfold State.cutWaits
  split
  · rfl
  · refine keep_each _ _ _ fun t v => ?_
    dsimp only
    (repeat' split) <;> simp [*]

@[simp] theorem State.keep_countStep (s : State) (e : QStep)
    (h_dict : .dict ∈ W) (h_free : .free ∈ W) :
    keep W (s.countStep e) = keep W s := by
  unfold State.countStep
  refine keep_each _ _ _ fun t u => ?_
  dsimp only
  (repeat' split) <;> simp [*]

@[simp] theorem State.keep_putBench (s : State) (b : Bench) (stamp : Nat)
    (h_dict : .dict ∈ W) (h_dies : .dies ∈ W) (h_fabric : .fabric ∈ W) (h_free : .free ∈ W) (h_media : .media ∈ W) (h_observe : .observe ∈ W) (h_tiers : .tiers ∈ W) :
    keep W (s.putBench b stamp).1 = keep W s := by
  unfold State.putBench
  dsimp only
  rw [State.keep_draw _ h_free]
  refine (keep_fold_pair _ _ (fun a f => ?_) _).trans ?_
  · exact State.keep_flashSlots _ _ _ _ _ h_dict h_free h_media
  · simp [*]

@[simp] theorem State.keep_mixSaved (s : State) (v : Saved)
    (h_dies : .dies ∈ W) (h_fabric : .fabric ∈ W) (h_free : .free ∈ W) (h_tiers : .tiers ∈ W) :
    keep W (s.mixSaved v) = keep W s := by
  unfold State.mixSaved
  split <;> simp [*]

@[simp] theorem State.keep_noteDropped (s : State) (rep : Report)
    (h_dict : .dict ∈ W) (h_errors : .errors ∈ W) (h_free : .free ∈ W) (h_observe : .observe ∈ W) :
    keep W (s.noteDropped rep) = keep W s := State.keep_raise _ _ h_dict h_errors h_free h_observe

@[simp] theorem State.keep_cutSteps (s : State) (p : Nat) (f : QStep → Bool)
    (h_errors : .errors ∈ W) (h_dict : .dict ∈ W) (h_observe : .observe ∈ W) (h_dies : .dies ∈ W) (h_fabric : .fabric ∈ W) (h_free : .free ∈ W) (h3 : .seq p ∈ W ∨ .seqs ∈ W) (h_tiers : .tiers ∈ W) :
    keep W (s.cutSteps p f) = keep W s := by
  unfold State.cutSteps
  dsimp only
  split <;> (
  generalize kFirst _ _ _ = hit
  have hm (t : State) (e : QStep) : keep W (t.each e.saved State.mixSaved) = keep W t :=
    keep_each _ _ _ fun t v => by simp [*]
  simp [*])

@[simp] theorem State.keep_dropRun (s : State) (p : Nat)
    (h_ctxs : .ctxs ∈ W) (h1 : .seq p ∈ W ∨ .seqs ∈ W) :
    keep W (s.dropRun p) = keep W s := by
  unfold State.dropRun
  split <;> simp [*]

@[simp] theorem State.keep_overrun (s : State) (p b step : Nat)
    (h_errors : .errors ∈ W) (h_observe : .observe ∈ W) (h_ctxs : .ctxs ∈ W) (h_dict : .dict ∈ W) (h_dies : .dies ∈ W) (h_fabric : .fabric ∈ W) (h_free : .free ∈ W) (h5 : .seq p ∈ W ∨ .seqs ∈ W) (h_sets : .sets ∈ W) (h_tiers : .tiers ∈ W) :
    keep W (s.overrun p b step) = keep W s := by
  unfold State.overrun
  split <;> simp [*]

@[simp] theorem State.keep_failBatch (s : State) (p : Nat)
    (h_errors : .errors ∈ W) (h_dict : .dict ∈ W) (h_observe : .observe ∈ W) (h_ctxs : .ctxs ∈ W) (h_dies : .dies ∈ W) (h_fabric : .fabric ∈ W) (h_free : .free ∈ W) (h4 : .seq p ∈ W ∨ .seqs ∈ W) (h_sets : .sets ∈ W) (h_tiers : .tiers ∈ W) :
    keep W (s.failBatch p) = keep W s := by
  unfold State.failBatch
  split <;> simp [*]

@[simp] theorem State.keep_miss (s : State) (p i : Nat) (issue : Option Nat)
    (h_errors : .errors ∈ W) (h_observe : .observe ∈ W) (h_ctxs : .ctxs ∈ W) (h_dict : .dict ∈ W) (h_dies : .dies ∈ W) (h_fabric : .fabric ∈ W) (h_free : .free ∈ W) (h5 : .seq p ∈ W ∨ .seqs ∈ W) (h_sets : .sets ∈ W) (h_tiers : .tiers ∈ W) :
    keep W (s.miss p i issue) = keep W s := by
  unfold State.miss
  (repeat' split) <;> simp [*]

@[simp] theorem State.keep_stopStep (s : State) (p : Nat) (r : Run) (e : QStep) (rep : Report)
    (h_ctxs : .ctxs ∈ W) (h_dict : .dict ∈ W) (h_dies : .dies ∈ W) (h_errors : .errors ∈ W) (h_fabric : .fabric ∈ W) (h_free : .free ∈ W) (h_observe : .observe ∈ W) (h7 : .seq p ∈ W ∨ .seqs ∈ W) (h_sets : .sets ∈ W) (h_tiers : .tiers ∈ W) :
    keep W (s.stopStep p r e rep) = keep W s := by
  unfold State.stopStep
  simp [*]

@[simp] theorem State.keep_meetBad (s : State) (p n : Nat) (r : Run) (e : QStep) (rep : Report)
    (h_ctxs : .ctxs ∈ W) (h_dict : .dict ∈ W) (h_dies : .dies ∈ W) (h_errors : .errors ∈ W) (h_fabric : .fabric ∈ W) (h_free : .free ∈ W) (h_observe : .observe ∈ W) (h7 : .seq p ∈ W ∨ .seqs ∈ W) (h_sets : .sets ∈ W) (h_tiers : .tiers ∈ W) :
    keep W (s.meetBad p n r e rep) = keep W s := by
  unfold State.meetBad
  split <;> simp [*]

@[simp] theorem State.keep_undefine (s : State) (v : Saved)
    (h_dies : .dies ∈ W) (h_fabric : .fabric ∈ W) (h_free : .free ∈ W) :
    keep W (s.undefine v) = keep W s := by
  unfold State.undefine
  rw [State.keep_draw _ h_free]
  split <;> simp [*]

@[simp] theorem State.keep_tornTiles (s : State) (p : Nat) (e : QStep) (saved : List Saved)
    (h_dies : .dies ∈ W) (h_fabric : .fabric ∈ W) (h_free : .free ∈ W) :
    keep W (s.tornTiles p e saved) = keep W s := by
  unfold State.tornTiles
  dsimp only
  (repeat' split) <;> simp [*]

@[simp] theorem State.keep_runHead (s : State) (p n : Nat) (r : Run)
    (h_guard : .guard ∈ W) (h_ctxs : .ctxs ∈ W) (h_dict : .dict ∈ W) (h_dies : .dies ∈ W) (h_errors : .errors ∈ W) (h_fabric : .fabric ∈ W) (h_free : .free ∈ W) (h_media : .media ∈ W) (h_observe : .observe ∈ W) (h8 : .seq p ∈ W ∨ .seqs ∈ W) (h_sets : .sets ∈ W) (h_tiers : .tiers ∈ W) (h_vtimes : .vtimes ∈ W) :
    keep W ((s.runHead p n r).1) = keep W s := by
  unfold State.runHead
  dsimp only
  (repeat' split) <;> simp [*]

@[simp] theorem State.keep_round (s : State) (p : Nat)
    (h_guard : .guard ∈ W) (h_ctxs : .ctxs ∈ W) (h_dict : .dict ∈ W) (h_dies : .dies ∈ W) (h_errors : .errors ∈ W) (h_fabric : .fabric ∈ W) (h_free : .free ∈ W) (h_media : .media ∈ W) (h_observe : .observe ∈ W) (h_seqs : .seq p ∈ W ∨ .seqs ∈ W) (h_sets : .sets ∈ W) (h_tiers : .tiers ∈ W) (h_vtimes : .vtimes ∈ W) :
    keep W (s.round p).1 = keep W s := by
  unfold State.round
  suffices H : ∀ (xs : List Nat) (a : State × Bool), keep W (xs.foldl (fun (a : State × Bool) n =>
      match (a.1.seq p).run with
      | none => a
      | some r =>
        let b := a.1.runHead p n r
        (b.1, a.2 || b.2)) a).1 = keep W a.1 from H _ _
  intro xs
  induction xs with
  | nil => intro a; rfl
  | cons n xs ih =>
    intro a
    refine (ih _).trans ?_
    rcases hr : (a.1.seq p).run with _ | r
    · simp only [hr]
    · simp only [hr]
      exact State.keep_runHead _ _ _ _ h_guard h_ctxs h_dict h_dies h_errors h_fabric h_free h_media h_observe h_seqs h_sets h_tiers h_vtimes

@[simp] theorem State.keep_pump (s : State) (p fuel : Nat)
    (h_guard : .guard ∈ W) (h_ctxs : .ctxs ∈ W) (h_dict : .dict ∈ W) (h_dies : .dies ∈ W) (h_errors : .errors ∈ W) (h_fabric : .fabric ∈ W) (h_free : .free ∈ W) (h_media : .media ∈ W) (h_observe : .observe ∈ W) (h_seqs : .seq p ∈ W ∨ .seqs ∈ W) (h_sets : .sets ∈ W) (h_tiers : .tiers ∈ W) (h_vtimes : .vtimes ∈ W) :
    keep W (s.pump p fuel) = keep W s := by
  induction fuel generalizing s with
  | zero => rfl
  | succ fuel ih =>
    simp only [State.pump]
    split <;> simp [*]

@[simp] theorem State.keep_traceStep (s : State) (p kind : Nat) (r : Run)
    (h_dict : .dict ∈ W) (h_fabric : .fabric ∈ W) (h_free : .free ∈ W) (h_tiers : .tiers ∈ W) :
    keep W (s.traceStep p kind r) = keep W s := by
  unfold State.traceStep
  simp [*]

@[simp] theorem State.keep_endWait (s : State) (p : Nat)
    (h_dict : .dict ∈ W) (h_fabric : .fabric ∈ W) (h_free : .free ∈ W) (h_tiers : .tiers ∈ W) (h0 : .seq p ∈ W ∨ .seqs ∈ W) :
    keep W (s.endWait p) = keep W s := by
  unfold State.endWait
  dsimp only
  (repeat' split) <;> simp [*]

@[simp] theorem State.keep_issue (s : State) (p : Nat) (f : Nat → Bool)
    (h_guard : .guard ∈ W) (h_ctxs : .ctxs ∈ W) (h_dict : .dict ∈ W) (h_dies : .dies ∈ W) (h_errors : .errors ∈ W) (h_fabric : .fabric ∈ W) (h_free : .free ∈ W) (h_media : .media ∈ W) (h_observe : .observe ∈ W) (h8 : .seq p ∈ W ∨ .seqs ∈ W) (h_sets : .sets ∈ W) (h_tiers : .tiers ∈ W) (h_vtimes : .vtimes ∈ W) :
    keep W (s.issue p f) = keep W s := by
  unfold State.issue
  dsimp only
  split
  · rfl
  · split <;> simp [*]

@[simp] theorem State.keep_raisePasses (s : State) (p : Nat)
    (h0 : .seq p ∈ W ∨ .seqs ∈ W) :
    keep W (s.raisePasses p) = keep W s := by
  unfold State.raisePasses
  simp [*]

@[simp] theorem State.keep_startBatch (s : State) (p x n now key : Nat)
    (h_dict : .dict ∈ W) (h_dies : .dies ∈ W) (h_fabric : .fabric ∈ W) (h3 : .seq p ∈ W ∨ .seqs ∈ W) (h_sets : .sets ∈ W) :
    keep W (s.startBatch p x n now key) = keep W s := by
  unfold State.startBatch
  simp [*]

@[simp] theorem State.keep_select (s : State) (p now : Nat)
    (h_dict : .dict ∈ W) (h_dies : .dies ∈ W) (h_fabric : .fabric ∈ W) (h3 : .seq p ∈ W ∨ .seqs ∈ W) (h_sets : .sets ∈ W) :
    keep W (s.select p now) = keep W s := by
  unfold State.select
  dsimp only
  (repeat' split) <;> simp [*]

@[simp] theorem State.keep_alertNow (s : State) (before : Nat)
    (h_power : .power ∈ W) :
    keep W (s.alertNow before) = keep W s := by
  unfold State.alertNow
  simp [*]

end Sys2Proof.Machine
end

