-- ==== Sys2Proof/Laws/FrameMedia.lean ====
section
/-! SUPPORT. The frames of flash translation and of the commands of the media. -/

namespace Sys2Proof.Machine

variable {W : List Place}

@[simp] theorem State.keep_closeBand (s : State) (b : Band)
    (h_media : .media ∈ W) :
    keep W (s.closeBand b) = keep W s := by
  unfold State.closeBand
  simp [*]

@[simp] theorem State.keep_loseBuffer (s : State) (ns lba : Nat)
    (h_media : .media ∈ W) :
    keep W (s.loseBuffer ns lba) = keep W s := by
  unfold State.loseBuffer
  simp [*]

@[simp] theorem State.keep_wipeBuffer (s : State) (ns lo n : Nat)
    (h_media : .media ∈ W) :
    keep W (s.wipeBuffer ns lo n) = keep W s := by
  unfold State.wipeBuffer
  simp [*]

@[simp] theorem State.keep_acceptPiece (s : State) (ns start n : Nat) (data values : Mem) (payer : Option Nat)
    (h_media : .media ∈ W) :
    keep W (s.acceptPiece ns start n data values payer) = keep W s := by
  unfold State.acceptPiece
  simp [*]

@[simp] theorem State.keep_acceptDiscard (s : State) (kind : ChangeKind) (ns start n : Nat)
    (h_media : .media ∈ W) :
    keep W (s.acceptDiscard kind ns start n) = keep W s := by
  unfold State.acceptDiscard
  simp [*]

@[simp] theorem State.keep_acceptSecure (s : State) (ns lo n : Nat)
    (h_media : .media ∈ W) :
    keep W (s.acceptSecure ns lo n) = keep W s := by
  unfold State.acceptSecure
  simp [*]

@[simp] theorem State.keep_pushVer (s : State) (ns lba : Nat) (x : Ver)
    (h_media : .media ∈ W) :
    keep W (s.pushVer ns lba x) = keep W s := by
  unfold State.pushVer
  simp [*]

@[simp] theorem State.keep_loseVers (s : State) (ns lba : Nat)
    (h_media : .media ∈ W) :
    keep W (s.loseVers ns lba) = keep W s := by
  unfold State.loseVers
  simp [*]

@[simp] theorem State.keep_touchNow (s : State) (e : Nat)
    (h_dict : .dict ∈ W) (h_free : .free ∈ W) (h_media : .media ∈ W) :
    keep W (s.touchNow e) = keep W s := by
  unfold State.touchNow
  simp [*]

@[simp] theorem State.keep_publishChange (s : State) (e : Nat) (c : Change)
    (h_free : .free ∈ W) (h_media : .media ∈ W) :
    keep W (s.publishChange e c) = keep W s := by
  unfold State.publishChange
  split
  · rfl
  split
  · simp [*]
  · refine keep_each _ _ _ fun t j => ?_
    dsimp only
    (repeat' split) <;> simp [*]
  · simp [*]

@[simp] theorem State.keep_publishMove (s : State) (e : Nat) (m : Move)
    (h_free : .free ∈ W) (h_media : .media ∈ W) :
    keep W (s.publishMove e m) = keep W s := by
  unfold State.publishMove
  split <;> simp [*]

@[simp] theorem State.keep_publishMap (s : State) (e : Nat)
    (h_dict : .dict ∈ W) (h_free : .free ∈ W) (h_media : .media ∈ W) :
    keep W (s.publishMap e) = keep W s := by
  unfold State.publishMap
  simp [*]

@[simp] theorem State.keep_ageBands (s : State)
    (h_media : .media ∈ W) :
    keep W (s.ageBands) = keep W s := by
  unfold State.ageBands
  simp [*]

@[simp] theorem State.keep_hostTime (s : State) (v : Nat)
    (h_media : .media ∈ W) :
    keep W (s.hostTime v) = keep W s := by
  unfold State.hostTime
  simp [*]

@[simp] theorem State.keep_loseUnits (s : State) (l : List (Nat × Nat × Ver))
    (h_media : .media ∈ W) :
    keep W (s.loseUnits l) = keep W s := by
  unfold State.loseUnits
  simp [*]

@[simp] theorem State.keep_rebuildReads (s : State) (b : Band) (u : BitVec 37)
    (h_dict : .dict ∈ W) (h_free : .free ∈ W) (h_media : .media ∈ W) :
    keep W (s.rebuildReads b u) = keep W s := by
  unfold State.rebuildReads
  simp [*]

@[simp] theorem State.keep_readRow (s : State) (v : Ver)
    (h_dict : .dict ∈ W) (h_free : .free ∈ W) (h_media : .media ∈ W) :
    keep W (s.readRow v) = keep W s := by
  unfold State.readRow
  split <;> simp [*]

@[simp] theorem State.keep_readFrom (s : State) (how : CopyFrom) (v : Ver)
    (h_dict : .dict ∈ W) (h_free : .free ∈ W) (h_media : .media ∈ W) :
    keep W (s.readFrom how v) = keep W s := by
  unfold State.readFrom
  split <;> simp [*]

@[simp] theorem State.keep_moveUnits (s : State) (how : CopyFrom) (fuel : Nat) (us : List (Nat × Nat × Ver))
    (h_dict : .dict ∈ W) (h_free : .free ∈ W) (h_media : .media ∈ W) :
    keep W (s.moveUnits how fuel us) = keep W s := by
  induction fuel generalizing s us with
  | zero => rfl
  | succ fuel ih =>
    simp only [State.moveUnits]
    split <;> simp [*]

@[simp] theorem State.keep_moveAll (s : State) (how : CopyFrom) (l : List (Nat × Nat × Ver))
    (h_dict : .dict ∈ W) (h_free : .free ∈ W) (h_media : .media ∈ W) :
    keep W (s.moveAll how l) = keep W s := by
  unfold State.moveAll
  simp [*]

@[simp] theorem State.keep_loseOld (s : State) (f : Ver → Bool)
    (h_media : .media ∈ W) :
    keep W (s.loseOld f) = keep W s := by
  unfold State.loseOld
  simp [*]

@[simp] theorem State.keep_rewritePending (s : State) (gone : Bool) (f : BitVec 37 → Bool)
    (h_dict : .dict ∈ W) (h_media : .media ∈ W) :
    keep W (s.rewritePending gone f) = keep W s := by
  unfold State.rewritePending
  refine keep_each _ _ _ fun t c => ?_
  dsimp only
  (repeat' split) <;> simp [*]

@[simp] theorem State.keep_recover (s : State) (l : List (Nat × Nat × Ver))
    (h_dict : .dict ∈ W) (h_free : .free ∈ W) (h_media : .media ∈ W) :
    keep W (s.recover l) = keep W s := by
  unfold State.recover
  simp [*]

@[simp] theorem State.keep_copyOut (s : State) (f : Nat → Bool)
    (h_dict : .dict ∈ W) (h_free : .free ∈ W) (h_media : .media ∈ W) :
    keep W (s.copyOut f) = keep W s := by
  unfold State.copyOut
  simp [*]

@[simp] theorem State.keep_evacuate (s : State) (block : Nat) (retire : Bool) (by' : Nat)
    (h_dict : .dict ∈ W) (h_free : .free ∈ W) (h_media : .media ∈ W) :
    keep W (s.evacuate block retire by') = keep W s := by
  unfold State.evacuate
  simp [*]

@[simp] theorem State.keep_relocateBand (s : State) (b : Band) (by' : Nat)
    (h_dict : .dict ∈ W) (h_free : .free ∈ W) (h_media : .media ∈ W) :
    keep W (s.relocateBand b by') = keep W s := by
  unfold State.relocateBand
  simp [*]

@[simp] theorem State.keep_setStage (s : State) (bit : Nat) (c : Bool)
    (h_dict : .dict ∈ W) (h_errors : .errors ∈ W) (h_free : .free ∈ W) (h_observe : .observe ∈ W) :
    keep W (s.setStage bit c) = keep W s := by
  unfold State.setStage
  simp [*]

@[simp] theorem State.keep_stages (s : State)
    (h_dict : .dict ∈ W) (h_errors : .errors ∈ W) (h_free : .free ∈ W) (h_observe : .observe ∈ W) :
    keep W (s.stages) = keep W s := by
  unfold State.stages
  simp [*]

@[simp] theorem State.keep_spend (s : State)
    (h_dict : .dict ∈ W) (h_errors : .errors ∈ W) (h_free : .free ∈ W) (h_observe : .observe ∈ W) :
    keep W (s.spend) = keep W s := by
  unfold State.spend
  simp [*]

@[simp] theorem State.keep_retire (s : State) (block sub : Nat)
    (h_dict : .dict ∈ W) (h_errors : .errors ∈ W) (h_free : .free ∈ W) (h_media : .media ∈ W) (h_observe : .observe ∈ W) :
    keep W (s.retire block sub) = keep W s := by
  unfold State.retire
  simp [*]

@[simp] theorem State.keep_pendErase (s : State) (block by' : Nat)
    (h_media : .media ∈ W) :
    keep W (s.pendErase block by') = keep W s := by
  unfold State.pendErase
  simp [*]

@[simp] theorem State.keep_spill (s : State)
    (h_media : .media ∈ W) :
    keep W s.spill = keep W s := by
  unfold State.spill
  dsimp only
  split <;> simp [*]

@[simp] theorem State.keep_wipeHeld (s : State)
    (h_media : .media ∈ W) :
    keep W s.wipeHeld = keep W s := by
  unfold State.wipeHeld
  simp [*]

@[simp] theorem State.keep_sweep (s : State)
    (h_dict : .dict ∈ W) (h_errors : .errors ∈ W) (h_free : .free ∈ W) (h_media : .media ∈ W) (h_observe : .observe ∈ W) :
    keep W (s.sweep) = keep W s := by
  unfold State.sweep
  simp [*]

@[simp] theorem State.keep_retireDoomed (s : State)
    (h_dict : .dict ∈ W) (h_free : .free ∈ W) (h_media : .media ∈ W) :
    keep W (s.retireDoomed) = keep W s := by
  unfold State.retireDoomed
  simp [*]

@[simp] theorem State.keep_dropCopies (s : State) (block : Nat)
    (h_media : .media ∈ W) :
    keep W (s.dropCopies block) = keep W s := by
  unfold State.dropCopies
  simp [*]

@[simp] theorem State.keep_erased (s : State) (block : Nat)
    (h_media : .media ∈ W) :
    keep W (s.erased block) = keep W s := by
  unfold State.erased
  simp [*]

@[simp] theorem State.keep_busyBit (s : State) (n : Nat)
    (h_media : .media ∈ W) :
    keep W (s.busyBit n) = keep W s := by
  unfold State.busyBit
  simp [*]

@[simp] theorem State.keep_pressureNow (s : State)
    (h_media : .media ∈ W) :
    keep W (s.pressureNow) = keep W s := by
  unfold State.pressureNow
  simp [*]

@[simp] theorem State.keep_setEntry (s : State) (i st : Nat)
    (h_dict : .dict ∈ W) :
    keep W (s.setEntry i st) = keep W s := by
  unfold State.setEntry
  simp [*]

@[simp] theorem State.keep_stopStagings (s : State) (f : Staging → Bool)
    (h_dict : .dict ∈ W) (h_fabric : .fabric ∈ W) (h_free : .free ∈ W) (h_stagings : .stagings ∈ W) (h_vtimes : .vtimes ∈ W) :
    keep W (s.stopStagings f) = keep W s := by
  unfold State.stopStagings
  simp [*]

@[simp] theorem State.keep_dropOutputs (s : State) (k : Nat)
    (h_dict : .dict ∈ W) (h_fabric : .fabric ∈ W) (h_free : .free ∈ W) (h_stagings : .stagings ∈ W) (h_vtimes : .vtimes ∈ W)
    (h0 : .tset k ∈ W ∨ .sets ∈ W) :
    keep W (s.dropOutputs k) = keep W s := by
  unfold State.dropOutputs
  simp [*]

@[simp] theorem State.keep_setDrained (s : State) (p : Piece) (l : Nat) (d : Mem)
    (h_media : .media ∈ W) :
    keep W (s.setDrained p l d) = keep W s := by
  unfold State.setDrained
  split <;> simp [*]

@[simp] theorem State.keep_drainBlock (s : State) (p : Piece) (l : Nat)
    (h_dict : .dict ∈ W) (h_errors : .errors ∈ W) (h_free : .free ∈ W) (h_media : .media ∈ W) (h_observe : .observe ∈ W) :
    keep W (s.drainBlock p l) = keep W s := by
  unfold State.drainBlock
  (repeat' split) <;> simp [*]

@[simp] theorem State.keep_drained (s : State) (group : Nat)
    (h_dict : .dict ∈ W) (h_errors : .errors ∈ W) (h_free : .free ∈ W) (h_media : .media ∈ W) (h_observe : .observe ∈ W) :
    keep W (s.drained group) = keep W s := by
  unfold State.drained
  refine keep_each _ _ _ fun t p => ?_
  exact keep_each _ _ _ fun t l => by simp [*]

@[simp] theorem State.keep_chargePiece (s : State) (p : Piece)
    (h_dict : .dict ∈ W) (h_vtimes : .vtimes ∈ W) :
    keep W (s.chargePiece p) = keep W s := by
  unfold State.chargePiece
  (repeat' split) <;> simp [*]

theorem execPieceProgramDone_keep (group : Nat) (s : State)
    (h_errors : .errors ∈ W) (h_free : .free ∈ W) (h_observe : .observe ∈ W) (h_dict : .dict ∈ W) (h_vtimes : .vtimes ∈ W) (h_media : .media ∈ W) :
    Answers W s (execPieceProgramDone group s) := by
  unfold execPieceProgramDone
  simp [*]

@[simp] theorem State.keep_replace (s : State) (f : BitVec 37 → Bool)
    (h_dict : .dict ∈ W) (h_free : .free ∈ W) (h_media : .media ∈ W) :
    keep W (s.replace f) = keep W s := by
  unfold State.replace
  dsimp only
  rw [State.keep_setMedia _ _ h_media, State.keep_placeMany _ _ _ h_media]
  refine keep_each _ _ _ fun t m => ?_
  (repeat' split) <;> simp [*]

@[simp] theorem State.keep_replaceHeld (s : State) (f : Ver → Bool)
    (h_dict : .dict ∈ W) (h_free : .free ∈ W) (h_media : .media ∈ W) :
    keep W (s.replaceHeld f) = keep W s := by
  unfold State.replaceHeld
  simp [*]

@[simp] theorem State.keep_readAll (s : State) (f : Nat → Bool)
    (h_dict : .dict ∈ W) (h_free : .free ∈ W) (h_media : .media ∈ W) :
    keep W (s.readAll f) = keep W s := by
  unfold State.readAll
  simp [*]

@[simp] theorem State.keep_rewriteWeak (s : State) (f : BitVec 37 → Bool)
    (h_dict : .dict ∈ W) (h_free : .free ∈ W) (h_media : .media ∈ W) :
    keep W (s.rewriteWeak f) = keep W s := by
  unfold State.rewriteWeak
  simp [*]

theorem execProgramFailure_keep (block : Nat) (s : State)
    (h_dict : .dict ∈ W) (h_errors : .errors ∈ W) (h_free : .free ∈ W) (h_media : .media ∈ W) (h_observe : .observe ∈ W) :
    Answers W s (execProgramFailure block s) := by
  unfold execProgramFailure
  (repeat' split) <;> simp [*]

@[simp] theorem State.keep_countErase (s : State) (block : Nat)
    (h_dict : .dict ∈ W) (h_errors : .errors ∈ W) (h_free : .free ∈ W) (h_media : .media ∈ W) (h_observe : .observe ∈ W) :
    keep W (s.countErase block) = keep W s := by
  unfold State.countErase
  simp [*]

theorem execEraseIssue_keep (block : Nat) (s : State)
    (h_dict : .dict ∈ W) (h_errors : .errors ∈ W) (h_free : .free ∈ W) (h_media : .media ∈ W) (h_observe : .observe ∈ W) :
    Answers W s (execEraseIssue block s) := by
  unfold execEraseIssue
  dsimp only
  (repeat' split) <;> simp [*]

@[simp] theorem State.keep_endSanitize (s : State)
    (h_media : .media ∈ W) (h_sets : .sets ∈ W) :
    keep W (s.endSanitize) = keep W s := by
  unfold State.endSanitize
  (repeat' split) <;> simp [*]

theorem execEraseComplete_keep (block : Nat) (good : Bool) (s : State)
    (h_dict : .dict ∈ W) (h_errors : .errors ∈ W) (h_free : .free ∈ W) (h_media : .media ∈ W) (h_observe : .observe ∈ W) (h_sets : .sets ∈ W) :
    Answers W s (execEraseComplete block good s) := by
  unfold execEraseComplete
  simp [*]

theorem execEraseHold_keep (block : Nat) (s : State)
    (h_dict : .dict ∈ W) (h_media : .media ∈ W) :
    Answers W s (execEraseHold block s) := by
  unfold execEraseHold
  simp [*]

theorem execBandVerify_keep (band : Nat) (weak : List Nat) (s : State)
    (h_dict : .dict ∈ W) (h_errors : .errors ∈ W) (h_free : .free ∈ W) (h_media : .media ∈ W) (h_observe : .observe ∈ W) :
    Answers W s (execBandVerify band weak s) := by
  unfold execBandVerify
  (repeat' split) <;> simp [*]

theorem execGarbageCollection_keep (s : State)
    (h_dict : .dict ∈ W) (h_free : .free ∈ W) (h_media : .media ∈ W) :
    Answers W s (execGarbageCollection s) := by
  unfold execGarbageCollection
  (repeat' split) <;> simp [*]

theorem execSegmentWriteback_keep (ns : NsId) (region : Nat) (s : State)
    (h_media : .media ∈ W) :
    Answers W s (execSegmentWriteback ns region s) := by
  unfold execSegmentWriteback
  simp [*]

theorem execMapCheckpoint_keep (s : State)
    (h_media : .media ∈ W) :
    Answers W s (execMapCheckpoint s) := by
  unfold execMapCheckpoint
  simp [*]

theorem execDieFailure_keep (channel die : Nat) (s : State)
    (h_dict : .dict ∈ W) (h_errors : .errors ∈ W) (h_free : .free ∈ W) (h_media : .media ∈ W) (h_observe : .observe ∈ W) :
    Answers W s (execDieFailure channel die s) := by
  unfold execDieFailure
  simp [*]

theorem execReadDisturbRelocation_keep (block : Nat) (s : State)
    (h_dict : .dict ∈ W) (h_free : .free ∈ W) (h_media : .media ∈ W) :
    Answers W s (execReadDisturbRelocation block s) := by
  unfold execReadDisturbRelocation
  split <;> simp [*]

@[simp] theorem State.keep_sampleBand (s : State) (b : Band) (further : Nat)
    (h_dict : .dict ∈ W) (h_free : .free ∈ W) (h_media : .media ∈ W) :
    keep W (s.sampleBand b further) = keep W s := by
  unfold State.sampleBand
  simp [*]

theorem execRetentionRefresh_keep (band furtherSets : Nat) (s : State)
    (h_dict : .dict ∈ W) (h_free : .free ∈ W) (h_media : .media ∈ W) :
    Answers W s (execRetentionRefresh band furtherSets s) := by
  unfold execRetentionRefresh
  split <;> simp [*]

theorem execWearLevelling_keep (s : State)
    (h_dict : .dict ∈ W) (h_free : .free ∈ W) (h_media : .media ∈ W) :
    Answers W s (execWearLevelling s) := by
  unfold execWearLevelling
  dsimp only
  (repeat' split) <;> simp [*]

theorem execSecureErase_keep (block : Nat) (s : State)
    (h_dict : .dict ∈ W) (h_free : .free ∈ W) (h_media : .media ∈ W) :
    Answers W s (execSecureErase block s) := by
  unfold execSecureErase
  simp [*]

@[simp] theorem State.keep_expire (s : State) (k : Nat)
    (h_fabric : .fabric ∈ W) (h_free : .free ∈ W) (h_stagings : .stagings ∈ W) (h_vtimes : .vtimes ∈ W) (h_dict : .dict ∈ W) (h1 : .tset k ∈ W ∨ .sets ∈ W) :
    keep W (s.expire k) = keep W s := by
  unfold State.expire
  simp [*]

theorem execSnapshotExpiry_keep (s : State)
    (h_fabric : .fabric ∈ W) (h_free : .free ∈ W) (h_stagings : .stagings ∈ W) (h_vtimes : .vtimes ∈ W) (h_dict : .dict ∈ W) (h_media : .media ∈ W) (h_sets : .sets ∈ W) :
    Answers W s (execSnapshotExpiry s) := by
  unfold execSnapshotExpiry
  (repeat' split) <;> simp [*]

theorem execHoldLimitExpiry_keep (x : Port) (set : SetId) (s : State)
    (h_fabric : .fabric ∈ W) (h_free : .free ∈ W) (h_stagings : .stagings ∈ W) (h_vtimes : .vtimes ∈ W) (h_dict : .dict ∈ W) (h1 : .tset (setKey x set) ∈ W ∨ .sets ∈ W) :
    Answers W s (execHoldLimitExpiry x set s) := by
  unfold execHoldLimitExpiry
  simp [*]

theorem State.keep_writeTier (s t : State) (lo n : Nat) (m : Mem)
    (h_fabric : .fabric ∈ W) (h_tiers : .tiers ∈ W) (h : s.writeTier lo n m = .ok t) : keep W t = keep W s := by
  unfold State.writeTier at h
  split at h
  · cases h; simp [*]
  · cases h
  · cases h

@[simp] theorem State.keep_memRecord (s : State) (k a : Nat)
    (h_dict : .dict ∈ W) (h_errors : .errors ∈ W) (h_free : .free ∈ W) (h_observe : .observe ∈ W) :
    keep W (s.memRecord k a) = keep W s := by
  unfold State.memRecord
  simp [*]

@[simp] theorem State.keep_chargeCommit (s : State) (p ns lo n : Nat)
    (h_dict : .dict ∈ W) (h_free : .free ∈ W) (h_media : .media ∈ W) (h_vtimes : .vtimes ∈ W) :
    keep W (s.chargeCommit p ns lo n) = keep W s := by
  unfold State.chargeCommit
  dsimp only
  split <;> simp [*]

@[simp] theorem State.keep_acceptWrite (s : State) (payer : Option Nat) (ns lba : Nat) (m : Mem) (fuel n : Nat) (h_media : .media ∈ W) :
    keep W (s.acceptWrite payer ns lba m fuel n) = keep W s := by
  induction fuel generalizing s lba m n with
  | zero => rfl
  | succ fuel ih =>
    simp only [State.acceptWrite]
    split <;> simp [*]

end Sys2Proof.Machine
end

