-- ==== Sys2Proof/Laws/FrameFront.lean ====
section
/-! SUPPORT. The frames of the steps, of the sequencer's commands and of the task registers. -/

namespace Sys2Proof.Machine

variable {W : List Place}

theorem execLoadw_keep (p : Part) (s : State)
    (h_guard : .guard ∈ W) (h_ctxs : .ctxs ∈ W) (h_dict : .dict ∈ W) (h_dies : .dies ∈ W) (h_errors : .errors ∈ W) (h_fabric : .fabric ∈ W) (h_free : .free ∈ W) (h_media : .media ∈ W) (h_observe : .observe ∈ W) (h8 : .seq p.val ∈ W ∨ .seqs ∈ W) (h_sets : .sets ∈ W) (h_tiers : .tiers ∈ W) (h_vtimes : .vtimes ∈ W) :
    Answers W s (execLoadw p s) := by
  unfold execLoadw
  simp [*]

theorem execStream_keep (p : Part) (s : State)
    (h_guard : .guard ∈ W) (h_ctxs : .ctxs ∈ W) (h_dict : .dict ∈ W) (h_dies : .dies ∈ W) (h_errors : .errors ∈ W) (h_fabric : .fabric ∈ W) (h_free : .free ∈ W) (h_media : .media ∈ W) (h_observe : .observe ∈ W) (h8 : .seq p.val ∈ W ∨ .seqs ∈ W) (h_sets : .sets ∈ W) (h_tiers : .tiers ∈ W) (h_vtimes : .vtimes ∈ W) :
    Answers W s (execStream p s) := by
  unfold execStream
  simp [*]

theorem execDrain_keep (p : Part) (s : State)
    (h_guard : .guard ∈ W) (h_ctxs : .ctxs ∈ W) (h_dict : .dict ∈ W) (h_dies : .dies ∈ W) (h_errors : .errors ∈ W) (h_fabric : .fabric ∈ W) (h_free : .free ∈ W) (h_media : .media ∈ W) (h_observe : .observe ∈ W) (h8 : .seq p.val ∈ W ∨ .seqs ∈ W) (h_sets : .sets ∈ W) (h_tiers : .tiers ∈ W) (h_vtimes : .vtimes ∈ W) :
    Answers W s (execDrain p s) := by
  unfold execDrain
  simp [*]

theorem execSfn_keep (p : Part) (s : State)
    (h_guard : .guard ∈ W) (h_ctxs : .ctxs ∈ W) (h_dict : .dict ∈ W) (h_dies : .dies ∈ W) (h_errors : .errors ∈ W) (h_fabric : .fabric ∈ W) (h_free : .free ∈ W) (h_media : .media ∈ W) (h_observe : .observe ∈ W) (h8 : .seq p.val ∈ W ∨ .seqs ∈ W) (h_sets : .sets ∈ W) (h_tiers : .tiers ∈ W) (h_vtimes : .vtimes ∈ W) :
    Answers W s (execSfn p s) := by
  unfold execSfn
  simp [*]

theorem execNormStats_keep (p : Part) (s : State)
    (h_guard : .guard ∈ W) (h_ctxs : .ctxs ∈ W) (h_dict : .dict ∈ W) (h_dies : .dies ∈ W) (h_errors : .errors ∈ W) (h_fabric : .fabric ∈ W) (h_free : .free ∈ W) (h_media : .media ∈ W) (h_observe : .observe ∈ W) (h8 : .seq p.val ∈ W ∨ .seqs ∈ W) (h_sets : .sets ∈ W) (h_tiers : .tiers ∈ W) (h_vtimes : .vtimes ∈ W) :
    Answers W s (execNormStats p s) := by
  unfold execNormStats
  simp [*]

theorem execNormApply_keep (p : Part) (s : State)
    (h_guard : .guard ∈ W) (h_ctxs : .ctxs ∈ W) (h_dict : .dict ∈ W) (h_dies : .dies ∈ W) (h_errors : .errors ∈ W) (h_fabric : .fabric ∈ W) (h_free : .free ∈ W) (h_media : .media ∈ W) (h_observe : .observe ∈ W) (h8 : .seq p.val ∈ W ∨ .seqs ∈ W) (h_sets : .sets ∈ W) (h_tiers : .tiers ∈ W) (h_vtimes : .vtimes ∈ W) :
    Answers W s (execNormApply p s) := by
  unfold execNormApply
  simp [*]

theorem execChainRecur_keep (p : Part) (s : State)
    (h_guard : .guard ∈ W) (h_ctxs : .ctxs ∈ W) (h_dict : .dict ∈ W) (h_dies : .dies ∈ W) (h_errors : .errors ∈ W) (h_fabric : .fabric ∈ W) (h_free : .free ∈ W) (h_media : .media ∈ W) (h_observe : .observe ∈ W) (h8 : .seq p.val ∈ W ∨ .seqs ∈ W) (h_sets : .sets ∈ W) (h_tiers : .tiers ∈ W) (h_vtimes : .vtimes ∈ W) :
    Answers W s (execChainRecur p s) := by
  unfold execChainRecur
  simp [*]

theorem execChainPrefix_keep (p : Part) (s : State)
    (h_guard : .guard ∈ W) (h_ctxs : .ctxs ∈ W) (h_dict : .dict ∈ W) (h_dies : .dies ∈ W) (h_errors : .errors ∈ W) (h_fabric : .fabric ∈ W) (h_free : .free ∈ W) (h_media : .media ∈ W) (h_observe : .observe ∈ W) (h8 : .seq p.val ∈ W ∨ .seqs ∈ W) (h_sets : .sets ∈ W) (h_tiers : .tiers ∈ W) (h_vtimes : .vtimes ∈ W) :
    Answers W s (execChainPrefix p s) := by
  unfold execChainPrefix
  simp [*]

theorem execChainOrtho_keep (p : Part) (s : State)
    (h_guard : .guard ∈ W) (h_ctxs : .ctxs ∈ W) (h_dict : .dict ∈ W) (h_dies : .dies ∈ W) (h_errors : .errors ∈ W) (h_fabric : .fabric ∈ W) (h_free : .free ∈ W) (h_media : .media ∈ W) (h_observe : .observe ∈ W) (h8 : .seq p.val ∈ W ∨ .seqs ∈ W) (h_sets : .sets ∈ W) (h_tiers : .tiers ∈ W) (h_vtimes : .vtimes ∈ W) :
    Answers W s (execChainOrtho p s) := by
  unfold execChainOrtho
  simp [*]

theorem execPqtab_keep (p : Part) (s : State)
    (h_guard : .guard ∈ W) (h_ctxs : .ctxs ∈ W) (h_dict : .dict ∈ W) (h_dies : .dies ∈ W) (h_errors : .errors ∈ W) (h_fabric : .fabric ∈ W) (h_free : .free ∈ W) (h_media : .media ∈ W) (h_observe : .observe ∈ W) (h8 : .seq p.val ∈ W ∨ .seqs ∈ W) (h_sets : .sets ∈ W) (h_tiers : .tiers ∈ W) (h_vtimes : .vtimes ∈ W) :
    Answers W s (execPqtab p s) := by
  unfold execPqtab
  simp [*]

theorem execSelectLargest_keep (p : Part) (s : State)
    (h_guard : .guard ∈ W) (h_ctxs : .ctxs ∈ W) (h_dict : .dict ∈ W) (h_dies : .dies ∈ W) (h_errors : .errors ∈ W) (h_fabric : .fabric ∈ W) (h_free : .free ∈ W) (h_media : .media ∈ W) (h_observe : .observe ∈ W) (h8 : .seq p.val ∈ W ∨ .seqs ∈ W) (h_sets : .sets ∈ W) (h_tiers : .tiers ∈ W) (h_vtimes : .vtimes ∈ W) :
    Answers W s (execSelectLargest p s) := by
  unfold execSelectLargest
  simp [*]

theorem execSelectSmallest_keep (p : Part) (s : State)
    (h_guard : .guard ∈ W) (h_ctxs : .ctxs ∈ W) (h_dict : .dict ∈ W) (h_dies : .dies ∈ W) (h_errors : .errors ∈ W) (h_fabric : .fabric ∈ W) (h_free : .free ∈ W) (h_media : .media ∈ W) (h_observe : .observe ∈ W) (h8 : .seq p.val ∈ W ∨ .seqs ∈ W) (h_sets : .sets ∈ W) (h_tiers : .tiers ∈ W) (h_vtimes : .vtimes ∈ W) :
    Answers W s (execSelectSmallest p s) := by
  unfold execSelectSmallest
  simp [*]

theorem execSelectSample_keep (p : Part) (s : State)
    (h_guard : .guard ∈ W) (h_ctxs : .ctxs ∈ W) (h_dict : .dict ∈ W) (h_dies : .dies ∈ W) (h_errors : .errors ∈ W) (h_fabric : .fabric ∈ W) (h_free : .free ∈ W) (h_media : .media ∈ W) (h_observe : .observe ∈ W) (h8 : .seq p.val ∈ W ∨ .seqs ∈ W) (h_sets : .sets ∈ W) (h_tiers : .tiers ∈ W) (h_vtimes : .vtimes ∈ W) :
    Answers W s (execSelectSample p s) := by
  unfold execSelectSample
  simp [*]

theorem execFetch_keep (p : Part) (s : State)
    (h_guard : .guard ∈ W) (h_ctxs : .ctxs ∈ W) (h_dict : .dict ∈ W) (h_dies : .dies ∈ W) (h_errors : .errors ∈ W) (h_fabric : .fabric ∈ W) (h_free : .free ∈ W) (h_media : .media ∈ W) (h_observe : .observe ∈ W) (h8 : .seq p.val ∈ W ∨ .seqs ∈ W) (h_sets : .sets ∈ W) (h_tiers : .tiers ∈ W) (h_vtimes : .vtimes ∈ W) :
    Answers W s (execFetch p s) := by
  unfold execFetch
  simp [*]

theorem execScan_keep (p : Part) (s : State)
    (h_guard : .guard ∈ W) (h_ctxs : .ctxs ∈ W) (h_dict : .dict ∈ W) (h_dies : .dies ∈ W) (h_errors : .errors ∈ W) (h_fabric : .fabric ∈ W) (h_free : .free ∈ W) (h_media : .media ∈ W) (h_observe : .observe ∈ W) (h8 : .seq p.val ∈ W ∨ .seqs ∈ W) (h_sets : .sets ∈ W) (h_tiers : .tiers ∈ W) (h_vtimes : .vtimes ∈ W) :
    Answers W s (execScan p s) := by
  unfold execScan
  simp [*]

theorem execCheck_keep (p : Part) (s : State)
    (h_guard : .guard ∈ W) (h_ctxs : .ctxs ∈ W) (h_dict : .dict ∈ W) (h_dies : .dies ∈ W) (h_errors : .errors ∈ W) (h_fabric : .fabric ∈ W) (h_free : .free ∈ W) (h_media : .media ∈ W) (h_observe : .observe ∈ W) (h8 : .seq p.val ∈ W ∨ .seqs ∈ W) (h_sets : .sets ∈ W) (h_tiers : .tiers ∈ W) (h_vtimes : .vtimes ∈ W) :
    Answers W s (execCheck p s) := by
  unfold execCheck
  simp [*]

theorem execWalk_keep (p : Part) (s : State)
    (h_guard : .guard ∈ W) (h_ctxs : .ctxs ∈ W) (h_dict : .dict ∈ W) (h_dies : .dies ∈ W) (h_errors : .errors ∈ W) (h_fabric : .fabric ∈ W) (h_free : .free ∈ W) (h_media : .media ∈ W) (h_observe : .observe ∈ W) (h8 : .seq p.val ∈ W ∨ .seqs ∈ W) (h_sets : .sets ∈ W) (h_tiers : .tiers ∈ W) (h_vtimes : .vtimes ∈ W) :
    Answers W s (execWalk p s) := by
  unfold execWalk
  simp [*]

theorem execWalkRerank_keep (p : Part) (s : State)
    (h_guard : .guard ∈ W) (h_ctxs : .ctxs ∈ W) (h_dict : .dict ∈ W) (h_dies : .dies ∈ W) (h_errors : .errors ∈ W) (h_fabric : .fabric ∈ W) (h_free : .free ∈ W) (h_media : .media ∈ W) (h_observe : .observe ∈ W) (h8 : .seq p.val ∈ W ∨ .seqs ∈ W) (h_sets : .sets ∈ W) (h_tiers : .tiers ∈ W) (h_vtimes : .vtimes ∈ W) :
    Answers W s (execWalkRerank p s) := by
  unfold execWalkRerank
  simp [*]

theorem execReduceP_keep (p : Part) (s : State)
    (h_guard : .guard ∈ W) (h_ctxs : .ctxs ∈ W) (h_dict : .dict ∈ W) (h_dies : .dies ∈ W) (h_errors : .errors ∈ W) (h_fabric : .fabric ∈ W) (h_free : .free ∈ W) (h_media : .media ∈ W) (h_observe : .observe ∈ W) (h8 : .seq p.val ∈ W ∨ .seqs ∈ W) (h_sets : .sets ∈ W) (h_tiers : .tiers ∈ W) (h_vtimes : .vtimes ∈ W) :
    Answers W s (execReduceP p s) := by
  unfold execReduceP
  simp [*]

theorem execReduceQ_keep (p : Part) (s : State)
    (h_guard : .guard ∈ W) (h_ctxs : .ctxs ∈ W) (h_dict : .dict ∈ W) (h_dies : .dies ∈ W) (h_errors : .errors ∈ W) (h_fabric : .fabric ∈ W) (h_free : .free ∈ W) (h_media : .media ∈ W) (h_observe : .observe ∈ W) (h8 : .seq p.val ∈ W ∨ .seqs ∈ W) (h_sets : .sets ∈ W) (h_tiers : .tiers ∈ W) (h_vtimes : .vtimes ∈ W) :
    Answers W s (execReduceQ p s) := by
  unfold execReduceQ
  simp [*]

theorem execMark_keep (p : Part) (s : State)
    (h_guard : .guard ∈ W) (h_ctxs : .ctxs ∈ W) (h_dict : .dict ∈ W) (h_dies : .dies ∈ W) (h_errors : .errors ∈ W) (h_fabric : .fabric ∈ W) (h_free : .free ∈ W) (h_media : .media ∈ W) (h_observe : .observe ∈ W) (h8 : .seq p.val ∈ W ∨ .seqs ∈ W) (h_sets : .sets ∈ W) (h_tiers : .tiers ∈ W) (h_vtimes : .vtimes ∈ W) :
    Answers W s (execMark p s) := by
  unfold execMark
  simp [*]

theorem execWait_keep (p : Part) (s : State)
    (h_dict : .dict ∈ W) (h_fabric : .fabric ∈ W) (h_free : .free ∈ W) (h_tiers : .tiers ∈ W) (h0 : .seq p.val ∈ W ∨ .seqs ∈ W) :
    Answers W s (execWait p s) := by
  unfold execWait
  split <;> simp [*]

theorem execWaitUntil_keep (p : Part) (s : State)
    (h_dict : .dict ∈ W) (h_fabric : .fabric ∈ W) (h_free : .free ∈ W) (h_tiers : .tiers ∈ W) (h0 : .seq p.val ∈ W ∨ .seqs ∈ W) :
    Answers W s (execWaitUntil p s) := by
  unfold execWaitUntil
  split <;> simp [*]

theorem execLoop_keep (p : Part) (s : State)
    (h_dict : .dict ∈ W) (h_fabric : .fabric ∈ W) (h_free : .free ∈ W) (h_tiers : .tiers ∈ W) (h0 : .seq p.val ∈ W ∨ .seqs ∈ W) :
    Answers W s (execLoop p s) := by
  unfold execLoop
  split <;> simp [*]

@[simp] theorem State.keep_failRun (s : State) (p k status : Nat)
    (h_ctxs : .ctxs ∈ W) (h1 : .seq p ∈ W ∨ .seqs ∈ W) (h2 : .tset k ∈ W ∨ .sets ∈ W) :
    keep W (s.failRun p k status) = keep W s := by
  unfold State.failRun
  simp [*]

@[simp] theorem State.keep_holdOutputs (s : State) (p k : Nat) (m : Mem) (n : Nat)
    (h_ctxs : .ctxs ∈ W) (h1 : .seq p ∈ W ∨ .seqs ∈ W) (h2 : .tset k ∈ W ∨ .sets ∈ W) :
    keep W (s.holdOutputs p k m n) = keep W s := by
  unfold State.holdOutputs
  simp [*]

@[simp] theorem State.keep_queryEnd (s : State) (p : Nat) (r : Run)
    (h_ctxs : .ctxs ∈ W) (h_dict : .dict ∈ W) (h_errors : .errors ∈ W) (h_free : .free ∈ W) (h_observe : .observe ∈ W) (h5 : .seq p ∈ W ∨ .seqs ∈ W) (h_sets : .sets ∈ W) :
    keep W (s.queryEnd p r) = keep W s := by
  unfold State.queryEnd
  dsimp only
  (repeat' split) <;> simp [*]

@[simp] theorem State.keep_acceptCommit (s : State) (p a ns lba n : Nat) (m : Mem)
    (h_guard : .guard ∈ W) (h_media : .media ∈ W) (h_vtimes : .vtimes ∈ W) :
    keep W (s.acceptCommit p a ns lba n m) = keep W s := by
  unfold State.acceptCommit
  simp [*]

@[simp] theorem State.keep_reachEnd (s : State) (p : Nat) (r : Run)
    (h_guard : .guard ∈ W) (h_vtimes : .vtimes ∈ W) (h_ctxs : .ctxs ∈ W) (h_dict : .dict ∈ W) (h_errors : .errors ∈ W) (h_free : .free ∈ W) (h_media : .media ∈ W) (h_observe : .observe ∈ W) (h6 : .seq p ∈ W ∨ .seqs ∈ W) (h_sets : .sets ∈ W) :
    keep W (s.reachEnd p r) = keep W s := by
  unfold State.reachEnd
  dsimp only
  (repeat' split) <;> simp [*]

@[simp] theorem State.keep_dropSurplus (s : State) (p : Nat)
    (h_dies : .dies ∈ W) (h_fabric : .fabric ∈ W) (h0 : .seq p ∈ W ∨ .seqs ∈ W) :
    keep W (s.dropSurplus p) = keep W s := by
  unfold State.dropSurplus
  split <;> simp [*]

@[simp] theorem State.keep_lookupAll (s : State) (shift : Nat) (l : List (Nat × Nat × Nat))
    (h_dict : .dict ∈ W) (h_free : .free ∈ W) (h_media : .media ∈ W) :
    keep W (s.lookupAll shift l).1 = keep W s := by
  unfold State.lookupAll
  refine keep_fold_pair _ _ (fun a x => ?_) _
  exact State.keep_lookups _ _ _ _ h_dict h_free h_media

@[simp] theorem State.keep_loadBatch (s : State) (p k b : Nat) (table : Bank)
    (h_dict : .dict ∈ W) (h_free : .free ∈ W) (h_media : .media ∈ W) (h_vtimes : .vtimes ∈ W) :
    keep W (s.loadBatch p k b table) = keep W s := by
  unfold State.loadBatch
  dsimp only
  (repeat' split) <;> simp [*]

@[simp] theorem State.keep_loadAhead (s : State) (p : Nat)
    (h_dict : .dict ∈ W) (h_free : .free ∈ W) (h_media : .media ∈ W) (h_vtimes : .vtimes ∈ W) :
    keep W (s.loadAhead p) = keep W s := by
  unfold State.loadAhead
  split
  · simp [*]
  · refine keep_each _ _ _ fun t n => ?_
    split <;> simp [*]

@[simp] theorem State.keep_selectNext (s : State) (p now : Nat)
    (h_dict : .dict ∈ W) (h_dies : .dies ∈ W) (h_fabric : .fabric ∈ W) (h_free : .free ∈ W) (h_media : .media ∈ W)
    (h3 : .seq p ∈ W ∨ .seqs ∈ W) (h_sets : .sets ∈ W) (h_vtimes : .vtimes ∈ W) :
    keep W (s.selectNext p now) = keep W s := by
  unfold State.selectNext
  dsimp only
  split <;> simp [*]

theorem execEndStep_keep (p : Part) (t : Nat) (s : State)
    (h_tiers : .tiers ∈ W) (h_guard : .guard ∈ W) (h_vtimes : .vtimes ∈ W) (h_ctxs : .ctxs ∈ W) (h_dict : .dict ∈ W) (h_dies : .dies ∈ W) (h_errors : .errors ∈ W) (h_fabric : .fabric ∈ W) (h_free : .free ∈ W) (h_media : .media ∈ W) (h_observe : .observe ∈ W) (h8 : .seq p.val ∈ W ∨ .seqs ∈ W) (h_sets : .sets ∈ W) :
    Answers W s (execEndStep p t s) := by
  unfold execEndStep
  dsimp only
  split
  · simp
  · split
    · simp
    · simp [*]

theorem execStepComplete_keep (p : Part) (n : Queue) (s : State)
    (h_guard : .guard ∈ W) (h_ctxs : .ctxs ∈ W) (h_dict : .dict ∈ W) (h_dies : .dies ∈ W) (h_errors : .errors ∈ W) (h_fabric : .fabric ∈ W) (h_free : .free ∈ W) (h_media : .media ∈ W) (h_observe : .observe ∈ W) (h8 : .seq p.val ∈ W ∨ .seqs ∈ W) (h_sets : .sets ∈ W) (h_tiers : .tiers ∈ W) (h_vtimes : .vtimes ∈ W) :
    Answers W s (execStepComplete p n s) := by
  unfold execStepComplete
  dsimp only
  (repeat' split) <;> simp [*]

theorem execFlagFall_keep (p : Part) (i : BitVec 12) (s : State)
    (h_errors : .errors ∈ W) (h_observe : .observe ∈ W) (h_ctxs : .ctxs ∈ W) (h_dict : .dict ∈ W) (h_dies : .dies ∈ W) (h_fabric : .fabric ∈ W) (h_free : .free ∈ W) (h5 : .seq p.val ∈ W ∨ .seqs ∈ W) (h_sets : .sets ∈ W) (h_tiers : .tiers ∈ W) :
    Answers W s (execFlagFall p i s) := by
  unfold execFlagFall
  dsimp only
  (repeat' split) <;> simp [*]

theorem execStepStop_keep (p : Part) (n : Queue) (s : State)
    (h_errors : .errors ∈ W) (h_observe : .observe ∈ W) (h_ctxs : .ctxs ∈ W) (h_dict : .dict ∈ W) (h_dies : .dies ∈ W) (h_fabric : .fabric ∈ W) (h_free : .free ∈ W) (h5 : .seq p.val ∈ W ∨ .seqs ∈ W) (h_sets : .sets ∈ W) (h_tiers : .tiers ∈ W) :
    Answers W s (execStepStop p n s) := by
  unfold execStepStop
  split <;> simp [*]

theorem execTickOverrun_keep (p : Part) (s : State)
    (h_errors : .errors ∈ W) (h_observe : .observe ∈ W) (h_ctxs : .ctxs ∈ W) (h_dict : .dict ∈ W) (h_dies : .dies ∈ W) (h_fabric : .fabric ∈ W) (h_free : .free ∈ W) (h5 : .seq p.val ∈ W ∨ .seqs ∈ W) (h_sets : .sets ∈ W) (h_tiers : .tiers ∈ W) :
    Answers W s (execTickOverrun p s) := by
  unfold execTickOverrun
  dsimp only
  (repeat' split) <;> simp [*]

theorem execPartitionUnitsIdle_keep (p : Part) (t : Nat) (s : State)
    (h_media : .media ∈ W) (h_free : .free ∈ W) (h_vtimes : .vtimes ∈ W) (h_dict : .dict ∈ W) (h_dies : .dies ∈ W) (h_fabric : .fabric ∈ W) (h3 : .seq p.val ∈ W ∨ .seqs ∈ W) (h_sets : .sets ∈ W) :
    Answers W s (execPartitionUnitsIdle p t s) := by
  unfold execPartitionUnitsIdle
  simp [*]

@[simp] theorem State.keep_countPeriod (s : State) (p : Nat)
    (h_dict : .dict ∈ W) :
    keep W (s.countPeriod p) = keep W s := by
  unfold State.countPeriod
  simp [*]

@[simp] theorem State.keep_beginPeriod (s : State) (p stuck : Nat)
    (h0 : .seq p ∈ W ∨ .seqs ∈ W) :
    keep W (s.beginPeriod p stuck) = keep W s := by
  unfold State.beginPeriod
  simp [*]

theorem execMovePeriodStart_keep (p : Part) (s : State)
    (h_free : .free ∈ W) (h_media : .media ∈ W) (h_vtimes : .vtimes ∈ W) (h_dict : .dict ∈ W) (h_dies : .dies ∈ W) (h_fabric : .fabric ∈ W) (h3 : .seq p.val ∈ W ∨ .seqs ∈ W) (h_sets : .sets ∈ W) :
    Answers W s (execMovePeriodStart p s) := by
  unfold execMovePeriodStart
  simp [*]

theorem execHangWatchdog_keep (p : Part) (s : State)
    (h_dict : .dict ∈ W) (h_errors : .errors ∈ W) (h_free : .free ∈ W) (h_observe : .observe ∈ W) (h4 : .seq p.val ∈ W ∨ .seqs ∈ W) :
    Answers W s (execHangWatchdog p s) := by
  unfold execHangWatchdog
  dsimp only
  (repeat' split) <;> simp [*]

theorem execPartitionResetDone_keep (p : Part) (s : State)
    (h0 : .part p.val ∈ W ∨ .parts ∈ W) :
    Answers W s (execPartitionResetDone p s) := by
  unfold execPartitionResetDone
  simp [*]

@[simp] theorem State.keep_markRead (s : State) (seqs : List (BitVec 32))
    (h_errors : .errors ∈ W) :
    keep W (s.markRead seqs) = keep W s := by
  unfold State.markRead
  simp [*]

@[simp] theorem State.keep_startCmd (s : State) (k : Nat)
    (h0 : .tset k ∈ W ∨ .sets ∈ W) :
    keep W (s.startCmd k) = keep W s := by
  unfold State.startCmd
  simp [*]

@[simp] theorem State.keep_take (s : State) (k : Nat)
    (h_ctxs : .ctxs ∈ W) (h_orders : .orders ∈ W) (h2 : .port (keyPort k) ∈ W ∨ .ports ∈ W) (h3 : .tset k ∈ W ∨ .sets ∈ W) :
    keep W (s.take k) = keep W s := by
  unfold State.take
  dsimp only
  (repeat' split) <;> simp [*]

@[simp] theorem State.keep_serveSet (s : State) (r : Req) (type : Nat) (argsOk : Bool) (k : State → State) (n echo : Nat)
    (h_dict : .dict ∈ W) (h1 : .port r.port.val ∈ W ∨ .ports ∈ W) (hk : ∀ t, keep W (k t) = keep W t) :
    keep W (s.serveSet r type argsOk k n echo) = keep W s := by
  unfold State.serveSet
  split <;> simp [*]

theorem execTrWrite_keep (r : Req) (set : SetId) (go : Bool) (first count : Fin 16) (payload : Bytes) (s : State)
    (h_ctxs : .ctxs ∈ W) (h_dict : .dict ∈ W) (h_orders : .orders ∈ W) (h_ports : .ports ∈ W) (h_sets : .sets ∈ W) :
    Answers W s (execTrWrite r set go first count payload s) := by
  unfold execTrWrite
  simp [*]

theorem execCommandStart_keep (x : Port) (set : SetId) (s : State)
    (h0 : .tset (setKey x set) ∈ W ∨ .sets ∈ W) :
    Answers W s (execCommandStart x set s) := by
  unfold execCommandStart
  simp [*]

theorem execTrRead_keep (r : Req) (set : SetId) (first count : Fin 16) (s : State)
    (h_dict : .dict ∈ W) (h1 : .port r.port.val ∈ W ∨ .ports ∈ W) :
    Answers W s (execTrRead r set first count s) := by
  unfold execTrRead
  simp [*]

theorem execDbRead_keep (r : Req) (clear : BitVec 32) (s : State)
    (h_dict : .dict ∈ W) (h1 : .port r.port.val ∈ W ∨ .ports ∈ W) :
    Answers W s (execDbRead r clear s) := by
  unfold execDbRead
  simp [*]

theorem execDataPushInput_keep (r : Req) (set : SetId) (offset : BitVec 48) (payload : Bytes) (s : State)
    (h_dict : .dict ∈ W) (h1 : .port r.port.val ∈ W ∨ .ports ∈ W) (h2 : .tset (setKey r.port set) ∈ W ∨ .sets ∈ W) :
    Answers W s (execDataPushInput r set offset payload s) := by
  unfold execDataPushInput
  simp [*]

@[simp] theorem State.keep_pushRecord (s : State) (x : Port) (a : Nat)
    (h_dict : .dict ∈ W) (h_errors : .errors ∈ W) (h_free : .free ∈ W) (h_observe : .observe ∈ W) :
    keep W (s.pushRecord x a) = keep W s := by
  unfold State.pushRecord
  simp [*]

@[simp] theorem State.keep_pushOver (s : State) (p a n : Nat)
    (h_dies : .dies ∈ W) (h_fabric : .fabric ∈ W) (h_free : .free ∈ W) :
    keep W (s.pushOver p a n) = keep W s := by
  unfold State.pushOver
  dsimp only
  (repeat' split) <;> simp [*]

theorem execDataPushMemory_keep (r : Req) (set : SetId) (addr : BitVec 48) (payload : Bytes) (s : State)
    (h_dies : .dies ∈ W) (h_dict : .dict ∈ W) (h_errors : .errors ∈ W) (h_fabric : .fabric ∈ W) (h_free : .free ∈ W) (h_observe : .observe ∈ W) (h5 : .port r.port.val ∈ W ∨ .ports ∈ W) (h_tiers : .tiers ∈ W) :
    Answers W s (execDataPushMemory r set addr payload s) := by
  unfold execDataPushMemory
  refine (answers_next _ _).2 (State.keep_serveSet _ _ _ _ _ _ _ (by simp [*]) (by simp [*]) fun t => ?_)
  split
  · simp [*]
  · split
    · simp [*]
    · split
      · simp [*]
      · split
        · rename_i u h
          simp [*, State.keep_writeTier t u _ _ _ h_fabric h_tiers h]
        · simp [*]

theorem execDataPullOutput_keep (r : Req) (set : SetId) (offset : BitVec 48) (length : BitVec 14) (s : State)
    (h_dict : .dict ∈ W) (h1 : .port r.port.val ∈ W ∨ .ports ∈ W) :
    Answers W s (execDataPullOutput r set offset length s) := by
  unfold execDataPullOutput
  simp [*]

theorem execDataPullMemory_keep (r : Req) (set : SetId) (addr : BitVec 48) (length : BitVec 14) (s : State)
    (h_guard : .guard ∈ W) (h_dict : .dict ∈ W) (h_errors : .errors ∈ W) (h_free : .free ∈ W) (h_observe : .observe ∈ W) (h4 : .port r.port.val ∈ W ∨ .ports ∈ W) :
    Answers W s (execDataPullMemory r set addr length s) := by
  unfold execDataPullMemory
  refine (answers_next _ _).2 (State.keep_serveSet _ _ _ _ _ _ _ (by simp [*]) (by simp [*]) fun t => ?_)
  dsimp only
  (repeat' split) <;> simp [*]

end Sys2Proof.Machine
end

