-- ==== Sys2Proof/Laws/FrameIo.lean ====
section
/-! SUPPORT. The frames of the I/O commands, of the life cycle and of observation. -/

namespace Sys2Proof.Machine

variable {W : List Place}

@[simp] theorem State.keep_begin (s : State) (k : Nat)
    (h0 : .tset k ∈ W ∨ .sets ∈ W) :
    keep W (s.begin k) = keep W s := by
  unfold State.begin
  simp [*]

@[simp] theorem State.keep_flashRecord (s : State) (k ns lba : Nat)
    (h_dict : .dict ∈ W) (h_errors : .errors ∈ W) (h_free : .free ∈ W) (h_observe : .observe ∈ W) :
    keep W (s.flashRecord k ns lba) = keep W s := by
  unfold State.flashRecord
  simp [*]

@[simp] theorem State.keep_useHints (s : State) (t : TaskSet) (hints : Bool) (ns lo n stamp : Nat)
    (h_free : .free ∈ W) (h_dict : .dict ∈ W) (h_media : .media ∈ W) :
    keep W (s.useHints t hints ns lo n stamp).1 = keep W s := by
  unfold State.useHints
  refine keep_fold_pair _ _ (fun a r => ?_) _
  dsimp only
  split <;> simp [*]

theorem execRead_keep (x : Port) (set : SetId) (s : State)
    (h_dict : .dict ∈ W) (h_errors : .errors ∈ W) (h_free : .free ∈ W) (h_media : .media ∈ W) (h_observe : .observe ∈ W) (h5 : .tset (setKey x set) ∈ W ∨ .sets ∈ W) (h_vtimes : .vtimes ∈ W) :
    Answers W s (execRead x set s) := by
  unfold execRead
  dsimp only
  (repeat' split) <;> simp [*]

theorem execReadComplete_keep (x : Port) (set : SetId) (s : State)
    (h_dict : .dict ∈ W) (h_vtimes : .vtimes ∈ W) (h_ctxs : .ctxs ∈ W) (h_ports : .ports ∈ W) (h_sets : .sets ∈ W) :
    Answers W s (execReadComplete x set s) := by
  unfold execReadComplete
  simp [*]

theorem execMapSegments_keep (x : Port) (set : SetId) (s : State)
    (h_errors : .errors ∈ W) (h_observe : .observe ∈ W) (h_dict : .dict ∈ W) (h_free : .free ∈ W) (h_media : .media ∈ W) (h3 : .tset (setKey x set) ∈ W ∨ .sets ∈ W) (h_vtimes : .vtimes ∈ W) :
    Answers W s (execMapSegments x set s) := by
  unfold execMapSegments
  simp [*]

@[simp] theorem State.keep_chargeCheck (s : State) (t : TaskSet) (x fed : Nat)
    (h_guard : .guard ∈ W) (h_dict : .dict ∈ W) (h_free : .free ∈ W) (h_media : .media ∈ W) (h_vtimes : .vtimes ∈ W) :
    keep W (s.chargeCheck t x fed).1 = keep W s := by
  unfold State.chargeCheck
  dsimp only
  split <;> simp [*]

@[simp] theorem State.keep_checkEnd (s : State) (k : Nat) (c : CkCfg) (r : Nat × Nat × Option BlockRead)
    (h0 : .tset k ∈ W ∨ .sets ∈ W) (h_dict : .dict ∈ W) (h_errors : .errors ∈ W) (h_free : .free ∈ W) (h_observe : .observe ∈ W) :
    keep W (s.checkEnd k c r) = keep W s := by
  unfold State.checkEnd
  dsimp only
  (repeat' split) <;> simp [*]

theorem execCheckCommand_keep (x : Port) (set : SetId) (s : State)
    (h_guard : .guard ∈ W) (h_ctxs : .ctxs ∈ W) (h_dict : .dict ∈ W) (h_errors : .errors ∈ W) (h_free : .free ∈ W) (h_media : .media ∈ W) (h_observe : .observe ∈ W) (h_ports : .ports ∈ W) (h_sets : .sets ∈ W) (h_vtimes : .vtimes ∈ W) :
    Answers W s (execCheckCommand x set s) := by
  unfold execCheckCommand
  dsimp only
  (repeat' split) <;> simp [*]

@[simp] theorem State.keep_chargeSegments (s : State) (x ns lo n : Nat)
    (h_dict : .dict ∈ W) (h_free : .free ∈ W) (h_media : .media ∈ W) (h_vtimes : .vtimes ∈ W) :
    keep W (s.chargeSegments x ns lo n) = keep W s := by
  unfold State.chargeSegments
  dsimp only
  split <;> simp [*]

theorem execWrite_keep (x : Port) (set : SetId) (s : State)
    (h_ctxs : .ctxs ∈ W) (h_ports : .ports ∈ W) (h_sets : .sets ∈ W) :
    Answers W s (execWrite x set s) := by
  unfold execWrite
  simp [*]

theorem execWritePieceAccept_keep (x : Port) (set : SetId) (s : State)
    (h_dict : .dict ∈ W) (h_errors : .errors ∈ W) (h_free : .free ∈ W) (h_media : .media ∈ W) (h_observe : .observe ∈ W) (h5 : .tset (setKey x set) ∈ W ∨ .sets ∈ W) (h_vtimes : .vtimes ∈ W) :
    Answers W s (execWritePieceAccept x set s) := by
  unfold execWritePieceAccept
  simp [*]

theorem execDataTimeout_keep (x : Port) (set : SetId) (s : State)
    (h0 : .tset (setKey x set) ∈ W ∨ .sets ∈ W) :
    Answers W s (execDataTimeout x set s) := by
  unfold execDataTimeout
  simp [*]

theorem execDiscard_keep (x : Port) (set : SetId) (s : State)
     (h_dict : .dict ∈ W) (h_free : .free ∈ W) (h_media : .media ∈ W) (h_vtimes : .vtimes ∈ W) (h1 : .tset (setKey x set) ∈ W ∨ .sets ∈ W) :
    Answers W s (execDiscard x set s) := by
  unfold execDiscard
  simp [*]

theorem execSecureDiscard_keep (x : Port) (set : SetId) (s : State)
     (h_dict : .dict ∈ W) (h_free : .free ∈ W) (h_media : .media ∈ W) (h_vtimes : .vtimes ∈ W) (h1 : .tset (setKey x set) ∈ W ∨ .sets ∈ W) :
    Answers W s (execSecureDiscard x set s) := by
  unfold execSecureDiscard
  simp [*]

theorem execFlush_keep (x : Port) (set : SetId) (s : State)
    (h0 : .tset (setKey x set) ∈ W ∨ .sets ∈ W) :
    Answers W s (execFlush x set s) := by
  unfold execFlush
  simp [*]

@[simp] theorem State.keep_sanitize (s : State) (k : Nat) (crypto : Bool)
    (h_ctxs : .ctxs ∈ W) (h_media : .media ∈ W) (h2 : .port (keyPort k) ∈ W ∨ .ports ∈ W) (h3 : .tset k ∈ W ∨ .sets ∈ W) :
    keep W (s.sanitize k crypto) = keep W s := by
  unfold State.sanitize
  simp [*]

theorem execSanitizeBlockErase_keep (x : Port) (set : SetId) (s : State)
    (h_ctxs : .ctxs ∈ W) (h_media : .media ∈ W) (h_ports : .ports ∈ W) (h_sets : .sets ∈ W) :
    Answers W s (execSanitizeBlockErase x set s) := by
  unfold execSanitizeBlockErase
  simp [*]

theorem execSanitizeCryptoErase_keep (x : Port) (set : SetId) (s : State)
    (h_ctxs : .ctxs ∈ W) (h_media : .media ∈ W) (h_ports : .ports ∈ W) (h_sets : .sets ∈ W) :
    Answers W s (execSanitizeCryptoErase x set s) := by
  unfold execSanitizeCryptoErase
  simp [*]

@[simp] theorem State.keep_unmapAll (s : State)
    (h_media : .media ∈ W) :
    keep W (s.unmapAll) = keep W s := by
  unfold State.unmapAll
  simp [*]

@[simp] theorem State.keep_drawKey (s : State) (n : Nat)
    (h_free : .free ∈ W) (h_security : .security ∈ W) :
    keep W (s.drawKey n) = keep W s := by
  unfold State.drawKey
  simp [*]

@[simp] theorem State.keep_replaceKeys (s : State)
    (h_free : .free ∈ W) (h_security : .security ∈ W) :
    keep W (s.replaceKeys) = keep W s := by
  unfold State.replaceKeys
  simp [*]

@[simp] theorem State.keep_zeroise (s : State)
    (h_security : .security ∈ W) :
    keep W (s.zeroise) = keep W s := by
  unfold State.zeroise
  simp [*]

@[simp] theorem State.keep_endHolders (s : State)
    (h_dict : .dict ∈ W) (h_fabric : .fabric ∈ W) (h_free : .free ∈ W) (h_stagings : .stagings ∈ W) (h_vtimes : .vtimes ∈ W) (h_sets : .sets ∈ W) :
    keep W (s.endHolders) = keep W s := by
  unfold State.endHolders
  simp [*]

@[simp] theorem State.keep_cryptoErase (s : State)
    (h_dict : .dict ∈ W) (h_fabric : .fabric ∈ W) (h_stagings : .stagings ∈ W) (h_vtimes : .vtimes ∈ W) (h_free : .free ∈ W) (h_media : .media ∈ W) (h_security : .security ∈ W) (h_sets : .sets ∈ W) :
    keep W (s.cryptoErase) = keep W s := by
  unfold State.cryptoErase
  simp [*]

@[simp] theorem State.keep_lcResult (s : State) (v : Nat)
    (h_dict : .dict ∈ W) :
    keep W (s.lcResult v) = keep W s := by
  unfold State.lcResult
  simp [*]

@[simp] theorem State.keep_lcAccept (s : State) (target : Nat)
    (h_dict : .dict ∈ W) (h_lifeDue : .lifeDue ∈ W) (h_security : .security ∈ W) :
    keep W (s.lcAccept target) = keep W s := by
  unfold State.lcAccept
  simp [*]

@[simp] theorem State.keep_lcRequest (s : State) (x : Port) (v : Nat)
    (h_dict : .dict ∈ W) (h_lifeDue : .lifeDue ∈ W) (h_security : .security ∈ W) :
    keep W (s.lcRequest x v) = keep W s := by
  unfold State.lcRequest
  split <;> simp [*]

@[simp] theorem State.keep_newNonce (s : State)
    (h_free : .free ∈ W) (h_security : .security ∈ W) :
    keep W (s.newNonce) = keep W s := by
  unfold State.newNonce
  simp [*]

@[simp] theorem State.keep_lcToken (s : State) (token : Bytes)
    (h_dict : .dict ∈ W) (h_errors : .errors ∈ W) (h_free : .free ∈ W) (h_lifeDue : .lifeDue ∈ W) (h_observe : .observe ∈ W) (h_security : .security ∈ W) :
    keep W (s.lcToken token) = keep W s := by
  unfold State.lcToken
  dsimp only
  (repeat' split) <;> simp [*]

theorem execLcArmLapse_keep (s : State)
    (h_security : .security ∈ W) :
    Answers W s (execLcArmLapse s) := by
  unfold execLcArmLapse
  simp [*]

@[simp] theorem State.keep_dropArm (s : State) (x : Port)
    (h_security : .security ∈ W) :
    keep W (s.dropArm x) = keep W s := by
  unfold State.dropArm
  simp [*]

@[simp] theorem State.keep_transition (s : State)
    (h_fabric : .fabric ∈ W) (h_stagings : .stagings ∈ W) (h_vtimes : .vtimes ∈ W) (h_dict : .dict ∈ W) (h_errors : .errors ∈ W) (h_free : .free ∈ W) (h_life : .life ∈ W) (h_media : .media ∈ W) (h_observe : .observe ∈ W) (h_power : .power ∈ W) (h_security : .security ∈ W) (h_sets : .sets ∈ W) :
    keep W (s.transition) = keep W s := by
  unfold State.transition
  (repeat' split) <;> simp [*]

@[simp] theorem State.keep_attest (s : State) (x : Port) (nonce : Bytes)
    (h0 : .port x.val ∈ W ∨ .ports ∈ W) :
    keep W (s.attest x nonce) = keep W s := by
  unfold State.attest
  simp [*]

theorem execAttestReportSigned_keep (x : Port) (s : State)
    (h_dict : .dict ∈ W) (h1 : .port x.val ∈ W ∨ .ports ∈ W) :
    Answers W s (execAttestReportSigned x s) := by
  unfold execAttestReportSigned
  split <;> simp [*]

theorem execDebugPathAccess_keep (path : DebugPath) (s : State)
    (h_security : .security ∈ W) (h_dict : .dict ∈ W) (h_errors : .errors ∈ W) (h_free : .free ∈ W) (h_observe : .observe ∈ W) :
    Answers W s (execDebugPathAccess path s) := by
  unfold execDebugPathAccess
  simp [*]

@[simp] theorem State.keep_startPass (s : State) (list : Bytes)
    (h_dict : .dict ∈ W) (h_free : .free ∈ W) (h_observe : .observe ∈ W) :
    keep W (s.startPass list) = keep W s := by
  unfold State.startPass
  simp [*]

theorem execReaderPassDone_keep (s : State)
    (h_dict : .dict ∈ W) (h_free : .free ∈ W) (h_observe : .observe ∈ W) :
    Answers W s (execReaderPassDone s) := by
  unfold execReaderPassDone
  split <;> simp [*]

@[simp] theorem State.keep_releaseFreeze (s : State) (length : Nat)
    (h_dict : .dict ∈ W) (h_free : .free ∈ W) (h_observe : .observe ∈ W) :
    keep W (s.releaseFreeze length) = keep W s := by
  unfold State.releaseFreeze
  simp [*]

@[simp] theorem State.keep_releaseNow (s : State)
    (h_dict : .dict ∈ W) (h_free : .free ∈ W) (h_observe : .observe ∈ W) :
    keep W (s.releaseNow) = keep W s := by
  unfold State.releaseNow
  simp [*]

@[simp] theorem State.keep_armFreeze (s : State)
    (h_observe : .observe ∈ W) :
    keep W (s.armFreeze) = keep W s := by
  unfold State.armFreeze
  simp [*]

theorem execFreezeLimitExpiry_keep (s : State)
    (h_dict : .dict ∈ W) (h_free : .free ∈ W) (h_observe : .observe ∈ W) :
    Answers W s (execFreezeLimitExpiry s) := by
  unfold execFreezeLimitExpiry
  simp [*]

@[simp] theorem State.keep_coreTraceNow (s : State)
    (h_dict : .dict ∈ W) (h_free : .free ∈ W) (h_observe : .observe ∈ W) :
    keep W (s.coreTraceNow) = keep W s := by
  unfold State.coreTraceNow
  simp [*]

@[simp] theorem State.keep_abandonRun (s : State)
    (h_dict : .dict ∈ W) (h_free : .free ∈ W) (h_observe : .observe ∈ W) :
    keep W (s.abandonRun) = keep W s := by
  unfold State.abandonRun
  split <;> simp [*]

@[simp] theorem State.keep_testHold (s : State) (v : Nat)
    (h_dict : .dict ∈ W) (h_free : .free ∈ W) (h_hold : .hold ∈ W) (h_observe : .observe ∈ W) :
    keep W (s.testHold v) = keep W s := by
  unfold State.testHold
  simp [*]

theorem execTestHoldHeld_keep (s : State)
    (h_hold : .hold ∈ W) (h_media : .media ∈ W) :
    Answers W s (execTestHoldHeld s) := by
  unfold execTestHoldHeld
  simp [*]

@[simp] theorem State.keep_startTest (s : State) (v : Nat)
    (h_dict : .dict ∈ W) (h_observe : .observe ∈ W) :
    keep W (s.startTest v) = keep W s := by
  unfold State.startTest
  simp [*]

theorem execTestRunEnd_keep (errors : BitVec 32) (firstPin : Byte) (die : Byte) (s : State)
    (h_dict : .dict ∈ W) (h_observe : .observe ∈ W) :
    Answers W s (execTestRunEnd errors firstPin die s) := by
  unfold execTestRunEnd
  split <;> simp [*]

end Sys2Proof.Machine
end

