-- ==== Sys2Proof/Laws/FrameLink.lean ====
section
/-! SUPPORT. The frames of the link's commands. -/

namespace Sys2Proof.Machine

variable {W : List Place}

@[simp] theorem State.keep_endTransfers (s : State) (x : Port)
    (h_dict : .dict ∈ W) :
    keep W (s.endTransfers x) = keep W s := by
  unfold State.endTransfers
  simp [*]

@[simp] theorem State.keep_endOwnership (s : State) (x : Port)
    (h_dict : .dict ∈ W) (h1 : .port x.val ∈ W ∨ .ports ∈ W) (h_security : .security ∈ W) :
    keep W (s.endOwnership x) = keep W s := by
  unfold State.endOwnership
  simp [*]

theorem execClaim_keep (r : Req) (inst : BitVec 64) (s : State)
    (h_dict : .dict ∈ W) (h1 : .port r.port.val ∈ W ∨ .ports ∈ W) :
    Answers W s (execClaim r inst s) := by
  unfold execClaim
  simp [*]

theorem execRelease_keep (r : Req) (s : State)
    (h_dict : .dict ∈ W) (h1 : .port r.port.val ∈ W ∨ .ports ∈ W) (h_security : .security ∈ W) :
    Answers W s (execRelease r s) := by
  unfold execRelease
  simp [*]

theorem execOwnerLapse_keep (x : Port) (s : State)
    (h_dict : .dict ∈ W) (h1 : .port x.val ∈ W ∨ .ports ∈ W) (h_security : .security ∈ W) :
    Answers W s (execOwnerLapse x s) := by
  unfold execOwnerLapse
  simp [*]

theorem execStatus_keep (r : Req) (s : State)
    (h_dict : .dict ∈ W) (h1 : .port r.port.val ∈ W ∨ .ports ∈ W) :
    Answers W s (execStatus r s) := by
  unfold execStatus
  simp [*]

theorem execEcho_keep (r : Req) (payload : Bytes) (s : State)
    (h_dict : .dict ∈ W) (h1 : .port r.port.val ∈ W ∨ .ports ∈ W) :
    Answers W s (execEcho r payload s) := by
  unfold execEcho
  simp [*]

theorem execUnknownFrameType_keep (r : Req) (type : Byte) (s : State)
    (h_dict : .dict ∈ W) (h1 : .port r.port.val ∈ W ∨ .ports ∈ W) :
    Answers W s (execUnknownFrameType r type s) := by
  unfold execUnknownFrameType
  simp [*]

theorem execHeaderCrcError_keep (x : BadFrame) (s : State)
    (h_dict : .dict ∈ W) (h1 : .port x.port.val ∈ W ∨ .ports ∈ W) :
    Answers W s (execHeaderCrcError x s) := by
  unfold execHeaderCrcError
  simp [*]

@[simp] theorem State.keep_emit (s : State) (x : Nat) (f : Sent) (cells : List (Nat × Bytes))
    (h0 : .port x ∈ W ∨ .ports ∈ W) :
    keep W (s.emit x f cells) = keep W s := by
  unfold State.emit
  simp [*]

@[simp] theorem State.keep_echoIdle (s : State) (x : Port) (ack : BitVec 12) (nak : Bool) (vc credits : Nat) (f : Sent)
    (h_free : .free ∈ W) (h0 : .port x.val ∈ W ∨ .ports ∈ W) :
    keep W (s.echoIdle x ack nak vc credits f) = keep W s := by
  unfold State.echoIdle
  simp [*]

@[simp] theorem State.keep_feed (s : State) (x : Port)
    (h0 : .port x.val ∈ W ∨ .ports ∈ W) :
    keep W (s.feed x) = keep W s := by
  unfold State.feed
  simp [*]

@[simp] theorem State.keep_resend (s : State) (x : Nat)
    (h0 : .port x ∈ W ∨ .ports ∈ W) :
    keep W (s.resend x) = keep W s := by
  unfold State.resend
  simp [*]

@[simp] theorem State.keep_stalls (s : State) (x : Nat)
    (h_dict : .dict ∈ W) (h_free : .free ∈ W) :
    keep W (s.stalls x) = keep W s := by
  unfold State.stalls
  simp [*]

theorem execCodewordFail_keep (x : Port) (s : State)
    (h_dict : .dict ∈ W) (h1 : .port x.val ∈ W ∨ .ports ∈ W) :
    Answers W s (execCodewordFail x s) := by
  unfold execCodewordFail
  simp [*]

theorem execNakReceived_keep (x : Port) (ackSeq : BitVec 12) (s : State)
    (h_free : .free ∈ W) (h_dict : .dict ∈ W) (h1 : .port x.val ∈ W ∨ .ports ∈ W) :
    Answers W s (execNakReceived x ackSeq s) := by
  unfold execNakReceived
  dsimp only
  (repeat' split) <;> simp [*]

theorem execAckTimer_keep (x : Port) (s : State)
    (h_dict : .dict ∈ W) (h_free : .free ∈ W) (h0 : .port x.val ∈ W ∨ .ports ∈ W) :
    Answers W s (execAckTimer x s) := by
  unfold execAckTimer
  simp [*]

theorem execCreditReturn_keep (x : Port) (vc : Chan) (cells : BitVec 12) (ackSeq : BitVec 12) (s : State)
    (h_dict : .dict ∈ W) (h_free : .free ∈ W) (h0 : .port x.val ∈ W ∨ .ports ∈ W) :
    Answers W s (execCreditReturn x vc cells ackSeq s) := by
  unfold execCreditReturn
  dsimp only
  (repeat' split) <;> simp [*]

theorem execFrameForward_keep (x : Port) (f : Transit) (s : State)
    (h_dict : .dict ∈ W) (h_ports : .ports ∈ W) :
    Answers W s (execFrameForward x f s) := by
  unfold execFrameForward
  simp [*]

theorem execFrameLoopback_keep (x : Port) (f : Transit) (s : State)
    (h0 : .port x.val ∈ W ∨ .ports ∈ W) :
    Answers W s (execFrameLoopback x f s) := by
  unfold execFrameLoopback
  simp [*]

@[simp] theorem State.keep_leaveUp (s : State) (x : Port)
    (h_dict : .dict ∈ W) (h_ports : .ports ∈ W) :
    keep W (s.leaveUp x) = keep W s := by
  unfold State.leaveUp
  simp [*]

@[simp] theorem State.keep_linkDown (s : State) (x : Port)
    (h_dict : .dict ∈ W) (h_errors : .errors ∈ W) (h_free : .free ∈ W) (h_observe : .observe ∈ W) (h4 : .port x.val ∈ W ∨ .ports ∈ W) :
    keep W (s.linkDown x) = keep W s := by
  unfold State.linkDown
  simp [*]

@[simp] theorem State.keep_retrain (s : State) (x : Port)
    (h_errors : .errors ∈ W) (h_observe : .observe ∈ W) (h_dict : .dict ∈ W) (h_free : .free ∈ W) (h_ports : .ports ∈ W) :
    keep W (s.retrain x) = keep W s := by
  unfold State.retrain
  simp [*]

theorem execSignal_keep (x : Port) (s : State)
    (h0 : .port x.val ∈ W ∨ .ports ∈ W) :
    Answers W s (execSignal x s) := by
  unfold execSignal
  simp [*]

theorem execPortAlign_keep (x : Port) (s : State)
    (h0 : .port x.val ∈ W ∨ .ports ∈ W) :
    Answers W s (execPortAlign x s) := by
  unfold execPortAlign
  simp [*]

theorem execHelloTimer_keep (x : Port) (s : State)
    (h0 : .port x.val ∈ W ∨ .ports ∈ W) :
    Answers W s (execHelloTimer x s) := by
  unfold execHelloTimer
  simp [*]

theorem execHelloReceive_keep (x : Port) (h : Hello) (s : State)
    (h0 : .port x.val ∈ W ∨ .ports ∈ W) :
    Answers W s (execHelloReceive x h s) := by
  unfold execHelloReceive
  simp [*]

theorem execTrainTimeout_keep (x : Port) (s : State)
    (h0 : .port x.val ∈ W ∨ .ports ∈ W) :
    Answers W s (execTrainTimeout x s) := by
  unfold execTrainTimeout
  simp [*]

theorem execAlignmentLost_keep (x : Port) (s : State)
    (h_errors : .errors ∈ W) (h_observe : .observe ∈ W) (h_dict : .dict ∈ W) (h_free : .free ∈ W) (h_ports : .ports ∈ W) :
    Answers W s (execAlignmentLost x s) := by
  unfold execAlignmentLost
  simp [*]

theorem execRetrainTimeout_keep (x : Port) (s : State)
    (h_dict : .dict ∈ W) (h_errors : .errors ∈ W) (h_free : .free ∈ W) (h_observe : .observe ∈ W) (h4 : .port x.val ∈ W ∨ .ports ∈ W) :
    Answers W s (execRetrainTimeout x s) := by
  unfold execRetrainTimeout
  simp [*]

@[simp] theorem State.keep_portControl (s : State) (x : Port) (v : Nat)
    (h_errors : .errors ∈ W) (h_observe : .observe ∈ W) (h_dict : .dict ∈ W) (h_free : .free ∈ W) (h_ports : .ports ∈ W) :
    keep W (s.portControl x v) = keep W s := by
  unfold State.portControl
  simp [*]

@[simp] theorem State.keep_startLoop (s : State) (x : Port) (ms : Nat)
    (h0 : .port x.val ∈ W ∨ .ports ∈ W) :
    keep W (s.startLoop x ms) = keep W s := by
  unfold State.startLoop
  simp [*]

theorem execLoopRunEnd_keep (x : Port) (good failed : Nat) (s : State)
    (h_dict : .dict ∈ W) (h1 : .port x.val ∈ W ∨ .ports ∈ W) :
    Answers W s (execLoopRunEnd x good failed s) := by
  unfold execLoopRunEnd
  dsimp only
  split <;> simp [*]

end Sys2Proof.Machine
end

