-- ==== Sys2Proof/Laws/FrameLoads.lean ====
section
/-! SUPPORT. The frames of contexts, staging and module resets. -/

namespace Sys2Proof.Machine

variable {W : List Place}

@[simp] theorem State.keep_loadReport (s : State) (p n kind result step : Nat)
    (h0 : .ctx (p * 16 + n) ∈ W ∨ .ctxs ∈ W) (h_dict : .dict ∈ W) :
    keep W (s.loadReport p n kind result step) = keep W s := by
  unfold State.loadReport
  simp [*]

@[simp] theorem State.keep_armBanks (s : State) (p n : Nat) (sel : List Kind)
    (h_arms : .arms ∈ W) (h1 : .ctx (p * 16 + n) ∈ W ∨ .ctxs ∈ W) (h_dict : .dict ∈ W) :
    keep W (s.armBanks p n sel) = keep W s := by
  unfold State.armBanks
  simp [*]

@[simp] theorem State.keep_endLoad (s : State) (p n : Nat) (k : Kind) (status count step : Nat)
    (h_ctxs : .ctxs ∈ W) (h_ports : .ports ∈ W) (h_sets : .sets ∈ W) (h_stagings : .stagings ∈ W) :
    keep W (s.endLoad p n k status count step) = keep W s := by
  unfold State.endLoad
  split <;> simp [*]

@[simp] theorem State.keep_discardBank (s : State) (p n : Nat) (k : Kind)
    (h_ctxs : .ctxs ∈ W) (h_dict : .dict ∈ W) (h_ports : .ports ∈ W) (h_sets : .sets ∈ W) (h_stagings : .stagings ∈ W) :
    keep W (s.discardBank p n k) = keep W s := by
  unfold State.discardBank
  dsimp only
  (repeat' split) <;> simp [*]

@[simp] theorem State.keep_bankControl (s : State) (p n v : Nat)
    (h_arms : .arms ∈ W) (h_ctxs : .ctxs ∈ W) (h_dict : .dict ∈ W) (h_ports : .ports ∈ W) (h_sets : .sets ∈ W) (h_stagings : .stagings ∈ W) :
    keep W (s.bankControl p n v) = keep W s := by
  unfold State.bankControl
  dsimp only
  split
  · simp [*]
  · split
    · simp [*]
    · split
      · exact keep_each _ _ _ fun t k => by simp [*]
      · rfl

@[simp] theorem State.keep_swapContext (s : State) (p n : Nat)
    (h_arms : .arms ∈ W) (h1 : .ctx (p * 16 + n) ∈ W ∨ .ctxs ∈ W) (h_dict : .dict ∈ W) :
    keep W (s.swapContext p n) = keep W s := by
  unfold State.swapContext
  simp [*]

@[simp] theorem State.keep_swapAll (s : State)
    (h_arms : .arms ∈ W) (h_ctxs : .ctxs ∈ W) (h_dict : .dict ∈ W) :
    keep W (s.swapAll) = keep W s := by
  unfold State.swapAll
  simp [*]

@[simp] theorem State.keep_loadImage (s : State) (k : Nat) (kind : Kind)
    (h_guard : .guard ∈ W) (h_ctxs : .ctxs ∈ W) (h_dict : .dict ∈ W) (h_errors : .errors ∈ W) (h_free : .free ∈ W) (h_observe : .observe ∈ W) (h5 : .port (keyPort k) ∈ W ∨ .ports ∈ W) (h6 : .tset k ∈ W ∨ .sets ∈ W) (h_stagings : .stagings ∈ W) :
    keep W (s.loadImage k kind) = keep W s := by
  unfold State.loadImage
  dsimp only
  (repeat' split) <;> simp [*]

theorem execStageModelTable_keep (x : Port) (set : SetId) (s : State)
    (h_guard : .guard ∈ W) (h_ctxs : .ctxs ∈ W) (h_dict : .dict ∈ W) (h_errors : .errors ∈ W) (h_free : .free ∈ W) (h_observe : .observe ∈ W) (h_ports : .ports ∈ W) (h_sets : .sets ∈ W) (h_stagings : .stagings ∈ W) :
    Answers W s (execStageModelTable x set s) := by
  unfold execStageModelTable
  simp [*]

theorem execStageModelScales_keep (x : Port) (set : SetId) (s : State)
    (h_guard : .guard ∈ W) (h_ctxs : .ctxs ∈ W) (h_dict : .dict ∈ W) (h_errors : .errors ∈ W) (h_free : .free ∈ W) (h_observe : .observe ∈ W) (h_ports : .ports ∈ W) (h_sets : .sets ∈ W) (h_stagings : .stagings ∈ W) :
    Answers W s (execStageModelScales x set s) := by
  unfold execStageModelScales
  simp [*]

theorem execStageModelSfTables_keep (x : Port) (set : SetId) (s : State)
    (h_guard : .guard ∈ W) (h_ctxs : .ctxs ∈ W) (h_dict : .dict ∈ W) (h_errors : .errors ∈ W) (h_free : .free ∈ W) (h_observe : .observe ∈ W) (h_ports : .ports ∈ W) (h_sets : .sets ∈ W) (h_stagings : .stagings ∈ W) :
    Answers W s (execStageModelSfTables x set s) := by
  unfold execStageModelSfTables
  simp [*]

theorem execStageModelDistance_keep (x : Port) (set : SetId) (s : State)
    (h_guard : .guard ∈ W) (h_ctxs : .ctxs ∈ W) (h_dict : .dict ∈ W) (h_errors : .errors ∈ W) (h_free : .free ∈ W) (h_observe : .observe ∈ W) (h_ports : .ports ∈ W) (h_sets : .sets ∈ W) (h_stagings : .stagings ∈ W) :
    Answers W s (execStageModelDistance x set s) := by
  unfold execStageModelDistance
  simp [*]

@[simp] theorem State.keep_scalesWritten (s : State) (p n n' : Nat)
    (h_dies : .dies ∈ W) (h_fabric : .fabric ∈ W) :
    keep W (s.scalesWritten p n n') = keep W s := by
  unfold State.scalesWritten
  simp [*]

@[simp] theorem State.keep_loadDone (s : State) (k : Nat) (g : Staging)
    (h_ctxs : .ctxs ∈ W) (h_dict : .dict ∈ W) (h_dies : .dies ∈ W) (h_errors : .errors ∈ W) (h_fabric : .fabric ∈ W) (h_free : .free ∈ W) (h_observe : .observe ∈ W) (h6 : .port (keyPort k) ∈ W ∨ .ports ∈ W) (h7 : .tset k ∈ W ∨ .sets ∈ W) (h_stagings : .stagings ∈ W) (h_tiers : .tiers ∈ W) :
    keep W (s.loadDone k g) = keep W s := by
  unfold State.loadDone
  dsimp only
  split
  · simp [*]
  · split
    · split
      · rename_i u h
        have hu := State.keep_writeTier _ u _ _ _ h_fabric h_tiers h
        simp [*]
      · simp [*]
    · split <;> simp [*]

theorem execLoadCheck_keep (x : Port) (set : SetId) (t : Nat) (s : State)
    (h_media : .media ∈ W) (h_vtimes : .vtimes ∈ W) (h_ctxs : .ctxs ∈ W) (h_dict : .dict ∈ W) (h_dies : .dies ∈ W) (h_errors : .errors ∈ W) (h_fabric : .fabric ∈ W) (h_free : .free ∈ W) (h_observe : .observe ∈ W) (h_ports : .ports ∈ W) (h_seqs : .seqs ∈ W) (h_sets : .sets ∈ W) (h_stagings : .stagings ∈ W) (h_tiers : .tiers ∈ W) :
    Answers W s (execLoadCheck x set t s) := by
  unfold execLoadCheck
  dsimp only
  (repeat' split) <;> simp [*]

@[simp] theorem State.keep_putLedger (s : State) (l : List Nat)
    (h_dict : .dict ∈ W) :
    keep W (s.putLedger l) = keep W s := by
  unfold State.putLedger
  simp [*]

@[simp] theorem State.keep_slotsOfSource (s : State) (t : TaskSet) (n : Nat)
    (h_guard : .guard ∈ W) (h_dict : .dict ∈ W) (h_free : .free ∈ W) (h_media : .media ∈ W) :
    keep W (s.slotsOfSource t n).1 = keep W s := by
  unfold State.slotsOfSource
  split <;> simp [*]

@[simp] theorem State.keep_writeSource (s : State) (lo n : Nat) (m : Mem)
    (h_fabric : .fabric ∈ W) (h_tiers : .tiers ∈ W) :
    keep W (s.writeSource lo n m) = keep W s := by
  unfold State.writeSource
  split
  · rename_i u h
    exact State.keep_writeTier _ u _ _ _ h_fabric h_tiers h
  · rfl

theorem execStageModelFar_keep (x : Port) (set : SetId) (s : State)
    (h_guard : .guard ∈ W) (h_vtimes : .vtimes ∈ W) (h_ctxs : .ctxs ∈ W) (h_dict : .dict ∈ W) (h_fabric : .fabric ∈ W) (h_free : .free ∈ W) (h_media : .media ∈ W) (h_ports : .ports ∈ W) (h_sets : .sets ∈ W) (h_stagings : .stagings ∈ W) (h_tiers : .tiers ∈ W) :
    Answers W s (execStageModelFar x set s) := by
  unfold execStageModelFar
  dsimp only
  (repeat' split) <;> simp [*]

theorem execStagingComplete_keep (x : Port) (set : SetId) (s : State)
    (h_vtimes : .vtimes ∈ W) (h_ctxs : .ctxs ∈ W) (h_dict : .dict ∈ W) (h_errors : .errors ∈ W) (h_free : .free ∈ W) (h_observe : .observe ∈ W) (h_ports : .ports ∈ W) (h_sets : .sets ∈ W) (h_stagings : .stagings ∈ W) :
    Answers W s (execStagingComplete x set s) := by
  unfold execStagingComplete
  dsimp only
  (repeat' split) <;> simp [*]

theorem execContextCreate_keep (x : Port) (set : SetId) (s : State)
    (h0 : .tset (setKey x set) ∈ W ∨ .sets ∈ W) :
    Answers W s (execContextCreate x set s) := by
  unfold execContextCreate
  simp [*]

theorem execContextRelease_keep (x : Port) (set : SetId) (s : State)
    (h0 : .tset (setKey x set) ∈ W ∨ .sets ∈ W) :
    Answers W s (execContextRelease x set s) := by
  unfold execContextRelease
  simp [*]

theorem execContextTeardown_keep (x : Port) (set : SetId) (s : State)
    (h0 : .tset (setKey x set) ∈ W ∨ .sets ∈ W) :
    Answers W s (execContextTeardown x set s) := by
  unfold execContextTeardown
  simp [*]

@[simp] theorem State.keep_emptyContext (s : State) (p n : Nat)
    (h_errors : .errors ∈ W) (h_observe : .observe ∈ W) (h_vtimes : .vtimes ∈ W) (h_ctxs : .ctxs ∈ W) (h_dict : .dict ∈ W) (h_dies : .dies ∈ W) (h_fabric : .fabric ∈ W) (h_free : .free ∈ W) (h_seqs : .seqs ∈ W) (h_sets : .sets ∈ W) (h_stagings : .stagings ∈ W) (h_tiers : .tiers ∈ W) :
    keep W (s.emptyContext p n) = keep W s := by
  unfold State.emptyContext
  split <;> simp [*]

@[simp] theorem State.keep_teardown (s : State) (p n : Nat)
    (h_errors : .errors ∈ W) (h_observe : .observe ∈ W) (h_vtimes : .vtimes ∈ W) (h_ctxs : .ctxs ∈ W) (h_dict : .dict ∈ W) (h_dies : .dies ∈ W) (h_fabric : .fabric ∈ W) (h_free : .free ∈ W) (h_ports : .ports ∈ W) (h_seqs : .seqs ∈ W) (h_sets : .sets ∈ W) (h_stagings : .stagings ∈ W) (h_tiers : .tiers ∈ W) :
    keep W (s.teardown p n) = keep W s := by
  unfold State.teardown
  simp [*]

@[simp] theorem State.keep_contextCommand (s : State) (k : Nat)
    (h_errors : .errors ∈ W) (h_observe : .observe ∈ W) (h_vtimes : .vtimes ∈ W) (h_ctxs : .ctxs ∈ W) (h_dict : .dict ∈ W) (h_dies : .dies ∈ W) (h_fabric : .fabric ∈ W) (h_free : .free ∈ W) (h_ports : .ports ∈ W) (h_seqs : .seqs ∈ W) (h_sets : .sets ∈ W) (h_stagings : .stagings ∈ W) (h_tiers : .tiers ∈ W) :
    keep W (s.contextCommand k) = keep W s := by
  unfold State.contextCommand
  simp [*]

@[simp] theorem State.keep_putRec (s : State) (r : Rec)
    (h_errors : .errors ∈ W) :
    keep W (s.putRec r) = keep W s := by
  unfold State.putRec
  simp [*]

@[simp] theorem State.keep_eraseSector (s : State) (sector : Nat)
    (h_dict : .dict ∈ W) (h_security : .security ∈ W) :
    keep W (s.eraseSector sector) = keep W s := by
  unfold State.eraseSector
  simp [*]

@[simp] theorem State.keep_dataWrite (s : State)
    (h_dict : .dict ∈ W) (h_free : .free ∈ W) (h_security : .security ∈ W) :
    keep W (s.dataWrite) = keep W s := by
  unfold State.dataWrite
  simp [*]

@[simp] theorem State.keep_persist (s : State) (seq : BitVec 32)
    (h_dict : .dict ∈ W) (h_errors : .errors ∈ W) (h_free : .free ∈ W) (h_security : .security ∈ W) :
    keep W (s.persist seq) = keep W s := by
  unfold State.persist
  dsimp only
  (repeat' split) <;> simp [*]

@[simp] theorem State.keep_persistDevice (s : State)
    (h_dict : .dict ∈ W) (h_errors : .errors ∈ W) (h_free : .free ∈ W) (h_security : .security ∈ W) :
    keep W (s.persistDevice) = keep W s := by
  unfold State.persistDevice
  simp [*]

@[simp] theorem State.keep_persistAll (s : State)
    (h_dict : .dict ∈ W) (h_errors : .errors ∈ W) (h_free : .free ∈ W) (h_security : .security ∈ W) :
    keep W (s.persistAll) = keep W s := by
  unfold State.persistAll
  simp [*]

@[simp] theorem State.keep_stopCompute (s : State)
    (h_errors : .errors ∈ W) (h_dict : .dict ∈ W) (h_observe : .observe ∈ W) (h_ctxs : .ctxs ∈ W) (h_dies : .dies ∈ W) (h_fabric : .fabric ∈ W) (h_free : .free ∈ W) (h_parts : .parts ∈ W) (h_seqs : .seqs ∈ W) (h_sets : .sets ∈ W) (h_tiers : .tiers ∈ W) :
    keep W (s.stopCompute) = keep W s := by
  unfold State.stopCompute
  simp [*]

@[simp] theorem State.keep_portOff (s : State) (x : Port)
    (h_dict : .dict ∈ W) (h_errors : .errors ∈ W) (h_free : .free ∈ W) (h_observe : .observe ∈ W) (h_ports : .ports ∈ W) :
    keep W (s.portOff x) = keep W s := by
  unfold State.portOff
  simp [*]

@[simp] theorem State.keep_portsOff (s : State)
    (h_dict : .dict ∈ W) (h_errors : .errors ∈ W) (h_free : .free ∈ W) (h_observe : .observe ∈ W) (h_ports : .ports ∈ W) :
    keep W (s.portsOff) = keep W s := by
  unfold State.portsOff
  simp [*]

@[simp] theorem State.keep_fallBack (s : State)
    (h_dict : .dict ∈ W) (h_free : .free ∈ W) (h_observe : .observe ∈ W) (h_security : .security ∈ W) (h_dies : .dies ∈ W) (h_errors : .errors ∈ W) (h_fabric : .fabric ∈ W) (h_power : .power ∈ W) (h_stage : .stage ∈ W) (h_tiers : .tiers ∈ W) :
    keep W (s.fallBack) = keep W s := by
  unfold State.fallBack
  simp [*]

@[simp] theorem State.keep_boardSlow (s : State)
    (h_dict : .dict ∈ W) :
    keep W (s.boardSlow) = keep W s := by
  unfold State.boardSlow
  simp [*]

@[simp] theorem State.keep_losePower (s : State)
    (h_dict : .dict ∈ W) (h_dies : .dies ∈ W) (h_errors : .errors ∈ W) (h_fabric : .fabric ∈ W) (h_free : .free ∈ W) (h_observe : .observe ∈ W) (h_ports : .ports ∈ W) :
    keep W (s.losePower) = keep W s := by
  unfold State.losePower
  simp [*]

@[simp] theorem State.keep_warn (s : State)
    (h_security : .security ∈ W) (h_ctxs : .ctxs ∈ W) (h_dict : .dict ∈ W) (h_dies : .dies ∈ W) (h_errors : .errors ∈ W) (h_fabric : .fabric ∈ W) (h_free : .free ∈ W) (h_observe : .observe ∈ W) (h_parts : .parts ∈ W) (h_ports : .ports ∈ W) (h_power : .power ∈ W) (h_seqs : .seqs ∈ W) (h_sets : .sets ∈ W) (h_stage : .stage ∈ W) (h_tiers : .tiers ∈ W) :
    keep W (s.warn) = keep W s := by
  unfold State.warn
  simp [*]

@[simp] theorem State.keep_flushBuffer (s : State)
    (h_errors : .errors ∈ W) (h_free : .free ∈ W) (h_observe : .observe ∈ W) (h_dict : .dict ∈ W) (h_media : .media ∈ W) :
    keep W (s.flushBuffer) = keep W s := by
  unfold State.flushBuffer
  simp [*]

@[simp] theorem State.keep_flushed (s : State)
    (h_errors : .errors ∈ W) (h_free : .free ∈ W) (h_observe : .observe ∈ W) (h_dict : .dict ∈ W) (h_media : .media ∈ W) (h_power : .power ∈ W) :
    keep W (s.flushed) = keep W s := by
  unfold State.flushed
  simp [*]

@[simp] theorem State.keep_runSlot (s : State) (n : Nat)
    (h_dict : .dict ∈ W) :
    keep W (s.runSlot n) = keep W s := by
  unfold State.runSlot
  simp [*]

@[simp] theorem State.keep_boot (s : State)
    (h_dict : .dict ∈ W) (h_errors : .errors ∈ W) (h_free : .free ∈ W) (h_observe : .observe ∈ W) (h_power : .power ∈ W) (h_security : .security ∈ W) (h_stage : .stage ∈ W) :
    keep W (s.boot) = keep W s := by
  unfold State.boot
  simp [*]

@[simp] theorem State.keep_tuckChange (s : State) (c : Change)
    (h_media : .media ∈ W) :
    keep W (s.tuckChange c) = keep W s := by
  unfold State.tuckChange
  split <;> simp [*]

@[simp] theorem State.keep_tuckMove (s : State) (m : Move)
    (h_media : .media ∈ W) :
    keep W (s.tuckMove m) = keep W s := by
  unfold State.tuckMove
  (repeat' split) <;> simp [*]

@[simp] theorem State.keep_loseUnposted (s : State)
    (h_media : .media ∈ W) :
    keep W (s.loseUnposted) = keep W s := by
  unfold State.loseUnposted
  simp [*]

@[simp] theorem State.keep_settlePending (s : State)
    (h_dict : .dict ∈ W) (h_free : .free ∈ W) (h_media : .media ∈ W) :
    keep W (s.settlePending) = keep W s := by
  unfold State.settlePending
  simp [*]

@[simp] theorem State.keep_moduleReset (s : State) (source : Nat)
    (h_all : Place.All W) :
    keep W (s.moduleReset source) = keep W s := by
  have hw : keep W (if s.power.railsUp then s.warn.persistAll else s.persistDevice) = keep W s := by split <;> simp [*]
  have hp : (keep W (if (if s.power.railsUp then s.warn.persistAll else s.persistDevice).power.railsUp then
      (if s.power.railsUp then s.warn.persistAll else s.persistDevice).flushBuffer
      else (if s.power.railsUp then s.warn.persistAll else s.persistDevice)).settlePending).pending = (keep W s).pending := by
    refine congrArg Kept.pending ?_
    split <;> simp [*]
  simp only [keep] at hp
  unfold State.moduleReset
  dsimp only
  rw [State.keep_boot] <;> simp [keep, *]

@[simp] theorem State.keep_resetIfDue (s : State) (t : Nat)
    (h_all : Place.All W) :
    keep W (s.resetIfDue t) = keep W s := by
  unfold State.resetIfDue
  split
  · rw [keep_ite, State.keep_moduleReset _ _ h_all, ite_self]
  · rfl

end Sys2Proof.Machine
end

