-- ==== Sys2Proof/Laws/FrameDict.lean ====
section
/-! SUPPORT. The frames of the dictionary's commands and of the controls. -/

namespace Sys2Proof.Machine

variable {W : List Place}

theorem keep_some_ite {s t a : State} {c : Prop} [Decidable c] {o : Option State} (ha : keep W a = keep W s)
    (ho : o = some t → keep W t = keep W s) (h : (if c then some a else o) = some t) : keep W t = keep W s := by
  by_cases hc : c
  · rw [if_pos hc] at h
    exact Option.some.inj h ▸ ha
  · rw [if_neg hc] at h
    exact ho h

theorem State.keep_actNow (s t : State) (who : Option Port) (idx sub v : Nat) (data : Bytes) (at' : Nat)
    (h_arms : .arms ∈ W) (h_ctxs : .ctxs ∈ W) (h_dict : .dict ∈ W) (h_errors : .errors ∈ W) (h_free : .free ∈ W) (h_lifeDue : .lifeDue ∈ W) (h_observe : .observe ∈ W) (h_ports : .ports ∈ W) (h_power : .power ∈ W) (h_security : .security ∈ W) (h_sets : .sets ∈ W) (h_stagings : .stagings ∈ W) :
    s.actNow who idx sub v data at' = some t → keep W t = keep W s := by
  unfold State.actNow
  iterate 4 refine keep_some_ite (by simp [*]) ?_
  refine keep_some_ite (State.keep_startLoop _ _ _ (.inr h_ports)) ?_
  iterate 2 refine keep_some_ite (by simp [*]) ?_
  split
  · exact nofun
  · iterate 2 refine keep_some_ite (by simp [*]) ?_
    refine keep_some_ite (State.keep_attest _ _ _ (.inr h_ports)) ?_
    exact nofun

@[simp] theorem State.keep_accept (s : State) (who : Option Port) (idx sub : Nat) (data : Bytes) (at' : Nat)
    (h_arms : .arms ∈ W) (h_ctxs : .ctxs ∈ W) (h_dict : .dict ∈ W) (h_errors : .errors ∈ W) (h_free : .free ∈ W) (h_lifeDue : .lifeDue ∈ W) (h_media : .media ∈ W) (h_observe : .observe ∈ W) (h_ports : .ports ∈ W) (h_power : .power ∈ W) (h_security : .security ∈ W) (h_sets : .sets ∈ W) (h_stagings : .stagings ∈ W) :
    keep W (s.accept who idx sub data at') = keep W s := by
  unfold State.accept
  split
  · rfl
  · dsimp only
    split
    · split
      · rename_i u h
        exact State.keep_actNow _ u _ _ _ _ _ _ h_arms h_ctxs h_dict h_errors h_free h_lifeDue h_observe h_ports h_power h_security h_sets h_stagings h
      · simp [*]
    · (repeat' split) <;> simp [*]

@[simp] theorem State.keep_dictReply (s : State) (r : Req) (type status idx sub total token : Nat) (last : Bool) (payload : Bytes)
    (h0 : .port r.port.val ∈ W ∨ .ports ∈ W) :
    keep W (s.dictReply r type status idx sub total token last payload) = keep W s := by
  unfold State.dictReply
  simp [*]

@[simp] theorem State.keep_noteRead (s : State) (idx sub : Nat)
    (h_errors : .errors ∈ W) (h_free : .free ∈ W) :
    keep W (s.noteRead idx sub) = keep W s := by
  unfold State.noteRead
  (repeat' split) <;> simp [*]

@[simp] theorem State.keep_serveCopy (s : State) (r : Req) (idx sub : Nat) (o : OpenRead)
    (h_dict : .dict ∈ W) (h1 : .port r.port.val ∈ W ∨ .ports ∈ W) :
    keep W (s.serveCopy r idx sub o) = keep W s := by
  unfold State.serveCopy
  simp [*]

@[simp] theorem State.keep_openRead (s : State) (r : Req) (idx sub : Nat) (v : Bytes)
    (h_dict : .dict ∈ W) (h1 : .port r.port.val ∈ W ∨ .ports ∈ W) :
    keep W (s.openRead r idx sub v) = keep W s := by
  unfold State.openRead
  simp [*]

@[simp] theorem State.keep_beforeRead (s : State) (idx sub : Nat)
    (h_free : .free ∈ W) (h_observe : .observe ∈ W) :
    keep W (s.beforeRead idx sub) = keep W s := by
  unfold State.beforeRead
  split <;> simp [*]

theorem execDictRead_keep (r : Req) (idx : BitVec 16) (sub : Byte) (describe : Bool) (token : BitVec 16) (s : State)
    (h_observe : .observe ∈ W) (h_dict : .dict ∈ W) (h_errors : .errors ∈ W) (h_free : .free ∈ W) (h3 : .port r.port.val ∈ W ∨ .ports ∈ W) :
    Answers W s (execDictRead r idx sub describe token s) := by
  unfold execDictRead
  refine (answers_next _ _).2 (State.keep_serve _ _ _ _ _ _ _ (by simp [*]) (by simp [*]) fun t => ?_)
  (repeat' split) <;> simp [*]

@[simp] theorem State.keep_wholeWrite (s : State) (r : Req) (idx sub total token : Nat) (v : Bytes) (at' : Nat)
    (h_arms : .arms ∈ W) (h_ctxs : .ctxs ∈ W) (h_dict : .dict ∈ W) (h_errors : .errors ∈ W) (h_free : .free ∈ W) (h_lifeDue : .lifeDue ∈ W) (h_media : .media ∈ W) (h_observe : .observe ∈ W) (h_ports : .ports ∈ W) (h_power : .power ∈ W) (h_security : .security ∈ W) (h_sets : .sets ∈ W) (h_stagings : .stagings ∈ W) :
    keep W (s.wholeWrite r idx sub total token v at') = keep W s := by
  unfold State.wholeWrite
  simp [*]

@[simp] theorem State.keep_closeWrite (s : State) (x : Port)
    (h_dict : .dict ∈ W) :
    keep W (s.closeWrite x) = keep W s := by
  unfold State.closeWrite
  simp [*]

@[simp] theorem State.keep_firstSegment (s : State) (r : Req) (idx sub total : Nat) (v : Bytes) (at' : Nat)
    (h_arms : .arms ∈ W) (h_ctxs : .ctxs ∈ W) (h_dict : .dict ∈ W) (h_errors : .errors ∈ W) (h_free : .free ∈ W) (h_lifeDue : .lifeDue ∈ W) (h_media : .media ∈ W) (h_observe : .observe ∈ W) (h_ports : .ports ∈ W) (h_power : .power ∈ W) (h_security : .security ∈ W) (h_sets : .sets ∈ W) (h_stagings : .stagings ∈ W) :
    keep W (s.firstSegment r idx sub total v at') = keep W s := by
  unfold State.firstSegment
  dsimp only
  split
  · simp [*]
  · split
    · simp [*]
    · (repeat' split) <;> simp [*]

@[simp] theorem State.keep_laterSegment (s : State) (r : Req) (idx sub total : Nat) (token : BitVec 16) (v : Bytes) (at' : Nat)
    (h_arms : .arms ∈ W) (h_ctxs : .ctxs ∈ W) (h_dict : .dict ∈ W) (h_errors : .errors ∈ W) (h_free : .free ∈ W) (h_lifeDue : .lifeDue ∈ W) (h_media : .media ∈ W) (h_observe : .observe ∈ W) (h_ports : .ports ∈ W) (h_power : .power ∈ W) (h_security : .security ∈ W) (h_sets : .sets ∈ W) (h_stagings : .stagings ∈ W) :
    keep W (s.laterSegment r idx sub total token v at') = keep W s := by
  unfold State.laterSegment
  dsimp only
  split
  · simp [*]
  · (repeat' split) <;> simp [*]

@[simp] theorem State.keep_resetEarly (s : State)
    (h_all : Place.All W) :
    keep W (s.resetEarly) = keep W s := by
  unfold State.resetEarly
  simp [*]

@[simp] theorem State.keep_dictWrite (s : State) (r : Req) (idx sub total : Nat) (token : BitVec 16) (v : Bytes) (at' : Nat)
    (h_all : Place.All W) :
    keep W (s.dictWrite r idx sub total token v at') = keep W s := by
  unfold State.dictWrite
  rw [State.keep_resetEarly _ h_all]
  exact State.keep_serve _ _ _ _ _ _ _ (by simp [*]) (by simp [*]) fun t => by (repeat' split) <;> simp [*]

theorem execDictWrite_keep (r : Req) (idx : BitVec 16) (sub : Byte) (total : BitVec 32) (token : BitVec 16) (payload : Bytes) (s : State)
    (h_all : Place.All W) :
    Answers W s (execDictWrite r idx sub total token payload s) := by
  unfold execDictWrite
  simp [*]

@[simp] theorem State.keep_controlWrite (s : State) (r : Req) (idx sub : Nat) (v : Bytes) (at' : Nat)
    (h_all : Place.All W) :
    keep W (s.controlWrite r idx sub v at') = keep W s := by
  unfold State.controlWrite
  rw [State.keep_resetEarly _ h_all]
  exact State.keep_serve _ _ _ _ _ _ _ (by simp [*]) (by simp [*]) fun t => by (repeat' split) <;> simp [*]

@[simp] theorem State.keep_jobDone (s : State) (j : PersistJob)
    (h_arms : .arms ∈ W) (h_ctxs : .ctxs ∈ W) (h_dict : .dict ∈ W) (h_errors : .errors ∈ W) (h_free : .free ∈ W) (h_lifeDue : .lifeDue ∈ W) (h_media : .media ∈ W) (h_observe : .observe ∈ W) (h_ports : .ports ∈ W) (h_power : .power ∈ W) (h_security : .security ∈ W) (h_sets : .sets ∈ W) (h_stagings : .stagings ∈ W) :
    keep W (s.jobDone j) = keep W s := by
  unfold State.jobDone
  (repeat' split) <;> simp [*]

theorem execPersistWriteDone_keep (idx : BitVec 16) (sub : Byte) (s : State)
    (h_arms : .arms ∈ W) (h_ctxs : .ctxs ∈ W) (h_dict : .dict ∈ W) (h_errors : .errors ∈ W) (h_free : .free ∈ W) (h_lifeDue : .lifeDue ∈ W) (h_media : .media ∈ W) (h_observe : .observe ∈ W) (h_ports : .ports ∈ W) (h_power : .power ∈ W) (h_security : .security ∈ W) (h_sets : .sets ∈ W) (h_stagings : .stagings ∈ W) :
    Answers W s (execPersistWriteDone idx sub s) := by
  unfold execPersistWriteDone
  split <;> simp [*]

theorem execSegmentTimeout_keep (x : Port) (token : BitVec 16) (s : State)
    (h_dict : .dict ∈ W) :
    Answers W s (execSegmentTimeout x token s) := by
  unfold execSegmentTimeout
  simp [*]

@[simp] theorem State.keep_control (s : State) (r : Req) (idx sub size v : Nat)
    (h_all : Place.All W) :
    Answers W s (s.control r idx sub size v) := by
  unfold State.control
  simp [*]

theorem execPartitionCommit_keep (r : Req) (p : Part) (s : State)
    (h_all : Place.All W) :
    Answers W s (execPartitionCommit r p s) := by
  unfold execPartitionCommit
  simp [*]

theorem execPartitionStart_keep (r : Req) (p : Part) (s : State)
    (h_all : Place.All W) :
    Answers W s (execPartitionStart r p s) := by
  unfold execPartitionStart
  simp [*]

theorem execPartitionStop_keep (r : Req) (p : Part) (s : State)
    (h_all : Place.All W) :
    Answers W s (execPartitionStop r p s) := by
  unfold execPartitionStop
  simp [*]

theorem execPartitionRelease_keep (r : Req) (p : Part) (s : State)
    (h_all : Place.All W) :
    Answers W s (execPartitionRelease r p s) := by
  unfold execPartitionRelease
  simp [*]

@[simp] theorem State.keep_bankWrite (s : State) (r : Req) (p : Part) (n : Ctx) (action : Nat) (kinds : BitVec 5)
    (h_all : Place.All W) :
    Answers W s (s.bankWrite r p n action kinds) := by
  unfold State.bankWrite
  simp [*]

theorem execBankArm_keep (r : Req) (p : Part) (n : Ctx) (kinds : BitVec 5) (s : State)
    (h_all : Place.All W) :
    Answers W s (execBankArm r p n kinds s) := by
  unfold execBankArm
  simp [*]

theorem execBankDisarm_keep (r : Req) (p : Part) (n : Ctx) (kinds : BitVec 5) (s : State)
    (h_all : Place.All W) :
    Answers W s (execBankDisarm r p n kinds s) := by
  unfold execBankDisarm
  simp [*]

theorem execBankDiscard_keep (r : Req) (p : Part) (n : Ctx) (kinds : BitVec 5) (s : State)
    (h_all : Place.All W) :
    Answers W s (execBankDiscard r p n kinds s) := by
  unfold execBankDiscard
  simp [*]

theorem execNsCreate_keep (r : Req) (ns : NsId) (s : State)
    (h_all : Place.All W) :
    Answers W s (execNsCreate r ns s) := by
  unfold execNsCreate
  simp [*]

theorem execNsDelete_keep (r : Req) (ns : NsId) (s : State)
    (h_all : Place.All W) :
    Answers W s (execNsDelete r ns s) := by
  unfold execNsDelete
  simp [*]

theorem execTickBaseWrite_keep (r : Req) (v : BitVec 16) (s : State)
    (h_all : Place.All W) :
    Answers W s (execTickBaseWrite r v s) := by
  unfold execTickBaseWrite
  simp [*]

theorem execFreeFloorWrite_keep (r : Req) (v : BitVec 32) (s : State)
    (h_all : Place.All W) :
    Answers W s (execFreeFloorWrite r v s) := by
  unfold execFreeFloorWrite
  simp [*]

theorem execLockIndex_keep (r : Req) (idx : BitVec 16) (s : State)
    (h_all : Place.All W) :
    Answers W s (execLockIndex r idx s) := by
  unfold execLockIndex
  simp [*]

theorem execAttnAck_keep (r : Req) (x : Port) (bits : Byte) (s : State)
    (h_all : Place.All W) :
    Answers W s (execAttnAck r x bits s) := by
  unfold execAttnAck
  simp [*]

theorem execUnfreeze_keep (r : Req) (x : Port) (bits : BitVec 16) (s : State)
    (h_all : Place.All W) :
    Answers W s (execUnfreeze r x bits s) := by
  unfold execUnfreeze
  simp [*]

theorem execPortRetrain_keep (r : Req) (x : Port) (s : State)
    (h_all : Place.All W) :
    Answers W s (execPortRetrain r x s) := by
  unfold execPortRetrain
  simp [*]

theorem execPortDisable_keep (r : Req) (x : Port) (s : State)
    (h_all : Place.All W) :
    Answers W s (execPortDisable r x s) := by
  unfold execPortDisable
  simp [*]

theorem execPortEnable_keep (r : Req) (x : Port) (s : State)
    (h_all : Place.All W) :
    Answers W s (execPortEnable r x s) := by
  unfold execPortEnable
  simp [*]

theorem execLoopbackWrite_keep (r : Req) (x : Port) (v : Byte) (s : State)
    (h_all : Place.All W) :
    Answers W s (execLoopbackWrite r x v s) := by
  unfold execLoopbackWrite
  simp [*]

theorem execLoopRun_keep (r : Req) (x : Port) (ms : BitVec 16) (s : State)
    (h_all : Place.All W) :
    Answers W s (execLoopRun r x ms s) := by
  unfold execLoopRun
  simp [*]

theorem execStateRequest_keep (r : Req) (v : Byte) (s : State)
    (h_all : Place.All W) :
    Answers W s (execStateRequest r v s) := by
  unfold execStateRequest
  simp [*]

theorem execModuleReset_keep (r : Req) (v : BitVec 32) (s : State)
    (h_all : Place.All W) :
    Answers W s (execModuleReset r v s) := by
  unfold execModuleReset
  simp [*]

theorem execLcRequest_keep (r : Req) (v : Byte) (s : State)
    (h_all : Place.All W) :
    Answers W s (execLcRequest r v s) := by
  unfold execLcRequest
  simp [*]

theorem execLcToken_keep (r : Req) (token : Bytes) (s : State)
    (h_all : Place.All W) :
    Answers W s (execLcToken r token s) := by
  unfold execLcToken
  simp [*]

theorem execAttestNonce_keep (r : Req) (x : Port) (nonce : Bytes) (s : State)
    (h_all : Place.All W) :
    Answers W s (execAttestNonce r x nonce s) := by
  unfold execAttestNonce
  simp [*]

theorem execReadList_keep (r : Req) (ids : Bytes) (s : State)
    (h_all : Place.All W) :
    Answers W s (execReadList r ids s) := by
  unfold execReadList
  simp [*]

theorem execFreezeCounters_keep (r : Req) (s : State)
    (h_all : Place.All W) :
    Answers W s (execFreezeCounters r s) := by
  unfold execFreezeCounters
  simp [*]

theorem execReleaseCounters_keep (r : Req) (s : State)
    (h_all : Place.All W) :
    Answers W s (execReleaseCounters r s) := by
  unfold execReleaseCounters
  simp [*]

theorem execArmFreeze_keep (r : Req) (s : State)
    (h_all : Place.All W) :
    Answers W s (execArmFreeze r s) := by
  unfold execArmFreeze
  simp [*]

theorem execDumpRequest_keep (r : Req) (t : Nat) (s : State)
    (h_all : Place.All W) :
    Answers W s (execDumpRequest r t s) := by
  unfold execDumpRequest
  simp [*]

theorem execTestHoldEnter_keep (r : Req) (s : State)
    (h_all : Place.All W) :
    Answers W s (execTestHoldEnter r s) := by
  unfold execTestHoldEnter
  simp [*]

theorem execTestHoldLeave_keep (r : Req) (s : State)
    (h_all : Place.All W) :
    Answers W s (execTestHoldLeave r s) := by
  unfold execTestHoldLeave
  simp [*]

theorem execTestStart_keep (r : Req) (v : BitVec 32) (s : State)
    (h_all : Place.All W) :
    Answers W s (execTestStart r v s) := by
  unfold execTestStart
  simp [*]

end Sys2Proof.Machine
end

