-- ==== Sys2Proof/Laws/FrameIndex.lean ====
section
/-! SUPPORT. The frames of work on a search index: it changes bytes of the tiers and nothing else of the module, until its
blocks are accepted. -/

namespace Sys2Proof.Machine

variable {W : List Place}

theorem ok_bind {ε α β : Type} {x : Except ε α} {f : α → Except ε β} {b : β} :
    (x >>= f) = .ok b ↔ ∃ a, x = .ok a ∧ f a = .ok b := by
  cases x <;> simp [bind, Except.bind]

/-- A part of the work on an index can end well with `b`, whatever was read before it. -/
def IndexDo.gives {α : Type} (x : IndexDo α) (b : α) : Prop := ∃ l r, x.run.run l = (.ok b, r)

theorem IndexDo.gives_pure {α : Type} {a b : α} (h : IndexDo.gives (pure a) b) : a = b := by
  obtain ⟨l, r, h⟩ := h
  cases h
  rfl

theorem IndexDo.gives_throw {α : Type} {e : IndexFault} {b : α} (h : IndexDo.gives (throw e) b) : False := by
  obtain ⟨l, r, h⟩ := h
  cases h

theorem IndexDo.gives_bind {α β : Type} {x : IndexDo α} {f : α → IndexDo β} {b : β} (h : (x >>= f).gives b) :
    ∃ a, x.gives a ∧ (f a).gives b := by
  obtain ⟨l, r, h⟩ := h
  have hx : (x >>= f).run.run l = (match x.run.run l with
      | (.ok a, m) => (f a).run.run m
      | (.error e, m) => (.error e, m)) := by
    simp only [ExceptT.run_bind, StateT.run_bind]
    rcases x.run.run l with ⟨a | a, m⟩ <;> rfl
  rw [hx] at h
  split at h
  · exact ⟨_, ⟨_, _, ‹_›⟩, ⟨_, _, h⟩⟩
  · cases h

theorem IndexDo.from0_gives {α : Type} {x : IndexDo α} {b : α} {l : List Nat} (h : x.from0 = (.ok b, l)) : x.gives b := by
  refine ⟨[], (x.run.run []).2, Prod.ext ?_ rfl⟩
  have k := congrArg Prod.fst h
  exact k
theorem IndexWork.writeMem_keep {w v : IndexWork} {a : Nat} {bs : Bytes} (h : (w.writeMem a bs).gives v)
    (h_fabric : .fabric ∈ W) (h_tiers : .tiers ∈ W) : keep W v.s = keep W w.s := by
  unfold IndexWork.writeMem at h
  split at h
  · rename_i u hu
    cases IndexDo.gives_pure h
    exact State.keep_writeTier _ u _ _ _ h_fabric h_tiers hu
  · exact (IndexDo.gives_throw h).elim

theorem IndexWork.writeFlash_s {w v : IndexWork} {base off : Nat} {bs : Bytes} (h : (w.writeFlash base off bs).gives v) :
    v.s = w.s := by
  obtain ⟨m, -, h⟩ := IndexDo.gives_bind h
  cases IndexDo.gives_pure h
  rfl

theorem IndexWork.setGraph_s {w v : IndexWork} {n : Nat} {r : GraphRec} (h : (w.setGraph n r).gives v) : v.s = w.s :=
  IndexWork.writeFlash_s h

theorem IndexWork.mark_keep {w v : IndexWork} {n : Nat} {dead : Bool} {gen : Option Nat} (h : (w.mark n dead gen).gives v)
    (h_fabric : .fabric ∈ W) (h_tiers : .tiers ∈ W) : keep W v.s = keep W w.s := by
  obtain ⟨m, -, h⟩ := IndexDo.gives_bind h
  obtain ⟨w1, h1, h⟩ := IndexDo.gives_bind h
  refine Eq.trans ?_ (IndexWork.writeMem_keep h1 h_fabric h_tiers)
  cases gen with
  | none =>
    obtain ⟨w2, h2, h⟩ := IndexDo.gives_bind h
    cases IndexDo.gives_pure h2
    cases IndexDo.gives_pure h
    rfl
  | some g =>
    obtain ⟨w2, h2, h⟩ := IndexDo.gives_bind h
    cases IndexDo.gives_pure h
    exact (IndexWork.writeMem_keep h2 h_fabric h_tiers : keep W w2.s = keep W w1.s)

theorem IndexWork.loadCodes_keep (h_fabric : .fabric ∈ W) (h_tiers : .tiers ∈ W) (k : Nat) :
    ∀ (w v : IndexWork) (n : Nat), (w.loadCodes k n).gives v → keep W v.s = keep W w.s := by
  induction k with
  | zero => intro w v n h; cases IndexDo.gives_pure h; rfl
  | succ k ih =>
    intro w v n h
    obtain ⟨c, -, h⟩ := IndexDo.gives_bind h
    obtain ⟨w1, h1, h2⟩ := IndexDo.gives_bind h
    exact (ih _ _ _ h2).trans (IndexWork.writeMem_keep h1 h_fabric h_tiers)

theorem IndexWork.attach_keep {w : IndexWork} {r : IndexWork × Nat} {addr : Nat} {input : Mem}
    (h : (w.attach addr input).gives r) (h_fabric : .fabric ∈ W) (h_tiers : .tiers ∈ W) : keep W r.1.s = keep W w.s := by
  obtain ⟨w1, h1, h⟩ := IndexDo.gives_bind h
  obtain ⟨w2, h2, h⟩ := IndexDo.gives_bind h
  obtain ⟨im, -, h⟩ := IndexDo.gives_bind h
  obtain ⟨w3, h3, h⟩ := IndexDo.gives_bind h
  obtain ⟨w4, h4, h⟩ := IndexDo.gives_bind h
  obtain ⟨w5, h5, h⟩ := IndexDo.gives_bind h
  cases IndexDo.gives_pure h
  have k := fun {a b : IndexWork} {x : Nat} {y : Bytes} (e : (a.writeMem x y).gives b) =>
    IndexWork.writeMem_keep e h_fabric h_tiers
  exact (IndexWork.loadCodes_keep h_fabric h_tiers _ _ _ _ h5).trans
    ((k h4).trans ((k h3).trans ((k h2).trans (k h1))))

theorem IndexWork.delete_keep {w : IndexWork} {r : IndexWork × Bytes} {tag n g : Nat}
    (h : (w.delete tag n g).gives r) (h_fabric : .fabric ∈ W) (h_tiers : .tiers ∈ W) : keep W r.1.s = keep W w.s := by
  unfold IndexWork.delete at h
  split at h
  · cases IndexDo.gives_pure h; rfl
  · obtain ⟨q, -, h⟩ := IndexDo.gives_bind h
    split at h
    · cases IndexDo.gives_pure h; rfl
    · obtain ⟨w1, h1, h⟩ := IndexDo.gives_bind h
      obtain ⟨w2, h2, h⟩ := IndexDo.gives_bind h
      cases IndexDo.gives_pure h
      exact (IndexWork.mark_keep h2 h_fabric h_tiers).trans (congrArg (keep W) (IndexWork.setGraph_s h1))

theorem IndexWork.backEdges_s (slot g : Nat) (l : List Forward) :
    ∀ w v : IndexWork, (w.backEdges slot g l).gives v → v.s = w.s := by
  induction l with
  | nil => intro w v h; cases IndexDo.gives_pure h; rfl
  | cons e l ih =>
    intro w v h
    unfold IndexWork.backEdges at h
    split at h
    · exact ih _ _ h
    · obtain ⟨q, -, h⟩ := IndexDo.gives_bind h
      dsimp only at h
      (repeat' split at h) <;> obtain ⟨w1, h1, h⟩ := IndexDo.gives_bind h <;> refine (ih _ _ h).trans ?_
      · exact IndexWork.setGraph_s h1
      · exact IndexWork.setGraph_s h1
      · cases IndexDo.gives_pure h1; rfl

theorem IndexWork.insert_keep {w : IndexWork} {r : IndexWork × Bytes} {tag edges : Nat} {body : Bytes}
    (h : (w.insert tag edges body).gives r) (h_fabric : .fabric ∈ W) (h_tiers : .tiers ∈ W) : keep W r.1.s = keep W w.s := by
  unfold IndexWork.insert at h
  dsimp only at h
  split at h
  · cases IndexDo.gives_pure h; rfl
  · obtain ⟨o, -, h⟩ := IndexDo.gives_bind h
    split at h
    · cases IndexDo.gives_pure h; rfl
    · obtain ⟨g0, -, h⟩ := IndexDo.gives_bind h
      obtain ⟨kept, -, h⟩ := IndexDo.gives_bind h
      obtain ⟨w1, h1, h⟩ := IndexDo.gives_bind h
      obtain ⟨w2, h2, h⟩ := IndexDo.gives_bind h
      obtain ⟨w3, h3, h⟩ := IndexDo.gives_bind h
      obtain ⟨w4, h4, h⟩ := IndexDo.gives_bind h
      obtain ⟨w5, h5, h⟩ := IndexDo.gives_bind h
      obtain ⟨w6, h6, h⟩ := IndexDo.gives_bind h
      cases IndexDo.gives_pure h
      refine (IndexWork.mark_keep h6 h_fabric h_tiers).trans ?_
      rw [IndexWork.backEdges_s _ _ _ _ _ h5, IndexWork.writeFlash_s h4, IndexWork.writeMem_keep h3 h_fabric h_tiers,
        IndexWork.writeFlash_s h2, IndexWork.setGraph_s h1]

theorem IndexWork.apply_keep (h_fabric : .fabric ∈ W) (h_tiers : .tiers ∈ W) (h_free : .free ∈ W) (n : Nat) :
    ∀ (w : IndexWork) (r : IndexWork × Bytes) (a : Nat), (w.apply n a).gives r → keep W r.1.s = keep W w.s := by
  induction n with
  | zero => intro w r a h; cases IndexDo.gives_pure h; rfl
  | succ n ih =>
    intro w r a h
    obtain ⟨hm, -, h⟩ := IndexDo.gives_bind h
    obtain ⟨m, -, h⟩ := IndexDo.gives_bind h
    dsimp only at h
    (repeat' split at h) <;> obtain ⟨q, hq, h⟩ := IndexDo.gives_bind h <;> obtain ⟨rest, hr, h⟩ := IndexDo.gives_bind h <;>
      cases IndexDo.gives_pure h <;> refine (ih _ _ _ hr).trans ((State.keep_draw _ h_free).trans ?_)
    · exact IndexWork.insert_keep hq h_fabric h_tiers
    · exact IndexWork.delete_keep hq h_fabric h_tiers
    · cases IndexDo.gives_pure hq; rfl

theorem IndexWork.replay_keep (h_fabric : .fabric ∈ W) (h_tiers : .tiers ∈ W) (src : Nat) (l : List Nat) :
    ∀ w v : IndexWork, (w.replay src l).gives v → keep W v.s = keep W w.s := by
  induction l with
  | nil => intro w v h; cases IndexDo.gives_pure h; rfl
  | cons n l ih =>
    intro w v h
    obtain ⟨m, -, h⟩ := IndexDo.gives_bind h
    obtain ⟨g, -, h⟩ := IndexDo.gives_bind h
    obtain ⟨w1, h1, h2⟩ := IndexDo.gives_bind h
    exact (ih _ _ h2).trans (IndexWork.mark_keep h1 h_fabric h_tiers)

theorem IndexWork.repair_s (k : Nat) : ∀ (w v : IndexWork) (n : Nat), (w.repair k n).gives v → v.s = w.s := by
  induction k with
  | zero => intro w v n h; cases IndexDo.gives_pure h; rfl
  | succ k ih =>
    intro w v n h
    obtain ⟨r, -, h⟩ := IndexDo.gives_bind h
    obtain ⟨sp, -, h⟩ := IndexDo.gives_bind h
    dsimp only at h
    split at h
    · obtain ⟨w1, h1, h⟩ := IndexDo.gives_bind h
      cases IndexDo.gives_pure h1
      exact ih _ _ _ h
    · obtain ⟨es, -, h⟩ := IndexDo.gives_bind h
      obtain ⟨w1, h1, h⟩ := IndexDo.gives_bind h
      exact (ih _ _ _ h).trans (IndexWork.setGraph_s h1)

theorem IndexWork.freeDeleted_s (k : Nat) : ∀ (w v : IndexWork) (n : Nat), (w.freeDeleted k n).gives v → v.s = w.s := by
  induction k with
  | zero => intro w v n h; cases IndexDo.gives_pure h; rfl
  | succ k ih =>
    intro w v n h
    obtain ⟨r, -, h⟩ := IndexDo.gives_bind h
    dsimp only at h
    split at h <;> obtain ⟨w1, h1, h⟩ := IndexDo.gives_bind h <;> refine (ih _ _ _ h).trans ?_
    · exact IndexWork.setGraph_s h1
    · cases IndexDo.gives_pure h1; rfl

theorem IndexWork.pass_s {w v : IndexWork} (h : w.pass.gives v) : v.s = w.s := by
  obtain ⟨u, h1, h2⟩ := IndexDo.gives_bind h
  exact (IndexWork.freeDeleted_s _ _ _ _ h2).trans (IndexWork.repair_s _ _ _ _ h1)

theorem State.copyHeaders_keep (h_fabric : .fabric ∈ W) (h_tiers : .tiers ∈ W) (h_free : .free ∈ W) (t : TaskSet) (n : Nat) :
    ∀ (s u : State) (q : Nat), s.copyHeaders t n q = .ok u → keep W u = keep W s := by
  induction n with
  | zero => intro s u q h; cases h; rfl
  | succ n ih =>
    intro s u q h
    simp only [State.copyHeaders, ok_bind] at h
    obtain ⟨m, -, v, hv, h⟩ := h
    exact (ih _ _ _ h).trans ((State.keep_draw _ h_free).trans (State.keep_writeTier _ v _ _ _ h_fabric h_tiers hv))

end Sys2Proof.Machine
end

