-- ==== Sys2Proof/Laws/FrameTables.lean ====
section
/-! SUPPORT. The frames of partitions, of the admin commands, of the sideband and of the commands that run tables and keep search indices. -/

namespace Sys2Proof.Machine

variable {W : List Place}

@[simp] theorem State.keep_partResult (s : State) (p v : Nat)
    (h_dict : .dict ∈ W) :
    keep W (s.partResult p v) = keep W s := by
  unfold State.partResult
  simp [*]

@[simp] theorem State.keep_putBoth (s : State) (idx sub v : Nat)
    (h_dict : .dict ∈ W) :
    keep W (s.putBoth idx sub v) = keep W s := by
  unfold State.putBoth
  simp [*]

@[simp] theorem State.keep_commitPart (s : State) (p : Nat)
    (h_dict : .dict ∈ W) (h1 : .part p ∈ W ∨ .parts ∈ W) :
    keep W (s.commitPart p) = keep W s := by
  unfold State.commitPart
  simp [*]

@[simp] theorem State.keep_startPart (s : State) (p : Nat)
    (h_dict : .dict ∈ W) (h1 : .part p ∈ W ∨ .parts ∈ W) (h2 : .seq p ∈ W ∨ .seqs ∈ W) :
    keep W (s.startPart p) = keep W s := by
  unfold State.startPart
  simp [*]

@[simp] theorem State.keep_halt (s : State) (p : Nat)
    (h_dict : .dict ∈ W) (h1 : .part p ∈ W ∨ .parts ∈ W) (h2 : .seq p ∈ W ∨ .seqs ∈ W) :
    keep W (s.halt p) = keep W s := by
  unfold State.halt
  simp [*]

@[simp] theorem State.keep_stopPart (s : State) (p : Nat)
    (h_dict : .dict ∈ W) (h1 : .part p ∈ W ∨ .parts ∈ W) (h2 : .seq p ∈ W ∨ .seqs ∈ W) :
    keep W (s.stopPart p) = keep W s := by
  unfold State.stopPart
  simp [*]

@[simp] theorem State.keep_releasePart (s : State) (p : Nat)
    (h_errors : .errors ∈ W) (h_observe : .observe ∈ W) (h_vtimes : .vtimes ∈ W) (h_ctxs : .ctxs ∈ W) (h_dict : .dict ∈ W) (h_dies : .dies ∈ W) (h_fabric : .fabric ∈ W) (h_free : .free ∈ W) (h_parts : .parts ∈ W) (h_ports : .ports ∈ W) (h_seqs : .seqs ∈ W) (h_sets : .sets ∈ W) (h_stagings : .stagings ∈ W) (h_tiers : .tiers ∈ W) :
    keep W (s.releasePart p) = keep W s := by
  unfold State.releasePart
  simp [*]

@[simp] theorem State.keep_partControl (s : State) (p v : Nat)
    (h_errors : .errors ∈ W) (h_observe : .observe ∈ W) (h_vtimes : .vtimes ∈ W) (h_ctxs : .ctxs ∈ W) (h_dict : .dict ∈ W) (h_dies : .dies ∈ W) (h_fabric : .fabric ∈ W) (h_free : .free ∈ W) (h_parts : .parts ∈ W) (h_ports : .ports ∈ W) (h_seqs : .seqs ∈ W) (h_sets : .sets ∈ W) (h_stagings : .stagings ∈ W) (h_tiers : .tiers ∈ W) :
    keep W (s.partControl p v) = keep W s := by
  unfold State.partControl
  simp [*]

@[simp] theorem State.keep_resetPart (s : State) (p : Nat)
    (h_errors : .errors ∈ W) (h_observe : .observe ∈ W) (h_vtimes : .vtimes ∈ W) (h_ctxs : .ctxs ∈ W) (h_dict : .dict ∈ W) (h_dies : .dies ∈ W) (h_fabric : .fabric ∈ W) (h_free : .free ∈ W) (h_parts : .parts ∈ W) (h_ports : .ports ∈ W) (h_seqs : .seqs ∈ W) (h_sets : .sets ∈ W) (h_stagings : .stagings ∈ W) (h_tiers : .tiers ∈ W) :
    keep W (s.resetPart p) = keep W s := by
  unfold State.resetPart
  simp [*]

@[simp] theorem State.keep_partsNow (s : State)
    (h_errors : .errors ∈ W) (h_observe : .observe ∈ W) (h_vtimes : .vtimes ∈ W) (h_ctxs : .ctxs ∈ W) (h_dict : .dict ∈ W) (h_dies : .dies ∈ W) (h_fabric : .fabric ∈ W) (h_free : .free ∈ W) (h_parts : .parts ∈ W) (h_ports : .ports ∈ W) (h_seqs : .seqs ∈ W) (h_sets : .sets ∈ W) (h_stagings : .stagings ∈ W) (h_tiers : .tiers ∈ W) :
    keep W (s.partsNow) = keep W s := by
  unfold State.partsNow
  simp [*]

@[simp] theorem State.keep_emptyKind (s : State) (p n : Nat) (k : Kind)
    (h_ctxs : .ctxs ∈ W) (h_dict : .dict ∈ W) (h_ports : .ports ∈ W) (h_sets : .sets ∈ W) (h_stagings : .stagings ∈ W) :
    keep W (s.emptyKind p n k) = keep W s := by
  unfold State.emptyKind
  simp [*]

@[simp] theorem State.keep_gate (s : State) (mask : Nat)
    (h_free : .free ∈ W) (h_ctxs : .ctxs ∈ W) (h_dict : .dict ∈ W) (h_dies : .dies ∈ W) (h_fabric : .fabric ∈ W) (h_observe : .observe ∈ W) (h_ports : .ports ∈ W) (h_sets : .sets ∈ W) (h_stagings : .stagings ∈ W) :
    keep W (s.gate mask) = keep W s := by
  unfold State.gate
  refine (keep_each _ _ _ fun t p => keep_each _ _ _ fun t n => ?_).trans ?_
  · split <;> simp [*]
  · simp [*]

theorem execIdentify_keep (x : Port) (set : SetId) (s : State)
    (h_ctxs : .ctxs ∈ W) (h_ports : .ports ∈ W) (h_sets : .sets ∈ W) :
    Answers W s (execIdentify x set s) := by
  unfold execIdentify
  simp [*]

theorem execLogRead_keep (x : Port) (set : SetId) (s : State)
    (h_ctxs : .ctxs ∈ W) (h_errors : .errors ∈ W) (h_free : .free ∈ W) (h_ports : .ports ∈ W) (h_sets : .sets ∈ W) :
    Answers W s (execLogRead x set s) := by
  unfold execLogRead
  dsimp only
  split
  · simp
  · split <;> simp [*]

theorem execFeatures_keep (x : Port) (set : SetId) (s : State)
    (h_arms : .arms ∈ W) (h_ctxs : .ctxs ∈ W) (h_dict : .dict ∈ W) (h_errors : .errors ∈ W) (h_free : .free ∈ W) (h_lifeDue : .lifeDue ∈ W) (h_media : .media ∈ W) (h_observe : .observe ∈ W) (h_ports : .ports ∈ W) (h_power : .power ∈ W) (h_security : .security ∈ W) (h_sets : .sets ∈ W) (h_stagings : .stagings ∈ W) :
    Answers W s (execFeatures x set s) := by
  unfold execFeatures
  dsimp only
  split
  · simp
  · split
    · simp [*]
    · split <;> simp [*]

theorem execFwDownload_keep (x : Port) (set : SetId) (s : State)
    (h_dict : .dict ∈ W) (h_free : .free ∈ W) (h_ctxs : .ctxs ∈ W) (h_ports : .ports ∈ W) (h_security : .security ∈ W) (h_sets : .sets ∈ W) :
    Answers W s (execFwDownload x set s) := by
  unfold execFwDownload
  dsimp only
  split
  · simp
  · have h1 (x : Security) (n : Nat) (z : Slot) : (x.setSlot n z).state = x.state ∧ (x.setSlot n z).due = x.due := by
      unfold Security.setSlot; split <;> exact ⟨rfl, rfl⟩
    simp [*]

theorem execFwCommitVerify_keep (x : Port) (set : SetId) (s : State)
    (h_ctxs : .ctxs ∈ W) (h_ports : .ports ∈ W) (h_sets : .sets ∈ W) :
    Answers W s (execFwCommitVerify x set s) := by
  unfold execFwCommitVerify
  simp [*]

theorem execFwCommitInstall_keep (x : Port) (set : SetId) (s : State)
    (h_ctxs : .ctxs ∈ W) (h_dict : .dict ∈ W) (h_ports : .ports ∈ W) (h_security : .security ∈ W) (h_sets : .sets ∈ W) :
    Answers W s (execFwCommitInstall x set s) := by
  unfold execFwCommitInstall
  simp [*]

theorem execSmbusPointer_keep (idx : BitVec 16) (sub : Byte) (off : SmOffset) (s : State)
    (h_dict : .dict ∈ W) :
    Answers W s (execSmbusPointer idx sub off s) := by
  unfold execSmbusPointer
  simp [*]

theorem execSmbusRead_keep (s : State)
    (h_dict : .dict ∈ W) (h_free : .free ∈ W) :
    Answers W s (execSmbusRead s) := by
  unfold execSmbusRead
  dsimp only
  (repeat' split) <;> simp [*]

theorem execSmbusWrite_keep (idx : BitVec 16) (sub : Byte) (value : Bytes) (pecGood : Bool) (s : State)
    (h_arms : .arms ∈ W) (h_ctxs : .ctxs ∈ W) (h_dict : .dict ∈ W) (h_errors : .errors ∈ W) (h_free : .free ∈ W) (h_lifeDue : .lifeDue ∈ W) (h_media : .media ∈ W) (h_observe : .observe ∈ W) (h_ports : .ports ∈ W) (h_power : .power ∈ W) (h_security : .security ∈ W) (h_sets : .sets ∈ W) (h_stagings : .stagings ∈ W) :
    Answers W s (execSmbusWrite idx sub value pecGood s) := by
  unfold execSmbusWrite
  (repeat' split) <;> simp [*]

theorem execSmbusLastStatus_keep (s : State)
    (h_dict : .dict ∈ W) :
    Answers W s (execSmbusLastStatus s) := by
  unfold execSmbusLastStatus
  simp [*]

theorem execAlertResponse_keep (s : State)
    (h_dict : .dict ∈ W) (h_power : .power ∈ W) :
    Answers W s (execAlertResponse s) := by
  unfold execAlertResponse
  simp [*]

theorem execSmbusTimeout_keep (s : State)
    (h_dict : .dict ∈ W) (h_power : .power ∈ W) :
    Answers W s (execSmbusTimeout s) := by
  unfold execSmbusTimeout
  simp [*]

@[simp] theorem State.keep_enqueue (s : State) (k : Nat)
    (h_ctxs : .ctxs ∈ W) (h1 : .tset k ∈ W ∨ .sets ∈ W) :
    keep W (s.enqueue k) = keep W s := by
  unfold State.enqueue
  simp [*]

theorem execScanCommand_keep (x : Port) (set : SetId) (s : State)
    (h_dict : .dict ∈ W) (h_free : .free ∈ W) (h_media : .media ∈ W) (h_vtimes : .vtimes ∈ W) (h_ctxs : .ctxs ∈ W) (h1 : .tset (setKey x set) ∈ W ∨ .sets ∈ W) :
    Answers W s (execScanCommand x set s) := by
  unfold execScanCommand
  simp [*]

theorem execEmbed_keep (x : Port) (set : SetId) (s : State)
    (h_ctxs : .ctxs ∈ W) (h1 : .tset (setKey x set) ∈ W ∨ .sets ∈ W) :
    Answers W s (execEmbed x set s) := by
  unfold execEmbed
  simp [*]

theorem execInferStep_keep (x : Port) (set : SetId) (s : State)
    (h_ctxs : .ctxs ∈ W) (h1 : .tset (setKey x set) ∈ W ∨ .sets ∈ W) :
    Answers W s (execInferStep x set s) := by
  unfold execInferStep
  simp [*]

theorem execRefitStep_keep (x : Port) (set : SetId) (s : State)
    (h_ctxs : .ctxs ∈ W) (h1 : .tset (setKey x set) ∈ W ∨ .sets ∈ W) :
    Answers W s (execRefitStep x set s) := by
  unfold execRefitStep
  simp [*]

theorem execSearchQuery_keep (x : Port) (set : SetId) (s : State)
    (h_ctxs : .ctxs ∈ W) (h_dict : .dict ∈ W) (h_errors : .errors ∈ W) (h_fabric : .fabric ∈ W) (h_free : .free ∈ W) (h_observe : .observe ∈ W) (h_ports : .ports ∈ W) (h_sets : .sets ∈ W) (h_tiers : .tiers ∈ W) :
    Answers W s (execSearchQuery x set s) := by
  unfold execSearchQuery
  dsimp only
  split
  · simp
  · split
    · simp [*]
    · rename_i u hu
      have h := State.copyHeaders_keep h_fabric h_tiers h_free _ _ _ _ _ hu
      simp [*]

@[simp] theorem State.keep_indexFault (s : State) (k ns : Nat) (f : IndexFault)
    (h_ctxs : .ctxs ∈ W) (h_dict : .dict ∈ W) (h_errors : .errors ∈ W) (h_free : .free ∈ W) (h_observe : .observe ∈ W) (h5 : .port (keyPort k) ∈ W ∨ .ports ∈ W) (h6 : .tset k ∈ W ∨ .sets ∈ W) :
    keep W (s.indexFault k ns f) = keep W s := by
  unfold State.indexFault
  split <;> simp [*]

@[simp] theorem State.keep_indexReads (s : State) (ns stamp : Nat) (l : List Nat)
    (h_dict : .dict ∈ W) (h_free : .free ∈ W) (h_media : .media ∈ W) :
    keep W (s.indexReads ns stamp l).1 = keep W s := by
  unfold State.indexReads
  refine keep_fold_pair _ _ (fun a r => ?_) _
  simp [*]

@[simp] theorem State.keep_chargeIndex (s : State) (p ns stamp : Nat) (l : List Nat)
    (h_dict : .dict ∈ W) (h_free : .free ∈ W) (h_media : .media ∈ W) (h_vtimes : .vtimes ∈ W) :
    keep W (s.chargeIndex p ns stamp l) = keep W s := by
  unfold State.chargeIndex
  dsimp only
  (repeat' split) <;> simp [*]

theorem execSearchAttach_keep (x : Port) (set : SetId) (s : State)
    (h_ctxs : .ctxs ∈ W) (h_dict : .dict ∈ W) (h_errors : .errors ∈ W) (h_fabric : .fabric ∈ W) (h_free : .free ∈ W) (h_media : .media ∈ W) (h_observe : .observe ∈ W) (h_ports : .ports ∈ W) (h_sets : .sets ∈ W) (h_tiers : .tiers ∈ W) (h_vtimes : .vtimes ∈ W) :
    Answers W s (execSearchAttach x set s) := by
  unfold execSearchAttach
  dsimp only
  split
  · simp
  · split
    · simp [*]
    · split
      · simp [*]
      · rename_i w free l hw
        have h := IndexWork.attach_keep (IndexDo.from0_gives hw) h_fabric h_tiers
        simp [*]

theorem execSearchDetach_keep (x : Port) (set : SetId) (s : State)
    (h_ctxs : .ctxs ∈ W) (h_ports : .ports ∈ W) (h_sets : .sets ∈ W) :
    Answers W s (execSearchDetach x set s) := by
  unfold execSearchDetach
  simp [*]

@[simp] theorem State.keep_detachNow (s : State)
    (h_ctxs : .ctxs ∈ W) (h_sets : .sets ∈ W) :
    keep W (s.detachNow) = keep W s := by
  unfold State.detachNow
  simp [*]

theorem execSearchUpdate_keep (x : Port) (set : SetId) (s : State)
    (h_ctxs : .ctxs ∈ W) (h_ports : .ports ∈ W) (h_sets : .sets ∈ W) :
    Answers W s (execSearchUpdate x set s) := by
  unfold execSearchUpdate
  simp [*]

@[simp] theorem State.keep_acceptBlocks (s : State) (payer : Option Nat) (ns : Nat) (l : Tab Mem)
    (h_dict : .dict ∈ W) (h_media : .media ∈ W) :
    keep W (s.acceptBlocks payer ns l) = keep W s := by
  unfold State.acceptBlocks
  simp [*]

theorem execUpdateAccept_keep (x : Port) (set : SetId) (s : State)
    (h_arms : .arms ∈ W) (h_ctxs : .ctxs ∈ W) (h_dict : .dict ∈ W) (h_errors : .errors ∈ W) (h_fabric : .fabric ∈ W) (h_free : .free ∈ W) (h_media : .media ∈ W) (h_observe : .observe ∈ W) (h_ports : .ports ∈ W) (h_sets : .sets ∈ W) (h_tiers : .tiers ∈ W) (h_vtimes : .vtimes ∈ W) :
    Answers W s (execUpdateAccept x set s) := by
  unfold execUpdateAccept
  dsimp only
  split
  · simp
  · split
    · simp
    · split
      · simp [*]
      · split
        · simp [*]
        · rename_i w out l hw
          have h := IndexWork.apply_keep h_fabric h_tiers h_free _ _ _ _ (IndexDo.from0_gives hw)
          simp only [State.indexWork] at h
          split <;> simp [*]

theorem execTombstoneReplay_keep (p : Part) (n : Ctx) (s : State)
    (h0 : .ctx (p.val * 16 + n.val) ∈ W ∨ .ctxs ∈ W) (h_fabric : .fabric ∈ W) (h_tiers : .tiers ∈ W) :
    Answers W s (execTombstoneReplay p n s) := by
  unfold execTombstoneReplay
  dsimp only
  split
  · simp
  · split
    · simp
    · split
      · simp
      · rename_i w hw
        have h := IndexWork.replay_keep h_fabric h_tiers _ _ _ _ (IndexDo.from0_gives (Prod.ext hw rfl))
        simp only [State.indexWork] at h
        simp [*]

theorem execGraphRepairPass_keep (p : Part) (n : Ctx) (s : State)
    (h_free : .free ∈ W) (h_ctxs : .ctxs ∈ W) (h_dict : .dict ∈ W) (h_media : .media ∈ W) :
    Answers W s (execGraphRepairPass p n s) := by
  unfold execGraphRepairPass
  dsimp only
  split
  · simp
  · split
    · simp
    · split
      · simp [*]
      · split <;> simp [*]

@[simp] theorem State.keep_indicesNow (s : State)
    (h_ctxs : .ctxs ∈ W) (h_dict : .dict ∈ W) :
    keep W (s.indicesNow) = keep W s := by
  unfold State.indicesNow
  refine keep_each _ _ _ fun t a => ?_
  (repeat' split) <;> simp [*]

end Sys2Proof.Machine
end

