-- ==== Sys2Proof/Laws/FrameFaults.lean ====
section
/-! SUPPORT. The frames of the checks of memory, of error records and of power. -/

namespace Sys2Proof.Machine

variable {W : List Place}

@[simp] theorem State.keep_setLevel (s : State) (k v : Nat)
    (h_guard : .guard ∈ W) (h_dict : .dict ∈ W) :
    keep W (s.setLevel k v) = keep W s := by
  unfold State.setLevel
  simp [*]

@[simp] theorem State.keep_bucketEvent (s : State) (k : Nat)
    (h_guard : .guard ∈ W) (h_dict : .dict ∈ W) (h_errors : .errors ∈ W) (h_free : .free ∈ W) (h_observe : .observe ∈ W) :
    keep W (s.bucketEvent k) = keep W s := by
  unfold State.bucketEvent
  simp [*]

@[simp] theorem State.keep_corrected (s : State) (k sub n : Nat)
    (h_guard : .guard ∈ W) (h_dict : .dict ∈ W) (h_errors : .errors ∈ W) (h_free : .free ∈ W) (h_observe : .observe ∈ W) :
    keep W (s.corrected k sub n) = keep W s := by
  unfold State.corrected
  simp [*]

theorem execInnerCodePoll_keep (counts : List (Nat × Nat)) (s : State)
    (h_guard : .guard ∈ W) (h_dict : .dict ∈ W) (h_errors : .errors ∈ W) (h_free : .free ∈ W) (h_observe : .observe ∈ W) :
    Answers W s (execInnerCodePoll counts s) := by
  unfold execInnerCodePoll
  simp [*]

theorem execLeakInterval_keep (s : State)
    (h_guard : .guard ∈ W) (h_dict : .dict ∈ W) :
    Answers W s (execLeakInterval s) := by
  unfold execLeakInterval
  simp [*]

@[simp] theorem State.keep_track (s : State) (a : Nat)
    (h_guard : .guard ∈ W) (h_free : .free ∈ W) :
    keep W (s.track a) = keep W s := by
  unfold State.track
  dsimp only
  (repeat' split) <;> simp [*]

@[simp] theorem State.keep_remapRow (s : State) (stack pc row : Nat)
    (h_guard : .guard ∈ W) (h_dict : .dict ∈ W) (h_errors : .errors ∈ W) (h_free : .free ∈ W) (h_observe : .observe ∈ W) :
    keep W (s.remapRow stack pc row) = keep W s := by
  unfold State.remapRow
  simp [*]

theorem execRowRemap_keep (tier : Tier) (stack pc row : Nat) (s : State)
    (h_guard : .guard ∈ W) (h_dict : .dict ∈ W) (h_errors : .errors ∈ W) (h_free : .free ∈ W) (h_observe : .observe ∈ W) :
    Answers W s (execRowRemap tier stack pc row s) := by
  unfold execRowRemap
  (repeat' split) <;> simp [*]

@[simp] theorem State.keep_passEnd (s : State) (a : Nat)
    (h_guard : .guard ∈ W) (h_dict : .dict ∈ W) :
    keep W (s.passEnd a) = keep W s := by
  unfold State.passEnd
  simp [*]

@[simp] theorem State.keep_correctedAt (s : State) (a : Nat)
    (h_guard : .guard ∈ W) (h_dict : .dict ∈ W) (h_errors : .errors ∈ W) (h_free : .free ∈ W) (h_observe : .observe ∈ W) :
    keep W (s.correctedAt a) = keep W s := by
  unfold State.correctedAt
  simp [*]

@[simp] theorem State.keep_markBad (s : State) (a : Nat)
    (h_fabric : .fabric ∈ W) (h_media : .media ∈ W) :
    keep W (s.markBad a) = keep W s := by
  unfold State.markBad
  simp [*]

@[simp] theorem State.keep_scrubSpare (s : State) (stack a symbols : Nat)
    (h_guard : .guard ∈ W) (h_media : .media ∈ W) (h_dict : .dict ∈ W) (h_errors : .errors ∈ W) (h_free : .free ∈ W) (h_observe : .observe ∈ W) :
    keep W (s.scrubSpare stack a symbols) = keep W s := by
  unfold State.scrubSpare
  simp [*]

@[simp] theorem State.keep_correctionsOf (s : State) (r : Option Nat × Nat × Nat)
    (h_guard : .guard ∈ W) (h_dict : .dict ∈ W) (h_errors : .errors ∈ W) (h_free : .free ∈ W) (h_observe : .observe ∈ W) :
    keep W (s.correctionsOf r) = keep W s := by
  unfold State.correctionsOf
  refine (keep_each _ _ _ fun t j => ?_).trans (by simp [*])
  split <;> simp [*]

@[simp] theorem State.keep_correctionsNow (s : State)
    (h_media : .media ∈ W) (h_guard : .guard ∈ W) (h_dict : .dict ∈ W) (h_errors : .errors ∈ W) (h_free : .free ∈ W) (h_observe : .observe ∈ W) :
    keep W s.correctionsNow = keep W s := by
  unfold State.correctionsNow
  simp [*]

@[simp] theorem State.keep_badBuffer (s : State) (a : Nat) (read : Bool)
    (h_fabric : .fabric ∈ W) (h_media : .media ∈ W) :
    keep W (s.badBuffer a read) = keep W s := by
  unfold State.badBuffer
  dsimp only
  (repeat' split) <;> simp [*]

@[simp] theorem State.keep_scrub (s : State) (a symbols : Nat)
    (h_guard : .guard ∈ W) (h_dict : .dict ∈ W) (h_errors : .errors ∈ W) (h_fabric : .fabric ∈ W) (h_free : .free ∈ W) (h_media : .media ∈ W) (h_observe : .observe ∈ W) :
    keep W (s.scrub a symbols) = keep W s := by
  unfold State.scrub
  dsimp only
  split_ifs <;> simp [*]

theorem execPatrolScrub_keep (block : BitVec 48) (symbols : Nat) (s : State)
    (h_guard : .guard ∈ W) (h_dict : .dict ∈ W) (h_errors : .errors ∈ W) (h_fabric : .fabric ∈ W) (h_free : .free ∈ W) (h_media : .media ∈ W) (h_observe : .observe ∈ W) :
    Answers W s (execPatrolScrub block symbols s) := by
  unfold execPatrolScrub
  dsimp only
  (repeat' split) <;> simp [*]

@[simp] theorem State.keep_checkerFail (s : State) (c : Checker)
    (h_dict : .dict ∈ W) (h_errors : .errors ∈ W) (h_free : .free ∈ W) (h_observe : .observe ∈ W) :
    keep W (s.checkerFail c) = keep W s := by
  unfold State.checkerFail
  split <;> simp [*]

@[simp] theorem State.keep_guardNow (s : State)
   
    (h_guard : .guard ∈ W) :
    keep W (s.guardNow) = keep W s := by
  unfold State.guardNow
  simp [*]

theorem execEccSelftest_keep (checker : Checker) (good : Bool) (s : State)
    (h_dict : .dict ∈ W) (h_errors : .errors ∈ W) (h_free : .free ∈ W) (h_media : .media ∈ W) (h_observe : .observe ∈ W) :
    Answers W s (execEccSelftest checker good s) := by
  unfold execEccSelftest
  simp [*]

@[simp] theorem State.keep_faultSquare (s : State) (d : Nat)
    (h_dict : .dict ∈ W) :
    keep W (s.faultSquare d) = keep W s := by
  unfold State.faultSquare
  simp [*]

@[simp] theorem State.keep_stopReported (s : State) (rep : Report)
    (h_errors : .errors ∈ W) (h_dict : .dict ∈ W) (h_observe : .observe ∈ W) (h_ctxs : .ctxs ∈ W) (h_dies : .dies ∈ W) (h_fabric : .fabric ∈ W) (h_free : .free ∈ W) (h_seqs : .seqs ∈ W) (h_sets : .sets ∈ W) (h_tiers : .tiers ∈ W) :
    keep W (s.stopReported rep) = keep W s := by
  unfold State.stopReported
  dsimp only
  (repeat' split) <;> simp [*]

@[simp] theorem State.keep_unreadable (s : State) (ns lba : Nat)
    (h_dict : .dict ∈ W) (h_errors : .errors ∈ W) (h_free : .free ∈ W) (h_observe : .observe ∈ W) (h_media : .media ∈ W) :
    keep W (s.unreadable ns lba) = keep W s := by
  unfold State.unreadable
  split <;> simp [*]

@[simp] theorem State.keep_loseSegment (s : State) (key : Nat)
    (h_dict : .dict ∈ W) (h_free : .free ∈ W) (h_media : .media ∈ W) :
    keep W (s.loseSegment key) = keep W s := by
  unfold State.loseSegment
  dsimp only
  (repeat' split) <;> simp [*]

@[simp] theorem State.keep_readFails (s : State) (rep : Report)
    (h_media : .media ∈ W) (h_dict : .dict ∈ W) (h_vtimes : .vtimes ∈ W) :
    keep W (s.readFails rep) = keep W s := by
  unfold State.readFails
  cases s.blockOf rep <;> simp [*]

@[simp] theorem State.keep_badCache (s : State) (a : Nat)
    (h_dict : .dict ∈ W) (h_fabric : .fabric ∈ W) (h_free : .free ∈ W) (h_media : .media ∈ W) :
    keep W (s.badCache a) = keep W s := by
  unfold State.badCache
  dsimp only
  (repeat' split) <;> simp [*]

@[simp] theorem State.keep_badBlock (s : State) (a : Nat) (read : Bool)
    (h_dict : .dict ∈ W) (h_fabric : .fabric ∈ W) (h_free : .free ∈ W) (h_media : .media ∈ W) :
    keep W (s.badBlock a read) = keep W s := by
  unfold State.badBlock
  simp [*]

@[simp] theorem State.keep_condition (s : State) (rep : Report)
    (h_vtimes : .vtimes ∈ W) (h_dies : .dies ∈ W) (h_errors : .errors ∈ W) (h_free : .free ∈ W) (h_observe : .observe ∈ W) (h_dict : .dict ∈ W) (h_fabric : .fabric ∈ W) (h_media : .media ∈ W) :
    keep W (s.condition rep) = keep W s := by
  unfold State.condition
  simp [*]

theorem execErrorRecordRaise_keep (rep : Report) (s : State)
    (h_vtimes : .vtimes ∈ W) (h_ctxs : .ctxs ∈ W) (h_dict : .dict ∈ W) (h_dies : .dies ∈ W) (h_errors : .errors ∈ W) (h_fabric : .fabric ∈ W) (h_free : .free ∈ W) (h_media : .media ∈ W) (h_observe : .observe ∈ W) (h_seqs : .seqs ∈ W) (h_sets : .sets ∈ W) (h_tiers : .tiers ∈ W) :
    Answers W s (execErrorRecordRaise rep s) := by
  unfold execErrorRecordRaise
  split <;> simp [*]

@[simp] theorem State.keep_absorb (s : State) (r : Rec) (by' : BitVec 32)
    (h_errors : .errors ∈ W) :
    keep W (s.absorb r by') = keep W s := by
  unfold State.absorb
  simp [*]

@[simp] theorem State.keep_enterSafe (s : State)
    (h_free : .free ∈ W) (h_security : .security ∈ W) (h_observe : .observe ∈ W) (h_dict : .dict ∈ W) (h_device : .device ∈ W) (h_errors : .errors ∈ W) (h_media : .media ∈ W) (h_sets : .sets ∈ W) :
    keep W (s.enterSafe) = keep W s := by
  have h (t : State) (l : List Nat) : keep W (t.each l (fun s k =>
    let t := s.tset k
    if opWrite t.opcode ∧ (t.due = some stOk ∨ t.count ≠ 0) then s.setTset k { t with due := none, started := false }
    else if t.due = none ∧ (!opPartition t.opcode ∨ t.opcode = 0x20) then s.postLater k stDenied t.progress 0
    else s)) = keep W t := keep_each _ _ _ fun t k => by dsimp only; (repeat' split) <;> simp [*]
  unfold State.enterSafe
  simp [*]

@[simp] theorem State.keep_deviceError (s : State) (r : Rec)
    (h_security : .security ∈ W) (h_dict : .dict ∈ W) (h_observe : .observe ∈ W) (h_ctxs : .ctxs ∈ W) (h_device : .device ∈ W) (h_dies : .dies ∈ W) (h_errors : .errors ∈ W) (h_fabric : .fabric ∈ W) (h_free : .free ∈ W) (h_media : .media ∈ W) (h_parts : .parts ∈ W) (h_ports : .ports ∈ W) (h_seqs : .seqs ∈ W) (h_sets : .sets ∈ W) (h_tiers : .tiers ∈ W) :
    keep W (s.deviceError r) = keep W s := by
  unfold State.deviceError
  simp [*]

@[simp] theorem State.keep_escalate (s : State) (r first : Rec)
    (h_dict : .dict ∈ W) (h_errors : .errors ∈ W) (h_free : .free ∈ W) (h_observe : .observe ∈ W) (h_parts : .parts ∈ W) :
    keep W (s.escalate r first) = keep W s := by
  unfold State.escalate
  dsimp only
  (repeat' split) <;> simp [*]

@[simp] theorem State.keep_classify (s : State) (r : Rec)
    (h_security : .security ∈ W) (h_ctxs : .ctxs ∈ W) (h_device : .device ∈ W) (h_dict : .dict ∈ W) (h_dies : .dies ∈ W) (h_errors : .errors ∈ W) (h_fabric : .fabric ∈ W) (h_free : .free ∈ W) (h_media : .media ∈ W) (h_observe : .observe ∈ W) (h_parts : .parts ∈ W) (h_ports : .ports ∈ W) (h_seqs : .seqs ∈ W) (h_sets : .sets ∈ W) (h_tiers : .tiers ∈ W) :
    keep W (s.classify r) = keep W s := by
  unfold State.classify
  dsimp only
  (repeat' split) <;> simp [*]

theorem execRecordClassify_keep (s : State)
    (h_security : .security ∈ W) (h_ctxs : .ctxs ∈ W) (h_device : .device ∈ W) (h_dict : .dict ∈ W) (h_dies : .dies ∈ W) (h_errors : .errors ∈ W) (h_fabric : .fabric ∈ W) (h_free : .free ∈ W) (h_media : .media ∈ W) (h_observe : .observe ∈ W) (h_parts : .parts ∈ W) (h_ports : .ports ∈ W) (h_seqs : .seqs ∈ W) (h_sets : .sets ∈ W) (h_tiers : .tiers ∈ W) :
    Answers W s (execRecordClassify s) := by
  unfold execRecordClassify
  split <;> simp [*]

@[simp] theorem State.keep_errorTeardowns (s : State)
    (h_errors : .errors ∈ W) (h_observe : .observe ∈ W) (h_vtimes : .vtimes ∈ W) (h_ctxs : .ctxs ∈ W) (h_dict : .dict ∈ W) (h_dies : .dies ∈ W) (h_fabric : .fabric ∈ W) (h_free : .free ∈ W) (h_ports : .ports ∈ W) (h_seqs : .seqs ∈ W) (h_sets : .sets ∈ W) (h_stagings : .stagings ∈ W) (h_tiers : .tiers ∈ W) :
    keep W (s.errorTeardowns) = keep W s := by
  unfold State.errorTeardowns
  simp [*]

@[simp] theorem State.keep_recordsDone (s : State)
    (h_errors : .errors ∈ W) :
    keep W (s.recordsDone) = keep W s := by
  unfold State.recordsDone
  simp [*]

theorem execRecordPersisted_keep (seq : BitVec 32) (s : State)
    (h_dict : .dict ∈ W) (h_free : .free ∈ W) (h_security : .security ∈ W) (h_errors : .errors ∈ W) :
    Answers W s (execRecordPersisted seq s) := by
  unfold execRecordPersisted
  simp [*]

@[simp] theorem State.keep_requestResult (s : State) (v : Nat)
    (h_dict : .dict ∈ W) :
    keep W (s.requestResult v) = keep W s := by
  unfold State.requestResult
  simp [*]

@[simp] theorem State.keep_enterState (s : State) (v : Nat)
    (h_free : .free ∈ W) (h_ctxs : .ctxs ∈ W) (h_dict : .dict ∈ W) (h_dies : .dies ∈ W) (h_fabric : .fabric ∈ W) (h_observe : .observe ∈ W) (h_ports : .ports ∈ W) (h_power : .power ∈ W) (h_powerState : .powerState ∈ W) (h_sets : .sets ∈ W) (h_stagings : .stagings ∈ W) :
    keep W (s.enterState v) = keep W s := by
  unfold State.enterState
  simp [*]

@[simp] theorem State.keep_passSteps (s : State)
    (h_dict : .dict ∈ W) :
    keep W s.passSteps = keep W s := by
  unfold State.passSteps
  simp [*]

@[simp] theorem State.keep_stateRequest (s : State) (v : Nat)
    (h_free : .free ∈ W) (h_ctxs : .ctxs ∈ W) (h_dict : .dict ∈ W) (h_dies : .dies ∈ W) (h_fabric : .fabric ∈ W) (h_observe : .observe ∈ W) (h_ports : .ports ∈ W) (h_power : .power ∈ W) (h_powerState : .powerState ∈ W) (h_powerTarget : .powerTarget ∈ W) (h_sets : .sets ∈ W) (h_stagings : .stagings ∈ W) :
    keep W (s.stateRequest v) = keep W s := by
  unfold State.stateRequest
  simp [*]

@[simp] theorem State.keep_belowNow (s : State)
    (h_dict : .dict ∈ W) (h_seqs : .seqs ∈ W) :
    keep W s.belowNow = keep W s := by
  unfold State.belowNow
  refine keep_each _ _ _ fun t a => ?_
  dsimp only
  split <;> simp [*]

@[simp] theorem State.keep_settleClock (s : State) (v : Nat)
    (h_dict : .dict ∈ W) :
    keep W (s.settleClock v) = keep W s := by
  unfold State.settleClock
  simp [*]

@[simp] theorem State.keep_enterP5 (s : State)
    (h_dict : .dict ∈ W) (h_dies : .dies ∈ W) (h_errors : .errors ∈ W) (h_fabric : .fabric ∈ W) (h_free : .free ∈ W) (h_observe : .observe ∈ W) (h_ports : .ports ∈ W) (h_power : .power ∈ W) (h_powerState : .powerState ∈ W) (h_tiers : .tiers ∈ W) :
    keep W (s.enterP5) = keep W s := by
  unfold State.enterP5
  simp [*]

theorem execPowerTransitionDone_keep (s : State)
    (h_ctxs : .ctxs ∈ W) (h_dict : .dict ∈ W) (h_dies : .dies ∈ W) (h_errors : .errors ∈ W) (h_fabric : .fabric ∈ W) (h_free : .free ∈ W) (h_observe : .observe ∈ W) (h_ports : .ports ∈ W) (h_power : .power ∈ W) (h_powerState : .powerState ∈ W) (h_powerTarget : .powerTarget ∈ W) (h_sets : .sets ∈ W) (h_stagings : .stagings ∈ W) (h_tiers : .tiers ∈ W) (h_seqs : .seqs ∈ W) :
    Answers W s (execPowerTransitionDone s) := by
  unfold execPowerTransitionDone
  split <;> simp [*]

theorem execP4EntryComplete_keep (s : State)
    (h_dict : .dict ∈ W) (h_media : .media ∈ W) (h_power : .power ∈ W) (h_powerState : .powerState ∈ W) (h_powerTarget : .powerTarget ∈ W) :
    Answers W s (execP4EntryComplete s) := by
  unfold execP4EntryComplete
  simp [*]

@[simp] theorem State.keep_clockDown (s : State) (floor : Nat)
    (h_dict : .dict ∈ W) :
    keep W (s.clockDown floor) = keep W s := by
  unfold State.clockDown
  simp [*]

@[simp] theorem State.keep_clockUp (s : State)
    (h_dict : .dict ∈ W) (h_power : .power ∈ W) :
    keep W (s.clockUp) = keep W s := by
  unfold State.clockUp
  simp [*]

@[simp] theorem State.keep_throttle (s : State) (avg : Nat)
    (h_dict : .dict ∈ W) (h_power : .power ∈ W) :
    keep W (s.throttle avg) = keep W s := by
  unfold State.throttle
  simp [*]

theorem execPowerSample_keep (milliwatts millivolts : Nat) (s : State)
    (h_dict : .dict ∈ W) (h_power : .power ∈ W) (h_seqs : .seqs ∈ W) :
    Answers W s (execPowerSample milliwatts millivolts s) := by
  unfold execPowerSample
  simp [*]

@[simp] theorem State.keep_throttleRecord (s : State) (row : Nat)
    (h_dict : .dict ∈ W) (h_errors : .errors ∈ W) (h_free : .free ∈ W) (h_observe : .observe ∈ W) (h_power : .power ∈ W) :
    keep W (s.throttleRecord row) = keep W s := by
  unfold State.throttleRecord
  simp [*]

@[simp] theorem State.keep_putTemps (s : State) (t : Temps)
    (h_dict : .dict ∈ W) :
    keep W (s.putTemps t) = keep W s := by
  unfold State.putTemps
  simp [*]

@[simp] theorem State.keep_thermalNow (s : State) (l : List Sensor) (inlet : Int)
    (h_dict : .dict ∈ W) (h_errors : .errors ∈ W) (h_free : .free ∈ W) (h_observe : .observe ∈ W) (h_power : .power ∈ W) :
    keep W (s.thermalNow l inlet) = keep W s := by
  unfold State.thermalNow
  dsimp only
  (repeat' split) <;> simp [*]

@[simp] theorem State.keep_powerOff (s : State) (source : Nat)
    (h_all : Place.All W) :
    keep W (s.powerOff source) = keep W s := by
  have h (t : State) : keep W (t.each heldObjs fun t o => t.put o.1 o.2 (s.obj o.1 o.2)) = keep W t :=
    keep_each _ _ _ fun t o => State.keep_put _ _ _ _ h_all.dict
  unfold State.powerOff
  rw [State.keep_put _ _ _ _ h_all.dict]
  refine (h _).trans ?_
  simp [*]

@[simp] theorem State.keep_askReset (s : State) (source : Nat)
    (h_all : Place.All W) :
    keep W (s.askReset source) = keep W s := by
  unfold State.askReset
  simp [*]

@[simp] theorem State.keep_freeReset (s : State)
    (h_all : Place.All W) :
    keep W s.freeReset = keep W s := by
  unfold State.freeReset
  (repeat' split) <;> simp [*]

@[simp] theorem State.keep_trip (s : State)
    (h_all : Place.All W) :
    keep W (s.trip) = keep W s := by
  unfold State.trip
  simp [*]

theorem execThermalSample_keep (temps : Temps) (s : State)
    (h_all : Place.All W) :
    Answers W s (execThermalSample temps s) := by
  unfold execThermalSample
  simp [*]

@[simp] theorem State.keep_setLimit (s : State) (millijoules : Nat)
    (h_dict : .dict ∈ W) (h_errors : .errors ∈ W) (h_free : .free ∈ W) (h_observe : .observe ∈ W) :
    keep W (s.setLimit millijoules) = keep W s := by
  unfold State.setLimit
  simp [*]

theorem execBankMeasure_keep (microfarads millijoules millivolts : Nat) (s : State)
    (h_dict : .dict ∈ W) (h_errors : .errors ∈ W) (h_free : .free ∈ W) (h_observe : .observe ∈ W) :
    Answers W s (execBankMeasure microfarads millijoules millivolts s) := by
  unfold execBankMeasure
  simp [*]

theorem execBankFull_keep (millijoules : Nat) (s : State)
    (h_dict : .dict ∈ W) (h_errors : .errors ∈ W) (h_free : .free ∈ W) (h_observe : .observe ∈ W) :
    Answers W s (execBankFull millijoules s) := by
  unfold execBankFull
  simp [*]

theorem execPwrfailAssert_keep (s : State)
    (h_security : .security ∈ W) (h_ctxs : .ctxs ∈ W) (h_dict : .dict ∈ W) (h_dies : .dies ∈ W) (h_errors : .errors ∈ W) (h_fabric : .fabric ∈ W) (h_free : .free ∈ W) (h_observe : .observe ∈ W) (h_parts : .parts ∈ W) (h_ports : .ports ∈ W) (h_power : .power ∈ W) (h_seqs : .seqs ∈ W) (h_sets : .sets ∈ W) (h_stage : .stage ∈ W) (h_tiers : .tiers ∈ W) :
    Answers W s (execPwrfailAssert s) := by
  unfold execPwrfailAssert
  simp [*]

theorem execPresentRemoved_keep (s : State)
    (h_security : .security ∈ W) (h_ctxs : .ctxs ∈ W) (h_dict : .dict ∈ W) (h_dies : .dies ∈ W) (h_errors : .errors ∈ W) (h_fabric : .fabric ∈ W) (h_free : .free ∈ W) (h_observe : .observe ∈ W) (h_parts : .parts ∈ W) (h_ports : .ports ∈ W) (h_power : .power ∈ W) (h_seqs : .seqs ∈ W) (h_sets : .sets ∈ W) (h_stage : .stage ∈ W) (h_tiers : .tiers ∈ W) :
    Answers W s (execPresentRemoved s) := by
  unfold execPresentRemoved
  simp [*]

theorem execInputOutOfRange_keep (s : State)
    (h_security : .security ∈ W) (h_ctxs : .ctxs ∈ W) (h_dict : .dict ∈ W) (h_dies : .dies ∈ W) (h_errors : .errors ∈ W) (h_fabric : .fabric ∈ W) (h_free : .free ∈ W) (h_observe : .observe ∈ W) (h_parts : .parts ∈ W) (h_ports : .ports ∈ W) (h_power : .power ∈ W) (h_seqs : .seqs ∈ W) (h_sets : .sets ∈ W) (h_stage : .stage ∈ W) (h_tiers : .tiers ∈ W) :
    Answers W s (execInputOutOfRange s) := by
  unfold execInputOutOfRange
  simp [*]

theorem execFlushComplete_keep (micros : Nat) (s : State)
    (h_errors : .errors ∈ W) (h_free : .free ∈ W) (h_observe : .observe ∈ W) (h_dict : .dict ∈ W) (h_media : .media ∈ W) (h_power : .power ∈ W) :
    Answers W s (execFlushComplete micros s) := by
  unfold execFlushComplete
  simp [*]

theorem execPowerResume_keep (s : State)
    (h_device : .device ∈ W) (h_dict : .dict ∈ W) (h_errors : .errors ∈ W) (h_free : .free ∈ W) (h_observe : .observe ∈ W) (h_power : .power ∈ W) :
    Answers W s (execPowerResume s) := by
  unfold execPowerResume
  simp [*]

theorem execBankExhausted_keep (s : State)
    (h_all : Place.All W) :
    Answers W s (execBankExhausted s) := by
  unfold execBankExhausted
  simp [*]

theorem execResetAssert_keep (s : State)
    (h_all : Place.All W) :
    Answers W s (execResetAssert s) := by
  unfold execResetAssert
  simp [*]

theorem execMgmtWatchdog_keep (s : State)
    (h_all : Place.All W) :
    Answers W s (execMgmtWatchdog s) := by
  unfold execMgmtWatchdog
  simp [*]

theorem execAuxPowerOn_keep (slotId : BitVec 3) (s : State)
    (h_all : Place.All W) :
    Answers W s (execAuxPowerOn slotId s) := by
  unfold execAuxPowerOn
  simp [*]

theorem execAux3v3Loss_keep (s : State)
    (h_all : Place.All W) :
    Answers W s (execAux3v3Loss s) := by
  unfold execAux3v3Loss
  simp [*]

end Sys2Proof.Machine
end

