-- ==== Sys2Proof/Laws/FrameBoundary.lean ====
section
/-! SUPPORT. The frames of the boundary and of the start-up. -/

namespace Sys2Proof.Machine

variable {W : List Place}

@[simp] theorem State.keep_advance (s : State)
    (h_clock : .clock ∈ W) :
    keep W (s.advance) = keep W s := by
  unfold State.advance
  simp [*]

@[simp] theorem State.keep_boundarySource (s : State)
    (h_free : .free ∈ W) (h_dict : .dict ∈ W) (h_observe : .observe ∈ W) :
    keep W (s.boundarySource) = keep W s := by
  unfold State.boundarySource
  simp [*]

@[simp] theorem State.keep_overrunsNow (s : State)
    (h_errors : .errors ∈ W) (h_observe : .observe ∈ W) (h_ctxs : .ctxs ∈ W) (h_dict : .dict ∈ W) (h_dies : .dies ∈ W) (h_fabric : .fabric ∈ W) (h_free : .free ∈ W) (h_seqs : .seqs ∈ W) (h_sets : .sets ∈ W) (h_tiers : .tiers ∈ W) :
    keep W (s.overrunsNow) = keep W s := by
  unfold State.overrunsNow
  refine keep_each _ _ _ fun t a => ?_
  (repeat' split) <;> simp [*]

@[simp] theorem State.keep_ckNow (s : State) (p : Nat)
    (h_dict : .dict ∈ W) :
    keep W (s.ckNow p) = keep W s := by
  unfold State.ckNow
  simp [*]

@[simp] theorem State.keep_govern (s : State)
    (h_errors : .errors ∈ W) (h_observe : .observe ∈ W) (h_dict : .dict ∈ W) (h_free : .free ∈ W) (h_ports : .ports ∈ W) :
    keep W (s.govern) = keep W s := by
  unfold State.govern
  simp [*]

@[simp] theorem State.keep_endWaitingWrites (s : State)
    (h_sets : .sets ∈ W) :
    keep W (s.endWaitingWrites) = keep W s := by
  unfold State.endWaitingWrites
  simp [*]

@[simp] theorem State.keep_readOnlyNow (s : State)
    (h_dict : .dict ∈ W) (h_errors : .errors ∈ W) (h_free : .free ∈ W) (h_media : .media ∈ W) (h_observe : .observe ∈ W) (h_sets : .sets ∈ W) :
    keep W (s.readOnlyNow) = keep W s := by
  unfold State.readOnlyNow
  simp [*]

@[simp] theorem State.keep_createResult (s : State) (n v : Nat)
    (h_dict : .dict ∈ W) :
    keep W (s.createResult n v) = keep W s := by
  unfold State.createResult
  simp [*]

@[simp] theorem State.keep_createSpace (s : State) (n : Nat)
    (h_dict : .dict ∈ W) (h_free : .free ∈ W) (h_media : .media ∈ W) (h_security : .security ∈ W) :
    keep W (s.createSpace n) = keep W s := by
  unfold State.createSpace
  simp [*]

@[simp] theorem State.keep_deleteSpace (s : State) (n : Nat)
    (h_dict : .dict ∈ W) (h_fabric : .fabric ∈ W) (h_free : .free ∈ W) (h_stagings : .stagings ∈ W) (h_vtimes : .vtimes ∈ W) (h_media : .media ∈ W) (h_security : .security ∈ W) (h_sets : .sets ∈ W) :
    keep W (s.deleteSpace n) = keep W s := by
  unfold State.deleteSpace
  simp [*]

@[simp] theorem State.keep_unfreeze (s : State) (x v : Nat)
    (h0 : .port x ∈ W ∨ .ports ∈ W) :
    keep W (s.unfreeze x v) = keep W s := by
  unfold State.unfreeze
  simp [*]

@[simp] theorem State.keep_ackWord (s : State) (x v : Nat)
    (h0 : .port x ∈ W ∨ .ports ∈ W) :
    keep W (s.ackWord x v) = keep W s := by
  unfold State.ackWord
  simp [*]

@[simp] theorem State.keep_runControl (s : State) (c : Ctl)
    (h_errors : .errors ∈ W) (h_vtimes : .vtimes ∈ W) (h_ctxs : .ctxs ∈ W) (h_dict : .dict ∈ W) (h_dies : .dies ∈ W) (h_fabric : .fabric ∈ W) (h_free : .free ∈ W) (h_hold : .hold ∈ W) (h_media : .media ∈ W) (h_observe : .observe ∈ W) (h_parts : .parts ∈ W) (h_ports : .ports ∈ W) (h_power : .power ∈ W) (h_powerState : .powerState ∈ W) (h_powerTarget : .powerTarget ∈ W) (h_security : .security ∈ W) (h_seqs : .seqs ∈ W) (h_sets : .sets ∈ W) (h_stagings : .stagings ∈ W) (h_tiers : .tiers ∈ W) :
    keep W (s.runControl c) = keep W s := by
  unfold State.runControl
  dsimp only
  split
  · simp [*]
  · split
    · split
      · apply State.keep_portControl <;> assumption
      · split
        · exact State.keep_ackWord _ _ _ (.inr h_ports)
        · rfl
    · split
      · exact State.keep_unfreeze _ _ _ (.inr h_ports)
      · (repeat' split) <;> simp [*]

@[simp] theorem State.keep_controlsNow (s : State)
    (h_errors : .errors ∈ W) (h_vtimes : .vtimes ∈ W) (h_ctxs : .ctxs ∈ W) (h_dict : .dict ∈ W) (h_dies : .dies ∈ W) (h_fabric : .fabric ∈ W) (h_free : .free ∈ W) (h_hold : .hold ∈ W) (h_media : .media ∈ W) (h_observe : .observe ∈ W) (h_parts : .parts ∈ W) (h_ports : .ports ∈ W) (h_power : .power ∈ W) (h_powerState : .powerState ∈ W) (h_powerTarget : .powerTarget ∈ W) (h_security : .security ∈ W) (h_seqs : .seqs ∈ W) (h_sets : .sets ∈ W) (h_stagings : .stagings ∈ W) (h_tiers : .tiers ∈ W) :
    keep W (s.controlsNow) = keep W s := by
  unfold State.controlsNow
  simp [*]

@[simp] theorem State.keep_retireBad (s : State)
    (h_dict : .dict ∈ W) (h_errors : .errors ∈ W) (h_free : .free ∈ W) (h_media : .media ∈ W) (h_observe : .observe ∈ W) :
    keep W (s.retireBad) = keep W s := by
  unfold State.retireBad
  simp [*]

@[simp] theorem State.keep_sanitizeNow (s : State)
    (h_fabric : .fabric ∈ W) (h_stagings : .stagings ∈ W) (h_vtimes : .vtimes ∈ W) (h_dict : .dict ∈ W) (h_errors : .errors ∈ W) (h_free : .free ∈ W) (h_media : .media ∈ W) (h_observe : .observe ∈ W) (h_security : .security ∈ W) (h_sets : .sets ∈ W) :
    keep W (s.sanitizeNow) = keep W s := by
  unfold State.sanitizeNow
  (repeat' split) <;> simp [*]

@[simp] theorem State.keep_dropEnded (s : State)
    (h_errors : .errors ∈ W) (h_dict : .dict ∈ W) (h_observe : .observe ∈ W) (h_ctxs : .ctxs ∈ W) (h_dies : .dies ∈ W) (h_fabric : .fabric ∈ W) (h_free : .free ∈ W) (h_seqs : .seqs ∈ W) (h_tiers : .tiers ∈ W) :
    keep W (s.dropEnded) = keep W s := by
  unfold State.dropEnded
  refine keep_each _ _ _ fun t a => ?_
  (repeat' split) <;> simp [*]

@[simp] theorem State.keep_lastPublished (s : State) (k : Nat)
    (h_dict : .dict ∈ W) (h_errors : .errors ∈ W) (h_free : .free ∈ W) (h_observe : .observe ∈ W) (h4 : .tset k ∈ W ∨ .sets ∈ W) :
    keep W (s.lastPublished k) = keep W s := by
  unfold State.lastPublished
  simp [*]

@[simp] theorem State.keep_publishRun (s : State) (k : Nat)
    (h_ctxs : .ctxs ∈ W) (h_dict : .dict ∈ W) (h_errors : .errors ∈ W) (h_free : .free ∈ W) (h_observe : .observe ∈ W) (h5 : .port (keyPort k) ∈ W ∨ .ports ∈ W) (h6 : .tset k ∈ W ∨ .sets ∈ W) :
    keep W (s.publishRun k) = keep W s := by
  unfold State.publishRun
  simp [*]

@[simp] theorem State.keep_flushesNow (s : State)
    (h_sets : .sets ∈ W) :
    keep W (s.flushesNow) = keep W s := by
  unfold State.flushesNow
  simp [*]

@[simp] theorem State.keep_postAll (s : State)
    (h_ctxs : .ctxs ∈ W) (h_ports : .ports ∈ W) (h_sets : .sets ∈ W) :
    keep W (s.postAll) = keep W s := by
  unfold State.postAll
  refine keep_each _ _ _ fun t k => ?_
  dsimp only
  split <;> simp [*]

@[simp] theorem State.keep_freezesNow (s : State)
    (h_ports : .ports ∈ W) :
    keep W (s.freezesNow) = keep W s := by
  unfold State.freezesNow
  simp [*]

@[simp] theorem State.keep_normalNow (s : State)
    (h_device : .device ∈ W) (h_errors : .errors ∈ W) :
    keep W (s.normalNow) = keep W s := by
  unfold State.normalNow
  simp [*]

@[simp] theorem State.keep_wordsNow (s : State) (froze : List Nat)
    (h_errors : .errors ∈ W) (h_ports : .ports ∈ W) (h_power : .power ∈ W) :
    keep W (s.wordsNow froze) = keep W s := by
  unfold State.wordsNow
  simp [*]

@[simp] theorem State.keep_traceMessages (s : State) (p : Nat) (l : List Nat)
    (h_dict : .dict ∈ W) (h_fabric : .fabric ∈ W) (h_free : .free ∈ W) (h_tiers : .tiers ∈ W) :
    keep W (s.traceMessages p l) = keep W s := by
  unfold State.traceMessages
  simp [*]

@[simp] theorem State.keep_traceBoundary (s : State) (p : Nat)
    (h_dict : .dict ∈ W) (h_fabric : .fabric ∈ W) (h_free : .free ∈ W) (h_tiers : .tiers ∈ W) :
    keep W (s.traceBoundary p) = keep W s := by
  unfold State.traceBoundary
  simp [*]

@[simp] theorem State.keep_traceOrigins (s : State) (mask : Nat)
    (h_observe : .observe ∈ W) (h_dict : .dict ∈ W) (h_fabric : .fabric ∈ W) (h_free : .free ∈ W) (h_tiers : .tiers ∈ W) :
    keep W (s.traceOrigins mask) = keep W s := by
  have h (t : State) (p : Nat) : keep W (if (t.part p).committed then
      t.each ((t.squaresOf p).filter (bitOf mask)) (fun s d => s.trace p d 6 0 0 0 0 0) else t) = keep W t := by
    split <;> simp [*]
  unfold State.traceOrigins
  exact (keep_each _ _ _ fun t p => h t p).trans (State.keep_restartClocks _ _ h_observe h_free)

@[simp] theorem State.keep_lapses (s : State)
    (h_observe : .observe ∈ W) (h_dict : .dict ∈ W) (h_fabric : .fabric ∈ W) (h_free : .free ∈ W) (h_hold : .hold ∈ W) (h_power : .power ∈ W) (h_tiers : .tiers ∈ W) :
    keep W (s.lapses) = keep W s := by
  unfold State.lapses
  simp [*]

@[simp] theorem State.keep_mapNow (s : State)
    (h_dict : .dict ∈ W) (h_free : .free ∈ W) (h_media : .media ∈ W) :
    keep W (s.mapNow) = keep W s := by
  unfold State.mapNow
  simp [*]

@[simp] theorem State.keep_publication (s : State)
    (h_guard : .guard ∈ W) (h_vtimes : .vtimes ∈ W) (h_arms : .arms ∈ W) (h_ctxs : .ctxs ∈ W) (h_dict : .dict ∈ W) (h_dies : .dies ∈ W) (h_errors : .errors ∈ W) (h_fabric : .fabric ∈ W) (h_free : .free ∈ W) (h_hold : .hold ∈ W) (h_life : .life ∈ W) (h_media : .media ∈ W) (h_observe : .observe ∈ W) (h_parts : .parts ∈ W) (h_ports : .ports ∈ W) (h_power : .power ∈ W) (h_powerState : .powerState ∈ W) (h_powerTarget : .powerTarget ∈ W) (h_security : .security ∈ W) (h_seqs : .seqs ∈ W) (h_sets : .sets ∈ W) (h_stagings : .stagings ∈ W) (h_tiers : .tiers ∈ W) :
    keep W (s.publication) = keep W s := by
  unfold State.publication
  simp [*]

@[simp] theorem State.keep_completion (s : State)
    (h_ctxs : .ctxs ∈ W) (h_device : .device ∈ W) (h_errors : .errors ∈ W) (h_ports : .ports ∈ W) (h_power : .power ∈ W) (h_sets : .sets ∈ W) :
    keep W (s.completion) = keep W s := by
  unfold State.completion
  simp [*]

@[simp] theorem State.keep_aftermath (s : State)
    (h_all : Place.All W) :
    keep W (s.aftermath) = keep W s := by
  unfold State.aftermath
  dsimp only
  rw [State.keep_resetIfDue _ _ h_all]
  exact (keep_each _ _ _ fun t p => by simp [*]).trans (by simp [*])

@[simp] theorem State.keep_boundary (s : State)
    (h_all : Place.All W) :
    keep W (s.boundary) = keep W s := by
  unfold State.boundary
  simp [*]

theorem execTickBoundary_keep (s : State)
    (h_all : Place.All W) :
    Answers W s (execTickBoundary s) := by
  unfold execTickBoundary
  simp [*]

@[simp] theorem State.keep_startStage (s : State) (n : Nat)
    (h_power : .power ∈ W) (h_stage : .stage ∈ W) :
    keep W (s.startStage n) = keep W s := by
  unfold State.startStage
  simp [*]

@[simp] theorem State.keep_resetRecord (s : State)
    (h_security : .security ∈ W) (h_dict : .dict ∈ W) (h_errors : .errors ∈ W) (h_free : .free ∈ W) (h_observe : .observe ∈ W) :
    keep W (s.resetRecord) = keep W s := by
  unfold State.resetRecord
  simp [*]

@[simp] theorem State.keep_clearTests (s : State)
    (h_guard : .guard ∈ W) (h_dict : .dict ∈ W) :
    keep W (s.clearTests) = keep W s := by
  unfold State.clearTests
  simp [*]

theorem execStartupBegin_keep (s : State)
    (h_guard : .guard ∈ W) (h_dict : .dict ∈ W) (h_errors : .errors ∈ W) (h_free : .free ∈ W) (h_media : .media ∈ W) (h_observe : .observe ∈ W) (h_power : .power ∈ W) (h_powerState : .powerState ∈ W) (h_security : .security ∈ W) (h_stage : .stage ∈ W) :
    Answers W s (execStartupBegin s) := by
  unfold execStartupBegin
  simp [*]

theorem execRailsInRegulation_keep (s : State)
    (h_power : .power ∈ W) (h_stage : .stage ∈ W) :
    Answers W s (execRailsInRegulation s) := by
  unfold execRailsInRegulation
  simp [*]

@[simp] theorem State.keep_returnErases (s : State)
    (h_dict : .dict ∈ W) (h_errors : .errors ∈ W) (h_free : .free ∈ W) (h_media : .media ∈ W) (h_observe : .observe ∈ W) :
    keep W s.returnErases = keep W s := by
  unfold State.returnErases
  split <;> simp [*]

theorem execStackTrainingDone_keep (s : State)
    (h_dict : .dict ∈ W) (h_errors : .errors ∈ W) (h_free : .free ∈ W) (h_media : .media ∈ W) (h_observe : .observe ∈ W) (h_power : .power ∈ W) (h_stage : .stage ∈ W) :
    Answers W s (execStackTrainingDone s) := by
  unfold execStackTrainingDone
  simp [*]

theorem execLaneKatDone_keep (failed : BitVec 48) (s : State)
    (h_dict : .dict ∈ W) (h_errors : .errors ∈ W) (h_free : .free ∈ W) (h_observe : .observe ∈ W) (h_power : .power ∈ W) :
    Answers W s (execLaneKatDone failed s) := by
  unfold execLaneKatDone
  simp [*]

theorem execMemoryCheckersDone_keep (failed : List Checker) (s : State)
    (h_guard : .guard ∈ W) (h_dict : .dict ∈ W) (h_errors : .errors ∈ W) (h_free : .free ∈ W) (h_observe : .observe ∈ W) (h_power : .power ∈ W) :
    Answers W s (execMemoryCheckersDone failed s) := by
  unfold execMemoryCheckersDone
  simp [*]

theorem execTierZeroed_keep (tier : Tier) (s : State)
    (h_dict : .dict ∈ W) (h_power : .power ∈ W) (h_stage : .stage ∈ W) :
    Answers W s (execTierZeroed tier s) := by
  unfold execTierZeroed
  (repeat' split) <;> simp [*]

theorem execMapRebuildDone_keep (s : State)
    (h_power : .power ∈ W) :
    Answers W s (execMapRebuildDone s) := by
  unfold execMapRebuildDone
  simp [*]

theorem execReturnErasureDone_keep (s : State)
    (h_guard : .guard ∈ W) (h_dict : .dict ∈ W) (h_errors : .errors ∈ W) (h_free : .free ∈ W) (h_media : .media ∈ W) (h_observe : .observe ∈ W) (h_security : .security ∈ W) :
    Answers W s (execReturnErasureDone s) := by
  unfold execReturnErasureDone
  simp [*]

@[simp] theorem State.keep_raiseFloor (s : State)
    (h_dict : .dict ∈ W) (h_errors : .errors ∈ W) (h_free : .free ∈ W) (h_observe : .observe ∈ W) (h_security : .security ∈ W) :
    keep W (s.raiseFloor) = keep W s := by
  unfold State.raiseFloor
  simp [*]

@[simp] theorem State.keep_keepTests (s : State)
    (h_dict : .dict ∈ W) (h_errors : .errors ∈ W) (h_free : .free ∈ W) (h_security : .security ∈ W) : keep W (s.keepTests) = keep W s := by
  unfold State.keepTests
  simp [*]

@[simp] theorem State.keep_copyRegion (s : State)
    (h_dict : .dict ∈ W) (h_security : .security ∈ W) :
    keep W (s.copyRegion) = keep W s := by
  unfold State.copyRegion
  simp [*]

theorem execReady_keep (micros : Nat) (s : State)
    (h_all : Place.All W) :
    Answers W s (execReady micros s) := by
  unfold execReady
  simp [*]

end Sys2Proof.Machine
end

