-- ==== Sys2Proof/Laws/Fields.lean ====
section
/-! SUPPORT. The fields that the shared operations leave alone, one lemma for each, so that a field read after a reply, a
freeze, a completion record or an error record needs no look into them. -/

namespace Sys2Proof.Machine

@[simp] theorem State.heard_clock (s : State) (x n c : Nat) : (s.heard x n c).clock = s.clock :=
  changes_of_keep (W := [.ports]) (by simp) .clock (by simp) (by simp [Place.table])

@[simp] theorem State.heard_fabric (s : State) (x n c : Nat) : (s.heard x n c).fabric = s.fabric :=
  changes_of_keep (W := [.ports]) (by simp) .fabric (by simp) (by simp [Place.table])

@[simp] theorem State.heard_dict (s : State) (x n c : Nat) : (s.heard x n c).dict = s.dict :=
  changes_of_keep (W := [.ports]) (by simp) .dict (by simp) (by simp [Place.table])

@[simp] theorem State.heard_vtimes (s : State) (x n c : Nat) : (s.heard x n c).vtimes = s.vtimes :=
  changes_of_keep (W := [.ports]) (by simp) .vtimes (by simp) (by simp [Place.table])

@[simp] theorem State.heard_orders (s : State) (x n c : Nat) : (s.heard x n c).orders = s.orders :=
  changes_of_keep (W := [.ports]) (by simp) .orders (by simp) (by simp [Place.table])

@[simp] theorem State.heard_stagings (s : State) (x n c : Nat) : (s.heard x n c).stagings = s.stagings :=
  changes_of_keep (W := [.ports]) (by simp) .stagings (by simp) (by simp [Place.table])

@[simp] theorem State.heard_arms (s : State) (x n c : Nat) : (s.heard x n c).arms = s.arms :=
  changes_of_keep (W := [.ports]) (by simp) .arms (by simp) (by simp [Place.table])

@[simp] theorem State.heard_media (s : State) (x n c : Nat) : (s.heard x n c).media = s.media :=
  changes_of_keep (W := [.ports]) (by simp) .media (by simp) (by simp [Place.table])

@[simp] theorem State.heard_errors (s : State) (x n c : Nat) : (s.heard x n c).errors = s.errors :=
  changes_of_keep (W := [.ports]) (by simp) .errors (by simp) (by simp [Place.table])

@[simp] theorem State.heard_guard (s : State) (x n c : Nat) : (s.heard x n c).guard = s.guard :=
  changes_of_keep (W := [.ports]) (by simp) .guard (by simp) (by simp [Place.table])

@[simp] theorem State.heard_power (s : State) (x n c : Nat) : (s.heard x n c).power = s.power :=
  changes_of_keep (W := [.ports]) (by simp) .power (by simp) (by simp [Place.table])

@[simp] theorem State.heard_security (s : State) (x n c : Nat) : (s.heard x n c).security = s.security :=
  changes_of_keep (W := [.ports]) (by simp) .security (by simp) (by simp [Place.table])

@[simp] theorem State.heard_observe (s : State) (x n c : Nat) : (s.heard x n c).observe = s.observe :=
  changes_of_keep (W := [.ports]) (by simp) .observe (by simp) (by simp [Place.table])

@[simp] theorem State.heard_hold (s : State) (x n c : Nat) : (s.heard x n c).hold = s.hold :=
  changes_of_keep (W := [.ports]) (by simp) .hold (by simp) (by simp [Place.table])

@[simp] theorem State.heard_free (s : State) (x n c : Nat) : (s.heard x n c).free = s.free :=
  changes_of_keep (W := [.ports]) (by simp) .free (by simp) (by simp [Place.table])

@[simp] theorem State.heard_pending (s : State) (x n c : Nat) : (s.heard x n c).pending = s.pending :=
  changes_of_keep (W := [.ports]) (by simp) .pending (by simp) (by simp [Place.table])

@[simp] theorem State.part_heard (s : State) (x n c : Nat) (p' : Nat) : (s.heard x n c).part p' = s.part p' :=
  changes_of_keep (W := [.ports]) (by simp) (.part p') (by simp) (by simp [Place.table])

@[simp] theorem State.seq_heard (s : State) (x n c : Nat) (p' : Nat) : (s.heard x n c).seq p' = s.seq p' :=
  changes_of_keep (W := [.ports]) (by simp) (.seq p') (by simp) (by simp [Place.table])

@[simp] theorem State.tset_heard (s : State) (x n c : Nat) (p' : Nat) : (s.heard x n c).tset p' = s.tset p' :=
  changes_of_keep (W := [.ports]) (by simp) (.tset p') (by simp) (by simp [Place.table])

@[simp] theorem State.ctx_heard (s : State) (x n c : Nat) (p' n' : Nat) : (s.heard x n c).ctx p' n' = s.ctx p' n' :=
  changes_of_keep (W := [.ports]) (by simp) (.ctx (p' * 16 + n')) (by simp) (by simp [Place.table])

@[simp] theorem State.obj_heard (s : State) (x n c : Nat) (i' j' : Nat) : (s.heard x n c).obj i' j' = s.obj i' j' := by
  simp [State.obj, objDefault]

@[simp] theorem State.gov_heard (s : State) (x n c : Nat) (i' j' : Nat) : (s.heard x n c).gov i' j' = s.gov i' j' := by
  simp [State.gov, objDefault]

@[simp] theorem State.dom_heard (s : State) (x n c : Nat) (i' j' : Nat) : (s.heard x n c).dom i' j' = s.dom i' j' := by
  simp [State.dom]

@[simp] theorem State.govDom_heard (s : State) (x n c : Nat) (i' j' : Nat) : (s.heard x n c).govDom i' j' = s.govDom i' j' := by
  simp [State.govDom]

@[simp] theorem State.nodeId_heard (s : State) (x n c : Nat) : (s.heard x n c).nodeId = s.nodeId := by
  simp [State.nodeId]

@[simp] theorem State.send_clock (s : State) (x : Nat) (d : Bool) (n : Nat) (f : Sent) : (s.send x d n f).clock = s.clock :=
  changes_of_keep (W := [.ports]) (by simp) .clock (by simp) (by simp [Place.table])

@[simp] theorem State.send_fabric (s : State) (x : Nat) (d : Bool) (n : Nat) (f : Sent) : (s.send x d n f).fabric = s.fabric :=
  changes_of_keep (W := [.ports]) (by simp) .fabric (by simp) (by simp [Place.table])

@[simp] theorem State.send_dict (s : State) (x : Nat) (d : Bool) (n : Nat) (f : Sent) : (s.send x d n f).dict = s.dict :=
  changes_of_keep (W := [.ports]) (by simp) .dict (by simp) (by simp [Place.table])

@[simp] theorem State.send_vtimes (s : State) (x : Nat) (d : Bool) (n : Nat) (f : Sent) : (s.send x d n f).vtimes = s.vtimes :=
  changes_of_keep (W := [.ports]) (by simp) .vtimes (by simp) (by simp [Place.table])

@[simp] theorem State.send_orders (s : State) (x : Nat) (d : Bool) (n : Nat) (f : Sent) : (s.send x d n f).orders = s.orders :=
  changes_of_keep (W := [.ports]) (by simp) .orders (by simp) (by simp [Place.table])

@[simp] theorem State.send_stagings (s : State) (x : Nat) (d : Bool) (n : Nat) (f : Sent) : (s.send x d n f).stagings = s.stagings :=
  changes_of_keep (W := [.ports]) (by simp) .stagings (by simp) (by simp [Place.table])

@[simp] theorem State.send_arms (s : State) (x : Nat) (d : Bool) (n : Nat) (f : Sent) : (s.send x d n f).arms = s.arms :=
  changes_of_keep (W := [.ports]) (by simp) .arms (by simp) (by simp [Place.table])

@[simp] theorem State.send_media (s : State) (x : Nat) (d : Bool) (n : Nat) (f : Sent) : (s.send x d n f).media = s.media :=
  changes_of_keep (W := [.ports]) (by simp) .media (by simp) (by simp [Place.table])

@[simp] theorem State.send_errors (s : State) (x : Nat) (d : Bool) (n : Nat) (f : Sent) : (s.send x d n f).errors = s.errors :=
  changes_of_keep (W := [.ports]) (by simp) .errors (by simp) (by simp [Place.table])

@[simp] theorem State.send_guard (s : State) (x : Nat) (d : Bool) (n : Nat) (f : Sent) : (s.send x d n f).guard = s.guard :=
  changes_of_keep (W := [.ports]) (by simp) .guard (by simp) (by simp [Place.table])

@[simp] theorem State.send_power (s : State) (x : Nat) (d : Bool) (n : Nat) (f : Sent) : (s.send x d n f).power = s.power :=
  changes_of_keep (W := [.ports]) (by simp) .power (by simp) (by simp [Place.table])

@[simp] theorem State.send_security (s : State) (x : Nat) (d : Bool) (n : Nat) (f : Sent) : (s.send x d n f).security = s.security :=
  changes_of_keep (W := [.ports]) (by simp) .security (by simp) (by simp [Place.table])

@[simp] theorem State.send_observe (s : State) (x : Nat) (d : Bool) (n : Nat) (f : Sent) : (s.send x d n f).observe = s.observe :=
  changes_of_keep (W := [.ports]) (by simp) .observe (by simp) (by simp [Place.table])

@[simp] theorem State.send_hold (s : State) (x : Nat) (d : Bool) (n : Nat) (f : Sent) : (s.send x d n f).hold = s.hold :=
  changes_of_keep (W := [.ports]) (by simp) .hold (by simp) (by simp [Place.table])

@[simp] theorem State.send_free (s : State) (x : Nat) (d : Bool) (n : Nat) (f : Sent) : (s.send x d n f).free = s.free :=
  changes_of_keep (W := [.ports]) (by simp) .free (by simp) (by simp [Place.table])

@[simp] theorem State.send_pending (s : State) (x : Nat) (d : Bool) (n : Nat) (f : Sent) : (s.send x d n f).pending = s.pending :=
  changes_of_keep (W := [.ports]) (by simp) .pending (by simp) (by simp [Place.table])

@[simp] theorem State.part_send (s : State) (x : Nat) (d : Bool) (n : Nat) (f : Sent) (p' : Nat) : (s.send x d n f).part p' = s.part p' :=
  changes_of_keep (W := [.ports]) (by simp) (.part p') (by simp) (by simp [Place.table])

@[simp] theorem State.seq_send (s : State) (x : Nat) (d : Bool) (n : Nat) (f : Sent) (p' : Nat) : (s.send x d n f).seq p' = s.seq p' :=
  changes_of_keep (W := [.ports]) (by simp) (.seq p') (by simp) (by simp [Place.table])

@[simp] theorem State.tset_send (s : State) (x : Nat) (d : Bool) (n : Nat) (f : Sent) (p' : Nat) : (s.send x d n f).tset p' = s.tset p' :=
  changes_of_keep (W := [.ports]) (by simp) (.tset p') (by simp) (by simp [Place.table])

@[simp] theorem State.ctx_send (s : State) (x : Nat) (d : Bool) (n : Nat) (f : Sent) (p' n' : Nat) : (s.send x d n f).ctx p' n' = s.ctx p' n' :=
  changes_of_keep (W := [.ports]) (by simp) (.ctx (p' * 16 + n')) (by simp) (by simp [Place.table])

@[simp] theorem State.obj_send (s : State) (x : Nat) (d : Bool) (n : Nat) (f : Sent) (i' j' : Nat) : (s.send x d n f).obj i' j' = s.obj i' j' := by
  simp [State.obj, objDefault]

@[simp] theorem State.gov_send (s : State) (x : Nat) (d : Bool) (n : Nat) (f : Sent) (i' j' : Nat) : (s.send x d n f).gov i' j' = s.gov i' j' := by
  simp [State.gov, objDefault]

@[simp] theorem State.dom_send (s : State) (x : Nat) (d : Bool) (n : Nat) (f : Sent) (i' j' : Nat) : (s.send x d n f).dom i' j' = s.dom i' j' := by
  simp [State.dom]

@[simp] theorem State.govDom_send (s : State) (x : Nat) (d : Bool) (n : Nat) (f : Sent) (i' j' : Nat) : (s.send x d n f).govDom i' j' = s.govDom i' j' := by
  simp [State.govDom]

@[simp] theorem State.nodeId_send (s : State) (x : Nat) (d : Bool) (n : Nat) (f : Sent) : (s.send x d n f).nodeId = s.nodeId := by
  simp [State.nodeId]

@[simp] theorem State.reply_clock (s : State) (r : Req) (ty st a : Nat) (pl : Bytes) : (s.reply r ty st a pl).clock = s.clock :=
  changes_of_keep (W := [.ports]) (by simp) .clock (by simp) (by simp [Place.table])

@[simp] theorem State.reply_fabric (s : State) (r : Req) (ty st a : Nat) (pl : Bytes) : (s.reply r ty st a pl).fabric = s.fabric :=
  changes_of_keep (W := [.ports]) (by simp) .fabric (by simp) (by simp [Place.table])

@[simp] theorem State.reply_dict (s : State) (r : Req) (ty st a : Nat) (pl : Bytes) : (s.reply r ty st a pl).dict = s.dict :=
  changes_of_keep (W := [.ports]) (by simp) .dict (by simp) (by simp [Place.table])

@[simp] theorem State.reply_vtimes (s : State) (r : Req) (ty st a : Nat) (pl : Bytes) : (s.reply r ty st a pl).vtimes = s.vtimes :=
  changes_of_keep (W := [.ports]) (by simp) .vtimes (by simp) (by simp [Place.table])

@[simp] theorem State.reply_orders (s : State) (r : Req) (ty st a : Nat) (pl : Bytes) : (s.reply r ty st a pl).orders = s.orders :=
  changes_of_keep (W := [.ports]) (by simp) .orders (by simp) (by simp [Place.table])

@[simp] theorem State.reply_stagings (s : State) (r : Req) (ty st a : Nat) (pl : Bytes) : (s.reply r ty st a pl).stagings = s.stagings :=
  changes_of_keep (W := [.ports]) (by simp) .stagings (by simp) (by simp [Place.table])

@[simp] theorem State.reply_arms (s : State) (r : Req) (ty st a : Nat) (pl : Bytes) : (s.reply r ty st a pl).arms = s.arms :=
  changes_of_keep (W := [.ports]) (by simp) .arms (by simp) (by simp [Place.table])

@[simp] theorem State.reply_media (s : State) (r : Req) (ty st a : Nat) (pl : Bytes) : (s.reply r ty st a pl).media = s.media :=
  changes_of_keep (W := [.ports]) (by simp) .media (by simp) (by simp [Place.table])

@[simp] theorem State.reply_errors (s : State) (r : Req) (ty st a : Nat) (pl : Bytes) : (s.reply r ty st a pl).errors = s.errors :=
  changes_of_keep (W := [.ports]) (by simp) .errors (by simp) (by simp [Place.table])

@[simp] theorem State.reply_guard (s : State) (r : Req) (ty st a : Nat) (pl : Bytes) : (s.reply r ty st a pl).guard = s.guard :=
  changes_of_keep (W := [.ports]) (by simp) .guard (by simp) (by simp [Place.table])

@[simp] theorem State.reply_power (s : State) (r : Req) (ty st a : Nat) (pl : Bytes) : (s.reply r ty st a pl).power = s.power :=
  changes_of_keep (W := [.ports]) (by simp) .power (by simp) (by simp [Place.table])

@[simp] theorem State.reply_security (s : State) (r : Req) (ty st a : Nat) (pl : Bytes) : (s.reply r ty st a pl).security = s.security :=
  changes_of_keep (W := [.ports]) (by simp) .security (by simp) (by simp [Place.table])

@[simp] theorem State.reply_observe (s : State) (r : Req) (ty st a : Nat) (pl : Bytes) : (s.reply r ty st a pl).observe = s.observe :=
  changes_of_keep (W := [.ports]) (by simp) .observe (by simp) (by simp [Place.table])

@[simp] theorem State.reply_hold (s : State) (r : Req) (ty st a : Nat) (pl : Bytes) : (s.reply r ty st a pl).hold = s.hold :=
  changes_of_keep (W := [.ports]) (by simp) .hold (by simp) (by simp [Place.table])

@[simp] theorem State.reply_free (s : State) (r : Req) (ty st a : Nat) (pl : Bytes) : (s.reply r ty st a pl).free = s.free :=
  changes_of_keep (W := [.ports]) (by simp) .free (by simp) (by simp [Place.table])

@[simp] theorem State.reply_pending (s : State) (r : Req) (ty st a : Nat) (pl : Bytes) : (s.reply r ty st a pl).pending = s.pending :=
  changes_of_keep (W := [.ports]) (by simp) .pending (by simp) (by simp [Place.table])

@[simp] theorem State.part_reply (s : State) (r : Req) (ty st a : Nat) (pl : Bytes) (p' : Nat) : (s.reply r ty st a pl).part p' = s.part p' :=
  changes_of_keep (W := [.ports]) (by simp) (.part p') (by simp) (by simp [Place.table])

@[simp] theorem State.seq_reply (s : State) (r : Req) (ty st a : Nat) (pl : Bytes) (p' : Nat) : (s.reply r ty st a pl).seq p' = s.seq p' :=
  changes_of_keep (W := [.ports]) (by simp) (.seq p') (by simp) (by simp [Place.table])

@[simp] theorem State.tset_reply (s : State) (r : Req) (ty st a : Nat) (pl : Bytes) (p' : Nat) : (s.reply r ty st a pl).tset p' = s.tset p' :=
  changes_of_keep (W := [.ports]) (by simp) (.tset p') (by simp) (by simp [Place.table])

@[simp] theorem State.ctx_reply (s : State) (r : Req) (ty st a : Nat) (pl : Bytes) (p' n' : Nat) : (s.reply r ty st a pl).ctx p' n' = s.ctx p' n' :=
  changes_of_keep (W := [.ports]) (by simp) (.ctx (p' * 16 + n')) (by simp) (by simp [Place.table])

@[simp] theorem State.obj_reply (s : State) (r : Req) (ty st a : Nat) (pl : Bytes) (i' j' : Nat) : (s.reply r ty st a pl).obj i' j' = s.obj i' j' := by
  simp [State.obj, objDefault]

@[simp] theorem State.gov_reply (s : State) (r : Req) (ty st a : Nat) (pl : Bytes) (i' j' : Nat) : (s.reply r ty st a pl).gov i' j' = s.gov i' j' := by
  simp [State.gov, objDefault]

@[simp] theorem State.dom_reply (s : State) (r : Req) (ty st a : Nat) (pl : Bytes) (i' j' : Nat) : (s.reply r ty st a pl).dom i' j' = s.dom i' j' := by
  simp [State.dom]

@[simp] theorem State.govDom_reply (s : State) (r : Req) (ty st a : Nat) (pl : Bytes) (i' j' : Nat) : (s.reply r ty st a pl).govDom i' j' = s.govDom i' j' := by
  simp [State.govDom]

@[simp] theorem State.nodeId_reply (s : State) (r : Req) (ty st a : Nat) (pl : Bytes) : (s.reply r ty st a pl).nodeId = s.nodeId := by
  simp [State.nodeId]

@[simp] theorem State.freezeDue_clock (s : State) (x : Nat) (b : BitVec 10) : (s.freezeDue x b).clock = s.clock :=
  changes_of_keep (W := [.ports]) (by simp) .clock (by simp) (by simp [Place.table])

@[simp] theorem State.freezeDue_fabric (s : State) (x : Nat) (b : BitVec 10) : (s.freezeDue x b).fabric = s.fabric :=
  changes_of_keep (W := [.ports]) (by simp) .fabric (by simp) (by simp [Place.table])

@[simp] theorem State.freezeDue_dict (s : State) (x : Nat) (b : BitVec 10) : (s.freezeDue x b).dict = s.dict :=
  changes_of_keep (W := [.ports]) (by simp) .dict (by simp) (by simp [Place.table])

@[simp] theorem State.freezeDue_vtimes (s : State) (x : Nat) (b : BitVec 10) : (s.freezeDue x b).vtimes = s.vtimes :=
  changes_of_keep (W := [.ports]) (by simp) .vtimes (by simp) (by simp [Place.table])

@[simp] theorem State.freezeDue_orders (s : State) (x : Nat) (b : BitVec 10) : (s.freezeDue x b).orders = s.orders :=
  changes_of_keep (W := [.ports]) (by simp) .orders (by simp) (by simp [Place.table])

@[simp] theorem State.freezeDue_stagings (s : State) (x : Nat) (b : BitVec 10) : (s.freezeDue x b).stagings = s.stagings :=
  changes_of_keep (W := [.ports]) (by simp) .stagings (by simp) (by simp [Place.table])

@[simp] theorem State.freezeDue_arms (s : State) (x : Nat) (b : BitVec 10) : (s.freezeDue x b).arms = s.arms :=
  changes_of_keep (W := [.ports]) (by simp) .arms (by simp) (by simp [Place.table])

@[simp] theorem State.freezeDue_media (s : State) (x : Nat) (b : BitVec 10) : (s.freezeDue x b).media = s.media :=
  changes_of_keep (W := [.ports]) (by simp) .media (by simp) (by simp [Place.table])

@[simp] theorem State.freezeDue_errors (s : State) (x : Nat) (b : BitVec 10) : (s.freezeDue x b).errors = s.errors :=
  changes_of_keep (W := [.ports]) (by simp) .errors (by simp) (by simp [Place.table])

@[simp] theorem State.freezeDue_guard (s : State) (x : Nat) (b : BitVec 10) : (s.freezeDue x b).guard = s.guard :=
  changes_of_keep (W := [.ports]) (by simp) .guard (by simp) (by simp [Place.table])

@[simp] theorem State.freezeDue_power (s : State) (x : Nat) (b : BitVec 10) : (s.freezeDue x b).power = s.power :=
  changes_of_keep (W := [.ports]) (by simp) .power (by simp) (by simp [Place.table])

@[simp] theorem State.freezeDue_security (s : State) (x : Nat) (b : BitVec 10) : (s.freezeDue x b).security = s.security :=
  changes_of_keep (W := [.ports]) (by simp) .security (by simp) (by simp [Place.table])

@[simp] theorem State.freezeDue_observe (s : State) (x : Nat) (b : BitVec 10) : (s.freezeDue x b).observe = s.observe :=
  changes_of_keep (W := [.ports]) (by simp) .observe (by simp) (by simp [Place.table])

@[simp] theorem State.freezeDue_hold (s : State) (x : Nat) (b : BitVec 10) : (s.freezeDue x b).hold = s.hold :=
  changes_of_keep (W := [.ports]) (by simp) .hold (by simp) (by simp [Place.table])

@[simp] theorem State.freezeDue_free (s : State) (x : Nat) (b : BitVec 10) : (s.freezeDue x b).free = s.free :=
  changes_of_keep (W := [.ports]) (by simp) .free (by simp) (by simp [Place.table])

@[simp] theorem State.freezeDue_pending (s : State) (x : Nat) (b : BitVec 10) : (s.freezeDue x b).pending = s.pending :=
  changes_of_keep (W := [.ports]) (by simp) .pending (by simp) (by simp [Place.table])

@[simp] theorem State.part_freezeDue (s : State) (x : Nat) (b : BitVec 10) (p' : Nat) : (s.freezeDue x b).part p' = s.part p' :=
  changes_of_keep (W := [.ports]) (by simp) (.part p') (by simp) (by simp [Place.table])

@[simp] theorem State.seq_freezeDue (s : State) (x : Nat) (b : BitVec 10) (p' : Nat) : (s.freezeDue x b).seq p' = s.seq p' :=
  changes_of_keep (W := [.ports]) (by simp) (.seq p') (by simp) (by simp [Place.table])

@[simp] theorem State.tset_freezeDue (s : State) (x : Nat) (b : BitVec 10) (p' : Nat) : (s.freezeDue x b).tset p' = s.tset p' :=
  changes_of_keep (W := [.ports]) (by simp) (.tset p') (by simp) (by simp [Place.table])

@[simp] theorem State.ctx_freezeDue (s : State) (x : Nat) (b : BitVec 10) (p' n' : Nat) : (s.freezeDue x b).ctx p' n' = s.ctx p' n' :=
  changes_of_keep (W := [.ports]) (by simp) (.ctx (p' * 16 + n')) (by simp) (by simp [Place.table])

@[simp] theorem State.obj_freezeDue (s : State) (x : Nat) (b : BitVec 10) (i' j' : Nat) : (s.freezeDue x b).obj i' j' = s.obj i' j' := by
  simp [State.obj, objDefault]

@[simp] theorem State.gov_freezeDue (s : State) (x : Nat) (b : BitVec 10) (i' j' : Nat) : (s.freezeDue x b).gov i' j' = s.gov i' j' := by
  simp [State.gov, objDefault]

@[simp] theorem State.dom_freezeDue (s : State) (x : Nat) (b : BitVec 10) (i' j' : Nat) : (s.freezeDue x b).dom i' j' = s.dom i' j' := by
  simp [State.dom]

@[simp] theorem State.govDom_freezeDue (s : State) (x : Nat) (b : BitVec 10) (i' j' : Nat) : (s.freezeDue x b).govDom i' j' = s.govDom i' j' := by
  simp [State.govDom]

@[simp] theorem State.nodeId_freezeDue (s : State) (x : Nat) (b : BitVec 10) : (s.freezeDue x b).nodeId = s.nodeId := by
  simp [State.nodeId]

@[simp] theorem State.ringDoorbell_clock (s : State) (k : Nat) : (s.ringDoorbell k).clock = s.clock :=
  changes_of_keep (W := [.ports]) (by simp) .clock (by simp) (by simp [Place.table])

@[simp] theorem State.ringDoorbell_fabric (s : State) (k : Nat) : (s.ringDoorbell k).fabric = s.fabric :=
  changes_of_keep (W := [.ports]) (by simp) .fabric (by simp) (by simp [Place.table])

@[simp] theorem State.ringDoorbell_dict (s : State) (k : Nat) : (s.ringDoorbell k).dict = s.dict :=
  changes_of_keep (W := [.ports]) (by simp) .dict (by simp) (by simp [Place.table])

@[simp] theorem State.ringDoorbell_vtimes (s : State) (k : Nat) : (s.ringDoorbell k).vtimes = s.vtimes :=
  changes_of_keep (W := [.ports]) (by simp) .vtimes (by simp) (by simp [Place.table])

@[simp] theorem State.ringDoorbell_orders (s : State) (k : Nat) : (s.ringDoorbell k).orders = s.orders :=
  changes_of_keep (W := [.ports]) (by simp) .orders (by simp) (by simp [Place.table])

@[simp] theorem State.ringDoorbell_stagings (s : State) (k : Nat) : (s.ringDoorbell k).stagings = s.stagings :=
  changes_of_keep (W := [.ports]) (by simp) .stagings (by simp) (by simp [Place.table])

@[simp] theorem State.ringDoorbell_arms (s : State) (k : Nat) : (s.ringDoorbell k).arms = s.arms :=
  changes_of_keep (W := [.ports]) (by simp) .arms (by simp) (by simp [Place.table])

@[simp] theorem State.ringDoorbell_media (s : State) (k : Nat) : (s.ringDoorbell k).media = s.media :=
  changes_of_keep (W := [.ports]) (by simp) .media (by simp) (by simp [Place.table])

@[simp] theorem State.ringDoorbell_errors (s : State) (k : Nat) : (s.ringDoorbell k).errors = s.errors :=
  changes_of_keep (W := [.ports]) (by simp) .errors (by simp) (by simp [Place.table])

@[simp] theorem State.ringDoorbell_guard (s : State) (k : Nat) : (s.ringDoorbell k).guard = s.guard :=
  changes_of_keep (W := [.ports]) (by simp) .guard (by simp) (by simp [Place.table])

@[simp] theorem State.ringDoorbell_power (s : State) (k : Nat) : (s.ringDoorbell k).power = s.power :=
  changes_of_keep (W := [.ports]) (by simp) .power (by simp) (by simp [Place.table])

@[simp] theorem State.ringDoorbell_security (s : State) (k : Nat) : (s.ringDoorbell k).security = s.security :=
  changes_of_keep (W := [.ports]) (by simp) .security (by simp) (by simp [Place.table])

@[simp] theorem State.ringDoorbell_observe (s : State) (k : Nat) : (s.ringDoorbell k).observe = s.observe :=
  changes_of_keep (W := [.ports]) (by simp) .observe (by simp) (by simp [Place.table])

@[simp] theorem State.ringDoorbell_hold (s : State) (k : Nat) : (s.ringDoorbell k).hold = s.hold :=
  changes_of_keep (W := [.ports]) (by simp) .hold (by simp) (by simp [Place.table])

@[simp] theorem State.ringDoorbell_free (s : State) (k : Nat) : (s.ringDoorbell k).free = s.free :=
  changes_of_keep (W := [.ports]) (by simp) .free (by simp) (by simp [Place.table])

@[simp] theorem State.ringDoorbell_pending (s : State) (k : Nat) : (s.ringDoorbell k).pending = s.pending :=
  changes_of_keep (W := [.ports]) (by simp) .pending (by simp) (by simp [Place.table])

@[simp] theorem State.part_ringDoorbell (s : State) (k : Nat) (p' : Nat) : (s.ringDoorbell k).part p' = s.part p' :=
  changes_of_keep (W := [.ports]) (by simp) (.part p') (by simp) (by simp [Place.table])

@[simp] theorem State.seq_ringDoorbell (s : State) (k : Nat) (p' : Nat) : (s.ringDoorbell k).seq p' = s.seq p' :=
  changes_of_keep (W := [.ports]) (by simp) (.seq p') (by simp) (by simp [Place.table])

@[simp] theorem State.tset_ringDoorbell (s : State) (k : Nat) (p' : Nat) : (s.ringDoorbell k).tset p' = s.tset p' :=
  changes_of_keep (W := [.ports]) (by simp) (.tset p') (by simp) (by simp [Place.table])

@[simp] theorem State.ctx_ringDoorbell (s : State) (k : Nat) (p' n' : Nat) : (s.ringDoorbell k).ctx p' n' = s.ctx p' n' :=
  changes_of_keep (W := [.ports]) (by simp) (.ctx (p' * 16 + n')) (by simp) (by simp [Place.table])

@[simp] theorem State.obj_ringDoorbell (s : State) (k : Nat) (i' j' : Nat) : (s.ringDoorbell k).obj i' j' = s.obj i' j' := by
  simp [State.obj, objDefault]

@[simp] theorem State.gov_ringDoorbell (s : State) (k : Nat) (i' j' : Nat) : (s.ringDoorbell k).gov i' j' = s.gov i' j' := by
  simp [State.gov, objDefault]

@[simp] theorem State.dom_ringDoorbell (s : State) (k : Nat) (i' j' : Nat) : (s.ringDoorbell k).dom i' j' = s.dom i' j' := by
  simp [State.dom]

@[simp] theorem State.govDom_ringDoorbell (s : State) (k : Nat) (i' j' : Nat) : (s.ringDoorbell k).govDom i' j' = s.govDom i' j' := by
  simp [State.govDom]

@[simp] theorem State.nodeId_ringDoorbell (s : State) (k : Nat) : (s.ringDoorbell k).nodeId = s.nodeId := by
  simp [State.nodeId]

@[simp] theorem State.postLater_clock (s : State) (k a b c : Nat) : (s.postLater k a b c).clock = s.clock :=
  changes_of_keep (W := [.sets]) (by simp) .clock (by simp) (by simp [Place.table])

@[simp] theorem State.postLater_fabric (s : State) (k a b c : Nat) : (s.postLater k a b c).fabric = s.fabric :=
  changes_of_keep (W := [.sets]) (by simp) .fabric (by simp) (by simp [Place.table])

@[simp] theorem State.postLater_dict (s : State) (k a b c : Nat) : (s.postLater k a b c).dict = s.dict :=
  changes_of_keep (W := [.sets]) (by simp) .dict (by simp) (by simp [Place.table])

@[simp] theorem State.postLater_vtimes (s : State) (k a b c : Nat) : (s.postLater k a b c).vtimes = s.vtimes :=
  changes_of_keep (W := [.sets]) (by simp) .vtimes (by simp) (by simp [Place.table])

@[simp] theorem State.postLater_orders (s : State) (k a b c : Nat) : (s.postLater k a b c).orders = s.orders :=
  changes_of_keep (W := [.sets]) (by simp) .orders (by simp) (by simp [Place.table])

@[simp] theorem State.postLater_stagings (s : State) (k a b c : Nat) : (s.postLater k a b c).stagings = s.stagings :=
  changes_of_keep (W := [.sets]) (by simp) .stagings (by simp) (by simp [Place.table])

@[simp] theorem State.postLater_arms (s : State) (k a b c : Nat) : (s.postLater k a b c).arms = s.arms :=
  changes_of_keep (W := [.sets]) (by simp) .arms (by simp) (by simp [Place.table])

@[simp] theorem State.postLater_media (s : State) (k a b c : Nat) : (s.postLater k a b c).media = s.media :=
  changes_of_keep (W := [.sets]) (by simp) .media (by simp) (by simp [Place.table])

@[simp] theorem State.postLater_errors (s : State) (k a b c : Nat) : (s.postLater k a b c).errors = s.errors :=
  changes_of_keep (W := [.sets]) (by simp) .errors (by simp) (by simp [Place.table])

@[simp] theorem State.postLater_guard (s : State) (k a b c : Nat) : (s.postLater k a b c).guard = s.guard :=
  changes_of_keep (W := [.sets]) (by simp) .guard (by simp) (by simp [Place.table])

@[simp] theorem State.postLater_power (s : State) (k a b c : Nat) : (s.postLater k a b c).power = s.power :=
  changes_of_keep (W := [.sets]) (by simp) .power (by simp) (by simp [Place.table])

@[simp] theorem State.postLater_security (s : State) (k a b c : Nat) : (s.postLater k a b c).security = s.security :=
  changes_of_keep (W := [.sets]) (by simp) .security (by simp) (by simp [Place.table])

@[simp] theorem State.postLater_observe (s : State) (k a b c : Nat) : (s.postLater k a b c).observe = s.observe :=
  changes_of_keep (W := [.sets]) (by simp) .observe (by simp) (by simp [Place.table])

@[simp] theorem State.postLater_hold (s : State) (k a b c : Nat) : (s.postLater k a b c).hold = s.hold :=
  changes_of_keep (W := [.sets]) (by simp) .hold (by simp) (by simp [Place.table])

@[simp] theorem State.postLater_free (s : State) (k a b c : Nat) : (s.postLater k a b c).free = s.free :=
  changes_of_keep (W := [.sets]) (by simp) .free (by simp) (by simp [Place.table])

@[simp] theorem State.postLater_pending (s : State) (k a b c : Nat) : (s.postLater k a b c).pending = s.pending :=
  changes_of_keep (W := [.sets]) (by simp) .pending (by simp) (by simp [Place.table])

@[simp] theorem State.part_postLater (s : State) (k a b c : Nat) (p' : Nat) : (s.postLater k a b c).part p' = s.part p' :=
  changes_of_keep (W := [.sets]) (by simp) (.part p') (by simp) (by simp [Place.table])

@[simp] theorem State.seq_postLater (s : State) (k a b c : Nat) (p' : Nat) : (s.postLater k a b c).seq p' = s.seq p' :=
  changes_of_keep (W := [.sets]) (by simp) (.seq p') (by simp) (by simp [Place.table])

@[simp] theorem State.port_postLater (s : State) (k a b c : Nat) (p' : Nat) : (s.postLater k a b c).port p' = s.port p' :=
  changes_of_keep (W := [.sets]) (by simp) (.port p') (by simp) (by simp [Place.table])

@[simp] theorem State.ctx_postLater (s : State) (k a b c : Nat) (p' n' : Nat) : (s.postLater k a b c).ctx p' n' = s.ctx p' n' :=
  changes_of_keep (W := [.sets]) (by simp) (.ctx (p' * 16 + n')) (by simp) (by simp [Place.table])

@[simp] theorem State.obj_postLater (s : State) (k a b c : Nat) (i' j' : Nat) : (s.postLater k a b c).obj i' j' = s.obj i' j' := by
  simp [State.obj, objDefault]

@[simp] theorem State.gov_postLater (s : State) (k a b c : Nat) (i' j' : Nat) : (s.postLater k a b c).gov i' j' = s.gov i' j' := by
  simp [State.gov, objDefault]

@[simp] theorem State.dom_postLater (s : State) (k a b c : Nat) (i' j' : Nat) : (s.postLater k a b c).dom i' j' = s.dom i' j' := by
  simp [State.dom]

@[simp] theorem State.govDom_postLater (s : State) (k a b c : Nat) (i' j' : Nat) : (s.postLater k a b c).govDom i' j' = s.govDom i' j' := by
  simp [State.govDom]

@[simp] theorem State.nodeId_postLater (s : State) (k a b c : Nat) : (s.postLater k a b c).nodeId = s.nodeId := by
  simp [State.nodeId]

@[simp] theorem State.post_clock (s : State) (k a b c : Nat) : (s.post k a b c).clock = s.clock :=
  changes_of_keep (W := [.sets, .ports, .ctxs]) (by simp) .clock (by simp) (by simp [Place.table])

@[simp] theorem State.post_fabric (s : State) (k a b c : Nat) : (s.post k a b c).fabric = s.fabric :=
  changes_of_keep (W := [.sets, .ports, .ctxs]) (by simp) .fabric (by simp) (by simp [Place.table])

@[simp] theorem State.post_dict (s : State) (k a b c : Nat) : (s.post k a b c).dict = s.dict :=
  changes_of_keep (W := [.sets, .ports, .ctxs]) (by simp) .dict (by simp) (by simp [Place.table])

@[simp] theorem State.post_vtimes (s : State) (k a b c : Nat) : (s.post k a b c).vtimes = s.vtimes :=
  changes_of_keep (W := [.sets, .ports, .ctxs]) (by simp) .vtimes (by simp) (by simp [Place.table])

@[simp] theorem State.post_orders (s : State) (k a b c : Nat) : (s.post k a b c).orders = s.orders :=
  changes_of_keep (W := [.sets, .ports, .ctxs]) (by simp) .orders (by simp) (by simp [Place.table])

@[simp] theorem State.post_stagings (s : State) (k a b c : Nat) : (s.post k a b c).stagings = s.stagings :=
  changes_of_keep (W := [.sets, .ports, .ctxs]) (by simp) .stagings (by simp) (by simp [Place.table])

@[simp] theorem State.post_arms (s : State) (k a b c : Nat) : (s.post k a b c).arms = s.arms :=
  changes_of_keep (W := [.sets, .ports, .ctxs]) (by simp) .arms (by simp) (by simp [Place.table])

@[simp] theorem State.post_media (s : State) (k a b c : Nat) : (s.post k a b c).media = s.media :=
  changes_of_keep (W := [.sets, .ports, .ctxs]) (by simp) .media (by simp) (by simp [Place.table])

@[simp] theorem State.post_errors (s : State) (k a b c : Nat) : (s.post k a b c).errors = s.errors :=
  changes_of_keep (W := [.sets, .ports, .ctxs]) (by simp) .errors (by simp) (by simp [Place.table])

@[simp] theorem State.post_guard (s : State) (k a b c : Nat) : (s.post k a b c).guard = s.guard :=
  changes_of_keep (W := [.sets, .ports, .ctxs]) (by simp) .guard (by simp) (by simp [Place.table])

@[simp] theorem State.post_power (s : State) (k a b c : Nat) : (s.post k a b c).power = s.power :=
  changes_of_keep (W := [.sets, .ports, .ctxs]) (by simp) .power (by simp) (by simp [Place.table])

@[simp] theorem State.post_security (s : State) (k a b c : Nat) : (s.post k a b c).security = s.security :=
  changes_of_keep (W := [.sets, .ports, .ctxs]) (by simp) .security (by simp) (by simp [Place.table])

@[simp] theorem State.post_observe (s : State) (k a b c : Nat) : (s.post k a b c).observe = s.observe :=
  changes_of_keep (W := [.sets, .ports, .ctxs]) (by simp) .observe (by simp) (by simp [Place.table])

@[simp] theorem State.post_hold (s : State) (k a b c : Nat) : (s.post k a b c).hold = s.hold :=
  changes_of_keep (W := [.sets, .ports, .ctxs]) (by simp) .hold (by simp) (by simp [Place.table])

@[simp] theorem State.post_free (s : State) (k a b c : Nat) : (s.post k a b c).free = s.free :=
  changes_of_keep (W := [.sets, .ports, .ctxs]) (by simp) .free (by simp) (by simp [Place.table])

@[simp] theorem State.post_pending (s : State) (k a b c : Nat) : (s.post k a b c).pending = s.pending :=
  changes_of_keep (W := [.sets, .ports, .ctxs]) (by simp) .pending (by simp) (by simp [Place.table])

@[simp] theorem State.part_post (s : State) (k a b c : Nat) (p' : Nat) : (s.post k a b c).part p' = s.part p' :=
  changes_of_keep (W := [.sets, .ports, .ctxs]) (by simp) (.part p') (by simp) (by simp [Place.table])

@[simp] theorem State.seq_post (s : State) (k a b c : Nat) (p' : Nat) : (s.post k a b c).seq p' = s.seq p' :=
  changes_of_keep (W := [.sets, .ports, .ctxs]) (by simp) (.seq p') (by simp) (by simp [Place.table])

@[simp] theorem State.obj_post (s : State) (k a b c : Nat) (i' j' : Nat) : (s.post k a b c).obj i' j' = s.obj i' j' := by
  simp [State.obj, objDefault]

@[simp] theorem State.gov_post (s : State) (k a b c : Nat) (i' j' : Nat) : (s.post k a b c).gov i' j' = s.gov i' j' := by
  simp [State.gov, objDefault]

@[simp] theorem State.dom_post (s : State) (k a b c : Nat) (i' j' : Nat) : (s.post k a b c).dom i' j' = s.dom i' j' := by
  simp [State.dom]

@[simp] theorem State.govDom_post (s : State) (k a b c : Nat) (i' j' : Nat) : (s.post k a b c).govDom i' j' = s.govDom i' j' := by
  simp [State.govDom]

@[simp] theorem State.nodeId_post (s : State) (k a b c : Nat) : (s.post k a b c).nodeId = s.nodeId := by
  simp [State.nodeId]

@[simp] theorem State.finish_clock (s : State) (k a b c : Nat) : (s.finish k a b c).clock = s.clock :=
  changes_of_keep (W := [.sets, .ports, .ctxs]) (by simp) .clock (by simp) (by simp [Place.table])

@[simp] theorem State.finish_fabric (s : State) (k a b c : Nat) : (s.finish k a b c).fabric = s.fabric :=
  changes_of_keep (W := [.sets, .ports, .ctxs]) (by simp) .fabric (by simp) (by simp [Place.table])

@[simp] theorem State.finish_dict (s : State) (k a b c : Nat) : (s.finish k a b c).dict = s.dict :=
  changes_of_keep (W := [.sets, .ports, .ctxs]) (by simp) .dict (by simp) (by simp [Place.table])

@[simp] theorem State.finish_vtimes (s : State) (k a b c : Nat) : (s.finish k a b c).vtimes = s.vtimes :=
  changes_of_keep (W := [.sets, .ports, .ctxs]) (by simp) .vtimes (by simp) (by simp [Place.table])

@[simp] theorem State.finish_orders (s : State) (k a b c : Nat) : (s.finish k a b c).orders = s.orders :=
  changes_of_keep (W := [.sets, .ports, .ctxs]) (by simp) .orders (by simp) (by simp [Place.table])

@[simp] theorem State.finish_stagings (s : State) (k a b c : Nat) : (s.finish k a b c).stagings = s.stagings :=
  changes_of_keep (W := [.sets, .ports, .ctxs]) (by simp) .stagings (by simp) (by simp [Place.table])

@[simp] theorem State.finish_arms (s : State) (k a b c : Nat) : (s.finish k a b c).arms = s.arms :=
  changes_of_keep (W := [.sets, .ports, .ctxs]) (by simp) .arms (by simp) (by simp [Place.table])

@[simp] theorem State.finish_media (s : State) (k a b c : Nat) : (s.finish k a b c).media = s.media :=
  changes_of_keep (W := [.sets, .ports, .ctxs]) (by simp) .media (by simp) (by simp [Place.table])

@[simp] theorem State.finish_errors (s : State) (k a b c : Nat) : (s.finish k a b c).errors = s.errors :=
  changes_of_keep (W := [.sets, .ports, .ctxs]) (by simp) .errors (by simp) (by simp [Place.table])

@[simp] theorem State.finish_guard (s : State) (k a b c : Nat) : (s.finish k a b c).guard = s.guard :=
  changes_of_keep (W := [.sets, .ports, .ctxs]) (by simp) .guard (by simp) (by simp [Place.table])

@[simp] theorem State.finish_power (s : State) (k a b c : Nat) : (s.finish k a b c).power = s.power :=
  changes_of_keep (W := [.sets, .ports, .ctxs]) (by simp) .power (by simp) (by simp [Place.table])

@[simp] theorem State.finish_security (s : State) (k a b c : Nat) : (s.finish k a b c).security = s.security :=
  changes_of_keep (W := [.sets, .ports, .ctxs]) (by simp) .security (by simp) (by simp [Place.table])

@[simp] theorem State.finish_observe (s : State) (k a b c : Nat) : (s.finish k a b c).observe = s.observe :=
  changes_of_keep (W := [.sets, .ports, .ctxs]) (by simp) .observe (by simp) (by simp [Place.table])

@[simp] theorem State.finish_hold (s : State) (k a b c : Nat) : (s.finish k a b c).hold = s.hold :=
  changes_of_keep (W := [.sets, .ports, .ctxs]) (by simp) .hold (by simp) (by simp [Place.table])

@[simp] theorem State.finish_free (s : State) (k a b c : Nat) : (s.finish k a b c).free = s.free :=
  changes_of_keep (W := [.sets, .ports, .ctxs]) (by simp) .free (by simp) (by simp [Place.table])

@[simp] theorem State.finish_pending (s : State) (k a b c : Nat) : (s.finish k a b c).pending = s.pending :=
  changes_of_keep (W := [.sets, .ports, .ctxs]) (by simp) .pending (by simp) (by simp [Place.table])

@[simp] theorem State.part_finish (s : State) (k a b c : Nat) (p' : Nat) : (s.finish k a b c).part p' = s.part p' :=
  changes_of_keep (W := [.sets, .ports, .ctxs]) (by simp) (.part p') (by simp) (by simp [Place.table])

@[simp] theorem State.seq_finish (s : State) (k a b c : Nat) (p' : Nat) : (s.finish k a b c).seq p' = s.seq p' :=
  changes_of_keep (W := [.sets, .ports, .ctxs]) (by simp) (.seq p') (by simp) (by simp [Place.table])

@[simp] theorem State.obj_finish (s : State) (k a b c : Nat) (i' j' : Nat) : (s.finish k a b c).obj i' j' = s.obj i' j' := by
  simp [State.obj, objDefault]

@[simp] theorem State.gov_finish (s : State) (k a b c : Nat) (i' j' : Nat) : (s.finish k a b c).gov i' j' = s.gov i' j' := by
  simp [State.gov, objDefault]

@[simp] theorem State.dom_finish (s : State) (k a b c : Nat) (i' j' : Nat) : (s.finish k a b c).dom i' j' = s.dom i' j' := by
  simp [State.dom]

@[simp] theorem State.govDom_finish (s : State) (k a b c : Nat) (i' j' : Nat) : (s.finish k a b c).govDom i' j' = s.govDom i' j' := by
  simp [State.govDom]

@[simp] theorem State.nodeId_finish (s : State) (k a b c : Nat) : (s.finish k a b c).nodeId = s.nodeId := by
  simp [State.nodeId]

@[simp] theorem State.output_clock (s : State) (k : Nat) (m : Mem) (n : Nat) : (s.output k m n).clock = s.clock :=
  changes_of_keep (W := [.sets]) (by simp) .clock (by simp) (by simp [Place.table])

@[simp] theorem State.output_fabric (s : State) (k : Nat) (m : Mem) (n : Nat) : (s.output k m n).fabric = s.fabric :=
  changes_of_keep (W := [.sets]) (by simp) .fabric (by simp) (by simp [Place.table])

@[simp] theorem State.output_dict (s : State) (k : Nat) (m : Mem) (n : Nat) : (s.output k m n).dict = s.dict :=
  changes_of_keep (W := [.sets]) (by simp) .dict (by simp) (by simp [Place.table])

@[simp] theorem State.output_vtimes (s : State) (k : Nat) (m : Mem) (n : Nat) : (s.output k m n).vtimes = s.vtimes :=
  changes_of_keep (W := [.sets]) (by simp) .vtimes (by simp) (by simp [Place.table])

@[simp] theorem State.output_orders (s : State) (k : Nat) (m : Mem) (n : Nat) : (s.output k m n).orders = s.orders :=
  changes_of_keep (W := [.sets]) (by simp) .orders (by simp) (by simp [Place.table])

@[simp] theorem State.output_stagings (s : State) (k : Nat) (m : Mem) (n : Nat) : (s.output k m n).stagings = s.stagings :=
  changes_of_keep (W := [.sets]) (by simp) .stagings (by simp) (by simp [Place.table])

@[simp] theorem State.output_arms (s : State) (k : Nat) (m : Mem) (n : Nat) : (s.output k m n).arms = s.arms :=
  changes_of_keep (W := [.sets]) (by simp) .arms (by simp) (by simp [Place.table])

@[simp] theorem State.output_media (s : State) (k : Nat) (m : Mem) (n : Nat) : (s.output k m n).media = s.media :=
  changes_of_keep (W := [.sets]) (by simp) .media (by simp) (by simp [Place.table])

@[simp] theorem State.output_errors (s : State) (k : Nat) (m : Mem) (n : Nat) : (s.output k m n).errors = s.errors :=
  changes_of_keep (W := [.sets]) (by simp) .errors (by simp) (by simp [Place.table])

@[simp] theorem State.output_guard (s : State) (k : Nat) (m : Mem) (n : Nat) : (s.output k m n).guard = s.guard :=
  changes_of_keep (W := [.sets]) (by simp) .guard (by simp) (by simp [Place.table])

@[simp] theorem State.output_power (s : State) (k : Nat) (m : Mem) (n : Nat) : (s.output k m n).power = s.power :=
  changes_of_keep (W := [.sets]) (by simp) .power (by simp) (by simp [Place.table])

@[simp] theorem State.output_security (s : State) (k : Nat) (m : Mem) (n : Nat) : (s.output k m n).security = s.security :=
  changes_of_keep (W := [.sets]) (by simp) .security (by simp) (by simp [Place.table])

@[simp] theorem State.output_observe (s : State) (k : Nat) (m : Mem) (n : Nat) : (s.output k m n).observe = s.observe :=
  changes_of_keep (W := [.sets]) (by simp) .observe (by simp) (by simp [Place.table])

@[simp] theorem State.output_hold (s : State) (k : Nat) (m : Mem) (n : Nat) : (s.output k m n).hold = s.hold :=
  changes_of_keep (W := [.sets]) (by simp) .hold (by simp) (by simp [Place.table])

@[simp] theorem State.output_free (s : State) (k : Nat) (m : Mem) (n : Nat) : (s.output k m n).free = s.free :=
  changes_of_keep (W := [.sets]) (by simp) .free (by simp) (by simp [Place.table])

@[simp] theorem State.output_pending (s : State) (k : Nat) (m : Mem) (n : Nat) : (s.output k m n).pending = s.pending :=
  changes_of_keep (W := [.sets]) (by simp) .pending (by simp) (by simp [Place.table])

@[simp] theorem State.part_output (s : State) (k : Nat) (m : Mem) (n : Nat) (p' : Nat) : (s.output k m n).part p' = s.part p' :=
  changes_of_keep (W := [.sets]) (by simp) (.part p') (by simp) (by simp [Place.table])

@[simp] theorem State.seq_output (s : State) (k : Nat) (m : Mem) (n : Nat) (p' : Nat) : (s.output k m n).seq p' = s.seq p' :=
  changes_of_keep (W := [.sets]) (by simp) (.seq p') (by simp) (by simp [Place.table])

@[simp] theorem State.port_output (s : State) (k : Nat) (m : Mem) (n : Nat) (p' : Nat) : (s.output k m n).port p' = s.port p' :=
  changes_of_keep (W := [.sets]) (by simp) (.port p') (by simp) (by simp [Place.table])

@[simp] theorem State.ctx_output (s : State) (k : Nat) (m : Mem) (n : Nat) (p' n' : Nat) : (s.output k m n).ctx p' n' = s.ctx p' n' :=
  changes_of_keep (W := [.sets]) (by simp) (.ctx (p' * 16 + n')) (by simp) (by simp [Place.table])

@[simp] theorem State.obj_output (s : State) (k : Nat) (m : Mem) (n : Nat) (i' j' : Nat) : (s.output k m n).obj i' j' = s.obj i' j' := by
  simp [State.obj, objDefault]

@[simp] theorem State.gov_output (s : State) (k : Nat) (m : Mem) (n : Nat) (i' j' : Nat) : (s.output k m n).gov i' j' = s.gov i' j' := by
  simp [State.gov, objDefault]

@[simp] theorem State.dom_output (s : State) (k : Nat) (m : Mem) (n : Nat) (i' j' : Nat) : (s.output k m n).dom i' j' = s.dom i' j' := by
  simp [State.dom]

@[simp] theorem State.govDom_output (s : State) (k : Nat) (m : Mem) (n : Nat) (i' j' : Nat) : (s.output k m n).govDom i' j' = s.govDom i' j' := by
  simp [State.govDom]

@[simp] theorem State.nodeId_output (s : State) (k : Nat) (m : Mem) (n : Nat) : (s.output k m n).nodeId = s.nodeId := by
  simp [State.nodeId]

@[simp] theorem State.count_clock (s : State) (i n : Nat) : (s.count i n).clock = s.clock :=
  changes_of_keep (W := [.observe]) (by simp) .clock (by simp) (by simp [Place.table])

@[simp] theorem State.count_fabric (s : State) (i n : Nat) : (s.count i n).fabric = s.fabric :=
  changes_of_keep (W := [.observe]) (by simp) .fabric (by simp) (by simp [Place.table])

@[simp] theorem State.count_dict (s : State) (i n : Nat) : (s.count i n).dict = s.dict :=
  changes_of_keep (W := [.observe]) (by simp) .dict (by simp) (by simp [Place.table])

@[simp] theorem State.count_vtimes (s : State) (i n : Nat) : (s.count i n).vtimes = s.vtimes :=
  changes_of_keep (W := [.observe]) (by simp) .vtimes (by simp) (by simp [Place.table])

@[simp] theorem State.count_orders (s : State) (i n : Nat) : (s.count i n).orders = s.orders :=
  changes_of_keep (W := [.observe]) (by simp) .orders (by simp) (by simp [Place.table])

@[simp] theorem State.count_stagings (s : State) (i n : Nat) : (s.count i n).stagings = s.stagings :=
  changes_of_keep (W := [.observe]) (by simp) .stagings (by simp) (by simp [Place.table])

@[simp] theorem State.count_arms (s : State) (i n : Nat) : (s.count i n).arms = s.arms :=
  changes_of_keep (W := [.observe]) (by simp) .arms (by simp) (by simp [Place.table])

@[simp] theorem State.count_media (s : State) (i n : Nat) : (s.count i n).media = s.media :=
  changes_of_keep (W := [.observe]) (by simp) .media (by simp) (by simp [Place.table])

@[simp] theorem State.count_errors (s : State) (i n : Nat) : (s.count i n).errors = s.errors :=
  changes_of_keep (W := [.observe]) (by simp) .errors (by simp) (by simp [Place.table])

@[simp] theorem State.count_guard (s : State) (i n : Nat) : (s.count i n).guard = s.guard :=
  changes_of_keep (W := [.observe]) (by simp) .guard (by simp) (by simp [Place.table])

@[simp] theorem State.count_power (s : State) (i n : Nat) : (s.count i n).power = s.power :=
  changes_of_keep (W := [.observe]) (by simp) .power (by simp) (by simp [Place.table])

@[simp] theorem State.count_security (s : State) (i n : Nat) : (s.count i n).security = s.security :=
  changes_of_keep (W := [.observe]) (by simp) .security (by simp) (by simp [Place.table])

@[simp] theorem State.count_hold (s : State) (i n : Nat) : (s.count i n).hold = s.hold :=
  changes_of_keep (W := [.observe]) (by simp) .hold (by simp) (by simp [Place.table])

@[simp] theorem State.count_free (s : State) (i n : Nat) : (s.count i n).free = s.free :=
  changes_of_keep (W := [.observe]) (by simp) .free (by simp) (by simp [Place.table])

@[simp] theorem State.count_pending (s : State) (i n : Nat) : (s.count i n).pending = s.pending :=
  changes_of_keep (W := [.observe]) (by simp) .pending (by simp) (by simp [Place.table])

@[simp] theorem State.part_count (s : State) (i n : Nat) (p' : Nat) : (s.count i n).part p' = s.part p' :=
  changes_of_keep (W := [.observe]) (by simp) (.part p') (by simp) (by simp [Place.table])

@[simp] theorem State.seq_count (s : State) (i n : Nat) (p' : Nat) : (s.count i n).seq p' = s.seq p' :=
  changes_of_keep (W := [.observe]) (by simp) (.seq p') (by simp) (by simp [Place.table])

@[simp] theorem State.tset_count (s : State) (i n : Nat) (p' : Nat) : (s.count i n).tset p' = s.tset p' :=
  changes_of_keep (W := [.observe]) (by simp) (.tset p') (by simp) (by simp [Place.table])

@[simp] theorem State.port_count (s : State) (i n : Nat) (p' : Nat) : (s.count i n).port p' = s.port p' :=
  changes_of_keep (W := [.observe]) (by simp) (.port p') (by simp) (by simp [Place.table])

@[simp] theorem State.ctx_count (s : State) (i n : Nat) (p' n' : Nat) : (s.count i n).ctx p' n' = s.ctx p' n' :=
  changes_of_keep (W := [.observe]) (by simp) (.ctx (p' * 16 + n')) (by simp) (by simp [Place.table])

@[simp] theorem State.obj_count (s : State) (i n : Nat) (i' j' : Nat) : (s.count i n).obj i' j' = s.obj i' j' := by
  simp [State.obj, objDefault]

@[simp] theorem State.gov_count (s : State) (i n : Nat) (i' j' : Nat) : (s.count i n).gov i' j' = s.gov i' j' := by
  simp [State.gov, objDefault]

@[simp] theorem State.dom_count (s : State) (i n : Nat) (i' j' : Nat) : (s.count i n).dom i' j' = s.dom i' j' := by
  simp [State.dom]

@[simp] theorem State.govDom_count (s : State) (i n : Nat) (i' j' : Nat) : (s.count i n).govDom i' j' = s.govDom i' j' := by
  simp [State.govDom]

@[simp] theorem State.nodeId_count (s : State) (i n : Nat) : (s.count i n).nodeId = s.nodeId := by
  simp [State.nodeId]

@[simp] theorem State.passOn_clock (s : State) (b : Bool) : (s.passOn b).clock = s.clock :=
  changes_of_keep (W := [.observe, .free]) (by simp) .clock (by simp) (by simp [Place.table])

@[simp] theorem State.passOn_fabric (s : State) (b : Bool) : (s.passOn b).fabric = s.fabric :=
  changes_of_keep (W := [.observe, .free]) (by simp) .fabric (by simp) (by simp [Place.table])

@[simp] theorem State.passOn_dict (s : State) (b : Bool) : (s.passOn b).dict = s.dict :=
  changes_of_keep (W := [.observe, .free]) (by simp) .dict (by simp) (by simp [Place.table])

@[simp] theorem State.passOn_errors (s : State) (b : Bool) : (s.passOn b).errors = s.errors :=
  changes_of_keep (W := [.observe, .free]) (by simp) .errors (by simp) (by simp [Place.table])

@[simp] theorem State.passOn_media (s : State) (b : Bool) : (s.passOn b).media = s.media :=
  changes_of_keep (W := [.observe, .free]) (by simp) .media (by simp) (by simp [Place.table])

@[simp] theorem State.passOn_power (s : State) (b : Bool) : (s.passOn b).power = s.power :=
  changes_of_keep (W := [.observe, .free]) (by simp) .power (by simp) (by simp [Place.table])

@[simp] theorem State.passOn_security (s : State) (b : Bool) : (s.passOn b).security = s.security :=
  changes_of_keep (W := [.observe, .free]) (by simp) .security (by simp) (by simp [Place.table])

@[simp] theorem State.passOn_obj (s : State) (b : Bool) (i j : Nat) : (s.passOn b).obj i j = s.obj i j := by
  simp [State.obj, objDefault]

@[simp] theorem State.freezeCounters_clock (s : State) (b : Nat) : (s.freezeCounters b).clock = s.clock :=
  changes_of_keep (W := [.dict, .observe, .free]) (by simp) .clock (by simp) (by simp [Place.table])

@[simp] theorem State.freezeCounters_fabric (s : State) (b : Nat) : (s.freezeCounters b).fabric = s.fabric :=
  changes_of_keep (W := [.dict, .observe, .free]) (by simp) .fabric (by simp) (by simp [Place.table])

@[simp] theorem State.freezeCounters_vtimes (s : State) (b : Nat) : (s.freezeCounters b).vtimes = s.vtimes :=
  changes_of_keep (W := [.dict, .observe, .free]) (by simp) .vtimes (by simp) (by simp [Place.table])

@[simp] theorem State.freezeCounters_orders (s : State) (b : Nat) : (s.freezeCounters b).orders = s.orders :=
  changes_of_keep (W := [.dict, .observe, .free]) (by simp) .orders (by simp) (by simp [Place.table])

@[simp] theorem State.freezeCounters_stagings (s : State) (b : Nat) : (s.freezeCounters b).stagings = s.stagings :=
  changes_of_keep (W := [.dict, .observe, .free]) (by simp) .stagings (by simp) (by simp [Place.table])

@[simp] theorem State.freezeCounters_arms (s : State) (b : Nat) : (s.freezeCounters b).arms = s.arms :=
  changes_of_keep (W := [.dict, .observe, .free]) (by simp) .arms (by simp) (by simp [Place.table])

@[simp] theorem State.freezeCounters_media (s : State) (b : Nat) : (s.freezeCounters b).media = s.media :=
  changes_of_keep (W := [.dict, .observe, .free]) (by simp) .media (by simp) (by simp [Place.table])

@[simp] theorem State.freezeCounters_errors (s : State) (b : Nat) : (s.freezeCounters b).errors = s.errors :=
  changes_of_keep (W := [.dict, .observe, .free]) (by simp) .errors (by simp) (by simp [Place.table])

@[simp] theorem State.freezeCounters_guard (s : State) (b : Nat) : (s.freezeCounters b).guard = s.guard :=
  changes_of_keep (W := [.dict, .observe, .free]) (by simp) .guard (by simp) (by simp [Place.table])

@[simp] theorem State.freezeCounters_power (s : State) (b : Nat) : (s.freezeCounters b).power = s.power :=
  changes_of_keep (W := [.dict, .observe, .free]) (by simp) .power (by simp) (by simp [Place.table])

@[simp] theorem State.freezeCounters_security (s : State) (b : Nat) : (s.freezeCounters b).security = s.security :=
  changes_of_keep (W := [.dict, .observe, .free]) (by simp) .security (by simp) (by simp [Place.table])

@[simp] theorem State.freezeCounters_hold (s : State) (b : Nat) : (s.freezeCounters b).hold = s.hold :=
  changes_of_keep (W := [.dict, .observe, .free]) (by simp) .hold (by simp) (by simp [Place.table])

@[simp] theorem State.freezeCounters_pending (s : State) (b : Nat) : (s.freezeCounters b).pending = s.pending :=
  changes_of_keep (W := [.dict, .observe, .free]) (by simp) .pending (by simp) (by simp [Place.table])

@[simp] theorem State.part_freezeCounters (s : State) (b : Nat) (p' : Nat) : (s.freezeCounters b).part p' = s.part p' :=
  changes_of_keep (W := [.dict, .observe, .free]) (by simp) (.part p') (by simp) (by simp [Place.table])

@[simp] theorem State.seq_freezeCounters (s : State) (b : Nat) (p' : Nat) : (s.freezeCounters b).seq p' = s.seq p' :=
  changes_of_keep (W := [.dict, .observe, .free]) (by simp) (.seq p') (by simp) (by simp [Place.table])

@[simp] theorem State.tset_freezeCounters (s : State) (b : Nat) (p' : Nat) : (s.freezeCounters b).tset p' = s.tset p' :=
  changes_of_keep (W := [.dict, .observe, .free]) (by simp) (.tset p') (by simp) (by simp [Place.table])

@[simp] theorem State.port_freezeCounters (s : State) (b : Nat) (p' : Nat) : (s.freezeCounters b).port p' = s.port p' :=
  changes_of_keep (W := [.dict, .observe, .free]) (by simp) (.port p') (by simp) (by simp [Place.table])

@[simp] theorem State.ctx_freezeCounters (s : State) (b : Nat) (p' n' : Nat) : (s.freezeCounters b).ctx p' n' = s.ctx p' n' :=
  changes_of_keep (W := [.dict, .observe, .free]) (by simp) (.ctx (p' * 16 + n')) (by simp) (by simp [Place.table])

@[simp] theorem State.freezeSource_clock (s : State) (n : Nat) (b : Nat) : (s.freezeSource n b).clock = s.clock :=
  changes_of_keep (W := [.dict, .observe, .free]) (by simp) .clock (by simp) (by simp [Place.table])

@[simp] theorem State.freezeSource_fabric (s : State) (n : Nat) (b : Nat) : (s.freezeSource n b).fabric = s.fabric :=
  changes_of_keep (W := [.dict, .observe, .free]) (by simp) .fabric (by simp) (by simp [Place.table])

@[simp] theorem State.freezeSource_vtimes (s : State) (n : Nat) (b : Nat) : (s.freezeSource n b).vtimes = s.vtimes :=
  changes_of_keep (W := [.dict, .observe, .free]) (by simp) .vtimes (by simp) (by simp [Place.table])

@[simp] theorem State.freezeSource_orders (s : State) (n : Nat) (b : Nat) : (s.freezeSource n b).orders = s.orders :=
  changes_of_keep (W := [.dict, .observe, .free]) (by simp) .orders (by simp) (by simp [Place.table])

@[simp] theorem State.freezeSource_stagings (s : State) (n : Nat) (b : Nat) : (s.freezeSource n b).stagings = s.stagings :=
  changes_of_keep (W := [.dict, .observe, .free]) (by simp) .stagings (by simp) (by simp [Place.table])

@[simp] theorem State.freezeSource_arms (s : State) (n : Nat) (b : Nat) : (s.freezeSource n b).arms = s.arms :=
  changes_of_keep (W := [.dict, .observe, .free]) (by simp) .arms (by simp) (by simp [Place.table])

@[simp] theorem State.freezeSource_media (s : State) (n : Nat) (b : Nat) : (s.freezeSource n b).media = s.media :=
  changes_of_keep (W := [.dict, .observe, .free]) (by simp) .media (by simp) (by simp [Place.table])

@[simp] theorem State.freezeSource_errors (s : State) (n : Nat) (b : Nat) : (s.freezeSource n b).errors = s.errors :=
  changes_of_keep (W := [.dict, .observe, .free]) (by simp) .errors (by simp) (by simp [Place.table])

@[simp] theorem State.freezeSource_guard (s : State) (n : Nat) (b : Nat) : (s.freezeSource n b).guard = s.guard :=
  changes_of_keep (W := [.dict, .observe, .free]) (by simp) .guard (by simp) (by simp [Place.table])

@[simp] theorem State.freezeSource_power (s : State) (n : Nat) (b : Nat) : (s.freezeSource n b).power = s.power :=
  changes_of_keep (W := [.dict, .observe, .free]) (by simp) .power (by simp) (by simp [Place.table])

@[simp] theorem State.freezeSource_security (s : State) (n : Nat) (b : Nat) : (s.freezeSource n b).security = s.security :=
  changes_of_keep (W := [.dict, .observe, .free]) (by simp) .security (by simp) (by simp [Place.table])

@[simp] theorem State.freezeSource_hold (s : State) (n : Nat) (b : Nat) : (s.freezeSource n b).hold = s.hold :=
  changes_of_keep (W := [.dict, .observe, .free]) (by simp) .hold (by simp) (by simp [Place.table])

@[simp] theorem State.freezeSource_pending (s : State) (n : Nat) (b : Nat) : (s.freezeSource n b).pending = s.pending :=
  changes_of_keep (W := [.dict, .observe, .free]) (by simp) .pending (by simp) (by simp [Place.table])

@[simp] theorem State.part_freezeSource (s : State) (n : Nat) (b : Nat) (p' : Nat) : (s.freezeSource n b).part p' = s.part p' :=
  changes_of_keep (W := [.dict, .observe, .free]) (by simp) (.part p') (by simp) (by simp [Place.table])

@[simp] theorem State.seq_freezeSource (s : State) (n : Nat) (b : Nat) (p' : Nat) : (s.freezeSource n b).seq p' = s.seq p' :=
  changes_of_keep (W := [.dict, .observe, .free]) (by simp) (.seq p') (by simp) (by simp [Place.table])

@[simp] theorem State.tset_freezeSource (s : State) (n : Nat) (b : Nat) (p' : Nat) : (s.freezeSource n b).tset p' = s.tset p' :=
  changes_of_keep (W := [.dict, .observe, .free]) (by simp) (.tset p') (by simp) (by simp [Place.table])

@[simp] theorem State.port_freezeSource (s : State) (n : Nat) (b : Nat) (p' : Nat) : (s.freezeSource n b).port p' = s.port p' :=
  changes_of_keep (W := [.dict, .observe, .free]) (by simp) (.port p') (by simp) (by simp [Place.table])

@[simp] theorem State.ctx_freezeSource (s : State) (n : Nat) (b : Nat) (p' n' : Nat) : (s.freezeSource n b).ctx p' n' = s.ctx p' n' :=
  changes_of_keep (W := [.dict, .observe, .free]) (by simp) (.ctx (p' * 16 + n')) (by simp) (by simp [Place.table])

@[simp] theorem State.raise_clock (s : State) (rep : Report) : (s.raise rep).clock = s.clock :=
  changes_of_keep (W := [.dict, .errors, .free, .observe]) (by simp) .clock (by simp) (by simp [Place.table])

@[simp] theorem State.raise_fabric (s : State) (rep : Report) : (s.raise rep).fabric = s.fabric :=
  changes_of_keep (W := [.dict, .errors, .free, .observe]) (by simp) .fabric (by simp) (by simp [Place.table])

@[simp] theorem State.raise_vtimes (s : State) (rep : Report) : (s.raise rep).vtimes = s.vtimes :=
  changes_of_keep (W := [.dict, .errors, .free, .observe]) (by simp) .vtimes (by simp) (by simp [Place.table])

@[simp] theorem State.raise_orders (s : State) (rep : Report) : (s.raise rep).orders = s.orders :=
  changes_of_keep (W := [.dict, .errors, .free, .observe]) (by simp) .orders (by simp) (by simp [Place.table])

@[simp] theorem State.raise_stagings (s : State) (rep : Report) : (s.raise rep).stagings = s.stagings :=
  changes_of_keep (W := [.dict, .errors, .free, .observe]) (by simp) .stagings (by simp) (by simp [Place.table])

@[simp] theorem State.raise_arms (s : State) (rep : Report) : (s.raise rep).arms = s.arms :=
  changes_of_keep (W := [.dict, .errors, .free, .observe]) (by simp) .arms (by simp) (by simp [Place.table])

@[simp] theorem State.raise_media (s : State) (rep : Report) : (s.raise rep).media = s.media :=
  changes_of_keep (W := [.dict, .errors, .free, .observe]) (by simp) .media (by simp) (by simp [Place.table])

@[simp] theorem State.raise_guard (s : State) (rep : Report) : (s.raise rep).guard = s.guard :=
  changes_of_keep (W := [.dict, .errors, .free, .observe]) (by simp) .guard (by simp) (by simp [Place.table])

@[simp] theorem State.raise_power (s : State) (rep : Report) : (s.raise rep).power = s.power :=
  changes_of_keep (W := [.dict, .errors, .free, .observe]) (by simp) .power (by simp) (by simp [Place.table])

@[simp] theorem State.raise_security (s : State) (rep : Report) : (s.raise rep).security = s.security :=
  changes_of_keep (W := [.dict, .errors, .free, .observe]) (by simp) .security (by simp) (by simp [Place.table])

@[simp] theorem State.raise_hold (s : State) (rep : Report) : (s.raise rep).hold = s.hold :=
  changes_of_keep (W := [.dict, .errors, .free, .observe]) (by simp) .hold (by simp) (by simp [Place.table])

@[simp] theorem State.raise_pending (s : State) (rep : Report) : (s.raise rep).pending = s.pending :=
  changes_of_keep (W := [.dict, .errors, .free, .observe]) (by simp) .pending (by simp) (by simp [Place.table])

@[simp] theorem State.part_raise (s : State) (rep : Report) (p' : Nat) : (s.raise rep).part p' = s.part p' :=
  changes_of_keep (W := [.dict, .errors, .free, .observe]) (by simp) (.part p') (by simp) (by simp [Place.table])

@[simp] theorem State.seq_raise (s : State) (rep : Report) (p' : Nat) : (s.raise rep).seq p' = s.seq p' :=
  changes_of_keep (W := [.dict, .errors, .free, .observe]) (by simp) (.seq p') (by simp) (by simp [Place.table])

@[simp] theorem State.tset_raise (s : State) (rep : Report) (p' : Nat) : (s.raise rep).tset p' = s.tset p' :=
  changes_of_keep (W := [.dict, .errors, .free, .observe]) (by simp) (.tset p') (by simp) (by simp [Place.table])

@[simp] theorem State.port_raise (s : State) (rep : Report) (p' : Nat) : (s.raise rep).port p' = s.port p' :=
  changes_of_keep (W := [.dict, .errors, .free, .observe]) (by simp) (.port p') (by simp) (by simp [Place.table])

@[simp] theorem State.ctx_raise (s : State) (rep : Report) (p' n' : Nat) : (s.raise rep).ctx p' n' = s.ctx p' n' :=
  changes_of_keep (W := [.dict, .errors, .free, .observe]) (by simp) (.ctx (p' * 16 + n')) (by simp) (by simp [Place.table])

@[simp] theorem State.raise_device (s : State) (rep : Report) : (s.raise rep).errors.device = s.errors.device :=
  changes_of_keep (W := [.dict, .errors, .free, .observe]) (by simp) .device (by simp) (by simp [Place.table])

@[simp] theorem State.thermal_clock (s : State) (a b : Nat) : (s.thermal a b).clock = s.clock :=
  changes_of_keep (W := [.dict, .errors, .free, .observe]) (by simp) .clock (by simp) (by simp [Place.table])

@[simp] theorem State.thermal_fabric (s : State) (a b : Nat) : (s.thermal a b).fabric = s.fabric :=
  changes_of_keep (W := [.dict, .errors, .free, .observe]) (by simp) .fabric (by simp) (by simp [Place.table])

@[simp] theorem State.thermal_vtimes (s : State) (a b : Nat) : (s.thermal a b).vtimes = s.vtimes :=
  changes_of_keep (W := [.dict, .errors, .free, .observe]) (by simp) .vtimes (by simp) (by simp [Place.table])

@[simp] theorem State.thermal_orders (s : State) (a b : Nat) : (s.thermal a b).orders = s.orders :=
  changes_of_keep (W := [.dict, .errors, .free, .observe]) (by simp) .orders (by simp) (by simp [Place.table])

@[simp] theorem State.thermal_stagings (s : State) (a b : Nat) : (s.thermal a b).stagings = s.stagings :=
  changes_of_keep (W := [.dict, .errors, .free, .observe]) (by simp) .stagings (by simp) (by simp [Place.table])

@[simp] theorem State.thermal_arms (s : State) (a b : Nat) : (s.thermal a b).arms = s.arms :=
  changes_of_keep (W := [.dict, .errors, .free, .observe]) (by simp) .arms (by simp) (by simp [Place.table])

@[simp] theorem State.thermal_media (s : State) (a b : Nat) : (s.thermal a b).media = s.media :=
  changes_of_keep (W := [.dict, .errors, .free, .observe]) (by simp) .media (by simp) (by simp [Place.table])

@[simp] theorem State.thermal_guard (s : State) (a b : Nat) : (s.thermal a b).guard = s.guard :=
  changes_of_keep (W := [.dict, .errors, .free, .observe]) (by simp) .guard (by simp) (by simp [Place.table])

@[simp] theorem State.thermal_power (s : State) (a b : Nat) : (s.thermal a b).power = s.power :=
  changes_of_keep (W := [.dict, .errors, .free, .observe]) (by simp) .power (by simp) (by simp [Place.table])

@[simp] theorem State.thermal_security (s : State) (a b : Nat) : (s.thermal a b).security = s.security :=
  changes_of_keep (W := [.dict, .errors, .free, .observe]) (by simp) .security (by simp) (by simp [Place.table])

@[simp] theorem State.thermal_hold (s : State) (a b : Nat) : (s.thermal a b).hold = s.hold :=
  changes_of_keep (W := [.dict, .errors, .free, .observe]) (by simp) .hold (by simp) (by simp [Place.table])

@[simp] theorem State.thermal_pending (s : State) (a b : Nat) : (s.thermal a b).pending = s.pending :=
  changes_of_keep (W := [.dict, .errors, .free, .observe]) (by simp) .pending (by simp) (by simp [Place.table])

@[simp] theorem State.part_thermal (s : State) (a b : Nat) (p' : Nat) : (s.thermal a b).part p' = s.part p' :=
  changes_of_keep (W := [.dict, .errors, .free, .observe]) (by simp) (.part p') (by simp) (by simp [Place.table])

@[simp] theorem State.seq_thermal (s : State) (a b : Nat) (p' : Nat) : (s.thermal a b).seq p' = s.seq p' :=
  changes_of_keep (W := [.dict, .errors, .free, .observe]) (by simp) (.seq p') (by simp) (by simp [Place.table])

@[simp] theorem State.tset_thermal (s : State) (a b : Nat) (p' : Nat) : (s.thermal a b).tset p' = s.tset p' :=
  changes_of_keep (W := [.dict, .errors, .free, .observe]) (by simp) (.tset p') (by simp) (by simp [Place.table])

@[simp] theorem State.port_thermal (s : State) (a b : Nat) (p' : Nat) : (s.thermal a b).port p' = s.port p' :=
  changes_of_keep (W := [.dict, .errors, .free, .observe]) (by simp) (.port p') (by simp) (by simp [Place.table])

@[simp] theorem State.ctx_thermal (s : State) (a b : Nat) (p' n' : Nat) : (s.thermal a b).ctx p' n' = s.ctx p' n' :=
  changes_of_keep (W := [.dict, .errors, .free, .observe]) (by simp) (.ctx (p' * 16 + n')) (by simp) (by simp [Place.table])

@[simp] theorem State.thermal_device (s : State) (a b : Nat) : (s.thermal a b).errors.device = s.errors.device :=
  changes_of_keep (W := [.dict, .errors, .free, .observe]) (by simp) .device (by simp) (by simp [Place.table])

@[simp] theorem State.lifeRecord_clock (s : State) : (s.lifeRecord).clock = s.clock :=
  changes_of_keep (W := [.dict, .errors, .free, .observe]) (by simp) .clock (by simp) (by simp [Place.table])

@[simp] theorem State.lifeRecord_fabric (s : State) : (s.lifeRecord).fabric = s.fabric :=
  changes_of_keep (W := [.dict, .errors, .free, .observe]) (by simp) .fabric (by simp) (by simp [Place.table])

@[simp] theorem State.lifeRecord_vtimes (s : State) : (s.lifeRecord).vtimes = s.vtimes :=
  changes_of_keep (W := [.dict, .errors, .free, .observe]) (by simp) .vtimes (by simp) (by simp [Place.table])

@[simp] theorem State.lifeRecord_orders (s : State) : (s.lifeRecord).orders = s.orders :=
  changes_of_keep (W := [.dict, .errors, .free, .observe]) (by simp) .orders (by simp) (by simp [Place.table])

@[simp] theorem State.lifeRecord_stagings (s : State) : (s.lifeRecord).stagings = s.stagings :=
  changes_of_keep (W := [.dict, .errors, .free, .observe]) (by simp) .stagings (by simp) (by simp [Place.table])

@[simp] theorem State.lifeRecord_arms (s : State) : (s.lifeRecord).arms = s.arms :=
  changes_of_keep (W := [.dict, .errors, .free, .observe]) (by simp) .arms (by simp) (by simp [Place.table])

@[simp] theorem State.lifeRecord_media (s : State) : (s.lifeRecord).media = s.media :=
  changes_of_keep (W := [.dict, .errors, .free, .observe]) (by simp) .media (by simp) (by simp [Place.table])

@[simp] theorem State.lifeRecord_guard (s : State) : (s.lifeRecord).guard = s.guard :=
  changes_of_keep (W := [.dict, .errors, .free, .observe]) (by simp) .guard (by simp) (by simp [Place.table])

@[simp] theorem State.lifeRecord_power (s : State) : (s.lifeRecord).power = s.power :=
  changes_of_keep (W := [.dict, .errors, .free, .observe]) (by simp) .power (by simp) (by simp [Place.table])

@[simp] theorem State.lifeRecord_security (s : State) : (s.lifeRecord).security = s.security :=
  changes_of_keep (W := [.dict, .errors, .free, .observe]) (by simp) .security (by simp) (by simp [Place.table])

@[simp] theorem State.lifeRecord_hold (s : State) : (s.lifeRecord).hold = s.hold :=
  changes_of_keep (W := [.dict, .errors, .free, .observe]) (by simp) .hold (by simp) (by simp [Place.table])

@[simp] theorem State.lifeRecord_pending (s : State) : (s.lifeRecord).pending = s.pending :=
  changes_of_keep (W := [.dict, .errors, .free, .observe]) (by simp) .pending (by simp) (by simp [Place.table])

@[simp] theorem State.part_lifeRecord (s : State)  (p' : Nat) : (s.lifeRecord).part p' = s.part p' :=
  changes_of_keep (W := [.dict, .errors, .free, .observe]) (by simp) (.part p') (by simp) (by simp [Place.table])

@[simp] theorem State.seq_lifeRecord (s : State)  (p' : Nat) : (s.lifeRecord).seq p' = s.seq p' :=
  changes_of_keep (W := [.dict, .errors, .free, .observe]) (by simp) (.seq p') (by simp) (by simp [Place.table])

@[simp] theorem State.tset_lifeRecord (s : State)  (p' : Nat) : (s.lifeRecord).tset p' = s.tset p' :=
  changes_of_keep (W := [.dict, .errors, .free, .observe]) (by simp) (.tset p') (by simp) (by simp [Place.table])

@[simp] theorem State.port_lifeRecord (s : State)  (p' : Nat) : (s.lifeRecord).port p' = s.port p' :=
  changes_of_keep (W := [.dict, .errors, .free, .observe]) (by simp) (.port p') (by simp) (by simp [Place.table])

@[simp] theorem State.ctx_lifeRecord (s : State)  (p' n' : Nat) : (s.lifeRecord).ctx p' n' = s.ctx p' n' :=
  changes_of_keep (W := [.dict, .errors, .free, .observe]) (by simp) (.ctx (p' * 16 + n')) (by simp) (by simp [Place.table])

@[simp] theorem State.lifeRecord_device (s : State) : (s.lifeRecord).errors.device = s.errors.device :=
  changes_of_keep (W := [.dict, .errors, .free, .observe]) (by simp) .device (by simp) (by simp [Place.table])

@[simp] theorem State.endOwnership_clock (s : State) (x : Port) : (s.endOwnership x).clock = s.clock :=
  changes_of_keep (W := [.ports, .dict, .security]) (by simp) .clock (by simp) (by simp [Place.table])

@[simp] theorem State.endOwnership_fabric (s : State) (x : Port) : (s.endOwnership x).fabric = s.fabric :=
  changes_of_keep (W := [.ports, .dict, .security]) (by simp) .fabric (by simp) (by simp [Place.table])

@[simp] theorem State.endOwnership_vtimes (s : State) (x : Port) : (s.endOwnership x).vtimes = s.vtimes :=
  changes_of_keep (W := [.ports, .dict, .security]) (by simp) .vtimes (by simp) (by simp [Place.table])

@[simp] theorem State.endOwnership_orders (s : State) (x : Port) : (s.endOwnership x).orders = s.orders :=
  changes_of_keep (W := [.ports, .dict, .security]) (by simp) .orders (by simp) (by simp [Place.table])

@[simp] theorem State.endOwnership_stagings (s : State) (x : Port) : (s.endOwnership x).stagings = s.stagings :=
  changes_of_keep (W := [.ports, .dict, .security]) (by simp) .stagings (by simp) (by simp [Place.table])

@[simp] theorem State.endOwnership_arms (s : State) (x : Port) : (s.endOwnership x).arms = s.arms :=
  changes_of_keep (W := [.ports, .dict, .security]) (by simp) .arms (by simp) (by simp [Place.table])

@[simp] theorem State.endOwnership_media (s : State) (x : Port) : (s.endOwnership x).media = s.media :=
  changes_of_keep (W := [.ports, .dict, .security]) (by simp) .media (by simp) (by simp [Place.table])

@[simp] theorem State.endOwnership_errors (s : State) (x : Port) : (s.endOwnership x).errors = s.errors :=
  changes_of_keep (W := [.ports, .dict, .security]) (by simp) .errors (by simp) (by simp [Place.table])

@[simp] theorem State.endOwnership_guard (s : State) (x : Port) : (s.endOwnership x).guard = s.guard :=
  changes_of_keep (W := [.ports, .dict, .security]) (by simp) .guard (by simp) (by simp [Place.table])

@[simp] theorem State.endOwnership_power (s : State) (x : Port) : (s.endOwnership x).power = s.power :=
  changes_of_keep (W := [.ports, .dict, .security]) (by simp) .power (by simp) (by simp [Place.table])

@[simp] theorem State.endOwnership_observe (s : State) (x : Port) : (s.endOwnership x).observe = s.observe :=
  changes_of_keep (W := [.ports, .dict, .security]) (by simp) .observe (by simp) (by simp [Place.table])

@[simp] theorem State.endOwnership_hold (s : State) (x : Port) : (s.endOwnership x).hold = s.hold :=
  changes_of_keep (W := [.ports, .dict, .security]) (by simp) .hold (by simp) (by simp [Place.table])

@[simp] theorem State.endOwnership_free (s : State) (x : Port) : (s.endOwnership x).free = s.free :=
  changes_of_keep (W := [.ports, .dict, .security]) (by simp) .free (by simp) (by simp [Place.table])

@[simp] theorem State.endOwnership_pending (s : State) (x : Port) : (s.endOwnership x).pending = s.pending :=
  changes_of_keep (W := [.ports, .dict, .security]) (by simp) .pending (by simp) (by simp [Place.table])

@[simp] theorem State.part_endOwnership (s : State) (x : Port) (p' : Nat) : (s.endOwnership x).part p' = s.part p' :=
  changes_of_keep (W := [.ports, .dict, .security]) (by simp) (.part p') (by simp) (by simp [Place.table])

@[simp] theorem State.seq_endOwnership (s : State) (x : Port) (p' : Nat) : (s.endOwnership x).seq p' = s.seq p' :=
  changes_of_keep (W := [.ports, .dict, .security]) (by simp) (.seq p') (by simp) (by simp [Place.table])

@[simp] theorem State.tset_endOwnership (s : State) (x : Port) (p' : Nat) : (s.endOwnership x).tset p' = s.tset p' :=
  changes_of_keep (W := [.ports, .dict, .security]) (by simp) (.tset p') (by simp) (by simp [Place.table])

@[simp] theorem State.ctx_endOwnership (s : State) (x : Port) (p' n' : Nat) : (s.endOwnership x).ctx p' n' = s.ctx p' n' :=
  changes_of_keep (W := [.ports, .dict, .security]) (by simp) (.ctx (p' * 16 + n')) (by simp) (by simp [Place.table])

@[simp] theorem State.endTransfers_clock (s : State) (x : Port) : (s.endTransfers x).clock = s.clock :=
  changes_of_keep (W := [.dict]) (by simp) .clock (by simp) (by simp [Place.table])

@[simp] theorem State.endTransfers_fabric (s : State) (x : Port) : (s.endTransfers x).fabric = s.fabric :=
  changes_of_keep (W := [.dict]) (by simp) .fabric (by simp) (by simp [Place.table])

@[simp] theorem State.endTransfers_vtimes (s : State) (x : Port) : (s.endTransfers x).vtimes = s.vtimes :=
  changes_of_keep (W := [.dict]) (by simp) .vtimes (by simp) (by simp [Place.table])

@[simp] theorem State.endTransfers_orders (s : State) (x : Port) : (s.endTransfers x).orders = s.orders :=
  changes_of_keep (W := [.dict]) (by simp) .orders (by simp) (by simp [Place.table])

@[simp] theorem State.endTransfers_stagings (s : State) (x : Port) : (s.endTransfers x).stagings = s.stagings :=
  changes_of_keep (W := [.dict]) (by simp) .stagings (by simp) (by simp [Place.table])

@[simp] theorem State.endTransfers_arms (s : State) (x : Port) : (s.endTransfers x).arms = s.arms :=
  changes_of_keep (W := [.dict]) (by simp) .arms (by simp) (by simp [Place.table])

@[simp] theorem State.endTransfers_media (s : State) (x : Port) : (s.endTransfers x).media = s.media :=
  changes_of_keep (W := [.dict]) (by simp) .media (by simp) (by simp [Place.table])

@[simp] theorem State.endTransfers_errors (s : State) (x : Port) : (s.endTransfers x).errors = s.errors :=
  changes_of_keep (W := [.dict]) (by simp) .errors (by simp) (by simp [Place.table])

@[simp] theorem State.endTransfers_guard (s : State) (x : Port) : (s.endTransfers x).guard = s.guard :=
  changes_of_keep (W := [.dict]) (by simp) .guard (by simp) (by simp [Place.table])

@[simp] theorem State.endTransfers_power (s : State) (x : Port) : (s.endTransfers x).power = s.power :=
  changes_of_keep (W := [.dict]) (by simp) .power (by simp) (by simp [Place.table])

@[simp] theorem State.endTransfers_security (s : State) (x : Port) : (s.endTransfers x).security = s.security :=
  changes_of_keep (W := [.dict]) (by simp) .security (by simp) (by simp [Place.table])

@[simp] theorem State.endTransfers_observe (s : State) (x : Port) : (s.endTransfers x).observe = s.observe :=
  changes_of_keep (W := [.dict]) (by simp) .observe (by simp) (by simp [Place.table])

@[simp] theorem State.endTransfers_hold (s : State) (x : Port) : (s.endTransfers x).hold = s.hold :=
  changes_of_keep (W := [.dict]) (by simp) .hold (by simp) (by simp [Place.table])

@[simp] theorem State.endTransfers_free (s : State) (x : Port) : (s.endTransfers x).free = s.free :=
  changes_of_keep (W := [.dict]) (by simp) .free (by simp) (by simp [Place.table])

@[simp] theorem State.endTransfers_pending (s : State) (x : Port) : (s.endTransfers x).pending = s.pending :=
  changes_of_keep (W := [.dict]) (by simp) .pending (by simp) (by simp [Place.table])

@[simp] theorem State.part_endTransfers (s : State) (x : Port) (p' : Nat) : (s.endTransfers x).part p' = s.part p' :=
  changes_of_keep (W := [.dict]) (by simp) (.part p') (by simp) (by simp [Place.table])

@[simp] theorem State.seq_endTransfers (s : State) (x : Port) (p' : Nat) : (s.endTransfers x).seq p' = s.seq p' :=
  changes_of_keep (W := [.dict]) (by simp) (.seq p') (by simp) (by simp [Place.table])

@[simp] theorem State.tset_endTransfers (s : State) (x : Port) (p' : Nat) : (s.endTransfers x).tset p' = s.tset p' :=
  changes_of_keep (W := [.dict]) (by simp) (.tset p') (by simp) (by simp [Place.table])

@[simp] theorem State.port_endTransfers (s : State) (x : Port) (p' : Nat) : (s.endTransfers x).port p' = s.port p' :=
  changes_of_keep (W := [.dict]) (by simp) (.port p') (by simp) (by simp [Place.table])

@[simp] theorem State.ctx_endTransfers (s : State) (x : Port) (p' n' : Nat) : (s.endTransfers x).ctx p' n' = s.ctx p' n' :=
  changes_of_keep (W := [.dict]) (by simp) (.ctx (p' * 16 + n')) (by simp) (by simp [Place.table])

end Sys2Proof.Machine
end

