-- ==== Sys2Proof/Laws/Reply.lean ====
section
/-! SUPPORT. What a reply does: with room for it at its port it leaves at once, as the newest thing sent, and the port
keeps everything that does not belong to the sending of cells. -/

namespace Sys2Proof.Machine

theorem State.port_send_other (s : State) (x y : Nat) (data : Bool) (n : Nat) (f : Sent) (h : y ≠ x) :
    (s.send x data n f).port y = s.port y := by
  have := congrFun (congrArg Kept.port (State.keep_send (W := [.port x]) s x data n f (.inl (by simp)))) y
  simpa [keep, h] using this

/-- The only frame that waits at a port leaves it, cell by cell, where credits and replay buffer suffice. -/
theorem PortSt.sendCells_only (c : Chan) (f : Sent) (n : Nat) : ∀ v : PortSt, v.waiting = [(c, n + 1, f)] →
    n + 1 ≤ v.credits.getD (chanNo c) 0 → v.replay + (n + 1) ≤ 512 →
    ∃ credits replay seq cells ctrl fwd, v.sendCells (n + 1) =
      { v with waiting := [], sent := f :: v.sent, credits := credits, replay := replay, txSeq := seq, cells := cells
               sinceCtrl := ctrl, lastFwd := fwd } := by
  induction n with
  | zero =>
    intro v hw hc hr
    have hp : 0 < v.credits.getD (chanNo c) 0 := by omega
    have hn : v.nextChan = some c := by
      cases c <;> simp_all [PortSt.nextChan, PortSt.ready, chanNo]
    simp only [PortSt.sendCells, if_neg (show ¬512 ≤ v.replay by omega), hn, PortSt.sendCell, hw, List.find?_cons_of_pos,
      decide_true, List.eraseP_cons_of_pos, List.eraseP_nil, le_refl, if_true]
    exact ⟨_, _, _, _, _, _, rfl⟩
  | succ n ih =>
    intro v hw hc hr
    have hp : 0 < v.credits.getD (chanNo c) 0 := by omega
    have hn : v.nextChan = some c := by
      cases c <;> simp_all [PortSt.nextChan, PortSt.ready, chanNo]
    have hs : v.sendCells (n + 1 + 1) = (v.sendCell c).sendCells (n + 1) := by
      rw [PortSt.sendCells, if_neg (by omega), hn]
    have hl : chanNo c < v.credits.length := by
      by_contra h
      simp [List.getD, List.getElem?_eq_none (Nat.le_of_not_lt h)] at hp
    have hv : ∃ cells ctrl fwd, v.sendCell c = { v with
        waiting := [(c, n + 1, f)], credits := v.credits.set (chanNo c) (v.credits.getD (chanNo c) 0 - 1)
        replay := v.replay + 1, txSeq := v.txSeq + 1, cells := cells, sinceCtrl := ctrl, lastFwd := fwd } := by
      simp only [PortSt.sendCell, hw, List.find?_cons_of_pos, decide_true, if_neg (show ¬n + 1 + 1 ≤ 1 by omega),
        List.findIdx_cons, cond_true, List.set_cons_zero, Nat.add_sub_cancel]
      exact ⟨_, _, _, rfl⟩
    obtain ⟨ce, ct, fw, hv⟩ := hv
    obtain ⟨a, b, d, e, g, k, h⟩ := ih (v.sendCell c) (by rw [hv]) (by
      rw [hv]
      simp only [List.getD, List.getElem?_set_self hl, Option.getD_some]
      have : v.credits[chanNo c]?.getD 0 = v.credits.getD (chanNo c) 0 := rfl
      omega) (by rw [hv]; dsimp only; omega)
    rw [hs, h, hv]
    exact ⟨_, _, _, _, _, _, rfl⟩

/-- With room, a frame leaves at once. -/
theorem State.port_send (s : State) (x : Nat) (data : Bool) (n : Nat) (f : Sent) (hr : (s.port x).Roomy) (h1 : 1 ≤ n) (hn : n ≤ 69) :
    ∃ credits replay seq cells ctrl fwd, (s.send x data n f).port x =
      { s.port x with sent := f :: (s.port x).sent, credits := credits, replay := replay, txSeq := seq, cells := cells
                      sinceCtrl := ctrl, lastFwd := fwd } := by
  obtain ⟨hu, hw, hc, hp⟩ := hr
  obtain ⟨n, rfl⟩ : ∃ m, n = m + 1 := ⟨n - 1, by omega⟩
  unfold State.send
  dsimp only
  rw [if_pos hu, State.port_setPort_same]
  unfold PortSt.egress
  generalize (if (s.port x).peerModule then Chan.fwd else if data then Chan.data else Chan.ctrl) = c
  have h69 : 69 ≤ (s.port x).credits.getD (chanNo c) 0 := hc _ (by cases c <;> decide)
  obtain ⟨a, b, d, e, g, k, h⟩ := PortSt.sendCells_only c f n
    { s.port x with waiting := (s.port x).waiting ++ [(c, n + 1, f)] } (by simp [hw]) (by dsimp only; omega) (by dsimp only; omega)
  simp only [PortSt.toGo, hw, List.nil_append, List.map_cons, List.map_nil, List.foldl_cons, List.foldl_nil, Nat.zero_add] at h ⊢
  rw [h]
  exact ⟨a, b, d, e, g, k, by rw [← hw]⟩

/-- A port where nothing waits sends nothing. -/
theorem PortSt.egress_idle {v : PortSt} (h : v.waiting = []) : v.egress = v := by
  unfold PortSt.egress PortSt.toGo
  rw [h]
  rfl

/-- An acknowledgement of cells that are in the replay buffer leaves those after it. -/
theorem PortSt.acked_of_le {v : PortSt} {ack : BitVec 12} (h : (v.txSeq - ack - 1).toNat ≤ v.replay) :
    v.acked ack = { v with replay := (v.txSeq - ack - 1).toNat } := if_pos h

/-- An acknowledgement changes nothing but the replay buffer. -/
theorem PortSt.acked_eq (v : PortSt) (ack : BitVec 12) : ∃ n, n ≤ v.replay ∧ v.acked ack = { v with replay := n } := by
  unfold PortSt.acked
  dsimp only
  split
  · exact ⟨_, ‹_›, rfl⟩
  · exact ⟨v.replay, Nat.le_refl _, rfl⟩

/-- What the end of an ownership leaves of the dictionary. -/
theorem State.endOwnership_dict (s : State) (x : Port) : (s.endOwnership x).dict = { s.dict with
    reads := s.dict.reads.filter (fun o => decide (o.port ≠ x))
    writes := s.dict.writes.filter (fun o => decide (o.port ≠ x)) } := by
  simp only [State.endOwnership, State.dropArm]
  (repeat' split) <;> rfl

/-- What it leaves of its port. -/
theorem State.endOwnership_port (s : State) (x : Port) : (s.endOwnership x).port x.val = { s.port x.val with
    node := 0, host := 0, freezeDue := (s.port x.val).freezeDue ||| freezeStream } := by
  simp only [State.endOwnership, State.dropArm]
  (repeat' split) <;> simp [State.endTransfers, State.freezeDue]

/-- What becomes of the arms when a port loses its owner. -/
theorem State.dropArm_security (s : State) (x : Port) : (s.dropArm x).security =
    { s.security with arms := s.security.arms.filter (fun a => decide (a.2.1 ≠ x)) } := rfl

/-- The arms of a port lapse with its ownership. -/
theorem State.endOwnership_security (s : State) (x : Port) : (s.endOwnership x).security =
    { s.security with arms := s.security.arms.filter (fun a => decide (a.2.1 ≠ x)) } := rfl

theorem State.gov_congr {s t : State} (h : t.dict.gov = s.dict.gov) (hi : t.power.ids = s.power.ids) (i j : Nat) :
    t.gov i j = s.gov i j := by
  simp [State.gov, h, objDefault, hi]

theorem State.obj_congr {s t : State} (h : t.dict.objs = s.dict.objs) (hi : t.power.ids = s.power.ids) (i j : Nat) :
    t.obj i j = s.obj i j := by
  simp [State.obj, h, objDefault, hi]

@[simp] theorem State.nodeId_endOwnership (s : State) (x : Port) : (s.endOwnership x).nodeId = s.nodeId :=
  State.gov_congr (by rw [State.endOwnership_dict]) (by simp) 0x1100 1

/-- What becomes of the ports as one leaves UP: only frames that wait. -/
theorem State.leaveUp_port (s : State) (x : Port) {y : Nat} (hy : y < 4) : (s.leaveUp x).port y = { s.port y with
    waiting := if y = x.val then (s.port y).waiting.filter (fun w => !isForward w.2.2)
      else (s.port y).waiting.map (cutForward x) } := by
  have key (u : State) (z : Nat) : ∃ w : State, w = u.setPort z { u.port z with
      waiting := if z = x.val then (u.port z).waiting.filter (fun w => !isForward w.2.2)
        else (u.port z).waiting.map (cutForward x) } ∧ w.port y = if y = z then { u.port y with
      waiting := if y = x.val then (u.port y).waiting.filter (fun w => !isForward w.2.2)
        else (u.port y).waiting.map (cutForward x) } else u.port y := by
    refine ⟨_, rfl, ?_⟩
    rw [State.port_setPort]
    by_cases h : y = z
    · subst h
      rw [if_pos rfl]
    · rw [if_neg h, if_neg h]
  obtain ⟨a, ea, pa⟩ := key s 0
  obtain ⟨b, eb, pb⟩ := key a 1
  obtain ⟨c, ec, pc⟩ := key b 2
  obtain ⟨d, ed, pd⟩ := key c 3
  have e : s.leaveUp x = d.endTransfers x := by
    unfold State.leaveUp
    rw [ed, ec, eb, ea]
    rfl
  rw [e, State.port_endTransfers, pd, pc, pb, pa]
  obtain rfl | rfl | rfl | rfl : y = 0 ∨ y = 1 ∨ y = 2 ∨ y = 3 := by omega
  all_goals rfl

theorem State.leaveUp_dict (s : State) (x : Port) : (s.leaveUp x).dict = { s.dict with
    reads := s.dict.reads.filter (fun o => decide (o.port ≠ x))
    writes := s.dict.writes.filter (fun o => decide (o.port ≠ x)) } := by
  unfold State.leaveUp
  simp [State.each, show List.range 4 = [0, 1, 2, 3] from rfl, State.endTransfers]

theorem frameCells_pos (n : Nat) : 1 ≤ frameCells n := by
  unfold frameCells ceilDiv
  omega

theorem frameCells_le {n : Nat} (h : n ≤ 8192) : frameCells n ≤ 69 := by
  unfold frameCells ceilDiv
  omega

/-- With room, a reply leaves at once. -/
theorem State.port_reply (s : State) (r : Req) (type status args : Nat) (payload : Bytes) (hr : (s.port r.port.val).Roomy)
    (hn : payload.length ≤ 8192) :
    ∃ credits replay seq cells ctrl fwd, (s.reply r type status args payload).port r.port.val =
      { s.port r.port.val with
        sent := .frame (s.replyFrame r type status args payload (dataReply r type)) :: (s.port r.port.val).sent
        credits := credits, replay := replay, txSeq := seq, cells := cells, sinceCtrl := ctrl, lastFwd := fwd } :=
  s.port_send _ _ _ _ hr (frameCells_pos _) (frameCells_le hn)

@[simp] theorem State.port_heard (s : State) (x n c : Nat) :
    (s.heard x n c).port x = (s.port x).gets c (frameCells n) := by
  simp [State.heard]

@[simp] theorem PortSt.gets_node (v : PortSt) (c n : Nat) : (v.gets c n).node = v.node := rfl
@[simp] theorem PortSt.gets_host (v : PortSt) (c n : Nat) : (v.gets c n).host = v.host := rfl
@[simp] theorem PortSt.gets_life (v : PortSt) (c n : Nat) : (v.gets c n).life = v.life := rfl
@[simp] theorem PortSt.gets_sent (v : PortSt) (c n : Nat) : (v.gets c n).sent = v.sent := rfl
@[simp] theorem PortSt.gets_word (v : PortSt) (c n : Nat) : (v.gets c n).word = v.word := rfl

theorem State.roomy_heard {s : State} {x : Nat} (h : (s.port x).Roomy) (n c : Nat) : ((s.heard x n c).port x).Roomy := by
  rw [State.port_heard]
  exact ⟨h.up, h.idle, h.credits, h.replay⟩

/-- What an admitted request that is only answered does: the reply leaves at once and nothing else changes but the state of
its port's sending and receiving. -/
theorem State.replied_of_reply {s u : State} {r : Req} {type status args : Nat} {payload : Bytes}
    (hr : (u.port r.port.val).Roomy) (hp : payload.length ≤ 8192)
    (hs : (u.port r.port.val).sent = (s.port r.port.val).sent) (hw : (u.port r.port.val).word = (s.port r.port.val).word)
    (hn : u.nodeId = s.nodeId) (he : u.clock.epoch = s.clock.epoch) :
    Replied s (u.reply r type status args payload) r type status args payload := by
  obtain ⟨c, p, q, _, _, _, h⟩ := u.port_reply r type status args payload hr hp
  refine ⟨u.replyFrame r type status args payload (dataReply r type), ?_, rfl, rfl, rfl, ?_, rfl, rfl, rfl, rfl, ?_, ?_⟩
  · rw [h, hs]
  · exact hn
  · exact congrArg BitVec.toNat hw
  · exact congrArg BitVec.toNat he

theorem State.onlyCells_reply (s : State) (r : Req) (type status args : Nat) (payload : Bytes)
    (hr : (s.port r.port.val).Roomy) (hn : payload.length ≤ 8192) :
    (s.port r.port.val).OnlyCells ((s.reply r type status args payload).port r.port.val) := by
  obtain ⟨c, p, q, _, _, _, h⟩ := s.port_reply r type status args payload hr hn
  rw [h]
  rfl

theorem PortSt.OnlyCells.heard {v w : PortSt} {c n : Nat} (h : (v.gets c n).OnlyCells w) : v.OnlyCells w := h

theorem State.onlyCells_reply_heard (s : State) (n : Nat) (r : Req) (type status args : Nat) (payload : Bytes)
    (hr : (s.port r.port.val).Roomy) (hn : payload.length ≤ 8192) :
    (s.port r.port.val).OnlyCells (((s.heard r.port.val n (chanNo r.chan)).reply r type status args payload).port r.port.val) := by
  have h := (s.heard r.port.val n (chanNo r.chan)).onlyCells_reply r type status args payload (State.roomy_heard hr n _) hn
  rw [State.port_heard] at h
  exact h.heard

/-- A reply from a state whose port only heard the request. -/
theorem State.onlyCells_reply_of {s u : State} {r : Req} {n : Nat} (hr : (s.port r.port.val).Roomy)
    (hu : u.port r.port.val = (s.heard r.port.val n (chanNo r.chan)).port r.port.val) (type status args : Nat) (payload : Bytes)
    (hn : payload.length ≤ 8192) :
    (s.port r.port.val).OnlyCells ((u.reply r type status args payload).port r.port.val) := by
  have h := u.onlyCells_reply r type status args payload (by rw [hu]; exact State.roomy_heard hr n _) hn
  rw [hu, State.port_heard] at h
  exact h.heard

theorem State.replied_heard (s : State) (n : Nat) (r : Req) (type status args : Nat) (payload : Bytes)
    (hr : (s.port r.port.val).Roomy) (hn : payload.length ≤ 8192) :
    Replied s ((s.heard r.port.val n (chanNo r.chan)).reply r type status args payload) r type status args payload :=
  State.replied_of_reply (State.roomy_heard hr n _) hn (by simp) (by simp) (by simp [State.nodeId, State.heard])
    (by simp [State.heard])

/-- A request that is admitted is served. -/
theorem State.serve_admitted {s : State} {r : Req} {owner : Bool} (h : s.Admits r owner) (type : Nat)
    (k : State → State) (n echo : Nat) : s.serve r type owner k n echo = k (s.heard r.port.val n (chanNo r.chan)) := by
  obtain ⟨h1, h2, h3⟩ := h
  unfold State.serve
  have ho : (s.heard r.port.val n (chanNo r.chan)).owned r = s.owned r := by simp [State.owned, State.heard]
  cases owner with
  | false => simp [h1, h2]
  | true => simp [h1, h2, ho, h3 rfl]

end Sys2Proof.Machine
end

