-- ==== Sys2Proof/Laws/Objs.lean ====
section
/-! SUPPORT. What storing a numeric object does to the dictionary. -/

namespace Sys2Proof.Machine

variable {s t u : State}

theorem objKey_inj {i j a b : Nat} (hj : j < 256) (hb : b < 256) : objKey i j = objKey a b ↔ i = a ∧ j = b := by
  unfold objKey
  omega

theorem OnlyObjs.refl (l : List (Nat × Nat)) (s : State) : OnlyObjs l s s := ⟨rfl, fun _ _ _ => rfl⟩

theorem OnlyObjs.trans {l m : List (Nat × Nat)} (h : OnlyObjs l s t) (h' : OnlyObjs m t u) : OnlyObjs (l ++ m) s u := by
  refine ⟨?_, fun i j hq => ?_⟩
  · rw [h'.1, h.1]
  · rw [h'.2 i j (fun q hm => hq q (by simp [hm])), h.2 i j (fun q hm => hq q (by simp [hm]))]

/-- A state with the same dictionary and slot number. -/
theorem OnlyObjs.of_eq (l : List (Nat × Nat)) (hd : t.dict = s.dict) (hi : t.power.ids = s.power.ids) : OnlyObjs l s t := by
  refine ⟨by rw [hd], fun i j _ => ?_⟩
  simp [State.obj, hd, objDefault, hi]

theorem onlyObjs_put (s : State) (i j v : Nat) : OnlyObjs [(i, j)] s (s.put i j v) := by
  refine ⟨rfl, fun a b h => ?_⟩
  rw [State.obj_put, if_neg (h (i, j) (by simp))]

theorem onlyObjs_bump (s : State) (i j n : Nat) : OnlyObjs [(i, j)] s (s.bump i j n) := onlyObjs_put ..

theorem onlyObjs_bumpSat (s : State) (i j n : Nat) : OnlyObjs [(i, j)] s (s.bumpSat i j n) := onlyObjs_put ..

/-- A counter of 64 bits wraps. -/
theorem obj_bump_64 (s : State) {i j : Nat} (n : Nat) (h : objBits i j = 64) :
    (s.bump i j n).obj i j = (s.obj i j + n) % 2 ^ 64 := by
  simp only [State.bump, State.obj_put, if_true, h, Nat.mod_mod]

theorem obj_bumpSat_same (s : State) {i j : Nat} (n : Nat) (h : objBits i j ≤ 64) :
    (s.bumpSat i j n).obj i j = min (s.obj i j + n) (2 ^ objBits i j - 1) := by
  have h1 : min (s.obj i j + n) (2 ^ objBits i j - 1) < 2 ^ objBits i j := by
    have := Nat.two_pow_pos (objBits i j)
    omega
  have h2 : 2 ^ objBits i j ≤ 2 ^ 64 := Nat.pow_le_pow_right (by omega) h
  simp only [State.bumpSat, State.obj_put, if_true]
  rw [Nat.mod_eq_of_lt h1, Nat.mod_eq_of_lt (Nat.lt_of_lt_of_le h1 h2)]

theorem objBits_portCounter (x : Port) (j : Nat) (h : j ∈ [0x0B, 0x0C, 0x0D, 0x0E, 0x0F]) : objBits (0x1110 + x.val) j = 64 := by
  revert x
  simp only [List.mem_cons, List.not_mem_nil, or_false] at h
  obtain rfl | rfl | rfl | rfl | rfl := h <;> decide

theorem objBits_loopResult (x : Port) : objBits (0x1110 + x.val) 8 = 64 := by revert x; decide
theorem objBits_retrains (x : Port) : objBits (0x1110 + x.val) 0x10 = 32 := by revert x; decide

end Sys2Proof.Machine
end

