-- ==== Sys2Proof/Laws/Raise.lean ====
section
/-! SUPPORT. What raising an error record does when the next slot of the ring is free. -/

namespace Sys2Proof.Machine

theorem Tab.get_of_find {α : Type} (t : Tab α) (d : α) (k : Nat) :
    t.get d k = ((t.find? (fun x => decide (x.1 = k))).map Prod.snd).getD d := by
  induction t with
  | nil => rfl
  | cons e t ih =>
    obtain ⟨i, w⟩ := e
    by_cases h : i = k <;> simp [Tab.get, h, ih]

theorem Tab.find_set {α : Type} (t : Tab α) (k : Nat) (v : α) :
    ((t.set k v).find? (fun x => decide (x.1 = k))).map Prod.snd = some v := by
  induction t with
  | nil => simp [Tab.set]
  | cons e t ih =>
    obtain ⟨i, w⟩ := e
    simp only [Tab.set]
    by_cases h : i = k
    · simp [h]
    · simp only [h, if_false]
      split
      · simp
      · simpa [h] using ih

theorem State.SlotFree.get {s : State} (h : s.SlotFree) {d : Rec} (hd : d.open = false) :
    (s.errors.ring.get d (s.errors.next.toNat % 64)).open = false := by
  rw [Tab.get_of_find]
  cases e : s.errors.slot s.errors.next with
  | none =>
    simp only [Errors.slot] at e
    rw [e]
    exact hd
  | some r =>
    have := h r e
    simp only [Errors.slot] at e
    rw [e]
    exact this

theorem State.placeRecord_slot (s : State) (r : Rec) : (s.placeRecord r).errors.slot r.seq = some r := by
  unfold State.placeRecord Errors.slot
  simp only [State.setErrors_errors]
  exact Tab.find_set ..

theorem State.placeRecord_next (s : State) (r : Rec) : (s.placeRecord r).errors.next = r.seq + 1 := by
  unfold State.placeRecord
  simp only [State.setErrors_errors]

theorem State.capture_ring (s : State) (a b c d : Nat) :
    (s.capture a b c d).1.errors.ring = s.errors.ring ∧ (s.capture a b c d).1.errors.next = s.errors.next := by
  unfold State.capture
  dsimp only
  (repeat' split) <;> simp

/-- A capture within 10 ms of the last one is only counted. -/
theorem State.capture_near {s : State} {a t : Nat} (trigger p seq : Nat) (h : s.observe.lastDump = some a)
    (hn : t < a + dumpSpacing) : (s.capture trigger p seq t).1 = s.bumpSat 0x9030 3 1 := by
  unfold State.capture
  simp only [h, hn, decide_true, if_true]

/-- Any other capture keeps a dump, the newest last, and the last four of them. -/
theorem State.capture_far {s : State} {t : Nat} (trigger p seq : Nat)
    (h : ∀ a, s.observe.lastDump = some a → a + dumpSpacing ≤ t) :
    ∃ image, (s.capture trigger p seq t).1 =
      (((s.draw.setErrors { s.errors with dumps := (s.errors.dumps ++ [image]).drop (s.errors.dumps.length - 3) }).setObserve
        { s.observe with lastDump := some t, dumpNo := s.observe.dumpNo + 1 }).bumpSat 0x9030 2 1).freezeSource 1 t := by
  unfold State.capture
  cases e : s.observe.lastDump with
  | none => exact ⟨_, rfl⟩
  | some a =>
    have hn : decide (t < a + dumpSpacing) = false := decide_eq_false (by have := h a e; omega)
    simp only [hn]
    exact ⟨_, rfl⟩

@[simp] theorem State.freezeSource_gov (s : State) (n t : Nat) :
    (s.freezeSource n t).dict.gov = s.dict.gov := by
  unfold State.freezeSource State.freezeCounters
  dsimp only
  (repeat' split) <;> simp

@[simp] theorem State.capture_gov (s : State) (a b c d : Nat) : (s.capture a b c d).1.dict.gov = s.dict.gov := by
  unfold State.capture
  dsimp only
  (repeat' split) <;> simp

/-- What a freeze of the counters may store. -/
theorem State.freezeSource_obj (s : State) (n i j t : Nat) (h : objKey i j ≠ objKey 0x9001 6)
    (h' : objKey i j ≠ objKey 0x9001 9) : (s.freezeSource n t).obj i j = s.obj i j := by
  unfold State.freezeSource State.freezeCounters
  dsimp only
  (repeat' split) <;> simp [State.obj_put, State.bumpSat, h, h']

/-- With room in its slot a record is raised as it is reported. -/
theorem State.raiseAs_raised {s : State} (h : s.SlotFree) (rep : Report) :
    Raised s (s.raiseAs rep false 0) (fun r => r = rep) := by
  have ho := h.get (d := ⟨0, 0, 0, .done, false, false, true, 0, rep⟩) rfl
  have hcu : (s.draw.countUncorr rep).clock = s.clock :=
    changes_of_keep (W := [.dict, .errors, .free]) (by simp) .clock (by simp) (by simp)
  obtain ⟨u, e, hu⟩ : ∃ u : State, u = (if 2 ≤ rep.severity.toNat then
      (s.draw.countUncorr rep).freezeSource 2 s.timeNow else s.draw.countUncorr rep) ∧ u.clock = s.clock := by
    refine ⟨_, rfl, ?_⟩
    split
    · rw [State.freezeSource_clock, hcu]
    · exact hcu
  have key : Raised s (u.placeRecord ⟨s.errors.next, u.clock.epoch, s.stampOf mgmtClock s.timeNow, .queued, false, false, false, 0, rep⟩)
      (fun r => r = rep) :=
    ⟨_, State.placeRecord_slot .., rfl, by rw [hu], rfl, rfl, rfl, State.placeRecord_next .., rfl⟩
  unfold State.raiseAs
  dsimp only
  simp only [ho, Bool.false_eq_true, false_or, if_false]
  rw [← e]
  split
  · obtain ⟨r, h1, h2, h3, h4, h5, h6, h7, h8⟩ := key
    refine ⟨r, ?_, h2, h3, h4, h5, h6, ?_, h8⟩
    · rw [← h1]
      simp only [Errors.slot, (State.capture_ring _ _ _ _ _).1]
    · rw [← h7]
      simp only [(State.capture_ring _ _ _ _ _).2]
  · exact key

/-- The record that the module itself raises. -/
theorem State.raise_raised {s : State} (h : s.SlotFree) (rep : Report) :
    Raised s (s.raise rep) (fun r => { r with detail := rep.detail } = rep) := by
  obtain ⟨r, h1, h2, h3, h4, h5, h6, h7, h8⟩ := s.raiseAs_raised h
    (if detailStated rep.cause.toNat then rep else { rep with detail := Config.recordDetail s.free })
  refine ⟨r, h1, h2, h3, h4, h5, h6, h7, ?_⟩
  rw [h8]
  split <;> rfl

theorem State.raise_raised_stated {s : State} (h : s.SlotFree) {rep : Report} (hd : detailStated rep.cause.toNat = true) :
    Raised s (s.raise rep) (fun r => r = rep) := by
  have := s.raiseAs_raised h rep
  rwa [State.raise, if_pos hd]

/-- Records raised from a state that agrees in the ring and the epoch. -/
theorem Raised.of_eq {s u t : State} {ok : Report → Prop} (h : Raised u t ok) (he : u.errors = s.errors)
    (hc : u.clock = s.clock) : Raised s t ok := by
  simpa only [Raised, he, hc] using h

end Sys2Proof.Machine
end

