-- ==== Sys2Proof/Laws/Control.lean ====
section
/-! SUPPORT. What an accepted write does: the request is heard, the object is written, and OK is answered. -/

namespace Sys2Proof.Machine

/-! ## Hearing a frame changes no check of a write -/

@[simp] theorem State.node_heard (s : State) (x n c y : Nat) : ((s.heard x n c).port y).node = (s.port y).node := by
  unfold State.heard
  rw [State.port_setPort]
  split
  · rename_i h; subst h; rfl
  · rfl

@[simp] theorem State.taken_heard (s : State) (x n c : Nat) : (s.heard x n c).taken = s.taken := by simp [State.taken]
@[simp] theorem State.anyActive_heard (s : State) (x n c : Nat) : (s.heard x n c).anyActive = s.anyActive := by simp [State.anyActive]
@[simp] theorem State.gated_heard (s : State) (x n c : Nat) : (s.heard x n c).gated = s.gated := by simp [State.gated]
@[simp] theorem State.debugState_heard (s : State) (x n c : Nat) : (s.heard x n c).debugState = s.debugState := by simp [State.debugState]
@[simp] theorem State.space_heard (s : State) (x n c k : Nat) : (s.heard x n c).space k = s.space k := by simp [State.space]
@[simp] theorem State.ctxs_heard (s : State) (x n c : Nat) : (s.heard x n c).ctxs = s.ctxs := rfl

theorem State.portRights_heard (s : State) (x n c : Nat) (y : Port) (i j v : Nat) :
    (s.heard x n c).portRights y i j v = s.portRights y i j v := by
  simp [State.portRights, State.mayPart, State.mayBank, State.mayNs]

theorem State.stateRights_heard (s : State) (x n c i j v : Nat) : (s.heard x n c).stateRights i j v = s.stateRights i j v := by
  simp [State.stateRights]

theorem State.isLocked_heard (s : State) (x n c : Nat) (d : ObjDef) (i j v : Nat) :
    (s.heard x n c).isLocked d i j v = s.isLocked d i j v := by
  simp [State.isLocked, State.isHeld, State.heldIndex]

theorem State.valueOk_heard (s : State) (x n c : Nat) (w : Option Port) (i j v : Nat) :
    (s.heard x n c).valueOk w i j v = s.valueOk w i j v := by
  simp [State.valueOk, State.tickOk, State.unfreezeOk, State.traceOk, State.holdAllowed, State.testAllowed]

theorem State.accessFault_heard (s : State) (x n c : Nat) (w : Option Port) (d : ObjDef) (i j : Nat) (v : Bytes) :
    (s.heard x n c).accessFault w d i j v = s.accessFault w d i j v := by
  unfold State.accessFault
  cases w with
  | none => simp only [State.stateRights_heard, State.isLocked_heard]
  | some y => simp only [State.portRights_heard, State.stateRights_heard, State.isLocked_heard]

/-- The check of a write sees nothing of the cells received. -/
theorem State.checkWrite_heard (s : State) (x n c : Nat) (w : Option Port) (i j : Nat) (v : Bytes) :
    (s.heard x n c).checkWrite w i j v = s.checkWrite w i j v := by
  unfold State.checkWrite
  simp only [State.accessFault_heard, State.valueOk_heard]

/-! ## A write that meets no refusal -/

/-- What a write that is OK has passed. -/
theorem State.checkWrite_ok {s : State} {w : Option Port} {i j : Nat} {v : Bytes} (h : s.checkWrite w i j v = stOk) :
    ∃ d, findAny i j = .ok d ∧ s.accessFault w d i j v = none := by
  unfold State.checkWrite at h
  cases hf : findAny i j with
  | error e =>
    rw [hf] at h
    exfalso
    unfold findAny at hf
    (repeat' split at hf) <;> simp_all [stOk, stNoObject, stNoSub]
  | ok d =>
    rw [hf] at h
    refine ⟨d, rfl, ?_⟩
    cases ha : s.accessFault w d i j v with
    | none => rfl
    | some e =>
      simp only [ha] at h
      exfalso
      unfold State.accessFault at ha
      dsimp only at ha
      (repeat' split at ha) <;> simp_all [stOk, stNotWritable, stDenied, stLocked]

/-- A control that meets no refusal is heard, carried out or put down for the boundary, and answered. -/
theorem State.controlWrite_ok {s : State} {r : Req} {i j : Nat} {v : Bytes} (at' : Nat) (ha : s.Admits r true)
    (hc : s.checkWrite (some r.port) i j v = stOk) (hp : isPersistent i j v = false) :
    s.controlWrite r i j v at' =
      (((s.heard r.port.val v.length (chanNo r.chan)).accept (some r.port) i j v at').dictReply { r with seg := 0, segLast := true } 0x11
        stOk i j v.length 0 true []).resetEarly := by
  have hc' := hc
  rw [← s.checkWrite_heard r.port.val v.length (chanNo r.chan)] at hc'
  obtain ⟨d, h1, h2⟩ := State.checkWrite_ok hc'
  unfold State.controlWrite
  rw [State.serve_admitted ha]
  unfold State.firstSegment
  simp only [h1, h2, if_true, ne_eq, not_true_eq_false, if_false, State.wholeWrite, hc', hp]
  rfl

theorem State.resetEarly_off {s : State} (h : s.clock.running = true ∨ s.power.resetAt = none) : s.resetEarly = s := by
  unfold State.resetEarly
  rw [if_pos]
  rcases h with h | h <;> simp [h]

/-! ## Values -/

theorem numOf_bytesOf (n v : Nat) (h : v < 2 ^ (8 * n)) : numOf (bytesOf n v) = v := by
  induction n generalizing v with
  | zero => simp at h; simp [bytesOf, numOf, h]
  | succ n ih =>
    have : v / 256 < 2 ^ (8 * n) := by
      rw [Nat.div_lt_iff_lt_mul (by omega)]
      calc v < 2 ^ (8 * (n + 1)) := h
        _ = 2 ^ (8 * n) * 256 := by rw [show 8 * (n + 1) = 8 * n + 8 by ring, Nat.pow_add]
    simp only [bytesOf, numOf, ih _ this, BitVec.toNat_ofNat]
    omega

theorem length_bytesOf (n v : Nat) : (bytesOf n v).length = n := by
  induction n generalizing v with
  | zero => rfl
  | succ n ih => simp [bytesOf, ih]

theorem allBits_eq : allBits = 2 ^ 64 - 1 := by decide

/-- A numeric value whose every bit can be written is stored as it comes. -/
theorem ObjDef.valueIn_all {d : ObjDef} {n v : Nat} (hb : d.isBytes = false) (hm : d.mask = allBits) (h : v < 2 ^ (8 * n))
    (hn : n ≤ 8) : d.valueIn (bytesOf n v) = v := by
  unfold ObjDef.valueIn
  rw [hb, hm, if_neg (by simp), numOf_bytesOf n v h, allBits_eq]
  show v &&& (2 ^ 64 - 1) = v
  rw [Nat.and_two_pow_sub_one_eq_mod]
  exact Nat.mod_eq_of_lt (Nat.lt_of_lt_of_le h (Nat.pow_le_pow_right (by omega) (by omega)))

theorem field_fit {w lo v : Nat} (h : v < 2 ^ w) : field w lo v = v * 2 ^ lo := by
  unfold field
  rw [Nat.mod_eq_of_lt h]

/-- A reply to a dictionary frame. -/
theorem State.dictReply_eq (s : State) (r : Req) (ty st : Nat) {i j total token : Nat} (b : Bool) (pl : Bytes)
    (hi : i < 2 ^ 16) (hj : j < 2 ^ 8) (ht : total < 2 ^ 32) (hk : token < 2 ^ 16) (hc : typeCode i j < 2 ^ 8) :
    s.dictReply r ty st i j total token b pl =
      s.reply { r with segLast := b } ty st (dictArgs i j total token (typeCode i j)) pl := by
  unfold State.dictReply dictArgs
  rw [field_fit hi, field_fit hj, field_fit ht, field_fit hk, field_fit hc]

/-- What the row of a numeric control says. -/
structure ObjDef.Control (i j ty : Nat) (d : ObjDef) : Prop where
  row : findObj i j = some d
  wo : d.access = 3
  once : d.persist = false
  number : d.isBytes = false
  mask : d.mask = allBits
  type : typeCode i j = ty
  index : i < 2 ^ 16
  sub : j < 2 ^ 8
  short : ty < 2 ^ 8
  other : i ≠ 0x1002

/-- The check of that row. -/
def controlRow (i j ty : Nat) : Bool :=
  match findObj i j with
  | none => false
  | some d => decide (d.access = 3) && !d.persist && !d.isBytes && decide (d.mask = allBits) && decide (typeCode i j = ty)
      && decide (i < 2 ^ 16) && decide (j < 2 ^ 8) && decide (ty < 2 ^ 8) && decide (i ≠ 0x1002)

theorem controlRow_spec {i j ty : Nat} (h : controlRow i j ty = true) : ∃ d : ObjDef, d.Control i j ty := by
  unfold controlRow at h
  split at h
  · simp at h
  · rename_i d e
    simp only [Bool.and_eq_true, decide_eq_true_eq, Bool.not_eq_true'] at h
    obtain ⟨⟨⟨⟨⟨⟨⟨⟨h1, h2⟩, h3⟩, h4⟩, h5⟩, h6⟩, h7⟩, h8⟩, h9⟩ := h
    exact ⟨d, e, h1, h2, h3, h4, h5, h6, h7, h8, h9⟩

set_option maxRecDepth 20000 in
theorem controlRow_part (p : Part) : controlRow (0x2010 + p.val) 0x10 2 = true := by revert p; decide
set_option maxRecDepth 20000 in
theorem controlRow_bank (p : Part) (n : Ctx) : controlRow (0x2050 + p.val) (n.val + 1) 3 = true := by revert p n; decide
set_option maxRecDepth 20000 in
theorem controlRow_ns (k : NsId) : controlRow (0x4100 + k.val) 3 2 = true := by revert k; decide
set_option maxRecDepth 20000 in
theorem controlRow_attn (x : Port) : controlRow (0x1110 + x.val) 9 2 = true := by revert x; decide
set_option maxRecDepth 20000 in
theorem controlRow_unfreeze (x : Port) : controlRow (0x1420 + x.val) 3 3 = true := by revert x; decide
set_option maxRecDepth 20000 in
theorem controlRow_port (x : Port) : controlRow (0x1110 + x.val) 5 2 = true := by revert x; decide
set_option maxRecDepth 20000 in
theorem controlRow_loopRun (x : Port) : controlRow (0x1110 + x.val) 7 3 = true := by revert x; decide
set_option maxRecDepth 20000 in
theorem controlRow_state : controlRow 0x7000 2 2 = true := by decide
set_option maxRecDepth 20000 in
theorem controlRow_reset : controlRow 0x8000 5 4 = true := by decide
set_option maxRecDepth 20000 in
theorem controlRow_life : controlRow 0xA000 3 2 = true := by decide
set_option maxRecDepth 20000 in
theorem controlRow_freeze : controlRow 0x9001 1 2 = true := by decide
set_option maxRecDepth 20000 in
theorem controlRow_dump : controlRow 0x9030 1 2 = true := by decide
set_option maxRecDepth 20000 in
theorem controlRow_hold : controlRow 0x9050 1 2 = true := by decide
set_option maxRecDepth 20000 in
theorem controlRow_test : controlRow 0x9050 3 4 = true := by decide

theorem ObjDef.Control.accept {i j ty : Nat} {d : ObjDef} (h : d.Control i j ty) {s : State} {w : Option Port}
    {n v at' : Nat} (hv : v < 2 ^ (8 * n)) (hn : n ≤ 8) : s.accept w i j (bytesOf n v) at' =
      match s.actNow w i j v (bytesOf n v) at' with
      | some s => s
      | none => s.setDict { s.dict with ctl := s.dict.ctl ++ [⟨w, i, j, v⟩] } := by
  unfold State.accept
  simp only [h.row, h.wo, if_true, ObjDef.valueIn_all h.number h.mask hv hn]
  all_goals (cases s.actNow w i j v (bytesOf n v) at' <;> rfl)

theorem ObjDef.Control.notPersistent {i j ty : Nat} {d : ObjDef} (h : d.Control i j ty) (v : Bytes) :
    isPersistent i j v = false := by
  unfold isPersistent
  simp [h.row, h.once, h.other]

/-- Controls that are not carried out on acceptance. -/
theorem State.actNow_none (s : State) (x : Port) {i j v : Nat} (b : Bytes) (at' : Nat)
    (h : i ≠ 0x1002 ∧ i ≠ 0x9030 ∧ i ≠ 0x8000 ∧ (i = 0x9001 → v = 3) ∧ (i / 4 = 0x444 → j ≠ 7)
      ∧ i / 8 ≠ 0x40A ∧ i ≠ 0xA000 ∧ i / 4 ≠ 0x2806) : s.actNow (some x) i j v b at' = none := by
  obtain ⟨h1, h2, h3, h4, h6, h7, h8, h9⟩ := h
  have r1 : inRun i 0x1110 4 = true → i / 4 = 0x444 := by
    intro h; simp only [inRun, Bool.and_eq_true, decide_eq_true_eq] at h; omega
  have r2 : inRun i 0x2050 8 = false := by
    rw [Bool.eq_false_iff]; intro h; simp only [inRun, Bool.and_eq_true, decide_eq_true_eq] at h; omega
  have r3 : inRun i 0xA018 4 = false := by
    rw [Bool.eq_false_iff]; intro h; simp only [inRun, Bool.and_eq_true, decide_eq_true_eq] at h; omega
  unfold State.actNow
  rw [if_neg h1, if_neg (by omega), if_neg (by omega), if_neg h2, if_neg (fun h => h6 (r1 h.1) h.2),
    if_neg (by simp [r2]), if_neg h3]
  dsimp only
  rw [if_neg (by omega), if_neg (by omega), if_neg (by simp [r3])]

/-- A control that waits for the boundary. -/
theorem State.control_waits {s : State} {r : Req} {i j ty n v : Nat} {d : ObjDef} (h : d.Control i j ty)
    (ha : s.Admits r true) (hr : (s.port r.port.val).Roomy) (he : s.clock.running = true ∨ s.power.resetAt = none)
    (hc : s.checkWrite (some r.port) i j (bytesOf n v) = stOk) (hv : v < 2 ^ (8 * n)) (hn : n ≤ 8)
    (hw : ∀ u : State, u.actNow (some r.port) i j v (bytesOf n v) s.clock.now = none) :
    ∃ t, s.control r i j n v = .next t ∧ Waits s t r i j n ty v := by
  refine ⟨_, rfl, ?_⟩
  rw [State.controlWrite_ok _ ha hc (h.notPersistent _), h.accept hv hn, hw]
  dsimp only
  rw [length_bytesOf]
  have hn' : n < 2 ^ 32 := by omega
  rw [State.dictReply_eq _ _ _ _ _ _ h.index h.sub hn' (by decide) (by rw [h.type]; exact h.short)]
  rw [State.resetEarly_off (by simpa using he), h.type]
  have hr' := State.roomy_heard hr n (chanNo r.chan)
  refine ⟨by simp, ?_, ?_, changes_of_keep (by simp)⟩
  · exact State.replied_of_reply (r := { r with seg := 0, segLast := true }) (s := s) (by simpa using hr') (by simp)
      (by simp) (by simp) (State.gov_congr (by simp) (by simp) _ _) (by simp)
  · exact State.onlyCells_reply_of (r := { r with seg := 0, segLast := true }) (n := n) hr (by simp) _ _ _ _ (by simp)

/-- The request as its reply is made. -/
abbrev wholeReq (r : Req) : Req := { r with seg := 0, segLast := true }

/-- A control that acts on acceptance. -/
theorem State.control_acts {s u : State} {r : Req} {i j ty n v : Nat} {d : ObjDef} (h : d.Control i j ty)
    (hs : s.Serves r) (hc : s.checkWrite (some r.port) i j (bytesOf n v) = stOk) (hv : v < 2 ^ (8 * n)) (hn : n ≤ 8)
    (at' : Nat) (hw : (s.heard r.port.val n (chanNo r.chan)).actNow (some r.port) i j v (bytesOf n v) at' = some u)
    (hu : u.clock.running = true ∨ u.power.resetAt = none) :
    s.controlWrite r i j (bytesOf n v) at' = u.reply (wholeReq r) 0x11 stOk (dictArgs i j n 0 ty) [] := by
  rw [State.controlWrite_ok _ hs.admits hc (h.notPersistent _), h.accept hv hn, length_bytesOf, hw]
  dsimp only
  have hn' : n < 2 ^ 32 := by omega
  rw [State.dictReply_eq _ _ _ _ _ _ h.index h.sub hn' (by decide) (by rw [h.type]; exact h.short)]
  rw [State.resetEarly_off (by simpa using hu), h.type]

/-- The same of a control whose value is bytes, and of any write that is accepted as `u`. -/
theorem State.write_acts {s u : State} {r : Req} {i j ty : Nat} {v : Bytes} (hs : s.Serves r)
    (hc : s.checkWrite (some r.port) i j v = stOk) (hp : isPersistent i j v = false) (ht : typeCode i j = ty)
    (hi : i < 2 ^ 16) (hj : j < 2 ^ 8) (hy : ty < 2 ^ 8) (hl : v.length < 2 ^ 32) (at' : Nat)
    (hw : (s.heard r.port.val v.length (chanNo r.chan)).accept (some r.port) i j v at' = u)
    (hu : u.clock.running = true ∨ u.power.resetAt = none) :
    s.controlWrite r i j v at' = u.reply (wholeReq r) 0x11 stOk (dictArgs i j v.length 0 ty) [] := by
  rw [State.controlWrite_ok _ hs.admits hc hp, hw,
    State.dictReply_eq _ _ _ _ _ _ hi hj hl (by decide) (by rw [ht]; exact hy), State.resetEarly_off (by simpa using hu), ht]

/-- The reply of an accepted write, from a state whose port only heard the request. -/
theorem State.accepted_of {s u : State} {r : Req} {m : Nat} (hs : s.Serves r)
    (hp : u.port r.port.val = (s.heard r.port.val m (chanNo r.chan)).port r.port.val) (hg : u.dict.gov = s.dict.gov)
    (hi : u.power.ids = s.power.ids) (hc : u.clock = s.clock) (i j n ty : Nat) :
    Accepted s (u.reply (wholeReq r) 0x11 stOk (dictArgs i j n 0 ty) []) r i j n ty := by
  refine State.replied_of_reply (r := (wholeReq r)) (s := s) ?_ (by simp) ?_ ?_ (State.gov_congr hg hi _ _) (by rw [hc])
  · rw [hp]; exact State.roomy_heard hs.roomy m _
  · rw [hp]; simp
  · rw [hp]; simp

/-! ## Banks -/

theorem Context.banks_setBanks (c : Context) (k j : Kind) (b : Banks) :
    (c.setBanks k b).banks j = if j = k then b else c.banks j := by
  cases k <;> cases j <;> rfl

theorem Context.banks_updBanks (c : Context) (ks : List Kind) (f : Banks → Banks) (hn : ks.Nodup) (j : Kind) :
    (c.updBanks ks f).banks j = if j ∈ ks then f (c.banks j) else c.banks j := by
  unfold Context.updBanks
  induction ks generalizing c with
  | nil => simp
  | cons k ks ih =>
    rw [List.nodup_cons] at hn
    rw [List.foldl_cons, ih _ hn.2, Context.banks_setBanks]
    by_cases h : j = k
    · subst h
      simp [hn.1]
    · simp [h]

theorem nodup_kindsOf (v : Nat) : (kindsOf v).Nodup := List.Nodup.filter _ (by decide)

/-- The kinds that a BANK_CONTROL of an action selects. -/
theorem mem_kindsOf (a : Nat) (w : BitVec 5) (k : Kind) (ha : a < 4) :
    k ∈ kindsOf (a * 2 ^ 14 + w.toNat) ↔ w.getLsbD (kindNo k) = true := by
  have hb : bitOf (a * 2 ^ 14 + w.toNat) (kindNo k) = w.getLsbD (kindNo k) := by
    have : a = 0 ∨ a = 1 ∨ a = 2 ∨ a = 3 := by omega
    rcases this with rfl | rfl | rfl | rfl <;> cases k <;> revert w <;> decide
  unfold kindsOf
  rw [List.mem_filter, hb]
  exact ⟨fun h => h.2, fun h => ⟨by cases k <;> decide, h⟩⟩

end Sys2Proof.Machine
end

