-- ==== Sys2Proof/Laws/PerInstr.lean ====
section
/-! SUPPORT. One lemma per command: no command touches the queue. -/

namespace Sys2Proof.Laws.Queue

open Sys2Proof.Machine

/-- The places that a command may change do not include the queue, which only a step shortens. -/
def Statement (i : Instr) : Prop := Place.pending ∉ instrPlaces i

theorem untouched {i : Instr} (h : decide (Place.pending ∈ instrPlaces i) = false) : Statement i := of_decide_eq_false h

theorem tickBoundary : Statement (Instr.tickBoundary) := untouched rfl
theorem partitionResetDone (p : Part) : Statement (.partitionResetDone p) := untouched rfl
theorem movePeriodStart (p : Part) : Statement (.movePeriodStart p) := untouched rfl
theorem partitionUnitsIdle (p : Part) (t : Nat) : Statement (.partitionUnitsIdle p t) := untouched rfl
theorem tickOverrun (p : Part) : Statement (.tickOverrun p) := untouched rfl
theorem flagFall (p : Part) (step : BitVec 12) : Statement (.flagFall p step) := untouched rfl
theorem stepStop (p : Part) (q : Queue) : Statement (.stepStop p q) := untouched rfl
theorem hangWatchdog (p : Part) : Statement (.hangWatchdog p) := untouched rfl
theorem stepComplete (p : Part) (q : Queue) : Statement (.stepComplete p q) := untouched rfl
theorem loadw (p : Part) : Statement (.loadw p) := untouched rfl
theorem stream (p : Part) : Statement (.stream p) := untouched rfl
theorem drain (p : Part) : Statement (.drain p) := untouched rfl
theorem sfn (p : Part) : Statement (.sfn p) := untouched rfl
theorem normStats (p : Part) : Statement (.normStats p) := untouched rfl
theorem normApply (p : Part) : Statement (.normApply p) := untouched rfl
theorem chainRecur (p : Part) : Statement (.chainRecur p) := untouched rfl
theorem chainPrefix (p : Part) : Statement (.chainPrefix p) := untouched rfl
theorem chainOrtho (p : Part) : Statement (.chainOrtho p) := untouched rfl
theorem pqtab (p : Part) : Statement (.pqtab p) := untouched rfl
theorem selectLargest (p : Part) : Statement (.selectLargest p) := untouched rfl
theorem selectSmallest (p : Part) : Statement (.selectSmallest p) := untouched rfl
theorem selectSample (p : Part) : Statement (.selectSample p) := untouched rfl
theorem fetch (p : Part) : Statement (.fetch p) := untouched rfl
theorem scan (p : Part) : Statement (.scan p) := untouched rfl
theorem check (p : Part) : Statement (.check p) := untouched rfl
theorem walk (p : Part) : Statement (.walk p) := untouched rfl
theorem walkRerank (p : Part) : Statement (.walkRerank p) := untouched rfl
theorem reduceP (p : Part) : Statement (.reduceP p) := untouched rfl
theorem reduceQ (p : Part) : Statement (.reduceQ p) := untouched rfl
theorem wait (p : Part) : Statement (.wait p) := untouched rfl
theorem mark (p : Part) : Statement (.mark p) := untouched rfl
theorem loop (p : Part) : Statement (.loop p) := untouched rfl
theorem endStep (p : Part) (t : Nat) : Statement (.endStep p t) := untouched rfl
theorem trWrite (r : Req) (set : SetId) (go : Bool) (first count : Fin 16) (payload : Bytes) : Statement (.trWrite r set go first count payload) := untouched rfl
theorem commandStart (x : Port) (s : SetId) : Statement (.commandStart x s) := untouched rfl
theorem trRead (r : Req) (set : SetId) (first count : Fin 16) : Statement (.trRead r set first count) := untouched rfl
theorem dbRead (r : Req) (clear : BitVec 32) : Statement (.dbRead r clear) := untouched rfl
theorem dataPushInput (r : Req) (set : SetId) (offset : BitVec 48) (payload : Bytes) : Statement (.dataPushInput r set offset payload) := untouched rfl
theorem dataPushMemory (r : Req) (set : SetId) (addr : BitVec 48) (payload : Bytes) : Statement (.dataPushMemory r set addr payload) := untouched rfl
theorem dataPullOutput (r : Req) (set : SetId) (offset : BitVec 48) (length : BitVec 14) : Statement (.dataPullOutput r set offset length) := untouched rfl
theorem dataPullMemory (r : Req) (set : SetId) (addr : BitVec 48) (length : BitVec 14) : Statement (.dataPullMemory r set addr length) := untouched rfl
theorem claim (r : Req) (inst : BitVec 64) : Statement (.claim r inst) := untouched rfl
theorem release (r : Req) : Statement (.release r) := untouched rfl
theorem status (r : Req) : Statement (.status r) := untouched rfl
theorem echo (r : Req) (payload : Bytes) : Statement (.echo r payload) := untouched rfl
theorem dictRead (r : Req) (idx : BitVec 16) (sub : Byte) (describe : Bool) (token : BitVec 16) : Statement (.dictRead r idx sub describe token) := untouched rfl
theorem dictWrite (r : Req) (idx : BitVec 16) (sub : Byte) (total : BitVec 32) (token : BitVec 16) (payload : Bytes) : Statement (.dictWrite r idx sub total token payload) := untouched rfl
theorem persistWriteDone (idx : BitVec 16) (sub : Byte) : Statement (.persistWriteDone idx sub) := untouched rfl
theorem segmentTimeout (x : Port) (token : BitVec 16) : Statement (.segmentTimeout x token) := untouched rfl
theorem frameForward (x : Port) (f : Transit) : Statement (.frameForward x f) := untouched rfl
theorem codewordFail (x : Port) : Statement (.codewordFail x) := untouched rfl
theorem nakReceived (x : Port) (ackSeq : BitVec 12) : Statement (.nakReceived x ackSeq) := untouched rfl
theorem ackTimer (x : Port) : Statement (.ackTimer x) := untouched rfl
theorem helloTimer (x : Port) : Statement (.helloTimer x) := untouched rfl
theorem helloReceive (x : Port) (h : Hello) : Statement (.helloReceive x h) := untouched rfl
theorem portAlign (x : Port) : Statement (.portAlign x) := untouched rfl
theorem trainTimeout (x : Port) : Statement (.trainTimeout x) := untouched rfl
theorem alignmentLost (x : Port) : Statement (.alignmentLost x) := untouched rfl
theorem retrainTimeout (x : Port) : Statement (.retrainTimeout x) := untouched rfl
theorem ownerLapse (x : Port) : Statement (.ownerLapse x) := untouched rfl
theorem portRetrain (r : Req) (x : Port) : Statement (.portRetrain r x) := untouched rfl
theorem portDisable (r : Req) (x : Port) : Statement (.portDisable r x) := untouched rfl
theorem portEnable (r : Req) (x : Port) : Statement (.portEnable r x) := untouched rfl
theorem loopbackWrite (r : Req) (x : Port) (v : Byte) : Statement (.loopbackWrite r x v) := untouched rfl
theorem loopRun (r : Req) (x : Port) (ms : BitVec 16) : Statement (.loopRun r x ms) := untouched rfl
theorem loopRunEnd (x : Port) (good failed : Nat) : Statement (.loopRunEnd x good failed) := untouched rfl
theorem identify (x : Port) (s : SetId) : Statement (.identify x s) := untouched rfl
theorem logRead (x : Port) (s : SetId) : Statement (.logRead x s) := untouched rfl
theorem features (x : Port) (s : SetId) : Statement (.features x s) := untouched rfl
theorem fwDownload (x : Port) (s : SetId) : Statement (.fwDownload x s) := untouched rfl
theorem fwCommitVerify (x : Port) (s : SetId) : Statement (.fwCommitVerify x s) := untouched rfl
theorem fwCommitInstall (x : Port) (s : SetId) : Statement (.fwCommitInstall x s) := untouched rfl
theorem sanitizeBlockErase (x : Port) (s : SetId) : Statement (.sanitizeBlockErase x s) := untouched rfl
theorem sanitizeCryptoErase (x : Port) (s : SetId) : Statement (.sanitizeCryptoErase x s) := untouched rfl
theorem read (x : Port) (s : SetId) : Statement (.read x s) := untouched rfl
theorem write (x : Port) (s : SetId) : Statement (.write x s) := untouched rfl
theorem writePieceAccept (x : Port) (s : SetId) : Statement (.writePieceAccept x s) := untouched rfl
theorem dataTimeout (x : Port) (s : SetId) : Statement (.dataTimeout x s) := untouched rfl
theorem pieceProgramDone (group : Nat) : Statement (.pieceProgramDone group) := untouched rfl
theorem discard (x : Port) (s : SetId) : Statement (.discard x s) := untouched rfl
theorem secureDiscard (x : Port) (s : SetId) : Statement (.secureDiscard x s) := untouched rfl
theorem flush (x : Port) (s : SetId) : Statement (.flush x s) := untouched rfl
theorem mapSegments (x : Port) (s : SetId) : Statement (.mapSegments x s) := untouched rfl
theorem checkCommand (x : Port) (s : SetId) : Statement (.checkCommand x s) := untouched rfl
theorem contextCreate (x : Port) (s : SetId) : Statement (.contextCreate x s) := untouched rfl
theorem contextRelease (x : Port) (s : SetId) : Statement (.contextRelease x s) := untouched rfl
theorem contextTeardown (x : Port) (s : SetId) : Statement (.contextTeardown x s) := untouched rfl
theorem stageModelTable (x : Port) (s : SetId) : Statement (.stageModelTable x s) := untouched rfl
theorem stageModelScales (x : Port) (s : SetId) : Statement (.stageModelScales x s) := untouched rfl
theorem stageModelSfTables (x : Port) (s : SetId) : Statement (.stageModelSfTables x s) := untouched rfl
theorem stageModelFar (x : Port) (s : SetId) : Statement (.stageModelFar x s) := untouched rfl
theorem stageModelDistance (x : Port) (s : SetId) : Statement (.stageModelDistance x s) := untouched rfl
theorem loadCheck (x : Port) (s : SetId) (t : Nat) : Statement (.loadCheck x s t) := untouched rfl
theorem stagingComplete (x : Port) (s : SetId) : Statement (.stagingComplete x s) := untouched rfl
theorem scanCommand (x : Port) (s : SetId) : Statement (.scanCommand x s) := untouched rfl
theorem embed (x : Port) (s : SetId) : Statement (.embed x s) := untouched rfl
theorem inferStep (x : Port) (s : SetId) : Statement (.inferStep x s) := untouched rfl
theorem refitStep (x : Port) (s : SetId) : Statement (.refitStep x s) := untouched rfl
theorem searchAttach (x : Port) (s : SetId) : Statement (.searchAttach x s) := untouched rfl
theorem searchDetach (x : Port) (s : SetId) : Statement (.searchDetach x s) := untouched rfl
theorem searchQuery (x : Port) (s : SetId) : Statement (.searchQuery x s) := untouched rfl
theorem searchUpdate (x : Port) (s : SetId) : Statement (.searchUpdate x s) := untouched rfl
theorem updateAccept (x : Port) (s : SetId) : Statement (.updateAccept x s) := untouched rfl
theorem tombstoneReplay (p : Part) (n : Ctx) : Statement (.tombstoneReplay p n) := untouched rfl
theorem partitionCommit (r : Req) (p : Part) : Statement (.partitionCommit r p) := untouched rfl
theorem partitionStart (r : Req) (p : Part) : Statement (.partitionStart r p) := untouched rfl
theorem partitionStop (r : Req) (p : Part) : Statement (.partitionStop r p) := untouched rfl
theorem partitionRelease (r : Req) (p : Part) : Statement (.partitionRelease r p) := untouched rfl
theorem bankArm (r : Req) (p : Part) (n : Ctx) (kinds : BitVec 5) : Statement (.bankArm r p n kinds) := untouched rfl
theorem bankDisarm (r : Req) (p : Part) (n : Ctx) (kinds : BitVec 5) : Statement (.bankDisarm r p n kinds) := untouched rfl
theorem bankDiscard (r : Req) (p : Part) (n : Ctx) (kinds : BitVec 5) : Statement (.bankDiscard r p n kinds) := untouched rfl
theorem nsCreate (r : Req) (ns : NsId) : Statement (.nsCreate r ns) := untouched rfl
theorem nsDelete (r : Req) (ns : NsId) : Statement (.nsDelete r ns) := untouched rfl
theorem tickBaseWrite (r : Req) (v : BitVec 16) : Statement (.tickBaseWrite r v) := untouched rfl
theorem freeFloorWrite (r : Req) (v : BitVec 32) : Statement (.freeFloorWrite r v) := untouched rfl
theorem lockIndex (r : Req) (idx : BitVec 16) : Statement (.lockIndex r idx) := untouched rfl
theorem attnAck (r : Req) (x : Port) (bits : Byte) : Statement (.attnAck r x bits) := untouched rfl
theorem unfreeze (r : Req) (x : Port) (bits : BitVec 16) : Statement (.unfreeze r x bits) := untouched rfl
theorem stateRequest (r : Req) (v : Byte) : Statement (.stateRequest r v) := untouched rfl
theorem powerTransitionDone : Statement (Instr.powerTransitionDone) := untouched rfl
theorem p4EntryComplete : Statement (Instr.p4EntryComplete) := untouched rfl
theorem moduleReset (r : Req) (v : BitVec 32) : Statement (.moduleReset r v) := untouched rfl
theorem lcRequest (r : Req) (v : Byte) : Statement (.lcRequest r v) := untouched rfl
theorem lcToken (r : Req) (token : Bytes) : Statement (.lcToken r token) := untouched rfl
theorem lcArmLapse : Statement (Instr.lcArmLapse) := untouched rfl
theorem attestNonce (r : Req) (x : Port) (nonce : Bytes) : Statement (.attestNonce r x nonce) := untouched rfl
theorem readList (r : Req) (ids : Bytes) : Statement (.readList r ids) := untouched rfl
theorem readerPassDone : Statement (Instr.readerPassDone) := untouched rfl
theorem freezeCounters (r : Req) : Statement (.freezeCounters r) := untouched rfl
theorem releaseCounters (r : Req) : Statement (.releaseCounters r) := untouched rfl
theorem armFreeze (r : Req) : Statement (.armFreeze r) := untouched rfl
theorem freezeLimitExpiry : Statement (Instr.freezeLimitExpiry) := untouched rfl
theorem dumpRequest (r : Req) (t : Nat) : Statement (.dumpRequest r t) := untouched rfl
theorem testHoldEnter (r : Req) : Statement (.testHoldEnter r) := untouched rfl
theorem testHoldLeave (r : Req) : Statement (.testHoldLeave r) := untouched rfl
theorem testStart (r : Req) (v : BitVec 32) : Statement (.testStart r v) := untouched rfl
theorem testRunEnd (errors : BitVec 32) (firstPin : Byte) (die : Byte) : Statement (.testRunEnd errors firstPin die) := untouched rfl
theorem smbusPointer (idx : BitVec 16) (sub : Byte) (off : SmOffset) : Statement (.smbusPointer idx sub off) := untouched rfl
theorem smbusRead : Statement (Instr.smbusRead) := untouched rfl
theorem smbusWrite (idx : BitVec 16) (sub : Byte) (value : Bytes) (pecGood : Bool) : Statement (.smbusWrite idx sub value pecGood) := untouched rfl
theorem smbusLastStatus : Statement (Instr.smbusLastStatus) := untouched rfl
theorem alertResponse : Statement (Instr.alertResponse) := untouched rfl
theorem smbusTimeout : Statement (Instr.smbusTimeout) := untouched rfl
theorem auxPowerOn (slotId : BitVec 3) : Statement (.auxPowerOn slotId) := untouched rfl
theorem resetAssert : Statement (Instr.resetAssert) := untouched rfl
theorem pwrfailAssert : Statement (Instr.pwrfailAssert) := untouched rfl
theorem presentRemoved : Statement (Instr.presentRemoved) := untouched rfl
theorem inputOutOfRange : Statement (Instr.inputOutOfRange) := untouched rfl
theorem flushComplete (micros : Nat) : Statement (.flushComplete micros) := untouched rfl
theorem powerResume : Statement (Instr.powerResume) := untouched rfl
theorem bankExhausted : Statement (Instr.bankExhausted) := untouched rfl
theorem powerSample (milliwatts millivolts : Nat) : Statement (.powerSample milliwatts millivolts) := untouched rfl
theorem thermalSample (temps : Temps) : Statement (.thermalSample temps) := untouched rfl
theorem bankMeasure (microfarads millijoules millivolts : Nat) : Statement (.bankMeasure microfarads millijoules millivolts) := untouched rfl
theorem mgmtWatchdog : Statement (Instr.mgmtWatchdog) := untouched rfl
theorem startupBegin : Statement (Instr.startupBegin) := untouched rfl
theorem laneKatDone (failed : BitVec 48) : Statement (.laneKatDone failed) := untouched rfl
theorem memoryCheckersDone (failed : List Checker) : Statement (.memoryCheckersDone failed) := untouched rfl
theorem tierZeroed (tier : Tier) : Statement (.tierZeroed tier) := untouched rfl
theorem mapRebuildDone : Statement (Instr.mapRebuildDone) := untouched rfl
theorem ready (micros : Nat) : Statement (.ready micros) := untouched rfl
theorem returnErasureDone : Statement (Instr.returnErasureDone) := untouched rfl
theorem innerCodePoll (counts : List (Nat × Nat)) : Statement (.innerCodePoll counts) := untouched rfl
theorem leakInterval : Statement (Instr.leakInterval) := untouched rfl
theorem rowRemap (tier : Tier) (stack pc row : Nat) : Statement (.rowRemap tier stack pc row) := untouched rfl
theorem patrolScrub (block : BitVec 48) (symbols : Nat) : Statement (.patrolScrub block symbols) := untouched rfl
theorem eccSelftest (checker : Checker) (good : Bool) : Statement (.eccSelftest checker good) := untouched rfl
theorem programFailure (block : Nat) : Statement (.programFailure block) := untouched rfl
theorem eraseIssue (block : Nat) : Statement (.eraseIssue block) := untouched rfl
theorem eraseComplete (block : Nat) (good : Bool) : Statement (.eraseComplete block good) := untouched rfl
theorem eraseHold (block : Nat) : Statement (.eraseHold block) := untouched rfl
theorem bandVerify (band : Nat) (weak : List Nat) : Statement (.bandVerify band weak) := untouched rfl
theorem garbageCollection : Statement (Instr.garbageCollection) := untouched rfl
theorem segmentWriteback (ns : NsId) (region : Nat) : Statement (.segmentWriteback ns region) := untouched rfl
theorem mapCheckpoint : Statement (Instr.mapCheckpoint) := untouched rfl
theorem dieFailure (channel die : Nat) : Statement (.dieFailure channel die) := untouched rfl
theorem readDisturbRelocation (block : Nat) : Statement (.readDisturbRelocation block) := untouched rfl
theorem retentionRefresh (band : Nat) (furtherSets : Nat) : Statement (.retentionRefresh band furtherSets) := untouched rfl
theorem wearLevelling : Statement (Instr.wearLevelling) := untouched rfl
theorem graphRepairPass (p : Part) (n : Ctx) : Statement (.graphRepairPass p n) := untouched rfl
theorem secureErase (block : Nat) : Statement (.secureErase block) := untouched rfl
theorem snapshotExpiry : Statement (Instr.snapshotExpiry) := untouched rfl
theorem holdLimitExpiry (x : Port) (s : SetId) : Statement (.holdLimitExpiry x s) := untouched rfl
theorem errorRecordRaise (rep : Report) : Statement (.errorRecordRaise rep) := untouched rfl
theorem recordClassify : Statement (Instr.recordClassify) := untouched rfl
theorem signal (x : Port) : Statement (.signal x) := untouched rfl
theorem creditReturn (x : Port) (vc : Chan) (cells : BitVec 12) (ackSeq : BitVec 12) : Statement (.creditReturn x vc cells ackSeq) := untouched rfl
theorem headerCrcError (x : BadFrame) : Statement (.headerCrcError x) := untouched rfl
theorem unknownFrameType (r : Req) (type : Byte) : Statement (.unknownFrameType r type) := untouched rfl
theorem frameLoopback (x : Port) (f : Transit) : Statement (.frameLoopback x f) := untouched rfl
theorem aux3v3Loss : Statement (Instr.aux3v3Loss) := untouched rfl
theorem bankFull (millijoules : Nat) : Statement (.bankFull millijoules) := untouched rfl
theorem railsInRegulation : Statement (Instr.railsInRegulation) := untouched rfl
theorem stackTrainingDone : Statement (Instr.stackTrainingDone) := untouched rfl
theorem testHoldHeld : Statement (Instr.testHoldHeld) := untouched rfl
theorem attestReportSigned (x : Port) : Statement (.attestReportSigned x) := untouched rfl
theorem recordPersisted (seq : BitVec 32) : Statement (.recordPersisted seq) := untouched rfl
theorem readComplete (x : Port) (s : SetId) : Statement (.readComplete x s) := untouched rfl
theorem waitUntil (p : Part) : Statement (.waitUntil p) := untouched rfl
theorem debugPathAccess (path : DebugPath) : Statement (.debugPathAccess path) := untouched rfl

end Sys2Proof.Laws.Queue
end

