-- ==== Sys2Proof/Laws/Steps.lean ====
section
/-! SUPPORT. The queues of a sequencer: what a round over them does when no unit has work, and when one has (03 R80). -/

namespace Sys2Proof.Machine

theorem Seq.queue_set (q : Seq) (l : Tab (List QStep)) (n m : Nat) (es : List QStep) :
    ({ q with queues := l.set n es } : Seq).queue m = if m = n then es else l.get [] m := by
  simp only [Seq.queue, Tab.get_set]

theorem Seq.queue_of_idle {q : Seq} (h : q.unitsIdle = true) {n : Nat} (hn : n < 32) : q.queue n = [] := by
  have := List.all_eq_true.1 h n (List.mem_range.2 hn)
  simpa using this

/-- Has queue `n` nothing for its unit to do: no step that it is at, or one that is carried out? -/
def Seq.calm (q : Seq) (n : Nat) : Prop := ∀ e, (q.queue n)[q.at n]? = some e → e.ran = true

theorem Seq.calm_nil {q : Seq} {n : Nat} (h : q.queue n = []) : q.calm n := by
  intro e he
  simp [h] at he

/-- A queue whose one step is carried out. -/
theorem Seq.calm_ran {q : Seq} {n : Nat} {e : QStep} (h : q.queue n = [e]) (he : e.ran = true) : q.calm n := by
  intro o ho
  rw [h] at ho
  obtain rfl : o = e := by
    generalize q.at n = k at ho
    cases k <;> simp_all
  exact he

theorem State.runHead_calm {s : State} {p n : Nat} {r : Run} (h : (s.seq p).calm n) : s.runHead p n r = (s, false) := by
  unfold State.runHead
  dsimp only
  split
  · rfl
  · rename_i e he
    rw [h e he]
    rfl

theorem State.runHead_nil {s : State} {p n : Nat} {r : Run} (h : (s.seq p).queue n = []) : s.runHead p n r = (s, false) :=
  State.runHead_calm (Seq.calm_nil h)

theorem State.runHead_ran {s : State} {p n : Nat} {r : Run} {e : QStep}
    (h : (s.seq p).queue n = [e]) (he : e.ran = true) : s.runHead p n r = (s, false) :=
  State.runHead_calm (Seq.calm_ran h he)

/-- One visit of a round to a queue. -/
def State.visit (p : Nat) (a : State × Bool) (n : Nat) : State × Bool :=
  match (a.1.seq p).run with
  | none => a
  | some r => ((a.1.runHead p n r).1, a.2 || (a.1.runHead p n r).2)

theorem State.round_eq (s : State) (p : Nat) : s.round p = (List.range 32).foldl (State.visit p) (s, false) := rfl

theorem State.visits_calm {p : Nat} (l : List Nat) (a : State × Bool) (h : ∀ n, n ∈ l → (a.1.seq p).calm n) :
    l.foldl (State.visit p) a = a := by
  induction l generalizing a with
  | nil => rfl
  | cons n l ih =>
    have h1 : State.visit p a n = a := by
      unfold State.visit
      split
      · rfl
      · rw [State.runHead_calm (h n (List.mem_cons_self ..))]; simp
    rw [List.foldl_cons, h1]
    exact ih a fun m hm => h m (List.mem_cons_of_mem _ hm)

/-- A round in which no unit has work. -/
theorem State.round_calm {s : State} {p : Nat} (h : ∀ n, n < 32 → (s.seq p).calm n) : s.round p = (s, false) :=
  State.visits_calm _ _ fun n hn => h n (List.mem_range.1 hn)

/-- A round in which one unit has work. -/
theorem State.round_one {s t : State} {p k : Nat} {r : Run} (hk : k < 32) (hs : ∀ n, n < 32 → n ≠ k → (s.seq p).calm n)
    (hr : (s.seq p).run = some r) (hw : s.runHead p k r = (t, true)) (ht : ∀ n, n < 32 → n ≠ k → (t.seq p).calm n) :
    s.round p = (t, true) := by
  have hl : List.range 32 = List.range k ++ k :: (List.range (31 - k)).map (· + (k + 1)) := by
    have e : List.range 32 = List.range' 0 32 := List.range_eq_range' ..
    have e1 : List.range k = List.range' 0 k := List.range_eq_range' ..
    have e2 : (List.range (31 - k)).map (· + (k + 1)) = List.range' (k + 1) (31 - k) := by
      rw [List.range'_eq_map_range]
      apply List.map_congr_left
      intro a _
      exact Nat.add_comm _ _
    have e3 := List.range'_append_1 (s := 0) (m := k) (n := 31 - k + 1)
    rw [Nat.zero_add] at e3
    rw [e, e1, e2, ← List.range'_succ, e3]
    congr 1
    omega
  rw [State.round_eq, hl, List.foldl_append, State.visits_calm (List.range k) (s, false), List.foldl_cons]
  · rw [show State.visit p (s, false) k = (t, true) by unfold State.visit; simp only [hr, hw]; rfl]
    apply State.visits_calm
    intro n hn
    obtain ⟨m, hm, rfl⟩ := List.mem_map.1 hn
    have := List.mem_range.1 hm
    exact ht _ (by omega) (by omega)
  · intro n hn
    have := List.mem_range.1 hn
    exact hs n (by omega) (by omega)

theorem State.pump_calm {s : State} {p : Nat} (h : ∀ n, n < 32 → (s.seq p).calm n) (m : Nat) : s.pump p m = s := by
  cases m with
  | zero => rfl
  | succ m => simp only [State.pump, State.round_calm h]; rfl

/-- The units have one step to carry out, and nothing after it. -/
theorem State.pump_one {s t : State} {p k : Nat} {r : Run} (hk : k < 32) (hs : ∀ n, n < 32 → n ≠ k → (s.seq p).calm n)
    (hr : (s.seq p).run = some r) (hw : s.runHead p k r = (t, true)) (ht : ∀ n, n < 32 → (t.seq p).calm n) (m : Nat) :
    s.pump p (m + 1) = t := by
  simp only [State.pump, State.round_one hk hs hr hw fun n hn _ => ht n hn, if_true]
  exact State.pump_calm ht m

theorem State.trace_off {s : State} {p : Nat} (h : s.untraced p) (source kind tag step ctx arg arg2 : Nat) :
    s.trace p source kind tag step ctx arg arg2 = s := by
  unfold State.trace
  unfold State.untraced at h
  simp only [h, Bool.not_false, Bool.true_or, if_true]

/-- The state once the step at `r.next` is in its queue as the entry `e`. -/
def State.entered (s : State) (p : Nat) (r : Run) (n : Nat) (e : QStep) : State :=
  s.setSeq p { s.seq p with
    issued := (s.seq p).issued + 1
    queues := (s.seq p).queues.set n ((s.seq p).queue n ++ [e])
    run := some { r with next := r.next + 1 } }

/-- The step that the sequencer is at is issued, and the units work. -/
theorem State.issue_now {s : State} {p : Nat} {r : Run} {f : Nat → Bool} (hr : (s.seq p).run = some r)
    (hw : r.waiting = false) (hd : s.deviceStop = false) (hn : r.next < tableSteps r.table)
    (hf : f (stepWord r.table r.next) = true) (hi : (s.seq p).unitsIdle = true) (hu : s.untraced p) :
    s.issue p f = (s.draw.entered p r (wQueue (stepWord r.table r.next))
      (QStep.issued r.next (s.issueWord p r (stepWord r.table r.next)) (s.seq p).issued s.timeNow)).pump p pumpFuel := by
  have hq : (s.seq p).queue (wQueue (stepWord r.table r.next)) = [] :=
    Seq.queue_of_idle hi (by unfold wQueue bits; omega)
  unfold State.issue
  simp only [hr]
  rw [if_neg (by simp only [hw, hd, hq, hf]; simp; omega), State.trace_off (s := s.draw.setSeq _ _) (by exact hu)]
  simp only [State.entered, State.seq_draw, hr]

theorem State.entered_queue {s : State} {p : Nat} {r : Run} {n : Nat} {e : QStep} (hi : (s.seq p).unitsIdle = true) (hn : n < 32)
    {m : Nat} (hm : m < 32) : ((s.entered p r n e).seq p).queue m = if m = n then [e] else [] := by
  simp only [State.entered, State.seq_setSeq_same]
  show Tab.get _ [] m = _
  rw [Tab.get_set, Seq.queue_of_idle hi hn]
  split
  · rfl
  · exact Seq.queue_of_idle hi hm

end Sys2Proof.Machine
end

