-- ==== Sys2Proof/Tests/Slice0.lean ====
section
/-! SUPPORT. Tests: ill-formed commands, small cases worked by hand from the spec, and, for every statement with hypotheses,
concrete states and operands that meet them. -/

namespace Sys2Proof.Tests

open Sys2Proof.Machine

set_option Elab.async false

/-! ## Small states -/

/-- A port that is UP, owned by node 7, with credits. -/
def owned : PortSt := { PortSt.start with life := .up, node := 7, host := 1, credits := [200, 200, 200] }

/-- A module that is READY in tick 5, with port 0 UP and owned. -/
def base : State := { State.reset with
  clock := ⟨0, 0, 5, true⟩
  power := { Power.start with stage := 6, railsUp := true, trained := true, checked := true }
  ports := [(0, owned)] }

/-- A request of the owner of port 0, for node 0. -/
def req : Req := ⟨0, .ctrl, 7, 0, 1, 0, true, true, true, 0⟩

/-- A set that holds a command that has started: its opcode, partition, context and namespace, and TR01 to TR03. -/
def held (op part ctx ns r1 r2 r3 : Nat) : TaskSet := { TaskSet.none with
  regs := [(0, BitVec.ofNat 64 (op * 2 ^ 56 + part * 2 ^ 53 + ctx * 2 ^ 49 + ns * 2 ^ 43)), (1, BitVec.ofNat 64 r1),
    (2, BitVec.ofNat 64 r2), (3, BitVec.ofNat 64 r3)]
  life := .taken, started := true, stamp := 5 }

/-- The base module with one command in set 0 of port 0. -/
def with' (t : TaskSet) : State := { base with sets := [(0, t)] }

theorem roomy (s : State) (h : s.port 0 = owned) : (s.port req.port.val).Roomy := by
  have : s.port req.port.val = owned := h
  rw [this]
  exact ⟨rfl, rfl, by decide, by decide⟩

theorem admits (s : State) (h : s.port 0 = owned) (hj : s.dict.jobs = []) (b : Bool) : s.Admits req b := by
  have : s.port req.port.val = owned := h
  refine ⟨?_, rfl, fun _ => ?_⟩
  · rw [State.reaches, this, State.requestsHeld, this, hj]; rfl
  · rw [State.owned, this]; rfl

theorem serves (s : State) (h : s.port 0 = owned) (hj : s.dict.jobs = []) (hc : s.clock.running = true) : s.Serves req :=
  ⟨admits s h hj true, roomy s h, .inl hc⟩

/-- A frame of one cell in transit to node 9, with `hops` left. -/
def transit (hops : BitVec 8) : Transit := ⟨0x10, false, false, 7, 9, hops, 1, 0, true, 0, 0, 0, 0, 0, [], 0, .ctrl⟩

/-! ## Ill-formed commands -/

theorem test_wf_request : Instr.wf (.status { req with src := 0 }) = false := by decide
theorem test_wf_time : Instr.wf (.endStep 0 2000001) = false ∧ Instr.wf (.endStep 0 2000000) = true := by decide
theorem test_wf_registers : Instr.wf (.trWrite req 0 false 15 1 []) = false ∧ Instr.wf (.trRead req 0 1 15) = false := by decide
theorem test_wf_payload : Instr.wf (.echo req (List.replicate 8193 0)) = false := by decide +kernel
theorem test_wf_frame_type : Instr.wf (.unknownFrameType req 0x10) = false ∧ Instr.wf (.unknownFrameType req 0x12) = true := by
  decide
theorem test_wf_transit : Instr.wf (.frameForward 0 { transit 3 with dst := 0 }) = false
    ∧ Instr.wf (.frameForward 0 { transit 3 with payload := List.replicate 8193 0 }) = false
    ∧ Instr.wf (.frameForward 0 (transit 3)) = true := by decide +kernel
theorem test_wf_token : Instr.wf (.lcToken req []) = false := by decide
theorem test_wf_nonce : Instr.wf (.attestNonce req 0 [1]) = false := by decide
theorem test_wf_list : Instr.wf (.readList req [1]) = false := by decide
theorem test_wf_sideband : Instr.wf (.smbusWrite 0 0 [] true) = false := by decide
theorem test_wf_checker : Instr.wf (.eccSelftest (.near 16 0) true) = false ∧ Instr.wf (.eccSelftest (.far 8 0) true) = false
    ∧ Instr.wf (.eccSelftest (.scratch 96) true) = false := by decide
theorem test_wf_checkers : Instr.wf (.memoryCheckersDone [.scratch 1, .scratch 1]) = false := by decide
theorem test_wf_counts : Instr.wf (.innerCodePoll [(24, 1)]) = false ∧ Instr.wf (.innerCodePoll [(3, 1), (3, 2)]) = false := by
  decide
theorem test_wf_row : Instr.wf (.rowRemap .scratch 0 0 0) = false ∧ Instr.wf (.rowRemap .near 16 0 0) = false := by decide
theorem test_wf_block : Instr.wf (.eraseIssue 8388608) = false ∧ Instr.wf (.eraseIssue 8388607) = true := by decide
theorem test_wf_units : Instr.wf (.bandVerify 0 [4, 4]) = false := by decide
theorem test_wf_region : Instr.wf (.segmentWriteback 1 536870912) = false := by decide
theorem test_wf_die : Instr.wf (.dieFailure 128 0) = false := by decide
theorem test_wf_report : Instr.wf (.errorRecordRaise (report 0x0020 1 0 5 0)) = false := by decide

/-! ## Concrete states and operands that meet the hypotheses of the statements -/

/-- Two ports UP, and a forwarding table that sends node 9 to port 1. -/
def twoPorts : State := { base with
  ports := [(0, owned), (1, owned)], dict := { Dict.start with govDoms := [(objKey 0x1100 2, [0, 0, 0, 0, 0x20])] } }

theorem witness_NodeZeroIsTaken : req.dst = 0 ∧ (base.port 0).life = .up ∧ req.good = true ∧ (base.port 0).Roomy
    ∧ ({ transit 1 with dst := 0 } : Transit).dst = 0 := ⟨rfl, rfl, rfl, roomy base rfl, rfl⟩

theorem witness_LinkFramesAreHandled :
    (base.Admits req false ∧ (base.port 0).Roomy ∧ ([] : Bytes).length ≤ 8192 ∧ (0x12 : Byte).toNat ∉ frameTypes)
    ∧ ((twoPorts.port 0).life = .up ∧ (transit 0).dst ≠ 0 ∧ (transit 0).dst.toNat ≠ twoPorts.nodeId)
    ∧ (transit 0).hops = 0
    ∧ ((transit 3).hops ≠ 0 ∧ (((twoPorts.govDom 0x1100 2).getD (9 / 2) 0).toNat) / 16 = 2 ∧ (twoPorts.port 1).Roomy
      ∧ transitCells (transit 3) ≤ 69 ∧ frameCells 8192 = 69)
    ∧ ((transit 3).hops ≠ 0 ∧ ((base.govDom 0x1100 2).getD (9 / 2) 0).toNat / 16 = 0) := by
  refine ⟨⟨admits base rfl rfl false, roomy base rfl, by decide, by decide⟩, by decide, by decide, ⟨by decide, by decide, ?_, by decide⟩,
    by decide⟩
  exact ⟨rfl, rfl, by decide, by decide⟩

/-- The base module with another port 0. -/
def portIs (v : PortSt) : State := { base with ports := [(0, v)] }

theorem witness_OwnershipIsDecided :
    ((portIs { owned with node := 0 }).Admits req false ∧ ((portIs { owned with node := 0 }).port 0).Roomy
      ∧ ((portIs { owned with node := 0 }).port 0).node = 0)
    ∧ (base.Admits req false ∧ (base.port 0).node ≠ 0) ∧ (base.Admits req true ∧ (base.port 0).Roomy)
    ∧ (((portIs { owned with life := .down }).port 0).life ≠ .up ∧ ((portIs { owned with life := .down }).port 0).node ≠ 0) := by
  refine ⟨⟨⟨rfl, rfl, fun h => absurd h (by decide)⟩, ⟨rfl, rfl, by decide, by decide⟩, rfl⟩,
    ⟨admits base rfl rfl false, by decide⟩, ⟨admits base rfl rfl true, roomy base rfl⟩, by decide⟩

theorem witness_CellLayerEvents :
    (base.port 0).life = .up
    ∧ (((portIs { owned with txSeq := 5, replay := 3 }).port 0).txSeq - 3 - 1).toNat ≤ 3
    ∧ (base.port 0).waiting = [] ∧ chanNo .fwd < (base.port 0).credits.length
    ∧ ((portIs { owned with waiting := [(.ctrl, 4, .hello [])] }).port 0).waiting = [(.ctrl, 4, .hello [])]
    ∧ 4 ≤ (4 : BitVec 12).toNat ∧ 508 + 4 ≤ 512 := by decide

/-- A hello of a peer module. -/
def hello : Hello := ⟨1, 1, 9, 16, 69, 69, 7, 3⟩

theorem witness_PortsAreBroughtUp :
    ((portIs { owned with life := .down }).port 0).life = .down ∧ (portIs { owned with life := .down }).power.railsUp = true
    ∧ ((portIs { owned with life := .signal }).port 0).life = .signal
    ∧ ((portIs { owned with life := .aligned }).port 0).life = .aligned
    ∧ (hello.version = 1 ∧ 16 ≤ hello.ctrl.toNat ∧ 69 ≤ hello.data.toNat ∧ 69 ≤ hello.fwd.toNat ∧ base.gov 0x1110 6 = 0)
    ∧ ({ hello with ctrl := 15 } : Hello).ctrl.toNat < 16
    ∧ (((portIs { owned with life := .retraining, replay := 3 }).port 0).life = .retraining ∧ helloGood hello = true) := by
  decide +kernel

/-- A port in loopback mode `m`. -/
def looping (m : Nat) : State := { base with
  ports := [(0, { owned with life := .loopback, loopRun := some ⟨5, 1, 2, 0⟩ })]
  dict := { Dict.start with gov := [(objKey 0x1110 6, BitVec.ofNat 64 m)] } }

theorem witness_LinksRetrainAndLoop :
    (base.port 0).life = .up ∧ ((portIs { owned with life := .retraining }).port 0).life = .retraining
    ∧ ((looping 3).port 0).life = .loopback ∧ (looping 3).gov 0x1110 6 = 3 ∧ ((looping 3).port 0).waiting = []
    ∧ (∀ c, c < 3 → transitCells (transit 1) ≤ ((looping 3).port 0).credits.getD c 0)
    ∧ ((looping 3).port 0).replay + transitCells (transit 1) ≤ 512
    ∧ ((looping 1).port 0).loopRun = some ⟨5, 1, 2, 0⟩ ∧ 2 + 4294967293 < 2 ^ 32 ∧ 0 + 2147483647 < 2 ^ 31 := by decide +kernel

theorem witness_LinksRetrainAndLoop_third :
    (base.lateRetrains (base.port 0)).length < 2
    ∧ 2 ≤ ((portIs { owned with retrains := [0, 0] }).lateRetrains ((portIs { owned with retrains := [0, 0] }).port 0)).length := by
  decide +kernel

theorem slotFree_start (s : State) (h : s.errors.ring = []) : s.SlotFree := by
  intro r hr
  rw [Errors.slot, h] at hr
  cases hr

theorem witness_SlotFree : (portIs { owned with life := .retraining }).SlotFree := slotFree_start _ rfl

/-- An object that the dictionary lists and for which `P` can be decided. -/
theorem listed (i j : Nat) (P : ObjDef → Bool) (h : (findAny i j).toOption.any P = true) :
    ∃ d, findAny i j = .ok d ∧ P d = true := by
  cases hd : findAny i j with
  | error e => rw [hd] at h; cases h
  | ok d => rw [hd] at h; exact ⟨d, rfl, h⟩

theorem witness_DictionaryIsServed :
    (base.Admits req true ∧ (base.port 0).Roomy ∧ req.seg = 0)
    ∧ (∃ d, findAny 0x2000 1 = .ok d ∧ decide (base.readFault d 0x2000 1 = none
        ∧ ((base.heard 0 0 0).image d 0x2000 1).length ≤ 8192) = true)
    ∧ (∃ d, findAny 0x2010 0x10 = .ok d ∧ (base.readFault d 0x2010 0x10).isSome = true)
    ∧ (findAny 0x1234 1).toOption = none
    ∧ base.checkWrite (some 0) 0x1234 1 [0] ≠ 0
    ∧ (base.checkWrite (some 0) 0x2000 1 (bytesOf 2 2000) = 0
      ∧ (findObj 0x2000 1).any (fun d => decide ((d.access = 2 ∨ d.access = 4) ∧ d.isBytes = false ∧ d.persist = false)) = true)
    ∧ (∃ d, findAny 0x9000 1 = .ok d ∧ decide (base.accessFault (some 0) d 0x9000 1 (List.replicate 8192 0) = none
        ∧ d.lengthOk 17920 = true) = true)
    ∧ base.dict.writes.all (fun w => decide (w.port ≠ 0)) = true := by
  refine ⟨⟨admits base rfl rfl true, roomy base rfl, rfl⟩, listed _ _ _ (by decide +kernel), listed _ _ _ (by decide +kernel),
    by decide +kernel, by decide +kernel, by decide +kernel, listed _ _ _ (by decide +kernel), by decide⟩

/-- The base module in tick 5, with partition 1 on two squares and port 0 enabled. -/
def owning : State := { base with
  dict := { Dict.start with gov := [(objKey 0x2011 0x0E, 0xF), (objKey 0x2011 1, 3)] } }

/-- A write of a value of `n` bytes passes every check. -/
def okWrite (s : State) (i j n v : Nat) : Prop := s.checkWrite (some 0) i j (bytesOf n v) = 0

theorem witness_ControlsWaitForTheBoundary : base.Serves req
    ∧ okWrite base 0x2010 0x10 1 1 ∧ okWrite base 0x2010 0x10 1 2 ∧ okWrite base 0x2010 0x10 1 3 ∧ okWrite base 0x2010 0x10 1 4
    ∧ okWrite base 0x4100 3 1 1 ∧ okWrite base 0x4100 3 1 2 ∧ okWrite base 0x1110 9 1 1 ∧ okWrite base 0x1420 3 2 1
    ∧ okWrite base 0x1110 5 1 1 ∧ okWrite base 0x1111 5 1 2 ∧ okWrite base 0x1110 5 1 3 ∧ okWrite base 0x7000 2 1 0
    ∧ okWrite base 0x9001 1 1 3 ∧ okWrite base 0x9050 1 1 1 ∧ okWrite base 0x9050 1 1 0 := by
  refine ⟨serves base rfl rfl rfl, ?_⟩
  unfold okWrite
  decide +kernel

/-- The base module with a test hold in force. -/
def inHold : State := { base with hold := 2 }

/-- A TEST_START of depth 1 on link 15 of the first kind, of the longest LENGTH. -/
def testWord : Nat := 1 * 2 ^ 29 + 1 * 2 ^ 27 + 15 * 2 ^ 20 + 60000

theorem witness_ControlsWaitForTheBoundary_test : inHold.Serves req ∧ okWrite inHold 0x9050 3 4 testWord := by
  refine ⟨serves inHold rfl rfl rfl, ?_⟩
  unfold okWrite
  decide +kernel

/-- The base module with frozen counters. -/
def stopped : State := { base with observe := { Observe.start with frozen := true, frozenAt := 3 } }

/-- The base module after a dump at time `a`, as far as the last dump counts. -/
def dumped (a : Nat) : State := { base with observe := { Observe.start with lastDump := some a } }

theorem witness_ImmediateControlsAct :
    base.Serves req ∧ stopped.Serves req ∧ inHold.Serves req ∧ (looping 1).ports = (looping 5).ports
    ∧ (okWrite base 0x9001 1 1 1 ∧ base.observe.frozen = false) ∧ (okWrite stopped 0x9001 1 1 2 ∧ stopped.observe.frozen = true)
    ∧ (okWrite base 0x9030 1 1 1 ∧ base.observe.lastDump = none)
    ∧ (okWrite (dumped 0) 0x9030 1 1 1 ∧ (dumped 0).clock.boundaryAt + 999999 < 0 + 1000000
      ∧ 0 + 1000000 ≤ (dumped 0).clock.boundaryAt + 1000000)
    ∧ (okWrite base 0x8000 5 4 0xA5A55A5A ∧ base.clock.running = true)
    ∧ base.checkWrite (some 0) 0xA018 1 (List.replicate 32 1) = 0
    ∧ base.checkWrite (some 0) 0x9000 1 [0, 0, 0, 0] = 0 := by
  refine ⟨serves base rfl rfl rfl, serves stopped rfl rfl rfl, serves inHold rfl rfl rfl, rfl, ?_⟩
  unfold okWrite
  decide +kernel

/-- Port 1 in loopback mode 1, port 0 UP and owned. -/
def generating : State := { base with
  ports := [(0, owned), (1, { PortSt.start with life := .loopback })]
  dict := { Dict.start with gov := [(objKey 0x1111 6, 1)], objs := [(objKey 0x1111 6, 1)] } }

theorem witness_LoopRunActs : generating.Serves req ∧ okWrite generating 0x1111 7 2 1000
    ∧ (generating.port 1).life = .loopback ∧ generating.gov 0x1111 6 = 1 := by
  refine ⟨serves generating rfl rfl rfl, ?_⟩
  unfold okWrite
  decide +kernel

/-- A bank of one byte. -/
def someBank : Bank := ⟨true, [(0, 1)], 64, 0⟩

/-- A context of port 0 whose scales shadow is in state `st`. -/
def shadowed (st : Shadow) : Context := { Context.none with
  life := .loaded, owner := 0, scales := ⟨false, someBank, someBank, st, 7, false⟩ }

/-- Partition 1 on two squares, RUNNING, with context 2. -/
def withCtx (c : Context) : State := { base with
  parts := [(1, { Partition.none with life := .running, defn := { PDef.none with squares := 3, ports := 1 } })]
  ctxs := [(18, c)] }

theorem witness_BankControlActs :
    (∀ st, (withCtx (shadowed st)).Serves req)
    ∧ (okWrite (withCtx (shadowed .ready)) 0x2051 3 2 (1 * 2 ^ 14 + 2) ∧ (2 : BitVec 5) ≠ 0
      ∧ (∀ k, (2 : BitVec 5).getLsbD (kindNo k) = true → (((withCtx (shadowed .ready)).ctx 1 2).banks k).st = .ready)
      ∧ ((withCtx (shadowed .ready)).ctx 1 2).notLoaded (kindsOf 2) = false
      ∧ (withCtx (shadowed .ready)).stagingBusy ((withCtx (shadowed .ready)).ctx 1 2).table.shadow = false)
    ∧ okWrite (withCtx (shadowed .armed)) 0x2051 3 2 (2 * 2 ^ 14 + 2)
    ∧ (okWrite (withCtx (shadowed .failed)) 0x2051 3 2 (3 * 2 ^ 14 + 2)
      ∧ (∀ k, (2 : BitVec 5).getLsbD (kindNo k) = true → (((withCtx (shadowed .failed)).ctx 1 2).banks k).st = .failed)) := by
  refine ⟨fun st => serves _ rfl rfl rfl, ?_⟩
  unfold okWrite
  refine ⟨⟨by decide +kernel, by decide, fun k => ?_, by decide +kernel, by decide +kernel⟩, by decide +kernel, by decide +kernel,
    fun k => ?_⟩ <;> cases k <;> decide +kernel

/-- The base module in life-cycle state `v` with these arms. -/
def lifeIs (v : Nat) (arms : List (Nat × Port × Nat)) : State := { base with
  security := { Security.shipped with state := v, arms := arms } }

theorem witness_LifeCycleIsRequested :
    (∀ v a, (lifeIs v a).Serves req)
    ∧ okWrite (lifeIs 1 []) 0xA000 3 1 2 ∧ okWrite (lifeIs 1 []) 0xA000 3 1 3 ∧ okWrite (lifeIs 2 []) 0xA000 3 1 3
    ∧ okWrite (lifeIs 2 []) 0xA000 3 1 4
    ∧ (lifeIs 2 []).lcBlocked false = none ∧ (lifeIs 2 []).lcBlocked true = none
    ∧ inHold.lcBlocked false = some 5
    ∧ ({ base with security := { Security.shipped with words := List.replicate 31 (1, 0, 0) } } : State).lcBlocked false = some 7
    ∧ ((lifeIs 2 [(4, 0, 0), (3, 1, 0)]).security.armOf 4 0 = some 0 ∧ base.clock.now ≤ 0 + 6000000000)
    ∧ (lifeIs 2 [(4, 1, 0)]).security.armOf 4 0 = none := by
  refine ⟨fun v a => serves _ rfl rfl rfl, ?_⟩
  unfold okWrite
  refine ⟨by decide +kernel, by decide +kernel, by decide +kernel, by decide +kernel, by decide +kernel, by decide +kernel,
    by decide +kernel, by decide +kernel, by decide +kernel, by decide +kernel⟩

/-- A token's other hypotheses; whether its signature and nonce are good rests on two of Config's constants, which no
theorem can evaluate. -/
theorem witness_LifeCycleIsRequested_token :
    base.checkWrite (some 0) 0xA000 4 (List.replicate 576 0) = 0 ∧ (List.replicate 576 (0 : Byte)).length = 576
    ∧ base.tokenGood (List.replicate 576 0) 0 = false ∧ numOf ((List.replicate 576 (0 : Byte)).take 64) = 0
    ∧ base.security.keySlot base.runningSlot ≠ 3
    ∧ base.tokenAllows 4 = true ∧ base.tokenAllows 1 = false ∧ base.lcBlocked true = none ∧ base.lcBlocked false = none
    ∧ Nat.land 0x1A (0xFFFF - tokenPaths base.security.state) = 0
    ∧ (1 ≠ base.security.keySlot base.runningSlot ∧ Nat.land (Nat.lor base.security.revoked (2 ^ 1)) 7 ≠ 7) := by
  decide +kernel

/-- FREE_FLOOR of 9 being programmed for `req`. -/
def programming : State := { base with
  dict := { Dict.start with jobs := [⟨[(0x4060, 0x0B, bytesOf 4 9)], some req, none⟩] } }

/-- A lock of index 0x1000 being programmed for `req`. -/
def lockingIndex : State := { base with
  dict := { Dict.start with jobs := [⟨[(0x1002, 1, bytesOf 2 0x1000)], some req, none⟩] } }

theorem witness_ValuesAreStored :
    base.Serves req ∧ okWrite base 0x2000 1 2 2000 ∧ okWrite base 0x1111 6 1 5 ∧ okWrite base 0x4060 0x0B 4 70000
    ∧ okWrite base 0x1002 1 2 0x1000 ∧ (lockingIndex.port 0).life = .up
    ∧ lockingIndex.dict.jobs = [⟨[(0x1002, 1, bytesOf 2 0x1000)], some req, none⟩]
    ∧ ((programming.port 0).life = .up ∧ programming.dict.jobs = [⟨[(0x4060, 0x0B, bytesOf 4 9)], some req, none⟩]) := by
  refine ⟨serves base rfl rfl rfl, ?_⟩
  unfold okWrite
  decide +kernel

theorem witness_NodeZeroIsTaken_held : base.requestsHeld req.port.val < 64 ∧ req.dst = 0 ∧ req.good = true := by decide

theorem witness_CellLayerEvents_echoes :
    base.echoes 0 = false ∧ (looping 2).echoes 0 = true
    ∧ ((portIs { owned with life := .retraining, replay := 3 }).port 0).life = .retraining
    ∧ ((portIs { owned with waiting := [(.ctrl, 4, .hello [])] }).port 0).loopRun = none := by decide +kernel

/-- A port that exchanges hellos while LOOPBACK governs in mode `m`. -/
def mirrored (m : Nat) : State := { looping m with ports := [(0, { owned with life := .aligned })] }

theorem witness_PortsAreBroughtUp_loop :
    ((mirrored 2).port 0).life = .aligned ∧ (mirrored 2).gov 0x1110 6 = 2 ∧ (mirrored 1).gov 0x1110 6 ≠ 0
    ∧ (mirrored 1).gov 0x1110 6 ≠ 2 ∧ helloGood hello = true ∧ helloGood { hello with ctrl := 15 } = false
    ∧ (({ owned with life := .retraining, txSeq := 5, replay := 3 } : PortSt).acked hello.ack).replay ≠ 0 := by decide +kernel

theorem witness_LinksRetrainAndLoop_modes :
    (looping 2).gov 0x1110 6 = 2 ∧ (looping 1).gov 0x1110 6 = 1 ∧ (looping 5).gov 0x1110 6 = 5
    ∧ ((looping 5).port 0).loopRun = some ⟨5, 1, 2, 0⟩ := by decide +kernel

theorem witness_DictionaryIsServed_unopened :
    (7 : BitVec 16) ≠ 0 ∧ base.dict.writes.all (fun w => !decide (w.port = req.port ∧ w.token = 7)) = true := by decide

/-- A load into the scales shadow of that context, by the command of set 0. -/
def discarding (k : Shadow) : State := { withCtx (shadowed k) with
  sets := [(0, held 0x21 1 2 0 (1 * 2 ^ 59) 0 64), (1, TaskSet.none)], stagings := [⟨0, 1, 2, 1, 0, 0, 0, none⟩] }

theorem witness_BankControlActs_discard :
    (∀ st, (discarding st).Serves req)
    ∧ okWrite (withCtx (shadowed .armed)) 0x2051 3 2 (3 * 2 ^ 14 + 2) ∧ okWrite (withCtx (shadowed .empty)) 0x2051 3 2 (3 * 2 ^ 14 + 2)
    ∧ okWrite (withCtx (shadowed .retiring)) 0x2051 3 2 (3 * 2 ^ 14 + 2)
    ∧ (okWrite (discarding .loading) 0x2051 3 2 (3 * 2 ^ 14 + 2)
      ∧ (∀ j, (2 : BitVec 5).getLsbD (kindNo j) = decide (j = Kind.scales))
      ∧ (((discarding .loading).ctx 1 2).banks .scales).st = .loading
      ∧ (discarding .loading).stagings.find? (fun g => decide (g.part = 1 ∧ g.ctx = 2 ∧ g.kind = kindNo .scales))
          = some ⟨0, 1, 2, 1, 0, 0, 0, none⟩
      ∧ ((discarding .loading).tset 0).opcode = 0x21 ∧ ((discarding .loading).tset 0).partNo = 1
      ∧ ((discarding .loading).tset 0).ctxNo = 2) := by
  refine ⟨fun st => serves _ rfl rfl rfl, ?_⟩
  unfold okWrite
  refine ⟨by decide +kernel, by decide +kernel, by decide +kernel, by decide +kernel, fun j => ?_, by decide +kernel,
    by decide +kernel, by decide +kernel, by decide +kernel, by decide +kernel⟩
  cases j <;> decide

theorem witness_ValuesAreStored_jobs :
    (okWrite base 0x4060 0x0B 4 70000 ∧ isPersistent 0x4060 0x0B (bytesOf 4 70000) = true)
    ∧ (okWrite base 0x1002 1 2 0x1000 ∧ isPersistent 0x1002 1 (bytesOf 2 0x1000) = true)
    ∧ (programming.dict.jobs.find? (fun j => j.names 0x4060 0x0B) = some ⟨[(0x4060, 0x0B, bytesOf 4 9)], some req, none⟩
      ∧ (findObj 0x4060 0x0B).any (fun d => decide (d.persist = true ∧ (d.access = 2 ∨ d.access = 4))) = true)
    ∧ lockingIndex.dict.jobs.find? (fun j => j.names 0x1002 1) = some ⟨[(0x1002, 1, bytesOf 2 0x1000)], some req, none⟩ := by
  unfold okWrite
  decide +kernel

/-- The base module with one set of port 0 in a state of its life. -/
def setIs (l : SetLife) : State := with' { TaskSet.none with life := l, outLen := 100 }

theorem witness_TaskRegistersAreServed :
    (∀ t, (with' t).Admits req true ∧ ((with' t).port 0).Roomy)
    ∧ ((0 : Fin 16).val + (15 : Fin 16).val ≤ 15 ∧ ¬ (1 : Fin 16).val + (15 : Fin 16).val ≤ 15)
    ∧ ((setIs .taken).tset (setKey 0 0)).life = .taken
    ∧ (((setIs .written).tset (setKey 0 0)).life ≠ .taken ∧ ([] : Bytes).length ≠ 8 * ((15 : Fin 16).val + 1)
      ∧ (List.replicate 128 (0 : Byte)).length = 8 * ((15 : Fin 16).val + 1)) :=
  ⟨fun t => ⟨admits _ rfl rfl true, roomy _ rfl⟩, by decide, by decide, by decide, by decide, by decide +kernel⟩

theorem witness_TaskRegistersAreServed_args : argsLowZero req = true ∧ argsLowZero { req with args := 1 } = false
    ∧ argsLowZero { req with args := 2 ^ 127 } = false ∧ argsLowZero { req with args := 2 ^ 128 } = true := by decide +kernel

theorem witness_CommandsAreTaken :
    (((setIs .idle).tset (setKey 0 0)).life ≠ .taken ∧ (List.replicate 128 (0 : Byte)).length = 8 * ((15 : Fin 16).val + 1)
      ∧ opKnown (((setIs .idle).tset (setKey 0 0)).write 0 15 (List.replicate 128 0)).opcode = false
      ∧ (((setIs .idle).tset (setKey 0 0)).write 0 0 [0, 0, 0, 0, 0, 0, 0, 1]).opcode = 0x01)
    ∧ ∃ t : TaskSet, t.life = .taken ∧ t.started = false ∧ t.due = none ∧ ((with' t).tset (setKey 0 0)) = t
      ∧ (with' t).canStart (setKey 0 0) = true :=
  ⟨by decide +kernel, { held 1 0 0 0 0 0 0 with started := false }, by decide +kernel⟩

/-- The WRITE of two blocks. -/
def writing : TaskSet := held 0x11 0 0 0 0 0 2

theorem witness_DataIsPushed :
    (∀ t, (with' t).defers req = false)
    ∧ ((1 : BitVec 48).toNat % 64 ≠ 0 ∧ (65472 : BitVec 48).toNat % 64 = 0 ∧ 65472 + 64 ≤ 65536)
    ∧ (((with' (held 1 0 0 0 0 0 0)).tset (setKey 0 0)).life = .taken ∧ ((with' (held 1 0 0 0 0 0 0)).tset (setKey 0 0)).opcode ≠ 0x11)
    ∧ (((with' writing).tset (setKey 0 0)).life = .taken ∧ ((with' writing).tset (setKey 0 0)).opcode = 0x11
      ∧ 8128 + 64 ≤ ((with' writing).tset (setKey 0 0)).reg 3 * 4096 ∧ ((with' writing).tset (setKey 0 0)).count * 4096 ≤ 8128) :=
  ⟨fun t => rfl, by decide, by decide +kernel, by decide +kernel⟩

/-! ### Sequencers -/

/-- A move table's image: BUDGET, and the step words. -/
def image (budget : Nat) (words : List Nat) : Bank :=
  ⟨true, memOf (bytesOf 64 ((words.length - 1) * 2 ^ 452 + budget * 2 ^ 426) ++ words.flatMap (bytesOf 32)),
    64 + 32 * words.length, 0⟩

/-- A batch step of context 2 for the command of set 0 of port 0, at the first step of its table. -/
def runOf (words : List Nat) : Run :=
  ⟨2, 0, 5, 0, 0, image 1 words, Bank.none, Bank.none, Bank.none, Bank.none, 0, [0, 0, 0, 0], false, false, none, 0,
    false, false, []⟩

/-- Partition 1 (squares 0 and 1, a near and a scratch window) with a batch step in progress of the command of `t`. -/
def atWork (words : List Nat) (t : TaskSet) : State := { base with
  parts := [(1, { Partition.none with
    life := .running
    defn := { PDef.none with squares := 3, nearSize := 1048576, scratchBase := 0x0800_0000_0000, scratchSize := 1048576, ports := 1 } })]
  ctxs := [(18, { Context.none with life := .loaded, table := ⟨false, image 1 words, Bank.none, .empty, 0, false⟩, queue := [0] })]
  seqs := [(1, { Seq.none with run := some (runOf words) })]
  sets := [(0, t)] }

/-- EMBED in context 2 of partition 1, with one batch step. -/
def embedding : TaskSet := held 0x31 1 2 0 0 0 1

/-- The step of word `w`, as the sequencer issues it. -/
def stepOf (s : State) (w : Nat) : QStep := QStep.issued 0 (s.issueWord 1 (runOf [w]) w) (s.seq 1).issued s.timeNow

/-- Partition 1 at a step of word `w`: it runs, its units are idle, nothing is traced, and the step's unit can carry it out, to
the end or not. -/
def carries (s : State) (w : Nat) (done : Bool := true) : Bool :=
  decide (s.seq 1 = { Seq.none with run := some (runOf [w]) }) && !s.deviceStop && decide (0 < tableSteps (image 1 [w]))
    && decide (stepWord (image 1 [w]) 0 = w) && (s.seq 1).unitsIdle && !bitOf (s.gov 0x9021 3) 0
    && decide (wOpcode (stepOf s w).word = wOpcode w)
    && (let r := { runOf [w] with next := 1 }
        let u := s.setSeq 1 { s.seq 1 with
          issued := (s.seq 1).issued + 1, queues := (s.seq 1).queues.set (wQueue w) [stepOf s w], run := some r }
        (stepWork (u.bench 1 (wQueue w) r) (stepOf s w)).toOption.any (fun x => x.2 = done))

/-- The same with a table tile for die 0. -/
def withTile (w : Nat) : State := { atWork [w] embedding with fabric := { Fabric.zeroed with
  dies := [(0, { Die.empty with tiles := [⟨1, 0, 0, 0, 0, false⟩] })] } }

theorem witness_StepsAreIssued_lanes :
    carries (atWork [1 * 2 ^ 250] embedding) (1 * 2 ^ 250) false = true      -- LOADW, whose tile no pass has taken
    ∧ carries (atWork [3 * 2 ^ 250] embedding) (3 * 2 ^ 250) = true    -- DRAIN
    ∧ carries (atWork [4 * 2 ^ 250] embedding) (4 * 2 ^ 250) = true    -- SFN
    ∧ carries (atWork [5 * 2 ^ 250] embedding) (5 * 2 ^ 250) = true    -- NORM, statistics
    ∧ carries (atWork [5 * 2 ^ 250 + 2 ^ 179] embedding) (5 * 2 ^ 250 + 2 ^ 179) = true := by decide +kernel
theorem witness_StepsAreIssued_chains :
    carries (atWork [6 * 2 ^ 250] embedding) (6 * 2 ^ 250) = true
    ∧ carries (atWork [6 * 2 ^ 250 + 2 ^ 177] embedding) (6 * 2 ^ 250 + 2 ^ 177) = true
    ∧ carries (atWork [6 * 2 ^ 250 + 2 ^ 178] embedding) (6 * 2 ^ 250 + 2 ^ 178) = true := by decide +kernel
theorem witness_StepsAreIssued_selects :
    carries (atWork [8 * 2 ^ 250] embedding) (8 * 2 ^ 250) = true
    ∧ carries (atWork [8 * 2 ^ 250 + 2 ^ 107] embedding) (8 * 2 ^ 250 + 2 ^ 107) = true
    ∧ carries (atWork [8 * 2 ^ 250 + 2 ^ 108] embedding) (8 * 2 ^ 250 + 2 ^ 108) = true
    ∧ carries (atWork [16 * 2 ^ 250] embedding) (16 * 2 ^ 250) = true := by decide +kernel
theorem witness_StepsAreIssued_stream : carries (withTile (2 * 2 ^ 250)) (2 * 2 ^ 250) = true
    ∧ carries (atWork [2 * 2 ^ 250] embedding) (2 * 2 ^ 250) false = true := by decide +kernel

/-- CHECK of 64 bytes of scratch, its record to the start of scratch. -/
def checkWord : Nat := 18 * 2 ^ 250 + 2 ^ 182 + 0x0800_0000_0000 * 2 ^ 134 + 0x0800_0000_0000 * 2 ^ 28

theorem witness_StepsAreIssued_check : carries (atWork [checkWord] embedding) checkWord = true := by decide +kernel

/-- The words of MARK with value 9, of a WAIT for queue 0, of a LOOP of COUNT 2 to step 0, and of END. -/
def markWord : Nat := 0x21 * 2 ^ 250 + 9 * 2 ^ 176
def waitWord : Nat := 0x20 * 2 ^ 250 + 1 * 2 ^ 160
def loopWord : Nat := 0x22 * 2 ^ 250 + 2 * 2 ^ 162
def endWord : Nat := 0x3F * 2 ^ 250

/-- A step that is carried out, or not yet. -/
def queued (ran : Bool) : QStep := { QStep.issued 0 (2 ^ 250) 0 0 with ran := ran }

/-- The sequencer of partition 1 in another state. -/
def seqIs (q : Seq) (t : TaskSet) : State := { atWork [endWord] t with seqs := [(1, q)] }

theorem witness_SequencerStepsAct :
    (((atWork [markWord] embedding).seq 1).run = some (runOf [markWord]) ∧ wOpcode (stepWord (image 1 [markWord]) 0) = opMark
      ∧ wMarkValue (stepWord (image 1 [markWord]) 0) = 9 ∧ (atWork [markWord] embedding).deviceStop = false
      ∧ ((atWork [markWord] embedding).seq 1).unitsIdle = true ∧ bitOf ((atWork [markWord] embedding).gov 0x9021 3) 0 = false
      ∧ (atWork [markWord] embedding).gov 0x9001 4 ≠ 9)
    ∧ ((atWork [waitWord] embedding).atStep 1 opWait = some (runOf [waitWord]) ∧ wUntil waitWord = 0
      ∧ Nat.land (wMask waitWord) ((atWork [waitWord] embedding).seq 1).completion = wMask waitWord
      ∧ Nat.land (wMask waitWord) (({ Seq.none with queues := [(0, [queued false])] } : Seq).completion) ≠ wMask waitWord)
    ∧ ((atWork [loopWord] embedding).atStep 1 opLoop = some (runOf [loopWord])
      ∧ ([0, 0, 0, 0] : List Nat).getD (wLevel loopWord) 0 < wLoopCount loopWord
      ∧ wLoopCount loopWord ≤ ([2, 0, 0, 0] : List Nat).getD (wLevel loopWord) 0) := by decide +kernel

theorem witness_BatchStepsEnd :
    ((atWork [endWord] embedding).atStep 1 opEnd = some (runOf [endWord])
      ∧ ((atWork [endWord] embedding).seq 1).unitsIdle = true ∧ ((atWork [endWord] embedding).tset 0).due = none
      ∧ ((atWork [endWord] embedding).tset 0).opcode ≠ 0x34 ∧ ((atWork [endWord] embedding).tset 0).commit 0 = none
      ∧ ((atWork [endWord] embedding).part 1).life = .running
      ∧ ((atWork [endWord] embedding).seq 1).periodEnd ≤ (atWork [endWord] embedding).clock.boundaryAt)
    ∧ (seqIs { Seq.none with run := some (runOf [endWord]), queues := [(3, [queued false])] } embedding).atStep 1 opEnd
        = some (runOf [endWord])
    ∧ ({ Seq.none with run := some (runOf [endWord]), queues := [(3, [queued false])] } : Seq).unitsIdle = false
    ∧ ({ Seq.none with run := some (runOf [endWord]), queues := [(3, [queued false])] } : Seq).surplus = false
    ∧ ((atWork [endWord] { embedding with due := some 1 }).tset 0).due.isSome = true
    ∧ (let s := seqIs { Seq.none with run := some (runOf [endWord]), queues := [(3, [queued true])] } embedding
       (s.seq 1).queue 3 = [queued true] ∧ (queued true).ran = true
         ∧ bitOf (s.gov 0x9021 3) 0 = false ∧ (runOf [endWord]).waiting = false) := by decide +kernel

/-- A SCAN that has been carried out, and a FETCH that met data it may not deliver. -/
def scanned : QStep := { QStep.issued 0 (opScan * 2 ^ 250) 0 0 with ran := true }
def metBad : QStep := { QStep.issued 0 0 0 0 with ran := true, found := some (tierReport causeMem 64 2 stTornDown) }

theorem witness_BatchStepsEnd_scan :
    (let e := scanned
     let s := seqIs { Seq.none with run := some (runOf [endWord]), queues := [(3, [e])] } embedding
     (s.seq 1).queue 3 = [e] ∧ (∀ m, m < 32 → m ≠ 3 → (s.seq 1).queue m = []) ∧ e.ran = true ∧ e.found = none ∧ e.used = []
       ∧ e.slots = [] ∧ wOpcode e.word = opScan ∧ e.cut = false ∧ bitOf (s.gov 0x9021 3) 0 = false)
    ∧ (let s := seqIs { Seq.none with run := some (runOf [endWord]), queues := [(0, [metBad])] } embedding
       (s.seq 1).queue 0 = [metBad] ∧ (∀ m, m < 32 → m ≠ 0 → (s.seq 1).queue m = []) ∧ metBad.ran = true ∧ metBad.cut = false
         ∧ metBad.found.isSome = true ∧ (s.seq 1).run = some (runOf [endWord]) ∧ s.errors.ring = []
         ∧ (s.tset (runOf [endWord]).key).due = none) := by decide +kernel

/-- Partition 1 idle in a move period from tick 5 to tick 6, with the command of set 0 in context 2. -/
def idlePart : State := { atWork [endWord] { embedding with stamp := 4 } with
  seqs := [(1, { Seq.none with periodEnd := 100000, periodEpoch := 5 })] }

theorem witness_BatchStepsStart :
    ((idlePart.part 1).life = .running ∧ (idlePart.seq 1).run = none ∧ idlePart.deviceStop = false
      ∧ idlePart.power.warned = false ∧ idlePart.clock.boundaryAt + 0 < (idlePart.seq 1).periodEnd
      ∧ idlePart.headCtx 1 0 = some 2 ∧ (∀ y, y < 4 → y ≠ 0 → idlePart.headCtx 1 y = none)
      ∧ idlePart.headOf 1 2 = some 0 ∧ idlePart.fits 1 2 0 = true
      ∧ (idlePart.seq 1).pass.length = 4 ∧ (idlePart.seq 1).served.length = 4)
    ∧ idlePart.pick 1 0 = some (0, 2)
    ∧ (idlePart.clock.running = true ∧ idlePart.tick % (idlePart.part 1).defn.divider = (idlePart.part 1).defn.phase
      ∧ ((atWork [endWord] embedding).seq 1).periodEnd = 0)
    ∧ (({ idlePart with parts := [(1, { Partition.none with life := .resetting })] } : State).part 1).life = .resetting
    ∧ (base.part 1).life ≠ .running := by decide +kernel

/-- A LOADW with the deadline 7, with and without a fallback to step 0. -/
def dueWord (fallback : Bool) : Nat := 1 * 2 ^ 250 + 2 ^ 249 + 7 * 2 ^ 224 + (if fallback then 2 ^ 223 else 0)

theorem witness_DeadlinesAreMissed :
    (∀ f : Bool, ((atWork [dueWord f] embedding).seq 1).run = some (runOf [dueWord f])
      ∧ bitOf ((atWork [dueWord f] embedding).gov 0x9021 3) 0 = false
      ∧ wHasFallback (stepWord (image 1 [dueWord f]) 0) = f ∧ wHasDeadline (stepWord (image 1 [dueWord f]) 0) = true
      ∧ wRelative (stepWord (image 1 [dueWord f]) 0) = false ∧ 0 < tableSteps (image 1 [dueWord f])
      ∧ (∀ m, m < 32 → ∀ x, x ∈ ((atWork [dueWord f] embedding).seq 1).queue m → x.index ≠ 0)
      ∧ ((atWork [dueWord f] embedding).tset 0).due = none)
    ∧ ((seqIs { Seq.none with queues := [(3, [queued true])] } embedding).seq 1).queue 3 = [queued true]
    ∧ (queued true).cut = false := by
  refine ⟨fun f => ?_, by decide +kernel, rfl⟩
  cases f
  · refine ⟨by decide +kernel, by decide +kernel, by decide +kernel, by decide +kernel, by decide +kernel, by decide +kernel,
      fun m _ x hx => ?_, by decide +kernel⟩
    cases hx
  · refine ⟨by decide +kernel, by decide +kernel, by decide +kernel, by decide +kernel, by decide +kernel, by decide +kernel,
      fun m _ x hx => ?_, by decide +kernel⟩
    cases hx

theorem witness_LateWorkEnds :
    ((atWork [endWord] embedding).seq 1).run = some (runOf [endWord])
    ∧ ((atWork [endWord] embedding).seq 1).periodEnd ≤ (atWork [endWord] embedding).clock.boundaryAt
    ∧ (let s := seqIs { Seq.none with run := some (runOf [endWord]), periodEnd := 2 ^ 40, stuck := 8 } embedding
       s.clock.boundaryAt + s.tickUnits < (s.seq 1).periodEnd ∧ 8 ≤ (s.seq 1).stuck ∧ (s.seq 1).stepped = false ∧ s.errors.ring = []) := by decide +kernel

theorem witness_DataIsPushed_memory :
    (let s := atWork [] embedding
     s.portMay 0 0 64 = true ∧ s.portMay 0 (1048576 - 64) 64 = true ∧ s.portMay 0 1048576 64 = false ∧ s.fabric.bad = [] ∧ s.guard.farOff = false
       ∧ s.guard.banksOff = 0)
    ∧ overlaps 0 64 0 (guardUnit 0) = true ∧ within 0 (guardUnit 0) 0 64 = true := by decide +kernel

/-- A push to the 64 bytes of scratch that the CHECK of a running batch step reads, and a module without one. -/
theorem witness_DataIsPushed_open :
    (((atWork [checkWord] embedding).seq 1).run = some (runOf [checkWord])
      ∧ checkWord ∈ (atWork [checkWord] embedding).runWords 1 (runOf [checkWord])
      ∧ (atWork [checkWord] embedding).portMay 0 0x0800_0000_0000 64 = true)
    ∧ (∀ f, (((atWork [checkWord] embedding).setFabric f).readSpans 1 (runOf [checkWord]) checkWord).any
        (fun v => overlaps v.1 v.2 0x0800_0000_0000 64) = true)
    ∧ (∀ p, p < 8 → (base.seq p).run = none) := by
  refine ⟨by decide +kernel, fun f => ?_, by decide +kernel⟩
  have h1 : wOpcode checkWord ≠ opFetch ∧ wOpcode checkWord ≠ opSelect ∧ wOpcode checkWord ≠ opPqtab
      ∧ wOpcode checkWord ≠ opScan ∧ wOpcode checkWord = opCheck ∧ bitOf checkWord 182 = true := by decide +kernel
  have h2 : overlaps (bits checkWord 181 134) ((bits checkWord 133 110 + 1) * 64) 0x0800_0000_0000 64 = true := by decide +kernel
  obtain ⟨a, b, c, d, e, g⟩ := h1
  simp only [State.readSpans, if_neg a, if_neg b, if_neg c, if_neg d, if_pos e, g, if_true, List.any_cons, h2, Bool.true_or]

theorem witness_DataIsPushed_safe : (let s := { atWork [] embedding with errors := { Errors.start with device := 2 } }
    s.errors.device = 2) ∧ (atWork [] embedding).errors.device ≠ 2 := by decide

theorem witness_DataIsPulled :
    ((1 : BitVec 48).toNat % 64 ≠ 0 ∧ (62 : BitVec 14).toNat + 1 < 64 ∧ 8192 < (8192 : BitVec 14).toNat + 1
      ∧ (63 : BitVec 14).toNat + 1 = 64 ∧ (8191 : BitVec 14).toNat + 1 = 8192)
    ∧ ((setIs .idle).tset 0).life ≠ .done ∧ ((setIs .done).tset 0).life = .done
    ∧ (let s := atWork [] embedding
       s.portMay 0 0 8192 = true ∧ s.portMay 0 1048576 64 = false ∧ s.fabric.bad = [] ∧ s.fabric.fog = []
         ∧ s.guard.farOff = false ∧ s.guard.banksOff = 0 ∧ ∀ q, q < 8 → s.dirty q 32 = []) := by decide +kernel

/-- A MARK whose value is that of FREEZE_MARK, with ON_MARK armed, on counters that run or are frozen. -/
def marking (frozen : Bool) : State := { atWork [markWord] embedding with
  dict := { Dict.start with gov := [(objKey 0x9001 4, 9)] }
  observe := { Observe.start with armed := 8, frozen := frozen } }

theorem witness_SequencerStepsAct_mark : ∀ f : Bool, (marking f).atStep 1 opMark = some (runOf [markWord])
    ∧ ((marking f).seq 1).unitsIdle = true ∧ (marking f).gov 0x9001 4 = wMarkValue markWord
    ∧ bitOf (marking f).observe.armed.toNat 3 = true ∧ (marking f).observe.frozen = f
    ∧ bitOf ((marking f).gov 0x9021 3) 0 = false := by
  intro f
  cases f <;> decide +kernel

/-- A batch step whose commit span of one block must wait: after a power-fail warning. -/
def committing : TaskSet := { embedding with
  regs := embedding.regs ++ [(7, 0x0800_0000_0000), (8, 7), (9, 1)] }

theorem witness_BatchStepsEnd_waits :
    (let s := { atWork [endWord] committing with power := { base.power with warned := true } }
     s.atStep 1 opEnd = some (runOf [endWord]) ∧ (s.seq 1).unitsIdle = true ∧ s.commitWaits 1 (runOf [endWord]) = true)
    ∧ (atWork [endWord] embedding).commitWaits 1 (runOf [endWord]) = false
    ∧ (queued true).tally = [] ∧ (queued true).used = [] ∧ (queued true).slots = [] := by decide +kernel

/-- The deadline of `dueWord`, counted from the issue of its step. -/
def relWord : Nat := dueWord true + 2 ^ 248

theorem witness_DeadlinesAreMissed_issued :
    (let s := seqIs { Seq.none with run := some (runOf [relWord]), queues := [(3, [queued false])] } embedding
     (s.seq 1).open.find? (fun x => decide (x.index = 0)) = some (queued false) ∧ wHasDeadline (stepWord (image 1 [relWord]) 0) = true)
    ∧ ((atWork [relWord] embedding).seq 1).open.find? (fun x => decide (x.index = 0)) = none
    ∧ wRelative (stepWord (image 1 [relWord]) 0) = true
    ∧ ({ queued false with cut := true } : QStep).cut = true := by decide +kernel

/-- Partition 1 whose batch step the running boundary has just cut at the end of its move period, after seven without a step; and one
in which a command waits to be selected. -/
def hanging : State := { seqIs { Seq.none with periodEnd := 50, stuck := 7, lastOwner := some 0, served := [2, 0, 0, 0] } embedding with
  clock := ⟨100, 100, 5, true⟩
  dict := { Dict.start with objs := [(objKey 0x2021 0x0C, BitVec.ofNat 64 (5 * 2 ^ 32))] } }

theorem witness_LateWorkEnds_hangs :
    (let s := seqIs { Seq.none with run := some (runOf [endWord]), periodEnd := 2 ^ 40, stuck := 8 } embedding
     (s.seq 1).run = some (runOf [endWord]) ∧ 8 ≤ s.stuckPeriods 1 ∧ s.observe.lastDump = none ∧ s.errors.ring = [])
    ∧ ((hanging.seq 1).run = none ∧ hanging.cutHere 1 = true ∧ (hanging.seq 1).lastOwner = some 0 ∧ 8 ≤ hanging.stuckPeriods 1)
    ∧ (let s := { idlePart with seqs := [(1, { idlePart.seq 1 with stuck := 8 })] }
       (s.seq 1).run = none ∧ s.cutHere 1 = false ∧ s.selectionHead 1 = some 2 ∧ 8 ≤ s.stuckPeriods 1)
    ∧ (∃ a, (dumped 0).observe.lastDump = some a ∧ (dumped 0).clock.now < a + 1000000)
    ∧ base.stuckPeriods 1 < 8 := by
  refine ⟨by decide +kernel, by decide +kernel, by decide +kernel, ⟨0, rfl, by decide +kernel⟩, by decide +kernel⟩

/-! ### The boundary -/

/-- A WRITE of one block in the running tick, and a DISCARD of another. -/
def changing : State := { base with media := { Media.shipped with
  spaces := [(1, { Namespace.none with life := .active, blocks := [(9, [⟨3, .mapped, [], 0, 0, 0, 3, 0, none, false⟩])] })]
  pending := [⟨.write, 1, 7, 1, [(0, 5)], [], 0, [], 5⟩, ⟨.discard, 1, 9, 1, [], [], 0, [], 5⟩] } }

theorem witness_BoundariesAdvance :
    (base.clock.running = true ∧ base.power.state ≤ 4 ∧ base.power.resetAt = none ∧ base.dict.ctl = []
      ∧ ({ base with security := { Security.shipped with due := some 4 } } : State).security.due = some 4
      ∧ bitOf ((({ owned with freezeDue := 0x200 } : PortSt).freeze ||| 0x200#10)).toNat 9 = true)
    ∧ State.reset.clock.running = false
    ∧ ((changing.space 1).life ≠ .absent ∧ changing.media.moves = []
      ∧ (∀ c', c' ∈ changing.media.pending → c' ≠ ⟨.write, 1, 7, 1, [(0, 5)], [], 0, [], 5⟩ → c'.ns = 1 →
          c'.start + c'.len ≤ 7 + 0 ∨ 7 + 0 < c'.start)
      ∧ (∀ c', c' ∈ changing.media.pending → c' ≠ ⟨.discard, 1, 9, 1, [], [], 0, [], 5⟩ → c'.ns = 1 →
          c'.start + c'.len ≤ 9 ∨ 9 < c'.start)
      ∧ (((changing.publishMap 6).space 1).head 9).isSome = true
      ∧ (∀ c, c ∈ changing.media.pending → c.ns = 1 → c.start + c.len ≤ 8 ∨ 8 < c.start))
    ∧ (let m := { changing.media with pending := [⟨.lose, 1, 9, 1, [], [], 0, [], 5⟩] }
       m.moves = [] ∧ m.pending = [⟨.lose, 1, 9, 1, [], [], 0, [], 5⟩]) := by decide +kernel

/-- A block whose data a snapshot reads from the write buffer, and that both copies have lost. -/
def losing : State := { changing with media := { changing.media with
  pieces := [⟨4, 1, 9, 1, [], true, [], 0, none, []⟩]
  spaces := [(1, { Namespace.none with life := .active, blocks := [(9, [⟨3, .mapped, [], 0, 0, 0, 3, 4, none, false⟩])] })]
  pending := [⟨.lose, 1, 9, 1, [], [], 0, [], 5⟩] } }

theorem witness_BoundariesAdvance_lost :
    (losing.space 1).life ≠ .absent ∧ ((losing.space 1).verAt 9 5).map (fun v => (v.st, v.group)) = some (.mapped, 4)
    ∧ losing.media.pieces.map (fun q => (q.group, q.ns, q.start, q.blocks)) = [(4, 1, 9, 1)] := by decide +kernel

/-- A WRITE that is due with a status, and a port whose stream is to be frozen. -/
def posting : State := { with' { held 0x11 0 0 1 0 0 1 with due := some 0x0201, count := 0 } with
  ports := [(0, { owned with freezeDue := 0x200 })], errors := { Errors.start with device := 1 } }

theorem witness_RecordsArePosted :
    ((posting.tset 0).life = .taken ∧ (posting.tset 0).due = some 0x0201 ∧ opWrite (posting.tset 0).opcode = true
      ∧ bitOf ((posting.port 0).freeze ||| (posting.port 0).freezeDue).toNat 9 = true ∧ (posting.tset 1).life ≠ .taken
      ∧ bitOf ((posting.completion.port 0).freeze).toNat 9 = true)
    ∧ (({ posting with ports := [] } : State).errors.device = 1
      ∧ (∀ y, y < 4 → bitOf ((({ posting with ports := [], sets := [] } : State).completion.port y).freeze).toNat 9 = false)
      ∧ posting.errors.ring = [])
    ∧ ((with' { embedding with held := 1 }).tset 0).held = 1
    ∧ (let w := (with' { embedding with held := 1 }).tset 0
       w.due = none ∧ w.steps ≤ w.published + w.held ∧ opTableRun w.opcode = true ∧ w.reg 5 = 0)
    ∧ (held 0x33 1 2 0 (2 ^ 31) 0 1).opcode = 0x33 ∧ bitOf ((held 0x33 1 2 0 (2 ^ 31) 0 1).reg 1) 31 = true
    ∧ (let s := atWork [endWord] { held 0x33 1 2 0 (2 ^ 31) 0 1 with held := 1 }
       (s.tset 0).held = 1 ∧ (s.tset 0).opcode = 0x33 ∧ (s.ctx (s.tset 0).partNo (s.tset 0).ctxNo).life = .loaded) := by
  decide +kernel

/-- A definition written for partition 0: squares 0 and 1, 1 GiB of the near tier, port 0. -/
def defining : State := { base with dict := { Dict.start with
  objs := [(objKey 0x2010 1, 3), (objKey 0x2010 3, 1073741824), (objKey 0x2010 8, 1)] } }

/-- Partition 0 of that definition in a state of its life. -/
def partIs (l : PartLife) : State := { defining with
  parts := [(0, { Partition.none with
    life := l, defn := { PDef.none with squares := 3, nearSize := 1073741824, ports := 1 } })] }

theorem witness_PartitionControlsAct :
    defining.commitFault 0 (defining.writtenDef 0) = 0 ∧ base.commitFault 0 (base.writtenDef 0) = 1
    ∧ (partIs .stopped).startFault 0 = 0 ∧ (partIs .running).startFault 0 = 2
    ∧ ((partIs .running).part 0).life = .running ∧ ((partIs .stopped).part 0).life = .stopped := by decide +kernel

/-- A namespace of 1 GiB, written for namespace 0 and governing, and its state. -/
def nsIs (l : NsLife) : State := { base with
  dict := { Dict.start with
    objs := [(objKey 0x4100 1, 262144), (objKey 0x4100 2, 1)], gov := [(objKey 0x4100 1, 262144), (objKey 0x4100 2, 1)] }
  media := { Media.shipped with spaces := [(0, { Namespace.none with life := l })] } }

theorem witness_BoundaryControlsAct :
    (({ PortSt.start with life := .down } : PortSt).node = 0 ∧ PortSt.start.life ≠ .disabled ∧ owned.node ≠ 0
      ∧ ((portIs { PortSt.start with life := .disabled }).port 0).life = .disabled ∧ owned.life = .up)
    ∧ (base.createFault 0 ≠ 0 ∧ (nsIs .absent).createFault 0 = 0 ∧ ((nsIs .active).space 0).life = .active
      ∧ (base.space 0).life = .absent)
    ∧ ((partIs .running).stateBlocked 3 = true
      ∧ (base.stateBlocked 2 = false ∧ base.power.target = none ∧ base.media.sanitize = none ∧ base.hold = 0
        ∧ 2 ≠ base.power.state ∧ base.power.state ≤ 3 ∧ bitOf (gatedBy 2) 24 = true ∧ bitOf (gatedBy base.power.state) 24 = false))
    ∧ (base.observe.frozen = false ∧ inHold.hold = 2) := by decide +kernel

theorem witness_BoundaryControlsAct_more :
    (({ PortSt.start with life := .trainFailed } : PortSt).node = 0 ∧ PortSt.start.retrains.length < 2
      ∧ (([0, 0] : List Nat).filter (fun t => decide (base.clock.now < t + 100000000))).length = 2)
    ∧ inHold.testAllowed (some 0) testWord = true ∧ base.testAllowed (some 0) testWord = false := by decide +kernel

/-! ### Admin and I/O commands -/

theorem witness_EventsNeedTheirCommand : base.runsCmd (setKey 0 0) 0x10 = false := by decide

/-- FEATURES with one pair: TICK_BASE, FREE_FLOOR, or an object that does not exist. -/
def features (i j n v : Nat) : TaskSet := { held 0x03 0 0 0 0 0 0 with
  regs := [(0, BitVec.ofNat 64 (3 * 2 ^ 56)), (1, BitVec.ofNat 64 (i * 2 ^ 48 + j * 2 ^ 40 + n * 2 ^ 36)), (2, BitVec.ofNat 64 v)] }

theorem witness_AdminCommandsComplete :
    (with' (held 1 0 0 0 0 0 0)).ready (setKey 0 0) 0x01 = true
    ∧ ((with' (held 2 0 0 0 (1 * 2 ^ 48) 64 0)).ready (setKey 0 0) 0x02 = true
      ∧ ((with' (held 2 0 0 0 (1 * 2 ^ 48) 64 0)).page 1).isSome = true)
    ∧ (with' (held 4 0 0 0 0 4096 0)).ready (setKey 0 0) 0x04 = true
    ∧ (with' (held 5 0 0 0 (1 * 2 ^ 62) 0 0)).readyCommit (setKey 0 0) 1 = true
    ∧ ((with' (held 5 0 0 0 (2 * 2 ^ 62) 0 0)).readyCommit (setKey 0 0) 2 = true
      ∧ (with' (held 5 0 0 0 (2 * 2 ^ 62) 0 0)).imageFault base.downloadSlot ≠ 0) := by decide +kernel

theorem witness_AdminCommandsComplete_features :
    (let t := features 0x2000 1 2 2000
     (with' t).ready (setKey 0 0) 0x03 = true ∧ t.pairs 5 1 = [(0x2000, 1, bytesOf 2 2000)]
       ∧ (with' t).checkWrite (some 0) 0x2000 1 (bytesOf 2 2000) = 0x0000)
    ∧ (let t := features 0x4060 0x0B 4 70000
       t.pairs 5 1 = [(0x4060, 0x0B, bytesOf 4 70000)] ∧ (with' t).checkWrite (some 0) 0x4060 0x0B (bytesOf 4 70000) = 0
         ∧ isPersistent 0x4060 0x0B (bytesOf 4 70000) = true)
    ∧ (let t := features 0x1234 1 4 0
       t.pairs 5 1 = [(0x1234, 1, bytesOf 4 0)] ∧ (with' t).checkWrite (some 0) 0x1234 1 (bytesOf 4 0) ≠ 0) := by
  decide +kernel

/-- A set's command on the module with namespace 0 ACTIVE, readable by port 0. -/
def onSpace (t : TaskSet) : State := { nsIs .active with sets := [(0, t)] }

/-- What a block's read answers that delivers these bytes. -/
theorem witness_ReadsReturnTheSnapshot :
    (let t := held 0x10 0 0 0 0 7 2
     (onSpace t).ready (setKey 0 0) 0x10 = true ∧ (onSpace t).isProtected t.nsNo = false
       ∧ (∀ i, i < 2 → (onSpace t).readBlock 5 0 0 (7 + i) = .data []))
    ∧ (let t := held 0x10 0 0 0 0 262144 1
       (with' t).ready (setKey 0 0) 0x10 = true ∧ (with' t).isProtected t.nsNo = false
         ∧ (with' t).readBlock 5 0 0 262144 = .denied)
    ∧ (let s := { onSpace (held 0x10 0 0 0 0 9 1) with media := { Media.shipped with
          spaces := [(0, { Namespace.none with life := .active, blocks := [(9, [⟨3, .unreadable, [], 0, 0, 0, 3, 0, none, false⟩])] })] } }
       s.readBlock 5 0 0 9 = .unreadable)
    ∧ (let t := { held 0x10 0 0 0 0 7 2 with begun := 1 }
       (onSpace t).runsCmd (setKey 0 0) 0x10 = true ∧ ((onSpace t).tset 0).begun = 1)
    ∧ (onSpace (held 0x15 0 0 0 0 0 1)).ready (setKey 0 0) 0x15 = true
    ∧ (let m := { (onSpace (held 0x15 0 0 0 0 0 1)).media with cache := [0] }
       ∀ i, i < 1 → 0 * 2 ^ 29 + 0 + i ∈ m.cache) := by decide +kernel

/-- Whether the map segments of the second region of two can be read. -/
theorem witness_ReadsReturnTheSnapshot_lost :
    (let t := held 0x15 0 0 0 0 0 2
     let s := { onSpace t with media := { (nsIs .active).media with badSegs := [1] } }
     s.ready (setKey 0 0) 0x15 = true ∧ (∀ i, i < 1 → s.media.segmentLost t.nsNo (256 * i) = false)
       ∧ s.media.segmentLost t.nsNo 256 = true)
    ∧ (onSpace (held 0x15 0 0 0 0 0 1)).media.segmentLost 0 0 = false ∧ TaskSet.none.used = [] := by decide +kernel

/-- A check value's unit has been fed: configuration 0 over one 64-byte granule of memory, and over one block. -/
theorem witness_ReadsReturnTheSnapshot_check :
    (let t := held 0x16 1 0 0 (2 ^ 59) 0 1
     let s := atWork [] t
     s.ready 0 0x16 = true ∧ bitOf (t.reg 1) 59 = true ∧ ceilDiv (t.reg 3 * 64) 4096 = 1
       ∧ (s.ckFor 1 0).any (fun c => decide ((feedUnits c 0 0 (fun i => 0 + 4096 * i) (s.memUnit 0 64) 1 0 c.init).2 = (1, none))) = true)
    ∧ (let t := held 0x16 0 0 0 0 7 1
       let s := onSpace t
       s.ready 0 0x16 = true ∧ bitOf (t.reg 1) 59 = false
         ∧ (s.ckFor 0 0).any (fun c => decide ((feedUnits c 0 0 (fun i => 0 * 2 ^ 42 + 7 + i) (s.flashUnit 5 0 0 7) 1 0 c.init).2
             = (1, none))) = true) := by decide +kernel

/-- Namespace 0 is protected; its block 7 holds data whose check value is `v`. -/
def guarded (v : Nat) (t : TaskSet) : State := { onSpace t with
  dict := { (nsIs .active).dict with gov := (objKey 0x6040 1, 135) :: (nsIs .active).dict.gov }
  media := { Media.shipped with spaces := [(0, { Namespace.none with
    life := .active, blocks := [(7, [⟨3, .mapped, [(0, 9)], BitVec.ofNat 64 v, 0, 0, 3, 0, none, false⟩])] })] } }

/-- The check value of that block. -/
def goodValue : Nat := (guarded 0 TaskSet.none).blockValue 0 7 [(0, 9)]

theorem witness_ReadsReturnTheSnapshot_protected :
    (let s := guarded goodValue (held 0x10 0 0 0 0 7 1)
     s.ready 0 0x10 = true ∧ s.isProtected 0 = true ∧ s.readBlock 5 0 0 7 = .data [(0, 9)])
    ∧ (guarded (goodValue + 1) (held 0x10 0 0 0 0 7 1)).readBlock 5 0 0 7 = .unreadable := by decide +kernel

/-- A host CHECK whose first unit cannot be read: of memory, and of flash. -/
theorem witness_ReadsReturnTheSnapshot_bad :
    (let t := held 0x16 1 0 0 (2 ^ 59) 0 1
     let s := { atWork [] t with fabric := { Fabric.zeroed with bad := [0] } }
     s.ready 0 0x16 = true ∧ s.errors.ring = [] ∧ (s.readTier 0 64).toOption = none
       ∧ (s.ckFor 1 0).any (fun c => decide ((feedUnits c 0 0 (fun i => 0 + 4096 * i) (s.memUnit 0 64) 1 0 c.init).2 = (0, some .unreadable))) = true)
    ∧ (let t := held 0x16 0 0 0 0 7 1
       let s := guarded (goodValue + 1) t
       s.ready 0 0x16 = true
         ∧ (s.ckFor 0 0).any (fun c => decide ((feedUnits c 0 0 (fun i => 0 * 2 ^ 42 + 7 + i) (s.flashUnit 5 0 0 7) 1 0 c.init).2
             = (0, some .unreadable))) = true)
    ∧ (let t := held 0x16 0 0 0 0 262144 1
       let s := with' t
       s.ready 0 0x16 = true
         ∧ (s.ckFor 0 0).any (fun c => decide ((feedUnits c 0 0 (fun i => 0 * 2 ^ 42 + 262144 + i) (s.flashUnit 5 0 0 262144) 1 0 c.init).2
             = (0, some .denied))) = true) := by decide +kernel

/-- The same with a capacitor bank that covers 2,048 MiB of write buffer. -/
def roomFor (t : TaskSet) : State := { onSpace t with
  dict := { (onSpace t).dict with objs := (onSpace t).dict.objs ++ [(objKey 0x7020 4, 2048)] } }

theorem witness_WritesAreAccepted :
    (let t := held 0x11 0 0 0 (2 ^ 63) 0 65
     (onSpace t).ready 0 0x11 = true ∧ bitOf (t.reg 1) 63 = true ∧ 64 < t.reg 3 ∧ t.count = 0)
    ∧ (let t := held 0x11 0 0 0 (2 ^ 63) 0 64
       (onSpace t).ready 0 0x11 = true ∧ ¬ (bitOf (t.reg 1) 63 = true ∧ 64 < t.reg 3) ∧ (onSpace t).isProtected t.nsNo = false)
    ∧ (let t := held 0x11 0 0 0 0 0 1
       let s := { onSpace t with dict := { Dict.start with gov := [(objKey 0x6040 1, 128)] } }
       s.ready 0 0x11 = true ∧ s.isProtected t.nsNo = true ∧ bitOf (t.reg 1) 62 = false)
    ∧ (let t := { held 0x11 0 0 0 0 0 1 with begun := 1, arrived := List.range 64 }
       let s := roomFor t
       s.runsCmd 0 0x11 = true ∧ t.begun = 1 ∧ 0 < min 64 (t.reg 3 - t.count) ∧ t.hasBlocks t.count 1 = true
         ∧ s.withheld = false ∧ s.media.readOnly = false ∧ s.isProtected t.nsNo = false)
    ∧ (let t := { held 0x11 0 0 0 0 0 1 with begun := 1 }
       (roomFor t).runsCmd 0 0x11 = true ∧ (roomFor t).withheld = false ∧ t.hasBlocks 0 1 = false)
    ∧ ({ base with power := { Power.start with warned := true } } : State).withheld = true := by decide +kernel

/-- An open band of lane 0, and a module with 64 closed bands and a full one that therefore stays open. -/
theorem witness_WritesAreAccepted_room :
    (base.media.hasRoom base.clock.now 1 = true ∧ base.media.readOnly = false)
    ∧ (let full : Band := ⟨100, 0, List.replicate 32 3, 5, .opened, 0, 0, none, 0, 0, 2 ^ 40, [], [], 0, []⟩
       let closed := (List.range 64).map (fun i => { full with number := i, life := .closed })
       ({ Media.shipped with bands := full :: closed, bandNo := 101 } : Media).hasRoom 0 1 = false) := by decide +kernel

/-- A piece of one block that has arrived: within the limits, and beyond those of a buffer whose bank is too small. -/
theorem witness_WritesAreAccepted_limits :
    (let t := { held 0x11 0 0 0 0 0 1 with begun := 1, arrived := List.range 64 }
     ((roomFor t).noWrites = false ∧ (((roomFor t).request 4 8).acceptPiece 0 0 1 [] [] (some 8)).withinLimits = true)
       ∧ (((onSpace t).request 4 8).acceptPiece 0 0 1 [] [] (some 8)).withinLimits = false)
    ∧ ({ base with power := { Power.start with warned := true } } : State).noWrites = true := by decide +kernel

/-- A piece of the protected namespace whose value is wrong, and one whose value is right. -/
theorem witness_WritesAreAccepted_values :
    (let s := guarded 0 { held 0x11 0 0 0 (2 ^ 62) 7 1 with
        begun := 1, arrived := List.range 64, wdata := [(0, 9)], input := memOf (bytesOf 8 (goodValue + 1)) }
     s.runsCmd 0 0x11 = true ∧ s.isProtected 0 = true ∧ s.errors.ring = [] ∧ s.media.hasRoom s.clock.now 1 = true
       ∧ (((s.tset 0).input.slice 0 8).num 0 8 ≠ s.blockValue 0 7 ((s.tset 0).wdata.slice 0 4096)))
    ∧ (let s := guarded 0 { held 0x11 0 0 0 (2 ^ 62) 7 1 with
        begun := 1, arrived := List.range 64, wdata := [(0, 9)], input := memOf (bytesOf 8 goodValue) }
       ((s.tset 0).input.slice 0 8).num 0 8 = s.blockValue 0 7 ((s.tset 0).wdata.slice 0 4096)) := by decide +kernel

theorem witness_DiscardsFlushesSanitize :
    (onSpace (held 0x12 0 0 0 0 0 1)).ready 0 0x12 = true ∧ (onSpace (held 0x13 0 0 0 0 0 1)).ready 0 0x13 = true
    ∧ (onSpace (held 0x14 0 0 0 0 0 0)).ready 0 0x14 = true
    ∧ (let t := held 0x06 0 0 0 (1 * 2 ^ 62) 0 0
       (onSpace t).ready 0 0x06 = true ∧ bits (t.reg 1) 63 62 = 1 ∧ (onSpace t).media.sanitize = none
         ∧ (onSpace t).anyActive = false ∧ (∀ j, j < 256 → ((onSpace t).tset j).namesNs = false)
         ∧ (atWork [] t).anyActive = true)
    ∧ bits ((held 0x06 0 0 0 (2 * 2 ^ 62) 0 0).reg 1) 63 62 = 2
    ∧ ({ Media.shipped with sanitize := some ⟨false, none, false, []⟩ } : Media).sanitize.isSome = true := by decide +kernel

/-- A CONTEXT command of an operation on context 2 of partition 1, whose context is in a state. -/
def context (op : Nat) (l : CtxLife) : State := { atWork [] (held 0x20 1 2 0 (op * 2 ^ 62) 0 0) with
  ctxs := [(18, { Context.none with life := l })], seqs := [] }

theorem witness_ContextsComeAndGo :
    (∀ op, 1 ≤ op → op ≤ 3 → (context op .loaded).ready 0 0x20 = true ∧ bits (((context op .loaded).tset 0).reg 1) 63 62 = op)
    ∧ (context 1 .empty).partLists 1 0 = true ∧ (context 1 .empty).partLists 1 3 = false
    ∧ ((context 1 .empty).tset 0).opcode = 0x20 ∧ ((context 1 .empty).ctx 1 2).life = .empty
    ∧ ((context 2 .faulted).ctx 1 2).life = .faulted
    ∧ (((context 2 .loaded).ctx 1 2).life = .loaded ∧ (context 2 .loaded).ctxBusy 1 2 = false)
    ∧ (atWork [endWord] embedding).ctxBusy 1 2 = true
    ∧ (let s := { context 3 .loaded with sets := [(0, held 0x20 1 2 0 (3 * 2 ^ 62) 0 0), (1, embedding)] }
       (s.tset 1).life = .taken ∧ opPartition (s.tset 1).opcode = true ∧ (s.tset 1).opcode ≠ 0x20 ∧ (s.tset 1).partNo = 1
         ∧ (s.tset 1).ctxNo = 2 ∧ (s.tset 1).due = none ∧ (s.tset 1).published + (s.tset 1).held < (s.tset 1).steps) := by
  refine ⟨fun op h1 h2 => ?_, by decide +kernel, by decide +kernel, by decide +kernel, by decide +kernel, by decide +kernel,
    by decide +kernel, by decide +kernel, by decide +kernel⟩
  obtain rfl | rfl | rfl : op = 1 ∨ op = 2 ∨ op = 3 := by omega
  all_goals decide +kernel

/-- STAGE_MODEL of a kind into context 2 of partition 1, in a power state; block 0 of the near tier is bad if `bad` says so. -/
def staging (kind power : Nat) (bad : Bool) : State := { atWork [] (held 0x21 1 2 0 (kind * 2 ^ 59) 0 64) with
  ctxs := [(18, { Context.none with life := .loaded })], seqs := []
  power := { base.power with state := power }
  fabric := { Fabric.zeroed with bad := if bad then [0] else [] } }

theorem witness_LoadsRun :
    (∀ kind, kind ∈ [0, 1, 2, 4] → (staging kind 0 false).readyStage 0 kind = true)
    ∧ (∀ q, (((staging 1 0 false).ctx 1 2).banks q).st ≠ .armed ∧ (((staging 1 0 false).ctx 1 2).banks q).st ≠ .retiring)
    ∧ ((shadowed .retiring).banks .scales).st = .retiring
    ∧ meets ((staging 1 0 false).part 1).defn.squares (staging 1 0 false).gated = false
    ∧ meets ((staging 1 3 false).part 1).defn.squares (staging 1 3 false).gated = true
    ∧ ((staging 1 0 false).readTier 0 64).toOption.isSome = true ∧ ((staging 1 0 true).readTier 0 64).toOption = none
    ∧ (staging 1 0 true).errors.ring = [] := by
  refine ⟨by decide +kernel, fun q => ?_, by decide +kernel, by decide +kernel, by decide +kernel, by decide +kernel,
    by decide +kernel, rfl⟩
  cases q <;> decide +kernel

/-- A move table of one END step for two dies, with its header. -/
def tableImage : Bank :=
  ⟨true, memOf (bytesOf 64 (1 * 2 ^ 464 + 1 * 2 ^ 446 + 1 * 2 ^ 426 + crc32c (bytesOf 32 endWord) * 2 ^ 480) ++ bytesOf 32 endWord), 96, 0⟩

/-- A load of a move table into context 2 of partition 1, which is STOPPED. -/
def loading (b : Bank) : State := { staging 0 0 false with
  parts := [(1, { (staging 0 0 false).part 1 with life := .stopped })]
  ctxs := [(18, { Context.none with life := .loaded, table := ⟨false, Bank.none, b, .loading, 0, false⟩ })]
  stagings := [⟨0, 1, 2, 0, 0, 0, 0, none⟩] }

theorem witness_LoadsRun_checks :
    ((loading tableImage).stagings = [⟨0, 1, 2, 0, 0, 0, 0, none⟩] ∧ ((loading tableImage).part 1).life ≠ .running
      ∧ ((loading tableImage).tset 0).opcode = 0x21 ∧ ((loading tableImage).tset 0).partNo = 1
      ∧ ((loading tableImage).tset 0).ctxNo = 2)
    ∧ (loading Bank.none).checkLoad 1 2 .table Bank.none = some (ldBadCheck, 0)
    ∧ (loading tableImage).checkLoad 1 2 .table (((loading tableImage).ctx 1 2).banks .table).shadow = none := by
  decide +kernel

/-- A load whose shadow is ARMED with another by one write, and not with a third. -/
theorem witness_LoadsRun_armed :
    (let b : Banks := ⟨false, Bank.none, someBank, .armed, 7, false⟩
     let s := { staging 1 0 false with ctxs := [(18, { Context.none with
       life := .loaded, scales := b, table := b, sft := { b with armGroup := 8 } })] }
     s.readyStage 0 1 = true ∧ ((s.ctx 1 2).banks .scales).st ≠ .retiring ∧ ((s.ctx 1 2).banks .scales).st = .armed
       ∧ ((s.ctx 1 2).banks .table).armGroup = ((s.ctx 1 2).banks .scales).armGroup
       ∧ ((s.ctx 1 2).banks .sft).armGroup ≠ ((s.ctx 1 2).banks .scales).armGroup)
    ∧ ((atWork [endWord] embedding).part 1).life = .running := by decide +kernel

/-- A distance table's span that takes its entries, and one that meets a bad block which it covers in part. -/
theorem witness_LoadsRun_distance :
    ((loading Bank.none).writeTier 0 64 []).toOption.isSome = true
    ∧ (({ loading Bank.none with fabric := { Fabric.zeroed with bad := [0] } } : State).writeTier 0 16 []).toOption.isNone = true
    ∧ (loading Bank.none).errors.ring = [] := by decide +kernel

/-- A far staging of 1 MiB, from namespace 0, by a partition with a far window. -/
def farStaging : State := { nsIs .active with
  parts := [(1, { Partition.none with life := .stopped, defn := { PDef.none with squares := 3, farBase := farFirst, farSize := 2 ^ 30, ports := 1 } })]
  ctxs := [(18, { Context.none with life := .loaded })]
  sets := [(0, { held 0x21 1 2 0 (3 * 2 ^ 59) 0 1048576 with
    regs := (held 0x21 1 2 0 (3 * 2 ^ 59) 0 1048576).regs ++ [(4, BitVec.ofNat 64 farFirst)] })] }

set_option maxRecDepth 4096 in
theorem witness_FarStagingsRun :
    (farStaging.readyStage 0 3 = true
      ∧ ({ farStaging with guard := { Guard.start with farOff := true } } : State).guard.farOff = true)
    ∧ (farStaging.guard.farOff = false ∧ farStaging.farNamed farFirst 1048576 = false
      ∧ farStaging.codesNamed farFirst 1048576 = false ∧ (∀ e, e ∈ farStaging.ledger → (ledgerFields e).1 ≠ 1))
    ∧ (openLedger farStaging.ledger 1 0 1).isSome = true
    ∧ (let s := { farStaging with stagings := [⟨0, 1, 2, 5, 0, 1048576, 0, none⟩] }
       s.stagings = [⟨0, 1, 2, 5, 0, 1048576, 0, none⟩] ∧ (s.tset 0).opcode = 0x21) := by decide +kernel

/-- The conditions under which both commands of a far staging complete: its source reads, its destination is free, the ledger has
room; and a staging that nothing stopped. -/
theorem witness_FarStagingsRun_complete :
    (let s := { farStaging with sets := [(0, { held 0x21 1 2 0 (3 * 2 ^ 59 + 2 ^ 57) 0 1048576 with
        regs := (held 0x21 1 2 0 (3 * 2 ^ 59 + 2 ^ 57) 0 1048576).regs ++ [(4, BitVec.ofNat 64 farFirst)] })] }
     s.readyStage 0 3 = true ∧ s.guard.farOff = false ∧ s.farNamed farFirst 1048576 = false ∧ s.codesNamed farFirst 1048576 = false
       ∧ (∀ e, e ∈ s.ledger → bits e 63 62 ≠ 1) ∧ (openLedger s.ledger 1 ((farFirst - farFirst) / mib) (1048576 / mib)).isSome = true
       ∧ (s.tset 0).reg 4 = farFirst ∧ (s.tset 0).reg 3 = 1048576 ∧ s.stageSource 0 = ([], 1048576, none)
       ∧ farFirst % 64 = 0 ∧ 1048576 % 64 = 0 ∧ farFirst + 1048576 ≤ scratchFirst)
    ∧ (let s := { farStaging with stagings := [⟨0, 1, 2, 5, 63, 1048576, 0, none⟩] }
       (∃ g, g ∈ s.stagings ∧ g.key = 0) ∧ (s.tset 0).opcode = 0x21
         ∧ (∀ g, g ∈ s.stagings → g.key = 0 → g.kind = 5 ∧ g.stop = none ∧ g.entry < 64)) := by decide +kernel

/-- A far staging that something stopped: the read of a lost block, and a delete. -/
theorem witness_FarStagingsRun_stopped : ∀ c, c ∈ [0x0202, 0x0501] →
    (let g : Staging := ⟨0, 1, 2, 5, 0, 1048576, 0, some (c, 0)⟩
     let s := { farStaging with stagings := [g] }
     (∀ h, h ∈ s.stagings → h.key = 0 → h = g) ∧ g ∈ s.stagings ∧ g.kind = 5 ∧ g.entry < 64 ∧ (s.tset 0).opcode = 0x21) := by
  intro c _
  refine ⟨fun h hh _ => ?_, .head _, rfl, (by decide : 0 < 64), ?_⟩
  · cases hh with
    | head => rfl
    | tail _ h => cases h
  · show (farStaging.tset 0).opcode = 0x21
    decide +kernel

/-- A command that runs in context 2 of partition 1, which queues nothing. -/
def tableRun (o : Nat) (input : Mem) (r1 r2 r3 : Nat) : State := { atWork [] { held o 1 2 0 r1 r2 r3 with input := input } with
  ctxs := [(18, { Context.none with life := .loaded, table := ⟨false, image 1 [endWord], Bank.none, .empty, 0, false⟩ })], seqs := [] }

/-- The descriptor of an index of one node in the near tier, in namespace 0. -/
def indexDesc : Nat := 1 * 2 ^ 893 + 4096 * 2 ^ 643 + 8192 * 2 ^ 595 + 12288 * 2 ^ 547

/-- A SEARCH command of an operation, whose input is that descriptor, with the namespace it names. -/
def searching (op : Nat) (ix : Option Index) (ro : Bool) : State := { tableRun 0x34 (memOf (bytesOf 128 indexDesc)) (op * 2 ^ 61) 0 0 with
  dict := (nsIs .active).dict, media := { (nsIs .active).media with readOnly := ro }
  ctxs := [(18, { Context.none with life := .loaded, index := ix })] }

/-- That index, attached. -/
def someIndex : Index := ⟨0, bytesOf 128 indexDesc, [], false, 0, []⟩

theorem witness_SearchCommandsAct :
    ((tableRun 0x30 [] 0 0 1).ready 0 0x30 = true ∧ (tableRun 0x31 [] 0 0 1).ready 0 0x31 = true
      ∧ (tableRun 0x32 [] 0 0 1).ready 0 0x32 = true ∧ (tableRun 0x33 [] 0 0 1).ready 0 0x33 = true
      ∧ 0 ∉ ((tableRun 0x31 [] 0 0 1).ctx 1 2).queue)
    ∧ (let s := searching 3 none false
       s.readySearch 0 3 = true ∧ 0 ∉ (s.ctx 1 2).queue ∧ (s.copyHeaders (s.tset 0) 1 0).toOption.isSome = true)
    ∧ ((searching 1 none false).readySearch 0 1 = true
      ∧ ((searching 1 (some someIndex) false).ctx 1 2).index.isSome = true
      ∧ (searching 1 none false).attachDenied 0 1 (descriptor indexDesc) = false)
    ∧ (let s := searching 1 none false
       ((IndexWork.mk s (descriptor indexDesc) (fun lba => (s.readBlock 5 0 0 lba).content) [] (descriptor indexDesc).tombA []).attach 0
         (s.tset 0).input).from0.1.toOption.isSome = true)
    ∧ ((searching 2 (some someIndex) false).readySearch 0 2 = true
      ∧ (atWork [endWord] embedding).ctxBusy 1 2 = true
      ∧ ({ searching 2 (some someIndex) false with sets := [(0, { (searching 2 none false).tset 0 with due := none })] } : State).ctxBusy 1 2
          = false)
    ∧ ((searching 4 none true).readySearch 0 4 = true ∧ (searching 4 none true).media.readOnly = true
      ∧ ((searching 4 none false).ctx 1 2).index = none ∧ ((searching 4 (some someIndex) false).ctx 1 2).index.isSome = true) := by
  decide +kernel

/-- A tombstone kind in a state of its shadow, for the attached index, and an update that has begun. -/
def updating (st : Shadow) : State := { searching 4 (some someIndex) false with
  ctxs := [(18, { Context.none with
    life := .loaded, index := some someIndex
    tomb := ⟨false, ⟨true, [], 65, 4096⟩, ⟨true, [], 65, 8192⟩, st, 0, false⟩ })]
  sets := [(0, { (searching 4 none false).tset 0 with begun := 1 })] }

theorem witness_IndexUpdatesApply :
    (let s := updating .ready
     (s.ctx 1 2).index = some someIndex ∧ (s.tset 0).partNo = 1 ∧ (s.tset 0).ctxNo = 2 ∧ s.runsCmd 0 0x34 = true
       ∧ (s.tset 0).searches 4 = true ∧ (s.tset 0).begun = 1 ∧ (s.ctx 1 2).tomb.st = .ready ∧ s.updateAhead (s.tset 0) = false
       ∧ s.media.readOnly = false
       ∧ ((s.indexWork (descriptor indexDesc) 8192).apply 0 0).from0.1.toOption.isSome = true)
    ∧ ((updating .retiring).ctx 1 2).tomb.st = .retiring
    ∧ (updating .retiring).oldImageUsed 1 2 0 = false
    ∧ (((updating .retiring).indexWork (descriptor indexDesc) 8192).replay 4096 [0]).from0.1.toOption.isSome = true
    ∧ (updating .ready).relocates = true
    ∧ ((updating .ready).indexWork (descriptor indexDesc) 0).pass.from0.1.toOption.isSome = true
    ∧ ({ updating .ready with media := { Media.shipped with readOnly := true } } : State).relocates = false := by decide +kernel

/-- An update that changes nothing waits for nothing; one in read-only ends; a repair pass that rewrites no block. -/
theorem witness_IndexUpdatesApply_waits :
    (updating .ready).mustWait (updating .ready) 0 = false
    ∧ ({ updating .ready with power := { base.power with warned := true } } : State).mustWait (updating .ready) 1 = true
    ∧ ({ updating .ready with media := { Media.shipped with readOnly := true } } : State).media.readOnly = true
    ∧ (match ((updating .ready).indexWork (descriptor indexDesc) 0).pass.from0 with
       | (.ok v, l) => !(updating .ready).mustWait
           (((updating .ready).indexReads 0 5 l).1.acceptBlocks none 0 v.blocks) v.blocks.length
       | _ => false) = true := by decide +kernel

/-! ### Media -/

/-- A band of number 5 on lane 0 that uses block 3 of each die. -/
def bandOf (l : BandLife) : Band := ⟨5, 0, List.replicate 32 3, 5, l, 0, 0, none, 0, 0, 1, [], [], 0, []⟩

/-- A module with that band alone, and one block of namespace 1 in its first block, 3. -/
def withBand (l : BandLife) : State := { base with media := { Media.shipped with
  bands := [bandOf l]
  spaces := [(1, { Namespace.none with life := .active, blocks := [(7, [⟨3, .mapped, [(0, 9)], 0, BitVec.ofNat 37 (3 * 16384), 5, 3, 0, none, false⟩])] })] } }

theorem witness_MediaIsKept :
    (((withBand .opened).media.bands.find? (fun b => (withBand .opened).media.programming b && (b.dieOf 3).isSome))
        = some (bandOf .opened)
      ∧ (bandOf .opened).dieOf 3 = some 0 ∧ (withBand .opened).media.moves = []
      ∧ ((withBand .opened).currentIn (fun n => decide (n = 3))).map (fun u => (u.2.2.source, (withBand .opened).media.rowLost u.2.2))
          = [(none, false)]
      ∧ (let s := { withBand .opened with media := { (withBand .opened).media with bands := [{ bandOf .opened with lost := [0] }] } }
         (s.currentIn (fun n => decide (n = 3))).map (fun u => (u.2.2.source, s.media.rowLost u.2.2)) = [(none, true)]))
    ∧ (0 ∉ (withBand .verified).media.deadDies
      ∧ ((withBand .verified).currentIn (fun k => decide (k / 4096 = 0))).length = 1
      ∧ (∀ x, x ∈ (withBand .verified).media.bands → x.life ≠ .opened ∧ x.life ≠ .closed))
    ∧ 2048 ≤ 127 * 16 + 16 := by decide +kernel

theorem witness_MediaIsKept_checks :
    (withBand .opened).guard.nearOff = false
    ∧ ((withBand .opened).currentIn (fun n => decide (n = 3))).map (fun u =>
        (withBand .opened).checkFails u.1 u.2.1 u.2.2.value u.2.2.data) = [false]
    ∧ (losing.media.pieces.map losing.drainsWell = [true] ∧ losing.media.pieces.map Piece.payer = [none])
    ∧ (TaskSet.none.used = [] ∧ base.stagings = []) := by decide +kernel

/-- Blocks in the write buffer: one whose copies pass the drain check, and one of which both fail. Where copy A alone fails, its bytes
are those of a miscorrection, which no theorem can evaluate (log 12). -/
def draining (v : Nat) : State := { guarded v TaskSet.none with media := { (guarded v TaskSet.none).media with
  spaces := [(0, { Namespace.none with life := .active, blocks := [(7, [⟨3, .mapped, [(0, 9)], BitVec.ofNat 64 v, 0, 0, 3, 4, none, false⟩])] })]
  pieces := [⟨4, 0, 7, 1, [], true, [], 0, none, []⟩] } }

theorem witness_MediaIsKept_drains :
    (draining goodValue).media.pieces.map (fun p => ((draining goodValue).pieceData p 7).map (fun x => (x.1, x.2.1.toNat)))
      = [some ([(0, 9)], goodValue)]
    ∧ (draining goodValue).media.pieces.map (fun p =>
        (draining goodValue).checkFails p.ns 7 (BitVec.ofNat 64 goodValue) ((draining goodValue).media.copyData false p 7 [(0, 9)]))
      = [false]
    ∧ (let s := draining (goodValue + 1)
       s.media.pieces.map (fun p => [false, true].map (fun b =>
         s.checkFails p.ns 7 (BitVec.ofNat 64 (goodValue + 1)) (s.media.copyData b p 7 [(0, 9)]))) = [[true, true]]
       ∧ s.errors.ring = [])
    ∧ (draining goodValue).media.pieces.map (draining goodValue).drainsWell = [true] := by decide +kernel

theorem witness_MediaIsKept_held : ((withBand .opened).currentIn (fun n => decide (n = 3))).map (fun u =>
    ((withBand .opened).media.heldData u.1 u.2.1 u.2.2, u.2.2.data)) = [([(0, 9)], [(0, 9)])] := by decide +kernel

/-- A READ of namespace 1 that holds tick 2, under pressure, with a secure discard waiting for its unit. -/
def holding : State := { withBand .verified with
  sets := [(0, { held 0x10 0 0 1 0 7 1 with stamp := 4, begun := 1 })]
  media := { (withBand .verified).media with pressure := true, secure := [⟨9, 5, 1, [BitVec.ofNat 37 (3 * 16384)], []⟩] } }

/-- The same below the floor. -/
def pressed : State := { holding with dict := { Dict.start with objs := [(objKey 0x4060 0x0B, 8388608)] } }

theorem witness_MediaIsKept_holders :
    base.maintains = true ∧ State.reset.maintains = false
    ∧ (pressed.media.presses (pressed.obj 0x4060 0x0B) = true ∧ pressed.media.lastExpiry = none ∧ pressed.firstHolder = some 0)
    ∧ base.media.presses (base.obj 0x4060 0x0B) = false
    ∧ (let s := { holding with dict := { Dict.start with gov := [(objKey 0x4020 1, 1)] } }
       (s.tset 0).holds = true ∧ (s.tset 0).due = none ∧ (s.tset 0).stamp.toNat + s.gov 0x4020 1 ≤ s.tick
         ∧ (s.tset 0).stamp.toNat < 5 ∧ s.holdsSpace 0 1 = true)
    ∧ holding.tick < (holding.tset 0).stamp.toNat + holding.gov 0x4020 1 := by decide +kernel

/-- A boundary of a READY module that publishes a write and a discard, with a set that is due. -/
theorem witness_BoundariesAdvance_order :
    (let s := { changing with sets := [(3, { held 0x14 0 0 0 0 0 0 with due := some 0 })] }
     s.clock.running = true ∧ s.power.state ≤ 4 ∧ s.errors.device ≠ 2 ∧ s.dict.ctl = [] ∧ s.security.due = none
       ∧ s.media.sanitize = none ∧ s.power.resetAt = none ∧ (s.tset 3).life = .taken ∧ (s.tset 3).due = some 0
       ∧ (∀ c, c ∈ s.media.pending → c.kind ≠ .lose))
    ∧ (let s := { holding with clock := ⟨0, 0, 6, true⟩ }
       4 ∈ s.holdersOf 1 ∧ 4 < s.tick) := by decide +kernel

/-- The module with an erase of block 3 pending, or issued. -/
def erasing (issued : Bool) : State := { base with media := { Media.shipped with erasing := [⟨3, issued, false, false, issued, 0⟩] } }

theorem witness_ErasesRun :
    (base.media.sanitize = none ∧ (erasing false).maintains = true ∧ (erasing false).mayErase 3 = true
      ∧ (∃ e, e ∈ (erasing false).media.erasing ∧ e.block = 3 ∧ e.issued = false))
    ∧ State.reset.maintains = false
    ∧ ((∃ e, e ∈ (erasing true).media.erasing ∧ e.block = 3 ∧ e.issued = true ∧ e.suspended = true ∧ e.held = false)
      ∧ 3 ∉ (erasing true).media.retired)
    ∧ ({ withBand .verified with media := { (withBand .verified).media with dirty := [1 * 2 ^ 29] } } : State).mayErase 3 = false := by
  decide +kernel

/-- In P3 as many dies may erase as are at work. -/
theorem witness_ErasesRun_dies :
    (erasing false).dieFree 3 = true
    ∧ (let s := { erasing false with
        power := { base.power with state := 3 }
        media := { (erasing false).media with erasing := (List.range 512).map (fun i => ⟨4096 * (i + 1), true, false, false, false, 0⟩) } }
       s.dieFree 3 = false) := by decide +kernel

theorem witness_EraseCountsAdvance :
    (erasing false).media.sanitize = none ∧ (erasing false).maintains = true ∧ (erasing false).mayErase 3 = true
    ∧ (∃ e, e ∈ (erasing false).media.erasing ∧ e.block = 3 ∧ e.issued = false)
    ∧ (∃ e, e ∈ (erasing true).media.erasing ∧ e.block = 3 ∧ e.issued = true) := by decide +kernel

/-- The verified band's module, with counts that call for wear levelling. -/
def worn : State := { withBand .verified with
  dict := { Dict.start with gov := [(objKey 0x4080 4, 1)] }, media := { (withBand .verified).media with pe := [(3, 9)] } }

/-- The same with few FREE blocks: FREE_FLOOR lies above what there is. -/
def scarce : State := { withBand .verified with dict := { Dict.start with gov := [(objKey 0x4060 0x0B, 4000000)] } }

theorem witness_BandsAreMaintained :
    (scarce.relocates = true ∧ scarce.media.verifyFirst = false ∧ scarce.media.freeBlocks < 4 * scarce.freeFloor
      ∧ leastBand (fun b => ((scarce.currentIn (fun k => decide (k ∈ b.blocks))).length, 1))
          (scarce.media.collectable.filter (fun b => !scarce.seen (fun k => decide (k ∈ b.blocks)))) = some (bandOf .verified))
    ∧ scarce.media.takable.find? (fun b => decide (3 ∈ b.blocks)) = some (bandOf .verified)
    ∧ (scarce.media.reads.get 0 3 < base.gov 0x4080 3
      ∧ base.gov 0x4080 3 ≤ ({ scarce.media with reads := [(3, 200000)] } : Media).reads.get 0 3)
    ∧ (bandOf .verified).sampleDue (31 * dayUnits) = true
    ∧ scarce.media.takable.find? (fun x => decide (x.number = 5)) = some (bandOf .verified)
    ∧ (worn.relocates = true ∧ worn.media.peSum + worn.gov 0x4080 4 * worn.media.peBlocks < worn.media.peMax * worn.media.peBlocks
      ∧ leastBand (fun b => ((b.blocks.map (fun k => worn.media.pe.get 0 k)).foldl (· + ·) 0, max 1 b.blocks.length))
          worn.media.takable = some (bandOf .verified))
    ∧ State.reset.relocates = false
    ∧ ((withBand .closed).media.band 5 = some (bandOf .closed) ∧ (withBand .closed).maintains = true)
    ∧ (let s := { withBand .verified with media := { (withBand .verified).media with secure := [⟨9, 5, 1, [BitVec.ofNat 37 (3 * 16384)], []⟩] } }
       s.media.secure.any (fun j => j.units.any (fun u => decide (unitBlock u = 3))) = true
         ∧ (∃ x, x ∈ s.media.bands ∧ x.life = .verified ∧ 3 ∈ x.blocks) ∧ s.media.readOnly = false
         ∧ s.seen (fun k => decide (k = 3)) = false ∧ s.media.skips 3 = false) := by decide +kernel

theorem witness_BandsAreMaintained_checks :
    (withBand .closed).media.drains 5 = false
    ∧ (∀ l : BandLife, ((withBand l).currentIn (fun k => decide (k ∈ (bandOf l).blocks))).map (fun u =>
        (withBand l).checkFails u.1 u.2.1 u.2.2.value u.2.2.data) = [false])
    ∧ 5 < ({ (withBand .closed).media with bandNo := 6 } : Media).bandNo := by
  refine ⟨by decide +kernel, fun l => ?_, by decide⟩
  cases l <;> decide +kernel

/-! ### Memory integrity and errors -/

theorem witness_EventsFillBuckets :
    (base.power.trained = true ∧ State.reset.power.trained = false ∧ base.level 23 + 1 ≠ base.gov 0x3040 2
      ∧ ({ base with dict := { Dict.start with gov := [(objKey 0x3040 2, 1)] } } : State).level 0 + 1
          = ({ base with dict := { Dict.start with gov := [(objKey 0x3040 2, 1)] } } : State).gov 0x3040 2)
    ∧ (let s := { base with guard := { Guard.start with rows := [(rowKey 17 3 9, 100000)] } }
       s.remapDue 17 3 9 = true ∧ (s.guard.remaps.get [] (pcKey 17 3)).length < 8
         ∧ s.guard.remapTick.get 0 (pcKey 17 3) ≠ s.tick + 1)
    ∧ base.remapDue 17 3 9 = false := by decide +kernel

theorem witness_MemoryIsTested :
    base.patrols = true ∧ inTiers 0 = true ∧ inTiers (0x8000000000 - 64) = true ∧ inTiers 0x8000000000 = false
    ∧ State.reset.patrols = false ∧ 0 ∉ base.fabric.bad ∧ 64 ∈ ({ Fabric.zeroed with bad := [64] } : Fabric).bad
    ∧ base.errors.ring = [] := by decide +kernel

/-- Blocks of the write buffer's copies, of the map caches, of a spare row and of the last test row. -/
theorem witness_MemoryIsTested_places :
    inBuffer bufferFirst = true ∧ inTiers bufferFirst = true ∧ otherCopy bufferFirst = bufferFirst + 2048
    ∧ bufferFirst ∉ base.media.badCopies ∧ inBuffer cacheFirst = false ∧ inMapCache cacheFirst = true
    ∧ spareStack spareFirst = some 0 ∧ spareStack (spareFirst + 23 * 262144 + 15 * 16384 + 9152) = some 23
    ∧ inTiers spareFirst = false ∧ spareStack (spareFirst + 9216) = none
    ∧ (let m := { Media.shipped with badCopies := [bufferFirst + 2048], pieces := [⟨4, 1, 9, 1, [], true, [], 0, none, []⟩] }
       otherCopy bufferFirst ∈ m.badCopies ∧ m.bufferBlock (bufferByte bufferFirst) = some (1, 9)) := by decide +kernel

/-- A record of severity `v` about context `n` of partition 1, by SEQ, in a state. -/
def recordOf (seq : Nat) (v : Nat) (n : Ctx) (st : RecState) : Rec :=
  ⟨BitVec.ofNat 32 seq, 5, 0, st, false, false, false, 0, repAbout (report 0x0020 1 0 v 0) 1 n⟩

/-- A module with these records, by slot. -/
def withRecs (l : List (Nat × Rec)) : State := { base with errors := { Errors.start with ring := l, next := 9 } }

theorem witness_ConditionsAreRecorded :
    base.severityOf (report 0x0020 1 0 5 0) = some 0 ∧ base.severityOf (report 0x0070 1 0 5 0) = some 0
    ∧ base.severityOf (report 0x7777 1 0 0 0) = none ∧ base.errors.ring = []
    ∧ base.severityOf (report 0x00A0 7 0 4 0) = some 4 ∧ (report 0x00A0 7 0 4 0).subId.toNat = 0
    ∧ base.severityOf (report 0x0010 0 47 2 0) = some 2 ∧ base.severityOf (report 0x0050 1 3 0 0) = some 4
    ∧ ((atWork [endWord] embedding).seq 1).run = some (runOf [endWord])
    ∧ (atWork [endWord] embedding).severityOf (repAbout (report 0x0020 1 0 2 0) 1 2) = some 2
    ∧ (let q := { Seq.none with run := some (runOf [endWord]), queues := [(3, [queued false])] }
       let s := seqIs q embedding
       (s.seq 1).run = some (runOf [endWord]) ∧ (repAbout (report 0x0020 1 0 2 0) 1 2).part = 1
         ∧ (repAbout (report 0x0020 1 0 2 0) 1 2).partValid = true
         ∧ (runOf [endWord]).ctx = (repAbout (report 0x0020 1 0 2 0) 1 2).ctx ∧ (s.seq 1).queue 3 = [queued false]
         ∧ (queued false).index = (repAbout (report 0x0020 1 0 2 0) 1 2).step.toNat ∧ (queued false).cut = false
         ∧ (s.tset (runOf [endWord]).key).due = none)
    ∧ (let r := recordOf 3 1 0 .queued
       let s := { withRecs [(3, r)] with errors := { (withRecs [(3, r)]).errors with toCopy := [3] } }
       r.seq ∈ s.errors.toCopy ∧ s.errors.ring.find? (fun x => decide (x.2.seq = r.seq)) = some (3, r)) := by decide +kernel

/-- The step that a report names was cut, or the report names the command of a port, or nobody. -/
theorem witness_ConditionsAreRecorded_consumers :
    (let s := seqIs { Seq.none with run := some (runOf [endWord]), queues := [(3, [{ queued false with cut := true }])] } embedding
     s.severityOf (repAbout (report 0x0020 1 0 2 0) 1 2) = some 0)
    ∧ base.severityOf (repOnPort (report 0x0030 1 0 2 0) 1) = some 1 ∧ base.severityOf (report 0x0030 1 0 2 0) = some 0
    ∧ (∀ m, m < 32 → ∀ x, x ∈ (base.seq 0).queue m → x.found = none) := by
  refine ⟨by decide +kernel, by decide +kernel, by decide +kernel, fun m _ x hx => ?_⟩
  cases hx

/-- Reports of a unit of an open band that its row gives again, of a die link in and out of a partition, and of a fabric link. -/
theorem witness_ConditionsAreRecorded_links :
    (let rep := { report 0x0030 4 0 0 0 with address := BitVec.ofNat 64 (1 * 2 ^ 42 + 7) }
     let s := withBand .opened
     s.severityOf rep = some 0 ∧ s.rebuilds (s.settle rep 0) = true)
    ∧ (withBand .verified).rebuilds ((withBand .verified).settle { report 0x0030 4 0 0 0 with
        address := BitVec.ofNat 64 (1 * 2 ^ 42 + 7) } 0) = false
    ∧ base.severityOf (report 0x0051 6 50 0 0) = some 4 ∧ base.severityOf (report 0x0051 6 5 0 0) = some 0
    ∧ (partIs .running).severityOf (report 0x0051 6 1 0 0) = some 3 ∧ (partIs .running).partOfSquare 1 = some 0
    ∧ base.rebuilds (base.settle (report 0x0051 6 50 0 0) 4) = false := by decide +kernel

/-- The first record of an empty history. -/
theorem witness_ConditionsAreRecorded_history : (recordOf 3 1 0 .queued).isHistory = true
    ∧ (∀ x : Rec, x ∈ Errors.start.history → (9#32 - 3#32).toNat < (9#32 - x.seq).toNat) ∧ Errors.start.history.length < 4096 :=
  ⟨by decide +kernel, (fun _ h => by cases h), by decide⟩

/-- A CONTEXT command and a WRITE that has accepted nothing, as SAFE is entered. -/
theorem witness_RecordsAreClassified_safe :
    ((context 1 .loaded).taken = [0] ∧ ((context 1 .loaded).tset 0).due = none ∧ ((context 1 .loaded).tset 0).opcode = 0x20)
    ∧ (opWrite ((onSpace writing).tset 0).opcode = true ∧ ((onSpace writing).tset 0).count = 0)
    ∧ losing.media.pieces.map losing.drainsWell = [true] := by decide +kernel

theorem witness_RecordsAreClassified :
    base.nextQueued = none
    ∧ (∀ v, v ≤ 4 → (withRecs [(3, recordOf 3 v 0 .queued)]).nextQueued = some (recordOf 3 v 0 .queued))
    ∧ (let s := withRecs [(2, recordOf 2 3 0 .handling), (3, recordOf 3 2 0 .queued)]
       s.nextQueued = some (recordOf 3 2 0 .queued) ∧ s.resetRec 1 = some (recordOf 2 3 0 .handling))
    ∧ (let s := withRecs [(2, recordOf 2 2 1 .handling), (3, recordOf 3 2 0 .queued)]
       s.nextQueued = some (recordOf 3 2 0 .queued) ∧ s.resetRec 1 = none
         ∧ (recordOf 2 2 1 .handling).rep.ctx ≠ (recordOf 3 2 0 .queued).rep.ctx)
    ∧ toSafe (report 0x0020 1 0 4 0) = false
    ∧ toSafe (report causeSelftest 1 0 4 0) = true
    ∧ ((partIs .running).part 0).committed = true := by
  refine ⟨by decide, fun v h => ?_, by decide +kernel⟩
  obtain rfl | rfl | rfl | rfl | rfl : v = 0 ∨ v = 1 ∨ v = 2 ∨ v = 3 ∨ v = 4 := by omega
  all_goals decide +kernel

/-- Records of the same context and of another one, in place, and the one that is handled. -/
theorem witness_RecordsAreClassified_absorbed :
    (let s := withRecs [(2, recordOf 2 2 0 .handling), (3, recordOf 3 2 0 .queued)]
     s.nextQueued = some (recordOf 3 2 0 .queued)
       ∧ s.handlingRec (fun x => decide (x.rep.severity.toNat = 2) && x.rep.partValid && decide (x.rep.part.val = 1))
           = some (recordOf 2 2 0 .handling)
       ∧ (recordOf 2 2 0 .handling).rep.ctx = (recordOf 3 2 0 .queued).rep.ctx)
    ∧ (let s := withRecs [(2, recordOf 2 2 1 .handling), (3, recordOf 3 2 0 .queued)]
       s.handlingRec (fun x => decide (x.rep.severity.toNat = 2) && x.rep.partValid && decide (x.rep.part.val = 1))
           = some (recordOf 2 2 1 .handling)
       ∧ (s.errors.ring.map Prod.fst).Nodup ∧ (∀ x, x ∈ s.errors.ring → x.1 = x.2.seq.toNat % 64))
    ∧ (let s := withRecs [(2, recordOf 2 2 1 .handling), (3, recordOf 3 4 0 .queued)]
       s.nextQueued = some (recordOf 3 4 0 .queued) ∧ s.errors.slot 2 = some (recordOf 2 2 1 .handling)
         ∧ (recordOf 2 2 1 .handling).open = true ∧ (s.errors.ring.map Prod.fst).Nodup
         ∧ (∀ x, x ∈ s.errors.ring → x.1 = x.2.seq.toNat % 64)) := by decide +kernel

/-! ### Power, start-up, security, observation and the sideband -/

/-- The base module with another power structure. -/
def powered (p : Power) : State := { base with power := p }

theorem witness_PowerTransitionsEnd :
    base.power.target = none ∧ (powered { base.power with target := some 2 }).power.target = some 2
    ∧ (powered { base.power with state := 4, target := some 5 }).power.state = 4
    ∧ (let s := powered { base.power with state := 3, target := some 4, waitP4 := true }
       s.power.waitP4 = true ∧ s.media.pieces = [] ∧ s.media.pending = [] ∧ (∀ e, e ∈ s.media.erasing → e.issued = false)
         ∧ (∀ k, k ∈ s.taken → ¬ (0x10 ≤ (s.tset k).opcode ∧ (s.tset k).opcode ≤ 0x16))) := by decide +kernel

/-- Partition 1 in a move period, with a table whose fit clock lies above the clock setting. -/
def tooSlow : State := { withCtx { Context.none with
    life := .loaded, table := ⟨false, ⟨true, memOf (bytesOf 64 (255 * 2 ^ 418)), 64, 0⟩, Bank.none, .empty, 0, false⟩ } with
  seqs := [(1, { Seq.none with periodEnd := 100 })] }

theorem witness_PowerIsMeasured :
    base.power.aux = true ∧ (powered { base.power with aux := false }).power.aux = false
    ∧ (base.power.railsUp = true ∧ base.power.state ≤ 2 ∧ base.power.target = none)
    ∧ (1600000 < ([1600001].foldl (· + ·) 0) / [1600001].length ∧ ([1500000].foldl (· + ·) 0) * 100 < 1600000 * 97)
    ∧ (base.power.falling = false ∧ base.power.thermal = false ∧ base.power.rise + 1 < 10
      ∧ 10 ≤ ({ base.power with rise := 9 } : Power).rise + 1)
    ∧ ((tooSlow.part 1).life = .running ∧ tooSlow.clock.boundaryAt < (tooSlow.seq 1).periodEnd ∧ (tooSlow.seq 1).below = false
      ∧ tooSlow.belowFit 1 = true)
    ∧ State.reset.power.railsUp = false := by decide +kernel

/-- A partition that is STOPPING, and a start-up whose rails ramp. -/
theorem witness_PowerIsMeasured_stopping :
    (let s := { tooSlow with parts := [(1, { tooSlow.part 1 with life := .stopping })] }
     (s.part 1).active = true ∧ s.clock.boundaryAt < (s.seq 1).periodEnd ∧ (s.seq 1).below = false ∧ s.belowFit 1 = true)
    ∧ ((powered { Power.start with stage := 2 }).power.railsUp = false ∧ (powered { Power.start with stage := 2 }).power.stage = 2) := by
  decide +kernel

/-- The base module under a warning. -/
def warnedIs (flushed : Bool) : State := powered { base.power with warned := true, flushed := flushed }

theorem witness_SupplyWarningsStopCompute :
    (base.power.railsUp = true ∧ base.power.warned = false ∧ base.power.state ≤ 4 ∧ base.power.stage = 6
      ∧ base.errors.ring = [] ∧ (base.port 0).life = .up)
    ∧ (powered { base.power with stage := 4 }).power.stage ≠ 6
    ∧ ((warnedIs false).power.warned = true ∧ (warnedIs false).power.flushed = false ∧ (warnedIs true).power.flushed = true)
    ∧ (({ partIs .running with power := base.power } : State).part 0).committed = true := by decide +kernel

theorem witness_ResetsRestartTheModule :
    (warnedIs false).power.warned = true ∧ base.power.warned = false ∧ base.power.aux = true
    ∧ (powered { Power.start with aux := false }).power.aux = false := by decide +kernel

theorem witness_ResetsRestartTheModule_held :
    base.power.tripped = false ∧ (powered { base.power with tripped := true }).power.tripped = true := by decide

/-- A sampling at 40 degrees, but for the lane dies. -/
def tempsAt (lane : Int) : Temps := ⟨lane, 4000, 4000, 4000, 4000, 4000, 4000, 4000, 4000, 4000⟩

theorem witness_TemperaturesAreWatched :
    base.power.aux = true ∧ base.power.hot = [] ∧ base.power.tripped = false
    ∧ (∃ i, i ∈ [0] ∧ i ∈ (powered { base.power with hot := [0] }).power.hot)
    ∧ (((powered { base.power with hot := [0] }).sensors (tempsAt 11000)).zipIdx.filter (fun e => e.1.trips)).map Prod.snd = [0]
    ∧ ((base.sensors (tempsAt 10999)).zipIdx.filter (fun e => e.1.trips)).map Prod.snd = []
    ∧ (powered { Power.start with state := 5 }).power.state = 5 := by decide +kernel

/-- THERMTRIP# with a reset that waits: the lane dies, unpowered, 15 K below their trip temperature, and not quite. -/
theorem witness_TemperaturesAreWatched_held :
    (let s := powered { Power.start with state := 5, tripped := true, heldReset := some 2 }
     s.power.heldReset = some 2 ∧ (∀ y, y ∈ s.sensors (tempsAt 9500) → ∀ a, y.trip = some a → y.value + 1500 ≤ a)
       ∧ ((s.sensors (tempsAt 9501)).any (fun y => y.trip.any (fun a => decide (a < y.value + 1500)))) = true)
    ∧ base.power.heldReset = none := by decide +kernel

/-- A module in a stage of its start-up. -/
def starting (stage : Nat) (checked : Bool) : State := { State.reset with
  power := { Power.start with stage := stage, railsUp := decide (3 ≤ stage), trained := decide (4 ≤ stage), checked := checked } }

theorem witness_StartUpAdvances :
    State.reset.mayStart = true ∧ base.mayStart = false
    ∧ (starting 2 false).power.stage = 2 ∧ (starting 3 false).power.stage = 3 ∧ (starting 3 false).security.state ≠ 3
    ∧ (let s := { starting 3 false with security := { Security.shipped with state := 3 } }
       s.security.state = 3 ∧ s.obj 0xA000 6 = 0)
    ∧ ((starting 4 false).power.railsUp = true ∧ (starting 2 false).power.railsUp = false)
    ∧ ((starting 4 false).power.stage = 4 ∧ (starting 4 false).power.checked = false ∧ (starting 4 false).obj 0x3000 2 = 0)
    ∧ ((starting 4 true).power.checked = true ∧ (starting 4 true).clock.running = false)
    ∧ State.reset.errors.ring = [] := by decide +kernel

/-- A module that can become READY, with an installed image of SVN 3 that has not run yet. -/
def readying (svn : Nat) : State := { State.reset with
  power := { Power.start with stage := 5, railsUp := true, trained := true, checked := true, nearZero := true, farZero := true, mapUp := true }
  security := { Security.shipped with fresh := true }
  dict := { Dict.start with objs := [(objKey 0xA030 2, BitVec.ofNat 64 svn)] } }

theorem witness_ReadyAndReturn :
    ((readying 3).mayReady = true ∧ (readying 3).power.resetAt = none ∧ (readying 3).security.fresh = true
      ∧ (readying 3).security.state = 1 ∧ (readying 3).security.floors.getLastD 0 < (readying 3).obj 0xA030 2
      ∧ (readying 3).security.floors.length < 64 ∧ (readying 0).obj 0xA030 2 ≤ (readying 0).security.floors.getLastD 0)
    ∧ State.reset.mayReady = false
    ∧ (let s := { readying 3 with security := { Security.shipped with state := 3 } }
       s.security.state = 3 ∧ s.obj 0xA000 6 = 0 ∧ s.clock.running = false ∧ s.power.railsUp = true)
    ∧ base.security.state ≠ 3 := by decide +kernel

/-- A port 0 with a nonce, and a module whose run of the test has ended its time. -/
def attesting : State := portIs { owned with nonce := some (List.replicate 32 1) }

/-- A module with what Yilry watches under way. -/
def watching : State := { base with
  hold := 1
  observe := { Observe.start with pass := some [1, 0x700000], frozen := true, run := some (3 * 2 ^ 29 + 3 * 2 ^ 27 + 100) } }

theorem witness_EventsOfYilry :
    ((lifeIs 2 [(4, 1, 0), (3, 1, 0), (3, 2, 1)]).security.arms = [(4, 1, 0)] ++ (3, 1, 0) :: [(3, 2, 1)]
      ∧ (∀ b : Nat × Port × Nat, b ∈ [((4 : Nat), (1 : Port), (0 : Nat))] → b.1 ≠ 3)
      ∧ ∀ b, b ∈ (lifeIs 2 [(4, 1, 0)]).security.arms → b.1 ≠ 3)
    ∧ ((attesting.port 0).nonce = some (List.replicate 32 1) ∧ attesting.security.identity = some 0)
    ∧ bitOf base.debugState 1 = false
    ∧ (watching.observe.pass = some [1, 0x700000] ∧ watching.observe.frozen = true ∧ watching.hold = 1
      ∧ watching.media.pieces = [] ∧ watching.media.pending = [] ∧ (∀ e, e ∈ watching.media.erasing → e.issued = false)
      ∧ watching.observe.run = some (3 * 2 ^ 29 + 3 * 2 ^ 27 + 100)
      ∧ bits (3 * 2 ^ 29 + 3 * 2 ^ 27 + 100) 31 29 = 3 ∧ bits (3 * 2 ^ 29 + 3 * 2 ^ 27 + 100) 28 27 = 3)
    ∧ (base.observe.pass = none ∧ base.observe.frozen = false ∧ base.hold ≠ 1 ∧ base.observe.run = none) := by
  refine ⟨by decide, by decide +kernel, by decide +kernel, by decide +kernel, by decide +kernel⟩

/-- Sampling under a warning, and in P5. -/
theorem witness_PowerIsMeasured_warned : (warnedIs false).power.warned = true ∧ base.power.warned = false
    ∧ (powered { base.power with state := 5 }).power.state = 5 := by decide

/-- What lies behind the paths of debug in FACTORY, where all are open, and in PROVISIONED. -/
theorem witness_EventsOfYilry_paths :
    bitOf (lifeIs 0 []).debugState 3 = true ∧ bitOf (lifeIs 0 []).debugState 4 = true ∧ bitOf (lifeIs 2 []).debugState 3 = false
    ∧ (lifeIs 1 []).security.state ≠ 0 ∧ (lifeIs 1 []).security.state ≠ 3
    ∧ (let s := { base with security := { Security.shipped with slotA := { Security.shipped.slotA with image := [(0, 1)], len := 4096 } } }
       5 < (s.security.imageOf (s.obj 0x7040 1)).length ∧ 5 < (s.security.imageOf 0).length ∧ 5 < 2 ^ 24)
    ∧ (∀ k, k ∈ watching.taken → ¬ (0x10 ≤ (watching.tset k).opcode ∧ (watching.tset k).opcode ≤ 0x16))
    ∧ watching.observe.passed.length ≤ 2 := by decide +kernel

/-- READY in a state of the life cycle that raises no floor, and one whose rollback record is used up. -/
theorem witness_ReadyAndReturn_floors :
    ({ readying 3 with security := { (readying 3).security with state := 0 } } : State).security.state ≠ 1
    ∧ ({ readying 3 with security := { (readying 3).security with state := 0 } } : State).security.state ≠ 2
    ∧ 64 ≤ (List.replicate 64 1 : List Nat).length := by decide +kernel

theorem witness_SidebandAnswers :
    base.power.aux = true ∧ (base.sideObj 0x1000 1 false).toOption.isSome = true
    ∧ (base.sideObj 0x1234 1 false).toOption = none
    ∧ (powered { base.power with alert := true }).power.alert = true
    ∧ ((base.sideObj 0x1111 6 true).toOption.isSome = true ∧ base.checkWrite none 0x1111 6 [1] = 0x0000)
    ∧ base.checkWrite none 0x1111 6 [4] ≠ 0x0000 := by decide +kernel

/-! ### Completion (the witnesses above serve the clauses whose hypotheses are those of an earlier statement) -/

/-- The WAIT of `waitWord` in force with a deadline and a fallback. -/
def waitDue : Nat := waitWord + 2 ^ 249 + 7 * 2 ^ 224 + 2 ^ 223

theorem witness_CommandsComplete_steps :
    (let r := { runOf [waitDue] with waiting := true }
     let s := { atWork [waitDue] embedding with seqs := [(1, { Seq.none with run := some r })] }
     (s.seq 1).run = some r ∧ r.next = 0 ∧ wHasDeadline (stepWord r.table 0) = true ∧ wHasFallback (stepWord r.table 0) = true
       ∧ (s.seq 1).queues = [] ∧ Nat.land (wMask (stepWord r.table 0)) (s.seq 1).completion = wMask (stepWord r.table 0)
       ∧ (s.seq 1).periodEnd ≤ s.clock.boundaryAt + s.tickUnits)
    ∧ (∀ f : Bool, (let s := seqIs { Seq.none with run := some (runOf [dueWord f]), queues := [(3, [queued false])] } embedding
       (s.seq 1).run = some (runOf [dueWord f]) ∧ (s.seq 1).queue 3 = [queued false] ∧ (queued false).cut = false
         ∧ wHasFallback (stepWord (runOf [dueWord f]).table (queued false).index) = f))
    ∧ (atWork [markWord] embedding).atStep 1 opMark = some (runOf [markWord]) := by
  refine ⟨by decide +kernel, fun f => ?_, by decide +kernel⟩
  cases f <;> decide +kernel

theorem witness_CommandsComplete_host :
    (∃ d, findObj 0x4060 0x0B = some d ∧ d.access ≠ 3 ∧ d.isBytes = false)
    ∧ ({ base with dict := { Dict.start with jobs := [⟨[(0x4060, 0x0B, bytesOf 4 9)], none, none⟩] } } : State).dict.jobs
        = [⟨[(0x4060, 0x0B, bytesOf 4 9)], none, none⟩]
    ∧ (∀ e : Nat × Kind, e ∈ [(0, Kind.table), (1, .scales), (2, .sft), (4, .dist)] →
        (staging e.1 0 false).readyLoad 0 e.1 e.2 = true)
    ∧ (∀ o, o ∈ [0x30, 0x31, 0x32, 0x33] → (tableRun o [] 0 0 1).fresh 0 o = true) := by
  refine ⟨?_, rfl, by decide +kernel, by decide +kernel⟩
  have h : (findObj 0x4060 0x0B).any (fun d => decide (d.access ≠ 3 ∧ d.isBytes = false)) = true := by decide +kernel
  obtain ⟨d, hd, h⟩ := (Option.any_eq_true _ _).mp h
  exact ⟨d, hd, of_decide_eq_true h⟩

/-! ### The statements over every step -/

theorem witness_ModesStayLegal :
    State.reset.Sound ∧ step { State.reset with pending := [.tickBoundary] } = .next State.reset := by
  refine ⟨⟨?_, fun v h => ?_, fun v h => ?_⟩, rfl⟩
  · unfold State.Legal Modes.legal
    decide
  · exact nomatch (h : none = some v)
  · exact nomatch (h : none = some v)

theorem witness_OneTimeStateOnlyGrows : exec .railsInRegulation (starting 2 false)
    = .next { starting 2 false with power := { (starting 2 false).power with railsUp := true, stage := 3 } } := rfl

/-! ## Small cases from the spec -/

/-- The check column of 10 R266. -/
theorem test_check_values : (List.range 6).map (fun i => (ckFixed i).map (fun c => ckValue c ckSample))
    = [some 0xE3069283, some 0xCBF43926, some 0x995DC9BBDF1939FA, some 0x6C40DF5F0B497347, some 0xD0DB, some 0x29B1] := by
  decide +kernel

/-- The example of 07 R170's near addresses: 0x0000_0001_2345 lies in stack N03, pseudo-channel 2. -/
theorem test_near_address : bucketOf 0x12345 = 3 ∧ channelOf 0x12345 = 2 := by decide

/-- 02's example: P1 with DIVIDER 2 and PHASE 1 begins its move periods at the odd epochs only. -/
theorem test_period_phase : [5, 6].map (fun e => match exec (.movePeriodStart 0) { partIs .running with
      clock := ⟨0, 0, BitVec.ofNat 64 e, true⟩
      parts := [(0, { Partition.none with life := .running, defn := { PDef.none with squares := 3, divider := 2, phase := 1 } })] } with
    | .next t => (t.seq 0).periodEpoch
    | _ => 9) = [5, 0] := by decide +kernel

/-- FP32 sums, products and fused sums are rounded once: 1 + 1 = 2, 1.5 * 1.5 = 2.25, 1 * 1 + 2^-24 is a tie to even. -/
theorem test_fp32 : fadd 0x3F800000 0x3F800000 = 0x40000000 ∧ fmul 0x3FC00000 0x3FC00000 = 0x40100000
    ∧ ffma 0x3F800000 0x3F800000 0x33800000 = 0x3F800000 := by decide +kernel

/-- Boundaries advance DEVICE_EPOCH by one (01 R29). -/
theorem test_boundary : (match exec .tickBoundary base with
    | .next t => (t.clock.epoch, t.clock.running)
    | _ => (0, false)) = (6, true) := by decide +kernel

/-- A MARK is issued, writes LAST_MARK of its context, and the sequencer goes on (03 R74). -/
theorem test_mark : (match exec (.mark 1) (atWork [markWord, endWord] embedding) with
    | .next t => ((t.ctx 1 2).lastMark, (t.seq 1).run.map (fun r => r.next))
    | _ => (0, none)) = (9 * 65536, some 1) := by decide +kernel

/-- A block that was never written reads as zeros, a range outside the namespace is turned away (08 R207, R209). -/
theorem test_read : (match exec (.read 0 0) (onSpace (held 0x10 0 0 0 0 7 1)) with
    | .next t => ((t.tset 0).verdict, (t.tset 0).count, (t.tset 0).outLen, (t.tset 0).output)
    | _ => (1, 1, 1, [])) = (0, 1, 4096, []) := by decide +kernel

/-- SHA-512 of the three bytes abc, the example of FIPS 180-4, which R452 of 18 names. -/
theorem test_sha512 : numBE (sha512 [0x61, 0x62, 0x63]) = 0xddaf35a193617abacc417349ae20413112e6fa4e89a97ea20a9eeee64b55d39a2192992a274fc1a836ba3c23a3feebbd454d4423643ce80e2a9ac94fa54ca49f := by
  decide +kernel

/-- A FLUSH waits, and a discard is accepted for the next boundary (08 R222, 15 R383). -/
theorem test_discard : (match exec (.discard 0 0) (onSpace (held 0x12 0 0 0 0 7 1)) with
    | .next t => ((t.tset 0).due, t.media.pending.length)
    | _ => (none, 0)) = (some 0, 1) := by decide +kernel

/-- A frame with no hops left is dropped and counted (13 R340). -/
theorem test_hops : (match exec (.frameForward 0 (transit 0)) twoPorts with
    | .next t => (t.obj 0x1100 5, t.ports.length)
    | _ => (0, 0)) = (1, 2) := by decide +kernel

/-- A SIGNAL port whose markers lock is ALIGNED (13 R343). -/
theorem test_align : (match exec (.portAlign 0) (portIs { owned with life := .signal }) with
    | .next t => (t.port 0).life
    | _ => .down) = .aligned := by decide +kernel

/-- The first leak takes one event out of a bucket and none out of an empty one (07 R190). -/
theorem test_leak : (match exec .leakInterval { base with dict := { Dict.start with objs := [(objKey 0x3010 4, 2)] } } with
    | .next t => (t.obj 0x3010 4, t.obj 0x3011 4)
    | _ => (9, 9)) = (1, 0) := by decide +kernel

/-- 48 V in regulation comes before the training of the stacks (17 R434). -/
theorem test_stages : (match exec .stackTrainingDone (starting 2 false) with
    | .next t => t.power.stage
    | _ => 9) = 2 := by decide

/-- A warning with the module READY stops it and is counted (17 R428). -/
theorem test_warning : (match exec .pwrfailAssert base with
    | .next t => (t.power.warned, (t.port 0).life, t.obj 0x7020 5)
    | _ => (false, .up, 0)) = (true, .down, 1) := by decide +kernel

/-- Without the arm, RETURN is not reached; with PROVISIONED it is not allowed (18 R445). -/
theorem test_life_cycle : (match exec (.lcRequest req 3) base with
    | .next t => (t.obj 0xA000 5, t.security.state)
    | _ => (0, 0)) = (4, 1) := by decide +kernel

/-- The sideband's pointer is kept (14 R367). -/
theorem test_pointer : (match exec (.smbusPointer 0x7000 3 ⟨0, true⟩) base with
    | .next t => (t.dict.smIdx, t.dict.smSub)
    | _ => (0, 0)) = (0x7000, 3) := by decide

end Sys2Proof.Tests
end

