-- ==== Sys2Proof/Proofs/Architecture.lean ====
section
/-! The family 01_architecture: one step of the queue, and the boundary. -/

namespace Sys2Proof.Machine

/-- Settles O1: both clauses are the two equations of `step`. -/
theorem stepRunsTheFrontCommand : Obligations.StepRunsTheFrontCommand :=
  fun _ _ _ => ⟨rfl, rfl⟩

/-- Block 9 of namespace 1 was written in tick 3 and discarded in tick 5, and the piece of the write buffer that holds what
was written (group 4) has not been drained: both copies of that piece fail, and the block waits to be marked as lost. -/
def discardedThenLost : State :=
  ({ State.reset with media := { Media.shipped with
      spaces := [(1, { Namespace.none with
        life := .active
        blocks := [(9, [⟨5, .unmapped, [], 0, 0, 0, 5, 0, none, false⟩, ⟨3, .mapped, [], 0, 0, 0, 3, 4, none, false⟩])] })]
      pieces := [⟨4, 1, 9, 1, [], true, [], 0, none, []⟩] } } : State).loseBuffer 1 9

/-- The current version of the discarded block is UNMAPPED after the publication. -/
theorem head_publishMap_discardedThenLost :
    (((discardedThenLost.publishMap 6).space 1).head 9).map Ver.st = some .unmapped := by decide

/-- Refutes O29: the clause about changes that mark a block as lost claims an UNREADABLE current version of every block that
such a change names. `publishChange` gives one only to a block whose current version is MAPPED; a block that was discarded
since its data came into the buffer stays UNMAPPED. -/
theorem not_boundariesAdvance : ¬ Obligations.BoundariesAdvance := by
  unfold Obligations.BoundariesAdvance
  rintro ⟨-, published⟩
  obtain ⟨-, -, -, -, -, -, lostIsUnreadable, -⟩ := published discardedThenLost 6
  obtain ⟨v, hv, -, unreadable, -⟩ := lostIsUnreadable ⟨.lose, 1, 9, 1, [], [], 0, [], 0⟩ 9
    (by decide) rfl (by decide) rfl (by decide) (by decide) (by decide)
  have unmapped := head_publishMap_discardedThenLost
  rw [hv, Option.map_some, unreadable] at unmapped
  cases unmapped

end Sys2Proof.Machine
end

