-- ==== Sys2Proof/Proofs/Posting.lean ====
section
/-! The completion window: the posting of records, the freezes and the device state. -/

namespace Sys2Proof.Machine

/-! ### Bits and orders -/

theorem bitOf_eq_testBit (v n : Nat) : bitOf v n = v.testBit n := Nat.testBit_eq_decide_div_mod_eq.symm

theorem bitOf_or (a b n : Nat) : bitOf (a ||| b) n = (bitOf a n || bitOf b n) := by
  simp [bitOf_eq_testBit]

/-- A word made of bit `b` alone has that bit. -/
theorem bitOf_twoPow {w b : Nat} (hb : b < w) : bitOf (BitVec.ofNat w (2 ^ b)).toNat b = true := by
  rw [BitVec.toNat_ofNat, bitOf_eq_testBit, Nat.testBit_mod_two_pow, decide_eq_true hb, Nat.testBit_two_pow_self]
  rfl

theorem mem_insertBy {α : Type} (lt : α → α → Bool) (x y : α) (l : List α) : y ∈ insertBy lt x l ↔ y = x ∨ y ∈ l := by
  induction l with
  | nil => simp [insertBy]
  | cons z l ih =>
    unfold insertBy
    split
    · simp
    · simp [ih, or_left_comm]

theorem length_insertBy {α : Type} (lt : α → α → Bool) (x : α) (l : List α) :
    (insertBy lt x l).length = l.length + 1 := by
  induction l with
  | nil => rfl
  | cons z l ih =>
    unfold insertBy
    split <;> simp [ih]

/-- Elements sorted into a list that is never longer than the bound are all kept. -/
theorem mem_foldl_insertBy {α : Type} (lt : α → α → Bool) (k : Nat) (y : α) (l acc : List α) (h : acc.length + l.length ≤ k) :
    y ∈ l.foldl (fun acc x => (insertBy lt x acc).take k) acc ↔ y ∈ acc ∨ y ∈ l := by
  induction l generalizing acc with
  | nil => simp
  | cons x l ih =>
    have whole : (insertBy lt x acc).take k = insertBy lt x acc :=
      List.take_of_length_le (by rw [length_insertBy]; simp only [List.length_cons] at h; omega)
    rw [List.foldl_cons, whole, ih _ (by rw [length_insertBy]; simp only [List.length_cons] at h; omega), mem_insertBy]
    simp [or_left_comm, or_assoc]

/-- The whole of a list in an order has the elements of the list. -/
theorem mem_kFirst_length {α : Type} (lt : α → α → Bool) (y : α) (l : List α) : y ∈ kFirst lt l.length l ↔ y ∈ l := by
  simp [kFirst, mem_foldl_insertBy]

theorem State.mem_taken (s : State) (k : Nat) : k ∈ s.taken ↔ k < 256 ∧ (s.tset k).life = .taken := by
  simp [State.taken, allKeys]

theorem State.mem_takenOrder (s : State) (f : Nat → Bool) (k : Nat) : k ∈ s.takenOrder f ↔ k ∈ s.taken ∧ f k = true := by
  simp [State.takenOrder, mem_kFirst_length]

/-! ### What a list of actions does, from what each of them does -/

/-- A relation that every action keeps holds between the states before and after all of them. -/
theorem State.each_rel {α : Type} {R : State → State → Prop} (refl : ∀ s, R s s) (trans : ∀ s t u, R s t → R t u → R s u)
    (f : State → α → State) (h : ∀ s a, R s (f s a)) (l : List α) (s : State) : R s (s.each l f) := by
  induction l generalizing s with
  | nil => exact refl s
  | cons a l ih => exact trans _ _ _ (h s a) (ih (f s a))

/-- Of actions each of which acts on its own port alone, a port sees its own. -/
theorem State.port_each_own (f : State → Nat → State) (own : ∀ s a x, x ≠ a → (f s a).port x = s.port x)
    {l : List Nat} (once : l.Nodup) {x : Nat} (hx : x ∈ l) (s : State) :
    ∃ t : State, t.port x = s.port x ∧ (s.each l f).port x = (f t x).port x := by
  have others : ∀ (l : List Nat) (s : State), x ∉ l → (s.each l f).port x = s.port x := by
    intro l
    induction l with
    | nil => intros; rfl
    | cons a l ih =>
      intro s h
      obtain ⟨hne, hl⟩ : x ≠ a ∧ x ∉ l := by simpa using h
      exact (ih _ hl).trans (own s a x hne)
  induction l generalizing s with
  | nil => cases hx
  | cons a l ih =>
    obtain ⟨ha, hl⟩ := List.nodup_cons.mp once
    by_cases h : x = a
    · subst h
      exact ⟨s, rfl, others l _ ha⟩
    · obtain ⟨t, before, after⟩ := ih hl (List.mem_of_ne_of_mem h hx) (f s a)
      exact ⟨t, before.trans (own s a x h), after⟩

/-- Actions each of which acts on its own set alone leave the sets that they do not name. -/
theorem State.tset_each_of_not_mem (f : State → Nat → State) (own : ∀ s a k, k ≠ a → (f s a).tset k = s.tset k)
    {l : List Nat} {k : Nat} (h : k ∉ l) (s : State) : (s.each l f).tset k = s.tset k := by
  induction l generalizing s with
  | nil => rfl
  | cons a l ih =>
    obtain ⟨hne, hl⟩ : k ≠ a ∧ k ∉ l := by simpa using h
    exact (ih hl _).trans (own s a k hne)

/-! ### The record of one command -/

/-- A task register set with its completion record (R374). -/
def TaskSet.posted (t : TaskSet) (status count step : Nat) (epoch : BitVec 64) : TaskSet :=
  { t with
    life := .done, due := Option.none, started := false, held := 0
    tr15 := BitVec.ofNat 64 (field 32 32 count + field 12 20 step + field 16 0 status)
    tr14 := epoch
    tr13 := BitVec.ofNat 64 (field 16 48 (min t.fallbacks 65535) + field 40 0 t.outLen) }

theorem State.tset_post (s : State) (k status count step j : Nat) :
    (s.post k status count step).tset j = if j = k then (s.tset k).posted status count step s.clock.epoch else s.tset j := by
  unfold State.post
  dsimp only
  split <;> split <;> simp [State.tset_setTset, TaskSet.posted]

/-- What the windows of a boundary do to a port before the freezes come into force: the freezes in force stay, those that
are due and the doorbells only grow. -/
structure PortSt.Grows (v w : PortSt) : Prop where
  freeze : w.freeze = v.freeze
  due : ∀ n, bitOf v.freezeDue.toNat n = true → bitOf w.freezeDue.toNat n = true
  db : ∀ n, bitOf v.db.toNat n = true → bitOf w.db.toNat n = true

/-- Every port grows. -/
def State.PortsGrow (s t : State) : Prop := ∀ x, (s.port x).Grows (t.port x)

theorem State.PortsGrow.of_eq {s t : State} (h : ∀ x, t.port x = s.port x) : s.PortsGrow t :=
  fun x => by rw [h]; exact ⟨rfl, fun _ => id, fun _ => id⟩

theorem State.PortsGrow.refl (s : State) : s.PortsGrow s := .of_eq fun _ => rfl

theorem State.PortsGrow.trans {s t u : State} (h : s.PortsGrow t) (h' : t.PortsGrow u) : s.PortsGrow u := fun x =>
  ⟨(h' x).freeze.trans (h x).freeze, fun n b => (h' x).due n ((h x).due n b), fun n b => (h' x).db n ((h x).db n b)⟩

section
variable {s t u : State}

theorem State.PortsGrow.ite {c : Prop} [Decidable c] (ht : s.PortsGrow t) (hu : s.PortsGrow u) :
    s.PortsGrow (if c then t else u) := by
  split
  · exact ht
  · exact hu

theorem State.PortsGrow.setPort {x : Nat} {v : PortSt} (h : s.PortsGrow t) (hv : (t.port x).Grows v) :
    s.PortsGrow (t.setPort x v) := by
  refine h.trans fun y => ?_
  rw [State.port_setPort]
  split
  next hy => exact hy ▸ hv
  next => exact State.PortsGrow.refl t y

theorem State.PortsGrow.setTset {k : Nat} {v : TaskSet} (h : s.PortsGrow t) : s.PortsGrow (t.setTset k v) :=
  h.trans (.of_eq fun _ => rfl)

theorem State.PortsGrow.setCtx {p n : Nat} {v : Context} (h : s.PortsGrow t) : s.PortsGrow (t.setCtx p n v) :=
  h.trans (.of_eq fun _ => rfl)

theorem State.PortsGrow.freezeDue {x : Nat} {b : BitVec 10} (h : s.PortsGrow t) : s.PortsGrow (t.freezeDue x b) :=
  h.setPort ⟨rfl, fun n hn => by rw [BitVec.toNat_or, bitOf_or, hn, Bool.true_or], fun _ => id⟩

theorem State.PortsGrow.ringDoorbell {k : Nat} (h : s.PortsGrow t) : s.PortsGrow (t.ringDoorbell k) :=
  h.setPort ⟨rfl, fun _ => id, fun n hn => by rw [BitVec.toNat_or, bitOf_or, hn, Bool.true_or]⟩

end

theorem State.PortsGrow.post (s : State) (k status count step : Nat) : s.PortsGrow (s.post k status count step) := by
  unfold State.post
  refine .ringDoorbell (.ite (.setCtx ?_) ?_) <;>
    exact .ite (.freezeDue (.setTset (.refl s))) (.setTset (.refl s))

/-- Ringing raises the doorbell bit of the set (R378). -/
theorem State.db_ringDoorbell (s : State) (k : Nat) :
    bitOf ((s.ringDoorbell k).port (k / 64)).db.toNat (k % 64 / 2) = true := by
  have inWord : k % 64 / 2 < 32 := by omega
  simp only [State.ringDoorbell, keyPort, State.port_setPort_same, BitVec.toNat_or, bitOf_or, bitOf_twoPow inWord, Bool.or_true]

theorem State.due_freezeDue_io (s : State) (x : Nat) : bitOf ((s.freezeDue x freezeIo).port x).freezeDue.toNat 8 = true := by
  have io : bitOf freezeIo.toNat 8 = true := by decide
  simp only [State.freezeDue, State.port_setPort_same, BitVec.toNat_or, bitOf_or, io, Bool.or_true]

theorem State.db_post (s : State) (k status count step : Nat) :
    bitOf ((s.post k status count step).port (k / 64)).db.toNat (k % 64 / 2) = true := db_ringDoorbell _ k

/-- A write that did not end with OK freezes IO at its port (R393). -/
theorem State.due_post_failedWrite (s : State) (k status count step : Nat) (write : opWrite (s.tset k).opcode = true)
    (failed : status ≠ 0) : bitOf ((s.post k status count step).port (k / 64)).freezeDue.toNat 8 = true := by
  have failed' : decide (status ≠ stOk) = true := decide_eq_true failed
  unfold State.post
  refine (State.PortsGrow.ringDoorbell (.refl _) (k / 64)).due 8 ?_
  simp only [write, failed', Bool.and_self, if_true]
  split
  · rw [State.port_setCtx]
    exact due_freezeDue_io _ _
  · exact due_freezeDue_io _ _

end Sys2Proof.Machine
end

