-- ==== Sys2Proof/Proofs/Completion.lean ====
section
/-! The publication of batch steps and the completion window. -/

namespace Sys2Proof.Machine

/-! ### Every record that is due -/

/-- Post the record of a command, if it is due. -/
def State.postDue (s : State) (k : Nat) : State :=
  match (s.tset k).due with
  | none => s
  | some v => s.post k v (if opTableRun (s.tset k).opcode then (s.tset k).published else (s.tset k).count) (s.tset k).dueStep

theorem State.postAll_eq (s : State) : s.postAll = s.each (s.takenOrder (fun k => (s.tset k).due.isSome)) State.postDue := rfl

theorem State.postDue_of_due {s : State} {k v : Nat} (h : (s.tset k).due = some v) :
    s.postDue k = s.post k v (if opTableRun (s.tset k).opcode then (s.tset k).published else (s.tset k).count) (s.tset k).dueStep := by
  unfold State.postDue
  rw [h]

theorem State.postDue_of_none {s : State} {k : Nat} (h : (s.tset k).due = none) : s.postDue k = s := by
  unfold State.postDue
  rw [h]

theorem State.postDue_clock (s : State) (k : Nat) : (s.postDue k).clock = s.clock := by
  cases h : (s.tset k).due with
  | none => rw [postDue_of_none h]
  | some v => rw [postDue_of_due h, State.post_clock]

theorem State.tset_postDue_of_ne (s : State) (a k : Nat) (h : k ≠ a) : (s.postDue a).tset k = s.tset k := by
  cases ha : (s.tset a).due with
  | none => rw [postDue_of_none ha]
  | some v => rw [postDue_of_due ha, tset_post, if_neg h]

/-- The set of a command whose record is posted in the completion window: COUNT is the batch steps published, for a
table-run command. -/
def TaskSet.postedDue (t : TaskSet) (v : Nat) (epoch : BitVec 64) : TaskSet :=
  t.posted v (if opTableRun t.opcode then t.published else t.count) t.dueStep epoch

theorem State.tset_postDue_of_due {s : State} {k v : Nat} (h : (s.tset k).due = some v) :
    (s.postDue k).tset k = (s.tset k).postedDue v s.clock.epoch := by
  rw [postDue_of_due h, tset_post, if_pos rfl]
  rfl

theorem State.PortsGrow.postDue (s : State) (k : Nat) : s.PortsGrow (s.postDue k) := by
  cases h : (s.tset k).due with
  | none => rw [postDue_of_none h]; exact .refl s
  | some v => rw [postDue_of_due h]; exact .post s k _ _ _

theorem State.PortsGrow.each_postDue (s : State) (l : List Nat) : s.PortsGrow (s.each l State.postDue) :=
  State.each_rel State.PortsGrow.refl (fun _ _ _ => State.PortsGrow.trans) _ State.PortsGrow.postDue l s

/-- A set whose record is not due stays as it is, however often it is named. -/
theorem State.tset_each_postDue_of_none {s : State} {k : Nat} (h : (s.tset k).due = none) (l : List Nat) :
    (s.each l State.postDue).tset k = s.tset k := by
  induction l generalizing s with
  | nil => rfl
  | cons a l ih =>
    have first : (s.postDue a).tset k = s.tset k := by
      by_cases hk : k = a
      · rw [← hk, postDue_of_none h]
      · exact tset_postDue_of_ne s a k hk
    exact (ih (by rw [first, h])).trans first

/-- A set that a list names, and whose record is due, is posted; its doorbell rings, and a failed write asks for the
freeze of IO. -/
theorem State.each_postDue {s : State} {k v : Nat} (h : (s.tset k).due = some v) {l : List Nat} (hk : k ∈ l) :
    (s.each l State.postDue).tset k = (s.tset k).postedDue v s.clock.epoch
      ∧ bitOf ((s.each l State.postDue).port (k / 64)).db.toNat (k % 64 / 2) = true
      ∧ (opWrite (s.tset k).opcode = true → v ≠ 0 →
          bitOf ((s.each l State.postDue).port (k / 64)).freezeDue.toNat 8 = true) := by
  induction l generalizing s with
  | nil => cases hk
  | cons a l ih =>
    by_cases ha : k = a
    · subst ha
      have grows := State.PortsGrow.each_postDue (s.postDue k) l (k / 64)
      have posted := tset_postDue_of_due h
      refine ⟨(tset_each_postDue_of_none (by rw [posted]; rfl) l).trans posted, grows.db _ ?_, fun write failed => grows.due _ ?_⟩
      · rw [postDue_of_due h]
        exact db_post ..
      · rw [postDue_of_due h]
        exact due_post_failedWrite s k _ _ _ write failed
    · have same := tset_postDue_of_ne s a k ha
      have tail := ih (s := s.postDue a) (by rw [same, h]) (List.mem_of_ne_of_mem ha hk)
      rw [same, postDue_clock] at tail
      exact tail

/-! ### The stages of the window -/

theorem State.tset_flushesNow {s : State} {k : Nat} (h : (s.tset k).life ≠ .taken ∨ (s.tset k).due ≠ none) :
    s.flushesNow.tset k = s.tset k := by
  refine tset_each_of_not_mem _ (fun t a j hj => ?_) (fun hk => ?_) s
  · exact (State.tset_setTset ..).trans (if_neg hj)
  · simp only [List.mem_filter, State.mem_taken, State.runsCmd, Bool.and_eq_true, decide_eq_true_eq] at hk
    obtain ⟨⟨-, taken⟩, ⟨⟨-, notDue⟩, -⟩, -⟩ := hk
    exact h.elim (· taken) (· notDue)

theorem State.port_flushesNow (s : State) (x : Nat) : s.flushesNow.port x = s.port x :=
  changes_of_keep (W := [.sets]) (by simp) (.port x) (by simp) (by simp [Place.table])

theorem State.flushesNow_errors (s : State) : s.flushesNow.errors = s.errors :=
  changes_of_keep (W := [.sets]) (by simp) .errors (by simp) (by simp [Place.table])

theorem State.flushesNow_clock (s : State) : s.flushesNow.clock = s.clock :=
  changes_of_keep (W := [.sets]) (by simp) .clock (by simp) (by simp [Place.table])

theorem State.postAll_errors (s : State) : s.postAll.errors = s.errors :=
  changes_of_keep (W := [.ctxs, .ports, .sets]) (by simp) .errors (by simp) (by simp [Place.table])

/-- Each of the four ports takes the freezes that are due. -/
theorem State.port_freezesNow (s : State) {x : Nat} (hx : x < 4) :
    (s.freezesNow.port x).freeze = (s.port x).freeze ||| (s.port x).freezeDue
      ∧ (s.freezesNow.port x).freezeDue = 0 ∧ (s.freezesNow.port x).db = (s.port x).db := by
  obtain ⟨t, before, after⟩ := State.port_each_own _ (fun t a y hy => (State.port_setPort t a y _).trans (if_neg hy))
    List.nodup_range (List.mem_range.mpr hx) s
  rw [show s.freezesNow.port x = _ from after, State.port_setPort_same, before]
  exact ⟨rfl, rfl, rfl⟩

theorem State.freezesNow_errors (s : State) : s.freezesNow.errors = s.errors :=
  changes_of_keep (W := [.ports]) (by simp) .errors (by simp) (by simp [Place.table])

theorem State.port_normalNow (s : State) (x : Nat) : s.normalNow.port x = s.port x := by
  unfold State.normalNow
  split <;> rfl

theorem State.normalNow_ring (s : State) : s.normalNow.errors.ring = s.errors.ring := by
  unfold State.normalNow
  split <;> rfl

/-- A STREAM bit keeps the module HALTED. -/
theorem State.normalNow_of_stream {s : State} {x : Nat} (hx : x < 4) (h : bitOf (s.port x).freeze.toNat 9 = true) :
    s.normalNow = s := by
  refine if_neg fun ⟨_, clear, _⟩ => ?_
  have off := List.all_eq_true.mp clear x (List.mem_range.mpr hx)
  rw [h] at off
  cases off

/-- A HALTED module without STREAM bits and open DEVICE records returns to NORMAL. -/
theorem State.normalNow_of_clear {s : State} (halted : s.errors.device = 1)
    (clear : ∀ y, y < 4 → bitOf (s.port y).freeze.toNat 9 = false)
    (settled : ∀ e, e ∈ s.errors.ring → e.2.open = true → e.2.rep.severity ≠ 4) : s.normalNow.errors.device = 0 := by
  have noStream : ((List.range 4).all fun x => !bitOf (s.port x).freeze.toNat 9) = true :=
    List.all_eq_true.mpr fun y hy => by rw [clear y (List.mem_range.mp hy)]; rfl
  have noDevice : (s.errors.ring.any fun e => e.2.open && decide (e.2.rep.severity.toNat = 4)) = false :=
    List.any_eq_false.mpr fun e he both => by
      obtain ⟨opened, four⟩ := Bool.and_eq_true_iff.mp both
      exact settled e he opened (BitVec.eq_of_toNat_eq (of_decide_eq_true four))
  unfold State.normalNow
  rw [if_pos ⟨halted, noStream, by rw [noDevice]; rfl⟩]
  rfl

/-- No record is left HANDLING (R399). -/
theorem State.recordsDone_settled (s : State) (e : Nat × Rec) (he : e ∈ s.recordsDone.errors.ring) : e.2.st ≠ .handling := by
  obtain ⟨r, -, rfl⟩ := List.mem_map.mp he
  dsimp only
  split
  · nofun
  · assumption

theorem State.port_recordsDone (s : State) (x : Nat) : s.recordsDone.port x = s.port x := rfl

theorem State.recordsDone_errors (s : State) : s.recordsDone.errors = { s.errors with
    ring := s.errors.ring.mapVals fun _ r => if r.st = .handling then { r with st := .done } else r } := rfl

theorem State.port_alertNow (s : State) (before x : Nat) : (s.alertNow before).port x = s.port x := by
  unfold State.alertNow
  split <;> rfl

theorem State.alertNow_errors (s : State) (before : Nat) : (s.alertNow before).errors = s.errors := by
  unfold State.alertNow
  split <;> rfl

/-- The writing of the status words takes the events of the tick and leaves freezes and doorbells. -/
theorem State.port_wordsNow (s : State) (froze : List Nat) {x : Nat} (hx : x < 4) :
    ((s.wordsNow froze).port x).freeze = (s.port x).freeze ∧ ((s.wordsNow froze).port x).freezeDue = (s.port x).freezeDue
      ∧ ((s.wordsNow froze).port x).db = (s.port x).db
      ∧ ((s.wordsNow froze).port x).evTaken = false ∧ ((s.wordsNow froze).port x).evDb = false := by
  obtain ⟨t, before, after⟩ := State.port_each_own
    (fun (s : State) x => s.setPort x { s.port x with
      word := BitVec.ofNat 16 (s.wordNow x (decide (x ∈ froze))), evTaken := false, evDb := false })
    (fun t a y hy => (State.port_setPort t a y _).trans (if_neg hy)) List.nodup_range (List.mem_range.mpr hx) s
  have last : (s.wordsNow froze).port x = _ := (State.port_alertNow ..).trans after
  rw [last, State.port_setPort_same, before]
  exact ⟨rfl, rfl, rfl, rfl, rfl⟩

/-- The errors after the status words: only the events of the tick are gone. -/
theorem State.wordsNow_errors (s : State) (froze : List Nat) :
    (s.wordsNow froze).errors = { s.errors with evLog := false, evTherm := false, evMedia := false, evLife := false } := by
  unfold State.wordsNow
  have ports : ∀ (l : List Nat) (f : State → Nat → PortSt), (s.each l fun s x => s.setPort x (f s x)).errors = s.errors :=
    fun l f => changes_of_keep (W := [.ports]) (by simp) .errors (by simp) (by simp [Place.table])
  simp only [State.setErrors_errors, State.alertNow_errors, ports]

/-! ### The window -/

/-- The state at the end of the window before the freezes come into force. -/
def State.posted (s : State) : State := s.flushesNow.postAll

/-- The ports on which a freeze cause sets a bit at this boundary. -/
def State.freezing (s : State) : List Nat := (List.range 4).filter fun x => decide ((s.posted.port x).freezeDue ≠ 0)

theorem State.completion_eq (s : State) :
    s.completion = s.posted.freezesNow.normalNow.recordsDone.wordsNow s.freezing := rfl

/-- What the window leaves of a port. -/
theorem State.port_completion (s : State) {x : Nat} (hx : x < 4) :
    (s.completion.port x).freeze = (s.posted.port x).freeze ||| (s.posted.port x).freezeDue
      ∧ (s.completion.port x).freezeDue = 0 ∧ (s.completion.port x).db = (s.posted.port x).db
      ∧ (s.completion.port x).evTaken = false ∧ (s.completion.port x).evDb = false := by
  obtain ⟨freeze, due, db⟩ := State.port_freezesNow s.posted hx
  have words := State.port_wordsNow s.posted.freezesNow.normalNow.recordsDone s.freezing hx
  rw [State.port_recordsDone, State.port_normalNow, freeze, due, db] at words
  exact words

/-- The sets after the window are those after the posting. -/
theorem State.tset_completion (s : State) (k : Nat) : s.completion.tset k = s.posted.tset k :=
  changes_of_keep (W := [.ports, .errors, .device, .power]) (s := s.posted) (by simp [State.completion, State.posted])
    (.tset k) (by simp) (by simp [Place.table])

/-- The posting leaves the freezes in force; those due and the doorbells only grow. -/
theorem State.PortsGrow.posted (s : State) : s.PortsGrow s.posted :=
  (State.PortsGrow.of_eq fun x => State.port_flushesNow s x).trans (.each_postDue s.flushesNow _)

theorem State.posted_errors (s : State) : s.posted.errors = s.errors :=
  (State.postAll_errors _).trans (State.flushesNow_errors _)

/-- The device state is decided by the ports as the freezes have come into force. -/
theorem State.completion_device (s : State) : s.completion.errors.device = s.posted.freezesNow.normalNow.errors.device := by
  rw [State.completion_eq, State.wordsNow_errors, State.recordsDone_errors]

/-- A command that is due has its record after the window. -/
theorem State.completion_posts {s : State} {k v : Nat} (hk : k < 256) (taken : (s.tset k).life = .taken)
    (due : (s.tset k).due = some v) :
    s.completion.tset k = (s.tset k).postedDue v s.clock.epoch
      ∧ bitOf (s.completion.port (k / 64)).db.toNat (k % 64 / 2) = true
      ∧ (opWrite (s.tset k).opcode = true → v ≠ 0 → bitOf (s.completion.port (k / 64)).freeze.toNat 8 = true) := by
  have same : s.flushesNow.tset k = s.tset k := State.tset_flushesNow (.inr (by rw [due]; nofun))
  have named : k ∈ s.flushesNow.takenOrder (fun k => (s.flushesNow.tset k).due.isSome) :=
    (State.mem_takenOrder ..).mpr ⟨(State.mem_taken ..).mpr ⟨hk, by rw [same]; exact taken⟩, by rw [same, due]; rfl⟩
  obtain ⟨record, bell, io⟩ := State.each_postDue (s := s.flushesNow) (by rw [same, due]) named
  obtain ⟨freeze, -, db, -⟩ := State.port_completion s (x := k / 64) (by omega)
  rw [same, State.flushesNow_clock] at record
  rw [same] at io
  refine ⟨(State.tset_completion s k).trans record, by rw [db]; exact bell, fun write failed => ?_⟩
  rw [freeze, BitVec.toNat_or, bitOf_or, Bool.or_eq_true]
  exact .inr (io write failed)

/-- The window leaves a set that is not TAKEN. -/
theorem State.tset_completion_of_not_taken {s : State} {k : Nat} (h : (s.tset k).life ≠ .taken) :
    s.completion.tset k = s.tset k := by
  have same : s.flushesNow.tset k = s.tset k := State.tset_flushesNow (.inl h)
  refine (State.tset_completion s k).trans (Eq.trans ?_ same)
  refine State.tset_each_of_not_mem _ State.tset_postDue_of_ne (fun named => ?_) s.flushesNow
  obtain ⟨taken, -⟩ := (State.mem_takenOrder ..).mp named
  exact h (same ▸ ((State.mem_taken ..).mp taken).2)

end Sys2Proof.Machine
end

