-- ==== Sys2Proof/Proofs/Records.lean ====
section
/-! The publication of a command's batch steps, and the obligation about records (O30). -/

namespace Sys2Proof.Machine

/-- Without a result span there is nothing to read at a command's end. -/
theorem State.resultSpan_of_noSpan {s : State} {k : Nat} (noSpan : (s.tset k).reg 5 = 0) : s.resultSpan k = ([], 0, true) := by
  have result : (s.tset k).result = none := by simp [TaskSet.result, noSpan]
  unfold State.resultSpan
  rw [result]

theorem State.tset_postLater (s : State) (k status count step j : Nat) :
    (s.postLater k status count step).tset j
      = if j = k then { s.tset k with due := some status, count := count, dueStep := step } else s.tset j :=
  State.tset_setTset ..

theorem State.tset_memRecord (s : State) (k a j : Nat) : (s.memRecord k a).tset j = s.tset j := State.tset_raise ..

/-- The last publication has the record posted; what was published stays. -/
theorem State.tset_lastPublished (s : State) (k : Nat) : ∃ m n v count step, (s.lastPublished k).tset k
    = { s.tset k with output := m, outLen := n, due := some v, count := count, dueStep := step } := by
  unfold State.lastPublished
  dsimp only
  split
  · exact ⟨_, _, _, _, _, State.tset_setTset_same ..⟩
  · split
    · exact ⟨_, _, _, _, _, by rw [State.tset_postLater, if_pos rfl, State.output, State.tset_setTset_same]⟩
    · exact ⟨_, _, _, _, _, by rw [State.tset_postLater, if_pos rfl, State.tset_memRecord, State.output, State.tset_setTset_same]⟩

/-- The record of a table-run command without a result span: its status, the batch steps published, and the step it missed. -/
theorem State.tset_lastPublished_of_noSpan {s : State} {k : Nat} (tableRun : opTableRun (s.tset k).opcode = true)
    (noSpan : (s.tset k).reg 5 = 0) : (s.lastPublished k).tset k = { s.tset k with
      output := [], outLen := 0, due := some (s.tset k).endStatus, count := (s.tset k).published
      dueStep := (s.tset k).missed.getD 0 } := by
  have noQuery : ¬ (s.tset k).opcode = 0x34 := fun h => by rw [h] at tableRun; cases tableRun
  unfold State.lastPublished
  simp only [noQuery, if_false, resultSpan_of_noSpan noSpan, if_true, State.tset_postLater, State.output,
    State.tset_setTset_same]

theorem State.ctx_lastPublished (s : State) (k p n : Nat) : (s.lastPublished k).ctx p n = s.ctx p n :=
  changes_of_keep (W := [.dict, .errors, .free, .observe, .sets]) (by simp) (.ctx (p * 16 + n)) (by simp)
    (by simp [Place.table])

theorem State.port_lastPublished (s : State) (k x : Nat) : (s.lastPublished k).port x = s.port x :=
  changes_of_keep (W := [.dict, .errors, .free, .observe, .sets]) (by simp) (.port x) (by simp) (by simp [Place.table])

/-! ### The batch steps of a command -/

/-- A set whose held batch steps are published: what they held is the output, and is counted. -/
def TaskSet.publishHeld (t : TaskSet) : TaskSet :=
  { t with published := t.published + t.held, held := 0, output := t.span, outLen := t.spanLen }

/-- REFIT_STEP of a command's context advances at a refit batch step's publication (R305). -/
def State.advanceRefit (s : State) (t : TaskSet) : State :=
  if t.opcode = 0x33 then
    s.setCtx t.partNo t.ctxNo { s.ctx t.partNo t.ctxNo with refitStep := (s.ctx t.partNo t.ctxNo).refitStep + 1 }
  else s

/-- A table-run command that asks for it rings its doorbell at each publication (R389). -/
def State.ringStep (s : State) (k : Nat) (t : TaskSet) : State :=
  if opTableRun t.opcode && bitOf (t.reg 1) 31 then s.ringDoorbell k else s

/-- The publication of what a command holds, before the command ends. -/
def State.publishHeld (s : State) (k : Nat) : State :=
  ((s.setTset k (s.tset k).publishHeld).advanceRefit (s.tset k)).ringStep k (s.tset k)

theorem State.publishRun_of_none {s : State} {k : Nat} (h : (s.tset k).held = 0) : s.publishRun k = s := if_pos h

theorem State.publishRun_of_held {s : State} {k : Nat} (h : 0 < (s.tset k).held) :
    s.publishRun k = if (s.tset k).due = none ∧ (s.tset k).steps ≤ (s.tset k).published + (s.tset k).held then
      (s.publishHeld k).lastPublished k else s.publishHeld k :=
  if_neg (Nat.ne_of_gt h)

theorem State.tset_publishHeld (s : State) (k : Nat) : (s.publishHeld k).tset k = (s.tset k).publishHeld := by
  unfold State.publishHeld State.ringStep State.advanceRefit
  split <;> split <;> simp

theorem State.ctx_publishHeld (s : State) (k p n : Nat) :
    (s.publishHeld k).ctx p n = ((s.setTset k (s.tset k).publishHeld).advanceRefit (s.tset k)).ctx p n := by
  unfold State.publishHeld State.ringStep
  split <;> simp

/-- The publication, ending the command or not, does to contexts what `publishHeld` does. -/
theorem State.ctx_publishRun {s : State} {k : Nat} (h : 0 < (s.tset k).held) (p n : Nat) :
    (s.publishRun k).ctx p n = ((s.setTset k (s.tset k).publishHeld).advanceRefit (s.tset k)).ctx p n := by
  rw [publishRun_of_held h]
  split
  · rw [State.ctx_lastPublished, State.ctx_publishHeld]
  · exact State.ctx_publishHeld ..

theorem State.port_publishRun {s : State} {k : Nat} (h : 0 < (s.tset k).held) (x : Nat) :
    (s.publishRun k).port x = (s.publishHeld k).port x := by
  rw [publishRun_of_held h]
  split
  · exact State.port_lastPublished ..
  · rfl

/-- What is held is published, whether the command ends with it or not. -/
theorem State.tset_publishRun_counts {s : State} {k : Nat} (h : 0 < (s.tset k).held) :
    ((s.publishRun k).tset k).published = (s.tset k).published + (s.tset k).held ∧ ((s.publishRun k).tset k).held = 0 := by
  rw [publishRun_of_held h]
  split
  · obtain ⟨_, _, _, _, _, last⟩ := State.tset_lastPublished (s.publishHeld k) k
    rw [last, State.tset_publishHeld]
    exact ⟨rfl, rfl⟩
  · rw [State.tset_publishHeld]
    exact ⟨rfl, rfl⟩

/-! ### The obligation -/

theorem State.completion_ring (s : State) :
    s.completion.errors.ring = s.posted.freezesNow.normalNow.recordsDone.errors.ring := by
  rw [State.completion_eq, State.wordsNow_errors]

/-- The clauses about the completion window. -/
theorem completion_window (s : State) (k v x : Nat) (hk : k < 256) (hx : x < 4) :
    let w := s.tset k
    let t := s.completion
    (w.life = .taken → w.due = some v →
      (t.tset k).life = .done ∧ (t.tset k).due = none ∧ (t.tset k).tr14 = s.clock.epoch
        ∧ (t.tset k).tr15 = BitVec.ofNat 64
            (field 32 32 (if opTableRun w.opcode then w.published else w.count) + field 12 20 w.dueStep + field 16 0 v)
        ∧ (t.tset k).tr13 = BitVec.ofNat 64 (field 16 48 (min w.fallbacks 65535) + field 40 0 w.outLen)
        ∧ bitOf (t.port (k / 64)).db.toNat (k % 64 / 2) = true
        ∧ (opWrite w.opcode = true → v ≠ 0 → bitOf (t.port (k / 64)).freeze.toNat 8 = true)) ∧
    (w.life ≠ .taken → t.tset k = w) ∧
    ((t.port x).freezeDue = 0 ∧ (t.port x).evTaken = false ∧ (t.port x).evDb = false) ∧
    (∀ n, n < 10 → bitOf ((s.port x).freeze ||| (s.port x).freezeDue).toNat n = true →
      bitOf (t.port x).freeze.toNat n = true) ∧
    (s.errors.device = 1 → (∀ y, y < 4 → bitOf (t.port y).freeze.toNat 9 = false) →
      (∀ e, e ∈ s.errors.ring → e.2.open = true → e.2.rep.severity ≠ 4) → t.errors.device = 0) ∧
    (bitOf (t.port x).freeze.toNat 9 = true → t.errors.device = s.errors.device) ∧
    (∀ e, e ∈ t.errors.ring → e.2.st ≠ .handling) := by
  obtain ⟨freeze, due, -, taken, bell⟩ := State.port_completion s hx
  have unchanged : s.posted.freezesNow.errors = s.errors := (State.freezesNow_errors _).trans (State.posted_errors s)
  have inForce : ∀ y, y < 4 → (s.posted.freezesNow.port y).freeze = (s.completion.port y).freeze := fun y hy =>
    (State.port_freezesNow s.posted hy).1.trans (State.port_completion s hy).1.symm
  refine ⟨fun live isDue => ?_, State.tset_completion_of_not_taken, ⟨due, taken, bell⟩, fun n _ h => ?_,
    fun halted clear settled => ?_, fun stream => ?_, fun e he => ?_⟩
  · obtain ⟨record, rung, io⟩ := State.completion_posts hk live isDue
    rw [record]
    exact ⟨rfl, rfl, rfl, rfl, rfl, rung, io⟩
  · have grows := State.PortsGrow.posted s x
    rw [BitVec.toNat_or, bitOf_or, Bool.or_eq_true] at h
    rw [freeze, BitVec.toNat_or, bitOf_or, Bool.or_eq_true, grows.freeze]
    exact h.imp id (grows.due n)
  · rw [State.completion_device]
    exact State.normalNow_of_clear (by rw [unchanged]; exact halted) (fun y hy => by rw [inForce y hy]; exact clear y hy)
      (by rw [unchanged]; exact settled)
  · rw [State.completion_device, State.normalNow_of_stream hx (by rw [inForce x hx]; exact stream), unchanged]
  · exact State.recordsDone_settled _ e (State.completion_ring s ▸ he)

/-- The clauses about the publication of a command's batch steps. -/
theorem publishRun_publishes (s : State) (k : Nat) (some_held : 0 < (s.tset k).held) :
    let w := s.tset k
    let t := s.publishRun k
    (t.tset k).published = w.published + w.held ∧ (t.tset k).held = 0
    ∧ (w.published + w.held < w.steps ∨ w.due ≠ none →
        t.tset k = { w with published := w.published + w.held, held := 0, output := w.span, outLen := w.spanLen })
    ∧ (w.due = none → w.steps ≤ w.published + w.held → opTableRun w.opcode = true → w.reg 5 = 0 →
        (t.tset k).due = some w.endStatus ∧ (t.tset k).count = w.published + w.held
        ∧ (t.tset k).dueStep = w.missed.getD 0)
    ∧ (w.opcode = 0x33 → (t.ctx w.partNo w.ctxNo).refitStep = (s.ctx w.partNo w.ctxNo).refitStep + 1)
    ∧ (w.opcode ≠ 0x33 → t.ctx w.partNo w.ctxNo = s.ctx w.partNo w.ctxNo)
    ∧ (opTableRun w.opcode = true → bitOf (w.reg 1) 31 = true → k < 256 →
        bitOf (t.port (k / 64)).db.toNat (k % 64 / 2) = true) := by
  obtain ⟨published, noneHeld⟩ := State.tset_publishRun_counts some_held
  refine ⟨published, noneHeld, fun goesOn => ?_, fun notDue last tableRun noSpan => ?_, fun refit => ?_,
    fun noRefit => ?_, fun tableRun asks _ => ?_⟩
  · have goesOn' : ¬ ((s.tset k).due = none ∧ (s.tset k).steps ≤ (s.tset k).published + (s.tset k).held) :=
      fun ⟨notDue, last⟩ => goesOn.elim (fun h => by omega) (· notDue)
    rw [State.publishRun_of_held some_held, if_neg goesOn', State.tset_publishHeld]
    rfl
  · rw [State.publishRun_of_held some_held, if_pos ⟨notDue, last⟩]
    have now := State.tset_publishHeld s k
    rw [State.tset_lastPublished_of_noSpan (by rw [now]; exact tableRun) (by rw [now]; exact noSpan), now]
    exact ⟨rfl, rfl, rfl⟩
  · rw [State.ctx_publishRun some_held, State.advanceRefit, if_pos refit, State.ctx_setCtx_same]
    rfl
  · rw [State.ctx_publishRun some_held, State.advanceRefit, if_neg noRefit]
    rfl
  · rw [State.port_publishRun some_held, State.publishHeld, State.ringStep, if_pos (by rw [tableRun, asks]; rfl)]
    exact State.db_ringDoorbell ..

/-- Settles O30: every record that is due is posted when the freezes come into force and the device state is decided; the
publication of batch steps counts what was held. -/
theorem recordsArePosted : Obligations.RecordsArePosted := by
  unfold Obligations.RecordsArePosted
  exact ⟨completion_window, fun s k => ⟨State.publishRun_of_none, publishRun_publishes s k⟩⟩

end Sys2Proof.Machine
end

