-- ==== Sys2Proof/Proofs/BatchEnd.lean ====
section
/-! END of a batch step. -/

namespace Sys2Proof.Machine

theorem State.run_of_atStep {s : State} {p o : Nat} {r : Run} (h : s.atStep p o = some r) : (s.seq p).run = some r := by
  unfold State.atStep at h
  split at h
  · cases h
  next r' hr =>
    split at h
    · cases h
    · rw [hr, h]

theorem State.dropRun_of_run {s : State} {p : Nat} {r : Run} (h : (s.seq p).run = some r) :
    s.dropRun p = (s.setCtx p r.ctx.val (s.ctx p r.ctx.val).retire).setSeq p { s.seq p with run := none } := by
  unfold State.dropRun
  rw [h]

/-- Nothing is selected for a partition that does not run, or whose move period is over. -/
theorem State.selectNext_of_over {s : State} {p now : Nat} (past : (s.part p).life ≠ .running ∨ (s.seq p).periodEnd ≤ now)
    (ended : (s.seq p).run = none) : s.selectNext p now = s := by
  have none' : s.select p now = s := by
    unfold State.select
    refine if_pos ?_
    rcases past with h | h <;> simp [h]
  simp [State.selectNext, none', ended]

/-- With idle units no tile is left over. -/
theorem State.dropSurplus_of_idle {s : State} {p : Nat} (idle : (s.seq p).unitsIdle = true) : s.dropSurplus p = s := by
  unfold State.dropSurplus Seq.surplus
  rw [idle]
  rfl

/-- The batch step in progress ends at `now`, and the next is selected. -/
def State.closeBatch (s : State) (p now : Nat) : State :=
  ((s.dropRun p).setSeq p { (s.dropRun p).seq p with idleFrom := now, stuck := 0, stepped := true }).selectNext p now

/-- Without a batch step to follow, only the sequencer and the ended batch step's context change. -/
theorem State.closeBatch_of_over {s : State} {p now : Nat} {r : Run} (run : (s.seq p).run = some r)
    (past : (s.part p).life ≠ .running ∨ (s.seq p).periodEnd ≤ now) :
    s.closeBatch p now = ((s.dropRun p).setSeq p
      { s.seq p with run := none, idleFrom := now, stuck := 0, stepped := true }) := by
  unfold State.closeBatch
  rw [State.dropRun_of_run run, State.seq_setSeq_same, State.selectNext_of_over] <;> simp [past]

section
variable {W : List Place} {s : State} {p now : Nat} {r : Run} (run : (s.seq p).run = some r)
  (past : (s.part p).life ≠ .running ∨ (s.seq p).periodEnd ≤ now)
include run past

theorem State.keep_closeBatch (hseq : .seq p ∈ W) (hctx : .ctx (p * 16 + r.ctx.val) ∈ W) :
    keep W (s.closeBatch p now) = keep W s := by
  rw [State.closeBatch_of_over run past, State.dropRun_of_run run]
  simp [hseq, hctx]

theorem State.seq_closeBatch :
    (s.closeBatch p now).seq p = { s.seq p with run := none, idleFrom := now, stuck := 0, stepped := true } := by
  rw [State.closeBatch_of_over run past, State.seq_setSeq_same]

theorem State.ctx_closeBatch : (s.closeBatch p now).ctx p r.ctx.val = (s.ctx p r.ctx.val).retire := by
  rw [State.closeBatch_of_over run past, State.dropRun_of_run run]
  simp

theorem State.tset_closeBatch (k : Nat) : (s.closeBatch p now).tset k = s.tset k := by
  rw [State.closeBatch_of_over run past, State.dropRun_of_run run]
  simp

end

/-- The records of END, issued and complete (19 R471). -/
def State.endTraced (s : State) (p : Nat) (r : Run) : State := (s.traceStep p 0 r).traceStep p 1 r

theorem State.endTraced_off {s : State} {p : Nat} (h : s.untraced p) (r : Run) : s.endTraced p r = s := by
  unfold State.endTraced State.traceStep
  rw [State.trace_off h, State.trace_off h]

theorem State.keep_endTraced (s : State) (p : Nat) (r : Run) :
    keep [.dict, .fabric, .free, .tiers] (s.endTraced p r) = keep [.dict, .fabric, .free, .tiers] s := by
  simp [State.endTraced]

theorem State.seq_endTraced (s : State) (p : Nat) (r : Run) (q : Nat) : (s.endTraced p r).seq q = s.seq q :=
  changes_of_keep (s.keep_endTraced p r) (.seq q) (by simp) (by simp [Place.table])

theorem State.part_endTraced (s : State) (p : Nat) (r : Run) (q : Nat) : (s.endTraced p r).part q = s.part q :=
  changes_of_keep (s.keep_endTraced p r) (.part q) (by simp) (by simp [Place.table])

theorem State.tset_endTraced (s : State) (p : Nat) (r : Run) (k : Nat) : (s.endTraced p r).tset k = s.tset k :=
  changes_of_keep (s.keep_endTraced p r) (.tset k) (by simp) (by simp [Place.table])

theorem State.ctx_endTraced (s : State) (p : Nat) (r : Run) (q n : Nat) : (s.endTraced p r).ctx q n = s.ctx q n :=
  changes_of_keep (s.keep_endTraced p r) (.ctx (q * 16 + n)) (by simp) (by simp [Place.table])

/-- A batch step whose command is due already ends without outputs. -/
theorem State.reachEnd_of_due {s : State} {p : Nat} {r : Run} (due : (s.tset r.key).due.isSome = true) :
    s.reachEnd p r = s.dropRun p := if_pos due

/-- The batch step's outputs are held: its result span is read. -/
def State.heldOutputs (s : State) (r : Run) : State :=
  let v := s.sees ((s.tset r.key).result.toList.map fun a => (none, a.1, a.2))
  v.setTset r.key { s.tset r.key with
    held := (s.tset r.key).held + 1, span := (s.resultSpan r.key).1, spanLen := (s.resultSpan r.key).2.1 }

/-- A batch step of a table-run command without a commit span ends with its outputs held. -/
theorem State.reachEnd_of_noCommit {s : State} {p : Nat} {r : Run} (notDue : (s.tset r.key).due = none)
    (noQuery : (s.tset r.key).opcode ≠ 0x34) (noCommit : (s.tset r.key).commit r.number = none) :
    s.reachEnd p r = (s.heldOutputs r).dropRun p := by
  unfold State.reachEnd
  rw [if_neg (by rw [notDue]; nofun), if_neg noQuery, noCommit]
  rfl

theorem State.commitWaits_of_noCommit {s : State} {p : Nat} {r : Run} (h : (s.tset r.key).commit r.number = none) :
    s.commitWaits p r = false := by
  unfold State.commitWaits
  dsimp only
  rw [h]

theorem State.commitWaits_of_due {s : State} {p : Nat} {r : Run} (h : (s.tset r.key).due.isSome = true) :
    s.commitWaits p r = false := by
  unfold State.commitWaits
  dsimp only
  split
  · rfl
  · simp [h]

/-! ### The command -/

theorem execEndStep_waits {s : State} {p : Part} {r : Run} (at' : s.atStep p.val opEnd = some r) (k : Nat)
    (waits : ((!(s.seq p.val).unitsIdle && !(s.seq p.val).surplus) || s.commitWaits p.val r) = true) :
    execEndStep p k s = .next s := by
  unfold execEndStep
  rw [at']
  exact if_pos waits

/-- With idle units and no commit span that waits, the batch step ends: where reaching END leaves a state `v` without its
batch step, and none follows, the rest of the command is the end of that batch step. -/
theorem execEndStep_ends {s v : State} {p : Part} {r : Run} {k : Nat} (at' : s.atStep p.val opEnd = some r)
    (idle : (s.seq p.val).unitsIdle = true) (noWait : s.commitWaits p.val r = false)
    (past : (s.part p.val).life ≠ .running ∨ (s.seq p.val).periodEnd ≤ s.clock.boundaryAt + k)
    (reach : (s.endTraced p.val r).reachEnd p.val r = v.dropRun p.val) (vseq : v.seq p.val = s.seq p.val)
    (vpart : v.part p.val = s.part p.val) :
    ∃ t, execEndStep p k s = .next t ∧ (∀ j, t.tset j = v.tset j)
      ∧ t.seq p.val = { s.seq p.val with run := none, idleFrom := s.clock.boundaryAt + k, stuck := 0, stepped := true }
      ∧ t.ctx p.val r.ctx.val = (v.ctx p.val r.ctx.val).retire
      ∧ ∀ W : List Place, .seq p.val ∈ W → .ctx (p.val * 16 + r.ctx.val) ∈ W → keep W t = keep W v := by
  have traced : (s.traceStep p.val 0 r).dropSurplus p.val = s.traceStep p.val 0 r := by
    refine State.dropSurplus_of_idle ?_
    rwa [show (s.traceStep p.val 0 r).seq p.val = s.seq p.val from
      changes_of_keep (W := [.dict, .fabric, .free, .tiers]) (by simp) (.seq p.val) (by simp) (by simp [Place.table])]
  have closes : execEndStep p k s = .next (v.closeBatch p.val (s.clock.boundaryAt + k)) := by
    unfold State.endTraced at reach
    unfold execEndStep
    rw [at']
    dsimp only
    rw [if_neg (by rw [idle, noWait]; nofun), traced, reach]
    rfl
  have run : (v.seq p.val).run = some r := by rw [vseq]; exact State.run_of_atStep at'
  rw [← vseq, ← vpart] at past
  exact ⟨_, closes, State.tset_closeBatch run past, vseq ▸ State.seq_closeBatch run past, State.ctx_closeBatch run past,
    fun _ => State.keep_closeBatch run past⟩

/-- The clauses about END. -/
theorem endStep_ends (s : State) (p : Part) (r : Run) (k : Nat) (at' : s.atStep p.val opEnd = some r) :
    let w := s.tset r.key
    let u := (s.traceStep p.val 0 r).traceStep p.val 1 r
    (s.untraced p.val → u = s) ∧
    ((s.seq p.val).unitsIdle = false → (s.seq p.val).surplus = false → exec (.endStep p k) s = .next s) ∧
    (s.commitWaits p.val r = true → exec (.endStep p k) s = .next s) ∧
    ((s.seq p.val).unitsIdle = true → w.due = none → w.opcode ≠ 0x34 → w.commit r.number = none →
      (s.part p.val).life ≠ .running ∨ (s.seq p.val).periodEnd ≤ s.clock.boundaryAt + k →
      ∃ t, exec (.endStep p k) s = .next t
        ∧ t.tset r.key = { w with held := w.held + 1, span := (u.resultSpan r.key).1, spanLen := (u.resultSpan r.key).2.1 }
        ∧ t.seq p.val = { s.seq p.val with run := none, idleFrom := s.clock.boundaryAt + k, stuck := 0, stepped := true }
        ∧ t.ctx p.val r.ctx.val = (s.ctx p.val r.ctx.val).retire
        ∧ Changes [.seq p.val, .tset r.key, .ctx (p.val * 16 + r.ctx.val), .guard] u t) ∧
    ((s.seq p.val).unitsIdle = true → w.due.isSome = true →
      (s.part p.val).life ≠ .running ∨ (s.seq p.val).periodEnd ≤ s.clock.boundaryAt + k →
      ∃ t, exec (.endStep p k) s = .next t
        ∧ t.seq p.val = { s.seq p.val with run := none, idleFrom := s.clock.boundaryAt + k, stuck := 0, stepped := true }
        ∧ Changes [.seq p.val, .ctx (p.val * 16 + r.ctx.val)] u t) := by
  have set := s.tset_endTraced p.val r r.key
  have seq := s.seq_endTraced p.val r p.val
  have part := s.part_endTraced p.val r p.val
  refine ⟨fun off => State.endTraced_off off r, fun idle tiles => ?_, fun commit => ?_,
    fun idle notDue noQuery noCommit past => ?_, fun idle due past => ?_⟩
  · exact execEndStep_waits at' k (by rw [idle, tiles]; rfl)
  · exact execEndStep_waits at' k (by rw [commit, Bool.or_true])
  · have reach := State.reachEnd_of_noCommit (p := p.val) (r := r) (by rw [set]; exact notDue) (by rw [set]; exact noQuery)
      (by rw [set]; exact noCommit)
    obtain ⟨t, ends, sets, tseq, tctx, kept⟩ :=
      execEndStep_ends at' idle (State.commitWaits_of_noCommit noCommit) past reach seq part
    refine ⟨t, ends, ?_, tseq, tctx.trans (congrArg Context.retire (State.ctx_endTraced ..)), ?_⟩
    · rw [sets]
      refine (State.tset_setTset_same ..).trans ?_
      rw [set]
      rfl
    · refine changes_of_keep ((kept _ (by simp) (by simp)).trans ?_)
      simp [State.heldOutputs, State.endTraced]
  · have reach := State.reachEnd_of_due (p := p.val) (r := r) (by rw [set]; exact due)
    obtain ⟨t, ends, -, tseq, -, kept⟩ := execEndStep_ends at' idle (State.commitWaits_of_due due) past reach seq part
    exact ⟨t, ends, tseq, changes_of_keep (kept _ (by simp) (by simp))⟩

end Sys2Proof.Machine
end

