-- ==== Sys2Proof/Proofs/StepEnd.lean ====
section
/-! STEP_COMPLETE, and the obligation about the ends of steps and batch steps (O25). -/

namespace Sys2Proof.Machine

/-! ### What a step that is done charges and counts -/

/-- A completed step's charges, the counts of its slots and those of its work. -/
def State.accountStep (s : State) (p : Nat) (e : QStep) : State := ((s.chargeStep p e).classSlots e).countStep e

@[simp] theorem State.keep_accountStep {W : List Place} (s : State) (p : Nat) (e : QStep) (hdict : .dict ∈ W)
    (hfree : .free ∈ W) (hvtimes : .vtimes ∈ W) (hobserve : .observe ∈ W) : keep W (s.accountStep p e) = keep W s := by
  simp [State.accountStep, hdict, hfree, hvtimes, hobserve]

/-- A step that used, occupied and counted nothing is not accounted. -/
theorem State.accountStep_of_nothing {s : State} {p : Nat} {e : QStep} (used : e.used = []) (slots : e.slots = [])
    (tally : e.tally = []) : s.accountStep p e = s := by
  simp [State.accountStep, State.chargeStep, State.classSlots, State.countStep, State.each, used, slots, tally]

/-- No governing value changes. -/
def State.SameGov (s t : State) : Prop := ∀ i j, t.gov i j = s.gov i j

theorem State.SameGov.each {α : Type} {f : State → α → State} (h : ∀ (s : State) a, s.SameGov (f s a)) (s : State) (l : List α) :
    s.SameGov (s.each l f) :=
  State.each_rel (R := State.SameGov) (fun _ _ _ => rfl) (fun _ _ _ a b i j => (b i j).trans (a i j)) f h l s

theorem State.sameGov_chargeStep (s : State) (p : Nat) (e : QStep) : s.SameGov (s.chargeStep p e) := by
  refine State.SameGov.each (fun t u i j => ?_) s e.used
  split <;> simp [State.charge, State.account]

theorem State.sameGov_classSlots (s : State) (e : QStep) : s.SameGov (s.classSlots e) :=
  State.gov_congr
    (by rw [show (s.classSlots e).dict = s.dict from
      changes_of_keep (W := [.free, .observe]) (by simp) .dict (by simp) (by simp [Place.table])])
    (by rw [show (s.classSlots e).power = s.power from
      changes_of_keep (W := [.free, .observe]) (by simp) .power (by simp) (by simp [Place.table])])

theorem State.sameGov_countStep (s : State) (e : QStep) : s.SameGov (s.countStep e) := by
  refine State.SameGov.each (fun t u i j => ?_) s _
  dsimp only
  split <;> split <;> simp

theorem State.sameGov_accountStep (s : State) (p : Nat) (e : QStep) : s.SameGov (s.accountStep p e) := fun i j =>
  (State.sameGov_countStep _ e i j).trans ((State.sameGov_classSlots _ e i j).trans (State.sameGov_chargeStep s p e i j))

/-! ### The queue that the step leaves -/

/-- The sequencer once the step `e` has left queue `n`, with `rest` behind it: a step that its unit carried out to its end
starts the watchdog's count again. -/
def Seq.leave (q : Seq) (n : Nat) (e : QStep) (rest : List QStep) : Seq :=
  { q with
    queues := q.queues.set n rest
    stuck := if e.cut || e.found.isSome then q.stuck else 0
    stepped := q.stepped || !(e.cut || e.found.isSome) }

/-- Nothing is left behind the one step in the queues. -/
theorem Seq.queue_leave_empty {q : Seq} {n : Nat} {e : QStep} (others : ∀ m, m ≠ n → q.queue m = []) (m : Nat) :
    (q.leave n e []).queue m = [] := by
  have left : (q.leave n e []).queue m = if m = n then [] else q.queue m := Tab.get_set ..
  rw [left]
  split
  · rfl
  next hm => exact others m hm

theorem Seq.unitsIdle_of_empty {q : Seq} (h : ∀ m, q.queue m = []) : q.unitsIdle = true :=
  List.all_eq_true.mpr fun m _ => by rw [h m]; rfl

/-- Without a WAIT in force none ends. -/
theorem State.endWait_of_noWait {s : State} {p : Nat} (h : ∀ r, (s.seq p).run = some r → r.waiting = false) :
    s.endWait p = s := by
  unfold State.endWait
  dsimp only
  split
  · rfl
  next r hr => rw [h r hr]; rfl

/-- The state once a step has left its queue and is accounted. -/
def State.stepDone (s : State) (p n : Nat) (e : QStep) (rest : List QStep) : State :=
  (s.setSeq p ((s.seq p).leave n e rest)).accountStep p e

theorem State.seq_stepDone (s : State) (p n : Nat) (e : QStep) (rest : List QStep) :
    (s.stepDone p n e rest).seq p = (s.seq p).leave n e rest :=
  (changes_of_keep (W := [.dict, .free, .vtimes, .observe]) (s := s.setSeq p _) (by simp [State.stepDone]) (.seq p)
    (by simp) (by simp [Place.table])).trans (State.seq_setSeq_same ..)

theorem State.untraced_stepDone {s : State} {p : Nat} (off : s.untraced p) (n : Nat) (e : QStep) (rest : List QStep) :
    (s.stepDone p n e rest).untraced p := by
  unfold State.untraced at off ⊢
  rw [State.stepDone, State.sameGov_accountStep]
  exact off

/-- A SCAN that its unit carried out is counted in SCANS (R275). -/
def State.countScan (s : State) (e : QStep) : State :=
  if wOpcode e.word = opScan ∧ !e.cut then s.bump (0x6010 + bits e.word 191 189) 1 1 else s

theorem State.seq_countScan (s : State) (e : QStep) (p : Nat) : (s.countScan e).seq p = s.seq p := by
  unfold State.countScan
  split <;> simp

theorem State.untraced_countScan {s : State} {p : Nat} (off : s.untraced p) (e : QStep) : (s.countScan e).untraced p := by
  unfold State.untraced State.countScan at *
  split
  · rwa [State.gov_bump]
  · exact off

/-! ### The command -/

/-- The last step in the queues is carried out: it leaves its queue, and its charges and counts are all that follows. -/
theorem execStepComplete_last {s : State} {p : Part} {n : Queue} {e : QStep} (head : (s.seq p.val).queue n.val = [e])
    (others : ∀ m, m ≠ n.val → (s.seq p.val).queue m = []) (ran : e.ran = true) (clean : e.found = none)
    (off : s.untraced p.val) (noWait : ∀ r, (s.seq p.val).run = some r → r.waiting = false) :
    execStepComplete p n s = .next ((s.stepDone p.val n.val e []).countScan e) := by
  let t := (s.stepDone p.val n.val e []).countScan e
  have seq : t.seq p.val = (s.seq p.val).leave n.val e [] := (State.seq_countScan ..).trans (State.seq_stepDone ..)
  have silent : t.untraced p.val := State.untraced_countScan (State.untraced_stepDone off ..) e
  have settled : ∀ fuel, (t.pump p.val fuel).endWait p.val = t := fun fuel => by
    rw [State.pump_calm fun m _ => Seq.calm_nil (by rw [seq]; exact Seq.queue_leave_empty others m)]
    exact State.endWait_of_noWait (by rw [seq]; exact noWait)
  have traced : (match (s.seq p.val).run with
      | some r => if e.cut then t else t.trace p.val (64 + p.val) 1 (wTraceTag e.word) e.index r.ctx.val 0 0
      | none => t) = t := by
    split
    · rw [State.trace_off silent, ite_self]
    · rfl
  unfold execStepComplete
  generalize pumpFuel = fuel
  dsimp only
  rw [head]
  dsimp only
  rw [if_neg (by rw [ran]; nofun)]
  split
  next rep _ found => rw [clean] at found; cases found
  next =>
    exact congrArg Host.Outcome.next
      ((congrArg (fun u : State => (u.pump p.val fuel).endWait p.val) traced).trans (settled fuel))

/-- A FETCH that met data it may not deliver is stopped. -/
theorem execStepComplete_found {s : State} {p : Part} {n : Queue} {e : QStep} {rest : List QStep} {r : Run} {rep : Report}
    (head : (s.seq p.val).queue n.val = e :: rest) (ran : e.ran = true) (uncut : e.cut = false) (found : e.found = some rep)
    (run : (s.seq p.val).run = some r) : execStepComplete p n s
      = .next (((s.stepDone p.val n.val e rest).each e.saved State.mixSaved).stopStep p.val r e rep) := by
  unfold execStepComplete
  generalize pumpFuel = fuel
  dsimp only
  rw [head]
  dsimp only
  rw [if_neg (by rw [ran]; nofun)]
  split
  next r' rep' run' found' =>
    obtain rfl : r = r' := Option.some.inj (run.symm.trans run')
    obtain rfl : rep = rep' := Option.some.inj (found.symm.trans found')
    exact if_neg (by rw [uncut]; nofun)
  next none' => exact absurd found (none' r rep run)

theorem execStepComplete_unran {s : State} {p : Part} {n : Queue} {e : QStep} {rest : List QStep}
    (head : (s.seq p.val).queue n.val = e :: rest) (unran : e.ran = false) : execStepComplete p n s = .next s := by
  unfold execStepComplete
  dsimp only
  rw [head]
  dsimp only
  exact if_pos (by rw [unran]; rfl)

/-! ### The stop of the last step -/

theorem State.each_nil {α : Type} (s : State) (f : State → α → State) : s.each [] f = s := rfl

section
variable {s : State} {p : Nat} (empty : ∀ m, (s.seq p).queue m = [])
include empty

/-- With empty queues nothing is cut: only lane dies and the queues are written, with what they hold. -/
theorem State.cutSteps_of_empty (f : QStep → Bool) : ∃ v : State, ∃ l, s.cutSteps p f = v.setSeq p { v.seq p with queues := l }
    ∧ keep [.fabric, .dies] v = keep [.fabric, .dies] s := by
  have noHit : (List.range 32).flatMap (s.seq p).queue = [] := List.flatMap_eq_nil_iff.mpr fun m _ => empty m
  unfold State.cutSteps
  dsimp only
  rw [noHit]
  refine ⟨_, _, rfl, ?_⟩
  split <;> simp [kFirst, State.each_nil]

/-- The batch step in progress fails: its command ends with TORN_DOWN, unless it was due already, and nothing else is
recorded. -/
theorem State.failBatch_of_empty {r : Run} (run : (s.seq p).run = some r) (notDue : (s.tset r.key).due = none) :
    ((s.failBatch p).seq p).run = none ∧ ((s.failBatch p).tset r.key).due = some stTornDown
      ∧ (s.failBatch p).errors = s.errors ∧ (s.failBatch p).clock = s.clock := by
  obtain ⟨v, l, cut, kept⟩ := State.cutSteps_of_empty empty fun _ => true
  have frame : Changes [.fabric, .dies] s v := changes_of_keep kept
  have vrun : (v.seq p).run = some r := (congrArg Seq.run (frame (.seq p) (by simp) (by simp [Place.table]))).trans run
  have vset : v.tset r.key = s.tset r.key := frame (.tset r.key) (by simp) (by simp [Place.table])
  have verrors : v.errors = s.errors := frame .errors (by simp) (by simp [Place.table])
  have vclock : v.clock = s.clock := frame .clock (by simp) (by simp [Place.table])
  have fails : s.failBatch p
      = ((v.setSeq p { v.seq p with queues := l }).postLater r.key stTornDown (v.tset r.key).published 0).dropRun p := by
    unfold State.failBatch
    rw [run]
    dsimp only
    rw [cut, State.tset_setSeq, vset, if_pos notDue]
  rw [fails, State.dropRun_of_run (r := r) (by simp [State.postLater, vrun])]
  refine ⟨?_, ?_, ?_, ?_⟩
  · rw [State.seq_setSeq_same]
  · simp [State.postLater]
  · simp [State.postLater, verrors]
  · simp [State.postLater, vclock]

end

/-! ### The obligation -/

theorem Raised.mono {s t : State} {ok ok' : Report → Prop} (h : Raised s t ok) (weaker : ∀ x, ok x → ok' x) : Raised s t ok' := by
  obtain ⟨r, slot, seq, epoch, st, escalated, related, next, reported⟩ := h
  exact ⟨r, slot, seq, epoch, st, escalated, related, next, weaker _ reported⟩

theorem objBits_scans (w : Nat) : objBits (0x6010 + bits w 191 189) 1 = 64 := by
  have sets : ∀ k : Fin 8, objBits (0x6010 + k.val) 1 = 64 := by decide
  exact sets ⟨bits w 191 189, Nat.mod_lt _ (by decide)⟩

/-- The last step in the queues completes. -/
theorem stepComplete_last (s : State) (p : Part) (n : Queue) (e : QStep) :
    let q := s.seq p.val
    q.queue n.val = [e] → (∀ m, m ≠ n.val → q.queue m = []) → e.ran = true → e.found = none → s.untraced p.val →
      (∀ r, q.run = some r → r.waiting = false) →
      let scans := 0x6010 + bits e.word 191 189
      ∃ t, exec (.stepComplete p n) s = .next t
        ∧ t.seq p.val = { q with
            queues := q.queues.set n.val [], stuck := if e.cut then q.stuck else 0, stepped := q.stepped || !e.cut }
        ∧ Changes [.seq p.val, .dict, .vtimes, .observe, .free] s t
        ∧ (e.used = [] → e.slots = [] → e.tally = [] → (wOpcode e.word ≠ opScan ∨ e.cut = true) → Changes [.seq p.val] s t)
        ∧ (e.used = [] → e.slots = [] → e.tally = [] → wOpcode e.word = opScan → e.cut = false →
            t.obj scans 1 = (s.obj scans 1 + 1) % 2 ^ 64 ∧ OnlyObjs [(scans, 1)] s t) := by
  intro q head others ran clean off noWait scans
  refine ⟨_, execStepComplete_last head others ran clean off noWait, ?_, ?_, fun used slots tally noScan => ?_,
    fun used slots tally scan uncut => ?_⟩
  · rw [State.seq_countScan, State.seq_stepDone]
    simp [Seq.leave, clean, q]
  · refine changes_of_keep ?_
    simp [State.countScan, State.stepDone]
  · refine changes_of_keep ?_
    rw [State.countScan, if_neg (by rcases noScan with h | h <;> simp [h]), State.stepDone,
      State.accountStep_of_nothing used slots tally]
    simp
  · rw [State.countScan, if_pos ⟨scan, by rw [uncut]; rfl⟩, State.stepDone, State.accountStep_of_nothing used slots tally]
    refine ⟨obj_bump_64 _ 1 (objBits_scans e.word), ?_⟩
    exact (OnlyObjs.of_eq [] rfl rfl).trans (onlyObjs_bump _ scans 1 1)

/-- The last step in the queues met data that it may not deliver. -/
theorem stepComplete_found (s : State) (p : Part) (n : Queue) (e : QStep) (r : Run) (rep : Report) :
    let q := s.seq p.val
    q.queue n.val = [e] → (∀ m, m ≠ n.val → q.queue m = []) → e.ran = true → e.cut = false →
      e.found = some rep → q.run = some r → s.SlotFree → (s.tset r.key).due = none →
      ∃ t, exec (.stepComplete p n) s = .next t ∧ (t.seq p.val).run = none
        ∧ (t.tset r.key).due = some 0x0401
        ∧ Raised s t (fun x => x.cause = rep.cause ∧ x.part = p ∧ x.ctx = r.ctx ∧ x.step.toNat = e.index % 4096) := by
  intro q head others ran uncut found run free notDue
  let u := (s.stepDone p.val n.val e []).each e.saved State.mixSaved
  have frame : Changes [.seq p.val, .dict, .vtimes, .observe, .free, .fabric, .dies, .tiers] s u :=
    changes_of_keep (by simp [u, State.stepDone])
  have useq : u.seq p.val = (s.seq p.val).leave n.val e [] :=
    (changes_of_keep (W := [.dies, .fabric, .free, .tiers]) (s := s.stepDone p.val n.val e []) (by simp [u]) (.seq p.val) (by simp)
      (by simp [Place.table])).trans (State.seq_stepDone ..)
  have urun : (u.seq p.val).run = some r := by rw [useq]; exact run
  have uset : u.tset r.key = s.tset r.key := frame (.tset r.key) (by simp) (by simp [Place.table])
  have uerrors : u.errors = s.errors := frame .errors (by simp) (by simp [Place.table])
  have uclock : u.clock = s.clock := frame .clock (by simp) (by simp [Place.table])
  obtain ⟨noRun, due, errors, clock⟩ := State.failBatch_of_empty
    (by rw [useq]; exact Seq.queue_leave_empty others) urun (by rw [uset]; exact notDue)
  have free' : (u.failBatch p.val).SlotFree := by
    unfold State.SlotFree at free ⊢
    rwa [errors, uerrors]
  refine ⟨_, execStepComplete_found head ran uncut found run, ?_, ?_, ?_⟩
  · rw [State.stopStep, State.seq_raise]
    exact noRun
  · rw [State.stopStep, State.tset_raise]
    exact due
  · refine ((State.raise_raised free' _).of_eq (errors.trans uerrors) (clock.trans uclock)).mono fun x reported => ?_
    have cause := congrArg Report.cause reported
    have part := congrArg Report.part reported
    have ctx := congrArg Report.ctx reported
    have step := congrArg (fun y => y.step.toNat) reported
    exact ⟨cause, part.trans (Fin.ofNat_val_eq_self p), ctx, step.trans (BitVec.toNat_ofNat ..)⟩

/-- Settles O25: END closes the batch step once nothing is left in the queues, and a step that its unit carried out leaves its
queue with its charges and counts. -/
theorem batchStepsEnd : Obligations.BatchStepsEnd := by
  unfold Obligations.BatchStepsEnd
  exact ⟨endStep_ends, fun s p n e => ⟨stepComplete_last s p n e, stepComplete_found s p n e,
    fun _ head unran => execStepComplete_unran head unran⟩⟩

end Sys2Proof.Machine
end

