-- ==== Sys2Proof/Proofs/PersistentWrites.lean ====
section
/-! The end of a persistent write, and the size of the object that it stores. -/

namespace Sys2Proof.Machine

/-- A stored number is cut to the size of its object. -/
theorem State.obj_accept (s : State) (who : Option Port) {idx sub : Nat} (v : Bytes) (at' : Nat) {d : ObjDef}
    (row : findObj idx sub = some d) (stored : d.access ≠ 3) (number : d.isBytes = false) (noPass : idx ≠ 0x9000) :
    (s.accept who idx sub v at').obj idx sub = d.valueIn v % 2 ^ objBits idx sub % 2 ^ 64 := by
  simp [State.accept, row, stored, number, noPass, State.obj_put]

/-- The end of the job that programs one value for a request leaves what the acceptance of the value stored. -/
theorem State.obj_jobDone (s : State) (r : Req) (idx sub : Nat) (v : Bytes) (i j : Nat) :
    (s.jobDone ⟨[(idx, sub, v)], some r, none⟩).obj i j = (s.accept (some r.port) idx sub v s.clock.now).obj i j := by
  simp [State.jobDone, State.dictReply, State.each]

/-- A write of FREE_FLOOR by the owner of port 0. -/
def freeFloorWriter : Req := ⟨0, .ctrl, 7, 0, 1, 0, true, true, true, 0⟩

/-- Port 0 is UP, and a write of FREE_FLOOR is being programmed with five bytes, one more than the object holds: the value
is 2^32. -/
def programmingLong : State := { State.reset with
  ports := [(0, { PortSt.start with life := .up, node := 7, host := 1, credits := [200, 200, 200] })]
  dict := { Dict.start with jobs := [⟨[(0x4060, 0x0B, [0, 0, 0, 0, 1])], some freeFloorWriter, none⟩] } }

theorem roomy_programmingLong : (programmingLong.port 0).Roomy := ⟨rfl, rfl, by decide, by decide⟩

/-- FREE_FLOOR is a persistent number of 32 bits, and its row masks no bit of the value. -/
theorem findObj_freeFloor : ∃ d, findObj 0x4060 0x0B = some d ∧ d.persist = true ∧ d.access = 2 ∧ d.isBytes = false
    ∧ Nat.land (numOf [0, 0, 0, 0, 1]) d.mask = 2 ^ 32 ∧ objBits 0x4060 0x0B = 32 := by
  have row : (findObj 0x4060 0x0B).any (fun d => decide (d.persist = true ∧ d.access = 2 ∧ d.isBytes = false
      ∧ Nat.land (numOf [0, 0, 0, 0, 1]) d.mask = 2 ^ 32 ∧ objBits 0x4060 0x0B = 32)) = true := by decide +kernel
  obtain ⟨d, found, holds⟩ := Option.any_eq_true .. |>.mp row
  exact ⟨d, found, of_decide_eq_true holds⟩

/-- Refutes O18: the clause about the end of a persistent write demands the written value under its row's mask, for a write
of any length. A stored value is cut to the size of its object: of the bytes 0, 0, 0, 0, 1 FREE_FLOOR keeps the first four. -/
theorem not_valuesAreStored : ¬ Obligations.ValuesAreStored := by
  unfold Obligations.ValuesAreStored
  rintro ⟨-, -, programmed, -⟩
  obtain ⟨d, found, persist, access, number, value, bits⟩ := findObj_freeFloor
  obtain ⟨t, run, -, demanded, -⟩ := (programmed programmingLong freeFloorWriter 0x4060 0x0B [0, 0, 0, 0, 1]
    roomy_programmingLong (by decide) (by decide)).1 d found persist (.inl access)
  have stored : t.obj 0x4060 0x0B = 0 := by
    cases run
    exact (State.obj_jobDone ..).trans ((State.obj_accept _ _ _ _ found (by omega) number (by decide)).trans
      (by simp only [ObjDef.valueIn, number, bits, value]; rfl))
  have written : t.obj 0x4060 0x0B = 2 ^ 32 := (demanded number).trans value
  omega

end Sys2Proof.Machine
end

