-- ==== Sys2Proof/Proofs/BatchStart.lean ====
section
/-! The start of a batch step once a partition's units are idle, and the charges before it. -/

namespace Sys2Proof.Machine

/-- An EMBED in context 0 of partition 0 that has started, and of which no batch step has begun. -/
def pendingEmbed : TaskSet := { TaskSet.none with
  regs := [(0, BitVec.ofNat 64 (0x31 * 2 ^ 56))], life := .taken, started := true }

/-- A step left over in a queue, with a use of resource 5234659: the counter of the partition with the number one above, which
the charge of a use counts in, is 0x7000:4, the setting of the arithmetic clock. -/
def strayUse : QStep := { QStep.issued 0 0 0 0 with used := [(objKey 0x7000 4 - objKey 0x2020 0 - 1, 0)] }

/-- Partition 0 between two batch steps, with 10 us left of its move period: the last owner was port 1, and a command of
context 0, of port 0, is pending. -/
def chargedAway : State := { State.reset with
  parts := [(0, { Partition.none with life := .running })]
  ctxs := [(0, { Context.none with life := .loaded, table := { Banks.none with active := { Bank.none with full := true } },
                                   queue := [0] })]
  seqs := [(0, { Seq.none with queues := [(0, [strayUse])], lastOwner := some 1, periodEnd := 1000, periodEpoch := 1 })]
  sets := [(0, pendingEmbed)] }

/-- The batch step at the head of context 0 fits before the charges, with the zeroing of the stores counted. -/
theorem fits_chargedAway : chargedAway.headCtx 0 0 = some 0 ∧ (∀ y, y < 4 → y ≠ 0 → chargedAway.headCtx 0 y = none)
    ∧ chargedAway.headOf 0 0 = some 0 ∧ chargedAway.fits 0 0 0 = true := by decide +kernel

/-- Nothing is selected once the stray use is charged. -/
theorem run_partitionUnitsIdle_chargedAway {t : State}
    (h : exec (.partitionUnitsIdle 0 0) chargedAway = .next t) : (t.seq 0).run = none := by
  have idle : (match exec (.partitionUnitsIdle 0 0) chargedAway with
      | .next u => (u.seq 0).run
      | _ => none) = none := by decide +kernel
  rwa [h] at idle

/-- Refutes O26: the clause about the start of a batch step judges whether it fits in the state before the drained steps are
charged. Their uses are any list of resource numbers, and the charge of a number that stands for no resource counts in an object
that is none of the partition's counters: here it sets the arithmetic clock, and the zeroing of the stores no longer fits. -/
theorem not_batchStepsStart : ¬ Obligations.BatchStepsStart := by
  unfold Obligations.BatchStepsStart
  rintro ⟨starts, -⟩
  obtain ⟨head, others, front, fits⟩ := fits_chargedAway
  obtain ⟨t, run, ⟨r, started, -⟩, -⟩ := starts chargedAway 0 0 0 0 0 rfl rfl (by decide) (by decide) (by decide) head
    (by decide) others front fits rfl rfl
  rw [show (0 : Part).val = 0 from rfl, run_partitionUnitsIdle_chargedAway run] at started
  cases started

end Sys2Proof.Machine
end

