-- ==== Sys2Proof/Proofs/CutSteps.lean ====
section
/-! What cutting steps leaves unchanged, and what it does to the queues: the ground for the end of late work and for missed
deadlines. -/

namespace Sys2Proof.Machine

/-! ### The objects below index 0x3000 -/

/-- The objects below index 0x3000, those of the clock and of the partitions, hold what they held. -/
structure State.SameLow (s t : State) : Prop where
  obj : ∀ i j, objKey i j < objKey 0x3000 0 → t.obj i j = s.obj i j

/-- The key of an object from index 0x3000 on. -/
theorem le_objKey {a b : Nat} (h : 0x3000 ≤ a) : objKey 0x3000 0 ≤ objKey a b := by
  unfold objKey
  omega

section
variable {s t u : State}

theorem State.SameLow.refl (s : State) : s.SameLow s := ⟨fun _ _ _ => rfl⟩

theorem State.SameLow.trans (h : s.SameLow t) (h' : t.SameLow u) : s.SameLow u :=
  ⟨fun i j low => (h'.obj i j low).trans (h.obj i j low)⟩

theorem State.SameLow.each {α : Type} {f : State → α → State} {l : List α}
    (h : ∀ (s : State), ∀ a ∈ l, s.SameLow (f s a)) (s : State) :
    s.SameLow (s.each l f) := by
  induction l generalizing s with
  | nil => exact .refl s
  | cons a l ih => exact (h s a (by simp)).trans (ih (fun t b hb => h t b (by simp [hb])) (f s a))

/-- An action that leaves the dictionary and the power alone leaves every object. -/
theorem State.SameLow.of_keep {W : List Place} (h : keep W t = keep W s) (hdict : .dict ∉ W) (hpower : .power ∉ W) :
    s.SameLow t :=
  have frame := changes_of_keep h
  ⟨fun i j _ => State.obj_congr (by rw [show t.dict = s.dict from frame .dict hdict hdict])
    (by rw [show t.power = s.power from frame .power hpower hpower]) i j⟩

theorem State.SameLow.put (h : s.SameLow t) {a : Nat} (b v : Nat) (high : objKey 0x3000 0 ≤ objKey a b) :
    s.SameLow (t.put a b v) := by
  refine ⟨fun i j low => ?_⟩
  rw [State.obj_put, if_neg (by omega)]
  exact h.obj i j low

theorem State.SameLow.bump (h : s.SameLow t) {a : Nat} (b n : Nat) (high : 0x3000 ≤ a) : s.SameLow (t.bump a b n) :=
  h.put _ _ (le_objKey high)

theorem State.SameLow.bumpSat (h : s.SameLow t) {a : Nat} (b n : Nat) (high : 0x3000 ≤ a) : s.SameLow (t.bumpSat a b n) :=
  h.put _ _ (le_objKey high)

theorem State.SameLow.ite {c : Prop} [Decidable c] (ht : s.SameLow t) (hu : s.SameLow u) : s.SameLow (if c then t else u) := by
  split
  · exact ht
  · exact hu

theorem State.SameLow.freezeSource (h : s.SameLow t) (n at' : Nat) : s.SameLow (t.freezeSource n at') :=
  h.trans ⟨fun i j low => State.freezeSource_obj t n i j at' (by unfold objKey at *; omega) (by unfold objKey at *; omega)⟩

theorem State.SameLow.countUncorr (h : s.SameLow t) (rep : Report) : s.SameLow (t.countUncorr rep) := by
  unfold State.countUncorr
  dsimp only
  have row : ∀ {i : Nat} (a : Nat), 0x3000 ≤ i → s.SameLow ((t.bump i 3 1).badRow a) := fun a high =>
    (h.bump 3 1 high).trans ⟨fun _ _ _ => by simp [State.badRow]⟩
  exact .ite h (.ite (row _ (by omega)) (.ite (row _ (by omega)) (.ite (h.bump 3 1 (by omega)) h)))

theorem State.SameLow.placeRecord (h : s.SameLow t) (r : Rec) : s.SameLow (t.placeRecord r) := by
  unfold State.placeRecord
  dsimp only
  generalize t.errors.ring.get _ _ = old
  have unread : s.SameLow (if old.wasRead = true then t else t.bumpSat 0x8000 2 1) := .ite h (h.bumpSat 2 1 (by omega))
  generalize (if old.wasRead = true then t else t.bumpSat 0x8000 2 1) = v at unread ⊢
  generalize (_ || _ : Bool) = copy
  generalize (_ && _ : Bool) = late
  have uncopied : s.SameLow (if copy = true then v else v.bumpSat 0x8000 3 1) := .ite unread (unread.bumpSat 3 1 (by omega))
  generalize (if copy = true then v else v.bumpSat 0x8000 3 1) = v at uncopied ⊢
  have counted : s.SameLow (if late = true then v.bumpSat 0x8000 3 1 else v) := .ite (uncopied.bumpSat 3 1 (by omega)) uncopied
  exact counted.trans ⟨fun _ _ _ => by rw [State.obj_setErrors]⟩

theorem State.SameLow.capture (h : s.SameLow t) (trigger p seq at' : Nat) : s.SameLow (t.capture trigger p seq at').1 := by
  have far : (∀ a, t.observe.lastDump = some a → a + dumpSpacing ≤ at') → s.SameLow (t.capture trigger p seq at').1 := by
    intro far
    obtain ⟨image, eq⟩ := State.capture_far trigger p seq far
    rw [eq]
    exact ((h.trans ⟨fun _ _ _ => by simp⟩).bumpSat 2 1 (by omega)).freezeSource 1 at'
  cases last : t.observe.lastDump with
  | none => exact far (by rw [last]; nofun)
  | some a =>
    by_cases near : at' < a + dumpSpacing
    · rw [State.capture_near trigger p seq last near]
      exact h.bumpSat 3 1 (by omega)
    · exact far (by rintro b hb; rw [last] at hb; cases hb; omega)

theorem State.SameLow.raiseAs (h : s.SameLow t) (rep : Report) (escalated : Bool) (related : BitVec 32) :
    s.SameLow (t.raiseAs rep escalated related) := by
  unfold State.raiseAs
  dsimp only
  generalize t.errors.ring.get _ _ = slot
  have counted : s.SameLow (t.draw.countUncorr rep) := (h.trans ⟨fun _ _ _ => by simp⟩).countUncorr rep
  have frozen : s.SameLow (if slot.open = true ∨ 2 ≤ rep.severity.toNat then
      (t.draw.countUncorr rep).freezeSource 2 t.timeNow else t.draw.countUncorr rep) := .ite (counted.freezeSource ..) counted
  generalize (if slot.open = true ∨ 2 ≤ rep.severity.toNat then _ else _ : State) = v at frozen ⊢
  refine .ite ?_ (.ite ?_ ?_)
  · have lost : s.SameLow (v.bumpSat 0x8000 2 1) := frozen.bumpSat 2 1 (by omega)
    have absorbed : s.SameLow ((v.bumpSat 0x8000 2 1).absorbAll (t.errors.next + 1)) :=
      lost.trans ⟨fun _ _ _ => by simp [State.absorbAll]⟩
    exact (absorbed.placeRecord _).capture ..
  · exact (frozen.placeRecord _).capture ..
  · exact frozen.placeRecord _

theorem State.SameLow.raise (h : s.SameLow t) (rep : Report) : s.SameLow (t.raise rep) := h.raiseAs ..

theorem State.SameLow.trace (h : s.SameLow t) (p source kind tag step ctx arg arg2 : Nat) :
    s.SameLow (t.trace p source kind tag step ctx arg arg2) := by
  unfold State.trace
  dsimp only
  refine .ite h (.ite ?_ ?_)
  · exact State.SameLow.bump (h.trans ⟨fun _ _ _ => by simp⟩) 5 1 (by omega)
  · exact State.SameLow.bump (h.trans ⟨fun _ _ _ => by simp⟩) 4 1 (by omega)

/-- What a step counts lies in the objects of chapters 10 to 12. -/
theorem State.SameLow.countStep (h : s.SameLow t) (e : QStep) : s.SameLow (t.countStep e) := by
  refine h.trans (.each (fun t u hu => ?_) t)
  have high : 0x3000 ≤ u.1 / 256 := by
    have := of_decide_eq_true (List.mem_filter.mp hu).2
    omega
  dsimp only
  generalize (if (e.cut && alongKey u.1) = true then _ else _ : Nat) = n
  have counted : t.SameLow (if objBits (u.1 / 256) (u.1 % 256) = 32 then t.bumpSat (u.1 / 256) (u.1 % 256) n
      else t.bump (u.1 / 256) (u.1 % 256) n) := .ite ((State.SameLow.refl t).bumpSat _ n high) ((State.SameLow.refl t).bump _ n high)
  exact .ite (counted.trans ⟨fun _ _ _ => by simp⟩) counted

end

/-! ### The queues and the frame -/

/-- A step of a queue once the steps that satisfy `f` are cut. -/
def QStep.cutIf (f : QStep → Bool) (e : QStep) : QStep :=
  if f e then { e with cut := true, ran := true, saved := [], slots := [], found := none, tally := [] } else e

/-- A sequencer once the steps that satisfy `f` are cut. -/
def Seq.cutAll (q : Seq) (f : QStep → Bool) : Seq := { q with queues := q.queues.mapVals fun _ l => l.map (QStep.cutIf f) }

/-- A key that a table does not hold reads as the default. -/
theorem Tab.get_of_has_eq_false {α : Type} (t : Tab α) (d : α) (k : Nat) (h : t.has k = false) : t.get d k = d := by
  induction t with
  | nil => rfl
  | cons e t ih =>
    obtain ⟨i, w⟩ := e
    by_cases hi : i = k
    · simp [Tab.has, hi] at h
    · simp only [Tab.has, Tab.get, if_neg hi] at h ⊢
      exact ih h

theorem Seq.queue_cutAll (q : Seq) (f : QStep → Bool) (m : Nat) : (q.cutAll f).queue m = (q.queue m).map (QStep.cutIf f) := by
  have entry : (q.cutAll f).queue m = if q.queues.has m then (q.queue m).map (QStep.cutIf f) else [] :=
    Tab.get_mapVals q.queues [] (fun _ l => l.map (QStep.cutIf f)) m
  rw [entry]
  split
  · rfl
  next h =>
    have empty : q.queue m = [] := Tab.get_of_has_eq_false _ _ _ (by simpa using h)
    rw [empty, List.map_nil]

theorem QStep.cut_cutIf_true (e : QStep) : (e.cutIf fun _ => true).cut = true := rfl

/-- The places that cutting steps writes, besides the sequencer. -/
def Place.cut : List Place := [.errors, .dict, .observe, .dies, .fabric, .free, .tiers]

section
variable (s : State) (p : Nat) (f : QStep → Bool)

/-- Cutting steps changes its places, and no object of a partition, before it marks the steps in the queues. -/
theorem State.cutSteps_eq : ∃ v : State, keep Place.cut v = keep Place.cut s ∧ s.SameLow v
    ∧ s.cutSteps p f = v.setSeq p ((v.seq p).cutAll f) := by
  unfold State.cutSteps
  dsimp only
  generalize kFirst _ _ _ = hit
  have mixes (t : State) (e : QStep) : keep Place.cut (t.each e.saved State.mixSaved) = keep Place.cut t :=
    keep_each _ _ _ fun t v => by simp [Place.cut]
  refine ⟨_, ?_, ?_, rfl⟩
  · have mixed : keep Place.cut (hit.foldl (fun s e => s.each e.saved State.mixSaved) s) = keep Place.cut s :=
      keep_foldl s hit _ mixes
    generalize hit.foldl _ s = v at mixed ⊢
    rw [← mixed]
    split <;> simp [Place.cut]
  · have mixed : s.SameLow (hit.foldl (fun s e => s.each e.saved State.mixSaved) s) :=
      .each (fun t e _ => .each (fun t v _ => .of_keep (W := [.dies, .fabric, .free, .tiers]) (by simp) (by simp) (by simp)) t) s
    generalize hit.foldl _ s = v at mixed ⊢
    have noted : s.SameLow (v.each (hit.filterMap QStep.found) State.noteDropped) :=
      mixed.trans (.each (fun t rep _ => (State.SameLow.refl t).raise _) v)
    generalize v.each _ _ = v at noted ⊢
    have cleared := noted.trans (State.SameLow.each (l := v.squaresOf p) (s := v) (f := fun s d =>
      s.setDie d { s.die d with
        tiles := (s.die d).tiles.filter fun t => !hit.any fun e => decide (e.issue = t.issue)
        staging := (s.die d).staging.filter fun h => !hit.any fun e => decide (e.issue = h.tile.issue) })
      fun t d _ => ⟨fun i j _ => by simp⟩)
    generalize State.each _ (v.squaresOf p) _ = v at cleared ⊢
    have counted : s.SameLow (v.each hit fun s e =>
        ((s.cutWaits p e).classSlots { e with cut := true }).countStep { e with cut := true }) :=
      cleared.trans (.each (fun t e _ => .countStep (.of_keep (W := [.free, .observe]) (by simp) (by simp) (by simp)) _) v)
    generalize State.each v hit _ = v at counted ⊢
    split
    · exact counted
    · exact counted.trans (.each (fun t e _ => (State.SameLow.refl t).trace ..) v)

theorem State.sameLow_cutSteps : s.SameLow (s.cutSteps p f) := by
  obtain ⟨v, -, low, eq⟩ := State.cutSteps_eq s p f
  rw [eq]
  exact low.trans ⟨fun i j _ => by simp⟩

theorem State.seq_cutSteps : (s.cutSteps p f).seq p = (s.seq p).cutAll f := by
  obtain ⟨v, kept, -, eq⟩ := State.cutSteps_eq s p f
  have same : v.seq p = s.seq p := changes_of_keep kept (.seq p) (by simp [Place.cut]) (by simp [Place.cut, Place.table])
  rw [eq, State.seq_setSeq_same, same]

theorem State.changes_cutSteps : Changes (.seq p :: Place.cut) s (s.cutSteps p f) :=
  changes_of_keep (by simp [Place.cut])

@[simp] theorem State.tset_cutSteps (k : Nat) : (s.cutSteps p f).tset k = s.tset k :=
  State.changes_cutSteps s p f (.tset k) (by simp [Place.cut]) (by simp [Place.cut, Place.table])

@[simp] theorem State.ctx_cutSteps (q n : Nat) : (s.cutSteps p f).ctx q n = s.ctx q n :=
  State.changes_cutSteps s p f (.ctx (q * 16 + n)) (by simp [Place.cut]) (by simp [Place.cut, Place.table])

end

/-! ### The end of a late batch step (02 R50, R53) -/

/-- The overrun of partition `p` at boundary `b` is counted and reported, with the step `first`. -/
def State.countOverrun (s : State) (p b first : Nat) : State :=
  (s.bump (0x2020 + p) 8 1).put (0x2020 + p) 0x0C (field 32 32 b + field 12 0 first)

/-- The command of a set is to end with TICK_OVERRUN, unless it is to end already. -/
def State.endLate (s : State) (k first : Nat) : State :=
  if (s.tset k).due = none then s.postLater k stOverrun (s.tset k).published first else s

theorem State.tset_endLate (s : State) (k first j : Nat) : (s.endLate k first).tset j
    = if j = k ∧ (s.tset k).due = none
      then { s.tset k with due := some stOverrun, count := (s.tset k).published, dueStep := first } else s.tset j := by
  unfold State.endLate
  split <;> simp [State.tset_postLater, *]

@[simp] theorem State.seq_endLate (s : State) (k first p : Nat) : (s.endLate k first).seq p = s.seq p := by
  unfold State.endLate
  split <;> simp

@[simp] theorem State.ctx_endLate (s : State) (k first p n : Nat) : (s.endLate k first).ctx p n = s.ctx p n := by
  unfold State.endLate
  split <;> simp

@[simp] theorem State.obj_endLate (s : State) (k first i j : Nat) : (s.endLate k first).obj i j = s.obj i j := by
  unfold State.endLate
  split <;> simp

theorem State.keep_endLate {W : List Place} (s : State) (k first : Nat) (h : .tset k ∈ W) : keep W (s.endLate k first) = keep W s := by
  unfold State.endLate
  split <;> simp [h]

/-- Dropping the batch step in progress changes the sequencer and the context. -/
theorem State.keep_dropRun_of_run {W : List Place} {s : State} {p : Nat} {r : Run} (run : (s.seq p).run = some r)
    (hseq : .seq p ∈ W) (hctx : .ctx (p * 16 + r.ctx.val) ∈ W) : keep W (s.dropRun p) = keep W s := by
  rw [State.dropRun_of_run run]
  simp [hseq, hctx]

/-- The objects 8 and 0x0C of a partition's counters are numbers of 64 bits, and lie below index 0x3000. -/
theorem objBits_counters (p : Part) : objBits (0x2020 + p.val) 7 = 64 ∧ objBits (0x2020 + p.val) 8 = 64
    ∧ objBits (0x2020 + p.val) 0x0C = 64 := by
  revert p
  decide

theorem objKey_counters_low (p : Part) {j : Nat} (h : j < 256) : objKey (0x2020 + p.val) j < objKey 0x3000 0 := by
  unfold objKey
  omega

theorem State.seq_lateCut (s : State) (p k b first : Nat) :
    ((((s.countOverrun p b first).cutSteps p fun _ => true).endLate k first).seq p) = (s.seq p).cutAll fun _ => true := by
  rw [State.seq_endLate, State.seq_cutSteps]
  simp [State.countOverrun]

section
variable {s : State} {p : Part} {r : Run} (run : (s.seq p.val).run = some r) (b step : Nat)
include run

/-- An overrun is counted, every step is cut, the command ends, and the batch step is dropped. -/
theorem State.overrun_of_run : s.overrun p.val b step
    = (((s.countOverrun p.val b (r.missed.getD step)).cutSteps p.val fun _ => true).endLate r.key (r.missed.getD step)).dropRun
      p.val := by
  unfold State.overrun
  rw [run]
  dsimp only
  cases r.missed <;> rfl

theorem State.seq_overrun : (s.overrun p.val b step).seq p.val = { (s.seq p.val).cutAll fun _ => true with run := none } := by
  rw [State.overrun_of_run run, State.dropRun_of_run (r := r) (by rw [State.seq_lateCut]; exact run), State.seq_lateCut,
    State.seq_setSeq_same]

theorem State.queue_overrun (m : Nat) :
    ((s.overrun p.val b step).seq p.val).queue m = ((s.seq p.val).queue m).map (QStep.cutIf fun _ => true) := by
  rw [State.seq_overrun run]
  exact Seq.queue_cutAll ..

theorem State.tset_overrun (k : Nat) : (s.overrun p.val b step).tset k = if k = r.key ∧ (s.tset r.key).due = none
    then { s.tset r.key with due := some stOverrun, count := (s.tset r.key).published, dueStep := r.missed.getD step }
    else s.tset k := by
  rw [State.overrun_of_run run, State.dropRun_of_run (r := r) (by rw [State.seq_lateCut]; exact run)]
  simp [State.tset_endLate, State.countOverrun]

theorem State.ctx_overrun : (s.overrun p.val b step).ctx p.val r.ctx.val = (s.ctx p.val r.ctx.val).retire := by
  rw [State.overrun_of_run run, State.dropRun_of_run (r := r) (by rw [State.seq_lateCut]; exact run)]
  simp [State.countOverrun]

theorem State.obj_overrun_of_low {j : Nat} (low : j < 256) : (s.overrun p.val b step).obj (0x2020 + p.val) j
    = (s.countOverrun p.val b (r.missed.getD step)).obj (0x2020 + p.val) j := by
  rw [State.overrun_of_run run, State.dropRun_of_run (r := r) (by rw [State.seq_lateCut]; exact run)]
  simp only [State.obj_setSeq, State.obj_setCtx, State.obj_endLate]
  exact (State.sameLow_cutSteps ..).obj _ _ (objKey_counters_low p low)

theorem State.overruns_overrun : (s.overrun p.val b step).obj (0x2020 + p.val) 8 = (s.obj (0x2020 + p.val) 8 + 1) % 2 ^ 64 := by
  rw [State.obj_overrun_of_low run b step (by decide), State.countOverrun, State.obj_put,
    if_neg (by rw [objKey_inj (by decide) (by decide)]; omega)]
  exact obj_bump_64 _ _ (objBits_counters p).2.1

theorem State.lastOverrun_overrun :
    (s.overrun p.val b step).obj (0x2020 + p.val) 0x0C = field 32 32 b + field 12 0 (r.missed.getD step) := by
  rw [State.obj_overrun_of_low run b step (by decide), State.countOverrun, State.obj_put, if_pos rfl, (objBits_counters p).2.2]
  simp only [field]
  omega

theorem State.changes_overrun : Changes [.seq p.val, .tset r.key, .ctx (p.val * 16 + r.ctx.val), .dict, .fabric, .tiers, .dies,
    .errors, .observe, .free] s (s.overrun p.val b step) := by
  refine changes_of_keep ?_
  rw [State.overrun_of_run run, State.keep_dropRun_of_run (r := r) (by rw [State.seq_lateCut]; exact run) (by simp)
    (by simp), State.keep_endLate _ _ _ (by simp)]
  simp [State.countOverrun]

end

end Sys2Proof.Machine
end

