-- ==== Sys2Proof/Proofs/LateWork.lean ====
section
/-! TICK_OVERRUN and the hang watchdog (O28). -/

namespace Sys2Proof.Machine

/-! ### TICK_OVERRUN -/

/-- TICK_OVERRUN of a batch step whose move period ends with the running tick. -/
theorem execTickOverrun_late {s : State} {p : Part} {r : Run} (run : (s.seq p.val).run = some r)
    (late : (s.seq p.val).periodEnd ≤ s.clock.boundaryAt + s.tickUnits) :
    exec (.tickOverrun p) s = .next (s.overrun p.val (s.tick + 1) ((s.seq p.val).inProgress r)) := by
  show execTickOverrun p s = _
  unfold execTickOverrun
  dsimp only
  rw [run]
  exact if_pos late

theorem execTickOverrun_early {s : State} {p : Part} (early : s.clock.boundaryAt + s.tickUnits < (s.seq p.val).periodEnd) :
    exec (.tickOverrun p) s = .next s := by
  show execTickOverrun p s = _
  unfold execTickOverrun
  dsimp only
  split
  · rfl
  · exact if_neg (by omega)

theorem tickOverrun_ends (s : State) (p : Part) (r : Run) (run : (s.seq p.val).run = some r)
    (late : (s.seq p.val).periodEnd ≤ s.clock.boundaryAt + s.tickUnits) :
    let first := r.missed.getD ((s.seq p.val).inProgress r)
    ∃ t, exec (.tickOverrun p) s = .next t ∧ (t.seq p.val).run = none
      ∧ (∀ m, m < 32 → ∀ x, x ∈ (t.seq p.val).queue m → x.cut = true)
      ∧ ((s.tset r.key).due = none → t.tset r.key = { s.tset r.key with
          due := some stOverrun, count := (s.tset r.key).published, dueStep := first })
      ∧ ((s.tset r.key).due ≠ none → t.tset r.key = s.tset r.key)
      ∧ t.ctx p.val r.ctx.val = (s.ctx p.val r.ctx.val).retire
      ∧ t.obj (0x2020 + p.val) 8 = (s.obj (0x2020 + p.val) 8 + 1) % 2 ^ 64
      ∧ t.obj (0x2020 + p.val) 0x0C = field 32 32 (s.tick + 1) + field 12 0 first
      ∧ Changes [.seq p.val, .tset r.key, .ctx (p.val * 16 + r.ctx.val), .dict, .fabric, .tiers, .dies, .errors, .observe,
          .free] s t := by
  refine ⟨_, execTickOverrun_late run late, by rw [State.seq_overrun run], fun m _ x mem => ?_, fun due => ?_, fun due => ?_,
    State.ctx_overrun run _ _, State.overruns_overrun run _ _, State.lastOverrun_overrun run _ _, State.changes_overrun run _ _⟩
  · rw [State.queue_overrun run] at mem
    obtain ⟨e, -, rfl⟩ := List.mem_map.mp mem
    exact QStep.cut_cutIf_true e
  · rw [State.tset_overrun run, if_pos ⟨rfl, due⟩]
  · rw [State.tset_overrun run, if_neg fun h => due h.2]

/-! ### The dumps (19 R474) -/

/-- The time of the last dump and the number of dumps are as they were. -/
def State.SameDumps (s t : State) : Prop := t.observe.lastDump = s.observe.lastDump ∧ t.observe.dumpNo = s.observe.dumpNo

theorem State.sameDumps_passOn (s : State) (whole : Bool) : s.SameDumps (s.passOn whole) := by
  have each (ids : List Nat) (l : List Nat) (s : State) : s.SameDumps (s.each l fun s _ => s.passRead ids) :=
    State.each_rel (R := State.SameDumps) (fun _ => ⟨rfl, rfl⟩) (fun _ _ _ h h' => ⟨h'.1.trans h.1, h'.2.trans h.2⟩)
      (fun s _ => s.passRead ids) (fun _ _ => ⟨rfl, rfl⟩) l s
  unfold State.passOn
  split
  · exact ⟨rfl, rfl⟩
  · exact each ..

theorem State.sameDumps_freezeSource (s : State) (n t : Nat) : s.SameDumps (s.freezeSource n t) := by
  unfold State.freezeSource State.freezeCounters
  dsimp only
  split
  · split
    · exact ⟨rfl, rfl⟩
    · exact State.sameDumps_passOn s false
  · exact ⟨rfl, rfl⟩

/-- Was the last dump taken less than 10 ms before `t`? -/
def State.dumpedNear (s : State) (t : Nat) : Prop := ∃ a, s.observe.lastDump = some a ∧ t < a + dumpSpacing

theorem State.changes_capture (s : State) (trigger p seq t : Nat) :
    Changes [.dict, .errors, .free, .observe] s (s.capture trigger p seq t).1 := changes_of_keep (by simp)

theorem State.capture_of_near {s : State} {t : Nat} (trigger p seq : Nat) (near : s.dumpedNear t) :
    (s.capture trigger p seq t).2 = false ∧ (s.capture trigger p seq t).1.errors = s.errors
      ∧ s.SameDumps (s.capture trigger p seq t).1 := by
  obtain ⟨a, last, soon⟩ := near
  refine ⟨?_, ?_, ?_⟩
  · simp [State.capture, last, soon]
  · rw [State.capture_near trigger p seq last soon]
    rfl
  · rw [State.capture_near trigger p seq last soon]
    exact ⟨rfl, rfl⟩

theorem State.capture_of_far {s : State} {t : Nat} (trigger p seq : Nat) (far : ¬ s.dumpedNear t) :
    (s.capture trigger p seq t).2 = true
      ∧ (∃ image, (s.capture trigger p seq t).1.errors.dumps = (s.errors.dumps ++ [image]).drop (s.errors.dumps.length - 3))
      ∧ (s.capture trigger p seq t).1.observe.lastDump = some t
      ∧ (s.capture trigger p seq t).1.observe.dumpNo = s.observe.dumpNo + 1 := by
  have late : ∀ a, s.observe.lastDump = some a → a + dumpSpacing ≤ t := fun a last =>
    Nat.le_of_not_lt fun soon => far ⟨a, last, soon⟩
  obtain ⟨image, eq⟩ := State.capture_far trigger p seq late
  refine ⟨?_, ⟨image, ?_⟩, ?_, ?_⟩
  · unfold State.capture
    cases last : s.observe.lastDump with
    | none => rfl
    | some a => simp [Nat.not_lt.mpr (late a last)]
  · rw [eq, State.freezeSource_errors]
    rfl
  · rw [eq, (State.sameDumps_freezeSource ..).1]
    rfl
  · rw [eq, (State.sameDumps_freezeSource ..).2]
    rfl

/-- A record of no device severity, with room in its slot, takes no dump. -/
theorem State.dumps_raise {s : State} (room : s.SlotFree) {rep : Report} (mild : rep.severity.toNat < 4)
    (nowhere : rep.cause.toNat ≠ causeMem ∧ rep.cause.toNat ≠ causeScrub) (stated : detailStated rep.cause.toNat = true) :
    (s.raise rep).errors.dumps = s.errors.dumps ∧ s.SameDumps (s.raise rep) := by
  have quiet := room.get (d := ⟨0, 0, 0, .done, false, false, true, 0, rep⟩) rfl
  have counted : s.draw.countUncorr rep = s.draw := if_pos nowhere
  have placed (t : State) (r : Rec) : (t.placeRecord r).errors.dumps = t.errors.dumps ∧ t.SameDumps (t.placeRecord r) := by
    have same : (t.placeRecord r).observe = t.observe :=
      changes_of_keep (W := [.dict, .errors]) (by simp) .observe (by simp) (by simp)
    refine ⟨?_, by rw [same], by rw [same]⟩
    unfold State.placeRecord
    dsimp only
    split <;> split <;> split <;> rfl
  rw [State.raise, if_pos stated]
  unfold State.raiseAs
  dsimp only
  rw [counted, quiet, if_neg (by nofun), if_neg (by omega)]
  refine ⟨(placed _ _).1.trans ?_, (placed _ _).2.1.trans ?_, (placed _ _).2.2.trans ?_⟩
  · split
    · rw [State.freezeSource_errors]; rfl
    · rfl
  · split
    · exact (State.sameDumps_freezeSource ..).1
    · rfl
  · split
    · exact (State.sameDumps_freezeSource ..).2
    · rfl

/-! ### The hang watchdog (02 R52) -/

/-- The watchdog's dump, with the number that its record gives: the dump's, or all ones where none was taken. -/
def State.hangDump (s : State) (p : Part) : State × Nat :=
  let v := s.setSeq p.val { s.seq p.val with stuck := 8, stepped := false }
  let c := v.capture 1 p.val s.errors.next.toNat s.clock.now
  (c.1.setSeq p.val { c.1.seq p.val with stuck := 0 }, if c.2 then s.observe.dumpNo else 0xFFFFFFFF)

/-- What the watchdog reports of context `n` in step `step`. -/
def State.hangReport (s : State) (p : Part) (n step number : Nat) : Report :=
  { repAbout (report causeHang 8 p.val 2 stTornDown) p (Fin.ofNat 16 n) with
    portValid := true, port := (s.ctx p.val n).owner, step := BitVec.ofNat 12 step, detail := BitVec.ofNat 128 number }

section
variable {s : State} {p : Part} (n step number : Nat)

theorem State.cause_hangReport : (s.hangReport p n step number).cause = 0x0040 := rfl

theorem State.severity_hangReport : (s.hangReport p n step number).severity = 2 := rfl

theorem State.changes_hangDump : Changes [.seq p.val, .errors, .dict, .observe, .free] s (s.hangDump p).1 :=
  changes_of_keep (by simp [State.hangDump])

theorem State.ctx_hangDump (m : Nat) : (s.hangDump p).1.ctx p.val m = s.ctx p.val m :=
  State.changes_hangDump (.ctx (p.val * 16 + m)) (by simp) (by simp [Place.table])

theorem State.clock_hangDump : (s.hangDump p).1.clock = s.clock :=
  State.changes_hangDump .clock (by simp) (by simp [Place.table])

theorem State.ring_hangDump : (s.hangDump p).1.errors.ring = s.errors.ring ∧ (s.hangDump p).1.errors.next = s.errors.next :=
  State.capture_ring ..

/-- What the watchdog does once it fires. -/
theorem hangWatchdog_fires (room : s.SlotFree) (exec_eq : exec (.hangWatchdog p) s
      = .next ((s.hangDump p).1.raise ((s.hangDump p).1.hangReport p n step (s.hangDump p).2))) :
    let near := ∃ a, s.observe.lastDump = some a ∧ s.clock.now < a + 1000000
    ∃ t, exec (.hangWatchdog p) s = .next t ∧ (t.seq p.val).stuck = 0
      ∧ (¬ near → t.observe.lastDump = some s.clock.now ∧ t.observe.dumpNo = s.observe.dumpNo + 1
          ∧ ∃ image, t.errors.dumps = (s.errors.dumps ++ [image]).drop (s.errors.dumps.length - 3))
      ∧ (near → t.errors.dumps = s.errors.dumps ∧ t.observe.lastDump = s.observe.lastDump)
      ∧ Raised s t (fun rep => rep.cause = 0x0040 ∧ rep.severity = 2 ∧ rep.partValid = true ∧ rep.part = p
          ∧ rep.ctx = Fin.ofNat 16 n ∧ rep.portValid = true ∧ rep.port = (s.ctx p.val n).owner
          ∧ rep.step = BitVec.ofNat 12 step
          ∧ (¬ near → rep.detail = BitVec.ofNat 128 s.observe.dumpNo) ∧ (near → rep.detail = 0xFFFFFFFF))
      ∧ Changes [.seq p.val, .errors, .dict, .observe, .free] s t := by
  obtain ⟨ring, next⟩ := State.ring_hangDump (s := s) (p := p)
  have room' : (s.hangDump p).1.SlotFree := by
    unfold State.SlotFree Errors.slot at *
    rwa [ring, next]
  obtain ⟨dumps, lastDump, dumpNo⟩ := State.dumps_raise room' (rep := (s.hangDump p).1.hangReport p n step (s.hangDump p).2)
    (by rw [State.severity_hangReport]; decide) (by rw [State.cause_hangReport]; decide) (by rw [State.cause_hangReport]; decide)
  let v := s.setSeq p.val { s.seq p.val with stuck := 8, stepped := false }
  have near_iff : v.dumpedNear s.clock.now ↔ ∃ a, s.observe.lastDump = some a ∧ s.clock.now < a + 1000000 := Iff.rfl
  refine ⟨_, exec_eq, ?_, fun far => ?_, fun near => ?_, ?_, ?_⟩
  · rw [State.seq_raise, State.hangDump, State.seq_setSeq_same]
  · obtain ⟨-, ⟨image, kept⟩, last, number⟩ := State.capture_of_far 1 p.val s.errors.next.toNat (near_iff.not.mpr far)
    exact ⟨lastDump.trans last, dumpNo.trans number, image, dumps.trans kept⟩
  · obtain ⟨-, errors, last, -⟩ := State.capture_of_near 1 p.val s.errors.next.toNat (near_iff.mpr near)
    exact ⟨dumps.trans (congrArg Errors.dumps errors), lastDump.trans last⟩
  · obtain ⟨r, slot, seq, epoch, st, escalated, related, next', reported⟩ := State.raise_raised_stated room'
      (rep := (s.hangDump p).1.hangReport p n step (s.hangDump p).2) (by rw [State.cause_hangReport]; decide)
    refine ⟨r, next ▸ slot, seq.trans next, epoch.trans (by rw [State.clock_hangDump]), st, escalated, related,
      next'.trans (by rw [next]), ?_⟩
    rw [reported]
    refine ⟨rfl, rfl, rfl, rfl, rfl, rfl, congrArg Context.owner (State.ctx_hangDump n), rfl, fun far => ?_, fun near => ?_⟩
    · obtain ⟨taken, -⟩ := State.capture_of_far 1 p.val s.errors.next.toNat (near_iff.not.mpr far)
      show BitVec.ofNat 128 (if _ then _ else _) = _
      rw [if_pos taken]
    · obtain ⟨taken, -⟩ := State.capture_of_near 1 p.val s.errors.next.toNat (near_iff.mpr near)
      show BitVec.ofNat 128 (if _ then _ else _) = _
      rw [if_neg (by rw [taken]; nofun)]
      rfl
  · exact changes_of_keep (by simp [State.hangDump])

end

/-- The context that the watchdog reports: that of the batch step in progress, or of the one that was just cut, or the one at
the head of selection. -/
def State.hangContext (s : State) (p : Part) : Option Nat :=
  match (s.seq p.val).run, s.cutHere p.val, (s.seq p.val).lastOwner with
  | some r, _, _ => some r.ctx.val
  | none, true, some x => some ((s.seq p.val).served.getD x.val 0)
  | none, _, _ => s.selectionHead p.val

/-- The step that the watchdog reports. -/
def Seq.hangStep (q : Seq) : Nat :=
  match q.run with
  | some r => q.inProgress r
  | Option.none => 0

theorem exec_hangWatchdog (s : State) (p : Part) : exec (.hangWatchdog p) s = .next (match s.hangContext p with
    | none => s
    | some n => if s.stuckPeriods p.val < 8 then s
      else (s.hangDump p).1.raise ((s.hangDump p).1.hangReport p n (s.seq p.val).hangStep (s.hangDump p).2)) := by
  show execHangWatchdog p s = _
  unfold execHangWatchdog
  show (match s.hangContext p with
    | none => Host.Outcome.next s
    | some n => if s.stuckPeriods p.val < 8 then Host.Outcome.next s
      else Host.Outcome.next ((s.hangDump p).1.raise ((s.hangDump p).1.hangReport p n (s.seq p.val).hangStep (s.hangDump p).2))) = _
  split
  · rfl
  · split <;> rfl

/-- The watchdog before its time. -/
theorem exec_hangWatchdog_early {s : State} {p : Part} (early : s.stuckPeriods p.val < 8) :
    exec (.hangWatchdog p) s = .next s := by
  rw [exec_hangWatchdog]
  split
  · rfl
  · rw [if_pos early]

theorem exec_hangWatchdog_late {s : State} {p : Part} {n : Nat} (late : 8 ≤ s.stuckPeriods p.val)
    (who : s.hangContext p = some n) : exec (.hangWatchdog p) s
    = .next ((s.hangDump p).1.raise ((s.hangDump p).1.hangReport p n (s.seq p.val).hangStep (s.hangDump p).2)) := by
  rw [exec_hangWatchdog, who]
  dsimp only
  rw [if_neg (by omega)]

section
variable {s : State} {p : Part}

theorem State.hangContext_of_run {r : Run} (run : (s.seq p.val).run = some r) : s.hangContext p = some r.ctx.val := by
  unfold State.hangContext
  rw [run]

theorem State.hangContext_of_cut {x : Port} (idle : (s.seq p.val).run = none) (cut : s.cutHere p.val = true)
    (owner : (s.seq p.val).lastOwner = some x) : s.hangContext p = some ((s.seq p.val).served.getD x.val 0) := by
  unfold State.hangContext
  rw [idle, cut, owner]

theorem State.hangContext_of_uncut (idle : (s.seq p.val).run = none)
    (uncut : s.cutHere p.val = false ∨ (s.seq p.val).lastOwner = none) : s.hangContext p = s.selectionHead p.val := by
  unfold State.hangContext
  rcases uncut with h | h
  · rw [idle, h]
  · rw [idle, h]
    cases s.cutHere p.val <;> rfl

theorem Seq.hangStep_of_run {q : Seq} {r : Run} (run : q.run = some r) : q.hangStep = q.inProgress r := by
  unfold Seq.hangStep
  rw [run]

theorem Seq.hangStep_of_idle {q : Seq} (idle : q.run = Option.none) : q.hangStep = 0 := by
  unfold Seq.hangStep
  rw [idle]

end

/-- Settles O28. -/
theorem lateWorkEnds : Obligations.LateWorkEnds := by
  unfold Obligations.LateWorkEnds
  refine ⟨fun s p r run => ⟨tickOverrun_ends s p r run, fun early => execTickOverrun_early early⟩, fun s p => ?_⟩
  refine ⟨fun r run late room => ?_, fun x idle cut owner late room => ?_, fun n idle uncut head late room => ?_,
    fun early => exec_hangWatchdog_early early⟩
  · have fires := exec_hangWatchdog_late late (State.hangContext_of_run run)
    rw [Seq.hangStep_of_run run] at fires
    exact hangWatchdog_fires r.ctx.val ((s.seq p.val).inProgress r) room fires
  · have fires := exec_hangWatchdog_late late (State.hangContext_of_cut idle cut owner)
    rw [Seq.hangStep_of_idle idle] at fires
    exact hangWatchdog_fires ((s.seq p.val).served.getD x.val 0) 0 room fires
  · have fires := exec_hangWatchdog_late late ((State.hangContext_of_uncut idle uncut).trans head)
    rw [Seq.hangStep_of_idle idle] at fires
    exact hangWatchdog_fires n 0 room fires

end Sys2Proof.Machine
end

