-- ==== Sys2Proof/Proofs/MissedDeadlines.lean ====
section
/-! FLAG_FALL and STEP_STOP: what a missed deadline leads to (O27). -/

namespace Sys2Proof.Machine

/-! ### A miss with a fallback step (02 R48; 03 R88, R89) -/

/-- The issued steps that a miss cuts: the one that missed and every step issued after it; none where no step was issued. -/
def missCuts (issue : Option Nat) (e : QStep) : Bool := issue.any fun n => decide (n ≤ e.issue)

/-- The batch step that goes on at the fallback step of step `i`. -/
def Run.fallBack (r : Run) (i : Nat) : Run := { r with
  next := wFallback (stepWord r.table i), waiting := false
  loops := r.loops.zipIdx.map (fun l => if bodyHolds r.table l.2 (wFallback (stepWord r.table i)) then l.1 else 0)
  missed := some (r.missed.getD i), fallbacks := r.fallbacks + 1 }

/-- The command of a batch step that missed step `i` and falls back. -/
def TaskSet.fallBack (t : TaskSet) (i : Nat) : TaskSet :=
  { t with fallbacks := t.fallbacks + 1, missed := some (t.missed.getD i) }

/-- A miss is traced, and what it cuts is cut. -/
def State.missTraced (s : State) (p i : Nat) (r : Run) : State := s.trace p (64 + p) 2 (wTraceTag (stepWord r.table i)) i r.ctx.val 0 0
def State.missCut (s : State) (p : Nat) (issue : Option Nat) : State :=
  match issue with
  | none => s
  | some n => s.cutSteps p (fun e => decide (n ≤ e.issue))

theorem State.sameLow_missTraced (s : State) (p i : Nat) (r : Run) : s.SameLow (s.missTraced p i r) := (State.SameLow.refl s).trace ..

theorem State.changes_missTraced (s : State) (p i : Nat) (r : Run) :
    Changes [.dict, .fabric, .free, .tiers] s (s.missTraced p i r) := changes_of_keep (by simp [State.missTraced])

theorem State.seq_missTraced (s : State) (p i : Nat) (r : Run) (q : Nat) : (s.missTraced p i r).seq q = s.seq q :=
  State.changes_missTraced s p i r (.seq q) (by simp) (by simp [Place.table])

theorem State.tset_missTraced (s : State) (p i : Nat) (r : Run) (k : Nat) : (s.missTraced p i r).tset k = s.tset k :=
  State.changes_missTraced s p i r (.tset k) (by simp) (by simp [Place.table])

theorem QStep.map_cutIf_none (l : List QStep) : l.map (QStep.cutIf (missCuts none)) = l := by
  exact List.map_id'' (fun _ => rfl) l

section
variable (s : State) (p : Nat) (issue : Option Nat)

theorem State.sameLow_missCut : s.SameLow (s.missCut p issue) := by
  cases issue with
  | none => exact .refl s
  | some n => exact State.sameLow_cutSteps ..

theorem State.queue_missCut (m : Nat) :
    ((s.missCut p issue).seq p).queue m = ((s.seq p).queue m).map (QStep.cutIf (missCuts issue)) := by
  cases issue with
  | none => exact (QStep.map_cutIf_none _).symm
  | some n =>
    show ((s.cutSteps p _).seq p).queue m = _
    rw [State.seq_cutSteps]
    exact Seq.queue_cutAll ..

theorem State.tset_missCut (k : Nat) : (s.missCut p issue).tset k = s.tset k := by
  cases issue with
  | none => rfl
  | some n => exact State.tset_cutSteps ..

theorem State.keep_missCut {W : List Place} (hseq : .seq p ∈ W) (hcut : ∀ q ∈ Place.cut, q ∈ W) :
    keep W (s.missCut p issue) = keep W s := by
  cases issue with
  | none => rfl
  | some n =>
    exact State.keep_cutSteps s p _ (hcut _ (by simp [Place.cut])) (hcut _ (by simp [Place.cut])) (hcut _ (by simp [Place.cut]))
      (hcut _ (by simp [Place.cut])) (hcut _ (by simp [Place.cut])) (hcut _ (by simp [Place.cut])) (.inl hseq)
      (hcut _ (by simp [Place.cut]))

end

section
variable {s : State} {p : Part} {r : Run} (run : (s.seq p.val).run = some r) (i : Nat) (issue : Option Nat)
include run

/-- Without a fallback a miss is an overrun at the running tick's boundary. -/
theorem State.miss_of_noFallback (h : wHasFallback (stepWord r.table i) = false) :
    s.miss p.val i issue = (s.missTraced p.val i r).overrun p.val (s.missTraced p.val i r).tick i := by
  unfold State.miss
  rw [run]
  dsimp only
  rw [h]
  rfl

/-- With one the batch step goes on at the fallback. -/
theorem State.miss_of_fallback (h : wHasFallback (stepWord r.table i) = true) :
    let u := (s.missTraced p.val i r).missCut p.val issue
    let v := (u.setTset r.key ((u.tset r.key).fallBack i)).bump (0x2020 + p.val) 7 1
    s.miss p.val i issue = v.setSeq p.val { v.seq p.val with run := some (r.fallBack i) } := by
  unfold State.miss
  rw [run]
  dsimp only
  rw [h]
  unfold TaskSet.fallBack Run.fallBack State.missCut State.missTraced
  generalize s.trace _ _ _ _ _ _ _ _ = t
  cases r.missed <;> cases issue with
  | none =>
    dsimp only
    cases (t.tset r.key).missed <;> rfl
  | some n =>
    dsimp only
    generalize t.cutSteps _ _ = u
    cases (u.tset r.key).missed <;> rfl

/-- The places that a miss writes. -/
def Place.missed (p : Part) (r : Run) : List Place :=
  [.seq p.val, .tset r.key, .dict, .fabric, .tiers, .dies, .errors, .observe, .free]

/-- What a miss with a fallback does. -/
theorem State.miss_fallsBack (h : wHasFallback (stepWord r.table i) = true) :
    (∀ m, ((s.miss p.val i issue).seq p.val).queue m = ((s.seq p.val).queue m).map (QStep.cutIf (missCuts issue)))
    ∧ ((s.miss p.val i issue).seq p.val).run = some (r.fallBack i)
    ∧ (s.miss p.val i issue).tset r.key = (s.tset r.key).fallBack i
    ∧ (s.miss p.val i issue).obj (0x2020 + p.val) 7 = (s.obj (0x2020 + p.val) 7 + 1) % 2 ^ 64
    ∧ Changes (Place.missed p r) s (s.miss p.val i issue) := by
  have low : s.SameLow ((s.missTraced p.val i r).missCut p.val issue) :=
    (State.sameLow_missTraced ..).trans (State.sameLow_missCut ..)
  have tset : ((s.missTraced p.val i r).missCut p.val issue).tset r.key = s.tset r.key :=
    (State.tset_missCut ..).trans (State.tset_missTraced ..)
  have queue (m : Nat) : (((s.missTraced p.val i r).missCut p.val issue).seq p.val).queue m
      = ((s.seq p.val).queue m).map (QStep.cutIf (missCuts issue)) := by
    rw [State.queue_missCut, State.seq_missTraced]
  rw [State.miss_of_fallback run i issue h]
  refine ⟨fun m => ?_, ?_, ?_, ?_, changes_of_keep ?_⟩
  · rw [← queue m, State.seq_setSeq_same, State.seq_bump, State.seq_setTset]
    rfl
  · rw [State.seq_setSeq_same]
  · rw [State.tset_setSeq, State.tset_bump, State.tset_setTset_same, tset]
  · rw [State.obj_setSeq, obj_bump_64 _ _ (objBits_counters p).1, State.obj_setTset,
      low.obj _ _ (objKey_counters_low p (by decide))]
  · rw [State.keep_setSeq _ _ _ (by simp [Place.missed]), State.keep_bump _ _ _ _ (by simp [Place.missed]),
      State.keep_setTset _ _ _ (by simp [Place.missed]),
      State.keep_missCut _ _ _ (by simp [Place.missed]) (by simp [Place.missed, Place.cut])]
    simp [Place.missed, State.missTraced]

/-- What a miss without one does. -/
theorem State.miss_ends (h : wHasFallback (stepWord r.table i) = false) :
    ((s.miss p.val i issue).seq p.val).run = none
    ∧ (∀ m, ((s.miss p.val i issue).seq p.val).queue m = ((s.seq p.val).queue m).map (QStep.cutIf fun _ => true))
    ∧ ((s.tset r.key).due = none → (s.miss p.val i issue).tset r.key = { s.tset r.key with
        due := some stOverrun, count := (s.tset r.key).published, dueStep := r.missed.getD i })
    ∧ (s.miss p.val i issue).obj (0x2020 + p.val) 8 = (s.obj (0x2020 + p.val) 8 + 1) % 2 ^ 64
    ∧ Changes [.seq p.val, .tset r.key, .ctx (p.val * 16 + r.ctx.val), .dict, .fabric, .tiers, .dies, .errors, .observe, .free] s
        (s.miss p.val i issue) := by
  have traced : ((s.missTraced p.val i r).seq p.val).run = some r := by rw [State.seq_missTraced]; exact run
  rw [State.miss_of_noFallback run i issue h]
  refine ⟨by rw [State.seq_overrun traced], fun m => ?_, fun due => ?_, ?_, ?_⟩
  · rw [State.queue_overrun traced, State.seq_missTraced]
  · rw [State.tset_overrun traced, State.tset_missTraced, if_pos ⟨rfl, due⟩]
  · rw [State.overruns_overrun traced, (State.sameLow_missTraced ..).obj _ _ (objKey_counters_low p (by decide))]
  · refine changes_of_keep ((keep_of_changes (State.changes_overrun traced _ _)).trans ?_)
    simp [State.missTraced]

end

/-! ### FLAG_FALL and STEP_STOP -/

section
variable {s : State} {p : Part} {i : BitVec 12} {r : Run} (run : (s.seq p.val).run = some r)
include run

theorem execFlagFall_issued {x : QStep} (deadline : wHasDeadline (stepWord r.table i.toNat) = true)
    (found : (s.seq p.val).open.find? (fun x => decide (x.index = i.toNat)) = some x) :
    exec (.flagFall p i) s = .next (s.miss p.val i.toNat (some x.issue)) := by
  show execFlagFall p i s = _
  simp [execFlagFall, run, deadline, found]

theorem execFlagFall_unissued (deadline : wHasDeadline (stepWord r.table i.toNat) = true)
    (none' : (s.seq p.val).open.find? (fun x => decide (x.index = i.toNat)) = none)
    (due : (r.waiting = true ∧ r.next = i.toNat) ∨
      (wRelative (stepWord r.table i.toNat) = false ∧ r.next ≤ i.toNat ∧ i.toNat < tableSteps r.table)) :
    exec (.flagFall p i) s = .next (s.miss p.val i.toNat none) := by
  show execFlagFall p i s = _
  unfold execFlagFall
  dsimp only
  rw [run]
  dsimp only
  rw [none', if_neg (by rw [deadline]; nofun)]
  refine if_pos ?_
  rcases due with ⟨waiting, at'⟩ | ⟨absolute, ahead, within⟩
  · simp [waiting, at']
  · simp [absolute, ahead, within]

theorem execFlagFall_notYet (none' : (s.seq p.val).open.find? (fun x => decide (x.index = i.toNat)) = none)
    (noWait : ¬ (r.waiting = true ∧ r.next = i.toNat))
    (notYet : wRelative (stepWord r.table i.toNat) = true ∨ i.toNat < r.next) : exec (.flagFall p i) s = .next s := by
  show execFlagFall p i s = _
  unfold execFlagFall
  dsimp only
  rw [run]
  dsimp only
  rw [none']
  split
  · rfl
  · refine if_neg ?_
    rcases notYet with relative | past
    · simpa [relative] using noWait
    · simpa [Nat.not_le.mpr past] using noWait

theorem execFlagFall_noDeadline (none' : wHasDeadline (stepWord r.table i.toNat) = false) : exec (.flagFall p i) s = .next s := by
  show execFlagFall p i s = _
  simp [execFlagFall, run, none']

variable {n : Queue} {e : QStep} {rest : List QStep} (head : (s.seq p.val).queue n.val = e :: rest)
include head

theorem execStepStop_uncut (uncut : e.cut = false) :
    exec (.stepStop p n) s = .next (s.miss p.val e.index (some e.issue)) := by
  show execStepStop p n s = _
  simp [execStepStop, run, head, uncut]

theorem execStepStop_cut (cut : e.cut = true) : exec (.stepStop p n) s = .next s := by
  show execStepStop p n s = _
  simp [execStepStop, run, head, cut]

end

/-- Settles O27: both commands that miss a deadline carry out the same miss. -/
theorem deadlinesAreMissed : Obligations.DeadlinesAreMissed := by
  unfold Obligations.DeadlinesAreMissed
  intro s p i r n e rest run q w Cut Falls
  have falls (c : Instr) (j : Nat) (issue : Option Nat) (exec_eq : exec c s = .next (s.miss p.val j issue)) : Falls c j issue :=
    ⟨fun h => ⟨_, exec_eq, State.miss_fallsBack run j issue h⟩, fun h => ⟨_, exec_eq, State.miss_ends run j issue h⟩⟩
  exact ⟨fun x deadline found => falls _ _ _ (execFlagFall_issued run deadline found),
    fun deadline none' => ⟨fun due => falls _ _ _ (execFlagFall_unissued run deadline none' due),
      fun noWait notYet => execFlagFall_notYet run none' noWait notYet⟩,
    fun none' => execFlagFall_noDeadline run none',
    fun head uncut => falls _ _ _ (execStepStop_uncut run head uncut),
    fun head cut => execStepStop_cut run head cut⟩

end Sys2Proof.Machine
end

