-- ==== Sys2Proof/Proofs/Contexts.lean ====
section
/-! CONTEXT create, release and teardown (O38). -/

namespace Sys2Proof.Machine

/-! ### What emptying a context leaves unchanged -/

/-- The batch step in progress in context `n` is ended. -/
def State.endRun (s : State) (p n : Nat) : State :=
  match (s.seq p).run with
  | some r => if r.ctx.val = n then (s.cutSteps p (fun _ => true)).dropRun p else s
  | none => s

/-- The places that the end of a context's batch step and stagings writes. -/
def Place.emptied (p n : Nat) : List Place :=
  [.seq p, .ctx (p * 16 + n), .errors, .dict, .observe, .dies, .fabric, .free, .tiers, .stagings, .vtimes]

section
variable (s : State) (p n : Nat)

theorem State.changes_endRun : Changes (Place.emptied p n) s (s.endRun p n) := by
  refine changes_of_keep ?_
  unfold State.endRun
  split
  next r run =>
    split
    next here =>
      rw [State.keep_dropRun_of_run (r := r) (by rw [State.seq_cutSteps]; exact run) (by simp [Place.emptied])
        (by simp [Place.emptied, here])]
      simp [Place.emptied]
    · rfl
  · rfl

/-- Stagings of a context that stop. -/
def State.endWork : State := (s.endRun p n).stopStagings (fun g => decide (g.part = p ∧ g.ctx = n))

theorem State.emptyContext_eq : s.emptyContext p n = (s.endWork p n).each ((s.endWork p n).ctxCommands p n)
    (fun s k => s.postLater k stTornDown (s.tset k).progress 0) := rfl

theorem State.changes_endWork : Changes (Place.emptied p n) s (s.endWork p n) := by
  refine changes_of_keep (Eq.trans ?_ (keep_of_changes (State.changes_endRun s p n)))
  simp [State.endWork, Place.emptied]

theorem State.tset_endWork (k : Nat) : (s.endWork p n).tset k = s.tset k :=
  State.changes_endWork s p n (.tset k) (by simp [Place.emptied]) (by simp [Place.emptied, Place.table])

/-- The commands that the end of a context ends are those that it named before its work ended. -/
theorem State.ctxCommands_endWork : (s.endWork p n).ctxCommands p n = s.ctxCommands p n := by
  simp [State.ctxCommands, State.taken, State.tset_endWork]

theorem State.changes_emptyContext : Changes (.sets :: Place.emptied p n) s (s.emptyContext p n) := by
  refine changes_of_keep ?_
  rw [State.emptyContext_eq, keep_each _ _ _ fun t k => by simp]
  refine keep_of_changes fun q hq ht => State.changes_endWork s p n q ?_ ?_
  · exact fun h => hq (.tail _ h)
  · exact fun h => ht (.tail _ h)

/-- The other contexts stay. -/
theorem State.ctx_emptyContext {q m : Nat} (other : q * 16 + m ≠ p * 16 + n) : (s.emptyContext p n).ctx q m = s.ctx q m :=
  State.changes_emptyContext s p n (.ctx (q * 16 + m)) (by simp [Place.emptied, other]) (by simp [Place.emptied, Place.table])

end

/-- Of the commands of a list each is to end with the status. -/
theorem State.due_each_postLater (status : Nat) (count : State → Nat → Nat) {l : List Nat} {j : Nat} (mem : j ∈ l) (s : State) :
    ((s.each l fun s k => s.postLater k status (count s k) 0).tset j).due = some status := by
  induction l generalizing s with
  | nil => cases mem
  | cons a l ih =>
    by_cases later : j ∈ l
    · exact ih later _
    · have here : j = a := by simpa [later] using mem
      have own (s : State) (a k : Nat) (h : k ≠ a) : (s.postLater a status (count s a) 0).tset k = s.tset k := by
        rw [State.tset_postLater, if_neg h]
      show ((State.each _ l _).tset j).due = _
      rw [State.tset_each_of_not_mem _ own later, State.tset_postLater, if_pos here]

section
variable (s : State) (p n : Nat)

theorem State.tset_emptyContext_of_mem {j : Nat} (mem : j ∈ s.ctxCommands p n) :
    ((s.emptyContext p n).tset j).due = some stTornDown := by
  rw [State.emptyContext_eq, State.ctxCommands_endWork]
  exact State.due_each_postLater stTornDown (fun s k => (s.tset k).progress) mem _

/-- The end of a context ends a command of it whose batch steps have not all reached their END (log 63). -/
theorem State.mem_ctxCommands {j : Nat} (listed : j < 256) (taken : (s.tset j).life = .taken)
    (named : opPartition (s.tset j).opcode = true) (work : (s.tset j).opcode ≠ 0x20) (part : (s.tset j).partNo = p)
    (ctx : (s.tset j).ctxNo = n) (notDue : (s.tset j).due = none)
    (unended : (s.tset j).runsSteps = true → (s.tset j).published + (s.tset j).held < (s.tset j).steps) :
    j ∈ s.ctxCommands p n := by
  have more : (s.tset j).runsSteps = false ∨ (s.tset j).published + (s.tset j).held < (s.tset j).steps := by
    cases runs : (s.tset j).runsSteps with
    | false => exact .inl rfl
    | true => exact .inr (unended runs)
  simpa [State.ctxCommands, State.mem_taken, listed, taken, named, work, part, ctx, notDue] using more

/-- A context that does not work has no teardown. -/
theorem State.teardown_of_not_loaded (idle : (s.ctx p n).life ≠ .loaded) : s.teardown p n = s := if_pos idle

theorem State.teardown_of_loaded (loaded : (s.ctx p n).life = .loaded) : s.teardown p n
    = ((s.emptyContext p n).setCtx p n { (s.ctx p n).gone with life := .faulted, owner := (s.ctx p n).owner }).freezeDue
        (s.ctx p n).owner.val (freezePart p) := if_neg (not_not.mpr loaded)

theorem State.ctx_teardown_of_loaded (loaded : (s.ctx p n).life = .loaded) :
    (s.teardown p n).ctx p n = { (s.ctx p n).gone with life := .faulted, owner := (s.ctx p n).owner } := by
  simp [State.teardown_of_loaded s p n loaded]

theorem State.ctx_teardown_of_ne {q m : Nat} (other : q * 16 + m ≠ p * 16 + n) : (s.teardown p n).ctx q m = s.ctx q m := by
  by_cases loaded : (s.ctx p n).life = .loaded
  · rw [State.teardown_of_loaded s p n loaded, State.ctx_freezeDue, State.ctx, State.setCtx, Tab.get_set_other _ _ _ other]
    exact State.ctx_emptyContext s p n other
  · rw [State.teardown_of_not_loaded s p n loaded]

end

/-- The partition's bit is among those that its teardown sets. -/
theorem State.freezeDue_freezePart (s : State) (x : Nat) {p : Nat} (hp : p < 10) :
    bitOf ((s.freezeDue x (freezePart p)).port x).freezeDue.toNat p = true := by
  simp only [State.freezeDue, State.port_setPort_same, BitVec.toNat_or, bitOf_or]
  rw [show freezePart p = BitVec.ofNat 10 (2 ^ p) from rfl, bitOf_twoPow hp, Bool.or_true]

/-! ### The commands -/

theorem keyPort_setKey (x : Port) (set : SetId) : keyPort (setKey x set) = x.val := by
  unfold keyPort setKey
  omega

theorem TaskSet.partNo_lt (t : TaskSet) : t.partNo < 8 := Nat.mod_lt _ (by decide)

theorem due_postLater (s : State) (x : Port) (set : SetId) (status count step : Nat) :
    Due (s.postLater (setKey x set) status count step) x set status count step := by
  simp [Due, State.tset_postLater]

section
variable {s : State} {x : Port} {set : SetId} {op : Nat}

/-- A CONTEXT command begins, and waits for its boundary. -/
theorem begins_context {i : Instr} (ready : s.ready (setKey x set) 0x20 = true) (op_eq : bits ((s.tset (setKey x set)).reg 1) 63 62 = op)
    (exec_eq : exec i s = if s.ready (setKey x set) 0x20 && decide (bits ((s.tset (setKey x set)).reg 1) 63 62 = op)
      then .next (s.begin (setKey x set)) else .next s) :
    ∃ u, exec i s = .next u ∧ u.tset (setKey x set) = { s.tset (setKey x set) with begun := 1 }
      ∧ Changes [.tset (setKey x set)] s u := by
  rw [if_pos (by rw [ready, op_eq]; simp)] at exec_eq
  exact ⟨_, exec_eq, State.tset_setTset_same .., changes_of_keep (by simp)⟩

variable (s x set)

/-- A refused CONTEXT command. -/
theorem denied_postLater : Due (s.postLater (setKey x set) stDenied 0 0) x set 0x0501 0 0
    ∧ Changes [.tset (setKey x set)] s (s.postLater (setKey x set) stDenied 0 0) :=
  ⟨due_postLater .., changes_of_keep (by simp)⟩

variable {s x set} (w : TaskSet) (w_eq : s.tset (setKey x set) = w)
include w_eq

theorem contextCommand_unlisted (unlisted : s.partLists w.partNo x.val = false) :
    s.contextCommand (setKey x set) = s.postLater (setKey x set) stDenied 0 0 := by
  subst w_eq
  simp [State.contextCommand, keyPort_setKey, unlisted]

variable (listed : s.partLists w.partNo x.val = true)
include listed

theorem contextCommand_create (create : bits (w.reg 1) 63 62 = 1) (empty : (s.ctx w.partNo w.ctxNo).life = .empty) :
    s.contextCommand (setKey x set)
      = (s.setCtx w.partNo w.ctxNo { Context.none with life := .loaded, owner := x }).postLater (setKey x set) stOk 0 0 := by
  subst w_eq
  simp [State.contextCommand, keyPort_setKey, listed, create, empty]

theorem contextCommand_create_denied (create : bits (w.reg 1) 63 62 = 1) (full : (s.ctx w.partNo w.ctxNo).life ≠ .empty) :
    s.contextCommand (setKey x set) = s.postLater (setKey x set) stDenied 0 0 := by
  subst w_eq
  simp [State.contextCommand, keyPort_setKey, listed, create, full]

theorem contextCommand_release (release : bits (w.reg 1) 63 62 = 2) (idle : (s.ctx w.partNo w.ctxNo).life = .faulted
      ∨ ((s.ctx w.partNo w.ctxNo).life = .loaded ∧ s.ctxBusy w.partNo w.ctxNo = false)) :
    s.contextCommand (setKey x set) = ((s.emptyContext w.partNo w.ctxNo).setCtx w.partNo w.ctxNo
      (s.ctx w.partNo w.ctxNo).gone).postLater (setKey x set) stOk 0 0 := by
  subst w_eq
  unfold State.contextCommand
  dsimp only
  rw [keyPort_setKey, listed, release, if_neg (by decide), if_neg (by decide), if_pos rfl]
  exact if_pos (by simpa using idle)

theorem contextCommand_release_denied (release : bits (w.reg 1) 63 62 = 2) (works : (s.ctx w.partNo w.ctxNo).life = .empty
      ∨ ((s.ctx w.partNo w.ctxNo).life = .loaded ∧ s.ctxBusy w.partNo w.ctxNo = true)) :
    s.contextCommand (setKey x set) = s.postLater (setKey x set) stDenied 0 0 := by
  subst w_eq
  unfold State.contextCommand
  dsimp only
  rw [keyPort_setKey, listed, release, if_neg (by decide), if_neg (by decide), if_pos rfl]
  refine if_neg ?_
  rcases works with empty | ⟨loaded, busy⟩
  · simp [empty]
  · simp [loaded, busy]

theorem contextCommand_teardown (tear : bits (w.reg 1) 63 62 = 3) :
    s.contextCommand (setKey x set) = (s.teardown w.partNo w.ctxNo).postLater (setKey x set) stOk 0 0 := by
  subst w_eq
  simp [State.contextCommand, keyPort_setKey, listed, tear]

end

/-- The teardown at its boundary. -/
theorem contextTeardown_ends (s : State) (x : Port) (set : SetId) (w : TaskSet) (w_eq : s.tset (setKey x set) = w)
    (listed : s.partLists w.partNo x.val = true) (isContext : w.opcode = 0x20) (tear : bits (w.reg 1) 63 62 = 3)
    (loaded : (s.ctx w.partNo w.ctxNo).life = .loaded) :
    let c := s.ctx w.partNo w.ctxNo
    let t := s.contextCommand (setKey x set)
    t.ctx w.partNo w.ctxNo = { c.gone with life := .faulted, owner := c.owner } ∧ Due t x set 0x0000 0 0
      ∧ bitOf (t.port c.owner.val).freezeDue.toNat w.partNo = true
      ∧ (∀ j, j < 256 → (s.tset j).life = .taken → opPartition (s.tset j).opcode = true → (s.tset j).opcode ≠ 0x20 →
          (s.tset j).partNo = w.partNo → (s.tset j).ctxNo = w.ctxNo → (s.tset j).due = none →
          ((s.tset j).runsSteps = true → (s.tset j).published + (s.tset j).held < (s.tset j).steps) →
          (t.tset j).due = some 0x0401) := by
  rw [contextCommand_teardown w w_eq listed tear]
  refine ⟨?_, due_postLater .., ?_, fun j hj taken named work part ctx notDue unended => ?_⟩
  · rw [State.ctx_postLater, State.ctx_teardown_of_loaded _ _ _ loaded]
  · rw [State.port_postLater, State.teardown_of_loaded _ _ _ loaded]
    exact State.freezeDue_freezePart _ _ (Nat.lt_of_lt_of_le w.partNo_lt (by decide))
  · have other : j ≠ setKey x set := fun h => work (by rw [h, w_eq, isContext])
    rw [State.tset_postLater, if_neg other, State.teardown_of_loaded _ _ _ loaded, State.tset_freezeDue, State.tset_setCtx]
    exact State.tset_emptyContext_of_mem s _ _ (State.mem_ctxCommands s _ _ hj taken named work part ctx notDue unended)

/-- Settles O38. -/
theorem contextsComeAndGo : Obligations.ContextsComeAndGo := by
  unfold Obligations.ContextsComeAndGo
  intro s x set k w c t Op
  refine ⟨fun ready op => begins_context ready op rfl, fun ready op => begins_context ready op rfl,
    fun ready op => begins_context ready op rfl, fun unlisted => ?_, fun isContext listed => ⟨fun create empty => ?_,
      fun create full => ?_, fun release idle => ?_, fun release works => ?_, fun tear loaded =>
        contextTeardown_ends s x set w rfl listed isContext tear loaded⟩⟩
  · rw [show t = _ from contextCommand_unlisted w rfl unlisted]
    exact denied_postLater ..
  · rw [show t = _ from contextCommand_create w rfl listed create empty]
    exact ⟨by rw [State.ctx_postLater, State.ctx_setCtx_same], due_postLater .., changes_of_keep (by simp [k])⟩
  · rw [show t = _ from contextCommand_create_denied w rfl listed create full]
    exact denied_postLater ..
  · rw [show t = _ from contextCommand_release w rfl listed release idle]
    exact ⟨by rw [State.ctx_postLater, State.ctx_setCtx_same], due_postLater ..⟩
  · rw [show t = _ from contextCommand_release_denied w rfl listed release works]
    exact denied_postLater ..

end Sys2Proof.Machine
end

