-- ==== Sys2Proof/Proofs/PartitionControls.lean ====
section
/-! Commit, start, stop and release of a partition at the boundary (O31). -/

namespace Sys2Proof.Machine

theorem objBits_control (p : Part) : objBits (0x2010 + p.val) 0x13 = 16 ∧ objBits (0x2010 + p.val) 0x12 = 64 := by
  revert p
  decide

/-- The control of a partition is carried out by its chapter. -/
theorem State.runControl_part (s : State) (port : Option Port) (p : Part) (v : Nat) :
    s.runControl ⟨port, 0x2010 + p.val, 0x10, v⟩ = s.partControl p.val v := by
  unfold State.runControl
  dsimp only
  rw [if_pos (by simp [inRun]; omega), Nat.add_sub_cancel_left]

/-! ### The results -/

section
variable (s : State) (p : Part)

/-- A result is a number of 16 bits. -/
theorem State.obj_partResult {v : Nat} (small : v < 256) : (s.partResult p.val v).obj (0x2010 + p.val) 0x13 = v := by
  rw [State.partResult, State.obj_put, if_pos rfl, (objBits_control p).1]
  omega

/-- A control that fails reports its first failing check, and nothing else. -/
theorem State.fails_partResult {v : Nat} (small : v < 256) : (s.partResult p.val v).obj (0x2010 + p.val) 0x13 = v
    ∧ OnlyObjs [(0x2010 + p.val, 0x13)] s (s.partResult p.val v) ∧ Changes [.dict] s (s.partResult p.val v) :=
  ⟨State.obj_partResult s p small, onlyObjs_put .., changes_of_keep (by simp)⟩

end

/-- The checks of a commit and of a start are numbered up to 12 (02 R57, R58). -/
theorem State.commitFault_small (s : State) (p : Nat) (d : PDef) : s.commitFault p d < 256 := by
  unfold State.commitFault
  dsimp only
  (repeat' split) <;> decide

theorem State.startFault_small (s : State) (p : Nat) : s.startFault p < 256 := by
  unfold State.startFault
  dsimp only
  (repeat' split) <;> decide

section
variable (s : State) (p : Part)

/-! ### Commit -/

/-- A partition that is committed from FREE has its counters cleared (02 R53). -/
def State.clearCounters (s : State) (p : Nat) : State :=
  if (s.part p).life = .free then s.each ((List.range 12).map (· + 1)) (fun s i => s.put (0x2020 + p) i 0) else s

/-- A trace whose buffer the partition may no longer write is turned off (19 R471). -/
def State.checkTrace (s : State) (p : Nat) : State :=
  if s.traceOk p (s.obj (0x9020 + p) 1) (s.obj (0x9020 + p) 2) then s else s.putBoth (0x9020 + p) 3 0

theorem State.commitPart_of_fault (fault : s.commitFault p.val (s.writtenDef p.val) ≠ 0) :
    s.commitPart p.val = s.partResult p.val (s.commitFault p.val (s.writtenDef p.val)) := if_pos fault

theorem State.commitPart_of_good (good : s.commitFault p.val (s.writtenDef p.val) = 0) : s.commitPart p.val
    = ((((s.clearCounters p.val).setPart p.val { s.part p.val with life := .stopped, defn := s.writtenDef p.val }).checkTrace
        p.val).put (0x2010 + p.val) 0x12
          (((s.clearCounters p.val).setPart p.val
            { s.part p.val with life := .stopped, defn := s.writtenDef p.val }).checkTrace p.val).tick).partResult p.val 0 :=
  if_neg (not_not.mpr good)

theorem State.keep_clearCounters {W : List Place} (h : .dict ∈ W) (p : Nat) : keep W (s.clearCounters p) = keep W s := by
  unfold State.clearCounters
  split <;> simp [h]

theorem State.keep_checkTrace {W : List Place} (h : .dict ∈ W) (p : Nat) : keep W (s.checkTrace p) = keep W s := by
  unfold State.checkTrace State.putBoth
  split <;> simp [h]

theorem State.part_checkTrace (p q : Nat) : (s.checkTrace p).part q = s.part q :=
  changes_of_keep (State.keep_checkTrace (W := [.dict]) s (by simp) p) (.part q) (by simp) (by simp [Place.table])

theorem State.tick_checkTrace (p : Nat) (x : Partition) : (((s.clearCounters p).setPart p x).checkTrace p).tick = s.tick := by
  have same : (((s.clearCounters p).setPart p x).checkTrace p).clock = s.clock :=
    changes_of_keep (W := [.part p, .dict])
      (by rw [State.keep_checkTrace _ (by simp), State.keep_setPart _ _ _ (by simp), State.keep_clearCounters _ (by simp)])
      .clock (by simp) (by simp [Place.table])
  rw [State.tick, same]
  rfl

theorem State.commits (good : s.commitFault p.val (s.writtenDef p.val) = 0) :
    (s.commitPart p.val).part p.val = { s.part p.val with life := .stopped, defn := s.writtenDef p.val }
      ∧ (s.commitPart p.val).obj (0x2010 + p.val) 0x13 = 0 ∧ (s.commitPart p.val).obj (0x2010 + p.val) 0x12 = s.tick
      ∧ Changes [.part p.val, .dict] s (s.commitPart p.val) := by
  have tick_small : s.tick < 2 ^ 64 := s.clock.epoch.isLt
  refine ⟨?_, ?_, ?_, changes_of_keep (by simp)⟩ <;> rw [State.commitPart_of_good s p good]
  · rw [State.partResult, State.part_put, State.part_put, State.part_checkTrace, State.part_setPart_same]
  · exact State.obj_partResult _ p (by decide)
  · rw [State.partResult, State.obj_put, if_neg (by rw [objKey_inj (by decide) (by decide)]; omega), State.obj_put, if_pos rfl,
      (objBits_control p).2, State.tick_checkTrace, Nat.mod_mod, Nat.mod_eq_of_lt tick_small]

/-! ### Start and stop -/

theorem State.startPart_of_fault (fault : s.startFault p.val ≠ 0) : s.startPart p.val = s.partResult p.val (s.startFault p.val) :=
  if_pos fault

theorem State.startPart_of_good (good : s.startFault p.val = 0) : s.startPart p.val
    = ((s.setPart p.val { s.part p.val with life := .running }).setSeq p.val { s.seq p.val with periodEnd := 0, stuck := 0 }).partResult
        p.val 0 := (if_neg (not_not.mpr good)).trans (by simp)

theorem State.starts (good : s.startFault p.val = 0) :
    (s.startPart p.val).part p.val = { s.part p.val with life := .running }
      ∧ (s.startPart p.val).obj (0x2010 + p.val) 0x13 = 0
      ∧ (s.startPart p.val).seq p.val = { s.seq p.val with periodEnd := 0, stuck := 0 }
      ∧ Changes [.part p.val, .seq p.val, .dict] s (s.startPart p.val) := by
  rw [State.startPart_of_good s p good]
  exact ⟨by simp [State.partResult], State.obj_partResult _ p (by decide), by simp [State.partResult], changes_of_keep (by simp)⟩

theorem State.stopPart_of_idle (idle : (s.part p.val).life ≠ .running) : s.stopPart p.val = s.partResult p.val 2 := if_pos idle

/-- The state of a partition that stops: at the end of its batch step, or at once. -/
def State.stopping (s : State) (p : Nat) : State :=
  if (s.seq p).run.isSome then s.setPart p { s.part p with life := .stopping } else s.halt p

theorem State.part_halt (p : Nat) : (s.halt p).part p = { s.part p with life := .stopped } := by
  unfold State.halt
  dsimp only
  split <;> simp

theorem State.stops (running : (s.part p.val).life = .running) :
    (s.stopPart p.val).part p.val
        = { s.part p.val with life := if (s.seq p.val).run.isSome then .stopping else .stopped }
      ∧ (s.stopPart p.val).obj (0x2010 + p.val) 0x13 = 0 ∧ Changes [.part p.val, .seq p.val, .dict] s (s.stopPart p.val) := by
  refine ⟨?_, ?_, changes_of_keep (by simp)⟩ <;>
    rw [show s.stopPart p.val = (s.stopping p.val).partResult p.val 0 from if_neg (not_not.mpr running)]
  · rw [State.partResult, State.part_put, State.stopping]
    split
    · rw [State.part_setPart_same]
    · exact State.part_halt ..
  · exact State.obj_partResult _ p (by decide)

/-! ### Release -/

/-- One context of a partition that is released: it is torn down, and its slot is EMPTY. -/
def State.releaseCtx (p : Nat) (s : State) (n : Nat) : State := (s.teardown p n).setCtx p n (s.ctx p n).gone

theorem State.ctx_releaseCtx {p n m : Nat} (hn : n < 16) (hm : m < 16) :
    (State.releaseCtx p s n).ctx p m = if m = n then (s.ctx p n).gone else s.ctx p m := by
  rw [State.releaseCtx, State.ctx_setCtx _ _ _ _ _ _ hn hm]
  by_cases same : m = n
  · rw [if_pos ⟨rfl, same⟩, if_pos same]
  · rw [if_neg fun h => same h.2, if_neg same]
    exact State.ctx_teardown_of_ne s p n (by omega)

/-- Every context that is listed once is released. -/
theorem State.ctx_each_releaseCtx (p : Nat) {l : List Nat} (once : l.Nodup) (numbers : ∀ n ∈ l, n < 16) {m : Nat} (hm : m < 16) :
    (s.each l (State.releaseCtx p)).ctx p m = if m ∈ l then (s.ctx p m).gone else s.ctx p m := by
  induction l generalizing s with
  | nil => rfl
  | cons a l ih =>
    obtain ⟨fresh, once'⟩ := List.nodup_cons.mp once
    show (State.each (State.releaseCtx p s a) l (State.releaseCtx p)).ctx p m = _
    rw [ih _ once' fun n hn => numbers n (by simp [hn]), State.ctx_releaseCtx s (numbers a (by simp)) hm]
    by_cases here : m = a
    · rw [if_pos here, if_neg (here ▸ fresh), if_pos (by simp [here]), here]
    · rw [if_neg here]
      simp [here]

theorem State.releasePart_of_busy (busy : (s.part p.val).life ≠ .stopped) : s.releasePart p.val = s.partResult p.val 2 := if_pos busy

theorem State.releases (stopped : (s.part p.val).life = .stopped) :
    (s.releasePart p.val).part p.val = Partition.none ∧ (s.releasePart p.val).seq p.val = Seq.none
      ∧ (∀ n, n < 16 → (s.releasePart p.val).ctx p.val n = (s.ctx p.val n).gone)
      ∧ (s.releasePart p.val).obj (0x2010 + p.val) 0x13 = 0 := by
  have eq : s.releasePart p.val = (((s.each (List.range 16) (State.releaseCtx p.val)).setPart p.val Partition.none).setSeq p.val
      Seq.none).partResult p.val 0 := if_neg (not_not.mpr stopped)
  rw [eq]
  refine ⟨by simp [State.partResult], by simp [State.partResult], fun n hn => ?_, State.obj_partResult _ p (by decide)⟩
  rw [State.partResult, State.ctx_put, State.ctx_setSeq, State.ctx_setPart,
    State.ctx_each_releaseCtx s p.val List.nodup_range (by simp) hn, if_pos (by simpa using hn)]

end

/-- Settles O31. -/
theorem partitionControlsAct : Obligations.PartitionControlsAct := by
  unfold Obligations.PartitionControlsAct
  intro s p port x run Fails f g
  have runs (v : Nat) : run v = s.partControl p.val v := State.runControl_part s port p v
  have fails {v w : Nat} (small : w < 256) (eq : run v = s.partResult p.val w) : Fails v w := by
    simp only [Fails, eq]
    exact State.fails_partResult s p small
  have commit : run 1 = s.commitPart p.val := runs 1
  have start : run 2 = s.startPart p.val := runs 2
  have stop : run 3 = s.stopPart p.val := runs 3
  have release : run 4 = s.releasePart p.val := runs 4
  refine ⟨fun fault => ?_, fun good => ?_, fun fault => ?_, fun good => ?_, fun idle => ?_, fun running => ?_, fun busy => ?_,
    fun stopped => ?_⟩
  · exact fails (State.commitFault_small ..) (commit.trans (State.commitPart_of_fault s p fault))
  · rw [commit]
    exact State.commits s p good
  · exact fails (State.startFault_small ..) (start.trans (State.startPart_of_fault s p fault))
  · rw [start]
    exact State.starts s p good
  · exact fails (by decide) (stop.trans (State.stopPart_of_idle s p idle))
  · rw [stop]
    exact State.stops s p running
  · exact fails (by decide) (release.trans (State.releasePart_of_busy s p busy))
  · rw [release]
    exact State.releases s p stopped

end Sys2Proof.Machine
end

