-- ==== Sys2Proof/Proofs/SequencingCompletes.lean ====
section
/-! The sequencing clauses of O60: the end of late work, missed deadlines, the watchdog, WAIT, LOOP and MARK. -/

namespace Sys2Proof.Machine

section
variable {s : State} {p : Part} {r : Run} {i : BitVec 12}

/-! ### Late work and missed deadlines -/

/-- The open steps are steps of the queues. -/
theorem Seq.find_open_eq_none {q : Seq} {j : Nat} (none' : ∀ m, m < 32 → ∀ x, x ∈ q.queue m → x.index ≠ j) :
    q.open.find? (fun x => decide (x.index = j)) = Option.none := by
  refine List.find?_eq_none.mpr fun x mem => ?_
  have queued : x ∈ ((List.range 32).flatMap q.queue).filter (fun e => !e.cut) := (mem_kFirst_length _ _ _).mp mem
  obtain ⟨m, hm, hx⟩ := List.mem_flatMap.mp (List.mem_of_mem_filter queued)
  simpa using none' m (List.mem_range.mp hm) x hx

theorem flagFall_falls (run : (s.seq p.val).run = some r) (waiting : r.waiting = true) (at' : r.next = i.toNat)
    (deadline : wHasDeadline (stepWord r.table r.next) = true) (fallback : wHasFallback (stepWord r.table r.next) = true)
    (unissued : ∀ m, m < 32 → ∀ x, x ∈ (s.seq p.val).queue m → x.index ≠ i.toNat) :
    ∃ t, exec (.flagFall p i) s = .next t ∧ t.obj (0x2020 + p.val) 7 = (s.obj (0x2020 + p.val) 7 + 1) % 2 ^ 64
      ∧ ∃ r', (t.seq p.val).run = some r' ∧ r'.next = wFallback (stepWord r.table r.next) ∧ r'.waiting = false
        ∧ r'.fallbacks = r.fallbacks + 1 := by
  rw [at'] at deadline fallback ⊢
  obtain ⟨-, run', -, counted, -⟩ := State.miss_fallsBack run i.toNat none fallback
  exact ⟨_, execFlagFall_unissued run deadline (Seq.find_open_eq_none unissued) (.inl ⟨waiting, at'⟩), counted, _, run', rfl, rfl,
    rfl⟩

variable {n : Queue} {e : QStep} {rest : List QStep}

theorem stepStop_falls (run : (s.seq p.val).run = some r) (head : (s.seq p.val).queue n.val = e :: rest) (uncut : e.cut = false)
    (fallback : wHasFallback (stepWord r.table e.index) = true) :
    ∃ t, exec (.stepStop p n) s = .next t ∧ t.obj (0x2020 + p.val) 7 = (s.obj (0x2020 + p.val) 7 + 1) % 2 ^ 64
      ∧ ∃ r', (t.seq p.val).run = some r' ∧ r'.next = wFallback (stepWord r.table e.index) := by
  obtain ⟨-, run', -, counted, -⟩ := State.miss_fallsBack run e.index (some e.issue) fallback
  exact ⟨_, execStepStop_uncut run head uncut, counted, _, run', rfl⟩

theorem stepStop_ends (run : (s.seq p.val).run = some r) (head : (s.seq p.val).queue n.val = e :: rest) (uncut : e.cut = false)
    (noFallback : wHasFallback (stepWord r.table e.index) = false) :
    ∃ t, exec (.stepStop p n) s = .next t ∧ t.obj (0x2020 + p.val) 8 = (s.obj (0x2020 + p.val) 8 + 1) % 2 ^ 64
      ∧ (t.seq p.val).run = none := by
  obtain ⟨run', -, -, counted, -⟩ := State.miss_ends run e.index (some e.issue) noFallback
  exact ⟨_, execStepStop_uncut run head uncut, counted, run'⟩

/-! ### The watchdog -/

theorem State.seq_hangDump (s : State) (p : Part) :
    (s.hangDump p).1.seq p.val = { s.seq p.val with stuck := 0, stepped := false } := by
  have kept (v : State) (k t : Nat) : (v.capture 1 p.val k t).1.seq p.val = v.seq p.val :=
    State.changes_capture v 1 p.val k t (.seq p.val) (by simp) (by simp [Place.table])
  rw [State.hangDump, State.seq_setSeq_same, kept, State.seq_setSeq_same]

theorem hangWatchdog_restarts (run : (s.seq p.val).run = some r) (stuck : 8 ≤ (s.seq p.val).stuck)
    (unstepped : (s.seq p.val).stepped = false) :
    ∃ t, exec (.hangWatchdog p) s = .next t ∧ t.seq p.val = { s.seq p.val with stuck := 0 } := by
  have late : 8 ≤ s.stuckPeriods p.val := by
    unfold State.stuckPeriods
    dsimp only
    rw [unstepped, if_neg (by nofun)]
    omega
  refine ⟨_, exec_hangWatchdog_late late (State.hangContext_of_run run), ?_⟩
  rw [State.seq_raise, State.seq_hangDump]
  cases h : s.seq p.val
  rw [h] at unstepped
  cases unstepped
  rfl

/-! ### WAIT and LOOP -/

theorem State.seq_traceStep (s : State) (p kind : Nat) (r : Run) (q : Nat) : (s.traceStep p kind r).seq q = s.seq q :=
  changes_of_keep (W := [.dict, .fabric, .free, .tiers]) (by simp) (.seq q) (by simp) (by simp [Place.table])

/-- The batch step behind a WAIT that has ended. -/
def Run.waited (r : Run) : Run := { r with waiting := false, untilPassed := false, next := r.next + 1 }

/-- A WAIT in force ends once UNTIL has passed and the queues of its mask are empty. -/
theorem State.seq_endWait {s : State} {p : Nat} {r : Run} (run : (s.seq p).run = some r) (waiting : r.waiting = true)
    (passed : r.untilPassed = true) (clear : Nat.land (wMask (stepWord r.table r.next)) (s.seq p).completion
      = wMask (stepWord r.table r.next)) :
    (s.endWait p).seq p = { s.seq p with run := some r.waited, stuck := 0, stepped := true } := by
  unfold State.endWait
  dsimp only
  rw [run]
  dsimp only
  have done : (r.waiting && (s.seq p).waitDone r) = true := by
    rw [waiting, Seq.waitDone, passed, Bool.true_and]
    exact decide_eq_true clear
  rw [if_pos done, State.seq_setSeq_same]
  rfl

theorem wait_ends (at' : s.atStep p.val opWait = some r) (noUntil : wUntil (stepWord r.table r.next) = 0)
    (clear : Nat.land (wMask (stepWord r.table r.next)) (s.seq p.val).completion = wMask (stepWord r.table r.next)) :
    ∃ t, exec (.wait p) s = .next t ∧ t.seq p.val = { s.seq p.val with run := some r.waited, stuck := 0, stepped := true } := by
  have exec_eq : exec (.wait p) s = .next (((s.traceStep p.val 0 r).setSeq p.val { (s.traceStep p.val 0 r).seq p.val with
      run := some { r with waiting := true, untilPassed := decide (wUntil (stepWord r.table r.next) = 0) } }).endWait p.val) := by
    show execWait p s = _
    unfold execWait
    rw [at', State.seq_traceStep]
  refine ⟨_, exec_eq, ?_⟩
  rw [State.seq_endWait (r := { r with waiting := true, untilPassed := decide (wUntil (stepWord r.table r.next) = 0) })
    (by rw [State.seq_setSeq_same]) rfl (decide_eq_true noUntil)]
  · rw [State.seq_setSeq_same, State.seq_traceStep]
    rfl
  · rw [State.seq_setSeq_same, State.seq_traceStep]
    exact clear

theorem waitUntil_ends (run : (s.seq p.val).run = some r) (waiting : r.waiting = true)
    (clear : Nat.land (wMask (stepWord r.table r.next)) (s.seq p.val).completion = wMask (stepWord r.table r.next)) :
    ∃ t, exec (.waitUntil p) s = .next t
      ∧ t.seq p.val = { s.seq p.val with run := some r.waited, stuck := 0, stepped := true } := by
  have exec_eq : exec (.waitUntil p) s
      = .next ((s.setSeq p.val { s.seq p.val with run := some { r with untilPassed := true } }).endWait p.val) := by
    show execWaitUntil p s = _
    unfold execWaitUntil
    rw [run]
    exact if_pos waiting
  refine ⟨_, exec_eq, ?_⟩
  rw [State.seq_endWait (r := { r with untilPassed := true }) (by rw [State.seq_setSeq_same]) waiting rfl]
  · rw [State.seq_setSeq_same]
    rfl
  · rw [State.seq_setSeq_same]
    exact clear

theorem loop_goesBack (at' : s.atStep p.val opLoop = some r)
    (more : r.loops.getD (wLevel (stepWord r.table r.next)) 0 < wLoopCount (stepWord r.table r.next)) :
    ∃ t, exec (.loop p) s = .next t ∧ t.seq p.val = { s.seq p.val with
      run := some { r with
        loops := r.loops.set (wLevel (stepWord r.table r.next)) (r.loops.getD (wLevel (stepWord r.table r.next)) 0 + 1)
        next := wTarget (stepWord r.table r.next) }
      stuck := 0, stepped := true } := by
  refine ⟨_, ?_, State.seq_setSeq_same ((s.traceStep p.val 0 r).traceStep p.val 1 r) p.val _⟩
  show execLoop p s = _
  unfold execLoop
  rw [at']
  dsimp only
  rw [if_pos more]

/-! ### MARK -/

/-- Neither a loop nor a command changes the word of a MARK (03 R83). -/
theorem State.issueWord_mark (s : State) (p : Nat) (r : Run) {w : Nat} (mark : wOpcode w = opMark) : s.issueWord p r w = w := by
  have noAdvance (i : Nat) : advanceWord w i = w := by
    have none' : advances w i = [] := by
      unfold advances
      rw [mark]
      rfl
    rw [advanceWord, none', List.foldl_nil]
  have noAddress : addrFields w = [] := by
    unfold addrFields
    rw [mark]
    rfl
  have noShift (base out : Nat) : scanShift w base out = w := by
    unfold scanShift
    rw [mark]
    rfl
  unfold State.issueWord
  dsimp only
  rw [noAdvance, ite_self, noShift, growAddrs, mapAddrs, noAddress, List.foldl_nil, List.foldl_nil]
  simp

/-- The step alone in its queue, not carried out, is the one its unit is at. -/
theorem Seq.at_of_unran {q : Seq} {n : Nat} {e : QStep} (queue : q.queue n = [e]) (unran : e.ran = false) : q.at n = 0 := by
  unfold Seq.at
  rw [queue]
  simp [unran]

theorem State.atStep_iff {s : State} {p o : Nat} {r : Run} : s.atStep p o = some r ↔ (s.seq p).run = some r ∧ r.waiting = false
    ∧ s.deviceStop = false ∧ r.next < tableSteps r.table ∧ wOpcode (stepWord r.table r.next) = o := by
  unfold State.atStep
  cases (s.seq p).run with
  | none => simp
  | some r' =>
    simp only [Option.some.injEq]
    split
    next held =>
      refine ⟨nofun, ?_⟩
      rintro ⟨rfl, moves, running, inTable, mark⟩
      rcases held with h | h | h | h
      · rw [moves] at h; cases h
      · rw [running] at h; cases h
      · omega
      · exact absurd mark h
    next free =>
      rw [Option.some.injEq]
      refine ⟨?_, fun h => h.1⟩
      rintro rfl
      simpa using free

theorem State.changes_trace (s : State) (p source kind tag step ctx arg arg2 : Nat) :
    Changes [.dict, .fabric, .free, .tiers] s (s.trace p source kind tag step ctx arg arg2) := changes_of_keep (by simp)

theorem State.seq_trace (s : State) (p source kind tag step ctx arg arg2 q : Nat) :
    (s.trace p source kind tag step ctx arg arg2).seq q = s.seq q :=
  State.changes_trace s p source kind tag step ctx arg arg2 (.seq q) (by simp) (by simp [Place.table])

theorem State.ctx_trace (s : State) (p source kind tag step ctx arg arg2 q m : Nat) :
    (s.trace p source kind tag step ctx arg arg2).ctx q m = s.ctx q m :=
  State.changes_trace s p source kind tag step ctx arg arg2 (.ctx (q * 16 + m)) (by simp) (by simp [Place.table])

/-- A MARK freezes the counters where its value is armed; no context and no sequencer sees it. -/
theorem State.ctx_marked (s : State) (c : Prop) [Decidable c] (q m : Nat) :
    (if c then (s.freezeSource 3 s.timeNow).draw else s).ctx q m = s.ctx q m := by
  split <;> simp

theorem State.seq_marked (s : State) (c : Prop) [Decidable c] (q : Nat) :
    (if c then (s.freezeSource 3 s.timeNow).draw else s).seq q = s.seq q := by
  split <;> simp

/-- The unit of a queue carries out a MARK: LAST_MARK is written, and the step leaves its queue. -/
theorem State.runHead_mark {s : State} {p n : Nat} {r : Run} {e : QStep} (queue : (s.seq p).queue n = [e])
    (others : (s.seq p).queue (59 - n) = [] ∨ (n ≠ 29 ∧ n ≠ 30)) (unran : e.ran = false) (uncut : e.cut = false)
    (mark : wOpcode e.word = opMark) : ∃ t, s.runHead p n r = (t, true)
      ∧ (t.ctx p r.ctx.val).lastMark = BitVec.ofNat 32 (wMarkValue e.word * 65536 + e.index)
      ∧ (t.seq p).queues = (s.seq p).queues.set n [] := by
  have free : (s.seq p).reduceWaits n e = false := by
    unfold Seq.reduceWaits
    rcases others with h | h
    · rw [h, List.any_nil, Bool.and_false]
    · simp [h]
  unfold State.runHead
  dsimp only
  rw [Seq.at_of_unran queue unran, queue]
  dsimp only [List.getElem?_cons_zero]
  rw [unran, uncut, free, mark, if_neg (by decide), if_pos rfl]
  refine ⟨_, rfl, ?_, ?_⟩
  · rw [State.ctx_trace, State.ctx_setSeq, State.ctx_marked, State.ctx_trace, State.ctx_setCtx_same]
  · rw [State.seq_trace, State.seq_setSeq_same, State.seq_marked, State.seq_trace, State.seq_setCtx, queue,
      Seq.at_of_unran queue unran]
    rfl

theorem mark_marks {s : State} {p : Part} {r : Run} (at' : s.atStep p.val opMark = some r) (idle : (s.seq p.val).unitsIdle = true)
    (untraced : s.untraced p.val) : ∃ t, exec (.mark p) s = .next t
      ∧ (t.ctx p.val r.ctx.val).lastMark = BitVec.ofNat 32 (wMarkValue (stepWord r.table r.next) * 65536 + r.next) := by
  let n := wQueue (stepWord r.table r.next)
  let e := QStep.issued r.next (stepWord r.table r.next) (s.seq p.val).issued s.timeNow
  let u := s.draw.entered p.val r n e
  have hn : n < 32 := Nat.mod_lt _ (by decide)
  obtain ⟨run, moves, running, inTable, mark⟩ := State.atStep_iff.mp at'
  have issued : s.issue p.val (fun w => decide (wOpcode w = opMark)) = u.pump p.val pumpFuel := by
    rw [State.issue_now run moves running inTable (by simpa using mark) idle untraced, State.issueWord_mark s p.val r mark]
  have queue {m : Nat} (hm : m < 32) : (u.seq p.val).queue m = if m = n then [e] else [] :=
    State.entered_queue (s := s.draw) idle hn hm
  have urun : (u.seq p.val).run = some { r with next := r.next + 1 } := by simp [u, State.entered]
  obtain ⟨t, ran, lastMark, queues⟩ := State.runHead_mark (s := u) (p := p.val) (n := n) (r := { r with next := r.next + 1 }) (e := e)
    (by rw [queue hn, if_pos rfl]) (by
      by_cases h : n = 29 ∨ n = 30
      · exact .inl (by rw [queue (by omega), if_neg (by omega)])
      · exact .inr (by omega)) rfl rfl mark
  have emptied {m : Nat} (hm : m < 32) : (t.seq p.val).queue m = [] := by
    rw [Seq.queue, queues, Tab.get_set]
    split
    · rfl
    next h => exact (queue hm).trans (if_neg h)
  have pumped : u.pump p.val pumpFuel = t :=
    State.pump_one hn (fun m hm other => Seq.calm_nil ((queue hm).trans (if_neg other))) urun ran
      (fun m hm => Seq.calm_nil (emptied hm)) 1023
  exact ⟨t, congrArg Host.Outcome.next (issued.trans pumped), lastMark⟩

end

end Sys2Proof.Machine
end

