-- ==== Sys2Proof/Proofs/PowerCompletes.lean ====
section
/-! The power and sideband clauses of O60: resets, warnings, start-up, the pointer and ALERT#. -/

namespace Sys2Proof.Machine

/-! ### A module reset (17 R432) -/

/-- The pins that a reset keeps stand as they stood. -/
def State.SamePins (s t : State) : Prop := t.power.aux = s.power.aux ∧ t.power.resetLow = s.power.resetLow

theorem State.SamePins.trans {s t u : State} (h : s.SamePins t) (h' : t.SamePins u) : s.SamePins u :=
  ⟨h'.1.trans h.1, h'.2.trans h.2⟩

theorem State.SamePins.of_power {s t : State} (h : t.power = s.power) : s.SamePins t := ⟨by rw [h], by rw [h]⟩

theorem State.SamePins.ite {s t u : State} {c : Prop} [Decidable c] (ht : s.SamePins t) (hu : s.SamePins u) :
    s.SamePins (if c then t else u) := by
  split
  · exact ht
  · exact hu

/-- What leaves the power alone. -/
theorem State.power_of_keep {W : List Place} {s t : State} (h : keep W t = keep W s) (hpower : .power ∉ W) : t.power = s.power :=
  changes_of_keep h .power hpower hpower

section
variable (s : State)

/-- The state that a warning leaves before a start-up falls back: compute and the ports have stopped. -/
def State.warnedState : State :=
  ((s.bumpSat 0x7020 5 1).updPower (fun p => { p with warned := true, flushed := false })).thermal 4 4
    |>.abandonRun.stopCompute.losePower

theorem State.power_warnedState : s.warnedState.power = { s.power with warned := true, flushed := false } := by
  have kept : keep [.dict, .errors, .free, .observe, .ctxs, .dies, .fabric, .parts, .seqs, .sets, .tiers, .ports] s.warnedState
      = keep [.dict, .errors, .free, .observe, .ctxs, .dies, .fabric, .parts, .seqs, .sets, .tiers, .ports]
          ((s.bumpSat 0x7020 5 1).updPower fun p => { p with warned := true, flushed := false }) := by
    unfold State.warnedState
    simp
  exact State.power_of_keep kept (by simp)

theorem State.warn_eq : s.warn
    = if (!s.power.railsUp && decide (s.power.stage ≠ 2)) || s.power.warned || decide (4 < s.power.state) then s
      else if s.warnedState.power.stage = 6 then s.warnedState else s.warnedState.fallBack := by
  unfold State.warn State.warnedState
  rfl

theorem State.samePins_warn : s.SamePins s.warn := by
  have warned : s.SamePins s.warnedState := by
    constructor <;> rw [State.power_warnedState]
  have fallen (t : State) : t.SamePins t.fallBack := by
    have persisted : t.persistAll.power = t.power :=
      State.power_of_keep (W := [.dict, .errors, .free, .security]) (by simp) (by simp)
    have aux : t.persistAll.power.aux = t.power.aux := congrArg Power.aux persisted
    have resetLow : t.persistAll.power.resetLow = t.power.resetLow := congrArg Power.resetLow persisted
    exact ⟨aux, resetLow⟩
  rw [State.warn_eq]
  exact .ite (.of_power rfl) (.ite warned (warned.trans (fallen _)))

/-- The module before a reset starts it afresh: its records are copied, and the buffer is flushed where the 48 V domains are
up. -/
def State.copied : State := if s.power.railsUp then s.warn.persistAll else s.persistDevice
def State.settled : State := (if s.copied.power.railsUp then s.copied.flushBuffer else s.copied).settlePending

theorem State.samePins_settled : s.SamePins s.settled := by
  have copied : s.SamePins s.copied := .ite
    ((State.samePins_warn s).trans (.of_power (State.power_of_keep (W := [.dict, .errors, .free, .security]) (by simp) (by simp))))
    (.of_power (State.power_of_keep (W := [.dict, .errors, .free, .security]) (by simp) (by simp)))
  have flushed : s.SamePins (if s.copied.power.railsUp then s.copied.flushBuffer else s.copied) := .ite
    (copied.trans (.of_power (State.power_of_keep (W := [.errors, .free, .observe, .dict, .media]) (by simp) (by simp)))) copied
  exact flushed.trans (.of_power (State.power_of_keep (W := [.dict, .free, .media]) (by simp [State.settled]) (by simp)))

/-- Yilry boots: the choice of a slot may hold the start-up, and changes nothing else of the power. -/
theorem State.boot_power : s.boot.clock = s.clock
    ∧ (s.boot.power = s.power ∨ s.boot.power = { s.power with bootHeld := true, stage := 0 }) := by
  have kept {W : List Place} {t u : State} (h : keep W u = keep W t) (hclock : .clock ∉ W) (hpower : .power ∉ W) :
      u.clock = t.clock ∧ u.power = t.power := ⟨changes_of_keep h .clock hclock hclock, State.power_of_keep h hpower⟩
  unfold State.boot
  dsimp only
  split
  · have same := kept (W := [.dict]) (t := s) (u := s.runSlot (s.obj 0x7040 2)) (by simp) (by simp) (by simp)
    exact ⟨same.1, .inl same.2⟩
  · split
    · exact ⟨changes_of_keep (W := [.dict, .errors, .free, .observe, .security]) (by simp) .clock (by simp) (by simp),
        .inl (State.power_of_keep (W := [.dict, .errors, .free, .observe, .security]) (by simp) (by simp))⟩
    · have same := kept (W := [.dict, .errors, .free, .observe]) (t := s) (u := ((s.put 0xA030 5
        (field 8 8 (s.obj 0x7040 2) + s.bootFault (s.obj 0x7040 2))).slotRecord (s.obj 0x7040 2) (s.bootFault (s.obj 0x7040 2))))
        (by simp) (by simp) (by simp)
      refine ⟨same.1, .inr ?_⟩
      rw [← same.2]
      rfl

/-- What a module reset makes of the clock and of the power. -/
theorem State.moduleReset_power (source : Nat) : (s.moduleReset source).clock.running = false
    ∧ (s.moduleReset source).power.source = source ∧ s.SamePins (s.moduleReset source) := by
  obtain ⟨aux, resetLow⟩ := State.samePins_settled s
  obtain ⟨fresh, eq, still, source', aux', resetLow'⟩ : ∃ fresh : State, s.moduleReset source = fresh.boot
      ∧ fresh.clock.running = false ∧ fresh.power.source = source ∧ fresh.power.aux = s.settled.power.aux
      ∧ fresh.power.resetLow = s.settled.power.resetLow := ⟨_, rfl, rfl, rfl, rfl, rfl⟩
  obtain ⟨clock, power⟩ := State.boot_power fresh
  rw [eq]
  refine ⟨by rw [clock, still], ?_, ?_, ?_⟩
  · rcases power with power | power <;> rw [power] <;> exact source'
  · rcases power with power | power <;> rw [power] <;> exact aux'.trans aux
  · rcases power with power | power <;> rw [power] <;> exact resetLow'.trans resetLow

end

/-! ### Resets and losses of power (17 R427 to R432) -/

section
variable {s : State}

/-- A reset that no trip holds. -/
theorem State.askReset_power (free : s.power.tripped = false) (source : Nat) : s.askReset source = s.moduleReset source := by
  rw [State.askReset, if_neg (by rw [free]; nofun)]

theorem resetAssert_resets (aux : s.power.aux = true) (free : s.power.tripped = false) :
    ∃ t, exec .resetAssert s = .next t ∧ t.power.resetLow = true ∧ t.power.source = 2 ∧ t.clock.running = false := by
  let v := s.updPower fun p => { p with resetLow := true }
  obtain ⟨still, source, -, resetLow⟩ := State.moduleReset_power v 2
  have exec_eq : exec .resetAssert s = .next (v.askReset 2) := by
    show execResetAssert s = _
    rw [execResetAssert, if_pos aux]
  rw [State.askReset_power (s := v) free] at exec_eq
  exact ⟨_, exec_eq, resetLow, source, still⟩

theorem mgmtWatchdog_resets (aux : s.power.aux = true) (free : s.power.tripped = false) :
    ∃ t, exec .mgmtWatchdog s = .next t ∧ t.power.source = 6 ∧ t.clock.running = false := by
  obtain ⟨still, source, -⟩ := State.moduleReset_power s 6
  have exec_eq : exec .mgmtWatchdog s = .next (s.askReset 6) := by
    show execMgmtWatchdog s = _
    rw [execMgmtWatchdog, if_pos aux]
  rw [State.askReset_power free] at exec_eq
  exact ⟨_, exec_eq, source, still⟩

/-- Losing AUX3V3 resets the module, which then has no power. -/
def State.loseAux (s : State) : State :=
  ((s.setErrors { s.errors with toCopy := [] }).updPower fun p => { p with railsUp := false }).moduleReset 1

theorem execAux3v3Loss_eq (aux : s.power.aux = true) : exec .aux3v3Loss s
    = .next (s.loseAux.updPower fun p => { p with aux := false, stage := 0, alert := false }) := by
  show execAux3v3Loss s = _
  unfold execAux3v3Loss State.loseAux
  rw [if_pos aux]

theorem aux3v3Loss_stops (aux : s.power.aux = true) :
    ∃ t, exec .aux3v3Loss s = .next t ∧ t.power.aux = false ∧ t.power.stage = 0 ∧ t.clock.running = false := by
  have still : s.loseAux.clock.running = false := by
    unfold State.loseAux
    exact (State.moduleReset_power _ 1).1
  rw [execAux3v3Loss_eq aux]
  generalize s.loseAux = u at still ⊢
  exact ⟨_, rfl, rfl, rfl, still⟩

theorem auxPowerOn_boots (slotId : BitVec 3) (noAux : s.power.aux = false) :
    ∃ t, exec (.auxPowerOn slotId) s = .next t ∧ t.power.aux = true ∧ t.power.ids = slotId ∧ t.power.source = 1 := by
  let v := s.updPower fun p => { p with aux := true }
  obtain ⟨-, source, aux, -⟩ := State.moduleReset_power v 1
  have exec_eq : exec (.auxPowerOn slotId) s = .next ((v.moduleReset 1).updPower fun p => { p with ids := slotId }) := by
    show execAuxPowerOn slotId s = _
    rw [execAuxPowerOn, if_neg (by rw [noAux]; nofun)]
  rw [exec_eq]
  generalize v.moduleReset 1 = u at source aux ⊢
  exact ⟨_, rfl, aux, rfl, source⟩

theorem State.power_powerOff (s : State) (source : Nat) :
    (s.powerOff source).power = { (s.moduleReset source).power with state := 5, alert := true } := by
  have kept : keep [.dict] (s.powerOff source)
      = keep [.dict] ((s.moduleReset source).updPower fun p => { p with state := 5, alert := true }) := by
    unfold State.powerOff
    dsimp only
    rw [State.keep_put _ _ _ _ (by simp), keep_each _ _ _ fun t o => State.keep_put t _ _ _ (by simp)]
  rw [State.power_of_keep kept (by simp)]
  generalize s.moduleReset source = u
  rfl

theorem bankExhausted_powersOff (warned : s.power.warned = true) :
    ∃ t, exec .bankExhausted s = .next t ∧ t.power.state = 5 ∧ t.power.source = (if s.power.absent then 7 else 4) := by
  have exec_eq : exec .bankExhausted s = .next (s.powerOff (if s.power.absent then 7 else 4)) := by
    show execBankExhausted s = _
    rw [execBankExhausted, if_pos warned]
  obtain ⟨-, source, -⟩ := State.moduleReset_power s (if s.power.absent then 7 else 4)
  refine ⟨_, exec_eq, by rw [State.power_powerOff], ?_⟩
  rw [State.power_powerOff]
  exact source

/-! ### Warnings (17 R427, R428) -/

/-- A warning takes effect: the 48 V domains are up, none is in force, and the module is READY and not in P5. -/
structure State.Warns (s : State) : Prop where
  up : s.power.railsUp = true
  first : s.power.warned = false
  on : s.power.state ≤ 4
  ready : s.power.stage = 6

/-- Of partitions each of which is stopped by its own action alone none has a batch step in progress afterwards. -/
theorem State.run_each_stop {f : State → Nat → State} (stops : ∀ s a, ((f s a).seq a).run = none)
    (own : ∀ s a q, q ≠ a → (f s a).seq q = s.seq q) {l : List Nat} {p : Nat} (mem : p ∈ l) (s : State) :
    ((s.each l f).seq p).run = none := by
  induction l generalizing s with
  | nil => cases mem
  | cons a l ih =>
    by_cases later : p ∈ l
    · exact ih later _
    · have others (l : List Nat) (s : State) (h : p ∉ l) : (s.each l f).seq p = s.seq p := by
        induction l generalizing s with
        | nil => rfl
        | cons b l ih' =>
          obtain ⟨hb, hl⟩ : p ≠ b ∧ p ∉ l := by simpa using h
          exact (ih' _ hl).trans (own s b p hb)
      have here : p = a := by simpa [later] using mem
      show ((State.each (f s a) l f).seq p).run = none
      rw [others l _ later, here]
      exact stops s a

/-- The batch step in progress of one partition stops. -/
def State.stopRun (s : State) (p : Nat) : State := if (s.seq p).run.isSome then (s.cutSteps p (fun _ => true)).dropRun p else s

/-- The stop of one partition, which is to be reset. -/
def stopOne (s : State) (p : Nat) : State :=
  if ((s.stopRun p).part p).committed && decide (((s.stopRun p).part p).life ≠ .resetting)
  then (s.stopRun p).setPart p { (s.stopRun p).part p with resetDue := true } else s.stopRun p

theorem State.run_stopRun (s : State) (p : Nat) : ((s.stopRun p).seq p).run = none := by
  unfold State.stopRun
  split
  next busy =>
    obtain ⟨r, run⟩ := Option.isSome_iff_exists.mp busy
    rw [State.dropRun_of_run (r := r) (by rw [State.seq_cutSteps]; exact run), State.seq_setSeq_same]
  next idle => simpa using idle

theorem run_stopOne (s : State) (p : Nat) : ((stopOne s p).seq p).run = none := by
  unfold stopOne
  split
  · rw [State.seq_setPart]
    exact s.run_stopRun p
  · exact s.run_stopRun p

theorem seq_stopOne_of_ne (s : State) (p q : Nat) (other : q ≠ p) : (stopOne s p).seq q = s.seq q := by
  have kept : keep [.seq p, .ctxs, .part p, .errors, .dict, .observe, .dies, .fabric, .free, .tiers] (stopOne s p)
      = keep [.seq p, .ctxs, .part p, .errors, .dict, .observe, .dies, .fabric, .free, .tiers] s := by
    simp [stopOne, State.stopRun]
  exact changes_of_keep kept (.seq q) (by simp [other]) (by simp [Place.table])

theorem run_stopCompute (s : State) {p : Nat} (hp : p < 8) : (s.stopCompute.seq p).run = none :=
  State.run_each_stop (f := stopOne) run_stopOne seq_stopOne_of_ne (List.mem_range.mpr hp) (s.each s.taken State.dropHeld)

theorem State.Warns.warn_eq (h : s.Warns) : s.warn = s.warnedState := by
  obtain ⟨up, first, on, ready⟩ := h
  rw [State.warn_eq, if_neg (by simp [up, first]; omega), if_pos]
  rw [State.power_warnedState]
  exact ready

/-- A warning that takes effect is in force, with the flush still to come, and no batch step is left. -/
theorem State.Warns.stops (h : s.Warns) : s.warn.power = { s.power with warned := true, flushed := false }
    ∧ ∀ p, p < 8 → (s.warn.seq p).run = none := by
  rw [h.warn_eq]
  refine ⟨State.power_warnedState s, fun p hp => ?_⟩
  have kept (t : State) : t.losePower.seq p = t.seq p :=
    changes_of_keep (W := [.dict, .dies, .errors, .fabric, .free, .observe, .ports]) (by simp) (.seq p) (by simp)
      (by simp [Place.table])
  exact (congrArg Seq.run (kept _)).trans (run_stopCompute _ hp)

/-- A source of warnings `f` is noted, and the warning takes effect. -/
theorem warns_noted {i : Instr} {f : Power → Power} (exec_eq : exec i s = .next (s.updPower f).warn)
    (h : s.power.railsUp = true ∧ s.power.warned = false ∧ s.power.state ≤ 4 ∧ s.power.stage = 6)
    (railsUp : (f s.power).railsUp = s.power.railsUp) (warned : (f s.power).warned = s.power.warned)
    (state : (f s.power).state = s.power.state) (stage : (f s.power).stage = s.power.stage) :
    ∃ t, exec i s = .next t ∧ t.power = { f s.power with warned := true, flushed := false } ∧ ∀ p, p < 8 → (t.seq p).run = none := by
  obtain ⟨up, first, on, ready⟩ := h
  have warns : (s.updPower f).Warns := ⟨railsUp.trans up, warned.trans first, state.trans_le on, stage.trans ready⟩
  obtain ⟨power, runs⟩ := warns.stops
  exact ⟨_, exec_eq, power, runs⟩

theorem pwrfailAssert_stops (h : s.power.railsUp = true ∧ s.power.warned = false ∧ s.power.state ≤ 4 ∧ s.power.stage = 6) :
    ∃ t, exec .pwrfailAssert s = .next t ∧ t.power.failLow = true
      ∧ t.power.warned = true ∧ t.power.flushed = false ∧ ∀ p, p < 8 → (t.seq p).run = none := by
  obtain ⟨t, run, power, runs⟩ := warns_noted (i := .pwrfailAssert) rfl h rfl rfl rfl rfl
  exact ⟨t, run, by rw [power], by rw [power], by rw [power], runs⟩

theorem presentRemoved_stops (h : s.power.railsUp = true ∧ s.power.warned = false ∧ s.power.state ≤ 4 ∧ s.power.stage = 6) :
    ∃ t, exec .presentRemoved s = .next t ∧ t.power.absent = true
      ∧ t.power.warned = true ∧ t.power.flushed = false ∧ ∀ p, p < 8 → (t.seq p).run = none := by
  obtain ⟨t, run, power, runs⟩ := warns_noted (i := .presentRemoved) rfl h rfl rfl rfl rfl
  exact ⟨t, run, by rw [power], by rw [power], by rw [power], runs⟩

theorem inputOutOfRange_stops (h : s.power.railsUp = true ∧ s.power.warned = false ∧ s.power.state ≤ 4 ∧ s.power.stage = 6) :
    ∃ t, exec .inputOutOfRange s = .next t ∧ t.power.badInput = true
      ∧ t.power.warned = true ∧ t.power.flushed = false ∧ ∀ p, p < 8 → (t.seq p).run = none := by
  obtain ⟨t, run, power, runs⟩ := warns_noted (i := .inputOutOfRange) rfl h rfl rfl rfl rfl
  exact ⟨t, run, by rw [power], by rw [power], by rw [power], runs⟩

end

end Sys2Proof.Machine
end

