-- ==== Sys2Proof/Proofs/MediaCompletes.lean ====
section
/-! The media clauses of O60: a relocation takes its band, and a holder is ended. -/

namespace Sys2Proof.Machine

/-! ### Relocation (09 R245, R246) -/

/-- The bands of a number are being emptied, and every block of the band is to be erased. -/
def Media.Takes (m : Media) (b : Band) : Prop :=
  (∀ y, y ∈ m.bands → y.number = b.number → y.life = .victim) ∧ ∀ k, k ∈ b.blocks → ∃ e, e ∈ m.evac ∧ e.block = k

theorem Media.claim_bands (m : Media) (number by' : Nat) : (m.claim number by').bands = m.bands := by
  unfold Media.claim
  split <;> rfl

/-- The numbered bands are changed, and their numbers stay. -/
theorem Media.life_updBand_victim {m : Media} {number : Nat} {y : Band}
    (mem : y ∈ (m.updBand number fun x => { x with life := .victim }).bands) (named : y.number = number) : y.life = .victim := by
  obtain ⟨x, -, rfl⟩ := List.mem_map.mp mem
  by_cases h : x.number = number
  · rw [if_pos h]
  · rw [if_neg h] at named
    exact absurd named h

theorem State.takes_relocateBand (s : State) (b : Band) (by' : Nat) : (s.relocateBand b by').media.Takes b := by
  unfold State.relocateBand
  generalize s.copyOut _ = u
  dsimp only
  rw [State.setMedia_media]
  generalize hm : (u.media.updBand b.number fun x => { x with life := .victim }).claim b.number by' = m
  refine ⟨fun y mem named => ?_, fun k mem => ?_⟩
  · have listed : y ∈ m.bands := mem
    rw [← hm, Media.claim_bands] at listed
    exact Media.life_updBand_victim listed named
  · by_cases known : m.evac.any (fun e => decide (e.block = k)) = true
    · obtain ⟨e, he, same⟩ := List.any_eq_true.mp known
      exact ⟨e, List.mem_append_left _ he, of_decide_eq_true same⟩
    · refine ⟨⟨k, false, by'⟩, List.mem_append_right _ (List.mem_map.mpr ⟨k, List.mem_filter.mpr ⟨mem, ?_⟩, rfl⟩), rfl⟩
      simpa using known

theorem State.takes_busyBit {s : State} {b : Band} (h : s.media.Takes b) (n : Nat) : (s.busyBit n).media.Takes b := h

section
variable {s : State} {b : Band}

theorem garbageCollection_takes (may : s.relocates = true) (noVerify : s.media.verifyFirst = false)
    (short : s.media.freeBlocks < 4 * s.freeFloor)
    (least : leastBand (fun b => ((s.currentIn (fun k => decide (k ∈ b.blocks))).length, 1))
      (s.media.collectable.filter (fun b => !s.seen (fun k => decide (k ∈ b.blocks)))) = some b) :
    ∃ t, exec .garbageCollection s = .next t ∧ t.media.Takes b := by
  refine ⟨_, ?_, State.takes_busyBit (s.takes_relocateBand b 0) 0⟩
  show execGarbageCollection s = _
  unfold execGarbageCollection
  rw [if_neg (by simp [may, noVerify, short]), least]

theorem readDisturbRelocation_takes {block : Nat} (may : s.relocates = true) (worn : s.gov 0x4080 3 ≤ s.media.reads.get 0 block)
    (found : s.media.takable.find? (fun b => decide (block ∈ b.blocks)) = some b) :
    ∃ t, exec (.readDisturbRelocation block) s = .next t ∧ t.media.Takes b := by
  refine ⟨_, ?_, State.takes_busyBit (s.takes_relocateBand b 2) 2⟩
  show execReadDisturbRelocation block s = _
  unfold execReadDisturbRelocation
  rw [found]
  exact if_pos (by simp [may, worn])

theorem retentionRefresh_takes {sets : Nat} (may : s.relocates = true) (bad : 3 ≤ sets) (due : b.sampleDue s.clock.now = true)
    (found : s.media.takable.find? (fun y => decide (y.number = b.number)) = some b) :
    ∃ t, exec (.retentionRefresh b.number sets) s = .next t ∧ t.media.Takes b := by
  refine ⟨_, ?_, ((s.sampleBand b sets).busyBit 3).takes_relocateBand b 3⟩
  show execRetentionRefresh b.number sets s = _
  unfold execRetentionRefresh
  rw [found]
  dsimp only
  rw [if_pos (by simp [may, due]), if_pos bad]

theorem wearLevelling_takes (may : s.relocates = true)
    (uneven : s.media.peSum + s.gov 0x4080 4 * s.media.peBlocks < s.media.peMax * s.media.peBlocks)
    (least : leastBand (fun b => ((b.blocks.map (fun k => s.media.pe.get 0 k)).foldl (· + ·) 0, max 1 b.blocks.length))
      s.media.takable = some b) :
    ∃ t, exec .wearLevelling s = .next t ∧ t.media.Takes b := by
  refine ⟨_, ?_, State.takes_busyBit (s.takes_relocateBand b 1) 1⟩
  show execWearLevelling s = _
  unfold execWearLevelling
  dsimp only
  rw [if_neg (by simp [may, uneven]), least]

/-! ### The end of holders (01 R38; 08 R223) -/

theorem State.due_expire (s : State) (k : Nat) : ((s.expire k).tset k).due = some 0x0302 := by
  unfold State.expire
  rw [State.tset_bump, State.tset_postLater, if_pos rfl]
  rfl

theorem State.media_expire (s : State) (k : Nat) : (s.expire k).media = s.media := by
  have kept : keep [.dict, .fabric, .free, .stagings, .vtimes, .tset k] (s.expire k)
      = keep [.dict, .fabric, .free, .stagings, .vtimes, .tset k] s := by
    unfold State.expire
    simp
  exact changes_of_keep kept .media (by simp) (by simp [Place.table])

theorem snapshotExpiry_expires {key : Nat} (presses : s.media.presses (s.obj 0x4060 0x0B) = true)
    (spaced : ∀ e, s.media.lastExpiry = some e → e + s.gov 0x4060 0x0C ≤ s.tick + 1) (first : s.firstHolder = some key) :
    ∃ t, exec .snapshotExpiry s = .next t ∧ (t.tset key).due = some 0x0302 ∧ t.media.lastExpiry = some (s.tick + 1) := by
  let v := s.setMedia { s.media with lastExpiry := some (s.tick + 1) }
  have exec_eq : exec .snapshotExpiry s = .next (v.expire key) := by
    show execSnapshotExpiry s = _
    unfold execSnapshotExpiry
    dsimp only
    rw [first, if_neg]
    cases last : s.media.lastExpiry with
    | none => simp [presses]
    | some e => simp [presses, spaced e last]
  exact ⟨_, exec_eq, State.due_expire v key, by rw [State.media_expire]; rfl⟩

theorem holdLimitExpiry_expires {x : Port} {set : SetId} (holds : (s.tset (setKey x set)).holds = true)
    (notDue : (s.tset (setKey x set)).due = none) (beyond : (s.tset (setKey x set)).stamp.toNat + s.gov 0x4020 1 ≤ s.tick)
    (waits : ∃ j n lba v, j ∈ s.media.secure ∧ (s.tset (setKey x set)).stamp.toNat < j.epoch
      ∧ s.holdsSpace (setKey x set) j.ns = true ∧ (j.ns, n) ∈ s.media.spaces ∧ lba ∈ n.blocks ∧ v ∈ lba.2 ∧ v.unit ∈ j.units
      ∧ v.epoch ≤ (s.tset (setKey x set)).stamp.toNat) :
    ∃ t, exec (.holdLimitExpiry x set) s = .next t ∧ (t.tset (setKey x set)).due = some 0x0302 := by
  obtain ⟨j, n, lba, v, job, older, space, listed, block, version, named, seen⟩ := waits
  have waiting : s.media.secure.any (fun j => decide ((s.tset (setKey x set)).stamp.toNat < j.epoch)
      && s.holdsSpace (setKey x set) j.ns && s.media.spaces.any (fun e => decide (e.1 = j.ns) && e.2.blocks.any (fun b =>
        b.2.any (fun v => decide (v.unit ∈ j.units) && decide (v.epoch ≤ (s.tset (setKey x set)).stamp.toNat))))) = true := by
    refine List.any_eq_true.mpr ⟨j, job, ?_⟩
    rw [decide_eq_true older, space, Bool.true_and, Bool.true_and]
    refine List.any_eq_true.mpr ⟨(j.ns, n), listed, ?_⟩
    rw [decide_eq_true rfl, Bool.true_and]
    refine List.any_eq_true.mpr ⟨lba, block, List.any_eq_true.mpr ⟨v, version, ?_⟩⟩
    rw [decide_eq_true named, decide_eq_true seen, Bool.true_and]
  refine ⟨_, ?_, State.due_expire s _⟩
  show execHoldLimitExpiry x set s = _
  unfold execHoldLimitExpiry
  dsimp only
  rw [waiting, if_pos (by simp [holds, notDue, beyond])]

end

end Sys2Proof.Machine
end

