-- ==== Sys2Proof/Proofs/SidebandCompletes.lean ====
section
/-! The clauses of O60 on the sideband, the arms of RETURN and the stages of start-up. -/

namespace Sys2Proof.Machine

section
variable {s : State}

/-! ### The arms of RETURN (18 R446) -/

/-- The first element with the property is dropped. -/
theorem dropFirst_append {f : Nat × Port × Nat → Bool} {a : Nat × Port × Nat} (drops : f a = true) (r : List (Nat × Port × Nat)) :
    ∀ l : List (Nat × Port × Nat), (∀ b, b ∈ l → f b = false) → dropFirst f (l ++ a :: r) = l ++ r
  | [], _ => if_pos drops
  | b :: l, kept => by
    have ih := dropFirst_append drops r l fun c mem => kept c (.tail _ mem)
    show (if f b then l ++ a :: r else b :: dropFirst f (l ++ a :: r)) = b :: (l ++ r)
    rw [kept b (.head _), ih]
    exact if_neg (by nofun)

theorem lcArmLapse_drops {l r : List (Nat × Port × Nat)} {y : Port} {a : Nat} (arms : s.security.arms = l ++ (3, y, a) :: r)
    (before : ∀ b, b ∈ l → b.1 ≠ 3) :
    exec .lcArmLapse s = .next { s with security := { s.security with arms := l ++ r } } := by
  show execLcArmLapse s = _
  unfold execLcArmLapse
  rw [arms, dropFirst_append (decide_eq_true rfl) r l fun b mem => decide_eq_false (before b mem)]
  rfl

/-! ### The sideband (14 R366 to R369) -/

theorem smbusPointer_points (idx : BitVec 16) (sub off : Byte) (aux : s.power.aux = true) : exec (.smbusPointer idx sub ⟨off, true⟩) s
    = .next { s with dict := { s.dict with smIdx := idx, smSub := sub, smOff := off } } :=
  if_pos (by rw [aux]; rfl)

theorem smbusLastStatus_answers (aux : s.power.aux = true) : exec .smbusLastStatus s = .next { s with dict := { s.dict with
    smOut := [s.dict.smStatus, smPec [BitVec.ofNat 8 (2 * (0x60 + s.power.ids.toNat)), 0x13,
      BitVec.ofNat 8 (2 * (0x60 + s.power.ids.toNat) + 1), s.dict.smStatus]] } } :=
  if_pos aux

theorem alertResponse_answers (aux : s.power.aux = true) (alert : s.power.alert = true) : exec .alertResponse s = .next { s with
    dict := { s.dict with smOut := [BitVec.ofNat 8 (2 * (0x60 + s.power.ids.toNat)),
      smPec [0x19, BitVec.ofNat 8 (2 * (0x60 + s.power.ids.toNat))]] }
    power := { s.power with alert := false } } :=
  if_pos (by rw [aux, alert]; rfl)

theorem smbusTimeout_resets (aux : s.power.aux = true) : exec .smbusTimeout s = .next { s with
    dict := { s.dict with smIdx := 0x1000, smSub := 1, smOff := 0 }, power := { s.power with alert := false } } :=
  if_pos aux

/-! ### The stages of start-up (17 R434; 08 R205) -/

theorem railsInRegulation_advances (stage : s.power.stage = 2) :
    exec .railsInRegulation s = .next { s with power := { s.power with railsUp := true, stage := 3 } } :=
  if_pos stage

theorem stackTrainingDone_advances (stage : s.power.stage = 3) (noReturn : s.security.state ≠ 3 ∨ s.obj 0xA000 6 ≠ 0) :
    exec .stackTrainingDone s = .next { s with power := { s.power with trained := true, stage := 4 } } := by
  show execStackTrainingDone s = _
  rw [execStackTrainingDone, if_pos stage]
  exact congrArg Host.Outcome.next (if_neg fun returns => noReturn.elim (· returns.1) (· returns.2))

theorem mapRebuildDone_rebuilds (nearZero : s.power.nearZero = true) (near : s.guard.nearOff = false) :
    exec .mapRebuildDone s = .next { s with power := { s.power with mapUp := true } } :=
  if_pos (by rw [nearZero, near]; rfl)

end

end Sys2Proof.Machine
end

