-- ==== Sys2Proof/Proofs/HostCompletes.lean ====
section
/-! The clauses of O60 on the host's side that end a persistent write or start a command. -/

namespace Sys2Proof.Machine

/-! ### The end of a persistent write (14 R353) -/

/-- Each number of the dictionary fits into 64 bits. -/
theorem size_le_of_row {idx sub : Nat} {d : ObjDef} (row : findObj idx sub = some d) (number : d.isBytes = false) : d.size ≤ 8 := by
  have small : objTable.all (fun d => d.isBytes || decide (d.size ≤ 8)) = true := by decide +kernel
  have here := List.all_eq_true.mp small d (List.mem_of_find?_eq_some row)
  rw [number, Bool.false_or] at here
  exact of_decide_eq_true here

theorem objBits_le_of_row {idx sub : Nat} {d : ObjDef} (row : findObj idx sub = some d) (number : d.isBytes = false) :
    objBits idx sub ≤ 64 := by
  have size : d.size ≤ 8 := size_le_of_row row number
  unfold objBits
  rw [row]
  exact Nat.mul_le_mul_left 8 size

theorem State.jobs_dataWrite (s : State) : s.dataWrite.dict.jobs = s.dict.jobs := by
  unfold State.dataWrite
  dsimp only
  split <;> rfl

/-- A stored number leaves the persistent writes as they are. -/
theorem State.jobs_accept (s : State) (who : Option Port) {idx sub : Nat} (v : Bytes) (at' : Nat) {d : ObjDef}
    (row : findObj idx sub = some d) (stored : d.access ≠ 3) (number : d.isBytes = false) (noPass : idx ≠ 0x9000)
    (noTime : idx ≠ 0x4040) : (s.accept who idx sub v at').dict.jobs = s.dict.jobs := by
  unfold State.accept
  rw [row]
  dsimp only
  rw [if_neg stored, if_neg fun pass => noPass pass.1, if_neg (by rw [number]; nofun), if_neg fun time => noTime time.1]
  rfl

theorem persistWriteDone_stores {s : State} {idx : BitVec 16} {sub : Byte} {o : ObjDef} {v : Bytes}
    (row : findObj idx.toNat sub.toNat = some o) (stored : o.access ≠ 3) (number : o.isBytes = false) (noTime : idx ≠ 0x4040)
    (noPass : idx ≠ 0x9000) (jobs : s.dict.jobs = [⟨[(idx.toNat, sub.toNat, v)], none, none⟩]) :
    ∃ t, exec (.persistWriteDone idx sub) s = .next t ∧ t.dict.jobs = []
      ∧ t.obj idx.toNat sub.toNat = o.valueIn v % 2 ^ objBits idx.toNat sub.toNat := by
  let w := (s.setDict { s.dict with jobs := [] }).dataWrite
  have named : PersistJob.names ⟨[(idx.toNat, sub.toNat, v)], none, none⟩ idx.toNat sub.toNat = true := by simp [PersistJob.names]
  have found : s.dict.jobs.find? (fun j => j.names idx.toNat sub.toNat) = some ⟨[(idx.toNat, sub.toNat, v)], none, none⟩ := by
    rw [jobs]
    exact List.find?_cons_of_pos named
  have left : s.dict.jobs.filter (fun j => !j.names idx.toNat sub.toNat) = [] := by
    rw [jobs]
    exact List.filter_cons_of_neg (by rw [named]; nofun)
  have exec_eq : exec (.persistWriteDone idx sub) s = .next (w.accept none idx.toNat sub.toNat v w.clock.now) := by
    show execPersistWriteDone idx sub s = _
    unfold execPersistWriteDone
    rw [found, left]
    rfl
  have noPass' : idx.toNat ≠ 0x9000 := fun h => noPass (BitVec.eq_of_toNat_eq h)
  have noTime' : idx.toNat ≠ 0x4040 := fun h => noTime (BitVec.eq_of_toNat_eq h)
  refine ⟨_, exec_eq, ?_, ?_⟩
  · rw [State.jobs_accept w none v _ row stored number noPass' noTime']
    exact State.jobs_dataWrite _
  · rw [State.obj_accept w none v _ row stored number noPass']
    refine Nat.mod_eq_of_lt ((Nat.mod_lt _ (Nat.two_pow_pos _)).trans_le ?_)
    exact Nat.pow_le_pow_right (by decide) (objBits_le_of_row row number)

section
variable {s : State} {x : Port} {set : SetId}

/-! ### SANITIZE and the time-out of a write (15 R382, R384) -/

/-- A sanitize is taken up where none is, no partition is active and no command names a namespace. -/
theorem State.sanitize_taken {k : Nat} (crypto : Bool) (noOther : s.media.sanitize = none) (idle : s.anyActive = false)
    (free : ∀ j, j < 256 → (s.tset j).namesNs = false) :
    (s.sanitize k crypto).media.sanitize = some ⟨crypto, some k, false, []⟩ := by
  have noneNames : allKeys.any (fun j => (s.tset j).namesNs) = false :=
    List.any_eq_false.mpr fun j listed => by rw [free j (List.mem_range.mp listed)]; nofun
  unfold State.sanitize
  rw [noOther, if_neg (by nofun), if_neg (by rw [idle, noneNames]; nofun)]
  rfl

theorem sanitizeBlockErase_taken (ready : s.ready (setKey x set) 0x06 = true) (noOther : s.media.sanitize = none)
    (idle : s.anyActive = false) (free : ∀ j, j < 256 → (s.tset j).namesNs = false)
    (action : bits ((s.tset (setKey x set)).reg 1) 63 62 = 1) :
    ∃ t, exec (.sanitizeBlockErase x set) s = .next t ∧ t.media.sanitize = some ⟨false, some (setKey x set), false, []⟩ :=
  ⟨_, if_pos (by rw [ready, action]; rfl), State.sanitize_taken false noOther idle free⟩

theorem sanitizeCryptoErase_taken (ready : s.ready (setKey x set) 0x06 = true) (noOther : s.media.sanitize = none)
    (idle : s.anyActive = false) (free : ∀ j, j < 256 → (s.tset j).namesNs = false)
    (action : bits ((s.tset (setKey x set)).reg 1) 63 62 = 2) :
    ∃ t, exec (.sanitizeCryptoErase x set) s = .next t ∧ t.media.sanitize = some ⟨true, some (setKey x set), false, []⟩ :=
  ⟨_, if_pos (by rw [ready, action]; rfl), State.sanitize_taken true noOther idle free⟩

theorem dataTimeout_ends (runs : s.runsCmd (setKey x set) 0x11 = true) (open' : s.withheld = false)
    (lacks : (s.tset (setKey x set)).hasBlocks (s.tset (setKey x set)).count ((s.tset (setKey x set)).reg 3
      - (s.tset (setKey x set)).count) = false) :
    ∃ t, exec (.dataTimeout x set) s = .next t
      ∧ t.tset (setKey x set) = { s.tset (setKey x set) with due := some stTimeout, dueStep := 0 } := by
  refine ⟨_, if_pos (by rw [runs, open', lacks]; rfl), ?_⟩
  rw [State.tset_postLater, if_pos rfl]

/-! ### CONTEXT commands (15 R387) -/

theorem contextCreate_begins (ready : s.ready (setKey x set) 0x20 = true) (op : bits ((s.tset (setKey x set)).reg 1) 63 62 = 1) :
    ∃ t, exec (.contextCreate x set) s = .next t ∧ t.tset (setKey x set) = { s.tset (setKey x set) with begun := 1 } := by
  obtain ⟨t, run, begun, -⟩ := begins_context (i := .contextCreate x set) ready op rfl
  exact ⟨t, run, begun⟩

theorem contextRelease_begins (ready : s.ready (setKey x set) 0x20 = true) (op : bits ((s.tset (setKey x set)).reg 1) 63 62 = 2) :
    ∃ t, exec (.contextRelease x set) s = .next t ∧ t.tset (setKey x set) = { s.tset (setKey x set) with begun := 1 } := by
  obtain ⟨t, run, begun, -⟩ := begins_context (i := .contextRelease x set) ready op rfl
  exact ⟨t, run, begun⟩

theorem contextTeardown_begins (ready : s.ready (setKey x set) 0x20 = true) (op : bits ((s.tset (setKey x set)).reg 1) 63 62 = 3) :
    ∃ t, exec (.contextTeardown x set) s = .next t ∧ t.tset (setKey x set) = { s.tset (setKey x set) with begun := 1 } := by
  obtain ⟨t, run, begun, -⟩ := begins_context (i := .contextTeardown x set) ready op rfl
  exact ⟨t, run, begun⟩

/-! ### Table-run commands (15 R389) -/

/-- A command joins its context's queue at the end. -/
theorem State.queue_enqueue (s : State) (k : Nat) : ((s.enqueue k).ctx (s.tset k).partNo (s.tset k).ctxNo).queue
    = (s.ctx (s.tset k).partNo (s.tset k).ctxNo).queue ++ [k] := by
  simp [State.enqueue]

theorem State.ctx_loadBatch (s : State) (p k b : Nat) (table : Bank) (q m : Nat) : (s.loadBatch p k b table).ctx q m = s.ctx q m :=
  changes_of_keep (W := [.dict, .free, .media, .vtimes]) (by simp) (.ctx (q * 16 + m)) (by simp) (by simp [Place.table])

theorem scanCommand_joins (fresh : s.fresh (setKey x set) 0x30 = true) : ∃ t, exec (.scanCommand x set) s = .next t
    ∧ (t.ctx (s.tset (setKey x set)).partNo (s.tset (setKey x set)).ctxNo).queue
      = (s.ctx (s.tset (setKey x set)).partNo (s.tset (setKey x set)).ctxNo).queue ++ [setKey x set] := by
  refine ⟨_, congrArg Host.Outcome.next (if_pos fresh), ?_⟩
  rw [State.ctx_loadBatch]
  exact State.queue_enqueue ..

theorem embed_joins (fresh : s.fresh (setKey x set) 0x31 = true) : ∃ t, exec (.embed x set) s = .next t
    ∧ (t.ctx (s.tset (setKey x set)).partNo (s.tset (setKey x set)).ctxNo).queue
      = (s.ctx (s.tset (setKey x set)).partNo (s.tset (setKey x set)).ctxNo).queue ++ [setKey x set] :=
  ⟨_, congrArg Host.Outcome.next (if_pos fresh), State.queue_enqueue ..⟩

theorem inferStep_joins (fresh : s.fresh (setKey x set) 0x32 = true) : ∃ t, exec (.inferStep x set) s = .next t
    ∧ (t.ctx (s.tset (setKey x set)).partNo (s.tset (setKey x set)).ctxNo).queue
      = (s.ctx (s.tset (setKey x set)).partNo (s.tset (setKey x set)).ctxNo).queue ++ [setKey x set] :=
  ⟨_, congrArg Host.Outcome.next (if_pos fresh), State.queue_enqueue ..⟩

theorem refitStep_joins (fresh : s.fresh (setKey x set) 0x33 = true) : ∃ t, exec (.refitStep x set) s = .next t
    ∧ (t.ctx (s.tset (setKey x set)).partNo (s.tset (setKey x set)).ctxNo).queue
      = (s.ctx (s.tset (setKey x set)).partNo (s.tset (setKey x set)).ctxNo).queue ++ [setKey x set] :=
  ⟨_, congrArg Host.Outcome.next (if_pos fresh), State.queue_enqueue ..⟩

end

end Sys2Proof.Machine
end

