-- ==== Sys2Proof/Proofs/TierReads.lean ====
section
/-! The clauses of O60 that read the memory tiers or a set's output: the pulls of data, and the loads of images. -/

namespace Sys2Proof.Machine

/-! ### Bytes of a memory -/

theorem Mem.length_readBytes (m : Mem) (a n : Nat) : (m.readBytes a n).length = n := by
  induction n generalizing a with
  | zero => rfl
  | succ n ih => exact congrArg (· + 1) (ih (a + 1))

theorem Mem.readBytes_slice (m : Mem) (a n : Nat) {i k : Nat} (inside : i + k ≤ n) :
    (m.slice a n).readBytes i k = m.readBytes (a + i) k := by
  induction k generalizing i with
  | zero => rfl
  | succ k ih =>
    show (m.slice a n).read i :: (m.slice a n).readBytes (i + 1) k = m.read (a + i) :: m.readBytes (a + i + 1) k
    rw [Mem.read_slice, if_pos (by omega), ih (by omega), Nat.add_assoc]

/-! ### Reads of the tiers (07 R184 to R186, R197; 03 R93) -/

/-- Nothing bars a span, and no byte of it is open: a bench reads it as it stands. -/
theorem Bench.readMem_clean {b : Bench} (bad : b.bad = []) (fog : b.fog = []) (far : b.farOff = false) (banks : b.banksOff = 0)
    (dirty : b.dirty = []) (lo n : Nat) : b.readMem lo n = .ok (b.mem.slice lo n) := by
  have noBank : bitsSet b.banksOff 96 = [] := by
    rw [banks]
    decide +kernel
  have free : b.barred lo n = none := by
    unfold Bench.barred
    rw [far, bad, noBank, List.filter_nil, List.filter_nil, List.map_nil, ite_self]
    rfl
  unfold Bench.readMem Bench.race Bench.foggy
  rw [free, fog, dirty]
  rfl

/-- Without a fault of the tiers and without an unfinished write a span reads as it stands. -/
theorem State.readTier_clean {s : State} (bad : s.fabric.bad = []) (fog : s.fabric.fog = []) (far : s.guard.farOff = false)
    (banks : s.guard.banksOff = 0) (dirty : ∀ q, q < 8 → s.dirty q 32 = []) (lo n : Nat) :
    s.readTier lo n = .ok (s.fabric.mem.slice lo n) := by
  have calm : (s.deskBench 0).dirty = [] := List.flatMap_eq_nil_iff.mpr fun q mem => dirty q (List.mem_range.mp mem)
  unfold State.readTier
  rw [Bench.readMem_clean bad fog far banks calm]
  rfl

/-! ### Pulls (15 R377) -/

section
variable {s : State} {r : Req}

/-- A frame of the task registers from the owner, with ARGS that keep the rules, is served. -/
theorem State.serveSet_admitted (admits : s.Admits r true) (low : argsLowZero r = true) (type : Nat) (k : State → State)
    (n echo : Nat) : s.serveSet r type true k n echo = k (s.heard r.port.val n (chanNo r.chan)) := by
  unfold State.serveSet
  rw [low, Bool.and_self, Bool.not_true, Bool.and_false, if_neg (by nofun), State.serve_admitted admits]

theorem pullArgsOk_of {off len : Nat} (aligned : off % 64 = 0) (least : 64 ≤ len + 1) (most : len + 1 ≤ 8192)
    (whole : (len + 1) % 64 = 0) : pullArgsOk off len = true := by
  unfold pullArgsOk inRange
  simp [aligned, whole]
  omega

theorem dataPullOutput_replies {set : SetId} {off : BitVec 48} {len : BitVec 14} (admits : s.Admits r true)
    (roomy : (s.port r.port.val).Roomy) (aligned : off.toNat % 64 = 0) (least : 64 ≤ len.toNat + 1) (most : len.toNat + 1 ≤ 8192)
    (whole : (len.toNat + 1) % 64 = 0) (low : argsLowZero r = true) (done : (s.tset (setKey r.port set)).life = .done) :
    ∃ t, exec (.dataPullOutput r set off len) s = .next t
      ∧ Replied s t r 0x31 0x0000 (requestEcho r (goField ++ regFields ++ clearField)
          + setArgs set.val false 0 0 false off.toNat 0 len.toNat 0 0 3 false)
        ((s.tset (setKey r.port set)).output.readBytes off.toNat
          (min (len.toNat + 1) ((s.tset (setKey r.port set)).outLen - off.toNat))) := by
  have life : s.lifeOf (setKey r.port set) = 3 := by
    unfold State.lifeOf
    rw [done]
    rfl
  refine ⟨_, ?_, State.replied_heard s 0 r 0x31 _ _ _ roomy ?_⟩
  · show execDataPullOutput r set off len s = _
    unfold execDataPullOutput
    dsimp only
    rw [pullArgsOk_of aligned least most whole, State.serveSet_admitted admits low, State.tset_heard, done, life,
      if_neg (by nofun)]
    rfl
  · rw [Mem.length_readBytes]
    omega

theorem dataPullMemory_replies {set : SetId} {addr : BitVec 48} {len : BitVec 14} (admits : s.Admits r true)
    (roomy : (s.port r.port.val).Roomy) (aligned : addr.toNat % 64 = 0) (least : 64 ≤ len.toNat + 1) (most : len.toNat + 1 ≤ 8192)
    (whole : (len.toNat + 1) % 64 = 0) (low : argsLowZero r = true) (may : s.portMay r.port.val addr.toNat (len.toNat + 1) = true)
    (awake : s.errors.device ≠ 2) (bad : s.fabric.bad = []) (fog : s.fabric.fog = []) (far : s.guard.farOff = false)
    (banks : s.guard.banksOff = 0) (dirty : ∀ q, q < 8 → s.dirty q 32 = []) :
    ∃ t a, exec (.dataPullMemory r set addr len) s = .next t
      ∧ Replied s t r 0x31 0x0000 a (s.fabric.mem.readBytes addr.toNat (len.toNat + 1)) := by
  let h := s.heard r.port.val 0 (chanNo r.chan)
  have read : h.readTier addr.toNat (len.toNat + 1) = .ok (s.fabric.mem.slice addr.toNat (len.toNat + 1)) :=
    State.readTier_clean bad fog far banks dirty ..
  let u := (h.sees [(none, addr.toNat, len.toNat + 1)]).draw
  let args := requestEcho r (goField ++ regFields ++ clearField)
    + setArgs set.val false 0 0 true addr.toNat 0 len.toNat 0 0 (s.lifeOf (setKey r.port set)) false
  refine ⟨u.reply r 0x31 stOk args _, args, ?_, State.replied_of_reply (u := u) ?_ ?_ ?_ ?_ ?_ ?_⟩
  · show execDataPullMemory r set addr len s = _
    unfold execDataPullMemory
    dsimp only
    have noRefusal : ¬ (!h.portMay r.port.val addr.toNat (len.toNat + 1) || decide (h.errors.device = 2)) = true := by
      rw [show h.portMay r.port.val addr.toNat (len.toNat + 1) = true from may, show h.errors.device = s.errors.device from rfl,
        decide_eq_false awake]
      nofun
    rw [pullArgsOk_of aligned least most whole, State.serveSet_admitted admits low, if_neg noRefusal, read]
    dsimp only
    rw [Mem.readBytes_slice _ _ _ (by omega), Nat.add_zero]
    rfl
  · exact State.roomy_heard roomy 0 _
  · rw [Mem.length_readBytes]
    exact most
  · exact (congrArg PortSt.sent (State.port_heard s ..)).trans rfl
  · exact (congrArg PortSt.word (State.port_heard s ..)).trans rfl
  · rfl
  · rfl

end

/-! ### Loads of images (15 R388) -/

section
variable {s : State} {k : Nat}

/-- A command that begins keeps its registers. -/
theorem State.reg_begin (j i : Nat) : ((s.begin k).tset j).reg i = (s.tset j).reg i := by
  unfold State.begin
  rw [State.tset_setTset]
  split
  next here =>
    subst here
    rfl
  next => rfl

/-- The beginning of a command and a change of a context alter no span that unfinished steps write. -/
theorem State.dirty_begin_setCtx (p n q i : Nat) (c : Context) : ((s.begin k).setCtx p n c).dirty q i = s.dirty q i := by
  have seqs : ((s.begin k).setCtx p n c).seq q = s.seq q := rfl
  unfold State.dirty
  rw [seqs]
  dsimp only
  cases (s.seq q).run with
  | none => rfl
  | some r => exact congrArg₂ (fun a b => (s.seq q).dirty (s.squaresOf q) a b i) (State.reg_begin r.key 2) (State.reg_begin r.key 3)

theorem State.readTier_begin_setCtx (p n lo len : Nat) (c : Context) :
    ((s.begin k).setCtx p n c).readTier lo len = s.readTier lo len := by
  have same : ((s.begin k).setCtx p n c).deskBench 0 = s.deskBench 0 := by
    unfold State.deskBench
    simp only [State.dirty_begin_setCtx]
    rfl
  unfold State.readTier
  rw [same]

/-- The shadow of a kind is being loaded with an image. -/
def State.Loading (t : State) (p n : Nat) (kind : Kind) (image : Bank) : Prop :=
  ((t.ctx p n).banks kind).st = .loading ∧ ((t.ctx p n).banks kind).shadow = image

/-- An image that can be read, and is not for gated squares, is in the shadow of its kind at once. -/
theorem State.loading_loadImage {kind : Kind} {m : Mem} (read : s.readTier ((s.tset k).reg 2) ((s.tset k).reg 3) = .ok m)
    (ungated : kind = .scales ∨ kind = .sft → meets (s.part (s.tset k).partNo).defn.squares s.gated = false) :
    (s.loadImage k kind).Loading (s.tset k).partNo (s.tset k).ctxNo kind ⟨true, m, (s.tset k).reg 3, (s.tset k).reg 4⟩ := by
  let p := (s.tset k).partNo
  let n := (s.tset k).ctxNo
  let v := (s.begin k).setCtx p n (((s.begin k).ctx p n).withdraw kind)
  have open' : ¬ (decide (kind = .scales ∨ kind = .sft) && meets (v.part p).defn.squares v.gated) = true := by
    intro h
    obtain ⟨lanes, gated⟩ := Bool.and_eq_true .. |>.mp h
    have calm : meets (v.part p).defn.squares v.gated = false := ungated (of_decide_eq_true lanes)
    rw [calm] at gated
    cases gated
  let u := (v.sees [(none, (s.tset k).reg 2, (s.tset k).reg 3)]).draw.setCtx p n ((v.ctx p n).updBanks [kind] fun b => { b with
    shadow := ⟨true, m, (s.tset k).reg 3, (s.tset k).reg 4⟩, st := .loading })
  have loaded : s.loadImage k kind = u.setStagings (u.stagings ++ [⟨k, p, n, kindNo kind, 0, 0, 0, none⟩]) := by
    unfold State.loadImage
    dsimp only
    rw [if_neg open', State.readTier_begin_setCtx, read]
  rw [loaded]
  unfold State.Loading
  rw [State.ctx_setStagings, State.ctx_setCtx_same, Context.banks_updBanks _ _ _ (List.nodup_singleton kind),
    if_pos (List.mem_singleton.mpr rfl)]
  exact ⟨rfl, rfl⟩

end

section
variable {s : State} {x : Port} {set : SetId} {m : Mem}

theorem stageModelTable_loads (read : s.readTier ((s.tset (setKey x set)).reg 2) ((s.tset (setKey x set)).reg 3) = .ok m)
    (ready : s.readyLoad (setKey x set) 0 .table = true) : ∃ t, exec (.stageModelTable x set) s = .next t
      ∧ t.Loading (s.tset (setKey x set)).partNo (s.tset (setKey x set)).ctxNo .table
        ⟨true, m, (s.tset (setKey x set)).reg 3, (s.tset (setKey x set)).reg 4⟩ :=
  ⟨_, if_pos ready, State.loading_loadImage read (by nofun)⟩

theorem stageModelScales_loads (read : s.readTier ((s.tset (setKey x set)).reg 2) ((s.tset (setKey x set)).reg 3) = .ok m)
    (ready : s.readyLoad (setKey x set) 1 .scales = true)
    (ungated : ¬ meets (s.part (s.tset (setKey x set)).partNo).defn.squares s.gated = true) :
    ∃ t, exec (.stageModelScales x set) s = .next t
      ∧ t.Loading (s.tset (setKey x set)).partNo (s.tset (setKey x set)).ctxNo .scales
        ⟨true, m, (s.tset (setKey x set)).reg 3, (s.tset (setKey x set)).reg 4⟩ :=
  ⟨_, if_pos ready, State.loading_loadImage read fun _ => Bool.eq_false_of_not_eq_true ungated⟩

theorem stageModelSfTables_loads (read : s.readTier ((s.tset (setKey x set)).reg 2) ((s.tset (setKey x set)).reg 3) = .ok m)
    (ready : s.readyLoad (setKey x set) 2 .sft = true)
    (ungated : ¬ meets (s.part (s.tset (setKey x set)).partNo).defn.squares s.gated = true) :
    ∃ t, exec (.stageModelSfTables x set) s = .next t
      ∧ t.Loading (s.tset (setKey x set)).partNo (s.tset (setKey x set)).ctxNo .sft
        ⟨true, m, (s.tset (setKey x set)).reg 3, (s.tset (setKey x set)).reg 4⟩ :=
  ⟨_, if_pos ready, State.loading_loadImage read fun _ => Bool.eq_false_of_not_eq_true ungated⟩

theorem stageModelDistance_loads (read : s.readTier ((s.tset (setKey x set)).reg 2) ((s.tset (setKey x set)).reg 3) = .ok m)
    (ready : s.readyLoad (setKey x set) 4 .dist = true) : ∃ t, exec (.stageModelDistance x set) s = .next t
      ∧ t.Loading (s.tset (setKey x set)).partNo (s.tset (setKey x set)).ctxNo .dist
        ⟨true, m, (s.tset (setKey x set)).reg 3, (s.tset (setKey x set)).reg 4⟩ :=
  ⟨_, if_pos ready, State.loading_loadImage read (by nofun)⟩

end

end Sys2Proof.Machine
end

