-- ==== Sys2Proof/Proofs/CommandsComplete.lean ====
section
/-! The commands complete with their own effect (O60). -/

namespace Sys2Proof.Machine

/-- Settles O60: each clause is the law of its command, for sequencing, the host's side, the media, and power and the
sideband. -/
theorem commandsComplete : Obligations.CommandsComplete := by
  unfold Obligations.CommandsComplete
  refine ⟨fun s p n i r e rest => ⟨?_, ?_, ?_, ?_, ?_, ?_, ?_, ?_, ?_⟩,
    fun s x set idx sub o v req off addr len m => ⟨?_, ?_, ?_, ?_, ?_, ?_, ?_, ?_, ?_, ?_, ?_⟩,
    fun s b block sets key x set => ⟨?_, ?_, ?_, ?_, ?_, ?_⟩,
    fun s idx sub off slotId y a => ⟨?_, ?_, ?_, ?_, ?_, ?_, ?_, ?_, ?_, ?_⟩⟩
  -- Sequencing.
  · intro run late
    obtain ⟨t, step, ended, -, -, -, -, counted, -⟩ := tickOverrun_ends s p r run late
    exact ⟨t, step, ended, counted⟩
  · exact flagFall_falls
  · exact stepStop_falls
  · exact stepStop_ends
  · exact hangWatchdog_restarts
  · exact wait_ends
  · exact waitUntil_ends
  · exact loop_goesBack
  · exact fun at' idle untraced _ => mark_marks at' idle untraced
  -- The host's side.
  · exact persistWriteDone_stores
  · exact dataPullOutput_replies
  · exact dataPullMemory_replies
  · exact fun ready noOther idle free =>
      ⟨sanitizeBlockErase_taken ready noOther idle free, sanitizeCryptoErase_taken ready noOther idle free⟩
  · exact dataTimeout_ends
  · exact fun ready => ⟨contextCreate_begins ready, contextRelease_begins ready, contextTeardown_begins ready⟩
  · exact fun read =>
      ⟨stageModelTable_loads read, stageModelScales_loads read, stageModelSfTables_loads read, stageModelDistance_loads read⟩
  · exact scanCommand_joins
  · exact embed_joins
  · exact inferStep_joins
  · exact refitStep_joins
  -- The media.
  · exact garbageCollection_takes
  · exact readDisturbRelocation_takes
  · exact retentionRefresh_takes
  · exact wearLevelling_takes
  · exact snapshotExpiry_expires
  · exact holdLimitExpiry_expires
  -- Power and the sideband.
  · exact fun l r => lcArmLapse_drops
  · exact fun aux => ⟨smbusPointer_points idx sub off aux, smbusLastStatus_answers aux, alertResponse_answers aux,
      smbusTimeout_resets aux, resetAssert_resets aux, mgmtWatchdog_resets aux, aux3v3Loss_stops aux⟩
  · exact auxPowerOn_boots slotId
  · exact bankExhausted_powersOff
  · exact pwrfailAssert_stops
  · exact presentRemoved_stops
  · exact inputOutOfRange_stops
  · exact railsInRegulation_advances
  · exact stackTrainingDone_advances
  · exact mapRebuildDone_rebuilds

end Sys2Proof.Machine
end

