-- ==== Sys2Proof/Proofs/StepIssue.lean ====
section
/-! The issue of the steps that enter a queue, and the work of their units (O23). -/

namespace Sys2Proof.Machine

/-! ### Changes -/

/-- A place outside of the list has not changed. -/
theorem Changes.same {l : List Place} {s t : State} (h : Changes l s t) (q : Place)
    (out : q ∉ l ∧ q.table ∉ l := by simp [Place.table]) : q.same s t := h q out.1 out.2

theorem Changes.trans {l : List Place} {s t u : State} (h : Changes l s t) (h' : Changes l t u) : Changes l s u :=
  changes_of_keep ((keep_of_changes h').trans (keep_of_changes h))

theorem Changes.mono {l m : List Place} {s t : State} (h : Changes l s t) (sub : l ⊆ m) : Changes m s t :=
  fun q hq ht => h q (fun mem => hq (sub mem)) (fun mem => ht (sub mem))

/-! ### Rounds over the queues -/

section
variable {s t : State} {p k : Nat} {r r' : Run}

/-- A round in which no unit can carry out anything. -/
theorem State.round_still (run : (s.seq p).run = some r) (still : ∀ n, n < 32 → s.runHead p n r = (s, false)) :
    s.round p = (s, false) := by
  have visits (l : List Nat) (queues : ∀ n, n ∈ l → n < 32) : l.foldl (State.visit p) (s, false) = (s, false) := by
    induction l with
    | nil => rfl
    | cons n l ih =>
      have visit : State.visit p (s, false) n = (s, false) := by
        unfold State.visit
        simp only [run, still n (queues n List.mem_cons_self), Bool.or_false]
      rw [List.foldl_cons, visit]
      exact ih fun m hm => queues m (List.mem_cons_of_mem _ hm)
  exact visits _ fun n hn => List.mem_range.mp hn

theorem State.pump_still (run : (s.seq p).run = some r) (still : ∀ n, n < 32 → s.runHead p n r = (s, false)) (m : Nat) :
    s.pump p m = s := by
  cases m with
  | zero => rfl
  | succ m =>
    simp only [State.pump, State.round_still run still]
    rfl

/-- One unit goes on, and then none can. -/
theorem State.pump_once (hk : k < 32) (others : ∀ n, n < 32 → n ≠ k → (s.seq p).calm n) (run : (s.seq p).run = some r)
    (worked : s.runHead p k r = (t, true)) (others' : ∀ n, n < 32 → n ≠ k → (t.seq p).calm n) (run' : (t.seq p).run = some r')
    (still : t.runHead p k r' = (t, false)) (m : Nat) : s.pump p (m + 1) = t := by
  simp only [State.pump, State.round_one hk others run worked others', if_true]
  refine State.pump_still run' (fun n hn => ?_) m
  by_cases h : n = k
  · exact h ▸ still
  · exact State.runHead_calm (others' n hn h)

end

/-! ### The tile queues of a LOADW (04 R106) -/

theorem Bench.vdies_setDie (b : Bench) (d : Nat) (x : Die) : (b.setDie d x).vdies = b.vdies := rfl

theorem vdies_stage {b b' : Bench} {d : Nat} (staged : stage b d = .ok b') : b'.vdies = b.vdies := by
  unfold stage at staged
  split at staged
  · cases read : b.readLws d (tileSpan _).1 (tileSpan _).2 with
    | error e =>
      rw [read] at staged
      cases staged
    | ok m =>
      rw [read] at staged
      cases staged
      rfl
  · cases staged
    rfl

/-- What each die's part of a step leaves unchanged, the step leaves unchanged. -/
theorem Bench.eachDie_keeps {α β : Type} (g : Bench → β) {f : Bench → α → Work Bench}
    (keeps : ∀ b x b', f b x = .ok b' → g b' = g b) (l : List α) {b b' : Bench} (done : Bench.eachDie l b f = .ok b') :
    g b' = g b := by
  refine List.foldlRecOn (motive := fun w : Work Bench => ∀ c, w = .ok c → g c = g b) l _ ?_ ?_ b' done
  · intro c start
    cases start
    rfl
  · intro w kept x _ c worked
    split at worked
    · exact (keeps _ _ _ worked).trans (kept _ rfl)
    · split at worked <;> cases worked
    · cases worked

theorem vdies_loadwWork {b b' : Bench} {w issue : Nat} (loaded : loadwWork b w issue = .ok b') : b'.vdies = b.vdies := by
  unfold loadwWork at loaded
  refine Bench.eachDie_keeps Bench.vdies (fun _ _ _ staged => ?_) _ loaded
  exact (vdies_stage staged).trans (Bench.vdies_setDie ..)

theorem loadwDone_congr {b b' : Bench} (vdies : b'.vdies = b.vdies) (dies : b'.dies = b.dies) (w issue : Nat) :
    loadwDone b' w issue = loadwDone b w issue := by
  unfold loadwDone Bench.span Bench.phys Bench.die
  rw [vdies, dies]

/-- The first visit of the unit puts the tiles into the tile queues. -/
theorem stepWork_loadw {c b : Bench} {e : QStep} {done : Bool} (loadw : wOpcode e.word = opLoadw) (fresh : e.queued = false)
    (work : stepWork c e = .ok (b, done)) : b.vdies = c.vdies ∧ loadwDone b e.word e.issue = done := by
  unfold stepWork at work
  dsimp only at work
  rw [if_pos loadw, fresh] at work
  cases loaded : loadwWork { c with rows := e.rows, starved := e.starved } e.word e.issue with
  | error x =>
    rw [if_neg (by decide), loaded] at work
    cases work
  | ok d =>
    rw [if_neg (by decide), loaded] at work
    cases work
    exact ⟨(vdies_loadwWork loaded :), rfl⟩

/-- A later visit only looks whether the last of them has been taken. -/
theorem stepWork_loadw_queued {c : Bench} {e : QStep} (loadw : wOpcode e.word = opLoadw) (queued : e.queued = true) :
    stepWork c e = .ok ({ c with rows := e.rows, starved := e.starved }, loadwDone c e.word e.issue) := by
  unfold stepWork
  dsimp only
  rw [if_pos loadw, queued]
  rfl

/-! ### A step that is alone in the queues -/

/-- The queues of a sequencer hold one step, in queue `n`, which its unit has not carried out. -/
structure Seq.Holds (q : Seq) (n : Nat) (e : QStep) : Prop where
  queue : q.queue n = [e]
  others : ∀ m, m < 32 → m ≠ n → q.queue m = []
  unran : e.ran = false
  uncut : e.cut = false

section
variable {s : State} {p n : Nat} {r : Run} {e : QStep} {b : Bench} {done : Bool}

theorem Seq.Holds.calm {q : Seq} (h : q.Holds n e) : ∀ m, m < 32 → m ≠ n → q.calm m :=
  fun m hm other => Seq.calm_nil (h.others m hm other)

/-- A REDUCE that is alone waits for no other (12 R317). -/
theorem Seq.Holds.reduceWaits {q : Seq} (h : q.Holds n e) : q.reduceWaits n e = false := by
  unfold Seq.reduceWaits
  by_cases reduce : n = 29 ∨ n = 30
  · rw [h.others (59 - n) (by omega) (by omega)]
    exact Bool.and_false _
  · have : (decide (n = 29) || decide (n = 30)) = false := by simpa using reduce
    rw [this, Bool.false_and]

theorem Seq.Holds.visited {q : Seq} (h : q.Holds n e) : ¬ (e.ran || e.cut || q.reduceWaits n e) = true := by
  rw [h.unran, h.uncut, h.reduceWaits]
  decide

theorem Seq.Holds.setHead {q : Seq} (h : q.Holds n e) (e' : QStep) : q.setHead n e' = { q with queues := q.queues.set n [e'] } := by
  unfold Seq.setHead
  rw [Seq.at_of_unran h.queue h.unran, h.queue]
  rfl

/-- What the queues hold once the step's own queue has changed. -/
theorem Seq.Holds.set {q q' : Seq} (h : q.Holds n e) (l : List QStep) (set : q'.queues = q.queues.set n l) :
    q'.queue n = l ∧ ∀ m, m < 32 → m ≠ n → q'.queue m = [] := by
  unfold Seq.queue
  rw [set]
  refine ⟨Tab.get_set_same .., fun m hm other => ?_⟩
  rw [Tab.get_set_other _ _ _ other]
  exact h.others m hm other

/-- A step that is alone in the queues has torn no tile of another step (04 R108). -/
theorem State.tornTiles_alone (queue : ∀ o, o ∈ (s.seq p).queue n → o.issue = e.issue)
    (others : ∀ m, m < 32 → m ≠ n → (s.seq p).queue m = []) (saved : List Saved) : s.tornTiles p e saved = s := by
  have none' : ((List.range 32).flatMap (s.seq p).queue).filter (fun o => !o.cut && decide (o.issue ≠ e.issue)) = [] := by
    refine List.filter_eq_nil_iff.mpr fun o mem => ?_
    obtain ⟨m, hm, ho⟩ := List.mem_flatMap.mp mem
    by_cases h : m = n
    · simp [queue o (h ▸ ho)]
    · rw [others m (List.mem_range.mp hm) h] at ho
      cases ho
  unfold State.tornTiles
  dsimp only
  rw [none', List.filter_nil, List.isEmpty_nil, if_pos rfl, ite_self]

/-! ### The work of its unit -/

/-- What a bench leaves behind. -/
def Bench.stores (b : Bench) : Fabric := ⟨b.mem, b.bad, b.fog, b.walks, b.dies⟩

/-- Putting a bench back changes, besides what it leaves, counters, and what flash translation reads. -/
theorem State.changes_putBench (s : State) (b : Bench) (stamp : Nat) :
    Changes [.dict, .free, .media, .observe] (s.setFabric b.stores) (s.putBench b stamp).1 := by
  refine changes_of_keep ?_
  unfold State.putBench
  dsimp only
  rw [State.keep_draw _ (by simp)]
  refine (keep_fold_pair _ _ (fun a f => ?_) _).trans ?_
  · exact State.keep_flashSlots _ _ _ _ _ (by simp) (by simp) (by simp)
  · simp [Bench.stores]

/-- The time of flash channels that a step used, if it used any. -/
def channelUse (ns : Nat) : List (Nat × Nat) := if ns = 0 then [] else [(4, ns)]

/-- The entry of a step once its unit has worked on it, on the bench `b`. -/
def QStep.worked (e : QStep) (b : Bench) (done : Bool) (ns : Nat) : QStep :=
  { e with
    ran := done, queued := decide (wOpcode e.word = opLoadw), rows := b.rows, saved := b.saved ++ e.saved
    slots := mergeSlots b.slots ++ e.slots, used := channelUse ns ++ b.used ++ e.used, tiles := b.tiles ++ e.tiles
    starved := b.starved, tally := b.tally ++ e.tally }

/-- The bench of a step is put back, and the requests of its work are put; the time of flash channels. -/
def State.benched (s : State) (p : Nat) (r : Run) (e : QStep) (b : Bench) : State × Nat :=
  let h := (s.sees (s.stepReads p e.word)).putBench b r.stamp
  (h.1.becomePending p (channelUse h.2 ++ b.used), h.2)

theorem State.changes_benched (s : State) (p : Nat) (r : Run) (e : QStep) (b : Bench) :
    Changes [.dict, .free, .media, .observe, .vtimes] ((s.sees (s.stepReads p e.word)).setFabric b.stores) (s.benched p r e b).1 := by
  refine changes_of_keep ?_
  unfold State.benched
  dsimp only
  rw [State.keep_becomePending _ _ _ (by simp)]
  exact keep_of_changes fun q hq ht => State.changes_putBench _ b r.stamp q (by simp_all) (by simp_all)

theorem State.seq_benched : (s.benched p r e b).1.seq p = s.seq p :=
  (State.changes_benched s p r e b).same (.seq p)

theorem State.fabric_benched : (s.benched p r e b).1.fabric = b.stores :=
  (State.changes_benched s p r e b).same .fabric

/-- The state once a unit has worked on the only step of the queues. -/
def State.worked (s : State) (p n : Nat) (r : Run) (e : QStep) (b : Bench) (done : Bool) : State :=
  let v := s.benched p r e b
  let q := { s.seq p with queues := (s.seq p).queues.set n [e.worked b done v.2] }
  (v.1.setSeq p q).setSeq p { q with run := some { r with program := b.copies } }

theorem State.seq_worked : (s.worked p n r e b done).seq p = { s.seq p with
    queues := (s.seq p).queues.set n [e.worked b done (s.benched p r e b).2], run := some { r with program := b.copies } } := by
  unfold State.worked
  rw [State.seq_setSeq_same]

theorem State.run_worked : ((s.worked p n r e b done).seq p).run = some { r with program := b.copies } :=
  congrArg Seq.run State.seq_worked

theorem State.issued_worked : ((s.worked p n r e b done).seq p).issued = (s.seq p).issued := by
  rw [State.seq_worked]

theorem State.queue_worked (m : Nat) : ((s.worked p n r e b done).seq p).queue m
    = if m = n then [e.worked b done (s.benched p r e b).2] else (s.seq p).queue m :=
  (congrArg (Seq.queue · m) State.seq_worked).trans (Tab.get_set ..)

theorem State.fabric_worked : (s.worked p n r e b done).fabric = b.stores := State.fabric_benched

theorem State.changes_worked (s : State) (p n : Nat) (r : Run) (e : QStep) (b : Bench) (done : Bool) :
    Changes [.seq p, .fabric, .tiers, .dies, .media, .dict, .guard, .observe, .free, .vtimes] s (s.worked p n r e b done) := by
  refine changes_of_keep ?_
  unfold State.worked State.benched
  simp

/-- The unit works on the step, and does not stop it. -/
theorem State.runHead_works (holds : (s.seq p).Holds n e) (unmarked : wOpcode e.word ≠ opMark)
    (work : stepWork (s.bench p n r) e = .ok (b, done)) (goesOn : done = true ∨ (wOpcode e.word = opLoadw ∧ e.queued = false)) :
    s.runHead p n r = (s.worked p n r e b done, true) := by
  have moves : ¬ (!done && decide (progress b.rows = progress e.rows) && decide (b.starved = e.starved)
      && (e.queued || decide (wOpcode e.word ≠ opLoadw))) = true := by
    rcases goesOn with rfl | ⟨loadw, fresh⟩
    · nofun
    · simp [loadw, fresh]
  have used (ns : Nat) : (if ns = 0 then b.used else (4, ns) :: b.used) = channelUse ns ++ b.used := by
    unfold channelUse
    split <;> rfl
  have kept := State.seq_benched (s := s) (p := p) (r := r) (e := e) (b := b)
  have untorn (v : State) (ns : Nat) : (v.setSeq p { s.seq p with queues := (s.seq p).queues.set n [e.worked b done ns] }).tornTiles
      p e b.saved = v.setSeq p { s.seq p with queues := (s.seq p).queues.set n [e.worked b done ns] } := by
    obtain ⟨queue, others⟩ := holds.set (q' := { s.seq p with queues := (s.seq p).queues.set n [e.worked b done ns] }) _ rfl
    refine State.tornTiles_alone (n := n) ?_ ?_ b.saved
    · rw [State.seq_setSeq_same, queue]
      exact fun o mem => List.mem_singleton.mp mem ▸ rfl
    · rwa [State.seq_setSeq_same]
  unfold QStep.worked at untorn
  unfold State.runHead State.worked QStep.worked
  unfold State.benched at kept ⊢
  dsimp only at kept untorn ⊢
  rw [Seq.at_of_unran holds.queue holds.unran, holds.queue]
  dsimp only [List.getElem?_cons_zero]
  rw [if_neg holds.visited, if_neg unmarked, work]
  dsimp only
  rw [if_neg moves, used, kept, holds.setHead, untorn, State.seq_setSeq_same]

/-- The unit finds nothing that it can do for the step yet. -/
theorem State.runHead_waits (holds : (s.seq p).Holds n e) (unmarked : wOpcode e.word ≠ opMark)
    (work : stepWork (s.bench p n r) e = .ok (b, false)) (rows : progress b.rows = progress e.rows)
    (starved : b.starved = e.starved) (idle : wOpcode e.word = opLoadw → e.queued = true) : s.runHead p n r = (s, false) := by
  have stays : (!false && decide (progress b.rows = progress e.rows) && decide (b.starved = e.starved)
      && (e.queued || decide (wOpcode e.word ≠ opLoadw))) = true := by
    by_cases loadw : wOpcode e.word = opLoadw
    · simp [rows, starved, idle loadw]
    · simp [rows, starved, loadw]
  unfold State.runHead
  dsimp only
  rw [Seq.at_of_unran holds.queue holds.unran, holds.queue]
  dsimp only [List.getElem?_cons_zero]
  rw [if_neg holds.visited, if_neg unmarked, work]
  exact if_pos stays

/-- The unit carries the step out, and the units have nothing more to do. -/
theorem State.pump_done (hn : n < 32) (holds : (s.seq p).Holds n e) (run : (s.seq p).run = some r) (unmarked : wOpcode e.word ≠ opMark)
    (work : stepWork (s.bench p n r) e = .ok (b, true)) : s.pump p pumpFuel = s.worked p n r e b true := by
  obtain ⟨queue, others⟩ := holds.set (q' := (s.worked p n r e b true).seq p) _ (congrArg Seq.queues State.seq_worked)
  exact State.pump_once hn holds.calm run (State.runHead_works holds unmarked work (.inl rfl))
    (fun m hm other => Seq.calm_nil (others m hm other)) State.run_worked (State.runHead_ran queue rfl) 1023

/-- A LOADW has put its tiles into the tile queues, and waits for the last of them to be taken (04 R106). -/
theorem State.pump_loadw (hn : n < 32) (holds : (s.seq p).Holds n e) (run : (s.seq p).run = some r)
    (loadw : wOpcode e.word = opLoadw) (fresh : e.queued = false) (work : stepWork (s.bench p n r) e = .ok (b, false)) :
    s.pump p pumpFuel = s.worked p n r e b false := by
  have unmarked : wOpcode e.word ≠ opMark := by
    rw [loadw]
    decide
  let t := s.worked p n r e b false
  let e' := e.worked b false (s.benched p r e b).2
  obtain ⟨queue, others⟩ := holds.set (q' := t.seq p) [e'] (congrArg Seq.queues State.seq_worked)
  have holds' : (t.seq p).Holds n e' := ⟨queue, others, rfl, holds.uncut⟩
  have queued : e'.queued = true := decide_eq_true loadw
  obtain ⟨vdies, left⟩ := stepWork_loadw loadw fresh work
  have squares : t.squaresOf p = s.squaresOf p := by
    have part : t.part p = s.part p :=
      (State.changes_worked s p n r e b false).same (.part p)
    unfold State.squaresOf
    rw [part]
  let r' : Run := { r with program := b.copies }
  have vdies' : (t.bench p n r').vdies = b.vdies := squares.trans vdies.symm
  have dies' : (t.bench p n r').dies = b.dies := congrArg Fabric.dies State.fabric_worked
  have waits : loadwDone (t.bench p n r') e'.word e'.issue = false := (loadwDone_congr vdies' dies' ..).trans left
  have looks : stepWork (t.bench p n r') e' = .ok ({ t.bench p n r' with rows := e'.rows, starved := e'.starved }, false) :=
    waits ▸ stepWork_loadw_queued (c := t.bench p n r') (e := e') loadw queued
  have still : t.runHead p n r' = (t, false) := State.runHead_waits holds' unmarked looks rfl rfl fun _ => queued
  refine State.pump_once hn holds.calm run (State.runHead_works holds unmarked work (.inr ⟨loadw, fresh⟩)) holds'.calm
    State.run_worked still 1023

/-- The step cannot begin yet. -/
theorem State.pump_waits (holds : (s.seq p).Holds n e) (run : (s.seq p).run = some r) (unmarked : wOpcode e.word ≠ opMark)
    (unloaded : wOpcode e.word ≠ opLoadw) (work : stepWork (s.bench p n r) e = .ok (b, false))
    (rows : progress b.rows = progress e.rows) (starved : b.starved = e.starved) (m : Nat) : s.pump p m = s := by
  refine State.pump_still run (fun k hk => ?_) m
  by_cases h : k = n
  · exact h ▸ State.runHead_waits holds unmarked work rows starved fun loadw => absurd loadw unloaded
  · exact State.runHead_calm (holds.calm k hk h)

end

/-! ### Issue (03 R80) -/

section
variable {s : State} {p : Part} {r : Run} {f : Nat → Bool}

/-- A step enters its empty queue. -/
theorem State.entered_idle {v : State} {k n : Nat} {e : QStep} (empty : (v.seq k).queue n = []) : v.entered k r n e = v.setSeq k { v.seq k with
    issued := (v.seq k).issued + 1, queues := (v.seq k).queues.set n [e], run := some { r with next := r.next + 1 } } := by
  unfold State.entered
  rw [empty]
  rfl

/-- What keeps a sequencer from issuing: a WAIT, a stop of the device, a step of another kind, or a full queue. -/
theorem State.issue_held (run : (s.seq p.val).run = some r)
    (held : r.waiting = true ∨ s.deviceStop = true ∨ f (stepWord r.table r.next) = false
      ∨ 16 ≤ ((s.seq p.val).queue (wQueue (stepWord r.table r.next))).length) : s.issue p.val f = s := by
  unfold State.issue
  dsimp only
  rw [run]
  refine if_pos ?_
  simp only [Bool.or_eq_true, Bool.not_eq_true', decide_eq_true_eq]
  tauto

/-- A command that issues the steps that `f` holds for, none of them a MARK. -/
def Issues (p : Part) (c : Instr) (f : Nat → Bool) : Prop :=
  (∀ s, exec c s = .next (s.issue p.val f)) ∧ ∀ w, f w = true → wOpcode w ≠ opMark

/-- A step alone in its queue, as it was issued. -/
theorem State.entered_holds {v : State} {k n : Nat} {e : QStep} (idle : (v.seq k).unitsIdle = true) (hn : n < 32)
    (unran : e.ran = false) (uncut : e.cut = false) : ((v.entered k r n e).seq k).Holds n e where
  queue := (State.entered_queue idle hn hn).trans (if_pos rfl)
  others _ hm other := (State.entered_queue idle hn hm).trans (if_neg other)
  unran := unran
  uncut := uncut

theorem State.seq_entered {v : State} {k n : Nat} {e : QStep} : (v.entered k r n e).seq k = { v.seq k with
    issued := (v.seq k).issued + 1, queues := (v.seq k).queues.set n ((v.seq k).queue n ++ [e])
    run := some { r with next := r.next + 1 } } := State.seq_setSeq_same ..

/-- The state in which the unit of a step has worked on it as it was issued, nothing else being in the queues. -/
theorem State.worked_entered {k n : Nat} {e : QStep} (s : State) (r : Run) (b : Bench) (done : Bool) :
    let u := s.draw.entered k r n e
    let r' := { r with next := r.next + 1 }
    let t := u.worked k n r' e b done
    (t.seq k).run = some { r' with program := b.copies } ∧ (t.seq k).issued = (s.seq k).issued + 1
      ∧ (t.seq k).queue n = [e.worked b done (u.benched k r' e b).2] ∧ (∀ m, m ≠ n → (t.seq k).queue m = (s.seq k).queue m)
      ∧ Changes [.seq k, .fabric, .tiers, .dies, .media, .dict, .guard, .observe, .free, .vtimes] s t := by
  intro u r' t
  have entry : keep [.seq k, .free] u = keep [.seq k, .free] s := by simp [u, State.entered]
  refine ⟨State.run_worked, ?_, ?_, fun m other => ?_, ((changes_of_keep entry).mono (by simp)).trans (u.changes_worked k n r' e b done)⟩
  · rw [State.issued_worked, State.seq_entered]
    rfl
  · rw [State.queue_worked, if_pos rfl]
  · rw [State.queue_worked, if_neg other, State.seq_entered]
    exact Tab.get_set_other _ _ _ other

/-- The entry of a step that has just been issued, once its unit has worked on it. -/
theorem QStep.worked_issued {i w j at' o : Nat} (opcode : wOpcode w = o) (b : Bench) (done : Bool) (ns : Nat) :
    (QStep.issued i w j at').worked b done ns = { QStep.issued i w j at' with
      ran := done, queued := decide (o = opLoadw), rows := b.rows, saved := b.saved, slots := mergeSlots b.slots
      used := channelUse ns ++ b.used, tiles := b.tiles, starved := b.starved, tally := b.tally } := by
  subst opcode
  unfold QStep.worked QStep.issued
  simp only [List.append_nil]

end

/-- Settles O23: the step that is issued is alone in the queues, so what the units do is the work of its own unit. -/
theorem stepsAreIssued : Obligations.StepsAreIssued := by
  unfold Obligations.StepsAreIssued
  intro s p r c f op issuer run w e r' u work
  have issues : Issues p c f := by
    simp only [List.mem_cons, List.not_mem_nil, or_false, Prod.mk.injEq] at issuer
    rcases issuer with ⟨rfl, rfl⟩ | ⟨rfl, rfl⟩ | ⟨rfl, rfl⟩ | ⟨rfl, rfl⟩ | ⟨rfl, rfl⟩ | ⟨rfl, rfl⟩ | ⟨rfl, rfl⟩ | ⟨rfl, rfl⟩
      | ⟨rfl, rfl⟩ | ⟨rfl, rfl⟩ | ⟨rfl, rfl⟩ | ⟨rfl, rfl⟩ | ⟨rfl, rfl⟩ | ⟨rfl, rfl⟩ | ⟨rfl, rfl⟩ | ⟨rfl, rfl⟩ | ⟨rfl, rfl⟩
      | ⟨rfl, rfl⟩ | ⟨rfl, rfl⟩ | ⟨rfl, rfl⟩
    all_goals exact ⟨fun _ => rfl, fun w kind marked => by
      simp [op, marked, opMark, opLoadw, opStream, opDrain, opSfn, opNorm, opChain, opPqtab, opSelect, opFetch, opScan, opCheck,
        opWalk, opReduce] at kind⟩
  obtain ⟨issued, unmarked⟩ := issues
  refine ⟨fun moves running inTable kind idle untraced opcode => ?_, fun held => ?_⟩
  · have hn : wQueue w < 32 := Nat.mod_lt _ (by decide)
    have entered : s.draw.entered p.val r (wQueue w) e = u := State.entered_idle (Seq.queue_of_idle idle hn)
    have holds : (u.seq p.val).Holds (wQueue w) e := entered ▸ State.entered_holds (v := s.draw) idle hn rfl rfl
    have urun : (u.seq p.val).run = some r' := congrArg Seq.run (State.seq_setSeq_same ..)
    have exec_eq : exec c s = .next (u.pump p.val pumpFuel) := by
      rw [issued, State.issue_now run moves running inTable kind idle untraced, entered]
    have unmarked' : wOpcode e.word ≠ opMark := fun marked => unmarked w kind (opcode.symm.trans marked)
    have worked := State.worked_entered (k := p.val) (n := wQueue w) (e := e) s r
    rw [entered] at worked
    refine ⟨fun b done => ?_, fun b waits loadw => ?_, fun b waits rows starved unloaded => ?_⟩
    · obtain ⟨run', count, queue, others, changes⟩ := worked b true
      have queue' := queue.trans (congrArg (fun x => [x]) (QStep.worked_issued opcode ..))
      refine ⟨_, _, ?_, State.fabric_worked, run', count, queue', others, changes⟩
      rw [exec_eq, State.pump_done hn holds urun unmarked' done]
    · obtain ⟨run', count, queue, others, changes⟩ := worked b false
      refine ⟨_, ?_, State.fabric_worked, run', count, ⟨_, queue, rfl, rfl, rfl, decide_eq_true (opcode.trans loadw)⟩, others, changes⟩
      rw [exec_eq, State.pump_loadw hn holds urun (opcode.trans loadw) rfl waits]
    · rw [exec_eq, State.pump_waits holds urun unmarked' (fun loadw => unloaded (opcode.symm.trans loadw)) waits rows starved]
  · rw [issued, State.issue_held run held]

end Sys2Proof.Machine
end

