-- ==== Sys2Proof/Proofs/SequencerSteps.lean ====
section
/-! MARK, WAIT, WAIT_UNTIL and LOOP, and what a freeze of the counters by a MARK does (O24). -/

namespace Sys2Proof.Machine

/-! ### Traces -/

section
variable {s : State} {p : Nat} {r : Run}

theorem State.sameGov_trace (s : State) (p source kind tag step ctx arg arg2 : Nat) :
    s.SameGov (s.trace p source kind tag step ctx arg arg2) := by
  intro i j
  unfold State.trace
  dsimp only
  split
  · rfl
  · split <;> simp

theorem State.SameGov.untraced {t : State} (h : s.SameGov t) (off : s.untraced p) : t.untraced p := by
  unfold State.untraced at off ⊢
  rwa [h]

theorem State.traceStep_off (off : s.untraced p) (kind : Nat) (r : Run) : s.traceStep p kind r = s := State.trace_off off ..

theorem State.sameGov_traceStep (s : State) (p kind : Nat) (r : Run) : s.SameGov (s.traceStep p kind r) :=
  State.sameGov_trace s p _ _ _ _ _ _ _

/-- What is changed by the sequencer of a partition and by its step trace, where that is on (19 R471). -/
def State.Sequences (s t : State) (p : Nat) : Prop :=
  Changes [.seq p, .fabric, .tiers, .dict, .free] s t ∧ (s.untraced p → Changes [.seq p] s t)

/-! ### WAIT and WAIT_UNTIL (03 R86) -/

theorem State.endWait_untraced (off : s.untraced p) : Changes [.seq p] s (s.endWait p) := by
  refine changes_of_keep ?_
  unfold State.endWait
  dsimp only
  split
  · rfl
  · rw [State.traceStep_off off]
    split <;> simp

/-- The WAIT in force goes on while UNTIL has not passed or a queue of its mask holds a step. -/
theorem State.endWait_goesOn (run : (s.seq p).run = some r)
    (goesOn : ¬ (r.untilPassed = true ∧ Nat.land (wMask (stepWord r.table r.next)) (s.seq p).completion
      = wMask (stepWord r.table r.next))) : s.endWait p = s := by
  unfold State.endWait
  dsimp only
  rw [run]
  refine if_neg fun ends => goesOn ?_
  simpa [Seq.waitDone] using (Bool.and_eq_true .. |>.mp ends).2

end

section
variable {s : State} {p : Part} {r : Run}

/-- The batch step with a WAIT in force. -/
def Run.holding (r : Run) (passed : Bool) : Run := { r with waiting := true, untilPassed := passed }

theorem execWait_eq (at' : s.atStep p.val opWait = some r) : exec (.wait p) s = .next (((s.traceStep p.val 0 r).setSeq p.val
    { s.seq p.val with run := some (r.holding (decide (wUntil (stepWord r.table r.next) = 0))) }).endWait p.val) := by
  show execWait p s = _
  unfold execWait
  rw [at']
  rfl

theorem execWaitUntil_eq (run : (s.seq p.val).run = some r) (waiting : r.waiting = true) : exec (.waitUntil p) s
    = .next ((s.setSeq p.val { s.seq p.val with run := some { r with untilPassed := true } }).endWait p.val) := by
  show execWaitUntil p s = _
  unfold execWaitUntil
  rw [run]
  exact if_pos waiting

theorem State.sequences_wait (s : State) (p : Nat) (r : Run) (q : Seq) :
    s.Sequences (((s.traceStep p 0 r).setSeq p q).endWait p) p := by
  refine ⟨changes_of_keep (by simp), fun off => ?_⟩
  rw [State.traceStep_off off]
  exact Changes.trans (changes_of_keep (by simp)) (State.endWait_untraced off)

theorem State.sequences_waitUntil (s : State) (p : Nat) (q : Seq) : s.Sequences ((s.setSeq p q).endWait p) p :=
  ⟨changes_of_keep (by simp), fun off => Changes.trans (changes_of_keep (by simp)) (State.endWait_untraced off)⟩

theorem wait_holds (at' : s.atStep p.val opWait = some r)
    (goesOn : ¬ (wUntil (stepWord r.table r.next) = 0 ∧ Nat.land (wMask (stepWord r.table r.next)) (s.seq p.val).completion
      = wMask (stepWord r.table r.next))) :
    ∃ t, exec (.wait p) s = .next t ∧ s.Sequences t p.val
      ∧ t.seq p.val = { s.seq p.val with run := some (r.holding (decide (wUntil (stepWord r.table r.next) = 0))) } := by
  refine ⟨_, execWait_eq at', State.sequences_wait .., ?_⟩
  rw [State.endWait_goesOn (r := r.holding (decide (wUntil (stepWord r.table r.next) = 0))), State.seq_setSeq_same]
  · rw [State.seq_setSeq_same]
  · rw [State.seq_setSeq_same]
    exact fun h => goesOn ⟨of_decide_eq_true h.1, h.2⟩

theorem wait_passes (at' : s.atStep p.val opWait = some r) (noUntil : wUntil (stepWord r.table r.next) = 0)
    (clear : Nat.land (wMask (stepWord r.table r.next)) (s.seq p.val).completion = wMask (stepWord r.table r.next)) :
    ∃ t, exec (.wait p) s = .next t ∧ s.Sequences t p.val
      ∧ t.seq p.val = { s.seq p.val with run := some r.waited, stuck := 0, stepped := true } := by
  refine ⟨_, execWait_eq at', State.sequences_wait .., ?_⟩
  obtain ⟨t, exec_eq, seq⟩ := wait_ends at' noUntil clear
  rw [execWait_eq at', Host.Outcome.next.injEq] at exec_eq
  rw [exec_eq, seq]

theorem waitUntil_passes (run : (s.seq p.val).run = some r) (waiting : r.waiting = true)
    (clear : Nat.land (wMask (stepWord r.table r.next)) (s.seq p.val).completion = wMask (stepWord r.table r.next)) :
    ∃ t, exec (.waitUntil p) s = .next t ∧ s.Sequences t p.val
      ∧ t.seq p.val = { s.seq p.val with run := some r.waited, stuck := 0, stepped := true } := by
  refine ⟨_, execWaitUntil_eq run waiting, State.sequences_waitUntil .., ?_⟩
  obtain ⟨t, exec_eq, seq⟩ := waitUntil_ends run waiting clear
  rw [execWaitUntil_eq run waiting, Host.Outcome.next.injEq] at exec_eq
  rw [exec_eq, seq]

theorem waitUntil_holds (run : (s.seq p.val).run = some r) (waiting : r.waiting = true)
    (unclear : ¬ Nat.land (wMask (stepWord r.table r.next)) (s.seq p.val).completion = wMask (stepWord r.table r.next)) :
    ∃ t, exec (.waitUntil p) s = .next t ∧ s.Sequences t p.val
      ∧ t.seq p.val = { s.seq p.val with run := some { r with untilPassed := true } } := by
  refine ⟨_, execWaitUntil_eq run waiting, State.sequences_waitUntil .., ?_⟩
  rw [State.endWait_goesOn (r := { r with untilPassed := true }), State.seq_setSeq_same]
  · rw [State.seq_setSeq_same]
  · rw [State.seq_setSeq_same]
    exact fun h => unclear h.2

/-! ### LOOP (03 R87) -/

/-- The batch step behind a LOOP that its sequencer has carried out. -/
def Run.looped (r : Run) : Run :=
  let w := stepWord r.table r.next
  let i := r.loops.getD (wLevel w) 0
  if i < wLoopCount w then { r with loops := r.loops.set (wLevel w) (i + 1), next := wTarget w }
  else { r with loops := r.loops.set (wLevel w) 0, next := r.next + 1 }

theorem loop_loops (at' : s.atStep p.val opLoop = some r) : ∃ t, exec (.loop p) s = .next t ∧ s.Sequences t p.val
    ∧ t.seq p.val = { s.seq p.val with run := some r.looped, stuck := 0, stepped := true } := by
  have exec_eq : exec (.loop p) s = .next (((s.traceStep p.val 0 r).traceStep p.val 1 r).setSeq p.val { s.seq p.val with
      run := some r.looped, stuck := 0, stepped := true }) := by
    show execLoop p s = _
    unfold execLoop
    rw [at']
    rfl
  refine ⟨_, exec_eq, ⟨changes_of_keep (by simp), fun off => ?_⟩, State.seq_setSeq_same ..⟩
  rw [State.traceStep_off off, State.traceStep_off off]
  exact changes_of_keep (by simp)

end

/-! ### Freezes (19 R466, R467) -/

/-- The timestamp counters began at the same times. -/
def State.SameClocks (s t : State) : Prop := ∀ src, t.origin src = s.origin src

theorem State.sameClocks_passOn (s : State) (whole : Bool) : s.SameClocks (s.passOn whole) := by
  have each (ids l : List Nat) (s : State) : s.SameClocks (s.each l fun s _ => s.passRead ids) :=
    State.each_rel (R := State.SameClocks) (fun _ _ => rfl) (fun _ _ _ h h' src => (h' src).trans (h src))
      (fun s _ => s.passRead ids) (fun _ _ _ => rfl) l s
  unfold State.passOn
  split
  · exact fun _ => rfl
  · exact fun src => each _ _ s src

/-- What a freeze of counters that run does. -/
theorem State.freezeCounters_running {s : State} (runs : s.observe.frozen = false) (at' : Nat) :
    (s.freezeCounters at').observe.frozen = true ∧ (s.freezeCounters at').observe.armed = 0
      ∧ (s.freezeCounters at').observe.frozenAt = at'
      ∧ (s.freezeCounters at').obj 0x9001 6 = (s.stampOf mgmtClock at').toNat ∧ OnlyObjs [(0x9001, 6)] s (s.freezeCounters at') := by
  have stamp (u : State) (clocks : s.SameClocks u) : u.stampOf mgmtClock at' = s.stampOf mgmtClock at' := by
    unfold State.stampOf
    rw [clocks]
  unfold State.freezeCounters
  rw [if_neg (by rw [runs]; nofun)]
  dsimp only
  refine ⟨rfl, rfl, rfl, ?_, ?_⟩
  · have width : objBits 0x9001 6 = 64 := by decide
    rw [State.obj_put, if_pos rfl, width, Nat.mod_mod, Nat.mod_eq_of_lt (BitVec.isLt _)]
    exact congrArg BitVec.toNat (stamp _ (State.sameClocks_passOn s false))
  · exact OnlyObjs.trans (OnlyObjs.of_eq (l := []) (by simp) (by simp)) (onlyObjs_put ..)

/-- A freeze of counters that are frozen is counted and ignored. -/
theorem State.freezeCounters_frozen {s : State} (frozen : s.observe.frozen = true) (at' : Nat) :
    s.freezeCounters at' = s.bumpSat 0x9001 9 1 := by
  unfold State.freezeCounters
  exact if_pos frozen

/-- A MARK of value `v` is the one whose freeze is armed (19 R467). -/
def State.marksFreeze (s : State) (v : Nat) : Prop := s.gov 0x9001 4 = v ∧ bitOf s.observe.armed.toNat 3 = true

/-- What a MARK of value `v` does to the counters. -/
def State.markFreeze (s : State) (v : Nat) : State := if s.gov 0x9001 4 = v then (s.freezeSource 3 s.timeNow).draw else s

section
variable {s : State} {v : Nat}

theorem State.markFreeze_hit (hit : s.marksFreeze v) : s.markFreeze v = (s.freezeCounters s.timeNow).draw := by
  unfold State.markFreeze State.freezeSource
  rw [if_pos hit.1, if_pos hit.2]

theorem State.changes_markFreeze (s : State) (v : Nat) : Changes [.dict, .observe, .free] s (s.markFreeze v) := by
  refine changes_of_keep ?_
  unfold State.markFreeze
  simp

theorem State.markFreeze_missed (missed : ¬ s.marksFreeze v) : Changes [.free] s (s.markFreeze v) := by
  refine changes_of_keep ?_
  unfold State.markFreeze State.freezeSource
  split
  next value =>
    rw [if_neg fun armed => missed ⟨value, armed⟩]
    simp
  · rfl

theorem State.sameGov_markFreeze (s : State) (v : Nat) : s.SameGov (s.markFreeze v) := by
  intro i j
  unfold State.markFreeze
  split
  · exact State.gov_congr (State.freezeSource_gov ..) (by simp) i j
  · rfl

end

/-! ### MARK (03 R74) -/

section
variable {s : State} {p n : Nat} {r : Run} {e : QStep}

/-- The state once the unit of queue `n` has carried out the MARK `e`. -/
def State.marked (s : State) (p n : Nat) (r : Run) (e : QStep) : State :=
  let v := wMarkValue e.word
  let a := (s.setCtx p r.ctx.val { s.ctx p r.ctx.val with lastMark := BitVec.ofNat 32 (v * 65536 + e.index) }).trace
    p (64 + p) 4 (wTraceTag e.word) e.index r.ctx.val v 0
  let b := a.markFreeze v
  (b.setSeq p { s.seq p with queues := (s.seq p).queues.set n [], stuck := 0, stepped := true }).trace
    p (64 + p) 1 (wTraceTag e.word) e.index r.ctx.val 0 0

theorem State.runHead_marks (holds : (s.seq p).Holds n e) (mark : wOpcode e.word = opMark) :
    s.runHead p n r = (s.marked p n r e, true) := by
  unfold State.runHead
  dsimp only
  rw [Seq.at_of_unran holds.queue holds.unran, holds.queue]
  dsimp only [List.getElem?_cons_zero]
  rw [if_neg holds.visited, if_pos mark]
  unfold State.marked State.markFreeze
  dsimp only
  rw [State.seq_marked, State.seq_trace, State.seq_setCtx, Seq.at_of_unran holds.queue holds.unran, holds.queue]
  rfl

theorem State.seq_markFreeze (s : State) (v q : Nat) : (s.markFreeze v).seq q = s.seq q :=
  (State.changes_markFreeze s v).same (.seq q)

theorem State.ctx_markFreeze (s : State) (v q m : Nat) : (s.markFreeze v).ctx q m = s.ctx q m :=
  (State.changes_markFreeze s v).same (.ctx (q * 16 + m))

theorem State.observe_trace (s : State) (p source kind tag step ctx arg arg2 : Nat) :
    (s.trace p source kind tag step ctx arg arg2).observe = s.observe :=
  (State.changes_trace s p source kind tag step ctx arg arg2).same .observe

theorem State.seq_marked_step : (s.marked p n r e).seq p
    = { s.seq p with queues := (s.seq p).queues.set n [], stuck := 0, stepped := true } := by
  unfold State.marked
  rw [State.seq_trace, State.seq_setSeq_same]

theorem State.ctx_marked_step : (s.marked p n r e).ctx p r.ctx.val
    = { s.ctx p r.ctx.val with lastMark := BitVec.ofNat 32 (wMarkValue e.word * 65536 + e.index) } := by
  unfold State.marked
  rw [State.ctx_trace, State.ctx_setSeq, State.ctx_markFreeze, State.ctx_trace, State.ctx_setCtx_same]

theorem State.changes_marked (s : State) (p n : Nat) (r : Run) (e : QStep) :
    Changes [.seq p, .ctx (p * 16 + r.ctx.val), .fabric, .tiers, .dict, .observe, .free] s (s.marked p n r e) := by
  refine changes_of_keep ?_
  unfold State.marked State.markFreeze
  simp

/-- The counters once a MARK is carried out, whether or not its partition is traced. -/
theorem State.observe_marked (s : State) (p n : Nat) (r : Run) (e : QStep) :
    (¬ s.marksFreeze (wMarkValue e.word) → (s.marked p n r e).observe = s.observe)
      ∧ (s.marksFreeze (wMarkValue e.word) → s.observe.frozen = true → (s.marked p n r e).observe = s.observe)
      ∧ (s.marksFreeze (wMarkValue e.word) → s.observe.frozen = false →
          (s.marked p n r e).observe.frozen = true ∧ (s.marked p n r e).observe.armed = 0) := by
  let v := wMarkValue e.word
  let a := (s.setCtx p r.ctx.val { s.ctx p r.ctx.val with lastMark := BitVec.ofNat 32 (v * 65536 + e.index) }).trace
    p (64 + p) 4 (wTraceTag e.word) e.index r.ctx.val v 0
  have observe : a.observe = s.observe := State.observe_trace ..
  have after : (s.marked p n r e).observe = (a.markFreeze v).observe := State.observe_trace ..
  have same : a.marksFreeze v ↔ s.marksFreeze v := by
    unfold State.marksFreeze
    rw [observe, State.sameGov_trace]
    rfl
  rw [after, ← same, ← observe]
  refine ⟨fun missed => (State.markFreeze_missed missed).same .observe, fun hit frozen => ?_, fun hit runs => ?_⟩
  · rw [State.markFreeze_hit hit, State.freezeCounters_frozen frozen]
    rfl
  · obtain ⟨frozen, armed, -⟩ := State.freezeCounters_running runs a.timeNow
    rw [State.markFreeze_hit hit]
    exact ⟨frozen, armed⟩

/-- A MARK in a partition that is not traced leaves no record of it. -/
theorem State.marked_untraced (off : s.untraced p) : s.marked p n r e = ((s.setCtx p r.ctx.val { s.ctx p r.ctx.val with
      lastMark := BitVec.ofNat 32 (wMarkValue e.word * 65536 + e.index) }).markFreeze (wMarkValue e.word)).setSeq p
    { s.seq p with queues := (s.seq p).queues.set n [], stuck := 0, stepped := true } := by
  unfold State.marked
  dsimp only
  rw [State.trace_off (s := s.setCtx ..) off, State.trace_off]
  exact State.SameGov.untraced (s := s) (fun i j => State.sameGov_markFreeze _ _ i j) off

theorem State.dict_marked_untraced (off : s.untraced p) :
    (¬ s.marksFreeze (wMarkValue e.word) → Changes [.seq p, .ctx (p * 16 + r.ctx.val), .free] s (s.marked p n r e))
      ∧ (s.marksFreeze (wMarkValue e.word) → s.observe.frozen = true →
          (s.marked p n r e).obj 0x9001 9 = min (s.obj 0x9001 9 + 1) (2 ^ 32 - 1) ∧ OnlyObjs [(0x9001, 9)] s (s.marked p n r e))
      ∧ (s.marksFreeze (wMarkValue e.word) → s.observe.frozen = false → (s.marked p n r e).observe.frozenAt = s.timeNow
          ∧ (s.marked p n r e).obj 0x9001 6 = (s.stampOf mgmtClock s.timeNow).toNat ∧ OnlyObjs [(0x9001, 6)] s (s.marked p n r e)) := by
  let a := s.setCtx p r.ctx.val { s.ctx p r.ctx.val with lastMark := BitVec.ofNat 32 (wMarkValue e.word * 65536 + e.index) }
  rw [State.marked_untraced off]
  refine ⟨fun missed => ?_, fun hit frozen => ?_, fun hit runs => ?_⟩
  · exact Changes.trans (t := a) (changes_of_keep (by simp [a])) (Changes.trans
      ((State.markFreeze_missed (s := a) missed).mono (by simp)) (changes_of_keep (State.keep_setSeq _ _ _ (.inl (by simp)))))
  · rw [State.markFreeze_hit (s := a) hit, State.freezeCounters_frozen (s := a) frozen]
    have width : objBits 0x9001 9 = 32 := by decide
    have counted := obj_bumpSat_same a (i := 0x9001) (j := 9) 1 (by rw [width]; decide)
    rw [width] at counted
    exact ⟨counted, onlyObjs_bumpSat a 0x9001 9 1⟩
  · obtain ⟨-, -, at', time, only⟩ := State.freezeCounters_running (s := a) runs a.timeNow
    rw [State.markFreeze_hit (s := a) hit]
    exact ⟨at', time, only⟩

end

section
variable {s : State} {p : Part} {r : Run}

/-- The step that the sequencer is at enters its queue; the trace of it, where that is on, is all that comes besides. -/
theorem State.issue_enters {f : Nat → Bool} (run : (s.seq p.val).run = some r) (moves : r.waiting = false)
    (running : s.deviceStop = false) (inTable : r.next < tableSteps r.table) (kind : f (stepWord r.table r.next) = true)
    (idle : (s.seq p.val).unitsIdle = true) :
    let w := stepWord r.table r.next
    let v := s.draw.entered p.val r (wQueue w) (QStep.issued r.next (s.issueWord p.val r w) (s.seq p.val).issued s.timeNow)
    ∃ u, s.issue p.val f = u.pump p.val pumpFuel ∧ Changes [.dict, .fabric, .free, .tiers] v u ∧ v.SameGov u
      ∧ (s.untraced p.val → u = v) := by
  intro w v
  have room : (s.seq p.val).queue (wQueue w) = [] := Seq.queue_of_idle idle (Nat.mod_lt _ (by decide))
  have free : ¬ (r.waiting || s.deviceStop || !f w || decide (tableSteps r.table ≤ r.next)
      || decide (16 ≤ ((s.seq p.val).queue (wQueue w)).length)) = true := by
    have inTable' : ¬ tableSteps r.table ≤ r.next := by omega
    simp [moves, running, kind, w, inTable', room]
  unfold State.issue
  dsimp only
  rw [run]
  dsimp only
  rw [if_neg free]
  exact ⟨_, rfl, State.changes_trace v p.val _ _ _ _ _ _ _, State.sameGov_trace v _ _ _ _ _ _ _ _,
    fun off => State.trace_off (s := v) off ..⟩

/-- A MARK is carried out as it is issued. -/
theorem exec_mark (run : (s.seq p.val).run = some r) (moves : r.waiting = false) (running : s.deviceStop = false)
    (inTable : r.next < tableSteps r.table) (mark : wOpcode (stepWord r.table r.next) = opMark)
    (idle : (s.seq p.val).unitsIdle = true) :
    let w := stepWord r.table r.next
    let n := wQueue w
    let e := QStep.issued r.next w (s.seq p.val).issued s.timeNow
    let r' := { r with next := r.next + 1 }
    ∃ u, exec (.mark p) s = .next (u.marked p.val n r' e) ∧ (u.seq p.val).Holds n e ∧ (u.seq p.val).run = some r'
      ∧ Changes [.seq p.val, .fabric, .tiers, .dict, .free] s u ∧ s.SameGov u
      ∧ (s.untraced p.val → u = s.draw.entered p.val r n e) := by
  intro w n e r'
  have hn : n < 32 := Nat.mod_lt _ (by decide)
  let v := s.draw.entered p.val r n e
  obtain ⟨u, issued, changes, gov, quiet⟩ := State.issue_enters (f := fun w => decide (wOpcode w = opMark)) run moves running
    inTable (decide_eq_true mark) idle
  rw [State.issueWord_mark s p.val r mark] at changes gov quiet
  have seq : u.seq p.val = v.seq p.val := changes.same (.seq p.val)
  have holds : (u.seq p.val).Holds n e := seq ▸ State.entered_holds (v := s.draw) idle hn rfl rfl
  have urun : (u.seq p.val).run = some r' := seq ▸ congrArg Seq.run State.seq_entered
  obtain ⟨queue, others⟩ := holds.set (q' := (u.marked p.val n r' e).seq p.val) _ (congrArg Seq.queues State.seq_marked_step)
  have pumped : u.pump p.val pumpFuel = u.marked p.val n r' e :=
    State.pump_once hn holds.calm urun (State.runHead_marks holds mark) (fun m hm other => Seq.calm_nil (others m hm other))
      ((congrArg Seq.run State.seq_marked_step).trans urun) (State.runHead_nil queue) 1023
  refine ⟨u, congrArg Host.Outcome.next (issued.trans pumped), holds, urun, ?_, gov, quiet⟩
  have entry : Changes [.seq p.val, .free] s v := changes_of_keep (by simp [v, State.entered])
  exact (entry.mono (by simp)).trans (changes.mono (by simp))

/-- Settles O24. -/
theorem sequencerStepsAct : Obligations.SequencerStepsAct := by
  unfold Obligations.SequencerStepsAct
  refine ⟨?_, ?_⟩
  · intro s p r run w v moves running inTable mark idle hit
    obtain ⟨u, exec_eq, holds, urun, changes, gov, quiet⟩ := exec_mark run moves running inTable mark idle
    let n := wQueue w
    let e := QStep.issued r.next w (s.seq p.val).issued s.timeNow
    let r' : Run := { r with next := r.next + 1 }
    have ctx : u.ctx p.val r.ctx.val = s.ctx p.val r.ctx.val :=
      changes.same (.ctx (p.val * 16 + r.ctx.val))
    have observe : u.observe = s.observe := changes.same .observe
    have same : u.marksFreeze v ↔ hit := by
      unfold State.marksFreeze
      rw [observe, gov]
    obtain ⟨empty, others⟩ := holds.set (q' := (u.marked p.val n r' e).seq p.val) _ (congrArg Seq.queues State.seq_marked_step)
    obtain ⟨missed, ignored, frozen⟩ := u.observe_marked p.val n r' e
    refine ⟨_, exec_eq, State.ctx_marked_step.trans (by rw [ctx]; rfl), (congrArg Seq.run State.seq_marked_step).trans urun, ?_,
      congrArg Seq.stuck State.seq_marked_step, congrArg Seq.stepped State.seq_marked_step,
      (changes.mono (by simp)).trans (u.changes_marked p.val n r' e), fun no => (missed (same.not.mpr no)).trans observe,
      fun yes was => (ignored (same.mpr yes) (observe ▸ was)).trans observe, fun yes was => frozen (same.mpr yes) (observe ▸ was),
      fun off => ?_⟩
    · refine List.all_eq_true.mpr fun m hm => ?_
      by_cases h : m = n
      · rw [h, empty]
        rfl
      · rw [others m (List.mem_range.mp hm) h]
        rfl
    · obtain ⟨missed, ignored, frozen⟩ := State.dict_marked_untraced (n := n) (r := r') (e := e) (gov.untraced off)
      obtain rfl := quiet off
      have entry : Changes [.seq p.val, .free] s (s.draw.entered p.val r n e) := changes_of_keep (by simp [State.entered])
      exact ⟨fun no => (entry.mono (by simp)).trans (missed (same.not.mpr no)), fun yes was => ignored (same.mpr yes) was,
        fun yes was => frozen (same.mpr yes) was⟩
  · intro s p r q Only w clear
    refine ⟨wait_passes, wait_holds, waitUntil_passes, waitUntil_holds, fun at' more => ?_, fun at' ended => ?_⟩
    · obtain ⟨t, exec_eq, only, seq⟩ := loop_loops at'
      refine ⟨t, exec_eq, only, seq.trans ?_⟩
      rw [Run.looped, if_pos more]
    · obtain ⟨t, exec_eq, only, seq⟩ := loop_loops at'
      refine ⟨t, exec_eq, only, seq.trans ?_⟩
      rw [Run.looped, if_neg (Nat.not_lt.mpr ended)]

end

end Sys2Proof.Machine
end

