-- ==== Sys2Proof/Proofs/CommandEnds.lean ====
section
/-! What the posting of a STAGE_MODEL's completion record changes: its set, its doorbell, and the queue of its context (15 R374, R378). -/

namespace Sys2Proof.Machine

variable {s : State} {k : Nat}

theorem Place.table_table (q : Place) : q.table.table = q.table := by cases q <;> rfl

/-- A list of places may be widened, and elements of a table replaced by the table. -/
theorem Changes.widen {l m : List Place} {s t : State} (h : Changes l s t) (wide : ∀ q ∈ l, q ∈ m ∨ q.table ∈ m) : Changes m s t := by
  intro q hq ht
  refine h q (fun mem => (wide q mem).elim hq ht) fun mem => ?_
  have inWide := wide q.table mem
  rw [Place.table_table, or_self] at inWide
  exact ht inWide

theorem State.ctx_setCtx_key (s : State) (p n q m : Nat) (x : Context) :
    (s.setCtx p n x).ctx q m = if q * 16 + m = p * 16 + n then x else s.ctx q m := Tab.get_set ..

/-- Contexts of one number in the module are the same. -/
theorem State.ctx_congr {p n q m : Nat} (key : q * 16 + m = p * 16 + n) : s.ctx q m = s.ctx p n := congrArg (s.ctxs.get Context.none) key

/-- Of a port, a posting touches its doorbell and its freezes alone. -/
theorem State.port_post (s : State) (k status count step x : Nat) : ∃ freeze db ev,
    (s.post k status count step).port x = { s.port x with freezeDue := freeze, db := db, evDb := ev } := by
  unfold State.post State.ringDoorbell State.freezeDue
  dsimp only
  rw [State.port_setPort]
  by_cases mine : x = keyPort k
  · subst mine
    rw [if_pos rfl]
    split <;> split <;> exact ⟨_, _, _, by simp only [State.port_setCtx, State.port_setPort_same, State.port_setTset]; rfl⟩
  · rw [if_neg mine]
    split <;> split <;> exact ⟨_, _, _, by simp only [State.port_setCtx, State.port_setPort, if_neg mine, State.port_setTset]; rfl⟩

/-- The doorbell that a completion rings. -/
theorem State.db_post_eq (s : State) (k status count step : Nat) : ((s.post k status count step).port (keyPort k)).db
    = (s.port (keyPort k)).db ||| BitVec.ofNat 32 (2 ^ (k % 64 / 2)) := by
  unfold State.post State.ringDoorbell State.freezeDue
  dsimp only
  rw [State.port_setPort_same]
  split <;> split <;> simp

theorem State.ctx_setQueue (s : State) (p n q m : Nat) (l : List Nat) :
    ∃ queue, (s.setCtx p n { s.ctx p n with queue := l }).ctx q m = { s.ctx q m with queue := queue } := by
  rw [State.ctx_setCtx_key]
  split
  next key => exact ⟨l, by rw [State.ctx_congr key]⟩
  next => exact ⟨_, rfl⟩

/-- Of a context, a posting touches its queue alone. -/
theorem State.ctx_post (s : State) (k status count step p n : Nat) :
    ∃ queue, (s.post k status count step).ctx p n = { s.ctx p n with queue := queue } := by
  unfold State.post
  dsimp only
  rw [State.ctx_ringDoorbell]
  split <;> split
  · simpa using State.ctx_setQueue ((s.setTset k _).freezeDue (keyPort k) freezeIo) _ _ p n _
  · exact State.ctx_setQueue (s.setTset k _) _ _ p n _
  · exact ⟨_, by rw [State.ctx_freezeDue, State.ctx_setTset]⟩
  · exact ⟨_, State.ctx_setTset ..⟩

/-- Where it is no write, a posting changes its set, its port and its context. -/
theorem State.changes_post (other : opWrite (s.tset k).opcode = false) (status count step : Nat) :
    Changes [.tset k, .port (keyPort k), .ctx ((s.tset k).partNo * 16 + (s.tset k).ctxNo)] s (s.post k status count step) := by
  refine changes_of_keep ?_
  unfold State.post
  simp [other]

/-- STAGE_MODEL completes when it ends (R379). -/
theorem State.finish_stageModel (stage : (s.tset k).opcode = 0x21) (status count step : Nat) :
    s.finish k status count step = s.post k status count step := by
  unfold State.finish
  rw [stage]
  rfl

/-- A load ends: of its context, the queue alone changes with the record of its STAGE_MODEL. -/
theorem State.finish_load {p n : Nat} (stage : (s.tset k).opcode = 0x21) (part : (s.tset k).partNo = p) (ctx : (s.tset k).ctxNo = n)
    (status count step : Nat) : Changes [.tset k, .port (keyPort k), .ctx (p * 16 + n)] s (s.finish k status count step)
      ∧ ∃ queue, (s.finish k status count step).ctx p n = { s.ctx p n with queue := queue } := by
  subst part ctx
  rw [State.finish_stageModel stage]
  exact ⟨State.changes_post (by rw [stage]; rfl) _ _ _, State.ctx_post _ _ _ _ _ _ _⟩

/-- A posting as the host sees it. -/
theorem State.posted_post (s : State) (x : Port) (set : SetId) (status count step : Nat) :
    Posted s (s.post (setKey x set) status count step) x set status count step := by
  have mine : (s.post (setKey x set) status count step).tset (setKey x set) = _ := (s.tset_post ..).trans (if_pos rfl)
  have port : keyPort (setKey x set) = x.val := by unfold keyPort setKey; omega
  have bell := s.db_post_eq (setKey x set) status count step
  rw [port, show setKey x set % 64 / 2 = set.val / 2 by unfold setKey; omega] at bell
  exact ⟨by rw [mine]; rfl, by rw [mine]; rfl, by rw [mine]; rfl, by rw [mine]; rfl, bell⟩

/-- BANK_STATUS of a context as a load check leaves it (03 R75). -/
def Context.report (c : Context) (kind result step : Nat) : Context :=
  { c with loadResult := BitVec.ofNat 8 result, failStep := BitVec.ofNat 12 step, lastKind := BitVec.ofNat 3 kind }

theorem State.ctx_loadReport (s : State) (p n kind result step : Nat) :
    (s.loadReport p n kind result step).ctx p n = (s.ctx p n).report kind result step := State.ctx_setCtx_same ..

theorem Context.banks_report (c : Context) (kind result step : Nat) (k : Kind) : (c.report kind result step).banks k = c.banks k := by
  cases k <;> rfl

theorem Context.banks_setQueue (c : Context) (queue : List Nat) (k : Kind) : { c with queue := queue }.banks k = c.banks k := by
  cases k <;> rfl

theorem Context.banks_updBanks_one (c : Context) (i j : Kind) (f : Banks → Banks) :
    (c.updBanks [i] f).banks j = if j = i then f (c.banks j) else c.banks j := by
  simp [Context.banks_updBanks]

/-- A load leaves the shadow of its kind as `f` has it, and BANK_STATUS with its result. -/
def State.settleLoad (s : State) (p n : Nat) (kind : Kind) (no : Nat) (f : Banks → Banks) (result step : Nat) : State :=
  (s.setCtx p n ((s.ctx p n).updBanks [kind] f)).loadReport p n no result step

section
variable {s : State} {p n : Nat} {kind : Kind} {no : Nat} {f : Banks → Banks} {result step : Nat}

theorem State.ctx_settleLoad : (s.settleLoad p n kind no f result step).ctx p n = ((s.ctx p n).updBanks [kind] f).report no result step :=
  (State.ctx_loadReport ..).trans (congrArg (Context.report · no result step) (State.ctx_setCtx_same ..))

theorem State.changes_settleLoad : Changes [.ctx (p * 16 + n), .dict] s (s.settleLoad p n kind no f result step) := by
  refine changes_of_keep ?_
  unfold State.settleLoad
  simp

end

/-! ### The end of a load -/

section
variable {u v : State} {x : Port} {set : SetId} {p n : Nat} {kind : Kind} {f : Banks → Banks} {result step status count at' : Nat}

/-- The end of a load whose command runs in `u`: what is posted, and what the load leaves in its context. -/
theorem State.finish_settleLoad {no : Nat} {l : List Place} (stage : (u.tset (setKey x set)).opcode = 0x21)
    (part : (u.tset (setKey x set)).partNo = p) (ctx : (u.tset (setKey x set)).ctxNo = n) (clock : u.clock = s.clock)
    (port : u.port x.val = s.port x.val) (record : Changes l (u.settleLoad p n kind no f result step) v)
    (few : l ⊆ [.dict, .errors, .observe, .free]) :
    let t := v.finish (setKey x set) status count at'
    Posted s t x set status count at' ∧ (t.ctx p n).banks kind = f ((u.ctx p n).banks kind)
      ∧ (t.ctx p n).loadResult = BitVec.ofNat 8 result ∧ (t.ctx p n).failStep = BitVec.ofNat 12 step ∧ t.errors = v.errors
      ∧ Changes (.tset (setKey x set) :: .port x.val :: .ctx (p * 16 + n) :: .dict :: l) u t := by
  intro t
  have settles : Changes [.ctx (p * 16 + n), .dict] u (u.settleLoad p n kind no f result step) := State.changes_settleLoad
  have record' := record.mono few
  have set' := (record'.same (.tset (setKey x set))).trans
    (settles.same (.tset (setKey x set)))
  have clock' := (record'.same .clock).trans (settles.same .clock)
  have port' := (record'.same (.port x.val)).trans (settles.same (.port x.val))
  have key : keyPort (setKey x set) = x.val := by unfold keyPort setKey; omega
  have stage' : (v.tset (setKey x set)).opcode = 0x21 := (congrArg TaskSet.opcode set').trans stage
  obtain ⟨changes, queue, left⟩ := State.finish_load stage' ((congrArg TaskSet.partNo set').trans part)
    ((congrArg TaskSet.ctxNo set').trans ctx) status count at'
  rw [key] at changes
  have settled : v.ctx p n = ((u.ctx p n).updBanks [kind] f).report no result step :=
    (record'.same (.ctx (p * 16 + n))).trans State.ctx_settleLoad
  refine ⟨?_, ?_, ?_, ?_, changes.same .errors, ?_⟩
  · obtain ⟨life, due, epoch, word, bell⟩ := v.posted_post x set status count at'
    unfold t
    rw [State.finish_stageModel stage']
    exact ⟨life, due, epoch.trans (congrArg Clock.epoch (clock'.trans clock)), word, by rw [bell, port'.trans port]⟩
  · rw [left, settled, Context.banks_setQueue, Context.banks_report, Context.banks_updBanks_one, if_pos rfl]
  · rw [left, settled]
    rfl
  · rw [left, settled]
    rfl
  · exact ((settles.widen (by simp)).trans (record.widen (by simp +contextual))).trans (changes.widen (by simp))

end

end Sys2Proof.Machine
end

