-- ==== Sys2Proof/Proofs/BankControls.lean ====
section
/-! BANK_CONTROL: ARM, DISARM and DISCARD of shadow banks (O16). -/

namespace Sys2Proof.Machine

/-! ### The banks of a context (03 R77, R503) -/

section
variable (c : Context) (i j : Kind)

/-- The shadows of two kinds were armed by one write, and both still are. -/
abbrev Context.Together : Prop :=
  (c.banks i).st = .armed ∧ (c.banks j).st = .armed ∧ (c.banks j).armGroup = (c.banks i).armGroup

theorem Context.banks_withdraw :
    (c.withdraw i).banks j = if c.Together i j then { c.banks j with st := .ready } else c.banks j := by
  unfold Context.withdraw
  dsimp only
  by_cases armed : (c.banks i).st = .armed
  · rw [if_pos armed, Context.banks_updBanks _ _ _ (by decide), if_pos (by cases j <;> decide)]
    simp [Context.Together, armed]
  · rw [if_neg armed, if_neg fun both => armed both.1]

/-- What DISCARD makes of a shadow that is not being loaded. -/
def Banks.discarded (b : Banks) : Banks :=
  match b.st with
  | .ready | .failed | .armed => b.dropShadow
  | .retiring => { b with dropWhenRetired := true }
  | .empty | .loading => b

end

section
variable {s : State} {p n : Nat}

/-- The banks of a context once the shadow of a kind is discarded: its own, and those armed with it. -/
def Context.discard (c : Context) (i j : Kind) : Banks :=
  if j = i then (c.banks j).discarded else if c.Together i j then { c.banks j with st := .ready } else c.banks j

theorem Context.discard_alone {c : Context} {i : Kind} (unarmed : (c.banks i).st ≠ .armed) {f : Banks → Banks}
    (own : (c.banks i).discarded = f (c.banks i)) (j : Kind) : (c.updBanks [i] f).banks j = c.discard i j := by
  rw [Context.banks_updBanks_one]
  unfold Context.discard
  split
  next same => rw [same, own]
  next => rw [if_neg fun both => unarmed both.1]

theorem State.ctx_discardBank {i : Kind} (idle : ((s.ctx p n).banks i).st ≠ .loading) (j : Kind) :
    ((s.discardBank p n i).ctx p n).banks j = (s.ctx p n).discard i j := by
  have unarmed {x : Shadow} (st : ((s.ctx p n).banks i).st = x) (other : x ≠ .armed) : ((s.ctx p n).banks i).st ≠ .armed := st ▸ other
  unfold State.discardBank
  dsimp only
  split
  case h_5 st => exact absurd st idle
  case h_1 st =>
    rw [← Context.discard_alone (f := id) (unarmed st (by decide)) (by rw [Banks.discarded, st]; rfl), Context.banks_updBanks_one]
    exact (ite_self _).symm
  case h_4 st =>
    rw [State.ctx_setCtx_same, Context.banks_updBanks_one, Context.banks_withdraw]
    unfold Context.discard
    split
    next same => subst same; rw [if_pos ⟨st, st, rfl⟩, Banks.discarded, st]; rfl
    next => rfl
  all_goals rename_i st
  all_goals
    rw [State.ctx_setCtx_same]
    exact Context.discard_alone (unarmed st (by decide)) (by rw [Banks.discarded, st]) j

theorem State.changes_discardBank {i : Kind} (idle : ((s.ctx p n).banks i).st ≠ .loading) :
    Changes [.ctx (p * 16 + n)] s (s.discardBank p n i) := by
  refine changes_of_keep ?_
  unfold State.discardBank
  dsimp only
  split
  case h_5 st => exact absurd st idle
  all_goals simp

/-- The banks once the shadows of several kinds are discarded, none of which is being loaded. -/
def Context.discardAll (c : Context) (l : List Kind) (j : Kind) : Banks :=
  if j ∈ l then (c.banks j).discarded
  else if ∃ i ∈ l, c.Together i j then { c.banks j with st := .ready }
  else c.banks j

theorem Banks.unarmed_discarded (b : Banks) : b.discarded.st ≠ .armed := by
  unfold Banks.discarded
  split
  all_goals rename_i st
  case h_1 | h_2 | h_3 => exact Shadow.noConfusion
  all_goals exact fun armed => Shadow.noConfusion (st.symm.trans armed)

theorem Banks.discarded_unarmed {b : Banks} (armed : b.st = .armed) : { b with st := .ready }.discarded = b.discarded := by
  unfold Banks.discarded
  rw [armed]
  rfl

section
variable {c d : Context} {i j : Kind}

theorem Context.discard_together (both : c.Together i j) (other : j ≠ i) : c.discard i j = { c.banks j with st := .ready } := by
  rw [Context.discard, if_neg other, if_pos both]

theorem Context.discard_apart (apart : ¬ c.Together i j) (other : j ≠ i) : c.discard i j = c.banks j := by
  rw [Context.discard, if_neg other, if_neg apart]

theorem Context.discarded_discard (other : j ≠ i) : (c.discard i j).discarded = (c.banks j).discarded := by
  by_cases both : c.Together i j
  · rw [Context.discard_together both other, Banks.discarded_unarmed both.2.1]
  · rw [Context.discard_apart both other]

/-- A shadow that the first DISCARD leaves armed shares its arm with the same shadows as before. -/
theorem Context.together_discard {m : Kind} (first : ∀ q, d.banks q = c.discard i q) (apart : ¬ c.Together i j) (other : j ≠ i)
    (otherToo : m ≠ i) : d.Together m j ↔ c.Together m j := by
  have keptJ : d.banks j = c.banks j := (first j).trans (Context.discard_apart apart other)
  by_cases both : c.Together i m
  · have withdrawn : (d.banks m).st = .ready := by rw [first, Context.discard_together both otherToo]
    constructor
    · exact fun h => Shadow.noConfusion (withdrawn.symm.trans h.1)
    · exact fun h => absurd ⟨both.1, h.2.1, h.2.2.trans both.2.2⟩ apart
  · have keptM : d.banks m = c.banks m := (first m).trans (Context.discard_apart both otherToo)
    unfold Context.Together
    rw [keptJ, keptM]

/-- Discarding one kind, then others, discards all of them. -/
theorem Context.discardAll_cons {l : List Kind} (fresh : i ∉ l) (first : ∀ q, d.banks q = c.discard i q) (j : Kind) :
    d.discardAll l j = c.discardAll (i :: l) j := by
  unfold Context.discardAll
  by_cases own : j = i
  · subst own
    have gone : d.banks j = (c.banks j).discarded := (first j).trans (if_pos rfl)
    have alone : ¬ ∃ m ∈ l, d.Together m j := fun ⟨_, _, both⟩ => Banks.unarmed_discarded _ (gone ▸ both.2.1)
    rw [if_neg fresh, if_neg alone, if_pos List.mem_cons_self, gone]
  by_cases mem : j ∈ l
  · rw [if_pos mem, if_pos (List.mem_cons_of_mem i mem), first, Context.discarded_discard own]
  rw [if_neg mem, if_neg (List.not_mem_cons_of_ne_of_not_mem own mem)]
  by_cases both : c.Together i j
  · have withdrawn : d.banks j = { c.banks j with st := .ready } := (first j).trans (Context.discard_together both own)
    have alone : ¬ ∃ m ∈ l, d.Together m j := by
      rintro ⟨_, _, -, armed, -⟩
      rw [withdrawn] at armed
      cases armed
    rw [if_neg alone, if_pos ⟨i, List.mem_cons_self, both⟩, withdrawn]
  · have same : (∃ m ∈ l, d.Together m j) ↔ ∃ m ∈ i :: l, c.Together m j := by
      rw [List.exists_mem_cons_iff, or_iff_right both]
      exact exists_congr fun m => and_congr_right fun hm =>
        Context.together_discard first both own fun e => fresh (e ▸ hm)
    rw [if_congr same rfl rfl, (first j).trans (Context.discard_apart both own)]

end

/-- DISCARD of several kinds, none of which is being loaded. -/
theorem State.each_discardBank {l : List Kind} (once : l.Nodup) (idle : ∀ i ∈ l, ((s.ctx p n).banks i).st ≠ .loading) :
    (∀ j, ((s.each l fun s i => s.discardBank p n i).ctx p n).banks j = (s.ctx p n).discardAll l j)
      ∧ Changes [.ctx (p * 16 + n)] s (s.each l fun s i => s.discardBank p n i) := by
  induction l generalizing s with
  | nil => exact ⟨fun j => by simp [State.each, Context.discardAll], changes_of_keep rfl⟩
  | cons i l ih =>
    obtain ⟨fresh, once⟩ := List.nodup_cons.mp once
    have first := State.ctx_discardBank (idle i List.mem_cons_self)
    have stillIdle : ∀ j ∈ l, (((s.discardBank p n i).ctx p n).banks j).st ≠ .loading := by
      intro j hj
      have other : j ≠ i := fun e => fresh (e ▸ hj)
      rw [first, Context.discard, if_neg other]
      split
      · exact Shadow.noConfusion
      · exact idle j (List.mem_cons_of_mem i hj)
    obtain ⟨rest, changes⟩ := ih once stillIdle
    exact ⟨fun j => (rest j).trans (Context.discardAll_cons fresh first j),
      (State.changes_discardBank (idle i List.mem_cons_self)).trans changes⟩

end

theorem Banks.discarded_drops {b : Banks} (st : b.st = .ready ∨ b.st = .failed ∨ b.st = .armed) : b.discarded = b.dropShadow := by
  unfold Banks.discarded
  obtain st | st | st := st <;> rw [st]

/-! ### BANK_CONTROL is answered when it has acted (03 R74; 14 R356) -/

/-- The value of a write to BANK_CONTROL: an action and a selection of kinds. -/
abbrev bankValue (a : Nat) (kinds : BitVec 5) : Nat := a * 2 ^ 14 + kinds.toNat

section
variable {s : State} {r : Req} {p : Part} {n : Ctx} {kinds : BitVec 5} {a : Nat}

theorem State.actNow_bank (s : State) (who : Option Port) (p : Part) (n : Ctx) (v : Nat) (b : Bytes) (at' : Nat) :
    s.actNow who (0x2050 + p.val) (n.val + 1) v b at' = some (s.bankControl p.val n.val v) := by
  have loop : inRun (0x2050 + p.val) 0x1110 4 = false := by revert p; decide
  have bank : inRun (0x2050 + p.val) 0x2050 8 = true := by revert p; decide
  have hp := p.isLt
  unfold State.actNow
  rw [if_neg (by omega), if_neg (by omega), if_neg (by omega), if_neg (by omega), if_neg (by simp [loop]), if_pos bank,
    Nat.add_sub_cancel_left, Nat.add_sub_cancel]

/-- BANK_CONTROL passes its check. -/
abbrev State.BankOk (s : State) (r : Req) (p : Part) (n : Ctx) (a : Nat) (kinds : BitVec 5) : Prop :=
  s.checkWrite (some r.port) (0x2050 + p.val) (n.val + 1) (bytesOf 2 (bankValue a kinds)) = 0x0000

/-- The state in which BANK_CONTROL acts: its request has been heard. -/
abbrev State.heardWrite (s : State) (r : Req) : State := s.heard r.port.val 2 (chanNo r.chan)

theorem State.bankWrite_acts (hs : s.Serves r) (action : a < 4) (ok : s.BankOk r p n a kinds) {u : State}
    (acts : (s.heardWrite r).bankControl p.val n.val (bankValue a kinds) = u) (clock : u.clock = s.clock) (power : u.power = s.power) :
    s.bankWrite r p n a kinds = .next (u.reply (wholeReq r) 0x11 stOk (dictArgs (0x2050 + p.val) (n.val + 1) 2 0 3) []) := by
  obtain ⟨d, row⟩ := controlRow_spec (controlRow_bank p n)
  have small := kinds.isLt
  have fits : bankValue a kinds < 2 ^ (8 * 2) := by unfold bankValue; omega
  have value : field 2 14 a + kinds.toNat = bankValue a kinds := by rw [field_fit (by omega)]
  unfold State.bankWrite State.control
  rw [value, State.control_acts row hs ok fits (by decide) s.clock.now ((State.actNow_bank ..).trans (congrArg some acts))
    (by rw [clock, power]; exact hs.noReset)]

/-- A BANK_CONTROL that changes nothing but banks and the count of arms. -/
theorem State.bankWrite_accepted (hs : s.Serves r) (action : a < 4) (ok : s.BankOk r p n a kinds) {u : State} {l : List Place}
    (acts : (s.heardWrite r).bankControl p.val n.val (bankValue a kinds) = u) (changes : Changes l (s.heardWrite r) u)
    (few : l ⊆ [.ctx (p.val * 16 + n.val), .arms]) :
    ∃ t, s.bankWrite r p n a kinds = .next t ∧ Accepted s t r (0x2050 + p.val) (n.val + 1) 2 3
      ∧ t.ctx p.val n.val = u.ctx p.val n.val ∧ t.arms = u.arms ∧ Changes (.port r.port.val :: l) s t := by
  have few : Changes [.ctx (p.val * 16 + n.val), .arms] (s.heardWrite r) u := changes.mono few
  have clock : u.clock = s.clock := few.same .clock
  have power : u.power = s.power := few.same .power
  have dict : u.dict = s.dict := few.same .dict
  have port : u.port r.port.val = (s.heardWrite r).port r.port.val := few.same (.port _)
  refine ⟨_, State.bankWrite_acts hs action ok acts clock power, ?_, by simp, by simp, ?_⟩
  · exact State.accepted_of hs port (congrArg Dict.gov dict) (congrArg Power.ids power) clock ..
  · have heard : Changes [.port r.port.val] s (s.heardWrite r) := changes_of_keep (by simp)
    have answered : Changes [.port r.port.val] u (u.reply (wholeReq r) 0x11 stOk (dictArgs (0x2050 + p.val) (n.val + 1) 2 0 3) []) :=
      changes_of_keep (by simp)
    exact ((heard.mono (by simp)).trans (changes.mono (by simp))).trans (answered.mono (by simp))

/-! ### The three actions -/

theorem bits_bankValue (action : a < 4) : bits (bankValue a kinds) 15 14 = a := by
  have small := kinds.isLt
  unfold bits bankValue
  omega

theorem kindsOf_bankValue (action : a < 4) : kindsOf (bankValue a kinds) = kindsOf kinds.toNat := by
  refine List.filter_congr fun k _ => Bool.eq_iff_iff.mpr ?_
  have selected := mem_kindsOf a kinds k action
  have plain := mem_kindsOf 0 kinds k (by decide)
  rw [Nat.zero_mul, Nat.zero_add] at plain
  have known : k ∈ allKinds := by cases k <;> decide
  simpa [kindsOf, known, bankValue] using selected.trans plain.symm

theorem mem_selected (k : Kind) : k ∈ kindsOf kinds.toNat ↔ kinds.getLsbD (kindNo k) = true := by
  rw [← kindsOf_bankValue (a := 1) (by decide), mem_kindsOf 1 kinds k (by decide)]

theorem kindsOf_ne_nil (some : kinds ≠ 0) : kindsOf kinds.toNat ≠ [] := by
  revert kinds
  decide

theorem State.bankControl_arm (v : State) (p n : Nat) : v.bankControl p n (bankValue 1 kinds) = v.armBanks p n (kindsOf kinds.toNat) := by
  unfold State.bankControl
  rw [bits_bankValue (by decide), if_pos rfl, kindsOf_bankValue (by decide)]

theorem State.bankControl_disarm (v : State) (p n : Nat) :
    v.bankControl p n (bankValue 2 kinds) = v.setCtx p n ((v.ctx p n).disarm (kindsOf kinds.toNat)) := by
  unfold State.bankControl
  rw [bits_bankValue (by decide), if_neg (by decide), if_pos rfl, kindsOf_bankValue (by decide)]

theorem State.bankControl_discard (v : State) (p n : Nat) :
    v.bankControl p n (bankValue 3 kinds) = v.each (kindsOf kinds.toNat) fun s k => s.discardBank p n k := by
  unfold State.bankControl
  rw [bits_bankValue (by decide), if_neg (by decide), if_neg (by decide), if_pos rfl, kindsOf_bankValue (by decide)]

/-- A shadow armed by the next arm number. -/
abbrev Banks.arm (b : Banks) (number : Nat) : Banks := { b with st := .armed, armGroup := number }

/-- ARM of kinds whose shadows are READY and that its check lets pass. -/
theorem State.armBanks_ready {v : State} {p n : Nat} {l : List Kind} (some : l ≠ []) (ready : ∀ k ∈ l, ((v.ctx p n).banks k).st = .ready)
    (loaded : (v.ctx p n).notLoaded l = false) (calm : v.stagingBusy (v.ctx p n).table.shadow = false) :
    v.armBanks p n l = (v.setCtx p n ((v.ctx p n).updBanks l (·.arm v.arms))).setArms (v.arms + 1) := by
  unfold State.armBanks
  dsimp only
  rw [if_neg, if_neg (by simp [loaded]), if_neg (by simp [calm])]
  simpa [some] using ready

theorem bankArm_arms (hs : s.Serves r) (ok : s.BankOk r p n 1 kinds) (some : kinds ≠ 0)
    (ready : ∀ k, kinds.getLsbD (kindNo k) = true → ((s.ctx p.val n.val).banks k).st = .ready)
    (loaded : (s.ctx p.val n.val).notLoaded (kindsOf kinds.toNat) = false)
    (calm : s.stagingBusy (s.ctx p.val n.val).table.shadow = false) :
    ∃ t, exec (.bankArm r p n kinds) s = .next t ∧ Accepted s t r (0x2050 + p.val) (n.val + 1) 2 3
      ∧ (∀ k, (t.ctx p.val n.val).banks k = if kinds.getLsbD (kindNo k) = true then ((s.ctx p.val n.val).banks k).arm s.arms
          else (s.ctx p.val n.val).banks k)
      ∧ t.arms = s.arms + 1 ∧ Changes [.port r.port.val, .ctx (p.val * 16 + n.val), .arms] s t := by
  have acts := ((s.heardWrite r).bankControl_arm p.val n.val).trans (State.armBanks_ready (kindsOf_ne_nil some)
    (by simpa [mem_selected] using ready) (by rw [State.ctx_heard]; exact loaded) (by rw [State.ctx_heard]; exact calm))
  obtain ⟨t, run, accepted, ctx, arms, changes⟩ := State.bankWrite_accepted (l := [.ctx (p.val * 16 + n.val), .arms]) hs
    (by decide) ok acts (changes_of_keep (by simp)) (List.Subset.refl _)
  refine ⟨t, run, accepted, fun k => ?_, arms, changes⟩
  rw [ctx, State.ctx_setArms, State.ctx_setCtx_same, Context.banks_updBanks _ _ _ (nodup_kindsOf _), State.ctx_heard]
  exact if_congr (mem_selected k) rfl rfl

theorem bankDisarm_disarms (hs : s.Serves r) (ok : s.BankOk r p n 2 kinds) :
    ∃ t, exec (.bankDisarm r p n kinds) s = .next t ∧ Accepted s t r (0x2050 + p.val) (n.val + 1) 2 3
      ∧ (∀ k, (t.ctx p.val n.val).banks k = if kinds.getLsbD (kindNo k) = true ∧ ((s.ctx p.val n.val).banks k).st = .armed
          then { (s.ctx p.val n.val).banks k with st := .ready } else (s.ctx p.val n.val).banks k)
      ∧ Changes [.port r.port.val, .ctx (p.val * 16 + n.val)] s t := by
  obtain ⟨t, run, accepted, ctx, -, changes⟩ := State.bankWrite_accepted (l := [.ctx (p.val * 16 + n.val)]) hs
    (by decide) ok ((s.heardWrite r).bankControl_disarm p.val n.val) (changes_of_keep (by simp)) (by simp)
  refine ⟨t, run, accepted, fun k => ?_, changes⟩
  rw [ctx, State.ctx_setCtx_same, Context.disarm, Context.banks_updBanks _ _ _ (nodup_kindsOf _), State.ctx_heard, ite_and]
  exact if_congr (mem_selected k) rfl rfl

theorem bankDiscard_discards (hs : s.Serves r) (ok : s.BankOk r p n 3 kinds)
    (idle : ∀ k, kinds.getLsbD (kindNo k) = true → ((s.ctx p.val n.val).banks k).st ≠ .loading) :
    ∃ t, exec (.bankDiscard r p n kinds) s = .next t ∧ Accepted s t r (0x2050 + p.val) (n.val + 1) 2 3
      ∧ (∀ k, (t.ctx p.val n.val).banks k = (s.ctx p.val n.val).discardAll (kindsOf kinds.toNat) k)
      ∧ Changes [.port r.port.val, .ctx (p.val * 16 + n.val)] s t := by
  obtain ⟨banks, few⟩ := State.each_discardBank (s := s.heardWrite r) (p := p.val) (n := n.val) (nodup_kindsOf kinds.toNat)
    fun k hk => by simpa using idle k ((mem_selected k).mp hk)
  obtain ⟨t, run, accepted, ctx, -, changes⟩ := State.bankWrite_accepted hs
    (by decide) ok ((s.heardWrite r).bankControl_discard p.val n.val) few (by simp)
  exact ⟨t, run, accepted, fun k => by rw [ctx, banks, State.ctx_heard], changes⟩

/-- DISCARD of one kind selects it alone. -/
theorem kindsOf_alone {k : Kind} (only : ∀ j, kinds.getLsbD (kindNo j) = decide (j = k)) : kindsOf kinds.toNat = [k] := by
  have alone : kindsOf kinds.toNat = allKinds.filter fun j => decide (j = k) := by
    refine List.filter_congr fun j _ => Bool.eq_iff_iff.mpr ?_
    have selected := mem_selected (kinds := kinds) j
    have known : j ∈ allKinds := by cases j <;> decide
    rw [only j] at selected
    simpa [kindsOf, known] using selected
  rw [alone]
  cases k <;> rfl

/-- A load that DISCARD ends, before its command completes. -/
def State.unloaded (s : State) (p n : Nat) (k : Kind) (key : Nat) : State :=
  (s.settleLoad p n k (kindNo k) Banks.dropShadow ldDiscarded 0).setStagings (s.stagings.filter fun h => decide (h.key ≠ key))

theorem State.changes_unloaded (s : State) (p n : Nat) (k : Kind) (key : Nat) :
    Changes [.stagings, .ctx (p * 16 + n), .dict] s (s.unloaded p n k key) :=
  (State.changes_settleLoad.widen (by simp)).trans (changes_of_keep (State.keep_setStagings _ _ (by simp)))

theorem State.ctx_unloaded (s : State) (p n : Nat) (k : Kind) (key : Nat) : (s.unloaded p n k key).ctx p n
    = ((s.ctx p n).updBanks [k] Banks.dropShadow).report (kindNo k) ldDiscarded 0 :=
  (State.ctx_setStagings ..).trans State.ctx_settleLoad

theorem State.endLoad_found {v : State} {p n : Nat} {k : Kind} {g : Staging}
    (found : v.stagings.find? (fun g => decide (g.part = p ∧ g.ctx = n ∧ g.kind = kindNo k)) = some g) (status count step : Nat) :
    v.endLoad p n k status count step
      = (v.setStagings (v.stagings.filter fun h => decide (h.key ≠ g.key))).finish g.key status count step := by
  unfold State.endLoad
  rw [found]

theorem State.discardBank_loading {v : State} {p n : Nat} {k : Kind} {g : Staging} (loading : ((v.ctx p n).banks k).st = .loading)
    (found : v.stagings.find? (fun g => decide (g.part = p ∧ g.ctx = n ∧ g.kind = kindNo k)) = some g) :
    v.discardBank p n k = (v.unloaded p n k g.key).finish g.key stLoadFailed ldDiscarded 0 := by
  unfold State.discardBank
  dsimp only
  rw [loading]
  exact State.endLoad_found (v := (v.setCtx p n ((v.ctx p n).updBanks [k] Banks.dropShadow)).loadReport p n (kindNo k) ldDiscarded 0)
    found _ _ _

theorem bankDiscard_endsLoad (hs : s.Serves r) (ok : s.BankOk r p n 3 kinds) {k : Kind} {g : Staging}
    (only : ∀ j, kinds.getLsbD (kindNo j) = decide (j = k)) (loading : ((s.ctx p.val n.val).banks k).st = .loading)
    (found : s.stagings.find? (fun g => decide (g.part = p.val ∧ g.ctx = n.val ∧ g.kind = kindNo k)) = some g)
    (stage : (s.tset g.key).opcode = 0x21) (part : (s.tset g.key).partNo = p.val) (ctx : (s.tset g.key).ctxNo = n.val) :
    ∃ t, exec (.bankDiscard r p n kinds) s = .next t ∧ Accepted s t r (0x2050 + p.val) (n.val + 1) 2 3
      ∧ (t.ctx p.val n.val).banks k = ((s.ctx p.val n.val).banks k).dropShadow
      ∧ (t.ctx p.val n.val).loadResult = BitVec.ofNat 8 ldDiscarded
      ∧ (t.tset g.key).life = .done ∧ (t.tset g.key).tr15 = BitVec.ofNat 64 (field 32 32 ldDiscarded + field 16 0 0x0106)
      ∧ t.stagings = s.stagings.filter (fun h => decide (h.key ≠ g.key))
      ∧ Changes [.ports, .tset g.key, .stagings, .ctx (p.val * 16 + n.val), .dict] s t := by
  let v := (s.heardWrite r).unloaded p.val n.val k g.key
  have same := State.changes_unloaded (s.heardWrite r) p.val n.val k g.key
  have set : v.tset g.key = s.tset g.key := same.same (.tset _)
  obtain ⟨ends, queue, left⟩ := State.finish_load (s := v) (p := p.val) (n := n.val) (by rw [set]; exact stage) (by rw [set]; exact part)
    (by rw [set]; exact ctx) stLoadFailed ldDiscarded 0
  let u := v.finish g.key stLoadFailed ldDiscarded 0
  have acts : (s.heardWrite r).bankControl p.val n.val (bankValue 3 kinds) = u := by
    rw [State.bankControl_discard, kindsOf_alone only]
    exact State.discardBank_loading (by rw [State.ctx_heard]; exact loading) found
  have posted : u = v.post g.key stLoadFailed ldDiscarded 0 := State.finish_stageModel (by rw [set]; exact stage) ..
  have clock : u.clock = s.clock := (ends.same .clock).trans (same.same .clock)
  have power : u.power = s.power := (ends.same .power).trans (same.same .power)
  have answered : Changes [.port r.port.val] u (u.reply (wholeReq r) 0x11 stOk (dictArgs (0x2050 + p.val) (n.val + 1) 2 0 3) []) :=
    changes_of_keep (by simp)
  refine ⟨_, State.bankWrite_acts hs (by decide) ok acts clock power, ?_, ?_, ?_, ?_, ?_, ?_, ?_⟩
  · obtain ⟨_, _, _, port⟩ := v.port_post g.key stLoadFailed ldDiscarded 0 r.port.val
    have heard : v.port r.port.val = (s.heardWrite r).port r.port.val := same.same (.port _)
    rw [← posted, heard] at port
    have room := State.roomy_heard hs.roomy 2 (chanNo r.chan)
    refine State.replied_of_reply (r := wholeReq r) (s := s) ?_ (by simp) ?_ ?_ (State.gov_congr ?_ (congrArg Power.ids power) _ _) (by rw [clock])
    · rw [port]
      exact ⟨room.up, room.idle, room.credits, room.replay⟩
    · rw [port]
      simp
    · rw [port]
      simp
    · exact (congrArg Dict.gov (ends.same .dict)).trans rfl
  · rw [State.ctx_reply, left, Context.banks_setQueue, State.ctx_unloaded, Context.banks_report, Context.banks_updBanks_one,
      if_pos rfl, State.ctx_heard]
  · rw [State.ctx_reply, left, State.ctx_unloaded]
    rfl
  · rw [State.tset_reply, posted, State.tset_post, if_pos rfl]
    rfl
  · rw [State.tset_reply, posted, State.tset_post, if_pos rfl]
    rfl
  · exact (answered.same .stagings).trans (ends.same .stagings)
  · have heard : Changes [.port r.port.val] s (s.heardWrite r) := changes_of_keep (by simp)
    exact ((heard.widen (by simp [Place.table])).trans (same.widen (by simp))).trans
      ((ends.widen (by simp [Place.table])).trans (answered.widen (by simp [Place.table])))

end

/-- Settles O16, action by action; several kinds are discarded one after the other, each with what it was armed with. -/
theorem bankControlActs : Obligations.BankControlActs := by
  unfold Obligations.BankControlActs
  intro s r p n kinds hs
  dsimp only
  refine ⟨fun ok some ready loaded calm => bankArm_arms hs ok some ready loaded calm, fun ok => bankDisarm_disarms hs ok, fun ok idle => ?_,
    fun k g ok only loading found stage part ctx => bankDiscard_endsLoad hs ok only loading found stage part ctx⟩
  obtain ⟨t, run, accepted, banks, changes⟩ := bankDiscard_discards hs ok idle
  refine ⟨t, run, accepted, ?_, ?_, ?_, ?_, ?_, changes⟩
  · intro k sel st
    rw [banks, Context.discardAll, if_pos ((mem_selected k).mpr sel), Banks.discarded_drops st]
    rfl
  · intro k sel st
    rw [banks, Context.discardAll, if_pos ((mem_selected k).mpr sel), Banks.discarded, st]
  · intro k sel st
    rw [banks, Context.discardAll, if_pos ((mem_selected k).mpr sel), Banks.discarded, st]
  · rintro k unsel ⟨j, sel, armed, group⟩ st
    rw [banks, Context.discardAll, if_neg (by simp [mem_selected, unsel]), if_pos ⟨j, (mem_selected j).mpr sel, armed, st, group.symm⟩]
  · intro k unsel apart
    have alone : ¬ ∃ i ∈ kindsOf kinds.toNat, (s.ctx p.val n.val).Together i k := by
      rintro ⟨i, sel, armed, st, group⟩
      exact apart.elim (· st) fun other => other i ((mem_selected i).mp sel) armed group.symm
    rw [banks, Context.discardAll, if_neg (by simp [mem_selected, unsel]), if_neg alone]

end Sys2Proof.Machine
end

