-- ==== Sys2Proof/Proofs/ImageLoads.lean ====
section
/-! STAGE_MODEL of an image and LOAD_CHECK (O39). -/

namespace Sys2Proof.Machine

/-- A load stops: its shadow is empty and takes a state. -/
def Banks.stop (st : Shadow) (b : Banks) : Banks := { b with shadow := Bank.none, st := st }

/-! ### STAGE_MODEL of an image (15 R388) -/

section
variable {s : State} {k : Nat} {kind : Kind}

/-- The image of a kind is for squares that are gated (17 R422). -/
abbrev State.loadGated (s : State) (k : Nat) (kind : Kind) : Prop :=
  (kind = .scales ∨ kind = .sft) ∧ meets (s.part (s.tset k).partNo).defn.squares s.gated = true

/-- A STAGE_MODEL has begun: the arm of its shadow is withdrawn. -/
def State.loadBegun (s : State) (k : Nat) (kind : Kind) : State :=
  (s.begin k).setCtx (s.tset k).partNo (s.tset k).ctxNo ((s.ctx (s.tset k).partNo (s.tset k).ctxNo).withdraw kind)

/-- The image is in the shadow, and waits for its check. -/
def State.loadReads (s : State) (k : Nat) (kind : Kind) (m : Mem) : State :=
  let v := s.loadBegun k kind
  let t := s.tset k
  ((v.sees [(none, t.reg 2, t.reg 3)]).draw.setCtx t.partNo t.ctxNo ((v.ctx t.partNo t.ctxNo).updBanks [kind] fun b => { b with
    shadow := ⟨true, m, t.reg 3, t.reg 4⟩, st := .loading })).setStagings
      (s.stagings ++ [⟨k, t.partNo, t.ctxNo, kindNo kind, 0, 0, 0, none⟩])

/-- A load ends as it begins, with a result and the state of its shadow. -/
def State.loadStops (s : State) (k : Nat) (kind : Kind) (st : Shadow) (result : Nat) : State :=
  (s.loadBegun k kind).settleLoad (s.tset k).partNo (s.tset k).ctxNo kind (kindNo kind) (Banks.stop st) result 0

theorem State.loadGated_iff :
    (decide (kind = .scales ∨ kind = .sft) && meets (s.part (s.tset k).partNo).defn.squares s.gated) = true ↔ s.loadGated k kind := by
  rw [Bool.and_eq_true, decide_eq_true_iff]

theorem State.loadImage_gated (gated : s.loadGated k kind) :
    s.loadImage k kind = (s.loadStops k kind .empty ldGated).finish k stLoadFailed ldGated 0 := by
  unfold State.loadImage
  exact if_pos (State.loadGated_iff.mpr gated)

theorem State.loadImage_uncorrectable (ungated : ¬ s.loadGated k kind) {a : Nat}
    (read : s.readTier ((s.tset k).reg 2) ((s.tset k).reg 3) = .error a) :
    s.loadImage k kind = ((s.loadStops k kind .failed ldUncorr).memRecord k a).finish k stUncorr 0 0 := by
  unfold State.loadImage
  refine (if_neg (ungated ∘ State.loadGated_iff.mp)).trans ?_
  rw [State.readTier_begin_setCtx, read]
  rfl

theorem State.loadImage_reads (ungated : ¬ s.loadGated k kind) {m : Mem}
    (read : s.readTier ((s.tset k).reg 2) ((s.tset k).reg 3) = .ok m) : s.loadImage k kind = s.loadReads k kind m := by
  unfold State.loadImage
  refine (if_neg (ungated ∘ State.loadGated_iff.mp)).trans ?_
  rw [State.readTier_begin_setCtx, read]
  rfl

theorem State.tset_loadBegun : (s.loadBegun k kind).tset k = { s.tset k with begun := 1 } :=
  State.tset_setTset_same ..

theorem State.ctx_loadBegun : (s.loadBegun k kind).ctx (s.tset k).partNo (s.tset k).ctxNo
    = (s.ctx (s.tset k).partNo (s.tset k).ctxNo).withdraw kind := State.ctx_setCtx_same ..

theorem State.changes_loadBegun : Changes [.tset k, .ctx ((s.tset k).partNo * 16 + (s.tset k).ctxNo)] s (s.loadBegun k kind) := by
  refine changes_of_keep ?_
  unfold State.loadBegun
  simp

/-- The commands that load an image, with the kind of their shadow and the kind that their operand names. -/
def imageLoads (x : Port) (set : SetId) : List (Instr × Kind × Nat) :=
  [(.stageModelTable x set, .table, 0), (.stageModelScales x set, .scales, 1), (.stageModelSfTables x set, .sft, 2),
    (.stageModelDistance x set, .dist, 4)]

theorem exec_imageLoad {x : Port} {set : SetId} {i : Instr} {kind : Kind} {n : Nat} (load : (i, kind, n) ∈ imageLoads x set) (s : State) :
    exec i s = if s.readyLoad (setKey x set) n kind then .next (s.loadImage (setKey x set) kind) else .next s := by
  simp only [imageLoads, List.mem_cons, Prod.mk.injEq, List.not_mem_nil, or_false] at load
  obtain ⟨rfl, rfl, rfl⟩ | ⟨rfl, rfl, rfl⟩ | ⟨rfl, rfl, rfl⟩ | ⟨rfl, rfl, rfl⟩ := load <;> rfl

theorem State.opcode_of_readyStage {n : Nat} (ready : s.readyStage k n = true) : (s.tset k).opcode = 0x21 := by
  simp only [State.readyStage, State.ready, State.runsCmd, State.holdsCmd, Bool.and_eq_true, decide_eq_true_eq] at ready
  obtain ⟨⟨⟨⟨⟨_, opcode⟩, _⟩, _⟩, _⟩, _⟩ := ready
  exact opcode

/-- Uncorrectable data that a load meets is recorded (16 R404). -/
theorem State.raised_memRecord {v t : State} (slot : s.SlotFree) (errors : v.errors = s.errors) (clock : v.clock = s.clock) {a : Nat}
    (recorded : t.errors = (v.memRecord k a).errors) :
    Raised s t fun r => r.cause = 0x0020 ∧ r.severity = 1 ∧ r.address = BitVec.ofNat 64 a := by
  have free : v.SlotFree := by
    unfold State.SlotFree
    rw [errors]
    exact slot
  obtain ⟨r, kept, seq, epoch, st, whole, alone, next, rep⟩ :=
    (State.raise_raised free (repOnPort (tierReport causeMem a 1 stUncorr) (Fin.ofNat 4 (keyPort k)))).of_eq errors clock
  refine ⟨r, (congrArg (Errors.slot · _) recorded).trans kept, seq, epoch, st, whole, alone, (congrArg Errors.next recorded).trans next, ?_⟩
  exact ⟨congrArg Report.cause rep, congrArg Report.severity rep, congrArg Report.address rep⟩

/-- How a load ends that stops as it begins, with its error recorded where there is one. -/
theorem State.loadStops_ends {x : Port} {set : SetId} {v : State} {st : Shadow} {result : Nat} {l : List Place}
    (stage : (s.tset (setKey x set)).opcode = 0x21) (record : Changes l (s.loadStops (setKey x set) kind st result) v)
    (few : l ⊆ [.dict, .errors, .observe, .free]) (status count : Nat) :
    let p := (s.tset (setKey x set)).partNo
    let n := (s.tset (setKey x set)).ctxNo
    let t := v.finish (setKey x set) status count 0
    Posted s t x set status count 0 ∧ (t.ctx p n).loadResult = BitVec.ofNat 8 result ∧ ((t.ctx p n).banks kind).st = st
      ∧ t.errors = v.errors ∧ Changes (.tset (setKey x set) :: .port x.val :: .ctx (p * 16 + n) :: .dict :: l) s t := by
  intro p n t
  have begins : Changes [.tset (setKey x set), .ctx (p * 16 + n)] s (s.loadBegun (setKey x set) kind) := State.changes_loadBegun
  have begun := State.tset_loadBegun (s := s) (k := setKey x set) (kind := kind)
  obtain ⟨posted, banks, res, -, errors, changes⟩ := State.finish_settleLoad (s := s) (x := x) (set := set) (p := p) (n := n)
    (status := status) (count := count) (at' := 0) ((congrArg TaskSet.opcode begun).trans stage) ((congrArg TaskSet.partNo begun).trans rfl)
    ((congrArg TaskSet.ctxNo begun).trans rfl) (begins.same .clock) (begins.same (.port x.val))
    record few
  have whole := (begins.widen (by simp)).trans changes
  exact ⟨posted, res, (congrArg Banks.st banks).trans rfl, errors, whole⟩

theorem State.changes_loadReads (s : State) (k : Nat) (kind : Kind) (m : Mem) :
    Changes [.stagings, .ctx ((s.tset k).partNo * 16 + (s.tset k).ctxNo), .guard, .free] (s.loadBegun k kind) (s.loadReads k kind m) := by
  refine changes_of_keep ?_
  unfold State.loadReads
  simp

theorem State.banks_loadReads (s : State) (k : Nat) (kind : Kind) (m : Mem) (q : Kind) :
    let w := s.tset k
    let c := s.ctx w.partNo w.ctxNo
    ((s.loadReads k kind m).ctx w.partNo w.ctxNo).banks q
      = if q = kind then { c.banks kind with shadow := ⟨true, m, w.reg 3, w.reg 4⟩, st := .loading }
        else if c.Together kind q then { c.banks q with st := .ready } else c.banks q := by
  intro w c
  unfold State.loadReads
  rw [State.ctx_setStagings, State.ctx_setCtx_same, Context.banks_updBanks_one, State.ctx_loadBegun, Context.banks_withdraw]
  split
  next own =>
    rw [own]
    split <;> rfl
  next => rfl

/-- STAGE_MODEL of an image reads it into the shadow. -/
theorem imageLoads_run (s : State) (x : Port) (set : SetId) (kind : Kind) (i : Instr) (n : Nat) (load : (i, kind, n) ∈ imageLoads x set)
    (stage : s.readyStage (setKey x set) n = true) :
    let k := setKey x set
    let w := s.tset k
    let p := w.partNo
    let c := s.ctx p w.ctxNo
    ((c.banks kind).st = .retiring → exec i s = .next s) ∧
    ((c.banks kind).st ≠ .retiring → exec i s = .next (s.loadImage k kind)) := by
  intro k w p c
  have ready : s.readyLoad k n kind = true ↔ (c.banks kind).st ≠ .retiring := by
    unfold State.readyLoad
    rw [stage]
    exact decide_eq_true_iff
  rw [exec_imageLoad load]
  exact ⟨fun retiring => if_neg fun r => ready.mp r retiring, fun other => if_pos (ready.mpr other)⟩

theorem State.changes_loadStops (s : State) (k : Nat) (kind : Kind) (st : Shadow) (result : Nat) :
    Changes [.tset k, .ctx ((s.tset k).partNo * 16 + (s.tset k).ctxNo), .dict] s (s.loadStops k kind st result) :=
  (State.changes_loadBegun.widen (by simp)).trans (State.changes_settleLoad.widen (by simp))

section
variable {x : Port} {set : SetId} (stage : (s.tset (setKey x set)).opcode = 0x21)

include stage

theorem loadImage_stopsGated (gated : s.loadGated (setKey x set) kind) :
    let w := s.tset (setKey x set)
    let t := s.loadImage (setKey x set) kind
    Posted s t x set 0x0106 ldGated 0 ∧ (t.ctx w.partNo w.ctxNo).loadResult = BitVec.ofNat 8 ldGated
      ∧ ((t.ctx w.partNo w.ctxNo).banks kind).st = .empty ∧ t.stagings = s.stagings
      ∧ Changes [.tset (setKey x set), .port x.val, .ctx (w.partNo * 16 + w.ctxNo), .dict] s t := by
  intro w t
  obtain ⟨posted, result, st, -, changes⟩ := State.loadStops_ends (s := s) (kind := kind) (st := .empty) (result := ldGated)
    (l := []) stage (changes_of_keep rfl) (by simp) stLoadFailed ldGated
  unfold t
  rw [State.loadImage_gated gated]
  exact ⟨posted, result, st, changes.same .stagings, changes⟩

theorem loadImage_stopsUncorrectable (ungated : ¬ s.loadGated (setKey x set) kind) {a : Nat} (slot : s.SlotFree)
    (read : s.readTier ((s.tset (setKey x set)).reg 2) ((s.tset (setKey x set)).reg 3) = .error a) :
    let w := s.tset (setKey x set)
    let t := s.loadImage (setKey x set) kind
    Posted s t x set 0x0202 0 0 ∧ (t.ctx w.partNo w.ctxNo).loadResult = BitVec.ofNat 8 ldUncorr
      ∧ ((t.ctx w.partNo w.ctxNo).banks kind).st = .failed
      ∧ Raised s t (fun r => r.cause = 0x0020 ∧ r.severity = 1 ∧ r.address = BitVec.ofNat 64 a) ∧ t.stagings = s.stagings
      ∧ Changes [.tset (setKey x set), .port x.val, .ctx (w.partNo * 16 + w.ctxNo), .dict, .errors, .observe, .free] s t := by
  intro w t
  let v := s.loadStops (setKey x set) kind .failed ldUncorr
  have stops := State.changes_loadStops s (setKey x set) kind .failed ldUncorr
  have record : Changes [.dict, .errors, .observe, .free] v (v.memRecord (setKey x set) a) := changes_of_keep (by simp)
  obtain ⟨posted, result, st, errors, changes⟩ := State.loadStops_ends stage record (List.Subset.refl _) stUncorr 0
  unfold t
  rw [State.loadImage_uncorrectable ungated read]
  exact ⟨posted, result, st, State.raised_memRecord slot (stops.same .errors)
    (stops.same .clock) errors, changes.same .stagings, changes.widen (by simp [w])⟩

end

/-- The shadow of a STAGE_MODEL and those that were armed with it. -/
theorem loadImage_loads (ungated : ¬ s.loadGated k kind) {m : Mem}
    (read : s.readTier ((s.tset k).reg 2) ((s.tset k).reg 3) = .ok m) :
    let w := s.tset k
    let c := s.ctx w.partNo w.ctxNo
    let t := s.loadImage k kind
    t.tset k = { w with begun := 1 } ∧ t.stagings = s.stagings ++ [⟨k, w.partNo, w.ctxNo, kindNo kind, 0, 0, 0, none⟩]
      ∧ (t.ctx w.partNo w.ctxNo).banks kind = { c.banks kind with shadow := ⟨true, m, w.reg 3, w.reg 4⟩, st := .loading }
      ∧ (∀ q, q ≠ kind → c.Together kind q → (t.ctx w.partNo w.ctxNo).banks q = { c.banks q with st := .ready })
      ∧ (∀ q, q ≠ kind → ¬ c.Together kind q → (t.ctx w.partNo w.ctxNo).banks q = c.banks q)
      ∧ Changes [.tset k, .stagings, .ctx (w.partNo * 16 + w.ctxNo), .guard, .free] s t := by
  intro w c t
  have reads := State.changes_loadReads s k kind m
  unfold t
  rw [State.loadImage_reads ungated read]
  refine ⟨?_, rfl, ?_, fun q other arm => ?_, fun q other arm => ?_, ?_⟩
  · exact (reads.same (.tset k)).trans State.tset_loadBegun
  · rw [State.banks_loadReads, if_pos rfl]
  · rw [State.banks_loadReads, if_neg other, if_pos arm]
  · rw [State.banks_loadReads, if_neg other, if_neg arm]
  · exact (State.changes_loadBegun.widen (by simp [w])).trans (reads.widen (by simp [w]))

end

/-! ### LOAD_CHECK (03 R75) -/

section
variable {s : State} {k : Nat} {g : Staging}

/-- The staging of a set is over. -/
def State.unstaged (s : State) (k : Nat) : State := s.setStagings (s.stagings.filter fun h => decide (h.key ≠ k))

/-- The image that a staging has brought into its shadow. -/
abbrev State.staged (s : State) (g : Staging) : Bank := ((s.ctx g.part g.ctx).banks (kindOfNo g.kind)).shadow

/-- The write of a distance table to its span (11 R285). -/
abbrev State.tableWrite (s : State) (b : Bank) : Except Nat State := s.writeTier b.addr (b.len - 64) (b.data.slice 64 (b.len - 64))

theorem State.writeTier_unstaged (lo n : Nat) (m : Mem) :
    (s.unstaged k).writeTier lo n m = (s.writeTier lo n m).map fun v => (s.unstaged k).setFabric v.fabric := by
  unfold State.writeTier
  have bench : (s.unstaged k).deskBench 0 = s.deskBench 0 := rfl
  rw [bench]
  cases (s.deskBench 0).writeMem lo n m with
  | ok b => rfl
  | error e =>
    obtain ⟨e, _⟩ := e
    cases e <;> rfl

theorem State.checkLoad_unstaged (p n : Nat) (kind : Kind) (b : Bank) : (s.unstaged k).checkLoad p n kind b = s.checkLoad p n kind b := by
  cases kind <;> rfl

/-- The shadow of a staging and its result. -/
abbrev State.judged (v : State) (g : Staging) (f : Banks → Banks) (result step : Nat) : State :=
  v.settleLoad g.part g.ctx (kindOfNo g.kind) g.kind f result step

/-- A shadow that passed its check. -/
def Banks.passed (kind : Kind) (b : Bank) (x : Banks) : Banks := { x with shadow := checkedBank kind b, st := .ready }

theorem State.loadDone_bad {c i : Nat} (bad : s.checkLoad g.part g.ctx (kindOfNo g.kind) (s.staged g) = some (c, i)) :
    s.loadDone k g = ((s.unstaged k).judged g (Banks.stop .failed) c i).finish k stLoadFailed c i := by
  unfold State.loadDone
  dsimp only
  have bad' := (State.checkLoad_unstaged (s := s) (k := k) ..).trans bad
  unfold State.unstaged at bad'
  rw [bad']
  rfl

theorem State.loadDone_refused {a : Nat} (good : s.checkLoad g.part g.ctx (kindOfNo g.kind) (s.staged g) = none)
    (dist : kindOfNo g.kind = .dist) (refused : s.tableWrite (s.staged g) = .error a) :
    s.loadDone k g = (((s.unstaged k).judged g (Banks.stop .failed) ldUncorr 0).memRecord k a).finish k stUncorr 0 0 := by
  unfold State.loadDone
  dsimp only
  have good' := (State.checkLoad_unstaged (s := s) (k := k) ..).trans good
  have refused' := (State.writeTier_unstaged (k := k) ..).trans (congrArg (Except.map _) refused)
  unfold State.unstaged at good' refused'
  rw [good']
  dsimp only
  rw [if_pos dist, refused']
  rfl

/-- What a passed load writes besides its shadow, a scale image over the sound words of its dies and a distance table over its
span, and the state that it leaves. -/
theorem State.loadDone_good (good : s.checkLoad g.part g.ctx (kindOfNo g.kind) (s.staged g) = none)
    (written : kindOfNo g.kind = .dist → ∃ v, s.tableWrite (s.staged g) = .ok v) :
    ∃ u, s.loadDone k g = (u.judged g (Banks.passed (kindOfNo g.kind) (s.staged g)) 0 0).finish k stOk 0 0
      ∧ Changes [.fabric, .tiers, .dies] (s.unstaged k) u
      ∧ (kindOfNo g.kind ≠ .dist → u.fabric.mem = s.fabric.mem)
      ∧ (kindOfNo g.kind ≠ .dist → kindOfNo g.kind ≠ .scales → u.fabric = s.fabric)
      ∧ (kindOfNo g.kind = .dist → ∀ v, s.tableWrite (s.staged g) = .ok v → u.fabric = v.fabric) := by
  have good' := (State.checkLoad_unstaged (s := s) (k := k) ..).trans good
  by_cases dist : kindOfNo g.kind = .dist
  · obtain ⟨v, wrote⟩ := written dist
    have wrote' := (State.writeTier_unstaged (k := k) ..).trans (congrArg (Except.map _) wrote)
    refine ⟨(s.unstaged k).setFabric v.fabric, ?_, changes_of_keep ?_, absurd dist, absurd dist, fun _ w same => ?_⟩
    · unfold State.loadDone
      dsimp only
      unfold State.unstaged at good' wrote'
      rw [good']
      dsimp only
      rw [if_pos dist, wrote']
      rfl
    · simp
    · cases wrote.symm.trans same
      rfl
  by_cases scales : kindOfNo g.kind = .scales
  · refine ⟨(s.unstaged k).scalesWritten g.part g.ctx (((s.staged g).len - 64) / 16384), ?_, changes_of_keep ?_, fun _ => rfl,
      fun _ other => absurd scales other, fun is => absurd is dist⟩
    · unfold State.loadDone
      dsimp only
      unfold State.unstaged at good'
      rw [good']
      dsimp only
      rw [if_neg dist, if_pos scales]
      rfl
    · simp
  · refine ⟨s.unstaged k, ?_, changes_of_keep rfl, fun _ => rfl, fun _ _ => rfl, fun is => absurd is dist⟩
    unfold State.loadDone
    dsimp only
    unfold State.unstaged at good'
    rw [good']
    dsimp only
    rw [if_neg dist, if_neg scales]
    rfl

/-- A partition that does not run selects nothing (02 R46). -/
theorem State.selectNext_of_stopped {p now : Nat} (stopped : (s.part p).life ≠ .running) : s.selectNext p now = s := by
  have nothing : s.select p now = s := by
    unfold State.select
    exact if_pos (by simp [stopped])
  unfold State.selectNext
  rw [nothing]
  exact if_neg (by cases (s.seq p).run <;> simp)

/-- LOAD_CHECK ends the load of the only staging of its set. -/
theorem exec_loadCheck {x : Port} {set : SetId} (only : ∀ h ∈ s.stagings, h.key = setKey x set → h = g) (mem : g ∈ s.stagings)
    (key : g.key = setKey x set) (image : g.kind ≠ 5) (d : Nat) :
    exec (.loadCheck x set d) s = .next ((s.loadDone (setKey x set) g).selectNext g.part (s.clock.boundaryAt + d)) := by
  have found : s.stagings.find? (fun g => decide (g.key = setKey x set ∧ g.kind ≠ 5)) = some g := by
    cases h : s.stagings.find? (fun g => decide (g.key = setKey x set ∧ g.kind ≠ 5)) with
    | none => exact absurd (decide_eq_true ⟨key, image⟩) (List.find?_eq_none.mp h g mem)
    | some h' =>
      have fits := List.find?_some h
      exact congrArg some (only h' (List.mem_of_find?_eq_some h) (of_decide_eq_true fits).1)
  show execLoadCheck x set d s = _
  unfold execLoadCheck
  dsimp only
  rw [found]

/-- LOAD_CHECK leaves `t`, and then selects the next batch step. -/
def State.ChecksTo (s : State) (x : Port) (set : SetId) (d p : Nat) (t : State) : Prop :=
  exec (.loadCheck x set d) s = .next (t.selectNext p (s.clock.boundaryAt + d))
    ∧ ((s.part p).life ≠ .running → t.selectNext p (s.clock.boundaryAt + d) = t)

/-- After LOAD_CHECK the next batch step is selected, where the partition runs. -/
theorem loadCheck_selects {x : Port} {set : SetId} {d : Nat} {t : State}
    (runs : exec (.loadCheck x set d) s = .next ((s.loadDone (setKey x set) g).selectNext g.part (s.clock.boundaryAt + d)))
    (ends : s.loadDone (setKey x set) g = t) (same : t.part g.part = s.part g.part) :
    s.ChecksTo x set d g.part t := by
  subst ends
  exact ⟨runs, fun stopped => State.selectNext_of_stopped (same ▸ stopped)⟩

theorem State.not_mem_unstaged (key : g.key = k) : g ∉ (s.unstaged k).stagings := by
  simp [State.unstaged, key]

/-- The end of a load whose check gave its verdict in `u`. -/
theorem State.finish_judged {x : Port} {set : SetId} {u v : State} {f : Banks → Banks} {result step status count at' : Nat} {l : List Place}
    (stage : (s.tset (setKey x set)).opcode = 0x21) (part : (s.tset (setKey x set)).partNo = g.part)
    (ctx : (s.tset (setKey x set)).ctxNo = g.ctx) (writes : Changes [.stagings, .fabric, .tiers, .dies] s u)
    (record : Changes l (u.judged g f result step) v) (few : l ⊆ [.dict, .errors, .observe, .free]) :
    let kind := kindOfNo g.kind
    let t := v.finish (setKey x set) status count at'
    Posted s t x set status count at' ∧ (t.ctx g.part g.ctx).banks kind = f ((s.ctx g.part g.ctx).banks kind)
      ∧ (t.ctx g.part g.ctx).loadResult = BitVec.ofNat 8 result ∧ (t.ctx g.part g.ctx).failStep = BitVec.ofNat 12 step
      ∧ t.errors = v.errors ∧ Changes (.tset (setKey x set) :: .port x.val :: .ctx (g.part * 16 + g.ctx) :: .dict :: l) u t := by
  have set' : u.tset (setKey x set) = s.tset (setKey x set) := writes.same (.tset _)
  have banks : u.ctx g.part g.ctx = s.ctx g.part g.ctx := writes.same (.ctx _)
  rw [← banks]
  exact State.finish_settleLoad ((congrArg TaskSet.opcode set').trans stage) ((congrArg TaskSet.partNo set').trans part)
    ((congrArg TaskSet.ctxNo set').trans ctx) (writes.same .clock)
    (writes.same (.port x.val)) record few

theorem State.changes_unstaged : Changes [.stagings] s (s.unstaged k) := by
  refine changes_of_keep ?_
  unfold State.unstaged
  simp

/-! ### The clauses of LOAD_CHECK -/

section
variable {x : Port} {set : SetId} (d : Nat) (stage : (s.tset (setKey x set)).opcode = 0x21)
  (part : (s.tset (setKey x set)).partNo = g.part) (ctx : (s.tset (setKey x set)).ctxNo = g.ctx) (key : g.key = setKey x set)
  (runs : exec (.loadCheck x set d) s = .next ((s.loadDone (setKey x set) g).selectNext g.part (s.clock.boundaryAt + d)))

include stage part ctx key runs

theorem loadCheck_passes (good : s.checkLoad g.part g.ctx (kindOfNo g.kind) (s.staged g) = none)
    (written : kindOfNo g.kind = .dist → ∃ v, s.tableWrite (s.staged g) = .ok v) :
    ∃ t, s.ChecksTo x set d g.part t ∧ Posted s t x set 0x0000 0 0
      ∧ (t.ctx g.part g.ctx).banks (kindOfNo g.kind)
        = Banks.passed (kindOfNo g.kind) (s.staged g) ((s.ctx g.part g.ctx).banks (kindOfNo g.kind))
      ∧ (t.ctx g.part g.ctx).loadResult = 0 ∧ g ∉ t.stagings
      ∧ (kindOfNo g.kind ≠ .dist → t.fabric.mem = s.fabric.mem)
      ∧ (kindOfNo g.kind ≠ .dist → kindOfNo g.kind ≠ .scales → t.fabric = s.fabric)
      ∧ (kindOfNo g.kind = .dist → ∀ v, s.tableWrite (s.staged g) = .ok v → t.fabric = v.fabric)
      ∧ Changes [.tset (setKey x set), .port x.val, .ctx (g.part * 16 + g.ctx), .stagings, .dict, .fabric, .tiers, .dies] s t := by
  obtain ⟨u, ends, writes, mem, fabric, table⟩ := State.loadDone_good (k := setKey x set) good written
  have until' : Changes [.stagings, .fabric, .tiers, .dies] s u := (State.changes_unstaged.widen (by simp)).trans (writes.widen (by simp))
  obtain ⟨posted, banks, result, -, -, changes⟩ := State.finish_judged (status := stOk) (count := 0) (at' := 0) (l := [])
    (f := Banks.passed (kindOfNo g.kind) (s.staged g)) (result := 0) (step := 0) stage part ctx until' (changes_of_keep rfl) (by simp)
  have stagings := (changes.same .stagings).trans (writes.same .stagings)
  have same := changes.same .fabric
  have whole : Changes [.tset (setKey x set), .port x.val, .ctx (g.part * 16 + g.ctx), .stagings, .dict, .fabric, .tiers, .dies] s _ :=
    (until'.widen (by simp)).trans (changes.widen (by simp))
  exact ⟨_, loadCheck_selects runs ends (whole.same (.part g.part)), posted, banks, result,
    stagings ▸ State.not_mem_unstaged key, fun kind => (congrArg Fabric.mem same).trans (mem kind),
    fun kind other => same.trans (fabric kind other), fun kind v wrote => same.trans (table kind v wrote), whole⟩

theorem loadCheck_refused {a : Nat} (good : s.checkLoad g.part g.ctx (kindOfNo g.kind) (s.staged g) = none)
    (dist : kindOfNo g.kind = .dist) (slot : s.SlotFree) (refused : s.tableWrite (s.staged g) = .error a) :
    ∃ t, s.ChecksTo x set d g.part t ∧ Posted s t x set 0x0202 0 0
      ∧ (t.ctx g.part g.ctx).banks (kindOfNo g.kind) = Banks.stop .failed ((s.ctx g.part g.ctx).banks (kindOfNo g.kind))
      ∧ (t.ctx g.part g.ctx).loadResult = BitVec.ofNat 8 ldUncorr ∧ g ∉ t.stagings
      ∧ Raised s t (fun r => r.cause = 0x0020 ∧ r.severity = 1 ∧ r.address = BitVec.ofNat 64 a)
      ∧ Changes [.tset (setKey x set), .port x.val, .ctx (g.part * 16 + g.ctx), .stagings, .dict, .errors, .observe, .free] s t := by
  have settles : Changes [.ctx (g.part * 16 + g.ctx), .dict] (s.unstaged (setKey x set))
      ((s.unstaged (setKey x set)).judged g (Banks.stop .failed) ldUncorr 0) := State.changes_settleLoad
  have until' := (State.changes_unstaged (s := s) (k := setKey x set)).widen (m := [.stagings, .fabric, .tiers, .dies]) (by simp)
  have record : Changes [.dict, .errors, .observe, .free] ((s.unstaged (setKey x set)).judged g (Banks.stop .failed) ldUncorr 0)
      (((s.unstaged (setKey x set)).judged g (Banks.stop .failed) ldUncorr 0).memRecord (setKey x set) a) := changes_of_keep (by simp)
  obtain ⟨posted, banks, result, -, errors, changes⟩ := State.finish_judged (status := stUncorr) (count := 0) (at' := 0) stage part ctx
    until' record (List.Subset.refl _)
  have stagings := changes.same .stagings
  have whole : Changes [.tset (setKey x set), .port x.val, .ctx (g.part * 16 + g.ctx), .stagings, .dict, .errors, .observe, .free] s _ :=
    (State.changes_unstaged.widen (by simp)).trans (changes.widen (by simp))
  exact ⟨_, loadCheck_selects runs (State.loadDone_refused good dist refused) (whole.same (.part g.part)),
    posted, banks, result, stagings ▸ State.not_mem_unstaged key,
    State.raised_memRecord slot (settles.same .errors) (settles.same .clock) errors,
    whole⟩

theorem loadCheck_fails {c i : Nat} (bad : s.checkLoad g.part g.ctx (kindOfNo g.kind) (s.staged g) = some (c, i)) :
    ∃ t, s.ChecksTo x set d g.part t ∧ Posted s t x set 0x0106 c i
      ∧ (t.ctx g.part g.ctx).banks (kindOfNo g.kind) = Banks.stop .failed ((s.ctx g.part g.ctx).banks (kindOfNo g.kind))
      ∧ (t.ctx g.part g.ctx).loadResult = BitVec.ofNat 8 c ∧ (t.ctx g.part g.ctx).failStep = BitVec.ofNat 12 i
      ∧ g ∉ t.stagings ∧ Changes [.tset (setKey x set), .port x.val, .ctx (g.part * 16 + g.ctx), .stagings, .dict] s t := by
  have until' := (State.changes_unstaged (s := s) (k := setKey x set)).widen (m := [.stagings, .fabric, .tiers, .dies]) (by simp)
  obtain ⟨posted, banks, result, step, -, changes⟩ := State.finish_judged (status := stLoadFailed) (count := c) (at' := i) (l := [])
    (f := Banks.stop .failed) (result := c) (step := i) stage part ctx until' (changes_of_keep rfl) (by simp)
  have stagings := changes.same .stagings
  have whole : Changes [.tset (setKey x set), .port x.val, .ctx (g.part * 16 + g.ctx), .stagings, .dict] s _ :=
    (State.changes_unstaged.widen (by simp)).trans (changes.widen (by simp))
  exact ⟨_, loadCheck_selects runs (State.loadDone_bad bad) (whole.same (.part g.part)), posted, banks,
    result, step, stagings ▸ State.not_mem_unstaged key, whole⟩

end

end

/-- Settles O39: STAGE_MODEL by whether its image is gated away and can be read, LOAD_CHECK by its verdict. -/
theorem loadsRun : Obligations.LoadsRun := by
  unfold Obligations.LoadsRun
  refine ⟨?_, ?_⟩
  · intro s x set kind i n load k w p ready c withdrawn gated
    obtain ⟨waits, runs⟩ := imageLoads_run s x set kind i n load ready
    have stage := State.opcode_of_readyStage ready
    refine ⟨waits, fun other ungated m read => ?_, fun other isGated => ?_, fun other ungated a read slot => ?_⟩
    · exact ⟨_, runs other, loadImage_loads ungated read⟩
    · exact ⟨_, runs other, loadImage_stopsGated stage isGated⟩
    · exact ⟨_, runs other, loadImage_stopsUncorrectable stage ungated slot read⟩
  · intro s x set d g k only mem key image stage part ctx kind b wrote Then
    have runs := exec_loadCheck only mem key (by omega) d
    have dist : kind = .dist ↔ g.kind = 3 := by
      unfold kind
      obtain no | no | no | no := image <;> rw [no] <;> decide
    refine ⟨fun good written => ?_, fun good third slot a refused => ?_, fun c i bad => ?_⟩
    · obtain ⟨t, runs, posted, banks, result, gone, tiers, fabric, table, changes⟩ :=
        loadCheck_passes d stage part ctx key runs good fun is => written (dist.mp is)
      refine ⟨t, runs, posted, banks, result, gone, fun other => tiers fun is => other (dist.mp is), fun other => ?_,
        fun third => table (dist.mpr third), changes⟩
      refine fabric (fun is => ?_) fun is => ?_
      · have third := dist.mp is
        omega
      · obtain no | no := other <;> cases no ▸ is
    · exact loadCheck_refused d stage part ctx key runs good (dist.mpr third) slot refused
    · exact loadCheck_fails d stage part ctx key runs bad

end Sys2Proof.Machine
end

