-- ==== Sys2Proof/Proofs/RecordObjects.lean ====
section
/-! What the raising of a record and the writing of persistent data leave of the numeric objects: those below index 0x7000. -/

namespace Sys2Proof.Machine

/-! ### The objects that a record changes (16 R405; 19 R466, R474) -/

/-- The numeric objects that the raising of a record may change: the records that were lost or not copied, the time and the count of
the freezes, and the dumps taken and refused. -/
def recordObjs : List (Nat × Nat) := [(0x8000, 2), (0x8000, 3), (0x9001, 6), (0x9001, 9), (0x9030, 2), (0x9030, 3)]

/-- From `s` to `t` records were raised, at most: of the dictionary only their objects changed, and RESET_HISTORY is as it was. -/
structure State.OnlyRecords (s t : State) : Prop where
  only : OnlyObjs recordObjs s t
  resets : t.errors.resets = s.errors.resets

section
variable {s t u : State}

theorem OnlyObjs.mono {l m : List (Nat × Nat)} (h : OnlyObjs l s t) (sub : l ⊆ m) : OnlyObjs m s t :=
  ⟨h.1, fun i j other => h.2 i j fun q mem => other q (sub mem)⟩

theorem OnlyObjs.obj_of_lt {l : List (Nat × Nat)} {n i j : Nat} (h : OnlyObjs l s t) (above : ∀ q ∈ l, n ≤ objKey q.1 q.2)
    (low : objKey i j < n) : t.obj i j = s.obj i j :=
  h.2 i j fun q mem => Nat.ne_of_lt (Nat.lt_of_lt_of_le low (above q mem))

theorem State.OnlyRecords.trans (h : s.OnlyRecords t) (h' : t.OnlyRecords u) : s.OnlyRecords u :=
  ⟨(h.only.trans h'.only).mono (by simp), h'.resets.trans h.resets⟩

theorem State.OnlyRecords.of_eq (dict : t.dict = s.dict) (power : t.power = s.power) (resets : t.errors.resets = s.errors.resets) :
    s.OnlyRecords t :=
  ⟨.of_eq _ dict (congrArg Power.ids power), resets⟩

theorem State.OnlyRecords.ite {c : Prop} [Decidable c] (ht : s.OnlyRecords t) (hu : s.OnlyRecords u) :
    s.OnlyRecords (if c then t else u) := by
  split
  · exact ht
  · exact hu

theorem State.OnlyRecords.bumpSat (h : s.OnlyRecords t) {i j : Nat} (n : Nat) (listed : (i, j) ∈ recordObjs) :
    s.OnlyRecords (t.bumpSat i j n) :=
  h.trans ⟨(onlyObjs_bumpSat t i j n).mono (by simpa using listed), rfl⟩

theorem State.OnlyRecords.setErrors (h : s.OnlyRecords t) {e : Errors} (resets : e.resets = t.errors.resets) :
    s.OnlyRecords (t.setErrors e) := h.trans (.of_eq rfl rfl resets)

theorem State.OnlyRecords.freezeSource (h : s.OnlyRecords t) (n at' : Nat) : s.OnlyRecords (t.freezeSource n at') := by
  unfold State.freezeSource State.freezeCounters
  refine .ite (.ite ?_ ?_) h
  · exact h.bumpSat 1 (by decide)
  · have passed : t.OnlyRecords (t.passOn false) := .of_eq (by simp) (by simp) (by simp)
    exact (h.trans passed).trans ⟨(onlyObjs_put ..).mono (by decide), rfl⟩

theorem State.OnlyRecords.placeRecord (h : s.OnlyRecords t) (r : Rec) : s.OnlyRecords (t.placeRecord r) := by
  unfold State.placeRecord
  lift_lets
  extract_lets e old read recent room copy late copied counted
  have hread : s.OnlyRecords read := .ite h (h.bumpSat 1 (by decide))
  have hcopied : s.OnlyRecords copied := .ite hread (hread.bumpSat 1 (by decide))
  have hcounted : s.OnlyRecords counted := .ite (hcopied.bumpSat 1 (by decide)) hcopied
  exact hcounted.setErrors rfl

theorem State.OnlyRecords.capture (h : s.OnlyRecords t) (trigger p seq at' : Nat) : s.OnlyRecords (t.capture trigger p seq at').1 := by
  by_cases near : t.dumpedNear at'
  · obtain ⟨a, last, soon⟩ := near
    rw [State.capture_near trigger p seq last soon]
    exact h.bumpSat 1 (by decide)
  · obtain ⟨image, eq⟩ := State.capture_far trigger p seq fun a last => Nat.le_of_not_lt fun soon => near ⟨a, last, soon⟩
    rw [eq]
    refine .freezeSource (.bumpSat (h.trans ?_) 1 (by decide)) 1 at'
    exact .of_eq rfl rfl rfl

/-- A record that is not about uncorrectable memory counts nothing besides. -/
theorem State.onlyRecords_raiseAs (s : State) {rep : Report} (noMem : rep.cause.toNat ≠ causeMem ∧ rep.cause.toNat ≠ causeScrub)
    (escalated : Bool) (related : BitVec 32) : s.OnlyRecords (s.raiseAs rep escalated related) := by
  unfold State.raiseAs
  lift_lets
  extract_lets e slot time stamp drawn frozen lost last placed
  have hdrawn : s.OnlyRecords drawn := by
    simp only [drawn, State.countUncorr, if_pos noMem]
    exact .of_eq rfl rfl rfl
  have hfrozen : s.OnlyRecords frozen := .ite (hdrawn.freezeSource 2 time) hdrawn
  have hplaced : s.OnlyRecords placed := hfrozen.placeRecord _
  have hlost : s.OnlyRecords lost := hfrozen.bumpSat 1 (by decide)
  have absorbed : s.OnlyRecords (lost.absorbAll (e.next + 1)) := hlost.setErrors rfl
  exact .ite ((absorbed.placeRecord last).capture ..) (.ite (hplaced.capture ..) hplaced)

theorem State.onlyRecords_raise (s : State) {rep : Report} (noMem : rep.cause.toNat ≠ causeMem ∧ rep.cause.toNat ≠ causeScrub) :
    s.OnlyRecords (s.raise rep) := by
  refine s.onlyRecords_raiseAs ?_ false 0
  split <;> exact noMem

/-- The raising of such a record leaves every object below index 0x7000. -/
theorem State.obj_raise_of_lt (s : State) {rep : Report} (noMem : rep.cause.toNat ≠ causeMem ∧ rep.cause.toNat ≠ causeScrub)
    {i j : Nat} (low : objKey i j < objKey 0x7000 0) : (s.raise rep).obj i j = s.obj i j :=
  (s.onlyRecords_raise noMem).only.obj_of_lt (by decide) low

/-! ### Persistent data (17 R439, R440) -/

theorem State.onlyObjs_dataWrite (s : State) : OnlyObjs [(0x7040, 5)] s s.dataWrite := by
  unfold State.dataWrite
  dsimp only
  split
  · exact ((OnlyObjs.of_eq [] rfl rfl).trans (onlyObjs_put _ _ _ _)).mono (by simp)
  · exact .of_eq _ rfl rfl

/-- Of the security state, a data write changes the counts of the erases alone. -/
theorem State.security_dataWrite (s : State) :
    s.dataWrite.security = { s.security with erases := s.dataWrite.security.erases } := by
  unfold State.dataWrite
  dsimp only
  split <;> rfl

end

end Sys2Proof.Machine
end

