-- ==== Sys2Proof/Proofs/StartUpBegins.lean ====
section
/-! STARTUP_BEGIN: the tests' results are withdrawn, and the reset is recorded (17 R433; 16 R413; 18 R447). -/

namespace Sys2Proof.Machine

/-! ### The results of the tests (07 R191, R196; 04 R121) -/

/-- The objects that a start-up sets to zero: the results of the tests, and the integrity counters. -/
def clearedObjs : List (Nat × Nat) := [(0x3000, 2), (0x5000, 1), (0x3030, 6), (0x3030, 7)] ++ guardCounters

theorem clearedObjs_low : ∀ o ∈ clearedObjs, objKey o.1 o.2 < objKey 0x7000 0 := by decide +kernel

section
variable (s : State)

/-- The objects of a list are zero. -/
def State.zeroed (l : List (Nat × Nat)) : State := s.each l fun s o => s.put o.1 o.2 0

theorem State.obj_zeroed (l : List (Nat × Nat)) (i j : Nat) :
    (s.zeroed l).obj i j = if ∃ o ∈ l, objKey i j = objKey o.1 o.2 then 0 else s.obj i j := by
  induction l generalizing s with
  | nil => simp [State.zeroed, State.each]
  | cons o l ih =>
    refine (ih (s.put o.1 o.2 0)).trans ?_
    rw [State.obj_put, Nat.zero_mod, Nat.zero_mod]
    simp only [List.exists_mem_cons_iff]
    by_cases first : objKey i j = objKey o.1 o.2 <;> simp only [first, true_or, false_or, if_true, if_false, ite_self]

/-- The objects of a list are zero, no row is counted, and the conditions of R197 are as the objects have them. -/
def State.cleared (l : List (Nat × Nat)) : State :=
  ((s.zeroed l).setGuard { (s.zeroed l).guard with levels := [], rows := [] }).guardNow

theorem State.clearTests_eq : s.clearTests = s.cleared clearedObjs := by
  unfold State.clearTests State.cleared State.zeroed clearedObjs
  rfl

theorem State.obj_cleared (l : List (Nat × Nat)) (i j : Nat) : (s.cleared l).obj i j = (s.zeroed l).obj i j := rfl

theorem State.changes_cleared (l : List (Nat × Nat)) : Changes [.dict, .guard] s (s.cleared l) :=
  changes_of_keep (by simp [State.cleared, State.zeroed])

theorem State.obj_cleared_of_mem {l : List (Nat × Nat)} {i j : Nat} (mem : (i, j) ∈ l) : (s.cleared l).obj i j = 0 := by
  rw [State.obj_cleared, State.obj_zeroed, if_pos ⟨(i, j), mem, rfl⟩]

theorem State.guard_cleared {l : List (Nat × Nat)} (result : (0x3000, 2) ∈ l) (low : (0x3030, 6) ∈ l) (high : (0x3030, 7) ∈ l) :
    (s.cleared l).guard = { s.guard with levels := [], rows := [], nearOff := false, farOff := false, banksOff := 0 } := by
  have kept : (s.zeroed l).guard = s.guard :=
    changes_of_keep (W := [.dict]) (by simp [State.zeroed]) .guard (by simp) (by simp)
  have eq : (s.cleared l).guard = { (s.zeroed l).guard with
    levels := [], rows := [], nearOff := bitOf ((s.cleared l).obj 0x3000 2) 31, farOff := bitOf ((s.cleared l).obj 0x3000 2) 30
    banksOff := (s.cleared l).obj 0x3030 6 + (s.cleared l).obj 0x3030 7 * 2 ^ 64 } := rfl
  rw [eq, kept, State.obj_cleared_of_mem s result, State.obj_cleared_of_mem s low, State.obj_cleared_of_mem s high]
  rfl

/-! ### Before the record -/

/-- The module as start-up begins: no input holds it. -/
def State.inputsSettled : State := s.updPower fun p => { p with
  resetLow := false, failLow := false, absent := false, badInput := false, warned := false, flushed := false
  state := 0, stage := 2 }

/-- The bands have aged, the start-up counts as one that failed until READY, and LC_NONCE is new. -/
def State.startCounted : State :=
  (s.ageBands.setSecurity { s.ageBands.security with fails := s.ageBands.security.fails + 1 }).newNonce

theorem State.obj_startCounted (i j : Nat) : s.startCounted.obj i j = s.obj i j := rfl

theorem State.security_startCounted :
    s.startCounted.security = { s.security with fails := s.security.fails + 1, nonceDraw := s.free } := rfl

theorem State.media_startCounted : s.startCounted.media = { s.media with
    timed := false
    bands := s.media.bands.map fun b => { b with
      aged := b.aged + b.allow.getD 0, allow := some (s.obj 0x4040 2 * dayUnits) } } := rfl

theorem State.changes_startCounted : Changes [.media, .security, .free] s s.startCounted :=
  changes_of_keep (by simp [State.startCounted])

/-- A start-up begins: the objects of the list are withdrawn. -/
def State.begun (l : List (Nat × Nat)) : State := (s.inputsSettled.cleared l).startCounted

theorem State.obj_inputsSettled (i j : Nat) : s.inputsSettled.obj i j = s.obj i j := rfl

theorem State.changes_begun (l : List (Nat × Nat)) :
    Changes [.power, .powerState, .stage, .dict, .guard, .media, .security, .free] s (s.begun l) :=
  changes_of_keep (by simp [State.begun, State.startCounted, State.cleared, State.zeroed, State.inputsSettled])

theorem State.power_begun (l : List (Nat × Nat)) : (s.begun l).power = s.inputsSettled.power :=
  ((State.changes_startCounted _).same .power).trans ((State.changes_cleared _ l).same .power)

/-- The withdrawn objects do not hold POWEROFF_DAYS, by which the bands age. -/
theorem State.media_begun {l : List (Nat × Nat)} (noDays : ∀ o ∈ l, objKey 0x4040 2 ≠ objKey o.1 o.2) :
    (s.begun l).media = s.ageBands.media := by
  have media : (s.inputsSettled.cleared l).media = s.media := (State.changes_cleared _ l).same .media
  have days : (s.inputsSettled.cleared l).obj 0x4040 2 = s.obj 0x4040 2 := by
    rw [State.obj_cleared, State.obj_zeroed, if_neg fun ⟨o, mem, same⟩ => noDays o mem same, State.obj_inputsSettled]
  rw [State.begun, State.media_startCounted, media, days]
  rfl

theorem State.security_begun (l : List (Nat × Nat)) :
    (s.begun l).security = { s.security with fails := s.security.fails + 1, nonceDraw := s.free } := by
  have security : (s.inputsSettled.cleared l).security = s.security := (State.changes_cleared _ l).same .security
  have free : (s.inputsSettled.cleared l).free = s.free := (State.changes_cleared _ l).same .free
  rw [State.begun, State.security_startCounted, security, free]

/-! ### The record of the start-up (16 R413) -/

/-- The report of a start-up, with the source of its reset. -/
def resetReport (source : Nat) : Report := { report causeReset 7 0 0 0 with detail := BitVec.ofNat 128 source }

theorem cause_resetReport (source : Nat) : (resetReport source).cause = 0x0001 := rfl

theorem resetReport_noMem (source : Nat) :
    (resetReport source).cause.toNat ≠ causeMem ∧ (resetReport source).cause.toNat ≠ causeScrub := by
  rw [cause_resetReport]
  decide

/-- RESET_HISTORY is written, and kept. -/
def State.historyPut (l : List (BitVec 32 × BitVec 64 × BitVec 8)) : State :=
  (s.setErrors { s.errors with resets := l }).dataWrite

/-- RESET_HISTORY with its entry of a start-up. -/
def State.historyNow : List (BitVec 32 × BitVec 64 × BitVec 8) :=
  pageAdd 256 s.errors.resets (s.errors.next, s.errors.lastEpoch, BitVec.ofNat 8 s.power.source)

/-- The newest record of a page is on it. -/
theorem mem_pageAdd {α : Type} {n : Nat} (room : 0 < n) (l : List α) (x : α) : x ∈ pageAdd n l x := by
  unfold pageAdd
  rw [List.drop_append_of_le_length (by omega)]
  exact List.mem_append_right _ (List.mem_singleton_self x)

theorem State.mem_historyNow :
    (s.errors.next, s.errors.lastEpoch, BitVec.ofNat 8 s.power.source) ∈ s.historyNow := mem_pageAdd (by decide) ..

section
variable (l : List (BitVec 32 × BitVec 64 × BitVec 8))

theorem State.errors_historyPut : (s.historyPut l).errors = { s.errors with resets := l } := by
  have kept : Changes [.dict, .free, .security] (s.setErrors { s.errors with resets := l }) (s.historyPut l) :=
    changes_of_keep (by simp [State.historyPut])
  exact kept.same .errors

theorem State.changes_historyPut : Changes [.dict, .errors, .free, .security] s (s.historyPut l) :=
  changes_of_keep (by simp [State.historyPut])

theorem State.security_historyPut :
    (s.historyPut l).security = { s.security with erases := (s.historyPut l).security.erases } :=
  State.security_dataWrite _

theorem State.obj_historyPut_of_lt {i j : Nat} (low : objKey i j < objKey 0x7000 0) : (s.historyPut l).obj i j = s.obj i j :=
  (State.onlyObjs_dataWrite _).obj_of_lt (by decide) low

end

theorem State.resetRecord_eq : s.resetRecord = (s.historyPut s.historyNow).raise (resetReport s.power.source) := by
  have power : (s.historyPut s.historyNow).power = s.power := (s.changes_historyPut _).same .power
  rw [← power]
  rfl

theorem State.changes_resetRecord : Changes [.dict, .errors, .free, .security, .observe] s s.resetRecord :=
  changes_of_keep (by simp)

theorem State.security_resetRecord :
    s.resetRecord.security = { s.security with erases := s.resetRecord.security.erases } := by
  rw [State.resetRecord_eq, State.raise_security]
  exact State.security_historyPut _ _

theorem State.obj_resetRecord_of_lt {i j : Nat} (low : objKey i j < objKey 0x7000 0) : s.resetRecord.obj i j = s.obj i j := by
  rw [State.resetRecord_eq, State.obj_raise_of_lt _ (resetReport_noMem _) low, State.obj_historyPut_of_lt _ _ low]

theorem State.mem_resets_resetRecord :
    (s.errors.next, s.errors.lastEpoch, BitVec.ofNat 8 s.power.source) ∈ s.resetRecord.errors.resets := by
  rw [State.resetRecord_eq, (State.onlyRecords_raise _ (resetReport_noMem _)).resets, State.errors_historyPut]
  dsimp only
  exact s.mem_historyNow

theorem State.SlotFree.of_errors {s t : State} (slot : s.SlotFree) (ring : t.errors.ring = s.errors.ring)
    (next : t.errors.next = s.errors.next) : t.SlotFree := by
  unfold State.SlotFree Errors.slot
  rw [ring, next]
  exact slot

theorem State.raised_resetRecord (slot : s.SlotFree) : Raised s s.resetRecord fun r =>
    r.cause.toNat = 0x0001 ∧ r.severity = 0 ∧ r.detail = BitVec.ofNat 128 s.power.source := by
  have errors := s.errors_historyPut s.historyNow
  have free : (s.historyPut s.historyNow).SlotFree := slot.of_errors (by rw [errors]) (by rw [errors])
  obtain ⟨r, kept, seq, epoch, st, whole, alone, next, rep⟩ := State.raise_raised_stated free
    (rep := resetReport s.power.source) (by rw [cause_resetReport]; decide)
  rw [errors] at kept seq next
  rw [← State.resetRecord_eq] at kept next
  refine ⟨r, kept, seq, epoch.trans ?_, st, whole, alone, next, ?_⟩
  · exact congrArg Clock.epoch ((s.changes_historyPut _).same .clock)
  · rw [rep]
    exact ⟨rfl, rfl, rfl⟩

/-! ### The command -/

/-- The state that STARTUP_BEGIN leaves. -/
def State.started : State := (s.begun clearedObjs).resetRecord

theorem startupBegin_starts (may : s.mayStart = true) : exec .startupBegin s = .next s.started := by
  have tests := s.inputsSettled.clearTests_eq
  unfold State.started State.begun
  rw [← tests]
  exact if_pos may

theorem startupBegin_waits (held : s.mayStart = false) : exec .startupBegin s = .next s := if_neg (by rw [held]; nofun)

theorem State.power_started : s.started.power = s.inputsSettled.power :=
  ((State.changes_resetRecord _).same .power).trans (s.power_begun _)

theorem State.obj_started {o : Nat × Nat} (mem : o ∈ clearedObjs) : s.started.obj o.1 o.2 = 0 := by
  rw [State.started, State.obj_resetRecord_of_lt _ (clearedObjs_low o mem), State.begun, State.obj_startCounted,
    State.obj_cleared_of_mem _ mem]

theorem State.guard_started : s.started.guard
    = { s.guard with levels := [], rows := [], nearOff := false, farOff := false, banksOff := 0 } := by
  have recorded : s.started.guard = (s.begun clearedObjs).guard := (State.changes_resetRecord _).same .guard
  have counted : (s.begun clearedObjs).guard = (s.inputsSettled.cleared clearedObjs).guard :=
    (State.changes_startCounted _).same .guard
  rw [recorded, counted, State.guard_cleared _ (by decide +kernel) (by decide +kernel) (by decide +kernel)]
  rfl

theorem State.media_started : s.started.media = s.ageBands.media :=
  ((State.changes_resetRecord _).same .media).trans (s.media_begun (by decide +kernel))

theorem State.security_started : s.started.security
    = { s.security with fails := s.security.fails + 1, nonceDraw := s.free, erases := s.started.security.erases } := by
  rw [State.started, State.security_resetRecord, State.security_begun]

theorem State.errors_begun (l : List (Nat × Nat)) : (s.begun l).errors = s.errors := (s.changes_begun l).same .errors

theorem State.source_begun (l : List (Nat × Nat)) : (s.begun l).power.source = s.power.source := by
  rw [State.power_begun]
  rfl

theorem State.raised_started (slot : s.SlotFree) : Raised s s.started fun r =>
    r.cause.toNat = 0x0001 ∧ r.severity = 0 ∧ r.detail = BitVec.ofNat 128 s.power.source := by
  have errors := s.errors_begun clearedObjs
  have free : (s.begun clearedObjs).SlotFree := slot.of_errors (by rw [errors]) (by rw [errors])
  rw [← s.source_begun clearedObjs]
  exact (State.raised_resetRecord _ free).of_eq errors ((s.changes_begun _).same .clock)

theorem State.mem_resets_started :
    (s.errors.next, s.errors.lastEpoch, BitVec.ofNat 8 s.power.source) ∈ s.started.errors.resets := by
  rw [← s.source_begun clearedObjs, ← s.errors_begun clearedObjs]
  exact State.mem_resets_resetRecord _

theorem State.changes_started :
    Changes [.power, .powerState, .stage, .dict, .guard, .media, .security, .errors, .observe, .free] s s.started :=
  ((s.changes_begun _).widen (by simp)).trans ((State.changes_resetRecord _).widen (by simp))

end

end Sys2Proof.Machine
end

