-- ==== Sys2Proof/Proofs/StartUpTests.lean ====
section
/-! The tests of start-up: the lane dies' and the checkers' (04 R121; 07 R195, R196). -/

namespace Sys2Proof.Machine

/-! ### Bits of the results -/

/-- A bit added where it is clear changes no bit above it. -/
theorem add_two_pow_div {v n : Nat} (clear : bitOf v n = false) : (v + 2 ^ n) / 2 ^ (n + 1) = v / 2 ^ (n + 1) := by
  have even : v / 2 ^ n % 2 ≠ 1 := of_decide_eq_false clear
  rw [Nat.pow_succ, ← Nat.div_div_eq_div_mul, ← Nat.div_div_eq_div_mul, Nat.add_div_right v (Nat.two_pow_pos n)]
  omega

theorem bitOf_setBit_true (v n m : Nat) : bitOf (setBit v n true) m = (bitOf v m || decide (m = n)) := by
  unfold setBit
  by_cases set : bitOf v n = true
  · by_cases same : m = n <;> simp [set, same]
  · have clear : bitOf v n = false := by simpa using set
    have high := add_two_pow_div clear
    rw [bitOf_eq_testBit] at clear
    simp only [bitOf_eq_testBit, clear, if_true, Bool.false_eq_true, if_false]
    obtain below | rfl | above := Nat.lt_trichotomy m n
    · rw [Nat.add_comm, Nat.testBit_two_pow_add_gt below, decide_eq_false (Nat.ne_of_lt below), Bool.or_false]
    · rw [Nat.add_comm, Nat.testBit_two_pow_add_eq, clear]
      simp
    · obtain ⟨k, rfl⟩ : ∃ k, m = k + (n + 1) := ⟨m - (n + 1), by omega⟩
      rw [Nat.testBit_add, Nat.testBit_add, high, decide_eq_false (by omega), Bool.or_false]

/-- A bit of the lower one of two words. -/
theorem bitOf_add_mul_two_pow (x y : Nat) {n m : Nat} (low : m < n) : bitOf (x + y * 2 ^ n) m = bitOf x m := by
  have word (v : Nat) : (v % 2 ^ n).testBit m = v.testBit m := by
    rw [Nat.testBit_mod_two_pow, decide_eq_true low, Bool.true_and]
  rw [bitOf_eq_testBit, bitOf_eq_testBit, ← word (x + y * 2 ^ n), Nat.add_mul_mod_self_right, word]

/-- A bit of an object of 64 bits. -/
theorem State.bitOf_obj_put_same (s : State) {i j : Nat} (v : Nat) (width : objBits i j = 64) {m : Nat} (hm : m < 64) :
    bitOf ((s.put i j v).obj i j) m = bitOf v m := by
  rw [State.obj_put, if_pos rfl, width, Nat.mod_mod, bitOf_eq_testBit, bitOf_eq_testBit, Nat.testBit_mod_two_pow, decide_eq_true hm,
    Bool.true_and]

theorem mem_bitsSet (v n d : Nat) : d ∈ bitsSet v n ↔ d < n ∧ bitOf v d = true := by
  induction n with
  | zero => simp [bitsSet]
  | succ n ih =>
    rw [bitsSet, List.mem_append, ih]
    by_cases last : d = n
    · subst last
      by_cases set : bitOf v d = true <;> simp [set]
    · have : (d < n + 1) ↔ d < n := by omega
      by_cases set : bitOf v n = true <;> simp [set, last, this]

/-! ### The lane dies' test (04 R121) -/

theorem laneReport_noMem (d : Nat) : (report causeLaneTest 0 d 0 0).cause.toNat ≠ causeMem
    ∧ (report causeLaneTest 0 d 0 0).cause.toNat ≠ causeScrub := by
  rw [show (report causeLaneTest 0 d 0 0).cause = 0x0011 from rfl]
  decide

/-- A square is faulted by its test, and recorded. -/
def State.laneFails (s : State) (d : Nat) : State := (s.faultSquare d).raise (report causeLaneTest 0 d 0 0)

/-- The present squares of a mask that are not yet faulted. -/
def State.laneNew (s : State) (mask : BitVec 48) : List Nat :=
  (bitsSet mask.toNat 48).filter fun d => bitOf (s.obj 0x1010 1) d && !bitOf (s.obj 0x5000 1) d

/-- The squares of a list are faulted, and recorded. -/
def State.lanesFail (s : State) (l : List Nat) : State := s.each l State.laneFails

theorem State.bitOf_laneFails (s : State) (n : Nat) {d : Nat} (hd : d < 48) :
    bitOf ((s.laneFails n).obj 0x5000 1) d = (bitOf (s.obj 0x5000 1) d || decide (d = n)) := by
  rw [State.laneFails, State.obj_raise_of_lt _ (laneReport_noMem n) (by decide), State.faultSquare]
  split
  · rw [State.bitOf_obj_put_same _ _ (by decide) (by omega), bitOf_setBit_true]
  next outside => rw [decide_eq_false (by omega), Bool.or_false]

theorem State.bitOf_lanesFail (s : State) (l : List Nat) {d : Nat} (hd : d < 48) :
    bitOf ((s.lanesFail l).obj 0x5000 1) d = (bitOf (s.obj 0x5000 1) d || decide (d ∈ l)) := by
  induction l generalizing s with
  | nil => simp [State.lanesFail, State.each]
  | cons n l ih =>
    refine (ih (s.laneFails n)).trans ?_
    rw [State.bitOf_laneFails s n hd, Bool.or_assoc]
    congr 1
    simp

theorem State.changes_lanesFail (s : State) (l : List Nat) : Changes [.dict, .errors, .observe, .free] s (s.lanesFail l) :=
  changes_of_keep (by simp [State.lanesFail, State.laneFails])

/-- The lane dies' test has ended, with the squares of a list as those that it faults. -/
def State.lanesTested (s : State) (l : List Nat) : State := (s.lanesFail l).updPower fun p => { p with katDone := true }

theorem State.power_lanesTested (s : State) (l : List Nat) : (s.lanesTested l).power = { s.power with katDone := true } := by
  have power : (s.lanesFail l).power = s.power := (s.changes_lanesFail l).same .power
  rw [← power]
  rfl

theorem State.obj_lanesTested (s : State) (l : List Nat) (i j : Nat) : (s.lanesTested l).obj i j = (s.lanesFail l).obj i j := rfl

theorem State.changes_lanesTested (s : State) (l : List Nat) :
    Changes [.power, .dict, .errors, .observe, .free] s (s.lanesTested l) :=
  changes_of_keep (by simp [State.lanesTested, State.lanesFail, State.laneFails])

section
variable {s : State}

theorem execLaneKatDone_eq (mask : BitVec 48) (up : s.power.railsUp = true) :
    exec (.laneKatDone mask) s = .next (s.lanesTested (s.laneNew mask)) := by
  show execLaneKatDone mask s = _
  rw [execLaneKatDone, if_pos up]
  rfl

theorem laneKatDone_faults (mask : BitVec 48) (up : s.power.railsUp = true) :
    ∃ t, exec (.laneKatDone mask) s = .next t ∧ t.power = { s.power with katDone := true }
      ∧ (∀ d, d < 48 → bitOf (t.obj 0x5000 1) d
          = (bitOf (s.obj 0x5000 1) d || (bitOf mask.toNat d && bitOf (s.obj 0x1010 1) d)))
      ∧ t.fabric = s.fabric ∧ Changes [.power, .dict, .errors, .observe, .free] s t := by
  have changes := s.changes_lanesTested (s.laneNew mask)
  refine ⟨_, execLaneKatDone_eq mask up, s.power_lanesTested _, fun d hd => ?_, changes.same .fabric, changes⟩
  rw [State.obj_lanesTested, State.bitOf_lanesFail _ _ hd]
  simp only [State.laneNew, List.mem_filter, mem_bitsSet]
  cases bitOf (s.obj 0x5000 1) d <;> simp [hd]

theorem laneKatDone_waits (mask : BitVec 48) (down : s.power.railsUp = false) : exec (.laneKatDone mask) s = .next s :=
  if_neg (by rw [down]; nofun)

end

/-! ### The checkers' test (07 R195, R196) -/

/-- The report of a checker that failed. -/
def checkerReport : Checker → Report
  | .near k pc => { report causeSelftest 1 k 4 stTornDown with subId := BitVec.ofNat 8 pc }
  | .far k pc => { report causeSelftest 2 k 0 0 with subId := BitVec.ofNat 8 pc }
  | .scratch _ => report causeSelftest 3 0 0 0

/-- The objects as they tell of a checker that failed. -/
def State.checkerTold (s : State) : Checker → State
  | .near k pc => s.put 0x3000 2 (if bitOf (s.obj 0x3000 2) 31 then s.obj 0x3000 2
      else s.obj 0x3000 2 + 2 ^ 31 + field 4 20 k + field 4 16 pc)
  | .far k pc => s.put 0x3000 2 (if bitOf (s.obj 0x3000 2) 30 then s.obj 0x3000 2
      else s.obj 0x3000 2 + 2 ^ 30 + field 3 13 k + field 4 9 pc)
  | .scratch b =>
    let v := s.put 0x3000 2 (setBit (s.obj 0x3000 2) 29 true)
    if b < 64 then v.put 0x3030 6 (setBit (v.obj 0x3030 6) b true) else v.put 0x3030 7 (setBit (v.obj 0x3030 7) (b - 64) true)

theorem State.checkerFail_eq (s : State) (c : Checker) : s.checkerFail c = (s.checkerTold c).raise (checkerReport c) := by
  cases c <;> rfl

theorem checkerReport_noMem (c : Checker) : (checkerReport c).cause.toNat ≠ causeMem
    ∧ (checkerReport c).cause.toNat ≠ causeScrub := by
  have cause : (checkerReport c).cause = 0x0024 := by cases c <;> rfl
  rw [cause]
  decide

/-- The state once the checkers of a list have failed. -/
def State.checkersDone (s : State) (l : List Checker) : State :=
  (s.each l State.checkerFail).guardNow.updPower fun p => { p with checked := true }

section
variable {s : State}

theorem memoryCheckersDone_checks (stage : s.power.stage = 4) (first : s.power.checked = false) (l : List Checker) :
    exec (.memoryCheckersDone l) s = .next (s.checkersDone l) :=
  if_pos ⟨stage, by rw [first]; rfl⟩

theorem memoryCheckersDone_waits (l : List Checker) (past : s.power.stage ≠ 4 ∨ s.power.checked = true) :
    exec (.memoryCheckersDone l) s = .next s := by
  refine if_neg fun ⟨stage, first⟩ => ?_
  rcases past with other | checked
  · exact other stage
  · rw [checked] at first
    cases first

theorem State.changes_checkersFail (s : State) (l : List Checker) :
    Changes [.dict, .errors, .observe, .free] s (s.each l State.checkerFail) :=
  changes_of_keep (by simp)

theorem State.power_checkersDone (s : State) (l : List Checker) :
    (s.checkersDone l).power = { s.power with checked := true } := by
  have power : (s.each l State.checkerFail).power = s.power := (s.changes_checkersFail l).same .power
  rw [← power]
  rfl

theorem State.guard_checkersDone (s : State) (l : List Checker) :
    let t := s.checkersDone l
    t.guard = { s.guard with
      nearOff := bitOf (t.obj 0x3000 2) 31, farOff := bitOf (t.obj 0x3000 2) 30
      banksOff := t.obj 0x3030 6 + t.obj 0x3030 7 * 2 ^ 64 } := by
  have guard : (s.each l State.checkerFail).guard = s.guard := (s.changes_checkersFail l).same .guard
  rw [← guard]
  rfl

theorem State.changes_checkersDone (s : State) (l : List Checker) :
    Changes [.power, .dict, .guard, .errors, .observe, .free] s (s.checkersDone l) :=
  changes_of_keep (by simp [State.checkersDone])

/-- Without a failure the objects stay as they are. -/
theorem State.changes_checkersDone_nil (s : State) :
    OnlyObjs [] s (s.checkersDone []) ∧ Changes [.power, .guard] s (s.checkersDone []) :=
  ⟨.of_eq [] rfl rfl, changes_of_keep (by simp [State.checkersDone, State.each])⟩

/-- Where one checker failed, the objects below index 0x7000 tell of it alone. -/
theorem State.obj_checkersDone_one (s : State) (c : Checker) {i j : Nat} (low : objKey i j < objKey 0x7000 0) :
    (s.checkersDone [c]).obj i j = (s.checkerTold c).obj i j := by
  have told := State.obj_raise_of_lt (s.checkerTold c) (checkerReport_noMem c) low
  rw [← State.checkerFail_eq] at told
  exact told

theorem State.bank_checkersDone_scratch {b : Nat} (hb : b < 64) : bitOf ((s.checkersDone [.scratch b]).obj 0x3030 6) b = true := by
  rw [State.obj_checkersDone_one _ _ (by decide), State.checkerTold, if_pos hb, State.bitOf_obj_put_same _ _ (by decide) hb,
    bitOf_setBit_true, decide_eq_true rfl, Bool.or_true]

theorem State.banksOff_checkersDone_scratch {b : Nat} (hb : b < 64) : bitOf (s.checkersDone [.scratch b]).guard.banksOff b = true := by
  rw [State.guard_checkersDone, bitOf_add_mul_two_pow _ _ hb]
  exact State.bank_checkersDone_scratch hb

variable (clean : s.obj 0x3000 2 = 0)
include clean

theorem State.result_checkersDone_near (k pc : Nat) :
    (s.checkersDone [.near k pc]).obj 0x3000 2 = 2 ^ 31 + field 4 20 k + field 4 16 pc := by
  rw [State.obj_checkersDone_one _ _ (by decide), State.checkerTold, clean, if_neg (by decide), State.obj_put, if_pos rfl,
    show objBits 0x3000 2 = 32 by decide]
  simp only [field]
  omega

theorem State.result_checkersDone_far (k pc : Nat) :
    (s.checkersDone [.far k pc]).obj 0x3000 2 = 2 ^ 30 + field 3 13 k + field 4 9 pc := by
  rw [State.obj_checkersDone_one _ _ (by decide), State.checkerTold, clean, if_neg (by decide), State.obj_put, if_pos rfl,
    show objBits 0x3000 2 = 32 by decide]
  simp only [field]
  omega

theorem State.nearOff_checkersDone_near (k pc : Nat) : (s.checkersDone [.near k pc]).guard.nearOff = true := by
  rw [State.guard_checkersDone, State.result_checkersDone_near clean]
  refine decide_eq_true ?_
  simp only [field]
  omega

theorem State.farOff_checkersDone_far (k pc : Nat) : (s.checkersDone [.far k pc]).guard.farOff = true := by
  rw [State.guard_checkersDone, State.result_checkersDone_far clean]
  refine decide_eq_true ?_
  simp only [field]
  omega

theorem State.result_checkersDone_scratch {b : Nat} (hb : b < 64) : (s.checkersDone [.scratch b]).obj 0x3000 2 = 2 ^ 29 := by
  rw [State.obj_checkersDone_one _ _ (by decide), State.checkerTold, clean, if_pos hb, State.obj_put,
    if_neg (by decide), State.obj_put, if_pos rfl]
  decide

end

end Sys2Proof.Machine
end

