-- ==== Sys2Proof/Proofs/StartUpAdvances.lean ====
section
/-! The stages of start-up (O56). -/

namespace Sys2Proof.Machine

section
variable {s : State}

/-! ### The rails and the stacks' training (17 R434; 18 R448) -/

theorem railsInRegulation_eq (s : State) : exec .railsInRegulation s
    = .next (if s.power.stage = 2 then { s with power := { s.power with railsUp := true, stage := 3 } } else s) := by
  split
  next stage => exact railsInRegulation_advances stage
  next other => exact if_neg other

theorem stackTrainingDone_waits (other : s.power.stage ≠ 3) : exec .stackTrainingDone s = .next s := if_neg other

theorem stackTrainingDone_trains (noReturn : s.security.state ≠ 3 ∨ s.obj 0xA000 6 ≠ 0) : exec .stackTrainingDone s
    = .next (if s.power.stage = 3 then { s with power := { s.power with trained := true, stage := 4 } } else s) := by
  split
  next stage => exact stackTrainingDone_advances stage noReturn
  next other => exact stackTrainingDone_waits other

/-- The stacks are trained, and the erases of the RETURN erasure are counted. -/
def State.erasesCounted (s : State) : State :=
  (s.updPower fun p => { p with trained := true, stage := 4 }).setMedia { s.media with peBase := s.media.peBase + 1 }

theorem stackTrainingDone_erases (stage : s.power.stage = 3) (returned : s.security.state = 3) (running : s.obj 0xA000 6 = 0) :
    ∃ t, exec .stackTrainingDone s = .next t ∧ t.power = { s.power with trained := true, stage := 4 }
      ∧ t.media = { s.media with peBase := s.media.peBase + 1 }
      ∧ Changes [.power, .stage, .media, .dict, .errors, .observe, .free] s t := by
  have exec_eq : exec .stackTrainingDone s = .next s.erasesCounted.stages := by
    show execStackTrainingDone s = _
    rw [execStackTrainingDone, if_pos stage]
    exact congrArg Host.Outcome.next (if_pos ⟨returned, running⟩)
  have counted : Changes [.power, .stage, .media] s s.erasesCounted := changes_of_keep (by simp [State.erasesCounted])
  have staged : Changes [.dict, .errors, .observe, .free] s.erasesCounted s.erasesCounted.stages := changes_of_keep (by simp)
  exact ⟨_, exec_eq, staged.same .power, staged.same .media, (counted.widen (by simp)).trans (staged.widen (by simp))⟩

/-! ### The zeroing of the tiers and the map's rebuild (07 R195; 08 R205) -/

theorem tierZeroed_near (checked : s.power.checked = true) (still : s.clock.running = false) :
    exec (.tierZeroed .near) s = .next { s with power := { s.power with nearZero := true, stage := 5 } } :=
  if_neg (by rw [checked, still]; nofun)

theorem tierZeroed_scratch (checked : s.power.checked = true) (still : s.clock.running = false) : exec (.tierZeroed .scratch) s = .next s :=
  if_neg (by rw [checked, still]; nofun)

theorem tierZeroed_far (checked : s.power.checked = true) (still : s.clock.running = false) :
    ∃ t, exec (.tierZeroed .far) s = .next t ∧ t.power = { s.power with farZero := true }
      ∧ t.obj 0x3000 2 = setBit (s.obj 0x3000 2) 0 true % 2 ^ 32 ∧ OnlyObjs [(0x3000, 2)] s t ∧ Changes [.power, .dict] s t := by
  let v := s.updPower fun p => { p with farZero := true }
  have exec_eq : exec (.tierZeroed .far) s = .next (v.put 0x3000 2 (setBit (s.obj 0x3000 2) 0 true)) :=
    if_neg (by rw [checked, still]; nofun)
  refine ⟨_, exec_eq, rfl, ?_, ?_, changes_of_keep (by simp [v])⟩
  · rw [State.obj_put, if_pos rfl, show objBits 0x3000 2 = 32 by decide]
    omega
  · exact ((OnlyObjs.of_eq [] rfl rfl).trans (onlyObjs_put v _ _ _)).mono (by simp)

theorem tierZeroed_waits (early : s.power.checked = false ∨ s.clock.running = true) (x : Tier) : exec (.tierZeroed x) s = .next s :=
  if_pos (by rcases early with unchecked | running <;> simp [*])

theorem mapRebuildDone_eq (s : State) : exec .mapRebuildDone s
    = .next (if s.power.nearZero = true ∧ s.guard.nearOff = false then { s with power := { s.power with mapUp := true } } else s) := by
  split
  next ready => exact mapRebuildDone_rebuilds ready.1 ready.2
  next other => exact if_neg (by simpa using other)

end

/-- Settles O56: each stage of start-up by its law. -/
theorem startUpAdvances : Obligations.StartUpAdvances := by
  unfold Obligations.StartUpAdvances
  intro s mask failed k pc b p
  refine ⟨fun may => ?_, startupBegin_waits s, railsInRegulation_eq s, stackTrainingDone_trains, stackTrainingDone_waits,
    stackTrainingDone_erases, laneKatDone_faults mask, laneKatDone_waits mask,
    fun stage first => ⟨?_, fun clean => ⟨?_, ?_, fun hb => ?_⟩⟩, memoryCheckersDone_waits failed,
    fun checked still => ⟨tierZeroed_near checked still, tierZeroed_far checked still, tierZeroed_scratch checked still⟩,
    tierZeroed_waits, mapRebuildDone_eq s⟩
  · have cleared {i j : Nat} (mem : (i, j) ∈ clearedObjs) : s.started.obj i j = 0 := s.obj_started mem
    have nonce : s.started.security.nonceDraw = s.free := congrArg Security.nonceDraw s.security_started
    refine ⟨_, startupBegin_starts s may, s.power_started, cleared (by decide +kernel), cleared (by decide +kernel),
      cleared (by decide +kernel), cleared (by decide +kernel), fun o mem => s.obj_started (List.mem_append_right _ mem),
      s.guard_started, s.media_started, ?_, ⟨s.free, Nat.le_refl _, nonce⟩, s.raised_started, s.mem_resets_started, s.changes_started⟩
    rw [nonce]
    exact s.security_started
  · exact ⟨_, memoryCheckersDone_checks stage first failed, s.power_checkersDone failed, s.guard_checkersDone failed,
      fun none => by subst none; exact s.changes_checkersDone_nil, s.changes_checkersDone failed⟩
  · exact ⟨_, memoryCheckersDone_checks stage first _, State.nearOff_checkersDone_near clean k pc,
      State.result_checkersDone_near clean k pc⟩
  · exact ⟨_, memoryCheckersDone_checks stage first _, State.farOff_checkersDone_far clean k pc,
      State.result_checkersDone_far clean k pc⟩
  · exact ⟨_, memoryCheckersDone_checks stage first _, State.result_checkersDone_scratch clean hb, State.bank_checkersDone_scratch hb,
      State.banksOff_checkersDone_scratch hb⟩

end Sys2Proof.Machine
end

