-- ==== Sys2Proof/Proofs/FarLedger.lean ====
section
/-! The ledger of the far stagings: its entries, and the room for a new one (07 R176). -/

namespace Sys2Proof.Machine

/-! ### Entries -/

theorem objBits_ledger {i : Nat} (place : i < 64) : objBits 0x3060 (i + 1) = 64 := by
  have all : ∀ i : Fin 64, objBits 0x3060 (i.val + 1) = 64 := by decide
  exact all ⟨i, place⟩

theorem ledgerEntry_lt (st part base size : Nat) : ledgerEntry st part base size < 2 ^ 64 := by
  simp only [ledgerEntry, field]
  omega

/-- An entry has the state that it was made with. -/
theorem bits_ledgerEntry {st : Nat} (two : st < 4) (part base size : Nat) : bits (ledgerEntry st part base size) 63 62 = st := by
  simp only [bits, ledgerEntry, field]
  omega

section
variable {s : State}

/-- What is put in a place of the ledger is there. -/
theorem State.obj_put_ledger {i v : Nat} (place : i < 64) (fits : v < 2 ^ 64) : (s.put 0x3060 (i + 1) v).obj 0x3060 (i + 1) = v := by
  rw [State.obj_put, if_pos rfl, objBits_ledger place, Nat.mod_mod, Nat.mod_eq_of_lt fits]

theorem State.obj_put_ledger_ne {i j v : Nat} (other : i ≠ j) : (s.put 0x3060 (j + 1) v).obj 0x3060 (i + 1) = s.obj 0x3060 (i + 1) := by
  rw [State.obj_put, if_neg (by unfold objKey; omega)]

/-- An entry whose state is set has that state. -/
theorem State.bits_setEntry {i st : Nat} (place : i < 64) (two : st < 4) :
    bits ((s.setEntry i st).obj 0x3060 (i + 1)) 63 62 = st := by
  rw [State.setEntry, State.obj_put_ledger place (ledgerEntry_lt ..), bits_ledgerEntry two]

/-! ### The ledger put back -/

/-- Entries from place `n` on leave the places before it. -/
theorem State.obj_putEntries_before (l : List Nat) {n i : Nat} (before : i < n) :
    (s.each (l.zipIdx n) fun s e => s.put 0x3060 (e.2 + 1) e.1).obj 0x3060 (i + 1) = s.obj 0x3060 (i + 1) := by
  induction l generalizing s n with
  | nil => rfl
  | cons e l ih => exact (ih (Nat.lt_succ_of_lt before)).trans (State.obj_put_ledger_ne (Nat.ne_of_lt before))

theorem State.obj_putEntries {l : List Nat} {n j v : Nat} (entry : l[j]? = some v) (place : n + j < 64) (fits : v < 2 ^ 64) :
    (s.each (l.zipIdx n) fun s e => s.put 0x3060 (e.2 + 1) e.1).obj 0x3060 (n + j + 1) = v := by
  induction l generalizing s n j with
  | nil => cases entry
  | cons e l ih =>
    cases j with
    | zero =>
      cases entry
      exact (State.obj_putEntries_before l (Nat.lt_succ_self n)).trans (State.obj_put_ledger place fits)
    | succ j =>
      rw [show n + (j + 1) = n + 1 + j by omega] at place ⊢
      exact ih entry place

/-- What a ledger has in a place is in the object of that place once the ledger is put back. -/
theorem State.obj_putLedger {l : List Nat} {j v : Nat} (entry : l[j]? = some v) (place : j < 64) (fits : v < 2 ^ 64) :
    (s.putLedger l).obj 0x3060 (j + 1) = v := by
  have at0 := State.obj_putEntries (s := s) (n := 0) entry (by rwa [Nat.zero_add]) fits
  rwa [Nat.zero_add] at at0

end

/-! ### Room for an entry -/

theorem length_mergeAll (fuel : Nat) (l : List Nat) : (mergeAll fuel l).length = l.length := by
  induction fuel generalizing l with
  | zero => rfl
  | succ fuel ih =>
    unfold mergeAll
    split
    · rfl
    · rw [ih, List.length_set, List.length_set]

theorem length_fillLedger {l l' new : List Nat} (filled : fillLedger l new = some l') : l'.length = l.length := by
  unfold fillLedger at filled
  generalize start : some l = acc at filled
  have filledFrom : ∃ m, acc = some m ∧ l'.length = m.length := by
    clear start
    induction new generalizing acc with
    | nil => exact ⟨l', filled, rfl⟩
    | cons e new ih =>
      obtain ⟨m, stepped, length⟩ := ih _ filled
      cases acc with
      | none => cases stepped
      | some k =>
        dsimp only at stepped
        split at stepped
        · cases stepped
        · cases stepped
          exact ⟨k, rfl, by rw [length, List.length_set]⟩
  obtain ⟨m, rfl, length⟩ := filledFrom
  cases start
  exact length

/-- Where there is room, the new entry is WRITING, in a place of the ledger. -/
theorem getElem?_tryLedger {l l' : List Nat} {part lo n i : Nat} (room : tryLedger l part lo n = some (l', i)) (whole : l.length = 64) :
    i < 64 ∧ l'[i]? = some (ledgerEntry 1 part lo n) := by
  unfold tryLedger at room
  split at room
  · cases room
  · dsimp only at room
    split at room
    · cases room
    · next kept filled =>
      split at room
      · cases room
      · next j free =>
        cases room
        have place : i < 64 := List.mem_range.mp (List.mem_of_find?_eq_some free)
        have length := (length_fillLedger filled).trans ((List.length_map _).trans whole)
        exact ⟨place, List.getElem?_set_self (by omega)⟩

theorem getElem?_openLedger {l l' : List Nat} {part lo n i : Nat} (room : openLedger l part lo n = some (l', i)) (whole : l.length = 64) :
    i < 64 ∧ l'[i]? = some (ledgerEntry 1 part lo n) := by
  unfold openLedger at room
  split at room
  · next r found =>
    cases room
    exact getElem?_tryLedger found whole
  · exact getElem?_tryLedger room ((length_mergeAll 64 l).trans whole)

theorem State.length_ledger (s : State) : s.ledger.length = 64 := by simp [State.ledger]

/-- The entry of a staging that is entered in the ledger is WRITING (R176). -/
theorem State.bits_putLedger {s u : State} {l : List Nat} {part lo n i : Nat} (room : openLedger s.ledger part lo n = some (l, i)) :
    bits ((u.putLedger l).obj 0x3060 (i + 1)) 63 62 = 1 := by
  obtain ⟨place, entry⟩ := getElem?_openLedger room s.length_ledger
  rw [State.obj_putLedger entry place (ledgerEntry_lt ..), bits_ledgerEntry (by decide)]

end Sys2Proof.Machine
end

