-- ==== Sys2Proof/Proofs/ReadCounters.lean ====
section
/-! The numeric objects that the raising of a record and the reading of flash leave as they are. -/

namespace Sys2Proof.Machine

section
variable {s t u : State}

/-! ### Records (07 R191; 16 R405) -/

/-- An uncorrectable read counts in UNCORR of a stack or of scratch alone (07 R191). -/
theorem State.obj_countUncorr (s : State) (rep : Report) {i j : Nat} (other : ∀ k ≤ 32, objKey i j ≠ objKey (0x3010 + k) 3) :
    (s.countUncorr rep).obj i j = s.obj i j := by
  have bumped (v : State) {a : Nat} (near : a ≤ 32) : (v.bump (0x3010 + a) 3 1).obj i j = v.obj i j := by
    rw [State.bump, State.obj_put, if_neg (other a near)]
  have stack (a : Nat) : stackOf a < 16 := by
    unfold stackOf
    split_ifs <;> omega
  unfold State.countUncorr
  dsimp only
  split_ifs with noMem near far scratch
  · rfl
  · exact bumped s (Nat.le_of_lt (Nat.lt_of_lt_of_le (stack _) (by decide)))
  · have far := stack rep.address.toNat
    rw [show 0x3020 + stackOf rep.address.toNat = 0x3010 + (16 + stackOf rep.address.toNat) by omega]
    exact bumped s (by omega)
  · exact bumped s (a := 32) (by decide)
  · rfl

/-- Besides what it counts, the raising of a record changes the objects of records alone. -/
theorem State.onlyRecords_raiseAs_counted (s : State) (rep : Report) (escalated : Bool) (related : BitVec 32) :
    (s.draw.countUncorr rep).OnlyRecords (s.raiseAs rep escalated related) := by
  unfold State.raiseAs
  lift_lets
  extract_lets e slot time stamp counted frozen lost last placed
  have hfrozen : counted.OnlyRecords frozen := .ite (.freezeSource (.of_eq rfl rfl rfl) 2 time) (.of_eq rfl rfl rfl)
  have hlost : counted.OnlyRecords lost := hfrozen.bumpSat 1 (by decide)
  have absorbed : counted.OnlyRecords (lost.absorbAll (e.next + 1)) := hlost.setErrors rfl
  have hplaced : counted.OnlyRecords placed := hfrozen.placeRecord _
  exact .ite ((absorbed.placeRecord last).capture ..) (.ite (hplaced.capture ..) hplaced)

/-- The raising of a record leaves the objects below index 0x7000 but the counts of uncorrectable reads. -/
theorem State.obj_raise (s : State) (rep : Report) {i j : Nat} (low : objKey i j < objKey 0x7000 0)
    (other : ∀ k ≤ 32, objKey i j ≠ objKey (0x3010 + k) 3) : (s.raise rep).obj i j = s.obj i j :=
  ((s.onlyRecords_raiseAs_counted _ false 0).only.obj_of_lt (by decide) low).trans (State.obj_countUncorr s.draw _ other)

/-! ### Reads of flash (08 R205, R219) -/

/-- The objects below index 0x4000 hold what they held. -/
def State.SameTierObjs (s t : State) : Prop := ∀ i j, objKey i j < objKey 0x4000 0 → t.obj i j = s.obj i j

theorem State.SameTierObjs.refl (s : State) : s.SameTierObjs s := fun _ _ _ => rfl

theorem State.SameTierObjs.trans (h : s.SameTierObjs t) (h' : t.SameTierObjs u) : s.SameTierObjs u :=
  fun i j low => (h' i j low).trans (h i j low)

theorem State.SameTierObjs.bump (h : s.SameTierObjs t) {a : Nat} (b n : Nat) (high : 0x4000 ≤ a) : s.SameTierObjs (t.bump a b n) := by
  intro i j low
  rw [State.bump, State.obj_put, if_neg (by unfold objKey at *; omega), h i j low]

theorem State.SameTierObjs.foldl_fst {α β : Type} {f : State × β → α → State × β}
    (each : ∀ (a : State × β) (x : α), a.1.SameTierObjs (f a x).1) (l : List α) (a : State × β) :
    a.1.SameTierObjs (l.foldl f a).1 := by
  induction l generalizing a with
  | nil => exact .refl _
  | cons x l ih => exact (each a x).trans (ih (f a x))

theorem State.sameTierObjs_readBlockAt (s : State) (b : Option Band) (k : Nat) (f : Nat → Nat) :
    s.SameTierObjs (s.readBlockAt b k f).1 := by
  unfold State.readBlockAt
  split
  · exact fun _ _ _ => rfl
  · have touched (n : Nat) : s.SameTierObjs (s.touchBlock k n).draw := fun _ _ _ => rfl
    exact fun i j low => (((touched _).bump _ 1 (by decide)).bump 3 _ (by decide)) i j low

theorem State.sameTierObjs_lookup (s : State) (key : Nat) : s.SameTierObjs (s.lookup key).1 := by
  unfold State.lookup
  split_ifs
  · exact .bump (fun _ _ _ => rfl) 2 1 (by decide)
  · exact .bump (fun i j low => s.sameTierObjs_readBlockAt _ _ _ i j low) 3 1 (by decide)
  · exact .refl s

theorem State.sameTierObjs_readVer (s : State) (ns lba : Nat) (v : Ver) : s.SameTierObjs (s.readVer ns lba v).1 := by
  unfold State.readVer
  split
  · exact fun _ _ _ => rfl
  · exact s.sameTierObjs_readBlockAt _ _ _

theorem State.sameTierObjs_lookups (s : State) (ns lo n : Nat) : s.SameTierObjs (s.lookups ns lo n).1 := by
  unfold State.lookups
  refine State.SameTierObjs.foldl_fst (fun a r => ?_) _ (s, 0)
  exact a.1.sameTierObjs_lookup _

theorem State.sameTierObjs_countSlots (s : State) (ns lo n stamp : Nat) : s.SameTierObjs (s.countSlots ns lo n stamp).1 := by
  unfold State.countSlots
  refine State.SameTierObjs.foldl_fst (fun a b => ?_) _ (s, 0)
  split
  · split
    · exact a.1.sameTierObjs_readVer ns b.1 _
    · exact .refl _
  · exact .refl _

theorem State.sameTierObjs_flashSlots (s : State) (ns lo n stamp : Nat) : s.SameTierObjs (s.flashSlots ns lo n stamp).1 :=
  (s.sameTierObjs_lookups ns lo n).trans (State.sameTierObjs_countSlots _ ns lo n stamp)

end

end Sys2Proof.Machine
end

