-- ==== Sys2Proof/Proofs/FarStagings.lean ====
section
/-! STAGE_MODEL to the far tier and STAGING_COMPLETE (O40). -/

namespace Sys2Proof.Machine

/-! ### A copy of whole blocks (07 R187) -/

/-- A write of whole 64-byte blocks reads none of them first. -/
theorem Bench.partBad_aligned (b : Bench) {lo n : Nat} (first : lo % 64 = 0) (blocks : n % 64 = 0) (some' : n ≠ 0) :
    b.partBad lo n = none := by
  have inside : ∀ a ∈ [lo, lo + n - 1], within (a / 64 * 64) 64 lo n = true := by
    simp only [List.mem_cons, List.not_mem_nil, or_false, forall_eq_or_imp, forall_eq, within, Bool.and_eq_true, decide_eq_true_eq]
    omega
  unfold Bench.partBad
  simp [inside lo (by simp), inside (lo + n - 1) (by simp), least]

section
variable {s : State} {lo n : Nat} (first : lo % 64 = 0) (blocks : n % 64 = 0)
include first blocks

/-- A source that is written over whole blocks is in their bytes, and in no other. -/
theorem State.read_writeSource (m : Mem) (a : Nat) : (s.writeSource lo n m).fabric.mem.read a
    = if lo ≤ a ∧ a < lo + n then m.read (a - lo) else s.fabric.mem.read a := by
  unfold State.writeSource State.writeTier Bench.writeMem
  by_cases none' : n = 0
  · rw [if_pos none', if_neg (by omega)]
    rfl
  · rw [if_neg none', Bench.partBad_aligned _ first blocks none']
    exact Mem.read_blit ..

end

/-! ### STAGE_MODEL (07 R175, R176; 15 R388) -/

section
variable {s : State} {x : Port} {set : SetId} {k : Nat}

/-- The destination of a far staging is in use: the far tier's checker failed, a table or an index names it, or another staging
writes it (07 R176, R197). -/
def State.farBusy (s : State) (lo n : Nat) : Bool :=
  s.guard.farOff || s.farNamed lo n || s.codesNamed lo n
    || s.ledger.any (fun e => decide ((ledgerFields e).1 = 1) && overlaps lo n (ledgerBase e) (ledgerBytes e))

theorem State.farBusy_iff {lo n : Nat} : s.farBusy lo n = true ↔ s.guard.farOff = true ∨ s.farNamed lo n = true
    ∨ s.codesNamed lo n = true
    ∨ ∃ e, e ∈ s.ledger ∧ (ledgerFields e).1 = 1 ∧ overlaps lo n (ledgerBase e) (ledgerBytes e) = true := by
  simp [State.farBusy, or_assoc]

/-- A far staging begins: its entry is in the ledger. -/
def State.farEntered (s : State) (k : Nat) (l : List Nat) : State := (s.begin k).putLedger l

/-- The source of a far staging is read, in so many slots of flash channels. -/
def State.farRead (s : State) (k : Nat) (l : List Nat) : State × Nat :=
  (s.farEntered k l).slotsOfSource (s.tset k) ((s.stageSource k).2.1 / 4096)

/-- What a far staging could read is in the far tier. -/
def State.farWritten (s : State) (k : Nat) (l : List Nat) : State :=
  (s.farRead k l).1.writeSource ((s.tset k).reg 4) (s.stageSource k).2.1 ((s.stageSource k).1.slice 0 (s.stageSource k).2.1)

/-- The error that the source of a far staging met, with the address of its bad block. -/
def State.farStop (s : State) (k : Nat) (l : List Nat) : Option (Nat × Nat) :=
  match (s.stageSource k).2.2 with
  | none => none
  | some .unreadable => some (stUncorr, (s.farWritten k l).sourceBad (s.tset k))
  | some _ => some (stDenied, 0)

/-- A far staging runs, with its entry in place `i` of the ledger. -/
def State.farStaged (s : State) (k : Nat) (l : List Nat) (i : Nat) : State :=
  let r := s.stageSource k
  let slots := (s.farRead k l).2
  let v := (s.farWritten k l).becomePending (s.tset k).partNo
    ((if r.2.1 = 0 then [] else [(3, r.2.1)]) ++ (if slots = 0 then [] else [(4, slots)]))
  v.setStagings (v.stagings ++ [⟨k, (s.tset k).partNo, (s.tset k).ctxNo, 5, i, r.2.1, slots, s.farStop k l⟩])

section
variable (ready : s.readyStage (setKey x set) 3 = true)
include ready

theorem stageModelFar_denied (busy : s.farBusy ((s.tset (setKey x set)).reg 4) ((s.tset (setKey x set)).reg 3) = true) :
    exec (.stageModelFar x set) s = .next (s.finish (setKey x set) stDenied 0 0) := by
  show execStageModelFar x set s = _
  unfold execStageModelFar
  dsimp only
  rw [if_neg (by rw [ready]; decide)]
  exact if_pos busy

theorem stageModelFar_stages (free : ¬ s.farBusy ((s.tset (setKey x set)).reg 4) ((s.tset (setKey x set)).reg 3) = true)
    {l : List Nat} {i : Nat} (room : openLedger s.ledger (s.tset (setKey x set)).partNo
      (((s.tset (setKey x set)).reg 4 - farFirst) / mib) ((s.tset (setKey x set)).reg 3 / mib) = some (l, i)) :
    exec (.stageModelFar x set) s = .next (s.farStaged (setKey x set) l i) := by
  show execStageModelFar x set s = _
  unfold execStageModelFar
  dsimp only
  rw [if_neg (by rw [ready]; decide)]
  refine (if_neg free).trans ?_
  rw [room]
  rfl

end

section
variable (s k) (l : List Nat)

theorem State.changes_farEntered : Changes [.tset k, .dict] s (s.farEntered k l) :=
  changes_of_keep (by simp [State.farEntered])

theorem State.changes_farRead : Changes [.dict, .media, .guard, .free] (s.farEntered k l) (s.farRead k l).1 :=
  changes_of_keep (by simp [State.farRead])

theorem State.changes_farWritten : Changes [.fabric, .tiers] (s.farRead k l).1 (s.farWritten k l) :=
  changes_of_keep (by simp [State.farWritten])

theorem State.changes_farStaged (i : Nat) : Changes [.vtimes, .stagings] (s.farWritten k l) (s.farStaged k l i) :=
  changes_of_keep (by simp [State.farStaged])

/-- From its entry in the ledger on, a far staging leaves the objects of the tiers. -/
theorem State.sameTierObjs_farStaged (i : Nat) : (s.farEntered k l).SameTierObjs (s.farStaged k l i) := by
  have reads : (s.farEntered k l).SameTierObjs (s.farRead k l).1 := by
    unfold State.farRead State.slotsOfSource
    split
    · exact State.sameTierObjs_flashSlots _ _ _ _ _
    · exact fun _ _ _ => rfl
  have rest : Changes [.fabric, .tiers, .vtimes, .stagings] (s.farRead k l).1 (s.farStaged k l i) :=
    ((s.changes_farWritten k l).widen (by simp)).trans ((s.changes_farStaged k l i).widen (by simp))
  have dict : (s.farStaged k l i).dict = (s.farRead k l).1.dict := rest.same .dict (by decide)
  have power : (s.farStaged k l i).power = (s.farRead k l).1.power := rest.same .power (by decide)
  exact reads.trans fun _ _ _ => State.obj_congr (congrArg Dict.objs dict) (congrArg Power.ids power) ..

end

/-- The beginning of a far staging, whatever its source. -/
theorem State.farStaged_enters {l : List Nat} {i lo n : Nat} (room : openLedger s.ledger (s.tset k).partNo lo n = some (l, i)) :
    let t := s.farStaged k l i
    t.tset k = { s.tset k with begun := 1 } ∧ bits (t.obj 0x3060 (i + 1)) 63 62 = 1
      ∧ t.stagings = s.stagings
        ++ [⟨k, (s.tset k).partNo, (s.tset k).ctxNo, 5, i, (s.stageSource k).2.1, (s.farRead k l).2, s.farStop k l⟩]
      ∧ Changes [.tset k, .stagings, .fabric, .tiers, .dict, .vtimes, .media, .guard, .free] s t := by
  intro t
  have entered := s.changes_farEntered k l
  have written : Changes [.dict, .media, .guard, .free, .fabric, .tiers] (s.farEntered k l) (s.farWritten k l) :=
    ((s.changes_farRead k l).widen (by simp)).trans ((s.changes_farWritten k l).widen (by simp))
  have staged : Changes [.dict, .media, .guard, .free, .fabric, .tiers, .vtimes, .stagings] (s.farEntered k l) t :=
    (written.widen (by simp)).trans ((s.changes_farStaged k l i).widen (by simp))
  have begun : (s.farEntered k l).tset k = { s.tset k with begun := 1 } := by
    have ledger : Changes [.dict] (s.begin k) (s.farEntered k l) := changes_of_keep (by simp [State.farEntered])
    exact (ledger.same (.tset k) (by simp [Place.table])).trans (State.tset_setTset_same ..)
  refine ⟨(staged.same (.tset k) (by simp [Place.table])).trans begun, ?_, ?_, (entered.widen (by simp)).trans (staged.widen (by simp))⟩
  · obtain ⟨place, -⟩ := getElem?_openLedger room s.length_ledger
    rw [s.sameTierObjs_farStaged k l i _ _ (by unfold objKey; omega)]
    exact State.bits_putLedger room
  · have before (used : List (Nat × Nat)) :
        ((s.farWritten k l).becomePending (s.tset k).partNo used).stagings = (s.farWritten k l).stagings :=
      changes_of_keep (W := [.vtimes]) (by simp) .stagings (by simp) (by simp)
    exact congrArg (· ++ _)
      ((before _).trans ((written.same .stagings (by decide)).trans (entered.same .stagings (by simp [Place.table]))))

/-- A source that can be read whole is in the destination, byte for byte, and in no other byte of the tiers. -/
theorem State.read_farStaged {m : Mem} {l : List Nat} (i : Nat) (source : s.stageSource k = (m, (s.tset k).reg 3, none))
    (first : (s.tset k).reg 4 % 64 = 0) (blocks : (s.tset k).reg 3 % 64 = 0) (a : Nat) :
    (s.farStaged k l i).fabric.mem.read a = if (s.tset k).reg 4 ≤ a ∧ a < (s.tset k).reg 4 + (s.tset k).reg 3
      then m.read (a - (s.tset k).reg 4) else s.fabric.mem.read a := by
  have until' : (s.farRead k l).1.fabric = s.fabric :=
    ((s.changes_farRead k l).same .fabric (by decide)).trans ((s.changes_farEntered k l).same .fabric (by simp [Place.table]))
  have staged : (s.farStaged k l i).fabric = (s.farWritten k l).fabric := (s.changes_farStaged k l i).same .fabric (by decide)
  rw [staged, State.farWritten, source, State.read_writeSource first blocks, Mem.read_slice, until', Nat.zero_add]
  dsimp only
  split
  next inside => rw [if_pos (by omega)]
  next => rfl

end

/-! ### STAGING_COMPLETE (07 R176, R178; 15 R378) -/

section
variable {s : State} {x : Port} {set : SetId} {k : Nat} {g : Staging}

/-- The record of a STAGE_MODEL, where nothing but the staging's own account and a record have changed before it. -/
theorem State.finish_staging {v : State} (stage : (s.tset (setKey x set)).opcode = 0x21)
    (before : Changes [.stagings, .dict, .vtimes, .errors, .observe, .free] s v) (status count : Nat) :
    let w := s.tset (setKey x set)
    Posted s (v.finish (setKey x set) status count 0) x set status count 0
      ∧ Changes [.tset (setKey x set), .port x.val, .ctx (w.partNo * 16 + w.ctxNo)] v (v.finish (setKey x set) status count 0) := by
  intro w
  have set' : v.tset (setKey x set) = w := before.same (.tset _) (by simp [Place.table])
  have stage' : (v.tset (setKey x set)).opcode = 0x21 := (congrArg TaskSet.opcode set').trans stage
  have port : keyPort (setKey x set) = x.val := by unfold keyPort setKey; omega
  obtain ⟨changes, -⟩ := State.finish_load stage' (congrArg TaskSet.partNo set') (congrArg TaskSet.ctxNo set') status count 0
  rw [port] at changes
  obtain ⟨life, due, epoch, word, bell⟩ := v.posted_post x set status count 0
  refine ⟨?_, changes⟩
  rw [State.finish_stageModel stage']
  exact ⟨life, due, epoch.trans (congrArg Clock.epoch (before.same .clock (by decide))), word,
    bell.trans (congrArg (PortSt.db · ||| _) (before.same (.port x.val) (by simp [Place.table])))⟩

/-- A far staging is charged, and its entry in the ledger takes a state. -/
def State.farEnded (s : State) (k : Nat) (g : Staging) (st : Nat) : State :=
  (((s.unstaged k).charge g.part 3 (ceilDiv g.moved 4000)).charge g.part 4 (channelTime g.slots)).setEntry g.entry st

/-- What stopped a far staging is recorded, where it is uncorrectable data. -/
def State.farRecorded (s v : State) (k : Nat) (g : Staging) (c a : Nat) : State :=
  if c ≠ stUncorr then v
  else if bits ((s.tset k).reg 1) 58 57 = 0 then v.flashRecord k (s.tset k).nsNo ((s.tset k).reg 2 + g.moved / 4096)
  else v.memRecord k a

section
variable (found : s.stagings.find? (fun g => decide (g.key = setKey x set ∧ g.kind = 5)) = some g)
include found

theorem stagingComplete_ends (whole : g.stop = none) : exec (.stagingComplete x set) s
    = .next ((s.farEnded (setKey x set) g 2).finish (setKey x set) stOk (g.moved / mib) 0) := by
  show execStagingComplete x set s = _
  unfold execStagingComplete
  dsimp only
  rw [found]
  dsimp only
  rw [whole]
  rfl

theorem stagingComplete_stops {c a : Nat} (stopped : g.stop = some (c, a)) : exec (.stagingComplete x set) s
    = .next ((s.farRecorded (s.farEnded (setKey x set) g 3) (setKey x set) g c a).finish (setKey x set) c (g.moved / mib) 0) := by
  show execStagingComplete x set s = _
  unfold execStagingComplete
  dsimp only
  rw [found]
  dsimp only
  rw [stopped]
  rfl

end

theorem State.changes_farEnded (st : Nat) : Changes [.stagings, .dict, .vtimes] s (s.farEnded k g st) :=
  changes_of_keep (by simp [State.farEnded, State.unstaged])

theorem State.stagings_farEnded (st : Nat) : (s.farEnded k g st).stagings = s.stagings.filter fun h => decide (h.key ≠ k) := by
  have charged : Changes [.dict, .vtimes] (s.unstaged k) (s.farEnded k g st) := changes_of_keep (by simp [State.farEnded])
  exact charged.same .stagings (by decide)

theorem State.changes_farRecorded (v : State) (c a : Nat) :
    Changes [.dict, .errors, .observe, .free] v (s.farRecorded v k g c a) := by
  unfold State.farRecorded
  refine changes_of_keep ?_
  split_ifs <;> simp

/-- The record of what stopped a staging leaves the ledger. -/
theorem State.obj_farRecorded (v : State) (c a : Nat) {i : Nat} (place : i < 64) :
    (s.farRecorded v k g c a).obj 0x3060 (i + 1) = v.obj 0x3060 (i + 1) := by
  have raised (rep : Report) : (v.raise rep).obj 0x3060 (i + 1) = v.obj 0x3060 (i + 1) :=
    v.obj_raise rep (by unfold objKey; omega) (by intro k _; unfold objKey; omega)
  unfold State.farRecorded
  split_ifs
  · rfl
  · exact raised _
  · exact raised _

theorem State.not_mem_of_stagings {t : State} (key : g.key = k) (left : t.stagings = s.stagings.filter fun h => decide (h.key ≠ k)) :
    g ∉ t.stagings := by
  rw [left]
  simp [key]

section
variable (stage : (s.tset (setKey x set)).opcode = 0x21) (place : g.entry < 64)
  (found : s.stagings.find? (fun g => decide (g.key = setKey x set ∧ g.kind = 5)) = some g)
include stage place found

/-- A far staging that nothing stopped ends: its entry is VALID. -/
theorem stagingComplete_valid (whole : g.stop = none) :
    let w := s.tset (setKey x set)
    ∃ t, exec (.stagingComplete x set) s = .next t ∧ Posted s t x set 0x0000 (g.moved / mib) 0
      ∧ bits (t.obj 0x3060 (g.entry + 1)) 63 62 = 2
      ∧ t.stagings = s.stagings.filter (fun h => decide (h.key ≠ setKey x set))
      ∧ Changes [.tset (setKey x set), .port x.val, .stagings, .dict, .vtimes, .ctx (w.partNo * 16 + w.ctxNo)] s t := by
  intro w
  have ended := State.changes_farEnded (s := s) (k := setKey x set) (g := g) 2
  obtain ⟨posted, changes⟩ := State.finish_staging (x := x) (set := set) stage (ended.widen (by simp)) stOk (g.moved / mib)
  refine ⟨_, stagingComplete_ends found whole, posted, ?_, ?_, (ended.widen (by simp)).trans (changes.widen (by simp [w]))⟩
  · rw [State.obj_finish]
    exact State.bits_setEntry place (by decide)
  · exact (changes.same .stagings (by simp [Place.table])).trans (State.stagings_farEnded 2)

/-- A far staging that was stopped ends: its entry is INCOMPLETE. -/
theorem stagingComplete_incomplete {c a : Nat} (stopped : g.stop = some (c, a)) :
    let w := s.tset (setKey x set)
    ∃ t, exec (.stagingComplete x set) s = .next t ∧ Posted s t x set c (g.moved / mib) 0
      ∧ bits (t.obj 0x3060 (g.entry + 1)) 63 62 = 3
      ∧ t.stagings = s.stagings.filter (fun h => decide (h.key ≠ setKey x set))
      ∧ (c ≠ 0x0202 → Changes [.tset (setKey x set), .port x.val, .stagings, .dict, .vtimes, .ctx (w.partNo * 16 + w.ctxNo)] s t)
      ∧ Changes [.tset (setKey x set), .port x.val, .stagings, .dict, .vtimes, .ctx (w.partNo * 16 + w.ctxNo), .errors, .observe,
          .free] s t := by
  intro w
  have ended := State.changes_farEnded (s := s) (k := setKey x set) (g := g) 3
  have recorded := State.changes_farRecorded (s := s) (k := setKey x set) (g := g) (s.farEnded (setKey x set) g 3) c a
  have until' : Changes [.stagings, .dict, .vtimes, .errors, .observe, .free] s
      (s.farRecorded (s.farEnded (setKey x set) g 3) (setKey x set) g c a) := (ended.widen (by simp)).trans (recorded.widen (by simp))
  obtain ⟨posted, changes⟩ := State.finish_staging (x := x) (set := set) stage until' c (g.moved / mib)
  refine ⟨_, stagingComplete_stops found stopped, posted, ?_, ?_, fun other => ?_,
    (until'.widen (by simp)).trans (changes.widen (by simp [w]))⟩
  · rw [State.obj_finish, State.obj_farRecorded _ c a place]
    exact State.bits_setEntry place (by decide)
  · exact (changes.same .stagings (by simp [Place.table])).trans ((recorded.same .stagings (by simp [Place.table])).trans (State.stagings_farEnded 3))
  · have none' : s.farRecorded (s.farEnded (setKey x set) g 3) (setKey x set) g c a = s.farEnded (setKey x set) g 3 := if_pos other
    rw [none'] at changes ⊢
    exact (ended.widen (by simp)).trans (changes.widen (by simp [w]))

end

/-- The far staging of a set is found. -/
theorem State.find_farStaging (some' : ∃ g, g ∈ s.stagings ∧ g.key = k) (far : ∀ g, g ∈ s.stagings → g.key = k → g.kind = 5) :
    ∃ g, s.stagings.find? (fun g => decide (g.key = k ∧ g.kind = 5)) = some g ∧ g ∈ s.stagings ∧ g.key = k := by
  obtain ⟨h, mem, key⟩ := some'
  cases found : s.stagings.find? (fun g => decide (g.key = k ∧ g.kind = 5)) with
  | none => exact absurd (decide_eq_true ⟨key, far h mem key⟩) (List.find?_eq_none.mp found h mem)
  | some g =>
    have fits := List.find?_some found
    exact ⟨g, rfl, List.mem_of_find?_eq_some found, (of_decide_eq_true fits).1⟩

end

/-! ### The obligation -/

/-- Settles O40: STAGE_MODEL by whether its destination is in use, STAGING_COMPLETE by whether something stopped its staging. -/
theorem farStagingsRun : Obligations.FarStagingsRun := by
  unfold Obligations.FarStagingsRun
  refine ⟨?_, ?_⟩
  · intro s x set m k w lo n
    refine ⟨fun ready on unnamed uncoded noneWriting room source first blocks _ _ => ?_, fun some' stage far => ?_⟩
    · obtain ⟨⟨l, i⟩, room⟩ := Option.isSome_iff_exists.mp room
      have free : ¬ s.farBusy lo n = true := by
        simp only [State.farBusy_iff, on, unnamed, uncoded, Bool.false_eq_true, false_or]
        rintro ⟨e, mem, writing, -⟩
        exact noneWriting e mem writing
      obtain ⟨begun, writing, stagings, changes⟩ := State.farStaged_enters room
      have stop : s.farStop k l = none := by rw [State.farStop, source]
      rw [source, stop] at stagings
      exact ⟨_, stageModelFar_stages ready free room, begun, State.read_farStaged i source first blocks,
        ⟨i, _, writing, stagings⟩, changes⟩
    · obtain ⟨g, found, mem, key⟩ := State.find_farStaging some' fun g mem key => (far g mem key).1
      obtain ⟨-, whole, place⟩ := far g mem key
      obtain ⟨t, runs, posted, valid, left, -⟩ := stagingComplete_valid stage place found whole
      exact ⟨t, g, runs, mem, key, posted, valid, left⟩
  · intro s x set g k w lo n busy
    refine ⟨fun ready inUse => ?_, fun ready free l i room => ?_, fun only mem key kind place stage => ?_⟩
    · obtain ⟨posted, changes⟩ := State.finish_staging (State.opcode_of_readyStage ready) (changes_of_keep rfl) stDenied 0
      exact ⟨_, stageModelFar_denied ready (State.farBusy_iff.mpr inUse), posted, changes⟩
    · obtain ⟨begun, writing, stagings, changes⟩ := State.farStaged_enters room
      exact ⟨_, stageModelFar_stages ready (free ∘ State.farBusy_iff.mp) room, congrArg TaskSet.begun begun, writing,
        ⟨_, _, _, stagings⟩, changes⟩
    · obtain ⟨g', found, mem', key'⟩ := State.find_farStaging ⟨g, mem, key⟩ fun h hm hk => only h hm hk ▸ kind
      obtain rfl := only g' mem' key'
      refine ⟨fun whole => ?_, fun c a stopped => ?_⟩
      · obtain ⟨t, runs, posted, valid, left, changes⟩ := stagingComplete_valid stage place found whole
        exact ⟨t, runs, posted, valid, State.not_mem_of_stagings key left, changes⟩
      · obtain ⟨t, runs, posted, incomplete, left, few, changes⟩ := stagingComplete_incomplete stage place found stopped
        exact ⟨t, runs, posted, incomplete, State.not_mem_of_stagings key left, few, changes⟩

end Sys2Proof.Machine
end

