-- ==== Sys2Proof/Proofs/LeakyBuckets.lean ====
section
/-! The leaky buckets and the remapping of rows (O47). -/

namespace Sys2Proof.Machine

/-! ### Records raised after other work -/

section
variable {s t u : State}

section
variable {v : State} (ring : v.errors.ring = s.errors.ring) (next : v.errors.next = s.errors.next) (clock : v.clock = s.clock)

include ring next in
theorem State.SlotFree.congr (slot : s.SlotFree) : v.SlotFree := by
  unfold State.SlotFree Errors.slot
  rw [ring, next]
  exact slot

include next clock in
/-- A record that is raised once other work is done, which left the next SEQ and the epoch. -/
theorem Raised.rebase {ok : Report → Prop} (h : Raised v t ok) : Raised s t ok := by
  unfold Raised at h ⊢
  rwa [next, clock] at h

include ring next clock in
theorem State.raised_after (slot : s.SlotFree) (rep : Report) : Raised s (v.raise rep) (fun r => { r with detail := rep.detail } = rep) :=
  (State.raise_raised (slot.congr ring next) rep).rebase next clock

end

theorem Raised.of_errors {ok : Report → Prop} (h : Raised s t ok) (errors : u.errors = t.errors) : Raised s u ok := by
  unfold Raised
  rw [errors]
  exact h

/-! ### Counters -/

theorem obj_bump_same (s : State) {i j : Nat} (n : Nat) (width : objBits i j ≤ 64) :
    (s.bump i j n).obj i j = (s.obj i j + n) % 2 ^ objBits i j := by
  rw [State.bump, State.obj_put, if_pos rfl, Nat.mod_mod_of_dvd' (Nat.pow_dvd_pow 2 width)]

theorem State.obj_bump_ne (s : State) {a b i j : Nat} (n : Nat) (other : objKey a b ≠ objKey i j) :
    (s.bump i j n).obj a b = s.obj a b := by rw [State.bump, State.obj_put, if_neg other]

theorem OnlyObjs.each {α : Type} {L : List (Nat × Nat)} {f : State → α → State} (step : ∀ s a, OnlyObjs L s (f s a)) (l : List α)
    (s : State) : OnlyObjs L s (s.each l f) := by
  induction l generalizing s with
  | nil => exact .refl L s
  | cons a l ih => exact ((step s a).trans (ih (f s a))).mono (by simp)

end

/-! ### Buckets (07 R190, R191) -/

theorem bucketIdx_inj {a b : Nat} (ha : a < 25) (hb : b < 25) : bucketIdx a = bucketIdx b ↔ a = b := by
  unfold bucketIdx
  split_ifs <;> omega

theorem bucketIdx_range (k : Nat) : 0x3010 ≤ bucketIdx k ∧ bucketIdx k ≤ 0x3030 := by
  unfold bucketIdx
  split_ifs <;> omega

/-- The objects of the buckets lie below those of records. -/
theorem objKey_bucketIdx_low (k : Nat) {j : Nat} (sub : j < 256) : objKey (bucketIdx k) j < objKey 0x7000 0 := by
  have range := bucketIdx_range k
  unfold objKey
  omega

theorem objKey_bucketIdx_ne (k : Nat) {i j : Nat} (other : i ≠ j) : objKey (bucketIdx k) i ≠ objKey (bucketIdx k) j := by
  unfold objKey
  omega

theorem objBits_bucketIdx {k : Nat} (bucket : k < 25) : objBits (bucketIdx k) 1 = 64 ∧ objBits (bucketIdx k) 2 = 64
    ∧ objBits (bucketIdx k) 3 = 64 ∧ objBits (bucketIdx k) 4 = 16 ∧ objBits (bucketIdx k) 5 = 32 := by
  have all : ∀ k : Fin 25, objBits (bucketIdx k) 1 = 64 ∧ objBits (bucketIdx k) 2 = 64
    ∧ objBits (bucketIdx k) 3 = 64 ∧ objBits (bucketIdx k) 4 = 16 ∧ objBits (bucketIdx k) 5 = 32 := by decide
  exact all ⟨k, bucket⟩

section
variable {s : State} {k : Nat}

/-- A level as its place keeps it: of a stack or of scratch in an object, of a lane die whole. -/
def levelKept (k v : Nat) : Nat := if k < 25 then v % 2 ^ objBits (bucketIdx k) 4 else v

theorem levelKept_zero (k : Nat) : levelKept k 0 = 0 := by
  unfold levelKept
  split
  · exact Nat.zero_mod _
  · rfl

theorem State.level_setLevel (s : State) (k v b : Nat) : (s.setLevel k v).level b = if b = k then levelKept k v else s.level b := by
  unfold State.setLevel
  split
  next hk =>
    unfold State.level levelKept
    by_cases hb : b < 25
    · obtain ⟨-, -, -, width, -⟩ := objBits_bucketIdx hk
      simp only [hb, hk, if_true, State.obj_put, objKey_inj (show 4 < 256 by decide) (show 4 < 256 by decide), bucketIdx_inj hb hk,
        and_true, width, Nat.mod_mod_of_dvd' (show 2 ^ 16 ∣ 2 ^ 64 by decide)]
    · rw [if_neg hb, if_neg hb, if_neg (by omega)]
      rfl
  next hk =>
    unfold State.level levelKept
    by_cases hb : b < 25
    · rw [if_pos hb, if_pos hb, if_neg (by omega)]
      rfl
    · rw [if_neg hb, if_neg hb, if_neg hk]
      exact Tab.get_set ..

theorem onlyObjs_setLevel (s : State) (k v : Nat) : OnlyObjs ((List.range 25).map fun b => (bucketIdx b, 4)) s (s.setLevel k v) := by
  unfold State.setLevel
  split
  next hk => exact (onlyObjs_put ..).mono (List.cons_subset.mpr ⟨List.mem_map.mpr ⟨k, List.mem_range.mpr hk, rfl⟩, List.nil_subset _⟩)
  next => exact .of_eq _ rfl rfl

/-- One event leaves each bucket of a list. -/
def State.leaked (s : State) (l : List Nat) : State := s.each l fun s k => s.setLevel k (s.level k - 1)

theorem State.level_leaked {l : List Nat} (once : l.Nodup) (b : Nat) :
    (s.leaked l).level b = if b ∈ l then levelKept b (s.level b - 1) else s.level b := by
  induction l generalizing s with
  | nil => rfl
  | cons k l ih =>
    obtain ⟨new, once⟩ := List.nodup_cons.mp once
    refine (ih once).trans ?_
    rw [State.level_setLevel]
    by_cases first : b = k
    · subst first
      rw [if_neg new, if_pos rfl, if_pos (List.mem_cons_self ..)]
    · simp only [first, if_false, List.mem_cons, false_or]

/-- LEAK_INTERVAL takes one event out of every bucket (R190). -/
theorem leakInterval_leaks (s : State) : ∃ t, exec .leakInterval s = .next t
    ∧ (∀ b, b < 25 → t.level b = (s.level b - 1) % 2 ^ objBits (bucketIdx b) 4)
    ∧ (∀ b, 25 ≤ b → b < 73 → t.level b = s.level b - 1)
    ∧ OnlyObjs ((List.range 25).map (fun b => (bucketIdx b, 4))) s t ∧ Changes [.dict, .guard] s t := by
  let l := (List.range bucketCount).filter fun k => decide (0 < s.level k)
  have level (b : Nat) (bucket : b < 73) : (s.leaked l).level b = levelKept b (s.level b - 1) := by
    rw [State.level_leaked (List.nodup_range.filter _)]
    split
    next => rfl
    next out =>
      have empty : s.level b = 0 := by simpa [l, bucketCount, bucket] using out
      rw [empty, Nat.zero_sub, levelKept_zero]
  refine ⟨s.leaked l, rfl, fun b stack => ?_, fun b lane bucket => ?_, OnlyObjs.each (fun s k => onlyObjs_setLevel s k _) l s,
    changes_of_keep (by simp [State.leaked])⟩
  · rw [level b (by omega), levelKept, if_pos stack]
  · rw [level b bucket, levelKept, if_neg (by omega)]

/-! ### Events (07 R182, R190) -/

theorem causeRate_noMem (k : Nat) : (report causeRate (bucketSource k).1 (bucketSource k).2 0 0).cause.toNat ≠ causeMem
    ∧ (report causeRate (bucketSource k).1 (bucketSource k).2 0 0).cause.toNat ≠ causeScrub := by
  have cause : (report causeRate (bucketSource k).1 (bucketSource k).2 0 0).cause = 0x0022 := rfl
  rw [cause]
  decide

/-- Below its limit a bucket keeps the event. -/
theorem State.bucketEvent_of_ne (below : s.level k + 1 ≠ s.gov 0x3040 2) : s.bucketEvent k = s.setLevel k (s.level k + 1) := if_neg below

section
variable (bucket : k < 25)
include bucket

/-- At its limit a bucket empties, and a record is raised. -/
theorem State.bucketEvent_of_eq (full : s.level k + 1 = s.gov 0x3040 2) : s.bucketEvent k
    = ((s.setLevel k 0).bump (bucketIdx k) 5 1).raise (report causeRate (bucketSource k).1 (bucketSource k).2 0 0) := by
  unfold State.bucketEvent
  dsimp only
  rw [if_pos full, if_pos bucket]

theorem State.setLevel_eq_put (v : Nat) : s.setLevel k v = s.put (bucketIdx k) 4 v := if_pos bucket

/-- Of the objects below those of records, an event changes the level and the records of its bucket alone. -/
theorem State.obj_bucketEvent {i j : Nat} (low : objKey i j < objKey 0x7000 0) (level : objKey i j ≠ objKey (bucketIdx k) 4)
    (records : objKey i j ≠ objKey (bucketIdx k) 5) : (s.bucketEvent k).obj i j = s.obj i j := by
  by_cases full : s.level k + 1 = s.gov 0x3040 2
  · rw [State.bucketEvent_of_eq bucket full, State.obj_raise_of_lt _ (causeRate_noMem k) low, State.bump, State.obj_put, if_neg records,
      State.setLevel_eq_put bucket, State.obj_put, if_neg level]
  · rw [State.bucketEvent_of_ne full, State.setLevel_eq_put bucket, State.obj_put, if_neg level]

/-- One corrected event of a stack or of scratch: it is counted, and enters its bucket. -/
theorem State.corrected_one (sub : Nat) : s.corrected k sub 1 = (s.bump (bucketIdx k) sub 1).bucketEvent k := by
  unfold State.corrected
  rw [if_pos bucket]
  rfl

theorem State.obj_corrected_one {sub : Nat} (counter : sub = 1 ∨ sub = 2) :
    (s.corrected k sub 1).obj (bucketIdx k) sub = (s.obj (bucketIdx k) sub + 1) % 2 ^ 64 := by
  have width : objBits (bucketIdx k) sub = 64 := by
    obtain ⟨outer, inner, -⟩ := objBits_bucketIdx bucket
    rcases counter with rfl | rfl
    · exact outer
    · exact inner
  rw [State.corrected_one bucket, State.obj_bucketEvent bucket (objKey_bucketIdx_low k (by omega)) (objKey_bucketIdx_ne k (by omega))
    (objKey_bucketIdx_ne k (by omega)), obj_bump_64 _ _ width]

variable {W : List Place} (h_dict : .dict ∈ W) (h_errors : .errors ∈ W) (h_free : .free ∈ W) (h_observe : .observe ∈ W)
include h_dict h_errors h_free h_observe

/-- The events of stacks and of scratch leave the levels of the lane dies. -/
theorem State.keep_corrected_stack (s : State) (sub n : Nat) : keep W (s.corrected k sub n) = keep W s := by
  have event (s : State) : keep W (s.bucketEvent k) = keep W s := by
    unfold State.bucketEvent
    dsimp only
    rw [State.setLevel_eq_put bucket, State.setLevel_eq_put bucket]
    split_ifs <;> simp [*]
  unfold State.corrected
  dsimp only
  rw [if_pos bucket]
  exact (keep_each _ _ _ fun t _ => event t).trans (by simp [*])

end

/-- Counted events of the inner code leave everything but their objects and the records (R182). -/
theorem innerCodePoll_counts (trained : s.power.trained = true) (counts : List (Nat × Nat)) :
    ∃ t, exec (.innerCodePoll counts) s = .next t ∧ t.guard = s.guard ∧ Changes [.dict, .errors, .observe, .free] s t := by
  have changes : Changes [.dict, .errors, .observe, .free] s
      (s.each (counts.filter fun c => decide (c.1 < 24)) fun s c => s.corrected c.1 2 c.2) := by
    refine changes_of_keep (keep_each_mem _ _ _ fun t c mem => ?_)
    have stack : c.1 < 24 := of_decide_eq_true (List.mem_filter.mp mem).2
    exact State.keep_corrected_stack (by omega) (by simp) (by simp) (by simp) (by simp) t 2 c.2
  exact ⟨_, if_pos trained, changes.same .guard (by decide), changes⟩

theorem innerCodePoll_one (trained : s.power.trained = true) (stack : k < 24) :
    exec (.innerCodePoll [(k, 1)]) s = .next ((s.bump (bucketIdx k) 2 1).bucketEvent k) := by
  refine (if_pos trained).trans ?_
  rw [show [(k, 1)].filter (fun c => decide (c.1 < 24)) = [(k, 1)] by simp [stack]]
  exact congrArg Host.Outcome.next (State.corrected_one (by omega) 2)

theorem State.level_bump (bucket : k < 25) {i j : Nat} (n : Nat) (other : objKey (bucketIdx k) 4 ≠ objKey i j) :
    (s.bump i j n).level k = s.level k := by
  unfold State.level
  rw [if_pos bucket, if_pos bucket, State.obj_bump_ne _ _ other]

/-- The source of the record of a stack's bucket. -/
theorem bucketSource_stack (stack : k < 24) : bucketSource k = (if k < 16 then 1 else 2, k % 16) := by
  unfold bucketSource
  split_ifs
  · rw [Nat.mod_eq_of_lt ‹_›]
  · rw [show k - 16 = k % 16 by omega]

/-- One event of the inner code of a stack is counted. -/
def State.innerCounted (s : State) (k : Nat) : State := s.bump (bucketIdx k) 2 1

section
variable (stack : k < 24)
include stack

theorem State.level_innerCounted : (s.innerCounted k).level k = s.level k :=
  State.level_bump (by omega) 1 (objKey_bucketIdx_ne k (by decide))

/-- The bucket keeps the event. -/
theorem State.innerEvent_kept (below : s.level k + 1 ≠ s.gov 0x3040 2) :
    let t := (s.innerCounted k).bucketEvent k
    t.level k = (s.level k + 1) % 2 ^ objBits (bucketIdx k) 4
      ∧ OnlyObjs [(bucketIdx k, 2), (bucketIdx k, 4)] s t ∧ Changes [.dict] s t := by
  intro t
  have bucket : k < 25 := by omega
  have kept : t = (s.innerCounted k).setLevel k (s.level k + 1) := by
    rw [← State.level_innerCounted stack] at below ⊢
    exact State.bucketEvent_of_ne below
  rw [kept]
  refine ⟨?_, ?_, changes_of_keep ?_⟩
  · rw [State.level_setLevel, if_pos rfl, levelKept, if_pos bucket]
  · rw [State.setLevel_eq_put bucket]
    exact (onlyObjs_bump ..).trans (onlyObjs_put ..)
  · rw [State.setLevel_eq_put bucket]
    simp [State.innerCounted]

/-- The bucket is full: it empties, and a record is raised. -/
theorem State.innerEvent_fills (full : s.level k + 1 = s.gov 0x3040 2) (slot : s.SlotFree) :
    let t := (s.innerCounted k).bucketEvent k
    t.level k = 0 ∧ t.obj (bucketIdx k) 5 = (s.obj (bucketIdx k) 5 + 1) % 2 ^ objBits (bucketIdx k) 5
      ∧ Raised s t (fun r => r.cause.toNat = 0x0022 ∧ r.severity = 0
          ∧ r.sourceKind.toNat = (if k < 16 then 1 else 2) ∧ r.sourceId.toNat = k % 16) := by
  intro t
  have bucket : k < 25 := by omega
  let u := (s.innerCounted k).put (bucketIdx k) 4 0
  have fills : t = (u.bump (bucketIdx k) 5 1).raise (report causeRate (bucketSource k).1 (bucketSource k).2 0 0) := by
    rw [← State.level_innerCounted stack] at full
    exact (State.bucketEvent_of_eq bucket full).trans (by rw [State.setLevel_eq_put bucket])
  have left {j : Nat} (sub : j < 256) : t.obj (bucketIdx k) j = (u.bump (bucketIdx k) 5 1).obj (bucketIdx k) j := by
    rw [fills]
    exact State.obj_raise_of_lt _ (causeRate_noMem k) (objKey_bucketIdx_low k sub)
  refine ⟨?_, ?_, ?_⟩
  · have level : t.level k = t.obj (bucketIdx k) 4 := if_pos bucket
    rw [level, left (by decide), State.obj_bump_ne _ _ (objKey_bucketIdx_ne k (by decide)), State.obj_put, if_pos rfl, Nat.zero_mod,
      Nat.zero_mod]
  · obtain ⟨-, -, -, -, width⟩ := objBits_bucketIdx bucket
    rw [left (by decide), obj_bump_same _ _ (by omega), State.obj_put, if_neg (objKey_bucketIdx_ne k (by decide)), State.innerCounted,
      State.obj_bump_ne _ _ (objKey_bucketIdx_ne k (by decide))]
  · rw [fills]
    refine (State.raised_after (s := s) (v := u.bump (bucketIdx k) 5 1) rfl rfl rfl slot _).mono fun r reported => ?_
    have cause := congrArg Report.cause reported
    have severity := congrArg Report.severity reported
    have kind := congrArg Report.sourceKind reported
    have source := congrArg Report.sourceId reported
    rw [bucketSource_stack stack] at kind source
    dsimp only [report] at cause severity kind source
    rw [cause, severity, kind, source]
    refine ⟨by decide, rfl, ?_, ?_⟩
    · split <;> rfl
    · rw [BitVec.toNat_ofNat]
      omega

/-- One event of the inner code of a stack (R182, R190). -/
theorem innerCodePoll_event (trained : s.power.trained = true) :
    ∃ t, exec (.innerCodePoll [(k, 1)]) s = .next t
      ∧ t.obj (bucketIdx k) 2 = (s.obj (bucketIdx k) 2 + 1) % 2 ^ 64
      ∧ (s.level k + 1 ≠ s.gov 0x3040 2 → t.level k = (s.level k + 1) % 2 ^ objBits (bucketIdx k) 4
          ∧ OnlyObjs [(bucketIdx k, 2), (bucketIdx k, 4)] s t ∧ Changes [.dict] s t)
      ∧ (s.level k + 1 = s.gov 0x3040 2 → s.SlotFree → t.level k = 0
          ∧ t.obj (bucketIdx k) 5 = (s.obj (bucketIdx k) 5 + 1) % 2 ^ objBits (bucketIdx k) 5
          ∧ Raised s t (fun r => r.cause.toNat = 0x0022 ∧ r.severity = 0
              ∧ r.sourceKind.toNat = (if k < 16 then 1 else 2) ∧ r.sourceId.toNat = k % 16)) := by
  have bucket : k < 25 := by omega
  have counted := State.obj_corrected_one (s := s) bucket (.inr rfl)
  rw [State.corrected_one bucket] at counted
  exact ⟨_, innerCodePoll_one trained stack, counted, State.innerEvent_kept stack, State.innerEvent_fills stack⟩

end

end

/-! ### Rows (07 R188) -/

section
variable {s : State} {tier : Tier} {stack pc row k : Nat}

/-- A row is replaced by the next spare row of its pseudo-channel. -/
def Guard.remap (g : Guard) (k pc row tick : Nat) : Guard := { g with
  remaps := g.remaps.set (pcKey k pc) (g.remaps.get [] (pcKey k pc) ++ [row])
  remapTick := g.remapTick.set (pcKey k pc) tick
  rows := g.rows.erase (rowKey k pc row) }

/-- A row is replaced, and no uncorrectable read of it is kept. -/
def State.rowReplaced (s : State) (k pc row : Nat) : State :=
  (s.setGuard (s.guard.remap k pc row (s.tick + 1))).setErrors { s.errors with
    badRows := s.errors.badRows.filter fun r => decide (r ≠ rowKey k pc row) }

theorem State.remapRow_eq (s : State) (k pc row : Nat) : s.remapRow k pc row =
    let v := (s.rowReplaced k pc row).raise (tierReport causeRemap (rowFirst k pc row) 0 0)
    if (s.guard.remaps.get [] (pcKey k pc)).length = 7
    then v.raise { tierReport causeRemap (rowFirst k pc row) 0 0 with detail := 1 } else v := by
  unfold State.remapRow
  simp only [List.length_append, List.length_singleton, spareRows, Nat.reduceEqDiff]
  rfl

theorem State.changes_rowReplaced (s : State) (k pc row : Nat) :
    Changes [.dict, .errors, .observe, .free] (s.setGuard (s.guard.remap k pc row (s.tick + 1))) (s.remapRow k pc row) := by
  rw [State.remapRow_eq]
  exact changes_of_keep (by simp [State.rowReplaced])

/-- The row of a stack of a tier is named. -/
def NamesStack (tier : Tier) (stack k : Nat) : Prop :=
  (tier = .near ∧ stack < 16 ∧ k = stack) ∨ (tier = .far ∧ stack < 8 ∧ k = 16 + stack)

theorem exec_rowRemap (names : NamesStack tier stack k) (channel : pc < 16) : exec (.rowRemap tier stack pc row) s =
    if s.remapDue k pc row = true ∧ (s.guard.remaps.get [] (pcKey k pc)).length < 8
      ∧ s.guard.remapTick.get 0 (pcKey k pc) ≠ s.tick + 1 then .next (s.remapRow k pc row) else .next s := by
  show execRowRemap tier stack pc row s = _
  unfold execRowRemap
  have due : (decide (pc < 16) && s.remapDue k pc row && decide ((s.guard.remaps.get [] (pcKey k pc)).length < spareRows)
      && decide (s.guard.remapTick.get 0 (pcKey k pc) ≠ s.tick + 1)) = true ↔ s.remapDue k pc row = true
        ∧ (s.guard.remaps.get [] (pcKey k pc)).length < 8 ∧ s.guard.remapTick.get 0 (pcKey k pc) ≠ s.tick + 1 := by
    simp only [channel, Bool.and_eq_true, decide_eq_true_eq, true_and, and_assoc]
    exact Iff.rfl
  obtain ⟨rfl, inTier, rfl⟩ | ⟨rfl, inTier, rfl⟩ := names
  all_goals
    rw [if_pos inTier]
    exact if_congr due rfl rfl

/-- A row that is due is copied to a spare row (R188). -/
theorem remapRow_remaps (s : State) (k pc row : Nat) :
    let used := s.guard.remaps.get [] (pcKey k pc)
    let t := s.remapRow k pc row
    t.guard = s.guard.remap k pc row (s.tick + 1) ∧ t.remapped k pc row = true ∧ t.fabric = s.fabric
      ∧ (s.SlotFree → used.length ≠ 7 → Raised s t (fun r => r = tierReport causeRemap (rowFirst k pc row) 0 0))
      ∧ Changes [.guard, .dict, .errors, .observe, .free] s t := by
  intro used t
  have after := s.changes_rowReplaced k pc row
  have guard : t.guard = s.guard.remap k pc row (s.tick + 1) := after.same .guard (by decide)
  refine ⟨guard, ?_, after.same .fabric (by decide), fun slot more => ?_, ?_⟩
  · unfold State.remapped
    rw [guard, Guard.remap, Tab.get_set_same]
    simp
  · unfold t
    rw [State.remapRow_eq]
    dsimp only
    rw [if_neg more]
    have stated : detailStated (tierReport causeRemap (rowFirst k pc row) 0 0).cause.toNat = true := by
      have cause : (tierReport causeRemap (rowFirst k pc row) 0 0).cause = 0x0023 := rfl
      rw [cause]
      decide
    have free : (s.rowReplaced k pc row).SlotFree := slot.congr rfl rfl
    exact (State.raise_raised_stated free stated).rebase rfl rfl
  · have marked : Changes [.guard] s (s.setGuard (s.guard.remap k pc row (s.tick + 1))) := changes_of_keep (by simp)
    exact (marked.widen (by simp)).trans (after.widen (by simp))

end

/-- Settles O47: LEAK_INTERVAL bucket by bucket, an event by whether it fills its bucket, ROW_REMAP by whether the row is due. -/
theorem eventsFillBuckets : Obligations.EventsFillBuckets := by
  unfold Obligations.EventsFillBuckets
  refine ⟨?_, ?_⟩
  · intro s k counts n
    exact ⟨leakInterval_leaks s, fun trained => innerCodePoll_counts trained counts, fun trained stack => innerCodePoll_event stack trained,
      fun untrained => if_neg (by rw [untrained]; decide)⟩
  · intro s tier stack pc row k names channel key used
    refine ⟨fun due room tick => ⟨_, (exec_rowRemap names channel).trans (if_pos ⟨due, room, tick⟩), remapRow_remaps s k pc row⟩,
      fun waits => (exec_rowRemap names channel).trans (if_neg ?_)⟩
    rintro ⟨due, room, tick⟩
    rcases waits with early | gone | again
    · exact absurd (due.symm.trans early) (by decide)
    · exact absurd room (Nat.not_lt.mpr gone)
    · exact tick again

end Sys2Proof.Machine
end

