-- ==== Sys2Proof/Proofs/PatrolScrub.lean ====
section
/-! Patrol scrub, and the self-test of the checkers (O48). -/

namespace Sys2Proof.Machine

section
variable {s : State} {a symbols : Nat}

/-! ### How a block reads (07 R184, R185) -/

/-- A block that a read may not deliver. -/
abbrev State.BadAt (s : State) (a : Nat) : Prop := a ∈ s.fabric.bad ∨ a ∈ s.media.badCopies

/-- The wrong symbols that the code of a block corrects. -/
abbrev corrects (a : Nat) : Nat := if scratchFirst ≤ a then 1 else 2

theorem State.scrubOutcome_bad (bad : s.BadAt a) : s.scrubOutcome a symbols = 2 := if_pos bad

theorem State.scrubOutcome_clean (good : ¬ s.BadAt a) : s.scrubOutcome a 0 = 0 := (if_neg good).trans (if_pos rfl)

theorem State.scrubOutcome_corrected (good : ¬ s.BadAt a) (wrong : 1 ≤ symbols) (few : symbols ≤ corrects a) :
    s.scrubOutcome a symbols = 1 := by
  unfold State.scrubOutcome
  dsimp only
  rw [if_neg good, if_neg (by omega), if_pos (by simpa only [decide_eq_true_eq] using few)]

/-- More wrong symbols than are corrected, and no more than are sure to be seen. -/
theorem State.scrubOutcome_lost (more : corrects a < symbols) (seen : symbols ≤ 2 * corrects a) : s.scrubOutcome a symbols = 2 := by
  by_cases bad : s.BadAt a
  · exact State.scrubOutcome_bad bad
  · unfold State.scrubOutcome
    unfold corrects at more seen
    simp only [decide_eq_true_eq]
    rw [if_neg bad]
    split_ifs at more seen ⊢ <;> omega

/-! ### What scrub does to a block -/

/-- The tier's scrub is at work (09 R249). -/
def State.scrubBusy (s : State) (a : Nat) : State := if a < farFirst then s.busyBit 9 else if a < scratchFirst then s.busyBit 10 else s

/-- An uncorrectable block is marked, in its copy of the write buffer or in its tier. -/
def State.scrubMarked (s : State) (a : Nat) : State := if inBuffer a then s.badBuffer a false else s.markBad a

theorem State.scrub_clean (outcome : s.scrubOutcome a symbols = 0) : s.scrub a symbols = ((s.scrubBusy a).passEnd a).draw := by
  unfold State.scrub
  dsimp only
  rw [outcome]
  rfl

theorem State.scrub_corrected (outcome : s.scrubOutcome a symbols = 1) :
    s.scrub a symbols = (((s.scrubBusy a).correctedAt a).passEnd a).draw := by
  unfold State.scrub
  dsimp only
  rw [outcome]
  rfl

theorem State.scrub_lost (outcome : s.scrubOutcome a symbols = 2) :
    s.scrub a symbols = ((((s.scrubBusy a).scrubMarked a).raise (tierReport causeScrub a 0 0)).passEnd a).draw := by
  unfold State.scrub
  dsimp only
  rw [outcome]
  rfl

theorem State.media_scrubBusy (s : State) (a : Nat) : (s.scrubBusy a).media = { s.media with active := (s.scrubBusy a).media.active } := by
  unfold State.scrubBusy
  split_ifs <;> rfl

theorem State.changes_scrubBusy (s : State) (a : Nat) : Changes [.media] s (s.scrubBusy a) := by
  refine changes_of_keep ?_
  unfold State.scrubBusy
  split_ifs <;> simp

theorem State.obj_scrubBusy (s : State) (a i j : Nat) : (s.scrubBusy a).obj i j = s.obj i j := by
  unfold State.scrubBusy
  split_ifs <;> rfl

/-- The end of a pass is counted, and begins the next scrub period: the rows of the stack are counted anew. -/
theorem State.passEnd_only (s : State) (a : Nat) : OnlyObjs [(bucketIdx (bucketOf a), 8)] s (s.passEnd a)
    ∧ (s.passEnd a).guard.levels = s.guard.levels := by
  unfold State.passEnd
  split
  · exact ⟨(OnlyObjs.of_eq [] rfl rfl).trans (onlyObjs_bump ..), rfl⟩
  · exact ⟨.refl _ s, rfl⟩

theorem State.changes_passEnd (s : State) (a : Nat) : Changes [.guard, .dict, .free] s (s.passEnd a).draw := changes_of_keep (by simp)

theorem bucketOf_lt (a : Nat) : bucketOf a < 25 := by
  unfold bucketOf stackOf
  split_ifs <;> omega

theorem State.changes_correctedAt (s : State) (a : Nat) : Changes [.guard, .dict, .errors, .observe, .free] s (s.correctedAt a) :=
  changes_of_keep (by simp)

/-- A corrected block is counted in its stack or in scratch. -/
theorem State.obj_correctedAt (s : State) (a : Nat) : (s.correctedAt a).obj (bucketIdx (bucketOf a)) 1
    = (s.obj (bucketIdx (bucketOf a)) 1 + 1) % 2 ^ 64 := by
  have tracked (v : State) (i j : Nat) : (v.track a).obj i j = v.obj i j := by
    have changes : Changes [.guard, .free] v (v.track a) := changes_of_keep (by simp)
    have dict : (v.track a).dict = v.dict := changes.same .dict (by decide)
    have power : (v.track a).power = v.power := changes.same .power (by decide)
    exact State.obj_congr (congrArg Dict.objs dict) (congrArg Power.ids power) i j
  unfold State.correctedAt
  dsimp only
  split
  · rw [tracked, State.obj_corrected_one (bucketOf_lt a) (.inl rfl)]
  · exact State.obj_corrected_one (bucketOf_lt a) (.inl rfl)

/-- A block of the write buffer is marked in its copy; with the other copy bad, its logical block is lost (07 R186). -/
theorem State.badBuffer_marks (inside : inBuffer a = true) : Changes [.media] s (s.badBuffer a false)
    ∧ (otherCopy a ∉ s.media.badCopies → a ∈ (s.badBuffer a false).media.badCopies)
    ∧ (otherCopy a ∈ s.media.badCopies → ∀ k l, s.media.bufferBlock (bufferByte a) = some (k, l) →
        ∃ x, x ∈ (s.badBuffer a false).media.pending ∧ x.kind = .lose ∧ x.ns = k ∧ x.start = l ∧ x.len = 1) := by
  have marked : s.markBad a = s.setMedia { s.media with
      badCopies := if a ∈ s.media.badCopies then s.media.badCopies else a :: s.media.badCopies } := if_pos inside
  unfold State.badBuffer
  dsimp only
  by_cases both : otherCopy a ∈ s.media.badCopies
  · rw [if_pos both]
    refine ⟨?_, absurd both, fun _ k l block => ?_⟩
    · split
      · exact changes_of_keep (by simp [State.loseBuffer])
      · exact changes_of_keep (by simp)
    · rw [show (s.setMedia { s.media with badCopies := s.media.badCopies.filter fun b => decide (b ≠ otherCopy a) }).media.bufferBlock
        (bufferByte a) = some (k, l) from block]
      exact ⟨_, List.mem_append_right _ (List.mem_singleton.mpr rfl), rfl, rfl, rfl, rfl⟩
  · rw [if_neg both, if_neg (by decide), marked]
    refine ⟨changes_of_keep (by simp), fun _ => ?_, fun both' => absurd both' both⟩
    show a ∈ (if a ∈ s.media.badCopies then s.media.badCopies else a :: s.media.badCopies)
    split
    next mem => exact mem
    next => exact List.mem_cons_self ..

/-- A block of a tier is marked there. -/
theorem State.markBad_marks (outside : ¬ inBuffer a = true) : a ∈ (s.markBad a).fabric.bad := by
  have marked : s.markBad a = s.setFabric { s.fabric with bad := if a ∈ s.fabric.bad then s.fabric.bad else a :: s.fabric.bad } :=
    if_neg outside
  rw [marked]
  show a ∈ (if a ∈ s.fabric.bad then s.fabric.bad else a :: s.fabric.bad)
  split
  next mem => exact mem
  next => exact List.mem_cons_self ..

theorem State.changes_scrubMarked (s : State) (a : Nat) : Changes [.fabric, .media] s (s.scrubMarked a) := by
  refine changes_of_keep ?_
  unfold State.scrubMarked
  split <;> simp

/-! ### The scrub of a block of a tier (07 R184, R192, R193) -/

/-- A sound block whose wrong symbols are corrected changes no mark. -/
theorem State.scrub_sound (good : ¬ s.BadAt a) (few : symbols ≤ corrects a) :
    (s.scrub a symbols).fabric = s.fabric ∧ (s.scrub a symbols).media.badCopies = s.media.badCopies := by
  have busy := s.changes_scrubBusy a
  have copies : (s.scrubBusy a).media.badCopies = s.media.badCopies := by rw [State.media_scrubBusy]
  by_cases clean : symbols = 0
  · subst clean
    have ends := (s.scrubBusy a).changes_passEnd a
    rw [State.scrub_clean (State.scrubOutcome_clean good)]
    exact ⟨(ends.same .fabric (by decide)).trans (busy.same .fabric (by decide)),
      (congrArg Media.badCopies (ends.same .media (by decide))).trans copies⟩
  · have counted := (s.scrubBusy a).changes_correctedAt a
    have ends := ((s.scrubBusy a).correctedAt a).changes_passEnd a
    rw [State.scrub_corrected (State.scrubOutcome_corrected good (by omega) few)]
    exact ⟨(ends.same .fabric (by decide)).trans ((counted.same .fabric (by decide)).trans (busy.same .fabric (by decide))),
      (congrArg Media.badCopies ((ends.same .media (by decide)).trans (counted.same .media (by decide)))).trans copies⟩

/-- A clean block changes nothing but the count of the passes. -/
theorem State.scrub_zero (good : ¬ s.BadAt a) : (s.scrub a 0).errors = s.errors ∧ (s.scrub a 0).guard.levels = s.guard.levels
    ∧ OnlyObjs [(bucketIdx (bucketOf a), 8)] s (s.scrub a 0) := by
  have busy := s.changes_scrubBusy a
  have ends := (s.scrubBusy a).changes_passEnd a
  obtain ⟨only, levels⟩ := (s.scrubBusy a).passEnd_only a
  have power : (s.scrubBusy a).power = s.power := busy.same .power (by decide)
  rw [State.scrub_clean (State.scrubOutcome_clean good)]
  refine ⟨(ends.same .errors (by decide)).trans (busy.same .errors (by decide)),
    levels.trans (congrArg Guard.levels (busy.same .guard (by decide))), ?_⟩
  exact ((OnlyObjs.of_eq [] (busy.same .dict (by decide)) (congrArg Power.ids power)).trans only).trans (.of_eq [] rfl rfl)

/-- A correctable block is counted. -/
theorem State.obj_scrub_corrected (good : ¬ s.BadAt a) (wrong : 1 ≤ symbols) (few : symbols ≤ corrects a) :
    (s.scrub a symbols).obj (bucketIdx (bucketOf a)) 1 = (s.obj (bucketIdx (bucketOf a)) 1 + 1) % 2 ^ 64 := by
  obtain ⟨⟨-, others⟩, -⟩ := ((s.scrubBusy a).correctedAt a).passEnd_only a
  rw [State.scrub_corrected (State.scrubOutcome_corrected good wrong few), State.obj_draw, others _ _ ?_, State.obj_correctedAt,
    State.obj_scrubBusy]
  simp [objKey]

section
variable (lost : s.scrubOutcome a symbols = 2)
include lost

/-- An uncorrectable block is recorded. -/
theorem State.scrub_raises (slot : s.SlotFree) :
    Raised s (s.scrub a symbols) (fun r => { r with detail := 0 } = tierReport causeScrub a 0 0) := by
  have marks : Changes [.fabric, .media] s ((s.scrubBusy a).scrubMarked a) :=
    ((s.changes_scrubBusy a).widen (by simp)).trans (State.changes_scrubMarked _ a)
  have errors : ((s.scrubBusy a).scrubMarked a).errors = s.errors := marks.same .errors (by decide)
  have raised := State.raised_after (congrArg Errors.ring errors) (congrArg Errors.next errors) (marks.same .clock (by decide)) slot
    (tierReport causeScrub a 0 0)
  rw [State.scrub_lost lost]
  exact raised.of_errors ((State.changes_passEnd _ a).same .errors (by decide))

/-- An uncorrectable block is marked, in its copy of the write buffer or in its tier. -/
theorem State.scrub_marks :
    if inBuffer a then (s.scrub a symbols).fabric = s.fabric
      ∧ (otherCopy a ∉ s.media.badCopies → a ∈ (s.scrub a symbols).media.badCopies)
      ∧ (otherCopy a ∈ s.media.badCopies → ∀ k l, s.media.bufferBlock (bufferByte a) = some (k, l) →
          ∃ x, x ∈ (s.scrub a symbols).media.pending ∧ x.kind = .lose ∧ x.ns = k ∧ x.start = l ∧ x.len = 1)
    else a ∈ (s.scrub a symbols).fabric.bad := by
  let v := s.scrubBusy a
  let u := (v.scrubMarked a).raise (tierReport causeScrub a 0 0)
  have busy := s.changes_scrubBusy a
  have recorded : Changes [.guard, .dict, .errors, .observe, .free] (v.scrubMarked a) (u.passEnd a).draw :=
    Changes.trans (t := u) (changes_of_keep (by simp [u])) ((State.changes_passEnd u a).widen (by simp))
  have fabric : (s.scrub a symbols).fabric = (v.scrubMarked a).fabric := by
    rw [State.scrub_lost lost]
    exact recorded.same .fabric (by decide)
  have media : (s.scrub a symbols).media = (v.scrubMarked a).media := by
    rw [State.scrub_lost lost]
    exact recorded.same .media (by decide)
  rw [fabric, media]
  by_cases inside : inBuffer a = true
  · have marked : v.scrubMarked a = v.badBuffer a false := if_pos inside
    obtain ⟨changes, alone, both⟩ := State.badBuffer_marks (s := v) inside
    have copies : v.media.badCopies = s.media.badCopies := by rw [State.media_scrubBusy]
    have blocks : v.media.bufferBlock (bufferByte a) = s.media.bufferBlock (bufferByte a) := by
      rw [State.media_scrubBusy]
      rfl
    rw [copies] at alone both
    rw [blocks] at both
    rw [if_pos inside, marked]
    exact ⟨(changes.same .fabric (by decide)).trans (busy.same .fabric (by decide)), alone, both⟩
  · have marked : v.scrubMarked a = v.markBad a := if_neg inside
    rw [if_neg inside, marked]
    exact State.markBad_marks inside

end

theorem State.changes_scrub (s : State) (a symbols : Nat) :
    Changes [.fabric, .media, .guard, .dict, .errors, .observe, .free] s (s.scrub a symbols) := changes_of_keep (by simp)

/-! ### The scrub of a spare row or a test row (07 R192) -/

/-- The report of an uncorrectable block of a spare row or a test row. -/
def spareReport (k a : Nat) : Report := { report causeScrub (bucketSource k).1 (bucketSource k).2 0 0 with
  subId := BitVec.ofNat 8 ((a - spareFirst) / 16384 % 16), address := BitVec.ofNat 64 a }

/-- The stack's scrub is at work. -/
def State.spareBusy (s : State) (k : Nat) : State := s.busyBit (if k < 16 then 9 else 10)

section
variable {k : Nat}

theorem State.scrubSpare_clean : s.scrubSpare k a 0 = (s.spareBusy k).draw := rfl

theorem State.scrubSpare_corrected (wrong : 1 ≤ symbols) (few : symbols ≤ 2) :
    s.scrubSpare k a symbols = ((s.spareBusy k).corrected k 1 1).draw := by
  unfold State.scrubSpare
  dsimp only
  rw [if_pos few, Nat.min_eq_right wrong]
  rfl

theorem State.scrubSpare_lost (more : 2 < symbols) (seen : symbols < 7) :
    s.scrubSpare k a symbols = (((s.spareBusy k).bump (bucketIdx k) 3 1).raise (spareReport k a)).draw := by
  unfold State.scrubSpare
  dsimp only
  rw [if_neg (Nat.not_le.mpr more), if_neg (c := 7 ≤ symbols ∧ _) fun many => Nat.not_le.mpr seen many.1]
  rfl

/-- No tier address is that of a spare row: an uncorrectable block there counts in no stack besides. -/
theorem State.countUncorr_spare (s : State) (spare : spareStack a = some k) : s.countUncorr (spareReport k a) = s := by
  have range : windowFirst ≤ a ∧ a < 2 ^ 64 := by
    unfold spareStack at spare
    split at spare
    next inside =>
      obtain ⟨low, high, -⟩ := inside
      simp only [spareFirst, windowFirst] at *
      omega
    next => cases spare
  have address : (spareReport k a).address.toNat = a := by
    show (BitVec.ofNat 64 a).toNat = a
    rw [BitVec.toNat_ofNat, Nat.mod_eq_of_lt range.2]
  unfold State.countUncorr
  dsimp only
  have far : farFirst ≤ windowFirst ∧ scratchFirst ≤ windowFirst := by decide
  rw [address, if_neg (show ¬ a < farFirst by omega), if_neg (show ¬ a < scratchFirst by omega),
    if_neg (show ¬ a < windowFirst by omega), ite_self]

theorem spareStack_lt (spare : spareStack a = some k) : k < 24 := by
  unfold spareStack at spare
  split at spare
  next inside =>
    cases spare
    omega
  next => cases spare

variable (spare : spareStack a = some k)
include spare

/-- An uncorrectable block of a spare row is counted once in its stack. -/
theorem State.obj_scrubSpare_lost (more : 2 < symbols) (seen : symbols < 7) : (s.scrubSpare k a symbols).obj (bucketIdx k) 3
    = (s.obj (bucketIdx k) 3 + 1) % 2 ^ objBits (bucketIdx k) 3 := by
  obtain ⟨-, -, width, -⟩ := objBits_bucketIdx (Nat.lt_succ_of_lt (spareStack_lt spare))
  let v := (s.spareBusy k).bump (bucketIdx k) 3 1
  have raised := (v.onlyRecords_raiseAs_counted { spareReport k a with detail := Config.recordDetail v.free } false 0).only.obj_of_lt
    (i := bucketIdx k) (j := 3) (n := objKey 0x7000 0) (by decide) (objKey_bucketIdx_low k (by decide))
  have counted : v.draw.countUncorr { spareReport k a with detail := Config.recordDetail v.free } = v.draw := v.draw.countUncorr_spare spare
  rw [State.scrubSpare_lost more seen, State.obj_draw]
  refine (raised.trans ?_).trans (obj_bump_same (s.spareBusy k) 1 (Nat.le_of_eq width))
  rw [counted]
  rfl

theorem State.obj_scrubSpare_corrected (wrong : 1 ≤ symbols) (few : symbols ≤ 2) : (s.scrubSpare k a symbols).obj (bucketIdx k) 1
    = (s.obj (bucketIdx k) 1 + 1) % 2 ^ 64 := by
  rw [State.scrubSpare_corrected wrong few, State.obj_draw, State.obj_corrected_one (Nat.lt_succ_of_lt (spareStack_lt spare)) (.inl rfl)]
  rfl

theorem State.changes_scrubSpare (s : State) (symbols : Nat) :
    Changes [.media, .dict, .errors, .observe, .free] s (s.scrubSpare k a symbols) := by
  have corrected (v : State) : keep [.media, .dict, .errors, .observe, .free] (v.corrected k 1 1) = keep _ v :=
    State.keep_corrected_stack (Nat.lt_succ_of_lt (spareStack_lt spare)) (by simp) (by simp) (by simp) (by simp) v 1 1
  refine changes_of_keep ?_
  unfold State.scrubSpare
  dsimp only
  split_ifs <;> simp [corrected]

end

/-! ### PATROL_SCRUB -/

/-- The first byte of the block or word that an address lies in. -/
abbrev blockStart (a : Nat) : Nat := a / guardUnit a * guardUnit a

section
variable {block : BitVec 48}

theorem patrolScrub_waits (off : s.patrols = false) : exec (.patrolScrub block symbols) s = .next s := if_pos (by rw [off]; rfl)

theorem patrolScrub_scrubs (on : s.patrols = true) (inside : inTiers (blockStart block.toNat) = true) :
    exec (.patrolScrub block symbols) s = .next (s.scrub (blockStart block.toNat) symbols) :=
  (if_neg (by rw [on]; decide)).trans (if_pos inside)

section
variable (on : s.patrols = true) (outside : inTiers (blockStart block.toNat) = false)
include on outside

theorem patrolScrub_spare {k : Nat} (spare : spareStack (blockStart block.toNat) = some k) :
    exec (.patrolScrub block symbols) s = .next (s.scrubSpare k (blockStart block.toNat) symbols) :=
  (if_neg (by rw [on]; decide)).trans ((if_neg (by rw [outside]; decide)).trans (by rw [spare]))

theorem patrolScrub_elsewhere (noRow : spareStack (blockStart block.toNat) = none) : exec (.patrolScrub block symbols) s = .next s :=
  (if_neg (by rw [on]; decide)).trans ((if_neg (by rw [outside]; decide)).trans (by rw [noRow]))

end

end

/-! ### ECC_SELFTEST (07 R194, R196) -/

theorem eccSelftest_runs (on : s.patrols = true) (c : Checker) (good : Bool) :
    exec (.eccSelftest c good) s = .next (if good then s.busyBit 11 else (s.busyBit 11).checkerFail c) := if_pos on

/-- A checker that fails: what the objects tell of it, and its record. -/
theorem eccSelftest_fails (on : s.patrols = true) (c : Checker) :
    ∃ t, exec (.eccSelftest c false) s = .next t
      ∧ (∀ i j, objKey i j < objKey 0x7000 0 → t.obj i j = (s.checkerTold c).obj i j)
      ∧ (s.SlotFree → Raised s t fun r => { r with detail := (checkerReport c).detail } = checkerReport c)
      ∧ t.guard = s.guard ∧ t.fabric = s.fabric ∧ Changes [.media, .dict, .errors, .observe, .free] s t := by
  let v := s.busyBit 11
  have told : Changes [.dict] v (v.checkerTold c) := by
    refine changes_of_keep ?_
    cases c
    · simp [State.checkerTold]
    · simp [State.checkerTold]
    · unfold State.checkerTold
      split_ifs <;> simp
  have errors : (v.checkerTold c).errors = s.errors := told.same .errors (by decide)
  have changes : Changes [.media, .dict, .errors, .observe, .free] s (v.checkerFail c) := changes_of_keep (by simp [v])
  refine ⟨v.checkerFail c, eccSelftest_runs on c false, fun i j low => ?_, fun slot => ?_, changes.same .guard (by decide),
    changes.same .fabric (by decide), changes⟩
  · rw [State.checkerFail_eq, State.obj_raise_of_lt _ (checkerReport_noMem c) low]
    cases c
    · rfl
    · rfl
    · simp only [State.checkerTold]
      split_ifs <;> rfl
  · rw [State.checkerFail_eq]
    exact State.raised_after (congrArg Errors.ring errors) (congrArg Errors.next errors) (told.same .clock (by decide)) slot
      (checkerReport c)

theorem State.obj_put_result (s : State) (v : Nat) : (s.put 0x3000 2 v).obj 0x3000 2 = v % 2 ^ 32 := by
  rw [State.obj_put, if_pos rfl, show objBits 0x3000 2 = 32 by decide, Nat.mod_mod_of_dvd' (by decide)]

theorem State.obj_checkerTold_scratch (s : State) (b : Nat) : (s.checkerTold (.scratch b)).obj 0x3000 2
    = setBit (s.obj 0x3000 2) 29 true % 2 ^ 32 := by
  simp only [State.checkerTold]
  split <;> rw [State.obj_put, if_neg (by decide), State.obj_put_result]

end

/-- Settles O48: scrub by where the block lies and how it reads, the self-test by the checker that failed. -/
theorem memoryIsTested : Obligations.MemoryIsTested := by
  unfold Obligations.MemoryIsTested
  refine ⟨?_, ?_⟩
  · intro s block symbols n a good bad
    refine ⟨fun on inside => ?_, fun on outside k spare => ?_, fun off => ?_⟩
    · have changes := s.changes_scrub a symbols
      have lost : bad ∨ (good < symbols ∧ symbols ≤ 2 * good) → s.scrubOutcome a symbols = 2 := fun
        | .inl bad => State.scrubOutcome_bad bad
        | .inr ⟨more, seen⟩ => State.scrubOutcome_lost more seen
      exact ⟨_, patrolScrub_scrubs on inside, changes.same .tiers (by decide), State.scrub_sound,
        fun sound clean => clean ▸ State.scrub_zero sound, State.obj_scrub_corrected,
        fun isBad => State.scrub_raises (lost (.inl isBad)),
        fun isLost => State.scrub_marks (lost isLost), changes⟩
    · refine ⟨_, patrolScrub_spare on outside spare, State.obj_scrubSpare_corrected spare, ?_, fun clean => ?_,
        State.changes_scrubSpare spare s symbols⟩
      · by_cases few : symbols ≤ 2
        · exact .inl few
        · by_cases many : 7 ≤ symbols
          · exact .inr (.inl many)
          · exact .inr (.inr (State.obj_scrubSpare_lost spare (by omega) (by omega)))
      · rw [clean, State.scrubSpare_clean]
        exact changes_of_keep (by simp [State.spareBusy])
    · rcases off with off | ⟨outside, noRow⟩
      · exact patrolScrub_waits off
      · cases on : s.patrols with
        | false => exact patrolScrub_waits on
        | true => exact patrolScrub_elsewhere on outside noRow
  · intro s c k pc b on v Fails
    have cause {c : Checker} {r : Report} (reported : { r with detail := (checkerReport c).detail } = checkerReport c) :
        r.cause.toNat = 0x0024 := by
      have cause : (checkerReport c).cause = 0x0024 := by cases c <;> rfl
      rw [congrArg Report.cause reported, cause]
      rfl
    refine ⟨⟨_, eccSelftest_runs on c true, rfl, changes_of_keep (by simp)⟩, ?_, ?_, ?_, fun small => ?_⟩
    · obtain ⟨t, runs, told, raised, rest⟩ := eccSelftest_fails on (.near k pc)
      refine ⟨t, runs, (told _ _ (by decide)).trans (s.obj_put_result _), fun slot => (raised slot).mono fun r reported => ?_, rest⟩
      exact ⟨cause reported, congrArg Report.sourceKind reported, congrArg Report.sourceId reported, congrArg Report.severity reported⟩
    · obtain ⟨t, runs, told, raised, rest⟩ := eccSelftest_fails on (.far k pc)
      refine ⟨t, runs, (told _ _ (by decide)).trans (s.obj_put_result _), fun slot => (raised slot).mono fun r reported => ?_, rest⟩
      exact ⟨cause reported, congrArg Report.sourceKind reported, congrArg Report.sourceId reported, congrArg Report.severity reported⟩
    · obtain ⟨t, runs, told, raised, rest⟩ := eccSelftest_fails on (.scratch b)
      refine ⟨t, runs, (told _ _ (by decide)).trans (s.obj_checkerTold_scratch b), fun slot => (raised slot).mono fun r reported => ?_, rest⟩
      exact ⟨cause reported, congrArg Report.sourceKind reported, congrArg Report.severity reported⟩
    · obtain ⟨t, runs, told, -⟩ := eccSelftest_fails on (.scratch b)
      refine ⟨t, runs, (told _ _ (by decide)).trans ?_⟩
      rw [State.checkerTold, if_pos small, State.obj_put, if_pos rfl, State.obj_put, if_neg (by decide), show objBits 0x3030 6 = 64 by decide,
        Nat.mod_mod]

end Sys2Proof.Machine
end

