-- ==== Sys2Proof/Proofs/ResetState.lean ====
section
/-! The state that reset leaves (O6). -/

namespace Sys2Proof.Machine

/-- Reset leaves legal modes, and no transition waits. -/
theorem State.sound_reset : State.reset.Sound where
  modes := by
    unfold State.Legal Modes.legal
    decide
  due := nofun
  target := nofun

/-- NODE_ID after reset, before the slot's pins are read, is that of slot 0 (13 R337). -/
theorem State.nodeId_reset : State.reset.obj 0x1100 1 = 0x0FF8 := by decide

/-- Every table of the reset state is empty, so that its elements have their defaults. -/
theorem State.defaults_reset : (∀ a, State.reset.fabric.mem.read a = 0) ∧ (∀ p, State.reset.part p = Partition.none)
    ∧ (∀ p, State.reset.seq p = Seq.none) ∧ (∀ k, State.reset.tset k = TaskSet.none) ∧ ∀ x, State.reset.port x = PortSt.start :=
  ⟨fun _ => rfl, fun _ => rfl, fun _ => rfl, fun _ => rfl, fun _ => rfl⟩

/-- Settles O6: the modes are sound, and what tables hold are their defaults. -/
theorem resetIsSound : Obligations.ResetIsSound := by
  unfold Obligations.ResetIsSound
  obtain ⟨mem, parts, seqs, sets, ports⟩ := State.defaults_reset
  refine ⟨State.sound_reset, rfl, rfl, rfl, rfl, mem, fun p => ?_, fun k => ?_, fun x => ?_, rfl, rfl, rfl, rfl, State.nodeId_reset, rfl⟩
  · rw [parts, seqs]
    exact ⟨rfl, rfl⟩
  · rw [sets]
    rfl
  · rw [ports]
    exact ⟨rfl, rfl⟩

end Sys2Proof.Machine
end

