-- ==== Sys2Proof/Proofs/SteadyMedia.lean ====
section
/-! What the reading, the placing and the copying of units leave of flash translation (08 R201, R219, R226). -/

namespace Sys2Proof.Machine

section
variable {m n k : Media}

/-! ### Placing units -/

/-- What the reading and the placing of units leave of flash translation: the map, the pieces of the write buffer, and what a
miscorrection has changed in it. Band numbers are only given out. -/
structure Media.SameData (m n : Media) : Prop where
  spaces : n.spaces = m.spaces
  pieces : n.pieces = m.pieces
  badData : n.badData = m.badData
  bandNo : m.bandNo ≤ n.bandNo

/-- The same, with the units that move. -/
structure Media.Steady (m n : Media) : Prop extends m.SameData n where
  moves : n.moves = m.moves

theorem Media.SameData.trans (h : m.SameData n) (h' : n.SameData k) : m.SameData k :=
  ⟨h'.spaces.trans h.spaces, h'.pieces.trans h.pieces, h'.badData.trans h.badData, h.bandNo.trans h'.bandNo⟩

theorem Media.Steady.refl (m : Media) : m.Steady m := ⟨⟨rfl, rfl, rfl, le_rfl⟩, rfl⟩

theorem Media.Steady.trans (h : m.Steady n) (h' : n.Steady k) : m.Steady k :=
  ⟨h.toSameData.trans h'.toSameData, h'.moves.trans h.moves⟩

theorem Media.Steady.foldl {α : Type} {f : Media → α → Media} (each : ∀ (m : Media) (a : α), m.Steady (f m a)) (l : List α)
    (m : Media) : m.Steady (l.foldl f m) := by
  induction l generalizing m with
  | nil => exact .refl m
  | cons a l ih => exact (each m a).trans (ih _)

theorem Media.Steady.ite {c : Prop} [Decidable c] (h : m.Steady n) (h' : m.Steady k) : m.Steady (if c then n else k) := by
  split
  · exact h
  · exact h'

theorem Media.steady_updBand (m : Media) (number : Nat) (f : Band → Band) : m.Steady (m.updBand number f) :=
  ⟨⟨rfl, rfl, rfl, le_rfl⟩, rfl⟩

theorem Media.steady_openBand (m : Media) (lane now : Nat) : m.Steady (m.openBand lane now) := ⟨⟨rfl, rfl, rfl, Nat.le_succ _⟩, rfl⟩

theorem Media.steady_closeBand (m : Media) (b : Band) (now : Nat) : m.Steady (m.closeBand b now) :=
  have closed := m.steady_updBand b.number fun x => { x with life := .closed }
  .ite closed (closed.trans (steady_openBand _ _ _))

theorem Media.steady_closeFull (m : Media) (now : Nat) : m.Steady (m.closeFull now) :=
  .foldl (fun m b => .ite (.refl m) (m.steady_closeBand b now)) _ m

theorem Media.steady_ready (m : Media) (now : Nat) : m.Steady (m.ready now) := .ite (m.steady_openBand _ _) (.refl m)

theorem Media.steady_placeUnits (now fuel : Nat) (m : Media) (draw count : Nat) :
    m.Steady (m.placeUnits now fuel draw count).1 := by
  induction fuel generalizing m draw count with
  | zero => exact .refl m
  | succ fuel ih =>
    unfold Media.placeUnits
    split
    · exact .refl m
    · have ready := m.steady_ready now
      dsimp only
      split
      · exact ready
      · refine .trans ?_ (ih _ _ _)
        exact ⟨⟨ready.spaces, ready.pieces, ready.badData, ready.bandNo⟩, ready.moves⟩

/-- Every unit is placed. -/
theorem Media.length_placeUnits (now fuel : Nat) (m : Media) (draw count : Nat) :
    (m.placeUnits now fuel draw count).2.length = count := by
  induction fuel generalizing m draw count with
  | zero => simp [Media.placeUnits]
  | succ fuel ih =>
    unfold Media.placeUnits
    split
    next none => simp [none]
    next =>
      dsimp only
      split
      · simp
      · rw [List.length_append, ih, List.length_map, List.length_range]
        omega

theorem Media.steady_place (m : Media) (now count : Nat) : m.Steady (m.place now count).1 := by
  have placed := (m.steady_closeFull now).trans (steady_placeUnits now 65 _ (m.groups * 64) count)
  exact ⟨⟨placed.spaces, placed.pieces, placed.badData, placed.bandNo⟩, placed.moves⟩

theorem Media.length_place (m : Media) (now count : Nat) : (m.place now count).2.length = count := length_placeUnits ..

theorem Media.steady_suspend (m : Media) (die : Nat) : m.Steady (m.suspend die) := ⟨⟨rfl, rfl, rfl, le_rfl⟩, rfl⟩

theorem Media.steady_suspendFor (m : Media) (us : List (Nat × BitVec 37)) : m.Steady (m.suspendFor us) :=
  .foldl (fun m _ => m.steady_suspend _) us m

theorem Media.steady_follow (m : Media) (new : List (BitVec 37 × BitVec 37)) : m.Steady (m.follow new) := ⟨⟨rfl, rfl, rfl, le_rfl⟩, rfl⟩

/-! ### The segment cache -/

theorem Media.steady_segPlace (m : Media) (now : Nat) : m.Steady (m.segPlace now).1 := by
  have placed := m.steady_place now 1
  have fresh : m.Steady { (m.place now 1).1 with segUnit := some (((m.place now 1).2.headD (0, 0)).2, 1) } :=
    ⟨⟨placed.spaces, placed.pieces, placed.badData, placed.bandNo⟩, placed.moves⟩
  unfold Media.segPlace
  split
  · split
    · exact ⟨⟨rfl, rfl, rfl, le_rfl⟩, rfl⟩
    · exact fresh
  · exact fresh

theorem Media.steady_writeBack (m : Media) (now key : Nat) : m.Steady (m.writeBack now key) := by
  have placed := m.steady_segPlace now
  exact ⟨⟨placed.spaces, placed.pieces, placed.badData, placed.bandNo⟩, placed.moves⟩

theorem Media.steady_load (m : Media) (now draw key : Nat) : m.Steady (m.load now draw key) := by
  unfold Media.load
  extract_lets out written
  have steady : m.Steady written := .foldl (fun m k => m.steady_writeBack now k) _ m
  exact ⟨⟨steady.spaces, steady.pieces, steady.badData, steady.bandNo⟩, steady.moves⟩

end

/-! ### States -/

/-- States between which units were read, placed or copied: the data that the map and the write buffer hold is the same, and so are
the values that govern. -/
structure State.SameData (s t : State) : Prop where
  media : s.media.SameData t.media
  gov : ∀ i j, t.gov i j = s.gov i j
  guard : t.guard = s.guard

/-- The same, with the units that move. -/
structure State.Steady (s t : State) : Prop where
  media : s.media.Steady t.media
  gov : ∀ i j, t.gov i j = s.gov i j
  guard : t.guard = s.guard

section
variable {s t u : State}

theorem State.SameData.trans (h : s.SameData t) (h' : t.SameData u) : s.SameData u :=
  ⟨h.media.trans h'.media, fun i j => (h'.gov i j).trans (h.gov i j), h'.guard.trans h.guard⟩

theorem State.Steady.sameData (h : s.Steady t) : s.SameData t := ⟨h.media.toSameData, h.gov, h.guard⟩

theorem State.Steady.refl (s : State) : s.Steady s := ⟨.refl _, fun _ _ => rfl, rfl⟩

theorem State.Steady.trans (h : s.Steady t) (h' : t.Steady u) : s.Steady u :=
  ⟨h.media.trans h'.media, fun i j => (h'.gov i j).trans (h.gov i j), h'.guard.trans h.guard⟩

theorem State.Steady.each {α : Type} {f : State → α → State} (h : ∀ (s : State) (a : α), s.Steady (f s a)) (l : List α) (s : State) :
    s.Steady (s.each l f) := by
  induction l generalizing s with
  | nil => exact .refl s
  | cons a l ih => exact (h s a).trans (ih _)

theorem State.Steady.setMedia (h : s.Steady t) {n : Media} (h' : t.media.Steady n) : s.Steady (t.setMedia n) :=
  ⟨h.media.trans h', h.gov, h.guard⟩

theorem State.Steady.bump (h : s.Steady t) (i j v : Nat) : s.Steady (t.bump i j v) := ⟨h.media, h.gov, h.guard⟩

theorem State.Steady.draw (h : s.Steady t) : s.Steady t.draw := ⟨h.media, h.gov, h.guard⟩

theorem State.steady_busyBit (s : State) (v : Nat) : s.Steady (s.busyBit v) := ⟨⟨⟨rfl, rfl, rfl, le_rfl⟩, rfl⟩, fun _ _ => rfl, rfl⟩

/-! ### Reads -/

theorem State.steady_touchBlock (s : State) (k v : Nat) : s.Steady (s.touchBlock k v) :=
  (State.Steady.refl s).setMedia ⟨⟨rfl, rfl, rfl, le_rfl⟩, rfl⟩

theorem State.steady_readBlockAt (s : State) (b : Option Band) (k : Nat) (f : Nat → Nat) : s.Steady (s.readBlockAt b k f).1 := by
  unfold State.readBlockAt
  split
  · exact s.steady_touchBlock k 1
  · dsimp only
    refine State.Steady.setMedia (((s.steady_touchBlock k _).draw.bump _ _ _).bump _ _ _) ?_
    refine .ite ?_ (.trans ?_ (Media.steady_updBand ..)) <;>
      exact .ite ⟨⟨rfl, rfl, rfl, le_rfl⟩, rfl⟩ (.refl _)

theorem State.steady_readUnit (s : State) (v : Ver) : s.Steady (s.readUnit v).1 := s.steady_readBlockAt ..

theorem State.steady_readIn (s : State) (k : Nat) : s.Steady (s.readIn k).1 := s.steady_readBlockAt ..

theorem State.steady_readRow (s : State) (v : Ver) : s.Steady (s.readRow v) := by
  unfold State.readRow
  split
  · exact .refl s
  · exact .each (fun s k => s.steady_readBlockAt ..) _ s

theorem State.steady_readFrom (s : State) (how : CopyFrom) (v : Ver) : s.Steady (s.readFrom how v) := by
  unfold State.readFrom
  split
  · exact s.steady_readUnit _
  · exact s.steady_readRow v

theorem State.steady_missed (s : State) (key : Nat) : s.Steady (s.missed key).1 :=
  (((s.steady_readIn _).setMedia (Media.steady_load _ _ _ key)).draw).bump _ _ _

theorem State.steady_soil (s : State) (key : Nat) : s.Steady (s.soil key) := by
  have soiled {t : State} (h : s.Steady t) (dirty : List Nat) : s.Steady (t.setMedia { t.media with dirty := dirty }) :=
    h.setMedia ⟨⟨rfl, rfl, rfl, le_rfl⟩, rfl⟩
  unfold State.soil
  dsimp only
  refine soiled ?_ _
  split
  · exact .refl s
  · split
    · exact s.steady_missed key
    · exact ((State.Steady.refl s).setMedia (Media.steady_load ..)).draw

theorem State.steady_readAll (s : State) (f : Nat → Bool) : s.Steady (s.readAll f) := .each (fun s _ => s.steady_readIn _) _ s

theorem State.steady_sampleBand (s : State) (b : Band) (further : Nat) : s.Steady (s.sampleBand b further) := by
  unfold State.sampleBand
  exact ((State.Steady.refl s).setMedia (Media.steady_updBand ..)).draw.trans (.each (fun s k => s.steady_readBlockAt ..) _ _)

theorem State.steady_placePiece (s : State) (count : Nat) : s.Steady (s.placePiece count).1 :=
  (State.Steady.refl s).setMedia (Media.steady_place ..)

theorem State.length_placePiece (s : State) (count : Nat) : (s.placePiece count).2.length = count := Media.length_place ..

theorem State.steady_placeMany (s : State) (fuel count : Nat) : s.Steady (s.placeMany fuel count).1 := by
  induction fuel generalizing s count with
  | zero => exact .refl s
  | succ fuel ih =>
    unfold State.placeMany
    split
    · exact .refl s
    · exact (s.steady_placePiece _).trans (ih _ _)

/-- With a piece to each unit every unit is placed. -/
theorem State.length_placeMany (s : State) {fuel count : Nat} (enough : count ≤ fuel) : (s.placeMany fuel count).2.length = count := by
  induction fuel generalizing s count with
  | zero => simp [State.placeMany, Nat.le_zero.mp enough]
  | succ fuel ih =>
    unfold State.placeMany
    split
    next none => simp [none]
    next some =>
      have piece : 0 < pieceBlocks := by decide
      rw [List.length_append, State.length_placePiece, ih _ (by omega)]
      omega

/-! ### The data of units -/

theorem Media.SameData.heldData {m n : Media} (h : m.SameData n) (ns lba : Nat) (v : Ver) : n.heldData ns lba v = m.heldData ns lba v := by
  unfold Media.heldData Media.copyData
  rw [h.pieces, h.badData]

theorem State.checkFails_congr (gov : ∀ i j, t.gov i j = s.gov i j) (ns lba : Nat) (v : BitVec 64) (m : Mem) :
    t.checkFails ns lba v m = s.checkFails ns lba v m := by
  unfold State.checkFails State.isProtected State.blockValue
  rw [gov]

theorem State.currentIn_congr (spaces : t.media.spaces = s.media.spaces) (f : Nat → Bool) : t.currentIn f = s.currentIn f := by
  unfold State.currentIn
  rw [spaces]

/-- A unit whose data, as it is read, fails the check of its trailer (10 R274). -/
def State.unsound (s : State) (u : Nat × Nat × Ver) : Bool := s.checkFails u.1 u.2.1 u.2.2.value (s.media.heldData u.1 u.2.1 u.2.2)

theorem State.SameData.unsound (h : s.SameData t) (u : Nat × Nat × Ver) : t.unsound u = s.unsound u := by
  unfold State.unsound
  rw [h.media.heldData, State.checkFails_congr h.gov]

end

/-! ### Copies -/

/-- The copies of some units, placed in a piece, and the moves that the map is to make of them. -/
def State.placeCopies (s : State) (how : CopyFrom) (now : List (Nat × Nat × Ver)) : State :=
  let r := s.placePiece now.length
  let new := (now.zip r.2).map fun u => (⟨u.1.1, u.1.2.1, u.1.2.2.unit, u.2.2, u.2.1, how.of u.1.2.2, false⟩ : Move)
  r.1.setMedia (({ r.1.media with moves := r.1.media.moves ++ new } : Media).follow (new.map fun v => (v.src, v.dst)))

/-- The units of a piece that do not move yet. -/
def State.unmoved (s : State) (l : List (Nat × Nat × Ver)) : List (Nat × Nat × Ver) :=
  l.filter fun u => !s.media.moves.any fun m => decide (m.src = u.2.2.unit)

/-- One piece of units is read, and its sound ones are copied. -/
def State.movePiece (s : State) (how : CopyFrom) (l : List (Nat × Nat × Ver)) : State :=
  let due := s.unmoved l
  let r := s.each due fun s u => s.readFrom how u.2.2
  (r.placeCopies how (due.filter fun u => !r.unsound u)).loseUnits (due.filter r.unsound)

theorem State.moveUnits_succ (s : State) (how : CopyFrom) (fuel : Nat) (l : List (Nat × Nat × Ver)) : s.moveUnits how (fuel + 1) l
    = if l = [] ∨ s.guard.nearOff then s
      else (s.movePiece how (l.take pieceBlocks)).moveUnits how fuel (l.drop pieceBlocks) := by
  rw [State.moveUnits]
  refine if_congr Iff.rfl rfl ?_
  rfl

/-- Some units have been copied: what moved before goes on moving, and each of them moves. Nothing is lost. -/
structure State.Copies (s t : State) (l : List (Nat × Nat × Ver)) : Prop extends s.SameData t where
  kept : ∀ m, m ∈ s.media.moves → m ∈ t.media.moves
  copied : ∀ u, u ∈ l → ∃ m, m ∈ t.media.moves ∧ m.src = u.2.2.unit
  sound : (∀ m, m ∈ s.media.moves → m.lost = false) → ∀ m, m ∈ t.media.moves → m.lost = false

section
variable {s t u : State} {l l' : List (Nat × Nat × Ver)}

theorem State.Copies.refl (s : State) : s.Copies s [] := ⟨(State.Steady.refl s).sameData, fun _ h => h, nofun, fun h => h⟩

theorem State.Copies.trans (h : s.Copies t l) (h' : t.Copies u l') : s.Copies u (l ++ l') where
  toSameData := h.toSameData.trans h'.toSameData
  kept m listed := h'.kept m (h.kept m listed)
  copied x listed := (List.mem_append.mp listed).elim
    (fun old => let ⟨m, moves, named⟩ := h.copied x old; ⟨m, h'.kept m moves, named⟩) (h'.copied x)
  sound none := h'.sound (h.sound none)

theorem State.copies_placeCopies (s : State) (how : CopyFrom) (l : List (Nat × Nat × Ver)) : s.Copies (s.placeCopies how l) l := by
  have placed := s.steady_placePiece l.length
  have all : l.length ≤ (s.placePiece l.length).2.length := (s.length_placePiece _).ge
  have moves : (s.placeCopies how l).media.moves = s.media.moves ++ (l.zip (s.placePiece l.length).2).map fun u =>
      (⟨u.1.1, u.1.2.1, u.1.2.2.unit, u.2.2, u.2.1, how.of u.1.2.2, false⟩ : Move) :=
    congrArg (· ++ _) placed.media.moves
  refine ⟨⟨⟨placed.media.spaces, placed.media.pieces, placed.media.badData, placed.media.bandNo⟩, placed.gov, placed.guard⟩,
    fun m listed => ?_, fun u listed => ?_, fun none m listed => ?_⟩
  · rw [moves]
    exact List.mem_append_left _ listed
  · have zipped : u ∈ (l.zip (s.placePiece l.length).2).map Prod.fst := by rwa [List.map_fst_zip all]
    obtain ⟨p, pair, rfl⟩ := List.mem_map.mp zipped
    rw [moves]
    exact ⟨_, List.mem_append_right _ (List.mem_map.mpr ⟨p, pair, rfl⟩), rfl⟩
  · rw [moves] at listed
    rcases List.mem_append.mp listed with old | new
    · exact none m old
    · obtain ⟨p, -, rfl⟩ := List.mem_map.mp new
      rfl

theorem State.loseUnits_nil (s : State) : (s.loseUnits []).media.moves = s.media.moves := by
  simp [State.loseUnits]

theorem State.sameData_loseUnits (s : State) (l : List (Nat × Nat × Ver)) : s.SameData (s.loseUnits l) :=
  ⟨⟨rfl, rfl, rfl, le_rfl⟩, fun _ _ => rfl, rfl⟩

theorem State.steady_readPiece (s : State) (how : CopyFrom) (l : List (Nat × Nat × Ver)) :
    s.Steady (s.each (s.unmoved l) fun s u => s.readFrom how u.2.2) := .each (fun s _ => s.steady_readFrom how _) _ s

theorem State.sameData_moveUnits (s : State) (how : CopyFrom) (fuel : Nat) (l : List (Nat × Nat × Ver)) :
    s.SameData (s.moveUnits how fuel l) := by
  induction fuel generalizing s l with
  | zero => exact (State.Steady.refl s).sameData
  | succ fuel ih =>
    rw [State.moveUnits_succ]
    split
    · exact (State.Steady.refl s).sameData
    · have read := (s.steady_readPiece how (l.take pieceBlocks)).sameData
      exact ((read.trans (State.copies_placeCopies _ how _).toSameData).trans (State.sameData_loseUnits _ _)).trans (ih _ _)

/-- A piece whose units are sound is copied, but for the units that already move. -/
theorem State.copies_movePiece (how : CopyFrom) (good : ∀ u, u ∈ l → s.unsound u = false) : s.Copies (s.movePiece how l) l := by
  have read := s.steady_readPiece how l
  unfold State.movePiece
  dsimp only
  generalize (s.each (s.unmoved l) fun s u => s.readFrom how u.2.2) = r at read ⊢
  have sound : ∀ u, u ∈ s.unmoved l → r.unsound u = false := fun u listed =>
    (read.sameData.unsound u).trans (good u (List.mem_of_mem_filter listed))
  rw [List.filter_eq_self.mpr fun u listed => by rw [sound u listed]; rfl,
    List.filter_eq_nil_iff.mpr fun u listed => by rw [sound u listed]; decide]
  obtain ⟨data, kept, copied, fine⟩ := r.copies_placeCopies how (s.unmoved l)
  have moves := State.loseUnits_nil (r.placeCopies how (s.unmoved l))
  refine ⟨(read.sameData.trans data).trans (State.sameData_loseUnits _ _), fun m listed => ?_, fun u listed => ?_, fun none m listed => ?_⟩
  · rw [moves]
    exact kept m (by rwa [read.media.moves])
  · rw [moves]
    by_cases moving : s.media.moves.any (fun m => decide (m.src = u.2.2.unit)) = true
    · obtain ⟨m, old, named⟩ := List.any_eq_true.mp moving
      exact ⟨m, kept m (by rwa [read.media.moves]), of_decide_eq_true named⟩
    · exact copied u (List.mem_filter.mpr ⟨listed, by simpa using moving⟩)
  · rw [moves] at listed
    exact fine (by rwa [read.media.moves]) m listed

/-- Units that are sound are all copied, piece by piece. -/
theorem State.copies_moveUnits (how : CopyFrom) {fuel : Nat} (near : s.guard.nearOff = false) (enough : l.length ≤ fuel)
    (good : ∀ u, u ∈ l → s.unsound u = false) : s.Copies (s.moveUnits how fuel l) l := by
  induction fuel generalizing s l with
  | zero =>
    rw [List.length_eq_zero_iff.mp (Nat.le_zero.mp enough)]
    exact .refl s
  | succ fuel ih =>
    rw [State.moveUnits_succ]
    by_cases none : l = []
    · rw [if_pos (.inl none), none]
      exact .refl s
    · rw [if_neg (by simp [none, near])]
      have first : s.Copies (s.movePiece how (l.take pieceBlocks)) (l.take pieceBlocks) :=
        State.copies_movePiece how fun u listed => good u (List.mem_of_mem_take listed)
      have some : 0 < l.length := List.length_pos_iff.mpr none
      have piece : 0 < pieceBlocks := by decide
      have rest := ih (s := s.movePiece how (l.take pieceBlocks)) (l := l.drop pieceBlocks) (by rw [first.guard, near])
        (by rw [List.length_drop]; omega) fun u listed =>
          (first.toSameData.unsound u).trans (good u (List.mem_of_mem_drop listed))
      have both := first.trans rest
      rwa [List.take_append_drop] at both

theorem State.copies_moveAll (how : CopyFrom) (near : s.guard.nearOff = false) (good : ∀ u, u ∈ l → s.unsound u = false) :
    s.Copies (s.moveAll how l) l := State.copies_moveUnits how near le_rfl good

end

end Sys2Proof.Machine
end

