-- ==== Sys2Proof/Proofs/BandUpkeep.lean ====
section
/-! Relocations, verification and secure erasure of bands (O46). -/

namespace Sys2Proof.Machine

/-! ### Units that move -/

/-- A copy of a unit is on its way. -/
def Media.Moves (m : Media) (u : BitVec 37) : Prop := ∃ v, v ∈ m.moves ∧ v.src = u ∧ v.lost = false

/-- States between which the current units and the copies on their way stay, if at other places. -/
structure State.Carries (s t : State) : Prop where
  current : ∀ f, t.currentIn f = s.currentIn f
  gov : ∀ i j, t.gov i j = s.gov i j
  moves : ∀ u, s.media.Moves u → t.media.Moves u
  bandNo : s.media.bandNo ≤ t.media.bandNo

section
variable {s t u : State}

theorem State.Carries.refl (s : State) : s.Carries s := ⟨fun _ => rfl, fun _ _ => rfl, fun _ h => h, le_rfl⟩

theorem State.Carries.trans (h : s.Carries t) (h' : t.Carries u) : s.Carries u :=
  ⟨fun f => (h'.current f).trans (h.current f), fun i j => (h'.gov i j).trans (h.gov i j), fun x moves => h'.moves x (h.moves x moves),
    h.bandNo.trans h'.bandNo⟩

theorem State.Carries.each {α : Type} {f : State → α → State} (h : ∀ (s : State) (a : α), s.Carries (f s a)) (l : List α) (s : State) :
    s.Carries (s.each l f) := by
  induction l generalizing s with
  | nil => exact .refl s
  | cons a l ih => exact (h s a).trans (ih _)

theorem State.Steady.carries (h : s.Steady t) : s.Carries t :=
  ⟨State.currentIn_congr h.media.spaces, h.gov, fun _ ⟨m, listed, moves⟩ => ⟨m, by rwa [h.media.moves], moves⟩, h.media.bandNo⟩

theorem State.Carries.bump (h : s.Carries t) (i j v : Nat) : s.Carries (t.bump i j v) := h.trans ((State.Steady.refl t).bump i j v).carries

/-- A change of the media that leaves the map and the moves. -/
theorem State.Carries.setMedia (h : s.Carries t) {n : Media} (spaces : n.spaces = t.media.spaces) (moves : n.moves = t.media.moves)
    (bandNo : t.media.bandNo ≤ n.bandNo) : s.Carries (t.setMedia n) :=
  h.trans ⟨State.currentIn_congr spaces, fun _ _ => rfl, fun _ ⟨m, listed, rest⟩ => ⟨m, moves ▸ listed, rest⟩, bandNo⟩

theorem State.Copies.moves {l : List (Nat × Nat × Ver)} (h : s.Copies t l) (none : s.media.moves = []) {u : Nat × Nat × Ver} (listed : u ∈ l) :
    t.media.Moves u.2.2.unit := by
  obtain ⟨m, moves, named⟩ := h.copied u listed
  exact ⟨m, moves, named, h.sound (by rw [none]; nofun) m moves⟩

/-! ### Relocation (08 R226; 09 R245) -/

/-- Every unit that must leave some blocks is sound. -/
def State.SoundIn (s : State) (f : Nat → Bool) : Prop := ∀ u, u ∈ s.currentIn f → s.unsound u = false

/-- Every unit that must leave some blocks moves. -/
def State.Leaves (s t : State) (f : Nat → Bool) : Prop :=
  t.media.spaces = s.media.spaces ∧ (s.SoundIn f → ∀ u, u ∈ s.currentIn f → t.media.Moves u.2.2.unit)

theorem State.Steady.leaves (h : s.Steady t) {f : Nat → Bool} (rest : t.Leaves u f) : s.Leaves u f := by
  refine ⟨rest.1.trans h.media.spaces, fun sound => ?_⟩
  have current := State.currentIn_congr h.media.spaces f
  have moved := rest.2 fun v listed => (h.sameData.unsound v).trans (sound v (current ▸ listed))
  rwa [current] at moved

theorem State.Leaves.of_media {f : Nat → Bool} (h : s.Leaves t f) (spaces : u.media.spaces = t.media.spaces)
    (moves : u.media.moves = t.media.moves) : s.Leaves u f :=
  ⟨spaces.trans h.1, fun sound x listed => let ⟨m, mem, rest⟩ := h.2 sound x listed; ⟨m, moves ▸ mem, rest⟩⟩

theorem State.Leaves.busyBit {f : Nat → Bool} (h : s.Leaves t f) (n : Nat) : s.Leaves (t.busyBit n) f := h.of_media rfl rfl

theorem State.busyBit_evac (s : State) (n : Nat) : (s.busyBit n).media.evac = s.media.evac := rfl

theorem State.leaves_copyOut (near : s.guard.nearOff = false) (none : s.media.moves = []) (f : Nat → Bool) : s.Leaves (s.copyOut f) f := by
  have soiled (t : State) : t.Steady (t.each (t.media.segmentsIn f) State.soil) := .each State.steady_soil _ t
  refine ⟨(soiled _).media.spaces.trans (s.sameData_moveUnits .unit _ _).media.spaces, fun sound u listed => ?_⟩
  exact (soiled _).carries.moves _ ((State.copies_moveAll .unit near sound).moves none listed)

theorem Media.exists_claim (m : Media) (number by' : Nat) : ∃ a, (number, a) ∈ (m.claim number by').claims := by
  unfold Media.claim
  split
  next claimed =>
    obtain ⟨c, listed, same⟩ := List.any_eq_true.mp claimed
    exact ⟨c.2, by rwa [← of_decide_eq_true same]⟩
  next => exact ⟨by', by simp⟩

theorem Media.claim_spaces (m : Media) (number by' : Nat) : (m.claim number by').spaces = m.spaces := by
  unfold Media.claim
  split <;> rfl

theorem Media.claim_moves (m : Media) (number by' : Nat) : (m.claim number by').moves = m.moves := by
  unfold Media.claim
  split <;> rfl

/-- What a relocation does to its band and to the units in it. -/
structure State.Relocated (s t : State) (b : Band) : Prop where
  claimed : ∃ a, (b.number, a) ∈ t.media.claims
  takes : t.media.Takes b
  leaves : s.Leaves t fun k => decide (k ∈ b.blocks)

theorem Media.updBand_spaces (m : Media) (number : Nat) (f : Band → Band) : (m.updBand number f).spaces = m.spaces := rfl

theorem Media.updBand_moves (m : Media) (number : Nat) (f : Band → Band) : (m.updBand number f).moves = m.moves := rfl

/-- The media after a band has been claimed as a victim, its current units copied before. -/
def State.victimMedia (s : State) (b : Band) (by' : Nat) : Media :=
  ((s.copyOut fun k => decide (k ∈ b.blocks)).media.updBand b.number fun x => { x with life := .victim }).claim b.number by'

theorem State.media_setEvac (t : State) (m : Media) (l : List Evac) : (t.setMedia { m with evac := l }).media.claims = m.claims
    ∧ (t.setMedia { m with evac := l }).media.spaces = m.spaces ∧ (t.setMedia { m with evac := l }).media.moves = m.moves :=
  ⟨rfl, rfl, rfl⟩

theorem State.media_relocateBand (b : Band) (by' : Nat) :
    (s.relocateBand b by').media.claims = (s.victimMedia b by').claims
      ∧ (s.relocateBand b by').media.spaces = (s.victimMedia b by').spaces
      ∧ (s.relocateBand b by').media.moves = (s.victimMedia b by').moves := State.media_setEvac ..

theorem State.relocated_relocateBand (near : s.guard.nearOff = false) (none : s.media.moves = []) (b : Band) (by' : Nat) :
    s.Relocated (s.relocateBand b by') b := by
  obtain ⟨claims, spaces, moves⟩ := s.media_relocateBand b by'
  refine ⟨?_, s.takes_relocateBand b by', (State.leaves_copyOut near none _).of_media (spaces.trans ?_) (moves.trans ?_)⟩
  · rw [claims]
    exact Media.exists_claim ..
  · rw [State.victimMedia, Media.claim_spaces, Media.updBand_spaces]
  · rw [State.victimMedia, Media.claim_moves, Media.updBand_moves]

theorem State.Relocated.busyBit {b : Band} (h : s.Relocated t b) (n : Nat) : s.Relocated (t.busyBit n) b :=
  ⟨h.claimed, h.takes, h.leaves.busyBit n⟩

theorem State.Relocated.after {b : Band} (before : s.Steady t) (h : t.Relocated u b) : s.Relocated u b :=
  ⟨h.claimed, h.takes, before.leaves h.leaves⟩

theorem State.near_of_maintains (may : s.maintains = true) : s.guard.nearOff = false := by
  simp only [State.maintains, Bool.and_eq_true, Bool.not_eq_true'] at may
  exact may.2

theorem State.maintains_of_relocates (may : s.relocates = true) : s.maintains = true ∧ s.media.readOnly = false := by
  simpa [State.relocates] using may

variable {b : Band}

/-- GARBAGE_COLLECTION relocates the band that is least in use. -/
theorem garbageCollection_relocates (none : s.media.moves = []) (may : s.relocates = true) (noVerify : s.media.verifyFirst = false)
    (short : s.media.freeBlocks < 4 * s.freeFloor)
    (least : leastBand (fun b => ((s.currentIn (fun k => decide (k ∈ b.blocks))).length, 1))
      (s.media.collectable.filter (fun b => !s.seen (fun k => decide (k ∈ b.blocks)))) = some b) :
    ∃ t, exec .garbageCollection s = .next t ∧ s.Relocated t b := by
  refine ⟨_, ?_, (State.relocated_relocateBand (State.near_of_maintains (State.maintains_of_relocates may).1) none b 0).busyBit 0⟩
  show execGarbageCollection s = _
  unfold execGarbageCollection
  rw [if_neg (by simp [may, noVerify, short]), least]

theorem readDisturbRelocation_relocates {block : Nat} (none : s.media.moves = []) (may : s.relocates = true)
    (worn : s.gov 0x4080 3 ≤ s.media.reads.get 0 block) (found : s.media.takable.find? (fun b => decide (block ∈ b.blocks)) = some b) :
    ∃ t, exec (.readDisturbRelocation block) s = .next t ∧ s.Relocated t b := by
  refine ⟨_, ?_, (State.relocated_relocateBand (State.near_of_maintains (State.maintains_of_relocates may).1) none b 2).busyBit 2⟩
  show execReadDisturbRelocation block s = _
  unfold execReadDisturbRelocation
  rw [found]
  exact if_pos (by simp [may, worn])

theorem retentionRefresh_relocates {band sets : Nat} (none : s.media.moves = []) (may : s.relocates = true) (bad : 3 ≤ sets)
    (due : b.sampleDue s.clock.now = true) (found : s.media.takable.find? (fun y => decide (y.number = band)) = some b) :
    ∃ t, exec (.retentionRefresh band sets) s = .next t ∧ s.Relocated t b := by
  have sampled := (s.steady_sampleBand b sets).trans (State.steady_busyBit _ 3)
  have near := sampled.guard ▸ State.near_of_maintains (State.maintains_of_relocates may).1
  refine ⟨_, ?_, .after sampled (State.relocated_relocateBand near (sampled.media.moves.trans none) b 3)⟩
  show execRetentionRefresh band sets s = _
  unfold execRetentionRefresh
  rw [found]
  dsimp only
  rw [if_pos (by simp [may, due]), if_pos bad]

theorem wearLevelling_relocates (none : s.media.moves = []) (may : s.relocates = true)
    (uneven : s.media.peSum + s.gov 0x4080 4 * s.media.peBlocks < s.media.peMax * s.media.peBlocks)
    (least : leastBand (fun b => ((b.blocks.map (fun k => s.media.pe.get 0 k)).foldl (· + ·) 0, max 1 b.blocks.length))
      s.media.takable = some b) :
    ∃ t, exec .wearLevelling s = .next t ∧ s.Relocated t b := by
  refine ⟨_, ?_, (State.relocated_relocateBand (State.near_of_maintains (State.maintains_of_relocates may).1) none b 1).busyBit 1⟩
  show execWearLevelling s = _
  unfold execWearLevelling
  dsimp only
  rw [if_neg (by simp [may, uneven]), least]

/-- No relocation starts where nothing may be programmed (09 R242). -/
theorem relocations_rest (no : s.relocates = false) (block band sets : Nat) : exec .garbageCollection s = .next s
    ∧ exec (.readDisturbRelocation block) s = .next s ∧ exec (.retentionRefresh band sets) s = .next s ∧ exec .wearLevelling s = .next s := by
  refine ⟨?_, ?_, ?_, ?_⟩
  · exact if_pos (by simp [no])
  · show execReadDisturbRelocation block s = _
    unfold execReadDisturbRelocation
    split
    · rfl
    · exact if_neg (by simp [no])
  · show execRetentionRefresh band sets s = _
    unfold execRetentionRefresh
    split
    · rfl
    · exact if_neg (by simp [no])
  · exact if_pos (by simp [no])

/-- A block that has been read less often than RD_LIMIT stays (09 R246). -/
theorem readDisturbRelocation_rests {block : Nat} (few : s.media.reads.get 0 block < s.gov 0x4080 3) :
    exec (.readDisturbRelocation block) s = .next s := by
  show execReadDisturbRelocation block s = _
  unfold execReadDisturbRelocation
  split
  · rfl
  · exact if_neg (by simp; omega)

/-! ### Secure erasure (08 R223) -/

/-- What emptying a block does to it and to the units in it. -/
theorem State.evacuates (near : s.guard.nearOff = false) (none : s.media.moves = []) (block : Nat) (retire : Bool) (by' : Nat) :
    (∃ e, e ∈ (s.evacuate block retire by').media.evac ∧ e.block = block)
      ∧ s.Leaves (s.evacuate block retire by') fun k => decide (k = block) := by
  have copied := State.leaves_copyOut near none fun k => decide (k = block)
  have claims (l : List Band) (m : Media) : (l.foldl (fun (m : Media) b => m.claim b.number by') m).spaces = m.spaces
      ∧ (l.foldl (fun (m : Media) b => m.claim b.number by') m).moves = m.moves := by
    induction l generalizing m with
    | nil => exact ⟨rfl, rfl⟩
    | cons b l ih => exact ⟨(ih _).1.trans (m.claim_spaces ..), (ih _).2.trans (m.claim_moves ..)⟩
  unfold State.evacuate
  dsimp only
  exact ⟨⟨_, List.mem_append_right _ (List.mem_singleton_self _), rfl⟩, copied.of_media (claims _ _).1 (claims _ _).2⟩

theorem secureErase_evacuates {block : Nat} (none : s.media.moves = []) (may : s.maintains = true) (writes : s.media.readOnly = false)
    (named : ∃ j u, j ∈ s.media.secure ∧ u ∈ j.units ∧ unitBlock u = block)
    (held : ∃ x, x ∈ s.media.bands ∧ (x.life = .verified ∨ x.life = .victim) ∧ block ∈ x.blocks)
    (unseen : s.seen (fun k => decide (k = block)) = false) (free : s.media.skips block = false) :
    ∃ t, exec (.secureErase block) s = .next t ∧ (∃ e, e ∈ t.media.evac ∧ e.block = block)
      ∧ s.Leaves t fun k => decide (k = block) := by
  obtain ⟨emptied, leaves⟩ := State.evacuates (State.near_of_maintains may) none block false 5
  refine ⟨(s.evacuate block false 5).busyBit 5, ?_, by rwa [State.busyBit_evac], leaves.busyBit 5⟩
  have listed : s.media.secure.any (fun j => j.units.any (fun u => decide (unitBlock u = block))) = true := by
    obtain ⟨j, u, job, unit, here⟩ := named
    exact List.any_eq_true.mpr ⟨j, job, List.any_eq_true.mpr ⟨u, unit, decide_eq_true here⟩⟩
  have inBand : s.media.bands.any (fun b => decide (b.life = .verified ∨ b.life = .victim) && decide (block ∈ b.blocks)) = true := by
    obtain ⟨x, mem, life, here⟩ := held
    exact List.any_eq_true.mpr ⟨x, mem, by rw [decide_eq_true life, decide_eq_true here]; rfl⟩
  show execSecureErase block s = _
  unfold execSecureErase
  dsimp only
  exact if_pos (by rw [may, listed, inBand, free, unseen, writes]; rfl)

end

end Sys2Proof.Machine
end

