-- ==== Sys2Proof/Proofs/BandVerification.lean ====
section
/-! The verification of a band (O46). -/

namespace Sys2Proof.Machine

section
variable {s t u : State}

/-! ### The rewriting of weak units (08 R215, R216) -/

theorem State.carries_loseBuffer (s : State) (ns lba : Nat) : s.Carries (s.loseBuffer ns lba) := (State.Carries.refl s).setMedia rfl rfl le_rfl

theorem State.carries_rewritePending (s : State) (gone : Bool) (f : BitVec 37 → Bool) : s.Carries (s.rewritePending gone f) := by
  refine .each (fun s c => ?_) _ s
  extract_lets hit r drained dead m placed counted
  have followed : r.1.media.Steady m := (Media.steady_follow ..).trans (Media.steady_suspendFor ..)
  have moved : s.Carries placed := (s.steady_placePiece hit.length).carries.setMedia followed.spaces followed.moves followed.bandNo
  have all : s.Carries counted := by
    unfold counted
    split
    · exact moved.bump ..
    · exact moved
  exact all.trans (.each (fun s l => s.carries_loseBuffer c.ns l) _ _)

/-- Copies that are placed again stay on their way. -/
theorem State.carries_replace (s : State) (f : BitVec 37 → Bool) : s.Carries (s.replace f) := by
  unfold State.replace
  extract_lets hit again read
  have reads : s.Steady read := .each (fun s m => by
    split
    · split
      · exact s.steady_readUnit _
      · exact s.steady_readRow _
    · exact .refl s) again s
  have placed := reads.trans (read.steady_placeMany again.length again.length)
  have count := read.length_placeMany (le_refl again.length)
  generalize read.placeMany again.length again.length = r at placed count ⊢
  refine placed.carries.trans ⟨fun f => rfl, fun _ _ => rfl, fun u ⟨m, listed, named, sound⟩ => ?_, le_rfl⟩
  have old : m ∈ s.media.moves := placed.media.moves ▸ listed
  cases placedAgain : hit m with
  | false => exact ⟨m, List.mem_append_left _ (List.mem_filter.mpr ⟨listed, by rw [placedAgain]; rfl⟩), named, sound⟩
  | true =>
    have zipped : m ∈ (again.zip r.2).map Prod.fst := by
      rw [List.map_fst_zip count.ge]
      exact List.mem_filter.mpr ⟨old, placedAgain⟩
    obtain ⟨p, pair, rfl⟩ := List.mem_map.mp zipped
    exact ⟨_, List.mem_append_right _ (List.mem_map.mpr ⟨p, pair, rfl⟩), named, sound⟩

/-- Where the newest version of every block stays, the current units do. -/
theorem State.currentIn_of_heads {h : Nat → Namespace → Namespace} (spaces : t.media.spaces = s.media.spaces.mapVals h)
    (heads : ∀ n sp, ∃ g : Nat → List Ver → List Ver, (h n sp).blocks = sp.blocks.mapVals g ∧ ∀ lba vs, (g lba vs).head? = vs.head?)
    (f : Nat → Bool) : t.currentIn f = s.currentIn f := by
  unfold State.currentIn
  rw [spaces, Tab.mapVals, List.flatMap_map]
  refine List.flatMap_congr fun e _ => ?_
  obtain ⟨g, blocks, heads⟩ := heads e.1 e.2
  rw [blocks, Tab.mapVals, List.filterMap_map]
  refine List.filterMap_congr fun b _ => ?_
  obtain ⟨lba, vs⟩ := b
  have same := heads lba vs
  dsimp only [Function.comp_apply]
  generalize g lba vs = ws at same
  cases vs <;> cases ws <;> simp_all

/-- Only superseded units that holders see are written elsewhere: the current ones stay. -/
theorem State.carries_replaceHeld (s : State) (f : Ver → Bool) : s.Carries (s.replaceHeld f) := by
  unfold State.replaceHeld
  extract_lets l read
  have placed := State.Steady.trans (.each (fun s u => s.steady_readRow u.2.2) l s) (read.steady_placeMany l.length l.length)
  generalize read.placeMany l.length l.length = r at placed ⊢
  obtain ⟨v, us⟩ := r
  dsimp only at placed ⊢
  refine (placed.carries.trans ?_).bump _ _ _
  refine ⟨fun f => State.currentIn_of_heads (by rw [State.setMedia_media]; dsimp only; exact rfl) (fun n sp => ?_) f,
    fun _ _ => rfl, fun _ moves => moves, le_rfl⟩
  refine ⟨_, by dsimp only, fun lba vs => ?_⟩
  cases vs <;> rfl

/-- The current units of which a condition holds. -/
def State.unitsWith (s : State) (f : BitVec 37 → Bool) : List (Nat × Nat × Ver) := (s.currentIn fun _ => true).filter fun u => f u.2.2.unit

/-- Once the weak current units are copied, what else of them is rewritten leaves the map and the copies. -/
theorem State.carries_rewriteWeak (s : State) (f : BitVec 37 → Bool) : (s.moveAll .parity (s.unitsWith f)).Carries (s.rewriteWeak f) := by
  unfold State.rewriteWeak
  extract_lets us segs waiting copies n v
  have pending : (s.moveAll .parity us).Carries v := ((State.Carries.refl _).bump ..).trans (State.carries_rewritePending _ false f)
  have again := (pending.trans (v.carries_replace f)).trans (State.carries_replaceHeld _ fun v => f v.unit)
  exact (again.trans (.each (fun s k => (s.steady_soil k).carries) _ _)).bump ..

theorem State.bandNo_rewriteWeak (s : State) (f : BitVec 37 → Bool) : s.media.bandNo ≤ (s.rewriteWeak f).media.bandNo :=
  (s.sameData_moveUnits .parity _ _).media.bandNo.trans (s.carries_rewriteWeak f).bandNo

/-- Sound weak units are copied. -/
theorem State.moves_rewriteWeak {f : BitVec 37 → Bool} (near : s.guard.nearOff = false) (none : s.media.moves = [])
    (sound : ∀ u, u ∈ s.unitsWith f → s.unsound u = false) {u : Nat × Nat × Ver} (weak : u ∈ s.unitsWith f) :
    (s.rewriteWeak f).media.Moves u.2.2.unit :=
  (s.carries_rewriteWeak f).moves _ ((State.copies_moveAll .parity near sound).moves none weak)

theorem State.currentIn_rewriteWeak (s : State) (f : BitVec 37 → Bool) (g : Nat → Bool) : (s.rewriteWeak f).currentIn g = s.currentIn g :=
  ((s.carries_rewriteWeak f).current g).trans (State.currentIn_congr (s.sameData_moveUnits .parity _ _).media.spaces g)

theorem State.gov_rewriteWeak (s : State) (f : BitVec 37 → Bool) (i j : Nat) : (s.rewriteWeak f).gov i j = s.gov i j :=
  ((s.carries_rewriteWeak f).gov i j).trans ((s.sameData_moveUnits .parity _ _).gov i j)

/-! ### The lives of bands (09 R230) -/

/-- The bands are bands of before, at the same points of their lives. -/
structure Media.SameLives (m n : Media) : Prop where
  bands : ∀ y, y ∈ n.bands → ∃ x, x ∈ m.bands ∧ x.number = y.number ∧ x.life = y.life
  bandNo : n.bandNo = m.bandNo

theorem Media.SameLives.of_eq {m n : Media} (bands : n.bands = m.bands) (bandNo : n.bandNo = m.bandNo) : m.SameLives n :=
  ⟨fun y mem => ⟨y, bands ▸ mem, rfl, rfl⟩, bandNo⟩

theorem Media.SameLives.trans {m n k : Media} (h : m.SameLives n) (h' : n.SameLives k) : m.SameLives k :=
  ⟨fun z mem => by
    obtain ⟨y, hy, number, life⟩ := h'.bands z mem
    obtain ⟨x, hx, number', life'⟩ := h.bands y hy
    exact ⟨x, hx, number'.trans number, life'.trans life⟩, h'.bandNo.trans h.bandNo⟩

theorem Media.sameLives_updBand (m : Media) (number : Nat) {f : Band → Band} (same : ∀ x, (f x).number = x.number ∧ (f x).life = x.life) :
    m.SameLives (m.updBand number f) := by
  refine ⟨fun y mem => ?_, rfl⟩
  obtain ⟨x, hx, rfl⟩ := List.mem_map.mp mem
  refine ⟨x, hx, ?_⟩
  split
  · exact ⟨(same x).1.symm, (same x).2.symm⟩
  · exact ⟨rfl, rfl⟩

theorem Media.sameLives_takeOut (m : Media) (block : Nat) : m.SameLives (m.takeOut block) := by
  refine ⟨fun y mem => ?_, rfl⟩
  obtain ⟨x, hx, rfl⟩ := List.mem_map.mp (List.mem_of_mem_filter mem)
  exact ⟨x, hx, rfl, rfl⟩

theorem State.sameLives_readBlockAt (s : State) (b : Option Band) (k : Nat) (f : Nat → Nat) :
    s.media.SameLives (s.readBlockAt b k f).1.media := by
  unfold State.readBlockAt
  split
  · exact .of_eq rfl rfl
  · extract_lets bias first good n read counted m doomed
    have touched : s.media.SameLives doomed := by
      unfold doomed
      split <;> exact .of_eq rfl rfl
    rw [State.setMedia_media]
    split
    · exact touched
    · exact touched.trans (Media.sameLives_updBand _ _ fun _ => ⟨rfl, rfl⟩)

theorem State.sameLives_readAll (s : State) (f : Nat → Bool) : s.media.SameLives (s.readAll f).media := by
  unfold State.readAll
  extract_lets vers waiting copies segs
  generalize List.filter _ _ = l
  induction l generalizing s with
  | nil => exact .of_eq rfl rfl
  | cons u l ih => exact (s.sameLives_readBlockAt ..).trans (ih _)

/-- A band of a number is VERIFIED, and the number is given out. -/
structure Media.Verified (m : Media) (number : Nat) : Prop where
  life : ∀ x, x ∈ m.bands → x.number = number → x.life = .verified
  old : number < m.bandNo

theorem Media.Verified.sameLives {m n : Media} {number : Nat} (h : m.Verified number) (same : m.SameLives n) : n.Verified number := by
  refine ⟨fun y mem named => ?_, same.bandNo ▸ h.old⟩
  obtain ⟨x, hx, number, life⟩ := same.bands y mem
  exact life ▸ h.life x hx (number.trans named)

/-- Another band that closes leaves it so. -/
theorem Media.Verified.closeBand {m : Media} {number : Nat} (h : m.Verified number) {b : Band} (other : b.number ≠ number) (now : Nat) :
    (m.closeBand b now).Verified number := by
  have closed : (m.updBand b.number fun x => { x with life := .closed }).Verified number := by
    refine ⟨fun y mem named => ?_, h.old⟩
    obtain ⟨x, hx, rfl⟩ := List.mem_map.mp mem
    split at named <;> rename_i same
    · exact absurd (same.symm.trans named) other
    · rw [if_neg same]
      exact h.life x hx named
  unfold Media.closeBand
  dsimp only
  split
  · exact closed
  · refine ⟨fun y mem named => ?_, Nat.lt_succ_of_lt closed.old⟩
    rcases List.mem_append.mp mem with known | new
    · exact closed.life y known named
    · rw [List.mem_singleton.mp new] at named
      exact absurd named (Nat.ne_of_gt closed.old)

theorem Media.Verified.closeFull {m : Media} {number : Nat} (h : m.Verified number) (now : Nat) : (m.closeFull now).Verified number := by
  have others : ∀ b, b ∈ m.bands.filter (fun b => decide (b.life = .opened) && decide (b.capacity ≤ b.used) && !m.drains b.number) →
      b.number ≠ number := by
    intro b mem named
    have opened : b.life = .opened := by
      have := (List.mem_filter.mp mem).2
      simp only [Bool.and_eq_true, decide_eq_true_eq] at this
      exact this.1.1
    exact absurd (opened.symm.trans (h.life b (List.mem_of_mem_filter mem) named)) (by decide)
  unfold Media.closeFull
  generalize m.bands.filter _ = l at others
  induction l generalizing m with
  | nil => exact h
  | cons b l ih =>
    refine ih ?_ fun x mem => others x (List.mem_cons_of_mem b mem)
    beta_reduce
    split
    · exact h
    · exact h.closeBand (others b List.mem_cons_self) now

/-- The closing of bands leaves everything but the bands. -/
theorem Media.closeFull_eq (m : Media) (now : Nat) : ∃ bands bandNo, m.closeFull now = { m with bands := bands, bandNo := bandNo } := by
  unfold Media.closeFull
  generalize m.bands.filter _ = l
  induction l generalizing m with
  | nil => exact ⟨m.bands, m.bandNo, rfl⟩
  | cons b l ih =>
    have closed : ∃ bands bandNo, (if m.verifyFirst then m else m.closeBand b now) = { m with bands := bands, bandNo := bandNo } := by
      unfold Media.closeBand
      dsimp only
      (repeat' split) <;> exact ⟨_, _, rfl⟩
    obtain ⟨bands, bandNo, eq⟩ := closed
    rw [List.foldl_cons, eq]
    obtain ⟨bands', bandNo', eq'⟩ := ih { m with bands := bands, bandNo := bandNo }
    exact ⟨bands', bandNo', eq'⟩

/-! ### Blocks that are RETIRED (09 R235) -/

/-- Some blocks were RETIRED: those before them are so still, and the erases of others go on. -/
structure State.Retires (s t : State) (l : List Nat) : Prop where
  lives : s.media.SameLives t.media
  moves : t.media.moves = s.media.moves
  retired : ∀ k, k ∈ s.media.retired ∨ k ∈ l → k ∈ t.media.retired
  erasing : ∀ e, e ∈ s.media.erasing → e.block ∉ l → e ∈ t.media.erasing

theorem State.media_stages (s : State) : s.stages.media = s.media :=
  changes_of_keep (W := [.dict, .errors, .free, .observe]) (by simp) .media (by simp) (by simp)

theorem State.retires_retire (s : State) (block sub : Nat) : s.Retires (s.retire block sub) [block] := by
  unfold State.retire
  split
  next known => exact ⟨.of_eq rfl rfl, rfl, fun k mem => mem.elim id fun here => List.mem_singleton.mp here ▸ known, fun e mem _ => mem⟩
  next =>
    extract_lets m v _ w
    have media : (if sub = 5 then w.stages else w.spend).media = w.media := by
      split
      · exact w.media_stages
      · exact State.media_stages _
    refine ⟨?_, ?_, ?_, ?_⟩ <;> rw [media]
    · exact (s.media.sameLives_takeOut block).trans (.of_eq rfl rfl)
    · rfl
    · exact fun k mem => List.mem_append.mpr mem
    · exact fun e mem other => List.mem_filter.mpr ⟨mem, by simpa using other⟩

theorem State.retires_each (l : List Nat) (sub : Nat) (s : State) : s.Retires (s.each l fun s k => s.retire k sub) l := by
  induction l generalizing s with
  | nil => exact ⟨.of_eq rfl rfl, rfl, by simp [State.each], fun e mem _ => mem⟩
  | cons k l ih =>
    have first := s.retires_retire k sub
    have rest := ih (s.retire k sub)
    refine ⟨first.lives.trans rest.lives, rest.moves.trans first.moves, fun j mem => rest.retired j ?_, fun e mem other => ?_⟩
    · rcases mem with known | here
      · exact .inl (first.retired j (.inl known))
      · exact (List.mem_cons.mp here).imp_left fun same => first.retired j (.inr (by simp [same]))
    · rw [List.mem_cons, not_or] at other
      exact rest.erasing e (first.erasing e mem (by simpa using other.1)) other.2

/-! ### BAND_VERIFY (08 R216; 09 R230, R237) -/

/-- A band that has been read is VERIFIED, and those of its units are lost whose data fails the check of their trailers (10 R274). -/
def State.checkBand (s : State) (b : Band) (band : Nat) : State :=
  let v := (s.setMedia (s.media.updBand band fun x => { x with life := .verified })).readAll fun k => decide (k ∈ b.blocks)
  v.loseUnits ((v.currentIn fun k => decide (k ∈ b.blocks)).filter fun u => v.checkFails u.1 u.2.1 u.2.2.value u.2.2.data)

/-- The parity block of a verified band is to be erased. -/
def State.giveParity (s : State) (b : Band) : State :=
  match b.blockOf b.parity with
  | some k => s.pendErase k 4
  | none => s

/-- The blocks that failed to program are RETIRED, and full bands close. -/
def State.settleBand (s : State) (b : Band) : State :=
  let v := s.each b.failed fun s k => s.retire k 5
  (v.setMedia (v.media.closeFull v.clock.now)).busyBit 4

theorem exec_bandVerify {b : Band} {band : Nat} (found : s.media.band band = some b) (closed : b.life = .closed) (may : s.maintains = true)
    (programmed : s.media.drains b.number = false) (weak : List Nat) : exec (.bandVerify band weak) s
      = .next ((((s.rewriteWeak fun u => decide (u.toNat ∈ weak) && decide (unitBlock u ∈ b.blocks)).checkBand b band).giveParity
          b).settleBand b) := by
  show execBandVerify band weak s = _
  unfold execBandVerify
  rw [found]
  exact if_neg (by simp [closed, may, programmed])

theorem State.verified_checkBand {b : Band} {band : Nat} (old : band < s.media.bandNo) : (s.checkBand b band).media.Verified band := by
  have changed : (s.media.updBand band fun x => { x with life := .verified }).Verified band := by
    refine ⟨fun y mem named => ?_, old⟩
    obtain ⟨x, hx, rfl⟩ := List.mem_map.mp mem
    split at named <;> rename_i same
    · rw [if_pos same]
    · exact absurd named same
  have read := State.sameLives_readAll (s.setMedia (s.media.updBand band fun x => { x with life := .verified })) fun k => decide (k ∈ b.blocks)
  exact changed.sameLives (read.trans (.of_eq rfl rfl))

/-- A band whose units are sound loses none. -/
theorem State.carries_checkBand {b : Band} (band : Nat)
    (good : ∀ u, u ∈ s.currentIn (fun k => decide (k ∈ b.blocks)) → s.checkFails u.1 u.2.1 u.2.2.value u.2.2.data = false) :
    s.Carries (s.checkBand b band) := by
  unfold State.checkBand
  extract_lets v
  have read : s.Steady v := ((State.Steady.refl s).setMedia (Media.steady_updBand ..)).trans (State.steady_readAll _ _)
  have none : ((v.currentIn fun k => decide (k ∈ b.blocks)).filter fun u => v.checkFails u.1 u.2.1 u.2.2.value u.2.2.data) = [] := by
    rw [State.currentIn_congr read.media.spaces, List.filter_eq_nil_iff]
    intro u listed
    rw [State.checkFails_congr read.gov, good u listed]
    decide
  rw [none]
  exact read.carries.trans ((State.Carries.refl v).setMedia rfl v.loseUnits_nil le_rfl)

theorem State.giveParity_media (s : State) (b : Band) : s.media.SameLives (s.giveParity b).media
    ∧ (s.giveParity b).media.moves = s.media.moves
    ∧ ∀ k, b.blockOf b.parity = some k → ∃ e, e ∈ (s.giveParity b).media.erasing ∧ e.block = k := by
  unfold State.giveParity
  split
  next k parity =>
    refine ⟨(s.media.sameLives_takeOut k).trans (.of_eq rfl rfl), rfl, fun j same => ⟨⟨k, false, false, false, false, 4⟩, ?_, ?_⟩⟩
    · exact List.mem_append_right _ (List.mem_singleton_self _)
    · exact Option.some.inj (parity.symm.trans same)
  next noParity => exact ⟨.of_eq rfl rfl, rfl, fun k same => by rw [noParity] at same; cases same⟩

theorem State.settleBand_media (s : State) (b : Band) : (∀ number, s.media.Verified number → (s.settleBand b).media.Verified number)
    ∧ (s.settleBand b).media.moves = s.media.moves
    ∧ (∀ e, e ∈ s.media.erasing → e.block ∉ b.failed → e ∈ (s.settleBand b).media.erasing)
    ∧ ∀ k, k ∈ b.failed → k ∈ (s.settleBand b).media.retired := by
  have retires := State.retires_each b.failed 5 s
  unfold State.settleBand
  extract_lets v
  have all (number : Nat) (verified : s.media.Verified number) : (v.media.closeFull v.clock.now).Verified number :=
    (verified.sameLives retires.lives).closeFull _
  obtain ⟨bands, bandNo, eq⟩ := v.media.closeFull_eq v.clock.now
  refine ⟨fun number verified => ⟨(all number verified).life, (all number verified).old⟩, ?_, fun e mem other => ?_, fun k mem => ?_⟩ <;>
    rw [eq]
  · exact retires.moves
  · exact retires.erasing e mem other
  · exact retires.retired k (.inr mem)

end

end Sys2Proof.Machine
end

