-- ==== Sys2Proof/Proofs/BandsMaintained.lean ====
section
/-! Relocations, verification and secure erasure, put together (O46). -/

namespace Sys2Proof.Machine

section
variable {s t : State} {b : Band}

/-- The current units in some blocks are those of all that lie there. -/
theorem State.mem_currentIn (s : State) (f : Nat → Bool) (u : Nat × Nat × Ver) :
    u ∈ s.currentIn f ↔ u ∈ s.currentIn (fun _ => true) ∧ f (unitBlock u.2.2.unit) = true := by
  simp only [State.currentIn, List.mem_flatMap, List.mem_filterMap]
  constructor
  · rintro ⟨e, he, ⟨lba, vs⟩, hb, found⟩
    cases vs with
    | nil => cases found
    | cons v vs =>
      obtain ⟨⟨mapped, here⟩, same⟩ := Option.ite_none_right_eq_some.mp found
      cases same
      exact ⟨⟨e, he, (lba, v :: vs), hb, if_pos ⟨mapped, trivial⟩⟩, here⟩
  · rintro ⟨⟨e, he, ⟨lba, vs⟩, hb, found⟩, here⟩
    cases vs with
    | nil => cases found
    | cons v vs =>
      obtain ⟨⟨mapped, -⟩, same⟩ := Option.ite_none_right_eq_some.mp found
      cases same
      exact ⟨e, he, (lba, v :: vs), hb, if_pos ⟨mapped, here⟩⟩

/-- What the verification of a band does. -/
theorem bandVerify_verifies {band : Nat} (none : s.media.moves = []) (found : s.media.band band = some b) (closed : b.life = .closed)
    (may : s.maintains = true) (programmed : s.media.drains b.number = false) (weak : List Nat) :
    ∃ t, exec (.bandVerify band weak) s = .next t
      ∧ (band < s.media.bandNo → t.media.Verified band)
      ∧ ((∀ u, u ∈ s.currentIn (fun k => decide (k ∈ b.blocks)) →
            s.checkFails u.1 u.2.1 u.2.2.value u.2.2.data = false ∧ s.unsound u = false) →
          ∀ u, u ∈ s.currentIn (fun k => decide (k ∈ b.blocks)) → u.2.2.unit.toNat ∈ weak → t.media.Moves u.2.2.unit)
      ∧ (∀ k, b.blockOf b.parity = some k → k ∉ b.failed → ∃ e, e ∈ t.media.erasing ∧ e.block = k)
      ∧ (∀ k, k ∈ b.failed → k ∈ t.media.retired) := by
  let chosen := fun u : BitVec 37 => decide (u.toNat ∈ weak) && decide (unitBlock u ∈ b.blocks)
  let v := s.rewriteWeak chosen
  obtain ⟨lives, given, parity⟩ := (v.checkBand b band).giveParity_media b
  obtain ⟨verified, settled, erasing, retired⟩ := ((v.checkBand b band).giveParity b).settleBand_media b
  refine ⟨_, exec_bandVerify found closed may programmed weak, fun old => ?_, fun good u listed isWeak => ?_, fun k isParity notFailed => ?_,
    retired⟩
  · exact verified band ((State.verified_checkBand (Nat.lt_of_lt_of_le old (s.bandNo_rewriteWeak chosen))).sameLives lives)
  · have inBand {x : Nat × Nat × Ver} : x ∈ s.unitsWith chosen
        ↔ x ∈ s.currentIn (fun k => decide (k ∈ b.blocks)) ∧ x.2.2.unit.toNat ∈ weak := by
      rw [State.unitsWith, List.mem_filter, State.mem_currentIn s fun k => decide (k ∈ b.blocks)]
      simp only [chosen, Bool.and_eq_true, decide_eq_true_eq]
      tauto
    have copied := State.moves_rewriteWeak (State.near_of_maintains may) none (fun x mem => (good x (inBand.mp mem).1).2)
      (inBand.mpr ⟨listed, isWeak⟩)
    have checked : v.Carries (v.checkBand b band) := by
      refine State.carries_checkBand band fun x mem => ?_
      rw [State.currentIn_rewriteWeak] at mem
      rw [State.checkFails_congr (s.gov_rewriteWeak chosen)]
      exact (good x mem).1
    obtain ⟨m, moves, rest⟩ := checked.moves _ copied
    exact ⟨m, by rwa [settled, given], rest⟩
  · obtain ⟨e, mem, same⟩ := parity k isParity
    exact ⟨e, erasing e mem (same ▸ notFailed), same⟩

end

/-- Settles O46, each command by what it does to its band's units: the states between its parts keep the map's data, and the copies
on their way stay. -/
theorem bandsAreMaintained : Obligations.BandsAreMaintained := by
  unfold Obligations.BandsAreMaintained
  intro s b block band sets weak none good Relocates
  have relocates {c : Instr} (frame : Answers [.media, .dict, .free] s (exec c s)) (h : ∃ t, exec c s = .next t ∧ s.Relocated t b) :
      Relocates c := by
    obtain ⟨t, run, claimed, ⟨victim, emptied⟩, spaces, moves⟩ := h
    rw [run, answers_next] at frame
    exact ⟨t, run, claimed, victim, emptied, fun sound => moves fun u listed => (sound u listed).2, spaces, changes_of_keep frame⟩
  refine ⟨fun may noVerify short least => ?_, fun may worn found => ?_, readDisturbRelocation_rests, fun may bad due found => ?_,
    fun may uneven least => ?_, fun no => relocations_rest no block band sets, fun found closed may programmed => ?_,
    fun may writes named held unseen free => ?_⟩
  · exact relocates (execGarbageCollection_keep s (by simp) (by simp) (by simp)) (garbageCollection_relocates none may noVerify short least)
  · exact relocates (execReadDisturbRelocation_keep block s (by simp) (by simp) (by simp)) (readDisturbRelocation_relocates none may worn found)
  · exact relocates (execRetentionRefresh_keep band sets s (by simp) (by simp) (by simp)) (retentionRefresh_relocates none may bad due found)
  · exact relocates (execWearLevelling_keep s (by simp) (by simp) (by simp)) (wearLevelling_relocates none may uneven least)
  · obtain ⟨t, run, verified, moves, parity, retired⟩ := bandVerify_verifies none found closed may programmed weak
    have frame : Answers [.media, .dict, .errors, .observe, .free] s (exec (.bandVerify band weak) s) :=
      execBandVerify_keep band weak s (by simp) (by simp) (by simp) (by simp) (by simp)
    rw [run, answers_next] at frame
    exact ⟨t, run, fun x mem named old => (verified old).life x mem named, moves, parity, retired, changes_of_keep frame⟩
  · obtain ⟨t, run, emptied, spaces, moves⟩ := secureErase_evacuates none may writes named held unseen free
    have frame : Answers [.media, .dict, .free] s (exec (.secureErase block) s) :=
      execSecureErase_keep block s (by simp) (by simp) (by simp)
    rw [run, answers_next] at frame
    exact ⟨t, run, emptied, fun sound => moves fun u listed => (sound u listed).2, spaces, changes_of_keep frame⟩

end Sys2Proof.Machine
end

