-- ==== Sys2Proof/Proofs/HolderExpiry.lean ====
section
/-! The end of a holder whose far staging stops: the entry of the ledger that it writes may stand for any object. -/

namespace Sys2Proof.Machine

/-- A READ of set 0 of port 0 that holds the tick 5. -/
def holdingRead : TaskSet := { TaskSet.none with
  regs := [(0, BitVec.ofNat 64 (0x10 * 2 ^ 56))], life := .taken, stamp := 5 }

/-- A far staging of set 0 whose entry number lies beyond the ledger: the object of that entry is the counter 0x4020:5. -/
def strayStaging : Staging := ⟨0, 0, 0, 5, objKey 0x4020 5 - objKey 0x3060 1, 0, 0, none⟩

/-- A module below its floor of FREE blocks, with one expiry counted so far, the holder of set 0 and the far staging beyond the
ledger. -/
def strayUnderPressure : State := { State.reset with
  dict := { Dict.start with objs := [(objKey 0x4060 0x0B, 8388608), (objKey 0x4020 5, 1)] }
  sets := [(0, holdingRead)]
  stagings := [strayStaging] }

/-- Set 0 is the holder to end, and one expiry is counted so far in a counter that does not wrap at the next. -/
theorem presses_strayUnderPressure :
    strayUnderPressure.media.presses (strayUnderPressure.obj 0x4060 0x0B) = true ∧ strayUnderPressure.media.lastExpiry = none
      ∧ strayUnderPressure.firstHolder = some 0 ∧ (strayUnderPressure.obj 0x4020 5 + 1) % 2 ^ objBits 0x4020 5 = 2 := by
  decide +kernel

/-- The expiry leaves the counter at one: the staging that stops has cleared it before. -/
theorem obj_snapshotExpiry_strayUnderPressure {t : State} (h : exec .snapshotExpiry strayUnderPressure = .next t) :
    t.obj 0x4020 5 = 1 := by
  have counted : (match exec .snapshotExpiry strayUnderPressure with
      | .next u => u.obj 0x4020 5
      | _ => 1) = 1 := by decide +kernel
  rwa [h] at counted

/-- Refutes O43: the clause about a holder's end counts it in 0x4020:5 for whatever state. The holder's far stagings stop first,
each writing the entry of the ledger that its number names, and the number is any: here it makes the counter the entry, which
the INCOMPLETE entry clears before the holder is counted. -/
theorem not_mediaIsKept : ¬ Obligations.MediaIsKept := by
  unfold Obligations.MediaIsKept
  rintro ⟨-, kept⟩
  obtain ⟨presses, never, first, demanded⟩ := presses_strayUnderPressure
  obtain ⟨-, -, expires, -⟩ := kept strayUnderPressure 0 0 0 0 0
  obtain ⟨t, run, -, counted, -⟩ := expires presses (by rw [never]; exact fun e h => nomatch h) first
  rw [demanded, obj_snapshotExpiry_strayUnderPressure run] at counted
  cases counted

end Sys2Proof.Machine
end

