-- ==== Sys2Proof/Proofs/BoundaryControls.lean ====
section
/-! The controls of ports, namespaces, the power state, the freeze of the counters and the field test at a boundary (O32). -/

namespace Sys2Proof.Machine

section
variable (s : State) (port : Option Port)

/-! ### Each control is carried out by its chapter (14 R356) -/

theorem State.runControl_port (x : Port) (sub v : Nat) : s.runControl ⟨port, 0x1110 + x.val, sub, v⟩
    = if sub = 5 then s.portControl x v else if sub = 9 then s.ackWord x.val v else s := by
  unfold State.runControl
  dsimp only
  rw [if_neg (by simp [inRun]; omega), if_pos (by simp [inRun]; omega), Nat.add_sub_cancel_left, Fin.ofNat_val_eq_self]

theorem State.runControl_unfreeze (x : Port) (sub v : Nat) :
    s.runControl ⟨port, 0x1420 + x.val, sub, v⟩ = s.unfreeze x.val v := by
  unfold State.runControl
  dsimp only
  rw [if_neg (by simp [inRun]; omega), if_neg (by simp [inRun]; omega), if_pos (by simp [inRun]; omega), Nat.add_sub_cancel_left]

theorem State.runControl_space (n : NsId) (sub v : Nat) : s.runControl ⟨port, 0x4100 + n.val, sub, v⟩
    = if v = 1 then s.createSpace n.val else s.deleteSpace n.val := by
  have low : n.val < 64 := n.isLt
  unfold State.runControl
  dsimp only
  rw [if_neg (by simp [inRun]; omega), if_neg (by simp [inRun]; omega), if_neg (by simp [inRun]; omega),
    if_pos (by simp [inRun]; omega), Nat.add_sub_cancel_left]

theorem State.runControl_power (sub v : Nat) : s.runControl ⟨port, 0x7000, sub, v⟩ = s.stateRequest v := by
  simp [State.runControl, inRun]

theorem State.runControl_freeze (sub v : Nat) : s.runControl ⟨port, 0x9001, sub, v⟩ = s.armFreeze := by
  simp [State.runControl, inRun]

theorem State.runControl_test (sub v : Nat) : s.runControl ⟨port, 0x9050, sub, v⟩
    = if sub = 1 then s.testHold v else if s.testAllowed port v then s.startTest v else s := by
  simp [State.runControl, inRun]

/-! ### A port's controls (13 R335, R343, R344, R347; 15 R396) -/

section
variable (x : Port)

theorem State.port_ackWord (v : Nat) : (s.ackWord x.val v).port x.val
    = { s.port x.val with word := BitVec.ofNat 16 (clearWord (s.port x.val).word.toNat v) } := State.port_setPort_same ..

theorem State.port_unfreeze (v : Nat) : (s.unfreeze x.val v).port x.val = { s.port x.val with
    freeze := (s.port x.val).freeze &&& ~~~ (BitVec.ofNat 10 v)
    freezeAt := (s.port x.val).freezeAt.dropIf (fun i => bitOf v i) } := State.port_setPort_same ..

theorem State.life_leaveUp : ((s.leaveUp x).port x.val).life = (s.port x.val).life := by
  rw [State.leaveUp_port s x x.isLt]

theorem State.life_linkDown : ((s.linkDown x).port x.val).life = .down := by
  rw [State.linkDown, State.port_raise, State.port_setPort_same]
  rfl

/-- A port that no module is behind is disabled; one whose training has failed goes DOWN. -/
theorem State.life_disable (free : (s.port x.val).node = 0) (enabled : (s.port x.val).life ≠ .disabled) :
    ((s.portControl x 2).port x.val).life = if (s.port x.val).life = .trainFailed then .down else .disabled := by
  have flushed : s.portControl x 2 = (s.setPort x.val
      ((s.port x.val).flush (if (s.port x.val).life = .trainFailed then .down else .disabled))).leaveUp x :=
    if_neg (not_or.mpr ⟨not_not.mpr free, enabled⟩)
  rw [flushed, State.life_leaveUp, State.port_setPort_same]
  rfl

theorem State.port_enable (disabled : (s.port x.val).life = .disabled) :
    (s.portControl x 3).port x.val = { s.port x.val with life := .down } := by
  rw [show s.portControl x 3 = s.setPort x.val { s.port x.val with life := .down } from if_pos disabled, State.port_setPort_same]

/-- A port that retrains, before the retrains of the last second are counted. -/
def State.beginRetrain (s : State) (x : Port) : State :=
  ((s.setPort x.val { s.port x.val with
    life := .retraining, retrains := s.clock.now :: s.lateRetrains (s.port x.val) }).bumpSat (0x1110 + x.val) 0x10 1).leaveUp x

theorem State.retrain_of_runs (runs : (s.port x.val).runs = true) : s.retrain x
    = if 2 ≤ (s.lateRetrains (s.port x.val)).length then (s.beginRetrain x).linkDown x else s.beginRetrain x := if_pos runs

theorem State.life_retrain (up : (s.port x.val).life = .up) : ((s.retrain x).port x.val).life
    = if (s.lateRetrains (s.port x.val)).length < 2 then .retraining else .down := by
  rw [State.retrain_of_runs s x (by simp [PortSt.runs, up])]
  by_cases third : 2 ≤ (s.lateRetrains (s.port x.val)).length
  · rw [if_pos third, if_neg (by omega), State.life_linkDown]
  · rw [if_neg third, if_pos (by omega), State.beginRetrain, State.life_leaveUp, State.port_bumpSat, State.port_setPort_same]

end

/-! ### Namespaces (08 R210, R229) -/

section
variable (n : NsId)

theorem objBits_space (n : NsId) : objBits (0x4100 + n.val) 7 = 8 ∧ objBits (0x4100 + n.val) 5 = 64 := by
  revert n
  decide

/-- The checks of a create are numbered up to 6 (08 R229). -/
theorem State.createFault_small (n : Nat) : s.createFault n < 256 := by
  unfold State.createFault
  (repeat' split) <;> decide

theorem State.obj_createResult {v : Nat} (small : v < 256) : (s.createResult n.val v).obj (0x4100 + n.val) 7 = v := by
  rw [State.createResult, State.obj_put, if_pos rfl, (objBits_space n).1]
  omega

theorem State.createSpace_of_fault (fault : s.createFault n.val ≠ 0) :
    s.createSpace n.val = s.createResult n.val (s.createFault n.val) := if_pos fault

theorem State.createSpace_of_good (good : s.createFault n.val = 0) : s.createSpace n.val
    = (((s.setSpace n.val { Namespace.none with life := .active }).drawKey n.val).put (0x4100 + n.val) 5 s.tick).createResult
        n.val 1 := if_neg (not_not.mpr good)

theorem State.creates (good : s.createFault n.val = 0) :
    (s.createSpace n.val).space n.val = { Namespace.none with life := .active }
      ∧ (s.createSpace n.val).obj (0x4100 + n.val) 7 = 1 ∧ (s.createSpace n.val).obj (0x4100 + n.val) 5 = s.tick
      ∧ Changes [.dict, .media, .security, .free] s (s.createSpace n.val) := by
  have tick_small : s.tick < 2 ^ 64 := s.clock.epoch.isLt
  refine ⟨?_, ?_, ?_, changes_of_keep (by simp)⟩ <;> rw [State.createSpace_of_good s n good]
  · exact State.space_setSpace_same ..
  · exact State.obj_createResult _ n (by decide)
  · rw [State.createResult, State.obj_put, if_neg (by rw [objKey_inj (by decide) (by decide)]; omega), State.obj_put, if_pos rfl,
      (objBits_space n).2, Nat.mod_mod, Nat.mod_eq_of_lt tick_small]

/-- The commands that name a namespace, or hold a snapshot of it, end. -/
def State.endUsers (s : State) (n : Nat) : State :=
  s.each (s.taken.filter (fun k => s.usesSpace k n)) (fun s k => (s.dropOutputs k).postLater k stDenied (s.tset k).progress 0)

theorem State.deleteSpace_of_active (active : (s.space n.val).life = .active) : s.deleteSpace n.val
    = ((s.endUsers n.val).setMedia ((s.endUsers n.val).media.forget n.val)).setSecurity { (s.endUsers n.val).security with
        keys := (s.endUsers n.val).security.keys.erase n.val, cleared := n.val :: (s.endUsers n.val).security.cleared } :=
  if_neg (by rw [active]; decide)

theorem Tab.has_erase_same {α : Type} (t : Tab α) (k : Nat) : (t.erase k).has k = false := by
  induction t with
  | nil => rfl
  | cons e t ih =>
    obtain ⟨i, w⟩ := e
    rw [Tab.erase] at ih ⊢
    by_cases here : i = k <;> simpa [Tab.has, here] using ih

theorem State.deletes (active : (s.space n.val).life = .active) :
    ((s.deleteSpace n.val).space n.val).life = .absent
      ∧ (∀ c, c ∈ (s.deleteSpace n.val).media.pending → c.ns ≠ n.val)
      ∧ (s.deleteSpace n.val).security.keys.has n.val = false
      ∧ Changes [.fabric, .dict, .vtimes, .sets, .stagings, .media, .security, .free] s (s.deleteSpace n.val) := by
  refine ⟨?_, ?_, ?_, changes_of_keep (by simp)⟩ <;> rw [State.deleteSpace_of_active s n active]
  · show (((s.endUsers n.val).media.spaces.erase n.val).get Namespace.none n.val).life = .absent
    rw [Tab.get_erase, if_pos rfl]
    rfl
  · intro c listed
    exact of_decide_eq_true (List.mem_filter.mp listed).2
  · exact Tab.has_erase_same ..

end

/-! ### Requests of a power state that are refused (17 R420) -/

theorem State.obj_requestResult {v : Nat} (small : v < 256) : (s.requestResult v).obj 0x7000 3 = v := by
  rw [State.requestResult, State.obj_put, if_pos rfl, show objBits 0x7000 3 = 8 from rfl]
  omega

theorem State.stateRequest_of_large {v : Nat} (large : 5 < v) : s.stateRequest v = s.requestResult 1 := if_pos large

theorem State.stateRequest_of_blocked {v : Nat} (state : v ≤ 5) (blocked : s.stateBlocked v = true) :
    s.stateRequest v = s.requestResult 2 := (if_neg (by omega)).trans (if_pos blocked)

/-! ### Gating (17 R422) -/

/-- The power objects hold what they held, but for what sub-index 0x13 may hold. -/
def State.SamePowerObjs (s t : State) : Prop := ∀ j, j < 256 → j ≠ 0x13 → t.obj 0x7000 j = s.obj 0x7000 j

theorem State.SamePowerObjs.refl : s.SamePowerObjs s := fun _ _ _ => rfl

theorem State.SamePowerObjs.trans {s t u : State} (h : s.SamePowerObjs t) (h' : t.SamePowerObjs u) : s.SamePowerObjs u :=
  fun j small other => (h' j small other).trans (h j small other)

theorem State.SamePowerObjs.each {α : Type} {f : State → α → State} (h : ∀ (s : State) a, s.SamePowerObjs (f s a)) (l : List α)
    (s : State) : s.SamePowerObjs (s.each l f) := State.each_rel .refl (fun _ _ _ => .trans) f h l s

theorem State.samePowerObjs_of_keep {W : List Place} {t : State} (h : keep W t = keep W s) (dict : .dict ∉ W)
    (power : .power ∉ W) : s.SamePowerObjs t := by
  have same := changes_of_keep h
  have dicts : t.dict = s.dict := same .dict dict dict
  have powers : t.power = s.power := same .power power power
  exact fun j _ _ => State.obj_congr (by rw [dicts]) (by rw [powers]) _ _

theorem State.samePowerObjs_loadReport (p n kind result step : Nat) : s.SamePowerObjs (s.loadReport p n kind result step) := by
  intro j small other
  rw [State.loadReport, State.obj_put, if_neg fun same => other ((objKey_inj small (by decide)).mp same).2]
  rfl

theorem State.samePowerObjs_emptyKind (p n : Nat) (k : Kind) : s.SamePowerObjs (s.emptyKind p n k) := by
  unfold State.emptyKind
  dsimp only
  generalize (s.ctx p n).updBanks [k] _ = c
  have emptied : s.SamePowerObjs (s.setCtx p n c) := s.samePowerObjs_of_keep (W := [.ctxs]) (by simp) (by simp) (by simp)
  have reported := State.samePowerObjs_loadReport (s.setCtx p n c) p n (kindNo k) ldGated 0
  have ended := State.samePowerObjs_of_keep (W := [.ctxs, .ports, .sets, .stagings]) _
    (State.keep_endLoad ((s.setCtx p n c).loadReport p n (kindNo k) ldGated 0) p n k stLoadFailed ldGated 0
      (by simp) (by simp) (by simp) (by simp)) (by simp) (by simp)
  split
  · exact (emptied.trans reported).trans ended
  · exact emptied

/-- The kinds that the gating of a context's squares empties. -/
def State.emptyKinds (p : Nat) (s : State) (n : Nat) : State :=
  if (s.ctx p n).life = .loaded then (s.emptyKind p n .scales).emptyKind p n .sft else s

/-- The stores of the squares of a mask are emptied, and their counters restart. -/
def State.gateDies (s : State) (mask : Nat) : State :=
  (s.each (bitsSet mask 48) (fun s d => s.setDie d Die.empty)).restartCounters mask

theorem State.gate_eq (mask : Nat) : s.gate mask
    = (s.gateDies mask).each ((List.range 8).filter (fun p => meets ((s.gateDies mask).part p).defn.squares mask)) (fun s p =>
        s.each (List.range 16) (State.emptyKinds p)) := by
  unfold State.gate State.gateDies State.emptyKinds
  rfl

theorem State.samePowerObjs_emptyKinds (p n : Nat) : s.SamePowerObjs (State.emptyKinds p s n) := by
  unfold State.emptyKinds
  split
  · exact (s.samePowerObjs_emptyKind p n .scales).trans (State.samePowerObjs_emptyKind _ p n .sft)
  · exact .refl s

theorem State.samePowerObjs_gate (mask : Nat) : s.SamePowerObjs (s.gate mask) := by
  rw [State.gate_eq]
  have emptied : s.SamePowerObjs (s.gateDies mask) :=
    s.samePowerObjs_of_keep (W := [.dies, .fabric, .observe, .free]) (by simp [State.gateDies]) (by simp) (by simp)
  exact emptied.trans (.each (fun t p => .each (fun u n => u.samePowerObjs_emptyKinds p n) _ t) _ _)

theorem State.power_gate (mask : Nat) : (s.gate mask).power = s.power :=
  changes_of_keep (W := [.free, .ctxs, .dict, .dies, .fabric, .observe, .ports, .sets, .stagings]) (by simp) .power (by simp) (by simp)

theorem State.die_each_empty {l : List Nat} {d : Nat} (listed : d ∈ l ∨ s.die d = Die.empty) :
    (s.each l (fun s d => s.setDie d Die.empty)).die d = Die.empty := by
  induction l generalizing s with
  | nil => exact listed.resolve_left List.not_mem_nil
  | cons a l ih =>
    refine ih (s.setDie a Die.empty) ?_
    rw [State.die_setDie]
    by_cases here : d = a
    · exact .inr (if_pos here)
    · simpa [here] using listed

theorem State.die_gate {mask d : Nat} (gated : d ∈ bitsSet mask 48) : (s.gate mask).die d = Die.empty := by
  have kinds : keep [.ctxs, .dict, .ports, .sets, .stagings] (s.gate mask)
      = keep [.ctxs, .dict, .ports, .sets, .stagings] (s.gateDies mask) := by
    rw [State.gate_eq]
    refine keep_each _ _ _ fun t p => keep_each _ _ _ fun t n => ?_
    unfold State.emptyKinds
    split <;> simp
  have restarted : keep [.observe, .free] (s.gateDies mask)
      = keep [.observe, .free] (s.each (bitsSet mask 48) (fun s d => s.setDie d Die.empty)) := by simp [State.gateDies]
  have same : (s.gate mask).fabric = (s.each (bitsSet mask 48) (fun s d => s.setDie d Die.empty)).fabric :=
    (changes_of_keep kinds .fabric (by simp) (by simp)).trans (changes_of_keep restarted .fabric (by simp) (by simp))
  have dies : (s.gate mask).die d = (s.each (bitsSet mask 48) (fun s d => s.setDie d Die.empty)).die d := by
    unfold State.die
    rw [same]
  exact dies.trans (s.die_each_empty (.inl gated))

/-! ### A state is entered (17 R420) -/

theorem gatedBy_lt (v : Nat) : gatedBy v < 2 ^ 48 := by
  unfold gatedBy
  (repeat' split) <;> decide

/-- The squares that a state gates and the one before it did not are gated now. -/
theorem mem_newlyGated {v w d : Nat} (square : d < 48) (gates : bitOf (gatedBy v) d = true)
    (ungated : bitOf (gatedBy w) d = false) : d ∈ bitsSet (Nat.land (gatedBy v) (0xFFFFFFFFFFFF - gatedBy w)) 48 := by
  have complement : 0xFFFFFFFFFFFF - gatedBy w = 2 ^ 48 - (gatedBy w + 1) := by omega
  rw [bitOf_eq_testBit] at gates ungated
  rw [mem_bitsSet, bitOf_eq_testBit, complement]
  refine ⟨square, (Nat.testBit_land ..).trans ?_⟩
  rw [Nat.testBit_two_pow_sub_succ (gatedBy_lt w), gates, ungated, decide_eq_true square]
  rfl

/-- The request's state governs: the squares that it gates are gated, and it tells its guaranteed clock. -/
theorem State.enters (v : Nat) :
    (s.enterState v).power.state = v ∧ (s.enterState v).power.target = s.power.target
      ∧ (s.enterState v).obj 0x7000 3 = s.obj 0x7000 3 ∧ (s.enterState v).obj 0x7000 5 = guaranteed v
      ∧ ∀ d, d < 48 → bitOf (gatedBy v) d = true → bitOf (gatedBy s.power.state) d = false → (s.enterState v).die d = Die.empty := by
  let u := s.gate (Nat.land (gatedBy v) (0xFFFFFFFFFFFF - gatedBy s.power.state))
  let w := u.updPower (fun p => { p with
    ungating := Nat.land (Nat.lor p.ungating (gatedBy s.power.state)) (0xFFFFFFFFFFFF - gatedBy v), state := v })
  have enter : s.enterState v = w.put 0x7000 5 (guaranteed v) := rfl
  have gated : u.power = s.power := State.power_gate ..
  have small : guaranteed v < 2 ^ 16 := by
    unfold guaranteed
    (repeat' split) <;> decide
  rw [enter]
  refine ⟨rfl, ?_, ?_, ?_, fun d square gates ungated => ?_⟩
  · show u.power.target = _
    rw [gated]
  · rw [State.obj_put, if_neg (by rw [objKey_inj (by decide) (by decide)]; omega)]
    exact (State.obj_congr rfl rfl 0x7000 3).trans (s.samePowerObjs_gate _ 3 (by decide) (by decide))
  · rw [State.obj_put, if_pos rfl, show objBits 0x7000 5 = 16 from rfl]
    omega
  · exact State.die_gate s (mem_newlyGated square gates ungated)

/-- The state in which a request to one of P0 to P3 is taken up: its target is set, the request is under way, and the steps down of the
clock on the way to P3 are counted. -/
def State.taking (s : State) (v : Nat) : State :=
  let u := (s.updPower (fun p => { p with target := some v })).requestResult 4
  if v ≤ 2 then u else u.passSteps

theorem State.stateRequest_of_free {v : Nat} (state : v ≤ 3) (free : s.stateBlocked v = false) (idle : s.power.target = none)
    (clean : s.media.sanitize = none) (untested : s.hold = 0) (change : v ≠ s.power.state) (awake : s.power.state ≤ 3) :
    s.stateRequest v = (s.taking v).enterState v := by
  unfold State.stateRequest State.taking
  dsimp only
  rw [if_neg (by omega), if_neg (by simp [free]), if_neg (by simp [idle, clean, untested]), if_neg change,
    if_neg (by show ¬ 4 ≤ s.power.state; omega)]
  by_cases low : v ≤ 2
  · rw [if_pos low, if_pos low]
  · obtain rfl : v = 3 := by omega
    rfl

theorem State.taking_eq (v : Nat) : (s.taking v).power = { s.power with target := some v } ∧ (s.taking v).obj 0x7000 3 = 4 := by
  have result : ((s.updPower (fun p => { p with target := some v })).requestResult 4).obj 0x7000 3 = 4 :=
    State.obj_requestResult _ (by decide)
  unfold State.taking State.passSteps
  dsimp only
  (repeat' split)
  · exact ⟨rfl, result⟩
  · exact ⟨rfl, by rw [State.obj_bump_ne _ _ (by rw [Ne, objKey_inj (by decide) (by decide)]; omega), result]⟩
  · exact ⟨rfl, result⟩

/-! ### The field test (20 R492, R495) -/

theorem State.testHold_enters (free : s.hold = 0) : s.testHold 1 = s.setHold (if s.errors.device = 2 then 2 else 1) := if_pos free

theorem State.testHold_leaves (held : s.hold = 1 ∨ s.hold = 2) : s.testHold 0 = s.abandonRun.setHold 3 := if_pos held

theorem State.run_abandonRun : s.abandonRun.observe.run = none := by
  unfold State.abandonRun
  split
  · assumption
  · rfl

theorem State.obj_startTest (v : Nat) : bits ((s.startTest v).obj 0x9050 4) 15 14 = 1 := by
  rw [State.startTest, State.obj_put, if_pos rfl, show objBits 0x9050 4 = 64 from rfl]
  simp only [field, bits]
  omega

end

/-- Settles O32, one clause after another by the action that the control runs. -/
theorem boundaryControlsAct : Obligations.BoundaryControlsAct := by
  unfold Obligations.BoundaryControlsAct
  intro s x n port v q run
  have word : run (0x1110 + x.val) 9 v = s.ackWord x.val v := s.runControl_port port x 9 v
  have freeze : run (0x1420 + x.val) 3 v = s.unfreeze x.val v := s.runControl_unfreeze port x 3 v
  have control (w : Nat) : run (0x1110 + x.val) 5 w = s.portControl x w := s.runControl_port port x 5 w
  have create : run (0x4100 + n.val) 3 1 = s.createSpace n.val := s.runControl_space port n 3 1
  have delete : run (0x4100 + n.val) 3 2 = s.deleteSpace n.val := s.runControl_space port n 3 2
  have request : run 0x7000 2 v = s.stateRequest v := s.runControl_power port 2 v
  have arm : run 0x9001 1 3 = s.armFreeze := s.runControl_freeze port 1 3
  have hold (w : Nat) : run 0x9050 1 w = s.testHold w := s.runControl_test port 1 w
  have test : run 0x9050 3 v = if s.testAllowed port v then s.startTest v else s := s.runControl_test port 3 v
  refine ⟨?_, ?_, fun free enabled => ?_, fun rests => ?_, fun disabled => ?_, fun up => ?_, fun fault => ?_, fun good => ?_,
    fun active => ?_, fun absent => ?_, fun large => ?_, fun state blocked => ?_,
    fun state free idle clean untested change awake => ?_, ?_, fun free => ?_, fun held => ?_, fun allowed => ?_, fun denied => ?_⟩
  · rw [word]
    exact ⟨State.port_ackWord s x v, changes_of_keep (by simp)⟩
  · rw [freeze]
    exact ⟨State.port_unfreeze s x v, changes_of_keep (by simp)⟩
  · rw [control]
    exact State.life_disable s x free enabled
  · exact (control 2).trans (if_pos rests)
  · rw [control]
    exact State.port_enable s x disabled
  · rw [control]
    exact State.life_retrain s x up
  · rw [create, State.createSpace_of_fault s n fault]
    exact ⟨State.obj_createResult s n (State.createFault_small ..), changes_of_keep (by simp)⟩
  · rw [create]
    exact State.creates s n good
  · rw [delete]
    exact State.deletes s n active
  · exact delete.trans (if_pos absent)
  · rw [request, State.stateRequest_of_large s large]
    exact ⟨State.obj_requestResult s (by decide), changes_of_keep (by simp)⟩
  · rw [request, State.stateRequest_of_blocked s state blocked]
    exact ⟨State.obj_requestResult s (by decide), changes_of_keep (by simp)⟩
  · rw [request, State.stateRequest_of_free s state free idle clean untested change awake]
    obtain ⟨power, result⟩ := State.taking_eq s v
    obtain ⟨governs, target, under, clock, dies⟩ := State.enters (s.taking v) v
    rw [power] at target dies
    exact ⟨governs, target, under.trans result, clock, dies⟩
  · rw [arm]
    exact ⟨rfl, changes_of_keep (by simp)⟩
  · rw [hold, State.testHold_enters s free]
  · rw [hold, State.testHold_leaves s held]
    exact ⟨rfl, State.run_abandonRun s, changes_of_keep (by simp)⟩
  · rw [test, if_pos allowed]
    exact ⟨rfl, State.obj_startTest s v, onlyObjs_put .., changes_of_keep (by simp)⟩
  · exact test.trans (if_neg (by simp [denied]))

end Sys2Proof.Machine
end

