-- ==== Sys2Proof/Proofs/EraseCounts.lean ====
section
/-! The program/erase count of a block whose erase fails: where every block has been erased besides, the table of counts changes (O45). -/

namespace Sys2Proof.Machine

/-- A block that becomes RETIRED keeps its whole count, in the table. -/
theorem Media.get_keepCount (m : Media) (block : Nat) : (m.keepCount block).get 0 block = m.peBase + m.pe.get 0 block := by
  unfold Media.keepCount
  split
  next zero => omega
  next => exact Tab.get_set_same ..

/-- A block becomes RETIRED with its whole count, and a sanitize goes on. -/
theorem State.counts_retire {s : State} {block : Nat} (working : block ∉ s.media.retired) (sub : Nat) :
    (s.retire block sub).media.pe = s.media.keepCount block ∧ (s.retire block sub).media.sanitize = s.media.sanitize := by
  rw [State.retire, if_neg working]
  extract_lets m v _ w
  have media : (if sub = 5 then w.stages else w.spend).media = w.media := by
    split
    · exact w.media_stages
    · exact State.media_stages _
  rw [media]
  exact ⟨rfl, rfl⟩

theorem State.endSanitize_of_none {s : State} (none : s.media.sanitize = none) : s.endSanitize = s := by
  rw [State.endSanitize, none]

/-- An issued erase that fails, outside a sanitize, makes its block RETIRED. -/
theorem exec_eraseComplete_failed {s : State} {block : Nat} (none : s.media.sanitize = none) (working : block ∉ s.media.retired)
    (issued : ∃ e, e ∈ s.media.erasing ∧ e.block = block ∧ e.issued = true) :
    exec (.eraseComplete block false) s = .next (s.retire block 6) := by
  have some : s.media.erasing.any (fun e => decide (e.block = block) && e.issued) = true := by
    simpa using issued
  calc exec (.eraseComplete block false) s = .next (s.retire block 6).endSanitize := if_pos some
    _ = .next (s.retire block 6) := by rw [State.endSanitize_of_none ((State.counts_retire working 6).2.trans none)]

/-- A module in the state after reset whose every block was erased once by a RETURN erasure (18 R448), with an erase of block 3
issued. -/
def erasedOnce : State := { State.reset with
  media := { Media.shipped with peBase := 1, erasing := [⟨3, true, false, false, false, 0⟩] } }

/-- Refutes O45: the clause about the end of an erase keeps the table of counts for whatever end. A block of an erase that fails
is RETIRED with its whole count in the table, so the erases that every block has had besides join its entry there: here the
entry of block 3 goes from 0 to 1. -/
theorem not_eraseCountsAdvance : ¬ Obligations.EraseCountsAdvance := by
  unfold Obligations.EraseCountsAdvance
  intro counts
  obtain ⟨-, -, ⟨t, run, kept, -⟩, -⟩ := counts erasedOnce 3 false 0
  have working : 3 ∉ erasedOnce.media.retired := List.not_mem_nil
  have failed := exec_eraseComplete_failed rfl working ⟨_, List.mem_singleton_self _, rfl, rfl⟩
  obtain rfl : erasedOnce.retire 3 6 = t := Host.Outcome.next.inj (failed.symm.trans run)
  have entry : erasedOnce.media.pe.get 0 3 = erasedOnce.media.peBase + erasedOnce.media.pe.get 0 3 := by
    rw [← Media.get_keepCount, ← (State.counts_retire working 6).1, kept]
  exact absurd entry (by decide)

end Sys2Proof.Machine
end

