-- ==== Sys2Proof/Proofs/AcceptedBlocks.lean ====
section
/-! The blocks that work on an index changed, accepted as writes (08 R212), and the numeric objects that the reading of flash changes. -/

namespace Sys2Proof.Machine

/-! ### Pieces that are accepted -/

section
variable (m : Media)

theorem Media.pending_closeBand (b : Band) (now : Nat) : (m.closeBand b now).pending = m.pending := by
  unfold Media.closeBand
  dsimp only
  split <;> rfl

theorem Media.pending_foldl {α : Type} {f : Media → α → Media} (each : ∀ (m : Media) a, (f m a).pending = m.pending) (l : List α) :
    (l.foldl f m).pending = m.pending := by
  induction l generalizing m with
  | nil => rfl
  | cons a l ih => exact (ih (f m a)).trans (each m a)

theorem Media.pending_closeFull (now : Nat) : (m.closeFull now).pending = m.pending := by
  refine m.pending_foldl (fun m b => ?_) _
  split
  · rfl
  · exact m.pending_closeBand b now

theorem Media.pending_ready (now : Nat) : (m.ready now).pending = m.pending := by
  unfold Media.ready
  split <;> rfl

theorem Media.pending_placeUnits (now fuel draw count : Nat) : (m.placeUnits now fuel draw count).1.pending = m.pending := by
  induction fuel generalizing m draw count with
  | zero => rfl
  | succ fuel ih =>
    unfold Media.placeUnits
    dsimp only
    split
    · rfl
    · split
      · exact m.pending_ready now
      · exact (ih _ _ _).trans (m.pending_ready now)

theorem Media.pending_place (now count : Nat) : (m.place now count).1.pending = m.pending :=
  ((m.closeFull now).pending_placeUnits now 65 (m.groups * 64) count).trans (m.pending_closeFull now)

theorem Media.pending_suspendFor (us : List (Nat × BitVec 37)) : (m.suspendFor us).pending = m.pending :=
  m.pending_foldl (f := fun m (u : Nat × BitVec 37) => m.suspend (unitBlock u.2 / 4096)) (fun _ _ => rfl) us

end

/-- A change that writes one block of a namespace. -/
def Change.Writes (ns : Nat) (b : Nat × Mem) (e : Change) : Prop :=
  e.kind = .write ∧ e.ns = ns ∧ e.start = b.1 ∧ e.len = 1 ∧ e.data = b.2

section
variable (s : State) (ns : Nat) (payer : Option Nat)

/-- A piece that is accepted waits for the boundary behind the changes accepted before it. -/
theorem State.pending_acceptPiece (start n : Nat) (data values : Mem) :
    ∃ us, (s.acceptPiece ns start n data values payer).media.pending
      = s.media.pending ++ [⟨.write, ns, start, n, data, values, s.media.groups, us, s.tick⟩] :=
  ⟨(s.media.place s.clock.now n).2, congrArg (· ++ _) ((Media.pending_suspendFor ..).trans (Media.pending_place ..))⟩

/-- The blocks wait behind the changes accepted before them, each written by a change of its own. -/
theorem State.pending_acceptBlocks (l : Tab Mem) :
    ∃ w, (s.acceptBlocks payer ns l).media.pending = s.media.pending ++ w ∧ ∀ b ∈ l, ∃ e ∈ w, e.Writes ns b := by
  induction l generalizing s with
  | nil => exact ⟨[], (List.append_nil _).symm, by simp⟩
  | cons b l ih =>
    obtain ⟨us, first⟩ := s.pending_acceptPiece ns payer b.1 1 b.2 (s.valuesOf ns b.1 1 b.2)
    obtain ⟨w, rest, writes⟩ := ih (s.acceptPiece ns b.1 1 b.2 (s.valuesOf ns b.1 1 b.2) payer)
    rw [first, List.append_assoc] at rest
    refine ⟨_, rest, List.forall_mem_cons.mpr ⟨⟨_, List.mem_cons_self, rfl, rfl, rfl, rfl, rfl⟩, fun c mem => ?_⟩⟩
    obtain ⟨e, later, written⟩ := writes c mem
    exact ⟨e, List.mem_cons_of_mem _ later, written⟩

theorem State.changes_acceptBlocks (l : Tab Mem) : Changes [.media] s (s.acceptBlocks payer ns l) :=
  changes_of_keep (by simp [State.acceptBlocks])

theorem Tab.mem_of_has {α : Type} {t : Tab α} (d : α) {k : Nat} (listed : t.has k = true) : (k, t.get d k) ∈ t := by
  induction t with
  | nil => cases listed
  | cons e t ih =>
    obtain ⟨i, v⟩ := e
    by_cases here : i = k
    · simp [Tab.get, here]
    · simp only [Tab.has, Tab.get, if_neg here] at listed ⊢
      exact List.mem_cons_of_mem _ (ih listed)

/-- Every block that the work changed is written, as the work left it. -/
theorem State.writes_acceptBlocks {l : Tab Mem} {b : Nat} (changed : l.has b = true) :
    ∃ e, e ∈ (s.acceptBlocks payer ns l).media.pending ∧ e.Writes ns (b, l.get [] b) := by
  obtain ⟨w, pending, writes⟩ := s.pending_acceptBlocks ns payer l
  obtain ⟨e, mem, written⟩ := writes _ (Tab.mem_of_has [] changed)
  exact ⟨e, pending ▸ List.mem_append_right _ mem, written⟩

end

/-! ### Objects that the reading of flash changes (08 R204, R219) -/

/-- The hits and misses of the segment cache, the sets tried again, and how many reads tried so many sets. -/
def readObjs : List (Nat × Nat) := (0x4010, 2) :: (0x4010, 3) :: (0x4040, 3) :: (List.range 17).map (0x4070, ·)

theorem depthOf_le {primary v : Nat} (set : v < 16) : depthOf primary v ≤ 16 := by
  unfold depthOf
  split <;> omega

theorem mem_readObjs_of_depth {n : Nat} (depth : n ≤ 16) : (0x4070, n) ∈ readObjs := by
  simp [readObjs, Nat.lt_succ_of_le depth]

section
variable {s t : State}

theorem OnlyObjs.bump {l : List (Nat × Nat)} (h : OnlyObjs l s t) {i j : Nat} (n : Nat) (listed : (i, j) ∈ l) :
    OnlyObjs l s (t.bump i j n) :=
  (h.trans (onlyObjs_bump t i j n)).mono (by simpa using listed)

theorem OnlyObjs.foldl_fst {α β : Type} {l : List (Nat × Nat)} {f : State × β → α → State × β}
    (each : ∀ (a : State × β) (x : α), OnlyObjs l a.1 (f a x).1) (xs : List α) (a : State × β) : OnlyObjs l a.1 (xs.foldl f a).1 := by
  induction xs generalizing a with
  | nil => exact .refl l _
  | cons x xs ih => exact ((each a x).trans (ih (f a x))).mono (by simp)

variable (s)

theorem State.readObjs_readBlockAt (b : Option Band) (k : Nat) {f : Nat → Nat} (set : ∀ n, f n < 16) :
    OnlyObjs readObjs s (s.readBlockAt b k f).1 := by
  unfold State.readBlockAt
  split
  next => exact .of_eq _ rfl rfl
  next b =>
    have touched : OnlyObjs readObjs s (s.touchBlock k (depthOf (primarySet (s.readBias b k) b.offset)
      (f (primarySet (s.readBias b k) b.offset)))).draw := .of_eq _ rfl rfl
    exact (touched.bump 1 (mem_readObjs_of_depth (depthOf_le (set _)))).bump _ (by decide)

theorem State.decodes_lt (n : Nat) : s.decodes n < 16 := (Config.decodeSet s.free).isLt

theorem State.readObjs_lookup (key : Nat) : OnlyObjs readObjs s (s.lookup key).1 := by
  unfold State.lookup State.missed
  split_ifs
  · have hit (m : Media) : OnlyObjs readObjs s (s.setMedia m) := .of_eq _ rfl rfl
    exact (hit _).bump 1 (by decide)
  · exact (s.readObjs_readBlockAt _ _ s.decodes_lt).bump (t := State.draw (State.setMedia _ _)) 1 (by decide)
  · exact .refl _ s

theorem State.readObjs_readVer (ns lba : Nat) (v : Ver) : OnlyObjs readObjs s (s.readVer ns lba v).1 := by
  unfold State.readVer
  split
  · exact .of_eq _ rfl rfl
  · exact s.readObjs_readBlockAt _ _ s.decodes_lt

theorem State.readObjs_flashSlots (ns lo n stamp : Nat) : OnlyObjs readObjs s (s.flashSlots ns lo n stamp).1 := by
  have looked : OnlyObjs readObjs s (s.lookups ns lo n).1 := by
    unfold State.lookups
    refine OnlyObjs.foldl_fst (fun a r => ?_) _ (s, 0)
    exact a.1.readObjs_lookup _
  have counted (u : State) : OnlyObjs readObjs u (u.countSlots ns lo n stamp).1 := by
    unfold State.countSlots
    refine OnlyObjs.foldl_fst (fun a b => ?_) _ (u, 0)
    split
    · split
      · exact a.1.readObjs_readVer ns b.1 _
      · exact .refl _ _
    · exact .refl _ _
  exact (looked.trans (counted _)).mono (by simp)

/-- Work on an index that reads blocks counts what it reads there alone. -/
theorem State.readObjs_indexReads (ns stamp : Nat) (l : List Nat) : OnlyObjs readObjs s (s.indexReads ns stamp l).1 := by
  unfold State.indexReads
  refine OnlyObjs.foldl_fst (fun a r => ?_) _ (s, 0)
  exact a.1.readObjs_flashSlots ns r.1 r.2 stamp

end

end Sys2Proof.Machine
end

