-- ==== Sys2Proof/Proofs/IndexUpdates.lean ====
section
/-! UPDATE_ACCEPT, TOMBSTONE_REPLAY and GRAPH_REPAIR_PASS (O42). -/

namespace Sys2Proof.Machine

/-! ### The parts of an update (11 R293 to R295) -/

/-- An update that is applied has its blocks accepted as writes, and what it read charged to its partition. -/
def State.updateWritten (s : State) (p ns : Nat) (v : IndexWork) (l : List Nat) : State :=
  ((v.s.chargeIndex p ns s.tick l).request 4 p).acceptBlocks (some p) ns v.blocks

/-- An index with an update of these slots, to be published at the next boundary. -/
def Index.updated (ix : Index) (slots : List Nat) : Index :=
  { ix with touched := true, log := ix.log ++ slots.filter (fun i => decide (i ∉ ix.log)) }

theorem Index.mem_log_updated {ix : Index} {slots : List Nat} {i : Nat} (changed : i ∈ slots) : i ∈ (ix.updated slots).log := by
  by_cases before : i ∈ ix.log <;> simp [Index.updated, before, changed]

/-- A context whose shadow tombstone image is armed with an update of the index. -/
def Context.withUpdate (c : Context) (tomb : Banks) (group : Nat) (ix : Index) (slots : List Nat) : Context :=
  { c with tomb := { tomb with st := .armed, armGroup := group }, index := some (ix.updated slots) }

/-- The shadow image of an index in context `n` of partition `p` is armed with an update, and `free` slots are FREE then. -/
def State.updateArmed (u : State) (p n : Nat) (tomb : Banks) (ix : Index) (slots : List Nat) (free : Nat) : State :=
  let c := u.setCtx p n ((u.ctx p n).withUpdate tomb u.arms ix slots)
  ((c.setArms (u.arms + 1)).put (0x6090 + p) (n + 1) free).loadReport p n 4 0 0

section
variable (u : State) {p n : Nat} (tomb : Banks) (ix : Index) (slots : List Nat) (free : Nat)

theorem State.changes_updateArmed :
    Changes [.ctx (p * 16 + n), .dict, .arms] u (u.updateArmed p n tomb ix slots free) :=
  changes_of_keep (by simp [State.updateArmed])

theorem State.tset_updateArmed (k : Nat) : (u.updateArmed p n tomb ix slots free).tset k = u.tset k :=
  (u.changes_updateArmed tomb ix slots free).same (.tset k)

theorem State.ctx_updateArmed :
    (u.updateArmed p n tomb ix slots free).ctx p n = ((u.ctx p n).withUpdate tomb u.arms ix slots).report 4 0 0 := by
  refine (State.ctx_loadReport ..).trans (congrArg (fun c => Context.report c 4 0 0) ?_)
  exact State.ctx_setCtx_same ..

end

/-- An update ends well: its outcomes are its output, and its record is posted at the next boundary. -/
def State.updateDone (u : State) (k : Nat) (out : Bytes) (count : Nat) : State :=
  (u.output k (memOf out) out.length).postLater k stOk count 0

theorem State.tset_updateDone (u : State) (k : Nat) (out : Bytes) (count : Nat) : (u.updateDone k out count).tset k
    = { u.tset k with output := memOf out, outLen := out.length, due := some stOk, count := count, dueStep := 0 } := by
  rw [State.updateDone, State.tset_postLater, if_pos rfl, State.output, State.tset_setTset_same]

theorem State.changes_updateDone (u : State) (k : Nat) (out : Bytes) (count : Nat) : Changes [.tset k] u (u.updateDone k out count) :=
  changes_of_keep (by simp [State.updateDone])

theorem State.ctx_updateDone (u : State) (k : Nat) (out : Bytes) (count p n : Nat) : (u.updateDone k out count).ctx p n = u.ctx p n :=
  (u.changes_updateDone k out count).same (.ctx (p * 16 + n))

/-- The insert-area slots that work on an index has left FREE. -/
def IndexWork.freeSlots (v : IndexWork) (d : Descriptor) : Nat := v.countFree (d.nodes - d.farNodes) d.farNodes

/-- What an update of the index in context `n` of partition `p` gives, from what the applying of its records gave. -/
def State.updateApplied (s : State) (k p n : Nat) (ix : Index) (d : Descriptor) (v : IndexWork) (out : Bytes) (l : List Nat)
    (count : Nat) : State :=
  ((s.updateWritten p d.ns v l).updateArmed p n (s.ctx p n).tomb ix v.slots (v.freeSlots d)).updateDone k out count

/-! ### UPDATE_ACCEPT (11 R295, R297) -/

section
variable {s : State} {x : Port} {set : SetId} {w : TaskSet} {c : Context} {ix : Index}
  (w_eq : s.tset (setKey x set) = w) (c_eq : s.ctx w.partNo w.ctxNo = c) (attached : c.index = some ix)

section
include w_eq c_eq attached

/-- Neither READY nor armed, the shadow image takes no update. -/
theorem updateAccept_unready (unready : c.tomb.st ≠ .ready) (unarmed : c.tomb.st ≠ .armed) :
    exec (.updateAccept x set) s = .next s := by
  show execUpdateAccept x set s = _
  unfold execUpdateAccept
  simp only [w_eq, c_eq, attached]
  exact if_pos (by simp [unready, unarmed])

end

/-- An update has begun, the shadow image takes it, and none is ahead of it. -/
structure State.UpdateTurn (s : State) (k : Nat) (w : TaskSet) (c : Context) : Prop where
  runs : s.runsCmd k 0x34 = true
  update : w.searches 4 = true
  begun : w.begun = 1
  takes : c.tomb.st = .ready ∨ c.tomb.st = .armed
  first : s.updateAhead w = false

theorem State.UpdateTurn.not_idle {k : Nat} (turn : s.UpdateTurn k w c) :
    ¬ (!(s.runsCmd k 0x34 && w.searches 4 && decide (w.begun = 1)) || decide (c.tomb.st ≠ .ready ∧ c.tomb.st ≠ .armed)
      || s.updateAhead w) = true := by
  simpa [turn.runs, turn.update, turn.begun, turn.first] using or_iff_not_imp_left.mp turn.takes

theorem TaskSet.opcode_of_searches {op : Nat} (search : w.searches op = true) : w.opcode = 0x34 := by
  simp only [TaskSet.searches, Bool.and_eq_true, decide_eq_true_eq] at search
  exact search.1

variable (turn : s.UpdateTurn (setKey x set) w c)
include w_eq c_eq attached turn

theorem updateAccept_readOnly (readOnly : s.media.readOnly = true) :
    exec (.updateAccept x set) s = .next (s.postLater (setKey x set) stReadOnly 0 0) := by
  have later : s.finish (setKey x set) stReadOnly 0 0 = s.postLater (setKey x set) stReadOnly 0 0 :=
    if_pos (by rw [w_eq, TaskSet.opcode_of_searches turn.update]; decide)
  rw [← later]
  show execUpdateAccept x set s = _
  unfold execUpdateAccept
  simp only [w_eq, c_eq, attached]
  exact (if_neg turn.not_idle).trans (if_pos readOnly)

/-- An update that is applied waits where its writes must, and takes effect whole where they need not. -/
theorem updateAccept_applies (writable : s.media.readOnly = false) {d : Descriptor} (d_eq : descriptor (numOf ix.desc) = d)
    {v : IndexWork} {out : Bytes} {l : List Nat}
    (gives : ((s.indexWork d c.tomb.shadow.addr).apply (bits (w.reg 1) 31 0) (w.reg 2)).from0 = (.ok (v, out), l)) :
    exec (.updateAccept x set) s = if s.mustWait (s.updateWritten w.partNo d.ns v l) v.blocks.length then .next s
      else .next (s.updateApplied (setKey x set) w.partNo w.ctxNo ix d v out l (bits (w.reg 1) 31 0)) := by
  show execUpdateAccept x set s = _
  unfold execUpdateAccept State.updateApplied
  simp only [w_eq, c_eq, attached, d_eq]
  refine ((if_neg turn.not_idle).trans (if_neg (by simp [writable]))).trans ?_
  rw [gives]
  rfl

end

/-! ### What an update changes -/

/-- The applying of records changes the tiers, and takes free values. -/
theorem IndexWork.changes_apply {w v : IndexWork} {out : Bytes} {l : List Nat} {count a : Nat}
    (gives : (w.apply count a).from0 = (.ok (v, out), l)) : Changes [.fabric, .tiers, .free] w.s v.s :=
  changes_of_keep (IndexWork.apply_keep (by simp) (by simp) (by simp) _ _ _ _ (IndexDo.from0_gives gives))

section
variable (s : State) (k p n : Nat) (ix : Index) (d : Descriptor) (v : IndexWork) (out : Bytes) (l : List Nat) (count : Nat)

theorem State.changes_accepting : Changes [.dict, .media, .vtimes, .free] v.s (s.updateWritten p d.ns v l) :=
  changes_of_keep (by simp [State.updateWritten])

/-- Once its blocks are accepted, an update changes its context and its set. -/
theorem State.changes_settling : Changes [.ctx (p * 16 + n), .tset k, .dict, .arms] (s.updateWritten p d.ns v l)
    (s.updateApplied k p n ix d v out l count) :=
  ((State.changes_updateArmed _ _ _ _ _).widen (by simp)).trans ((State.changes_updateDone _ _ _ _).widen (by simp))

theorem State.media_updateApplied : (s.updateApplied k p n ix d v out l count).media = (s.updateWritten p d.ns v l).media :=
  (s.changes_settling k p n ix d v out l count).same .media

theorem State.fabric_updateApplied : (s.updateApplied k p n ix d v out l count).fabric = v.s.fabric :=
  ((s.changes_settling k p n ix d v out l count).same .fabric).trans ((s.changes_accepting p d v l).same .fabric)

variable {s v} (applied : Changes [.fabric, .tiers, .free] s v.s)
include applied

theorem State.changes_updateWritten : Changes [.fabric, .tiers, .dict, .media, .vtimes, .free] s (s.updateWritten p d.ns v l) :=
  (applied.widen (by simp)).trans ((s.changes_accepting p d v l).widen (by simp))

theorem State.changes_updateApplied : Changes [.ctx (p * 16 + n), .tset k, .fabric, .tiers, .dict, .media, .vtimes, .arms, .free]
    s (s.updateApplied k p n ix d v out l count) :=
  ((State.changes_updateWritten p d l applied).widen (by simp)).trans ((s.changes_settling k p n ix d v out l count).widen (by simp))

theorem State.tset_updateApplied : (s.updateApplied k p n ix d v out l count).tset k
    = { s.tset k with output := memOf out, outLen := out.length, due := some stOk, count := count, dueStep := 0 } := by
  have written : (s.updateWritten p d.ns v l).tset k = s.tset k :=
    (State.changes_updateWritten p d l applied).same (.tset k)
  rw [State.updateApplied, State.tset_updateDone, State.tset_updateArmed, written]

theorem State.ctx_updateApplied : (s.updateApplied k p n ix d v out l count).ctx p n
    = ((s.ctx p n).withUpdate (s.ctx p n).tomb s.arms ix v.slots).report 4 0 0 := by
  have written := State.changes_updateWritten p d l applied
  have ctx : (s.updateWritten p d.ns v l).ctx p n = s.ctx p n := written.same (.ctx (p * 16 + n))
  have arms : (s.updateWritten p d.ns v l).arms = s.arms := written.same .arms
  rw [State.updateApplied, State.ctx_updateDone, State.ctx_updateArmed, ctx, arms]

end

/-! ### TOMBSTONE_REPLAY (11 R295) -/

section
variable {s : State} {p : Part} {n : Ctx} {c : Context} {ix : Index} (c_eq : s.ctx p.val n.val = c) (attached : c.index = some ix)
include c_eq attached

theorem tombstoneReplay_early (early : c.tomb.st ≠ .retiring ∨ s.oldImageUsed p.val n.val ix.swapped = true) :
    exec (.tombstoneReplay p n) s = .next s := by
  show execTombstoneReplay p n s = _
  unfold execTombstoneReplay
  simp only [c_eq, attached]
  exact if_pos early

/-- The old image is brought up to date, and takes the next update. -/
theorem tombstoneReplay_replays (retiring : c.tomb.st = .retiring) (unused : s.oldImageUsed p.val n.val ix.swapped = false)
    {v : IndexWork} (gives : ((s.indexWork (descriptor (numOf ix.desc)) c.tomb.shadow.addr).replay c.tomb.active.addr ix.log).from0.1
      = .ok v) :
    exec (.tombstoneReplay p n) s
      = .next (v.s.setCtx p.val n.val { c with tomb := { c.tomb with st := .ready }, index := some { ix with log := [] } }) := by
  show execTombstoneReplay p n s = _
  unfold execTombstoneReplay
  simp only [c_eq, attached]
  refine (if_neg (by simp [retiring, unused])).trans ?_
  rw [gives]

end

theorem IndexWork.changes_replay {w v : IndexWork} {src : Nat} {l : List Nat} (gives : (w.replay src l).from0.1 = .ok v) :
    Changes [.fabric, .tiers] w.s v.s :=
  changes_of_keep (IndexWork.replay_keep (by simp) (by simp) _ _ _ _ (IndexDo.from0_gives (Prod.ext gives rfl)))

/-! ### GRAPH_REPAIR_PASS (11 R296) -/

/-- A repair pass over an index that has rewritten blocks, once they are accepted: the index changes at the next boundary, `free`
slots are FREE, and the pass is counted. -/
def State.repaired (u : State) (p n : Nat) (ix : Index) (blocks : Tab Mem) (free : Nat) : State :=
  let c := u.setCtx p n { u.ctx p n with index := some { ix with touched := ix.touched || !blocks.isEmpty } }
  ((c.put (0x6090 + p) (n + 1) free).bump (0x6088 + p) (n + 1) 1).busyBit 7

/-- The blocks that a repair pass rewrote, accepted after its reads. -/
def State.repairWritten (s : State) (ns : Nat) (v : IndexWork) (l : List Nat) : State :=
  (s.indexReads ns s.tick l).1.acceptBlocks none ns v.blocks

section
variable {s : State} {p : Part} {n : Ctx} {ix : Index} (attached : (s.ctx p.val n.val).index = some ix)
include attached

theorem graphRepairPass_stopped (stopped : s.relocates = false) : exec (.graphRepairPass p n) s = .next s := by
  show execGraphRepairPass p n s = _
  unfold execGraphRepairPass
  simp only [attached]
  exact if_pos (by simp [stopped])

theorem graphRepairPass_repairs (moving : s.relocates = true) {d : Descriptor} (d_eq : descriptor (numOf ix.desc) = d)
    {v : IndexWork} {l : List Nat} (gives : (s.indexWork d 0).pass.from0 = (.ok v, l))
    (room : s.mustWait (s.repairWritten d.ns v l) v.blocks.length = false) :
    exec (.graphRepairPass p n) s = .next ((s.repairWritten d.ns v l).repaired p.val n.val ix v.blocks (v.freeSlots d)) := by
  show execGraphRepairPass p n s = _
  unfold execGraphRepairPass
  simp only [attached, d_eq]
  refine (if_neg (by simp [moving])).trans ?_
  rw [gives]
  exact if_neg (Bool.eq_false_iff.mp room)

end

theorem objBits_repairPasses (p : Part) (n : Ctx) : objBits (0x6088 + p.val) (n.val + 1) = 32 := by
  revert p n
  decide

theorem State.changes_repairWritten (s : State) (ns : Nat) (v : IndexWork) (l : List Nat) :
    Changes [.dict, .media, .free] s (s.repairWritten ns v l) := changes_of_keep (by simp [State.repairWritten])

theorem State.changes_repaired (u : State) (p n : Nat) (ix : Index) (blocks : Tab Mem) (free : Nat) :
    Changes [.ctx (p * 16 + n), .dict, .media] u (u.repaired p n ix blocks free) := changes_of_keep (by simp [State.repaired])

theorem State.pending_repaired (u : State) (p n : Nat) (ix : Index) (blocks : Tab Mem) (free : Nat) :
    (u.repaired p n ix blocks free).media.pending = u.media.pending := rfl

/-- The passes of a repair are no object that its reads or its writes change. -/
theorem State.obj_repairWritten (s : State) (ns : Nat) (v : IndexWork) (l : List Nat) (p : Part) (n : Ctx) :
    (s.repairWritten ns v l).obj (0x6088 + p.val) (n.val + 1) = s.obj (0x6088 + p.val) (n.val + 1) := by
  have accepted : Changes [.media] (s.indexReads ns s.tick l).1 (s.repairWritten ns v l) := State.changes_acceptBlocks _ _ _ _
  have dict : (s.repairWritten ns v l).dict = (s.indexReads ns s.tick l).1.dict := accepted.same .dict
  have power : (s.repairWritten ns v l).power = (s.indexReads ns s.tick l).1.power := accepted.same .power
  refine (State.obj_congr (congrArg Dict.objs dict) (congrArg Power.ids power) ..).trans ((s.readObjs_indexReads ns s.tick l).2 _ _ ?_)
  simp only [readObjs, List.forall_mem_cons, List.forall_mem_map, List.mem_range, objKey]
  exact ⟨by omega, by omega, by omega, fun _ small => by omega⟩

theorem State.obj_repaired (u : State) (p : Part) (n : Ctx) (ix : Index) (blocks : Tab Mem) (free : Nat) :
    (u.repaired p n ix blocks free).obj (0x6088 + p.val) (n.val + 1)
      = (u.obj (0x6088 + p.val) (n.val + 1) + 1) % 2 ^ objBits (0x6088 + p.val) (n.val + 1) := by
  refine (obj_bump_same _ 1 (by rw [objBits_repairPasses]; decide)).trans ?_
  rw [State.obj_put, if_neg (by unfold objKey; omega)]
  rfl

/-! ### The obligation -/

/-- Settles O42: each command by whether it acts; what an update changes is its context and its set, once its blocks are accepted. -/
theorem indexUpdatesApply : Obligations.IndexUpdatesApply := by
  unfold Obligations.IndexUpdatesApply
  intro s x set p n ix k w c d attached
  refine ⟨fun part ctx runs update begun takes first => ?_, fun unready unarmed part ctx => ?_, fun retiring unused v gives => ?_,
    fun early => ?_, fun moving v l gives room => ?_, fun stopped => ?_⟩
  · have here : s.ctx w.partNo w.ctxNo = c := by rw [part, ctx]
    have turn : s.UpdateTurn k w c := ⟨runs, update, begun, takes, first⟩
    refine ⟨fun readOnly => ?_, fun writable v out l gives => ?_⟩
    · exact ⟨_, updateAccept_readOnly rfl here attached turn readOnly, State.tset_setTset_same .., changes_of_keep (by simp [k])⟩
    · have applies := updateAccept_applies rfl here attached turn writable rfl gives
      rw [part, ctx] at applies
      refine ⟨fun waits => applies.trans (if_pos waits), fun room => ?_⟩
      have applied : Changes [.fabric, .tiers, .free] s v.s := IndexWork.changes_apply gives
      have tset := State.tset_updateApplied k p.val n.val ix d out l (bits (w.reg 1) 31 0) applied
      have ctx' := State.ctx_updateApplied k p.val n.val ix d out l (bits (w.reg 1) 31 0) applied
      refine ⟨_, applies.trans (if_neg (Bool.eq_false_iff.mp room)),
        ⟨congrArg TaskSet.due tset, congrArg TaskSet.count tset, congrArg TaskSet.dueStep tset⟩,
        congrArg TaskSet.output tset, congrArg TaskSet.outLen tset, State.fabric_updateApplied .., congrArg (·.tomb.st) ctx',
        ⟨ix.updated v.slots, congrArg Context.index ctx', rfl, fun i => Index.mem_log_updated⟩, fun b changed => ?_,
        State.changes_updateApplied k p.val n.val ix d out l _ applied⟩
      rw [State.media_updateApplied]
      exact State.writes_acceptBlocks _ d.ns (some p.val) changed
  · exact updateAccept_unready rfl (by rw [part, ctx]) attached unready unarmed
  · refine ⟨_, tombstoneReplay_replays rfl attached retiring unused gives, rfl, State.ctx_setCtx_same .., ?_⟩
    exact ((IndexWork.changes_replay gives).widen (by simp)).trans (changes_of_keep (by simp))
  · exact tombstoneReplay_early rfl attached early
  · refine ⟨_, graphRepairPass_repairs attached moving rfl gives room, ?_, fun b changed => ?_, ?_⟩
    · rw [State.obj_repaired, State.obj_repairWritten]
    · rw [State.pending_repaired]
      exact State.writes_acceptBlocks _ d.ns none changed
    · exact ((s.changes_repairWritten d.ns v l).widen (by simp)).trans ((State.changes_repaired _ _ _ _ _ _).widen (by simp))
  · exact graphRepairPass_stopped attached stopped

end Sys2Proof.Machine
end

