-- ==== Sys2Proof/Proofs/LinkFrames.lean ====
section
/-! The frames that the link answers itself, and those that it passes on (O7, O8). -/

namespace Sys2Proof.Machine

/-! ### Requests that are answered at once (13 R329, R336, R338, R345) -/

section
variable {s : State} {r : Req}

/-- A request that is only answered changes nothing but the sending and receiving of its port. -/
theorem State.answers_heard (roomy : (s.port r.port.val).Roomy) (n type status args : Nat) {payload : Bytes}
    (short : payload.length ≤ 8192) : ∃ t, t = (s.heard r.port.val n (chanNo r.chan)).reply r type status args payload
      ∧ Replied s t r type status args payload ∧ Changes [.port r.port.val] s t
      ∧ (s.port r.port.val).OnlyCells (t.port r.port.val) :=
  ⟨_, rfl, s.replied_heard n r type status args payload roomy short, changes_of_keep (by simp),
    s.onlyCells_reply_heard n r type status args payload roomy short⟩

theorem status_answers (admits : s.Admits r false) (roomy : (s.port r.port.val).Roomy) :
    ∃ t, exec (.status r) s = .next t ∧ Replied s t r 0x03 0x0000 0 [] ∧ Changes [.port r.port.val] s t
      ∧ (s.port r.port.val).OnlyCells (t.port r.port.val) := by
  obtain ⟨t, t_eq, answered⟩ := State.answers_heard roomy 0 0x03 0x0000 0 (payload := []) (by simp)
  exact ⟨t, congrArg Host.Outcome.next ((State.serve_admitted admits ..).trans t_eq.symm), answered⟩

theorem echo_answers (admits : s.Admits r false) (roomy : (s.port r.port.val).Roomy) {payload : Bytes}
    (short : payload.length ≤ 8192) :
    ∃ t, exec (.echo r payload) s = .next t ∧ Replied s t r 0x04 0x0000 0 payload ∧ Changes [.port r.port.val] s t
      ∧ (s.port r.port.val).OnlyCells (t.port r.port.val) := by
  obtain ⟨t, t_eq, answered⟩ := State.answers_heard roomy payload.length 0x04 0x0000 0 short
  exact ⟨t, congrArg Host.Outcome.next ((State.serve_admitted admits ..).trans t_eq.symm), answered⟩

theorem unknownFrameType_answers (admits : s.Admits r false) (roomy : (s.port r.port.val).Roomy) {type : Byte}
    (unknown : type.toNat ∉ frameTypes) :
    ∃ t, exec (.unknownFrameType r type) s = .next t ∧ Replied s t r type.toNat 0x0601 0 [] ∧ Changes [.port r.port.val] s t
      ∧ (s.port r.port.val).OnlyCells (t.port r.port.val) := by
  obtain ⟨t, t_eq, answered⟩ := State.answers_heard roomy 0 type.toNat 0x0601 0 (payload := []) (by simp)
  have notKnown : ¬ typeKnown type.toNat = true := fun known => unknown (of_decide_eq_true known)
  have served := (State.serve_admitted admits type.toNat (fun s => s.reply r type.toNat stBadFrame 0 []) 0 0).trans t_eq.symm
  exact ⟨t, (if_neg notKnown).trans (congrArg Host.Outcome.next served), answered⟩

/-- A frame for node 0 is for the module that receives it (R338). -/
theorem State.reaches_nodeZero (zero : r.dst = 0) (up : (s.port r.port.val).life = .up)
    (room : r.chan = .data ∨ s.requestsHeld r.port.val < 64) : s.reaches r = true := by
  have forModule : r.dst.toNat = 0 ∨ r.dst.toNat = s.nodeId := .inl (by rw [zero]; rfl)
  unfold State.reaches
  rw [decide_eq_true up, decide_eq_true forModule, ← Bool.decide_or, decide_eq_true room]
  rfl

end

/-! ### Frames in transit (13 R338 to R340) -/

section
variable {s : State} {x : Port} {f : Transit}

theorem frameForward_nodeZero (zero : f.dst = 0) : exec (.frameForward x f) s = .next s :=
  if_pos (.inr (.inl (by rw [zero]; rfl)))

/-- The cells of a frame in transit have come good on their channel (R325). -/
def State.hearTransit (s : State) (x : Port) (f : Transit) : State :=
  s.setPort x.val ((s.port x.val).gets (chanNo f.chan) (transitCells f))

theorem State.port_hearTransit : (s.hearTransit x f).port x.val = (s.port x.val).gets (chanNo f.chan) (transitCells f) :=
  State.port_setPort_same ..

theorem State.port_hearTransit_other {y : Nat} (other : y ≠ x.val) : (s.hearTransit x f).port y = s.port y := by
  rw [State.hearTransit, State.port_setPort, if_neg other]

/-- Entries of the forwarding table that name no port to which a frame may go on (R339, R340). -/
def State.noWayOut (s : State) (x : Port) (e : Nat) : Prop := e = 0 ∨ 4 < e ∨ e - 1 = x.val ∨ (s.port (e - 1)).life ≠ .up

theorem State.noWayOut_hearTransit {e : Nat} : (s.hearTransit x f).noWayOut x e ↔ s.noWayOut x e := by
  unfold State.noWayOut
  by_cases back : e - 1 = x.val
  · simp [back]
  · rw [State.port_hearTransit_other back]

/-- What counting a frame in the module's object leaves: the port that it came on has heard it. -/
theorem State.changes_countTransit (j : Nat) : Changes [.port x.val, .dict] s ((s.hearTransit x f).bump 0x1100 j 1) := by
  unfold State.hearTransit
  exact changes_of_keep (by simp)

theorem State.onlyObjs_countTransit (j : Nat) : OnlyObjs [(0x1100, j)] s ((s.hearTransit x f).bump 0x1100 j 1) :=
  onlyObjs_bump (s.hearTransit x f) 0x1100 j 1

section
variable (up : (s.port x.val).life = .up) (some' : f.dst ≠ 0) (notHere : f.dst.toNat ≠ s.nodeId)
include up some' notHere

theorem State.not_taken : ¬ ((s.port x.val).life ≠ .up ∨ f.dst.toNat = 0 ∨ f.dst.toNat = s.nodeId) := by
  have nonzero : f.dst.toNat ≠ 0 := fun h => some' (BitVec.eq_of_toNat_eq h)
  simp [up, nonzero, notHere]

/-- No hops are left. -/
theorem frameForward_spent (spent : f.hops = 0) : exec (.frameForward x f) s = .next ((s.hearTransit x f).bump 0x1100 5 1) :=
  (if_neg (State.not_taken up some' notHere)).trans (if_pos spent)

/-- The forwarding table or the ports drop the frame. -/
theorem frameForward_drops (hops : f.hops ≠ 0) (none' : s.noWayOut x (s.fwdEntry f.dst.toNat)) :
    exec (.frameForward x f) s = .next ((s.hearTransit x f).bump 0x1100 4 1) :=
  (if_neg (State.not_taken up some' notHere)).trans ((if_neg hops).trans (if_pos (State.noWayOut_hearTransit.mpr none')))

/-- The frame goes on. -/
theorem frameForward_sends (hops : f.hops ≠ 0) (way : ¬ s.noWayOut x (s.fwdEntry f.dst.toNat)) :
    exec (.frameForward x f) s = .next ((s.hearTransit x f).send (s.fwdEntry f.dst.toNat - 1) f.dataClass (transitCells f)
      (.forward x { f with hops := f.hops - 1 } false)) :=
  (if_neg (State.not_taken up some' notHere)).trans ((if_neg hops).trans (if_neg (mt State.noWayOut_hearTransit.mp way)))

/-- Whatever becomes of the frame, the port that it came on has heard it and no more. -/
theorem frameForward_heard : ∃ t, exec (.frameForward x f) s = .next t
    ∧ t.port x.val = (s.port x.val).gets (chanNo f.chan) (transitCells f) := by
  by_cases hops : f.hops = 0
  · exact ⟨_, frameForward_spent up some' notHere hops, State.port_hearTransit⟩
  · by_cases way : s.noWayOut x (s.fwdEntry f.dst.toNat)
    · exact ⟨_, frameForward_drops up some' notHere hops way, State.port_hearTransit⟩
    · refine ⟨_, frameForward_sends up some' notHere hops way, ?_⟩
      rw [State.port_send_other _ _ _ _ _ _ fun back => way (.inr (.inr (.inl back.symm))), State.port_hearTransit]

end

/-- With room at the port that it goes to, a frame leaves at once. -/
theorem State.send_hearTransit {y : Nat} (other : y ≠ x.val) (roomy : (s.port y).Roomy) (fits : transitCells f ≤ 69) (g : Transit)
    (data : Bool) (t : State) (t_eq : (s.hearTransit x f).send y data (transitCells f) (.forward x g false) = t) :
    (t.port y).sent = .forward x g false :: (s.port y).sent ∧ (s.port y).OnlyCells (t.port y)
      ∧ Changes [.port x.val, .port y] s t := by
  have same : (s.hearTransit x f).port y = s.port y := State.port_hearTransit_other other
  obtain ⟨_, _, _, _, _, _, port⟩ := (s.hearTransit x f).port_send y data (transitCells f) (.forward x g false)
    (by rwa [same]) (frameCells_pos _) fits
  rw [t_eq, same] at port
  refine ⟨by rw [port], by rw [port]; rfl, ?_⟩
  rw [← t_eq, State.hearTransit]
  exact changes_of_keep (by simp)

end

/-! ### The statements -/

/-- Settles O7: a frame for node 0 reaches the module, and a frame in transit for it is not passed on. -/
theorem nodeZeroIsTaken : Obligations.NodeZeroIsTaken := by
  intro s r x f
  refine ⟨State.reaches_nodeZero, fun zero room good roomy => ?_, frameForward_nodeZero⟩
  have admits : s.Admits r false := ⟨State.reaches_nodeZero zero roomy.up room, good, nofun⟩
  obtain ⟨t, run, replied, changes, -⟩ := status_answers admits roomy
  exact ⟨t, run, replied, changes⟩

/-- Settles O8: the link's own frames are answered, and a frame in transit is counted or sent on. -/
theorem linkFramesAreHandled : Obligations.LinkFramesAreHandled := by
  refine ⟨fun s r payload type admits roomy short => ?_, fun s x f up some' notHere => ?_⟩
  · exact ⟨status_answers admits roomy, echo_answers admits roomy short, unknownFrameType_answers admits roomy⟩
  · obtain ⟨t, run, heard⟩ := frameForward_heard up some' notHere
    have next {u : State} (h : exec (.frameForward x f) s = .next u) : u = t := Host.Outcome.next.inj (h.symm.trans run)
    refine ⟨t, run, fun spent => ?_, fun hops (least : 1 ≤ s.fwdEntry f.dst.toNat) (most : s.fwdEntry f.dst.toNat ≤ 4) other roomy
      fits => ?_, fun hops none' => ?_, ?_, ?_⟩
    · rw [← next (frameForward_spent up some' notHere spent)]
      exact ⟨obj_bump_64 (s.hearTransit x f) 1 rfl, State.onlyObjs_countTransit 5, State.changes_countTransit 5⟩
    · have way : ¬ s.noWayOut x (s.fwdEntry f.dst.toNat) := by
        rintro (zero | large | back | down)
        · omega
        · omega
        · exact other back
        · exact down roomy.up
      exact State.send_hearTransit other roomy fits _ _ t (next (frameForward_sends up some' notHere hops way))
    · rw [← next (frameForward_drops up some' notHere hops none')]
      exact ⟨obj_bump_64 (s.hearTransit x f) 1 rfl, State.onlyObjs_countTransit 4, State.changes_countTransit 4⟩
    · rw [heard]
      rfl
    · rw [heard]
      rfl

end Sys2Proof.Machine
end

