-- ==== Sys2Proof/Proofs/Ownership.lean ====
section
/-! The ownership of a port: who gets it, and what its end leaves (O9). -/

namespace Sys2Proof.Machine

/-! ### CLAIM (13 R333) -/

section
variable {s : State} {r : Req} {inst : BitVec 64}

/-- The sender of a CLAIM is the owner of its port. -/
def State.claimed (s : State) (r : Req) (inst : BitVec 64) : State :=
  (s.heard r.port.val 0 (chanNo r.chan)).setPort r.port.val
    { (s.heard r.port.val 0 (chanNo r.chan)).port r.port.val with node := r.src, host := inst }

theorem State.port_claimed : (s.claimed r inst).port r.port.val
    = { (s.port r.port.val).gets (chanNo r.chan) (frameCells 0) with node := r.src, host := inst } := by
  rw [State.claimed, State.port_setPort_same, State.port_heard]

theorem claim_gives (admits : s.Admits r false) (free : (s.port r.port.val).node = 0) :
    exec (.claim r inst) s = .next ((s.claimed r inst).reply r 0x01 0x0000 (r.src.toNat * 2 ^ 244) []) := by
  have noOwner : ((s.heard r.port.val 0 (chanNo r.chan)).port r.port.val).node = 0 := by rwa [State.port_heard]
  show execClaim r inst s = _
  unfold execClaim
  rw [State.serve_admitted admits]
  dsimp only
  rw [if_pos noOwner, field_fit r.src.isLt]
  rfl

/-- The status of a CLAIM of a port that is owned: a confirmation for the owner, and a refusal for everyone else. -/
abbrev State.claimStatus (s : State) (r : Req) (inst : BitVec 64) : Nat :=
  if (s.port r.port.val).node = r.src ∧ (s.port r.port.val).host = inst then 0x0000 else 0x0501

theorem claim_answers (admits : s.Admits r false) (owned : (s.port r.port.val).node ≠ 0) :
    exec (.claim r inst) s = .next ((s.heard r.port.val 0 (chanNo r.chan)).reply r 0x01 (s.claimStatus r inst)
      ((s.port r.port.val).node.toNat * 2 ^ 244) []) := by
  have port : (s.heard r.port.val 0 (chanNo r.chan)).port r.port.val = (s.port r.port.val).gets (chanNo r.chan) (frameCells 0) :=
    State.port_heard ..
  show execClaim r inst s = _
  unfold execClaim State.claimStatus
  rw [State.serve_admitted admits]
  dsimp only
  rw [port, PortSt.gets_node, PortSt.gets_host, if_neg owned, field_fit (s.port r.port.val).node.isLt]
  split <;> rfl

/-- With room, the new owner is told. -/
theorem State.replied_claimed (roomy : (s.port r.port.val).Roomy) (args : Nat) :
    Replied s ((s.claimed r inst).reply r 0x01 0x0000 args []) r 0x01 0x0000 args []
      ∧ ({ s.port r.port.val with node := r.src, host := inst } : PortSt).OnlyCells
          (((s.claimed r inst).reply r 0x01 0x0000 args []).port r.port.val)
      ∧ Changes [.port r.port.val] s ((s.claimed r inst).reply r 0x01 0x0000 args []) := by
  have roomy' : ((s.claimed r inst).port r.port.val).Roomy := by
    rw [State.port_claimed]
    exact ⟨roomy.up, roomy.idle, roomy.credits, roomy.replay⟩
  have changes : Changes [.port r.port.val] s (s.claimed r inst) := changes_of_keep (by simp [State.claimed])
  refine ⟨State.replied_of_reply roomy' (by simp) ?_ ?_ ?_ ?_, ?_, changes.trans (changes_of_keep (by simp))⟩
  · rw [State.port_claimed]
    rfl
  · rw [State.port_claimed]
    rfl
  · simp [State.claimed, State.nodeId]
  · exact congrArg Clock.epoch (changes.same .clock)
  · have cells := (s.claimed r inst).onlyCells_reply r 0x01 0x0000 args [] roomy' (by simp)
    rw [State.port_claimed] at cells
    exact cells

end

/-! ### The end of an ownership (13 R333, R334; 14 R360; 18 R445, R446) -/

section
variable {s t u : State} {x : Port}

/-- The port `x` has no owner any more: its stream is to be frozen, and its transfers and its arms have ended. -/
def State.Disowned (s t : State) (x : Port) : Prop := (t.port x.val).node = 0 ∧ (t.port x.val).host = 0
  ∧ (t.port x.val).freezeDue = (s.port x.val).freezeDue ||| 0x200
  ∧ t.dict.reads = s.dict.reads.filter (fun o => decide (o.port ≠ x))
  ∧ t.dict.writes = s.dict.writes.filter (fun o => decide (o.port ≠ x))
  ∧ t.dict.objs = s.dict.objs ∧ t.dict.gov = s.dict.gov ∧ t.dict.jobs = s.dict.jobs ∧ t.security.state = s.security.state
  ∧ t.security = { s.security with arms := s.security.arms.filter (fun a => decide (a.2.1 ≠ x)) }
  ∧ Changes [.port x.val, .dict, .security] s t

theorem State.disowned_endOwnership : s.Disowned (s.endOwnership x) x := by
  unfold State.Disowned
  rw [State.endOwnership_dict, State.endOwnership_port, State.endOwnership_security]
  exact ⟨rfl, rfl, rfl, rfl, rfl, rfl, rfl, rfl, rfl, rfl, changes_of_keep (by simp)⟩

/-- Cells that the port receives before, or sends after, make no difference. -/
theorem State.Disowned.cells (h : s.Disowned t x) {s' t' : State} (before : Changes [.port x.val] s' s)
    (due : (s.port x.val).freezeDue = (s'.port x.val).freezeDue) (after : Changes [.port x.val] t t')
    (port : (t.port x.val).OnlyCells (t'.port x.val)) : s'.Disowned t' x := by
  obtain ⟨node, host, freeze, reads, writes, objs, gov, jobs, life, security, changes⟩ := h
  have sub : [Place.port x.val] ⊆ [.port x.val, .dict, .security] := by simp
  have dict : s.dict = s'.dict := before.same .dict
  have dict' : t'.dict = t.dict := after.same .dict
  have sec : s.security = s'.security := before.same .security
  have sec' : t'.security = t.security := after.same .security
  rw [dict, ← dict'] at reads writes objs gov jobs
  rw [sec, ← sec'] at life security
  exact ⟨(congrArg PortSt.node port).trans node, (congrArg PortSt.host port).trans host,
    (congrArg PortSt.freezeDue port).trans (freeze.trans (by rw [due])), reads, writes, objs, gov, jobs, life, security,
    (before.mono sub).trans (changes.trans (after.mono sub))⟩

theorem ownerLapse_ends (out : (s.port x.val).life ≠ .up) (owned : (s.port x.val).node ≠ 0) :
    ∃ t, exec (.ownerLapse x) s = .next t ∧ s.Disowned t x :=
  ⟨_, if_pos ⟨out, owned⟩, State.disowned_endOwnership⟩

theorem release_ends {r : Req} (admits : s.Admits r true) (roomy : (s.port r.port.val).Roomy) :
    ∃ t, exec (.release r) s = .next t ∧ Replied s t r 0x02 0x0000 0 [] ∧ s.Disowned t r.port := by
  let h := s.heard r.port.val 0 (chanNo r.chan)
  have port : (h.endOwnership r.port).port r.port.val = { (s.port r.port.val).gets (chanNo r.chan) (frameCells 0) with
      node := 0, host := 0, freezeDue := (s.port r.port.val).freezeDue ||| freezeStream } := by
    rw [State.endOwnership_port, State.port_heard]
    rfl
  have roomy' : ((h.endOwnership r.port).port r.port.val).Roomy := by
    rw [port]
    exact ⟨roomy.up, roomy.idle, roomy.credits, roomy.replay⟩
  refine ⟨(h.endOwnership r.port).reply r 0x02 0x0000 0 [], congrArg Host.Outcome.next (State.serve_admitted admits ..),
    State.replied_of_reply roomy' (by simp) ?_ ?_ ?_ ?_, ?_⟩
  · rw [port]
    rfl
  · rw [port]
    rfl
  · simp [h]
  · simp [h]
  · have heard : Changes [.port r.port.val] s h := changes_of_keep (by simp [h])
    refine State.disowned_endOwnership.cells heard ?_ (changes_of_keep (by simp))
      (State.onlyCells_reply _ r 0x02 0x0000 0 [] roomy' (by simp))
    rw [State.port_heard]
    rfl

end

/-- Settles O9: CLAIM by whether the port is owned, and the two ends of an ownership by what they leave. -/
theorem ownershipIsDecided : Obligations.OwnershipIsDecided := by
  refine ⟨fun s r inst admits roomy => ?_, fun s r x => ⟨release_ends, ownerLapse_ends⟩⟩
  by_cases free : (s.port r.port.val).node = 0
  · obtain ⟨replied, cells, changes⟩ := State.replied_claimed (inst := inst) roomy (r.src.toNat * 2 ^ 244)
    exact ⟨_, claim_gives admits free, changes, fun _ => ⟨replied, cells⟩, fun owned => absurd free owned⟩
  · obtain ⟨t, t_eq, replied, changes, cells⟩ := State.answers_heard roomy 0 0x01 (s.claimStatus r inst)
      ((s.port r.port.val).node.toNat * 2 ^ 244) (payload := []) (by simp)
    exact ⟨t, (claim_answers admits free).trans (congrArg Host.Outcome.next t_eq.symm), changes, fun none' => absurd none' free,
      fun _ => ⟨cells, replied⟩⟩

end Sys2Proof.Machine
end

