-- ==== Sys2Proof/Proofs/CellLayer.lean ====
section
/-! The events of the cell layer (O10). -/

namespace Sys2Proof.Machine

/-- What a command's frame lets change is all that it changes. -/
theorem Answers.changes {W : List Place} {s t : State} {o : Host.Outcome State Fault Refusal} (h : Answers W s o)
    (run : o = .next t) : Changes W s t := by
  rw [run, answers_next] at h
  exact changes_of_keep h

/-- Objects stay as they are while other parts of the state change. -/
theorem OnlyObjs.of_dict {l : List (Nat × Nat)} {s t u : State} (h : OnlyObjs l s t) (dict : u.dict = t.dict)
    (power : u.power = t.power) : OnlyObjs l s u :=
  (h.trans (.of_eq [] dict (congrArg Power.ids power))).mono (by simp)

theorem State.obj_of_dict {s t : State} (dict : t.dict = s.dict) (power : t.power = s.power) (i j : Nat) : t.obj i j = s.obj i j :=
  State.obj_congr (congrArg Dict.objs dict) (congrArg Power.ids power) i j

/-! ### Ports (13 R323, R325, R346) -/

section
variable {v : PortSt}

theorem PortSt.runs_of (life : v.life = .up ∨ v.life = .loopback) : v.runs = true := decide_eq_true life

theorem PortSt.not_runs_of {life : LinkLife} (h : v.life = life) (out : life ≠ .up ∧ life ≠ .loopback := by decide) : v.runs = false := by
  unfold PortSt.runs
  simp [h, out]

/-- Without a run the generator adds nothing. -/
theorem PortSt.feed_still (none' : v.loopRun = none) (node x n : Nat) : PortSt.feed node x n v = v := by
  cases n with
  | zero => rfl
  | succ n => rw [PortSt.feed, none']

/-- The only frame that waits leaves a port when credits for it have come. -/
theorem PortSt.egress_only {c : Chan} {n : Nat} {f : Sent} (waits : v.waiting = [(c, n, f)]) (some' : 1 ≤ n)
    (credits : n ≤ v.credits.getD (chanNo c) 0) (room : v.replay + n ≤ 512) :
    ∃ credits replay seq cells ctrl fwd, v.egress = { v with
      waiting := [], sent := f :: v.sent, credits := credits, replay := replay, txSeq := seq, cells := cells, sinceCtrl := ctrl
      lastFwd := fwd } := by
  obtain ⟨n, rfl⟩ : ∃ m, n = m + 1 := ⟨n - 1, by omega⟩
  have cellsWait : v.toGo = n + 1 := by
    unfold PortSt.toGo
    rw [waits]
    exact Nat.zero_add _
  unfold PortSt.egress
  rw [cellsWait]
  exact PortSt.sendCells_only c f n v waits credits room

end

/-! ### Counts (13 R347) -/

section
variable {s : State} {x : Port}

theorem State.stalls_of_room {x : Nat} (room : (s.port x).replay < 512) : s.stalls x = s := if_neg (by omega)

@[simp] theorem State.port_stalls (s : State) (x y : Nat) : (s.stalls x).port y = s.port y :=
  changes_of_keep (W := [.dict, .free]) (by simp) (.port y) (by simp) (by simp [Place.table])

theorem State.power_stalls (s : State) (x : Nat) : (s.stalls x).power = s.power :=
  changes_of_keep (W := [.dict, .free]) (by simp) .power (by simp) (by simp)

theorem State.onlyObjs_stalls (s : State) (x : Nat) : OnlyObjs [(0x1110 + x, 0x0D)] s (s.stalls x) := by
  unfold State.stalls
  split
  · exact (onlyObjs_bump ..).of_dict rfl rfl
  · exact .refl ..

@[simp] theorem State.gov_stalls (s : State) (x i j : Nat) : (s.stalls x).gov i j = s.gov i j :=
  State.gov_congr (by rw [(s.onlyObjs_stalls x).1]) (by rw [State.power_stalls]) i j

@[simp] theorem State.nodeId_stalls (s : State) (x : Nat) : (s.stalls x).nodeId = s.nodeId := State.gov_stalls ..

theorem State.echoes_of_life (x : Port) {life : LinkLife} (h : (s.port x.val).life = life) (noLoop : life ≠ .loopback := by decide) :
    s.echoes x = false := by
  unfold State.echoes
  simp [h, noLoop]

theorem State.runs_of_echoes (echoes : s.echoes x = true) : (s.port x.val).runs = true :=
  PortSt.runs_of (.inr (of_decide_eq_true (Bool.and_eq_true_iff.mp echoes).1))

/-! ### A failed codeword (13 R323, R347) -/

/-- Does a port decode codewords? -/
abbrev PortSt.decodes (v : PortSt) : Prop := v.runs = true ∨ v.life = .aligned ∨ v.life = .trainFailed ∨ v.life = .retraining

theorem codewordFail_naks (runs : (s.port x.val).runs = true) (noEcho : s.echoes x = false) :
    exec (.codewordFail x) s = .next ((s.bump (0x1110 + x.val) 0x0B 1).emit x.val (.nak (s.port x.val).rxSeq.toNat)
      [((s.port x.val).idleHead true, [])]) := by
  have asks : ((s.port x.val).runs && !(s.bump (0x1110 + x.val) 0x0B 1).echoes x) = true := by
    rw [runs, show (s.bump (0x1110 + x.val) 0x0B 1).echoes x = s.echoes x from rfl, noEcho]
    rfl
  show execCodewordFail x s = _
  unfold execCodewordFail
  dsimp only
  rw [if_pos asks, if_pos (by rw [runs]; rfl)]

theorem codewordFail_counts (decodes : (s.port x.val).decodes) (still : s.echoes x = true ∨ (s.port x.val).runs = false) :
    exec (.codewordFail x) s = .next (s.bump (0x1110 + x.val) 0x0B 1) := by
  have quiet : ¬ ((s.port x.val).runs && !(s.bump (0x1110 + x.val) 0x0B 1).echoes x) = true := by
    rw [show (s.bump (0x1110 + x.val) 0x0B 1).echoes x = s.echoes x from rfl]
    rcases still with h | h <;> simp [h]
  show execCodewordFail x s = _
  unfold execCodewordFail
  dsimp only
  rw [if_neg quiet, if_pos (by simpa using decodes)]

/-! ### A NAK (13 R323, R344) -/

variable {ack : BitVec 12}

/-- What a NAK acknowledges leaves the replay buffer of a port, and the rest goes again. -/
def PortSt.resent (v : PortSt) (ack : BitVec 12) : PortSt :=
  { v with
    replay := (v.txSeq - ack - 1).toNat
    sent := .resend (ack + 1).toNat (v.txSeq - ack - 1).toNat :: v.sent
    cells := ({ v with replay := (v.txSeq - ack - 1).toNat } : PortSt).kept ++ v.cells }

/-- The first cell that goes again is the one after the acknowledged one. -/
theorem firstResent (seq ack : BitVec 12) : seq - BitVec.ofNat 12 (seq - ack - 1).toNat = ack + 1 := by
  bv_omega

theorem State.port_resend {u : State} (held : ((s.port x.val).txSeq - ack - 1).toNat ≤ (s.port x.val).replay)
    (port : u.port x.val = (s.port x.val).acked ack) : (u.resend x.val).port x.val = (s.port x.val).resent ack := by
  rw [State.resend, State.emit, State.port_setPort_same, port, PortSt.acked_of_le held]
  dsimp only
  rw [firstResent]
  rfl

theorem nakReceived_resends (runs : (s.port x.val).runs = true) (noEcho : s.echoes x = false)
    (held : ((s.port x.val).txSeq - ack - 1).toNat ≤ (s.port x.val).replay) (idle : (s.port x.val).waiting = []) :
    ∃ t, exec (.nakReceived x ack) s = .next t
      ∧ t.port x.val = PortSt.feed s.nodeId x.val feedFuel ((s.port x.val).resent ack)
      ∧ t.obj (0x1110 + x.val) 0x0C = (s.obj (0x1110 + x.val) 0x0C + 1) % 2 ^ 64
      ∧ OnlyObjs [(0x1110 + x.val, 0x0C), (0x1110 + x.val, 0x0D)] s t
      ∧ ((s.port x.val).replay < 512 → t.obj (0x1110 + x.val) 0x0D = s.obj (0x1110 + x.val) 0x0D)
      ∧ Changes [.port x.val, .dict, .free] s t := by
  let counted := ((s.stalls x.val).setPort x.val ((s.port x.val).acked ack)).bump (0x1110 + x.val) 0x0C 1
  let again := counted.resend x.val
  let t := (again.setPort x.val (again.port x.val).egress).feed x
  have run : exec (.nakReceived x ack) s = .next t := by
    show execNakReceived x ack s = _
    unfold execNakReceived
    dsimp only
    rw [noEcho, runs, if_neg (by nofun), if_pos rfl]
  have port : again.port x.val = (s.port x.val).resent ack := State.port_resend held (State.port_setPort_same ..)
  have node : counted.nodeId = s.nodeId := State.nodeId_stalls ..
  have other : objKey (0x1110 + x.val) 0x0C ≠ objKey (0x1110 + x.val) 0x0D := by unfold objKey; omega
  have stalls := s.onlyObjs_stalls x.val
  have counts : OnlyObjs [(0x1110 + x.val, 0x0C)] (s.stalls x.val) t :=
    ((OnlyObjs.of_eq [] rfl rfl).trans (onlyObjs_bump ((s.stalls x.val).setPort x.val ((s.port x.val).acked ack)) ..)).of_dict rfl rfl
  refine ⟨t, run, ?_, ?_, (stalls.trans counts).mono (by simp), fun room => ?_,
    (execNakReceived_keep x ack s (by simp) (by simp) (by simp)).changes run⟩
  · show (State.feed _ x).port x.val = _
    rw [State.feed, State.port_setPort_same, State.port_setPort_same, port,
      PortSt.egress_idle (show ((s.port x.val).resent ack).waiting = [] from idle)]
    exact congrArg (fun n => PortSt.feed n x.val feedFuel _) node
  · have count : counted.obj (0x1110 + x.val) 0x0C = ((s.stalls x.val).obj (0x1110 + x.val) 0x0C + 1) % 2 ^ 64 :=
      obj_bump_64 ((s.stalls x.val).setPort ..) 1 (objBits_portCounter x 0x0C (by decide))
    rw [State.obj_of_dict (s := counted) (t := t) rfl rfl, count, stalls.2 _ _ (by simpa using other)]
  · rw [counts.2 _ _ (by simpa using other.symm), State.stalls_of_room room]

/-- While a port retrains, an acknowledgement only frees what it acknowledges. -/
theorem nakReceived_retraining (retrains : (s.port x.val).life = .retraining) :
    exec (.nakReceived x ack) s = .next (s.setPort x.val ((s.port x.val).acked ack)) := by
  show execNakReceived x ack s = _
  unfold execNakReceived
  dsimp only
  rw [State.echoes_of_life x retrains, PortSt.not_runs_of retrains, if_neg (by nofun), if_neg (by nofun), if_pos retrains]

theorem nakReceived_echoes (echoes : s.echoes x = true) :
    exec (.nakReceived x ack) s = .next (s.echoIdle x ack true 3 0 (.nak ack.toNat)) := if_pos echoes

theorem State.port_echoIdle (nak : Bool) (vc credits : Nat) (f : Sent) : ∃ seq,
    (s.echoIdle x ack nak vc credits f).port x.val = { s.port x.val with
      sent := f :: (s.port x.val).sent, cells := (cellHeader 3 false false seq ack.toNat nak vc credits 0, []) :: (s.port x.val).cells } :=
  ⟨_, State.port_setPort_same ..⟩

/-! ### The acknowledgement timer (13 R322, R323, R325) -/

/-- The counts of the timer: the corrected codewords, and the stalls. -/
def State.timed (s : State) (x : Port) : State :=
  (s.bump (0x1110 + x.val) 0x0A (Config.counterValue s.free (0x10010 + x.val)).toNat).draw.stalls x.val

theorem State.port_timed : (s.timed x).port x.val = s.port x.val := State.port_stalls ..

theorem State.echoes_timed : (s.timed x).echoes x = s.echoes x := by
  unfold State.echoes State.fecLoop
  rw [State.port_timed, State.timed, State.gov_stalls]
  rfl

theorem State.onlyObjs_timed : OnlyObjs [(0x1110 + x.val, 0x0A), (0x1110 + x.val, 0x0D)] s (s.timed x) :=
  ((onlyObjs_bump ..).of_dict rfl rfl).trans (State.onlyObjs_stalls ..)

/-- Without a full replay buffer no stall is counted. -/
theorem State.obj_timed (room : (s.port x.val).replay < 512) :
    (s.timed x).obj (0x1110 + x.val) 0x0D = s.obj (0x1110 + x.val) 0x0D := by
  have other : objKey (0x1110 + x.val) 0x0D ≠ objKey (0x1110 + x.val) 0x0A := by unfold objKey; omega
  have calm : s.timed x = (s.bump (0x1110 + x.val) 0x0A (Config.counterValue s.free (0x10010 + x.val)).toNat).draw :=
    State.stalls_of_room room
  rw [calm]
  exact (onlyObjs_bump s (0x1110 + x.val) 0x0A _).2 _ _ (by simpa using other)

/-- A port acknowledges what has come good, and returns credits. -/
def PortSt.acknowledges (v : PortSt) (back : List Nat) : PortSt :=
  { v with
    owed := List.zipWith (· - ·) v.owed back
    sent := .ack v.rxSeq.toNat back :: v.sent
    cells := ((idleHeaders v.txSeq.toNat v.rxSeq.toNat back).map (fun h => (h, []))).reverse ++ v.cells }

theorem ackTimer_acknowledges (runs : (s.port x.val).runs = true) (noEcho : s.echoes x = false) :
    exec (.ackTimer x) s = .next ((s.timed x).setPort x.val ((s.port x.val).acknowledges (s.returnable x.val))) := by
  show execAckTimer x s = _
  unfold execAckTimer
  dsimp only
  rw [if_pos runs, if_neg (by rw [show (State.stalls _ x.val).echoes x = s.echoes x from State.echoes_timed, noEcho]; nofun)]
  rfl

theorem ackTimer_echoes (echoes : s.echoes x = true) : exec (.ackTimer x) s = .next (s.timed x) := by
  show execAckTimer x s = _
  unfold execAckTimer
  dsimp only
  rw [if_pos (State.runs_of_echoes echoes), if_pos (by rw [show (State.stalls _ x.val).echoes x = s.echoes x from State.echoes_timed, echoes])]
  rfl

/-! ### A header CRC error (13 R324) -/

theorem headerCrcError_counts (life : (s.port x.val).life = .up ∨ (s.port x.val).life = .loopback) (c : Chan) (n : Nat) :
    exec (.headerCrcError ⟨x, c, n⟩) s
      = .next ((s.setPort x.val ((s.port x.val).gets (chanNo c) n)).bump (0x1110 + x.val) 0x0E 1) := if_pos life

/-! ### Credits (13 R325) -/

variable {vc : Chan} {cells : BitVec 12}

/-- Credits of a channel return with an acknowledgement. -/
def PortSt.credited (v : PortSt) (vc : Chan) (cells ack : BitVec 12) : PortSt :=
  { v.acked ack with credits := v.credits.set (chanNo vc) (v.credits.getD (chanNo vc) 0 + cells.toNat) }

theorem creditReturn_sends (runs : (s.port x.val).runs = true) (noEcho : s.echoes x = false) :
    exec (.creditReturn x vc cells ack) s
      = .next (((s.stalls x.val).setPort x.val ((s.port x.val).credited vc cells ack).egress).feed x) := by
  show execCreditReturn x vc cells ack s = _
  unfold execCreditReturn
  dsimp only
  rw [noEcho, runs, if_neg (by nofun), if_pos rfl]
  rfl

theorem creditReturn_retraining (retrains : (s.port x.val).life = .retraining) :
    exec (.creditReturn x vc cells ack) s = .next (s.setPort x.val ((s.port x.val).credited vc cells ack)) := by
  show execCreditReturn x vc cells ack s = _
  unfold execCreditReturn
  dsimp only
  rw [State.echoes_of_life x retrains, PortSt.not_runs_of retrains, if_neg (by nofun), if_neg (by nofun), if_pos retrains]
  rfl

/-- The port whose frames that waited have been sent, and whose generator goes on. -/
theorem State.port_fed {u : State} (node : u.nodeId = s.nodeId) (v : PortSt) :
    ((u.setPort x.val v).feed x).port x.val = PortSt.feed s.nodeId x.val feedFuel v := by
  rw [State.feed, State.port_setPort_same, State.port_setPort_same, show (u.setPort x.val v).nodeId = u.nodeId from rfl, node]

/-- Credits that suffice let the only frame that waits go. -/
theorem PortSt.egress_credited {v : PortSt} {n : Nat} {f : Sent} (waits : v.waiting = [(vc, n, f)]) (known : chanNo vc < v.credits.length)
    (some' : 1 ≤ n) (credits : n ≤ cells.toNat) (room : v.replay + n ≤ 512) :
    (v.credited vc cells ack).egress.sent = f :: v.sent ∧ (v.credited vc cells ack).egress.waiting = []
      ∧ (v.credited vc cells ack).egress.loopRun = v.loopRun := by
  obtain ⟨left, fewer, acked⟩ := v.acked_eq ack
  have credited : v.credited vc cells ack = { v with
      replay := left, credits := v.credits.set (chanNo vc) (v.credits.getD (chanNo vc) 0 + cells.toNat) } := by
    rw [PortSt.credited, acked]
  have enough : n ≤ (v.credited vc cells ack).credits.getD (chanNo vc) 0 := by
    rw [credited, List.getD, List.getElem?_set_self known]
    exact credits.trans (Nat.le_add_left ..)
  obtain ⟨_, _, _, _, _, _, sent⟩ := PortSt.egress_only (v := v.credited vc cells ack) (by rw [credited]; exact waits) some' enough
    (by rw [credited]; dsimp only; omega)
  rw [sent, credited]
  exact ⟨rfl, rfl, rfl⟩

end

/-! ### The clauses -/

section
variable {s : State} {x : Port}

/-- What credits that return do on a port that exchanges cells. -/
theorem creditReturn_feeds (runs : (s.port x.val).runs = true) (noEcho : s.echoes x = false) (vc : Chan) (cells ack : BitVec 12) :
    ∃ t, exec (.creditReturn x vc cells ack) s = .next t ∧ OnlyObjs [(0x1110 + x.val, 0x0D)] s t
      ∧ ((s.port x.val).replay < 512 → Changes [.port x.val] s t)
      ∧ t.port x.val = PortSt.feed s.nodeId x.val feedFuel ((s.port x.val).credited vc cells ack).egress := by
  refine ⟨_, creditReturn_sends runs noEcho, (s.onlyObjs_stalls x.val).of_dict rfl rfl, fun room => ?_,
    State.port_fed (State.nodeId_stalls ..) _⟩
  rw [State.stalls_of_room room]
  exact changes_of_keep (by simp)

end

/-- Settles O10: each event by whether the port exchanges cells, sends them back, or retrains. -/
theorem cellLayerEvents : Obligations.CellLayerEvents := by
  refine ⟨fun s x ack life noEcho => ?_, fun s x vc cells ack life noEcho => ?_, fun s x vc cells ack => ?_⟩
  · have runs : (s.port x.val).runs = true := PortSt.runs_of life
    refine ⟨?_, fun held idle => nakReceived_resends runs noEcho held idle, ?_, fun c n => ?_⟩
    · have run := codewordFail_naks runs noEcho
      exact ⟨_, run, State.port_setPort_same .., obj_bump_64 s 1 (objBits_portCounter x 0x0B (by decide)),
        (onlyObjs_bump ..).of_dict rfl rfl, (execCodewordFail_keep x s (by simp) (by simp)).changes run⟩
    · have run := ackTimer_acknowledges runs noEcho
      exact ⟨_, run, State.port_setPort_same .., State.onlyObjs_timed.of_dict rfl rfl,
        fun room => (State.obj_of_dict (s := s.timed x) rfl rfl ..).trans (State.obj_timed room),
        (execAckTimer_keep x s (by simp) (by simp) (by simp)).changes run⟩
    · have run := headerCrcError_counts life c n
      exact ⟨_, run, State.port_setPort_same .., obj_bump_64 (s.setPort ..) 1 (objBits_portCounter x 0x0E (by decide)),
        onlyObjs_bump (s.setPort ..) .., (execHeaderCrcError_keep ⟨x, c, n⟩ s (by simp) (by simp)).changes run⟩
  · have runs : (s.port x.val).runs = true := PortSt.runs_of life
    obtain ⟨t, run, only, calm, port⟩ := creditReturn_feeds runs noEcho vc cells ack
    refine ⟨t, run, (execCreditReturn_keep x vc cells ack s (by simp) (by simp) (by simp)).changes run, only, calm,
      fun idle held known => ?_, fun c n f waits noRun here known some' credits room => ?_⟩
    · rw [port, PortSt.egress_idle (by unfold PortSt.credited; rw [PortSt.acked_of_le held]; exact idle), PortSt.credited,
        PortSt.acked_of_le held]
    · obtain ⟨sent, waiting, loop⟩ := PortSt.egress_credited (ack := ack) (here ▸ waits) known some' credits room
      rw [port, PortSt.feed_still (loop.trans noRun)]
      exact ⟨sent, waiting⟩
  · refine ⟨fun decodes => ?_, fun retrains => ⟨?_, ?_⟩, fun echoes => ⟨?_, ?_⟩⟩
    · have run : exec (.codewordFail x) s = .next (s.bump (0x1110 + x.val) 0x0B 1) := by
        rcases decodes with echoes | out
        · exact codewordFail_counts (.inl (State.runs_of_echoes echoes)) (.inl echoes)
        · refine codewordFail_counts (.inr out) (.inr ?_)
          rcases out with h | h | h <;> exact PortSt.not_runs_of h
      exact ⟨_, run, obj_bump_64 s 1 (objBits_portCounter x 0x0B (by decide)), onlyObjs_bump .., changes_of_keep (by simp)⟩
    · exact ⟨_, nakReceived_retraining retrains, State.port_setPort_same .., changes_of_keep (by simp)⟩
    · exact ⟨_, creditReturn_retraining retrains, changes_of_keep (by simp), State.port_setPort_same ..⟩
    · obtain ⟨seq, port⟩ := State.port_echoIdle (s := s) (x := x) (ack := ack) true 3 0 (.nak ack.toNat)
      exact ⟨_, seq, nakReceived_echoes echoes, changes_of_keep (by simp), port⟩
    · exact ⟨_, ackTimer_echoes echoes, State.port_timed⟩

end Sys2Proof.Machine
end

