-- ==== Sys2Proof/Proofs/BringUp.lean ====
section
/-! The steps that bring a port up (O11). -/

namespace Sys2Proof.Machine

section
variable {s : State} {x : Port} {h : Hello}

/-! ### Signal, alignment and hellos (13 R343) -/

theorem State.fecLoop_of_gov (mode : s.gov (0x1110 + x.val) 6 ≠ 2) : s.fecLoop x = false := decide_eq_false mode

theorem signal_detects (down : (s.port x.val).life = .down) (power : s.power.railsUp = true) :
    exec (.signal x) s = .next (s.setPort x.val { s.port x.val with life := .signal }) := if_pos ⟨down, power⟩

theorem portAlign_aligns (signal : (s.port x.val).life = .signal) :
    exec (.portAlign x) s = .next (s.setPort x.val { s.port x.val with life := .aligned }) := if_pos signal

theorem trainTimeout_resets (trains : (s.port x.val).life = .signal ∨ (s.port x.val).life = .aligned) :
    exec (.trainTimeout x) s = .next (s.setPort x.val { s.port x.val with life := .down }) := if_pos trains

theorem helloTimer_sends
    (trains : (s.port x.val).life = .aligned ∨ (s.port x.val).life = .trainFailed ∨ (s.port x.val).life = .retraining)
    (mode : s.gov (0x1110 + x.val) 6 ≠ 2) : exec (.helloTimer x) s = .next (s.emit x.val (.hello (helloBytes s.nodeId))
      [((s.port x.val).helloHead, helloBytes s.nodeId)]) :=
  if_pos ⟨trains, by rw [State.fecLoop_of_gov mode]; rfl⟩

/-! ### A peer's hello (13 R325, R343 to R345) -/

theorem helloGood_iff : helloGood h = true ↔ h.version = 1 ∧ 16 ≤ h.ctrl.toNat ∧ 69 ≤ h.data.toNat ∧ 69 ≤ h.fwd.toNat := by
  simp [helloGood, and_assoc]

theorem helloGood_not (lacks : h.version ≠ 1 ∨ h.ctrl.toNat < 16 ∨ h.data.toNat < 69 ∨ h.fwd.toNat < 69) : helloGood h = false := by
  refine Bool.eq_false_iff.mpr fun good => ?_
  obtain ⟨version, ctrl, data, fwd⟩ := helloGood_iff.mp good
  rcases lacks with other | few | few | few
  · exact other version
  all_goals omega

/-- In mode 2 of LOOPBACK a hello goes back as it came. -/
def State.helloed (s : State) (x : Port) (h : Hello) : State :=
  if s.fecLoop x then s.emit x.val (.hello (helloPayload h)) [(helloHeader h, helloPayload h)] else s

theorem State.helloed_of_mode (mode : s.gov (0x1110 + x.val) 6 ≠ 2) : s.helloed x h = s :=
  if_neg (by rw [State.fecLoop_of_gov mode]; nofun)

theorem State.port_helloed_echo (mode : s.gov (0x1110 + x.val) 6 = 2) : (s.helloed x h).port x.val = { s.port x.val with
    sent := .hello (helloPayload h) :: (s.port x.val).sent, cells := (helloHeader h, helloPayload h) :: (s.port x.val).cells } := by
  rw [State.helloed, if_pos (show s.fecLoop x = true from decide_eq_true mode)]
  exact State.port_setPort_same ..

/-- What a hello leaves of its port before it is judged. -/
theorem State.port_helloed : ∃ sent cells, (s.helloed x h).port x.val = { s.port x.val with sent := sent, cells := cells } := by
  by_cases mode : s.gov (0x1110 + x.val) 6 = 2
  · exact ⟨_, _, State.port_helloed_echo mode⟩
  · exact ⟨_, _, by rw [State.helloed_of_mode mode]⟩

theorem State.life_helloed : ((s.helloed x h).port x.val).life = (s.port x.val).life := by
  obtain ⟨_, _, port⟩ := State.port_helloed (s := s) (x := x) (h := h)
  rw [port]

/-- The state of a link that a good hello brings up. -/
def State.lifeUp (s : State) (x : Port) : LinkLife := if s.gov (0x1110 + x.val) 6 = 0 then .up else .loopback

/-- A port that a good hello opens, as its peer describes itself. -/
def PortSt.opened (v : PortSt) (life : LinkLife) (h : Hello) : PortSt :=
  { v with
    life := life, peerModule := decide (h.role = 1), peerNode := h.node
    credits := [h.ctrl.toNat, h.data.toNat, h.fwd.toNat], owed := [0, 0, 0], txSeq := 0, rxSeq := 0xFFF, replay := 0, waiting := [] }

theorem PortSt.rxSeq_opened (v : PortSt) (life : LinkLife) : (v.opened life h).rxSeq + 1 = 0 := by
  show (0xFFF : BitVec 12) + 1 = 0
  decide

/-- A port that goes on after a retrain with what it held. -/
def PortSt.resumed (v : PortSt) (life : LinkLife) (h : Hello) : PortSt :=
  { v.acked h.ack with life := life, peerModule := decide (h.role = 1), peerNode := h.node }

/-- What a hello does to a port that waits for one. -/
theorem exec_helloReceive
    (trains : (s.port x.val).life = .aligned ∨ (s.port x.val).life = .trainFailed ∨ (s.port x.val).life = .retraining) :
    exec (.helloReceive x h) s =
      let t := s.helloed x h
      let v := t.port x.val
      let u := t.setPort x.val (v.resumed (s.lifeUp x) h)
      if !helloGood h then .next (t.setPort x.val { v with life := .trainFailed })
      else if v.life = .retraining then
        let u := if (v.acked h.ack).replay = 0 || u.fecLoop x then u else u.resend x.val
        .next (if u.fecLoop x then u else u.setPort x.val (u.port x.val).egress)
      else .next (t.setPort x.val (v.opened (s.lifeUp x) h)) := by
  have live : ((s.port x.val).runs || decide ((s.port x.val).life = .aligned ∨ (s.port x.val).life = .trainFailed
      ∨ (s.port x.val).life = .retraining)) = true := by rw [decide_eq_true trains, Bool.or_true]
  have waits : ¬ (((s.helloed x h).port x.val).life ≠ .aligned ∧ ((s.helloed x h).port x.val).life ≠ .trainFailed
      ∧ ((s.helloed x h).port x.val).life ≠ .retraining) := by
    rw [State.life_helloed]
    rcases trains with life | life | life <;> simp [life]
  show execHelloReceive x h s = _
  unfold execHelloReceive
  rw [live]
  exact if_neg waits

theorem helloReceive_fails (trains : (s.port x.val).life = .aligned ∨ (s.port x.val).life = .trainFailed)
    (lacks : helloGood h = false) (mode : s.gov (0x1110 + x.val) 6 ≠ 2) :
    exec (.helloReceive x h) s = .next (s.setPort x.val { s.port x.val with life := .trainFailed }) := by
  rw [exec_helloReceive (trains.imp_right .inl), State.helloed_of_mode mode]
  exact if_pos (by rw [lacks]; rfl)

theorem helloReceive_opens (trains : (s.port x.val).life = .aligned ∨ (s.port x.val).life = .trainFailed)
    (good : helloGood h = true) : exec (.helloReceive x h) s
      = .next ((s.helloed x h).setPort x.val (((s.helloed x h).port x.val).opened (s.lifeUp x) h)) := by
  have noRetrain : ¬ ((s.helloed x h).port x.val).life = .retraining := by
    rw [State.life_helloed]
    rcases trains with life | life <;> simp [life]
  rw [exec_helloReceive (trains.imp_right .inl)]
  exact (if_neg (by rw [good]; nofun)).trans (if_neg noRetrain)

/-- A good hello opens the port, which keeps its owner. -/
theorem helloReceive_opensPort (trains : (s.port x.val).life = .aligned ∨ (s.port x.val).life = .trainFailed)
    (good : helloGood h = true) : ∃ t, exec (.helloReceive x h) s = .next t
      ∧ t.port x.val = ({ s.port x.val with
          sent := ((s.helloed x h).port x.val).sent, cells := ((s.helloed x h).port x.val).cells } : PortSt).opened (s.lifeUp x) h
      ∧ Changes [.port x.val] s t := by
  obtain ⟨sent, cells, port⟩ := State.port_helloed (s := s) (x := x) (h := h)
  refine ⟨_, helloReceive_opens trains good, ?_, ?_⟩
  · rw [State.port_setPort_same, port]
  · unfold State.helloed
    exact changes_of_keep (by simp)

/-! ### After a retrain (13 R344) -/

/-- The port goes on with what it held, and what its peer did not acknowledge is sent again. -/
def State.resumes (s : State) (x : Port) (h : Hello) : State :=
  let w := (s.port x.val).resumed .up h
  if w.replay = 0 then s.setPort x.val w else (s.setPort x.val w).resend x.val

theorem State.port_resumes : ∃ sent cells, (s.resumes x h).port x.val = { (s.port x.val).resumed .up h with sent := sent, cells := cells }
    ∧ (((s.port x.val).acked h.ack).replay ≠ 0 → sent = .resend ((s.port x.val).txSeq
        - BitVec.ofNat 12 ((s.port x.val).acked h.ack).replay).toNat ((s.port x.val).acked h.ack).replay :: (s.port x.val).sent) := by
  obtain ⟨n, -, acked⟩ := (s.port x.val).acked_eq h.ack
  have resumed : (s.port x.val).resumed .up h = { s.port x.val with
      replay := n, life := .up, peerModule := decide (h.role = 1), peerNode := h.node } := by
    rw [PortSt.resumed, acked]
  rw [acked, State.resumes, resumed]
  dsimp only
  by_cases all : n = 0
  · rw [if_pos all, State.port_setPort_same]
    exact ⟨_, _, rfl, fun some' => absurd all some'⟩
  · rw [if_neg all, State.resend, State.emit, State.port_setPort_same, State.port_setPort_same]
    exact ⟨_, _, rfl, fun _ => rfl⟩

theorem State.gov_resumes (i j : Nat) : (s.resumes x h).gov i j = s.gov i j := by
  unfold State.resumes
  dsimp only
  split <;> rfl

theorem State.changes_resumes : Changes [.port x.val] s (s.resumes x h) := by
  unfold State.resumes
  exact changes_of_keep (by simp)

theorem helloReceive_resumes (retrains : (s.port x.val).life = .retraining) (good : helloGood h = true)
    (up : s.gov (0x1110 + x.val) 6 = 0) : exec (.helloReceive x h) s
      = .next ((s.resumes x h).setPort x.val ((s.resumes x h).port x.val).egress) := by
  have mode : s.gov (0x1110 + x.val) 6 ≠ 2 := by omega
  have quiet : (s.setPort x.val ((s.port x.val).resumed .up h)).fecLoop x = false := State.fecLoop_of_gov mode
  have quiet' : ¬ (s.resumes x h).fecLoop x = true := by
    rw [State.fecLoop_of_gov (by rwa [State.gov_resumes])]
    nofun
  rw [exec_helloReceive (.inr (.inr retrains)), State.helloed_of_mode mode, show s.lifeUp x = .up from if_pos up]
  refine (if_neg (by rw [good]; nofun)).trans ((if_pos retrains).trans ?_)
  dsimp only
  rw [quiet, Bool.or_false]
  simp only [decide_eq_true_eq]
  exact congrArg Host.Outcome.next (if_neg quiet')

/-- Where nothing waits, only what is in the replay buffer is sent. -/
theorem helloReceive_resumesPort (retrains : (s.port x.val).life = .retraining) (good : helloGood h = true)
    (up : s.gov (0x1110 + x.val) 6 = 0) (idle : (s.port x.val).waiting = []) :
    ∃ t n sent cells, exec (.helloReceive x h) s = .next t ∧ n = ((s.port x.val).acked h.ack).replay
      ∧ t.port x.val = { s.port x.val with
          replay := n, life := .up, peerModule := decide (h.role = 1), peerNode := h.node, sent := sent, cells := cells }
      ∧ (n ≠ 0 → sent = .resend ((s.port x.val).txSeq - BitVec.ofNat 12 n).toNat n :: (s.port x.val).sent)
      ∧ Changes [.port x.val] s t := by
  obtain ⟨sent, cells, port, resent⟩ := State.port_resumes (s := s) (x := x) (h := h)
  obtain ⟨n, -, acked⟩ := (s.port x.val).acked_eq h.ack
  rw [PortSt.resumed, acked] at port
  rw [acked] at resent ⊢
  refine ⟨_, n, sent, cells, helloReceive_resumes retrains good up, rfl, ?_, resent,
    (State.changes_resumes (h := h)).trans (changes_of_keep (by simp))⟩
  have waiting : ((s.resumes x h).port x.val).waiting = [] := by
    rw [port]
    exact idle
  rw [State.port_setPort_same, PortSt.egress_idle waiting, port]

end

/-- Settles O11, step by step; a hello by what it says, by LOOPBACK, and by whether the port was UP before. -/
theorem portsAreBroughtUp : Obligations.PortsAreBroughtUp := by
  intro s x h
  refine ⟨fun down power => ?_, fun signal => ?_, fun trains mode => ?_, fun trains => ?_, fun trains => ⟨?_, ?_, ?_⟩,
    fun retrains good idle up => ?_⟩
  · exact ⟨_, signal_detects down power, State.port_setPort_same .., changes_of_keep (by simp)⟩
  · exact ⟨_, portAlign_aligns signal, State.port_setPort_same .., changes_of_keep (by simp)⟩
  · exact ⟨_, helloTimer_sends trains mode, State.port_setPort_same .., changes_of_keep (by simp)⟩
  · exact ⟨_, trainTimeout_resets trains, State.port_setPort_same .., changes_of_keep (by simp)⟩
  · intro version ctrl data fwd up
    obtain ⟨t, run, port, changes⟩ := helloReceive_opensPort trains (helloGood_iff.mpr ⟨version, ctrl, data, fwd⟩)
    rw [show s.lifeUp x = .up from if_pos up] at port
    refine ⟨t, run, ?_⟩
    rw [port]
    exact ⟨rfl, rfl, rfl, PortSt.rxSeq_opened .., rfl, rfl, rfl, rfl, rfl, changes⟩
  · intro lacks mode
    exact ⟨_, helloReceive_fails trains (helloGood_not lacks) mode, State.port_setPort_same .., changes_of_keep (by simp)⟩
  · intro good loops
    obtain ⟨t, run, port, changes⟩ := helloReceive_opensPort trains good
    rw [show s.lifeUp x = .loopback from if_neg loops] at port
    refine ⟨t, run, ?_⟩
    rw [port]
    refine ⟨rfl, rfl, rfl, PortSt.rxSeq_opened .., rfl, fun mode => ?_, fun mode => ?_, changes⟩
    · exact ⟨congrArg PortSt.sent (State.port_helloed_echo mode), congrArg PortSt.cells (State.port_helloed_echo mode)⟩
    · show ((s.helloed x h).port x.val).sent = _ ∧ ((s.helloed x h).port x.val).cells = _
      rw [State.helloed_of_mode mode]
      exact ⟨rfl, rfl⟩
  · obtain ⟨t, n, sent, cells, run, n_eq, port, resent, changes⟩ := helloReceive_resumesPort retrains good up idle
    refine ⟨t, run, ?_⟩
    rw [← n_eq, port]
    exact ⟨rfl, rfl, rfl, rfl, rfl, resent, changes⟩

end Sys2Proof.Machine
end

