-- ==== Sys2Proof/Proofs/Retrains.lean ====
section
/-! Links that retrain, links that go DOWN, and loopbacks (O12). -/

namespace Sys2Proof.Machine

section
variable {s u : State} {x : Port}

/-! ### A link that goes DOWN (13 R344; 16 R404) -/

/-- The report of a link that went DOWN. -/
def linkDownReport (x : Port) (r : Report) : Prop :=
  r.cause = 0x0070 ∧ r.sourceKind = 5 ∧ r.sourceId.toNat = x.val ∧ r.portValid = false ∧ r.severity = 0

theorem State.port_linkDown (s : State) (x : Port) : (s.linkDown x).port x.val = (s.port x.val).flush .down := by
  rw [State.linkDown, State.port_raise, State.port_setPort_same]

theorem State.port_linkDown_other (s : State) {y : Nat} (other : y ≠ x.val) : (s.linkDown x).port y = s.port y := by
  rw [State.linkDown, State.port_raise, State.port_setPort, if_neg other]

theorem State.onlyRecords_linkDown (s : State) (x : Port) : s.OnlyRecords (s.linkDown x) := by
  have noMem : causeLinkDown ≠ causeMem ∧ causeLinkDown ≠ causeScrub := by decide
  have down : s.OnlyRecords (s.setPort x.val ((s.port x.val).flush .down)) := .of_eq rfl rfl rfl
  exact down.trans (State.onlyRecords_raise _ noMem)

theorem State.raised_linkDown (room : s.SlotFree) (x : Port) : Raised s (s.linkDown x) (linkDownReport x) := by
  have room' : (s.setPort x.val ((s.port x.val).flush .down)).SlotFree := room
  have number : (BitVec.ofNat 8 x.val).toNat = x.val := by
    rw [BitVec.toNat_ofNat]
    omega
  refine (State.raise_raised room' (report causeLinkDown 5 x.val 0 0)).mono fun r stated => ?_
  exact ⟨congrArg Report.cause stated, congrArg Report.sourceKind stated,
    (congrArg (BitVec.toNat ∘ Report.sourceId) stated).trans number, congrArg Report.portValid stated, congrArg Report.severity stated⟩

theorem retrainTimeout_downs (retrains : (s.port x.val).life = .retraining) :
    exec (.retrainTimeout x) s = .next (s.linkDown x) := if_pos retrains

/-! ### Retrains (13 R342, R344; 14 R360) -/

theorem State.port_beginRetrain : (s.beginRetrain x).port x.val = { s.port x.val with
    life := .retraining, retrains := s.clock.now :: s.lateRetrains (s.port x.val)
    waiting := (s.port x.val).waiting.filter (fun w => !isForward w.2.2) } := by
  rw [State.beginRetrain, State.leaveUp_port _ x x.isLt, if_pos rfl, State.port_bumpSat, State.port_setPort_same]

theorem State.port_beginRetrain_other {y : Nat} (port : y < 4) (other : y ≠ x.val) :
    (s.beginRetrain x).port y = { s.port y with waiting := (s.port y).waiting.map (cutForward x) } := by
  rw [State.beginRetrain, State.leaveUp_port _ x port, if_neg other, State.port_bumpSat, State.port_setPort, if_neg other]

theorem State.changes_beginRetrain : Changes [.ports, .dict] s (s.beginRetrain x) := by
  unfold State.beginRetrain
  exact changes_of_keep (by simp)

/-- What a port that leaves UP leaves of the dictionary: its transfers end, and the retrain is counted. -/
structure State.LeftUp (s t : State) (x : Port) : Prop where
  count : t.obj (0x1110 + x.val) 0x10 = min (s.obj (0x1110 + x.val) 0x10 + 1) (2 ^ 32 - 1)
  reads : t.dict.reads = s.dict.reads.filter (fun o => decide (o.port ≠ x))
  writes : t.dict.writes = s.dict.writes.filter (fun o => decide (o.port ≠ x))
  gov : t.dict.gov = s.dict.gov

theorem State.leftUp_beginRetrain : s.LeftUp (s.beginRetrain x) x := by
  let counted := (s.setPort x.val { s.port x.val with
    life := .retraining, retrains := s.clock.now :: s.lateRetrains (s.port x.val) }).bumpSat (0x1110 + x.val) 0x10 1
  have dict : (s.beginRetrain x).dict = { counted.dict with
      reads := s.dict.reads.filter (fun o => decide (o.port ≠ x))
      writes := s.dict.writes.filter (fun o => decide (o.port ≠ x)) } := counted.leaveUp_dict x
  have power : (s.beginRetrain x).power = counted.power := State.changes_beginRetrain.same .power
  have bits : objBits (0x1110 + x.val) 0x10 = 32 := objBits_retrains x
  refine ⟨?_, by rw [dict], by rw [dict], by rw [dict]; rfl⟩
  rw [State.obj_congr (s := counted) (by rw [dict]) (by rw [power]), obj_bumpSat_same _ 1 (by omega), bits]
  rfl

/-- A record changes nothing of it. -/
theorem State.LeftUp.linkDown (left : s.LeftUp u x) : s.LeftUp (u.linkDown x) x := by
  have only := (u.onlyRecords_linkDown x).only
  obtain ⟨count, reads, writes, gov⟩ := left
  refine ⟨?_, ?_, ?_, ?_⟩
  · rw [only.obj_of_lt (n := objKey 0x7000 0) (by decide) (by unfold objKey; omega), count]
  · rw [only.1, reads]
  · rw [only.1, writes]
  · rw [only.1, gov]

theorem State.slotFree_beginRetrain (room : s.SlotFree) : (s.beginRetrain x).SlotFree := by
  have errors : (s.beginRetrain x).errors = s.errors := State.changes_beginRetrain.same .errors
  unfold State.SlotFree
  rwa [errors]

/-- The third retrain within a second sends the port DOWN, with its record. -/
theorem State.raised_thirdRetrain (room : s.SlotFree) : Raised s ((s.beginRetrain x).linkDown x) (linkDownReport x) :=
  (State.raised_linkDown (State.slotFree_beginRetrain room) x).of_eq (State.changes_beginRetrain.same .errors)
    (State.changes_beginRetrain.same .clock)

end

/-! ### Loopbacks (13 R345) -/

section
variable {s : State} {x : Port} {f : Transit}

/-- A frame as mode 3 sends it back. -/
def turnedBack (f : Transit) : Transit := { f with src := f.dst, dst := f.src, reply := true }

/-- The channel on which forwarding would send a frame. -/
def PortSt.chanFor (v : PortSt) (data : Bool) : Chan := if v.peerModule then .fwd else if data then .data else .ctrl

/-- A frame of mode 3 waits to go back. -/
def PortSt.returns (v : PortSt) (x : Port) (f : Transit) : PortSt :=
  { v.gets (chanNo f.chan) (transitCells f) with
    waiting := v.waiting ++ [(v.chanFor f.dataClass, transitCells f, .forward x (turnedBack f) false)] }

theorem frameLoopback_returns (loops : (s.port x.val).life = .loopback) (mode : s.gov (0x1110 + x.val) 6 = 3) :
    exec (.frameLoopback x f) s = .next (s.setPort x.val ((s.port x.val).returns x f).egress) := if_pos ⟨loops, mode⟩

/-- With credits and room in the replay buffer it goes at once. -/
theorem PortSt.egress_returns {v : PortSt} (idle : v.waiting = []) (credits : ∀ c, c < 3 → transitCells f ≤ v.credits.getD c 0)
    (room : v.replay + transitCells f ≤ 512) :
    (v.returns x f).egress.sent = .forward x (turnedBack f) false :: v.sent ∧ v.OnlyCells (v.returns x f).egress := by
  have known : chanNo (v.chanFor f.dataClass) < 3 := by cases v.chanFor f.dataClass <;> decide
  obtain ⟨_, _, _, _, _, _, sent⟩ := PortSt.egress_only (v := v.returns x f) (by rw [PortSt.returns, idle]; rfl)
    (frameCells_pos f.payload.length) (credits _ known) room
  rw [sent]
  refine ⟨rfl, ?_⟩
  unfold PortSt.OnlyCells PortSt.returns
  rw [← idle]
  rfl

theorem frameLoopback_echoes (loops : (s.port x.val).life = .loopback) (mode : s.gov (0x1110 + x.val) 6 = 2) :
    exec (.frameLoopback x f) s = .next (s.emit x.val (.forward x f false) []) := by
  have echoes : s.echoes x = true := Bool.and_eq_true_iff.mpr ⟨decide_eq_true loops, decide_eq_true mode⟩
  exact (if_neg (by rw [mode]; simp)).trans (if_pos echoes)

/-- The generator checks a frame that came back, and goes on. -/
theorem frameLoopback_checks (loops : (s.port x.val).life = .loopback) (echo : s.gov (0x1110 + x.val) 6 ≠ 2)
    (back : s.gov (0x1110 + x.val) 6 ≠ 3) : exec (.frameLoopback x f) s
      = .next ((s.setPort x.val { (s.port x.val).gets (chanNo f.chan) (transitCells f) with
          loopRun := (s.port x.val).loopRun.map (fun g => g.check s.nodeId x.val f) }).feed x) := by
  have noEcho : ¬ s.echoes x = true := by
    rw [State.echoes, State.fecLoop_of_gov echo, Bool.and_false]
    nofun
  exact (if_neg fun h => back h.2).trans ((if_neg noEcho).trans (if_pos loops))

/-! ### The end of a run (13 R346, R347) -/

/-- The generator of a port has stopped after `n` more frames, and what has not begun to leave is not sent. -/
def PortSt.loopEnded (v : PortSt) (n : Nat) : PortSt :=
  { v with loopRun := none, waiting := v.waiting.filter (fun w => decide (w.2.1 < w.2.2.cells)), sent := .run n :: v.sent }

theorem loopRunEnd_stops {g : LoopRun} (run : (s.port x.val).loopRun = some g) (good failed : Nat) :
    exec (.loopRunEnd x good failed) s = .next ((s.setPort x.val ((s.port x.val).loopEnded (good + failed))).put (0x1110 + x.val) 8
      (field 32 32 (g.good + good) + field 31 1 (g.failed + failed) + 1)) := by
  show execLoopRunEnd x good failed s = _
  unfold execLoopRunEnd
  dsimp only
  rw [run]
  rfl

/-- LOOP_RESULT holds both counts. -/
theorem State.obj_loopResult {a b : Nat} (good : a < 2 ^ 32) (failed : b < 2 ^ 31) :
    (s.put (0x1110 + x.val) 8 (field 32 32 a + field 31 1 b + 1)).obj (0x1110 + x.val) 8 = a * 2 ^ 32 + b * 2 + 1 := by
  rw [State.obj_put, if_pos rfl, objBits_loopResult, field_fit good, field_fit failed, Nat.mod_mod]
  exact Nat.mod_eq_of_lt (by omega)

end

/-- Settles O12: a link that loses alignment by whether it retrains a third time, a frame that comes back by the mode. -/
theorem linksRetrainAndLoop : Obligations.LinksRetrainAndLoop := by
  refine ⟨fun s x life => ?_, fun s x retrains room => ?_, fun s x f loops mode idle credits room => ?_, fun s x f loops => ⟨?_, ?_⟩,
    fun s x good failed g run goodFits failedFits => ?_⟩
  · have retrain : s.retrain x = if 2 ≤ (s.lateRetrains (s.port x.val)).length then (s.beginRetrain x).linkDown x else s.beginRetrain x :=
      State.retrain_of_runs s x (PortSt.runs_of life)
    have changes := (execAlignmentLost_keep (W := [.ports, .dict, .errors, .observe, .free]) x s (by simp) (by simp) (by simp)
      (by simp) (by simp)).changes rfl
    refine ⟨s.retrain x, rfl, fun few => ?_, fun third => ?_, fun y port other => ?_, ?_⟩
    · rw [retrain, if_neg (by omega)]
      exact ⟨State.port_beginRetrain, State.changes_beginRetrain⟩
    · rw [retrain, if_pos third]
      refine ⟨?_, State.raised_thirdRetrain⟩
      rw [State.port_linkDown, State.port_beginRetrain]
      rfl
    · rw [retrain]
      split
      · rw [State.port_linkDown_other _ other, State.port_beginRetrain_other port other]
      · exact State.port_beginRetrain_other port other
    · have left : s.LeftUp (s.retrain x) x := by
        rw [retrain]
        split
        · exact State.leftUp_beginRetrain.linkDown
        · exact State.leftUp_beginRetrain
      exact ⟨left.count, left.reads, left.writes, left.gov, changes⟩
  · exact ⟨_, retrainTimeout_downs retrains, State.port_linkDown s x, State.raised_linkDown room x, changes_of_keep (by simp)⟩
  · obtain ⟨sent, cells⟩ := PortSt.egress_returns (x := x) idle credits room
    refine ⟨_, frameLoopback_returns loops mode, ?_⟩
    rw [State.port_setPort_same]
    exact ⟨sent, cells, changes_of_keep (by simp)⟩
  · exact fun mode => ⟨_, frameLoopback_echoes loops mode, State.port_setPort_same .., changes_of_keep (by simp)⟩
  · intro g mode run
    refine ⟨_, frameLoopback_checks loops (by omega) (by omega), changes_of_keep (by simp), ?_⟩
    rw [State.port_fed rfl, run]
    rfl
  · exact ⟨_, loopRunEnd_stops run good failed, State.port_setPort_same .., State.obj_loopResult goodFits failedFits,
      onlyObjs_put (s.setPort ..) .., changes_of_keep (by simp)⟩

end Sys2Proof.Machine
end

