-- ==== Sys2Proof/Proofs/PushedInput.lean ====
section
/-! DATA_PUSH into the input area of a set, and as the data of a WRITE: the clauses of O21 with SPACE 0. -/

namespace Sys2Proof.Machine

section
variable {s : State} {r : Req} {set : SetId} {off : BitVec 48} {payload : Bytes}

/-! ### Answers (15 R376, R377) -/

/-- A frame that is answered, and nothing else, changes only the sending and receiving of its port. -/
theorem State.only_answers (roomy : (s.port r.port.val).Roomy) {c : Instr} {n type status args : Nat}
    (run : exec c s = .next ((s.heard r.port.val n (chanNo r.chan)).reply r type status args [])) :
    ∃ t, exec c s = .next t ∧ Replied s t r type status args [] ∧ Changes [.port r.port.val] s t
      ∧ (s.port r.port.val).OnlyCells (t.port r.port.val) := by
  obtain ⟨t, t_eq, answered⟩ := State.answers_heard roomy n type status args (payload := []) (by simp)
  exact ⟨t, run.trans (congrArg Host.Outcome.next t_eq.symm), answered⟩

/-- The answer once the work is done, where the work is no matter of the port. -/
theorem State.replied_worked {u : State} (roomy : (s.port r.port.val).Roomy) {n : Nat} {l : List Place}
    (worked : Changes l (s.heard r.port.val n (chanNo r.chan)) u)
    (apart : .port r.port.val ∉ l ∧ .ports ∉ l ∧ .dict ∉ l ∧ .power ∉ l ∧ .clock ∉ l) (type status args : Nat) :
    Replied s (u.reply r type status args []) r type status args [] := by
  obtain ⟨noPort, noPorts, noDict, noPower, noClock⟩ := apart
  have port : u.port r.port.val = (s.heard r.port.val n (chanNo r.chan)).port r.port.val := worked (.port _) noPort noPorts
  have dict : u.dict = s.dict := worked .dict noDict noDict
  have power : u.power = s.power := worked .power noPower noPower
  have clock : u.clock = s.clock := worked .clock noClock noClock
  refine State.replied_of_reply ?_ (by simp) ?_ ?_ ?_ (by rw [clock])
  · rw [port]
    exact State.roomy_heard roomy n _
  · rw [port, State.port_heard]
    rfl
  · rw [port, State.port_heard]
    rfl
  · exact State.gov_congr (congrArg Dict.gov dict) (congrArg Power.ids power) _ _

/-- ARGS that break R376 are refused before anything else. -/
theorem State.serveSet_badFrame (admits : s.Admits r true) {ok : Bool} (bad : (ok && argsLowZero r) = false) (type n echo : Nat)
    (k : State → State) : s.serveSet r type ok k n echo = (s.heard r.port.val n (chanNo r.chan)).reply r type stBadFrame echo [] := by
  unfold State.serveSet
  rw [admits.reaches, admits.good, bad]
  exact if_pos rfl

theorem aligned_and_low_false {a : Nat} (broken : a % 64 ≠ 0 ∨ argsLowZero r = false) :
    (decide (a % 64 = 0) && argsLowZero r) = false := by
  rcases broken with odd | high
  · rw [decide_eq_false odd, Bool.false_and]
  · rw [high, Bool.and_false]

/-- A payload of whole 64-byte units is a push. -/
theorem pushOk_of (least : 64 ≤ payload.length) (most : payload.length ≤ 8192) (whole : payload.length % 64 = 0) :
    pushOk payload = true := by
  unfold pushOk inRange
  simp [least, most, whole]

/-- What a reply to a push returns in ARGS. -/
def State.pushArgs (s : State) (r : Req) (set : SetId) (space : Bool) (a : Nat) : Nat :=
  requestEcho r (goField ++ regFields ++ clearField ++ lengthField)
    + setArgs set.val false 0 0 space a 0 0 0 0 (s.lifeOf (setKey r.port set)) false

/-! ### Pushes into a set (15 R377, R382) -/

theorem dataPushInput_badFrame (admits : s.Admits r true) (broken : off.toNat % 64 ≠ 0 ∨ argsLowZero r = false) :
    exec (.dataPushInput r set off payload) s = .next ((s.heard r.port.val payload.length (chanNo r.chan)).reply r 0x30 stBadFrame
      (s.pushArgs r set false off.toNat) []) :=
  congrArg Host.Outcome.next (State.serveSet_badFrame admits (aligned_and_low_false broken) ..)

section
variable (admits : s.Admits r true) (aligned : off.toNat % 64 = 0) (low : argsLowZero r = true) (takes : s.defers r = false)
include admits aligned low takes

/-- What becomes of a push whose ARGS are good and that is not put off. -/
theorem exec_dataPushInput : exec (.dataPushInput r set off payload) s =
    let h := s.heard r.port.val payload.length (chanNo r.chan)
    let k := setKey r.port set
    let t := s.tset k
    let answer := fun (s' : State) (status : Nat) => s'.reply r 0x30 status (s.pushArgs r set false off.toNat) []
    .next (if t.life = .taken ∧ t.opcode ≠ 0x11 then answer h stBusy
      else if t.life = .taken then
        if !pushOk payload || decide (t.reg 3 * 4096 < off.toNat + payload.length) then answer h stBadLength
        else answer (h.setTset k (t.arrive t.count off.toNat payload)) stOk
      else if !pushOk payload || decide (65536 < off.toNat + payload.length) then answer h stBadLength
      else answer (h.setTset k { t with input := t.input.writeBytes off.toNat payload }) stOk) := by
  have takes' : ¬ (s.heard r.port.val payload.length (chanNo r.chan)).defers r = true := fun d => Bool.false_ne_true (takes.symm.trans d)
  show execDataPushInput r set off payload s = _
  unfold execDataPushInput
  dsimp only
  rw [decide_eq_true aligned, State.serveSet_admitted admits low, if_neg takes']
  simp only [State.tset_heard]
  rfl

theorem dataPushInput_busy (taken : (s.tset (setKey r.port set)).life = .taken) (other : (s.tset (setKey r.port set)).opcode ≠ 0x11) :
    exec (.dataPushInput r set off payload) s = .next ((s.heard r.port.val payload.length (chanNo r.chan)).reply r 0x30 stBusy
      (s.pushArgs r set false off.toNat) []) :=
  (exec_dataPushInput admits aligned low takes).trans (congrArg Host.Outcome.next (if_pos ⟨taken, other⟩))

theorem dataPushInput_stores (push : pushOk payload = true) (free : (s.tset (setKey r.port set)).life ≠ .taken)
    (fits : off.toNat + payload.length ≤ 65536) : exec (.dataPushInput r set off payload) s
      = .next (((s.heard r.port.val payload.length (chanNo r.chan)).setTset (setKey r.port set) { s.tset (setKey r.port set) with
          input := (s.tset (setKey r.port set)).input.writeBytes off.toNat payload }).reply r 0x30 stOk
            (s.pushArgs r set false off.toNat) []) := by
  have inside : ¬ (!pushOk payload || decide (65536 < off.toNat + payload.length)) = true := by
    rw [push, decide_eq_false (by omega)]
    nofun
  exact (exec_dataPushInput admits aligned low takes).trans (congrArg Host.Outcome.next
    ((if_neg fun busy => free busy.1).trans ((if_neg free).trans (if_neg inside))))

theorem dataPushInput_arrives (push : pushOk payload = true) (taken : (s.tset (setKey r.port set)).life = .taken)
    (write : (s.tset (setKey r.port set)).opcode = 0x11)
    (fits : off.toNat + payload.length ≤ (s.tset (setKey r.port set)).reg 3 * 4096) : exec (.dataPushInput r set off payload) s
      = .next (((s.heard r.port.val payload.length (chanNo r.chan)).setTset (setKey r.port set) ((s.tset (setKey r.port set)).arrive
          (s.tset (setKey r.port set)).count off.toNat payload)).reply r 0x30 stOk (s.pushArgs r set false off.toNat) []) := by
  have inside : ¬ (!pushOk payload || decide ((s.tset (setKey r.port set)).reg 3 * 4096 < off.toNat + payload.length)) = true := by
    rw [push, decide_eq_false (by omega)]
    nofun
  exact (exec_dataPushInput admits aligned low takes).trans (congrArg Host.Outcome.next
    ((if_neg fun busy => busy.2 write).trans ((if_pos taken).trans (if_neg inside))))

end

/-! ### The data of a WRITE, unit by unit (15 R382) -/

/-- Unit `i` of a push arrives, unless its piece has been accepted. -/
def TaskSet.arriveUnit (blocks off : Nat) (payload : Bytes) (t : TaskSet) (i : Nat) : TaskSet :=
  let a := off + 64 * i
  if a < blocks * 4096 then t
  else { t with
    wdata := t.wdata.writeBytes a ((payload.drop (64 * i)).take 64)
    arrived := if a / 64 ∈ t.arrived then t.arrived else t.arrived ++ [a / 64] }

theorem TaskSet.arrive_eq (t : TaskSet) (blocks off : Nat) (payload : Bytes) : t.arrive blocks off payload
    = (List.range (payload.length / 64)).foldl (TaskSet.arriveUnit blocks off payload) t := rfl

/-- From `t` to `u` the first `n` units of a push at `off` arrived. -/
structure TaskSet.Arrived (t u : TaskSet) (off : Nat) (payload : Bytes) (n : Nat) : Prop where
  units : ∀ i, i < n → off / 64 + i ∈ u.arrived
  before : ∀ i, i ∈ t.arrived → i ∈ u.arrived
  data : ∀ a, u.wdata.read a = if off ≤ a ∧ a < off + 64 * n then payload.getD (a - off) 0 else t.wdata.read a

/-- A read after one unit of a payload was stored in its place. -/
theorem Mem.read_writeUnit (m : Mem) (b i a : Nat) (has : 64 * (i + 1) ≤ payload.length) :
    (m.writeBytes (b + 64 * i) ((payload.drop (64 * i)).take 64)).read a
      = if b + 64 * i ≤ a ∧ a < b + 64 * (i + 1) then payload.getD (a - b) 0 else m.read a := by
  rw [Mem.read_writeBytes, List.getElem?_take, List.getElem?_drop]
  by_cases inside : b + 64 * i ≤ a ∧ a < b + 64 * (i + 1)
  · have place : 64 * i + (a - (b + 64 * i)) = a - b := by omega
    rw [if_pos inside, if_pos inside.1, if_pos (by omega), place, List.getD, List.getElem?_eq_getElem (by omega)]
    rfl
  · rw [if_neg inside]
    by_cases after : b + 64 * i ≤ a
    · rw [if_pos after, if_neg (by omega)]
      rfl
    · rw [if_neg after]

theorem TaskSet.arrived_units {t : TaskSet} {blocks off : Nat} (aligned : off % 64 = 0) (late : blocks * 4096 ≤ off) {n : Nat}
    (has : 64 * n ≤ payload.length) :
    t.Arrived ((List.range n).foldl (TaskSet.arriveUnit blocks off payload) t) off payload n := by
  induction n with
  | zero => exact ⟨by omega, fun _ h => h, fun a => by rw [if_neg (by omega)]; rfl⟩
  | succ n ih =>
    obtain ⟨units, before, data⟩ := ih (by omega)
    rw [List.range_succ, List.foldl_append, List.foldl_cons, List.foldl_nil]
    generalize (List.range n).foldl (TaskSet.arriveUnit blocks off payload) t = u at units before data
    have unit : (off + 64 * n) / 64 = off / 64 + n := by omega
    rw [TaskSet.arriveUnit, if_neg (by omega), unit]
    have kept : ∀ i, i ∈ u.arrived → i ∈ if off / 64 + n ∈ u.arrived then u.arrived else u.arrived ++ [off / 64 + n] := by
      intro i mem
      split
      · exact mem
      · exact List.mem_append_left _ mem
    refine ⟨fun i small => ?_, fun i mem => kept i (before i mem), fun a => ?_⟩
    · rcases Nat.lt_succ_iff_lt_or_eq.mp small with old | rfl
      · exact kept _ (units i old)
      · dsimp only
        split
        · assumption
        · simp
    · dsimp only
      rw [Mem.read_writeUnit _ _ _ _ has, data]
      by_cases here : off + 64 * n ≤ a ∧ a < off + 64 * (n + 1)
      · rw [if_pos here, if_pos (by omega)]
      · rw [if_neg here]
        exact if_congr (by omega) rfl rfl

end

end Sys2Proof.Machine
end

