-- ==== Sys2Proof/Proofs/PushedMemory.lean ====
section
/-! DATA_PUSH into partition memory, and the spans that a running batch step reads: the clauses of O21 with SPACE 1. -/

namespace Sys2Proof.Machine

/-! ### Open spans (15 R377) -/

/-- The value of byte `b` of the tiers is open. -/
def fogCovers (fog : List Fog) (b : Nat) : Prop := ∃ g, g ∈ fog ∧ g.lo ≤ b ∧ b < g.lo + g.len

/-- A span that is taken out of the open ones leaves every byte outside of it open. -/
theorem fogCovers_clearFog {fog : List Fog} {lo n b : Nat} (covered : fogCovers fog b) (out : b < lo ∨ lo + n ≤ b) :
    fogCovers (clearFog fog lo n) b := by
  obtain ⟨g, mem, first, last⟩ := covered
  have part {g' : Fog} (here : g' ∈ if overlaps lo n g.lo g.len then
      (if g.lo < lo then [⟨g.lo, lo - g.lo, g.draw⟩] else [])
        ++ (if lo + n < g.lo + g.len then [⟨lo + n, g.lo + g.len - (lo + n), g.draw⟩] else []) else [g])
      (first' : g'.lo ≤ b) (last' : b < g'.lo + g'.len) : fogCovers (clearFog fog lo n) b :=
    ⟨g', List.mem_flatMap.mpr ⟨g, mem, here⟩, first', last'⟩
  by_cases touched : overlaps lo n g.lo g.len = true
  · rcases out with before | behind
    · refine part (g' := ⟨g.lo, lo - g.lo, g.draw⟩) ?_ first (by dsimp only; omega)
      rw [if_pos touched, if_pos (by omega)]
      exact List.mem_append_left _ (List.mem_singleton.mpr rfl)
    · refine part (g' := ⟨lo + n, g.lo + g.len - (lo + n), g.draw⟩) ?_ behind (by dsimp only; omega)
      rw [if_pos touched, if_pos (show lo + n < g.lo + g.len by omega)]
      exact List.mem_append_right _ (List.mem_singleton.mpr rfl)
  · refine part (g' := g) ?_ first last
    rw [if_neg touched]
    exact List.mem_singleton.mpr rfl

/-- A span that is left open anew covers its bytes, and the bytes that were open stay so. -/
theorem fogCovers_leaveOpen {fog : List Fog} {lo n d b : Nat} (h : fogCovers fog b ∨ (lo ≤ b ∧ b < lo + n)) :
    fogCovers (⟨lo, n, d⟩ :: clearFog fog lo n) b := by
  by_cases inside : lo ≤ b ∧ b < lo + n
  · exact ⟨⟨lo, n, d⟩, List.mem_cons_self, inside⟩
  · obtain ⟨g, mem, span⟩ := fogCovers_clearFog (lo := lo) (n := n) (h.resolve_right inside) (by omega)
    exact ⟨g, List.mem_cons_of_mem _ mem, span⟩

/-! ### A push into a span that a batch step reads (15 R377; 03 R93) -/

section
variable {s t u : State} {p a n b : Nat}

/-- From `s` to `t` bytes became open, in the tiers and in the dies, and nothing else happened. -/
structure State.Opened (s t : State) : Prop where
  changes : Changes [.fabric, .dies, .free] s t
  bad : t.fabric.bad = s.fabric.bad
  fog : ∀ b, fogCovers s.fabric.fog b → fogCovers t.fabric.fog b

theorem State.Opened.refl (s : State) : s.Opened s := ⟨changes_of_keep rfl, rfl, fun _ h => h⟩

theorem State.Opened.trans (h : s.Opened t) (h' : t.Opened u) : s.Opened u :=
  ⟨h.changes.trans h'.changes, h'.bad.trans h.bad, fun b covered => h'.fog b (h.fog b covered)⟩

theorem State.opened_undefine (s : State) (v : Saved) : s.Opened (s.undefine v) := by
  have bad : (s.undefine v).fabric.bad = s.fabric.bad := by
    unfold State.undefine
    dsimp only
    split <;> rfl
  refine ⟨changes_of_keep (by simp), bad, fun b covered => ?_⟩
  unfold State.undefine
  dsimp only
  split
  case h_1 => exact fogCovers_leaveOpen (.inl covered)
  all_goals exact covered

/-- What steps in progress wrote is left open. -/
theorem State.opened_undefineAll (l : List Saved) (s : State) : s.Opened (s.each l State.undefine) :=
  State.each_rel State.Opened.refl (fun _ _ _ => .trans) State.undefine State.opened_undefine l s

/-- A span of the tiers is left open. -/
def State.openSpan (s : State) (a n : Nat) : State :=
  (s.setFabric { s.fabric with fog := ⟨a, n, s.free⟩ :: clearFog s.fabric.fog a n }).draw

theorem State.opened_openSpan (s : State) (a n : Nat) : s.Opened (s.openSpan a n) :=
  ⟨changes_of_keep (by simp [State.openSpan]), rfl, fun _ covered => fogCovers_leaveOpen (.inl covered)⟩

theorem State.opened_pushOver (s : State) (p a n : Nat) : s.Opened (s.pushOver p a n) := by
  unfold State.pushOver
  split
  · exact .refl s
  · dsimp only
    split
    · exact (s.opened_openSpan a n).trans (State.opened_undefineAll _ _)
    · exact .refl s

theorem State.opened_pushOvers (l : List Nat) (s : State) (a n : Nat) : s.Opened (s.each l fun s p => s.pushOver p a n) :=
  State.each_rel State.Opened.refl (fun _ _ _ => .trans) _ (fun s p => s.opened_pushOver p a n) l s

/-- Where no batch step runs, a push leaves nothing open. -/
theorem State.pushOvers_idle {l : List Nat} (idle : ∀ p ∈ l, (s.seq p).run = none) :
    (s.each l fun s p => s.pushOver p a n) = s := by
  induction l with
  | nil => rfl
  | cons p l ih =>
    have first : s.pushOver p a n = s := by
      unfold State.pushOver
      rw [idle p List.mem_cons_self]
    show ((s.pushOver p a n).each l fun s p => s.pushOver p a n) = s
    rw [first]
    exact ih fun q mem => idle q (List.mem_cons_of_mem _ mem)

variable {r : Run} {w : Nat}

/-- The spans that a step reads depend on its partition and on the tiers. -/
theorem State.readSpans_of (part : t.part p = s.part p) : t.readSpans p r w = (s.setFabric t.fabric).readSpans p r w := by
  unfold State.readSpans State.squaresOf
  rw [part]
  rfl

/-- The words that a batch step issues depend on the registers of its set. -/
theorem State.runWords_of (tset : t.tset r.key = s.tset r.key) : t.runWords p r = s.runWords p r := by
  have word (k c : Nat) : t.issueWord p { r with loops := List.replicate 8 k } c = s.issueWord p { r with loops := List.replicate 8 k } c := by
    unfold State.issueWord
    dsimp only
    rw [tset]
  unfold State.runWords
  simp only [word]

/-- A push over a span that a running batch step reads leaves the whole span open. -/
theorem State.fog_pushOver (run : (s.seq p).run = some r) (word : w ∈ s.runWords p r)
    (reads : (s.readSpans p r w).any (fun v => overlaps v.1 v.2 a n) = true) (inside : a ≤ b ∧ b < a + n) :
    fogCovers (s.pushOver p a n).fabric.fog b := by
  unfold State.pushOver
  rw [run]
  dsimp only
  rw [if_pos (List.any_eq_true.mpr ⟨w, word, reads⟩)]
  exact (State.opened_undefineAll _ _).fog b (fogCovers_leaveOpen (.inr inside))

/-- A push over the spans that the batch steps of all partitions read. -/
def State.pushedOver (s : State) (a n : Nat) : State := s.each (List.range 8) fun s p => s.pushOver p a n

theorem State.opened_pushedOver (s : State) (a n : Nat) : s.Opened (s.pushedOver a n) := State.opened_pushOvers ..

theorem State.pushedOver_idle (idle : ∀ p, p < 8 → (s.seq p).run = none) : s.pushedOver a n = s :=
  State.pushOvers_idle fun p mem => idle p (List.mem_range.mp mem)

/-- The same after a store. -/
theorem State.fog_pushedOver {x : Nat} (stored : Changes [.port x, .fabric, .tiers, .dies, .free] s t) (small : p < 8)
    (run : (s.seq p).run = some r) (word : w ∈ s.runWords p r)
    (reads : ∀ f, ((s.setFabric f).readSpans p r w).any (fun v => overlaps v.1 v.2 a n) = true) (inside : a ≤ b ∧ b < a + n) :
    fogCovers (t.pushedOver a n).fabric.fog b := by
  obtain ⟨before, after, all⟩ := List.append_of_mem (List.mem_range.mpr small)
  unfold State.pushedOver
  rw [all]
  have kept := stored.trans ((State.opened_pushOvers before t a n).changes.mono (by simp))
  have split' (f : State → Nat → State) : t.each (before ++ p :: after) f = (f (t.each before f) p).each after f := List.foldl_append
  rw [split']
  generalize (t.each before fun s p => s.pushOver p a n) = u at kept ⊢
  have run' : (u.seq p).run = some r := (congrArg Seq.run (kept.same (.seq p))).trans run
  have word' : w ∈ u.runWords p r := by
    rw [State.runWords_of (kept.same (.tset r.key))]
    exact word
  have reads' : (u.readSpans p r w).any (fun v => overlaps v.1 v.2 a n) = true := by
    rw [State.readSpans_of (kept.same (.part p))]
    exact reads u.fabric
  exact (State.opened_pushOvers after _ a n).fog b (State.fog_pushOver run' word' reads' inside)

end

/-! ### Pushes into partition memory (15 R376, R377; 07 R187) -/

section
variable {s : State} {r : Req} {set : SetId} {addr : BitVec 48} {payload : Bytes}

theorem Mem.read_memOf (bs : Bytes) (i : Nat) : (memOf bs).read i = bs.getD i 0 := by
  unfold memOf
  rw [Mem.read_writeBytes, if_pos (Nat.zero_le i), Nat.sub_zero, List.getD]
  rfl

/-- Whole blocks are written with a payload, and are sound. -/
def State.stored (s : State) (a : Nat) (payload : Bytes) : State :=
  s.setFabric { s.fabric with
    mem := s.fabric.mem.blit a payload.length (memOf payload)
    bad := s.fabric.bad.filter fun b => !within b (guardUnit b) a payload.length
    fog := clearFog s.fabric.fog a payload.length }

theorem State.writeTier_aligned {a : Nat} (first : a % 64 = 0) (least : 64 ≤ payload.length) (whole : payload.length % 64 = 0) :
    s.writeTier a payload.length (memOf payload) = .ok (s.stored a payload) := by
  unfold State.writeTier Bench.writeMem
  rw [if_neg (by omega), Bench.partBad_aligned _ first whole (by omega)]
  rfl

theorem State.read_stored (a i : Nat) : (s.stored a payload).fabric.mem.read i
    = if a ≤ i ∧ i < a + payload.length then payload.getD (i - a) 0 else s.fabric.mem.read i := by
  show (s.fabric.mem.blit a payload.length (memOf payload)).read i = _
  rw [Mem.read_blit, Mem.read_memOf]

theorem dataPushMemory_badFrame (admits : s.Admits r true) (broken : addr.toNat % 64 ≠ 0 ∨ argsLowZero r = false) :
    exec (.dataPushMemory r set addr payload) s = .next ((s.heard r.port.val payload.length (chanNo r.chan)).reply r 0x30 stBadFrame
      (s.pushArgs r set true addr.toNat) []) :=
  congrArg Host.Outcome.next (State.serveSet_badFrame admits (aligned_and_low_false broken) ..)

section
variable (admits : s.Admits r true) (aligned : addr.toNat % 64 = 0) (low : argsLowZero r = true) (takes : s.defers r = false)
  (least : 64 ≤ payload.length) (most : payload.length ≤ 8192) (whole : payload.length % 64 = 0)
include admits aligned low takes least most whole

/-- What becomes of a push of whole blocks whose ARGS are good and that is not put off. -/
theorem exec_dataPushMemory : exec (.dataPushMemory r set addr payload) s =
    let h := s.heard r.port.val payload.length (chanNo r.chan)
    let answer := fun (s' : State) (status : Nat) => s'.reply r 0x30 status (s.pushArgs r set true addr.toNat) []
    .next (if !s.portMay r.port.val addr.toNat payload.length || decide (s.errors.device = 2) then answer h stDenied
      else answer ((h.stored addr.toNat payload).pushedOver addr.toNat payload.length) stOk) := by
  have takes' : ¬ (s.heard r.port.val payload.length (chanNo r.chan)).defers r = true := fun d => Bool.false_ne_true (takes.symm.trans d)
  have push : ¬ (!pushOk payload) = true := by
    rw [pushOk_of least most whole]
    nofun
  show execDataPushMemory r set addr payload s = _
  unfold execDataPushMemory
  dsimp only
  rw [decide_eq_true aligned, State.serveSet_admitted admits low, if_neg takes', if_neg push, State.writeTier_aligned aligned least whole]
  rfl

theorem dataPushMemory_denied (no : s.portMay r.port.val addr.toNat payload.length = false ∨ s.errors.device = 2) :
    exec (.dataPushMemory r set addr payload) s = .next ((s.heard r.port.val payload.length (chanNo r.chan)).reply r 0x30 stDenied
      (s.pushArgs r set true addr.toNat) []) := by
  have refused : (!s.portMay r.port.val addr.toNat payload.length || decide (s.errors.device = 2)) = true := by
    rcases no with no | safe
    · rw [no]
      rfl
    · rw [decide_eq_true safe, Bool.or_true]
  exact (exec_dataPushMemory admits aligned low takes least most whole).trans (congrArg Host.Outcome.next (if_pos refused))

theorem dataPushMemory_stores (may : s.portMay r.port.val addr.toNat payload.length = true) (serves : s.errors.device ≠ 2) :
    exec (.dataPushMemory r set addr payload) s = .next ((((s.heard r.port.val payload.length (chanNo r.chan)).stored addr.toNat
      payload).pushedOver addr.toNat payload.length).reply r 0x30 stOk
        (s.pushArgs r set true addr.toNat) []) := by
  have granted : ¬ (!s.portMay r.port.val addr.toNat payload.length || decide (s.errors.device = 2)) = true := by
    rw [may, decide_eq_false serves]
    nofun
  exact (exec_dataPushMemory admits aligned low takes least most whole).trans (congrArg Host.Outcome.next (if_neg granted))

end

/-- A store of whole blocks changes the tiers. -/
theorem State.changes_stored (h : State) (a : Nat) (payload : Bytes) : Changes [.fabric, .tiers] h (h.stored a payload) :=
  changes_of_keep (by simp [State.stored])

/-- What a push of whole blocks does to the memory, and what it leaves open there. -/
theorem dataPushMemory_pushes (admits : s.Admits r true) (roomy : (s.port r.port.val).Roomy) (aligned : addr.toNat % 64 = 0)
    (low : argsLowZero r = true) (takes : s.defers r = false) (least : 64 ≤ payload.length) (most : payload.length ≤ 8192)
    (whole : payload.length % 64 = 0) (may : s.portMay r.port.val addr.toNat payload.length = true) (serves : s.errors.device ≠ 2) :
    ∃ t, exec (.dataPushMemory r set addr payload) s = .next t ∧ Replied s t r 0x30 0x0000 (s.pushArgs r set true addr.toNat) []
      ∧ (∀ a, t.fabric.mem.read a = if addr.toNat ≤ a ∧ a < addr.toNat + payload.length then payload.getD (a - addr.toNat) 0
          else s.fabric.mem.read a)
      ∧ (∀ b, b ∈ t.fabric.bad → b ∈ s.fabric.bad)
      ∧ Changes [.port r.port.val, .fabric, .tiers, .dies, .free] s t
      ∧ ((∀ p, p < 8 → (s.seq p).run = none) →
          t.fabric.dies = s.fabric.dies ∧ Changes [.port r.port.val, .fabric, .tiers] s t)
      ∧ (∀ p run w, p < 8 → (s.seq p).run = some run → w ∈ s.runWords p run →
          (∀ f, ((s.setFabric f).readSpans p run w).any (fun v => overlaps v.1 v.2 addr.toNat payload.length) = true) →
          ∀ a, addr.toNat ≤ a → a < addr.toNat + payload.length → fogCovers t.fabric.fog a) := by
  let h := s.heard r.port.val payload.length (chanNo r.chan)
  let u := h.stored addr.toNat payload
  let v := u.pushedOver addr.toNat payload.length
  let t := v.reply r 0x30 stOk (s.pushArgs r set true addr.toNat) []
  have heard : Changes [.port r.port.val] s h := changes_of_keep (by simp [h])
  have stored : Changes [.fabric, .tiers] h u := h.changes_stored addr.toNat payload
  have opened : u.Opened v := u.opened_pushedOver ..
  have worked : Changes [.fabric, .tiers, .dies, .free] h v := (stored.mono (by simp)).trans (opened.changes.mono (by simp))
  have replied (v' : State) : Changes [.port r.port.val] v' (v'.reply r 0x30 stOk (s.pushArgs r set true addr.toNat) []) :=
    changes_of_keep (by simp)
  have fabric : t.fabric = v.fabric := (replied v).same .fabric
  refine ⟨t, dataPushMemory_stores admits aligned low takes least most whole may serves,
    State.replied_worked roomy worked (by simp) .., fun a => ?_, fun b bad => ?_, ?_, fun idle => ?_, fun p run w small runs word reads a lo hi => ?_⟩
  · rw [fabric, show v.fabric.mem = u.fabric.mem from opened.changes.same .tiers]
    exact State.read_stored ..
  · rw [fabric, opened.bad] at bad
    exact (List.mem_filter.mp bad).1
  · exact (heard.mono (by simp)).trans ((worked.mono (by simp)).trans ((replied v).mono (by simp)))
  · have quiet : v = u := State.pushedOver_idle idle
    have all : Changes [.port r.port.val, .fabric, .tiers] s t := by
      show Changes _ s (v.reply r 0x30 stOk (s.pushArgs r set true addr.toNat) [])
      rw [quiet]
      exact (heard.mono (by simp)).trans ((stored.mono (by simp)).trans ((replied u).mono (by simp)))
    exact ⟨all.same .dies, all⟩
  · rw [fabric]
    exact State.fog_pushedOver (x := r.port.val) ((heard.mono (by simp)).trans (stored.mono (by simp))) small runs word reads ⟨lo, hi⟩

end

/-! ### DATA_PUSH (15 R376, R377, R382) -/

/-- A read after a payload was stored. -/
theorem Mem.read_writePayload (m : Mem) (b : Nat) (payload : Bytes) (a : Nat) : (m.writeBytes b payload).read a
    = if b ≤ a ∧ a < b + payload.length then payload.getD (a - b) 0 else m.read a := by
  by_cases inside : b ≤ a ∧ a < b + payload.length
  · rw [if_pos inside, Mem.read_writeBytes, if_pos inside.1, List.getD, List.getElem?_eq_getElem (by omega)]
    rfl
  · rw [if_neg inside]
    exact Mem.read_writeBytes_outside _ _ _ _ (by omega)

/-- Settles O21: a push whose ARGS are good is the plain store of its payload, in the input of a set, unit by unit in the data
of a WRITE, or in whole blocks of the tiers; there the pushes over the spans that batch steps read only leave bytes open. -/
theorem dataIsPushed : Obligations.DataIsPushed := by
  unfold Obligations.DataIsPushed
  intro s r set off addr payload admits roomy takes most
  refine ⟨?badFrame, ?busy, ?input, ?data, ?memoryBadFrame, ?denied, ?memory⟩
  case badFrame => exact fun broken => State.only_answers roomy (dataPushInput_badFrame admits broken)
  case busy => exact fun aligned low taken other => State.only_answers roomy (dataPushInput_busy admits aligned low takes taken other)
  case input =>
    intro aligned low least whole free fits
    have run := dataPushInput_stores (set := set) admits aligned low takes (pushOk_of least most whole) free fits
    have stored (v : TaskSet) : Changes [.port r.port.val, .tset (setKey r.port set)] s
        (((s.heard r.port.val payload.length (chanNo r.chan)).setTset (setKey r.port set) v).reply r 0x30 stOk
          (s.pushArgs r set false off.toNat) []) := changes_of_keep (by simp)
    refine ⟨_, run, State.replied_worked (n := payload.length) (l := [.tset (setKey r.port set)]) roomy (changes_of_keep (by simp)) (by simp) .., ?_,
      fun a => ?_, stored _⟩
    · rw [State.tset_reply, State.tset_setTset_same]
    · rw [State.tset_reply, State.tset_setTset_same]
      exact Mem.read_writePayload ..
  case data =>
    intro aligned low least whole taken write fits late
    have run := dataPushInput_arrives (set := set) admits aligned low takes (pushOk_of least most whole) taken write fits
    have units : 64 * (payload.length / 64) = payload.length := by omega
    obtain ⟨arrived, before, data⟩ := TaskSet.arrived_units (t := s.tset (setKey r.port set)) aligned late (units.le)
    rw [← TaskSet.arrive_eq] at arrived before data
    rw [units] at data
    refine ⟨_, run, State.replied_worked (n := payload.length) (l := [.tset (setKey r.port set)]) roomy (changes_of_keep (by simp)) (by simp) .., ?_, ?_, ?_,
      changes_of_keep (by simp)⟩
    all_goals rw [State.tset_reply, State.tset_setTset_same]
    · exact arrived
    · exact before
    · exact data
  case memoryBadFrame => exact fun broken => State.only_answers roomy (dataPushMemory_badFrame admits broken)
  case denied =>
    exact fun aligned low least whole no => State.only_answers roomy (dataPushMemory_denied admits aligned low takes least most whole no)
  case memory =>
    exact fun aligned low least whole may serves _ _ _ =>
      dataPushMemory_pushes admits roomy aligned low takes least most whole may serves

end Sys2Proof.Machine
end

