-- ==== Sys2Proof/Proofs/BoundaryWrites.lean ====
section
/-! Controls that are accepted and wait for the boundary (O14). -/

namespace Sys2Proof.Machine

/-- A control that does not act on acceptance waits for the boundary. -/
theorem State.control_atBoundary {s : State} {r : Req} (hs : s.Serves r) {i j ty n v : Nat} (row : controlRow i j ty = true)
    (fits : v < 2 ^ (8 * n) := by decide) (narrow : n ≤ 8 := by decide)
    (later : i ≠ 0x1002 ∧ i ≠ 0x9030 ∧ i ≠ 0x8000 ∧ (i = 0x9001 → v = 3) ∧ (i / 4 = 0x444 → j ≠ 7)
      ∧ i / 8 ≠ 0x40A ∧ i ≠ 0xA000 ∧ i / 4 ≠ 0x2806 := by omega)
    (ok : s.checkWrite (some r.port) i j (bytesOf n v) = stOk) : ∃ t, s.control r i j n v = .next t ∧ Waits s t r i j n ty v := by
  obtain ⟨d, control⟩ := controlRow_spec row
  exact State.control_waits control hs.admits hs.roomy hs.noReset ok fits narrow fun u => u.actNow_none _ _ _ later

/-- Settles O14: the row of each control says that it is written only, and none of them acts on acceptance. -/
theorem controlsWaitForTheBoundary : Obligations.ControlsWaitForTheBoundary := by
  unfold Obligations.ControlsWaitForTheBoundary
  intro s r p ns x b w v hs
  have part := p.isLt
  have space := ns.isLt
  have port := x.isLt
  dsimp only
  exact ⟨State.control_atBoundary hs (controlRow_part p), State.control_atBoundary hs (controlRow_part p),
    State.control_atBoundary hs (controlRow_part p), State.control_atBoundary hs (controlRow_part p),
    State.control_atBoundary hs (controlRow_ns ns), State.control_atBoundary hs (controlRow_ns ns),
    State.control_atBoundary hs (controlRow_attn x) b.isLt, State.control_atBoundary hs (controlRow_unfreeze x) w.isLt,
    State.control_atBoundary hs (controlRow_port x), State.control_atBoundary hs (controlRow_port x),
    State.control_atBoundary hs (controlRow_port x), State.control_atBoundary hs controlRow_state b.isLt,
    State.control_atBoundary hs controlRow_freeze, State.control_atBoundary hs controlRow_hold,
    State.control_atBoundary hs controlRow_hold, State.control_atBoundary hs controlRow_test v.isLt⟩

end Sys2Proof.Machine
end

