-- ==== Sys2Proof/Proofs/FreezeLength.lean ====
section
/-! The release of a freeze of the counters (O15): FREEZE_LENGTH holds 64 bits, and a freeze can have lasted longer. -/

namespace Sys2Proof.Machine

/-- A number of the dictionary has at most 64 bits. -/
theorem State.obj_lt (s : State) (i j : Nat) : s.obj i j < 2 ^ 64 := BitVec.isLt _

/-- The time of a command does not lie before the time that the module keeps. -/
theorem State.now_le_timeNow (s : State) : s.clock.now ≤ s.timeNow := Nat.le_max_left ..

/-- A write of FREEZE_CONTROL by the owner of port 0. -/
def freezeReleaser : Req := ⟨0, .ctrl, 7, 0, 1, 0, true, true, true, 0⟩

/-- Port 0 is UP and owned, and the counters have been frozen since the time 0, 2^64 units of 10 ns ago. -/
def frozenLong : State := { State.reset with
  clock := ⟨2 ^ 64, 2 ^ 64, 0, true⟩
  ports := [(0, { PortSt.start with life := .up, node := 7, host := 1, credits := [200, 200, 200] })]
  observe := { Observe.start with frozen := true, frozenAt := 0 } }

theorem serves_frozenLong : frozenLong.Serves freezeReleaser :=
  ⟨⟨by decide, by decide, fun _ => by decide⟩, ⟨rfl, rfl, by decide, by decide⟩, .inl rfl⟩

/-- The write of 2 passes every check. -/
theorem checkWrite_frozenLong : frozenLong.checkWrite (some freezeReleaser.port) 0x9001 1 (bytesOf 1 2) = 0x0000 := by decide +kernel

/-- Refutes O15: the clause about the release demands the time that the freeze lasted, in whatever state. FREEZE_LENGTH holds
the lowest 64 bits of it, and here it has lasted 2^64 units or more. -/
theorem not_immediateControlsAct : ¬ Obligations.ImmediateControlsAct := by
  unfold Obligations.ImmediateControlsAct
  intro acts
  obtain ⟨-, release, -⟩ := acts frozenLong freezeReleaser 0 0 0 0 [] serves_frozenLong
  obtain ⟨t, -, -, -, -, demanded, -⟩ := release checkWrite_frozenLong rfl
  have lasted : 2 ^ 64 ≤ frozenLong.timeNow - frozenLong.observe.frozenAt := frozenLong.now_le_timeNow
  exact Nat.not_lt.mpr lasted (demanded ▸ t.obj_lt 0x9001 7)

end Sys2Proof.Machine
end

