-- ==== Sys2Proof/Proofs/StoredNumbers.lean ====
section
/-! Numbers that an accepted write stores (14 R350, R356). -/

namespace Sys2Proof.Machine

theorem numOf_lt : ∀ v : Bytes, numOf v < 2 ^ (8 * v.length)
  | [] => by decide
  | b :: v => by
    have rest := numOf_lt v
    have first := b.isLt
    have power : 2 ^ (8 * (v.length + 1)) = 2 ^ (8 * v.length) * 256 := by rw [Nat.mul_add, Nat.pow_add]
    simp only [numOf, List.length_cons, power]
    omega

/-- READ_LIST is a domain. -/
theorem findObj_readList {d : ObjDef} (row : findObj 0x9000 1 = some d) : d.isBytes = true := by
  have bytes : (findObj 0x9000 1).all (·.isBytes) = true := by decide +kernel
  rw [row] at bytes
  exact bytes

section
variable {idx sub : Nat} {d : ObjDef}

/-- A number that is no control is stored. -/
theorem State.accept_stores (s : State) (who : Option Port) (v : Bytes) (at' : Nat) (row : findObj idx sub = some d)
    (stored : d.access ≠ 3) (number : d.isBytes = false) (noTime : idx ≠ 0x4040) :
    s.accept who idx sub v at' = s.put idx sub (d.valueIn v) := by
  have noPass : ¬ (idx = 0x9000 ∧ sub = 1) := by
    rintro ⟨rfl, rfl⟩
    exact Bool.false_ne_true (number.symm.trans (findObj_readList row))
  unfold State.accept
  rw [row]
  dsimp only
  rw [if_neg stored, if_neg noPass, if_neg (by rw [number]; nofun), if_neg fun time => noTime time.1]

/-- A number that came with no more bytes than its object has is stored as it is. -/
theorem State.obj_put_valueIn (s : State) {v : Bytes} (row : findObj idx sub = some d) (number : d.isBytes = false)
    (fits : v.length ≤ d.size) : (s.put idx sub (d.valueIn v)).obj idx sub = Nat.land (numOf v) d.mask := by
  have value : d.valueIn v = Nat.land (numOf v) d.mask := if_neg (by rw [number]; nofun)
  have width : objBits idx sub = 8 * d.size := by unfold objBits; rw [row]
  have small : Nat.land (numOf v) d.mask < 2 ^ (8 * d.size) := calc
    Nat.land (numOf v) d.mask ≤ numOf v := Nat.and_le_left
    _ < 2 ^ (8 * v.length) := numOf_lt v
    _ ≤ 2 ^ (8 * d.size) := Nat.pow_le_pow_right (by decide) (Nat.mul_le_mul_left 8 fits)
  have wide : 2 ^ (8 * d.size) ≤ 2 ^ 64 := Nat.pow_le_pow_right (by decide) (Nat.mul_le_mul_left 8 (size_le_of_row row number))
  rw [State.obj_put, if_pos rfl, width, value, Nat.mod_eq_of_lt small, Nat.mod_eq_of_lt (small.trans_le wide)]

end

end Sys2Proof.Machine
end

