-- ==== Sys2Proof/Proofs/SidebandAnswers.lean ====
section
/-! The transactions of the sideband (O59). -/

namespace Sys2Proof.Machine

section
variable {s : State} {idx : BitVec 16} {sub off : Byte} {value : Bytes} {o : ObjDef} {e : Byte}

/-! ### Without AUX3V3, and transactions that are discarded (14 R366) -/

theorem smbusPointer_discarded : exec (.smbusPointer idx sub ⟨off, false⟩) s = .next s :=
  if_neg (by rw [Bool.and_false]; nofun)

theorem alertResponse_silent (quiet : s.power.alert = false) : exec .alertResponse s = .next s :=
  if_neg (by rw [quiet, Bool.and_false]; nofun)

theorem smbusWrite_discarded {g : Bool} (bad : s.power.aux = false ∨ g = false ∨ value.length = 0 ∨ 29 < value.length) :
    exec (.smbusWrite idx sub value g) s = .next s := by
  refine if_pos ?_
  obtain dead | fails | empty | many := bad
  · rw [dead]
    rfl
  · rw [fails, Bool.not_false, Bool.or_true]
    rfl
  · simp [inRange, empty]
  · simp [inRange, many]

/-- Nothing answers without AUX3V3. -/
theorem sideband_dead (dead : s.power.aux = false) (g : Bool) : exec (.smbusPointer idx sub ⟨off, g⟩) s = .next s
    ∧ exec .smbusRead s = .next s ∧ exec .smbusLastStatus s = .next s ∧ exec .alertResponse s = .next s
    ∧ exec .smbusTimeout s = .next s ∧ exec (.smbusWrite idx sub value g) s = .next s := by
  have off' : ¬ s.power.aux = true := by rw [dead]; nofun
  exact ⟨if_neg (by rw [dead]; nofun), if_pos (by rw [dead]; rfl), if_neg off', if_neg (by rw [dead]; nofun), if_neg off',
    smbusWrite_discarded (.inl dead)⟩

/-! ### Reads (14 R366, R367) -/

/-- The bytes of a value that a read returns next. -/
def State.smBytes (s : State) (o : ObjDef) : Bytes :=
  ((s.image o s.dict.smIdx.toNat s.dict.smSub.toNat).drop s.dict.smOff.toNat).take 31

theorem smbusRead_returns (aux : s.power.aux = true) (reached : s.sideObj s.dict.smIdx.toNat s.dict.smSub.toNat false = .ok o) :
    exec .smbusRead s = .next (s.setDict { s.dict with
      smOut := s.smReads 0x11 true (0 :: s.smBytes o), smOff := s.dict.smOff + BitVec.ofNat 8 (s.smBytes o).length }).draw := by
  show execSmbusRead s = _
  unfold execSmbusRead
  rw [if_neg (by rw [aux]; nofun)]
  dsimp only
  rw [reached]
  rfl

theorem smbusRead_refuses (aux : s.power.aux = true) (refused : s.sideObj s.dict.smIdx.toNat s.dict.smSub.toNat false = .error e) :
    exec .smbusRead s = .next { s with dict := { s.dict with smOut := s.smReads 0x11 true [e] } } := by
  show execSmbusRead s = _
  unfold execSmbusRead
  rw [if_neg (by rw [aux]; nofun)]
  dsimp only
  rw [refused]
  rfl

/-! ### Writes (14 R367, R368) -/

section
variable (aux : s.power.aux = true) (least : 1 ≤ value.length) (most : value.length ≤ 29)
include aux least most

theorem smbusWrite_unreached (refused : s.sideObj idx.toNat sub.toNat true = .error e) :
    exec (.smbusWrite idx sub value true) s = .next { s with dict := { s.dict with smStatus := e } } := by
  show execSmbusWrite idx sub value true s = _
  unfold execSmbusWrite
  rw [if_neg (by simp [aux, inRange, least, most]), refused]
  rfl

theorem smbusWrite_refused (reached : s.sideObj idx.toNat sub.toNat true = .ok o)
    (refused : s.checkWrite none idx.toNat sub.toNat value ≠ stOk) : exec (.smbusWrite idx sub value true) s =
      .next (s.updDict fun d => { d with smStatus := sideStatus (s.checkWrite none idx.toNat sub.toNat value) }) := by
  show execSmbusWrite idx sub value true s = _
  unfold execSmbusWrite
  rw [if_neg (by simp [aux, inRange, least, most]), reached]
  dsimp only
  rw [if_neg refused]

theorem smbusWrite_accepted (reached : s.sideObj idx.toNat sub.toNat true = .ok o)
    (ok : s.checkWrite none idx.toNat sub.toNat value = stOk) : exec (.smbusWrite idx sub value true) s =
      .next ((s.accept none idx.toNat sub.toNat value s.clock.now).updDict fun d => { d with smStatus := 0 }) := by
  show execSmbusWrite idx sub value true s = _
  unfold execSmbusWrite
  rw [if_neg (by simp [aux, inRange, least, most]), reached]
  dsimp only
  rw [if_pos ok, ok]
  rfl

end

/-- A refused write leaves a status that says so. -/
theorem sideStatus_ne_zero {c : Nat} (refused : c ≠ stOk) : sideStatus c ≠ 0 := by
  unfold sideStatus
  rw [if_neg refused]
  split
  · decide
  · split <;> decide

/-- The row of LOOPBACK. -/
theorem findObj_loopback (x : Port) : ∃ d, findObj (0x1110 + x.val) 6 = some d ∧ d.access = 2 ∧ d.isBytes = false
    ∧ d.mask = allBits ∧ d.size = 1 := by
  have row : (findObj (0x1110 + x.val) 6).any (fun d => decide (d.access = 2 ∧ d.isBytes = false ∧ d.mask = allBits
      ∧ d.size = 1)) = true := by
    revert x
    decide +kernel
  obtain ⟨d, found, holds⟩ := Option.any_eq_true .. |>.mp row
  exact ⟨d, found, of_decide_eq_true holds⟩

/-- The sideband stores a mode of LOOPBACK; it does not govern yet. -/
theorem smbusWrite_loopback (aux : s.power.aux = true) (x : Port) (b : Byte) (reached : s.sideObj (0x1110 + x.val) 6 true = .ok o)
    (check : s.checkWrite none (0x1110 + x.val) 6 [b] = 0x0000) :
    ∃ t, exec (.smbusWrite (BitVec.ofNat 16 (0x1110 + x.val)) 6 [b] true) s = .next t ∧ t.dict.smStatus = 0
      ∧ t.obj (0x1110 + x.val) 6 = b.toNat ∧ t.gov (0x1110 + x.val) 6 = s.gov (0x1110 + x.val) 6
      ∧ t.port x.val = s.port x.val ∧ Changes [.dict] s t := by
  obtain ⟨d, row, access, number, mask, size⟩ := findObj_loopback x
  have index : (BitVec.ofNat 16 (0x1110 + x.val)).toNat = 0x1110 + x.val := by
    rw [BitVec.toNat_ofNat]
    omega
  have run := smbusWrite_accepted (idx := BitVec.ofNat 16 (0x1110 + x.val)) (sub := 6) (value := [b]) aux (by simp) (by simp)
    (by rw [index]; exact reached) (by rw [index]; exact check)
  rw [index, show (6 : Byte).toNat = 6 from rfl, State.accept_stores s none [b] _ row (by omega) number (by omega)] at run
  refine ⟨_, run, rfl, ?_, rfl, rfl, changes_of_keep (by simp)⟩
  have byte : numOf [b] = b.toNat := by simp [numOf]
  have stored := s.obj_put_valueIn (v := [b]) row number (by rw [size]; rfl)
  have all : Nat.land (numOf [b]) d.mask = b.toNat := by
    rw [byte, mask, allBits_eq]
    exact (Nat.and_two_pow_sub_one_eq_mod _ 64).trans (Nat.mod_eq_of_lt (by omega))
  exact stored.trans all

end

/-- Settles O59, transaction by transaction; a write by whether its object is reached and its value passes the checks. -/
theorem sidebandAnswers : Obligations.SidebandAnswers := by
  unfold Obligations.SidebandAnswers
  intro s idx sub off b value x o e
  dsimp only
  refine ⟨fun aux => ⟨smbusPointer_discarded, smbusPointer_points idx sub off aux, fun reached => ?read, smbusRead_refuses aux,
      smbusLastStatus_answers aux, alertResponse_answers aux, smbusTimeout_resets aux,
      fun least most => ⟨smbusWrite_unreached aux least most, fun reached refused => ?refused⟩,
      smbusWrite_loopback aux x b, fun bad => smbusWrite_discarded (.inr (.inr bad)), smbusWrite_discarded (.inr (.inl rfl))⟩,
    alertResponse_silent, fun dead g => sideband_dead dead g⟩
  case read =>
    refine ⟨_, smbusRead_returns aux reached, rfl, ?_, rfl, changes_of_keep (by simp)⟩
    exact congrArg (fun n => s.dict.smOff + BitVec.ofNat 8 n) List.length_take
  case refused =>
    exact ⟨_, smbusWrite_refused aux least most reached refused, rfl, sideStatus_ne_zero refused, changes_of_keep (by simp)⟩

end Sys2Proof.Machine
end

