-- ==== Sys2Proof/Proofs/DictionaryReads.lean ====
section
/-! DICT_READ (O13). -/

namespace Sys2Proof.Machine

/-! ### Replies to dictionary frames (14 R355) -/

/-- An object that is found is sub-index 00 of its index, or has a row. -/
theorem findAny_ok {idx sub : Nat} {d : ObjDef} (found : findAny idx sub = .ok d) : d = subZero idx ∨ findObj idx sub = some d := by
  unfold findAny at found
  split at found
  · cases found
  · split at found
    · exact .inl (Except.ok.inj found).symm
    · split at found
      next row => exact .inr (row.trans (congrArg some (Except.ok.inj found)))
      · cases found

theorem typeCode_of_ok {idx sub : Nat} {d : ObjDef} (found : findAny idx sub = .ok d) : typeCode idx sub = d.type := by
  unfold typeCode
  rw [found]

theorem typeCode_of_error {idx sub e : Nat} (missing : findAny idx sub = .error e) : typeCode idx sub = 0 := by
  unfold typeCode
  rw [missing]

/-- A type code has 8 bits. -/
theorem typeCode_lt (idx sub : Nat) : typeCode idx sub < 2 ^ 8 := by
  have types : objTable.all (fun d => decide (d.type < 2 ^ 8)) = true := by decide +kernel
  cases found : findAny idx sub with
  | error e =>
    rw [typeCode_of_error found]
    decide
  | ok d =>
    rw [typeCode_of_ok found]
    obtain rfl | row := findAny_ok found
    · exact (by decide : 2 < 2 ^ 8)
    · exact of_decide_eq_true (List.all_eq_true.mp types d (List.mem_of_find?_eq_some row))

section
variable {s : State} {r : Req} {idx : BitVec 16} {sub : Byte}

theorem State.dictReply_reply (s : State) (r : Req) (type status : Nat) (idx : BitVec 16) (sub : Byte) {total token : Nat}
    (last : Bool) (payload : Bytes) (length : total < 2 ^ 32) (number : token < 2 ^ 16) :
    s.dictReply r type status idx.toNat sub.toNat total token last payload = s.reply { r with segLast := last } type status
      (dictArgs idx.toNat sub.toNat total token (typeCode idx.toNat sub.toNat)) payload :=
  s.dictReply_eq r type status last payload idx.isLt sub.isLt length number (typeCode_lt ..)

/-- A dictionary frame that is answered, and nothing else. -/
theorem State.only_dictReplies (roomy : (s.port r.port.val).Roomy) {c : Instr} {n type status total token : Nat} {last : Bool}
    {payload : Bytes} (short : payload.length ≤ 8192) (length : total < 2 ^ 32) (number : token < 2 ^ 16)
    (run : exec c s = .next ((s.heard r.port.val n (chanNo r.chan)).dictReply r type status idx.toNat sub.toNat total token last payload)) :
    ∃ t, exec c s = .next t
      ∧ Replied s t r type status (dictArgs idx.toNat sub.toNat total token (typeCode idx.toNat sub.toNat)) payload
      ∧ Changes [.port r.port.val] s t ∧ (s.port r.port.val).OnlyCells (t.port r.port.val) := by
  obtain ⟨t, t_eq, answered⟩ := State.answers_heard (r := { r with segLast := last }) roomy n type status
    (dictArgs idx.toNat sub.toNat total token (typeCode idx.toNat sub.toNat)) short
  exact ⟨t, run.trans (congrArg Host.Outcome.next ((State.dictReply_reply _ _ _ _ _ _ _ _ length number).trans t_eq.symm)), answered⟩

/-- The reply once the work is done, where the work is no matter of the port and no value governs anew. -/
theorem State.replied_after {u : State} (roomy : (s.port r.port.val).Roomy) {n : Nat} {l : List Place}
    (work : Changes l (s.heard r.port.val n (chanNo r.chan)) u) (gov : u.dict.gov = s.dict.gov) (last : Bool) (type status args : Nat)
    {payload : Bytes} (short : payload.length ≤ 8192)
    (apart : .port r.port.val ∉ l ∧ .ports ∉ l ∧ .power ∉ l ∧ .clock ∉ l := by simp) :
    Replied s (u.reply { r with segLast := last } type status args payload) r type status args payload := by
  obtain ⟨noPort, noPorts, noPower, noClock⟩ := apart
  have port : u.port r.port.val = (s.heard r.port.val n (chanNo r.chan)).port r.port.val := work (.port _) noPort noPorts
  have power : u.power = s.power := work .power noPower noPower
  have clock : u.clock = s.clock := work .clock noClock noClock
  refine State.replied_of_reply (r := { r with segLast := last }) ?_ short ?_ ?_ (State.gov_congr gov (congrArg Power.ids power) ..)
    (congrArg Clock.epoch clock)
  · rw [port]
    exact State.roomy_heard roomy n _
  · rw [port, State.port_heard]
    rfl
  · rw [port, State.port_heard]
    rfl

/-! ### What a read finds (14 R358, R361; 16 R406; 19 R463) -/

/-- The state in which the value of an object is read: its request has been heard, and the pass in progress has come so far. -/
abbrev State.whenRead (s : State) (r : Req) (idx : BitVec 16) (sub : Byte) : State :=
  (s.heard r.port.val 0 (chanNo r.chan)).beforeRead idx.toNat sub.toNat

theorem State.changes_beforeRead (s : State) (idx sub : Nat) : Changes [.observe, .free] s (s.beforeRead idx sub) :=
  changes_of_keep (by simp)

theorem State.changes_noteRead (s : State) (idx sub : Nat) : Changes [.errors, .free] s (s.noteRead idx sub) :=
  changes_of_keep (by simp)

theorem State.beforeRead_other (s : State) {idx sub : Nat} (other : idx ≠ 0x9000) : s.beforeRead idx sub = s :=
  if_neg fun result => other result.1

/-- A description tells nothing of a pass in progress. -/
theorem State.describe_beforeRead (s : State) (d : ObjDef) (idx sub i j : Nat) :
    (s.beforeRead i j).describe d idx sub = s.describe d idx sub := by
  have same := s.changes_beforeRead i j
  have dict : (s.beforeRead i j).dict = s.dict := same.same .dict
  have power : (s.beforeRead i j).power = s.power := same.same .power
  have held : (s.beforeRead i j).isHeld idx sub = s.isHeld idx sub := by unfold State.isHeld; rw [dict]
  have default : objDefault (s.beforeRead i j) idx sub = objDefault s idx sub := by unfold objDefault; rw [power]
  unfold State.describe
  rw [held, default, dict]

theorem State.readFault_heard (s : State) (x n c : Nat) (d : ObjDef) (idx sub : Nat) :
    (s.heard x n c).readFault d idx sub = s.readFault d idx sub := by
  have nonce (y : Nat) : ((s.heard x n c).port y).nonce = (s.port y).nonce := by
    unfold State.heard
    rw [State.port_setPort]
    split
    next h => rw [h]; rfl
    · rfl
  simp only [State.readFault, nonce, State.heard_security]

/-! ### The command -/

section
variable (admits : s.Admits r true)
include admits

theorem dictRead_describes {d : ObjDef} (found : findAny idx.toNat sub.toNat = .ok d) :
    exec (.dictRead r idx sub true 0) s = .next ((s.heard r.port.val 0 (chanNo r.chan)).dictReply r 0x10 stOk idx.toNat sub.toNat 0 0
      true ((s.whenRead r idx sub).describe d idx.toNat sub.toNat)) := by
  show execDictRead r idx sub true 0 s = _
  unfold execDictRead
  dsimp only
  rw [State.serve_admitted admits, found, State.describe_beforeRead]
  rfl

theorem dictRead_missing {e : Nat} (missing : findAny idx.toNat sub.toNat = .error e) :
    exec (.dictRead r idx sub false 0) s
      = .next ((s.heard r.port.val 0 (chanNo r.chan)).dictReply r 0x10 e idx.toNat sub.toNat 0 0 false []) := by
  show execDictRead r idx sub false 0 s = _
  unfold execDictRead
  dsimp only
  rw [State.serve_admitted admits, missing]

theorem dictRead_refused {d : ObjDef} (found : findAny idx.toNat sub.toNat = .ok d) {e : Nat}
    (fault : s.readFault d idx.toNat sub.toNat = some e) : exec (.dictRead r idx sub false 0) s
      = .next ((s.heard r.port.val 0 (chanNo r.chan)).dictReply r 0x10 e idx.toNat sub.toNat 0 0 false []) := by
  show execDictRead r idx sub false 0 s = _
  unfold execDictRead
  dsimp only
  rw [State.serve_admitted admits, found]
  dsimp only
  rw [State.readFault_heard, fault]
  rfl

theorem dictRead_reads {d : ObjDef} (found : findAny idx.toNat sub.toNat = .ok d) (first : r.seg = 0)
    (readable : s.readFault d idx.toNat sub.toNat = none)
    (short : ((s.whenRead r idx sub).image d idx.toNat sub.toNat).length ≤ 8192) : exec (.dictRead r idx sub false 0) s
      = .next (((s.whenRead r idx sub).dictReply r 0x10 stOk idx.toNat sub.toNat 0 0 true
        ((s.whenRead r idx sub).image d idx.toNat sub.toNat)).noteRead idx.toNat sub.toNat) := by
  have one : (s.whenRead r idx sub).openRead r idx.toNat sub.toNat ((s.whenRead r idx sub).image d idx.toNat sub.toNat)
      = (s.whenRead r idx sub).dictReply r 0x10 stOk idx.toNat sub.toNat 0 0 true
        ((s.whenRead r idx sub).image d idx.toNat sub.toNat) := if_pos short
  show execDictRead r idx sub false 0 s = _
  unfold execDictRead
  dsimp only
  rw [State.serve_admitted admits, found]
  dsimp only
  rw [State.readFault_heard, readable]
  dsimp only
  rw [if_neg (by nofun), if_pos rfl, if_pos first, one]

theorem dictRead_answers (roomy : (s.port r.port.val).Roomy) {d : ObjDef} (found : findAny idx.toNat sub.toNat = .ok d)
    (first : r.seg = 0) (readable : s.readFault d idx.toNat sub.toNat = none)
    (short : ((s.whenRead r idx sub).image d idx.toNat sub.toNat).length ≤ 8192) :
    ∃ t, exec (.dictRead r idx sub false 0) s = .next t
      ∧ Replied s t r 0x10 0x0000 (dictArgs idx.toNat sub.toNat 0 0 d.type) ((s.whenRead r idx sub).image d idx.toNat sub.toNat)
      ∧ t.dict = s.dict ∧ Changes [.port r.port.val, .errors, .observe, .free] s t
      ∧ (idx ≠ 0x9000 → t.observe = s.observe) := by
  let v := (s.whenRead r idx sub).image d idx.toNat sub.toNat
  let args := dictArgs idx.toNat sub.toNat 0 0 d.type
  let w := (s.whenRead r idx sub).reply { r with segLast := true } 0x10 stOk args v
  have run := dictRead_reads admits found first readable short
  rw [State.dictReply_reply _ _ _ _ _ _ _ _ (by decide) (by decide), typeCode_of_ok found] at run
  have before := (s.heard r.port.val 0 (chanNo r.chan)).changes_beforeRead idx.toNat sub.toNat
  have after := w.changes_noteRead idx.toNat sub.toNat
  have replied : Replied s w r 0x10 stOk args v :=
    State.replied_after roomy before (congrArg Dict.gov (before.same .dict)) true _ _ _ short
  have same : (w.noteRead idx.toNat sub.toNat).port r.port.val = w.port r.port.val := after.same (.port _)
  refine ⟨_, run, ?_, ?_, changes_of_keep (by simp), fun other => ?_⟩
  · unfold Replied at replied ⊢
    rw [same]
    exact replied
  · exact (after.same .dict).trans ((State.reply_dict ..).trans (before.same .dict))
  · have apart : idx.toNat ≠ 0x9000 := fun h => other (BitVec.eq_of_toNat_eq h)
    have still : (s.whenRead r idx sub).observe = s.observe := by
      rw [State.whenRead, State.beforeRead_other _ apart, State.heard_observe]
    exact (after.same .observe).trans ((State.reply_observe ..).trans still)

end

end

end Sys2Proof.Machine
end

