-- ==== Sys2Proof/Proofs/DictionaryWrites.lean ====
section
/-! DICT_WRITE, and the dictionary as it is served (O13). -/

namespace Sys2Proof.Machine

section
variable {s : State} {r : Req} {idx sub : Nat} {v : Bytes} {at' : Nat}

/-! ### Segments (14 R355, R359, R360) -/

/-- A write of one segment that meets a refusal is answered with it. -/
theorem State.firstSegment_refused (last : r.segLast = true) {c : Nat} (check : s.checkWrite (some r.port) idx sub v = c)
    (refused : c ≠ stOk) : s.firstSegment r idx sub v.length v at' = s.dictReply r 0x11 c idx sub v.length 0 true [] := by
  have whole : s.wholeWrite r idx sub v.length 0 v at' = s.dictReply r 0x11 c idx sub v.length 0 true [] := by
    unfold State.wholeWrite
    rw [check]
    exact if_pos refused
  unfold State.firstSegment
  dsimp only
  cases found : findAny idx sub with
  | error e =>
    have answer : e = c := by rw [← check, State.checkWrite, found]
    rw [last, answer]
  | ok d =>
    cases fault : s.accessFault (some r.port) d idx sub v with
    | some e =>
      have answer : e = c := by simp only [← check, State.checkWrite, found, fault]
      dsimp only
      rw [last, fault, answer]
    | none =>
      dsimp only
      rw [fault]
      exact (if_pos last).trans ((if_neg fun short => short rfl).trans whole)

/-- One that meets none is accepted, and answered with OK, unless it is to be programmed first. -/
theorem State.firstSegment_accepted (last : r.segLast = true) (check : s.checkWrite (some r.port) idx sub v = stOk)
    (now : isPersistent idx sub v = false) : s.firstSegment r idx sub v.length v at'
      = (s.accept (some r.port) idx sub v at').dictReply r 0x11 stOk idx sub v.length 0 true [] := by
  obtain ⟨d, found, free⟩ := State.checkWrite_ok check
  unfold State.firstSegment
  dsimp only
  rw [found]
  dsimp only
  rw [free]
  dsimp only
  rw [if_pos last, if_neg fun short => short rfl]
  unfold State.wholeWrite
  dsimp only
  rw [check, if_neg fun bad => bad rfl, if_neg (by rw [now]; nofun)]

/-- A port without an open write opens one with the first segment of a longer value. -/
theorem State.firstSegment_opens (more : r.segLast = false) (full : v.length = 8192) {d : ObjDef} (found : findAny idx sub = .ok d)
    (free : s.accessFault (some r.port) d idx sub v = none) {total : Nat} (length : d.lengthOk total = true)
    (closed : s.dict.writes.any (fun w => decide (w.port = r.port)) = false) : s.firstSegment r idx sub total v at'
      = (s.setDict { s.dict with
          token := nextToken s.dict.token
          writes := s.dict.writes ++ [⟨r.port, nextToken s.dict.token, idx, sub, total, 1, v⟩] }).dictReply r 0x11 stOk idx sub total
            (nextToken s.dict.token).toNat false [] := by
  unfold State.firstSegment
  dsimp only
  rw [found]
  dsimp only
  rw [free]
  dsimp only
  rw [if_neg (by rw [more]; nofun), if_neg (by rw [length]; nofun), if_neg fun short => short full, if_neg (by rw [closed]; nofun)]

/-- A segment under a token that its port has no open write of. -/
theorem State.laterSegment_unopened {token : BitVec 16}
    (unopened : s.dict.writes.all (fun w => !decide (w.port = r.port ∧ w.token = token)) = true) (total : Nat) :
    s.laterSegment r idx sub total token v at' = s.dictReply r 0x11 stSegment idx sub total token.toNat r.segLast [] := by
  have missing : s.dict.writes.find? (fun w => decide (w.port = r.port ∧ w.token = token ∧ token ≠ 0)) = none := by
    refine List.find?_eq_none.mpr fun w mem hit => ?_
    have not := List.all_eq_true.mp unopened w mem
    obtain ⟨port, same, -⟩ := of_decide_eq_true hit
    rw [decide_eq_true ⟨port, same⟩] at not
    cases not
  unfold State.laterSegment
  dsimp only
  rw [missing]

end

/-! ### The command -/

section
variable {s : State} {r : Req} {idx : BitVec 16} {sub : Byte} {total : BitVec 32} {token : BitVec 16} {v : Bytes}

/-- The state in which a DICT_WRITE is served: its request has been heard. -/
abbrev State.whenWritten (s : State) (r : Req) (v : Bytes) : State := s.heard r.port.val v.length (chanNo r.chan)

/-- A DICT_WRITE that asks for no reset ends with its segment. -/
theorem dictWrite_serves (hs : s.Serves r) {u : State} (serve : (if r.seg = 0 ∧ token = 0
      then (s.whenWritten r v).firstSegment r idx.toNat sub.toNat total.toNat v s.clock.now
      else (s.whenWritten r v).laterSegment r idx.toNat sub.toNat total.toNat token v s.clock.now) = u)
    (clock : u.clock = s.clock) (power : u.power = s.power) : exec (.dictWrite r idx sub total token v) s = .next u := by
  refine congrArg Host.Outcome.next ?_
  unfold State.dictWrite
  rw [State.serve_admitted hs.admits, serve]
  exact State.resetEarly_off (by rw [clock, power]; exact hs.noReset)

/-- TOTAL_LENGTH of a write of one segment. -/
theorem toNat_length (short : v.length ≤ 8192) : (BitVec.ofNat 32 v.length).toNat = v.length := by
  rw [BitVec.toNat_ofNat]
  omega

theorem State.dictReply_clock (s : State) (type status i j total token : Nat) (last : Bool) (payload : Bytes) :
    (s.dictReply r type status i j total token last payload).clock = s.clock := State.reply_clock ..

theorem State.dictReply_power (s : State) (type status i j total token : Nat) (last : Bool) (payload : Bytes) :
    (s.dictReply r type status i j total token last payload).power = s.power := State.reply_power ..

theorem dictWrite_refused (hs : s.Serves r) (short : v.length ≤ 8192) (first : r.seg = 0) (last : r.segLast = true)
    (refused : s.checkWrite (some r.port) idx.toNat sub.toNat v ≠ stOk) :
    exec (.dictWrite r idx sub (BitVec.ofNat 32 v.length) 0 v) s = .next ((s.whenWritten r v).dictReply r 0x11
      (s.checkWrite (some r.port) idx.toNat sub.toNat v) idx.toNat sub.toNat v.length 0 true []) := by
  refine dictWrite_serves hs ?_ (State.dictReply_clock ..) (State.dictReply_power ..)
  rw [if_pos ⟨first, rfl⟩, toNat_length short]
  exact State.firstSegment_refused last (State.checkWrite_heard ..) refused

theorem dictWrite_unopened (hs : s.Serves r) (under : token ≠ 0)
    (unopened : s.dict.writes.all (fun w => !decide (w.port = r.port ∧ w.token = token)) = true) :
    exec (.dictWrite r idx sub total token v) s = .next ((s.whenWritten r v).dictReply r 0x11 stSegment idx.toNat sub.toNat total.toNat
      token.toNat r.segLast []) :=
  dictWrite_serves hs ((if_neg fun fresh => under fresh.2).trans (State.laterSegment_unopened (s := s.whenWritten r v) unopened _))
    (State.dictReply_clock ..) (State.dictReply_power ..)

/-- A write has passed its checks: its object is there, and its length is right. -/
theorem State.checkWrite_length {who : Option Port} {i j : Nat} (ok : s.checkWrite who i j v = stOk) :
    ∃ d, findAny i j = .ok d ∧ 1 < d.access ∧ d.lengthOk v.length = true := by
  obtain ⟨d, found, free⟩ := State.checkWrite_ok ok
  refine ⟨d, found, ?_, ?_⟩
  · by_contra fixed
    unfold State.accessFault at free
    dsimp only at free
    rw [if_pos (by omega)] at free
    cases free
  · unfold State.checkWrite at ok
    rw [found] at ok
    dsimp only at ok
    rw [free] at ok
    by_contra bad
    dsimp only at ok
    rw [if_pos (by simpa using bad)] at ok
    cases ok

/-- An object that can be written has a row: sub-index 00 is constant. -/
theorem findObj_of_writable {i j : Nat} {d d' : ObjDef} (found : findAny i j = .ok d) (writable : 1 < d.access)
    (row : findObj i j = some d') : d = d' := by
  obtain rfl | row' := findAny_ok found
  · exact absurd writable (by simp [subZero])
  · exact Option.some.inj (row'.symm.trans row)

/-- LOCK_INDEX is a control. -/
theorem lockIndex_control {sub : Nat} {d : ObjDef} (row : findObj 0x1002 sub = some d) : d.access = 3 := by
  have controls : objTable.all (fun d => !(decide (d.idx ≤ 0x1002) && decide (0x1002 < d.idx + d.n)) || decide (d.access = 3)) = true := by
    decide +kernel
  have covers : d.covers 0x1002 sub = true := List.find?_some (p := fun d : ObjDef => d.covers 0x1002 sub) row
  have here := List.all_eq_true.mp controls d (List.mem_of_find?_eq_some row)
  simp only [ObjDef.covers, Bool.and_eq_true] at covers
  obtain ⟨⟨⟨low, high⟩, -⟩, -⟩ := covers
  simpa [low, high] using here

/-- A stored object whose row is not persistent is not programmed. -/
theorem isPersistent_of_row {idx sub : Nat} {d : ObjDef} (row : findObj idx sub = some d) (stored : d.access ≠ 3)
    (once : d.persist = false) (v : Bytes) : isPersistent idx sub v = false := by
  have noLock : idx ≠ 0x1002 := by
    rintro rfl
    exact stored (lockIndex_control row)
  simp [isPersistent, row, once, noLock]

theorem dictWrite_stores (hs : s.Serves r) (short : v.length ≤ 8192) (first : r.seg = 0) (last : r.segLast = true)
    (ok : s.checkWrite (some r.port) idx.toNat sub.toNat v = stOk) {d : ObjDef} (row : findObj idx.toNat sub.toNat = some d)
    (stored : d.access = 2 ∨ d.access = 4) (number : d.isBytes = false) (once : d.persist = false) (noTime : idx.toNat ≠ 0x4040) :
    ∃ t, exec (.dictWrite r idx sub (BitVec.ofNat 32 v.length) 0 v) s = .next t
      ∧ Accepted s t r idx.toNat sub.toNat v.length d.type
      ∧ t.obj idx.toNat sub.toNat = Nat.land (numOf v) d.mask ∧ t.gov idx.toNat sub.toNat = s.gov idx.toNat sub.toNat
      ∧ OnlyObjs [(idx.toNat, sub.toNat)] s t ∧ Changes [.port r.port.val, .dict] s t := by
  obtain ⟨d', found, writable, length⟩ := State.checkWrite_length ok
  obtain rfl := findObj_of_writable found writable row
  have fits : v.length = d'.size := by
    unfold ObjDef.lengthOk at length
    rw [number] at length
    exact of_decide_eq_true length
  have now : isPersistent idx.toNat sub.toNat v = false := isPersistent_of_row row (by omega) once v
  let u := (s.whenWritten r v).put idx.toNat sub.toNat (d'.valueIn v)
  have accepted : (s.whenWritten r v).accept (some r.port) idx.toNat sub.toNat v s.clock.now = u :=
    State.accept_stores _ _ v _ row (by omega) number noTime
  have run : exec (.dictWrite r idx sub (BitVec.ofNat 32 v.length) 0 v) s = .next (u.dictReply r 0x11 stOk idx.toNat sub.toNat
      v.length 0 true []) := by
    refine dictWrite_serves hs ?_ (State.dictReply_clock ..) (State.dictReply_power ..)
    rw [if_pos ⟨first, rfl⟩, toNat_length short, State.firstSegment_accepted last ((State.checkWrite_heard ..).trans ok) now, accepted]
  rw [State.dictReply_reply _ _ _ _ _ _ _ _ (by omega) (by decide), typeCode_of_ok found] at run
  have written : Changes [.dict] (s.whenWritten r v) u := changes_of_keep (by simp [u])
  refine ⟨_, run, State.replied_after hs.roomy written rfl true _ _ _ (by simp), ?_, ?_, ?_, changes_of_keep (by simp [u])⟩
  · rw [State.obj_reply]
    exact State.obj_put_valueIn _ row number fits.le
  · rw [State.gov_reply]
    rfl
  · exact (onlyObjs_put (s.whenWritten r v) idx.toNat sub.toNat (d'.valueIn v)).trans
      (OnlyObjs.of_eq [] (State.reply_dict ..) (congrArg Power.ids (State.reply_power ..)))

theorem dictWrite_opens (hs : s.Serves r) (first : r.seg = 0) (more : r.segLast = false) (full : v.length = 8192) {d : ObjDef}
    (found : findAny idx.toNat sub.toNat = .ok d) (free : s.accessFault (some r.port) d idx.toNat sub.toNat v = none)
    (length : d.lengthOk total.toNat = true) (closed : s.dict.writes.all (fun w => decide (w.port ≠ r.port)) = true) :
    ∃ t, exec (.dictWrite r idx sub total 0 v) s = .next t
      ∧ t.dict = { s.dict with
          token := nextToken s.dict.token
          writes := s.dict.writes ++ [⟨r.port, nextToken s.dict.token, idx.toNat, sub.toNat, total.toNat, 1, v⟩] }
      ∧ Replied s t r 0x11 0x0000 (dictArgs idx.toNat sub.toNat total.toNat (nextToken s.dict.token).toNat d.type) []
      ∧ Changes [.port r.port.val, .dict] s t := by
  have noOpen : s.dict.writes.any (fun w => decide (w.port = r.port)) = false := by
    simpa using closed
  let u := (s.whenWritten r v).setDict { s.dict with
    token := nextToken s.dict.token
    writes := s.dict.writes ++ [⟨r.port, nextToken s.dict.token, idx.toNat, sub.toNat, total.toNat, 1, v⟩] }
  have run : exec (.dictWrite r idx sub total 0 v) s = .next (u.dictReply r 0x11 stOk idx.toNat sub.toNat total.toNat
      (nextToken s.dict.token).toNat false []) :=
    dictWrite_serves hs ((if_pos ⟨first, rfl⟩).trans (State.firstSegment_opens (s := s.whenWritten r v) more full found
      ((State.accessFault_heard ..).trans free) length noOpen)) (State.dictReply_clock ..) (State.dictReply_power ..)
  rw [State.dictReply_reply _ _ _ _ _ _ _ _ total.isLt (BitVec.isLt _), typeCode_of_ok found] at run
  have written : Changes [.dict] (s.whenWritten r v) u := changes_of_keep (by simp [u])
  exact ⟨_, run, State.reply_dict .., State.replied_after hs.roomy written rfl false _ _ _ (by simp), changes_of_keep (by simp [u])⟩

end

/-- Settles O13: a read by what it finds, a write by the first refusal that it meets, and by whether its segment is the first. -/
theorem dictionaryIsServed : Obligations.DictionaryIsServed := by
  unfold Obligations.DictionaryIsServed
  refine ⟨fun s r idx sub admits roomy first => ⟨fun d found => ⟨?read, fun e fault => ?unreadable, ?describe⟩, fun e missing => ?missing⟩,
    fun s r idx sub v hs short first => ⟨fun last refused => ?refused, fun last ok d row stored number once noTime => ?stored,
      fun whole more full d found free length closed => ?opened⟩,
    fun s r idx sub total token v hs short under unopened => ?unopened⟩
  case read => exact fun readable short => dictRead_answers admits roomy found first readable short
  case unreadable =>
    obtain ⟨t, run, replied, changes, -⟩ := State.only_dictReplies roomy (by simp) (by decide) (by decide) (dictRead_refused admits found fault)
    rw [typeCode_of_ok found] at replied
    exact ⟨t, run, replied, changes⟩
  case describe =>
    have size : ((s.whenRead r idx sub).describe d idx.toNat sub.toNat).length = 64 := length_bytesOf ..
    obtain ⟨t, run, replied, changes, -⟩ := State.only_dictReplies roomy (by omega) (by decide) (by decide)
      (dictRead_describes admits found)
    rw [typeCode_of_ok found] at replied
    exact ⟨t, run, replied, size, changes⟩
  case missing =>
    obtain ⟨t, run, replied, changes, -⟩ := State.only_dictReplies roomy (by simp) (by decide) (by decide) (dictRead_missing admits missing)
    rw [typeCode_of_error missing] at replied
    exact ⟨t, run, replied, changes⟩
  case refused =>
    obtain ⟨t, run, replied, changes, cells⟩ := State.only_dictReplies hs.roomy (by simp) (by omega) (by decide)
      (dictWrite_refused hs short first last refused)
    exact ⟨t, run, replied, cells, changes⟩
  case stored => exact dictWrite_stores hs short first last ok row stored number once noTime
  case opened => exact dictWrite_opens hs first more full found free length closed
  case unopened =>
    obtain ⟨t, run, replied, changes, cells⟩ := State.only_dictReplies hs.roomy (by simp) total.isLt token.isLt
      (dictWrite_unopened hs under unopened)
    exact ⟨t, run, replied, cells, changes⟩

end Sys2Proof.Machine
end
